-- ==== Sys2Proof/Word.lean ====
section
/-! DEFINITION. The machine's word and byte types (00 R5, 03 R50), and the sparse map in which State keeps
what is too large to list in full. -/

namespace Sys2Proof

/-- A scalar register, an address while it is computed, a control register (03 R50). -/
abbrev Word := BitVec 64

/-- The smallest addressable unit (00 R5). -/
abbrev Byte := BitVec 8

/-- A sparse map from numbers to values in ONE canonical form: keys strictly rising, and no entry equal to what an
unlisted key reads as. -/
abbrev SMap (α : Type) := List (Nat × α)

end Sys2Proof
end

