-- ==== Sys2Proof/Syntax.lean ====
section
/-! DEFINITION. The instructions: one constructor per row of the opcode table, in its order. The arguments of an
instruction word are its fields of the opcode table, under the table's names and from the lowest bit up: d, a, b
registers; k mask or code; z inactive policy; s the sb form. A row that has no word (a command, a packet, a step of
one of the device's own agents) carries what that step is about. -/

namespace Sys2Proof

/-- What the verification of a firmware image finds (R335, R338): the spec names ECDSA on P-521 and SHA-512 and does
not define them, so the verdict arrives with the event. -/
structure FwVerdict where
  sigOk : Bool
  digestOk : Bool
  version : Nat
  deriving DecidableEq, Repr

/-- What bring-up finds after a reset (R336): the signature and the digest of the staged and of the active image, whose versions
are those of their banks, whether every site, compute die and the HFD pass, the lane groups (core, lane group) that fail, and the Lantern columns (core,
column). -/
structure BringUp where
  staged : FwVerdict
  active : FwVerdict
  diesPass : Bool
  lanesFailed : List (Nat × Nat)
  columnsFailed : List (Nat × Nat)
  deriving DecidableEq, Repr

/-- What one other rank brings to a collective (R332, R334): the fields its record must match, and its source bytes. -/
structure CollPart where
  rank : Nat
  op : Nat
  et : Nat
  count : Nat
  nrank : Nat
  bytes : List (BitVec 8)
  deriving DecidableEq, Repr

/-- One constructor per row of the opcode table. -/
inductive Instr where
  /-- ADD, R342. -/
  | add (d a b : BitVec 6)
  /-- SUB, R415. -/
  | sub (d a b : BitVec 6)
  /-- MUL, R389. -/
  | mul (d a b : BitVec 6)
  /-- MULH, R389. -/
  | mulh (d a b : BitVec 6) (u : BitVec 1)
  /-- DIV, R368. -/
  | div (d a b : BitVec 6) (u : BitVec 1)
  /-- REM, R398. -/
  | rem (d a b : BitVec 6) (u : BitVec 1)
  /-- AND, R351. -/
  | and (d a b : BitVec 6)
  /-- OR, R390. -/
  | or (d a b : BitVec 6)
  /-- XOR, R451. -/
  | xor (d a b : BitVec 6)
  /-- SHL, R403. -/
  | shl (d a b : BitVec 6)
  /-- SHR, R403. -/
  | shr (d a b : BitVec 6)
  /-- SAR, R403. -/
  | sar (d a b : BitVec 6)
  /-- MIN, R384. -/
  | min (d a b : BitVec 6) (u : BitVec 1)
  /-- MAX, R384. -/
  | max (d a b : BitVec 6) (u : BitVec 1)
  /-- SLT, R408. -/
  | slt (d a b : BitVec 6) (u : BitVec 1)
  /-- CNT, R360. -/
  | cnt (d a : BitVec 6) (k : BitVec 2)
  /-- ADDI, R343. -/
  | addi (d a : BitVec 6) (i : BitVec 13)
  /-- ANDI, R352. -/
  | andi (d a : BitVec 6) (i : BitVec 13)
  /-- ORI, R390. -/
  | ori (d a : BitVec 6) (i : BitVec 13)
  /-- XORI, R451. -/
  | xori (d a : BitVec 6) (i : BitVec 13)
  /-- SHLI, R403. -/
  | shli (d a i : BitVec 6)
  /-- SHRI, R403. -/
  | shri (d a i : BitVec 6)
  /-- SARI, R403. -/
  | sari (d a i : BitVec 6)
  /-- SLTI, R408. -/
  | slti (d a : BitVec 6) (i : BitVec 13)
  /-- LIH, R382. -/
  | lih (d : BitVec 6) (i : BitVec 19)
  /-- ADDPC, R344. -/
  | addpc (d : BitVec 6) (i : BitVec 19)
  /-- SFADD, R406. -/
  | sfadd (d a b : BitVec 6) (p : BitVec 2)
  /-- SFSUB, R406. -/
  | sfsub (d a b : BitVec 6) (p : BitVec 2)
  /-- SFMUL, R406. -/
  | sfmul (d a b : BitVec 6) (p : BitVec 2)
  /-- SFMA, R406. -/
  | sfma (d a b : BitVec 6) (p : BitVec 2)
  /-- SFDIV, R406. -/
  | sfdiv (d a b : BitVec 6) (p : BitVec 2)
  /-- SFSQRT, R406. -/
  | sfsqrt (d a : BitVec 6) (p : BitVec 2)
  /-- SFCVT, R407. -/
  | sfcvt (d a : BitVec 6) (s t : BitVec 3)
  /-- SFMM, R406. -/
  | sfmm (d a b : BitVec 6) (p : BitVec 2) (x : BitVec 1)
  /-- SFCMP, R406. -/
  | sfcmp (d a b : BitVec 6) (c p : BitVec 2)
  /-- SPSET, R409. -/
  | spset (a : BitVec 6)
  /-- BEQ, R356. -/
  | beq (a b : BitVec 6) (o : BitVec 13)
  /-- BNE, R356. -/
  | bne (a b : BitVec 6) (o : BitVec 13)
  /-- BLT, R356. -/
  | blt (a b : BitVec 6) (o : BitVec 13)
  /-- BGE, R356. -/
  | bge (a b : BitVec 6) (o : BitVec 13)
  /-- BLTU, R356. -/
  | bltu (a b : BitVec 6) (o : BitVec 13)
  /-- BGEU, R356. -/
  | bgeu (a b : BitVec 6) (o : BitVec 13)
  /-- STRIP, R56. -/
  | strip (a : BitVec 6) (o : BitVec 13)
  /-- JAL, R372. -/
  | jal (d : BitVec 6) (o : BitVec 19)
  /-- JALR, R373. -/
  | jalr (d a : BitVec 6) (i : BitVec 13)
  /-- LD, R378. -/
  | ld (d a : BitVec 6) (o : BitVec 10) (z : BitVec 3)
  /-- ST, R410. -/
  | st (d a : BitVec 6) (o : BitVec 10) (z : BitVec 3)
  /-- LDS, R380. -/
  | lds (d a : BitVec 6) (c : BitVec 2) (q : BitVec 1) (z : BitVec 3)
  /-- STS, R413. -/
  | sts (d a : BitVec 6) (c : BitVec 2) (r : BitVec 1) (z : BitVec 3)
  /-- WAITVAL, R445. -/
  | waitval (d a : BitVec 6) (s : BitVec 2) (q w : BitVec 1) (c : BitVec 3)
  /-- AMO, R347. -/
  | amo (c : BitVec 2) (d a b : BitVec 6) (o : BitVec 4) (w q r : BitVec 1)
  /-- SETVL, R404. -/
  | setvl (d a : BitVec 6)
  /-- SETVLI, R404. -/
  | setvli (d : BitVec 6) (i : BitVec 19)
  /-- VLD, R431. -/
  | vld (d a b : BitVec 6) (k : BitVec 4) (z : BitVec 1) (m : BitVec 2)
  /-- VLD_RAW, R431. -/
  | vldRaw (d a b : BitVec 6) (k : BitVec 4) (z : BitVec 1) (m : BitVec 2)
  /-- VST, R431. -/
  | vst (d a b : BitVec 6) (k : BitVec 4) (m : BitVec 2)
  /-- VST_RAW, R431. -/
  | vstRaw (d a b : BitVec 6) (k : BitVec 4) (m : BitVec 2)
  /-- VLDFF, R247. -/
  | vldff (d a b : BitVec 6) (k : BitVec 4) (z : BitVec 1) (m : BitVec 2)
  /-- VLDFF_RAW, R247. -/
  | vldffRaw (d a b : BitVec 6) (k : BitVec 4) (z : BitVec 1) (m : BitVec 2)
  /-- VAMO, R419. -/
  | vamo (d : BitVec 6) (o : BitVec 4) (c : BitVec 2) (b : BitVec 6) (k : BitVec 4) (z q r : BitVec 1)
  /-- VADD, R418. -/
  | vadd (d a b : BitVec 6) (k : BitVec 4) (z s : BitVec 1)
  /-- VSUB, R418. -/
  | vsub (d a b : BitVec 6) (k : BitVec 4) (z s : BitVec 1)
  /-- VMUL, R418. -/
  | vmul (d a b : BitVec 6) (k : BitVec 4) (z s : BitVec 1)
  /-- VMULH, R418. -/
  | vmulh (d a b : BitVec 6) (k : BitVec 4) (z s u : BitVec 1)
  /-- VMIN, R418. -/
  | vmin (d a b : BitVec 6) (k : BitVec 4) (z s u : BitVec 1)
  /-- VMAX, R418. -/
  | vmax (d a b : BitVec 6) (k : BitVec 4) (z s u : BitVec 1)
  /-- VAND, R418. -/
  | vand (d a b : BitVec 6) (k : BitVec 4) (z s : BitVec 1)
  /-- VOR, R418. -/
  | vor (d a b : BitVec 6) (k : BitVec 4) (z s : BitVec 1)
  /-- VXOR, R418. -/
  | vxor (d a b : BitVec 6) (k : BitVec 4) (z s : BitVec 1)
  /-- VSHL, R418. -/
  | vshl (d a b : BitVec 6) (k : BitVec 4) (z s : BitVec 1)
  /-- VSHR, R418. -/
  | vshr (d a b : BitVec 6) (k : BitVec 4) (z s : BitVec 1)
  /-- VSAR, R418. -/
  | vsar (d a b : BitVec 6) (k : BitVec 4) (z s : BitVec 1)
  /-- VADDSAT, R418. -/
  | vaddsat (d a b : BitVec 6) (k : BitVec 4) (z s u : BitVec 1)
  /-- VSUBSAT, R418. -/
  | vsubsat (d a b : BitVec 6) (k : BitVec 4) (z s u : BitVec 1)
  /-- VFADD, R426. -/
  | vfadd (d a b : BitVec 6) (k : BitVec 4) (z s : BitVec 1)
  /-- VFSUB, R426. -/
  | vfsub (d a b : BitVec 6) (k : BitVec 4) (z s : BitVec 1)
  /-- VFMUL, R426. -/
  | vfmul (d a b : BitVec 6) (k : BitVec 4) (z s : BitVec 1)
  /-- VFMA, R426. -/
  | vfma (d a b : BitVec 6) (k : BitVec 4) (z s n : BitVec 1)
  /-- VFDIV, R426. -/
  | vfdiv (d a b : BitVec 6) (k : BitVec 4) (z s : BitVec 1)
  /-- VFSQRT, R426. -/
  | vfsqrt (d a : BitVec 6) (k : BitVec 4) (z : BitVec 1)
  /-- VFMIN, R426. -/
  | vfmin (d a b : BitVec 6) (k : BitVec 4) (z s : BitVec 1)
  /-- VFMAX, R426. -/
  | vfmax (d a b : BitVec 6) (k : BitVec 4) (z s : BitVec 1)
  /-- VFRCP, R426. -/
  | vfrcp (d a : BitVec 6) (k : BitVec 4) (z : BitVec 1)
  /-- VFRSQ, R426. -/
  | vfrsq (d a : BitVec 6) (k : BitVec 4) (z : BitVec 1)
  /-- VFEXP2, R426. -/
  | vfexp2 (d a : BitVec 6) (k : BitVec 4) (z : BitVec 1)
  /-- VFLOG2, R426. -/
  | vflog2 (d a : BitVec 6) (k : BitVec 4) (z : BitVec 1)
  /-- VFSGN, R426. -/
  | vfsgn (d a b : BitVec 6) (k : BitVec 4) (z : BitVec 1) (g : BitVec 2)
  /-- VCMP, R422. -/
  | vcmp (d : BitVec 4) (u s : BitVec 1) (a b : BitVec 6) (k : BitVec 4) (z : BitVec 1) (c : BitVec 2)
  /-- VFCMP, R422. -/
  | vfcmp (d : BitVec 4) (s : BitVec 1) (a b : BitVec 6) (k : BitVec 4) (z : BitVec 1) (c : BitVec 2)
  /-- KOP, R375. -/
  | kop (d a b o : BitVec 4)
  /-- KPOP, R375. -/
  | kpop (d : BitVec 6) (a k : BitVec 4)
  /-- KFIRST, R375. -/
  | kfirst (d : BitVec 6) (a k : BitVec 4)
  /-- KMOV, R375. -/
  | kmov (d a : BitVec 4)
  /-- MTREE, R322. -/
  | mtree (d : BitVec 4) (a b : BitVec 6)
  /-- VCVT, R424. -/
  | vcvt (d a : BitVec 6) (s : BitVec 3) (k : BitVec 4) (z : BitVec 1)
  /-- VNARROW, R437. -/
  | vnarrow (d : BitVec 6) (a : BitVec 5) (n : BitVec 2) (k : BitVec 4) (z : BitVec 1)
  /-- VWIDEN, R438. -/
  | vwiden (d : BitVec 5) (a : BitVec 6) (u : BitVec 1) (k : BitVec 4) (z : BitVec 1)
  /-- VMERGE, R435. -/
  | vmerge (d a b : BitVec 6) (k : BitVec 4) (s : BitVec 1)
  /-- VPERM, R439. -/
  | vperm (d a b : BitVec 6) (k : BitVec 4) (z : BitVec 1)
  /-- VSLIDE, R440. -/
  | vslide (d a b : BitVec 6) (k : BitVec 4) (z r : BitVec 1)
  /-- VCOMPRESS, R423. -/
  | vcompress (d a : BitVec 6) (k : BitVec 4) (z : BitVec 1)
  /-- VEXPAND, R423. -/
  | vexpand (d a : BitVec 6) (k : BitVec 4) (z : BitVec 1)
  /-- VIOTA, R429. -/
  | viota (d : BitVec 6) (k : BitVec 4) (z : BitVec 1)
  /-- VBCAST, R421. -/
  | vbcast (d a b : BitVec 6) (k : BitVec 4) (z f : BitVec 1)
  /-- VMOVX, R436. -/
  | vmovx (d a : BitVec 6) (k : BitVec 4) (z y : BitVec 1)
  /-- VEXT, R425. -/
  | vext (d a b : BitVec 6)
  /-- VINS, R428. -/
  | vins (d a b : BitVec 6)
  /-- VREDSUM, R441. -/
  | vredsum (d a b : BitVec 6) (k : BitVec 4)
  /-- VREDMAX, R441. -/
  | vredmax (d a b : BitVec 6) (k : BitVec 4) (u : BitVec 1)
  /-- VREDMIN, R441. -/
  | vredmin (d a b : BitVec 6) (k : BitVec 4) (u : BitVec 1)
  /-- VFREDSUM, R427. -/
  | vfredsum (d a b : BitVec 6) (k : BitVec 4)
  /-- VFREDMAX, R427. -/
  | vfredmax (d a b : BitVec 6) (k : BitVec 4)
  /-- VREDSEQ, R442. -/
  | vredseq (d a b : BitVec 6) (k : BitVec 4)
  /-- VTMUL, R160. -/
  | vtmul (d a b : BitVec 6) (k : BitVec 4) (z t : BitVec 1)
  /-- VTCONJ, R165. -/
  | vtconj (d a : BitVec 6) (k : BitVec 4) (z t v : BitVec 1)
  /-- RPT, R65. -/
  | rpt (n : BitVec 6) (k : BitVec 4) (d a b r : BitVec 3)
  /-- ALGLD, R156. -/
  | algld (a : BitVec 6) (t : BitVec 1)
  /-- PHASE, R227. -/
  | phase
  /-- FENCE, R226. -/
  | fence (t : BitVec 3)
  /-- YIELD, R266. -/
  | yield
  /-- JOIN, R39. -/
  | join
  /-- RETIRE, R400. -/
  | retire
  /-- BAR, R354. -/
  | bar (g b : BitVec 2)
  /-- PUBLISH, R232. -/
  | publish (p : BitVec 5) (f : BitVec 1)
  /-- QPUSH, R395. -/
  | qpush (a : BitVec 6) (q : BitVec 4)
  /-- QPOP, R395. -/
  | qpop (d a : BitVec 6) (q : BitVec 4)
  /-- FORK, R370. -/
  | fork (d : BitVec 6) (o : BitVec 19)
  /-- MROW, R176. -/
  | mrow (r : BitVec 10) (a : BitVec 6) (c t : BitVec 2) (z x : BitVec 1) (f : BitVec 3)
  /-- MRD, R179. -/
  | mrd (r : BitVec 10) (a : BitVec 6) (c s : BitVec 2) (x : BitVec 1) (f : BitVec 3)
  /-- MWR, R180. -/
  | mwr (r : BitVec 10) (a : BitVec 6) (c : BitVec 2) (z x : BitVec 1) (f : BitVec 3)
  /-- MCLR, R178. -/
  | mclr (r : BitVec 10) (n : BitVec 6) (f : BitVec 3)
  /-- MCHK, R188. -/
  | mchk (r n : BitVec 5)
  /-- MLOC, R190. -/
  | mloc (r : BitVec 5) (d : BitVec 6)
  /-- MFIX, R191. -/
  | mfix (r : BitVec 5) (a : BitVec 6)
  /-- WLD, R170. -/
  | wld (w : BitVec 4) (a b : BitVec 6) (c : BitVec 4)
  /-- WLDFF, R172. -/
  | wldff (w : BitVec 4) (a b : BitVec 6) (c : BitVec 4)
  /-- WSEL, R173. -/
  | wsel (w : BitVec 4)
  /-- XCOPY, R205. -/
  | xcopy (a b : BitVec 6) (c : BitVec 4)
  /-- XFILL, R450. -/
  | xfill (a b : BitVec 6) (c : BitVec 4)
  /-- RCFENCE, R209. -/
  | rcfence (a : BitVec 6) (o : BitVec 1)
  /-- WAITLT, R212. -/
  | waitlt (c : BitVec 4) (t : BitVec 9)
  /-- KVCOMMIT, R324. -/
  | kvcommit (a b : BitVec 6) (c : BitVec 4)
  /-- COLL, R333. -/
  | coll (a : BitVec 6) (c : BitVec 4)
  /-- CTLRD, R364. -/
  | ctlrd (d : BitVec 6) (c : BitVec 12)
  /-- CTLWR, R364. -/
  | ctlwr (d : BitVec 6) (c : BitVec 12)
  /-- TRAP, R416. -/
  | trap (c : BitVec 12)
  /-- BREAK, R358. -/
  | brk (c : BitVec 12)
  /-- RESUME, R262. -/
  | resume
  /-- CLAIM, R262. -/
  | claim
  /-- LOGMARK, R383. -/
  | logmark (d : BitVec 6) (c : BitVec 12)
  /-- CTX_CREATE, R27: function `f` creates context `num` from the record at `rec` (a function PA). -/
  | ctxCreate (f num rec : Nat)
  /-- CTX_DESTROY, R27. -/
  | ctxDestroy (f num : Nat)
  /-- FN_SET, R252: the record of function `g` stands at PA `rec`. -/
  | fnSet (f g rec : Nat)
  /-- EVSET, R282: base, log2 of the size, head and tail word addresses, vector. -/
  | evset (f base logsz headA tailA vec : Nat)
  /-- INVAL_S1, R249: context, VA base, 64 KiB pages. -/
  | invalS1 (f num va pages : Nat)
  /-- INVAL_S2, R249: VMID, GPA base, bytes. -/
  | invalS2 (f vmid gpa bytes : Nat)
  /-- S2_RETRY, R253: event number. -/
  | s2Retry (f evt : Nat)
  /-- S2_DECLINE, R253: event number. -/
  | s2Decline (f evt : Nat)
  /-- QENABLE, R273. -/
  | qenable (f q : Nat)
  /-- QDISABLE, R273. -/
  | qdisable (f q : Nat)
  /-- FREC_READ, R319. -/
  | frecRead (f : Nat)
  /-- LANE_MASK_READ, R319. -/
  | laneMaskRead (f : Nat)
  /-- LANE_RETEST, R320: `pass` is the self-test's verdict, which the silicon gives. -/
  | laneRetest (f core lg : Nat) (pass : Bool)
  /-- SNUFF, R321. -/
  | snuff (f : Nat)
  /-- PWR_LIMIT, R339: watts. -/
  | pwrLimit (f watts : Nat)
  /-- PEER_SET, R330: entry `p` of function `g`: valid, link mask, the peer's function number. -/
  | peerSet (f g p : Nat) (v : Bool) (links peerFn : Nat)
  /-- COMM_SET, R332: the peer entry of each rank, and this device's rank. -/
  | commSet (f comm : Nat) (peers : List Nat) (rank : Nat)
  /-- FW_UPDATE BEGIN, R338: total image length. -/
  | fwUpdateBegin (f len : Nat)
  /-- FW_UPDATE DATA, R338. -/
  | fwUpdateData (f off : Nat) (bytes : List (BitVec 8))
  /-- FW_UPDATE COMMIT, R338: `v` is what the verification of R335 finds. -/
  | fwUpdateCommit (f : Nat) (v : FwVerdict)
  /-- FW_UPDATE ABORT, R338. -/
  | fwUpdateAbort (f : Nat)
  /-- FW_UPDATE STATUS, R338. -/
  | fwUpdateStatus (f : Nat)
  /-- QUEUE_ATTEMPT, R277: one attempt on queue `q` of function `f`. -/
  | queueAttempt (f q : Nat)
  /-- NOP packet, R279. -/
  | nop (f q : Nat)
  /-- LAUNCH packet, R279. -/
  | launch (f q : Nat)
  /-- ADMISSION, R285. -/
  | admission (f q : Nat)
  /-- SIGNAL packet, R279. -/
  | signal (f q : Nat)
  /-- SIGNAL_STORE, R279. -/
  | signalStore (f q : Nat)
  /-- WAITVAL packet, R279. -/
  | waitvalPacket (f q : Nat)
  /-- WAITVAL packet satisfied, R279. -/
  | waitvalPacketSatisfied (f q : Nat)
  /-- CODEFENCE packet, R279. -/
  | codefence (f q : Nat)
  /-- CODEFENCE_ADVANCE, R290. -/
  | codefenceAdvance (f q : Nat)
  /-- SETDET packet, R291. -/
  | setdet (f q : Nat)
  /-- SETDET_APPLY, R291. -/
  | setdetApply (f q : Nat)
  /-- CTXSW packet, R271. -/
  | ctxsw (f q : Nat)
  /-- CTXSW_ABORT, R271. -/
  | ctxswAbort (f q : Nat)
  /-- PLACE, R286: the dispatcher gives hart slot `hslot` of a context slot of `core` to the hart next in the order
  of R288. -/
  | place (core hslot : Nat)
  /-- QPOP_RETIRE_CHOICE, R287: launch and stage. -/
  | qpopRetireChoice (l stage : Nat)
  /-- LAUNCH_RETIRE, R299. -/
  | launchRetire (l : Nat)
  /-- QUANTUM_EXPIRY, R289. -/
  | quantumExpiry (core : Nat)
  /-- FORCED_STOP, R267: hart. -/
  | forcedStop (h : Nat)
  /-- NONYIELD, R267: hart. -/
  | nonyield (h : Nat)
  /-- SLOT_SWITCH, R24. -/
  | slotSwitch (core : Nat)
  /-- SPILL, R269: context slot `slot` of `core`. -/
  | spill (core slot : Nat)
  /-- RESTORE, R269: context `c` (function * 64 + number) into a context slot. -/
  | restore (core slot c : Nat)
  /-- BAR_WAIT_COMPLETE, R354. -/
  | barWaitComplete (h : Nat)
  /-- JOIN_COMPLETE, R39: the parent. -/
  | joinComplete (h : Nat)
  /-- QPOP_WAKE, R395. -/
  | qpopWake (h : Nat)
  /-- QPUSH_WAKE, R395. -/
  | qpushWake (h : Nat)
  /-- WAITVAL_WAKE, R445. -/
  | waitvalWake (h : Nat)
  /-- WAITLT_WAKE, R212. -/
  | waitltWake (h : Nat)
  /-- XCOPY_COMPLETE, R205: operation `n` (in issue order) of a context slot. -/
  | xcopyComplete (core slot n : Nat)
  /-- XFILL_COMPLETE, R450. -/
  | xfillComplete (core slot n : Nat)
  /-- WLD_COMPLETE, R170. -/
  | wldComplete (core slot n : Nat)
  /-- KVCOMMIT_COMPLETE, R324. -/
  | kvcommitComplete (core slot n : Nat)
  /-- COLL_COMPLETE, R334: the oldest collective of a communicator ends; what each other rank sent, and the chunks that
  failed their check twice. -/
  | collComplete (comm : Nat) (parts : List CollPart) (bad : List Nat)
  /-- COLL_LINK_TIMEOUT, R334. -/
  | collLinkTimeout (comm : Nat)
  /-- LANE_SELFTEST_DONE, R315: the hart parked on the test and the lanes that failed it. -/
  | laneSelftestDone (h : Nat) (failed : List Nat)
  /-- COLUMN_SELFTEST_DONE, R189: the hart parked on the test and the array columns that failed. -/
  | columnSelftestDone (h : Nat) (failed : List Nat)
  /-- CORE_RETIRED, R318. -/
  | coreRetired (core : Nat)
  /-- LOG_STALL, R305: context (function * 64 + number), kind 0, 1 or 2. -/
  | logStall (c kind : Nat)
  /-- HOST_MEM_ACCESS, R328: a read of `n` bytes, or a write of `bytes`, at PA `pa`. -/
  | hostMemAccess (write : Bool) (pa n : Nat) (bytes : List (BitVec 8))
  /-- SNUFF_N held low, R321. -/
  | snuffN
  /-- RESET, R336: what the bring-up's own tests find. -/
  | reset (r : BringUp)
  /-- THERMAL_SHUTDOWN, R339. -/
  | thermalShutdown
  /-- POWER_CONTROL, R292: the lane cap of `core` becomes `cap`. -/
  | powerControl (core cap : Nat)
  /-- ILLEGAL_OP, R104: the word at the hart's PC decodes as no instruction. -/
  | illegalOp (w : BitVec 32)
  /-- FETCH_FAULT, R244: PAGE (`perm` false) or PERM of kind exec at the hart's PC. -/
  | fetchFault (perm : Bool)
  /-- PEER_REQUEST, R331: an access of a peer at PA `pa` of this device. -/
  | peerRequest (write : Bool) (pa n : Nat) (bytes : List (BitVec 8))
  /-- SPDM_REQUEST, R335: measurement block asked for (0 for none), or IDE keys set. -/
  | spdmRequest (f block : Nat) (setKeys : Bool)
  /-- LINK_TRAIN_DOWN, R327: lanes and GT/s the host link trains to. -/
  | linkTrainDown (lanes rate : Nat)
  /-- DRAM_SCRUB, R319: what the scrubber finds at PA `pa`: nothing (0), a corrected (1) or an uncorrectable (2)
  error. -/
  | dramScrub (pa finding : Nat)
  /-- PEER_LINK_DOWN, R334: link PL`link` goes down, or comes back. -/
  | peerLinkDown (link : Nat) (down : Bool)
  deriving DecidableEq, Repr

end Sys2Proof
end

