-- ==== Sys2Proof/WellFormed.lean ====
section
/-! DEFINITION. Which instructions the encoding admits (04 R71, R90 to R99): the reasons a word is refused, and the
checks an instruction's fields pass. -/

namespace Sys2Proof

/-- Why a word is no instruction (04 R104). -/
inductive Reject where
  /-- Major 0x00, 0x7F or an unassigned major (R86). -/
  | reservedMajor
  /-- A reserved sub-function (R89, R96, R98, R99). -/
  | reservedSub
  /-- A nonzero must-be-zero field (R71). -/
  | mustBeZero
  /-- A reserved field value (R57, R90 to R98). -/
  | reservedField
  /-- A vector register field of 48 to 63, or a mask register field of 12 to 15 (R71). -/
  | badRegister
  /-- An odd register where a pair is required (R93). -/
  | oddPair
  /-- A static range that is exceeded (R95). -/
  | staticRange
  deriving DecidableEq, Repr

namespace WellFormed

/-- A check: `none` when it passes. -/
def check (p : Bool) (r : Reject) : Option Reject := if p then none else some r
/-- A vector register field accepts v0 to v47 (R71). -/
def vreg (x : BitVec 6) : Option Reject := check (x.toNat < 48) .badRegister
/-- The same, where the field names a vector register only under `p`. -/
def vregIf (p : Bool) (x : BitVec 6) : Option Reject := check (!p || x.toNat < 48) .badRegister
/-- A register pair, given by half its even number: v0, v2 … v46 (R93). -/
def pair (x : BitVec 5) : Option Reject := check (x.toNat < 24) .badRegister
/-- A mask register field accepts k0 to k11 (R71). -/
def kreg (x : BitVec 4) : Option Reject := check (x.toNat < 12) .badRegister
/-- A mask field accepts k0 to k11 and 15, unmasked (R57). -/
def maskOk (k : BitVec 4) : Option Reject := check (k.toNat < 12 || k = 15) .reservedField
/-- A field value that is not reserved. -/
def fieldOk (p : Bool) : Option Reject := check p .reservedField
/-- A static range (R95). -/
def rangeOk (p : Bool) : Option Reject := check p .staticRange
/-- A field that must be zero under `p`. -/
def zeroIf (p : Bool) (x : BitVec 6) : Option Reject := check (!p || x = 0) .mustBeZero
/-- Bits [24:19] of a vector memory word by mode (R92): hint 0 or 1 with the upper bits zero, a stride register, an
index register; mode 3 is reserved. -/
def vmOperand (m : BitVec 2) (b : BitVec 6) : Option Reject :=
  if m = 0 then check (b.toNat ≤ 1) .reservedField
  else if m = 1 then none
  else if m = 2 then vreg b
  else some .reservedField
/-- The first check that fails. -/
def first : List (Option Reject) → Option Reject
  | [] => none
  | some r :: _ => some r
  | none :: t => first t

end WellFormed

open WellFormed in
/-- Why the encoding refuses an instruction, if it does. A row that has no word is not the encoding's concern. -/
def Instr.reject : Instr → Option Reject
  | .add _ _ _ => none
  | .sub _ _ _ => none
  | .mul _ _ _ => none
  | .mulh _ _ _ _ => none
  | .div _ _ _ _ => none
  | .rem _ _ _ _ => none
  | .and _ _ _ => none
  | .or _ _ _ => none
  | .xor _ _ _ => none
  | .shl _ _ _ => none
  | .shr _ _ _ => none
  | .sar _ _ _ => none
  | .min _ _ _ _ => none
  | .max _ _ _ _ => none
  | .slt _ _ _ _ => none
  | .cnt _ _ k => fieldOk (k.toNat ≤ 2)
  | .addi _ _ _ => none
  | .andi _ _ _ => none
  | .ori _ _ _ => none
  | .xori _ _ _ => none
  | .shli _ _ _ => none
  | .shri _ _ _ => none
  | .sari _ _ _ => none
  | .slti _ _ _ => none
  | .lih _ _ => none
  | .addpc _ _ => none
  | .sfadd _ _ _ _ => none
  | .sfsub _ _ _ _ => none
  | .sfmul _ _ _ _ => none
  | .sfma _ _ _ _ => none
  | .sfdiv _ _ _ _ => none
  | .sfsqrt _ _ _ => none
  | .sfcvt _ _ _ _ => none
  | .sfmm _ _ _ _ _ => none
  | .sfcmp _ _ _ _ _ => none
  | .spset _ => none
  | .beq _ _ _ => none
  | .bne _ _ _ => none
  | .blt _ _ _ => none
  | .bge _ _ _ => none
  | .bltu _ _ _ => none
  | .bgeu _ _ _ => none
  | .strip _ _ => none
  | .jal _ _ => none
  | .jalr _ _ _ => none
  | .ld _ _ _ z => fieldOk (z.toNat ≤ 6)
  | .st _ _ _ z => fieldOk (z.toNat ≤ 3)
  | .lds _ _ _ _ z => fieldOk (z = 2 ∨ z = 3 ∨ z = 6)
  | .sts _ _ _ _ z => fieldOk (z = 2 ∨ z = 3)
  | .waitval _ _ _ _ _ c => fieldOk (c.toNat ≤ 5)
  | .amo _ _ _ _ o w _ _ => first [fieldOk (o.toNat ≤ 10), fieldOk (¬ (o = 10 ∧ w = 1))]
  | .setvl _ _ => none
  | .setvli _ _ => none
  | .vld d _ b k _ m => first [vreg d, vmOperand m b, maskOk k]
  | .vldRaw d _ b k _ m => first [vreg d, vmOperand m b, maskOk k]
  | .vst d _ b k m => first [vreg d, vmOperand m b, maskOk k]
  | .vstRaw d _ b k m => first [vreg d, vmOperand m b, maskOk k]
  | .vldff d _ b k _ m => first [vreg d, vmOperand m b, maskOk k]
  | .vldffRaw d _ b k _ m => first [vreg d, vmOperand m b, maskOk k]
  | .vamo d o _ b k _ _ _ => first [vreg d, vreg b, fieldOk (o.toNat ≤ 10 ∧ o ≠ 9), maskOk k]
  | .vadd d a b k _ s => first [vreg d, vreg a, vregIf (s = 0) b, maskOk k]
  | .vsub d a b k _ s => first [vreg d, vreg a, vregIf (s = 0) b, maskOk k]
  | .vmul d a b k _ s => first [vreg d, vreg a, vregIf (s = 0) b, maskOk k]
  | .vmulh d a b k _ s _ => first [vreg d, vreg a, vregIf (s = 0) b, maskOk k]
  | .vmin d a b k _ s _ => first [vreg d, vreg a, vregIf (s = 0) b, maskOk k]
  | .vmax d a b k _ s _ => first [vreg d, vreg a, vregIf (s = 0) b, maskOk k]
  | .vand d a b k _ s => first [vreg d, vreg a, vregIf (s = 0) b, maskOk k]
  | .vor d a b k _ s => first [vreg d, vreg a, vregIf (s = 0) b, maskOk k]
  | .vxor d a b k _ s => first [vreg d, vreg a, vregIf (s = 0) b, maskOk k]
  | .vshl d a b k _ s => first [vreg d, vreg a, vregIf (s = 0) b, maskOk k]
  | .vshr d a b k _ s => first [vreg d, vreg a, vregIf (s = 0) b, maskOk k]
  | .vsar d a b k _ s => first [vreg d, vreg a, vregIf (s = 0) b, maskOk k]
  | .vaddsat d a b k _ s _ => first [vreg d, vreg a, vregIf (s = 0) b, maskOk k]
  | .vsubsat d a b k _ s _ => first [vreg d, vreg a, vregIf (s = 0) b, maskOk k]
  | .vfadd d a b k _ s => first [vreg d, vreg a, vregIf (s = 0) b, maskOk k]
  | .vfsub d a b k _ s => first [vreg d, vreg a, vregIf (s = 0) b, maskOk k]
  | .vfmul d a b k _ s => first [vreg d, vreg a, vregIf (s = 0) b, maskOk k]
  | .vfma d a b k _ s _ => first [vreg d, vreg a, vregIf (s = 0) b, maskOk k]
  | .vfdiv d a b k _ s => first [vreg d, vreg a, vregIf (s = 0) b, maskOk k]
  | .vfsqrt d a k _ => first [vreg d, vreg a, maskOk k]
  | .vfmin d a b k _ s => first [vreg d, vreg a, vregIf (s = 0) b, maskOk k]
  | .vfmax d a b k _ s => first [vreg d, vreg a, vregIf (s = 0) b, maskOk k]
  | .vfrcp d a k _ => first [vreg d, vreg a, maskOk k]
  | .vfrsq d a k _ => first [vreg d, vreg a, maskOk k]
  | .vfexp2 d a k _ => first [vreg d, vreg a, maskOk k]
  | .vflog2 d a k _ => first [vreg d, vreg a, maskOk k]
  | .vfsgn d a b k _ g => first [vreg d, vreg a, vreg b, fieldOk (g ≠ 3), maskOk k]
  | .vcmp d _ s a b k _ _ => first [kreg d, vreg a, vregIf (s = 0) b, maskOk k]
  | .vfcmp d s a b k _ _ => first [kreg d, vreg a, vregIf (s = 0) b, maskOk k]
  | .kop d a b o => first [kreg d, kreg a, kreg b, fieldOk (o.toNat ≤ 7)]
  | .kpop _ a k => first [kreg a, maskOk k]
  | .kfirst _ a k => first [kreg a, maskOk k]
  | .kmov d a => first [kreg d, kreg a]
  | .mtree d a _ => first [kreg d, vreg a]
  | .vcvt d a _ k _ => first [vreg d, vreg a, maskOk k]
  | .vnarrow d a n k _ => first [vreg d, pair a, fieldOk (n ≠ 3), maskOk k]
  | .vwiden d a _ k _ => first [pair d, vreg a, maskOk k]
  | .vmerge d a b k s => first [vreg d, vreg a, vregIf (s = 0) b, maskOk k]
  | .vperm d a b k _ => first [vreg d, vreg a, vreg b, maskOk k]
  | .vslide d a _ k _ _ => first [vreg d, vreg a, maskOk k]
  | .vcompress d a k _ => first [vreg d, vreg a, maskOk k]
  | .vexpand d a k _ => first [vreg d, vreg a, maskOk k]
  | .viota d k _ => first [vreg d, maskOk k]
  | .vbcast d a _ k _ f => first [vreg d, zeroIf (f = 0) a, vregIf (f = 1) a, maskOk k]
  | .vmovx d a k _ y => first [vregIf (y = 0) d, vregIf (y = 1) a, maskOk k]
  | .vext _ a _ => vreg a
  | .vins d _ _ => vreg d
  | .vredsum _ a _ k => first [vreg a, maskOk k]
  | .vredmax _ a _ k _ => first [vreg a, maskOk k]
  | .vredmin _ a _ k _ => first [vreg a, maskOk k]
  | .vfredsum _ a _ k => first [vreg a, maskOk k]
  | .vfredmax _ a _ k => first [vreg a, maskOk k]
  | .vredseq _ a _ k => first [vreg a, maskOk k]
  | .vtmul d a b k _ _ => first [vreg d, vreg a, vreg b, maskOk k]
  | .vtconj d a k _ _ _ => first [vreg d, vreg a, maskOk k]
  | .rpt _ _ _ _ _ _ => none
  | .algld _ _ => none
  | .phase => none
  | .fence t => fieldOk (t.toNat ≤ 6)
  | .yield => none
  | .join => none
  | .retire => none
  | .bar _ b => fieldOk (b ≠ 0)
  | .publish _ _ => none
  | .qpush _ _ => none
  | .qpop _ _ _ => none
  | .fork _ _ => none
  | .mrow _ a _ t _ x f => first [vregIf (x = 0) a, fieldOk (f.toNat ≤ 4), fieldOk (t ≠ 3)]
  | .mrd _ a _ s x f => first [vregIf (x = 0) a, fieldOk (f.toNat ≤ 6), fieldOk (s ≠ 3)]
  | .mwr _ a _ _ x f => first [vregIf (x = 0) a, fieldOk (f.toNat ≤ 6)]
  | .mclr r n f => first [fieldOk (f = 5 ∨ f = 6), rangeOk (r.toNat + n.toNat ≤ 1023)]
  | .mchk r n => rangeOk (r.toNat + n.toNat + 1 ≤ 32)
  | .mloc _ _ => none
  | .mfix _ _ => none
  | .wld _ _ _ _ => none
  | .wldff _ _ _ _ => none
  | .wsel _ => none
  | .xcopy _ _ _ => none
  | .xfill _ _ _ => none
  | .rcfence a o => zeroIf (o = 0) a
  | .waitlt _ t => fieldOk (t ≠ 0)
  | .kvcommit _ b _ => vreg b
  | .coll _ _ => none
  | .ctlrd _ _ => none
  | .ctlwr _ _ => none
  | .trap _ => none
  | .brk _ => none
  | .resume => none
  | .claim => none
  | .logmark _ _ => none
  | .ctxCreate _ _ _ => none
  | .ctxDestroy _ _ => none
  | .fnSet _ _ _ => none
  | .evset _ _ _ _ _ _ => none
  | .invalS1 _ _ _ _ => none
  | .invalS2 _ _ _ _ => none
  | .s2Retry _ _ => none
  | .s2Decline _ _ => none
  | .qenable _ _ => none
  | .qdisable _ _ => none
  | .frecRead _ => none
  | .laneMaskRead _ => none
  | .laneRetest _ _ _ _ => none
  | .snuff _ => none
  | .pwrLimit _ _ => none
  | .peerSet _ _ _ _ _ _ => none
  | .commSet _ _ _ _ => none
  | .fwUpdateBegin _ _ => none
  | .fwUpdateData _ _ _ => none
  | .fwUpdateCommit _ _ => none
  | .fwUpdateAbort _ => none
  | .fwUpdateStatus _ => none
  | .queueAttempt _ _ => none
  | .nop _ _ => none
  | .launch _ _ => none
  | .admission _ _ => none
  | .signal _ _ => none
  | .signalStore _ _ => none
  | .waitvalPacket _ _ => none
  | .waitvalPacketSatisfied _ _ => none
  | .codefence _ _ => none
  | .codefenceAdvance _ _ => none
  | .setdet _ _ => none
  | .setdetApply _ _ => none
  | .ctxsw _ _ => none
  | .ctxswAbort _ _ => none
  | .place _ _ => none
  | .qpopRetireChoice _ _ => none
  | .launchRetire _ => none
  | .quantumExpiry _ => none
  | .forcedStop _ => none
  | .nonyield _ => none
  | .slotSwitch _ => none
  | .spill _ _ => none
  | .restore _ _ _ => none
  | .barWaitComplete _ => none
  | .joinComplete _ => none
  | .qpopWake _ => none
  | .qpushWake _ => none
  | .waitvalWake _ => none
  | .waitltWake _ => none
  | .xcopyComplete _ _ _ => none
  | .xfillComplete _ _ _ => none
  | .wldComplete _ _ _ => none
  | .kvcommitComplete _ _ _ => none
  | .collComplete _ _ _ => none
  | .collLinkTimeout _ => none
  | .laneSelftestDone _ _ => none
  | .columnSelftestDone _ _ => none
  | .coreRetired _ => none
  | .logStall _ _ => none
  | .hostMemAccess _ _ _ _ => none
  | .snuffN => none
  | .reset _ => none
  | .thermalShutdown => none
  | .powerControl _ _ => none
  | .illegalOp _ => none
  | .fetchFault _ => none
  | .peerRequest _ _ _ _ => none
  | .spdmRequest _ _ _ => none
  | .linkTrainDown _ _ => none
  | .dramScrub _ _ => none
  | .peerLinkDown _ _ => none

/-- The instruction's fields are ones the encoding admits. -/
def WellFormed (i : Instr) : Prop := i.reject = none

/-- Whether the row has a word at all: commands, packets and the steps of the device's agents have none. -/
def Instr.hasWord : Instr → Bool
  | .add _ _ _ => true
  | .sub _ _ _ => true
  | .mul _ _ _ => true
  | .mulh _ _ _ _ => true
  | .div _ _ _ _ => true
  | .rem _ _ _ _ => true
  | .and _ _ _ => true
  | .or _ _ _ => true
  | .xor _ _ _ => true
  | .shl _ _ _ => true
  | .shr _ _ _ => true
  | .sar _ _ _ => true
  | .min _ _ _ _ => true
  | .max _ _ _ _ => true
  | .slt _ _ _ _ => true
  | .cnt _ _ _ => true
  | .addi _ _ _ => true
  | .andi _ _ _ => true
  | .ori _ _ _ => true
  | .xori _ _ _ => true
  | .shli _ _ _ => true
  | .shri _ _ _ => true
  | .sari _ _ _ => true
  | .slti _ _ _ => true
  | .lih _ _ => true
  | .addpc _ _ => true
  | .sfadd _ _ _ _ => true
  | .sfsub _ _ _ _ => true
  | .sfmul _ _ _ _ => true
  | .sfma _ _ _ _ => true
  | .sfdiv _ _ _ _ => true
  | .sfsqrt _ _ _ => true
  | .sfcvt _ _ _ _ => true
  | .sfmm _ _ _ _ _ => true
  | .sfcmp _ _ _ _ _ => true
  | .spset _ => true
  | .beq _ _ _ => true
  | .bne _ _ _ => true
  | .blt _ _ _ => true
  | .bge _ _ _ => true
  | .bltu _ _ _ => true
  | .bgeu _ _ _ => true
  | .strip _ _ => true
  | .jal _ _ => true
  | .jalr _ _ _ => true
  | .ld _ _ _ _ => true
  | .st _ _ _ _ => true
  | .lds _ _ _ _ _ => true
  | .sts _ _ _ _ _ => true
  | .waitval _ _ _ _ _ _ => true
  | .amo _ _ _ _ _ _ _ _ => true
  | .setvl _ _ => true
  | .setvli _ _ => true
  | .vld _ _ _ _ _ _ => true
  | .vldRaw _ _ _ _ _ _ => true
  | .vst _ _ _ _ _ => true
  | .vstRaw _ _ _ _ _ => true
  | .vldff _ _ _ _ _ _ => true
  | .vldffRaw _ _ _ _ _ _ => true
  | .vamo _ _ _ _ _ _ _ _ => true
  | .vadd _ _ _ _ _ _ => true
  | .vsub _ _ _ _ _ _ => true
  | .vmul _ _ _ _ _ _ => true
  | .vmulh _ _ _ _ _ _ _ => true
  | .vmin _ _ _ _ _ _ _ => true
  | .vmax _ _ _ _ _ _ _ => true
  | .vand _ _ _ _ _ _ => true
  | .vor _ _ _ _ _ _ => true
  | .vxor _ _ _ _ _ _ => true
  | .vshl _ _ _ _ _ _ => true
  | .vshr _ _ _ _ _ _ => true
  | .vsar _ _ _ _ _ _ => true
  | .vaddsat _ _ _ _ _ _ _ => true
  | .vsubsat _ _ _ _ _ _ _ => true
  | .vfadd _ _ _ _ _ _ => true
  | .vfsub _ _ _ _ _ _ => true
  | .vfmul _ _ _ _ _ _ => true
  | .vfma _ _ _ _ _ _ _ => true
  | .vfdiv _ _ _ _ _ _ => true
  | .vfsqrt _ _ _ _ => true
  | .vfmin _ _ _ _ _ _ => true
  | .vfmax _ _ _ _ _ _ => true
  | .vfrcp _ _ _ _ => true
  | .vfrsq _ _ _ _ => true
  | .vfexp2 _ _ _ _ => true
  | .vflog2 _ _ _ _ => true
  | .vfsgn _ _ _ _ _ _ => true
  | .vcmp _ _ _ _ _ _ _ _ => true
  | .vfcmp _ _ _ _ _ _ _ => true
  | .kop _ _ _ _ => true
  | .kpop _ _ _ => true
  | .kfirst _ _ _ => true
  | .kmov _ _ => true
  | .mtree _ _ _ => true
  | .vcvt _ _ _ _ _ => true
  | .vnarrow _ _ _ _ _ => true
  | .vwiden _ _ _ _ _ => true
  | .vmerge _ _ _ _ _ => true
  | .vperm _ _ _ _ _ => true
  | .vslide _ _ _ _ _ _ => true
  | .vcompress _ _ _ _ => true
  | .vexpand _ _ _ _ => true
  | .viota _ _ _ => true
  | .vbcast _ _ _ _ _ _ => true
  | .vmovx _ _ _ _ _ => true
  | .vext _ _ _ => true
  | .vins _ _ _ => true
  | .vredsum _ _ _ _ => true
  | .vredmax _ _ _ _ _ => true
  | .vredmin _ _ _ _ _ => true
  | .vfredsum _ _ _ _ => true
  | .vfredmax _ _ _ _ => true
  | .vredseq _ _ _ _ => true
  | .vtmul _ _ _ _ _ _ => true
  | .vtconj _ _ _ _ _ _ => true
  | .rpt _ _ _ _ _ _ => true
  | .algld _ _ => true
  | .phase => true
  | .fence _ => true
  | .yield => true
  | .join => true
  | .retire => true
  | .bar _ _ => true
  | .publish _ _ => true
  | .qpush _ _ => true
  | .qpop _ _ _ => true
  | .fork _ _ => true
  | .mrow _ _ _ _ _ _ _ => true
  | .mrd _ _ _ _ _ _ => true
  | .mwr _ _ _ _ _ _ => true
  | .mclr _ _ _ => true
  | .mchk _ _ => true
  | .mloc _ _ => true
  | .mfix _ _ => true
  | .wld _ _ _ _ => true
  | .wldff _ _ _ _ => true
  | .wsel _ => true
  | .xcopy _ _ _ => true
  | .xfill _ _ _ => true
  | .rcfence _ _ => true
  | .waitlt _ _ => true
  | .kvcommit _ _ _ => true
  | .coll _ _ => true
  | .ctlrd _ _ => true
  | .ctlwr _ _ => true
  | .trap _ => true
  | .brk _ => true
  | .resume => true
  | .claim => true
  | .logmark _ _ => true
  | .ctxCreate _ _ _ => false
  | .ctxDestroy _ _ => false
  | .fnSet _ _ _ => false
  | .evset _ _ _ _ _ _ => false
  | .invalS1 _ _ _ _ => false
  | .invalS2 _ _ _ _ => false
  | .s2Retry _ _ => false
  | .s2Decline _ _ => false
  | .qenable _ _ => false
  | .qdisable _ _ => false
  | .frecRead _ => false
  | .laneMaskRead _ => false
  | .laneRetest _ _ _ _ => false
  | .snuff _ => false
  | .pwrLimit _ _ => false
  | .peerSet _ _ _ _ _ _ => false
  | .commSet _ _ _ _ => false
  | .fwUpdateBegin _ _ => false
  | .fwUpdateData _ _ _ => false
  | .fwUpdateCommit _ _ => false
  | .fwUpdateAbort _ => false
  | .fwUpdateStatus _ => false
  | .queueAttempt _ _ => false
  | .nop _ _ => false
  | .launch _ _ => false
  | .admission _ _ => false
  | .signal _ _ => false
  | .signalStore _ _ => false
  | .waitvalPacket _ _ => false
  | .waitvalPacketSatisfied _ _ => false
  | .codefence _ _ => false
  | .codefenceAdvance _ _ => false
  | .setdet _ _ => false
  | .setdetApply _ _ => false
  | .ctxsw _ _ => false
  | .ctxswAbort _ _ => false
  | .place _ _ => false
  | .qpopRetireChoice _ _ => false
  | .launchRetire _ => false
  | .quantumExpiry _ => false
  | .forcedStop _ => false
  | .nonyield _ => false
  | .slotSwitch _ => false
  | .spill _ _ => false
  | .restore _ _ _ => false
  | .barWaitComplete _ => false
  | .joinComplete _ => false
  | .qpopWake _ => false
  | .qpushWake _ => false
  | .waitvalWake _ => false
  | .waitltWake _ => false
  | .xcopyComplete _ _ _ => false
  | .xfillComplete _ _ _ => false
  | .wldComplete _ _ _ => false
  | .kvcommitComplete _ _ _ => false
  | .collComplete _ _ _ => false
  | .collLinkTimeout _ => false
  | .laneSelftestDone _ _ => false
  | .columnSelftestDone _ _ => false
  | .coreRetired _ => false
  | .logStall _ _ => false
  | .hostMemAccess _ _ _ _ => false
  | .snuffN => false
  | .reset _ => false
  | .thermalShutdown => false
  | .powerControl _ _ => false
  | .illegalOp _ => false
  | .fetchFault _ => false
  | .peerRequest _ _ _ _ => false
  | .spdmRequest _ _ _ => false
  | .linkTrainDown _ _ => false
  | .dramScrub _ _ => false
  | .peerLinkDown _ _ => false

end Sys2Proof
end

