-- ==== Sys2Proof/Decode.lean ====
section
/-! DEFINITION. Decoding and encoding (04 R70 to R99), written from the opcode table: total on any word, refusing by
name, and AFTER it the encoder. -/

namespace Sys2Proof

/-- The `n` bits of a word that begin at bit `lo`. -/
def fld (w : BitVec 32) (lo n : Nat) : BitVec n := w.extractLsb' lo n

/-- An instruction whose must-be-zero fields are zero (R71). -/
def mbz (p : Bool) (i : Instr) : Except Reject Instr := if p then .ok i else .error .mustBeZero

/-- Major 0x01 (R87): fn[3:0] selects. -/
def decodeScalar (w : BitVec 32) : Except Reject Instr :=
  match (fld w 25 4).toNat with
  | 0 => mbz (fld w 29 3 = 0) (.add (fld w 7 6) (fld w 13 6) (fld w 19 6))
  | 1 => mbz (fld w 29 3 = 0) (.sub (fld w 7 6) (fld w 13 6) (fld w 19 6))
  | 2 => mbz (fld w 29 3 = 0) (.mul (fld w 7 6) (fld w 13 6) (fld w 19 6))
  | 3 => mbz (fld w 30 2 = 0) (.mulh (fld w 7 6) (fld w 13 6) (fld w 19 6) (fld w 29 1))
  | 4 => mbz (fld w 30 2 = 0) (.div (fld w 7 6) (fld w 13 6) (fld w 19 6) (fld w 29 1))
  | 5 => mbz (fld w 30 2 = 0) (.rem (fld w 7 6) (fld w 13 6) (fld w 19 6) (fld w 29 1))
  | 6 => mbz (fld w 29 3 = 0) (.and (fld w 7 6) (fld w 13 6) (fld w 19 6))
  | 7 => mbz (fld w 29 3 = 0) (.or (fld w 7 6) (fld w 13 6) (fld w 19 6))
  | 8 => mbz (fld w 29 3 = 0) (.xor (fld w 7 6) (fld w 13 6) (fld w 19 6))
  | 9 => mbz (fld w 29 3 = 0) (.shl (fld w 7 6) (fld w 13 6) (fld w 19 6))
  | 10 => mbz (fld w 29 3 = 0) (.shr (fld w 7 6) (fld w 13 6) (fld w 19 6))
  | 11 => mbz (fld w 29 3 = 0) (.sar (fld w 7 6) (fld w 13 6) (fld w 19 6))
  | 12 => mbz (fld w 30 2 = 0) (.min (fld w 7 6) (fld w 13 6) (fld w 19 6) (fld w 29 1))
  | 13 => mbz (fld w 30 2 = 0) (.max (fld w 7 6) (fld w 13 6) (fld w 19 6) (fld w 29 1))
  | 14 => mbz (fld w 30 2 = 0) (.slt (fld w 7 6) (fld w 13 6) (fld w 19 6) (fld w 29 1))
  | 15 => mbz (fld w 19 6 = 0 && fld w 31 1 = 0) (.cnt (fld w 7 6) (fld w 13 6) (fld w 29 2))
  | _ => .error .reservedSub

/-- Major 0x0C (R89): fn[3:0] selects. -/
def decodeScalarFloat (w : BitVec 32) : Except Reject Instr :=
  match (fld w 25 4).toNat with
  | 0 => mbz (fld w 31 1 = 0) (.sfadd (fld w 7 6) (fld w 13 6) (fld w 19 6) (fld w 29 2))
  | 1 => mbz (fld w 31 1 = 0) (.sfsub (fld w 7 6) (fld w 13 6) (fld w 19 6) (fld w 29 2))
  | 2 => mbz (fld w 31 1 = 0) (.sfmul (fld w 7 6) (fld w 13 6) (fld w 19 6) (fld w 29 2))
  | 3 => mbz (fld w 31 1 = 0) (.sfma (fld w 7 6) (fld w 13 6) (fld w 19 6) (fld w 29 2))
  | 4 => mbz (fld w 31 1 = 0) (.sfdiv (fld w 7 6) (fld w 13 6) (fld w 19 6) (fld w 29 2))
  | 5 => mbz (fld w 19 6 = 0 && fld w 31 1 = 0) (.sfsqrt (fld w 7 6) (fld w 13 6) (fld w 29 2))
  | 6 => mbz (fld w 22 3 = 0) (.sfcvt (fld w 7 6) (fld w 13 6) (fld w 19 3) (fld w 29 3))
  | 7 => .ok (.sfmm (fld w 7 6) (fld w 13 6) (fld w 19 6) (fld w 29 2) (fld w 31 1))
  | 8 => mbz (fld w 31 1 = 0) (.sfcmp (fld w 7 6) (fld w 13 6) (fld w 19 6) (fld w 25 2) (fld w 29 2))
  | 9 => mbz (fld w 31 1 = 0) (.sfcmp (fld w 7 6) (fld w 13 6) (fld w 19 6) (fld w 25 2) (fld w 29 2))
  | 10 => mbz (fld w 31 1 = 0) (.sfcmp (fld w 7 6) (fld w 13 6) (fld w 19 6) (fld w 25 2) (fld w 29 2))
  | 11 => mbz (fld w 31 1 = 0) (.sfcmp (fld w 7 6) (fld w 13 6) (fld w 19 6) (fld w 25 2) (fld w 29 2))
  | _ => .error .reservedSub

/-- Major 0x52 (R94): fn2 selects. -/
def decodeMask (w : BitVec 32) : Except Reject Instr :=
  match (fld w 30 2).toNat with
  | 0 => mbz (fld w 11 2 = 0 && fld w 17 2 = 0 && fld w 23 2 = 0 && fld w 29 1 = 0) (.kop (fld w 7 4) (fld w 13 4) (fld w 19 4) (fld w 25 4))
  | 1 => mbz (fld w 17 8 = 0 && fld w 29 1 = 0) (.kpop (fld w 7 6) (fld w 13 4) (fld w 25 4))
  | 2 => mbz (fld w 17 8 = 0 && fld w 29 1 = 0) (.kfirst (fld w 7 6) (fld w 13 4) (fld w 25 4))
  | 3 => mbz (fld w 11 2 = 0 && fld w 17 13 = 3840) (.kmov (fld w 7 4) (fld w 13 4))
  | _ => .error .reservedSub

/-- Major 0x6E (R98): fn selects. -/
def decodeSync (w : BitVec 32) : Except Reject Instr :=
  match (fld w 25 7).toNat with
  | 0 => mbz (fld w 7 18 = 0) (.phase)
  | 1 => mbz (fld w 7 12 = 0 && fld w 22 3 = 0) (.fence (fld w 19 3))
  | 2 => mbz (fld w 7 18 = 0) (.yield)
  | 3 => mbz (fld w 7 18 = 0) (.join)
  | 4 => mbz (fld w 7 18 = 0) (.retire)
  | 5 => mbz (fld w 7 12 = 0 && fld w 23 2 = 0) (.bar (fld w 19 2) (fld w 21 2))
  | 6 => mbz (fld w 7 12 = 0) (.publish (fld w 19 5) (fld w 24 1))
  | 7 => mbz (fld w 7 6 = 0 && fld w 23 2 = 0) (.qpush (fld w 13 6) (fld w 19 4))
  | 8 => mbz (fld w 23 2 = 0) (.qpop (fld w 7 6) (fld w 13 6) (fld w 19 4))
  | _ => .error .reservedSub

/-- Major 0x77 (R96): fn5 selects. -/
def decodeWeight (w : BitVec 32) : Except Reject Instr :=
  match (fld w 27 5).toNat with
  | 0 => .ok (.wld (fld w 7 4) (fld w 11 6) (fld w 17 6) (fld w 23 4))
  | 1 => .ok (.wldff (fld w 7 4) (fld w 11 6) (fld w 17 6) (fld w 23 4))
  | 2 => mbz (fld w 11 16 = 0) (.wsel (fld w 7 4))
  | _ => .error .reservedSub

/-- Major 0x7E (R99): fn selects. -/
def decodeSystem (w : BitVec 32) : Except Reject Instr :=
  match (fld w 25 7).toNat with
  | 0 => .ok (.ctlrd (fld w 7 6) (fld w 13 12))
  | 1 => .ok (.ctlwr (fld w 7 6) (fld w 13 12))
  | 2 => mbz (fld w 7 6 = 0) (.trap (fld w 13 12))
  | 3 => mbz (fld w 7 6 = 0) (.brk (fld w 13 12))
  | 4 => mbz (fld w 7 18 = 0) (.resume)
  | 5 => mbz (fld w 7 18 = 0) (.claim)
  | 6 => .ok (.logmark (fld w 7 6) (fld w 13 12))
  | _ => .error .reservedSub

/-- Majors 0x02 to 0x1D (R86): immediates, branches and scalar memory. -/
def decodeLow (w : BitVec 32) : Except Reject Instr :=
  match (fld w 0 7).toNat with
  | 0x02 => .ok (.addi (fld w 7 6) (fld w 13 6) (fld w 19 13))
  | 0x03 => .ok (.andi (fld w 7 6) (fld w 13 6) (fld w 19 13))
  | 0x04 => .ok (.ori (fld w 7 6) (fld w 13 6) (fld w 19 13))
  | 0x05 => .ok (.xori (fld w 7 6) (fld w 13 6) (fld w 19 13))
  | 0x06 => mbz (fld w 25 7 = 0) (.shli (fld w 7 6) (fld w 13 6) (fld w 19 6))
  | 0x07 => mbz (fld w 25 7 = 0) (.shri (fld w 7 6) (fld w 13 6) (fld w 19 6))
  | 0x08 => mbz (fld w 25 7 = 0) (.sari (fld w 7 6) (fld w 13 6) (fld w 19 6))
  | 0x09 => .ok (.slti (fld w 7 6) (fld w 13 6) (fld w 19 13))
  | 0x0A => .ok (.lih (fld w 7 6) (fld w 13 19))
  | 0x0B => .ok (.addpc (fld w 7 6) (fld w 13 19))
  | 0x0D => mbz (fld w 7 6 = 0 && fld w 19 13 = 0) (.spset (fld w 13 6))
  | 0x10 => .ok (.beq (fld w 7 6) (fld w 13 6) (fld w 19 13))
  | 0x11 => .ok (.bne (fld w 7 6) (fld w 13 6) (fld w 19 13))
  | 0x12 => .ok (.blt (fld w 7 6) (fld w 13 6) (fld w 19 13))
  | 0x13 => .ok (.bge (fld w 7 6) (fld w 13 6) (fld w 19 13))
  | 0x14 => .ok (.bltu (fld w 7 6) (fld w 13 6) (fld w 19 13))
  | 0x15 => .ok (.bgeu (fld w 7 6) (fld w 13 6) (fld w 19 13))
  | 0x16 => mbz (fld w 13 6 = 0) (.strip (fld w 7 6) (fld w 19 13))
  | 0x17 => .ok (.jal (fld w 7 6) (fld w 13 19))
  | 0x18 => .ok (.jalr (fld w 7 6) (fld w 13 6) (fld w 19 13))
  | 0x19 => .ok (.ld (fld w 7 6) (fld w 13 6) (fld w 19 10) (fld w 29 3))
  | 0x1A => .ok (.st (fld w 7 6) (fld w 13 6) (fld w 19 10) (fld w 29 3))
  | 0x1B => mbz (fld w 22 7 = 0) (.lds (fld w 7 6) (fld w 13 6) (fld w 19 2) (fld w 21 1) (fld w 29 3))
  | 0x1C => mbz (fld w 21 1 = 0 && fld w 23 6 = 0) (.sts (fld w 7 6) (fld w 13 6) (fld w 19 2) (fld w 22 1) (fld w 29 3))
  | 0x1D => mbz (fld w 23 6 = 0) (.waitval (fld w 7 6) (fld w 13 6) (fld w 19 2) (fld w 21 1) (fld w 22 1) (fld w 29 3))
  | _ => .error .reservedMajor

/-- Majors 0x20 to 0x4C (R86): atomics, vector memory, vector arithmetic. -/
def decodeVector (w : BitVec 32) : Except Reject Instr :=
  match (fld w 0 7).toNat with
  | 0x20 => .ok (.amo (fld w 0 2) (fld w 7 6) (fld w 13 6) (fld w 19 6) (fld w 25 4) (fld w 29 1) (fld w 30 1) (fld w 31 1))
  | 0x21 => .ok (.amo (fld w 0 2) (fld w 7 6) (fld w 13 6) (fld w 19 6) (fld w 25 4) (fld w 29 1) (fld w 30 1) (fld w 31 1))
  | 0x22 => .ok (.amo (fld w 0 2) (fld w 7 6) (fld w 13 6) (fld w 19 6) (fld w 25 4) (fld w 29 1) (fld w 30 1) (fld w 31 1))
  | 0x23 => .ok (.amo (fld w 0 2) (fld w 7 6) (fld w 13 6) (fld w 19 6) (fld w 25 4) (fld w 29 1) (fld w 30 1) (fld w 31 1))
  | 0x24 => mbz (fld w 19 13 = 0) (.setvl (fld w 7 6) (fld w 13 6))
  | 0x25 => .ok (.setvli (fld w 7 6) (fld w 13 19))
  | 0x28 => .ok (.vld (fld w 7 6) (fld w 13 6) (fld w 19 6) (fld w 25 4) (fld w 29 1) (fld w 30 2))
  | 0x29 => .ok (.vldRaw (fld w 7 6) (fld w 13 6) (fld w 19 6) (fld w 25 4) (fld w 29 1) (fld w 30 2))
  | 0x2A => mbz (fld w 29 1 = 0) (.vst (fld w 7 6) (fld w 13 6) (fld w 19 6) (fld w 25 4) (fld w 30 2))
  | 0x2B => mbz (fld w 29 1 = 0) (.vstRaw (fld w 7 6) (fld w 13 6) (fld w 19 6) (fld w 25 4) (fld w 30 2))
  | 0x2C => .ok (.vldff (fld w 7 6) (fld w 13 6) (fld w 19 6) (fld w 25 4) (fld w 29 1) (fld w 30 2))
  | 0x2D => .ok (.vldffRaw (fld w 7 6) (fld w 13 6) (fld w 19 6) (fld w 25 4) (fld w 29 1) (fld w 30 2))
  | 0x2E => .ok (.vamo (fld w 7 6) (fld w 13 4) (fld w 17 2) (fld w 19 6) (fld w 25 4) (fld w 29 1) (fld w 30 1) (fld w 31 1))
  | 0x30 => mbz (fld w 31 1 = 0) (.vadd (fld w 7 6) (fld w 13 6) (fld w 19 6) (fld w 25 4) (fld w 29 1) (fld w 30 1))
  | 0x31 => mbz (fld w 31 1 = 0) (.vsub (fld w 7 6) (fld w 13 6) (fld w 19 6) (fld w 25 4) (fld w 29 1) (fld w 30 1))
  | 0x32 => mbz (fld w 31 1 = 0) (.vmul (fld w 7 6) (fld w 13 6) (fld w 19 6) (fld w 25 4) (fld w 29 1) (fld w 30 1))
  | 0x33 => .ok (.vmulh (fld w 7 6) (fld w 13 6) (fld w 19 6) (fld w 25 4) (fld w 29 1) (fld w 30 1) (fld w 31 1))
  | 0x34 => .ok (.vmin (fld w 7 6) (fld w 13 6) (fld w 19 6) (fld w 25 4) (fld w 29 1) (fld w 30 1) (fld w 31 1))
  | 0x35 => .ok (.vmax (fld w 7 6) (fld w 13 6) (fld w 19 6) (fld w 25 4) (fld w 29 1) (fld w 30 1) (fld w 31 1))
  | 0x36 => mbz (fld w 31 1 = 0) (.vand (fld w 7 6) (fld w 13 6) (fld w 19 6) (fld w 25 4) (fld w 29 1) (fld w 30 1))
  | 0x37 => mbz (fld w 31 1 = 0) (.vor (fld w 7 6) (fld w 13 6) (fld w 19 6) (fld w 25 4) (fld w 29 1) (fld w 30 1))
  | 0x38 => mbz (fld w 31 1 = 0) (.vxor (fld w 7 6) (fld w 13 6) (fld w 19 6) (fld w 25 4) (fld w 29 1) (fld w 30 1))
  | 0x39 => mbz (fld w 31 1 = 0) (.vshl (fld w 7 6) (fld w 13 6) (fld w 19 6) (fld w 25 4) (fld w 29 1) (fld w 30 1))
  | 0x3A => mbz (fld w 31 1 = 0) (.vshr (fld w 7 6) (fld w 13 6) (fld w 19 6) (fld w 25 4) (fld w 29 1) (fld w 30 1))
  | 0x3B => mbz (fld w 31 1 = 0) (.vsar (fld w 7 6) (fld w 13 6) (fld w 19 6) (fld w 25 4) (fld w 29 1) (fld w 30 1))
  | 0x3C => .ok (.vaddsat (fld w 7 6) (fld w 13 6) (fld w 19 6) (fld w 25 4) (fld w 29 1) (fld w 30 1) (fld w 31 1))
  | 0x3D => .ok (.vsubsat (fld w 7 6) (fld w 13 6) (fld w 19 6) (fld w 25 4) (fld w 29 1) (fld w 30 1) (fld w 31 1))
  | 0x40 => mbz (fld w 31 1 = 0) (.vfadd (fld w 7 6) (fld w 13 6) (fld w 19 6) (fld w 25 4) (fld w 29 1) (fld w 30 1))
  | 0x41 => mbz (fld w 31 1 = 0) (.vfsub (fld w 7 6) (fld w 13 6) (fld w 19 6) (fld w 25 4) (fld w 29 1) (fld w 30 1))
  | 0x42 => mbz (fld w 31 1 = 0) (.vfmul (fld w 7 6) (fld w 13 6) (fld w 19 6) (fld w 25 4) (fld w 29 1) (fld w 30 1))
  | 0x43 => .ok (.vfma (fld w 7 6) (fld w 13 6) (fld w 19 6) (fld w 25 4) (fld w 29 1) (fld w 30 1) (fld w 31 1))
  | 0x44 => mbz (fld w 31 1 = 0) (.vfdiv (fld w 7 6) (fld w 13 6) (fld w 19 6) (fld w 25 4) (fld w 29 1) (fld w 30 1))
  | 0x45 => mbz (fld w 19 6 = 0 && fld w 30 2 = 0) (.vfsqrt (fld w 7 6) (fld w 13 6) (fld w 25 4) (fld w 29 1))
  | 0x46 => mbz (fld w 31 1 = 0) (.vfmin (fld w 7 6) (fld w 13 6) (fld w 19 6) (fld w 25 4) (fld w 29 1) (fld w 30 1))
  | 0x47 => mbz (fld w 31 1 = 0) (.vfmax (fld w 7 6) (fld w 13 6) (fld w 19 6) (fld w 25 4) (fld w 29 1) (fld w 30 1))
  | 0x48 => mbz (fld w 19 6 = 0 && fld w 30 2 = 0) (.vfrcp (fld w 7 6) (fld w 13 6) (fld w 25 4) (fld w 29 1))
  | 0x49 => mbz (fld w 19 6 = 0 && fld w 30 2 = 0) (.vfrsq (fld w 7 6) (fld w 13 6) (fld w 25 4) (fld w 29 1))
  | 0x4A => mbz (fld w 19 6 = 0 && fld w 30 2 = 0) (.vfexp2 (fld w 7 6) (fld w 13 6) (fld w 25 4) (fld w 29 1))
  | 0x4B => mbz (fld w 19 6 = 0 && fld w 30 2 = 0) (.vflog2 (fld w 7 6) (fld w 13 6) (fld w 25 4) (fld w 29 1))
  | 0x4C => .ok (.vfsgn (fld w 7 6) (fld w 13 6) (fld w 19 6) (fld w 25 4) (fld w 29 1) (fld w 30 2))
  | _ => .error .reservedMajor

/-- Majors 0x50 to 0x6F (R86): compares, permutes, reductions, tuples, repeat. -/
def decodePermute (w : BitVec 32) : Except Reject Instr :=
  match (fld w 0 7).toNat with
  | 0x50 => .ok (.vcmp (fld w 7 4) (fld w 11 1) (fld w 12 1) (fld w 13 6) (fld w 19 6) (fld w 25 4) (fld w 29 1) (fld w 30 2))
  | 0x51 => mbz (fld w 11 1 = 0) (.vfcmp (fld w 7 4) (fld w 12 1) (fld w 13 6) (fld w 19 6) (fld w 25 4) (fld w 29 1) (fld w 30 2))
  | 0x53 => mbz (fld w 11 2 = 0 && fld w 25 7 = 15) (.mtree (fld w 7 4) (fld w 13 6) (fld w 19 6))
  | 0x54 => mbz (fld w 22 3 = 0 && fld w 30 2 = 0) (.vcvt (fld w 7 6) (fld w 13 6) (fld w 19 3) (fld w 25 4) (fld w 29 1))
  | 0x55 => if fld w 13 1 = 1 then .error .oddPair else mbz (fld w 21 4 = 0 && fld w 30 2 = 0) (.vnarrow (fld w 7 6) (fld w 14 5) (fld w 19 2) (fld w 25 4) (fld w 29 1))
  | 0x56 => if fld w 7 1 = 1 then .error .oddPair else mbz (fld w 20 5 = 0 && fld w 30 2 = 0) (.vwiden (fld w 8 5) (fld w 13 6) (fld w 19 1) (fld w 25 4) (fld w 29 1))
  | 0x58 => mbz (fld w 29 1 = 0 && fld w 31 1 = 0) (.vmerge (fld w 7 6) (fld w 13 6) (fld w 19 6) (fld w 25 4) (fld w 30 1))
  | 0x59 => mbz (fld w 30 2 = 0) (.vperm (fld w 7 6) (fld w 13 6) (fld w 19 6) (fld w 25 4) (fld w 29 1))
  | 0x5A => mbz (fld w 31 1 = 0) (.vslide (fld w 7 6) (fld w 13 6) (fld w 19 6) (fld w 25 4) (fld w 29 1) (fld w 30 1))
  | 0x5B => mbz (fld w 19 6 = 0 && fld w 30 2 = 0) (.vcompress (fld w 7 6) (fld w 13 6) (fld w 25 4) (fld w 29 1))
  | 0x5C => mbz (fld w 19 6 = 0 && fld w 30 2 = 0) (.vexpand (fld w 7 6) (fld w 13 6) (fld w 25 4) (fld w 29 1))
  | 0x5D => mbz (fld w 13 12 = 0 && fld w 30 2 = 0) (.viota (fld w 7 6) (fld w 25 4) (fld w 29 1))
  | 0x5E => mbz (fld w 31 1 = 0) (.vbcast (fld w 7 6) (fld w 13 6) (fld w 19 6) (fld w 25 4) (fld w 29 1) (fld w 30 1))
  | 0x5F => mbz (fld w 19 6 = 0 && fld w 31 1 = 0) (.vmovx (fld w 7 6) (fld w 13 6) (fld w 25 4) (fld w 29 1) (fld w 30 1))
  | 0x60 => mbz (fld w 25 7 = 15) (.vext (fld w 7 6) (fld w 13 6) (fld w 19 6))
  | 0x61 => mbz (fld w 25 7 = 15) (.vins (fld w 7 6) (fld w 13 6) (fld w 19 6))
  | 0x64 => mbz (fld w 29 3 = 0) (.vredsum (fld w 7 6) (fld w 13 6) (fld w 19 6) (fld w 25 4))
  | 0x65 => mbz (fld w 29 2 = 0) (.vredmax (fld w 7 6) (fld w 13 6) (fld w 19 6) (fld w 25 4) (fld w 31 1))
  | 0x66 => mbz (fld w 29 2 = 0) (.vredmin (fld w 7 6) (fld w 13 6) (fld w 19 6) (fld w 25 4) (fld w 31 1))
  | 0x67 => mbz (fld w 29 3 = 0) (.vfredsum (fld w 7 6) (fld w 13 6) (fld w 19 6) (fld w 25 4))
  | 0x68 => mbz (fld w 29 3 = 0) (.vfredmax (fld w 7 6) (fld w 13 6) (fld w 19 6) (fld w 25 4))
  | 0x69 => mbz (fld w 29 3 = 0) (.vredseq (fld w 7 6) (fld w 13 6) (fld w 19 6) (fld w 25 4))
  | 0x6A => mbz (fld w 31 1 = 0) (.vtmul (fld w 7 6) (fld w 13 6) (fld w 19 6) (fld w 25 4) (fld w 29 1) (fld w 30 1))
  | 0x6B => mbz (fld w 19 6 = 0) (.vtconj (fld w 7 6) (fld w 13 6) (fld w 25 4) (fld w 29 1) (fld w 30 1) (fld w 31 1))
  | 0x6C => mbz (fld w 29 3 = 0) (.rpt (fld w 7 6) (fld w 13 4) (fld w 17 3) (fld w 20 3) (fld w 23 3) (fld w 26 3))
  | 0x6D => mbz (fld w 13 10 = 0 && fld w 24 8 = 0) (.algld (fld w 7 6) (fld w 23 1))
  | 0x6F => .ok (.fork (fld w 7 6) (fld w 13 19))
  | _ => .error .reservedMajor

/-- Majors 0x70 to 0x7D (R86): the Lantern and the engines. -/
def decodeEngine (w : BitVec 32) : Except Reject Instr :=
  match (fld w 0 7).toNat with
  | 0x70 => .ok (.mrow (fld w 7 10) (fld w 17 6) (fld w 23 2) (fld w 25 2) (fld w 27 1) (fld w 28 1) (fld w 29 3))
  | 0x71 => mbz (fld w 27 1 = 0) (.mrd (fld w 7 10) (fld w 17 6) (fld w 23 2) (fld w 25 2) (fld w 28 1) (fld w 29 3))
  | 0x72 => mbz (fld w 25 2 = 0) (.mwr (fld w 7 10) (fld w 17 6) (fld w 23 2) (fld w 27 1) (fld w 28 1) (fld w 29 3))
  | 0x73 => mbz (fld w 23 6 = 0) (.mclr (fld w 7 10) (fld w 17 6) (fld w 29 3))
  | 0x74 => mbz (fld w 7 5 = 0 && fld w 22 10 = 0) (.mchk (fld w 12 5) (fld w 17 5))
  | 0x75 => mbz (fld w 7 5 = 0 && fld w 23 9 = 0) (.mloc (fld w 12 5) (fld w 17 6))
  | 0x76 => mbz (fld w 7 5 = 0 && fld w 23 9 = 0) (.mfix (fld w 12 5) (fld w 17 6))
  | 0x78 => mbz (fld w 23 9 = 0) (.xcopy (fld w 7 6) (fld w 13 6) (fld w 19 4))
  | 0x79 => mbz (fld w 23 9 = 0) (.xfill (fld w 7 6) (fld w 13 6) (fld w 19 4))
  | 0x7A => mbz (fld w 13 10 = 0 && fld w 24 8 = 0) (.rcfence (fld w 7 6) (fld w 23 1))
  | 0x7B => mbz (fld w 7 12 = 0) (.waitlt (fld w 19 4) (fld w 23 9))
  | 0x7C => mbz (fld w 23 9 = 0) (.kvcommit (fld w 7 6) (fld w 13 6) (fld w 19 4))
  | 0x7D => mbz (fld w 13 6 = 0 && fld w 23 9 = 0) (.coll (fld w 7 6) (fld w 19 4))
  | _ => .error .reservedMajor

/-- The instruction a word's major and sub-functions name (R86), before its field values are checked. -/
def decodeFields (w : BitVec 32) : Except Reject Instr :=
  let m := (fld w 0 7).toNat
  if m = 0x01 then decodeScalar w
  else if m = 0x0C then decodeScalarFloat w
  else if m = 0x52 then decodeMask w
  else if m = 0x6E then decodeSync w
  else if m = 0x77 then decodeWeight w
  else if m = 0x7E then decodeSystem w
  else if m < 0x20 then decodeLow w
  else if m < 0x50 then decodeVector w
  else if m < 0x70 then decodePermute w
  else decodeEngine w

/-- Decoding, total on any word (R104) (DEDUCED, log 71) (DEDUCED, log 72). -/
def decode (w : BitVec 32) : Except Reject Instr :=
  match decodeFields w with
  | .error r => .error r
  | .ok i =>
    match i.reject with
    | some r => .error r
    | none => .ok i

/-- The instruction this decoder reads from an instruction of the opcode table whose bits are `w`; every instruction
is one 32-bit word (R70). -/
def decodeTableWord (nbits w : Nat) : Option Instr :=
  match decode (BitVec.ofNat 32 (w % 2 ^ nbits)) with
  | .ok i => some i
  | .error _ => none

/-! ## The encoder -/

/-- The word of an instruction (R72 to R84), the fields from bit 31 down; a row that has no word gives the all-zero
word, which is no instruction (R104). -/
def encode : Instr → BitVec 32
  | .add d a b => 0#7 ++ b ++ a ++ d ++ 1#7
  | .sub d a b => 1#7 ++ b ++ a ++ d ++ 1#7
  | .mul d a b => 2#7 ++ b ++ a ++ d ++ 1#7
  | .mulh d a b u => 0#2 ++ u ++ 3#4 ++ b ++ a ++ d ++ 1#7
  | .div d a b u => 0#2 ++ u ++ 4#4 ++ b ++ a ++ d ++ 1#7
  | .rem d a b u => 0#2 ++ u ++ 5#4 ++ b ++ a ++ d ++ 1#7
  | .and d a b => 6#7 ++ b ++ a ++ d ++ 1#7
  | .or d a b => 7#7 ++ b ++ a ++ d ++ 1#7
  | .xor d a b => 8#7 ++ b ++ a ++ d ++ 1#7
  | .shl d a b => 9#7 ++ b ++ a ++ d ++ 1#7
  | .shr d a b => 10#7 ++ b ++ a ++ d ++ 1#7
  | .sar d a b => 11#7 ++ b ++ a ++ d ++ 1#7
  | .min d a b u => 0#2 ++ u ++ 12#4 ++ b ++ a ++ d ++ 1#7
  | .max d a b u => 0#2 ++ u ++ 13#4 ++ b ++ a ++ d ++ 1#7
  | .slt d a b u => 0#2 ++ u ++ 14#4 ++ b ++ a ++ d ++ 1#7
  | .cnt d a k => 0#1 ++ k ++ 960#10 ++ a ++ d ++ 1#7
  | .addi d a i => i ++ a ++ d ++ 2#7
  | .andi d a i => i ++ a ++ d ++ 3#7
  | .ori d a i => i ++ a ++ d ++ 4#7
  | .xori d a i => i ++ a ++ d ++ 5#7
  | .shli d a i => 0#7 ++ i ++ a ++ d ++ 6#7
  | .shri d a i => 0#7 ++ i ++ a ++ d ++ 7#7
  | .sari d a i => 0#7 ++ i ++ a ++ d ++ 8#7
  | .slti d a i => i ++ a ++ d ++ 9#7
  | .lih d i => i ++ d ++ 10#7
  | .addpc d i => i ++ d ++ 11#7
  | .sfadd d a b p => 0#1 ++ p ++ 0#4 ++ b ++ a ++ d ++ 12#7
  | .sfsub d a b p => 0#1 ++ p ++ 1#4 ++ b ++ a ++ d ++ 12#7
  | .sfmul d a b p => 0#1 ++ p ++ 2#4 ++ b ++ a ++ d ++ 12#7
  | .sfma d a b p => 0#1 ++ p ++ 3#4 ++ b ++ a ++ d ++ 12#7
  | .sfdiv d a b p => 0#1 ++ p ++ 4#4 ++ b ++ a ++ d ++ 12#7
  | .sfsqrt d a p => 0#1 ++ p ++ 320#10 ++ a ++ d ++ 12#7
  | .sfcvt d a s t => t ++ 48#7 ++ s ++ a ++ d ++ 12#7
  | .sfmm d a b p x => x ++ p ++ 7#4 ++ b ++ a ++ d ++ 12#7
  | .sfcmp d a b c p => 0#1 ++ p ++ 2#2 ++ c ++ b ++ a ++ d ++ 12#7
  | .spset a => 0#13 ++ a ++ 0#6 ++ 13#7
  | .beq a b o => o ++ b ++ a ++ 16#7
  | .bne a b o => o ++ b ++ a ++ 17#7
  | .blt a b o => o ++ b ++ a ++ 18#7
  | .bge a b o => o ++ b ++ a ++ 19#7
  | .bltu a b o => o ++ b ++ a ++ 20#7
  | .bgeu a b o => o ++ b ++ a ++ 21#7
  | .strip a o => o ++ 0#6 ++ a ++ 22#7
  | .jal d o => o ++ d ++ 23#7
  | .jalr d a i => i ++ a ++ d ++ 24#7
  | .ld d a o z => z ++ o ++ a ++ d ++ 25#7
  | .st d a o z => z ++ o ++ a ++ d ++ 26#7
  | .lds d a c q z => z ++ 0#7 ++ q ++ c ++ a ++ d ++ 27#7
  | .sts d a c r z => z ++ 0#6 ++ r ++ 0#1 ++ c ++ a ++ d ++ 28#7
  | .waitval d a s q w c => c ++ 0#6 ++ w ++ q ++ s ++ a ++ d ++ 29#7
  | .amo c d a b o w q r => r ++ q ++ w ++ o ++ b ++ a ++ d ++ 8#5 ++ c
  | .setvl d a => 0#13 ++ a ++ d ++ 36#7
  | .setvli d i => i ++ d ++ 37#7
  | .vld d a b k z m => m ++ z ++ k ++ b ++ a ++ d ++ 40#7
  | .vldRaw d a b k z m => m ++ z ++ k ++ b ++ a ++ d ++ 41#7
  | .vst d a b k m => m ++ 0#1 ++ k ++ b ++ a ++ d ++ 42#7
  | .vstRaw d a b k m => m ++ 0#1 ++ k ++ b ++ a ++ d ++ 43#7
  | .vldff d a b k z m => m ++ z ++ k ++ b ++ a ++ d ++ 44#7
  | .vldffRaw d a b k z m => m ++ z ++ k ++ b ++ a ++ d ++ 45#7
  | .vamo d o c b k z q r => r ++ q ++ z ++ k ++ b ++ c ++ o ++ d ++ 46#7
  | .vadd d a b k z s => 0#1 ++ s ++ z ++ k ++ b ++ a ++ d ++ 48#7
  | .vsub d a b k z s => 0#1 ++ s ++ z ++ k ++ b ++ a ++ d ++ 49#7
  | .vmul d a b k z s => 0#1 ++ s ++ z ++ k ++ b ++ a ++ d ++ 50#7
  | .vmulh d a b k z s u => u ++ s ++ z ++ k ++ b ++ a ++ d ++ 51#7
  | .vmin d a b k z s u => u ++ s ++ z ++ k ++ b ++ a ++ d ++ 52#7
  | .vmax d a b k z s u => u ++ s ++ z ++ k ++ b ++ a ++ d ++ 53#7
  | .vand d a b k z s => 0#1 ++ s ++ z ++ k ++ b ++ a ++ d ++ 54#7
  | .vor d a b k z s => 0#1 ++ s ++ z ++ k ++ b ++ a ++ d ++ 55#7
  | .vxor d a b k z s => 0#1 ++ s ++ z ++ k ++ b ++ a ++ d ++ 56#7
  | .vshl d a b k z s => 0#1 ++ s ++ z ++ k ++ b ++ a ++ d ++ 57#7
  | .vshr d a b k z s => 0#1 ++ s ++ z ++ k ++ b ++ a ++ d ++ 58#7
  | .vsar d a b k z s => 0#1 ++ s ++ z ++ k ++ b ++ a ++ d ++ 59#7
  | .vaddsat d a b k z s u => u ++ s ++ z ++ k ++ b ++ a ++ d ++ 60#7
  | .vsubsat d a b k z s u => u ++ s ++ z ++ k ++ b ++ a ++ d ++ 61#7
  | .vfadd d a b k z s => 0#1 ++ s ++ z ++ k ++ b ++ a ++ d ++ 64#7
  | .vfsub d a b k z s => 0#1 ++ s ++ z ++ k ++ b ++ a ++ d ++ 65#7
  | .vfmul d a b k z s => 0#1 ++ s ++ z ++ k ++ b ++ a ++ d ++ 66#7
  | .vfma d a b k z s n => n ++ s ++ z ++ k ++ b ++ a ++ d ++ 67#7
  | .vfdiv d a b k z s => 0#1 ++ s ++ z ++ k ++ b ++ a ++ d ++ 68#7
  | .vfsqrt d a k z => 0#2 ++ z ++ k ++ 0#6 ++ a ++ d ++ 69#7
  | .vfmin d a b k z s => 0#1 ++ s ++ z ++ k ++ b ++ a ++ d ++ 70#7
  | .vfmax d a b k z s => 0#1 ++ s ++ z ++ k ++ b ++ a ++ d ++ 71#7
  | .vfrcp d a k z => 0#2 ++ z ++ k ++ 0#6 ++ a ++ d ++ 72#7
  | .vfrsq d a k z => 0#2 ++ z ++ k ++ 0#6 ++ a ++ d ++ 73#7
  | .vfexp2 d a k z => 0#2 ++ z ++ k ++ 0#6 ++ a ++ d ++ 74#7
  | .vflog2 d a k z => 0#2 ++ z ++ k ++ 0#6 ++ a ++ d ++ 75#7
  | .vfsgn d a b k z g => g ++ z ++ k ++ b ++ a ++ d ++ 76#7
  | .vcmp d u s a b k z c => c ++ z ++ k ++ b ++ a ++ s ++ u ++ d ++ 80#7
  | .vfcmp d s a b k z c => c ++ z ++ k ++ b ++ a ++ s ++ 0#1 ++ d ++ 81#7
  | .kop d a b o => 0#3 ++ o ++ 0#2 ++ b ++ 0#2 ++ a ++ 0#2 ++ d ++ 82#7
  | .kpop d a k => 2#3 ++ k ++ 0#8 ++ a ++ d ++ 82#7
  | .kfirst d a k => 4#3 ++ k ++ 0#8 ++ a ++ d ++ 82#7
  | .kmov d a => 28416#15 ++ a ++ 0#2 ++ d ++ 82#7
  | .mtree d a b => 15#7 ++ b ++ a ++ 0#2 ++ d ++ 83#7
  | .vcvt d a s k z => 0#2 ++ z ++ k ++ 0#3 ++ s ++ a ++ d ++ 84#7
  | .vnarrow d a n k z => 0#2 ++ z ++ k ++ 0#4 ++ n ++ a ++ 0#1 ++ d ++ 85#7
  | .vwiden d a u k z => 0#2 ++ z ++ k ++ 0#5 ++ u ++ a ++ d ++ 0#1 ++ 86#7
  | .vmerge d a b k s => 0#1 ++ s ++ 0#1 ++ k ++ b ++ a ++ d ++ 88#7
  | .vperm d a b k z => 0#2 ++ z ++ k ++ b ++ a ++ d ++ 89#7
  | .vslide d a b k z r => 0#1 ++ r ++ z ++ k ++ b ++ a ++ d ++ 90#7
  | .vcompress d a k z => 0#2 ++ z ++ k ++ 0#6 ++ a ++ d ++ 91#7
  | .vexpand d a k z => 0#2 ++ z ++ k ++ 0#6 ++ a ++ d ++ 92#7
  | .viota d k z => 0#2 ++ z ++ k ++ 0#12 ++ d ++ 93#7
  | .vbcast d a b k z f => 0#1 ++ f ++ z ++ k ++ b ++ a ++ d ++ 94#7
  | .vmovx d a k z y => 0#1 ++ y ++ z ++ k ++ 0#6 ++ a ++ d ++ 95#7
  | .vext d a b => 15#7 ++ b ++ a ++ d ++ 96#7
  | .vins d a b => 15#7 ++ b ++ a ++ d ++ 97#7
  | .vredsum d a b k => 0#3 ++ k ++ b ++ a ++ d ++ 100#7
  | .vredmax d a b k u => u ++ 0#2 ++ k ++ b ++ a ++ d ++ 101#7
  | .vredmin d a b k u => u ++ 0#2 ++ k ++ b ++ a ++ d ++ 102#7
  | .vfredsum d a b k => 0#3 ++ k ++ b ++ a ++ d ++ 103#7
  | .vfredmax d a b k => 0#3 ++ k ++ b ++ a ++ d ++ 104#7
  | .vredseq d a b k => 0#3 ++ k ++ b ++ a ++ d ++ 105#7
  | .vtmul d a b k z t => 0#1 ++ t ++ z ++ k ++ b ++ a ++ d ++ 106#7
  | .vtconj d a k z t v => v ++ t ++ z ++ k ++ 0#6 ++ a ++ d ++ 107#7
  | .rpt n k d a b r => 0#3 ++ r ++ b ++ a ++ d ++ k ++ n ++ 108#7
  | .algld a t => 0#8 ++ t ++ 0#10 ++ a ++ 109#7
  | .phase => 0#25 ++ 110#7
  | .fence t => 8#10 ++ t ++ 0#12 ++ 110#7
  | .yield => 524288#25 ++ 110#7
  | .join => 786432#25 ++ 110#7
  | .retire => 1048576#25 ++ 110#7
  | .bar g b => 20#9 ++ b ++ g ++ 0#12 ++ 110#7
  | .publish p f => 6#7 ++ f ++ p ++ 0#12 ++ 110#7
  | .qpush a q => 28#9 ++ q ++ a ++ 0#6 ++ 110#7
  | .qpop d a q => 32#9 ++ q ++ a ++ d ++ 110#7
  | .fork d o => o ++ d ++ 111#7
  | .mrow r a c t z x f => f ++ x ++ z ++ t ++ c ++ a ++ r ++ 112#7
  | .mrd r a c s x f => f ++ x ++ 0#1 ++ s ++ c ++ a ++ r ++ 113#7
  | .mwr r a c z x f => f ++ x ++ z ++ 0#2 ++ c ++ a ++ r ++ 114#7
  | .mclr r n f => f ++ 0#6 ++ n ++ r ++ 115#7
  | .mchk r n => 0#10 ++ n ++ r ++ 0#5 ++ 116#7
  | .mloc r d => 0#9 ++ d ++ r ++ 0#5 ++ 117#7
  | .mfix r a => 0#9 ++ a ++ r ++ 0#5 ++ 118#7
  | .wld w a b c => 0#5 ++ c ++ b ++ a ++ w ++ 119#7
  | .wldff w a b c => 1#5 ++ c ++ b ++ a ++ w ++ 119#7
  | .wsel w => 131072#21 ++ w ++ 119#7
  | .xcopy a b c => 0#9 ++ c ++ b ++ a ++ 120#7
  | .xfill a b c => 0#9 ++ c ++ b ++ a ++ 121#7
  | .rcfence a o => 0#8 ++ o ++ 0#10 ++ a ++ 122#7
  | .waitlt c t => t ++ c ++ 0#12 ++ 123#7
  | .kvcommit a b c => 0#9 ++ c ++ b ++ a ++ 124#7
  | .coll a c => 0#9 ++ c ++ 0#6 ++ a ++ 125#7
  | .ctlrd d c => 0#7 ++ c ++ d ++ 126#7
  | .ctlwr d c => 1#7 ++ c ++ d ++ 126#7
  | .trap c => 2#7 ++ c ++ 0#6 ++ 126#7
  | .brk c => 3#7 ++ c ++ 0#6 ++ 126#7
  | .resume => 1048576#25 ++ 126#7
  | .claim => 1310720#25 ++ 126#7
  | .logmark d c => 6#7 ++ c ++ d ++ 126#7
  | .ctxCreate _ _ _ => 0
  | .ctxDestroy _ _ => 0
  | .fnSet _ _ _ => 0
  | .evset _ _ _ _ _ _ => 0
  | .invalS1 _ _ _ _ => 0
  | .invalS2 _ _ _ _ => 0
  | .s2Retry _ _ => 0
  | .s2Decline _ _ => 0
  | .qenable _ _ => 0
  | .qdisable _ _ => 0
  | .frecRead _ => 0
  | .laneMaskRead _ => 0
  | .laneRetest _ _ _ _ => 0
  | .snuff _ => 0
  | .pwrLimit _ _ => 0
  | .peerSet _ _ _ _ _ _ => 0
  | .commSet _ _ _ _ => 0
  | .fwUpdateBegin _ _ => 0
  | .fwUpdateData _ _ _ => 0
  | .fwUpdateCommit _ _ => 0
  | .fwUpdateAbort _ => 0
  | .fwUpdateStatus _ => 0
  | .queueAttempt _ _ => 0
  | .nop _ _ => 0
  | .launch _ _ => 0
  | .admission _ _ => 0
  | .signal _ _ => 0
  | .signalStore _ _ => 0
  | .waitvalPacket _ _ => 0
  | .waitvalPacketSatisfied _ _ => 0
  | .codefence _ _ => 0
  | .codefenceAdvance _ _ => 0
  | .setdet _ _ => 0
  | .setdetApply _ _ => 0
  | .ctxsw _ _ => 0
  | .ctxswAbort _ _ => 0
  | .place _ _ => 0
  | .qpopRetireChoice _ _ => 0
  | .launchRetire _ => 0
  | .quantumExpiry _ => 0
  | .forcedStop _ => 0
  | .nonyield _ => 0
  | .slotSwitch _ => 0
  | .spill _ _ => 0
  | .restore _ _ _ => 0
  | .barWaitComplete _ => 0
  | .joinComplete _ => 0
  | .qpopWake _ => 0
  | .qpushWake _ => 0
  | .waitvalWake _ => 0
  | .waitltWake _ => 0
  | .xcopyComplete _ _ _ => 0
  | .xfillComplete _ _ _ => 0
  | .wldComplete _ _ _ => 0
  | .kvcommitComplete _ _ _ => 0
  | .collComplete _ _ _ => 0
  | .collLinkTimeout _ => 0
  | .laneSelftestDone _ _ => 0
  | .columnSelftestDone _ _ => 0
  | .coreRetired _ => 0
  | .logStall _ _ => 0
  | .hostMemAccess _ _ _ _ => 0
  | .snuffN => 0
  | .reset _ => 0
  | .thermalShutdown => 0
  | .powerControl _ _ => 0
  | .illegalOp _ => 0
  | .fetchFault _ => 0
  | .peerRequest _ _ _ _ => 0
  | .spdmRequest _ _ _ => 0
  | .linkTrainDown _ _ => 0
  | .dramScrub _ _ => 0
  | .peerLinkDown _ _ => 0

end Sys2Proof
end

