-- ==== Sys2Proof/Config.lean ====
section
/-! DEFINITION. What this stepping fixes (01 R8 to R21, 16 R292), and the values the spec leaves open. -/

namespace Sys2Proof.Config

/-- Cores of the part (R8). -/
def cores : Nat := 512
/-- Backed bytes of one die's home region (R13). -/
def backed : Nat := 384000000000
/-- Scratch bytes of a context slot (R199). -/
def scratchSize : Nat := 0x80000
/-- Entries a vector queue holds (R60). -/
def queueDepth : Nat := 32
/-- Largest value of a completion counter (R210). -/
def counterMax : Nat := 511
/-- Engine operations of one context slot in flight (R211). -/
def engineMax : Nat := 64
/-- Range-scoreboard entries (R213). -/
def boardMax : Nat := 32
/-- Record-cache entries (R208). -/
def recordCache : Nat := 16
/-- Launches of one context admitted and not retired (R285). -/
def launchMax : Nat := 64
/-- Contexts of the part (R27). -/
def contextMax : Nat := 256
/-- The default yield deadline in cycles (R26). -/
def ydlDefault : Nat := 470
/-- The default issue quantum in microseconds (R26). -/
def quantumDefault : Nat := 100
/-- Arithmetic-clock cycles in a microsecond: 600 MHz (R6). -/
def cyclesPerMicrosecond : Nat := 600
/-- Fault records the management controller keeps (R319). -/
def faultRing : Nat := 256
/-- Cycles a hart waits in QPOP before it may be retired (R287). -/
def qpopRetireCycles : Nat := 2048
/-- Host lines the part holds at once (R327). -/
def hostLineMax : Nat := 16384
/-- MSI-X vectors of the physical function and of a virtual one (R327). -/
def vectorsOf (f : Nat) : Nat := if f = 0 then 2048 else 64
/-- The default tolerance registers MTOL_F8, MTOL_H, MTOL_Q, MTOL_ALG (R26). -/
def mtolDefault : List Word :=
  [0x3980000000800000, 0x3980000000800000, 0x3A80000000800000, 0x3A80000000800000]

/-- The fused minimum security version of firmware (R335): the spec gives no number (DESIGN CHOICE, log 7). -/
opaque fusedMinimum : Nat

/-- The answer to an SPDM request (R335): the measurement's bytes depend on keys the spec does not give (DESIGN CHOICE,
log 7). Applied to the function, the block, what the block measures and a fresh count. -/
opaque spdmBytes : Nat → Nat → List Byte → Nat → List Byte

/-- Where a function's capability chain stands (R19, R327), its configuration space and its CDAT object (R327): the spec
does not give them (DESIGN CHOICE, log 70). -/
opaque chainPlace : Nat → Nat
opaque configByte : Nat → Nat → Byte
opaque cdatBytes : Nat → List Byte

/-- The part at the other end of a peer link (R330): the wiring of a rack is not the spec's (DESIGN CHOICE, log 88). -/
opaque peerPart : Nat → Nat

/-- A value the spec leaves open, fresh at each count (DESIGN CHOICE, log 5). -/
opaque freeWord : Nat → Word

end Sys2Proof.Config
end

