-- ==== Sys2Proof/Machine/State.lean ====
section
/-! DEFINITION. The machine's state, as plain data: what INVENTORY.md lists under '## State', and the state right
after reset. Ground rules: a hart is named by its number core * 8 + context slot * 4 + hart slot; a context slot of a
core by core * 2 + slot; a context by function * 64 + number. -/

namespace Sys2Proof.Machine

/-- The kind of an access (14 R243, 15 R256). -/
inductive Kind where
  | read | write | exec
  deriving DecidableEq, Repr

/-- Element types, the ET codes of R54 in order. -/
inductive ET where
  | i8 | i16 | i32 | i64 | f16 | bf16 | f32 | f64
  deriving DecidableEq, Repr

/-- Rounding modes, the FRM codes of R54 in order. -/
inductive Frm where
  | rne | rtz | rdn | rup
  deriving DecidableEq, Repr

/-- Determinism levels, the DETLVL codes of R68 in order. -/
inductive Level where
  | free | digest | record | replay
  deriving DecidableEq, Repr

/-- Trap causes, closed (15 R257). -/
inductive Cause where
  | illegalOp | illegalReg | tupleLen | algtab | page | perm | format | formatSplit | align | walkAbort
  | brk | trap | checksum | matrixType | laneCheck | poison | replayDiverge | nonyield
  deriving DecidableEq, Repr

/-- Why a hart is parked (02 R47, 14 R248, R253, 19 R315, 08 R189). -/
inductive Park where
  /-- QPOP on an empty queue. -/
  | qpop (q : Nat)
  /-- QPUSH on a full queue. -/
  | qpush (q : Nat)
  /-- WAITVAL: in scratch or not, the line's number, and what the line held when the hart parked (R445). -/
  | waitval (scr : Bool) (line seen : Nat)
  | waitlt (c t : Nat)
  /-- A BAR wait: the group entry and the hart's arrival count k (R354). -/
  | bar (g k : Nat)
  | join
  /-- A page with MIG = 1: its virtual address (R248). -/
  | mig (va : Nat)
  /-- A stage-2 event awaiting its answer (R253). -/
  | stage2 (evt : Nat)
  /-- Self-tests of lane groups after mismatches, as (lane group, lane, element): those that run, and those that failed,
  with the lowest failing lane (R315, R316). -/
  | laneTest (tests failed : List (Nat × Nat × Nat))
  /-- The column self-test before CHECKSUM: failing region, its consumed bits, and the columns it tests (R189). -/
  | columnTest (rgn : Nat) (cons : BitVec 32) (cols : List Nat)
  /-- A full log ring (0), a record not yet written (1), a version counter or a cut (2), a full ring at a LOGMARK (3, R383), and
  since which cycle (R305). -/
  | log (kind since : Nat)
  /-- A stage-2 event that finds function `f`'s hypervisor ring full waits for space, its access parked (R252). -/
  | ring (f : Nat)
  deriving DecidableEq, Repr

/-- What a hart does: it runs; it waits at an instruction for a resource of the device (a full queue, a counter, a log
record); it is parked; it has yielded or been stopped (R266, R267). -/
inductive Run where
  | running | waiting | parked (p : Park) | stopped
  deriving DecidableEq, Repr

/-- What a scalar instruction changes for the vector instructions queued after it (R52, R405): VL, VTYPE.ET or FRM. -/
inductive VSet where
  | vl (n : Nat) | et (e : ET) | frm (f : Frm)
  deriving DecidableEq, Repr

/-- What an instruction stopped inside has changed so far (R63, R157): each vector register with its value and poison from
before it, each mask register with its value, and the version of its algebra table. -/
structure Part where
  regs : List (Nat × BitVec 8192 × BitVec 1024)
  masks : List (Nat × BitVec 1024)
  table : Option (List Byte)
  deriving DecidableEq, Repr

/-- Where an entry of the vector queue stands in its hart's order, which it keeps while it waits (R217, R222): the order
point at which it was queued, the hart's last acquire then, and the flips that one followed; and, of an instruction
stopped inside, what it has changed. -/
structure QNote where
  seq : Nat
  acq : Nat
  views : List Nat
  part : Option Part
  deriving DecidableEq, Repr

/-- An entry of the vector queue (R60, R263): PC, word, the scalar operands captured at queue time, what took its place
in the queue right before it (R405), and the words a repeat frame has captured (R401), none until it is fetched again
(R67). -/
structure QEntry where
  pc : Word
  word : BitVec 32
  op1 : Word
  op2 : Word
  sets : List VSet
  frame : List (BitVec 32)
  note : QNote
  deriving DecidableEq, Repr

/-- An ordinary store of one byte that has not reached home (R217): its number, whether the vector side made it, its line
address and byte, and the order point from which the hart's other side sees it, once a fence has ordered it (R219,
R226). -/
structure Pend where
  n : Nat
  vec : Bool
  a : Nat
  b : Byte
  cross : Option Nat
  deriving DecidableEq, Repr

/-- A copy of a line in an L1, an RDC or an instruction cache (R221, R290): its context, line address, bytes, the cut number
that was current when it was filled, and its poisoned granules of 64 bytes (R319). -/
structure CLine where
  ctx : Nat
  a : Nat
  bytes : List Byte
  cut : Nat
  bad : BitVec 4
  deriving DecidableEq, Repr

/-- How an instruction stops short of its end: it traps, parks its hart, or waits for a resource. -/
inductive Stop where
  | trap (c : Cause) (k : Kind) (val : Word)
  | park (p : Park)
  | wait
  deriving DecidableEq, Repr

/-- A trap whose save area could not be written yet (R260): cause, kind, TRAPVAL, position and SPC. -/
structure PendTrap where
  cause : Cause
  kind : Kind
  val : Word
  pos : Word
  spc : Word
  deriving DecidableEq, Repr

/-- A hart: all that R35 to R38, R50 to R68 and the chapters they name give it. -/
structure Hart where
  live : Bool
  id : Nat
  launch : Nat
  stage : Nat
  index : Nat
  offset : Nat
  nharts : Nat
  /-- LGOWN: physical lane groups owned. -/
  lgown : BitVec 4
  /-- GRP0 to GRP3 (0xFFFF: empty). -/
  grp : Vector (BitVec 16) 4
  /-- s0 to s63; s0 is hard-wired by the accessors of Ops. -/
  s : Vector Word 64
  /-- Poisoned scalar registers: register files can fail uncorrectably (R257, R319). -/
  sp : BitVec 64
  /-- v0 to v47: 1,024 bytes, of which the hart's lane groups hold the low n * 256. -/
  v : Vector (BitVec 8192) 48
  /-- Poisoned bytes of v0 to v47. -/
  vp : Vector (BitVec 1024) 48
  /-- k0 to k11. -/
  k : Vector (BitVec 1024) 12
  /-- c0 to c15, each 0 to 511. -/
  cnt : Vector Nat 16
  pc : Word
  vstart : Nat
  rpos : Word
  vl : Nat
  et : ET
  frm : Frm
  fflags : BitVec 5
  spdesc : BitVec 32
  queue : List QEntry
  /-- What took its place in the queue behind its youngest entry (R405). -/
  sets : List VSet
  /-- What the save area does not hold of the queue that CLAIM saved: its entries, what follows them, and the marks of
  its FENCEs (R262). -/
  kept : List QEntry
  keptSets : List VSet
  keptMarks : List (Nat × Nat)
  /-- The vector unit is frozen (R260, R261). -/
  frozen : Bool
  trapcause : Word
  trappc : Word
  trapval : Word
  /-- MSTAT but for CUV, which is computed (R183). -/
  mstat : Word
  mtol : Vector Word 4
  algstat : BitVec 2
  digest : Word
  logseq : BitVec 32
  /-- The selected stationary tile's weight slot (R173). -/
  tile : Option Nat
  /-- The BAR arrival flag (R355). -/
  arrived : Bool
  yreq : Bool
  yreqAt : Nat
  /-- NONYIELD has been taken since YREQ rose (R267). -/
  nonyielded : Bool
  run : Run
  /-- Unjoined children, youngest first (R39). -/
  children : List Nat
  parent : Option Nat
  /-- The child has reached JOIN and waits to be absorbed (R39). -/
  ended : Bool
  /-- Cut number of the last acquire (R217). -/
  lastAcq : Nat
  /-- Flips of each publish window before the last acquire, and before the last release (R231, R233). -/
  views : List Nat
  rels : List Nat
  /-- How far a phase boundary that must wait has come: 1 it has released, 2 what lies between release and acquire is
  done (R216, R232, R306); 3: the acquire of the hart's start is still due; 4: YIELD waits for a safe point (R266);
  5: a VAMO whose elements have all been compared is being performed (R314). -/
  relStage : Nat
  /-- And the cut number it took. -/
  relCut : Nat
  /-- Ordinary stores not yet home, oldest first (R217). -/
  sbuf : List Pend
  /-- Order points the hart has passed since its start: the bytes it has stored, which they number, and at RECORD and
  REPLAY its fences and FORKs. -/
  stores : Nat
  /-- For each queued FENCE that waits for older entries, in order: the order point, and the number of the next engine
  operation, when it was issued (R226). -/
  fmarks : List (Nat × Nat)
  /-- The number of the next engine operation at the last trap entry (R369). -/
  trapOp : Nat
  /-- A trap not yet taken, since its save area faults without a trap (R260). -/
  pend : Option PendTrap
  /-- The harts it was forked from, nearest first, and the number of each one's first store after the FORK: their
  stores before it count as its own (R40). -/
  kin : List (Nat × Nat)
  /-- The retire (1) or end (2) status QPOP has given, which it gives again (R395). -/
  sticky : Option Nat
  /-- The cycle it parked in the QPOP it stands at (R287). -/
  popSince : Option Nat
  /-- Events are no longer enforced at REPLAY (R307). -/
  diverged : Bool
  deriving DecidableEq, Repr

/-- An accumulator row (08 R178, R182): type none 0, f32 1, i32 2; its 128 columns of 32 bits. -/
structure AccRow where
  ty : Nat
  checked : Bool
  consumed : Bool
  poisoned : Bool
  cols : BitVec 4096
  deriving DecidableEq, Repr

/-- The live combination of a region (R184): weight slot, co, ts, af, the table's record in algebra mode, and how
many A elements its sums reach. Its tile version is the one in the slot, since a new one is awaited by the fold. -/
structure Comb where
  wb : Nat
  co : Nat
  ts : Nat
  af : Nat
  table : List Byte
  k : Nat
  deriving DecidableEq, Repr

/-- A verdict of MCHK (R184, R188): none, pass, or fail with its bitmaps and each discrepancy. -/
inductive Verdict where
  | none | pass
  | fail (rows : BitVec 32) (cols : BitVec 128) (rowDisc : BitVec 1024) (colDisc : BitVec 4096)
  deriving DecidableEq, Repr

/-- A check region's record (R184): E and M by row, D and DM by column, the A-sums by element. -/
structure Region where
  e : BitVec 1024
  m : BitVec 1024
  d : BitVec 4096
  dm : BitVec 4096
  comb : Option Comb
  sums : SMap Nat
  abss : SMap Nat
  /-- Classes that have written it: bit 0 F8, 1 H, 2 Q, 3 ALG, 4 INT. -/
  classes : BitVec 5
  verdict : Verdict
  deriving DecidableEq, Repr

/-- A tile (R168): page-format code, group-size code, depth, image bytes as a number, poison. -/
structure Tile where
  fmt : Nat
  gs : Nat
  depth : Nat
  image : Nat
  poisoned : Bool
  deriving DecidableEq, Repr

/-- A weight slot (R168). -/
inductive WSlot where
  | empty | loading | tile (t : Tile)
  deriving DecidableEq, Repr

/-- What an engine operation does (R205, R170, R324, R450). -/
inductive EngKind where
  | xcopy | xfill | kvcommit | wld
  deriving DecidableEq, Repr

/-- An engine operation in flight: its number, hart (4096 once that hart is gone), counter, kind, captured records and
operands, the pages of its source and destination as (first VA touched, guest-physical address) with the translations
taken at issue, and what of the hart's view it reads under (R205, R210, R222). -/
structure EngOp where
  n : Nat
  kind : EngKind
  hart : Nat
  counter : Nat
  /-- Source record, KV record, or the tile image's bytes. -/
  src : List Byte
  dst : List Byte
  /-- Record address (KVCOMMIT), fill value (XFILL), image address (tile load). -/
  arg : Word
  /-- fn5 of the word: 1 for WLDFF (R270). -/
  fn5 : Nat
  /-- Weight slot, format code, group-size code, depth and poison of a tile load. -/
  wb : Nat
  fmt : Nat
  gs : Nat
  depth : Nat
  bad : Bool
  /-- Accepted indices. -/
  idx : List Nat
  srcPages : List (Nat × Nat)
  dstPages : List (Nat × Nat)
  /-- The hart's last acquire at issue, and the number of its next store then. -/
  acq : Nat
  seq : Nat
  /-- The claimed span of scratch, if any (R213). -/
  span : Option (Nat × Nat)
  /-- The next element of a copy or fill, or the next 256-byte unit (R205, R270). -/
  next : Nat
  /-- The hart's place in the part at issue, which a stage-2 event names (R254). -/
  home : Nat
  /-- The data is done; the counter waits for its turn (R210). -/
  done : Bool
  /-- What its writes so far add to its hart's digest when it completes (R207, R296). -/
  fold : Word
  deriving DecidableEq, Repr

/-- A context slot of a core (R10, R23). -/
structure Slot where
  holder : Option Nat
  scratch : SMap Byte
  scrPoison : List Nat
  acc : SMap AccRow
  regions : SMap Region
  weights : SMap WSlot
  /-- Record cache: key and 64 bytes, most recently used first (R208). -/
  rcache : List (Nat × List Byte)
  ops : List EngOp
  deriving DecidableEq, Repr

/-- A context slot spilled from a core (R269): its storage and its harts, as they stood but for what the save areas
hold, which a restore reads back. -/
structure Spill where
  slot : Slot
  harts : List Hart
  deriving DecidableEq, Repr

/-- A core (R10, R292, R293, R318). -/
structure Core where
  active : Nat
  activeSince : Nat
  laneMask : BitVec 4
  cap : Nat
  spares : Nat
  replaced : List Nat
  badColumn : Bool
  outOfService : Bool
  /-- The code epoch this core last placed a hart at, by context (R290). -/
  epochs : SMap Nat
  /-- Transient verdicts: lane group * 8 + lane, and the cycle (R315). -/
  transients : List (Nat × Nat)
  /-- L1 sectors of 64 bytes, and instruction-cache lines of 64 bytes (R10, R198, R221, R290). -/
  l1 : List CLine
  icache : List CLine
  deriving DecidableEq, Repr

/-- A publish window (R230). -/
structure Window where
  va : Nat
  nblk : Nat
  en : Bool
  /-- Flips so far, counted so that GEN is their parity (R230, R393). -/
  gen : Nat
  pa0 : Nat
  pa1 : Nat
  deriving DecidableEq, Repr

/-- A home store kept for snapshot-strict reads (R222): the byte's former value, the store's author and number, the cut
of its release, when it is known (DEDUCED, log 6), the order points from which the author's scalar and vector side see it
(R219, R226), and of an engine's write the operation's number and counter. -/
structure Undo where
  a : Nat
  old : Byte
  hart : Option Nat
  seq : Nat
  stamp : Option Nat
  sAt : Option Nat
  vAt : Option Nat
  op : Option (Nat × Nat)
  deriving DecidableEq, Repr

/-- An algebra table in a slot (R157): its record, its loader and the number of the loader's next store then, and the
cut of the loader's first release after, which decide who sees it at RECORD and REPLAY. -/
structure Tab where
  tb : Nat
  record : List Byte
  hart : Option Nat
  seq : Nat
  stamp : Option Nat
  deriving DecidableEq, Repr

/-- A cached entry of a page table, of any level (R243, R249): the address bits it serves, the entry's address and the
value it was read with, its level. -/
structure TlbEntry where
  vpn : Nat
  pteA : Nat
  pte : Nat
  lvl : Nat
  deriving DecidableEq, Repr

/-- A held SETDET (R291): queue and the launches it drains. -/
structure Drain where
  fn : Nat
  q : Nat
  launches : List Nat
  deriving DecidableEq, Repr

/-- A context (R22, R26, R27). -/
structure Ctx where
  live : Bool
  recA : Nat
  root : Nat
  save : Word
  shadow : Word
  scrbase : Word
  capbase : Word
  lchk : Bool
  toldef : Bool
  trapbase : Word
  ydl : Nat
  quantum : Nat
  mtol : Vector Word 4
  coreset : BitVec 512
  /-- Algebra tables loaded into slots T0 and T1, newest first (R157). -/
  tabs : List Tab
  level : Level
  refbase : Word
  cut : Nat
  admits : Nat
  hist : List Undo
  windows : List Window
  epoch : Nat
  drains : List Drain
  tlb : List TlbEntry
  /-- REPLAY: record indexes of the ring already consumed ahead of the head (R306). -/
  consumed : List Nat
  /-- REPLAY: harts that have diverged, whose records still to come are consumed and ignored, as (launch number, stage,
  index, offset) (R307). -/
  ghosts : List (Nat × Nat × Nat × Nat)
  /-- REPLAY: launches that have retired, whose records still to come are skipped, by launch number (R307). -/
  skips : List Nat
  /-- RECORD: a wait for the full ring outside every hart, by the cycle it began, and whether the current stall has been
  reported (R305). -/
  stallSince : Option Nat
  stallSent : Bool
  /-- By priority, one more than the queue a launch was last admitted from (R285). -/
  turns : SMap Nat
  deriving DecidableEq, Repr

/-- A packet in progress (R279, R284). -/
structure Packet where
  ptype : Nat
  bytes : List Byte
  /-- Its effect has begun (waits as R279 gives). -/
  begun : Bool
  /-- The launches its effect waits for. -/
  waits : List Nat
  /-- The time at which the hypervisor pre-empted a CTXSW that runs (R271). -/
  since : Option Nat
  deriving DecidableEq, Repr

/-- Queue states (R284). -/
inductive QState where
  | disabled | idle | fetch | wait | error
  deriving DecidableEq, Repr

/-- A host queue (R273, R277, R284). -/
structure HostQueue where
  st : QState
  headA : Nat
  tailA : Nat
  base : Nat
  logsz : Nat
  ctx : Nat
  vec : Nat
  prio : Nat
  head : Nat
  seq : BitVec 32
  fails : Nat
  /-- What the last attempt saw of the tail sector and of the packet sectors it holds; none: an attempt is due (R277). -/
  seen : Option (List Byte)
  packet : Option Packet
  deriving DecidableEq, Repr

/-- A peer table entry (R330). -/
structure Peer where
  v : Bool
  links : Nat
  fn : Nat
  /-- PEER_DOWN has been sent since the last PEER_SET, and an access has failed for which it is still to be sent. -/
  reported : Bool
  due : Bool
  deriving DecidableEq, Repr

/-- An access parked at stage 2 (R253). -/
structure S2Event where
  evt : Nat
  hart : Nat
  /-- The engine operation whose access it is, if one's. -/
  op : Option Nat
  walk : Bool
  gva : Nat
  gpa : Nat
  kind : Kind
  declined : Bool
  deriving DecidableEq, Repr

/-- Mailbox return codes (R27, R273, R329). -/
inductive MailRc where
  | success | invalidInput | unsupported | busy
  deriving DecidableEq, Repr

/-- A function (R252, R273, R282, R329, R330). -/
structure Fn where
  recA : Nat
  s2root : Nat
  ctxswdl : Nat
  maxctx : Nat
  mask : Nat
  hvbase : Nat
  hvlogsz : Nat
  hvhead : Nat
  hvtail : Nat
  evBase : Nat
  evLogsz : Nat
  evHead : Nat
  evTail : Nat
  evVec : Nat
  evSet : Bool
  evCount : Nat
  lost : Nat
  queues : SMap HostQueue
  peers : SMap Peer
  s2 : List S2Event
  s2tlb : List TlbEntry
  /-- The result of its last mailbox command (R329), and of its last DOE request (R327). -/
  mailRc : MailRc
  mailOut : List Byte
  doeOut : List Byte
  /-- An INVAL_S1 that waits for the accesses that use an old translation, which holds the mailbox (R249, R329): context, first
  page, pages, and the number of the next engine operation when it was given. -/
  inval : Option (Nat × Nat × Nat × Nat)
  deriving DecidableEq, Repr

/-- A stage of a launch (R28 to R31). -/
structure Stage where
  entry : Word
  shape : Nat
  n : Nat
  inq : Option Nat
  outq : Option Nat
  placed : Nat
  /-- Logical indices of harts that have retired. -/
  retired : List Nat
  finished : Bool
  deriving DecidableEq, Repr

/-- A queue of a launch (R28, R32, R33). -/
structure LQueue where
  base : Word
  rsize : Nat
  cap : Nat
  prod : Option Nat
  cons : Option Nat
  init : Nat
  pushed : Nat
  taken : Nat
  closed : Bool
  deriving DecidableEq, Repr

/-- A valid entry of the group table (R41): its number, stage, and ranges as (first, count, stride). -/
structure Group where
  num : Nat
  stage : Nat
  ranges : List (Nat × Nat × Nat)
  deriving DecidableEq, Repr

/-- Where a hart of the first run stood (R299): stage, index, hart number, lane groups. -/
structure Position where
  stage : Nat
  index : Nat
  hart : Nat
  lg : BitVec 4
  deriving DecidableEq, Repr

/-- A launch (R28 to R46, R298, R299). -/
structure Launch where
  num : Nat
  ctx : Nat
  fn : Nat
  q : Nat
  template : Word
  arg : Word
  tag : BitVec 32
  compl : Nat
  irq : Bool
  prio : Nat
  level : Level
  epoch : Nat
  /-- ADMIT records since the level was set (R303). -/
  lnch : Nat
  stages : List Stage
  queues : List LQueue
  groups : List Group
  /-- Arrival counts: group entry * 2^24 + index (R354). -/
  arrivals : SMap Nat
  ldig : Word
  /-- Windows with a deferred flip (R234). -/
  deferred : BitVec 32
  /-- A CHECKSUM with nonzero CONS was raised (R194). -/
  csmark : Bool
  /-- A digest or reference slot could not be accessed (R299). -/
  nodigest : Bool
  /-- 0 first run; 1 digest, 2 CHECKSUM, 3 both: the serial re-run's cause (R299). -/
  rerun : Nat
  first : List Position
  /-- The re-run's hart that issues (R300): stage, index, offset. -/
  turn : Nat × Nat × Nat
  redig : Word
  rr : Nat
  deriving DecidableEq, Repr

/-- A collective in flight (R332 to R334): its number, communicator, hart, context, counter, the record's address and
bytes, pages as those of an engine operation, the tolerance captured at issue. -/
structure CollOp where
  n : Nat
  comm : Nat
  hart : Nat
  ctx : Nat
  counter : Nat
  recA : Nat
  record : List Byte
  srcPages : List (Nat × Nat)
  dstPages : List (Nat × Nat)
  acq : Nat
  seq : Nat
  tol : Word
  /-- The data is done; the counter waits for its turn (R210). -/
  done : Bool
  /-- Its hart is spilled (R269). -/
  away : Bool
  /-- The STATUS it ended with, and its hart's place in the part at issue (R254). -/
  status : Nat
  home : Nat
  deriving DecidableEq, Repr

/-- A communicator (R332). -/
structure Comm where
  set : Bool
  peers : List Nat
  rank : Nat
  deriving DecidableEq, Repr

/-- A firmware bank (R338). -/
structure Bank where
  present : Bool
  len : Nat
  /-- The security version; none: that of the image the part came with, the fused minimum (log 2). -/
  version : Option Nat
  bytes : SMap Byte
  deriving DecidableEq, Repr

/-- A word of memory that can fail (R319): of memory by its physical address, a scalar register or a byte of a vector
register of a hart, a byte of scratch, an accumulator row or a tile of a context slot, and a byte of a context's line in an
L1 (0), an RDC (1) or an instruction cache (2). -/
inductive EccSite where
  | memory (pa : Nat) | scalar (h r : Nat) | vector (h r byte : Nat) | scratch (slot off : Nat)
  | row (slot r : Nat) | tile (slot w : Nat) | line (level core ctx a : Nat)
  deriving DecidableEq, Repr

/-- What the environment does next: plain data that a step consumes (DESIGN CHOICE, log 4). -/
inductive Input where
  /-- One of the device's own or the outside world's steps. -/
  | event (i : Instr)
  /-- The scalar unit of the focus hart runs ahead of its vector queue (R60). -/
  | ahead
  /-- The hart that issues next. -/
  | focus (h : Nat)
  /-- The vector queue of a parked hart goes on (R47, R60). -/
  | queue (h : Nat)
  /-- The ordinary stores of hart `h` to the 64-byte sector of line address `a` reach home early (R218, R219). -/
  | evict (h a : Nat)
  /-- A line of device memory is written back (R215). -/
  | writeback (line : Nat)
  /-- Pipes P and Q differ in an element of the vector instruction that runs next (R315). -/
  | mismatch (lg lane elem : Nat)
  /-- The next instructions of a hart's vector queue, those of its repeat frames one by one, run as convoys (R62, R65): for
  each whether it joins the convoy of the one it chains onto, and the mismatches it meets. -/
  | convoy (h : Nat) (plan : List (Bool × List (Nat × Nat × Nat)))
  /-- The oldest entry of a hart's vector queue has come as far as element `p`, of a repeat frame after `n` more of its
  instructions (R36, R417). -/
  | part (h n p : Nat)
  /-- A unit of 256 bytes of an engine operation is done (R269). -/
  | engineUnit (core slot n : Nat)
  /-- A line is filled into, or leaves, an L1 (0), an RDC (1) or an instruction cache (2) (R198, R221, R290). -/
  | fill (level core ctx a : Nat)
  | unfill (level core ctx a : Nat)
  /-- A peer writes its own memory behind a peer window of function `f` (R331). -/
  | peerStore (f a : Nat) (b : Byte)
  /-- A soft error flips bits of an accumulator column (R188, R192). -/
  | softError (core slot row col : Nat) (bits : BitVec 32)
  /-- A location becomes uncorrectable (R319). -/
  | uncorrectable (x : EccSite)
  /-- A single-bit error of a unit is corrected and counted, of a core or of site `core` - 512, there at address `pa`; with
  `told` the management controller writes a record (R319). -/
  | corrected (core unit pa : Nat) (told : Bool)
  /-- The host reads `n` bytes of a function's capability chain (R19, R336) or of its Plamuram DVSEC (R327, R337). -/
  | chainRead (f off n : Nat)
  | dvsecRead (f : Nat)
  /-- The host reads `n` bytes of a function's configuration space, or asks for its CDAT object (R327). -/
  | configRead (f off n : Nat)
  | cdatRead (f : Nat)
  /-- The board reads the fault records over I3C or SMBus (R337). -/
  | recordRead
  /-- Cycles and nanoseconds pass; latencies are left out (DESIGN CHOICE, log 69). -/
  | clock (cycles ns : Nat)
  deriving DecidableEq, Repr

/-- A place an access reaches: scratch of the hart's slot (10 R199), physical memory, or a location whose stage-2
access was declined (14 R253), which behaves as uncorrectable. -/
inductive Loc where
  | scr (off : Nat)
  /-- Memory, by line address: the function's number above a 52-bit address (R250). -/
  | phys (a : Nat)
  /-- The address stage 2 declined. -/
  | dead (a : Nat)
  deriving DecidableEq, Repr

/-- Why the machine stops. -/
inductive Fault where
  /-- Raised by `step` in the freeze when no input is left: every clock but the management controller's is
  stopped, and only a reset leaves (19 R321). Safe: the hardware does nothing there either. -/
  | frozen
  deriving DecidableEq, Repr

/-- Why the model gives an instruction no meaning. -/
inductive Refusal where
  /-- Raised by a refused arm of `exec` only: the instruction's mnemonic. Safe: nothing is claimed of it. -/
  | notModelled (mnemonic : String)
  deriving DecidableEq, Repr

/-- The machine's state. -/
structure State where
  /-- The hart in focus: the one that issues next (DESIGN CHOICE, log 4). -/
  hart : Hart
  /-- Every other live hart, by number. -/
  harts : SMap Hart
  slots : SMap Slot
  /-- Spilled slots, by context * 512 + core. -/
  spills : SMap Spill
  cores : SMap Core
  ctxs : SMap Ctx
  fns : SMap Fn
  launches : SMap Launch
  /-- Memory: the DRAM value of device memory, by physical address (R13, R215), host memory, by its address with
  PA[51] set, and peers' memory, by the part behind the link, function and address from 2^60 on (R330). -/
  mem : SMap Byte
  /-- Dirty bytes of device memory in the homes' L2, by line address; they are what the home holds (R198, R215, R250). -/
  l2 : SMap (Option Byte)
  /-- The remote-data cache of each compute die (R8, R16, R221). -/
  rdc : SMap (List CLine)
  /-- Poisoned 64-byte granules of memory, by line address or physical address (R319). -/
  poison : List Nat
  cycle : Nat
  time : Nat
  /-- Fault records, oldest first, and how many were overwritten (R319). -/
  frec : List (BitVec 256)
  frecLost : Nat
  /-- Corrected errors since the last record of type 5, by unit: core, or 512 + site, * 128 + unit (R319). -/
  corrected : SMap Nat
  frozen : Bool
  pilot : Option Nat
  powerLimit : Nat
  fwActive : Bank
  fwStaging : Bank
  /-- The length declared by an open update (R338). -/
  fwOpen : Option Nat
  fwNext : Bool
  fwRejected : Bool
  comms : SMap Comm
  colls : List CollOp
  /-- Peer links that are down, and since which cycle (R331, R334). -/
  linksDown : List (Nat × Nat)
  hostLanes : Nat
  hostRate : Nat
  ideKeys : Bool
  /-- What the last read by the host, a peer or the board returned; none: poison (R328, R331, R337). -/
  busOut : Option (List Byte)
  /-- MSI-X vectors signalled: function and vector, newest first. -/
  msix : List (Nat × Nat)
  nextLaunch : Nat
  nextEvt : Nat
  nextOp : Nat
  /-- The vector instruction issued by this step is queued (model's own, DESIGN CHOICE, log 4). -/
  ahead : Bool
  /-- Mismatches the next vector instruction meets (model's own, DESIGN CHOICE, log 4). -/
  mismatch : List (Nat × Nat × Nat)
  /-- Cycles without an input since the last in which the hart in focus gave way, and how often it has (R48) (model's
  own, DESIGN CHOICE, log 4). -/
  beat : Nat
  fair : Nat
  inputs : List Input
  /-- The count to which a free value is applied (model's own, DESIGN CHOICE, log 5). -/
  fresh : Nat
  deriving DecidableEq, Repr

/-- A hart slot no hart holds; a hart at its start has these values but for what placement sets (R37, R68). -/
def Hart.initial : Hart where
  live := false
  id := 0
  launch := 0
  stage := 0
  index := 0
  offset := 0
  nharts := 0
  lgown := 0
  grp := Vector.replicate 4 0xFFFF
  s := Vector.replicate 64 0
  sp := 0
  v := Vector.replicate 48 0
  vp := Vector.replicate 48 0
  k := Vector.replicate 12 0
  cnt := Vector.replicate 16 0
  pc := 0
  vstart := 0
  rpos := 0
  vl := 0
  et := .i8
  frm := .rne
  fflags := 0
  spdesc := 0
  queue := []
  sets := []
  kept := []
  keptSets := []
  keptMarks := []
  frozen := false
  trapcause := 0
  trappc := 0
  trapval := 0
  mstat := 0
  mtol := Vector.replicate 4 0
  algstat := 0
  digest := 0
  logseq := 0
  tile := none
  arrived := false
  yreq := false
  yreqAt := 0
  nonyielded := false
  run := .running
  children := []
  parent := none
  ended := false
  lastAcq := 0
  views := []
  rels := []
  relStage := 0
  relCut := 0
  sbuf := []
  stores := 0
  fmarks := []
  trapOp := 0
  pend := none
  kin := []
  sticky := none
  popSince := none
  diverged := false

/-- A row nothing has written (R178). -/
def AccRow.initial : AccRow := ⟨0, false, false, false, 0⟩
/-- A region nothing has written (R184). -/
def Region.initial : Region := ⟨0, 0, 0, 0, none, [], [], 0, .none⟩
/-- A context slot that no context holds. -/
def Slot.initial : Slot := ⟨none, [], [], [], [], [], [], []⟩
/-- Nothing spilled. -/
def Spill.initial : Spill := ⟨Slot.initial, []⟩
/-- A core after its first power-on (DESIGN CHOICE, log 2). -/
def Core.initial : Core := ⟨0, 0, 0, 4, 2, [], false, false, [], [], [], []⟩
/-- A context number not in use. -/
def Ctx.initial : Ctx where
  live := false
  recA := 0
  root := 0
  save := 0
  shadow := 0
  scrbase := 0
  capbase := 0
  lchk := false
  toldef := false
  trapbase := 0
  ydl := Config.ydlDefault
  quantum := Config.quantumDefault
  mtol := Vector.replicate 4 0
  coreset := 0
  tabs := []
  level := .free
  refbase := 0
  cut := 0
  admits := 0
  hist := []
  windows := []
  epoch := 0
  drains := []
  tlb := []
  consumed := []
  ghosts := []
  skips := []
  stallSince := none
  stallSent := false
  turns := []
/-- A function before FN_SET (log 2: MAXCTX 63). -/
def Fn.initial : Fn where
  recA := 0
  s2root := 0
  ctxswdl := 100000
  maxctx := 63
  mask := 0
  hvbase := 0
  hvlogsz := 12
  hvhead := 0
  hvtail := 0
  evBase := 0
  evLogsz := 12
  evHead := 0
  evTail := 0
  evVec := 0
  evSet := false
  evCount := 0
  lost := 0
  queues := []
  peers := []
  s2 := []
  s2tlb := []
  mailRc := .success
  mailOut := []
  doeOut := []
  inval := none
/-- No launch: a launch number not in use. -/
def Launch.initial : Launch where
  num := 0
  ctx := 0
  fn := 0
  q := 0
  template := 0
  arg := 0
  tag := 0
  compl := 0
  irq := false
  prio := 0
  level := .free
  epoch := 0
  lnch := 0
  stages := []
  queues := []
  groups := []
  arrivals := []
  ldig := 0
  deferred := 0
  csmark := false
  nodigest := false
  rerun := 0
  first := []
  turn := (0, 0, 0)
  redig := 0
  rr := 0
/-- A host queue before QENABLE (R284). -/
def HostQueue.initial : HostQueue := ⟨.disabled, 0, 0, 0, 12, 0, 0, 0, 0, 0, 0, none, none⟩
/-- A peer entry before PEER_SET (DESIGN CHOICE, log 2). -/
def Peer.initial : Peer := ⟨false, 0, 0, false, false⟩
/-- A communicator before COMM_SET (DESIGN CHOICE, log 2). -/
def Comm.initial : Comm := ⟨false, [], 0⟩
/-- An empty firmware bank. -/
def Bank.initial : Bank := ⟨false, 0, some 0, []⟩
/-- The bank the part booted from (DESIGN CHOICE, log 2). -/
def Bank.booted : Bank := ⟨true, 0, none, []⟩

/-- The machine right after a reset whose bring-up passes (21 R336) (DESIGN CHOICE, log 2). -/
def State.reset : State where
  hart := Hart.initial
  harts := []
  slots := []
  spills := []
  cores := []
  ctxs := []
  fns := []
  launches := []
  mem := []
  l2 := []
  rdc := []
  poison := []
  cycle := 0
  time := 0
  frec := []
  frecLost := 0
  corrected := []
  frozen := false
  pilot := none
  powerLimit := 2000
  fwActive := Bank.booted
  fwStaging := Bank.initial
  fwOpen := none
  fwNext := false
  fwRejected := false
  comms := []
  colls := []
  linksDown := []
  hostLanes := 16
  hostRate := 128
  ideKeys := false
  busOut := some []
  msix := []
  nextLaunch := 0
  nextEvt := 0
  nextOp := 0
  ahead := false
  mismatch := []
  beat := 0
  fair := 0
  inputs := []
  fresh := 0

end Sys2Proof.Machine
end

