-- ==== Sys2Proof/Machine/Memory.lean ====
section
/-! DEFINITION. Sparse maps in canonical form, physical memory at the homes (01 R13, R14), page-table entries and their
fields (14 R240 to R242), fault records (19 R319) and the rings of host events (16 R282, R283). -/

namespace Sys2Proof

/-- The byte `i` places above the least significant one (little-endian, 00 R5). -/
def byteOf (x i : Nat) : Byte := BitVec.ofNat 8 (x >>> (8 * i))

/-- A number read from bytes, the first at the lowest address (little-endian, 00 R5). -/
def leNat : List Byte → Nat
  | [] => 0
  | b :: t => b.toNat + 256 * leNat t

/-- The `n` low bytes of a number, the first at the lowest address. -/
def leBytes (n x : Nat) : List Byte := (List.range n).map (byteOf x)

/-- A field of `w` bits beginning at bit `lo` of a number read from memory. -/
def bitsAt (x lo w : Nat) : Nat := (x >>> lo) % 2 ^ w

end Sys2Proof

namespace Sys2Proof.Machine

/-! ## Sparse maps -/

/-- The value at a key; an unlisted key reads as `d`. -/
def mapGet {α : Type} (d : α) : SMap α → Nat → α
  | [], _ => d
  | (k', x) :: t, k => if k' = k then x else mapGet d t k

/-- Every entry but those of a key. -/
def mapErase {α : Type} (k : Nat) : SMap α → SMap α
  | [] => []
  | (k', x) :: t => if k' = k then mapErase k t else (k', x) :: mapErase k t

/-- Insertion in rising order of the keys. -/
def mapInsert {α : Type} (k : Nat) (x : α) : SMap α → SMap α
  | [] => [(k, x)]
  | (k', y) :: t => if k < k' then (k, x) :: (k', y) :: t else (k', y) :: mapInsert k x t

/-- Writing a key; the value an unlisted key reads as removes the entry. -/
def mapPut {α : Type} [DecidableEq α] (d : α) (m : SMap α) (k : Nat) (x : α) : SMap α :=
  if x = d then mapErase k m else mapInsert k x (mapErase k m)

/-- The canonical form: keys strictly rising, no entry equal to what an unlisted key reads as. -/
def mapWf {α : Type} [DecidableEq α] (d : α) : SMap α → Bool
  | [] => true
  | (k, x) :: t => decide (x ≠ d) && t.all (fun p => decide (k < p.1)) && mapWf d t

/-- What a byte of memory that nothing has written reads as (DESIGN CHOICE, log 3). -/
def unwritten : Byte := 0

/-- Memory in canonical form. -/
def Memory.wf (m : SMap Byte) : Bool := mapWf unwritten m

/-! ## The parts of State -/

namespace State

def slot (s : State) (i : Nat) : Slot := mapGet Slot.initial s.slots i
def setSlot (s : State) (i : Nat) (x : Slot) : State := { s with slots := mapPut Slot.initial s.slots i x }
def core (s : State) (c : Nat) : Core := mapGet Core.initial s.cores c
def setCore (s : State) (c : Nat) (x : Core) : State := { s with cores := mapPut Core.initial s.cores c x }
def ctx (s : State) (c : Nat) : Ctx := mapGet Ctx.initial s.ctxs c
def setCtx (s : State) (c : Nat) (x : Ctx) : State := { s with ctxs := mapPut Ctx.initial s.ctxs c x }
def fn (s : State) (f : Nat) : Fn := mapGet Fn.initial s.fns f
def setFn (s : State) (f : Nat) (x : Fn) : State := { s with fns := mapPut Fn.initial s.fns f x }
def launch (s : State) (l : Nat) : Launch := mapGet Launch.initial s.launches l
def setLaunch (s : State) (l : Nat) (x : Launch) : State :=
  { s with launches := mapPut Launch.initial s.launches l x }
def comm (s : State) (c : Nat) : Comm := mapGet Comm.initial s.comms c
def queue (s : State) (f q : Nat) : HostQueue := mapGet HostQueue.initial (s.fn f).queues q
def setQueue (s : State) (f q : Nat) (x : HostQueue) : State :=
  s.setFn f { s.fn f with queues := mapPut HostQueue.initial (s.fn f).queues q x }

/-- The hart of a number, in focus or not. -/
def hartOf (s : State) (h : Nat) : Hart := if s.hart.id = h then s.hart else mapGet Hart.initial s.harts h
/-- Replacing a hart under its own number. -/
def setHart (s : State) (x : Hart) : State :=
  if s.hart.id = x.id then { s with hart := x } else { s with harts := mapPut Hart.initial s.harts x.id x }
/-- Every live hart, the focus first. -/
def liveHarts (s : State) : List Hart :=
  (if s.hart.live then [s.hart] else []) ++ (s.harts.map (·.2)).filter (·.live)
/-- Every hart, those of spilled slots last. -/
def allHarts (s : State) : List Hart := s.liveHarts ++ s.spills.flatMap (fun p => p.2.harts)
def spill (s : State) (c core : Nat) : Spill := mapGet Spill.initial s.spills (c * 512 + core)
def setSpill (s : State) (c core : Nat) (x : Spill) : State :=
  { s with spills := mapPut Spill.initial s.spills (c * 512 + core) x }
/-- The hart of a number comes into focus. -/
def focusOn (s : State) (h : Nat) : State :=
  if s.hart.id = h then s
  else
    let x := mapGet Hart.initial s.harts h
    if x.live then
      let rest := mapPut Hart.initial s.harts h Hart.initial
      { s with hart := x, harts := if s.hart.live then mapPut Hart.initial rest s.hart.id s.hart else rest }
    else s
/-- Changing every live hart. -/
def mapHarts (s : State) (f : Hart → Hart) : State :=
  { s with hart := f s.hart, harts := s.harts.map (fun p => (p.1, f p.2)) }

end State

/-- The context of a hart: that of its launch. -/
def ctxOf (s : State) (h : Hart) : Nat := (s.launch h.launch).ctx
/-- The core a hart stands on. -/
def Hart.core (h : Hart) : Nat := h.id / 8
/-- The context slot of the part a hart stands in. -/
def Hart.slotId (h : Hart) : Nat := h.id / 4
/-- The lane groups of a set, ascending. -/
def laneList (m : BitVec 4) : List Nat := (List.range 4).filter (fun i => m.getLsbD i)
/-- Lane groups a hart owns. -/
def Hart.lanes (h : Hart) : Nat :=
  (h.lgown.extractLsb' 0 1).toNat + (h.lgown.extractLsb' 1 1).toNat + (h.lgown.extractLsb' 2 1).toNat
    + (h.lgown.extractLsb' 3 1).toNat

/-! ## Addresses (R13, R14, R250)

Every access goes to a line address: the function's number above the 52-bit address its page tables gave. For the
physical function, number 0, it is the physical address. -/

/-- A line address (R250). -/
def lineAddr (f a : Nat) : Nat := if f = 0 then a else f * 2 ^ 52 + a % 2 ^ 52
/-- The function and the 52-bit address of a line address. -/
def fnAddr (a : Nat) : Nat := a / 2 ^ 52
def lowAddr (a : Nat) : Nat := a % 2 ^ 52
/-- PA[51:50] = 00: device memory. -/
def paDevice (a : Nat) : Bool := bitsAt a 50 2 == 0
/-- PA[51:50] = 01: a peer window. -/
def paPeer (a : Nat) : Bool := bitsAt a 50 2 == 1
/-- Device memory that stands behind a physical address (R13). -/
def devBacked (pa : Nat) : Bool := pa < 2 ^ 41 && pa % 2 ^ 39 < Config.backed
/-- The compute die that is home to a line of device memory (R13, R250). -/
def homeDie (a : Nat) : Nat := bitsAt a 39 2
/-- A peer window that can be reached (R331): entry valid, PA[43:41] zero, some link of it up. -/
def peerUp (s : State) (f a : Nat) : Bool :=
  let p := mapGet Peer.initial (s.fn f).peers (bitsAt a 44 6)
  p.v && bitsAt a 41 3 == 0 &&
    (List.range 18).any (fun l => bitsAt p.links l 1 == 1 && !(s.linksDown.any (fun d => d.1 == l)))
/-- The lowest link of an entry's mask. -/
def peerLink (links : Nat) : Nat := ((List.range 18).find? (fun l => bitsAt links l 1 == 1)).getD 0
/-- Where memory stands for a peer address: the part behind the entry's links, whichever of them carry its traffic, and the
peer's function (R330) (DESIGN CHOICE, log 88). -/
def peerCell (s : State) (a : Nat) : Nat :=
  let p := mapGet Peer.initial (s.fn (fnAddr a)).peers (bitsAt a 44 6)
  2 ^ 60 + (Config.peerPart (peerLink p.links) * 256 + p.fn % 256) * 2 ^ 41 + bitsAt a 0 41

/-! ## Page-table entries (R240 to R242) -/

def vaIndex (va lvl : Nat) : Nat := if lvl = 0 then bitsAt va 42 15 else if lvl = 1 then bitsAt va 29 13 else bitsAt va 16 13
/-- Bits below the page size of a leaf of a level. -/
def pageBits (lvl : Nat) : Nat := if lvl = 0 then 42 else if lvl = 1 then 29 else 16
def pteV (e : Nat) : Bool := bitsAt e 0 1 == 1
def pteR (e : Nat) : Bool := bitsAt e 1 1 == 1
def pteW (e : Nat) : Bool := bitsAt e 2 1 == 1
def pteX (e : Nat) : Bool := bitsAt e 3 1 == 1
def pteA (e : Nat) : Bool := bitsAt e 4 1 == 1
def pteD (e : Nat) : Bool := bitsAt e 5 1 == 1
def pteMig (e : Nat) : Bool := bitsAt e 6 1 == 1
def ptePfmt (e : Nat) : Nat := bitsAt e 8 6
def pteGs (e : Nat) : Nat := bitsAt e 14 2
def ptePa (e : Nat) : Nat := bitsAt e 16 36 * 65536
def pteTable (e : Nat) : Bool := !(pteR e) && !(pteW e) && !(pteX e)

/-- A reserved combination of PFMT and GS (06 R150). -/
def pfmtReserved (p g : Nat) : Bool :=
  if p ≤ 5 || (16 ≤ p && p ≤ 19) then g != 0
  else if p = 8 || p = 9 then g == 0
  else true

/-- A valid entry that is malformed (R242). -/
def pteMalformed (e lvl : Nat) : Bool :=
  bitsAt e 52 12 != 0 || bitsAt e 7 1 != 0 ||
  (if pteTable e then lvl == 2 || pteA e || pteD e || pteMig e || ptePfmt e != 0 || pteGs e != 0
   else (pteW e && !(pteR e)) || (pteX e && ptePfmt e != 0) || ptePa e % 2 ^ pageBits lvl != 0 ||
    pfmtReserved (ptePfmt e) (pteGs e))

/-- The address a leaf gives (R240). -/
def leafPa (e lvl va : Nat) : Nat := ptePa e - ptePa e % 2 ^ pageBits lvl + va % 2 ^ pageBits lvl

/-- The address bits an entry of a level serves. -/
def vaTag (lvl va : Nat) : Nat := va % 2 ^ 57 / 2 ^ pageBits lvl
/-- The cached entry of a level for an address (R249). -/
def tlbFind (l : List TlbEntry) (lvl va : Nat) : Option TlbEntry := l.find? (fun e => e.lvl == lvl && e.vpn == vaTag lvl va)
/-- Dropping what is cached of an address, at every level (R243). -/
def tlbDrop (l : List TlbEntry) (va : Nat) : List TlbEntry := l.filter (fun e => e.vpn != vaTag e.lvl va)

/-! ## The second stage (R251) -/

/-- A byte of the physical function's memory at home, its page tables among it. -/
def State.peek0 (s : State) (a : Nat) : Byte :=
  match mapGet none s.l2 a with
  | some b => b
  | none => mapGet unwritten s.mem a
/-- `n` bytes of it, as a number. -/
def State.peek0N (s : State) (a n : Nat) : Nat := leNat ((List.range n).map (fun i => s.peek0 (a + i)))

/-- What a stage-2 walk finds (R251, R253). -/
inductive Stage2 where
  | ok (pa : Nat) | fault (malformed : Bool)
  deriving DecidableEq, Repr

/-- An entry of a second-stage table points on: X is ignored (R251). -/
def pte2Table (e : Nat) : Bool := !(pteR e) && !(pteW e)
/-- A second-stage entry that is malformed (R251). -/
def pte2Malformed (e lvl : Nat) : Bool := pteMalformed (e - e % 16 + e % 8) lvl || ptePfmt e != 0 || pteGs e != 0

/-- The second-stage walk of a device-memory address at the base die of its home (R251), from a table, with what is
cached, and the entries it reads beside. An entry that is unbacked or poisoned is a fault, not a malformed one (DESIGN
CHOICE, log 89). -/
def stage2Walk (s : State) (tlb : List TlbEntry) (gpa : Nat) (k : Kind) : List Nat → Nat → Stage2 × List TlbEntry
  | [], _ => (.fault false, [])
  | lvl :: ls, t =>
    let a := t + 8 * vaIndex gpa lvl
    let c := tlbFind tlb lvl gpa
    let e := match c with | some x => x.pte | none => s.peek0N a 8
    let new : List TlbEntry := match c with | some _ => [] | none => [⟨vaTag lvl gpa, a, e, lvl⟩]
    if c.isNone && (!(paDevice a) || !(devBacked a) || s.poison.contains (a / 64) || !(pteV e)) then (.fault false, [])
    else if pte2Malformed e lvl then (.fault true, [])
    else if pte2Table e then
      let r := stage2Walk s tlb gpa k ls (ptePa e)
      (r.1, new ++ r.2)
    else
      let pa := leafPa e lvl gpa
      if !(paDevice pa) || pa / 2 ^ 39 != gpa / 2 ^ 39 then (.fault true, [])
      else if (k = .read && !(pteR e)) || (k = .write && !(pteW e)) then (.fault false, new)
      else (.ok pa, new)

/-- Where function `f`'s 52-bit address goes: through stage 2 for a virtual function's device memory (R250, R251). -/
def stage2Of (s : State) (f gpa : Nat) (k : Kind) : Stage2 × List TlbEntry :=
  if f = 0 || !(paDevice gpa) then (.ok gpa, []) else stage2Walk s (s.fn f).s2tlb gpa k [0, 1, 2] (s.fn f).s2root
/-- Entries a walk has read are cached (R249). -/
def stage2Cache (s : State) (f : Nat) (es : List TlbEntry) : State :=
  if es = [] then s else s.setFn f { s.fn f with s2tlb := es ++ (s.fn f).s2tlb }

/-- The key in `mem` behind a line address: the physical address of device memory, the address of host memory, which the
host translates itself (R251), or the peer's memory (R330). An address no entry maps any more stands for no memory. -/
def homeOf (s : State) (a : Nat) : Nat :=
  if paPeer a then peerCell s a
  else if fnAddr a = 0 then a
  else if !(paDevice a) then lowAddr a
  else
    match (stage2Of s (fnAddr a) (lowAddr a) .exec).1 with
    | .ok pa => pa
    | .fault _ => 2 ^ 49
/-- The name of a byte in the history of a snapshot-strict context (R222): two names of one byte of host or peer memory
are one. -/
def histAddr (s : State) (a : Nat) : Nat := if paDevice a then a else homeOf s a

/-- The function's access at a line address meets an uncorrectable location (R14, R319, R331). -/
def paBad (s : State) (a : Nat) : Bool :=
  if paPeer a then !(peerUp s (fnAddr a) a) || s.poison.contains (homeOf s a / 64)
  else (paDevice a && !(devBacked (homeOf s a))) || s.poison.contains (a / 64) || s.poison.contains (homeOf s a / 64)

/-- The byte at home: what its L2 holds dirty, else the memory behind (R198, R215). -/
def State.peek (s : State) (a : Nat) : Byte :=
  match mapGet none s.l2 a with
  | some b => b
  | none => mapGet unwritten s.mem (homeOf s a)
/-- A byte stored at home: device memory's L2, host memory or the peer takes it. -/
def State.poke (s : State) (a : Nat) (b : Byte) : State :=
  if paDevice a then { s with l2 := mapPut none s.l2 a (some b) }
  else { s with mem := mapPut unwritten s.mem (homeOf s a) b }
/-- `n` bytes at home, as a number. -/
def State.peekN (s : State) (a n : Nat) : Nat := leNat ((List.range n).map (fun i => s.peek (a + i)))
/-- `n` bytes at home. -/
def State.peekBytes (s : State) (a n : Nat) : List Byte := (List.range n).map (fun i => s.peek (a + i))
/-- Bytes with their addresses. -/
def withAddr (a : Nat) (bs : List Byte) : List (Nat × Byte) := bs.mapIdx (fun i b => (a + i, b))

/-! ## Fault records of the management controller (R319) -/

/-- Appending a fault record; the ring keeps 256. -/
def frecAdd (s : State) (ty addr core lg unit ctx fn count : Nat) : State :=
  let full := decide (Config.faultRing ≤ s.frec.length)
  let lost := if full then s.frecLost + 1 else s.frecLost
  let r : Nat := addr <<< 192 ||| (s.time % 2 ^ 64) <<< 128 ||| (count % 2 ^ 32) <<< 96 ||| (min lost 65535) <<< 80
    ||| core <<< 55 ||| lg <<< 53 ||| unit <<< 46 ||| ctx <<< 40 ||| fn <<< 32 ||| ty
  { s with frec := (if full then s.frec.tail else s.frec) ++ [BitVec.ofNat 256 r], frecLost := lost }

/-- The physical address of a location, for a fault record (R319); a guest's address that stage 2 maps nowhere names itself
(DESIGN CHOICE, log 90). -/
def recordPa (s : State) (a : Nat) : Nat :=
  if fnAddr a = 0 || !(paDevice a) then lowAddr a
  else
    match (stage2Of s (fnAddr a) (lowAddr a) .exec).1 with
    | .ok pa => pa
    | .fault _ => lowAddr a
/-- The record of an access to device memory that does not stand (R14, R319): of a hart and its context, or of none. -/
def dropRecord (s : State) (author : Option Nat) (ctx a : Nat) : State :=
  match author with
  | some h => frecAdd s 7 (recordPa s a) (h / 8 % 512) 0 0 (ctx % 64) (ctx / 64) 0
  | none => frecAdd s 7 (recordPa s a) 0 0 0 63 255 0

/-! ## Caches (R198, R221, R290) -/

/-- Bytes of some lines leave the caches that core `core` and its die keep: the hart's own store has reached home past
them (R219). -/
def dropLines (s : State) (core : Nat) (as : List Nat) : State :=
  let keep (n : Nat) (l : CLine) : Bool := !(as.any (fun a => a / n == l.a / n))
  let x := s.core core
  let r := mapGet [] s.rdc (core / 128)
  let s1 := if x.l1 = [] then s else s.setCore core { x with l1 := x.l1.filter (keep 64) }
  if r = [] then s1 else { s1 with rdc := mapPut [] s1.rdc (core / 128) (r.filter (keep 256)) }

/-! ## Stores at home -/

/-- Contexts whose reads are snapshot-strict (R222). -/
def Ctx.strict (c : Ctx) : Bool := c.level = .record || c.level = .replay

/-- What is known of a home store: the hart that made it and the store's number, when its two sides see it, and the
engine operation whose write it is. -/
structure Author where
  hart : Nat
  seq : Nat
  sAt : Option Nat
  vAt : Option Nat
  op : Option (Nat × Nat)
  deriving DecidableEq, Repr

/-- The former value of a byte, kept by every snapshot-strict context (R222): a store of the context's own hart counts
from the stamp it is given, one from outside the context from the next acquire. -/
def keepUndo (s : State) (author : Option Author) (ctx : Nat) (stamp : Option Nat) (a : Nat) :
    SMap Ctx → SMap Ctx
  | [] => []
  | (k, c) :: t =>
    (k, if c.strict then
        { c with hist :=
          (match author with
           | some x => if k = ctx then ⟨histAddr s a, s.peek a, some x.hart, x.seq, stamp, x.sAt, x.vAt, x.op⟩
              else ⟨histAddr s a, s.peek a, none, 0, some c.cut, none, none, none⟩
           | none => ⟨histAddr s a, s.peek a, none, 0, some c.cut, none, none, none⟩) :: c.hist }
      else c) :: keepUndo s author ctx stamp a t

/-- One byte stored at home: dropped and recorded where no memory stands (R14) or a peer cannot be reached, which the
host is then told of (R331). -/
def homeStore1 (author : Option Author) (ctx : Nat) (stamp : Option Nat) (s : State) (p : Nat × Byte) : State :=
  if paDevice p.1 && !(devBacked (homeOf s p.1)) then dropRecord s (author.map (·.hart)) ctx p.1
  else if paPeer p.1 && !(peerUp s (fnAddr p.1) p.1) then
    let i := bitsAt p.1 44 6
    let x := s.fn (fnAddr p.1)
    let q := mapGet Peer.initial x.peers i
    dropRecord (s.setFn (fnAddr p.1) { x with peers := mapPut Peer.initial x.peers i { q with due := !q.reported } })
      (author.map (·.hart)) ctx p.1
  else { s.poke p.1 p.2 with ctxs := keepUndo s author ctx stamp p.1 s.ctxs }

/-- A store to an address is dropped. -/
def drops (s : State) (a : Nat) : Bool :=
  (paDevice a && !(devBacked (homeOf s a))) || (paPeer a && !(peerUp s (fnAddr a) a))
/-- The byte at an address continues a dropped access that an earlier byte began: one fault record stands for the access
(R14) (DEDUCED, log 67). -/
def sameDrop (s : State) (before : Option Nat) (a : Nat) : Bool := drops s a && before == some (a - 1)

/-- A store reaching home. -/
structure HStore where
  author : Option Author
  a : Nat
  b : Byte
  deriving DecidableEq, Repr

/-- Stores reaching home one after another; `before` is the address of the byte stored last. -/
def homeStoreAll (ctx : Nat) (stamp : Option Nat) (before : Option Nat) : State → List HStore → State
  | s, [] => s
  | s, p :: t =>
    let s1 := if sameDrop s before p.a then s else homeStore1 p.author ctx stamp s (p.a, p.b)
    homeStoreAll ctx stamp (some p.a) s1 t

/-- Granules that a batch of stores covers whole (R319). -/
def coveredGranules (ps : List (Nat × Byte)) : List Nat :=
  ((ps.map (fun p => p.1 / 64)).eraseDups).filter
    (fun g => (List.range 64).all (fun i => ps.any (fun p => p.1 == g * 64 + i)))

/-- The sectors of 64 bytes that an idle host queue of function `f` holds under coherence, as it saw them last: its tail's,
and those of an incomplete packet (R277). -/
def heldSectors (s : State) (f : Nat) (x : HostQueue) (seen : List Byte) : List Nat :=
  (x.tailA :: (List.range (seen.length / 64 - 1)).map (fun i => x.base + (x.head + 64 * i) % 2 ^ x.logsz)).map
    (fun a => homeOf s (lineAddr f (a % 2 ^ 52)) / 64)
/-- The queue after stores to some sectors: a snoop of one it holds wakes it, whatever the store has written (R274, R277). -/
def HostQueue.snooped (s : State) (f : Nat) (gs : List Nat) (x : HostQueue) : HostQueue :=
  match x.seen with
  | some b => if x.st = .idle && (heldSectors s f x b).any gs.contains then { x with seen := none } else x
  | none => x
/-- Every host queue after stores to some line addresses. -/
def snoopQueues (s : State) (as : List Nat) : State :=
  if s.fns.any (fun f => f.2.queues.any (fun q => q.2.st = .idle && q.2.seen.isSome)) then
    let gs := (as.map (fun a => homeOf s a / 64)).eraseDups
    { s with fns := s.fns.map (fun f => (f.1, { f.2 with queues := f.2.queues.map (fun q => (q.1, q.2.snooped s f.1 gs)) })) }
  else s

/-- A batch of stores at home, in order; a write that covers a whole granule cleans it (R319), host queues that hold the
sectors wake (R277), and the caches of a hart's own core and die keep nothing older than its stores (R219). -/
def homeStore (ctx : Nat) (stamp : Option Nat) (s : State) (ps : List HStore) : State :=
  let s1 := homeStoreAll ctx stamp none s ps
  let s2 :=
    if s1.poison = [] then s1
    else
      let gs := coveredGranules (ps.map (fun p => (p.a, p.b)))
      { s1 with poison := s1.poison.filter (fun g => !(gs.contains g) && !(gs.any (fun x => homeOf s1 (x * 64) / 64 == g))) }
  let s3 := snoopQueues s2 (ps.map (·.a))
  match (ps.filterMap (·.author)).head? with
  | some x => dropLines s3 (x.hart / 8) (ps.map (·.a))
  | none => s3

/-- Stores of no hart. -/
def plain (ps : List (Nat × Byte)) : List HStore := ps.map (fun p => ⟨none, p.1, p.2⟩)

/-- A store by an agent outside every context: the host, a peer, the queue processor's own words. -/
def outsideStore (s : State) (a : Nat) (bs : List Byte) : State := homeStore 0 none s (plain (withAddr a bs))

/-- Granules becoming poisoned, in rising order without repeats (R319). -/
def poisonAdd (l : List Nat) (g : Nat) : List Nat :=
  if l.contains g then l else l.filter (· < g) ++ g :: l.filter (g < ·)

/-! ## The device's own agents (16 R273, R282) -/

/-- A function's address for the device's own agents, which no hart waits on: bits above PA[51] of the 64-bit field that
gives it are no part of it (DESIGN CHOICE, log 73). -/
def agentPa (s : State) (f a : Nat) (k : Kind) : Option Nat :=
  match (stage2Of s f (a % 2 ^ 52) k).1 with
  | .ok _ => some (lineAddr f (a % 2 ^ 52))
  | .fault _ => none

/-- Bytes read by an agent at a function's address; none on a fault or poison. -/
def agentRead (s : State) (f a n : Nat) : Option (List Byte) :=
  (List.range n).mapM (fun i =>
    match agentPa s f (a + i) .read with
    | some x => if paBad s x then none else some (s.peek x)
    | none => none)

/-- The entries a write to some addresses reads are cached, so that the lines it leaves dirty keep their memory (R249). -/
def agentCache (s : State) (f : Nat) (as : List Nat) : State :=
  (as.map (fun a => a / 65536)).eraseDups.foldl (fun s p => stage2Cache s f (stage2Of s f (p * 65536 % 2 ^ 52) .write).2) s
/-- Bytes written by an agent at a function's address; none on a fault, and nothing is written then. -/
def agentWrite (s : State) (f a : Nat) (bs : List Byte) : Option State :=
  match (withAddr a bs).mapM (fun p => (agentPa s f p.1 .write).map (fun x => (x, p.2))) with
  | some ps => some (homeStore 0 none (if f = 0 then s else agentCache s f ((withAddr a bs).map (·.1))) (plain ps))
  | none => none

/-- A number read by an agent. -/
def agentNum (s : State) (f a n : Nat) : Option Nat := (agentRead s f a n).map leNat

/-! ## The host event ring (R282, R283) and the hypervisor ring (R252, R254) -/

/-- An event dropped, counted in LOST of the next record (R282). -/
def eventLost (s : State) (f : Nat) : State := s.setFn f { s.fn f with lost := (s.fn f).lost + 1 }

/-- An event record to a function's ring: type, context number (0xFF for none), details from byte 16. Where the head word is
unbacked or poisoned, or the second stage maps a place of the ring nowhere, the event is lost (DESIGN CHOICE, log 89). -/
def eventSend (s : State) (f ty ctx : Nat) (details : List Byte) : State :=
  let x := s.fn f
  if !x.evSet then eventLost s f
  else
    match agentNum s f x.evHead 8 with
    | none => eventLost s f
    | some head =>
      if 2 ^ x.evLogsz - 64 ≤ (x.evCount + 2 ^ 64 - head) % 2 ^ 64 then eventLost s f
      else
        let lo : Nat := ty ||| (min x.lost 65535) <<< 16 ||| ctx <<< 40
        let bytes := leBytes 8 lo ++ leBytes 8 (s.time % 2 ^ 64) ++ (details ++ List.replicate 48 0).take 48
        match agentWrite s f (x.evBase + x.evCount % 2 ^ x.evLogsz) bytes with
        | none => eventLost s f
        | some s1 =>
          let n := (x.evCount + 64) % 2 ^ 64
          match agentWrite s1 f x.evTail (leBytes 8 n) with
          | none => eventLost s f
          | some s2 =>
            let s3 := s2.setFn f { s2.fn f with evCount := n, lost := 0 }
            { s3 with msix := (f, x.evVec) :: s3.msix }

/-- The tail of a function's hypervisor ring, where a record has room (R252); none too where its head or tail word is
unbacked or poisoned (DESIGN CHOICE, log 89). -/
def hvTail (s : State) (f : Nat) : Option Nat :=
  let x := s.fn f
  match agentNum s 0 x.hvhead 8, agentNum s 0 x.hvtail 8 with
  | some head, some tail => if 2 ^ x.hvlogsz < (tail + 2 ^ 64 - head) % 2 ^ 64 + 32 then none else some tail
  | _, _ => none
/-- A record of the hypervisor ring (R252, R254); none when the ring is full. -/
def hvSend (s : State) (f : Nat) (r : Nat) : Option State :=
  let x := s.fn f
  (hvTail s f).map (fun tail =>
    let s1 := outsideStore s (x.hvbase + tail % 2 ^ x.hvlogsz) (leBytes 32 r)
    outsideStore s1 x.hvtail (leBytes 8 ((tail + 32) % 2 ^ 64)))

end Sys2Proof.Machine
end

