-- ==== Sys2Proof/Machine/Ops.lean ====
section
/-! DEFINITION. The named operations over registers and memory: register accessors, translation (14), ordinary loads
and stores (11), releases, acquires and cuts (11 R216, R217), store digests (17 R296), the order log (17 R302 to R307),
and taking an exception and returning from one (15 R260, R262, R264). -/

namespace Sys2Proof.Machine

/-! ## Registers -/

/-- A scalar register; s0 reads as zero (R50). -/
def Hart.rs (h : Hart) (r : BitVec 6) : Word := if r = 0 then 0 else h.s[r.toNat]'r.isLt
/-- Writing a scalar register, which is clean from then on; a write to s0 is discarded (R50). -/
def Hart.setS (h : Hart) (r : BitVec 6) (x : Word) : Hart :=
  if r = 0 then h else { h with s := h.s.set r.toNat x r.isLt, sp := h.sp &&& ~~~(1#64 <<< r.toNat) }
/-- A scalar register of the focus hart. -/
def State.rs (s : State) (r : BitVec 6) : Word := s.hart.rs r
/-- Changing the focus hart. -/
def State.withHart (s : State) (h : Hart) : State := { s with hart := h }
/-- Writing a scalar register of the focus hart. -/
def State.setS (s : State) (r : BitVec 6) (x : Word) : State := s.withHart (s.hart.setS r x)
/-- The focus hart goes to an address. -/
def State.goto (s : State) (a : Word) : State := s.withHart { s.hart with pc := a }
/-- The focus hart goes to the next instruction. -/
def State.advance (s : State) : State := s.goto (s.hart.pc + 4)

/-- A vector register by number; a number of 48 or more is refused before it is read. -/
def Hart.vr (h : Hart) (n : Nat) : BitVec 8192 := h.v.toList.getD n 0
def Hart.setV (h : Hart) (n : Nat) (x : BitVec 8192) : Hart := { h with v := h.v.setIfInBounds n x }
/-- Poisoned bytes of a vector register. -/
def Hart.vpr (h : Hart) (n : Nat) : BitVec 1024 := h.vp.toList.getD n 0
def Hart.setVp (h : Hart) (n : Nat) (x : BitVec 1024) : Hart := { h with vp := h.vp.setIfInBounds n x }
/-- A mask register by number. -/
def Hart.kr (h : Hart) (n : Nat) : BitVec 1024 := h.k.toList.getD n 0
def Hart.setK (h : Hart) (n : Nat) (x : BitVec 1024) : Hart := { h with k := h.k.setIfInBounds n x }
/-- A completion counter. -/
def Hart.counter (h : Hart) (n : Nat) : Nat := h.cnt.toList.getD n 0
def Hart.setCounter (h : Hart) (n : Nat) (x : Nat) : Hart := { h with cnt := h.cnt.setIfInBounds n x }
/-- A scalar register is poisoned (R257, R319); s0 is no storage. -/
def Hart.spBad (h : Hart) (r : BitVec 6) : Bool := r != 0 && h.sp.getLsbD r.toNat

/-! ## Element types and lengths (R51, R52, R54) -/

def ET.code : ET → Nat
  | .i8 => 0 | .i16 => 1 | .i32 => 2 | .i64 => 3 | .f16 => 4 | .bf16 => 5 | .f32 => 6 | .f64 => 7
def ET.ofCode : Nat → ET
  | 0 => .i8 | 1 => .i16 | 2 => .i32 | 3 => .i64 | 4 => .f16 | 5 => .bf16 | 6 => .f32 | _ => .f64
/-- Element width in bytes. -/
def ET.bytes : ET → Nat
  | .i8 => 1 | .i16 => 2 | .i32 => 4 | .i64 => 8 | .f16 => 2 | .bf16 => 2 | .f32 => 4 | .f64 => 8
def ET.isFloat : ET → Bool
  | .f16 => true | .bf16 => true | .f32 => true | .f64 => true | _ => false
def Frm.code : Frm → Nat
  | .rne => 0 | .rtz => 1 | .rdn => 2 | .rup => 3
def Frm.ofCode : Nat → Frm
  | 0 => .rne | 1 => .rtz | 2 => .rdn | _ => .rup
def Level.code : Level → Nat
  | .free => 0 | .digest => 1 | .record => 2 | .replay => 3
def Level.ofCode : Nat → Level
  | 0 => .free | 1 => .digest | 2 => .record | _ => .replay
/-- VLMAX(et, n) (R52). -/
def vlmax (et : ET) (n : Nat) : Nat := n * 256 / et.bytes
/-! ## VL and VTYPE in queue order (R52, R405)

The hart's VL and VTYPE are those its oldest queued instruction, or with an empty queue its next, dispatches under. -/

/-- A new VL, or a new type, which clamps VL (R54). -/
def VSet.apply (h : Hart) : VSet → Hart
  | .vl n => { h with vl := n }
  | .et e => { h with et := e, vl := min h.vl (vlmax e h.lanes) }
  | .frm f => { h with frm := f }
/-- VL and VTYPE at the scalar unit's place in program order: behind everything queued. -/
def Hart.prog (h : Hart) : Hart := (h.queue.flatMap (·.sets) ++ h.sets).foldl VSet.apply h
/-- A scalar instruction changes VL or VTYPE: at once with an empty queue, else for what is queued from now on. -/
def Hart.setVec (h : Hart) (x : VSet) : Hart := if h.queue.isEmpty then x.apply h else { h with sets := h.sets ++ [x] }
/-- What stands before the oldest entry, or with an empty queue everything, takes effect. -/
def Hart.settle (h : Hart) : Hart :=
  match h.queue with
  | [] => if h.sets = [] then h else { h.sets.foldl VSet.apply h with sets := [] }
  | e :: t => if e.sets = [] then h else { e.sets.foldl VSet.apply h with queue := { e with sets := [] } :: t }
/-- Where an entry that is queued now stands in the hart's order. -/
def Hart.note (h : Hart) : QNote := ⟨h.stores, h.lastAcq, h.views, none⟩
/-- A new youngest entry. -/
def Hart.enqueue (h : Hart) (pc : Word) (w : BitVec 32) (op1 op2 : Word) (frame : List (BitVec 32)) : Hart :=
  Hart.settle { h with queue := h.queue ++ [⟨pc, w, op1, op2, h.sets, frame, h.note⟩], sets := [] }
/-- The oldest entry is done. -/
def Hart.popHead (h : Hart) : Hart := Hart.settle { h with queue := h.queue.tail, vstart := 0, rpos := 0 }
/-- A stop inside a repeat frame: its words are fetched again (R67). -/
def Hart.refetch (h : Hart) : Hart :=
  match h.queue with
  | [] => h
  | e :: t => if h.rpos.getLsbD 10 then { h with queue := { e with frame := [] } :: t } else h

/-- VLCAP (R55, R292): n but at FREE, where the core's lane cap narrows it. -/
def vlcap (s : State) (h : Hart) : Nat :=
  let n := h.lanes
  if (s.ctx (ctxOf s h)).level = .free then max 1 ((n * (s.core h.core).cap + 3) / 4) else n
/-- cap_len of R55. -/
def capLen (s : State) (h : Hart) (et : ET) : Nat :=
  if (s.ctx (ctxOf s h)).level = .free then vlcap s h * 256 / et.bytes else vlmax et h.lanes

/-! ## Effects that may stop short -/

/-- An instruction's effect on the state; a stop keeps what has completed before it. -/
abbrev M := EStateM Stop State

def trap {α : Type} (c : Cause) (k : Kind) (v : Word) : M α := throw (.trap c k v)
/-- The instruction waits for a resource of the device. -/
def hold {α : Type} : M α := throw .wait
/-- The hart parks on the order log: a full ring (0, at a LOGMARK 3), a record not yet written (1), a version counter or cut
(2). -/
def stall {α : Type} (kind : Nat) : M α := do throw (.park (.log kind (← get).cycle))
/-- The focus hart. -/
def hart : M Hart := do return (← get).hart
def setHartM (h : Hart) : M Unit := modify (fun s => s.withHart h)
def modHart (f : Hart → Hart) : M Unit := modify (fun s => s.withHart (f s.hart))
/-- Any hart. -/
def hartNo (h : Nat) : M Hart := do return (← get).hartOf h
def modHartNo (h : Nat) (f : Hart → Hart) : M Unit :=
  modify (fun s => if s.hart.id = h || (s.hartOf h).live then s.setHart (f (s.hartOf h)) else s)
/-- The context of a hart, and its number. -/
def ctxM (h : Nat) : M (Nat × Ctx) := do
  let s ← get
  let c := ctxOf s (s.hartOf h)
  return (c, s.ctx c)
def modCtx (c : Nat) (f : Ctx → Ctx) : M Unit := modify (fun s => s.setCtx c (f (s.ctx c)))
def nextInstr : M Unit := modify State.advance
/-- ILLEGAL_OP of the word of an instruction (R105). -/
def illegal {α : Type} (i : Instr) : M α := trap .illegalOp .read ((encode i).zeroExtend 64)

/-- The outcome of an action that may stop, its effects kept. -/
def attempt {α : Type} (m : M α) : M (Except Stop α) := do
  try return .ok (← m)
  catch e => return .error e

/-- An action for each number of a list, in order. -/
def eachOf {α : Type} (f : α → M Unit) : List α → M Unit
  | [] => pure ()
  | x :: t => do f x; eachOf f t

/-! ## Translation (R240 to R255) -/

/-- A stage-2 event's record in the hypervisor ring (R254). -/
def s2Record (f who gpa evt gva : Nat) (walk mal : Bool) (k : Kind) : Nat :=
  (if walk then gva else 0) <<< 192 ||| gpa <<< 128 ||| (evt % 2 ^ 32) <<< 64 ||| f <<< 24
    ||| (who / 8) <<< 15 ||| (who / 4 % 2) <<< 14 ||| (who % 4) <<< 12 ||| (if walk then 8 else 0)
    ||| (if mal then 4 else 0) ||| (match k with | .read => 0 | .write => 1 | .exec => 2)

/-- Where an access of a hart goes through stage 2: its line address. A fault parks the access and tells the hypervisor
(R253, R254), or waits for space in its ring (R252). An access that was declined completes as one to an uncorrectable
location, however its page stands by then, and a walk read aborts, with the kind `ka` of the access it was made for. -/
def stage2M (h c gpa : Nat) (k : Kind) (walk : Bool) (gva : Nat) (ka : Kind) : M (Option Nat) := do
  let s ← get
  let f := c / 64
  let asked := if f = 0 then none
    else (s.fn f).s2.find? (fun e => e.op == none && e.hart == h && e.declined && e.gpa == gpa && e.kind == k && e.walk == walk)
  match asked with
  | some e =>
    set (s.setFn f { s.fn f with s2 := (s.fn f).s2.filter (fun x => x.evt != e.evt) })
    if walk then trap .walkAbort ka (BitVec.ofNat 64 gva) else return none
  | none =>
    match stage2Of s f gpa k with
    | (.ok _, es) =>
      if es ≠ [] then set (stage2Cache s f es)
      return some (lineAddr f gpa)
    | (.fault mal, es) =>
      match hvSend (stage2Cache s f es) f (s2Record f h gpa s.nextEvt gva walk mal k) with
      | none => throw (.park (.ring f))
      | some s1 =>
        let e : S2Event := ⟨s.nextEvt, h, none, walk, gva, gpa, k, false⟩
        set { s1.setFn f { s1.fn f with s2 := (s1.fn f).s2 ++ [e] } with nextEvt := s.nextEvt + 1 }
        throw (.park (.stage2 s.nextEvt))

/-- The declined events that an attempt of hart `h` in context `c` has used, from `s` to `t`, stand again: the attempt has not
come to its end, and its next run must find them (R253). -/
def keepDeclined (h c : Nat) (s t : State) : State :=
  let f := c / 64
  let mine (e : S2Event) : Bool := e.op == none && e.hart == h && e.declined && !((t.fn f).s2.any (fun x => x.evt == e.evt))
  if f = 0 then t
  else
    match (s.fn f).s2.filter mine with
    | [] => t
    | es => t.setFn f { t.fn f with s2 := es ++ (t.fn f).s2 }
/-- What a parked hart's declined accesses at some addresses have left is dropped, once the instruction is done. -/
def forgetDeclined (h c : Nat) (vas : List Nat) (s : State) : State :=
  let f := c / 64
  let mine (e : S2Event) : Bool := e.op == none && e.hart == h && e.declined && vas.contains e.gva
  if f = 0 || !((s.fn f).s2.any mine) then s
  else s.setFn f { s.fn f with s2 := (s.fn f).s2.filter (fun e => !(mine e)) }

/-- The stage-1 walk from a table (R240, R243) (DEDUCED, log 18); what it reads is cached, so that a changed entry takes
effect only after an invalidation (R249) (DEDUCED, log 22). -/
def walkM (h c va rep : Nat) (k : Kind) : List Nat → Nat → M TlbEntry
  | [], _ => trap .page k (BitVec.ofNat 64 rep)
  | lvl :: ls, t => do
    match tlbFind ((← get).ctx c).tlb lvl va with
    | some e => if pteTable e.pte then walkM h c va rep k ls (ptePa e.pte) else return e
    | none =>
      match ← stage2M h c (t + 8 * vaIndex va lvl) .read true va k with
      | none => trap .walkAbort k (BitVec.ofNat 64 va)
      | some a =>
        let s ← get
        if paBad s a then trap .poison .read (BitVec.ofNat 64 (va % 2 ^ 57 / 64 * 64))
        let e := s.peekN a 8
        if !(pteV e) then trap .page k (BitVec.ofNat 64 rep)
        if pteMalformed e lvl then
          set (frecAdd s 8 (lowAddr (homeOf s a)) (h / 8) 0 lvl (c % 64) (c / 64) 0)
          trap .page k (BitVec.ofNat 64 rep)
        let x : TlbEntry := ⟨vaTag lvl va, a, e, lvl⟩
        modCtx c (fun y => { y with tlb := x :: y.tlb })
        if pteTable e then walkM h c va rep k ls (ptePa e) else return x

/-- The leaf that serves an address. -/
def lookupM (h c va rep : Nat) (k : Kind) : M TlbEntry := do
  walkM h c va rep k [0, 1, 2] ((← get).ctx c).root

/-- Dropping what is cached of an address (R243). -/
def dropM (c va : Nat) : M Unit := modCtx c (fun x => { x with tlb := tlbDrop x.tlb va })

/-- Whether a VA is canonical (R240). -/
def canonical (va : Nat) : Bool := bitsAt va 57 7 == (if bitsAt va 56 1 = 1 then 127 else 0)

/-- The helper `translate` of R243, restarting after a changed word at most `fuel` times (a fresh walk's word is
unchanged, so twice suffices); a trap names the address `rep`. The update of a guest's entry needs no permission of stage 2
but the walk's read of it (DESIGN CHOICE, log 74). -/
def translateM (h c va rep : Nat) (k : Kind) : Nat → M TlbEntry
  | 0 => trap .page k (BitVec.ofNat 64 rep)
  | fuel + 1 => do
    if !(canonical va) then trap .page k (BitVec.ofNat 64 rep)
    let e ← lookupM h c va rep k
    if pteMig e.pte then throw (.park (.mig va))
    if (k = .read && !(pteR e.pte)) || (k = .write && !(pteW e.pte)) || (k = .exec && !(pteX e.pte)) then
      trap .perm k (BitVec.ofNat 64 rep)
    let want := e.pte ||| 16 ||| (if k = .write then 32 else 0)
    if want = e.pte then return e
    else
      let s ← get
      if s.peekN e.pteA 8 = e.pte then
        let e' := { e with pte := want }
        set (outsideStore s e.pteA (leBytes 8 want))
        modCtx c (fun x => { x with tlb := e' :: x.tlb.filter (fun y => y != e) })
        return e'
      else
        dropM c va
        translateM h c va rep k fuel

/-- Where an access goes, with the page's format and group-size code. -/
structure Xlat where
  loc : Loc
  pfmt : Nat
  gs : Nat
  deriving DecidableEq, Repr

/-- The offset of a VA in the context's scratch (R199). -/
def scratchOff (c : Ctx) (va : Nat) : Option Nat :=
  if c.scrbase.toNat ≤ va && va < c.scrbase.toNat + Config.scratchSize then some (va - c.scrbase.toNat) else none

/-- The lowest-numbered enabled window that holds a VA (R230). -/
def windowOf (c : Ctx) (va : Nat) : Option (Nat × Window) :=
  (c.windows.mapIdx (fun i w => (i, w))).find? (fun p => p.2.en && p.2.va ≤ va && va < p.2.va + p.2.nblk * 65536)

/-- Flips of a window that a hart's last acquire, or its last release, followed. -/
def Hart.view (h : Hart) (i : Nat) : Nat := h.views.getD i 0
def Hart.rel (h : Hart) (i : Nat) : Nat := h.rels.getD i 0
/-- Whether a write into a window is held (R233): a hart of the context whose last acquire precedes a flip that the
writer's followed has passed no release since. -/
def windowHeld (s : State) (c : Nat) (h : Hart) (i : Nat) : Bool :=
  s.allHarts.any (fun x => ctxOf s x == c && !x.ended && x.relStage != 3 && decide (x.view i < h.view i) && decide (x.rel i < h.view i))

/-- One byte's place before stage 2 (R199, R231, R243): `strong` accesses may not enter a window; a trap names the
address `rep`, the first byte of the whole access (R246). -/
def locateGpa (h va rep : Nat) (k : Kind) (strong : Bool) : M Xlat := do
  let (_, x) ← ctxM h
  match scratchOff x va with
  | some off => if k = .exec then trap .perm .exec (BitVec.ofNat 64 rep) else return ⟨.scr off, 0, 0⟩
  | none =>
    let e ← translateM h (ctxOf (← get) (← hartNo h)) va rep k 3
    let (c, x) ← ctxM h
    let hx ← hartNo h
    match windowOf x va with
    | none => return ⟨.phys (leafPa e.pte e.lvl va), ptePfmt e.pte, pteGs e.pte⟩
    | some (i, w) =>
      if strong then trap .perm k (BitVec.ofNat 64 rep)
      if k = .write && windowHeld (← get) c hx i then hold
      let one := (if k = .write then w.gen + 1 else hx.view i) % 2 = 1
      return ⟨.phys ((if one then w.pa1 else w.pa0) + (va - w.va)), ptePfmt e.pte, pteGs e.pte⟩

/-- One byte's place: stage 2 follows (R251, R253). -/
def locate (h va rep : Nat) (k : Kind) (strong : Bool) : M Xlat := do
  let x ← locateGpa h va rep k strong
  match x.loc with
  | .phys gpa =>
    let (c, _) ← ctxM h
    match ← stage2M h c gpa k false va k with
    | some a => return { x with loc := .phys a }
    | none => return { x with loc := .dead (lineAddr (c / 64) gpa) }
  | _ => return x

/-- The place `i` bytes further on the same page. -/
def Loc.add (l : Loc) (i : Nat) : Loc :=
  match l with
  | .scr o => .scr (o + i)
  | .phys a => .phys (a + i)
  | .dead a => .dead (a + i)

/-- The places of `n` bytes and the formats of the pages they touch, the first byte's page first (R245). -/
def locateN (h va n : Nat) (k : Kind) (strong : Bool) : M (List Loc × List (Nat × Nat)) := do
  let a ← locate h va va k strong
  match a.loc with
  | .scr o =>
    if Config.scratchSize < o + n then trap .page k (BitVec.ofNat 64 va)
    return ((List.range n).map (fun i => .scr (o + i)), [(0, 0)])
  | l =>
    let room := 65536 - va % 65536
    if n ≤ room then return ((List.range n).map l.add, [(a.pfmt, a.gs)])
    else
      let b ← locate h (va + room) va k strong
      return ((List.range room).map l.add ++ (List.range (n - room)).map b.loc.add, [(a.pfmt, a.gs), (b.pfmt, b.gs)])

/-! ## Reading and writing places -/

/-- Whether an engine operation of the slot holds a span of scratch that an access of `n` bytes touches (R213). -/
def spanHeld (sl : Slot) (off n : Nat) : Bool :=
  sl.ops.any (fun o => !o.done &&
    match o.span with
    | some (lo, hi) => lo < off + n && off ≤ hi
    | none => false)
/-- The same of any byte of an access. -/
def scratchHeld (sl : Slot) (ls : List Loc) : Bool :=
  !sl.ops.isEmpty && ls.any (fun l => match l with | .scr o => spanHeld sl o 1 | _ => false)

/-- The last byte of pending stores to an address of which `ok` holds. -/
def pendLast (ok : Pend → Bool) (a : Nat) : List Pend → Option Byte
  | [] => none
  | p :: t =>
    match pendLast ok a t with
    | some x => some x
    | none => if p.a = a && ok p then some p.b else none

/-- A read of one of the hart's sides, made at order point `w`, is ordered after the store (R219): the same side made it,
or a fence has ordered it. -/
def Pend.seen (vec : Bool) (w : Nat) (p : Pend) : Bool :=
  decide (p.n < w) && (p.vec == vec || p.cross.any (fun t => decide (t < w)))
/-- The same of a store at home. -/
def Undo.seen (vec : Bool) (w : Nat) (u : Undo) : Bool :=
  decide (u.seq < w) && (if vec then u.vAt else u.sAt).any (fun t => decide (t < w))
/-- A store at home counts as a forked hart's own: its parent ordered it before the FORK (R40). -/
def Undo.ofKin (u : Undo) (k : Nat × Nat) : Bool :=
  u.hart == some k.1 && decide (u.seq < k.2) && (u.sAt.any (fun t => decide (t < k.2)) || u.vAt.any (fun t => decide (t < k.2)))

/-- What a snapshot-strict read finds behind the home value (R222): entries newest first. -/
def histGet (h : Hart) (vec : Bool) (w a : Nat) (v : Byte) : List Undo → Byte
  | [] => v
  | u :: t =>
    if u.a = a then
      if (u.hart = some h.id && u.seen vec w) || h.kin.any u.ofKin ||
          (match u.stamp with | some c => c < h.lastAcq | none => false) then v
      else histGet h vec w a u.old t
    else histGet h vec w a v t

/-- Stores not yet home that count as a forked hart's own (R40) (DEDUCED, log 15). -/
def kinGet (s : State) (a : Nat) : List (Nat × Nat) → Option Byte
  | [] => none
  | (p, n) :: t =>
    match pendLast (fun x => decide (x.n < n)) a (s.hartOf p).sbuf with
    | some b => some b
    | none => kinGet s a t
/-- The latest store of a hart, or one that counts as its own, that is not yet home (DEDUCED, log 14). -/
def pendingGet (s : State) (h : Hart) (a : Nat) : Option Byte :=
  match pendLast (fun _ => true) a h.sbuf with
  | some b => some b
  | none => kinGet s a h.kin

/-- A cache's entry that serves a byte to a hart: its context's, and not older than the hart's last acquire (R221). -/
def lineFor (c n a acq : Nat) (ls : List CLine) : Option CLine :=
  ls.find? (fun e => e.ctx == c && e.a == a / n * n && decide (acq ≤ e.cut))
/-- The cache's line that answers: of the core's L1 to the scalar side, of the die's RDC for a line homed elsewhere (R16,
R198). -/
def cachedLine (s : State) (h : Hart) (vec : Bool) (a : Nat) : Option CLine :=
  let c := ctxOf s h
  match if vec then none else lineFor c 64 a h.lastAcq (s.core h.core).l1 with
  | some l => some l
  | none =>
    if paDevice a && homeDie a == h.core / 128 then none
    else lineFor c 256 a h.lastAcq (mapGet [] s.rdc (h.core / 128))
/-- The byte of it, and whether its granule is poisoned (R319). -/
def CLine.byte (l : CLine) (a : Nat) : Byte := l.bytes.getD (a - l.a) 0
def CLine.poisoned (l : CLine) (a : Nat) : Bool := l.bad.getLsbD ((a - l.a) / 64)
/-- What a cache answers. -/
def cachedGet (s : State) (h : Hart) (vec : Bool) (a : Nat) : Option Byte := (cachedLine s h vec a).map (·.byte a)

/-- The byte a read of one of a hart's sides returns, made at order point `w` (R219, R222): at RECORD and REPLAY the one
value R222 names, else the hart's own pending store, what a cache holds, or what the home holds (DEDUCED, log 23). -/
def readByte (s : State) (h : Hart) (vec : Bool) (w a : Nat) : Byte :=
  let c := s.ctx (ctxOf s h)
  if c.strict then
    match pendLast (Pend.seen vec w) a h.sbuf with
    | some b => b
    | none =>
      match kinGet s a h.kin with
      | some b => b
      | none => histGet h vec w (histAddr s a) (s.peek a) c.hist
  else
    match pendingGet s h a with
    | some b => b
    | none =>
      match cachedGet s h vec a with
      | some b => b
      | none => s.peek a
/-- The byte an ordinary read of a hart returns now. -/
def ordinaryByte (s : State) (h : Hart) (vec : Bool) (a : Nat) : Byte := readByte s h vec h.stores a

/-- A place's byte for an ordinary read. -/
def locByte (s : State) (h : Hart) (vec : Bool) : Loc → Byte
  | .scr o => mapGet unwritten (s.slot h.slotId).scratch o
  | .phys a => ordinaryByte s h vec a
  | .dead _ => 0
/-- A place's byte for a strong read, at home (R223). -/
def locByteHome (s : State) (h : Hart) : Loc → Byte
  | .scr o => mapGet unwritten (s.slot h.slotId).scratch o
  | .phys a => s.peek a
  | .dead _ => 0
/-- Whether an ordinary read of a place meets poison (R14, R265): not where the hart's own pending stores cover the whole
granule of memory that stands, or a cache holds a copy that is clean (DESIGN CHOICE, log 75). -/
def locBad (s : State) (h : Hart) (vec : Bool) : Loc → Bool
  | .scr o => (s.slot h.slotId).scrPoison.contains (o / 64)
  | .phys a =>
    let own := (List.range 64).all (fun i => (pendingGet s h (a / 64 * 64 + i)).isSome)
    match if (s.ctx (ctxOf s h)).strict then none else cachedLine s h vec a with
    | some l => (paBad s a && drops s a) || (l.poisoned a && !own)
    | none => paBad s a && (drops s a || !own)
  | .dead _ => true

/-- PEER_DOWN of a function's peer entry is sent, once until the next PEER_SET (R331). -/
def peerTell (f i : Nat) (s : State) : State :=
  let p := mapGet Peer.initial (s.fn f).peers i
  if p.reported then s
  else
    eventSend (s.setFn f { s.fn f with peers := mapPut Peer.initial (s.fn f).peers i { p with reported := true, due := false } })
      f 8 0xFF ([BitVec.ofNat 8 i] ++ leBytes 3 0 ++ leBytes 4 p.links)
/-- A failed access to a peer's memory has it sent. -/
def peerReport (s : State) (f a : Nat) : State :=
  if paPeer a && !(peerUp s f a) then peerTell f (bitsAt a 44 6) s else s
def reportM (ls : List Loc) : M Unit :=
  eachOf (fun l => match l with
    | .phys a => modify (fun s => peerReport s (fnAddr a) a)
    | _ => pure ()) ls

/-- Whether a place is poisoned at home. -/
def locBadHome (s : State) (h : Hart) : Loc → Bool
  | .scr o => (s.slot h.slotId).scrPoison.contains (o / 64)
  | .phys a => paBad s a
  | .dead _ => true

/-- The first poisoned byte of an access, as an offset. -/
def firstBad (s : State) (h : Hart) (vec : Bool) (ls : List Loc) : Option Nat := ls.findIdx? (locBad s h vec)

/-- An ordinary load of `n` bytes of the scalar side: the bytes, and the offset of the first poisoned one (R219, R222).
Bytes of a span an engine holds wait (R213). -/
def loadRaw (h va n : Nat) : M (List Byte × Option Nat) := do
  let (ls, _) ← locateN h va n .read false
  let s ← get
  let hx := s.hartOf h
  if scratchHeld (s.slot hx.slotId) ls then hold
  reportM ls
  return (ls.map (locByte s hx false), firstBad s hx false ls)

/-- TRAPVAL of POISON of memory (R257): the VA of the poisoned granule. -/
def poisonVal (va : Nat) : Word := BitVec.ofNat 64 (va % 2 ^ 57 / 64 * 64)

/-- An ordinary scalar-side load; poison traps precisely (R265). -/
def loadM (h va n : Nat) : M (List Byte) := do
  let (bs, bad) ← loadRaw h va n
  match bad with
  | some i => trap .poison .read (poisonVal (va + i))
  | none => return bs

/-! ## Digests (R296) -/

def fmix (x : Word) : Word :=
  let x := x ^^^ (x >>> 33)
  let x := x * 0xFF51AFD7ED558CCD
  let x := x ^^^ (x >>> 33)
  let x := x * 0xC4CEB9FE1A85EC53
  x ^^^ (x >>> 33)
def mix64 (g data : Word) (mask : BitVec 8) : Word :=
  fmix (fmix ((g * 0x9E3779B97F4A7C15) ^^^ mask.zeroExtend 64) ^^^ data)
/-- vhash of R303. -/
def vhash (v : Word) : BitVec 16 := (mix64 0 v 0xFF).extractLsb' 48 16

/-- The term of one granule for the bytes of a store unit that lie in it. -/
def granuleTerm (g : Nat) (ps : List (Nat × Byte)) : Word :=
  let mine := ps.filter (fun p => p.1 / 8 == g)
  let data := mine.foldl (fun x p => x ||| (p.2.toNat <<< (8 * (p.1 % 8)))) 0
  let mask := mine.foldl (fun x p => x ||| (1 <<< (p.1 % 8))) 0
  mix64 (BitVec.ofNat 64 (g % 2 ^ 61)) (BitVec.ofNat 64 data) (BitVec.ofNat 8 mask)
/-- What one store unit adds to a digest. -/
def unitTerm (va : Nat) (bs : List Byte) : Word :=
  let ps := withAddr va bs
  ((ps.map (fun p => p.1 / 8)).eraseDups).foldl (fun d g => d + granuleTerm g ps) 0

/-- SAVEBASE (R263). -/
def saveBase (c : Ctx) (h : Hart) : Word := c.save + BitVec.ofNat 64 (0x10000 * (h.core * 4 + h.id % 4))

/-- What a committed store unit of a hart adds to its digest: nothing at FREE, or in its own save area (R261, R296). -/
def foldWord (s : State) (h va : Nat) (bs : List Byte) : Word :=
  let hx := s.hartOf h
  let c := s.ctx (ctxOf s hx)
  let sb := (saveBase c hx).toNat
  if c.level = .free || (sb ≤ va && va < sb + 0x10000) then 0 else unitTerm va bs
/-- A committed store unit folds at DIGEST and above, but for the hart's own save area (R261, R296). -/
def foldM (h va : Nat) (bs : List Byte) : M Unit := do
  let (_, c) ← ctxM h
  let hx ← hartNo h
  let sb := (saveBase c hx).toNat
  if c.level = .free || (sb ≤ va && va < sb + 0x10000) then pure ()
  else modHartNo h (fun x => { x with digest := x.digest + unitTerm va bs })

/-! ## Stores -/

/-- Bytes of scratch, with the granules they poison or clean (R200, R319). -/
def scratchStore (sl : Slot) (ps : List (Nat × Byte)) : Slot :=
  { sl with
    scratch := ps.foldl (fun m p => mapPut unwritten m p.1 p.2) sl.scratch
    scrPoison := if sl.scrPoison = [] then [] else sl.scrPoison.filter (fun g => !((coveredGranules ps).contains g)) }

/-- The places and bytes of a store, split. -/
def scrPairs (ls : List Loc) (bs : List Byte) : List (Nat × Byte) :=
  (ls.zip bs).filterMap (fun p => match p.1 with | .scr o => some (o, p.2) | _ => none)
def physPairs (ls : List Loc) (bs : List Byte) : List (Nat × Byte) :=
  (ls.zip bs).filterMap (fun p => match p.1 with | .phys pa => some (pa, p.2) | _ => none)

/-- A store of which stage 2 declined a place is dropped there, and recorded (R14, R253). -/
def dropDead (author : Option Nat) (ctx : Nat) (ls : List Loc) (s : State) : State :=
  match ls.findSome? (fun l => match l with | .dead a => some a | _ => none) with
  | some a => dropRecord s author ctx a
  | none => s

/-- An ordinary store of one of a hart's sides (R217, R218): scratch takes it at once (R199), other memory when it
reaches home; a store stage 2 declined is dropped and recorded (R14, R253). -/
def storeAt (h : Nat) (vec : Bool) (ls : List Loc) (bs : List Byte) : M Unit := do
  let s ← get
  let hx := s.hartOf h
  if scratchHeld (s.slot hx.slotId) ls then hold
  reportM ls
  let sc := scrPairs ls bs
  if sc ≠ [] then modify (fun s => s.setSlot hx.slotId (scratchStore (s.slot hx.slotId) sc))
  modify (fun s => dropDead (some h) (ctxOf s hx) ls s)
  let ps := physPairs ls bs
  if ps ≠ [] then modHartNo h (fun x => { x with sbuf := x.sbuf ++ pending vec x.stores ps, stores := x.stores + ps.length })
where
  /-- Stores numbered from `n` on. -/
  pending (vec : Bool) (n : Nat) : List (Nat × Byte) → List Pend
    | [] => []
    | p :: t => ⟨n, vec, p.1, p.2, none⟩ :: pending vec (n + 1) t

/-- An ordinary scalar-side store of bytes, one store unit (R296). -/
def storeM (h va : Nat) (bs : List Byte) : M Unit := do
  let (ls, _) ← locateN h va bs.length .write false
  storeAt h false ls bs
  foldM h va bs

/-! ## Reaching home (R217, R218) -/

/-- A pending store of hart `h` as it reaches home. -/
def Pend.home (h : Nat) (p : Pend) : HStore :=
  ⟨some ⟨h, p.n, if p.vec then p.cross else some p.n, if p.vec then some p.n else p.cross, none⟩, p.a, p.b⟩
/-- Pending stores of a hart, numbered below `n`, to addresses of which `mine` holds, reach home. -/
def takeHome (h n : Nat) (mine : Nat → Bool) (s : State) : State :=
  let x := s.hartOf h
  let out (p : Pend) : Bool := mine p.a && decide (p.n < n)
  if x.sbuf.any out then
    (homeStore (ctxOf s x) none s ((x.sbuf.filter out).map (Pend.home h))).setHart { x with sbuf := x.sbuf.filter (fun p => !(out p)) }
  else s
/-- What a hart's ancestors stored before the FORKs that made it comes before its own stores to the same bytes (R40, R218,
R454). -/
def kinHome (kin : List (Nat × Nat)) (mine : Nat → Bool) (s : State) : State :=
  kin.foldr (fun k s => takeHome k.1 k.2 mine s) s
/-- Older stores of a hart, numbered below `n`, reach home ahead of a later one to the same bytes (R218). -/
def olderHome (h n : Nat) (as : List Nat) (s : State) : State :=
  takeHome h n as.contains (kinHome (s.hartOf h).kin as.contains s)

/-- At RECORD and REPLAY a fence orders a hart's earlier stores before its later reads (R219, R222, R226): those pending of
which `p` holds for the other side, and those at home of which `ps` holds for the scalar side and `pv` for the vector
side. -/
def markSeen (h : Nat) (p : Pend → Bool) (ps pv : Undo → Bool) (s : State) : State :=
  let x := s.hartOf h
  let c := ctxOf s x
  let y := s.ctx c
  if !y.strict then s
  else
    let t := x.stores
    let cross (q : Pend) : Pend := if q.cross.isNone && p q then { q with cross := some t } else q
    let mark (u : Undo) : Undo :=
      if u.hart = some h then
        { u with
          sAt := if u.sAt.isNone && ps u then some t else u.sAt
          vAt := if u.vAt.isNone && pv u then some t else u.vAt }
      else u
    (s.setCtx c { y with hist := y.hist.map mark }).setHart { x with sbuf := x.sbuf.map cross, stores := t + 1 }

/-! ## The determinism block and the order log (R295, R302 to R307) -/

/-- The determinism block of a context's record (R295): where it is unbacked or poisoned it counts as zero (DESIGN CHOICE, log
89). -/
def detBlock (s : State) (c : Nat) : Nat := ((agentNum s (c / 64) ((s.ctx c).recA + 0xA0) 64)).getD 0
def detVtab (d : Nat) : Nat := bitsAt d 448 64
def detLoghead (d : Nat) : Nat := bitsAt d 384 64
def detLogtail (d : Nat) : Nat := bitsAt d 320 64
def detLogbase (d : Nat) : Nat := bitsAt d 256 64
def detDgbase (d : Nat) : Nat := bitsAt d 128 64
def detLogsz (d : Nat) : Nat := bitsAt d 11 5
def detDgstr (d : Nat) : Nat := bitsAt d 6 5
def detDgns (d : Nat) : Nat := bitsAt d 1 5
/-- Writing eight bytes of a context record in place. -/
def ctxRecPut (s : State) (c off x : Nat) : State :=
  (agentWrite s (c / 64) ((s.ctx c).recA + off) (leBytes 8 x)).getD s

/-- A record of the order log, as a number of 256 bits (R303). -/
def logRecord (ty ser lnch idx off stg seq ver vh aux addr : Nat) : Nat :=
  ty ||| ser <<< 8 ||| lnch <<< 16 ||| idx <<< 32 ||| off <<< 56 ||| stg <<< 58 ||| seq <<< 64 ||| ver <<< 96
    ||| vh <<< 128 ||| aux <<< 144 ||| addr <<< 192

/-- A hart that waits for room in the ring waits anew from now: a record has been written, so that stall is over (R305). -/
def stallAnew (s : State) (c : Nat) : State :=
  let anew (h : Hart) : Hart := match h.run with
    | .parked (.log k _) => if ctxOf s h = c && k % 3 = 0 then { h with run := .parked (.log k s.cycle) } else h
    | _ => h
  if s.liveHarts.any (fun h => anew h != h) then s.mapHarts anew else s
/-- Appending a record at RECORD (R304); none when the ring is full (R305) (DEDUCED, log 68). -/
def logAppend (s : State) (c r : Nat) : Option State :=
  let d := detBlock s c
  let used := (detLogtail d + 2 ^ 64 - detLoghead d) % 2 ^ 64
  if 2 ^ detLogsz d - 32 ≤ used then none
  else
    match agentWrite s (c / 64) (detLogbase d + detLogtail d % 2 ^ detLogsz d) (leBytes 32 r) with
    | none => none
    | some s1 =>
      let s2 := ctxRecPut s1 c (0xA0 + 40) ((detLogtail d + 32) % 2 ^ 64)
      some (stallAnew (s2.setCtx c { s2.ctx c with stallSince := none, stallSent := false }) c)

/-- The records of the ring from head to tail as (count, record), but for those consumed (R306). -/
def logPending (s : State) (c : Nat) : List (Nat × Nat) :=
  let d := detBlock s c
  let n := (detLogtail d + 2 ^ 64 - detLoghead d) % 2 ^ 64 / 32
  ((List.range n).map (fun i => (detLoghead d + 32 * i) % 2 ^ 64)).filterMap (fun p =>
    if (s.ctx c).consumed.contains p then none
    else (agentNum s (c / 64) (detLogbase d + p % 2 ^ detLogsz d) 32).map (fun r => (p, r)))

/-- LOGHEAD passes the records consumed without a gap (R304); `fuel` is their number. -/
def logAdvance (s : State) (c : Nat) : Nat → State
  | 0 => s
  | fuel + 1 =>
    let d := detBlock s c
    if (s.ctx c).consumed.contains (detLoghead d) then
      let s1 := ctxRecPut s c (0xA0 + 48) ((detLoghead d + 32) % 2 ^ 64)
      logAdvance (s1.setCtx c { s1.ctx c with consumed := (s1.ctx c).consumed.erase (detLoghead d) }) c fuel
    else s
/-- Consuming records at REPLAY (R304). -/
def logConsume (s : State) (c : Nat) (ps : List Nat) : State :=
  let s1 := s.setCtx c { s.ctx c with consumed := (s.ctx c).consumed ++ ps }
  logAdvance s1 c (s1.ctx c).consumed.length

/-- A record is one of a hart's own events (R306): launch, stage, index, offset, and not a placement or of no hart; one of
a reserved type is the hart's, and matches no event of it (R4, R307). Reserved bits [15:9] and [63:61] are not looked at,
whatever they hold (DESIGN CHOICE, log 91). -/
def logMine (l : Launch) (h : Hart) (r : Nat) : Bool :=
  let ty := bitsAt r 0 8
  ty != 8 && (ty < 0xB || 0xE ≤ ty) && bitsAt r 16 16 == l.lnch % 65536 && bitsAt r 32 24 == h.index && bitsAt r 56 2 == h.offset
    && bitsAt r 58 3 == h.stage && bitsAt r 8 1 == 0

/-- The records before those of a later hart of the same index or a later child of the same offset, which begin at its
PLACE or at the FORK that makes it (R306). -/
def logOwn (l : Launch) (h : Hart) (ps : List (Nat × Nat)) : List (Nat × Nat) :=
  ps.takeWhile (fun p =>
    !(bitsAt p.2 16 16 == l.lnch % 65536 && bitsAt p.2 32 24 == h.index && bitsAt p.2 58 3 == h.stage &&
      (bitsAt p.2 0 8 == 8 || (bitsAt p.2 0 8 == 9 && h.parent.isSome && bitsAt p.2 216 2 == h.offset))))

/-- A hart takes REPLAY_DIVERGE at its event `seq` (R307): its remaining records, to its own PHASE record with event 6, are consumed. -/
def diverge {α : Type} (h reason : Nat) (seq : BitVec 32) : M α := do
  let s ← get
  let hx := s.hartOf h
  let c := ctxOf s hx
  let l := s.launch hx.launch
  let mine := (logOwn l hx (logPending s c)).filter (fun p => logMine l hx p.2)
  let upto := mine.takeWhile (fun p => !(bitsAt p.2 0 8 == 5 && bitsAt p.2 144 3 == 6))
  let last := (mine.drop upto.length).take 1
  set (logConsume s c ((upto ++ last).map (·.1)))
  if last = [] then modCtx c (fun x => { x with ghosts := x.ghosts ++ [(l.lnch % 65536, hx.stage, hx.index, hx.offset)] })
  modHartNo h (fun x => { x with diverged := true })
  trap .replayDiverge .read (BitVec.ofNat 64 (reason ||| seq.toNat <<< 32))

/-- Records of diverged harts among some of the ring, in ring order, and the harts that have more to come (R307). -/
def ghostRecords : List (Nat × Nat × Nat × Nat) → List (Nat × Nat) → List Nat × List (Nat × Nat × Nat × Nat)
  | gs, [] => ([], gs)
  | gs, p :: t =>
    let key := (bitsAt p.2 16 16, bitsAt p.2 58 3, bitsAt p.2 32 24, bitsAt p.2 56 2)
    let ty := bitsAt p.2 0 8
    if gs.contains key && bitsAt p.2 8 1 == 0 && ty != 8 && (ty < 0xB || 0xE ≤ ty) then
      let r := ghostRecords (if ty == 5 && bitsAt p.2 144 3 == 6 then gs.erase key else gs) t
      (p.1 :: r.1, r.2)
    else ghostRecords gs t
/-- Records of a launch that is over: all but its ADMIT and an END (R307); those of a reserved type too (R4). -/
def overRecords (ls : List Nat) (ps : List (Nat × Nat)) : List Nat :=
  (ps.filter (fun p => bitsAt p.2 0 8 != 0xB && bitsAt p.2 0 8 != 0xD && ls.contains (bitsAt p.2 16 16))).map (·.1)
/-- Records of diverged harts, and of launches that are over, that have come since are consumed and ignored. -/
def logSweep (c : Nat) (s : State) : State :=
  let s0 := if (s.ctx c).skips = [] then s
    else
      match overRecords (s.ctx c).skips (logPending s c) with
      | [] => s
      | ps => logConsume s c ps
  if (s0.ctx c).ghosts = [] then s0
  else
    let r := ghostRecords (s0.ctx c).ghosts (logPending s0 c)
    let s1 := if r.1 = [] then s0 else logConsume s0 c r.1
    s1.setCtx c { s1.ctx c with ghosts := r.2 }

/-- Whether the log governs a hart: it is recorded, or it is enforced (R294, R306, R307). -/
def logLevel (s : State) (h : Hart) : Option Level :=
  let c := s.ctx (ctxOf s h)
  match c.level with
  | .record => some .record
  | .replay => if h.diverged || (s.launch h.launch).rerun != 0 then none else some .replay
  | _ => none

/-- Before a loggable event (R305 to R307): at RECORD there must be room, at REPLAY the hart's next record must name
this event, its address where `am` and its AUX where `xm` has a bit set. Answers the record. -/
def logCheckIn (h ty addr am aux xm : Nat) : M (Option (Nat × Nat)) := do
  let s ← get
  let hx := s.hartOf h
  let c := ctxOf s hx
  match logLevel s hx with
  | none => return none
  | some .record =>
    let d := detBlock s c
    if 2 ^ detLogsz d - 32 ≤ (detLogtail d + 2 ^ 64 - detLoghead d) % 2 ^ 64 then stall (if ty = 0xA then 3 else 0) else return none
  | some _ =>
    modify (logSweep c)
    let s ← get
    let pend := logPending s c
    match (logOwn (s.launch hx.launch) hx pend).find? (fun p => logMine (s.launch hx.launch) hx p.2) with
    | none => if pend.any (fun p => bitsAt p.2 0 8 == 0xD) then diverge h 3 hx.logseq else stall 1
    | some p =>
      if bitsAt p.2 0 8 != ty || (bitsAt p.2 192 64 &&& am) != addr || (bitsAt p.2 144 48 &&& xm) != aux then
        diverge h 1 hx.logseq
      else return some p
/-- The same with the whole address, which a PHASE record does not have. -/
def logCheck (h ty addr aux xm : Nat) : M (Option (Nat × Nat)) :=
  logCheckIn h ty addr (if ty = 5 then 0 else 2 ^ 64 - 1) aux xm

/-- After the event: the record is written, or consumed, and LOGSEQ counts it (R303). -/
def logDone (h ty addr aux ver vh : Nat) (r : Option (Nat × Nat)) : M Unit := do
  let s ← get
  let hx := s.hartOf h
  let c := ctxOf s hx
  let l := s.launch hx.launch
  match logLevel s hx with
  | none => pure ()
  | some .record =>
    match logAppend s c (logRecord ty (if l.rerun = 0 then 0 else 1) (l.lnch % 65536) hx.index hx.offset hx.stage
        hx.logseq.toNat ver vh aux addr) with
    | none => stall (if ty = 0xA then 3 else 0)
    | some s1 => set s1
    modHartNo h (fun x => { x with logseq := x.logseq + 1 })
  | some _ =>
    match r with
    | some p => set (logConsume s c [p.1])
    | none => pure ()
    modHartNo h (fun x => { x with logseq := x.logseq + 1 })

/-- The object of an address (R302). -/
def objectOf (va : Nat) : Nat := bitsAt va 6 20 ^^^ bitsAt va 26 20 ^^^ bitsAt va 46 11
/-- An object's counter; one that is unbacked or poisoned counts as zero (DESIGN CHOICE, log 89). -/
def versionOf (s : State) (c va : Nat) : Nat :=
  ((agentNum s (c / 64) (detVtab (detBlock s c) + 4 * objectOf va) 4)).getD 0
/-- Adding one to an object's counter, wrapping. -/
def versionBump (s : State) (c va : Nat) : State :=
  (agentWrite s (c / 64) (detVtab (detBlock s c) + 4 * objectOf va) (leBytes 4 ((versionOf s c va + 1) % 2 ^ 32))).getD s

/-! ## Releases and acquires (R216, R217) -/

/-- An engine's write belongs to an operation of the hart that is still in flight: it counts as a store made at the
operation's completion (R207). -/
def Undo.moving (s : State) (h : Hart) (u : Undo) : Bool :=
  match u.op with
  | some o => (s.slot h.slotId).ops.any (fun p => p.n == o.1 && !p.done)
  | none => false
/-- A release of hart `h` at cut `n`, of its pending stores that `own` names: they reach home, and with them count its
stores at home that `mine` names, the writes of engine operations that have completed among them (R207, R217). -/
def releasePart (s : State) (h n : Nat) (own : Pend → Bool) (mine : Undo → Bool) : State :=
  let hx := s.hartOf h
  let c := ctxOf s hx
  let out := hx.sbuf.filter own
  let s0 := if hx.kin = [] then s else kinHome hx.kin (fun a => out.any (fun p => p.a == a)) s
  let s1 := homeStore c (some n) s0 (out.map (Pend.home h))
  let x := s1.ctx c
  let s2 := s1.setCtx c { x with
    cut := max x.cut n
    hist := x.hist.map (fun u => if u.hart = some h && u.stamp = none && mine u && !(u.moving s1 hx) then { u with stamp := some n } else u)
    tabs := x.tabs.map (fun u => if u.hart = some h && u.stamp = none then { u with stamp := some n } else u) }
  s2.setHart { hx with sbuf := hx.sbuf.filter (fun p => !(own p)), rels := x.windows.map (·.gen) }
/-- A release of hart `h` at cut `n`: every ordinary store of the hart reaches home. -/
def releaseCut (s : State) (h n : Nat) : State := releasePart s h n (fun _ => true) (fun _ => true)

/-- An acquire of hart `h` at cut `n`. -/
def acquireCut (s : State) (h n : Nat) : State :=
  let hx := s.hartOf h
  let c := ctxOf s hx
  let x := s.ctx c
  (s.setCtx c { x with cut := max x.cut n }).setHart { hx with lastAcq := n, views := x.windows.map (·.gen) }

/-- The cut number a hart takes next: one more than the last taken (R217, R309); the current one for a diverged hart
(R307). -/
def nextCut (s : State) (h : Nat) : Nat :=
  let hx := s.hartOf h
  let n := (s.ctx (ctxOf s hx)).cut
  if hx.diverged then n else n + 1

/-- A release or an acquire at the next cut, as a strong access with rl or aq makes it (R225) (DEDUCED, log 17). -/
def releaseAt (s : State) (h : Nat) : State := releaseCut s h (nextCut s h)
def acquireAt (s : State) (h : Nat) : State := acquireCut s h (nextCut s h)

/-- No cut, in a PHASE record (R303). -/
def noCut : Nat := 0xFFFFFFFF

/-- The cut a boundary takes: the one its record names, once every cut below it is taken (R306), else the next. -/
def takeCut (h : Nat) (want : Option Nat) : M Nat := do
  let s ← get
  match want with
  | none => return nextCut s h
  | some n => if (s.ctx (ctxOf s (s.hartOf h))).cut < n - 1 then stall 2 else return n

/-- A phase boundary of a hart (R216): event code of R303, release, acquire, and what happens between the two. At
REPLAY each takes the cut its record names and waits for its turn (R306). -/
def boundary (h ev : Nat) (rel acq : Bool) (between : M Unit) : M Unit := do
  let r ← logCheck h 5 0 ev 7
  let want (off : Nat) : Option Nat := r.map (fun p => bitsAt p.2 (192 + off) 32)
  let amiss (w : Option Nat) (on : Bool) : Bool := match w with | some n => (n != noCut) != on | none => false
  if amiss (want 0) rel || amiss (want 32) acq then diverge h 1 (← hartNo h).logseq
  if rel && (← hartNo h).relStage = 0 then
    let n ← takeCut h (want 0)
    modify (fun s => releaseCut s h n)
    modHartNo h (fun x => { x with relStage := 1, relCut := n })
  if (← hartNo h).relStage ≤ 1 then
    between
    modHartNo h (fun x => { x with relStage := 2 })
  let a ← if acq then takeCut h (want 32) else pure noCut
  if acq then modify (fun s => acquireCut s h a)
  let x ← hartNo h
  logDone h 5 ((if rel then x.relCut % 2 ^ 32 else noCut) ||| (a % 2 ^ 32) <<< 32) ev 0 0 r
  modHartNo h (fun x => { x with relStage := 0 })

/-! ## Taking an exception (R256 to R264) -/

def Cause.code : Cause → Nat
  | .illegalOp => 0x01 | .illegalReg => 0x02 | .tupleLen => 0x03 | .algtab => 0x04 | .page => 0x05 | .perm => 0x06
  | .format => 0x07 | .formatSplit => 0x08 | .align => 0x09 | .walkAbort => 0x0A | .brk => 0x0B | .trap => 0x0C
  | .checksum => 0x0D | .matrixType => 0x0E | .laneCheck => 0x0F | .poison => 0x10 | .replayDiverge => 0x11
  | .nonyield => 0x12
/-- PAGE, PERM, ALIGN and WALK_ABORT carry the access kind (R256). -/
def Cause.hasKind : Cause → Bool
  | .page => true | .perm => true | .align => true | .walkAbort => true | _ => false
def Kind.code : Kind → Nat
  | .read => 0 | .write => 1 | .exec => 2
/-- TRAPCAUSE with HM = 1 (R256). -/
def causeWord (c : Cause) (k : Kind) : Word :=
  BitVec.ofNat 64 (0x8000 + (if c.hasKind then k.code else 0) * 256 + c.code)
/-- TRAPCAUSE.HM: a handler runs. -/
def Hart.hm (h : Hart) : Bool := h.trapcause.getLsbD 15

/-- The completion record of a launch (R281), and its vector. -/
def completionSend (s : State) (l : Launch) (status code b2 : Nat) : State :=
  let sinks := (List.range 16).flatMap (fun i =>
    match l.queues[i]? with
    | some q => leBytes 4 (if q.cons = none then q.pushed else 0)
    | none => leBytes 4 0)
  let bytes := [BitVec.ofNat 8 status, BitVec.ofNat 8 code, BitVec.ofNat 8 b2, 0] ++ leBytes 4 l.tag.toNat
    ++ leBytes 8 (s.time % 2 ^ 64) ++ List.replicate 48 0 ++ sinks
  let s1 := if l.compl = 0 then s else (agentWrite s l.fn l.compl bytes).getD s
  if l.compl ≠ 0 && l.irq then { s1 with msix := (l.fn, (s1.queue l.fn l.q).vec) :: s1.msix } else s1

/-- A hart leaves its hart slot: stores of it not yet home go there, what it wrote stays readable as of no hart, and
its operations in flight run on without it. -/
def leaveHart (s : State) (h : Hart) : State :=
  let c := ctxOf s h
  let s0 := kinHome h.kin (fun a => h.sbuf.any (fun p => p.a == a)) s
  let s1 := homeStore c none s0 (h.sbuf.map (Pend.home h.id))
  let x := s1.ctx c
  let s2 := s1.setCtx c { x with
    hist := x.hist.map (fun u => if u.hart = some h.id then { u with hart := none, stamp := some (u.stamp.getD x.cut) } else u)
    tabs := x.tabs.map (fun u => if u.hart = some h.id then { u with hart := none, stamp := some (u.stamp.getD x.cut) } else u) }
  let sl := s2.slot h.slotId
  let s3 := s2.setSlot h.slotId { sl with
    ops := (sl.ops.filter (fun o => o.hart != h.id || !o.done)).map (fun o => if o.hart = h.id then { o with hart := 4096 } else o) }
  let f := c / 64
  let y := s3.fn f
  let s4 := s3.setFn f { y with s2 := y.s2.filter (fun e => e.hart != h.id || e.op.isSome) }
  { s4 with
    colls := (s4.colls.filter (fun o => o.hart != h.id || o.away || !o.done)).map (fun o => if o.hart = h.id && !o.away then { o with hart := 4096 } else o)
    hart := if s4.hart.id = h.id then { Hart.initial with id := h.id } else s4.hart
    harts := if s4.hart.id = h.id then s4.harts else mapErase h.id s4.harts }

/-- The harts of a spilled slot, by its key, alone in the part. -/
def spillView (k : Nat) (s : State) : State :=
  { s with
    hart := { Hart.initial with id := 2 ^ 40 }
    harts := (mapGet Spill.initial s.spills k).harts.foldl (fun m h => mapPut Hart.initial m h.id h) [] }
/-- A change of the machine in which the harts of a spilled slot stand in the part's place. -/
def withSpilled (k : Nat) (f : State → State) (s : State) : State :=
  let sp := mapGet Spill.initial s.spills k
  let t := f (spillView k s)
  { t with
    hart := s.hart
    harts := s.harts
    spills := mapPut Spill.initial t.spills k { sp with harts := sp.harts.map (fun h => t.hartOf h.id) } }

/-- Harts of a spilled slot, parents before the harts forked from them: so their stores reach home (R40, R454). -/
def parentsFirst (hs : List Hart) : List Hart := (List.range 4).flatMap (fun n => hs.filter (fun h => min h.kin.length 3 == n))
/-- The harts of a launch in a spilled slot are dropped with it. -/
def dropSpilled (l : Nat) (s : State) (p : Nat × Spill) : State :=
  let mine := parentsFirst (p.2.harts.filter (fun h => decide (h.launch = l)))
  let ids := mine.map (·.id)
  let c := p.1 / 512
  let s1 := mine.foldl (fun s h => homeStore c none s (plain (h.sbuf.map (fun p => (p.a, p.b))))) s
  let gone (o : CollOp) : Bool := o.away && o.ctx == c && ids.contains o.hart
  { s1 with
    colls := (s1.colls.filter (fun o => !(gone o && o.done))).map (fun o => if gone o then { o with hart := 4096 } else o)
    spills := mapPut Spill.initial s1.spills p.1
      { slot := { p.2.slot with ops := p.2.slot.ops.map (fun o => if ids.contains o.hart then { o with hart := 4096 } else o) }
        harts := p.2.harts.filter (fun h => decide (h.launch ≠ l)) } }
/-- The harts of a launch leave their hart slots (DEDUCED, log 51). -/
def dropHarts (s : State) (l : Nat) : State :=
  let s1 := (s.liveHarts.filter (fun h => decide (h.launch = l))).foldl leaveHart s
  s1.spills.foldl (dropSpilled l) s1

/-- The unconsumed records of a launch are skipped at its end, those still to come too (R307). -/
def skipRecords (s : State) (l : Launch) : State :=
  if (s.ctx l.ctx).level = .replay then
    let n := l.lnch % 65536
    let x := s.ctx l.ctx
    logSweep l.ctx (s.setCtx l.ctx { x with
      ghosts := x.ghosts.filter (fun g => g.1 != n)
      skips := n :: x.skips.filter (· != n) })
  else s

/-- A nested trap ends the launch (R264): both causes, both PCs, STATUS 2, HANDLER_FAULT. -/
def handlerFault (s : State) (h : Hart) (nested : Word) (pc2 : Word) : State :=
  let l := s.launch h.launch
  let s1 := eventSend s l.fn 2 (l.ctx % 64) (leBytes 4 h.index ++ [BitVec.ofNat 8 h.stage, BitVec.ofNat 8 h.offset]
    ++ leBytes 2 0 ++ leBytes 8 h.trapcause.toNat ++ leBytes 8 nested.toNat ++ leBytes 8 h.trappc.toNat
    ++ leBytes 8 pc2.toNat ++ leBytes 4 l.tag.toNat)
  let s2 := completionSend s1 l 2 0 ((if l.rerun = 0 then 0 else 1) + (if l.nodigest then 2 else 0))
  let s3 := dropHarts (skipRecords s2 l) h.launch
  { s3 with launches := mapPut Launch.initial s3.launches h.launch Launch.initial }

/-- Granules of places. -/
def physGranules (ls : List Loc) : List Nat :=
  (ls.filterMap (fun l => match l with | .phys pa => some (pa / 64) | _ => none)).eraseDups
def scrGranules (ls : List Loc) : List Nat :=
  (ls.filterMap (fun l => match l with | .scr o => some (o / 64) | _ => none)).eraseDups
/-- Granules of the places whose bytes come poisoned. -/
def badGranules (ls : List Loc) (bad : List Bool) : List Loc := (ls.zip bad).filterMap (fun p => if p.2 then some p.1 else none)
/-- Marking places poisoned, for a hart of a context slot. -/
def poisonPlaces (slot : Nat) (ls : List Loc) (s : State) : State :=
  if ls = [] then s
  else
    let s1 := { s with poison := (physGranules ls).foldl poisonAdd s.poison }
    s1.setSlot slot { s1.slot slot with scrPoison := (scrGranules ls).foldl poisonAdd (s1.slot slot).scrPoison }
/-- Places that a hart has stored to become poisoned, once they are home. -/
def poisonStored (h : Nat) (ls bad : List Loc) (s : State) : State :=
  let as := ls.filterMap (fun l => match l with | .phys a => some a | _ => none)
  poisonPlaces (s.hartOf h).slotId bad (olderHome h (s.hartOf h).stores as s)

/-- The save-area stores of trap entry: s56 to s63, SPC, and FLAGS with the BAR arrival flag alone (R260, R263)
(DEDUCED, log 20) (DEDUCED, log 21); a poisoned register leaves a
poisoned granule (DEDUCED, log 44). -/
def saveEntry (h : Nat) (spc : Word) : M Unit := do
  let (_, c) ← ctxM h
  let x ← hartNo h
  let base := (saveBase c x).toNat
  storeM h (base + 0x100 + 56 * 8) ((List.range 8).flatMap (fun i => leBytes 8 (x.rs (BitVec.ofNat 6 (56 + i))).toNat))
  if x.sp >>> 56 ≠ 0 then
    let (ls, _) ← locateN h (base + 0x100 + 56 * 8) 64 .write false
    modify (poisonStored h ls ls)
  storeM h (base + 8) (leBytes 8 spc.toNat)
  storeM h base (leBytes 8 (if x.arrived then 4 else 0))

/-- TAKING A TRAP (R260): `pos` is the PC of the position, `spc` where scalar issue continues. The vector unit
freezes, TRAPCAUSE (with HM), TRAPPC and TRAPVAL are written, s56 to s63 and SPC are saved, and the PC is TRAPBASE.
A trap in a handler, or a save area that faults, is a nested trap (R264); a save area on a migrating page or behind a
stage-2 fault parks the hart, which takes the trap once it wakes (DEDUCED, log 21). -/
def takeTrap (s : State) (h : Nat) (c : Cause) (k : Kind) (val pos spc : Word) : State :=
  let x := s.hartOf h
  if x.hm then handlerFault s x (causeWord c k) pos
  else
    let x1 := { x.refetch with frozen := true, trapcause := causeWord c k, trappc := pos, trapval := val, popSince := none, trapOp := s.nextOp, pend := none, run := .running }
    match saveEntry h spc (s.setHart x1) with
    | .ok _ s2 =>
      let x2 := s2.hartOf h
      s2.setHart { x2 with pc := (s2.ctx (ctxOf s2 x2)).trapbase }
    | .error (.trap c2 k2 _) s2 => handlerFault s2 (s2.hartOf h) (causeWord c2 k2) pos
    | .error (.park p) s2 => (keepDeclined h (ctxOf s x) s s2).setHart { x with run := .parked p, pend := some ⟨c, k, val, pos, spc⟩ }
    | .error .wait s2 => (keepDeclined h (ctxOf s x) s s2).setHart { x with run := .waiting, pend := some ⟨c, k, val, pos, spc⟩ }

/-- The outcome of an instruction. -/
abbrev Out := Host.Outcome State Fault Refusal

/-- Writing one scalar register and going on: what every scalar computational instruction does (R341). -/
def State.result (s : State) (d : BitVec 6) (x : Word) : State := (s.setS d x).advance

/-- The focus hart's attempt from `s` has to be made again: it parks or waits. -/
def awaits (s : State) (r : Run) (s' : State) : State :=
  let t := keepDeclined s.hart.id (ctxOf s s.hart) s s'
  t.withHart { t.hart with run := r }
/-- An instruction of the scalar unit: it completes, traps at the focus hart's PC (SPC equals it, R260), parks or
waits. -/
def runScalar (m : M Unit) (s : State) : State :=
  match m s with
  | .ok _ s' => s'
  | .error (.trap c k v) s' => takeTrap s' s'.hart.id c k v s'.hart.pc s'.hart.pc
  | .error (.park p) s' => awaits s (.parked p) s'
  | .error .wait s' => awaits s .waiting s'

/-- A scalar instruction that may stop short. -/
def scalar (m : M Unit) (s : State) : Out := .next (runScalar m s)

end Sys2Proof.Machine
end

