-- ==== Sys2Proof/Machine/Uses.lean ====
section
/-! DEFINITION. What an instruction uses: the scalar registers it reads and writes (03 R50, R56, R60, R64, R65), the
vector and mask registers it reads and writes (03 R51, R53, R61), and its kind by major opcode (04 R86). -/

namespace Sys2Proof.Machine

/-! ## Kinds of words (R86) -/

/-- The major opcode of a word. -/
def majorOf (w : BitVec 32) : Nat := w.toNat % 128
/-- A vector or tuple instruction, whose lanes the pipes of checked mode compare (R313, R417, R443). -/
def laneWord (w : BitVec 32) : Bool := 0x28 ≤ majorOf w && majorOf w ≤ 0x6B
/-- VLDFF, which may truncate VL (R434). -/
def ffWord (w : BitVec 32) : Bool := majorOf w == 0x2C || majorOf w == 0x2D
/-- A vector load or store, or a tile load: its reads are those of its place in the queue (R170, R222). -/
def readsUnder (w : BitVec 32) : Bool :=
  (0x28 ≤ majorOf w && majorOf w ≤ 0x2D) ||
    (match decode w with
     | .ok (.wld _ _ _ _) => true
     | .ok (.wldff _ _ _ _) => true
     | _ => false)
/-- An instruction of the Lantern (R86). -/
def lanternWord (w : BitVec 32) : Bool := 0x70 ≤ majorOf w && majorOf w ≤ 0x76

/-! ## Scalar registers -/

/-- The scalar register of an sb field in the sb form. -/
def sbForm (s : BitVec 1) (b : BitVec 6) : List (BitVec 6) := if s = 1 then [b] else []
/-- The scalar registers of a vector memory instruction: the base, and the stride of mode 1. -/
def vmemReads (a b : BitVec 6) (m : BitVec 2) : List (BitVec 6) := if m = 1 then [a, b] else [a]

/-- The scalar registers whose value an instruction of the vector queue takes when it dispatches (R64). -/
def readsLate : Instr → List (BitVec 6)
  | .vmovx d a _ _ y => if y = 1 then [d] else [a]
  | .mrow _ a _ _ _ x _ => if x = 1 then [a] else []
  | .mrd _ a _ _ x _ => if x = 1 then [a] else []
  | .mwr _ a _ _ x _ => if x = 1 then [a] else []
  | _ => []

/-- The scalar registers an instruction takes when it issues: a computational, memory or control instruction its operands,
a vector instruction what it captures (R60). -/
def readsNow : Instr → List (BitVec 6)
  | .add _ a b => [a, b]
  | .sub _ a b => [a, b]
  | .mul _ a b => [a, b]
  | .mulh _ a b _ => [a, b]
  | .div _ a b _ => [a, b]
  | .rem _ a b _ => [a, b]
  | .and _ a b => [a, b]
  | .or _ a b => [a, b]
  | .xor _ a b => [a, b]
  | .shl _ a b => [a, b]
  | .shr _ a b => [a, b]
  | .sar _ a b => [a, b]
  | .min _ a b _ => [a, b]
  | .max _ a b _ => [a, b]
  | .slt _ a b _ => [a, b]
  | .cnt _ a _ => [a]
  | .addi _ a _ => [a]
  | .andi _ a _ => [a]
  | .ori _ a _ => [a]
  | .xori _ a _ => [a]
  | .shli _ a _ => [a]
  | .shri _ a _ => [a]
  | .sari _ a _ => [a]
  | .slti _ a _ => [a]
  | .sfadd _ a b _ => [a, b]
  | .sfsub _ a b _ => [a, b]
  | .sfmul _ a b _ => [a, b]
  | .sfma d a b _ => [a, b, d]
  | .sfdiv _ a b _ => [a, b]
  | .sfsqrt _ a _ => [a]
  | .sfcvt _ a _ _ => [a]
  | .sfmm _ a b _ _ => [a, b]
  | .sfcmp _ a b _ _ => [a, b]
  | .spset a => [a]
  | .beq a b _ => [a, b]
  | .bne a b _ => [a, b]
  | .blt a b _ => [a, b]
  | .bge a b _ => [a, b]
  | .bltu a b _ => [a, b]
  | .bgeu a b _ => [a, b]
  | .strip a _ => [a]
  | .jalr _ a _ => [a]
  | .ld _ a _ _ => [a]
  | .st d a _ _ => [d, a]
  | .lds _ a _ _ _ => [a]
  | .sts d a _ _ _ => [d, a]
  | .waitval d a _ _ _ _ => [d, a]
  | .amo _ d a b o _ _ _ => if o = 9 then [a, b, d] else [a, b]
  | .setvl _ a => [a]
  | .vld _ a b _ _ m => vmemReads a b m
  | .vldRaw _ a b _ _ m => vmemReads a b m
  | .vst _ a b _ m => vmemReads a b m
  | .vstRaw _ a b _ m => vmemReads a b m
  | .vldff _ a b _ _ m => vmemReads a b m
  | .vldffRaw _ a b _ _ m => vmemReads a b m
  | .vadd _ _ b _ _ s => sbForm s b
  | .vsub _ _ b _ _ s => sbForm s b
  | .vmul _ _ b _ _ s => sbForm s b
  | .vmulh _ _ b _ _ s _ => sbForm s b
  | .vmin _ _ b _ _ s _ => sbForm s b
  | .vmax _ _ b _ _ s _ => sbForm s b
  | .vand _ _ b _ _ s => sbForm s b
  | .vor _ _ b _ _ s => sbForm s b
  | .vxor _ _ b _ _ s => sbForm s b
  | .vshl _ _ b _ _ s => sbForm s b
  | .vshr _ _ b _ _ s => sbForm s b
  | .vsar _ _ b _ _ s => sbForm s b
  | .vaddsat _ _ b _ _ s _ => sbForm s b
  | .vsubsat _ _ b _ _ s _ => sbForm s b
  | .vfadd _ _ b _ _ s => sbForm s b
  | .vfsub _ _ b _ _ s => sbForm s b
  | .vfmul _ _ b _ _ s => sbForm s b
  | .vfma _ _ b _ _ s _ => sbForm s b
  | .vfdiv _ _ b _ _ s => sbForm s b
  | .vfmin _ _ b _ _ s => sbForm s b
  | .vfmax _ _ b _ _ s => sbForm s b
  | .vcmp _ _ s _ b _ _ _ => sbForm s b
  | .vfcmp _ s _ b _ _ _ => sbForm s b
  | .vmerge _ _ b _ s => sbForm s b
  | .vslide _ _ b _ _ _ => [b]
  | .vbcast _ _ b _ _ _ => [b]
  | .vext _ _ b => [b]
  | .vins _ a b => [a, b]
  | .vredsum _ _ b _ => [b]
  | .vredmax _ _ b _ _ => [b]
  | .vredmin _ _ b _ _ => [b]
  | .vfredsum _ _ b _ => [b]
  | .vfredmax _ _ b _ => [b]
  | .vredseq _ _ b _ => [b]
  | .mtree _ _ b => [b]
  | .algld a _ => [a]
  | .qpush a _ => [a]
  | .qpop _ a _ => [a]
  | .mfix _ a => [a]
  | .wld _ a b _ => [a, b]
  | .wldff _ a b _ => [a, b]
  | .xcopy a b _ => [a, b]
  | .xfill a b _ => [a, b]
  | .rcfence a o => if o = 1 then [a] else []
  | .kvcommit a _ _ => [a]
  | .coll a _ => [a]
  | .ctlwr d _ => [d]
  | .logmark d _ => [d]
  | _ => []

/-- The registers of the pointer descriptors in use (R56). -/
def pointers (h : Hart) : List (BitVec 6) :=
  ((List.range 4).map (fun p => h.spdesc.extractLsb' (8 * p) 6)).filter (· != 0)
/-- What an instruction reads at issue, STRIP its pointers too. -/
def issueReads (h : Hart) (i : Instr) : List (BitVec 6) :=
  match i with
  | .strip a _ => a :: pointers h
  | i => readsNow i

/-- The scalar register an instruction of the vector queue writes. -/
def queueDest : Instr → Option (BitVec 6)
  | .kpop d _ _ => some d
  | .kfirst d _ _ => some d
  | .vext d _ _ => some d
  | .vredsum d _ _ _ => some d
  | .vredmax d _ _ _ _ => some d
  | .vredmin d _ _ _ _ => some d
  | .vfredsum d _ _ _ => some d
  | .vfredmax d _ _ _ => some d
  | .vredseq d _ _ _ => some d
  | .mloc _ d => some d
  | .wldff _ _ b _ => some b
  | _ => none

/-- The scalar registers an instruction of the scalar unit writes. -/
def issueWrites (h : Hart) : Instr → List (BitVec 6)
  | .add d _ _ => [d]
  | .sub d _ _ => [d]
  | .mul d _ _ => [d]
  | .mulh d _ _ _ => [d]
  | .div d _ _ _ => [d]
  | .rem d _ _ _ => [d]
  | .and d _ _ => [d]
  | .or d _ _ => [d]
  | .xor d _ _ => [d]
  | .shl d _ _ => [d]
  | .shr d _ _ => [d]
  | .sar d _ _ => [d]
  | .min d _ _ _ => [d]
  | .max d _ _ _ => [d]
  | .slt d _ _ _ => [d]
  | .cnt d _ _ => [d]
  | .addi d _ _ => [d]
  | .andi d _ _ => [d]
  | .ori d _ _ => [d]
  | .xori d _ _ => [d]
  | .shli d _ _ => [d]
  | .shri d _ _ => [d]
  | .sari d _ _ => [d]
  | .slti d _ _ => [d]
  | .lih d _ => [d]
  | .addpc d _ => [d]
  | .sfadd d _ _ _ => [d]
  | .sfsub d _ _ _ => [d]
  | .sfmul d _ _ _ => [d]
  | .sfma d _ _ _ => [d]
  | .sfdiv d _ _ _ => [d]
  | .sfsqrt d _ _ => [d]
  | .sfcvt d _ _ _ => [d]
  | .sfmm d _ _ _ _ => [d]
  | .sfcmp d _ _ _ _ => [d]
  | .strip a _ => a :: pointers h
  | .jal d _ => [d]
  | .jalr d _ _ => [d]
  | .ld d _ _ _ => [d]
  | .lds d _ _ _ _ => [d]
  | .amo _ d _ _ _ _ _ _ => [d]
  | .setvl d _ => [d]
  | .setvli d _ => [d]
  | .qpop d _ _ => [d]
  | .fork d _ => [d]
  | .ctlrd d _ => [d]
  | _ => []

/-! ## Vector and mask registers, a mask register k as 64 + k (R61) -/

/-- The mask that governs an instruction, as a source. -/
def maskSource (k : BitVec 4) : List Nat := if k = 15 then [] else [64 + k.toNat]
/-- A vb field in the v form. -/
def vbForm (s : BitVec 1) (b : BitVec 6) : List Nat := if s = 1 then [] else [b.toNat]

/-- What a vector or tuple instruction reads and writes, static registers only; none for one that does not chain: it
has no destination another may chain onto, nor is one that chains. -/
def vecUses : Instr → Option (List Nat × List Nat)
  | .vadd d a b k _ s => some (a.toNat :: vbForm s b ++ maskSource k, [d.toNat])
  | .vsub d a b k _ s => some (a.toNat :: vbForm s b ++ maskSource k, [d.toNat])
  | .vmul d a b k _ s => some (a.toNat :: vbForm s b ++ maskSource k, [d.toNat])
  | .vmulh d a b k _ s _ => some (a.toNat :: vbForm s b ++ maskSource k, [d.toNat])
  | .vmin d a b k _ s _ => some (a.toNat :: vbForm s b ++ maskSource k, [d.toNat])
  | .vmax d a b k _ s _ => some (a.toNat :: vbForm s b ++ maskSource k, [d.toNat])
  | .vand d a b k _ s => some (a.toNat :: vbForm s b ++ maskSource k, [d.toNat])
  | .vor d a b k _ s => some (a.toNat :: vbForm s b ++ maskSource k, [d.toNat])
  | .vxor d a b k _ s => some (a.toNat :: vbForm s b ++ maskSource k, [d.toNat])
  | .vshl d a b k _ s => some (a.toNat :: vbForm s b ++ maskSource k, [d.toNat])
  | .vshr d a b k _ s => some (a.toNat :: vbForm s b ++ maskSource k, [d.toNat])
  | .vsar d a b k _ s => some (a.toNat :: vbForm s b ++ maskSource k, [d.toNat])
  | .vaddsat d a b k _ s _ => some (a.toNat :: vbForm s b ++ maskSource k, [d.toNat])
  | .vsubsat d a b k _ s _ => some (a.toNat :: vbForm s b ++ maskSource k, [d.toNat])
  | .vfadd d a b k _ s => some (a.toNat :: vbForm s b ++ maskSource k, [d.toNat])
  | .vfsub d a b k _ s => some (a.toNat :: vbForm s b ++ maskSource k, [d.toNat])
  | .vfmul d a b k _ s => some (a.toNat :: vbForm s b ++ maskSource k, [d.toNat])
  | .vfma d a b k _ s _ => some (d.toNat :: a.toNat :: vbForm s b ++ maskSource k, [d.toNat])
  | .vfdiv d a b k _ s => some (a.toNat :: vbForm s b ++ maskSource k, [d.toNat])
  | .vfsqrt d a k _ => some (a.toNat :: maskSource k, [d.toNat])
  | .vfmin d a b k _ s => some (a.toNat :: vbForm s b ++ maskSource k, [d.toNat])
  | .vfmax d a b k _ s => some (a.toNat :: vbForm s b ++ maskSource k, [d.toNat])
  | .vfrcp d a k _ => some (a.toNat :: maskSource k, [d.toNat])
  | .vfrsq d a k _ => some (a.toNat :: maskSource k, [d.toNat])
  | .vfexp2 d a k _ => some (a.toNat :: maskSource k, [d.toNat])
  | .vflog2 d a k _ => some (a.toNat :: maskSource k, [d.toNat])
  | .vfsgn d a b k _ _ => some (a.toNat :: b.toNat :: maskSource k, [d.toNat])
  | .vcmp d _ s a b k _ _ => some (a.toNat :: vbForm s b ++ maskSource k, [64 + d.toNat])
  | .vfcmp d s a b k _ _ => some (a.toNat :: vbForm s b ++ maskSource k, [64 + d.toNat])
  | .kop d a b _ => some ([64 + a.toNat, 64 + b.toNat], [64 + d.toNat])
  | .kpop _ a k => some ((64 + a.toNat) :: maskSource k, [])
  | .kfirst _ a k => some ((64 + a.toNat) :: maskSource k, [])
  | .kmov d a => some ([64 + a.toNat], [64 + d.toNat])
  | .vmovx d a k _ y => some ((if y = 1 then [a.toNat] else []) ++ maskSource k, if y = 1 then [] else [d.toNat])
  | .vcvt d a _ k _ => some (a.toNat :: maskSource k, [d.toNat])
  | .vnarrow d a _ k _ => some (2 * a.toNat :: (2 * a.toNat + 1) :: maskSource k, [d.toNat])
  | .vwiden d a _ k _ => some (a.toNat :: maskSource k, [2 * d.toNat, 2 * d.toNat + 1])
  | .vmerge d a b k s => some (a.toNat :: vbForm s b ++ maskSource k, [d.toNat])
  | .vperm d a b k _ => some (a.toNat :: b.toNat :: maskSource k, [d.toNat])
  | .vslide d a _ k _ _ => some (a.toNat :: maskSource k, [d.toNat])
  | .vcompress d a k _ => some (a.toNat :: maskSource k, [d.toNat])
  | .vexpand d a k _ => some (a.toNat :: maskSource k, [d.toNat])
  | .viota d k _ => some (maskSource k, [d.toNat])
  | .vbcast d a _ k _ f => some ((if f = 1 then [a.toNat] else []) ++ maskSource k, [d.toNat])
  | .vext _ a _ => some ([a.toNat], [])
  | .vins d _ _ => some ([d.toNat], [d.toNat])
  | .vredsum _ a _ k => some (a.toNat :: maskSource k, [])
  | .vredmax _ a _ k _ => some (a.toNat :: maskSource k, [])
  | .vredmin _ a _ k _ => some (a.toNat :: maskSource k, [])
  | .vfredsum _ a _ k => some (a.toNat :: maskSource k, [])
  | .vfredmax _ a _ k => some (a.toNat :: maskSource k, [])
  | .vredseq _ a _ k => some (a.toNat :: maskSource k, [])
  | .vtmul d a b k _ _ => some (a.toNat :: b.toNat :: maskSource k, [d.toNat])
  | .vtconj d a k _ _ _ => some (a.toNat :: maskSource k, [d.toNat])
  | .vld d _ b k _ m => some ((if m = 2 then [b.toNat] else []) ++ maskSource k, [d.toNat])
  | .vldRaw d _ b k _ m => some ((if m = 2 then [b.toNat] else []) ++ maskSource k, [d.toNat])
  | .vst d _ b k m => some (d.toNat :: (if m = 2 then [b.toNat] else []) ++ maskSource k, [])
  | .vstRaw d _ b k m => some (d.toNat :: (if m = 2 then [b.toNat] else []) ++ maskSource k, [])
  | _ => none

/-- A producer of R61's table with a chain latency. -/
def chainedOnto : Instr → Bool
  | .vfdiv _ _ _ _ _ _ => false
  | .vfsqrt _ _ _ _ => false
  | .vfrcp _ _ _ _ => false
  | .vfrsq _ _ _ _ => false
  | .vfexp2 _ _ _ _ => false
  | .vflog2 _ _ _ _ => false
  | .vtmul _ _ _ _ _ _ => false
  | .vld _ _ _ _ _ _ => false
  | .vldRaw _ _ _ _ _ _ => false
  | i => (vecUses i).isSome
/-- The register a dynamic number names, if it is one (R64). -/
def dynamicReg (h : Hart) (r : BitVec 6) : List Nat :=
  let n := (h.rs r).toNat % 64
  if n < 48 then [n] else []
/-- What an instruction reads and writes where it stands among convoys, dynamic registers too; none for one that waits until
every convoy before it is complete. -/
def convoyUses (h : Hart) : Instr → Option (List Nat × List Nat)
  | .vmovx d a k _ y =>
    if y = 1 then some (a.toNat :: maskSource k, dynamicReg h d) else some (dynamicReg h a ++ maskSource k, [d.toNat])
  | .vldff d _ b k _ m => some ((if m = 2 then [b.toNat] else []) ++ maskSource k, [d.toNat])
  | .vldffRaw d _ b k _ m => some ((if m = 2 then [b.toNat] else []) ++ maskSource k, [d.toNat])
  | .mtree d a _ => some ([a.toNat], [64 + d.toNat])
  | .mrow _ a _ _ _ x _ => some (if x = 1 then dynamicReg h a else [a.toNat], [])
  | .mwr _ a _ _ x _ => some (if x = 1 then dynamicReg h a else [a.toNat], [])
  | .mrd _ a _ _ x _ => some ([], if x = 1 then dynamicReg h a else [a.toNat])
  | .mclr _ _ _ => some ([], [])
  | .wsel _ => some ([], [])
  | i => vecUses i

/-- An element-wise instruction, which can stop at an element-group boundary (R417, R433). -/
def elementWise : Instr → Bool
  | .vnarrow _ _ _ _ _ => false
  | .vwiden _ _ _ _ _ => false
  | .vperm _ _ _ _ _ => false
  | .vslide _ _ _ _ _ _ => false
  | .vcompress _ _ _ _ => false
  | .vexpand _ _ _ _ => false
  | .viota _ _ _ => false
  | .vbcast _ _ _ _ _ _ => false
  | .vext _ _ _ => false
  | .vins _ _ _ => false
  | .vredsum _ _ _ _ => false
  | .vredmax _ _ _ _ _ => false
  | .vredmin _ _ _ _ _ => false
  | .vfredsum _ _ _ _ => false
  | .vfredmax _ _ _ _ => false
  | .vredseq _ _ _ _ => false
  | .kop _ _ _ _ => false
  | .kpop _ _ _ => false
  | .kfirst _ _ _ => false
  | .kmov _ _ => false
  | i => (vecUses i).isSome

end Sys2Proof.Machine
end

