-- ==== Sys2Proof/Machine/Flags.lean ====
section
/-! DEFINITION. Every flag computation the spec gives: floating formats, rounding, NaNs and FFLAGS (06 R134 to R141),
the conversions (22 to 24, R407, R138), and the exact operations behind the scalar and vector float instructions
(R406, R426). A value is computed exactly, or to many more bits than a format holds with a mark that it is inexact,
and rounded once. -/

namespace Sys2Proof.Machine

/-! ## Flags (R139) -/

abbrev Flags := BitVec 5
def fInvalid : Flags := 16
def fDivZero : Flags := 8
def fOverflow : Flags := 4
def fUnderflow : Flags := 2
def fInexact : Flags := 1

/-- OR into FFLAGS, which is sticky. -/
def Hart.orFlags (h : Hart) (f : Flags) : Hart := { h with fflags := h.fflags ||| f }

/-! ## Formats (R134) -/

inductive Fmt where
  | f8e4 | f8e5 | f16 | bf16 | f32 | f64
  deriving DecidableEq, Repr

/-- Exponent bits. -/
def Fmt.ebits : Fmt → Nat
  | .f8e4 => 4 | .f8e5 => 5 | .f16 => 5 | .bf16 => 8 | .f32 => 8 | .f64 => 11
/-- Fraction bits. -/
def Fmt.fbits : Fmt → Nat
  | .f8e4 => 3 | .f8e5 => 2 | .f16 => 10 | .bf16 => 7 | .f32 => 23 | .f64 => 52
def Fmt.bits (f : Fmt) : Nat := 1 + f.ebits + f.fbits
def Fmt.bias (f : Fmt) : Nat := 2 ^ (f.ebits - 1) - 1
/-- The all-ones exponent field. -/
def Fmt.emax (f : Fmt) : Nat := 2 ^ f.ebits - 1
/-- The largest finite pattern without its sign. -/
def Fmt.maxFinite (f : Fmt) : Nat := if f = .f8e4 then 0x7E else f.emax * 2 ^ f.fbits - 1
/-- The pattern of +∞ (f8e4 has none). -/
def Fmt.infBits (f : Fmt) : Nat := f.emax * 2 ^ f.fbits
def Fmt.signBit (f : Fmt) : Nat := 2 ^ (f.bits - 1)
/-- The floating format of an element type. -/
def ET.fmt : ET → Fmt
  | .f16 => .f16 | .bf16 => .bf16 | .f64 => .f64 | _ => .f32

/-- A floating value: a NaN with its sign, quietness and bits below the quiet bit; an infinity; a number
± m · 2 ^ e. -/
inductive Num where
  | nan (neg quiet : Bool) (payload : Nat)
  | inf (neg : Bool)
  | fin (neg : Bool) (m : Nat) (e : Int)
  deriving DecidableEq, Repr

/-- The value of a pattern (R134, R135); an E4M3 NaN counts as quiet with cause 1 (R141). -/
def Fmt.decode (f : Fmt) (x : Nat) : Num :=
  let neg := bitsAt x (f.bits - 1) 1 == 1
  let ex := bitsAt x f.fbits f.ebits
  let fr := bitsAt x 0 f.fbits
  if f = .f8e4 && ex = 15 && fr = 7 then .nan neg true 1
  else if f ≠ .f8e4 && ex = f.emax then
    if fr = 0 then .inf neg else .nan neg (bitsAt fr (f.fbits - 1) 1 == 1) (bitsAt fr 0 (f.fbits - 1))
  else if ex = 0 then .fin neg fr (1 - (f.bias : Int) - f.fbits)
  else .fin neg (fr + 2 ^ f.fbits) ((ex : Int) - f.bias - f.fbits)

def Fmt.sign (f : Fmt) (neg : Bool) : Nat := if neg then f.signBit else 0

/-- A NaN in a format (R140, R141). -/
def Fmt.encodeNan (f : Fmt) (neg quiet : Bool) (payload : Nat) : Nat :=
  f.sign neg + (if f = .f8e4 then 0x7F
    else f.infBits + (if quiet then 2 ^ (f.fbits - 1) else 0) + payload % 2 ^ (f.fbits - 1))
/-- A NaN the machine generates: quiet, sign 0, the cause in the low bits (R140). -/
def Fmt.genNan (f : Fmt) (cause : Nat) : Nat := f.encodeNan false true cause

/-- Bits of a number. -/
def bitLen (m : Nat) : Nat := if m = 0 then 0 else Nat.log2 m + 1

/-! ## Rounding (R137, R139) -/

/-- Rounding ± (m · 2^e, with a bit of `sticky` for what lies above m) to a multiple of 2^q: the multiple, and whether
it is inexact. With `sticky`, q is above e. -/
def roundQuantum (md : Frm) (neg : Bool) (m : Nat) (e : Int) (sticky : Bool) (q : Int) : Nat × Bool :=
  if q ≤ e then (m <<< (e - q).toNat, sticky)
  else
    let sh := (q - e).toNat
    let k := m >>> sh
    let r := m % 2 ^ sh
    let half := 2 ^ (sh - 1)
    let inexact := r != 0 || sticky
    let up := match md with
      | .rne => r > half || (r == half && (sticky || k % 2 == 1))
      | .rtz => false
      | .rdn => neg && inexact
      | .rup => !neg && inexact
    (k + (if up then 1 else 0), inexact)

/-- What an overflow delivers (R137). -/
def Fmt.overflowBits (f : Fmt) (md : Frm) (neg : Bool) : Nat :=
  let toInf := match md with
    | .rne => true | .rtz => false | .rdn => neg | .rup => !neg
  f.sign neg + (if toInf && f ≠ .f8e4 then f.infBits else f.maxFinite)

/-- `round_mode` (R137): an exact or sticky real to a format, with its flags (R139). -/
def Fmt.round (f : Fmt) (md : Frm) (neg : Bool) (m : Nat) (e : Int) (sticky : Bool) : Nat × Flags :=
  if m = 0 then (f.sign neg, 0)
  else
    let emin : Int := 1 - f.bias
    let ex : Int := e + (bitLen m : Int) - 1
    let qn : Int := ex - f.fbits
    let q : Int := max qn (emin - f.fbits)
    let (k, nx) := roundQuantum md neg m e sticky q
    -- tininess is judged after rounding with an unbounded exponent
    let tiny := ex < emin && (let (u, _) := roundQuantum md neg m e sticky qn; !(ex + 1 = emin && u = 2 ^ (f.fbits + 1)))
    -- the pattern: fraction and exponent field carry into each other
    let pat : Nat := if k < 2 ^ f.fbits then k else ((q - (emin - f.fbits)).toNat) * 2 ^ f.fbits + k
    if f.maxFinite < pat then (f.overflowBits md neg, fOverflow ||| fInexact)
    else (f.sign neg + pat, (if nx then fInexact else 0) ||| (if tiny && nx then fUnderflow else 0))

/-- A sum of two exact reals, exact. -/
def addExact (md : Frm) (n1 : Bool) (m1 : Nat) (e1 : Int) (n2 : Bool) (m2 : Nat) (e2 : Int) : Bool × Nat × Int :=
  let e := min e1 e2
  let a := m1 <<< (e1 - e).toNat
  let b := m2 <<< (e2 - e).toNat
  if n1 = n2 then (n1, a + b, e)
  else if a = b then ((md = .rdn : Bool), 0, e)
  else if a > b then (n1, a - b, e)
  else (n2, b - a, e)

/-! ## NaN operands (R141) -/

/-- The first NaN of the operands, made quiet, and invalid for any signalling one. -/
def nanOf (f : Fmt) : List Num → Option (Nat × Flags)
  | xs =>
    let snan := xs.any (fun x => match x with | .nan _ q _ => !q | _ => false)
    match xs.find? (fun x => match x with | .nan _ _ _ => true | _ => false) with
    | some (.nan n _ p) => some (f.encodeNan n true p, if snan then fInvalid else 0)
    | _ => none

/-- The machine's own NaN, with invalid. -/
def gen (f : Fmt) (cause : Nat) : Nat × Flags := (f.genNan cause, fInvalid)

/-- A bit pattern with its sign inverted. -/
def Num.neg : Num → Num
  | .nan n q p => .nan n q p
  | .inf n => .inf !n
  | .fin n m e => .fin (!n) m e

/-! ## The operations (R406, R426) -/

/-- a + b of values without a NaN. -/
def addNum (f : Fmt) (md : Frm) : Num → Num → Nat × Flags
  | .inf a, .inf b => if a = b then (f.sign a + f.infBits, 0) else gen f 3
  | .inf a, _ => (f.sign a + f.infBits, 0)
  | _, .inf b => (f.sign b + f.infBits, 0)
  | .fin n1 m1 e1, .fin n2 m2 e2 =>
    let (n, m, e) := addExact md n1 m1 e1 n2 m2 e2
    f.round md n m e false
  | _, _ => (0, 0)

def fAdd (f : Fmt) (md : Frm) (a b : Nat) : Nat × Flags :=
  let x := f.decode a
  let y := f.decode b
  (nanOf f [x, y]).getD (addNum f md x y)
/-- a − b; a NaN b keeps its own sign. -/
def fSub (f : Fmt) (md : Frm) (a b : Nat) : Nat × Flags :=
  let x := f.decode a
  let y := f.decode b
  (nanOf f [x, y]).getD (addNum f md x y.neg)

/-- a · b of values without a NaN, not rounded: none for 0 · ∞. -/
def mulNum : Num → Num → Option Num
  | .inf a, .inf b => some (.inf (a != b))
  | .inf a, .fin b m _ => if m = 0 then none else some (.inf (a != b))
  | .fin a m _, .inf b => if m = 0 then none else some (.inf (a != b))
  | .fin a m e, .fin b n e' => some (.fin (a != b) (m * n) (e + e'))
  | x, _ => some x

/-- A value delivered in a format. -/
def deliver (f : Fmt) (md : Frm) : Num → Nat × Flags
  | .nan n _ p => (f.encodeNan n true p, 0)
  | .inf n => (f.sign n + f.infBits, 0)
  | .fin n m e => f.round md n m e false

def fMul (f : Fmt) (md : Frm) (a b : Nat) : Nat × Flags :=
  let x := f.decode a
  let y := f.decode b
  (nanOf f [x, y]).getD (match mulNum x y with | none => gen f 4 | some p => deliver f md p)

/-- (ng ? −1 : 1) · a · b + c with one rounding; NaN order a, b, c (R426). -/
def fMa (f : Fmt) (md : Frm) (ng : Bool) (a b c : Nat) : Nat × Flags :=
  let x := f.decode a
  let y := f.decode b
  let z := f.decode c
  (nanOf f [x, y, z]).getD
    (match mulNum x y with
     | none => gen f 4
     | some p => addNum f md (if ng then p.neg else p) z)

/-- Bits to which a quotient or a root is formed, many more than any format's. -/
def workBits : Nat := 256

/-- m1 · 2^e1 / (m2 · 2^e2), with its sticky mark. -/
def quotient (m1 : Nat) (e1 : Int) (m2 : Nat) (e2 : Int) : Nat × Int × Bool :=
  let n := m1 <<< workBits
  (n / m2, e1 - e2 - workBits, n % m2 != 0)

def divNum (f : Fmt) (md : Frm) : Num → Num → Nat × Flags
  | .inf _, .inf _ => gen f 5
  | .inf a, .fin b _ _ => (f.sign (a != b) + f.infBits, 0)
  | .fin a _ _, .inf b => (f.sign (a != b), 0)
  | .fin a m e, .fin b n e' =>
    if n = 0 then if m = 0 then gen f 5 else (f.sign (a != b) + f.infBits, fDivZero)
    else
      let (q, x, st) := quotient m e n e'
      f.round md (a != b) q x st
  | _, _ => (0, 0)
def fDiv (f : Fmt) (md : Frm) (a b : Nat) : Nat × Flags :=
  let x := f.decode a
  let y := f.decode b
  (nanOf f [x, y]).getD (divNum f md x y)

/-- The integer square root by its bits from bit `n` down. -/
def isqrtBits (x : Nat) : Nat → Nat → Nat
  | 0, r => if (r + 1) * (r + 1) ≤ x then r + 1 else r
  | n + 1, r => isqrtBits x n (if (r + 2 ^ (n + 1)) * (r + 2 ^ (n + 1)) ≤ x then r + 2 ^ (n + 1) else r)
def isqrt (x : Nat) : Nat := isqrtBits x (bitLen x / 2 + 1) 0

/-- √(m · 2^e), with its sticky mark. -/
def rootOf (m : Nat) (e : Int) : Nat × Int × Bool :=
  let odd := e % 2 ≠ 0
  let n := (if odd then m * 2 else m) <<< (2 * workBits)
  let e' := (if odd then e - 1 else e) / 2 - workBits
  let r := isqrt n
  (r, e', r * r != n)

def fSqrt (f : Fmt) (md : Frm) (a : Nat) : Nat × Flags :=
  let x := f.decode a
  (nanOf f [x]).getD
    (match x with
     | .inf n => if n then gen f 6 else (f.infBits, 0)
     | .fin n m e =>
       if m = 0 then (f.sign n, 0)
       else if n then gen f 6
       else
         let (r, e', st) := rootOf m e
         f.round md false r e' st
     | _ => (0, 0))

/-- 1 / a (VFRCP). -/
def fRcp (f : Fmt) (md : Frm) (a : Nat) : Nat × Flags :=
  let x := f.decode a
  (nanOf f [x]).getD (divNum f md (.fin false 1 0) x)

/-- 1 / √a (VFRSQ): the root of the reciprocal, both to many bits. -/
def fRsq (f : Fmt) (md : Frm) (a : Nat) : Nat × Flags :=
  let x := f.decode a
  (nanOf f [x]).getD
    (match x with
     | .inf n => if n then gen f 6 else (0, 0)
     | .fin n m e =>
       if m = 0 then (f.sign n + f.infBits, fDivZero)
       else if n then gen f 6
       else
         -- 1/√x to the bit: the largest r with r² · x ≤ 2^(2w), x scaled to an even exponent
         let odd := e % 2 ≠ 0
         let mm := if odd then m * 2 else m
         let ee := (if odd then e - 1 else e) / 2
         let n2 := 2 ^ (4 * workBits)
         let r := isqrt (n2 / mm)
         f.round md false r (-ee - 2 * workBits) (r * r * mm != n2)
     | _ => (0, 0))

/-! ### Powers and logarithms, correctly rounded (R426) -/

/-- Fraction bits carried for 2^a and log₂ a. -/
def transBits : Nat := 320

/-- 2^(0.b₁b₂…) from below, scaled by 2^w: bit i contributes the factor 2^(2^−i), each the root of the last. -/
def exp2Frac (w : Nat) (frac : Nat) : Nat → Nat → Nat → Nat
  | 0, _, acc => acc
  | n + 1, c, acc =>
    let c' := isqrt (c <<< w)
    exp2Frac w frac n c' (if bitsAt frac n 1 = 1 then (acc * c') >>> w else acc)

def fExp2 (f : Fmt) (md : Frm) (a : Nat) : Nat × Flags :=
  let x := f.decode a
  (nanOf f [x]).getD
    (match x with
     | .inf n => if n then (0, 0) else (f.infBits, 0)
     | .fin neg m e =>
       if m = 0 then f.round md false 1 0 false
       else if 20 ≤ e + bitLen m then f.round md false 1 (if neg then -1000000 else 1000000) true
       else
         -- a = n + frac / 2^t, 0 ≤ frac < 2^t; frac is cut to transBits bits
         let t := (-e).toNat
         let s : Int := if neg then -(m <<< e.toNat : Nat) else (m <<< e.toNat : Nat)
         let n : Int := s / (2 ^ t : Nat)
         let fr : Nat := (s % (2 ^ t : Nat)).toNat
         if fr = 0 then f.round md false 1 n false
         else
           let cut := if transBits < t then fr >>> (t - transBits) else fr <<< (transBits - t)
           let p := exp2Frac (transBits + 32) cut transBits (2 ^ (transBits + 33)) (2 ^ (transBits + 32))
           -- the low bits carry the error of the cuts
           f.round md false (p >>> 64) (n - (transBits + 32 - 64)) true
     | _ => (0, 0))

/-- Bits of log₂ of y / 2^w in [1, 2), from the highest down: squaring doubles the logarithm. -/
def log2Bits (w : Nat) : Nat → Nat → Nat → Nat
  | 0, _, acc => acc
  | n + 1, y, acc =>
    let y2 := (y * y) >>> w
    if 2 ^ (w + 1) ≤ y2 then log2Bits w n (y2 / 2) (2 * acc + 1) else log2Bits w n y2 (2 * acc)

def fLog2 (f : Fmt) (md : Frm) (a : Nat) : Nat × Flags :=
  let x := f.decode a
  (nanOf f [x]).getD
    (match x with
     | .inf n => if n then gen f 6 else (f.infBits, 0)
     | .fin neg m e =>
       if m = 0 then (f.sign true + f.infBits, fDivZero)
       else if neg then gen f 6
       else
         let l := bitLen m - 1
         let ex : Int := e + l
         if m = 2 ^ l then f.round md (ex < 0) ex.natAbs 0 false
         else
           let w := 2 * transBits
           let fr := log2Bits w transBits (m <<< (w - l)) 0
           if 0 ≤ ex then f.round md false ((ex.toNat <<< transBits) + fr) (-transBits) true
           else f.round md true (((-ex).toNat <<< transBits) - fr - 1) (-transBits) true
     | _ => (0, 0))

/-! ### Minima, maxima, comparisons and signs -/

/-- a < b of values without a NaN; −0 counts below +0 when `zeros`. -/
def numLt (zeros : Bool) : Num → Num → Bool
  | .inf a, .inf b => a && !b
  | .inf a, _ => a
  | _, .inf b => !b
  | .fin n1 m1 e1, .fin n2 m2 e2 =>
    if m1 = 0 && m2 = 0 then zeros && n1 && !n2
    else
      let e := min e1 e2
      let a : Int := if n1 then -(m1 <<< (e1 - e).toNat : Nat) else (m1 <<< (e1 - e).toNat : Nat)
      let b : Int := if n2 then -(m2 <<< (e2 - e).toNat : Nat) else (m2 <<< (e2 - e).toNat : Nat)
      a < b
  | _, _ => false
def isNan : Num → Bool
  | .nan _ _ _ => true
  | _ => false
def isSnan : Num → Bool
  | .nan _ q _ => !q
  | _ => false

/-- The smaller (mx = false) or the larger; −0 below +0 (R406, R426). -/
def fMinMax (f : Fmt) (mx : Bool) (a b : Nat) : Nat × Flags :=
  let x := f.decode a
  let y := f.decode b
  (nanOf f [x, y]).getD (if numLt true x y = mx then (b, 0) else (a, 0))

/-- Comparisons: 0 eq, 1 lt, 2 le, 3 un, 4 ne (R406, R422). -/
def fCmp (f : Fmt) (cc : Nat) (a b : Nat) : Bool × Flags :=
  let x := f.decode a
  let y := f.decode b
  let anyNan := isNan x || isNan y
  let inv : Flags := if isSnan x || isSnan y || (anyNan && (cc = 1 || cc = 2)) then fInvalid else 0
  let lt := numLt false x y
  let eq := !lt && !(numLt false y x)
  let r := if anyNan then cc = 3 || cc = 4
    else if cc = 0 then eq else if cc = 1 then lt else if cc = 2 then lt || eq else if cc = 3 then false else !eq
  (r, inv)

/-- VFSGN (R426): bits only. -/
def fSgn (f : Fmt) (sg : Nat) (a b : Nat) : Nat :=
  let mag := a % f.signBit
  let sa := bitsAt a (f.bits - 1) 1
  let sb := bitsAt b (f.bits - 1) 1
  let s := if sg = 0 then sb else if sg = 1 then 1 - sb else (sa + sb) % 2
  s * f.signBit + mag

/-! ## Conversions (R138, R141, R407) -/

/-- Between two different floating formats (R141): a NaN keeps its sign and its low payload bits, quiet. -/
def fConvert (src dst : Fmt) (md : Frm) (a : Nat) : Nat × Flags :=
  if src = dst then (a, 0)
  else
    match src.decode a with
    | .nan n q p => (dst.encodeNan n true p, if q then 0 else fInvalid)
    | .inf n => if dst = .f8e4 then (dst.sign n + dst.maxFinite, fOverflow ||| fInexact) else (dst.sign n + dst.infBits, 0)
    | .fin n m e => dst.round md n m e false
/-- A store to an f8e4 page, the copy engine and MRD saturate at ±448 with overflow and inexact (R152) (DEDUCED, log
19). -/
def fStoreConvert (src dst : Fmt) (a : Nat) : Nat × Flags :=
  let (r, fl) := fConvert src dst .rne a
  if dst = .f8e4 && (match src.decode a with | .fin _ m e => decide (448 * (2 ^ (-e).toNat : Nat) < m * 2 ^ e.toNat) | _ => false)
  then (r, fl ||| fOverflow ||| fInexact) else (r, fl)

/-- The signed value of `w` bits. -/
def toSigned (w x : Nat) : Int := if 2 ^ (w - 1) ≤ x % 2 ^ w then (x % 2 ^ w : Nat) - (2 ^ w : Nat) else (x % 2 ^ w : Nat)
/-- The bits of an integer, modulo 2^w. -/
def ofInt (w : Nat) (x : Int) : Nat := (x % (2 ^ w : Nat)).toNat

/-- A real rounded to an integer under a mode: magnitude and whether it is inexact. -/
def roundInt (md : Frm) (neg : Bool) (m : Nat) (e : Int) : Nat × Bool := roundQuantum md neg m e false 0

/-- A float to a signed integer of `w` bits (R138). -/
def fToInt (src : Fmt) (w : Nat) (md : Frm) (a : Nat) : Nat × Flags :=
  let top := 2 ^ (w - 1)
  match src.decode a with
  | .nan _ _ _ => (0, fInvalid)
  | .inf n => (if n then top else top - 1, fInvalid)
  | .fin n m e =>
    let (k, nx) := roundInt md n m e
    if n then if top < k then (top, fInvalid) else (ofInt w (-(k : Int)), if nx then fInexact else 0)
    else if top ≤ k then (top - 1, fInvalid) else (k, if nx then fInexact else 0)

/-- An integer to a float. -/
def fOfInt (dst : Fmt) (md : Frm) (x : Int) : Nat × Flags := dst.round md (x < 0) x.natAbs 0 false

def ET.bits (t : ET) : Nat := 8 * t.bytes

/-- `convert` of R407 on bit patterns. -/
def convert (st dt : ET) (md : Frm) (x : Nat) : Nat × Flags :=
  if st = dt then (x % 2 ^ st.bits, 0)
  else if st.isFloat then
    if dt.isFloat then fConvert st.fmt dt.fmt md x else fToInt st.fmt dt.bits md x
  else if dt.isFloat then fOfInt dt.fmt md (toSigned st.bits x)
  else (ofInt dt.bits (toSigned st.bits x), 0)

end Sys2Proof.Machine
end

