-- ==== Sys2Proof/Machine/Scalar.lean ====
section
/-! DEFINITION. The scalar computational instructions (22 to 24: R341 to R344, R351, R352, R360, R368, R382, R384,
R389, R390, R398, R403, R408, R415, R451) and the scalar float group (R406, R407). -/

namespace Sys2Proof.Machine

/-- DIV's quotient (R368). -/
def divWord (u : BitVec 1) (a b : Word) : Word :=
  if b = 0 then BitVec.allOnes 64
  else if u = 1 then a / b
  else BitVec.sdiv a b

/-- REM's remainder (R398). -/
def remWord (u : BitVec 1) (a b : Word) : Word :=
  if b = 0 then a
  else if u = 1 then a % b
  else BitVec.srem a b

/-- The high half of the exact 128-bit product (R389). -/
def mulhWord (u : BitVec 1) (a b : Word) : Word :=
  if u = 1 then BitVec.ofNat 64 ((a.toNat * b.toNat) >>> 64)
  else BitVec.ofInt 64 ((a.toInt * b.toInt) / (2 ^ 64 : Int))

/-- Zero bits above the highest set bit (R360). -/
def clzWord (x : Word) : Nat := 64 - bitLen x.toNat
/-- Zero bits below the lowest set bit, among the bits from `i` up. -/
def ctzFrom (x : Word) : Nat → Nat → Nat
  | 0, i => i
  | n + 1, i => if x.getLsbD i then i else ctzFrom x n (i + 1)
/-- Set bits among the low `n`. -/
def popBits (x : Nat) : Nat → Nat
  | 0 => 0
  | n + 1 => x / 2 ^ n % 2 + popBits x n
def cntWord (k : BitVec 2) (x : Word) : Word :=
  BitVec.ofNat 64 (if k = 0 then clzWord x else if k = 1 then ctzFrom x 64 0 else popBits x.toNat 64)

/-- Unsigned or signed order (R384, R408). -/
def ltWord (u : BitVec 1) (a b : Word) : Bool := if u = 1 then a.ult b else a.slt b

def execAdd (d a b : BitVec 6) (s : State) : Out := .next (s.result d (s.rs a + s.rs b))
def execSub (d a b : BitVec 6) (s : State) : Out := .next (s.result d (s.rs a - s.rs b))
def execMul (d a b : BitVec 6) (s : State) : Out := .next (s.result d (s.rs a * s.rs b))
def execMulh (d a b : BitVec 6) (u : BitVec 1) (s : State) : Out := .next (s.result d (mulhWord u (s.rs a) (s.rs b)))
def execDiv (d a b : BitVec 6) (u : BitVec 1) (s : State) : Out := .next (s.result d (divWord u (s.rs a) (s.rs b)))
def execRem (d a b : BitVec 6) (u : BitVec 1) (s : State) : Out := .next (s.result d (remWord u (s.rs a) (s.rs b)))
def execAnd (d a b : BitVec 6) (s : State) : Out := .next (s.result d (s.rs a &&& s.rs b))
def execOr (d a b : BitVec 6) (s : State) : Out := .next (s.result d (s.rs a ||| s.rs b))
def execXor (d a b : BitVec 6) (s : State) : Out := .next (s.result d (s.rs a ^^^ s.rs b))
/-- Shift amounts come from bits [5:0] (R403). -/
def execShl (d a b : BitVec 6) (s : State) : Out := .next (s.result d (s.rs a <<< ((s.rs b).toNat % 64)))
def execShr (d a b : BitVec 6) (s : State) : Out := .next (s.result d (s.rs a >>> ((s.rs b).toNat % 64)))
def execSar (d a b : BitVec 6) (s : State) : Out := .next (s.result d ((s.rs a).sshiftRight ((s.rs b).toNat % 64)))
def execMin (d a b : BitVec 6) (u : BitVec 1) (s : State) : Out :=
  .next (s.result d (if ltWord u (s.rs b) (s.rs a) then s.rs b else s.rs a))
def execMax (d a b : BitVec 6) (u : BitVec 1) (s : State) : Out :=
  .next (s.result d (if ltWord u (s.rs a) (s.rs b) then s.rs b else s.rs a))
def execSlt (d a b : BitVec 6) (u : BitVec 1) (s : State) : Out :=
  .next (s.result d (if ltWord u (s.rs a) (s.rs b) then 1 else 0))
def execCnt (d a : BitVec 6) (k : BitVec 2) (s : State) : Out := .next (s.result d (cntWord k (s.rs a)))
def execAddi (d a : BitVec 6) (i : BitVec 13) (s : State) : Out := .next (s.result d (s.rs a + i.signExtend 64))
def execAndi (d a : BitVec 6) (i : BitVec 13) (s : State) : Out := .next (s.result d (s.rs a &&& i.signExtend 64))
def execOri (d a : BitVec 6) (i : BitVec 13) (s : State) : Out := .next (s.result d (s.rs a ||| i.signExtend 64))
def execXori (d a : BitVec 6) (i : BitVec 13) (s : State) : Out := .next (s.result d (s.rs a ^^^ i.signExtend 64))
def execShli (d a i : BitVec 6) (s : State) : Out := .next (s.result d (s.rs a <<< i.toNat))
def execShri (d a i : BitVec 6) (s : State) : Out := .next (s.result d (s.rs a >>> i.toNat))
def execSari (d a i : BitVec 6) (s : State) : Out := .next (s.result d ((s.rs a).sshiftRight i.toNat))
def execSlti (d a : BitVec 6) (i : BitVec 13) (s : State) : Out :=
  .next (s.result d (if (s.rs a).slt (i.signExtend 64) then 1 else 0))
/-- The 19-bit immediate times 2¹³, sign-extended (R88). -/
def upper (i : BitVec 19) : Word := (i ++ 0#13).signExtend 64
def execLih (d : BitVec 6) (i : BitVec 19) (s : State) : Out := .next (s.result d (upper i))
def execAddpc (d : BitVec 6) (i : BitVec 19) (s : State) : Out := .next (s.result d (s.hart.pc + upper i))

/-! ## Scalar float (R406, R407) -/

/-- The format of code p (R89). -/
def sfFmt (p : BitVec 2) : Fmt := if p = 0 then .f16 else if p = 1 then .bf16 else if p = 2 then .f32 else .f64
/-- An operand: the low bits of a register. -/
def sfArg (f : Fmt) (x : Word) : Nat := x.toNat % 2 ^ f.bits
/-- A floating result, zero-extended, with its flags ORed into FFLAGS. -/
def sfResult (s : State) (d : BitVec 6) (r : Nat × Flags) : State :=
  (s.withHart (s.hart.orFlags r.2)).result d (BitVec.ofNat 64 r.1)
def sf2 (op : Fmt → Frm → Nat → Nat → Nat × Flags) (p : BitVec 2) (d a b : BitVec 6) (s : State) : State :=
  sfResult s d (op (sfFmt p) s.hart.prog.frm (sfArg (sfFmt p) (s.rs a)) (sfArg (sfFmt p) (s.rs b)))

def execSfadd (d a b : BitVec 6) (p : BitVec 2) (s : State) : Out := .next (sf2 fAdd p d a b s)
def execSfsub (d a b : BitVec 6) (p : BitVec 2) (s : State) : Out := .next (sf2 fSub p d a b s)
def execSfmul (d a b : BitVec 6) (p : BitVec 2) (s : State) : Out := .next (sf2 fMul p d a b s)
def execSfdiv (d a b : BitVec 6) (p : BitVec 2) (s : State) : Out := .next (sf2 fDiv p d a b s)
/-- s[sd] is the addend, and NaN order is sa, sb, sd. -/
def execSfma (d a b : BitVec 6) (p : BitVec 2) (s : State) : Out :=
  .next (sfResult s d (fMa (sfFmt p) s.hart.prog.frm false (sfArg (sfFmt p) (s.rs a)) (sfArg (sfFmt p) (s.rs b))
    (sfArg (sfFmt p) (s.rs d))))
def execSfsqrt (d a : BitVec 6) (p : BitVec 2) (s : State) : Out :=
  .next (sfResult s d (fSqrt (sfFmt p) s.hart.prog.frm (sfArg (sfFmt p) (s.rs a))))
def execSfmm (d a b : BitVec 6) (p : BitVec 2) (x : BitVec 1) (s : State) : Out :=
  .next (sfResult s d (fMinMax (sfFmt p) (x = 1) (sfArg (sfFmt p) (s.rs a)) (sfArg (sfFmt p) (s.rs b))))
def execSfcmp (d a b : BitVec 6) (c p : BitVec 2) (s : State) : Out :=
  let r := fCmp (sfFmt p) c.toNat (sfArg (sfFmt p) (s.rs a)) (sfArg (sfFmt p) (s.rs b))
  .next (sfResult s d (if r.1 then 1 else 0, r.2))
/-- An integer result is written sign-extended (R406). -/
def execSfcvt (d a : BitVec 6) (st dt : BitVec 3) (s : State) : Out :=
  let dst := ET.ofCode dt.toNat
  let r := convert (ET.ofCode st.toNat) dst s.hart.prog.frm (sfArg .f64 (s.rs a) % 2 ^ (ET.ofCode st.toNat).bits)
  .next (sfResult s d (if dst.isFloat then r.1 else ofInt 64 (toSigned dst.bits r.1), r.2))

end Sys2Proof.Machine
end

