-- ==== Sys2Proof/Machine/Control.lean ====
section
/-! DEFINITION. Branches, jumps, STRIP, SPSET, SETVL and SETVLI (03 R55, R56; 22 to 24: R356, R357, R372, R373, R404,
R405, R409). -/

namespace Sys2Proof.Machine

/-- A branch's or jump's target: its own address + 4 × the offset (R75, R76). -/
def target {n : Nat} (pc : Word) (o : BitVec n) : Word := pc + 4 * o.signExtend 64
def State.branch (s : State) (p : Bool) (o : BitVec 13) : State :=
  if p then s.goto (target s.hart.pc o) else s.advance

def execBeq (a b : BitVec 6) (o : BitVec 13) (s : State) : Out := .next (s.branch (s.rs a == s.rs b) o)
def execBne (a b : BitVec 6) (o : BitVec 13) (s : State) : Out := .next (s.branch (s.rs a != s.rs b) o)
def execBlt (a b : BitVec 6) (o : BitVec 13) (s : State) : Out := .next (s.branch ((s.rs a).slt (s.rs b)) o)
def execBge (a b : BitVec 6) (o : BitVec 13) (s : State) : Out := .next (s.branch (!(s.rs a).slt (s.rs b)) o)
def execBltu (a b : BitVec 6) (o : BitVec 13) (s : State) : Out := .next (s.branch ((s.rs a).ult (s.rs b)) o)
def execBgeu (a b : BitVec 6) (o : BitVec 13) (s : State) : Out := .next (s.branch (!(s.rs a).ult (s.rs b)) o)

def execJal (d : BitVec 6) (o : BitVec 19) (s : State) : Out :=
  .next ((s.setS d (s.hart.pc + 4)).goto (target s.hart.pc o))
/-- A target that is no multiple of 4 raises ALIGN, kind exec, and links nothing (R373). -/
def execJalr (d a : BitVec 6) (i : BitVec 13) (s : State) : Out :=
  let t := s.rs a + i.signExtend 64
  if t.toNat % 4 = 0 then .next ((s.setS d (s.hart.pc + 4)).goto t)
  else .next (takeTrap s s.hart.id .align .exec t s.hart.pc s.hart.pc)

/-- The grant of R55 to a request, under the type at the scalar unit's place in program order. -/
def grant (s : State) (q : Nat) : Nat :=
  min (min q (vlmax s.hart.prog.et s.hart.lanes)) (capLen s s.hart s.hart.prog.et)
/-- A new VL takes its place in the vector queue (R405). -/
def State.setVl (s : State) (g : Nat) : State := s.withHart (s.hart.setVec (.vl g))
def execSetvl (d a : BitVec 6) (s : State) : Out :=
  .next ((s.setVl (grant s (s.rs a).toNat)).result d (BitVec.ofNat 64 (grant s (s.rs a).toNat)))
def execSetvli (d : BitVec 6) (i : BitVec 19) (s : State) : Out :=
  .next ((s.setVl (grant s i.toNat)).result d (BitVec.ofNat 64 (grant s i.toNat)))

def execSpset (a : BitVec 6) (s : State) : Out :=
  .next (s.withHart { s.hart with spdesc := (s.rs a).extractLsb' 0 32 }).advance

/-- One pointer descriptor's register advances by `vl` elements (R56); one that names s0 is unused. -/
def stripPointer (vl : Nat) (h : Hart) (p : Nat) : Hart :=
  let r := h.spdesc.extractLsb' (8 * p) 6
  let size := 2 ^ (h.spdesc.extractLsb' (8 * p + 6) 2).toNat
  h.setS r (h.rs r + BitVec.ofNat 64 (vl * size))
/-- STRIP (R56): the count is taken first, the pointers advance, the count is written last. -/
def stripped (a : BitVec 6) (o : BitVec 13) (s : State) : State :=
  let vl := s.hart.prog.vl
  let cnt : Int := (s.rs a).toInt - vl
  let h := ((List.range 4).foldl (stripPointer vl) s.hart).setS a (BitVec.ofInt 64 cnt)
  if 0 < cnt then ((s.withHart h).setVl (grant s cnt.toNat)).goto (target s.hart.pc o)
  else (s.withHart h).advance
/-- A queued VLDFF may still change VL, which STRIP and a CTLRD of VL await (R434). -/
def ffQueued (h : Hart) : Bool := !h.frozen && h.queue.any (fun e => ffWord e.word)
def execStrip (a : BitVec 6) (o : BitVec 13) (s : State) : Out :=
  .next (if ffQueued s.hart then s.withHart { s.hart with run := .waiting } else stripped a o s)

end Sys2Proof.Machine
end

