-- ==== Sys2Proof/Machine/ScalarMem.lean ====
section
/-! DEFINITION. The scalar memory instructions: LD and ST (R378, R379, R410, R411), and the strong accesses LDS, STS,
AMO and WAITVAL (11 R223 to R225, R228; R346 to R350, R380, R381, R413, R414, R445, R446). -/

namespace Sys2Proof.Machine

/-! ## LD and ST -/

/-- LD's access width by code (R378); code 7 is no instruction. -/
def ldWidth (z : BitVec 3) : Nat := 2 ^ (z.toNat % 4)
/-- A loaded number, sign-extended for codes 0 to 3 (R378). -/
def ldValue (z : BitVec 3) (x : Nat) : Word :=
  if z.toNat < 4 then BitVec.ofInt 64 (toSigned (8 * ldWidth z) x) else BitVec.ofNat 64 x

/-- LD: performed whole or not at all, with s0 performed and discarded. -/
def ldM (d a : BitVec 6) (o : BitVec 10) (z : BitVec 3) : M Unit := do
  let x ← hart
  let va := x.rs a + o.signExtend 64
  if va.toNat % ldWidth z ≠ 0 then trap .align .read va
  let bs ← loadM x.id va.toNat (ldWidth z)
  modify (fun s => s.result d (ldValue z (leNat bs)))
def execLd (d a : BitVec 6) (o : BitVec 10) (z : BitVec 3) (s : State) : Out := scalar (ldM d a o z) s

/-- ST: s0 stores zeros. -/
def stM (d a : BitVec 6) (o : BitVec 10) (z : BitVec 3) : M Unit := do
  let x ← hart
  let w := 2 ^ z.toNat
  let va := x.rs a + o.signExtend 64
  if va.toNat % w ≠ 0 then trap .align .write va
  storeM x.id va.toNat (leBytes w (x.rs d).toNat)
  nextInstr
def execSt (d a : BitVec 6) (o : BitVec 10) (z : BitVec 3) (s : State) : Out := scalar (stM d a o z) s

/-! ## Strong accesses -/

/-- Whether an access is to scratch, which takes no version counter and no record (R350). -/
def inScratch (ls : List Loc) : Bool :=
  match ls.head? with
  | some (.scr _) => true
  | _ => false

/-- A copy's claimed span holds an access to scratch (R213). -/
def scratchFree (h : Nat) (ls : List Loc) : M Unit := do
  let s ← get
  if scratchHeld (s.slot (s.hartOf h).slotId) ls then hold

/-- The bytes at home, and whether one is poisoned (R223). -/
def strongRead (h : Nat) (ls : List Loc) : M (List Byte × Option Nat) := do
  let s ← get
  let x := s.hartOf h
  reportM ls
  return (ls.map (locByteHome s x), ls.findIdx? (locBadHome s x))

/-- The line addresses of places in memory. -/
def lineAddrs (ls : List Loc) : List Nat := ls.filterMap (fun l => match l with | .phys a => some a | _ => none)

/-- The hart's own pending stores to bytes that a strong store is about to write go home before it (R218) (DEDUCED, log
16). -/
def bringHome (s : State) (h : Nat) (ls : List Loc) : State := olderHome h (s.hartOf h).stores (lineAddrs ls) s

/-- Bytes a hart stores at home, numbered from `n` on. -/
def storesOf (h n : Nat) (vec : Bool) : List (Nat × Byte) → List HStore
  | [] => []
  | p :: t => ⟨some ⟨h, n, if vec then none else some n, if vec then some n else none, none⟩, p.1, p.2⟩ :: storesOf h (n + 1) vec t

/-- A strong store, which takes its place at home at once and counts as released at its own cut (R218, R222), or is dropped
and recorded where stage 2 declined it (R253); one store unit (R296). A hart's strong accesses are performed in the order in which they issue, though relaxed ones have no
order among themselves (R223) (DESIGN CHOICE, log 76). -/
def strongWrite (h va : Nat) (vec : Bool) (ls : List Loc) (bs : List Byte) : M Unit := do
  let s ← get
  let x := s.hartOf h
  if inScratch ls then set (s.setSlot x.slotId (scratchStore (s.slot x.slotId) (scrPairs ls bs)))
  else
    reportM ls
    let c := ctxOf s x
    modify (dropDead (some h) c ls)
    modify (fun s => homeStore c (some (s.ctx c).cut) (bringHome s h ls) (storesOf h x.stores vec (physPairs ls bs)))
    modHartNo h (fun x => { x with stores := x.stores + bs.length })
  foldM h va bs

/-- Before a logged access to an object: its record, and at REPLAY the wait for its version (R302, R306). -/
def objectBegin (h ty va aux mask : Nat) (scr : Bool) : M (Option (Nat × Nat)) := do
  if scr then return none
  match ← logCheck h ty va aux mask with
  | none => return none
  | some p =>
    let (c, _) ← ctxM h
    if versionOf (← get) c va ≠ bitsAt p.2 96 32 then stall 2
    return some p

/-- After the access: the object's counter advances at RECORD and REPLAY, and the record is written or consumed (R302
to R304). -/
def objectEnd (h ty va aux : Nat) (v : Word) (scr : Bool) (r : Option (Nat × Nat)) : M Unit := do
  if scr then pure ()
  else
    let (c, x) ← ctxM h
    if x.strict then
      let ver := versionOf (← get) c va
      modify (fun s => versionBump s c va)
      logDone h ty va aux ver (vhash v).toNat r

/-- The value a record hashes differs from `v` (R307). -/
def hashAmiss (r : Option (Nat × Nat)) (v : Word) : Bool :=
  match r with
  | some p => bitsAt p.2 128 16 != (vhash v).toNat
  | none => false

/-- Divergence after a performed event: the hart stands at the next instruction (R307). -/
def divergeAfter (h : Nat) (r : Option (Nat × Nat)) (v : Word) (seq : BitVec 32) : M Unit := do
  if hashAmiss r v then diverge h 2 seq

/-- A wait for the hart's earlier vector accesses, but for a frozen queue before CLAIM (R225, R369) (DEDUCED, log 40).
-/
def drained : M Unit := do
  let x ← hart
  if !x.queue.isEmpty && !x.frozen then hold

/-- A 32-bit or 64-bit value read, and a register's operand at that width. -/
def atWidth (w : Nat) (x : Word) : Nat := x.toNat % 2 ^ (8 * w)

def ldsM (d a : BitVec 6) (q : BitVec 1) (z : BitVec 3) : M Unit := do
  let x ← hart
  let w := if z = 3 then 8 else 4
  let va := (x.rs a).toNat
  if va % w ≠ 0 then trap .align .read (x.rs a)
  let (ls, _) ← locateN x.id va w .read true
  scratchFree x.id ls
  let scr := inScratch ls
  let r ← objectBegin x.id 2 va (z.toNat % 4) 3 scr
  let (bs, bad) ← strongRead x.id ls
  match bad with
  | some i => trap .poison .read (poisonVal (va + i))
  | none => pure ()
  let v := BitVec.ofNat 64 (leNat bs)
  objectEnd x.id 2 va (z.toNat % 4) v scr r
  modify (fun s => s.setS d (if z = 2 then BitVec.ofInt 64 (toSigned 32 (leNat bs)) else v))
  if q = 1 then modify (fun s => acquireAt s x.id)
  nextInstr
  divergeAfter x.id r v x.logseq
/-- LDS: the scope `c` says for whom aq holds; every home is one point here, so each scope acts alike (DEDUCED, log 8). -/
def execLds (d a : BitVec 6) (_c : BitVec 2) (q : BitVec 1) (z : BitVec 3) (s : State) : Out :=
  scalar (ldsM d a q z) s

def stsM (d a : BitVec 6) (rl : BitVec 1) (z : BitVec 3) : M Unit := do
  let x ← hart
  let w := if z = 3 then 8 else 4
  let va := (x.rs a).toNat
  if va % w ≠ 0 then trap .align .write (x.rs a)
  let (ls, _) ← locateN x.id va w .write true
  scratchFree x.id ls
  let scr := inScratch ls
  if rl = 1 then drained
  let v := atWidth w (x.rs d)
  let r ← objectBegin x.id 3 va (z.toNat % 4) 3 scr
  if hashAmiss r (BitVec.ofNat 64 v) then diverge x.id 2 x.logseq
  if rl = 1 then modify (fun s => releaseAt s x.id)
  strongWrite x.id va false ls (leBytes w v)
  objectEnd x.id 3 va (z.toNat % 4) (BitVec.ofNat 64 v) scr r
  nextInstr
def execSts (d a : BitVec 6) (_c : BitVec 2) (r : BitVec 1) (z : BitVec 3) (s : State) : Out :=
  scalar (stsM d a r z) s

/-- The new value of an AMO at a width of `w` bytes (R228, R347); op 0 add, 1 and, 2 or, 3 xor, 4 min, 5 max, 6 minu,
7 maxu, 8 swap, 9 cas, 10 fadd (R91). -/
def amoCombine (op w old opd cmp : Nat) : Nat :=
  let n := 8 * w
  match op with
  | 0 => (old + opd) % 2 ^ n
  | 1 => old &&& opd
  | 2 => old ||| opd
  | 3 => old ^^^ opd
  | 4 => if toSigned n opd < toSigned n old then opd else old
  | 5 => if toSigned n old < toSigned n opd then opd else old
  | 6 => Nat.min old opd
  | 7 => Nat.max old opd
  | 8 => opd
  | 9 => if old = cmp then opd else old
  | _ => (fAdd .f32 .rne old opd).1

/-- One atomic read-modify-write at places already located (R228, R347): the old value. -/
def amoStep (h va : Nat) (ls : List Loc) (op w opd cmp : Nat) (r : Option (Nat × Nat)) : M Nat := do
  modify (fun s => bringHome s h ls)
  let (bs, bad) ← strongRead h ls
  match bad with
  | some i => trap .poison .read (poisonVal (va + i))
  | none => pure ()
  let old := leNat bs
  strongWrite h va false ls (leBytes w (amoCombine op w old opd cmp))
  objectEnd h 1 va (op ||| (w / 8) <<< 4) (BitVec.ofNat 64 old) (inScratch ls) r
  return old

def amoM (d a b : BitVec 6) (o : BitVec 4) (wd q rl : BitVec 1) : M Unit := do
  let x ← hart
  let w := if wd = 1 then 8 else 4
  let va := (x.rs a).toNat
  if va % w ≠ 0 then trap .align .write (x.rs a)
  let (ls, _) ← locateN x.id va w .write true
  scratchFree x.id ls
  if rl = 1 then drained
  let r ← objectBegin x.id 1 va (o.toNat ||| (w / 8) <<< 4) 0x1F (inScratch ls)
  if rl = 1 then modify (fun s => releaseAt s x.id)
  let old ← amoStep x.id va ls o.toNat w (atWidth w (x.rs b)) (atWidth w (x.rs d)) r
  modify (fun s => s.setS d (if wd = 1 then BitVec.ofNat 64 old else BitVec.ofInt 64 (toSigned 32 old)))
  if q = 1 then modify (fun s => acquireAt s x.id)
  nextInstr
  divergeAfter x.id r (BitVec.ofNat 64 old) x.logseq
def execAmo (_c : BitVec 2) (d a b : BitVec 6) (o : BitVec 4) (w q r : BitVec 1) (s : State) : Out :=
  scalar (amoM d a b o w q r) s

/-! ## WAITVAL -/

/-- WAITVAL's conditions (R445): 0 eq, 1 ne, 2 lt, 3 ge signed, 4 ltu, 5 geu. -/
def waitHolds (cc w x y : Nat) : Bool :=
  let n := 8 * w
  match cc with
  | 0 => x == y
  | 1 => x != y
  | 2 => decide (toSigned n x < toSigned n y)
  | 3 => decide (toSigned n y ≤ toSigned n x)
  | 4 => decide (x < y)
  | _ => decide (y ≤ x)

/-- What the line of a place holds, and whether it is poisoned. -/
def lineHeld (s : State) (h : Hart) (scr : Bool) (line : Nat) : Nat :=
  let ls : List Loc := (List.range 64).map (fun i => if scr then .scr (line * 64 + i) else .phys (line * 64 + i))
  leNat (ls.map (locByteHome s h)) + (if ls.any (locBadHome s h) then 2 ^ 512 else 0)

/-- WAITVAL (R445, R446): a read that meets its condition is the logged event; one that does not parks the hart on the
line. -/
def waitvalM (d a : BitVec 6) (q wd : BitVec 1) (cc : BitVec 3) : M Unit := do
  let x ← hart
  let w := if wd = 1 then 8 else 4
  let va := (x.rs a).toNat
  if va % w ≠ 0 then trap .align .read (x.rs a)
  let (ls, _) ← locateN x.id va w .read true
  scratchFree x.id ls
  let scr := inScratch ls
  let late := decide (logLevel (← get) x = some .record)
  let r ← if late then pure none else objectBegin x.id 4 va cc.toNat 7 scr
  let (bs, bad) ← strongRead x.id ls
  match bad with
  | some i => trap .poison .read (poisonVal (va + i))
  | none => pure ()
  let v := BitVec.ofNat 64 (leNat bs)
  if waitHolds cc.toNat w (leNat bs) (atWidth w (x.rs d)) then
    let r ← if late then objectBegin x.id 4 va cc.toNat 7 scr else pure r
    objectEnd x.id 4 va cc.toNat v scr r
    if q = 1 then modify (fun s => acquireAt s x.id)
    nextInstr
    divergeAfter x.id r v x.logseq
  else if r.isSome then diverge x.id 2 x.logseq
  else
    let s ← get
    match ls.head? with
    | some (.scr o) => throw (.park (.waitval true (o / 64) (lineHeld s x true (o / 64))))
    | some (.phys a) => throw (.park (.waitval false (a / 64) (lineHeld s x false (a / 64))))
    | _ => hold
def execWaitval (d a : BitVec 6) (_s : BitVec 2) (q w : BitVec 1) (c : BitVec 3) (st : State) : Out :=
  scalar (waitvalM d a q w c) st

end Sys2Proof.Machine
end

