-- ==== Sys2Proof/Machine/Operands.lean ====
section
/-! DEFINITION. Every operand form of the vector unit: elements, masks and the policy for inactive elements (03 R51 to
R59), captured scalar operands (03 R60, R64), poison of registers (15 R265), what an instruction stopped inside has
changed (03 R63), and the vector queue from which vector instructions run (03 R60, 15 R260, R265, 19 R313 to R316). -/

namespace Sys2Proof.Machine

/-! ## Elements (R51, R57, R58) -/

/-- Element `i`, `b` bytes wide, of a register's bytes. -/
def elemOf (v : BitVec 8192) (b i : Nat) : Nat := (v.extractLsb' (8 * b * i) (8 * b)).toNat
/-- A register with element `i` replaced. -/
def putElem (v : BitVec 8192) (b i x : Nat) : BitVec 8192 :=
  (v &&& ~~~(BitVec.ofNat 8192 (2 ^ (8 * b) - 1) <<< (8 * b * i))) |||
    (BitVec.ofNat 8192 (x % 2 ^ (8 * b)) <<< (8 * b * i))
/-- A register with the elements below `n` for which `f` answers replaced. -/
def putElems (b : Nat) (f : Nat → Option Nat) : Nat → BitVec 8192 → BitVec 8192
  | 0, v => v
  | n + 1, v =>
    match f n with
    | some x => putElem (putElems b f n v) b n x
    | none => putElems b f n v
/-- Poison bits after the elements below `n` for which `f` answers are written clean. -/
def cleanElems (b : Nat) (f : Nat → Option Nat) : Nat → BitVec 1024 → BitVec 1024
  | 0, p => p
  | n + 1, p =>
    match f n with
    | some _ => cleanElems b f n p &&& ~~~(BitVec.ofNat 1024 (2 ^ b - 1) <<< (b * n))
    | none => cleanElems b f n p

/-- Element `i` of vector register `r` at the width of an element type. -/
def Hart.elem (h : Hart) (r : Nat) (b i : Nat) : Nat := elemOf (h.vr r) b i
/-- Whether element `i` is governed as active by mask `k` (15: unmasked), below VL (R57). -/
def Hart.active (h : Hart) (k : BitVec 4) (i : Nat) : Bool :=
  decide (i < h.vl) && (k = 15 || (h.kr k.toNat).getLsbD i)
/-- Active and not below VSTART (R59). -/
def Hart.due (h : Hart) (k : BitVec 4) (i : Nat) : Bool := h.active k i && decide (h.vstart ≤ i)

/-- What R58 writes to element `i`: the result where active, zero where inactive under z = 1, nothing elsewhere. -/
def policy (h : Hart) (k : BitVec 4) (z : BitVec 1) (f : Nat → Nat) (i : Nat) : Option Nat :=
  if i < h.vstart then none
  else if h.active k i then some (f i)
  else if z = 1 then some 0 else none

/-- The bits a mask instruction may write (R53). -/
def Hart.maskBits (h : Hart) : BitVec 1024 := BitVec.ofNat 1024 (2 ^ (h.lanes * 256) - 1)
/-- A mask with the bits below `n` for which `f` answers replaced. -/
def putBits (f : Nat → Option Bool) : Nat → BitVec 1024 → BitVec 1024
  | 0, k => k
  | n + 1, k =>
    match f n with
    | some b => (putBits f n k &&& ~~~(1#1024 <<< n)) ||| (if b then 1#1024 <<< n else 0)
    | none => putBits f n k

/-- Elements for which a condition holds, below `n`, rising. -/
def indices (p : Nat → Bool) (n : Nat) : List Nat := (List.range n).filter p

/-! ## Registers' poison (R265) -/

/-- Whether element `i` of a register holds a poisoned byte. -/
def Hart.elemBad (h : Hart) (r b i : Nat) : Bool := (h.vpr r).extractLsb' (b * i) b != 0
/-- TRAPVAL of POISON of source 1 (R257). -/
def poisonReg : Word := 1 <<< 62
/-- POISON of a scalar register (R257). -/
def poisonScalar : Word := 3 <<< 62
/-! ## An instruction stopped inside (R36, R63, R157, R417) -/

/-- What the instruction at the head of the queue has changed so far. -/
def Hart.part (h : Hart) : Option Part := h.queue.head?.bind (·.note.part)
def Hart.setPart (h : Hart) (p : Option Part) : Hart :=
  match h.queue with
  | [] => h
  | e :: t => { h with queue := { e with note := { e.note with part := p } } :: t }
/-- The registers as they stood before the instruction (R63). -/
def Hart.unpart (h : Hart) : Hart :=
  match h.part with
  | none => h
  | some p =>
    let h1 := p.regs.foldl (fun h r => (h.setV r.1 r.2.1).setVp r.1 r.2.2) h
    (p.masks.foldl (fun h k => h.setK k.1 k.2) h1).setPart none
/-- The instruction has changed registers since `h0` and stops here; `table` is the version of its algebra table. -/
def Hart.holdPart (h0 h : Hart) (table : Option (List Byte)) : Hart :=
  let p := h.part.getD ⟨[], [], table⟩
  let regs := (List.range 48).filterMap (fun r =>
    if (h.vr r = h0.vr r && h.vpr r = h0.vpr r) || p.regs.any (·.1 == r) then none else some (r, h0.vr r, h0.vpr r))
  let masks := (List.range 12).filterMap (fun k =>
    if h.kr k = h0.kr k || p.masks.any (·.1 == k) then none else some (k, h0.kr k))
  h.setPart (some { p with regs := p.regs ++ regs, masks := p.masks ++ masks })
/-- Where bits of `new` differ from `old`, they; elsewhere those of `cur`. -/
def mergeBits {n : Nat} (old new cur : BitVec n) : BitVec n := (cur &&& ~~~(new ^^^ old)) ||| (new &&& (new ^^^ old))
/-- The rest of an instruction that has been stopped inside: its sources are read as they stood before it (R417), and what it
has written stays beside what it writes now. -/
def resumed (m : M Unit) : M Unit := do
  let h0 ← hart
  match h0.part with
  | none => m
  | some p =>
    setHartM (p.regs.foldl (fun h r => (h.setV r.1 r.2.1).setVp r.1 r.2.2) h0)
    let r ← attempt m
    modHart (fun h =>
      if h.part.isNone then h
      else p.regs.foldl (fun h r =>
        (h.setV r.1 (mergeBits r.2.1 (h.vr r.1) (h0.vr r.1))).setVp r.1 (mergeBits r.2.2 (h.vpr r.1) (h0.vpr r.1))) h)
    match r with
    | .ok _ => pure ()
    | .error e => throw e

/-- Consuming poison squashes the instruction: it traps with VSTART = 0 and nothing written; of a convoy of several the whole
(R265). -/
def squash {α : Type} (v : Word) : M α := do
  modHart (fun h => { h.unpart with vstart := 0 })
  trap .poison .read v
/-- A scalar register read at dispatch (R64, R65): poison in it is consumed as a vector instruction's is. -/
def lateReg (r : BitVec 6) : M Word := do
  let h ← hart
  if h.spBad r then squash poisonScalar else return h.rs r
/-- The registers and widths whose due elements an instruction consumes. -/
def consume (k : BitVec 4) (rs : List (Nat × Nat)) : M Unit := do
  let h ← hart
  if rs.any (fun p => h.vpr p.1 != 0 && (List.range h.vl).any (fun i => h.due k i && h.elemBad p.1 p.2 i)) then
    squash poisonReg
/-- The same for elements below `n` whatever the mask. -/
def consumeAll (n : Nat) (rs : List (Nat × Nat)) : M Unit := do
  let h ← hart
  if rs.any (fun p => h.vpr p.1 != 0 && (List.range n).any (fun i => h.elemBad p.1 p.2 i)) then squash poisonReg

/-- A dispatch check fails: ILLEGAL_OP with VSTART = 0 (R106). -/
def refuse {α : Type} (i : Instr) : M α := do
  modHart (fun h => { h with vstart := 0 })
  illegal i

/-! ## Writing results -/

/-- Writing elements of a register; what is written is clean. -/
def Hart.writeElems (h : Hart) (d b n : Nat) (f : Nat → Option Nat) : Hart :=
  let p := h.vpr d
  let h1 := h.setV d (putElems b f n (h.vr d))
  if p = 0 then h1 else h1.setVp d (cleanElems b f n p)
/-- Writing a mask (R53): bits past VLMAX(i8, n) become zero. -/
def Hart.writeMask (h : Hart) (d n : Nat) (f : Nat → Option Bool) : Hart :=
  h.setK d (putBits f n (h.kr d) &&& h.maskBits)

/-- Flags of a list of results. -/
def flagsOf (xs : List (Nat × Flags)) : Flags := xs.foldl (fun f x => f ||| x.2) 0

/-- An element-wise result at width `b` (R58, R417). -/
def Hart.mapElems (h : Hart) (d b : Nat) (k : BitVec 4) (z : BitVec 1) (f : Nat → Nat) : Hart :=
  h.writeElems d b h.vl (policy h k z f)

/-! ## Captured operands (R60, R64, R263) -/

/-- What an instruction of the vector queue has with it: its PC and the scalar operands captured when it was queued
(the sa field's, then the sb field's; DEDUCED, log 10). -/
structure Cap where
  pc : Word
  op1 : Word
  op2 : Word
  /-- The words a repeat frame has captured (R401). -/
  frame : List (BitVec 32)
  deriving DecidableEq, Repr

/-- The scalars an instruction captures; the number of an x form is read when it dispatches (R64). -/
def capOf (i : Instr) (h : Hart) : Word × Word :=
  match i with
  | .vadd _ _ b _ _ s => (0, if s = 1 then h.rs b else 0)
  | .vsub _ _ b _ _ s => (0, if s = 1 then h.rs b else 0)
  | .vmul _ _ b _ _ s => (0, if s = 1 then h.rs b else 0)
  | .vmulh _ _ b _ _ s _ => (0, if s = 1 then h.rs b else 0)
  | .vmin _ _ b _ _ s _ => (0, if s = 1 then h.rs b else 0)
  | .vmax _ _ b _ _ s _ => (0, if s = 1 then h.rs b else 0)
  | .vand _ _ b _ _ s => (0, if s = 1 then h.rs b else 0)
  | .vor _ _ b _ _ s => (0, if s = 1 then h.rs b else 0)
  | .vxor _ _ b _ _ s => (0, if s = 1 then h.rs b else 0)
  | .vshl _ _ b _ _ s => (0, if s = 1 then h.rs b else 0)
  | .vshr _ _ b _ _ s => (0, if s = 1 then h.rs b else 0)
  | .vsar _ _ b _ _ s => (0, if s = 1 then h.rs b else 0)
  | .vaddsat _ _ b _ _ s _ => (0, if s = 1 then h.rs b else 0)
  | .vsubsat _ _ b _ _ s _ => (0, if s = 1 then h.rs b else 0)
  | .vfadd _ _ b _ _ s => (0, if s = 1 then h.rs b else 0)
  | .vfsub _ _ b _ _ s => (0, if s = 1 then h.rs b else 0)
  | .vfmul _ _ b _ _ s => (0, if s = 1 then h.rs b else 0)
  | .vfma _ _ b _ _ s _ => (0, if s = 1 then h.rs b else 0)
  | .vfdiv _ _ b _ _ s => (0, if s = 1 then h.rs b else 0)
  | .vfmin _ _ b _ _ s => (0, if s = 1 then h.rs b else 0)
  | .vfmax _ _ b _ _ s => (0, if s = 1 then h.rs b else 0)
  | .vcmp _ _ s _ b _ _ _ => (0, if s = 1 then h.rs b else 0)
  | .vfcmp _ s _ b _ _ _ => (0, if s = 1 then h.rs b else 0)
  | .vmerge _ _ b _ s => (0, if s = 1 then h.rs b else 0)
  | .vslide _ _ b _ _ _ => (0, h.rs b)
  | .vbcast _ _ b _ _ _ => (0, h.rs b)
  | .vext _ _ b => (0, h.rs b)
  | .vins _ a b => (h.rs a, h.rs b)
  | .vredsum _ _ b _ => (0, h.rs b)
  | .vredmax _ _ b _ _ => (0, h.rs b)
  | .vredmin _ _ b _ _ => (0, h.rs b)
  | .vfredsum _ _ b _ => (0, h.rs b)
  | .vfredmax _ _ b _ => (0, h.rs b)
  | .vredseq _ _ b _ => (0, h.rs b)
  | .vld _ a b _ _ m => (h.rs a, if m = 1 then h.rs b else 0)
  | .vldRaw _ a b _ _ m => (h.rs a, if m = 1 then h.rs b else 0)
  | .vst _ a b _ m => (h.rs a, if m = 1 then h.rs b else 0)
  | .vstRaw _ a b _ m => (h.rs a, if m = 1 then h.rs b else 0)
  | .vldff _ a b _ _ m => (h.rs a, if m = 1 then h.rs b else 0)
  | .vldffRaw _ a b _ _ m => (h.rs a, if m = 1 then h.rs b else 0)
  | .mfix _ a => (h.rs a, 0)
  | .mtree _ _ b => (0, h.rs b)
  | .wld _ a b _ => (h.rs a, h.rs b)
  | .wldff _ a b _ => (h.rs a, h.rs b)
  | _ => (0, 0)

/-- A broadcast scalar's low bits at the element width, or element `i` of a register (DEDUCED, log 10). -/
def operand (h : Hart) (c : Cap) (s : BitVec 1) (r : BitVec 6) (b i : Nat) : Nat :=
  if s = 1 then c.op2.toNat % 2 ^ (8 * b) else h.elem r.toNat b i

/-! ## The vector queue (R60, R260, R315) -/

/-- A feature absent from the chain a context sees (R21): masked for its function (R252). -/
def ctxLacks (s : State) (c id : Nat) : Bool := bitsAt (s.fn (c / 64)).mask id 1 == 1
/-- A feature absent for the focus hart. -/
def absent (s : State) (id : Nat) : Bool := ctxLacks s (ctxOf s s.hart) id

/-- Whether a context runs in checked mode (R312): LCHK, and capability 0x0005 in its chain. -/
def ctxChecked (s : State) (c : Nat) : Bool := (s.ctx c).lchk && !ctxLacks s c 5
def checkedMode (s : State) : Bool := ctxChecked s (ctxOf s s.hart)

/-- A self-test holds a lane group of the focus hart, which issues nothing then (R315). -/
def laneBusy (s : State) : Bool :=
  s.liveHarts.any (fun x => x.core == s.hart.core &&
    match x.run with
    | .parked (.laneTest ts _) => ts.any (fun t => s.hart.lgown.getLsbD t.1)
    | _ => false)
/-- The instruction of a word, if it is one. -/
def wordInstr (w : BitVec 32) : Option Instr :=
  match decode w with
  | .ok i => some i
  | .error _ => none
/-- An element whose scalar result the pipes compare: among the active ones, the first where there is none (DESIGN CHOICE, log
92). -/
def scalarFrom (h : Hart) (k : BitVec 4) (e : Nat) : Bool :=
  if (indices (h.active k) h.vl).isEmpty then e == 0 else h.active k e
/-- What the pipes compare of an instruction (R313): the width at which its elements lie in the lanes, how many of them a
register holds where a pair takes the result, and the elements. The sb field's scalar is `x`. -/
def comparedElems (i : Instr) (x : Word) (h : Hart) : Nat × Nat × (Nat → Bool) :=
  let w := h.et.bytes
  let bits := 256 * h.lanes
  let mk := fld (encode i) 25 4
  let written (e : Nat) : Bool := decide (h.vstart ≤ e) && decide (e < h.vl) && (h.active mk e || fld (encode i) 29 1 == 1)
  match i with
  | .kmov _ _ => (1, bits, fun e => decide (e < bits))
  | .mtree _ _ _ => (1, bits, fun e => decide (e < bits))
  | .vins _ _ _ => (w, bits, fun e => e == x.toNat && decide (e < vlmax h.et h.lanes))
  | .vext _ _ _ => (w, bits, fun e => e == if x.toNat < vlmax h.et h.lanes then x.toNat else 0)
  | .kpop _ _ k => (w, bits, scalarFrom h k)
  | .kfirst _ _ k => (w, bits, scalarFrom h k)
  | .vredsum _ _ _ k => (w, bits, scalarFrom h k)
  | .vredmax _ _ _ k _ => (w, bits, scalarFrom h k)
  | .vredmin _ _ _ k _ => (w, bits, scalarFrom h k)
  | .vfredsum _ _ _ k => (w, bits, scalarFrom h k)
  | .vfredmax _ _ _ k => (w, bits, scalarFrom h k)
  | .vredseq _ _ _ k => (w, bits, scalarFrom h k)
  | .kop _ _ _ _ => (w, bits, fun e => decide (e < h.vl))
  | .vmerge _ _ _ _ _ => (w, bits, fun e => decide (h.vstart ≤ e) && decide (e < h.vl))
  | .vwiden _ _ _ _ _ => (2 * w, bits / (2 * w), written)
  | _ => (w, bits, written)
/-- The physical lane group and the lane that process the element at place `e` of a register, `b` bytes wide (R51). -/
def lanePlace (h : Hart) (b e : Nat) : Option (Nat × Nat) :=
  ((laneList h.lgown)[e * b / 256]?).map (fun g => (g, e * b / 8 % 8))
/-- The first of a lane group's mismatches, by element. -/
def firstHit : List (Nat × Nat × Nat) → Option (Nat × Nat × Nat)
  | [] => none
  | x :: t => match firstHit t with
    | some y => some (if x.2.2 ≤ y.2.2 then x else y)
    | none => some x
/-- Mismatches of the pipes that the focus hart's instruction meets: at most one for each lane group, each in an element that
is compared and in the lane that processes it (R51, R313, R316). -/
def laneHits (s : State) (i : Instr) (x : Word) : List (Nat × Nat × Nat) :=
  let c := comparedElems i x s.hart
  let ok := s.mismatch.filter (fun m => c.2.2 m.2.2 && lanePlace s.hart c.1 (m.2.2 % c.2.1) == some (m.1, m.2.1))
  (List.range 4).filterMap (fun g => firstHit (ok.filter (fun m => m.1 == g)))
/-- A trap before any element is performed, or poison: the pipes compare nothing (R316). -/
def comparesNothing : Cause → Bool
  | .illegalOp => true | .illegalReg => true | .tupleLen => true | .algtab => true | .poison => true | _ => false
/-- A vector instruction under its lanes (R313 to R316): the mismatches that squash it, its effects still there. One that has
to wait compares when it runs, but a VAMO that has begun to perform has compared all its elements (R314). -/
def laneRun (w : BitVec 32) (x : Word) (m : M Unit) : M (List (Nat × Nat × Nat)) := do
  let s0 ← get
  if !(laneWord w) then
    m
    return []
  else
    if laneBusy s0 then hold
    if s0.mismatch = [] || s0.hart.relStage = 5 then
      m
      return []
    else
      let hits := if checkedMode s0 then ((wordInstr w).map (fun i => laneHits s0 i x)).getD [] else []
      set { s0 with mismatch := [] }
      match ← attempt m with
      | .ok _ => return hits
      | .error (.trap c k v) => if hits = [] || comparesNothing c then throw (.trap c k v) else return hits
      | .error e =>
        if hits ≠ [] && (← hart).relStage = 5 then return hits
        else
          modify (fun s => { s with mismatch := s0.mismatch })
          throw e
/-- What mismatches leave of an instruction, or of the convoy that began at `s0`: everything stands as before it, with VSTART =
0, and its hart parks on the self-tests (R63, R315). -/
def laneSquash (s0 : State) (hits : List (Nat × Nat × Nat)) : State :=
  { s0 with mismatch := [] }.withHart { s0.hart.unpart with vstart := 0, run := .parked (.laneTest hits []) }
/-- A convoy of one instruction. -/
def laneM (w : BitVec 32) (x : Word) (m : M Unit) : M Unit := do
  let s0 ← get
  let hits ← laneRun w x m
  if hits ≠ [] then
    set (laneSquash s0 hits)
    throw (.park (.laneTest hits []))

/-- A vector access or a tile load reads under the last acquire that came before it in the queue (R217, R222). -/
def underNote (e : QEntry) (m : M Unit) : M Unit := do
  let h ← hart
  if !(readsUnder e.word) || (e.note.acq = h.lastAcq && e.note.views = h.views) then m
  else
    setHartM { h with lastAcq := e.note.acq, views := e.note.views }
    let r ← attempt m
    modHart (fun x => { x with lastAcq := h.lastAcq, views := h.views })
    match r with
    | .ok _ => pure ()
    | .error e => throw e

/-- What the oldest entry of the queue comes to from `s`: it leaves the queue, or stays in it with VSTART as the stop leaves
it. -/
def headEnd (s : State) (e : QEntry) (r : EStateM.Result Stop State Unit) : State :=
  match r with
  | .ok _ s' => s'.withHart s'.hart.popHead
  | .error (.trap c k v) s' => takeTrap s' s'.hart.id c k v e.pc s'.hart.pc
  | .error (.park p) s' => awaits s (.parked p) s'
  | .error .wait s' => awaits s .waiting s'
/-- The instruction whose entry is the oldest of the queue, outside its lanes. -/
def headBody (m : Cap → M Unit) (e : QEntry) : M Unit := underNote e (resumed (m ⟨e.pc, e.op1, e.op2, e.frame⟩))
/-- It runs to its end, or stops. -/
def headRun (m : Cap → M Unit) (e : QEntry) : M Unit := laneM e.word e.op2 (headBody m e)
def runHead (m : Cap → M Unit) (s : State) : State :=
  match s.hart.queue with
  | [] => s
  | e :: _ => headEnd s e (headRun m e s)

/-- ILLEGAL_OP at decode: the word at the hart's PC, nothing of it executed (R105). -/
def illegalHere (i : Instr) (s : State) : State :=
  takeTrap s s.hart.id .illegalOp .read ((encode i).zeroExtend 64) s.hart.pc s.hart.pc

/-- The use of a feature masked for the hart's function, told to its hypervisor's ring (R272); a full ring drops the
record (R252). -/
def maskedRecord (w : BitVec 32) (pc : Word) (s : State) : State :=
  let h := s.hart
  let f := ctxOf s h / 64
  let r : Nat := pc.toNat <<< 192 ||| w.toNat <<< 128 ||| f <<< 24 ||| (h.id / 8) <<< 15 ||| (h.id / 4 % 2) <<< 14
    ||| (h.id % 4) <<< 12 ||| 1 <<< 4
  if f = 0 then s else (hvSend s f r).getD s
/-- ILLEGAL_OP of an instruction whose feature is absent (R21, R272) (DEDUCED, log 39). -/
def absentHere (i : Instr) (s : State) : State := illegalHere i (maskedRecord (encode i) s.hart.pc s)

/-- A vector instruction issues. The vector unit is frozen from trap entry to CLAIM: there a vector, tuple, Lantern,
weight or repeat instruction is a nested trap that reports ILLEGAL_OP (R261, R264). Otherwise it is queued (R60) with its
scalars captured and the scalar unit goes on; with no older entry, and unless the scalar unit runs ahead, it runs at
once. -/
def vecIssue (i : Instr) (m : Cap → M Unit) (s : State) : Out :=
  let h := s.hart
  if h.frozen then .next (illegalHere i s)
  else if Config.queueDepth ≤ h.queue.length then .next (s.withHart { h with run := .waiting })
  else
    let c := capOf i h
    let s1 := s.withHart { h.enqueue h.pc (encode i) c.1 c.2 [] with pc := h.pc + 4 }
    .next (if h.queue.isEmpty && !s.ahead then runHead m s1 else s1)

end Sys2Proof.Machine
end

