-- ==== Sys2Proof/Machine/VectorInt.lean ====
section
/-! DEFINITION. The vector integer group, majors 0x30 to 0x3D (24 R417, R418). -/

namespace Sys2Proof.Machine

def ET.isInt (t : ET) : Bool := !t.isFloat
def anyET (_ : ET) : Bool := true

/-- An element-wise instruction of two sources, the second a register or the broadcast scalar (R417): the ET check of
R106, the poison check of R265, and the result of each active element from VSTART on. -/
def binaryM (i : Instr) (ok : ET → Bool) (d a b : BitVec 6) (k : BitVec 4) (z s : BitVec 1)
    (op : ET → Frm → Nat → Nat → Nat × Flags) (c : Cap) : M Unit := do
  let h ← hart
  if !ok h.et then refuse i
  let w := h.et.bytes
  consume k (if s = 1 then [(a.toNat, w)] else [(a.toNat, w), (b.toNat, w)])
  let f := fun n => op h.et h.frm (h.elem a.toNat w n) (operand h c s b w n)
  setHartM ((h.mapElems d.toNat w k z (fun n => (f n).1)).orFlags (flagsOf ((indices (h.due k) h.vl).map f)))

/-- An integer operation on `w`-bit patterns, which sets no flag. -/
def intOp (f : Nat → Nat → Nat → Nat) (t : ET) (_ : Frm) (x y : Nat) : Nat × Flags := (f t.bits x y, 0)

def addW (w x y : Nat) : Nat := (x + y) % 2 ^ w
def subW (w x y : Nat) : Nat := ofInt w ((x : Int) - y)
def mulW (w x y : Nat) : Nat := (x * y) % 2 ^ w
/-- The high half of the exact product. -/
def mulhW (u : BitVec 1) (w x y : Nat) : Nat :=
  if u = 1 then (x * y) >>> w else ofInt w ((toSigned w x * toSigned w y) / (2 ^ w : Nat))
def ltW (u : BitVec 1) (w x y : Nat) : Bool := if u = 1 then decide (x < y) else decide (toSigned w x < toSigned w y)
def minW (u : BitVec 1) (w x y : Nat) : Nat := if ltW u w y x then y else x
def maxW (u : BitVec 1) (w x y : Nat) : Nat := if ltW u w x y then y else x
/-- Shift amounts are taken modulo the width, unsigned. -/
def shlW (w x y : Nat) : Nat := (x <<< (y % w)) % 2 ^ w
def shrW (w x y : Nat) : Nat := x >>> (y % w)
def sarW (w x y : Nat) : Nat := ofInt w (toSigned w x / (2 ^ (y % w) : Nat))
/-- An exact result clamped to the range of `w` bits. -/
def clampW (u : BitVec 1) (w : Nat) (x : Int) : Nat :=
  if u = 1 then if x < 0 then 0 else if (2 ^ w : Nat) ≤ x then 2 ^ w - 1 else x.toNat
  else if x < -(2 ^ (w - 1) : Nat) then 2 ^ (w - 1) else if (2 ^ (w - 1) : Nat) ≤ x then 2 ^ (w - 1) - 1 else ofInt w x
def valueW (u : BitVec 1) (w x : Nat) : Int := if u = 1 then (x : Int) else toSigned w x
def addsatW (u : BitVec 1) (w x y : Nat) : Nat := clampW u w (valueW u w x + valueW u w y)
def subsatW (u : BitVec 1) (w x y : Nat) : Nat := clampW u w (valueW u w x - valueW u w y)

def vaddM (d a b : BitVec 6) (k : BitVec 4) (z s : BitVec 1) : Cap → M Unit :=
  binaryM (.vadd d a b k z s) ET.isInt d a b k z s (intOp addW)
def execVadd (d a b : BitVec 6) (k : BitVec 4) (z s : BitVec 1) (st : State) : Out :=
  vecIssue (.vadd d a b k z s) (vaddM d a b k z s) st
def vsubM (d a b : BitVec 6) (k : BitVec 4) (z s : BitVec 1) : Cap → M Unit :=
  binaryM (.vsub d a b k z s) ET.isInt d a b k z s (intOp subW)
def execVsub (d a b : BitVec 6) (k : BitVec 4) (z s : BitVec 1) (st : State) : Out :=
  vecIssue (.vsub d a b k z s) (vsubM d a b k z s) st
def vmulM (d a b : BitVec 6) (k : BitVec 4) (z s : BitVec 1) : Cap → M Unit :=
  binaryM (.vmul d a b k z s) ET.isInt d a b k z s (intOp mulW)
def execVmul (d a b : BitVec 6) (k : BitVec 4) (z s : BitVec 1) (st : State) : Out :=
  vecIssue (.vmul d a b k z s) (vmulM d a b k z s) st
def vmulhM (d a b : BitVec 6) (k : BitVec 4) (z s u : BitVec 1) : Cap → M Unit :=
  binaryM (.vmulh d a b k z s u) ET.isInt d a b k z s (intOp (mulhW u))
def execVmulh (d a b : BitVec 6) (k : BitVec 4) (z s u : BitVec 1) (st : State) : Out :=
  vecIssue (.vmulh d a b k z s u) (vmulhM d a b k z s u) st
def vminM (d a b : BitVec 6) (k : BitVec 4) (z s u : BitVec 1) : Cap → M Unit :=
  binaryM (.vmin d a b k z s u) ET.isInt d a b k z s (intOp (minW u))
def execVmin (d a b : BitVec 6) (k : BitVec 4) (z s u : BitVec 1) (st : State) : Out :=
  vecIssue (.vmin d a b k z s u) (vminM d a b k z s u) st
def vmaxM (d a b : BitVec 6) (k : BitVec 4) (z s u : BitVec 1) : Cap → M Unit :=
  binaryM (.vmax d a b k z s u) ET.isInt d a b k z s (intOp (maxW u))
def execVmax (d a b : BitVec 6) (k : BitVec 4) (z s u : BitVec 1) (st : State) : Out :=
  vecIssue (.vmax d a b k z s u) (vmaxM d a b k z s u) st
def vandM (d a b : BitVec 6) (k : BitVec 4) (z s : BitVec 1) : Cap → M Unit :=
  binaryM (.vand d a b k z s) anyET d a b k z s (intOp (fun _ x y => x &&& y))
def execVand (d a b : BitVec 6) (k : BitVec 4) (z s : BitVec 1) (st : State) : Out :=
  vecIssue (.vand d a b k z s) (vandM d a b k z s) st
def vorM (d a b : BitVec 6) (k : BitVec 4) (z s : BitVec 1) : Cap → M Unit :=
  binaryM (.vor d a b k z s) anyET d a b k z s (intOp (fun _ x y => x ||| y))
def execVor (d a b : BitVec 6) (k : BitVec 4) (z s : BitVec 1) (st : State) : Out :=
  vecIssue (.vor d a b k z s) (vorM d a b k z s) st
def vxorM (d a b : BitVec 6) (k : BitVec 4) (z s : BitVec 1) : Cap → M Unit :=
  binaryM (.vxor d a b k z s) anyET d a b k z s (intOp (fun _ x y => x ^^^ y))
def execVxor (d a b : BitVec 6) (k : BitVec 4) (z s : BitVec 1) (st : State) : Out :=
  vecIssue (.vxor d a b k z s) (vxorM d a b k z s) st
def vshlM (d a b : BitVec 6) (k : BitVec 4) (z s : BitVec 1) : Cap → M Unit :=
  binaryM (.vshl d a b k z s) ET.isInt d a b k z s (intOp shlW)
def execVshl (d a b : BitVec 6) (k : BitVec 4) (z s : BitVec 1) (st : State) : Out :=
  vecIssue (.vshl d a b k z s) (vshlM d a b k z s) st
def vshrM (d a b : BitVec 6) (k : BitVec 4) (z s : BitVec 1) : Cap → M Unit :=
  binaryM (.vshr d a b k z s) ET.isInt d a b k z s (intOp shrW)
def execVshr (d a b : BitVec 6) (k : BitVec 4) (z s : BitVec 1) (st : State) : Out :=
  vecIssue (.vshr d a b k z s) (vshrM d a b k z s) st
def vsarM (d a b : BitVec 6) (k : BitVec 4) (z s : BitVec 1) : Cap → M Unit :=
  binaryM (.vsar d a b k z s) ET.isInt d a b k z s (intOp sarW)
def execVsar (d a b : BitVec 6) (k : BitVec 4) (z s : BitVec 1) (st : State) : Out :=
  vecIssue (.vsar d a b k z s) (vsarM d a b k z s) st
def vaddsatM (d a b : BitVec 6) (k : BitVec 4) (z s u : BitVec 1) : Cap → M Unit :=
  binaryM (.vaddsat d a b k z s u) ET.isInt d a b k z s (intOp (addsatW u))
def execVaddsat (d a b : BitVec 6) (k : BitVec 4) (z s u : BitVec 1) (st : State) : Out :=
  vecIssue (.vaddsat d a b k z s u) (vaddsatM d a b k z s u) st
def vsubsatM (d a b : BitVec 6) (k : BitVec 4) (z s u : BitVec 1) : Cap → M Unit :=
  binaryM (.vsubsat d a b k z s u) ET.isInt d a b k z s (intOp (subsatW u))
def execVsubsat (d a b : BitVec 6) (k : BitVec 4) (z s u : BitVec 1) (st : State) : Out :=
  vecIssue (.vsubsat d a b k z s u) (vsubsatM d a b k z s u) st

end Sys2Proof.Machine
end

