-- ==== Sys2Proof/Machine/VectorFloat.lean ====
section
/-! DEFINITION. The vector float group, majors 0x40 to 0x4C (24 R426), the comparisons and the mask instructions (22
R422, 23 R375). -/

namespace Sys2Proof.Machine

/-- A float operation in the format of the element type. -/
def floatOp (f : Fmt → Frm → Nat → Nat → Nat × Flags) (t : ET) (md : Frm) (x y : Nat) : Nat × Flags := f t.fmt md x y

/-- An element-wise float instruction of one source (R426). -/
def unaryM (i : Instr) (d a : BitVec 6) (k : BitVec 4) (z : BitVec 1) (op : Fmt → Frm → Nat → Nat × Flags) (_ : Cap) :
    M Unit := do
  let h ← hart
  if !h.et.isFloat then refuse i
  let w := h.et.bytes
  consume k [(a.toNat, w)]
  let f := fun n => op h.et.fmt h.frm (h.elem a.toNat w n)
  setHartM ((h.mapElems d.toNat w k z (fun n => (f n).1)).orFlags (flagsOf ((indices (h.due k) h.vl).map f)))

def vfaddM (d a b : BitVec 6) (k : BitVec 4) (z s : BitVec 1) : Cap → M Unit :=
  binaryM (.vfadd d a b k z s) ET.isFloat d a b k z s (floatOp fAdd)
def execVfadd (d a b : BitVec 6) (k : BitVec 4) (z s : BitVec 1) (st : State) : Out :=
  vecIssue (.vfadd d a b k z s) (vfaddM d a b k z s) st
def vfsubM (d a b : BitVec 6) (k : BitVec 4) (z s : BitVec 1) : Cap → M Unit :=
  binaryM (.vfsub d a b k z s) ET.isFloat d a b k z s (floatOp fSub)
def execVfsub (d a b : BitVec 6) (k : BitVec 4) (z s : BitVec 1) (st : State) : Out :=
  vecIssue (.vfsub d a b k z s) (vfsubM d a b k z s) st
def vfmulM (d a b : BitVec 6) (k : BitVec 4) (z s : BitVec 1) : Cap → M Unit :=
  binaryM (.vfmul d a b k z s) ET.isFloat d a b k z s (floatOp fMul)
def execVfmul (d a b : BitVec 6) (k : BitVec 4) (z s : BitVec 1) (st : State) : Out :=
  vecIssue (.vfmul d a b k z s) (vfmulM d a b k z s) st
def vfdivM (d a b : BitVec 6) (k : BitVec 4) (z s : BitVec 1) : Cap → M Unit :=
  binaryM (.vfdiv d a b k z s) ET.isFloat d a b k z s (floatOp fDiv)
def execVfdiv (d a b : BitVec 6) (k : BitVec 4) (z s : BitVec 1) (st : State) : Out :=
  vecIssue (.vfdiv d a b k z s) (vfdivM d a b k z s) st
def vfminM (d a b : BitVec 6) (k : BitVec 4) (z s : BitVec 1) : Cap → M Unit :=
  binaryM (.vfmin d a b k z s) ET.isFloat d a b k z s (floatOp (fun f _ => fMinMax f false))
def execVfmin (d a b : BitVec 6) (k : BitVec 4) (z s : BitVec 1) (st : State) : Out :=
  vecIssue (.vfmin d a b k z s) (vfminM d a b k z s) st
def vfmaxM (d a b : BitVec 6) (k : BitVec 4) (z s : BitVec 1) : Cap → M Unit :=
  binaryM (.vfmax d a b k z s) ET.isFloat d a b k z s (floatOp (fun f _ => fMinMax f true))
def execVfmax (d a b : BitVec 6) (k : BitVec 4) (z s : BitVec 1) (st : State) : Out :=
  vecIssue (.vfmax d a b k z s) (vfmaxM d a b k z s) st

/-- VFMA: d is the old element of vd, and NaN order is va, vb, vd (R426). -/
def vfmaM (d a b : BitVec 6) (k : BitVec 4) (z s n : BitVec 1) (c : Cap) : M Unit := do
  let h ← hart
  if !h.et.isFloat then refuse (.vfma d a b k z s n)
  let w := h.et.bytes
  consume k ((d.toNat, w) :: (if s = 1 then [(a.toNat, w)] else [(a.toNat, w), (b.toNat, w)]))
  let f := fun j => fMa h.et.fmt h.frm (n = 1) (h.elem a.toNat w j) (operand h c s b w j) (h.elem d.toNat w j)
  setHartM ((h.mapElems d.toNat w k z (fun j => (f j).1)).orFlags (flagsOf ((indices (h.due k) h.vl).map f)))
def execVfma (d a b : BitVec 6) (k : BitVec 4) (z s n : BitVec 1) (st : State) : Out :=
  vecIssue (.vfma d a b k z s n) (vfmaM d a b k z s n) st

def vfsqrtM (d a : BitVec 6) (k : BitVec 4) (z : BitVec 1) : Cap → M Unit :=
  unaryM (.vfsqrt d a k z) d a k z fSqrt
def execVfsqrt (d a : BitVec 6) (k : BitVec 4) (z : BitVec 1) (st : State) : Out :=
  vecIssue (.vfsqrt d a k z) (vfsqrtM d a k z) st
def vfrcpM (d a : BitVec 6) (k : BitVec 4) (z : BitVec 1) : Cap → M Unit :=
  unaryM (.vfrcp d a k z) d a k z fRcp
def execVfrcp (d a : BitVec 6) (k : BitVec 4) (z : BitVec 1) (st : State) : Out :=
  vecIssue (.vfrcp d a k z) (vfrcpM d a k z) st
def vfrsqM (d a : BitVec 6) (k : BitVec 4) (z : BitVec 1) : Cap → M Unit :=
  unaryM (.vfrsq d a k z) d a k z fRsq
def execVfrsq (d a : BitVec 6) (k : BitVec 4) (z : BitVec 1) (st : State) : Out :=
  vecIssue (.vfrsq d a k z) (vfrsqM d a k z) st
def vfexp2M (d a : BitVec 6) (k : BitVec 4) (z : BitVec 1) : Cap → M Unit :=
  unaryM (.vfexp2 d a k z) d a k z fExp2
def execVfexp2 (d a : BitVec 6) (k : BitVec 4) (z : BitVec 1) (st : State) : Out :=
  vecIssue (.vfexp2 d a k z) (vfexp2M d a k z) st
def vflog2M (d a : BitVec 6) (k : BitVec 4) (z : BitVec 1) : Cap → M Unit :=
  unaryM (.vflog2 d a k z) d a k z fLog2
def execVflog2 (d a : BitVec 6) (k : BitVec 4) (z : BitVec 1) (st : State) : Out :=
  vecIssue (.vflog2 d a k z) (vflog2M d a k z) st

/-- VFSGN acts on bits: no flags, no NaN made quiet. -/
def vfsgnM (d a b : BitVec 6) (k : BitVec 4) (z : BitVec 1) (g : BitVec 2) : Cap → M Unit :=
  binaryM (.vfsgn d a b k z g) ET.isFloat d a b k z 0 (fun t _ x y => (fSgn t.fmt g.toNat x y, 0))
def execVfsgn (d a b : BitVec 6) (k : BitVec 4) (z : BitVec 1) (g : BitVec 2) (st : State) : Out :=
  vecIssue (.vfsgn d a b k z g) (vfsgnM d a b k z g) st

/-! ## Comparisons (R422) -/

/-- What a comparison writes to bit `n` of its mask: the result where active, zero where inactive under z = 1. -/
def maskPolicy (h : Hart) (k : BitVec 4) (z : BitVec 1) (f : Nat → Bool) (n : Nat) : Option Bool :=
  if n < h.vstart then none
  else if h.active k n then some (f n)
  else if z = 1 then some false else none

/-- A comparison into mask `d`. -/
def compareM (i : Instr) (ok : ET → Bool) (d : BitVec 4) (a b : BitVec 6) (k : BitVec 4) (z s : BitVec 1)
    (op : ET → Nat → Nat → Bool × Flags) (c : Cap) : M Unit := do
  let h ← hart
  if !ok h.et then refuse i
  let w := h.et.bytes
  consume k (if s = 1 then [(a.toNat, w)] else [(a.toNat, w), (b.toNat, w)])
  let f := fun n => op h.et (h.elem a.toNat w n) (operand h c s b w n)
  let fl := ((indices (h.due k) h.vl).map f).foldl (fun x r => x ||| r.2) 0
  setHartM ((h.writeMask d.toNat h.vl (maskPolicy h k z (fun n => (f n).1))).orFlags fl)

/-- cc: 0 eq, 1 ne, 2 lt, 3 le (R93). -/
def intCmp (cc : Nat) (u : BitVec 1) (t : ET) (x y : Nat) : Bool × Flags :=
  (match cc with
   | 0 => x == y
   | 1 => x != y
   | 2 => ltW u t.bits x y
   | _ => !ltW u t.bits y x, 0)
/-- The same codes for floats: `fCmp` numbers eq 0, lt 1, le 2, ne 4. -/
def floatCmp (cc : Nat) (t : ET) (x y : Nat) : Bool × Flags :=
  fCmp t.fmt (match cc with | 0 => 0 | 1 => 4 | 2 => 1 | _ => 2) x y

def vcmpM (d : BitVec 4) (u s : BitVec 1) (a b : BitVec 6) (k : BitVec 4) (z : BitVec 1) (cc : BitVec 2) :
    Cap → M Unit := compareM (.vcmp d u s a b k z cc) ET.isInt d a b k z s (intCmp cc.toNat u)
def execVcmp (d : BitVec 4) (u s : BitVec 1) (a b : BitVec 6) (k : BitVec 4) (z : BitVec 1) (c : BitVec 2)
    (st : State) : Out := vecIssue (.vcmp d u s a b k z c) (vcmpM d u s a b k z c) st
def vfcmpM (d : BitVec 4) (s : BitVec 1) (a b : BitVec 6) (k : BitVec 4) (z : BitVec 1) (cc : BitVec 2) :
    Cap → M Unit := compareM (.vfcmp d s a b k z cc) ET.isFloat d a b k z s (floatCmp cc.toNat)
def execVfcmp (d : BitVec 4) (s : BitVec 1) (a b : BitVec 6) (k : BitVec 4) (z : BitVec 1) (c : BitVec 2)
    (st : State) : Out := vecIssue (.vfcmp d s a b k z c) (vfcmpM d s a b k z c) st

/-! ## Mask instructions (R94, R375) -/

/-- KOP's operations. -/
def kopBit (o : Nat) (x y : Bool) : Bool :=
  match o with
  | 0 => x && y
  | 1 => x || y
  | 2 => x != y
  | 3 => x && !y
  | 4 => x || !y
  | 5 => !(x && y)
  | 6 => !(x || y)
  | _ => x == y

def kopM (d a b o : BitVec 4) (_ : Cap) : M Unit :=
  modHart (fun h => h.writeMask d.toNat h.vl
    (fun n => some (kopBit o.toNat ((h.kr a.toNat).getLsbD n) ((h.kr b.toNat).getLsbD n))))
def execKop (d a b o : BitVec 4) (st : State) : Out := vecIssue (.kop d a b o) (kopM d a b o) st

/-- Set bits of mask `a` that are active under mask `k`, below VL, rising. -/
def setBits (h : Hart) (a k : BitVec 4) : List Nat := indices (fun n => (h.kr a.toNat).getLsbD n && h.active k n) h.vl
def kpopM (d : BitVec 6) (a k : BitVec 4) (_ : Cap) : M Unit :=
  modHart (fun h => h.setS d (BitVec.ofNat 64 (setBits h a k).length))
def execKpop (d : BitVec 6) (a k : BitVec 4) (st : State) : Out := vecIssue (.kpop d a k) (kpopM d a k) st
def kfirstM (d : BitVec 6) (a k : BitVec 4) (_ : Cap) : M Unit :=
  modHart (fun h => h.setS d (match (setBits h a k).head? with
    | some n => BitVec.ofNat 64 n
    | none => BitVec.allOnes 64))
def execKfirst (d : BitVec 6) (a k : BitVec 4) (st : State) : Out := vecIssue (.kfirst d a k) (kfirstM d a k) st
/-- KMOV copies every bit below VLMAX(i8, n), whatever VL. -/
def kmovM (d a : BitVec 4) (_ : Cap) : M Unit :=
  modHart (fun h => h.setK d.toNat (h.kr a.toNat &&& h.maskBits))
def execKmov (d a : BitVec 4) (st : State) : Out := vecIssue (.kmov d a) (kmovM d a) st

end Sys2Proof.Machine
end

