-- ==== Sys2Proof/Machine/VectorMove.lean ====
section
/-! DEFINITION. Conversions, permutations, moves and reductions of vector registers (06 R142, R143; 22 to 25: R421,
R423 to R425, R427 to R429, R435 to R442). -/

namespace Sys2Proof.Machine

/-! ## Conversions (R424, R437, R438) -/

/-- VCVT: each side's elements stand at their own width. -/
def vcvtM (d a : BitVec 6) (st : BitVec 3) (k : BitVec 4) (z : BitVec 1) (_ : Cap) : M Unit := do
  let h ← hart
  let src := ET.ofCode st.toNat
  if vlmax src h.lanes < h.vl then refuse (.vcvt d a st k z)
  consume k [(a.toNat, src.bytes)]
  let f := fun n => convert src h.et h.frm (h.elem a.toNat src.bytes n)
  setHartM ((h.mapElems d.toNat h.et.bytes k z (fun n => (f n).1)).orFlags (flagsOf ((indices (h.due k) h.vl).map f)))
def execVcvt (d a : BitVec 6) (s : BitVec 3) (k : BitVec 4) (z : BitVec 1) (st : State) : Out :=
  vecIssue (.vcvt d a s k z) (vcvtM d a s k z) st

/-- The next wider type; none for i64 and f64. -/
def ET.wider : ET → Option ET
  | .i8 => some .i16 | .i16 => some .i32 | .i32 => some .i64 | .f16 => some .f32 | .bf16 => some .f32
  | .f32 => some .f64 | .i64 => none | .f64 => none

/-- The register and place of wide element `i` of a pair: `m` elements to a register. -/
def pairAt (r m i : Nat) : Nat × Nat := if i < m then (r, i) else (r + 1, i - m)
def Hart.pairElem (h : Hart) (r m b i : Nat) : Nat := h.elem (pairAt r m i).1 b (pairAt r m i).2
def Hart.pairBad (h : Hart) (r m b i : Nat) : Bool := h.elemBad (pairAt r m i).1 b (pairAt r m i).2

/-- One narrowed element (R437). -/
def narrowElem (nm : Nat) (wide et : ET) (md : Frm) (x : Nat) : Nat × Flags :=
  if et.isFloat then fConvert wide.fmt et.fmt md x
  else if nm = 0 then (x % 2 ^ et.bits, 0)
  else if nm = 1 then (clampW 0 et.bits (toSigned wide.bits x), 0)
  else (clampW 1 et.bits (x : Int), 0)

/-- VNARROW. `va` arrives without its low bit, which is 0. -/
def vnarrowM (d : BitVec 6) (a : BitVec 5) (nm : BitVec 2) (k : BitVec 4) (z : BitVec 1) (_ : Cap) : M Unit := do
  let h ← hart
  match h.et.wider with
  | none => refuse (.vnarrow d a nm k z)
  | some wide =>
    if h.et.isFloat && nm != 0 then refuse (.vnarrow d a nm k z)
    let r := 2 * a.toNat
    let m := vlmax wide h.lanes
    if (List.range h.vl).any (fun n => h.due k n && h.pairBad r m wide.bytes n) then squash poisonReg
    let f := fun n => narrowElem nm.toNat wide h.et h.frm (h.pairElem r m wide.bytes n)
    setHartM ((h.mapElems d.toNat h.et.bytes k z (fun n => (f n).1)).orFlags
      (flagsOf ((indices (h.due k) h.vl).map f)))
def execVnarrow (d : BitVec 6) (a : BitVec 5) (n : BitVec 2) (k : BitVec 4) (z : BitVec 1) (st : State) : Out :=
  vecIssue (.vnarrow d a n k z) (vnarrowM d a n k z) st

/-- One widened element (R438): exact, a signalling NaN stays signalling and sets invalid. -/
def widenElem (u : BitVec 1) (et wide : ET) (x : Nat) : Nat × Flags :=
  if et.isFloat then
    match et.fmt.decode x with
    | .nan n q p => (wide.fmt.encodeNan n q p, if q then 0 else fInvalid)
    | .inf n => (wide.fmt.sign n + wide.fmt.infBits, 0)
    | .fin n m e => wide.fmt.round .rne n m e false
  else if u = 1 then (x, 0)
  else (ofInt wide.bits (toSigned et.bits x), 0)

/-- VWIDEN. `vd` arrives without its low bit, which is 0. -/
def vwidenM (d : BitVec 5) (a : BitVec 6) (u : BitVec 1) (k : BitVec 4) (z : BitVec 1) (_ : Cap) : M Unit := do
  let h ← hart
  match h.et.wider with
  | none => refuse (.vwiden d a u k z)
  | some wide =>
    if h.et.isFloat && u = 1 then refuse (.vwiden d a u k z)
    let r := 2 * d.toNat
    let m := vlmax wide h.lanes
    consume k [(a.toNat, h.et.bytes)]
    let f := fun n => widenElem u h.et wide (h.elem a.toNat h.et.bytes n)
    let p := policy h k z (fun n => (f n).1)
    let h1 := h.writeElems r wide.bytes (min h.vl m) p
    let h2 := h1.writeElems (r + 1) wide.bytes (h.vl - m) (fun n => p (m + n))
    setHartM (h2.orFlags (flagsOf ((indices (h.due k) h.vl).map f)))
def execVwiden (d : BitVec 5) (a : BitVec 6) (u : BitVec 1) (k : BitVec 4) (z : BitVec 1) (st : State) : Out :=
  vecIssue (.vwiden d a u k z) (vwidenM d a u k z) st

/-! ## Permutations and moves -/

/-- VMERGE writes every element below VL (R435). -/
def vmergeM (d a b : BitVec 6) (k : BitVec 4) (s : BitVec 1) (c : Cap) : M Unit := do
  let h ← hart
  let w := h.et.bytes
  let other := fun n => k = 15 || (h.kr k.toNat).getLsbD n
  if (List.range h.vl).any (fun n => decide (h.vstart ≤ n) &&
      (if other n then s != 1 && h.elemBad b.toNat w n else h.elemBad a.toNat w n)) then squash poisonReg
  let f := fun n => if other n then operand h c s b w n else h.elem a.toNat w n
  setHartM (h.mapElems d.toNat w 15 0 f)
def execVmerge (d a b : BitVec 6) (k : BitVec 4) (s : BitVec 1) (st : State) : Out :=
  vecIssue (.vmerge d a b k s) (vmergeM d a b k s) st

/-- Whether some due element consumes a poisoned element of a register, of the place `src` gives it. -/
def gatherBad (h : Hart) (k : BitVec 4) (r w : Nat) (src : Nat → Option Nat) : Bool :=
  h.vpr r != 0 && (List.range h.vl).any (fun n => h.due k n &&
    match src n with
    | some j => h.elemBad r w j
    | none => false)
/-- Each active element receives the element of `r` that `src` names, or zero. -/
def gatherM (d : BitVec 6) (r : Nat) (k : BitVec 4) (z : BitVec 1) (src : Hart → Nat → Option Nat) : M Unit := do
  let h ← hart
  let w := h.et.bytes
  if gatherBad h k r w (src h) then squash poisonReg
  setHartM (h.mapElems d.toNat w k z (fun n =>
    match src h n with
    | some j => h.elem r w j
    | none => 0))

/-- VPERM (R439). -/
def vpermM (d a b : BitVec 6) (k : BitVec 4) (z : BitVec 1) (_ : Cap) : M Unit := do
  let h ← hart
  consume k [(b.toNat, h.et.bytes)]
  gatherM d a.toNat k z (fun h n =>
    let j := h.elem b.toNat h.et.bytes n
    if j < vlmax h.et h.lanes then some j else none)
def execVperm (d a b : BitVec 6) (k : BitVec 4) (z : BitVec 1) (st : State) : Out :=
  vecIssue (.vperm d a b k z) (vpermM d a b k z) st

/-- VSLIDE (R440): up keeps the elements below the amount, down brings in zeros. -/
def vslideM (d a : BitVec 6) (k : BitVec 4) (z r : BitVec 1) (c : Cap) : M Unit := do
  let h ← hart
  let w := h.et.bytes
  let amt := c.op2.toNat
  if r = 1 then
    gatherM d a.toNat k z (fun h n => if n + amt < vlmax h.et h.lanes then some (n + amt) else none)
  else
    if gatherBad h k a.toNat w (fun n => if amt ≤ n then some (n - amt) else none) then squash poisonReg
    setHartM (h.writeElems d.toNat w h.vl (fun n =>
      if h.active k n && decide (n < amt) then none
      else policy h k z (fun n => h.elem a.toNat w (n - amt)) n))
def execVslide (d a b : BitVec 6) (k : BitVec 4) (z r : BitVec 1) (st : State) : Out :=
  vecIssue (.vslide d a b k z r) (vslideM d a k z r) st

/-- VCOMPRESS (R423): vb is 0 in the word. -/
def vcompressM (d a : BitVec 6) (k : BitVec 4) (z : BitVec 1) (_ : Cap) : M Unit := do
  let h ← hart
  let w := h.et.bytes
  consume k [(a.toNat, w)]
  let xs := (indices (h.active k) h.vl).map (h.elem a.toNat w)
  setHartM (h.writeElems d.toNat w h.vl (fun n =>
    match xs[n]? with
    | some x => some x
    | none => if z = 1 then some 0 else none))
def execVcompress (d a : BitVec 6) (k : BitVec 4) (z : BitVec 1) (st : State) : Out :=
  vecIssue (.vcompress d a k z) (vcompressM d a k z) st

/-- Active elements below `n`: the place VEXPAND takes element `n` from. -/
def rankOf (h : Hart) (k : BitVec 4) (n : Nat) : Nat := (indices (h.active k) n).length
/-- VEXPAND (R423). -/
def vexpandM (d a : BitVec 6) (k : BitVec 4) (z : BitVec 1) (_ : Cap) : M Unit :=
  gatherM d a.toNat k z (fun h n => some (rankOf h k n))
def execVexpand (d a : BitVec 6) (k : BitVec 4) (z : BitVec 1) (st : State) : Out :=
  vecIssue (.vexpand d a k z) (vexpandM d a k z) st

/-- VIOTA (R429). -/
def viotaM (d : BitVec 6) (k : BitVec 4) (z : BitVec 1) (_ : Cap) : M Unit := do
  let h ← hart
  if !h.et.isInt then refuse (.viota d k z)
  setHartM (h.mapElems d.toNat h.et.bytes k z (fun n => rankOf h k n % 2 ^ h.et.bits))
def execViota (d : BitVec 6) (k : BitVec 4) (z : BitVec 1) (st : State) : Out :=
  vecIssue (.viota d k z) (viotaM d k z) st

/-- VBCAST (R421). -/
def vbcastM (d a : BitVec 6) (k : BitVec 4) (z f : BitVec 1) (c : Cap) : M Unit := do
  let h ← hart
  if f = 0 then setHartM (h.mapElems d.toNat h.et.bytes k z (fun _ => c.op2.toNat % 2 ^ h.et.bits))
  else
    gatherM d a.toNat k z (fun h _ => if c.op2.toNat < vlmax h.et h.lanes then some c.op2.toNat else none)
def execVbcast (d a b : BitVec 6) (k : BitVec 4) (z f : BitVec 1) (st : State) : Out :=
  vecIssue (.vbcast d a b k z f) (vbcastM d a k z f) st

/-- ILLEGAL_REG for a computed number, nothing written (R64, R66). -/
def illegalReg {α : Type} (r : Nat) : M α := do
  modHart (fun h => { h with vstart := 0 })
  trap .illegalReg .read (BitVec.ofNat 64 r)

/-- VMOVX (R436): the source (y = 0) or the destination (y = 1) is named by a scalar. -/
def vmovxM (d a : BitVec 6) (k : BitVec 4) (z y : BitVec 1) (_ : Cap) : M Unit := do
  let r := (← lateReg (if y = 1 then d else a)).toNat % 64
  let h ← hart
  if 48 ≤ r then illegalReg r
  let w := h.et.bytes
  let (dst, src) := if y = 1 then (r, a.toNat) else (d.toNat, r)
  consume k [(src, w)]
  setHartM (h.mapElems dst w k z (h.elem src w))
def execVmovx (d a : BitVec 6) (k : BitVec 4) (z y : BitVec 1) (st : State) : Out :=
  vecIssue (.vmovx d a k z y) (vmovxM d a k z y) st

/-- An element as a scalar: sign-extended for integer types, zero-extended for floats (R425). -/
def toScalar (t : ET) (x : Nat) : Word :=
  if t.isFloat then BitVec.ofNat 64 x else BitVec.ofInt 64 (toSigned t.bits x)

/-- VEXT (R425): VL does not bound the index. -/
def vextM (d a : BitVec 6) (c : Cap) : M Unit := do
  let h ← hart
  let w := h.et.bytes
  if c.op2.toNat < vlmax h.et h.lanes then
    if h.elemBad a.toNat w c.op2.toNat then squash poisonReg
    setHartM (h.setS d (toScalar h.et (h.elem a.toNat w c.op2.toNat)))
  else setHartM (h.setS d 0)
def execVext (d a b : BitVec 6) (st : State) : Out := vecIssue (.vext d a b) (vextM d a) st

/-- VINS (R428). -/
def vinsM (d : BitVec 6) (c : Cap) : M Unit := do
  let h ← hart
  if c.op2.toNat < vlmax h.et h.lanes then
    setHartM (h.writeElems d.toNat h.et.bytes (c.op2.toNat + 1) (fun n =>
      if n = c.op2.toNat then some (c.op1.toNat % 2 ^ h.et.bits) else none))
def execVins (d a b : BitVec 6) (st : State) : Out := vecIssue (.vins d a b) (vinsM d) st

/-! ## Reductions (R142, R143, R427, R441, R442) -/

/-- `combine` of R142, with the flags of the nodes gathered. -/
def combine (op : Nat → Nat → Nat × Flags) (l r : Option Nat × Flags) : Option Nat × Flags :=
  match l.1, r.1 with
  | none, x => (x, l.2 ||| r.2)
  | x, none => (x, l.2 ||| r.2)
  | some x, some y => (some (op x y).1, l.2 ||| r.2 ||| (op x y).2)
/-- One level of the tree: neighbours combined. -/
def pairUp (op : Nat → Nat → Nat × Flags) : List (Option Nat × Flags) → List (Option Nat × Flags)
  | x :: y :: t => combine op x y :: pairUp op t
  | xs => xs
/-- The tree over one element group, in `n` levels. -/
def treeLevels (op : Nat → Nat → Nat × Flags) : Nat → List (Option Nat × Flags) → List (Option Nat × Flags)
  | 0, xs => xs
  | n + 1, xs => treeLevels op n (pairUp op xs)
/-- `reduce_tree` of R142: `g` element groups of `m` elements. -/
def reduceTree (op : Nat → Nat → Nat × Flags) (seed : Nat) (x : Nat → Option Nat) (m : Nat) : Nat → Nat × Flags
  | 0 => (seed, 0)
  | e + 1 =>
    let acc := reduceTree op seed x m e
    match treeLevels op 8 ((List.range m).map (fun j => (x (e * m + j), 0))) with
    | (some y, fl) :: _ => ((op acc.1 y).1, acc.2 ||| fl ||| (op acc.1 y).2)
    | _ => acc

/-- VFREDMAX's operation (R427). -/
def redMax (f : Fmt) (l r : Nat) : Nat × Flags := fMinMax f true l r

/-- A reduction: the seed, the tree or the sequence, and the result to a scalar. -/
def reduceM (i : Instr) (ok : ET → Bool) (d a : BitVec 6) (k : BitVec 4) (seq : Bool)
    (op : ET → Frm → Nat → Nat → Nat × Flags) (out : ET → Nat → Word) (c : Cap) : M Unit := do
  let h ← hart
  if !ok h.et then refuse i
  let w := h.et.bytes
  consume k [(a.toNat, w)]
  let o := op h.et h.frm
  let seed := c.op2.toNat % 2 ^ h.et.bits
  let x := fun n => if h.active k n then some (h.elem a.toNat w n) else none
  let r := if seq then
      ((indices (h.active k) h.vl).map (h.elem a.toNat w)).foldl
        (fun (acc : Nat × Flags) y => ((o acc.1 y).1, acc.2 ||| (o acc.1 y).2)) (seed, 0)
    else reduceTree o seed x (256 / w) h.lanes
  setHartM ((h.setS d (out h.et r.1)).orFlags r.2)

/-- An unsigned result is zero-extended (R441). -/
def outInt (u : BitVec 1) (t : ET) (x : Nat) : Word := if u = 1 then BitVec.ofNat 64 x else toScalar t x

def vredsumM (d a b : BitVec 6) (k : BitVec 4) : Cap → M Unit :=
  reduceM (.vredsum d a b k) ET.isInt d a k false (intOp addW) toScalar
def execVredsum (d a b : BitVec 6) (k : BitVec 4) (st : State) : Out :=
  vecIssue (.vredsum d a b k) (vredsumM d a b k) st
def vredmaxM (d a b : BitVec 6) (k : BitVec 4) (u : BitVec 1) : Cap → M Unit :=
  reduceM (.vredmax d a b k u) ET.isInt d a k false (intOp (maxW u)) (outInt u)
def execVredmax (d a b : BitVec 6) (k : BitVec 4) (u : BitVec 1) (st : State) : Out :=
  vecIssue (.vredmax d a b k u) (vredmaxM d a b k u) st
def vredminM (d a b : BitVec 6) (k : BitVec 4) (u : BitVec 1) : Cap → M Unit :=
  reduceM (.vredmin d a b k u) ET.isInt d a k false (intOp (minW u)) (outInt u)
def execVredmin (d a b : BitVec 6) (k : BitVec 4) (u : BitVec 1) (st : State) : Out :=
  vecIssue (.vredmin d a b k u) (vredminM d a b k u) st
def vfredsumM (d a b : BitVec 6) (k : BitVec 4) : Cap → M Unit :=
  reduceM (.vfredsum d a b k) ET.isFloat d a k false (floatOp fAdd) toScalar
def execVfredsum (d a b : BitVec 6) (k : BitVec 4) (st : State) : Out :=
  vecIssue (.vfredsum d a b k) (vfredsumM d a b k) st
def vfredmaxM (d a b : BitVec 6) (k : BitVec 4) : Cap → M Unit :=
  reduceM (.vfredmax d a b k) ET.isFloat d a k false (floatOp (fun f _ => redMax f)) toScalar
def execVfredmax (d a b : BitVec 6) (k : BitVec 4) (st : State) : Out :=
  vecIssue (.vfredmax d a b k) (vfredmaxM d a b k) st
/-- VREDSEQ's operation: the wrapping sum, or the float sum. -/
def seqOp (t : ET) (md : Frm) (x y : Nat) : Nat × Flags :=
  if t.isFloat then fAdd t.fmt md x y else (addW t.bits x y, 0)
def vredseqM (d a b : BitVec 6) (k : BitVec 4) : Cap → M Unit :=
  reduceM (.vredseq d a b k) anyET d a k true seqOp toScalar
def execVredseq (d a b : BitVec 6) (k : BitVec 4) (st : State) : Out :=
  vecIssue (.vredseq d a b k) (vredseqM d a b k) st

end Sys2Proof.Machine
end

