-- ==== Sys2Proof/Machine/Algebra.lean ====
section
/-! DEFINITION. Algebra tables and tuple products (07 R153 to R165; R345, R443): ALGLD, VTMUL, VTCONJ. -/

namespace Sys2Proof.Machine

/-! ## The table record (R153, R154) -/

/-- An entry: left, right and result component, and the constant's f32 bits. -/
structure AlgEntry where
  i : Nat
  j : Nat
  k : Nat
  c : Nat
  deriving DecidableEq, Repr

/-- A table: its dimensions, involutions and entries, as read from its record. -/
structure AlgTable where
  da : Nat
  db : Nat
  dc : Nat
  nnz : Nat
  inv0 : List Nat
  inv1 : List Nat
  entries : List AlgEntry
  deriving DecidableEq, Repr

def byteAt (r : List Byte) (i : Nat) : Nat := (r.getD i 0).toNat
def numAt (r : List Byte) (i n : Nat) : Nat := leNat ((r.drop i).take n)
def entryAt (r : List Byte) (e : Nat) : AlgEntry :=
  let x := numAt r (64 + 8 * e) 8
  ⟨bitsAt x 0 8, bitsAt x 8 8, bitsAt x 16 8, bitsAt x 32 32⟩
def tableOf (r : List Byte) : AlgTable where
  da := byteAt r 0
  db := byteAt r 1
  dc := byteAt r 2
  nnz := byteAt r 3
  inv0 := (List.range 8).map (fun m => byteAt r (8 + m))
  inv1 := (List.range 8).map (fun m => byteAt r (16 + m))
  entries := (List.range (byteAt r 3)).map (entryAt r)

/-- An involution byte's source component and sign (R154). -/
def invSel (b : Nat) : Nat := bitsAt b 0 3
def invNeg (b : Nat) : Bool := bitsAt b 7 1 == 1
/-- The lowest component at which an involution is malformed (R155, codes 5 and 6). -/
def invAmiss (da : Nat) (inv : List Nat) : Option Nat :=
  (List.range 8).find? (fun m =>
    let b := inv.getD m 0
    if m < da then
      let b' := inv.getD (invSel b) 0
      decide (da ≤ invSel b) || invSel b' != m || invNeg b' != invNeg b
    else b != 0)

/-- Reserved bits of one byte of the record (R153, R154, code 7). -/
def reservedByte (r : List Byte) (nnz i : Nat) : Bool :=
  let b := byteAt r i
  if i < 5 then false
  else if i < 8 then b != 0
  else if i < 24 then bitsAt b 3 4 != 0
  else if i < 64 then b != 0
  else if i < 64 + 8 * nnz then i % 8 == 3 && b != 0
  else b != 0

/-- The first condition of R155 that a record meets: the code and its index (DEDUCED, log 1). -/
def tableAmiss (r : List Byte) : Option (Nat × Nat) :=
  let t := tableOf r
  let bad (d : Nat) : Bool := d == 0 || 8 < d
  let first (p : AlgEntry → Bool) : Option Nat := t.entries.findIdx? p
  if bad t.da || bad t.db || bad t.dc then some (1, 0)
  else if t.nnz = 0 || 64 < t.nnz then some (2, 0)
  else
    match first (fun e => decide (t.da ≤ e.i) || decide (t.db ≤ e.j) || decide (t.dc ≤ e.k)) with
    | some e => some (3, e)
    | none =>
    match (List.range t.nnz).find? (fun n => (t.entries.take n).any (fun x =>
        match t.entries[n]? with
        | some y => x.i == y.i && x.j == y.j && x.k == y.k
        | none => false)) with
    | some e => some (4, e)
    | none =>
    match invAmiss t.da t.inv0 with
    | some m => some (5, m)
    | none =>
    match invAmiss t.da t.inv1 with
    | some m => some (6, m)
    | none =>
    match (List.range 1024).find? (reservedByte r t.nnz) with
    | some i => some (7, i / 8)
    | none =>
    match first (fun e => bitsAt e.c 23 8 == 255) with
    | some e => some (8, e)
    | none => none

/-! ## ALGLD (R156, R157, R345) -/

/-- Loading a table slot from the 1,024 bytes at an address. -/
def algldCore (va : Word) (tb : BitVec 1) : M Unit := do
  let x ← hart
  if va.toNat % 64 ≠ 0 then trap .align .read va
  let r ← loadM x.id va.toNat 1024
  match tableAmiss r with
  | some (code, n) => trap .algtab .read (BitVec.ofNat 64 (code ||| n <<< 8 ||| tb.toNat <<< 16))
  | none =>
    let (c, _) ← ctxM x.id
    modCtx c (fun y => { y with tabs := ⟨tb.toNat, r, some x.id, x.stores, none⟩ :: y.tabs })
def algldM (a : BitVec 6) (tb : BitVec 1) : M Unit := do
  drained
  algldCore ((← hart).rs a) tb
  nextInstr
/-- ALGLD is a tuple instruction for R261: before CLAIM it is a nested trap. -/
def execAlgld (a : BitVec 6) (t : BitVec 1) (s : State) : Out :=
  if absent s 1 then .next (absentHere (.algld a t) s)
  else if s.hart.frozen then .next (illegalHere (.algld a t) s) else scalar (algldM a t) s

/-- The table a hart sees in a slot (R157): the newest, or at RECORD and REPLAY the newest that is its own or was
released below its last acquire. At FREE and DIGEST every hart of the context sees it at once (DESIGN CHOICE, log 93). -/
def tableRecord (s : State) (h : Hart) (tb : Nat) : Option (List Byte) :=
  let c := s.ctx (ctxOf s h)
  let seen (t : Tab) : Bool := !c.strict || t.hart == some h.id ||
    h.kin.any (fun k => t.hart == some k.1 && decide (t.seq < k.2)) ||
    (match t.stamp with | some n => decide (n < h.lastAcq) | none => false)
  (c.tabs.find? (fun t => t.tb == tb && seen t)).map (·.record)
def tableSeen (s : State) (h : Hart) (tb : Nat) : Option AlgTable := (tableRecord s h tb).map tableOf
/-- The version an instruction of the focus hart's queue uses: the one it began with, where it has been stopped inside (R157). -/
def dispatchRecord (s : State) (tb : Nat) : Option (List Byte) :=
  match s.hart.part.bind (·.table) with
  | some r => some r
  | none => tableRecord s s.hart tb
def dispatchTable (s : State) (tb : Nat) : Option AlgTable := (dispatchRecord s tb).map tableOf

/-! ## Evaluation (R159) -/

/-- c · p for a finite f32 constant, rounded once. -/
def scaleProduct (f : Fmt) (md : Frm) (c p : Nat) : Nat × Flags :=
  let y := f.decode p
  (nanOf f [y]).getD (match mulNum (Fmt.f32.decode c) y with | none => gen f 4 | some v => deliver f md v)

/-- `table_eval` of R159: component `q` from the entries and their products, in table order. -/
def tableEval (f : Fmt) (md : Frm) (q : Nat) : Option Nat × Flags → List (AlgEntry × Nat) → Nat × Flags
  | (acc, fl), [] => (acc.getD 0, fl)
  | (acc, fl), (e, p) :: t =>
    if e.k = q then
      let (x, f1) := scaleProduct f md e.c p
      match acc with
      | none => tableEval f md q (some x, fl ||| f1) t
      | some y => tableEval f md q (some (fAdd f md y x).1, fl ||| f1 ||| (fAdd f md y x).2) t
    else tableEval f md q (acc, fl) t

/-- An infinity or a NaN. -/
def special (f : Fmt) (x : Nat) : Bool :=
  match f.decode x with
  | .fin _ _ _ => false
  | _ => true
/-- Some structurally absent pair hides a special value (R161). -/
def skipsSpecial (t : AlgTable) (left right : Nat → Bool) : Bool :=
  (List.range t.da).any (fun i => (List.range t.db).any (fun j =>
    t.entries.all (fun e => e.i != i || e.j != j) && (left i || right j)))

/-- ASKIP is sticky (R161). -/
def Hart.askip (h : Hart) (b : Bool) : Hart := if b then { h with algstat := h.algstat ||| 2 } else h

/-- TUPLE_LEN's TRAPVAL (R257). -/
def tupleLen {α : Type} (vl div : Nat) : M α := do
  modHart (fun h => { h with vstart := 0 })
  trap .tupleLen .read (BitVec.ofNat 64 (vl ||| div <<< 32))
/-- ALGTAB of an instruction that uses a table (R155). -/
def algtab {α : Type} (code tb : Nat) : M α := do
  modHart (fun h => { h with vstart := 0 })
  trap .algtab .read (BitVec.ofNat 64 (code ||| tb <<< 16))

/-- What the components of tuples of `div` elements receive: active tuples their result, others what R58 gives. A VSTART
inside a tuple restarts that tuple, as R160's pseudocode has it (DEDUCED, log 83). -/
def tuplePolicy (h : Hart) (k : BitVec 4) (z : BitVec 1) (div : Nat) (f : Nat → Nat) (n : Nat) : Option Nat :=
  if n / div < h.vstart / div then none
  else if h.active k (n / div * div) then some (f n)
  else if z = 1 then some 0 else none
/-- Active tuples from VSTART on. -/
def dueTuples (h : Hart) (k : BitVec 4) (div : Nat) : List Nat :=
  indices (fun t => h.active k (t * div) && decide (h.vstart / div ≤ t)) (h.vl / div)

/-- VTMUL (R160). -/
def vtmulM (d a b : BitVec 6) (k : BitVec 4) (z tb : BitVec 1) (_ : Cap) : M Unit := do
  let h ← hart
  if !h.et.isFloat then refuse (.vtmul d a b k z tb)
  match dispatchTable (← get) tb.toNat with
  | none => algtab 9 tb.toNat
  | some t =>
    let vlm := vlmax h.et h.lanes
    let n := h.vl / t.dc
    if h.vl % t.dc ≠ 0 || vlm < n * t.da || vlm < n * t.db then tupleLen h.vl t.dc
    let w := h.et.bytes
    let f := h.et.fmt
    let left (u i : Nat) : Nat := h.elem a.toNat w (u * t.da + i)
    let right (u j : Nat) : Nat := h.elem b.toNat w (u * t.db + j)
    let due := dueTuples h k t.dc
    if (h.vpr a.toNat != 0 || h.vpr b.toNat != 0) && due.any (fun u =>
        (List.range t.da).any (fun i => h.elemBad a.toNat w (u * t.da + i)) ||
        (List.range t.db).any (fun j => h.elemBad b.toNat w (u * t.db + j))) then squash poisonReg
    let products (u : Nat) : List (AlgEntry × (Nat × Flags)) :=
      t.entries.map (fun e => (e, fMul f h.frm (left u e.i) (right u e.j)))
    let eval (u q : Nat) : Nat × Flags := tableEval f h.frm q (none, 0) ((products u).map (fun p => (p.1, p.2.1)))
    let fl := due.foldl (fun x u => (List.range t.dc).foldl (fun y q => y ||| (eval u q).2)
      ((products u).foldl (fun y p => y ||| p.2.2) x)) 0
    let skip := due.any (fun u => skipsSpecial t (fun i => special f (left u i)) (fun j => special f (right u j)))
    let res := due.map (fun u => (u, (List.range t.dc).map (fun q => (eval u q).1)))
    let out (m : Nat) : Nat := match res.find? (fun p => p.1 == m / t.dc) with
      | some p => p.2.getD (m % t.dc) 0
      | none => 0
    setHartM (((h.writeElems d.toNat w h.vl (tuplePolicy h k z t.dc out)).orFlags fl).askip skip)
def execVtmul (d a b : BitVec 6) (k : BitVec 4) (z t : BitVec 1) (st : State) : Out :=
  if absent st 1 then .next (absentHere (.vtmul d a b k z t) st)
  else vecIssue (.vtmul d a b k z t) (vtmulM d a b k z t) st

/-- VTCONJ (R165): bits move and signs flip. -/
def vtconjM (d a : BitVec 6) (k : BitVec 4) (z tb v : BitVec 1) (_ : Cap) : M Unit := do
  let h ← hart
  if !h.et.isFloat then refuse (.vtconj d a k z tb v)
  match dispatchTable (← get) tb.toNat with
  | none => algtab 9 tb.toNat
  | some t =>
    if h.vl % t.da ≠ 0 then tupleLen h.vl t.da
    let w := h.et.bytes
    let inv := if v = 1 then t.inv1 else t.inv0
    if h.vpr a.toNat != 0 && (dueTuples h k t.da).any (fun u =>
        (List.range t.da).any (fun i => h.elemBad a.toNat w (u * t.da + i))) then squash poisonReg
    let out (m : Nat) : Nat :=
      let b := inv.getD (m % t.da) 0
      let x := h.elem a.toNat w (m / t.da * t.da + invSel b)
      if invNeg b then x ^^^ h.et.fmt.signBit else x
    setHartM (h.writeElems d.toNat w h.vl (tuplePolicy h k z t.da out))
def execVtconj (d a : BitVec 6) (k : BitVec 4) (z t v : BitVec 1) (st : State) : Out :=
  if absent st 1 then .next (absentHere (.vtconj d a k z t v) st)
  else vecIssue (.vtconj d a k z t v) (vtconjM d a k z t v) st

end Sys2Proof.Machine
end

