-- ==== Sys2Proof/Machine/Tiles.lean ====
section
/-! DEFINITION. Tiles and the sums of the Lantern: tile images (08 R169, 06 R148), group and row sums (06 R144 to
R149), and the arithmetic of the checksums (08 R173, R184). Formats are the page-format codes of 06 R150. -/

namespace Sys2Proof.Machine

/-! ## Tile images (R148, R169) -/

/-- A 2:4-compressed image. -/
def tileSparse (f : Nat) : Bool := 16 ≤ f
/-- i8a or i4a. -/
def tileQuant (f : Nat) : Bool := f == 8 || f == 9
/-- Tile columns by format. -/
def tileN (f : Nat) : Nat :=
  if f = 3 || f = 4 then 32 else if f = 9 || f = 16 || f = 17 then 128 else 64
/-- Element width in bytes of an unquantised tile. -/
def tileW (f : Nat) : Nat := if f = 3 || f = 4 || f = 18 || f = 19 then 2 else 1
/-- Group size of a quantised tile. -/
def tileG (gs : Nat) : Nat := 2 ^ (gs + 4)
/-- Depth unit, and the greatest depth. -/
def tileUnit (f gs : Nat) : Nat := if tileQuant f then tileG gs else 16
def tileMax (f : Nat) : Nat := if tileW f = 2 then 512 else 1024
/-- Formats a tile image may have. -/
def tileFormat (f : Nat) : Bool := f ≤ 4 || tileQuant f || (16 ≤ f && f ≤ 19)
/-- Header bytes of a quantised block. -/
def blockHead (f : Nat) : Nat := if f = 9 then 384 else 256
/-- Bytes of one quantised block. -/
def blockBytes (f gs : Nat) : Nat := blockHead f + 64 * tileG gs
/-- Bytes of an image of depth `d`. -/
def imageBytes (f gs d : Nat) : Nat :=
  if tileQuant f then d / tileG gs * blockBytes f gs
  else if tileSparse f then d / 2 * tileN f * tileW f + d / 4 * tileN f
  else 64 * d

def Tile.byte (t : Tile) (i : Nat) : Nat := bitsAt t.image (8 * i) 8
/-- A sparse image's metadata byte for group `g` and column `n`. -/
def metaOffset (f d g n : Nat) : Nat := d / 2 * tileN f * tileW f + g * tileN f + n
/-- A metadata byte that is malformed (R169). -/
def metaBad (b : Nat) : Bool := decide (bitsAt b 2 2 ≤ bitsAt b 0 2) || bitsAt b 4 4 != 0

/-- The element (m, n) of an array of N columns, a row of which takes N · w bytes. -/
def Tile.cell (t : Tile) (m n : Nat) : Nat :=
  bitsAt t.image (8 * ((m * tileN t.fmt + n) * tileW t.fmt)) (8 * tileW t.fmt)
/-- The pattern at (k, n) of an unquantised tile; none for a compressed zero. -/
def Tile.pattern (t : Tile) (k n : Nat) : Option Nat :=
  if tileSparse t.fmt then
    let b := t.byte (metaOffset t.fmt t.depth (k / 4) n)
    if k % 4 = bitsAt b 0 2 then some (t.cell (2 * (k / 4)) n)
    else if k % 4 = bitsAt b 2 2 then some (t.cell (2 * (k / 4) + 1) n)
    else none
  else some (t.cell k n)
/-- q − z at (k, n) of a quantised tile (R148). -/
def Tile.quant (t : Tile) (k n : Nat) : Int :=
  let b := k / tileG t.gs * blockBytes t.fmt t.gs
  let r := k % tileG t.gs
  if t.fmt = 8 then (t.byte (b + 256 + 64 * r + n) : Int) - t.byte (b + 128 + n)
  else
    let nib (x : Nat) : Nat := bitsAt x (4 * (n % 2)) 4
    (nib (t.byte (b + 384 + 64 * r + n / 2)) : Int) - nib (t.byte (b + 256 + n / 2))
/-- The FP16 scale of column `n` in the block of row `k`. -/
def Tile.scale (t : Tile) (k n : Nat) : Nat :=
  bitsAt t.image (8 * (k / tileG t.gs * blockBytes t.fmt t.gs + 2 * n)) 16

/-- The floating format of a tile's elements. -/
def tileFmt (f : Nat) : Fmt :=
  if f = 2 then .f8e5 else if f = 3 || f = 18 then .bf16 else if f = 4 || f = 19 then .f16 else .f8e4
/-- Integer tiles. -/
def tileInt (f : Nat) : Bool := f == 0 || f == 17

/-- An integer as a number; 0 is positive, which gives its product with a negative number a sign (DESIGN CHOICE, log 82). -/
def numOfInt (x : Int) : Num := .fin (decide (x < 0)) x.natAbs 0
/-- A number that is an integer. -/
def intOfNum : Num → Int
  | .fin n m e => if n then -(m <<< e.toNat : Nat) else (m <<< e.toNat : Nat)
  | _ => 0

/-- The tile element at (k, n) as it enters a product: none for a compressed zero; q − z for a quantised tile. -/
def Tile.num (t : Tile) (k n : Nat) : Option Num :=
  if tileQuant t.fmt then some (numOfInt (t.quant k n))
  else if tileInt t.fmt then (t.pattern k n).map (fun x => numOfInt (toSigned 8 x))
  else (t.pattern k n).map (tileFmt t.fmt).decode

/-! ## Group and row sums (R144 to R147) -/

/-- f32 addition and multiplication, to nearest. -/
def add32 (x y : Nat) : Nat := (fAdd .f32 .rne x y).1
def mul32 (x y : Nat) : Nat := (fMul .f32 .rne x y).1

/-- `quiet` of a NaN operand, in f32. -/
def quiet32 : Num → Option Nat
  | .nan n _ p => some (Fmt.f32.encodeNan n true p)
  | _ => none
/-- The window's exact sum of products, in units of 2^q, each cut toward zero. -/
def windowSum (q : Int) (ps : List Num) : Int :=
  ps.foldl (fun s p => match p with
    | .fin n m e =>
      let k : Nat := if q ≤ e then m <<< (e - q).toNat else m >>> (q - e).toNat
      if n then s - k else s + k
    | _ => s) 0
def isInf (neg : Bool) : Num → Bool
  | .inf n => n == neg
  | _ => false
/-- Exponent of the leading bit of each nonzero product. -/
def leadExps (ps : List Num) : List Int :=
  ps.filterMap (fun p => match p with
    | .fin _ m e => if m = 0 then none else some (e + bitLen m - 1)
    | _ => none)
/-- `lantern_group_sum` (R144) of the present pairs, a before b, in ascending k. -/
def groupSum (ps : List (Num × Num)) : Nat :=
  match ps.findSome? (fun p => (quiet32 p.1).orElse (fun _ => quiet32 p.2)) with
  | some x => x
  | none =>
    match ps.mapM (fun p => mulNum p.1 p.2) with
    | none => Fmt.f32.genNan 4
    | some qs =>
      if qs.any (isInf false) && qs.any (isInf true) then Fmt.f32.genNan 3
      else if qs.any (isInf false) then Fmt.f32.infBits
      else if qs.any (isInf true) then Fmt.f32.sign true + Fmt.f32.infBits
      else
        match leadExps qs with
        | [] => if qs ≠ [] && qs.all (fun p => match p with | .fin n _ _ => n | _ => false) then Fmt.f32.sign true else 0
        | x :: t =>
          let q := t.foldl max x - 35
          let s := windowSum q qs
          (Fmt.f32.round .rne (decide (s < 0)) s.natAbs q false).1

/-- Consecutive parts of `n` positions. -/
def partsOf {α : Type} (n : Nat) (xs : List α) : List (List α) :=
  (List.range ((xs.length + n - 1) / n)).map (fun i => (xs.drop (n * i)).take n)
/-- Addition from the first term on, the running value on the left (R145, R184). -/
def sumFrom (add : Nat → Nat → Nat) : List Nat → Nat
  | [] => 0
  | x :: t => t.foldl add x
/-- A row sum (R145) over K positions, an absent one none. -/
def rowSum (xs : List (Option (Num × Num))) : Nat :=
  sumFrom add32 ((partsOf 16 xs).map (fun g => groupSum (g.filterMap id)))

/-- The pairs of column `n` for A elements from position 0. -/
def pairsOf (a : List Num) (t : Tile) (n : Nat) : List (Option (Num × Num)) :=
  a.mapIdx (fun k x => (t.num k n).map (fun y => (x, y)))

/-- v of one quantised group (R146, R149): its scale times its sum u, an f32. -/
def scaled (s u : Nat) : Nat :=
  match Fmt.f16.decode s with
  | .nan _ _ _ => Fmt.f32.genNan 2
  | x =>
    (nanOf .f32 [Fmt.f32.decode u]).getD
      (match mulNum x (Fmt.f32.decode u) with
       | none => gen .f32 4
       | some p => deliver .f32 .rne p) |>.1
/-- Exact sum of integer products. -/
def intDot (xs : List (Option (Num × Num))) : Int :=
  xs.foldl (fun s p => match p with
    | some (x, y) => s + intOfNum x * intOfNum y
    | none => s) 0
/-- A quantised row (R146): `ii` for i8 activations. Where a NaN scale meets a NaN to its left, of an earlier group or the
accumulator, that one stays (DESIGN CHOICE, log 98). -/
def quantRow (ii : Bool) (a : List Num) (t : Tile) (n : Nat) : Nat :=
  let g := tileG t.gs
  sumFrom add32 ((partsOf g (pairsOf a t n)).mapIdx (fun b ps =>
    let u := if ii then (let x := intDot ps; (Fmt.f32.round .rne (decide (x < 0)) x.natAbs 0 false).1) else rowSum ps
    scaled (t.scale (b * g) n) u))

/-! ## Checksum arithmetic (R173, R184): f32 patterns, or integers modulo 2^32 -/

def ckAdd (ii : Bool) (x y : Nat) : Nat := if ii then (x + y) % 2 ^ 32 else add32 x y
def ckSub (ii : Bool) (x y : Nat) : Nat := if ii then (x + 2 ^ 32 - y) % 2 ^ 32 else (fSub .f32 .rne x y).1
def ckMul (ii : Bool) (x y : Nat) : Nat := if ii then (x * y) % 2 ^ 32 else mul32 x y
/-- A magnitude. -/
def ckMag (ii : Bool) (x : Nat) : Nat := if ii then (toSigned 32 x).natAbs % 2 ^ 32 else x % 2 ^ 31
def ckSum (ii : Bool) (xs : List Nat) : Nat := sumFrom (ckAdd ii) xs
def ckDot (ii : Bool) (xs ys : List Nat) : Nat := ckSum ii (List.zipWith (ckMul ii) xs ys)

/-- A number exact in f32, as its pattern. -/
def num32 (x : Num) : Nat := (deliver .f32 .rne x).1
/-- The decoded value of a tile element for the checksums: s · (q − z), and 0 for a compressed zero or beyond the
loaded depth. -/
def Tile.ck (t : Tile) (ii : Bool) (k n : Nat) : Nat :=
  if t.depth ≤ k then 0
  else if tileQuant t.fmt then mul32 (fConvert .f16 .f32 .rne (t.scale k n)).1 (num32 (numOfInt (t.quant k n)))
  else
    match t.num k n with
    | none => 0
    | some x => if ii then ofInt 32 (intOfNum x) else num32 x
/-- Element `e` of the flat stream of a tuple tile (R163). -/
def Tile.flat (t : Tile) (e : Nat) : Nat := t.ck false (e / tileN t.fmt) (e % tileN t.fmt)
/-- The same as it enters a product; beyond the loaded depth +0. -/
def Tile.flatNum (t : Tile) (e : Nat) : Num :=
  if t.depth ≤ e / tileN t.fmt then .fin false 0 0
  else (t.num (e / tileN t.fmt) (e % tileN t.fmt)).getD (.fin false 0 0)

/-- The checksum columns cs and abs of a tile (R173) (DEDUCED, log 30). -/
def Tile.cs (t : Tile) (ii : Bool) (k : Nat) : Nat := ckSum ii ((List.range (tileN t.fmt)).map (t.ck ii k))
def Tile.abs (t : Tile) (ii : Bool) (k : Nat) : Nat :=
  ckSum ii ((List.range (tileN t.fmt)).map (fun n => ckMag ii (t.ck ii k n)))
/-- cs_j and abs_j of a tuple tile. -/
def Tile.csj (t : Tile) (nt db j k : Nat) : Nat :=
  ckSum false ((List.range nt).map (fun n => t.flat ((k * nt + n) * db + j)))
def Tile.absj (t : Tile) (nt db j k : Nat) : Nat :=
  ckSum false ((List.range nt).map (fun n => ckMag false (t.flat ((k * nt + n) * db + j))))

/-! ## Pairs (R162, R175) -/

/-- Classes: 0 F8, 1 H, 2 Q, 3 ALG, 4 INT (DEDUCED, log 29). -/
def pairClass (af f : Nat) : Option Nat :=
  if af ≤ 1 then if f = 1 || f = 2 || f = 16 then some 0 else none
  else if af = 2 then if tileInt f then some 4 else if tileQuant f then some 2 else none
  else if af = 3 then if f = 3 || f = 18 then some 1 else if tileQuant f then some 2 else none
  else if af = 4 then if f = 4 || f = 19 then some 1 else none
  else none
/-- Pairs beyond f8 × f8 and i8 × i8, which capability 0x0002 governs (R21). -/
def pairExtra (af f : Nat) : Bool := !(af ≤ 1 && (f == 1 || f == 2)) && !(af == 2 && f == 0)
/-- Pairs of algebra mode. -/
def pairAlg (af f : Nat) : Bool := (af ≤ 1 && (f == 1 || f == 2)) || (af == 3 && f == 3) || (af == 4 && f == 4)
/-- Columns a pair computes, and the first tile column. -/
def pairCols (af f : Nat) : Nat := if af = 3 && tileQuant f then 32 else tileN f
def pairSrc (af f co : Nat) : Nat := if af = 3 && tileQuant f then 32 * co else 0

/-- A formats (R95): 0 f8e4, 1 f8e5, 2 i8, 3 bf16, 4 f16, 5 f32, 6 i32. -/
def afBytes (af : Nat) : Nat := if af ≤ 2 then 1 else if af ≤ 4 then 2 else 4
def afInt (af : Nat) : Bool := af == 2 || af == 6
def afFmt (af : Nat) : Fmt :=
  if af = 0 then .f8e4 else if af = 1 then .f8e5 else if af = 3 then .bf16 else if af = 4 then .f16 else .f32
/-- An A element. -/
def afNum (af x : Nat) : Num := if afInt af then numOfInt (toSigned (8 * afBytes af) x) else (afFmt af).decode x
/-- An A element for the checksums. -/
def afCk (ii : Bool) (x : Num) : Nat := if ii then ofInt 32 (intOfNum x) else num32 x

/-- K_t and N_t of a tuple tile (R162). -/
def tupleK (t : AlgTable) (kf : Nat) : Nat := 16 * (kf / (16 * t.da))
def tupleN (t : AlgTable) (nf : Nat) : Nat := min (min (nf * t.da / t.nnz) (128 / t.dc)) (nf * t.da / t.db)

end Sys2Proof.Machine
end

