-- ==== Sys2Proof/Machine/Checksum.lean ====
section
/-! DEFINITION. Check regions of the Lantern (08 R184 to R191): the updates of their records, folding, the mismatch
test, and what MLOC finds. -/

namespace Sys2Proof.Machine

/-! ## Rows and records by index -/

def wordAt {n : Nat} (x : BitVec n) (i : Nat) : Nat := (x.extractLsb' (32 * i) 32).toNat
def putWord {n : Nat} (x : BitVec n) (i v : Nat) : BitVec n :=
  (x &&& ~~~(BitVec.ofNat n (2 ^ 32 - 1) <<< (32 * i))) ||| (BitVec.ofNat n (v % 2 ^ 32) <<< (32 * i))
/-- Changing several words, first to last. -/
def putWords {n : Nat} (x : BitVec n) (ps : List (Nat × Nat)) : BitVec n := ps.foldl (fun y p => putWord y p.1 p.2) x

def Slot.row (sl : Slot) (r : Nat) : AccRow := mapGet AccRow.initial sl.acc r
def Slot.setRow (sl : Slot) (r : Nat) (x : AccRow) : Slot := { sl with acc := mapPut AccRow.initial sl.acc r x }
def Slot.region (sl : Slot) (g : Nat) : Region := mapGet Region.initial sl.regions g
def Slot.setRegion (sl : Slot) (g : Nat) (x : Region) : Slot :=
  { sl with regions := mapPut Region.initial sl.regions g x }
def Slot.weight (sl : Slot) (w : Nat) : WSlot := mapGet .empty sl.weights w
def Slot.setWeight (sl : Slot) (w : Nat) (x : WSlot) : Slot := { sl with weights := mapPut .empty sl.weights w x }
/-- Integer rows. -/
def AccRow.int (x : AccRow) : Bool := x.ty == 2

/-! ## Folding (R186) -/

/-- Magnitude counterpart of `table_eval`: |c_e| times each entry's magnitude, in table order (R185). -/
def tableMag (q : Nat) (xs : List (AlgEntry × Nat)) : Nat :=
  ckSum false ((xs.filter (fun p => p.1.k == q)).map (fun p => mul32 (p.1.c % 2 ^ 31) p.2))

/-- What a combination adds to D and DM: columns with their sums (DEDUCED, log 31). -/
def foldTerms (c : Comb) (t : Tile) (s sa : Nat → Nat) : List (Nat × Nat × Nat) :=
  let ii := c.ts = 0 && tileInt t.fmt
  let ks := List.range c.k
  if c.ts = 0 then
    (List.range (pairCols c.af t.fmt)).map (fun i =>
      let b := ks.map (fun k => t.ck ii k (pairSrc c.af t.fmt c.co + i))
      (32 * c.co + i, ckDot ii (ks.map s) b, ckDot ii (ks.map sa) (b.map (ckMag ii))))
  else
    let tab := tableOf c.table
    let nt := tupleN tab (tileN t.fmt)
    let kt := List.range (c.k / tab.da)
    (List.range (nt * tab.dc)).map (fun p =>
      let n := p / tab.dc
      let col (e : AlgEntry) : List Nat := kt.map (fun k => t.flat ((k * nt + n) * tab.db + e.j))
      let ps := tab.entries.map (fun e => (e, ckDot false (kt.map (fun k => s (k * tab.da + e.i))) (col e)))
      let ms := tab.entries.map (fun e =>
        (e, ckDot false (kt.map (fun k => sa (k * tab.da + e.i))) ((col e).map (ckMag false))))
      (32 * c.co + p, (tableEval .f32 .rne (p % tab.dc) (none, 0) ps).1, tableMag (p % tab.dc) ms))

/-- Folding a region: its live combination's sums become column expectations and take part no more. -/
def foldRegion (sl : Slot) (g : Nat) : Slot :=
  let x := sl.region g
  match x.comb with
  | none => sl
  | some c =>
    match sl.weight c.wb with
    | .tile t =>
      let ii := c.ts = 0 && tileInt t.fmt
      let ts := foldTerms c t (mapGet 0 x.sums) (mapGet 0 x.abss)
      sl.setRegion g { x with
        d := putWords x.d (ts.map (fun p => (p.1, ckAdd ii (wordAt x.d p.1) p.2.1)))
        dm := putWords x.dm (ts.map (fun p => (p.1, ckAdd ii (wordAt x.dm p.1) p.2.2)))
        comb := none, sums := [], abss := [] }
    | _ => sl
/-- Every region whose combination names a weight slot folds before a load replaces it (R170, R186). -/
def foldSlot (sl : Slot) (wb : Nat) : Slot :=
  (List.range 32).foldl (fun y g => match (y.region g).comb with
    | some c => if c.wb = wb then foldRegion y g else y
    | none => y) sl

/-! ## Updates (R185) -/

/-- What an MROW adds to E and M: real mode. -/
def rowTerms (ii : Bool) (a : List Nat) (t : Tile) : Nat × Nat :=
  let ks := List.range a.length
  (ckDot ii a (ks.map (t.cs ii)), ckDot ii (a.map (ckMag ii)) (ks.map (t.abs ii)))
/-- The same in algebra mode: entries in table order. -/
def rowTermsAlg (a : List Nat) (t : Tile) (tab : AlgTable) (kt nt : Nat) : Nat × Nat :=
  let ks := List.range kt
  let x (e : AlgEntry) : List Nat := ks.map (fun k => a.getD (k * tab.da + e.i) 0)
  (ckSum false (tab.entries.map (fun e => mul32 e.c (ckDot false (x e) (ks.map (t.csj nt tab.db e.j))))),
   ckSum false (tab.entries.map (fun e => mul32 (e.c % 2 ^ 31)
     (ckDot false ((x e).map (ckMag false)) (ks.map (t.absj nt tab.db e.j))))))

/-- A-sums after one more row: S[k] += a_k. -/
def addSums (ii : Bool) (m : SMap Nat) (a : List Nat) : SMap Nat :=
  (a.mapIdx (fun k x => (k, x))).foldl (fun m p => mapPut 0 m p.1 (ckAdd ii (mapGet 0 m p.1) p.2)) m

/-- A combination is the live one: all but how far its sums reach. -/
def sameComb (a b : Comb) : Bool :=
  a.wb == b.wb && a.co == b.co && a.ts == b.ts && a.af == b.af && a.table == b.table

/-- The checksum state after an MROW (R185): `terms` for E and M, the A elements, the written columns with their old
values. -/
def checkRow (sl : Slot) (r : Nat) (ii : Bool) (z : BitVec 1) (cls : Nat) (c : Comb) (terms : Nat × Nat)
    (a : List Nat) (olds : List (Nat × Nat)) : Slot :=
  let g := r / 32
  let i := r % 32
  let x := sl.region g
  let x1 := if z = 1 then
      { x with e := putWord x.e i terms.1, m := putWord x.m i terms.2,
               d := putWords x.d (olds.map (fun p => (p.1, ckSub ii (wordAt x.d p.1) p.2))) }
    else { x with e := putWord x.e i (ckAdd ii (wordAt x.e i) terms.1),
                  m := putWord x.m i (ckAdd ii (wordAt x.m i) terms.2) }
  let sl1 := sl.setRegion g x1
  let sl2 := match x1.comb with
    | some l => if sameComb l c then sl1 else foldRegion sl1 g
    | none => sl1
  let x2 := sl2.region g
  let k := match x2.comb with | some l => max l.k c.k | none => c.k
  sl2.setRegion g { x2 with
    comb := some { c with k := k }
    sums := addSums ii x2.sums a
    abss := addSums ii x2.abss (a.map (ckMag ii))
    classes := x2.classes ||| (1 <<< cls) }

/-- The checksum state after an MWR (R185): columns with what was added to each. -/
def checkWrite (sl : Slot) (r : Nat) (ii : Bool) (ds : List (Nat × Nat)) : Slot :=
  let g := r / 32
  let i := r % 32
  let x := sl.region g
  let vs := ds.map (·.2)
  if ds = [] then sl
  else sl.setRegion g { x with
    e := putWord x.e i (ckAdd ii (wordAt x.e i) (ckSum ii vs))
    m := putWord x.m i (ckAdd ii (wordAt x.m i) (ckSum ii (vs.map (ckMag ii))))
    d := putWords x.d (ds.map (fun p => (p.1, ckAdd ii (wordAt x.d p.1) p.2)))
    dm := putWords x.dm (ds.map (fun p => (p.1, ckAdd ii (wordAt x.dm p.1) (ckMag ii p.2)))) }

/-- The checksum state before rows `lo` to `hi` of region `g` are cleared (R185). -/
def checkClear (sl : Slot) (g lo hi : Nat) : Slot :=
  if lo = 32 * g && hi = 32 * g + 31 then sl.setRegion g Region.initial
  else (List.range (hi + 1 - lo)).foldl (fun y j =>
    let r := lo + j
    let row := y.row r
    let x := y.region g
    y.setRegion g { x with
      e := putWord x.e (r % 32) 0
      m := putWord x.m (r % 32) 0
      d := putWords x.d ((List.range 128).map (fun c =>
        (c, if row.ty = 0 then wordAt x.d c else ckSub row.int (wordAt x.d c) (wordAt row.cols c)))) }) sl

/-! ## The test (R187) -/

/-- A tolerance field: its magnitude, a NaN as +0. -/
def tolField (x : Nat) : Nat := if Fmt.f32.infBits < x % 2 ^ 31 then 0 else x % 2 ^ 31
/-- A region's tolerance (REL, ABS) from the hart's registers: the largest over the classes that have written it, of
MTOL_H where none has, or none that has a register (DESIGN CHOICE, log 99). -/
def regionTol (h : Hart) (x : Region) : Nat × Nat :=
  let cs := (List.range 4).filter (fun c => x.classes.getLsbD c)
  let ws := (if cs = [] then [1] else cs).map (fun c => (h.mtol.toList.getD c 0).toNat)
  (ws.foldl (fun m w => max m (tolField (bitsAt w 32 32))) 0, ws.foldl (fun m w => max m (tolField (bitsAt w 0 32))) 0)
/-- `mismatch` of R187. -/
def mismatch (ii : Bool) (tol : Nat × Nat) (act want mag : Nat) : Bool :=
  if ii then act != want
  else if special .f32 act || special .f32 want then
    !((isNan (Fmt.f32.decode act) && isNan (Fmt.f32.decode want)) ||
      (act == want && !isNan (Fmt.f32.decode act)))
  else
    let d := (fSub .f32 .rne act want).1 % 2 ^ 31
    let t := add32 tol.2 (mul32 tol.1 mag)
    (fCmp .f32 1 t d).1

/-- A region's verdict after it has folded (R188). -/
def verdictOf (h : Hart) (sl : Slot) (g : Nat) : Verdict :=
  let x := sl.region g
  let rows := (List.range 32).map (fun i => sl.row (32 * g + i))
  let ii := match rows.head? with | some r => r.int | none => false
  let tol := regionTol h x
  let actR := rows.map (fun r => ckSum ii ((List.range 128).map (wordAt r.cols)))
  let actC := (List.range 128).map (fun c => ckSum ii (rows.map (fun r => wordAt r.cols c)))
  let bad (acts : List Nat) (e m : Nat → Nat) : List Nat :=
    (List.range acts.length).filter (fun i => mismatch ii tol (acts.getD i 0) (e i) (m i))
  let rb := bad actR (wordAt x.e) (wordAt x.m)
  let cb := bad actC (wordAt x.d) (wordAt x.dm)
  if rb = [] && cb = [] then .pass
  else .fail (BitVec.ofNat 32 (rb.foldl (fun b i => b + 2 ^ i) 0)) (BitVec.ofNat 128 (cb.foldl (fun b c => b + 2 ^ c) 0))
    (putWords 0 (rb.map (fun i => (i, ckSub ii (actR.getD i 0) (wordAt x.e i)))))
    (putWords 0 (cb.map (fun c => (c, ckSub ii (actC.getD c 0) (wordAt x.d c)))))

/-- Set bits, rising. -/
def bitList {n : Nat} (x : BitVec n) : List Nat := (List.range n).filter (fun i => x.getLsbD i)

/-- MSTAT's failure fields (R183). -/
def mstatFail (old : Word) (g : Nat) (rows : BitVec 32) (cols : BitVec 128) (first : Nat) : Word :=
  (old &&& ~~~0xFFFFFFFFF8FFFE40#64) ||| BitVec.ofNat 64 (rows.toNat <<< 32 ||| g <<< 27 ||| (bitList cols).length <<< 16
    ||| first <<< 9 ||| 0x40)
def mstatPass (old : Word) : Word := old &&& ~~~0xFFFFFFFFF8FFFE40#64
/-- MSTAT.CUV (R183, R193): some row of the slot is consumed and unchecked. -/
def cuv (sl : Slot) : Bool := sl.acc.any (fun p => p.2.consumed && !p.2.checked)
/-- CONS of R189: consumed bits of a region's rows. -/
def consOf (sl : Slot) (g : Nat) : BitVec 32 :=
  BitVec.ofNat 32 ((List.range 32).foldl (fun b i => if (sl.row (32 * g + i)).consumed then b + 2 ^ i else b) 0)
/-- The rows of a region become checked and lose their consumed bits. -/
def passRows (sl : Slot) (g : Nat) : Slot :=
  (List.range 32).foldl (fun y i =>
    y.setRow (32 * g + i) { y.row (32 * g + i) with checked := true, consumed := false }) sl

/-- What MLOC writes for a region (R190), and the row's discrepancy when it locates an element. Where one of the magnitudes is a
NaN the row's counts as the larger (DESIGN CHOICE, log 100). -/
def locateElem (h : Hart) (sl : Slot) (g : Nat) : Nat × Option (Nat × Nat × Nat) :=
  let x := sl.region g
  match x.verdict with
  | .fail rb cb rd cd =>
    match bitList rb, bitList cb with
    | [i], [c] =>
      let ii := (sl.row (32 * g)).int
      let mag := if numLt false (Fmt.f32.decode (wordAt x.m i)) (Fmt.f32.decode (wordAt x.dm c)) then wordAt x.dm c
        else wordAt x.m i
      if mismatch ii (regionTol h x) (wordAt rd i) (wordAt cd c) mag then (2 ^ 63 + 3, none)
      else (i ||| c <<< 8, some (i, c, wordAt rd i))
    | _, _ => (2 ^ 63 + 2, none)
  | _ => (2 ^ 63 + 1, none)

end Sys2Proof.Machine
end

