-- ==== Sys2Proof/Machine/Lantern.lean ====
section
/-! DEFINITION. The Lantern's instructions (08 R175 to R182, R188 to R193; 23 R385 to R387): MROW, MRD, MWR, MCLR,
MCHK, MLOC, MFIX. The order in which the machine's steps run them is the one order of R181. -/

namespace Sys2Proof.Machine

/-- MATRIX_TYPE (R257): code and row (DEDUCED, log 28). -/
def matrixType {α : Type} (code ar : Nat) : M α := do
  modHart (fun h => { h with vstart := 0 })
  trap .matrixType .read (BitVec.ofNat 64 (code ||| ar <<< 8))
/-- POISON of an accumulator row or a tile (R257) (DEDUCED, log 32). -/
def poisonRow {α : Type} : M α := squash (2 <<< 62)
/-- The slot of the focus hart. -/
def slotM : M Slot := do
  let s ← get
  return s.slot s.hart.slotId
def setSlotM (x : Slot) : M Unit := modify (fun s => s.setSlot s.hart.slotId x)
/-- The register number of an x form (R64). -/
def xReg (x : BitVec 1) (a : BitVec 6) : M Nat := do
  if x = 1 then
    let r := (← lateReg a).toNat % 64
    if 48 ≤ r then illegalReg r else return r
  else return a.toNat
def Hart.setMstat (h : Hart) (b : Word) : Hart := { h with mstat := h.mstat ||| b }
/-- Rows on an array with a failed column and no spare are written poisoned (R318). -/
def rowPoison (s : State) : Bool := (s.core s.hart.core).badColumn

/-! ## MROW (R176) -/

/-- A row's results: each written column, its old value and what is added to it or replaces it. -/
structure RowOut where
  cols : List (Nat × Nat)
  vals : List Nat
  terms : Nat × Nat
  cks : List Nat
  comb : Comb
  cls : Nat
  iovf : Bool
  skz : Bool
  askip : Bool

/-- Real mode (R176, R177). -/
def rowReal (t : Tile) (wb co af cls : Nat) (z : BitVec 1) (a : List Num) (old : Nat → Nat) : RowOut :=
  let ii := cls = 4
  let base := 32 * co
  let src := pairSrc af t.fmt co
  let cols := List.range (pairCols af t.fmt)
  let sums := cols.map (fun c => if ii then intDot (pairsOf a t (src + c)) else 0)
  let int (c : Nat) : Int := (sums.getD c 0) + (if z = 1 then 0 else toSigned 32 (old (base + c)))
  let row (c : Nat) : Nat := if cls = 2 then quantRow (af = 2) a t (src + c) else rowSum (pairsOf a t (src + c))
  let inRange (x : Int) : Bool := decide (-(2 ^ 31) ≤ x) && decide (x < 2 ^ 31)
  let cks := a.map (afCk ii)
  { cols := cols.map (fun c => (base + c, old (base + c)))
    vals := cols.map (fun c => if ii then ofInt 32 (int c)
      else if z = 1 then row c else add32 (old (base + c)) (row c))
    terms := rowTerms ii cks t
    cks := cks
    comb := ⟨wb, co, 0, af, [], a.length⟩
    cls := cls
    iovf := ii && (sums.any (fun x => !inRange x) || cols.any (fun c =>
      !inRange (toSigned 32 (ofInt 32 (sums.getD c 0)) + (if z = 1 then 0 else toSigned 32 (old (base + c))))))
    skz := tileSparse t.fmt && (List.range a.length).any (fun k =>
      (match a[k]? with | some (.fin _ _ _) => false | _ => true) && cols.any (fun c => (t.pattern k c).isNone))
    askip := false }

/-- Algebra mode (R163, R164). -/
def rowAlg (t : Tile) (wb co ts af : Nat) (rc : List Byte) (kt nt : Nat) (z : BitVec 1) (a : List Num)
    (old : Nat → Nat) : RowOut :=
  let tab := tableOf rc
  let x (i k : Nat) : Num := a.getD (k * tab.da + i) (.fin false 0 0)
  let y (n j k : Nat) : Num := t.flatNum ((k * nt + n) * tab.db + j)
  let ks := List.range kt
  let p (n : Nat) : List (AlgEntry × Nat) :=
    tab.entries.map (fun e => (e, rowSum (ks.map (fun k => some (x e.i k, y n e.j k)))))
  let outs := (List.range nt).flatMap (fun n =>
    let ps := p n
    (List.range tab.dc).map (fun q => (tableEval .f32 .rne q (none, 0) ps).1))
  let base := 32 * co
  let cols := List.range (nt * tab.dc)
  let spec (v : Num) : Bool := match v with | .fin _ _ _ => false | _ => true
  let cks := a.map (afCk false)
  { cols := cols.map (fun c => (base + c, old (base + c)))
    vals := cols.map (fun c => if z = 1 then outs.getD c 0 else add32 (old (base + c)) (outs.getD c 0))
    terms := rowTermsAlg cks t tab kt nt
    cks := cks
    comb := ⟨wb, co, ts, af, rc, kt * tab.da⟩
    cls := 3
    iovf := false
    skz := false
    askip := skipsSpecial tab (fun i => ks.any (fun k => spec (x i k)))
      (fun j => (List.range nt).any (fun n => ks.any (fun k => spec (y n j k)))) }

/-- The effect of a dispatched row: columns, checksum state, the row unchecked, sticky bits. -/
def rowCommit (r : Nat) (z : BitVec 1) (ii bad : Bool) (o : RowOut) : M Unit := do
  let sl ← slotM
  let row := sl.row r
  let sl1 := checkRow sl r ii z o.cls o.comb o.terms o.cks o.cols
  let whole := z = 1 && o.cols.length = 128
  setSlotM (sl1.setRow r { row with
    cols := putWords row.cols (List.zipWith (fun c v => (c.1, v)) o.cols o.vals)
    checked := false
    poisoned := bad || (row.poisoned && !whole) })
  modHart (fun h => (h.setMstat (BitVec.ofNat 64 ((if o.iovf then 4 else 0) + (if o.skz then 2 else 0)))).askip o.askip)

/-- The tile a row instruction meets (R174, R176). -/
def rowTile (r : Nat) : M (Nat × Tile) := do
  let h ← hart
  let sl ← slotM
  match h.tile with
  | none => matrixType 2 r
  | some wb =>
    match sl.weight wb with
    | .empty => matrixType 2 r
    | .loading => hold
    | .tile t => return (wb, t)

/-- Another hart's column self-test holds the core's array (R189). -/
def arrayBusy (s : State) : Bool :=
  s.liveHarts.any (fun x => x.core == s.hart.core && x.id != s.hart.id &&
    match x.run with
    | .parked (.columnTest _ _ _) => true
    | _ => false)

def mrowM (r : BitVec 10) (a : BitVec 6) (co ts : BitVec 2) (z x : BitVec 1) (f : BitVec 3) (c : Cap) : M Unit := do
  let h ← hart
  let s ← get
  let af := f.toNat
  if arrayBusy s then hold
  let vr ← xReg x a
  let (wb, t) ← rowTile r.toNat
  match pairClass af t.fmt with
  | none => refuse (.mrow r a co ts z x f)
  | some cls =>
    if pairExtra af t.fmt && absent s 2 then modify (maskedRecord (encode (.mrow r a co ts z x f)) c.pc)
    if (pairExtra af t.fmt && absent s 2) || (ts != 0 && !pairAlg af t.fmt) then refuse (.mrow r a co ts z x f)
    let sl ← slotM
    let row := sl.row r.toNat
    if row.ty ≠ (if cls = 4 then 2 else 1) then matrixType 1 r.toNat
    let kf := h.lanes * 256 / afBytes af
    let elems (n : Nat) : List Num := (List.range n).map (fun k => afNum af (h.elem vr (afBytes af) k))
    let bad (n : Nat) : M Unit := do
      if t.poisoned || (row.poisoned && z = 0) then poisonRow
      if h.vpr vr != 0 && (List.range n).any (fun k => h.elemBad vr (afBytes af) k) then squash poisonReg
    if ts = 0 then
      let k := min t.depth kf
      let ncol := pairCols af t.fmt
      if 128 < 32 * co.toNat + ncol || tileN t.fmt < pairSrc af t.fmt co.toNat + ncol then matrixType 3 r.toNat
      bad k
      rowCommit r.toNat z (cls = 4) (rowPoison s) (rowReal t wb co.toNat af cls z (elems k) (wordAt row.cols))
    else
      match tableRecord s h (ts.toNat - 1) with
      | none => algtab 9 (ts.toNat - 1)
      | some rc =>
        let tab := tableOf rc
        let nt := tupleN tab (tileN t.fmt)
        let kt := tupleK tab kf
        if nt = 0 then algtab 10 (ts.toNat - 1)
        if 128 < 32 * co.toNat + nt * tab.dc then algtab 11 (ts.toNat - 1)
        bad (kt * tab.da)
        rowCommit r.toNat z false (rowPoison s)
          (rowAlg t wb co.toNat ts.toNat af rc kt nt z (elems (kt * tab.da)) (wordAt row.cols))
def execMrow (r : BitVec 10) (a : BitVec 6) (c t : BitVec 2) (z x : BitVec 1) (f : BitVec 3) (st : State) : Out :=
  if t != 0 && absent st 1 then .next (absentHere (.mrow r a c t z x f) st)
  else vecIssue (.mrow r a c t z x f) (mrowM r a c t z x f) st

/-! ## MRD and MWR (R179, R180, R387) -/

/-- The checks MRD and MWR share: the row has a type, and the columns and elements exist. -/
def columnsOk (r : Nat) (co : BitVec 2) (w : Nat) : M AccRow := do
  let h ← hart
  let sl ← slotM
  let row := sl.row r
  if row.ty = 0 then matrixType 1 r
  if 128 < 32 * co.toNat + h.vl || h.lanes * 256 < h.vl * w then matrixType 3 r
  return row

/-- An accumulator value delivered in an A format (R179, R387): RNE, saturating to integers and to f8e4. -/
def mrdConvert (int : Bool) (af v : Nat) : Nat :=
  if int then
    if af = 6 then v
    else if af = 2 then clampW 0 8 (toSigned 32 v)
    else (fOfInt (afFmt af) .rne (toSigned 32 v)).1
  else if afInt af then (fToInt .f32 (8 * afBytes af) .rne v).1
  else (fStoreConvert .f32 (afFmt af) v).1

/-- Element `i` of a register as f32 (R179), or past the register's end a free value (DESIGN CHOICE, log 85). -/
def scaleElem (s : State) (vr i : Nat) : Nat :=
  if i * 4 < s.hart.lanes * 256 then s.hart.elem vr 4 i else (Config.freeWord (s.fresh + i)).toNat % 2 ^ 32

def mrdM (r : BitVec 10) (a : BitVec 6) (co sm : BitVec 2) (x : BitVec 1) (f : BitVec 3) (_ : Cap) : M Unit := do
  let h ← hart
  let af := f.toNat
  let w := afBytes af
  let vr ← xReg x a
  let row ← columnsOk r.toNat co w
  if h.vl ≠ 0 && row.poisoned then poisonRow
  if sm != 0 && h.vl ≠ 0 then consumeAll (if sm = 2 then 1 else min h.vl (h.lanes * 64)) [(vr, 4)]
  let s ← get
  let value (i : Nat) : Nat :=
    let v := wordAt row.cols (32 * co.toNat + i)
    if sm = 0 then mrdConvert row.int af v
    else
      let v32 := if row.int then (fOfInt .f32 .rne (toSigned 32 v)).1 else v
      mrdConvert false af (mul32 v32 (scaleElem s vr (if sm = 1 then i else 0)))
  setHartM (h.writeElems vr w h.vl (fun i => some (value i)))
  if sm = 1 && h.lanes * 64 < h.vl then modify (fun s => { s with fresh := s.fresh + h.vl })
  if h.vl ≠ 0 && !row.checked then setSlotM ((← slotM).setRow r.toNat { row with consumed := true })
def execMrd (r : BitVec 10) (a : BitVec 6) (c s : BitVec 2) (x : BitVec 1) (f : BitVec 3) (st : State) : Out :=
  vecIssue (.mrd r a c s x f) (mrdM r a c s x f) st

/-- An element converted to the row type (R180, R387). -/
def mwrConvert (int : Bool) (af v : Nat) : Nat :=
  if afInt af then
    let n := toSigned (8 * afBytes af) v
    if int then ofInt 32 n else (fOfInt .f32 .rne n).1
  else if int then (fToInt (afFmt af) 32 .rne v).1
  else (fConvert (afFmt af) .f32 .rne v).1

def mwrM (r : BitVec 10) (a : BitVec 6) (co : BitVec 2) (z x : BitVec 1) (f : BitVec 3) (_ : Cap) : M Unit := do
  let h ← hart
  let s ← get
  let af := f.toNat
  let w := afBytes af
  let vr ← xReg x a
  let row ← columnsOk r.toNat co w
  if h.vl ≠ 0 && z = 0 && row.poisoned then poisonRow
  consumeAll h.vl [(vr, w)]
  let upd := (List.range h.vl).map (fun i =>
    let col := 32 * co.toNat + i
    let old := wordAt row.cols col
    let v := mwrConvert row.int af (h.elem vr w i)
    let new := if z = 1 then v else ckAdd row.int old v
    let wraps := row.int && z = 0 &&
      (let t := toSigned 32 old + toSigned 32 v; decide (t < -(2 ^ 31)) || decide (2 ^ 31 ≤ t))
    (col, new, ckSub row.int new old, wraps))
  let sl ← slotM
  let sl1 := checkWrite sl r.toNat row.int (upd.map (fun p => (p.1, p.2.2.1)))
  setSlotM (sl1.setRow r.toNat { row with
    cols := putWords row.cols (upd.map (fun p => (p.1, p.2.1)))
    checked := false
    poisoned := rowPoison s || (row.poisoned && !(z = 1 && h.vl = 128)) })
  if upd.any (·.2.2.2) then modHart (fun h => h.setMstat 4)
def execMwr (r : BitVec 10) (a : BitVec 6) (c : BitVec 2) (z x : BitVec 1) (f : BitVec 3) (st : State) : Out :=
  vecIssue (.mwr r a c z x f) (mwrM r a c z x f) st

/-! ## MCLR (R178) -/

/-- Rows `lo` to `hi` of one region cleared. -/
def clearRows (ty : Nat) (sl : Slot) (lo hi : Nat) : Slot :=
  let sl1 := checkClear sl (lo / 32) lo hi
  (List.range (hi + 1 - lo)).foldl (fun y j => y.setRow (lo + j) ⟨ty, true, false, false, 0⟩) sl1
def mclrM (r : BitVec 10) (n : BitVec 6) (f : BitVec 3) (_ : Cap) : M Unit := do
  let first := r.toNat
  let last := first + n.toNat
  let ty := if f = 5 then 1 else 2
  let sl ← slotM
  setSlotM ((List.range 32).foldl (fun y g =>
    let lo := max first (32 * g)
    let hi := min last (32 * g + 31)
    if hi < lo then y else clearRows ty y lo hi) sl)
def execMclr (r : BitVec 10) (n : BitVec 6) (f : BitVec 3) (st : State) : Out :=
  vecIssue (.mclr r n f) (mclrM r n f) st

/-! ## MCHK, MLOC, MFIX (R188 to R191) -/

/-- The columns the test covers: those mismatched, or the whole array when they are more than four. -/
def testedColumns (cols : BitVec 128) : List Nat :=
  let l := bitList cols
  if 4 < l.length then List.range 128 else l
/-- CFIRST: the lowest mismatched column; where only rows mismatch, a free value (DESIGN CHOICE, log 84). -/
def firstColumn (s : State) (cols : BitVec 128) : Nat := (bitList cols).head?.getD ((Config.freeWord s.fresh).toNat % 128)
/-- Regions from `g` on, each checked; a failing one ends the check with the self-test (R188, R189): the instruction
leaves the queue and its hart parks until the test is done. -/
def checkRegions : Nat → Nat → M Unit
  | 0, _ => modHart (fun h => { h with mstat := mstatPass h.mstat })
  | n + 1, g => do
    let h ← hart
    let sl := foldRegion (← slotM) g
    let v := verdictOf h sl g
    let sl1 := sl.setRegion g { sl.region g with verdict := v }
    match v with
    | .fail rows cols _ _ =>
      setSlotM sl1
      let s ← get
      modHart (fun h => Hart.popHead { h with
        mstat := mstatFail h.mstat g rows cols (firstColumn s cols) })
      if cols = 0 then modify (fun s => { s with fresh := s.fresh + 1 })
      throw (.park (.columnTest g (consOf sl1 g) (testedColumns cols)))
    | _ =>
      setSlotM (passRows sl1 g)
      checkRegions n (g + 1)

/-- MCHK: its field holds one less than the number of regions (R95). -/
def mchkM (r n : BitVec 5) (_ : Cap) : M Unit := do
  let sl ← slotM
  let ar := 32 * r.toNat
  let rowsOf (i : Nat) : List AccRow := (List.range 32).map (fun j => sl.row (ar + 32 * i + j))
  let regions := List.range (n.toNat + 1)
  if regions.any (fun i => (rowsOf i).any (fun x => x.ty == 0 || x.ty != (sl.row (ar + 32 * i)).ty)) then
    matrixType 5 ar
  if regions.any (fun i => (rowsOf i).any (·.poisoned)) then poisonRow
  checkRegions (n.toNat + 1) r.toNat
def execMchk (r n : BitVec 5) (st : State) : Out :=
  if absent st 3 then .next (absentHere (.mchk r n) st) else vecIssue (.mchk r n) (mchkM r n) st

def mlocM (r : BitVec 5) (d : BitVec 6) (_ : Cap) : M Unit := do
  let h ← hart
  let sl ← slotM
  setHartM (h.setS d (BitVec.ofNat 64 (locateElem h sl r.toNat).1))
def execMloc (r : BitVec 5) (d : BitVec 6) (st : State) : Out :=
  if absent st 3 then .next (absentHere (.mloc r d) st) else vecIssue (.mloc r d) (mlocM r d) st

def mfixM (r : BitVec 5) (_a : BitVec 6) (c : Cap) : M Unit := do
  let h ← hart
  let sl ← slotM
  let g := r.toNat
  match locateElem h sl g with
  | (v, some (i, col, disc)) =>
    if c.op1.toNat ≠ v then matrixType 6 (32 * g)
    let row := sl.row (32 * g + i)
    if row.poisoned then poisonRow
    let sl1 := sl.setRow (32 * g + i) { row with
      cols := putWord row.cols col (ckSub row.int (wordAt row.cols col) disc) }
    setSlotM (passRows (sl1.setRegion g { sl1.region g with verdict := .pass }) g)
  | (_, none) => matrixType 6 (32 * g)
def execMfix (r : BitVec 5) (a : BitVec 6) (st : State) : Out :=
  if absent st 3 then .next (absentHere (.mfix r a) st) else vecIssue (.mfix r a) (mfixM r a) st

end Sys2Proof.Machine
end

