-- ==== Sys2Proof/Machine/VectorMem.lean ====
section
/-! DEFINITION. The vector memory instructions: VLD, VLD_RAW, VST, VST_RAW, VLDFF, VLDFF_RAW (06 R151, R152; 10 R214,
R215; 14 R245 to R247; 25 R430 to R434) and VAMO (11 R229; 24 R419, R420). -/

namespace Sys2Proof.Machine

/-! ## Discards (R214, R215) -/

/-- The lines of 256 bytes that lie wholly within some bytes. -/
def wholeLines (as : List Nat) : List Nat :=
  ((as.map (· / 256)).eraseDups).filter (fun l => (List.range 256).all (fun i => as.contains (l * 256 + i)))
/-- A line's dirty bytes are dropped at its home. From then on every observer reads the DRAM value (R215): no cache keeps
a copy, and no snapshot an older value (DEDUCED, log 77). A line of host or peer memory stays as it is (R331, R432). -/
def discardLine (s : State) (line : Nat) : State :=
  if !(paDevice (line * 256)) then s
  else
    let mine (a : Nat) : Bool := a / 256 == line
    { s with
      l2 := s.l2.filter (fun p => !(mine p.1))
      rdc := s.rdc.filterMap (fun p =>
        let l := p.2.filter (fun e => !(mine e.a))
        if l = [] then none else some (p.1, l))
      cores := s.cores.filterMap (fun p =>
        let x := { p.2 with l1 := p.2.l1.filter (fun e => !(mine e.a)) }
        if x = Core.initial then none else some (p.1, x))
      ctxs := s.ctxs.map (fun p => (p.1, { p.2 with hist := p.2.hist.filter (fun u => !(mine u.a)) })) }
def discardAt (ls : List Loc) (s : State) : State := (wholeLines (lineAddrs ls)).foldl discardLine s

/-- Where a discard of byte `va` acts: in an enabled window on the back (R231), else where the access did. -/
def discardLoc (s : State) (h : Hart) (va : Nat) (l : Loc) : Loc :=
  let c := ctxOf s h
  match l, windowOf (s.ctx c) va with
  | .phys _, some (_, w) => .phys (lineAddr (c / 64) ((if w.gen % 2 = 1 then w.pa0 else w.pa1) + (va - w.va)))
  | _, _ => l
/-- The discard of a load's elements, by their addresses and places (DEDUCED, log 36). -/
def discardElems (h : Nat) (ps : List (Nat × Nat × List Loc)) (s : State) : State :=
  let x := s.hartOf h
  discardAt (ps.flatMap (fun p => p.2.2.mapIdx (fun i l => discardLoc s x (p.2.1 + i) l))) s

/-! ## Places of the elements (R245, R431) -/

/-- Element width of a float page format (R150). -/
def pfmtBytes (p : Nat) : Nat := if p ≤ 2 then 1 else if p ≤ 4 then 2 else 4
def pfmtFmt (p : Nat) : Fmt :=
  if p = 1 then .f8e4 else if p = 2 then .f8e5 else if p = 3 then .bf16 else if p = 4 then .f16 else .f32
def pfmtFloat (p : Nat) : Bool := 1 ≤ p && p ≤ 5
/-- i8a, i4a and 2:4-compressed pages (R150). -/
def pfmtBlock (p : Nat) : Bool := 8 ≤ p

/-- The address of element `i` (R431). -/
def vaddr (h : Hart) (c : Cap) (m : BitVec 2) (b : BitVec 6) (w i : Nat) : Nat :=
  let base := c.op1
  (if m = 0 then base + BitVec.ofNat 64 (i * w)
   else if m = 1 then base + BitVec.ofNat 64 i * c.op2
   else base + BitVec.ofNat 64 (h.elem b.toNat h.et.bytes i * w)).toNat

/-- One element's run-ahead check (R245): alignment, every page, and with raw = 0 the pages' formats (DEDUCED, log 34).
A load that will discard the element's line needs the permission of a discard beside its own (R244), unless stage 2 has
declined the access. -/
def placeOne (h a w : Nat) (k : Kind) (raw : Bool) (ref : Nat) (strong drop : Bool) : M (List Loc) := do
  if a % w ≠ 0 then trap .align k (BitVec.ofNat 64 a)
  let (ls, fs) ← locateN h a w k strong
  if drop && !(ls.any (fun l => match l with | .dead _ => true | _ => false)) then
    let _ ← locateN h a w .write strong
  if !raw then
    if fs.any (fun f => pfmtBlock f.1) then trap .format .read (BitVec.ofNat 64 a)
    if fs.any (fun f => f.1 != ref) then trap .formatSplit .read (BitVec.ofNat 64 a)
  return ls

/-- Elements with their addresses and places, up to the stopping element. A first-fault form undoes what a stage-2
event beyond element 0 began (R247). -/
def placeAll (ff : Bool) (addr : Nat → Nat) (one : Nat → M (List Loc)) :
    List Nat → M (List (Nat × Nat × List Loc) × Option (Nat × Stop))
  | [] => return ([], none)
  | i :: t => do
    let s0 ← get
    match ← attempt (one (addr i)) with
    | .ok ls =>
      let (r, e) ← placeAll ff addr one t
      return ((i, addr i, ls) :: r, e)
    | .error .wait => throw .wait
    | .error (.park p) =>
      if ff && i != 0 then set s0
      return ([], some (i, .park p))
    | .error e => return ([], some (i, e))

/-- The run-ahead check of a vector load or store (R152, R245): the page format when the access is decoded, the
elements below the stopping element with their places, and how it stops (DEDUCED, log 24). Elements whose index is
poisoned have no address; where it is the reference element's, and its page's format counts, POISON is all there is to
raise. An integer ET on a decoded page is a FORMAT of the reference element, at which a first-fault form beyond element 0
truncates VL (R247, R431) (DESIGN CHOICE, log 25). `hn` is the discard hint. -/
def vmemPlaces (c : Cap) (k : BitVec 4) (m : BitVec 2) (b : BitVec 6) (raw ff hn : Bool) (kd : Kind) :
    M (Option Nat × List (Nat × Nat × List Loc) × Option (Nat × Stop)) := do
  let h ← hart
  let w0 := h.et.bytes
  match (indices (h.active k) h.vl).head? with
  | none => return (none, [], none)
  | some i0 =>
    if m = 2 && !raw && h.elemBad b.toNat w0 i0 then squash poisonReg
    let pf ← if raw then pure (Except.ok 0) else attempt (do
      let a := vaddr h c m b w0 i0
      return (← locateGpa h.id a a kd false).pfmt)
    match pf with
    | .error .wait => throw .wait
    | .error e => if ff && i0 != 0 then return (none, [], some (i0, e)) else throw e
    | .ok p =>
      let dec := !raw && pfmtFloat p
      let w := if dec then pfmtBytes p else w0
      let addr := vaddr h c m b w
      let due := (indices (h.due k) h.vl).filter (fun i => m != 2 || !(h.elemBad b.toNat w0 i))
      let whole := if hn then wholeLines (due.flatMap (fun i => (List.range w).map (addr i + ·))) else []
      let one (a : Nat) : M (List Loc) :=
        placeOne h.id a w kd raw p false (kd = .read && (whole.contains (a / 256) || whole.contains ((a + w - 1) / 256)))
      if dec && h.et.isInt then
        -- its own checks before FORMAT come first at the reference element (R258)
        let (_, e) ← placeAll ff addr one (due.filter (· == i0))
        let e := match e with
          | some (i, .trap .formatSplit _ a) => (i, Stop.trap .format .read a)
          | some x => x
          | none => (i0, .trap .format .read (BitVec.ofNat 64 (addr i0)))
        if e.2 = .trap .format .read (BitVec.ofNat 64 (addr i0)) && !(ff && i0 != 0) then throw e.2
        return (none, [], some e)
      let (r, e) ← placeAll ff addr one due
      return (if dec then some p else none, r, e)

/-- The end of a vector memory instruction (R246, R247): it stops at its stopping element, or a first-fault form
truncates VL there. -/
def vmemStop (ff : Bool) : Option (Nat × Stop) → M Unit
  | none => pure ()
  | some (i, e) => do
    if ff && i != 0 then modHart (fun h => { h with vl := i })
    else
      modHart (fun h => { h with vstart := i })
      throw e

/-- Elements in a span that an engine operation holds make the instruction wait (R213). -/
def spansFree (h : Nat) (ps : List (Nat × Nat × List Loc)) : M Unit := eachOf (fun p => scratchFree h p.2.2) ps

/-- Poison has been met. A fault of an element at which the run-ahead check stops decides before it (R258): it is raised
with nothing performed, as the squash leaves it (R265) (DEDUCED, log 78). -/
def vmemPoison (ff : Bool) (stop : Option (Nat × Stop)) (v : Word) : M Unit :=
  match stop with
  | some (i, .trap e k a) => if ff && i != 0 then squash v else trap e k a
  | _ => squash v

/-- VLD and VLDFF (R431) (DESIGN CHOICE, log 25). -/
def vldM (d b : BitVec 6) (k : BitVec 4) (z : BitVec 1) (m : BitVec 2) (raw ff : Bool) (c : Cap) : M Unit := do
  let h ← hart
  let w0 := h.et.bytes
  let (dec, ps, stop) ← vmemPlaces c k m b raw ff (m = 0 && b = 1) .read
  if m = 2 && h.vpr b.toNat != 0 && (indices (h.due k) h.vl).any (h.elemBad b.toNat w0) then vmemPoison ff stop poisonReg
  spansFree h.id ps
  reportM (ps.flatMap (·.2.2))
  let s ← get
  match ps.findSome? (fun p => (firstBad s (s.hartOf h.id) true p.2.2).map (p.2.1 + ·)) with
  | some a => vmemPoison ff stop (poisonVal a)
  | none => pure ()
  let h ← hart
  let got := ps.map (fun p =>
    let x := leNat (p.2.2.map (locByte s h true))
    (p.1, match dec with
      | some f => fConvert (pfmtFmt f) h.et.fmt .rne x
      | none => (x, 0)))
  let vals := got.map (fun p => (p.1, p.2.1))
  let n := match stop with | some (i, _) => i | none => h.vl
  setHartM ((h.writeElems d.toNat w0 n (policy h k z (mapGet 0 vals))).orFlags (flagsOf (got.map (·.2))))
  if m = 0 && b = 1 then modify (discardElems h.id ps)
  vmemStop ff stop

/-- VST (R431). With hn = 1 the lines it covers whole are not filled, which changes no value (R214). -/
def vstM (d b : BitVec 6) (k : BitVec 4) (m : BitVec 2) (raw : Bool) (c : Cap) : M Unit := do
  let h ← hart
  let w0 := h.et.bytes
  let (dec, ps, stop) ← vmemPlaces c k m b raw false false .write
  if m = 2 && h.vpr b.toNat != 0 && (indices (h.due k) h.vl).any (h.elemBad b.toNat w0) then vmemPoison false stop poisonReg
  spansFree h.id ps
  if h.vpr d.toNat != 0 && ps.any (fun p => h.elemBad d.toNat w0 p.1) then vmemPoison false stop poisonReg
  eachOf (fun (p : Nat × Nat × List Loc) => do
    let x := h.elem d.toNat w0 p.1
    let (y, fl) := match dec with
      | some f => fStoreConvert h.et.fmt (pfmtFmt f) x
      | none => (x, 0)
    let bs := leBytes p.2.2.length y
    storeAt h.id true p.2.2 bs
    foldM h.id p.2.1 bs
    modHart (fun h => h.orFlags fl)) ps
  vmemStop false stop

def execVld (d a b : BitVec 6) (k : BitVec 4) (z : BitVec 1) (m : BitVec 2) (s : State) : Out :=
  vecIssue (.vld d a b k z m) (vldM d b k z m false false) s
def execVldRaw (d a b : BitVec 6) (k : BitVec 4) (z : BitVec 1) (m : BitVec 2) (s : State) : Out :=
  vecIssue (.vldRaw d a b k z m) (vldM d b k z m true false) s
def execVst (d a b : BitVec 6) (k : BitVec 4) (m : BitVec 2) (s : State) : Out :=
  vecIssue (.vst d a b k m) (vstM d b k m false) s
def execVstRaw (d a b : BitVec 6) (k : BitVec 4) (m : BitVec 2) (s : State) : Out :=
  vecIssue (.vstRaw d a b k m) (vstM d b k m true) s
def execVldff (d a b : BitVec 6) (k : BitVec 4) (z : BitVec 1) (m : BitVec 2) (s : State) : Out :=
  vecIssue (.vldff d a b k z m) (vldM d b k z m false true) s
def execVldffRaw (d a b : BitVec 6) (k : BitVec 4) (z : BitVec 1) (m : BitVec 2) (s : State) : Out :=
  vecIssue (.vldffRaw d a b k z m) (vldM d b k z m true true) s

/-! ## VAMO -/

/-- One element of VAMO, at places its check has found (R419, R420): VSTART stands at it while it waits for its
record; a poisoned old value is delivered poisoned and memory keeps it. -/
def vamoOne (d : Nat) (op w : Nat) (p : Nat × Nat × List Loc) : M Unit := do
  modHart (fun h => { h with vstart := p.1 })
  let h ← hart
  let r ← objectBegin h.id 1 p.2.1 (op ||| (w / 8) <<< 4) 0x1F (inScratch p.2.2)
  modify (fun s => bringHome s h.id p.2.2)
  let (bs, bad) ← strongRead h.id p.2.2
  let old := leNat bs
  let put (x : Hart) : Hart := x.writeElems d w (p.1 + 1) (fun n => if n = p.1 then some old else none)
  match bad with
  | some _ =>
    objectEnd h.id 1 p.2.1 (op ||| (w / 8) <<< 4) (BitVec.ofNat 64 old) (inScratch p.2.2) r
    modHart (fun x => (put x).setVp d ((put x).vpr d ||| (BitVec.ofNat 1024 (2 ^ w - 1) <<< (w * p.1))))
  | none =>
    strongWrite h.id p.2.1 true p.2.2 (leBytes w (amoCombine op w old (h.elem d w p.1) 0))
    objectEnd h.id 1 p.2.1 (op ||| (w / 8) <<< 4) (BitVec.ofNat 64 old) (inScratch p.2.2) r
    modHart put
  modHart (fun x => { x with vstart := p.1 + 1 })
  divergeAfter h.id r (BitVec.ofNat 64 old) h.logseq

/-- The release of a queued VAMO with rl (R217, R225): the stores that came before it, of the vector side those made so far,
of the scalar side those issued before it was queued. -/
def vamoRelease (h : Nat) (s : State) : State :=
  let x := s.hartOf h
  let at_ := (x.queue.head?.map (·.note.seq)).getD x.stores
  if at_ = x.stores then releaseAt s h
  else
    releasePart s h (nextCut s h) (fun p => p.vec || decide (p.n < at_))
      (fun u => u.op.isSome || decide (u.seq < at_) || u.vAt == some u.seq)
/-- A VAMO whose last element diverges after it has been performed takes its trap at the next instruction (R307). -/
def vamoDiverged (h : Nat) (k : Kind) (v : Word) (s : State) : State :=
  let x := s.hartOf h
  takeTrap s h .replayDiverge k v (match x.queue.tail with | e :: _ => e.pc | [] => x.pc) x.pc

/-- VAMO (R419): the elements are performed in rising order, which is one of the orders R229 allows (DEDUCED, log 8)
(DESIGN CHOICE, log 26). Once it performs, every element has been compared (R314), and it may still wait for a record. -/
def vamoM (d : BitVec 6) (o : BitVec 4) (sc : BitVec 2) (b : BitVec 6) (k : BitVec 4) (z q rl : BitVec 1) (_ : Cap) :
    M Unit := do
  let h ← hart
  let ok := if o = 10 then h.et == .f32 else h.et == .i32 || h.et == .i64
  if !ok then refuse (.vamo d o sc b k z q rl)
  let w := h.et.bytes
  let m := min h.vl (vlmax .i64 h.lanes)
  let due := indices (h.due k) m
  let addr := fun i => h.elem b.toNat 8 i
  let (ps, stop) ← placeAll false addr (fun a => placeOne h.id a w .write true 0 true false)
    (due.filter (fun i => !(h.elemBad b.toNat 8 i)))
  if (h.vpr d.toNat != 0 || h.vpr b.toNat != 0) &&
      due.any (fun i => h.elemBad d.toNat w i || h.elemBad b.toNat 8 i) then vmemPoison false stop poisonReg
  spansFree h.id ps
  if rl = 1 && h.relStage = 0 then
    modify (vamoRelease h.id)
  modHart (fun x => { x with relStage := 5 })
  let n := match stop with | some (i, _) => i | none => m
  if z = 1 then
    modHart (fun x => x.writeElems d.toNat w n (fun i =>
      if decide (x.vstart ≤ i) && !x.active k i then some 0 else none))
  match ← attempt (eachOf (vamoOne d.toNat o.toNat w) ps) with
  | .error (.trap e kd v) =>
    modHart (fun x => { x with relStage := 0 })
    modify (fun s => forgetDeclined h.id (ctxOf s h) (due.map addr) s)
    let at_ := (← hart).vstart
    let last := e = .replayDiverge && v.toNat % 8 = 2 && stop.isNone && due.all (fun i => decide (i < at_))
    if last then
      if q = 1 then modify (fun s => acquireAt s h.id)
      modify (vamoDiverged h.id kd v)
    else trap e kd v
  | .error e => throw e
  | .ok _ =>
    modHart (fun x => { x with relStage := 0 })
    modify (fun s => forgetDeclined h.id (ctxOf s h) (due.map addr) s)
    vmemStop false stop
    if q = 1 then modify (fun s => acquireAt s h.id)
def execVamo (d : BitVec 6) (o : BitVec 4) (c : BitVec 2) (b : BitVec 6) (k : BitVec 4) (z q r : BitVec 1) (s : State) :
    Out := vecIssue (.vamo d o c b k z q r) (vamoM d o c b k z q r) s

end Sys2Proof.Machine
end

