-- ==== Sys2Proof/Machine/Engines.lean ====
section
/-! DEFINITION. The engines (10 R202 to R214; 20 R323, R324; 22 to 25: R376, R377, R397, R444, R449, R450): records
and their cache, issue and completion of XCOPY, XFILL and KVCOMMIT, RCFENCE and WAITLT, and the counters that every
counted operation shares. An operation's data moves in the step of its completion, or before it by units of 256 bytes. -/

namespace Sys2Proof.Machine

/-! ## Issue and completion of counted operations (R210, R211, R213) -/

/-- Operations of a context slot in flight. -/
def Slot.inFlight (sl : Slot) : List EngOp := sl.ops.filter (fun o => !o.done)
/-- A counted operation of the focus hart may issue: its counter and, of the engines, the slot have room. -/
def engineRoom (cn : BitVec 4) (span : Option (Nat × Nat)) : M Unit := do
  let h ← hart
  let sl ← slotM
  if Config.counterMax ≤ h.counter cn.toNat then hold
  if Config.engineMax ≤ sl.inFlight.length then hold
  if span.isSome && Config.boardMax ≤ (sl.inFlight.filter (fun o => o.span.isSome)).length then hold
/-- The counter rises at issue. -/
def countUp (h cn : Nat) : M Unit := modHartNo h (fun x => x.setCounter cn (x.counter cn + 1))
/-- An operation joins the engines of the slot; a tile load keeps its place in the vector queue. -/
def engineIssue (o : EngOp) : M Unit := do
  let s ← get
  let h := s.hart
  let at_ := if o.kind = .wld then (h.queue.head?.map (·.note.seq)).getD h.stores else h.stores
  let op := { o with n := s.nextOp, hart := h.id, acq := h.lastAcq, seq := at_, next := 0, home := h.id, done := false, fold := 0 }
  set { s with nextOp := s.nextOp + 1 }
  let sl ← slotM
  setSlotM { sl with ops := sl.ops ++ [op] }
  countUp h.id o.counter

/-- Counted operations of a hart on a counter: number and whether the data is done. -/
def countedOps (s : State) (h cn : Nat) : List (Nat × Bool) :=
  ((s.slot (h / 4)).ops.filter (fun o => o.hart == h && o.counter == cn)).map (fun o => (o.n, o.done)) ++
    (s.colls.filter (fun o => o.hart == h && !o.away && o.counter == cn)).map (fun o => (o.n, o.done))
/-- The decrements of a counter whose turn has come (R210); `fuel` is how many operations there are. -/
def settle (h cn : Nat) : Nat → State → State
  | 0, s => s
  | fuel + 1, s =>
    let ops := countedOps s h cn
    match ops.find? (fun o => o.2 && ops.all (fun p => p.2 || decide (o.1 < p.1)) &&
        ops.all (fun p => decide (o.1 ≤ p.1) || !p.2)) with
    | none => s
    | some o =>
      let sl := s.slot (h / 4)
      let s1 := s.setSlot (h / 4) { sl with ops := sl.ops.filter (fun x => x.n != o.1) }
      let s2 := { s1 with colls := s1.colls.filter (fun x => x.n != o.1) }
      let x := s2.hartOf h
      settle h cn fuel (if x.live then s2.setHart (x.setCounter cn (x.counter cn - 1)) else s2)
/-- Completion of operation `n` of a slot: its data is done, its writes fold into its hart's digest (R207, R296), and the
counters settle. -/
def engineDone (slot : Nat) (o : EngOp) (s : State) : State :=
  let sl := s.slot slot
  let fold := ((sl.ops.find? (fun x => x.n == o.n)).map (·.fold)).getD 0
  let ops := if o.hart / 4 = slot then sl.ops.map (fun x => if x.n = o.n then { x with done := true } else x)
    else sl.ops.filter (fun x => x.n != o.n)
  let s0 := s.setSlot slot { sl with ops := ops }
  let x := s0.hartOf o.hart
  let s1 := if fold = 0 || !x.live then s0 else s0.setHart { x with digest := x.digest + fold }
  settle o.hart o.counter (countedOps s1 o.hart o.counter).length s1

/-! ## Places of an engine's bytes -/

/-- Page-wise parts of `n` bytes from an address. -/
def chunks (va n : Nat) : List (Nat × Nat) :=
  (List.range (n / 65536 + 2)).filterMap (fun i =>
    let p := va / 65536 + i
    let lo := max va (p * 65536)
    let hi := min (va + n) ((p + 1) * 65536)
    if lo < hi then some (lo, hi - lo) else none)
/-- The pages of some accesses, in their order, with the translations of now; scratch needs none. -/
def pagesOf (k : Kind) (as : List (Nat × Nat)) : M (List (Nat × Nat)) := do
  let h ← hart
  go h.id (as.flatMap (fun a => chunks a.1 a.2)) []
where
  go (h : Nat) : List (Nat × Nat) → List (Nat × Nat) → M (List (Nat × Nat))
    | [], acc => return acc.reverse
    | (va, _) :: t, acc => do
      if acc.any (fun p => p.1 / 65536 == va / 65536) then go h t acc
      else
        let x ← locateGpa h va va k false
        match x.loc with
        | .phys gpa => go h t ((va, gpa) :: acc)
        | _ => go h t acc

/-- What the hypervisor has been asked of an operation's access, if it has. -/
def askedOf (s : State) (c n gpa : Nat) (k : Kind) : Option S2Event :=
  if c / 64 = 0 then none else (s.fn (c / 64)).s2.find? (fun e => e.op == some n && e.gpa == gpa && e.kind == k)
/-- A page of an operation as it stands behind stage 2: declined (R253), mapped, or, where none, refused. -/
def pageNow (s : State) (c n : Nat) (k : Kind) (gpa : Nat) : Option Loc :=
  let f := c / 64
  match askedOf s c n gpa k with
  | some e => if e.declined then some (.dead (lineAddr f gpa)) else none
  | none =>
    match (stage2Of s f gpa k).1 with
    | .ok _ => some (.phys (lineAddr f gpa))
    | .fault _ => none
/-- The pages that are not refused. -/
def pagesNow (s : State) (c n : Nat) (k : Kind) (ps : List (Nat × Nat)) : List (Nat × Loc) :=
  ps.filterMap (fun p => (pageNow s c n k p.2).map (fun l => (p.1, l)))
/-- Pages with their stage-2 translations: the event the hypervisor is told of parks the engine (R253, R449). `who` is
where the hart of the operation stood. -/
def stage2Pages (c who n : Nat) (k : Kind) : List (Nat × Nat) → M (List (Nat × Loc))
  | [] => return []
  | (va, gpa) :: t => do
    let s ← get
    let f := c / 64
    let l ← match askedOf s c n gpa k with
      | some e => if e.declined then pure (Loc.dead (lineAddr f gpa)) else hold
      | none =>
        match stage2Of s f gpa k with
        | (.ok _, es) => do
          if es ≠ [] then set (stage2Cache s f es)
          pure (Loc.phys (lineAddr f gpa))
        | (.fault mal, es) => do
          match hvSend (stage2Cache s f es) f (s2Record f who gpa s.nextEvt 0 false mal k) with
          | none => hold
          | some s1 =>
            set { s1.setFn f { s1.fn f with s2 := (s1.fn f).s2 ++ [⟨s.nextEvt, who, some n, false, 0, gpa, k, false⟩] }
                  with nextEvt := s.nextEvt + 1 }
            hold
    return (va, l) :: (← stage2Pages c who n k t)
/-- The declined events of an operation that is done. -/
def dropEvents (f n : Nat) (s : State) : State :=
  if (s.fn f).s2.any (fun e => e.op == some n) then
    s.setFn f { s.fn f with s2 := (s.fn f).s2.filter (fun e => e.op != some n) }
  else s

/-- The place of a byte: scratch, or on one of the pages. -/
def engineLoc (x : Ctx) (ps : List (Nat × Loc)) (va : Nat) : Loc :=
  match scratchOff x va with
  | some o => .scr o
  | none =>
    match ps.find? (fun p => p.1 / 65536 == va / 65536) with
    | some (v, .phys a) => .phys (a - v % 65536 + va % 65536)
    | some (v, .dead a) => .dead (a - v % 65536 + va % 65536)
    | _ => .dead 0

/-- Under what an engine reads and writes: slot, context, hart, the hart's last acquire and order point at issue, and the
operation's number and counter. -/
structure View where
  slot : Nat
  ctx : Nat
  hart : Nat
  acq : Nat
  seq : Nat
  op : Nat × Nat

/-- A byte an engine reads and whether it is poisoned: as the hart's scalar-side read at its issue (R207, R222), but through
the home or the die's RDC and never a core's L1 (R198). -/
def engineByte (s : State) (v : View) (l : Loc) : Byte × Bool :=
  match l with
  | .scr o =>
    (mapGet unwritten (s.slot v.slot).scratch o, (s.slot v.slot).scrPoison.contains (o / 64))
  | .phys a =>
    let x := s.hartOf v.hart
    if x.live && ctxOf s x = v.ctx then
      let y := { x with lastAcq := v.acq }
      (readByte s y (!(s.ctx v.ctx).strict) v.seq a, locBad s y true l)
    else (s.peek a, paBad s a)
  | .dead _ => (0, true)

/-- What an engine writes: a store unit's address, its places, its bytes, whether it is poisoned, and the places it was read
from. -/
structure EWrite where
  va : Nat
  locs : List Loc
  bytes : List Byte
  bad : Bool
  src : List Loc

/-- Bytes an engine stores for a hart, numbered from `n` on: neither side of the hart sees them until a fence or a WAITLT
orders it after the operation (R212, R222, R226). -/
def engineStores (v : View) (n : Nat) : List (Nat × Byte) → List HStore
  | [] => []
  | p :: t => ⟨some ⟨v.hart, n, none, none, some v.op⟩, p.1, p.2⟩ :: engineStores v (n + 1) t

/-- The writes of an engine: stores of the hart, performed at home after its earlier stores of the bytes, each to fold into its
digest when the operation completes; what is poisoned is written poisoned, what stage 2 declined is dropped, and a peer that
could not be reached is reported (R205, R207, R217, R218, R253, R296, R331). -/
def engineWrites (v : View) (ws : List EWrite) : M Unit := do
  let ls := ws.flatMap (·.locs)
  let bs := ws.flatMap (·.bytes)
  let scr := scrPairs ls bs
  let phys := physPairs ls bs
  if scr ≠ [] then modify (fun s => s.setSlot v.slot (scratchStore (s.slot v.slot) scr))
  modify (dropDead (some v.hart) v.ctx ls)
  if phys ≠ [] then
    let x ← hartNo v.hart
    modify (fun s =>
      if x.live then homeStore v.ctx none (olderHome v.hart v.seq (phys.map (·.1)) s) (engineStores v x.stores phys)
      else homeStore v.ctx none s (plain phys))
    if x.live then modHartNo v.hart (fun x => { x with stores := x.stores + phys.length })
  reportM (ws.flatMap (·.src) ++ ls)
  modify (poisonPlaces v.slot ((ws.filter (·.bad)).flatMap (·.locs)))
  modify (fun s =>
    let fold := ws.foldl (fun (d : Word) (w : EWrite) => d + foldWord s v.hart w.va w.bytes) 0
    let sl := s.slot v.slot
    if fold = 0 then s
    else s.setSlot v.slot { sl with ops := sl.ops.map (fun o => if o.n = v.op.1 then { o with fold := o.fold + fold } else o) })

/-! ## Records (R202 to R206) and their cache (R208) -/

/-- A record through the cache: a hit returns the cached bytes, a miss reads memory and fills an entry. -/
def recordRead (va : Nat) : M (List Byte) := do
  let h ← hart
  let sl ← slotM
  match sl.rcache.find? (fun e => e.1 == va) with
  | some e =>
    setSlotM { sl with rcache := e :: sl.rcache.filter (fun x => x.1 != va) }
    return e.2
  | none =>
    let bs ← loadM h.id va 64
    let sl ← slotM
    setSlotM { sl with rcache := ((va, bs) :: sl.rcache).take Config.recordCache }
    return bs

def shapeBase (r : List Byte) : Nat := numAt r 0 8
def shapeFmt (r : List Byte) : Nat := byteAt r 8
def shapeRank (r : List Byte) : Nat := byteAt r 9
def shapeLu (r : List Byte) : Bool := bitsAt (byteAt r 10) 0 1 == 1
def shapeExt (r : List Byte) (d : Nat) : Nat := numAt r (12 + 4 * d) 4
def shapeStride (r : List Byte) (d : Nat) : Nat := numAt r (32 + 8 * d) 8
/-- Element widths of R203. -/
def shapeWidth (f : Nat) : Nat :=
  if f = 0 || f = 4 || f = 5 then 1 else if f = 1 || f = 6 || f = 7 then 2 else if f = 2 || f = 8 then 4 else 8
def shapeFloat (f : Nat) : Fmt :=
  if f = 4 then .f8e4 else if f = 5 then .f8e5 else if f = 6 then .bf16 else if f = 7 then .f16
  else if f = 8 then .f32 else .f64
def shapeCount (r : List Byte) : Nat := ((List.range (shapeRank r)).map (shapeExt r)).foldl (· * ·) 1
/-- Offsets of all elements, dimension 0 running fastest. -/
def shapeAddr (r : List Byte) (n : Nat) : Nat :=
  let rec go (d : Nat) (n : Nat) : Nat → Nat
    | 0 => 0
    | k + 1 => (n % shapeExt r d) * shapeStride r d + go (d + 1) (n / shapeExt r d) k
  (shapeBase r + go 0 n (shapeRank r)) % 2 ^ 64
def shapeAddrs (r : List Byte) : List Nat := (List.range (shapeCount r)).map (shapeAddr r)

/-- The lowest reason of R206 that a record gives by itself; `dest` for a destination. -/
def shapeAmiss (dest : Bool) (r : List Byte) : Option Nat :=
  let k := min (shapeRank r) 4
  let above := (List.range 4).filter (fun d => decide (k ≤ d))
  let dims := List.range k
  let w := shapeWidth (shapeFmt r)
  if byteAt r 10 &&& 0xFE != 0 || byteAt r 11 != 0 || numAt r 28 4 != 0 || (dest && shapeLu r) ||
      above.any (fun d => shapeExt r d != 0 || shapeStride r d != 0) then some 1
  else if shapeRank r = 0 || 4 < shapeRank r || 9 < shapeFmt r then some 2
  else if dims.any (fun d => shapeExt r d == 0) then some 3
  else if shapeBase r % w != 0 || dims.any (fun d => shapeStride r d % w != 0) then some 6
  else none
/-- A format pair of R204: none when it is not allowed, else whether values are converted. -/
def shapePair (fs fd : Nat) : Option Bool :=
  if shapeWidth fs = shapeWidth fd && (fs < 4 || fd < 4 || fs = fd) then some false
  else if 4 ≤ fs && 4 ≤ fd then some true
  else none
/-- The reason with which two records fail, and whether it is the destination's (R206): the destination's reason 1
first, then the lowest, the source before the destination. -/
def copyAmiss (a b : List Byte) : Option (Nat × Bool) :=
  let x := shapeAmiss false a
  let y := shapeAmiss true b
  if y = some 1 then some (1, true)
  else
    let own (n : Nat) : Option (Nat × Bool) := if x = some n then some (n, false) else if y = some n then some (n, true) else none
    (own 1).orElse fun _ => (own 2).orElse fun _ => (own 3).orElse fun _ =>
      if shapeCount a ≠ shapeCount b || 2 ^ 40 < shapeCount a then some (4, false)
      else if shapePair (shapeFmt a) (shapeFmt b) = none then some (5, false)
      else own 6
def formatRec {α : Type} (ra reason : Nat) : M α := trap .format .read (BitVec.ofNat 64 (ra ||| reason))

/-- The part of some bytes that lies in scratch, as offsets of its first and last byte. -/
def scratchPart (x : Ctx) (a : Nat × Nat) : Option (Nat × Nat) :=
  let lo := max a.1 x.scrbase.toNat
  let hi := min (a.1 + a.2) (x.scrbase.toNat + Config.scratchSize)
  if lo < hi then some (lo - x.scrbase.toNat, hi - 1 - x.scrbase.toNat) else none
/-- The span of scratch from the lowest to the highest byte of some accesses within it (R213). -/
def spanOf (x : Ctx) (as : List (Nat × Nat)) : Option (Nat × Nat) :=
  match as.filterMap (scratchPart x) with
  | [] => none
  | p :: t => some (t.foldl (fun m q => min m q.1) p.1, t.foldl (fun m q => max m q.2) p.2)

/-- An operation that carries nothing yet. -/
def EngOp.blank (k : EngKind) (cn : BitVec 4) : EngOp where
  n := 0
  kind := k
  hart := 0
  counter := cn.toNat
  src := []
  dst := []
  arg := 0
  fn5 := 0
  wb := 0
  fmt := 0
  gs := 0
  depth := 0
  bad := false
  idx := []
  srcPages := []
  dstPages := []
  acq := 0
  seq := 0
  span := none
  next := 0
  home := 0
  done := false
  fold := 0

/-! ## XCOPY and XFILL -/

def recordAt (a : Word) : M (List Byte) := do
  if a.toNat % 64 ≠ 0 then trap .align .read a
  recordRead a.toNat

def xcopyM (a b : BitVec 6) (cn : BitVec 4) : M Unit := do
  let h ← hart
  if Config.counterMax ≤ h.counter cn.toNat then hold
  let ra := h.rs a
  let rb := h.rs b
  let r ← recordAt ra
  let d ← recordAt rb
  match copyAmiss r d with
  | some (n, dest) => formatRec (if dest then rb else ra).toNat n
  | none => pure ()
  let sa := (shapeAddrs r).map (fun v => (v, shapeWidth (shapeFmt r)))
  let da := (shapeAddrs d).map (fun v => (v, shapeWidth (shapeFmt d)))
  let sp ← pagesOf .read sa
  if shapeLu r then
    -- the lines it will discard need the permission of a discard (R244)
    let _ ← pagesOf .write ((wholeLines (sa.flatMap (fun a => (List.range a.2).map (a.1 + ·)))).map (fun l => (l * 256, 256)))
  let dp ← pagesOf .write da
  let (_, x) ← ctxM h.id
  engineRoom cn (spanOf x da)
  engineIssue { EngOp.blank .xcopy cn with src := r, dst := d, srcPages := sp, dstPages := dp, span := spanOf x da }
  nextInstr
def execXcopy (a b : BitVec 6) (c : BitVec 4) (s : State) : Out := scalar (xcopyM a b c) s

def xfillM (a b : BitVec 6) (cn : BitVec 4) : M Unit := do
  let h ← hart
  if Config.counterMax ≤ h.counter cn.toNat then hold
  let ra := h.rs a
  let d ← recordAt ra
  match shapeAmiss true d with
  | some n => if n = 6 && 2 ^ 40 < shapeCount d then formatRec ra.toNat 4 else formatRec ra.toNat n
  | none => if 2 ^ 40 < shapeCount d then formatRec ra.toNat 4
  let da := (shapeAddrs d).map (fun v => (v, shapeWidth (shapeFmt d)))
  let dp ← pagesOf .write da
  let (_, x) ← ctxM h.id
  engineRoom cn (spanOf x da)
  engineIssue { EngOp.blank .xfill cn with dst := d, arg := h.rs b, dstPages := dp, span := spanOf x da }
  nextInstr
def execXfill (a b : BitVec 6) (c : BitVec 4) (s : State) : Out := scalar (xfillM a b c) s

/-! ## KVCOMMIT (R323, R324, R376) -/

def kvBase (r : List Byte) : Nat := numAt r 0 8
def kvSize (r : List Byte) : Nat := numAt r 8 4
def kvLen (r : List Byte) : Nat := numAt r 16 4
def kvDraft (r : List Byte) : Nat := numAt r 20 4
/-- Entry `e`'s address. -/
def kvEntry (r : List Byte) (e : Nat) : Nat := (kvBase r + e * kvSize r) % 2 ^ 64
/-- The lowest reason with which KVCOMMIT fails. -/
def kvAmiss (r : List Byte) (idx : List Nat) : Option Nat :=
  if numAt r 12 4 != 0 || numAt r 24 40 != 0 then some 1
  else if kvBase r % 256 != 0 || kvSize r % 256 != 0 || kvSize r < 256 || 2 ^ 20 < kvSize r then some 2
  else if kvDraft r = 0 || 1024 < kvDraft r || 2 ^ 32 ≤ kvLen r + kvDraft r then some 3
  else if kvDraft r < idx.length then some 4
  else if idx.any (fun x => decide (kvDraft r ≤ x)) ||
      (List.range (idx.length - 1)).any (fun i => decide (idx.getD (i + 1) 0 ≤ idx.getD i 0)) then some 5
  else none
/-- What KVCOMMIT reads, and what it writes or discards, as (address, bytes). -/
def kvReads (r : List Byte) (idx : List Nat) : List (Nat × Nat) :=
  idx.map (fun x => (kvEntry r (kvLen r + x), kvSize r))
def kvStores (r : List Byte) (n : Nat) : List (Nat × Nat) :=
  (List.range n).map (fun i => (kvEntry r (kvLen r + i), kvSize r))
def kvDrops (r : List Byte) (n : Nat) : List (Nat × Nat) :=
  (List.range (kvDraft r - n)).map (fun i => (kvEntry r (kvLen r + n + i), kvSize r))
/-- Bytes of some accesses on pages that `far` names, by address and translation: the lowest one's address. -/
def lowestFar (far : Nat → Nat → Bool) (ps : List (Nat × Nat)) (as : List (Nat × Nat)) : Option Nat :=
  let bad := (as.flatMap (fun a => chunks a.1 a.2)).filter (fun a =>
    match ps.find? (fun p => p.1 / 65536 == a.1 / 65536) with
    | some p => far a.1 p.2
    | none => false)
  match bad.map (·.1) with
  | [] => none
  | v :: t => some (t.foldl min v)

/-- KVCOMMIT under the VL and ET of its place in program order (R324, R376, R405). A fault of its translations decides before a
poisoned index (R258). -/
def kvcommitM (a b : BitVec 6) (cn : BitVec 4) : M Unit := do
  let h ← hart
  if Config.counterMax ≤ h.counter cn.toNat then hold
  let ra := h.rs a
  let r ← recordAt ra
  drained
  let h ← hart
  let p := h.prog
  let w := p.et.bytes
  let idx := (List.range p.vl).map (fun i => h.elem b.toNat w i)
  match kvAmiss r idx with
  | some n => formatRec ra.toNat n
  | none => pure ()
  let n := idx.length
  let rd := kvReads r idx
  let wr := kvStores r n ++ kvDrops r n
  let sp ← pagesOf .read rd
  let dp ← pagesOf .write (wr ++ [(ra.toNat + 16, 4)])
  let (_, x) ← ctxM h.id
  let far (va pa : Nat) : Bool := !(paDevice pa) || (windowOf x va).isSome
  match lowestFar far (sp ++ dp) (rd ++ wr ++ [(ra.toNat, 64)]) with
  | some v => trap .perm .write (BitVec.ofNat 64 v)
  | none => pure ()
  if (List.range p.vl).any (fun i => h.elemBad b.toNat w i) then trap .poison .read poisonReg
  let span := spanOf x (rd ++ wr)
  engineRoom cn span
  engineIssue { EngOp.blank .kvcommit cn with
    src := r, arg := ra, idx := idx, srcPages := sp, dstPages := dp, span := span }
  nextInstr
/-- KVCOMMIT waits for the queue's writers of v[sb] (R324); waiting for the whole queue is the same to the program. -/
def execKvcommit (a b : BitVec 6) (c : BitVec 4) (s : State) : Out :=
  if absent s 6 then .next (absentHere (.kvcommit a b c) s) else scalar (kvcommitM a b c) s

/-! ## Completion -/

/-- A transfer waits for an earlier operation whose span of scratch it touches (R213). -/
def engineBlocked (x : Ctx) (sl : Slot) (o : EngOp) : Bool :=
  let touched : List (Nat × Nat) :=
    (match o.kind with
     | .xcopy => [spanOf x ((shapeAddrs o.src).map (fun v => (v, shapeWidth (shapeFmt o.src))))]
     | .kvcommit => [spanOf x (kvReads o.src o.idx)]
     | _ => []).filterMap id ++ o.span.toList
  sl.ops.any (fun p => decide (p.n < o.n) && !p.done &&
    match p.span with
    | some (lo, hi) => touched.any (fun t => decide (lo ≤ t.2) && decide (t.1 ≤ hi))
    | none => false)

/-- The elements of an access in places, read. -/
def readElem (s : State) (v : View) (ls : List Loc) : List Byte × Bool :=
  let xs := ls.map (engineByte s v)
  (xs.map (·.1), xs.any (·.2))
def locsAt (x : Ctx) (ps : List (Nat × Loc)) (va n : Nat) : List Loc :=
  (List.range n).map (fun i => engineLoc x ps (va + i))

/-- Element `n` of a copy (R204, R205). -/
def copyWrite (s : State) (v : View) (x : Ctx) (o : EngOp) (sp dp : List (Nat × Loc)) (n : Nat) : EWrite :=
  let fs := shapeFmt o.src
  let fd := shapeFmt o.dst
  let src := locsAt x sp (shapeAddr o.src n) (shapeWidth fs)
  let (bs, bad) := readElem s v src
  let va := shapeAddr o.dst n
  ⟨va, locsAt x dp va (shapeWidth fd),
    if shapePair fs fd = some true then leBytes (shapeWidth fd) (fStoreConvert (shapeFloat fs) (shapeFloat fd) (leNat bs)).1 else bs,
    bad, src⟩
/-- Element `n` of a fill (R450). -/
def fillWrite (x : Ctx) (o : EngOp) (dp : List (Nat × Loc)) (n : Nat) : EWrite :=
  let w := shapeWidth (shapeFmt o.dst)
  let va := shapeAddr o.dst n
  ⟨va, locsAt x dp va w, leBytes w o.arg.toNat, false, []⟩
/-- The copies of a KVCOMMIT, as (source, destination) entries: those whose index is not their place (R324). -/
def kvMoves (o : EngOp) : List (Nat × Nat) :=
  ((o.idx.mapIdx (fun i e => (e, i))).filter (fun p => p.1 != p.2)).map
    (fun p => (kvEntry o.src (kvLen o.src + p.1), kvEntry o.src (kvLen o.src + p.2)))
/-- 256-byte unit `n` of its copies, in parts of 64 bytes so that poison keeps to its granules. -/
def entryWrites (s : State) (v : View) (x : Ctx) (o : EngOp) (sp dp : List (Nat × Loc)) (n : Nat) : List EWrite :=
  let per := kvSize o.src / 256
  match (kvMoves o)[n / per]? with
  | none => []
  | some (src, dst) =>
    (List.range 4).map (fun i =>
      let off := n % per * 256 + 64 * i
      let ls := locsAt x sp (src + off) 64
      let (bs, bad) := readElem s v ls
      ⟨dst + off, locsAt x dp (dst + off) 64, bs, bad, ls⟩)

/-- Elements, or 256-byte units, of an operation, and how many of them make 256 bytes of its destination (R205, R270). -/
def EngOp.total (o : EngOp) : Nat :=
  match o.kind with
  | .xcopy => shapeCount o.src
  | .xfill => shapeCount o.dst
  | .kvcommit => (kvMoves o).length * (kvSize o.src / 256)
  | .wld => (o.src.length + 255) / 256
def EngOp.unit (o : EngOp) : Nat :=
  match o.kind with
  | .xcopy => 256 / shapeWidth (shapeFmt o.dst)
  | .xfill => 256 / shapeWidth (shapeFmt o.dst)
  | .kvcommit => 1
  | .wld => 1
/-- What `n` of them from number `lo` on write. -/
def partWrites (s : State) (v : View) (x : Ctx) (o : EngOp) (sp dp : List (Nat × Loc)) (lo n : Nat) : List EWrite :=
  (List.range' lo n).flatMap (fun i =>
    match o.kind with
    | .xcopy => [copyWrite s v x o sp dp i]
    | .xfill => [fillWrite x o dp i]
    | .kvcommit => entryWrites s v x o sp dp i
    | .wld => [])

/-- The view and context of an operation (DEDUCED, log 35). -/
def EngOp.view (slot c : Nat) (o : EngOp) : View := ⟨slot, c, o.hart, o.acq, o.seq, (o.n, o.counter)⟩

/-- What element, or unit, `n` of an operation reads and writes, as (address, bytes). -/
def EngOp.parts (o : EngOp) (n : Nat) : List (Nat × Nat) × List (Nat × Nat) :=
  match o.kind with
  | .xcopy => ([(shapeAddr o.src n, shapeWidth (shapeFmt o.src))], [(shapeAddr o.dst n, shapeWidth (shapeFmt o.dst))])
  | .xfill => ([], [(shapeAddr o.dst n, shapeWidth (shapeFmt o.dst))])
  | .kvcommit =>
    let per := kvSize o.src / 256
    match (kvMoves o)[n / per]? with
    | some (a, b) => ([(a + n % per * 256, 256)], [(b + n % per * 256, 256)])
    | none => ([], [])
  | .wld => ([], [])
/-- The pages some accesses touch. -/
def pagesFor (ps : List (Nat × Nat)) (as : List (Nat × Nat)) : List (Nat × Nat) :=
  ps.filter (fun p => as.any (fun a => decide (a.1 / 65536 ≤ p.1 / 65536) && decide (p.1 / 65536 ≤ (a.1 + a.2 - 1) / 65536)))
/-- No page of element `n` is refused. -/
def partOpen (s : State) (c : Nat) (o : EngOp) (n : Nat) : Bool :=
  (pagesFor o.srcPages (o.parts n).1).all (fun p => (pageNow s c o.n .read p.2).isSome) &&
    (pagesFor o.dstPages (o.parts n).2).all (fun p => (pageNow s c o.n .write p.2).isSome)
/-- The second-stage entries that the accesses of elements `lo` to `hi` - 1 read are cached (R249). -/
def cacheParts (c : Nat) (o : EngOp) (lo hi : Nat) (s : State) : State :=
  let f := c / 64
  let used (sel : Nat → List (Nat × Nat)) (p : Nat × Nat) : Bool :=
    (List.range' lo (hi - lo)).any (fun n => pagesFor [p] (sel n) != [])
  let cache (k : Kind) (s : State) (p : Nat × Nat) : State := stage2Cache s f (stage2Of s f p.2 k).2
  if f = 0 then s
  else
    let s1 := (o.srcPages.filter (used (fun n => (o.parts n).1))).foldl (cache .read) s
    (o.dstPages.filter (used (fun n => (o.parts n).2))).foldl (cache .write) s1
/-- The elements or units of an operation from its next one up to number `hi` move, those below the first that stage 2
refuses; there the operation parks (R253, R449). -/
def engineMove (slot c : Nat) (o : EngOp) (hi : Nat) : M Unit := do
  let s ← get
  let top := if c / 64 = 0 then hi else ((List.range' o.next (hi - o.next)).find? (fun n => !(partOpen s c o n))).getD hi
  let v := o.view slot c
  modify (cacheParts c o o.next top)
  engineWrites v (partWrites s v (s.ctx c) o (pagesNow s c o.n .read o.srcPages) (pagesNow s c o.n .write o.dstPages) o.next
    (top - o.next))
  modify (fun s =>
    let sl := s.slot slot
    s.setSlot slot { sl with ops := sl.ops.map (fun p => if p.n = o.n then { p with next := top } else p) })
  if top < hi then
    let _ ← stage2Pages c o.home o.n .read (pagesFor o.srcPages (o.parts top).1)
    let _ ← stage2Pages c o.home o.n .write (pagesFor o.dstPages (o.parts top).2)
    hold
/-- The next 256-byte unit of an operation in flight moves. -/
def enginePart (slot c : Nat) (o : EngOp) : M Unit := engineMove slot c o (min o.total (o.next + o.unit))

/-- The end of a copy; the lines that LU names are discarded after all it has written, so that what it wrote to them itself is
lost (R214) (DESIGN CHOICE, log 94). -/
def xcopyDone (slot c : Nat) (o : EngOp) : M Unit := do
  engineMove slot c o o.total
  if shapeLu o.src then
    let y ← hartNo o.hart
    modify (fun s =>
      let sp := pagesNow s c o.n .read o.srcPages
      discardAt ((shapeAddrs o.src).flatMap (fun va =>
        (List.range (shapeWidth (shapeFmt o.src))).map (fun i => discardLoc s y (va + i) (engineLoc (s.ctx c) sp (va + i))))) s)
  modify (dropEvents (c / 64) o.n)

def xfillDone (slot c : Nat) (o : EngOp) : M Unit := do
  engineMove slot c o o.total
  modify (dropEvents (c / 64) o.n)

/-- The end of a KVCOMMIT: the rest of its copies, then the discard, then the committed length (R324). -/
def kvcommitDone (slot c : Nat) (o : EngOp) : M Unit := do
  engineMove slot c o o.total
  let dp ← stage2Pages c o.home o.n .write o.dstPages
  let x := (← get).ctx c
  let r := o.src
  modify (discardAt ((kvDrops r o.idx.length).flatMap (fun a => locsAt x dp a.1 a.2)))
  let len := leBytes 4 ((kvLen r + o.idx.length) % 2 ^ 32)
  let ra := o.arg.toNat
  engineWrites (o.view slot c) [⟨ra + 16, locsAt x dp (ra + 16) 4, len, false, []⟩]
  modify (fun s =>
    let sl := s.slot slot
    s.setSlot slot { sl with rcache := sl.rcache.map (fun e =>
      if e.1 = ra then (e.1, e.2.take 16 ++ len ++ e.2.drop 20) else e) })
  modify (dropEvents (c / 64) o.n)

/-- An agent's action: what it cannot finish now leaves no other trace than the events it sent. -/
def agent (m : M Unit) (s : State) : State :=
  match m s with
  | .ok _ s' => s'
  | .error _ s' => s'

/-- Operation `n` of a slot completes, if it is one of kind `k` in flight that nothing blocks. -/
def engineComplete (core slot n : Nat) (k : EngKind) (m : Nat → Nat → EngOp → M Unit) (s : State) : State :=
  let i := core * 2 + slot
  let sl := s.slot i
  match sl.ops.find? (fun o => o.n == n && o.kind == k && !o.done), sl.holder with
  | some o, some c =>
    if engineBlocked (s.ctx c) sl o then s
    else agent (do m i c o; modify (engineDone i o)) s
  | _, _ => s
/-- The next unit of operation `n` of a slot moves, if nothing blocks it. -/
def engineUnit (core slot n : Nat) (s : State) : State :=
  let i := core * 2 + slot
  let sl := s.slot i
  match sl.ops.find? (fun o => o.n == n && !o.done), sl.holder with
  | some o, some c =>
    if engineBlocked (s.ctx c) sl o || o.total ≤ o.next then s
    else
      match enginePart i c o s with
      | .ok _ s' => s'
      | .error _ s' => s'
  | _, _ => s
def execXcopyComplete (core slot n : Nat) (s : State) : Out := .next (engineComplete core slot n .xcopy xcopyDone s)
def execXfillComplete (core slot n : Nat) (s : State) : Out := .next (engineComplete core slot n .xfill xfillDone s)
def execKvcommitComplete (core slot n : Nat) (s : State) : Out :=
  .next (engineComplete core slot n .kvcommit kvcommitDone s)

/-! ## RCFENCE and WAITLT -/

/-- RCFENCE (R209, R397). -/
def rcfenceM (a : BitVec 6) (one : BitVec 1) : M Unit := do
  let h ← hart
  let sl ← slotM
  setSlotM { sl with rcache := if one = 1 then sl.rcache.filter (fun e => e.1 != (h.rs a).toNat) else [] }
  nextInstr
def execRcfence (a : BitVec 6) (o : BitVec 1) (s : State) : Out := scalar (rcfenceM a o) s

/-- A counted instruction among the queued ones. -/
def countedWord (w : BitVec 32) : Bool :=
  match decode w with
  | .ok (.wld _ _ _ _) => true
  | .ok (.wldff _ _ _ _) => true
  | _ => false
/-- Numbers of the hart's operations in flight, COLL's among them. -/
def opsInFlight (s : State) (h : Hart) : List Nat :=
  ((s.slot h.slotId).ops.filter (fun o => o.hart == h.id)).map (·.n) ++
    (s.colls.filter (fun o => o.hart == h.id && !o.away)).map (·.n)
/-- WAITLT (R212, R444): earlier counted instructions first, those of a frozen queue excluded; both sides of the hart then
see what the completed operations of the counter wrote. -/
def waitltM (c : BitVec 4) (t : BitVec 9) : M Unit := do
  let h ← hart
  if !h.frozen && h.queue.any (fun e => countedWord e.word) then hold
  if h.counter c.toNat < t.toNat then
    modify (fun s =>
      let out := opsInFlight s h
      let seen (u : Undo) : Bool := u.op.any (fun o => o.2 == c.toNat && !(out.contains o.1))
      markSeen h.id (fun _ => false) seen seen s)
    nextInstr
  else throw (.park (.waitlt c.toNat t.toNat))
def execWaitlt (c : BitVec 4) (t : BitVec 9) (s : State) : Out := scalar (waitltM c t) s

end Sys2Proof.Machine
end

