-- ==== Sys2Proof/Machine/Weights.lean ====
section
/-! DEFINITION. Tile loads and tile selection (08 R168 to R173; 25 R447, R448): WLD, WLDFF, WSEL and the completion of
a load, and MTREE (20 R322). -/

namespace Sys2Proof.Machine

/-- The places of an image's bytes up to the first that cannot be read, how that one stops, and the state before it was
tried (R170, R172). -/
def imagePlaces (h pf : Nat) : List (Nat × Nat) → List Loc → M (List Loc × Option (Stop × State))
  | [], acc => return (acc, none)
  | (va, n) :: t, acc => do
    let s0 ← get
    match ← attempt (do
        let x ← locate h va va .read false
        if x.pfmt ≠ pf then trap .formatSplit .read (BitVec.ofNat 64 va)
        return x.loc) with
    | .ok l => imagePlaces h pf t (acc ++ (List.range n).map l.add)
    | .error .wait => throw .wait
    | .error e => return (acc, some (e, s0))

/-- The greatest depth of a readable image: a multiple of the unit whose bytes all lie within the first `n` (DESIGN CHOICE,
log 33). The metadata of a shortened 2:4 image is counted, and read, at the place the layout of the shortened depth gives
it (DESIGN CHOICE, log 33). -/
def grantDepth (pf gs n d : Nat) : Nat :=
  let u := tileUnit pf gs
  ((List.range (d / u + 1)).filter (fun i => decide (imageBytes pf gs (i * u) ≤ n))).foldl (fun m i => max m (i * u)) 0

/-- The number read raw, padding of R148 as zero. -/
def imageNat (pf gs : Nat) (bs : List Byte) : Nat :=
  if tileQuant pf then
    leNat (bs.mapIdx (fun i b =>
      let j := i % blockBytes pf gs
      if (if pf = 8 then 192 else 320) ≤ j && j < blockHead pf then 0 else b))
  else leNat bs

/-- The lowest metadata byte that is malformed. -/
def metaAmiss (pf d : Nat) (bs : List Byte) : Option Nat :=
  if tileSparse pf then
    let lo := metaOffset pf d 0 0
    ((List.range (d / 4 * tileN pf)).map (lo + ·)).find? (fun i => metaBad (byteAt bs i))
  else none

/-- Whether a load into a weight slot is in flight (R448). -/
def loadingSlot (sl : Slot) (wb : Nat) : Bool := sl.ops.any (fun o => o.kind == .wld && o.wb == wb && !o.done)

/-- WLD and WLDFF at the head of the queue (R170 to R172): the checks, the read, and the issue of the load. -/
def wldM (ff : Bool) (w : BitVec 4) (b : BitVec 6) (cn : BitVec 4) (c : Cap) : M Unit := do
  let h ← hart
  let wb := w.toNat
  let va := c.op1.toNat
  modHart (fun x => { x with vstart := 0 })
  if va % 256 ≠ 0 then trap .align .read c.op1
  let x ← locateGpa h.id va va .read false
  let pf := x.pfmt
  if !tileFormat pf then trap .format .read (BitVec.ofNat 64 va)
  let d := c.op2.toNat
  if d = 0 || d % tileUnit pf x.gs ≠ 0 || tileMax pf < d then matrixType 7 wb
  let (ls, stop) ← imagePlaces h.id pf (chunks va (imageBytes pf x.gs d)) []
  let d' := if stop.isNone then d else if ff then grantDepth pf x.gs ls.length d else 0
  match stop with
  | some (e, s0) =>
    if d' = 0 then throw e
    -- a first-fault form undoes what a stage-2 event beyond the first row began (R247)
    match e with
    | .park _ => set s0
    | _ => pure ()
  | none => pure ()
  let ls := ls.take (imageBytes pf x.gs d')
  scratchFree h.id ls
  engineRoom cn none
  reportM ls
  let s ← get
  let hx := s.hartOf h.id
  let bs := ls.map (locByte s hx true)
  match metaAmiss pf d' bs with
  | some i =>
    let sl ← slotM
    if loadingSlot sl wb then hold
    setSlotM ((foldSlot sl wb).setWeight wb .empty)
    trap .format .read (BitVec.ofNat 64 (va + i))
  | none =>
    let sl ← slotM
    setSlotM ((foldSlot sl wb).setWeight wb .loading)
    engineIssue { EngOp.blank .wld cn with
      src := bs, arg := c.op1, fn5 := if ff then 1 else 0, wb := wb, fmt := pf, gs := x.gs, depth := d',
      bad := (firstBad s hx true ls).isSome }
    if ff then modHart (fun x => x.setS b (BitVec.ofNat 64 d'))

def execWld (w : BitVec 4) (a b : BitVec 6) (c : BitVec 4) (st : State) : Out :=
  vecIssue (.wld w a b c) (wldM false w b c) st
def execWldff (w : BitVec 4) (a b : BitVec 6) (c : BitVec 4) (st : State) : Out :=
  vecIssue (.wldff w a b c) (wldM true w b c) st

/-- WSEL selects whatever the slot holds (R173, R447). -/
def wselM (w : BitVec 4) (_ : Cap) : M Unit := modHart (fun h => { h with tile := some w.toNat })
def execWsel (w : BitVec 4) (st : State) : Out := vecIssue (.wsel w) (wselM w) st

/-- The slot's tile after a load completes; with a later one in flight it stays loading (R448). -/
def wldDone (slot _c : Nat) (o : EngOp) : M Unit :=
  modify (fun s =>
    let sl := s.slot slot
    let more := sl.ops.any (fun p => p.kind == .wld && p.wb == o.wb && !p.done && p.n != o.n)
    s.setSlot slot (sl.setWeight o.wb
      (if more then .loading else .tile ⟨o.fmt, o.gs, o.depth, imageNat o.fmt o.gs o.src, o.bad⟩)))
/-- Loads into one slot complete in the order in which they left their queues (R448). -/
def execWldComplete (core slot n : Nat) (s : State) : Out :=
  let sl := s.slot (core * 2 + slot)
  match sl.ops.find? (fun o => o.n == n) with
  | some o =>
    if sl.ops.any (fun p => p.kind == .wld && p.wb == o.wb && !p.done && decide (p.n < n)) then .next s
    else .next (engineComplete core slot n .wld wldDone s)
  | none => .next s

/-! ## MTREE -/

/-- The walk of R322 from token `j`; a parent is below its child, so `fuel` = j + 1 suffices. Answers the bits set and
whether it stopped at MTSTOP. -/
def treeWalk (h : Hart) (va l m : Nat) : Nat → Nat → BitVec 1024 → BitVec 1024 × Bool
  | 0, _, k => (k, true)
  | fuel + 1, j, k =>
    if h.vl ≤ j || vlmax .i16 h.lanes ≤ j || m ≤ l + j then (k, true)
    else
      let k1 := k ||| (1#1024 <<< (l + j))
      let p := toSigned 16 (h.elem va 2 j)
      if p = -1 then (k1, false)
      else if p < -1 || (j : Int) ≤ p then (k1, true)
      else treeWalk h va l m fuel p.toNat k1
def mtreeM (d : BitVec 4) (a _b : BitVec 6) (c : Cap) : M Unit := do
  let h ← hart
  let m := vlmax .i8 h.lanes
  let tok := c.op2.toNat % 2 ^ 32
  let l := c.op2.toNat / 2 ^ 32
  -- the parents it reads
  let (k, stop) := treeWalk h a.toNat l m (min (tok + 1) 1025) tok (BitVec.ofNat 1024 (2 ^ min l m - 1))
  let read (j : Nat) : Bool := (treeWalk h a.toNat l m (min (tok + 1) 1025) tok 0).1.getLsbD (l + j)
  if h.vpr a.toNat != 0 && (List.range 512).any (fun j => read j && h.elemBad a.toNat 2 j) then squash poisonReg
  setHartM ((h.setK d.toNat (k &&& h.maskBits)))
  if stop then modHart (fun x => { x with algstat := x.algstat ||| 1 })
def execMtree (d : BitVec 4) (a b : BitVec 6) (st : State) : Out :=
  if absent st 6 then .next (absentHere (.mtree d a b) st) else vecIssue (.mtree d a b) (mtreeM d a b) st

end Sys2Proof.Machine
end

