-- ==== Sys2Proof/Machine/Repeat.lean ====
section
/-! DEFINITION. Fetching an instruction's word (14 R244), and the repeat frame (03 R65 to R67; 24 R401, R402): RPT. -/

namespace Sys2Proof.Machine

/-- The instruction cache's copy of a line of 64 bytes, which serves its context until an epoch advance drops it (R10,
R290). -/
def codeLine (s : State) (h : Hart) (l : Loc) : Option CLine :=
  match l with
  | .phys a => (s.core h.core).icache.find? (fun e => e.ctx == ctxOf s h && e.a == a / 64 * 64)
  | _ => none
/-- The word at a PC: permission X, and the code the instruction cache holds of it, else the code in memory; a poisoned
word raises POISON at that PC. -/
def fetchM (h : Nat) (pc : Word) : M (BitVec 32) := do
  let (ls, _) ← locateN h pc.toNat 4 .exec false
  let s ← get
  let x := s.hartOf h
  match ls.head?.bind (codeLine s x) with
  | some l =>
    if l.bad != 0 then trap .poison .read (poisonVal pc.toNat)
    return BitVec.ofNat 32 (leNat ((l.bytes.drop (pc.toNat % 64)).take 4))
  | none =>
    match ls.findIdx? (locBadHome s x) with
    | some i => trap .poison .read (poisonVal (pc.toNat + i))
    | none => return BitVec.ofNat 32 (leNat (ls.map (locByteHome s x)))

/-! ## What a frame captures -/

/-- The meaning of an instruction a frame may capture (R65); none for any other. -/
def captured : Instr → Option (Cap → M Unit)
  | .vadd d a b k z s => some (vaddM d a b k z s)
  | .vsub d a b k z s => some (vsubM d a b k z s)
  | .vmul d a b k z s => some (vmulM d a b k z s)
  | .vmulh d a b k z s u => some (vmulhM d a b k z s u)
  | .vmin d a b k z s u => some (vminM d a b k z s u)
  | .vmax d a b k z s u => some (vmaxM d a b k z s u)
  | .vand d a b k z s => some (vandM d a b k z s)
  | .vor d a b k z s => some (vorM d a b k z s)
  | .vxor d a b k z s => some (vxorM d a b k z s)
  | .vshl d a b k z s => some (vshlM d a b k z s)
  | .vshr d a b k z s => some (vshrM d a b k z s)
  | .vsar d a b k z s => some (vsarM d a b k z s)
  | .vaddsat d a b k z s u => some (vaddsatM d a b k z s u)
  | .vsubsat d a b k z s u => some (vsubsatM d a b k z s u)
  | .vfadd d a b k z s => some (vfaddM d a b k z s)
  | .vfsub d a b k z s => some (vfsubM d a b k z s)
  | .vfmul d a b k z s => some (vfmulM d a b k z s)
  | .vfma d a b k z s n => some (vfmaM d a b k z s n)
  | .vfdiv d a b k z s => some (vfdivM d a b k z s)
  | .vfsqrt d a k z => some (vfsqrtM d a k z)
  | .vfmin d a b k z s => some (vfminM d a b k z s)
  | .vfmax d a b k z s => some (vfmaxM d a b k z s)
  | .vfrcp d a k z => some (vfrcpM d a k z)
  | .vfrsq d a k z => some (vfrsqM d a k z)
  | .vfexp2 d a k z => some (vfexp2M d a k z)
  | .vflog2 d a k z => some (vflog2M d a k z)
  | .vfsgn d a b k z g => some (vfsgnM d a b k z g)
  | .vcmp d u s a b k z c => some (vcmpM d u s a b k z c)
  | .vfcmp d s a b k z c => some (vfcmpM d s a b k z c)
  | .vcvt d a s k z => some (vcvtM d a s k z)
  | .vnarrow d a n k z => some (vnarrowM d a n k z)
  | .vwiden d a u k z => some (vwidenM d a u k z)
  | .vtmul d a b k z t => some (vtmulM d a b k z t)
  | .vtconj d a k z t v => some (vtconjM d a k z t v)
  | .mrow r a c t z x f => some (mrowM r a c t z x f)
  | _ => none

/-- A captured instruction of a feature that is absent is no instruction (R21, R104). -/
def capturedAbsent (s : State) : Instr → Bool
  | .vtmul _ _ _ _ _ _ => absent s 1
  | .vtconj _ _ _ _ _ _ => absent s 1
  | .mrow _ _ _ t _ _ _ => t != 0 && absent s 1
  | _ => false

/-- A staggered vector register, or the offending number (R66). -/
def bump (x : BitVec 6) (n : Nat) : Except Nat (BitVec 6) :=
  if x.toNat + n < 48 then .ok (BitVec.ofNat 6 (x.toNat + n)) else .error (x.toNat + n)
/-- A field that names a vector register only in the v form. -/
def bumpIf (p : Bool) (x : BitVec 6) (n : Nat) : Except Nat (BitVec 6) := if p then bump x n else .ok x
/-- A staggered pair, given by half its even number (R402). -/
def bumpPair (x : BitVec 5) (n : Nat) : Except Nat (BitVec 5) :=
  let r := 2 * x.toNat + n
  if r % 2 = 0 && r < 48 then .ok (BitVec.ofNat 5 (r / 2)) else .error r
/-- A staggered accumulator row. -/
def bumpRow (x : BitVec 10) (n : Nat) : Except Nat (BitVec 10) :=
  if x.toNat + n < 1024 then .ok (BitVec.ofNat 10 (x.toNat + n)) else .error (x.toNat + n)

/-- A captured instruction in its repetition: `d`, `a`, `b`, `r` are the staggers so far. Of several numbers out of range
vd's counts, then va's, then vb's, and va's before ar's (DESIGN CHOICE, log 81). -/
def stagger (d a b r : Nat) : Instr → Except Nat Instr
  | .vadd xd xa xb xk xz xs => do
    let xd ← bump xd d
    let xa ← bump xa a
    let xb ← bumpIf (xs = 0) xb b
    return .vadd xd xa xb xk xz xs
  | .vsub xd xa xb xk xz xs => do
    let xd ← bump xd d
    let xa ← bump xa a
    let xb ← bumpIf (xs = 0) xb b
    return .vsub xd xa xb xk xz xs
  | .vmul xd xa xb xk xz xs => do
    let xd ← bump xd d
    let xa ← bump xa a
    let xb ← bumpIf (xs = 0) xb b
    return .vmul xd xa xb xk xz xs
  | .vmulh xd xa xb xk xz xs xu => do
    let xd ← bump xd d
    let xa ← bump xa a
    let xb ← bumpIf (xs = 0) xb b
    return .vmulh xd xa xb xk xz xs xu
  | .vmin xd xa xb xk xz xs xu => do
    let xd ← bump xd d
    let xa ← bump xa a
    let xb ← bumpIf (xs = 0) xb b
    return .vmin xd xa xb xk xz xs xu
  | .vmax xd xa xb xk xz xs xu => do
    let xd ← bump xd d
    let xa ← bump xa a
    let xb ← bumpIf (xs = 0) xb b
    return .vmax xd xa xb xk xz xs xu
  | .vand xd xa xb xk xz xs => do
    let xd ← bump xd d
    let xa ← bump xa a
    let xb ← bumpIf (xs = 0) xb b
    return .vand xd xa xb xk xz xs
  | .vor xd xa xb xk xz xs => do
    let xd ← bump xd d
    let xa ← bump xa a
    let xb ← bumpIf (xs = 0) xb b
    return .vor xd xa xb xk xz xs
  | .vxor xd xa xb xk xz xs => do
    let xd ← bump xd d
    let xa ← bump xa a
    let xb ← bumpIf (xs = 0) xb b
    return .vxor xd xa xb xk xz xs
  | .vshl xd xa xb xk xz xs => do
    let xd ← bump xd d
    let xa ← bump xa a
    let xb ← bumpIf (xs = 0) xb b
    return .vshl xd xa xb xk xz xs
  | .vshr xd xa xb xk xz xs => do
    let xd ← bump xd d
    let xa ← bump xa a
    let xb ← bumpIf (xs = 0) xb b
    return .vshr xd xa xb xk xz xs
  | .vsar xd xa xb xk xz xs => do
    let xd ← bump xd d
    let xa ← bump xa a
    let xb ← bumpIf (xs = 0) xb b
    return .vsar xd xa xb xk xz xs
  | .vaddsat xd xa xb xk xz xs xu => do
    let xd ← bump xd d
    let xa ← bump xa a
    let xb ← bumpIf (xs = 0) xb b
    return .vaddsat xd xa xb xk xz xs xu
  | .vsubsat xd xa xb xk xz xs xu => do
    let xd ← bump xd d
    let xa ← bump xa a
    let xb ← bumpIf (xs = 0) xb b
    return .vsubsat xd xa xb xk xz xs xu
  | .vfadd xd xa xb xk xz xs => do
    let xd ← bump xd d
    let xa ← bump xa a
    let xb ← bumpIf (xs = 0) xb b
    return .vfadd xd xa xb xk xz xs
  | .vfsub xd xa xb xk xz xs => do
    let xd ← bump xd d
    let xa ← bump xa a
    let xb ← bumpIf (xs = 0) xb b
    return .vfsub xd xa xb xk xz xs
  | .vfmul xd xa xb xk xz xs => do
    let xd ← bump xd d
    let xa ← bump xa a
    let xb ← bumpIf (xs = 0) xb b
    return .vfmul xd xa xb xk xz xs
  | .vfma xd xa xb xk xz xs xn => do
    let xd ← bump xd d
    let xa ← bump xa a
    let xb ← bumpIf (xs = 0) xb b
    return .vfma xd xa xb xk xz xs xn
  | .vfdiv xd xa xb xk xz xs => do
    let xd ← bump xd d
    let xa ← bump xa a
    let xb ← bumpIf (xs = 0) xb b
    return .vfdiv xd xa xb xk xz xs
  | .vfsqrt xd xa xk xz => do
    let xd ← bump xd d
    let xa ← bump xa a
    return .vfsqrt xd xa xk xz
  | .vfmin xd xa xb xk xz xs => do
    let xd ← bump xd d
    let xa ← bump xa a
    let xb ← bumpIf (xs = 0) xb b
    return .vfmin xd xa xb xk xz xs
  | .vfmax xd xa xb xk xz xs => do
    let xd ← bump xd d
    let xa ← bump xa a
    let xb ← bumpIf (xs = 0) xb b
    return .vfmax xd xa xb xk xz xs
  | .vfrcp xd xa xk xz => do
    let xd ← bump xd d
    let xa ← bump xa a
    return .vfrcp xd xa xk xz
  | .vfrsq xd xa xk xz => do
    let xd ← bump xd d
    let xa ← bump xa a
    return .vfrsq xd xa xk xz
  | .vfexp2 xd xa xk xz => do
    let xd ← bump xd d
    let xa ← bump xa a
    return .vfexp2 xd xa xk xz
  | .vflog2 xd xa xk xz => do
    let xd ← bump xd d
    let xa ← bump xa a
    return .vflog2 xd xa xk xz
  | .vfsgn xd xa xb xk xz xg => do
    let xd ← bump xd d
    let xa ← bump xa a
    let xb ← bump xb b
    return .vfsgn xd xa xb xk xz xg
  | .vcmp xd xu xs xa xb xk xz xc => do
    let xa ← bump xa a
    let xb ← bumpIf (xs = 0) xb b
    return .vcmp xd xu xs xa xb xk xz xc
  | .vfcmp xd xs xa xb xk xz xc => do
    let xa ← bump xa a
    let xb ← bumpIf (xs = 0) xb b
    return .vfcmp xd xs xa xb xk xz xc
  | .vcvt xd xa xs xk xz => do
    let xd ← bump xd d
    let xa ← bump xa a
    return .vcvt xd xa xs xk xz
  | .vnarrow xd xa xn xk xz => do
    let xd ← bump xd d
    let xa ← bumpPair xa a
    return .vnarrow xd xa xn xk xz
  | .vwiden xd xa xu xk xz => do
    let xd ← bumpPair xd d
    let xa ← bump xa a
    return .vwiden xd xa xu xk xz
  | .vtmul xd xa xb xk xz xt => do
    let xd ← bump xd d
    let xa ← bump xa a
    let xb ← bump xb b
    return .vtmul xd xa xb xk xz xt
  | .vtconj xd xa xk xz xt xv => do
    let xd ← bump xd d
    let xa ← bump xa a
    return .vtconj xd xa xk xz xt xv
  | .mrow xr xa xc xt xz xx xf => do
    let xa ← bumpIf (xx = 0) xa a
    let xr ← bumpRow xr r
    return .mrow xr xa xc xt xz xx xf
  | i => .ok i

/-! ## Running a frame -/

/-- RPOS inside a frame (R67). -/
def rposOf (rep idx : Nat) : Word := BitVec.ofNat 64 (1024 + 64 * idx + rep)

/-- The words a frame captures, or the first that cannot be captured, its PC and its trap (R65, R401) (DEDUCED, log 37). -/
def frameWords (h : Nat) : Nat → Word → M (Except (Word × Stop) (List (BitVec 32)))
  | 0, _ => return .ok []
  | n + 1, pc => do
    match ← attempt (fetchM h pc) with
    | .error e => return .error (pc, e)
    | .ok w =>
      let bad := return .error (pc, .trap .illegalOp .read (w.zeroExtend 64))
      match decode w with
      | .error _ => bad
      | .ok i =>
        if capturedAbsent (← get) i then modify (maskedRecord w pc)
        if (captured i).isNone || capturedAbsent (← get) i then bad
        else
          match ← frameWords h n (pc + 4) with
          | .error e => return .error e
          | .ok t => return .ok (w :: t)

/-- A captured word's instruction. -/
def frameInstr (w : BitVec 32) : Option Instr :=
  match decode w with
  | .ok i => some i
  | .error _ => none
/-- The instruction of a frame at position `p`, counted over all repetitions, as staggered. -/
def frameAt (ws : List (BitVec 32)) (sd sa sb sr : BitVec 3) (p : Nat) : Option (BitVec 32 × Except Nat Instr) :=
  let rep := p / ws.length
  (ws[p % ws.length]?).bind (fun w => (frameInstr w).map (fun i =>
    (w, stagger (rep * sd.toNat) (rep * sa.toNat) (rep * sb.toNat) (rep * sr.toNat) i)))

/-- An instruction that takes a poisoned scalar: POISON, unless a check of its own fails, which comes first (R258). -/
def lateScalars (bad : Bool) (m : M Unit) : M Unit := do
  if !bad then m
  else
    let s0 ← get
    let poison : M Unit := do
      set s0
      squash poisonScalar
    match ← attempt m with
    | .ok _ => poison
    | .error (.trap .poison _ _) => poison
    | .error e => throw e
/-- A staggered instruction of a frame, its scalars read now (R65), and what of it goes on where it has been stopped inside. -/
def capturedBody (m : Cap → M Unit) (j : Instr) (pc : Word) : M Unit := do
  let h ← hart
  let c := capOf j h
  resumed (lateScalars ((readsNow j).any h.spBad) (m ⟨pc, c.1, c.2, []⟩))
/-- It runs under its lanes; ILLEGAL_OP names the captured word (R106). -/
def capturedRun (w : BitVec 32) (i : Except Nat Instr) (pc : Word) : M (List (Nat × Nat × Nat)) := do
  match i with
  | .error n => illegalReg n
  | .ok j =>
    match captured j with
    | none => return []
    | some m =>
      match ← attempt (laneRun w (capOf j (← hart)).2 (capturedBody m j pc)) with
      | .ok hits => return hits
      | .error (.trap .illegalOp k _) => trap .illegalOp k (w.zeroExtend 64)
      | .error e => throw e
/-- The hart past a captured instruction that is done. -/
def Hart.capturedDone (h : Hart) : Hart :=
  let h1 := { h with vstart := 0 }
  if h1.part.isNone then h1 else h1.setPart none
/-- A convoy of one captured instruction. -/
def runCaptured (w : BitVec 32) (i : Except Nat Instr) (pc : Word) : M Unit := do
  let s0 ← get
  let hits ← capturedRun w i pc
  if hits ≠ [] then
    set (laneSquash s0 hits)
    throw (.park (.laneTest hits []))
  modHart Hart.capturedDone

/-- A frame from position `p` on; `fuel` is how many instructions run. -/
def runFrame (ws : List (BitVec 32)) (pc : Word) (sd sa sb sr : BitVec 3) : Nat → Nat → M Unit
  | 0, _ => pure ()
  | fuel + 1, p => do
    modHart (fun h => { h with rpos := rposOf (p / ws.length) (p % ws.length) })
    match frameAt ws sd sa sb sr p with
    | some (w, i) => runCaptured w i pc
    | none => pure ()
    runFrame ws pc sd sa sb sr fuel (p + 1)

/-- The position within a frame of `len` words at which its hart stands (R67). -/
def framePos (h : Hart) (len : Nat) : Nat :=
  if h.rpos.getLsbD 10 then (h.rpos.toNat % 64) * len + bitsAt h.rpos.toNat 6 4 else 0
/-- RPT at the head of the queue, with the words its frame has captured: it goes on at RPOS. -/
def rptM (n : BitVec 6) (sd sa sb sr : BitVec 3) (c : Cap) : M Unit := do
  let p := framePos (← hart) c.frame.length
  runFrame c.frame c.pc sd sa sb sr ((n.toNat + 1) * c.frame.length - p) p

/-- How a capture from `s0` that fails stops the hart: a trap at the word's own PC, which no repetition has reached; the progress of
the queue's head is kept (R65, R260, R401). -/
def captureStop (s0 : State) (pc spc : Word) (e : Stop) (s : State) : State :=
  match e with
  | .trap c kd v => takeTrap s s0.hart.id c kd v pc spc
  | .park p => awaits s0 (.parked p) s
  | .wait => awaits s0 .waiting s
/-- RPT issues (R65, R401): its words are captured first, a word that cannot be raising its trap at its own PC; then it
is queued and the scalar unit goes on behind the frame. -/
def execRpt (n : BitVec 6) (k : BitVec 4) (d a b r : BitVec 3) (s : State) : Out :=
  let i : Instr := .rpt n k d a b r
  let h := s.hart
  if h.frozen then .next (illegalHere i s)
  else if Config.queueDepth ≤ h.queue.length then .next (s.withHart { h with run := .waiting })
  else
    match frameWords h.id (k.toNat + 1) (h.pc + 4) s with
    | .ok (.error (pc, e)) s1 => .next (captureStop s pc pc e s1)
    | .error _ s1 => .next s1
    | .ok (.ok ws) s1 =>
      let h1 := s1.hart
      let s2 := s1.withHart { h1.enqueue h1.pc (encode i) 0 0 ws with pc := h1.pc + 4 * BitVec.ofNat 64 (k.toNat + 2) }
      .next (if h1.queue.isEmpty && !s.ahead then runHead (rptM n d a b r) s2 else s2)

end Sys2Proof.Machine
end

