-- ==== Sys2Proof/Machine/Harts.lean ====
section
/-! DEFINITION. The life of a hart (02 R31 to R40, R47; 17 R296 to R300): the context's address space as seen from
outside any core, the digest slot, a hart's start, its split, its absorption and its end, and the conditions on which a
parked hart wakes. -/

namespace Sys2Proof.Machine

/-! ## A context's memory seen from outside any core (R285, R298) -/

/-- What such a walk finds: the leaf's address, nothing, a malformed entry at a line address, or an entry at a guest's address
that stage 2 refuses. -/
inductive CtxWalk where
  | leaf (a : Nat) | fault | malformed (a lvl : Nat) | refused (gpa : Nat)
  deriving DecidableEq, Repr

/-- A walk that sets no A or D bit and parks nowhere; a leaf with MIG counts as valid (R285). -/
def ctxWalk (s : State) (c va : Nat) (k : Kind) : List Nat → Nat → CtxWalk
  | [], _ => .fault
  | lvl :: ls, t =>
    match agentPa s (c / 64) (t + 8 * vaIndex va lvl) .read with
    | none => .refused (t + 8 * vaIndex va lvl)
    | some a =>
      let e := s.peekN a 8
      if paBad s a || !(pteV e) then .fault
      else if pteMalformed e lvl then .malformed a lvl
      else if pteTable e then ctxWalk s c va k ls (ptePa e)
      else if (k = .read && !(pteR e)) || (k = .write && !(pteW e)) || (k = .exec && !(pteX e)) then .fault
      else .leaf (leafPa e lvl va)
/-- The function's address of a virtual address. -/
def ctxGpa (s : State) (c va : Nat) (k : Kind) : Option Nat :=
  if canonical va then
    match ctxWalk s c va k [0, 1, 2] (s.ctx c).root with
    | .leaf a => some a
    | _ => none
  else none
/-- The line addresses of `n` bytes, all in device memory where `dev` asks for it. -/
def ctxPlaces (s : State) (c va n : Nat) (k : Kind) (dev : Bool) : Option (List Nat) :=
  ((chunks va n).mapM (fun (p : Nat × Nat) =>
    match ctxGpa s c p.1 k with
    | none => none
    | some g =>
      if dev && !(paDevice g) then none
      else (agentPa s (c / 64) g k).map (fun a => (List.range p.2).map (a + ·)))).map List.flatten
/-- An access to `n` bytes that meets a malformed entry writes its fault record (R242). -/
def ctxNote (c va n : Nat) (k : Kind) (s : State) : State :=
  match (chunks va n).findSome? (fun p =>
      if !(canonical p.1) then some none
      else match ctxWalk s c p.1 k [0, 1, 2] (s.ctx c).root with
        | .malformed a lvl => some (some (a, lvl))
        | .leaf _ => none
        | _ => some none) with
  | some (some (a, lvl)) => frecAdd s 8 (lowAddr (homeOf s a)) 0 0 lvl (c % 64) (c / 64) 0
  | _ => s
/-- The same of an access that is made again and again until it can be: where the newest fault record reports the entry, no
other is written (DESIGN CHOICE, log 96). -/
def ctxNoteOnce (c va n : Nat) (k : Kind) (s : State) : State :=
  let t := ctxNote c va n k s
  let key (r : BitVec 256) : Nat × Nat := (bitsAt r.toNat 192 64, bitsAt r.toNat 0 64)
  if t.frec.getLast?.map key = s.frec.getLast?.map key then s else t
/-- Bytes read; none where one cannot be read or is poisoned. -/
def ctxRead (s : State) (c va n : Nat) (dev : Bool) : Option (List Byte) :=
  match ctxPlaces s c va n .read dev with
  | none => none
  | some ps => if ps.any (paBad s) then none else some (ps.map s.peek)
/-- Bytes written, whole or not at all. -/
def ctxWrite (s : State) (c va : Nat) (bs : List Byte) : Option State :=
  match ctxPlaces s c va bs.length .write true with
  | none => none
  | some ps =>
    if ps.any (paBad s) then none
    else some (homeStore 0 none (if c / 64 = 0 then s else agentCache s (c / 64) (ps.map lowAddr)) (plain (ps.zip bs)))

/-! ## The digest slot (R298) -/

/-- A launch's slot number and size in bytes. -/
def digestM (s : State) (l : Launch) : Nat := l.tag.toNat % 2 ^ detDgns (detBlock s l.ctx)
def digestSize (s : State) (l : Launch) : Nat := 2 ^ detDgstr (detBlock s l.ctx)
/-- The virtual address of its slot in the digest area. -/
def digestSlot (s : State) (l : Launch) : Nat :=
  (detDgbase (detBlock s l.ctx) + digestM s l * digestSize s l) % 2 ^ 64
/-- P_s: harts of the stages before a stage. -/
def stageBase (l : Launch) (stage : Nat) : Nat := ((l.stages.take stage).map (·.n)).foldl (· + ·) 0
/-- Adding to eight bytes of the slot; none when the access fails. -/
def digestAdd (s : State) (l : Launch) (off : Nat) (d : Word) : Option State :=
  if digestSize s l ≤ off then some s
  else
    match ctxRead s l.ctx (digestSlot s l + off) 8 true with
    | none => none
    | some bs => ctxWrite s l.ctx (digestSlot s l + off) (leBytes 8 ((leNat bs + d.toNat) % 2 ^ 64))
/-- A hart's digest at its retirement (R298, R299): into LDIG and its entry, or into the sums of a re-run. -/
def digestEnd (s : State) (x : Hart) : State :=
  let l := s.launch x.launch
  if l.level = .free then s
  else if l.rerun ≠ 0 then s.setLaunch x.launch { l with redig := l.redig + x.digest }
  else
    let s0 := s.setLaunch x.launch { l with ldig := l.ldig + x.digest }
    match digestAdd s0 l 0 x.digest with
    | none =>
      let s1 := ctxNote l.ctx (digestSlot s l) 8 .write s0
      s1.setLaunch x.launch { s1.launch x.launch with nodigest := true }
    | some s1 =>
      let off := 64 + 8 * (stageBase l x.stage + x.index)
      match digestAdd s1 l off x.digest with
      | none =>
        let s2 := ctxNote l.ctx ((digestSlot s l + off) % 2 ^ 64) 8 .write s1
        s2.setLaunch x.launch { s2.launch x.launch with nodigest := true }
      | some s2 => s2

/-! ## Stages and queues (R31, R32) -/

def Launch.queue (l : Launch) (q : Nat) : LQueue := l.queues.getD q ⟨0, 0, 0, none, none, 0, 0, 0, true⟩
def Launch.setQueue (l : Launch) (q : Nat) (x : LQueue) : Launch := { l with queues := l.queues.set q x }
def Launch.stage (l : Launch) (i : Nat) : Stage := l.stages.getD i ⟨0, 0, 0, none, none, 0, [], true⟩
/-- Records a QPOP could receive. -/
def LQueue.held (q : LQueue) : Nat := q.pushed - q.taken
/-- The placed harts of a stage, children apart. -/
def stageHarts (s : State) (l stage : Nat) : List Hart :=
  s.allHarts.filter (fun x => x.launch == l && x.stage == stage && x.parent.isNone)
/-- A placement of a stage that the log still holds (R306) (DEDUCED, log 49). -/
def placeLeft (s : State) (l : Launch) (i : Nat) : Bool :=
  l.level = .replay && l.rerun = 0 &&
    (logPending s l.ctx).any (fun p => bitsAt p.2 0 9 == 8 && bitsAt p.2 16 16 == l.lnch % 65536 && bitsAt p.2 58 3 == i)
/-- A stage has finished (R31); at REPLAY a fed one only once the harts its log places have been. -/
def stageOver (s : State) (num : Nat) (l : Launch) (i : Nat) (st : Stage) : Bool :=
  st.finished ||
    (match st.inq with
     | none => decide (st.n ≤ st.retired.length)
     | some q => (l.queue q).closed && (l.queue q).held == 0 && (stageHarts s num i).isEmpty && !(placeLeft s l i))
/-- Stages that have finished close their output queues, which may finish others; `fuel` is how many stages there are. -/
def settleStages (s : State) (num : Nat) : Nat → State
  | 0 => s
  | fuel + 1 =>
    let l := s.launch num
    let ends := (List.range l.stages.length).filter (fun i => stageOver s num l i (l.stage i))
    let l1 := { l with
      stages := l.stages.mapIdx (fun i st => if ends.contains i then { st with finished := true } else st)
      queues := l.queues.map (fun q =>
        match q.prod with
        | some p => if ends.contains p then { q with closed := true } else q
        | none => q) }
    settleStages (s.setLaunch num l1) num fuel

/-- A hart retires: its digest is added, its index counts, it leaves its slot, and stages may finish (R31, R400). -/
def endHart (h : Nat) (s : State) : State :=
  let x := s.hartOf h
  let s1 := digestEnd s x
  let l := s1.launch x.launch
  let st := l.stage x.stage
  let seen := if st.retired.contains x.index then st.retired else x.index :: st.retired
  let l1 := { l with stages := l.stages.set x.stage { st with retired := seen } }
  let s2 := leaveHart (s1.setLaunch x.launch l1) x
  settleStages s2 x.launch l1.stages.length

/-! ## Start (R37, R217) -/

/-- The acquire with which a hart starts (R216); where the order log makes it wait, it is done when the hart comes to
issue. -/
def startHart (h : Nat) (s : State) : State :=
  match boundary h 5 false true (pure ()) s with
  | .ok _ s' => s'.setHart { s'.hartOf h with run := .running }
  | .error (.trap c k v) s' =>
    let x := s'.hartOf h
    takeTrap (s'.setHart { x with relStage := 0 }) h c k v x.pc x.pc
  | .error (.park p) s' => s'.setHart { s'.hartOf h with run := .parked p, relStage := 3 }
  | .error .wait s' => s'.setHart { s'.hartOf h with run := .waiting, relStage := 3 }

/-- HARTID (R35). -/
def Hart.hartid (h : Hart) : Word := BitVec.ofNat 64 (h.index % 2 ^ 24 ||| (h.offset % 4) <<< 24 ||| (h.stage % 8) <<< 32)

/-! ## FORK (R38) -/

/-- The set of some lane groups. -/
def laneMask (l : List Nat) : BitVec 4 := BitVec.ofNat 4 ((l.map (2 ^ ·)).foldl (· + ·) 0)
/-- Bytes `lo` on, `n` of them, of a register. -/
def regPart (v : BitVec 8192) (lo n : Nat) : BitVec 8192 :=
  (v >>> (8 * lo)) &&& BitVec.ofNat 8192 (2 ^ (8 * n) - 1)
def poisonPart (p : BitVec 1024) (lo n : Nat) : BitVec 1024 := (p >>> lo) &&& BitVec.ofNat 1024 (2 ^ n - 1)

/-- Lane groups of which FORK may give the upper half to a child: more than one, and none of that half disabled in the
core's mask (R34, R38, R317) (DESIGN CHOICE, log 42). -/
def forkable (x : Hart) (mask : BitVec 4) : Bool :=
  decide (1 < x.lanes) && ((laneList x.lgown).drop (x.lanes / 2)).all (fun i => !(mask.getLsbD i))
/-- The parent after the split into `keep` lane groups; what it has stored comes before the split (R40). -/
def forkParent (x : Hart) (keep : Nat) : Hart :=
  let y := { x with
    stores := x.stores + 1
    lgown := laneMask ((laneList x.lgown).take keep)
    v := x.v.map (fun v => regPart v 0 (keep * 256))
    vp := x.vp.map (fun p => poisonPart p 0 (keep * 256)) }
  { y with vl := min x.vl (vlmax x.et y.lanes) }
/-- The child at its start, in hart slot `id`. -/
def forkChild (x : Hart) (keep id : Nat) (d : BitVec 6) (t : Word) : Hart :=
  let lg := (laneList x.lgown).drop keep
  let y := { Hart.initial with
    live := true
    id := id
    launch := x.launch
    stage := x.stage
    index := x.index
    offset := x.offset + keep
    nharts := x.nharts
    lgown := laneMask lg
    s := x.s
    v := x.v.map (fun v => regPart v (keep * 256) (lg.length * 256))
    vp := x.vp.map (fun p => poisonPart p (keep * 256) (lg.length * 256))
    k := x.k
    pc := t
    et := x.et
    frm := x.frm
    spdesc := x.spdesc
    mtol := x.mtol
    tile := x.tile
    sp := x.sp
    parent := some x.id
    relStage := 3
    kin := (x.id, x.stores + 1) :: x.kin
    diverged := x.diverged }
  ({ y with vl := min x.vl (vlmax x.et lg.length) }).setS d x.hartid

/-! ## JOIN (R39, R40) -/

/-- The parent takes the ended child's lane groups and what comes with them. -/
def joined (p c : Hart) : Hart :=
  { p with
    lgown := p.lgown ||| c.lgown
    v := p.v.zipWith (fun (a b : BitVec 8192) => a ||| (b <<< (8 * p.lanes * 256))) c.v
    vp := p.vp.zipWith (fun (a b : BitVec 1024) => a ||| (b <<< (p.lanes * 256))) c.vp
    fflags := p.fflags ||| c.fflags
    mstat := p.mstat ||| (c.mstat &&& 6)
    algstat := p.algstat ||| c.algstat
    digest := p.digest + c.digest
    children := p.children.tail }
/-- The parent's JOIN completes: it absorbs its youngest child, which has ended, and acquires. -/
def absorbM (p : Nat) : M Unit := do
  let x ← hartNo p
  match x.children with
  | [] => pure ()
  | k :: _ =>
    boundary p 7 false true (pure ())
    let y ← hartNo k
    modHartNo p (fun x => { joined x y with pc := x.pc + 4 })
    modify (fun s => leaveHart s y)

/-- An action of a hart that issues nothing itself now: it goes on, traps at its PC, parks or waits. -/
def wakeWith (h : Nat) (m : M Unit) (s : State) : State :=
  match m s with
  | .ok _ s' => s'.setHart { s'.hartOf h with run := .running }
  | .error (.trap c k v) s' => takeTrap s' h c k v (s'.hartOf h).pc (s'.hartOf h).pc
  | .error (.park p) s' => s'.setHart { s'.hartOf h with run := .parked p }
  | .error .wait s' => s'.setHart { s'.hartOf h with run := .waiting }

/-! ## Groups (R41, R43, R354) -/

/-- The logical indices a group names. -/
def Group.members (g : Group) : List Nat :=
  (g.ranges.flatMap (fun r => (List.range r.2.1).map (fun j => r.1 + j * r.2.2))).eraseDups
def Launch.group (l : Launch) (g : Nat) : Group := (l.groups.find? (fun x => x.num == g)).getD ⟨g, 0, []⟩
/-- A member's arrival count. -/
def Launch.arrived (l : Launch) (g i : Nat) : Nat := mapGet 0 l.arrivals (g * 2 ^ 24 + i)
def Launch.arrive (l : Launch) (g i : Nat) : Launch :=
  { l with arrivals := mapPut 0 l.arrivals (g * 2 ^ 24 + i) (l.arrived g i + 1) }
/-- Every member has arrived at least `k` times or has retired. -/
def barMet (l : Launch) (g k : Nat) : Bool :=
  let x := l.group g
  x.members.all (fun i => decide (k ≤ l.arrived g i) || (l.stage x.stage).retired.contains i)

/-! ## Waking (R47) -/

/-- Every counter of a hart reads zero. -/
def Hart.idle (h : Hart) : Bool := h.cnt.toList.all (· == 0)
/-- The youngest child has ended. -/
def childEnded (s : State) (h : Hart) : Bool :=
  match h.children with
  | [] => false
  | c :: _ => (s.hartOf c).ended
/-- QPOP could give its hart a status. -/
def popReady (s : State) (h : Hart) (q : Nat) : Bool :=
  let x := (s.launch h.launch).queue q
  h.sticky.isSome || decide (x.taken < x.pushed) || x.closed
/-- What a hart that waits at REPLAY waits for has come (R306): its record, and the version, cut or slot the record names. -/
def logReady (s : State) (h : Hart) : Bool :=
  let c := ctxOf s h
  let l := s.launch h.launch
  let ps := logPending s c
  match (logOwn l h ps).find? (fun p => logMine l h p.2) with
  | none => ps.any (fun p => bitsAt p.2 0 8 == 0xD)
  | some p =>
    let ty := bitsAt p.2 0 8
    let cut := (s.ctx c).cut
    let rel := bitsAt p.2 192 32
    let acq := bitsAt p.2 224 32
    if 1 ≤ ty && ty ≤ 4 then versionOf s c (bitsAt p.2 192 64) == bitsAt p.2 96 32
    else if ty = 5 then
      if h.relStage % 3 = 0 && rel != noCut then decide (rel - 1 ≤ cut) else acq == noCut || decide (acq - 1 ≤ cut)
    else if ty = 6 then (l.queue (bitsAt p.2 192 8)).pushed == bitsAt p.2 200 56
    else if ty = 7 then bitsAt p.2 144 2 != 0 || (l.queue (bitsAt p.2 192 8)).taken == bitsAt p.2 200 56
    else true
/-- The log ring of a context has room for a record (R305). -/
def logRoom (s : State) (c : Nat) : Bool :=
  let d := detBlock s c
  decide ((detLogtail d + 2 ^ 64 - detLoghead d) % 2 ^ 64 < 2 ^ detLogsz d - 32)
/-- The hypervisor ring of a function has room for a record (R252). -/
def hvRoom (s : State) (f : Nat) : Bool := (hvTail s f).isSome
/-- What a parked hart waits for has come; a MIG page, a stage-2 event and a self-test end by commands and events of
their own. -/
def wakeReady (s : State) (h : Hart) : Bool :=
  match h.run with
  | .parked (.qpop q) => popReady s h q
  | .parked (.qpush q) => decide (((s.launch h.launch).queue q).held < ((s.launch h.launch).queue q).cap)
  | .parked (.waitval scr line seen) => lineHeld s h scr line != seen
  | .parked (.waitlt c t) => decide (h.counter c < t)
  | .parked (.bar g k) => barMet (s.launch h.launch) g k
  | .parked (.log kind _) => if kind % 3 = 0 then logRoom s (ctxOf s h) else logReady s h
  | .parked (.ring f) => hvRoom s f
  | .parked .join => h.queue.isEmpty && (if h.children.isEmpty then h.idle else childEnded s h)
  | _ => false

/-- The key of R300: stage, logical index, lane-group offset. -/
def Hart.key (h : Hart) : Nat × Nat × Nat := (h.stage, h.index, h.offset)
def keyLe (a b : Nat × Nat × Nat) : Bool :=
  decide (a.1 < b.1) || (a.1 == b.1 && (decide (a.2.1 < b.2.1) || (a.2.1 == b.2.1 && decide (a.2.2 ≤ b.2.2))))

end Sys2Proof.Machine
end

