-- ==== Sys2Proof/Machine/Sync.lean ====
section
/-! DEFINITION. The synchronisation instructions (02 R32, R38, R39, R43; 11 R216, R226, R227, R232 to R234; 22 to 25:
R353 to R355, R369 to R371, R374, R391 to R396, R400, R452) and the steps in which a parked hart wakes. -/

namespace Sys2Proof.Machine

/-! ## PHASE, YIELD, FENCE -/

/-- PHASE (R227, R391). -/
def phaseM : M Unit := do
  drained
  boundary (← hart).id 0 true true (pure ())
  nextInstr
def execPhase (s : State) : Out := scalar phaseM s

/-- A safe point of the focus hart but for what boundaries wait for themselves (R266, R369): its queue is empty and no
engine operation of it owes a write to scratch. -/
def safePoint (s : State) (h : Hart) : Bool :=
  (h.queue.isEmpty || h.frozen) && (s.slot h.slotId).ops.all (fun o => o.hart != h.id || o.done || o.span.isNone)

/-- YIELD (R266, R452): it stops at the next instruction when a yield is requested. -/
def yieldM : M Unit := do
  if (← hart).relStage ≠ 4 then
    drained
    boundary (← hart).id 1 true true (pure ())
    modHart (fun x => { x with relStage := 4 })
  if !(safePoint (← get) (← hart)) then hold
  modHart (fun x => { x with relStage := 0 })
  nextInstr
  modHart (fun x => if x.yreq then { x with run := .stopped } else x)
def execYield (s : State) : Out := scalar yieldM s

/-- A wait for every counted engine operation of the hart (R226). -/
def enginesDone : M Unit := do
  if !(← hart).idle then hold

/-- At RECORD and REPLAY a FENCE orders what it names before the hart's later reads (R222, R226): stores of the scalar
side before order point `n`, of the vector side, and of engine operations before number `m`. -/
def fenceMark (t : BitVec 3) (h n m : Nat) (s : State) : State :=
  let all := decide (t = 6)
  let sv (u : Undo) : Bool := u.op.isNone && (decide (t = 0) || all) && decide (u.seq < n)
  let vs (u : Undo) : Bool := u.op.isNone && (decide (t = 1) || all)
  let eng (u : Undo) : Bool := u.op.any (fun o => decide (o.1 < m))
  markSeen h (fun p => if p.vec then decide (t = 1) || all else (decide (t = 0) || all) && decide (p.n < n))
    (fun u => vs u || ((decide (t = 4) || all) && eng u)) (fun u => sv u || ((decide (t = 5) || all) && eng u)) s
/-- A tile load of the hart is in flight. -/
def loadsTile (s : State) (h : Hart) : Bool := (s.slot h.slotId).ops.any (fun o => o.hart == h.id && o.kind == .wld && !o.done)
/-- The counted engine operations of the hart that came before a FENCE at the head of its queue have completed: those issued
before number `m`, and every tile load, since those that have left the queue stood before it. -/
def enginesBefore (s : State) (h : Hart) (m : Nat) : Bool :=
  (opsInFlight s h).all (fun n => decide (m ≤ n)) && !(loadsTile s h)
/-- FENCE at the head of the vector queue, which every type enters (R226, R369): older entries are done; XS, XV and ALL
wait for the engine operations issued before it. What it orders is what stood before its own issue (DEDUCED, log 50). -/
def fenceM (t : BitVec 3) (_ : Cap) : M Unit := do
  let h ← hart
  let s ← get
  let (n, m) := h.fmarks.headD (h.stores, s.nextOp)
  if 4 ≤ t.toNat && !(enginesBefore s h m) then hold
  modify (fenceMark t h.id n m)
  modHart (fun x => { x with fmarks := x.fmarks.tail })
/-- FENCE while a handler's queue is frozen (R369): the frozen entries are not waited for, nor the engine operations issued
before the trap. -/
def fenceHandler (t : BitVec 3) : M Unit := do
  let h ← hart
  if 4 ≤ t.toNat && !((opsInFlight (← get) h).all (fun n => decide (n < h.trapOp))) then hold
  modify (fun s => fenceMark t h.id h.stores s.nextOp s)
  nextInstr
/-- FENCE issues into the vector queue; a type that names scalar accesses as later ones holds the scalar unit until it is
done (R226), which is when the queue is empty. -/
def execFence (t : BitVec 3) (s : State) : Out :=
  let h := s.hart
  if h.frozen then scalar (fenceHandler t) s
  else if Config.queueDepth ≤ h.queue.length then .next (s.withHart { h with run := .waiting })
  else vecIssue (.fence t) (fenceM t) (s.withHart { h with fmarks := h.fmarks ++ [(h.stores, s.nextOp)] })

/-! ## PUBLISH (R232 to R234, R392, R393) -/

/-- Whether an address lies in a window. -/
def Window.holds (w : Window) (va : Nat) : Bool := decide (w.va ≤ va) && decide (va < w.va + w.nblk * 65536)
/-- A counted operation of the hart still owes a write to the window; in a handler before CLAIM those issued before the trap
are not waited for (R369, R392). -/
def windowOwed (s : State) (h : Hart) (w : Window) : Bool :=
  let since (n : Nat) : Bool := !h.frozen || decide (h.trapOp ≤ n)
  (s.slot h.slotId).ops.any (fun o => o.hart == h.id && !o.done && since o.n && o.dstPages.any (fun p => w.holds p.1)) ||
    s.colls.any (fun o => o.hart == h.id && !o.away && !o.done && since o.n && o.dstPages.any (fun p => w.holds p.1))
/-- An address of the backing that has become the front, moved to the other one. -/
def Window.moved (w : Window) (a : Nat) : Nat :=
  let front := if w.gen % 2 = 1 then w.pa1 else w.pa0
  let back := if w.gen % 2 = 1 then w.pa0 else w.pa1
  if front ≤ a && a < front + w.nblk * 65536 then back + (a - front) else a
/-- Stores of a hart that have not been performed when a window flips land in the new back (R232). -/
def hartMoved (f : Nat) (w : Window) (h : Hart) : Hart :=
  { h with sbuf := h.sbuf.map (fun p => if fnAddr p.a = f then { p with a := lineAddr f (w.moved (lowAddr p.a)) } else p) }
/-- And so do the writes of operations in flight. -/
def pagesMoved (w : Window) (ps : List (Nat × Nat)) : List (Nat × Nat) :=
  ps.map (fun p => if w.holds p.1 then (p.1, w.moved p.2) else p)
/-- The flip of a window, in the context and in its descriptor (R230, R231); writes not yet performed land in the new back
(R232), and harts that read the old front hold its writers until they pass a release (R233) (DEDUCED, log 41). -/
def flipWindow (c i : Nat) (s : State) : State :=
  let x := s.ctx c
  match x.windows[i]? with
  | none => s
  | some w =>
    let w1 := { w with gen := w.gen + 1 }
    let s1 := s.setCtx c { x with windows := x.windows.set i w1 }
    let b := BitVec.ofNat 8 ((if w1.en then 1 else 0) + (if w1.gen % 2 = 1 then 2 else 0))
    let s2 := (agentWrite s1 (c / 64) (x.recA + 0x100 + 32 * i + 12) [b]).getD s1
    let mine (h : Hart) : Hart := if ctxOf s h = c && !h.sbuf.isEmpty then hartMoved (c / 64) w1 h else h
    let op (o : EngOp) : EngOp := { o with dstPages := pagesMoved w1 o.dstPages }
    let sl (y : Slot) : Slot := if y.holder = some c && !y.ops.isEmpty then { y with ops := y.ops.map op } else y
    let s3 := s2.mapHarts mine
    { s3 with
      slots := s3.slots.map (fun p => (p.1, sl p.2))
      spills := s3.spills.map (fun p => if p.1 / 512 = c then (p.1, ⟨sl p.2.slot, p.2.harts.map mine⟩) else p)
      colls := s3.colls.map (fun o => if o.ctx = c then { o with dstPages := pagesMoved w1 o.dstPages } else o) }

/-- PUBLISH's effect on the hart's earlier stores and the window. Its release, whose cut the flip takes, completes once the
hart's operations owe the window nothing, so that flips fall in cut order (R392, R393) (DEDUCED, log 79). -/
def publishCore (p : BitVec 5) (f : BitVec 1) : M Unit := do
  let h ← hart
  let (c, x) ← ctxM h.id
  match x.windows[p.toNat]? with
  | none => illegal (.publish p f)
  | some w =>
    if !w.en then illegal (.publish p f)
    if h.relStage = 0 && windowOwed (← get) h w then hold
    boundary h.id 2 true true (
      if f = 0 then modify (flipWindow c p.toNat)
      else modify (fun s =>
        let l := s.launch h.launch
        s.setLaunch h.launch { l with deferred := l.deferred ||| (1#32 <<< p.toNat) }))
def publishM (p : BitVec 5) (f : BitVec 1) : M Unit := do
  let h ← hart
  let (_, x) ← ctxM h.id
  if (x.windows[p.toNat]?).all (fun w => !w.en) then illegal (.publish p f)
  drained
  publishCore p f
  nextInstr
def execPublish (p : BitVec 5) (f : BitVec 1) (s : State) : Out := scalar (publishM p f) s

/-! ## BAR (R353 to R355) -/

/-- A BAR wait's completion: it acquires, and the arrival flag clears. -/
def barDone (h : Nat) : M Unit := do
  boundary h 4 false true (pure ())
  modHartNo h (fun x => { x with arrived := false, pc := x.pc + 4 })
/-- The group in a hart's group slot. -/
def Hart.groupIn (h : Hart) (g : BitVec 2) : Nat := (h.grp.toList.getD g.toNat 0xFFFF).toNat
def barM (g b : BitVec 2) : M Unit := do
  let h ← hart
  let e := h.groupIn g
  if e = 0xFFFF then illegal (.bar g b)
  if b.getLsbD 0 && !h.arrived then
    drained
    boundary h.id 3 true false (modify (fun s => s.setLaunch h.launch ((s.launch h.launch).arrive e h.index)))
    modHart (fun x => { x with arrived := true })
  if b.getLsbD 1 then
    let l := (← get).launch h.launch
    let k := l.arrived e h.index
    -- at the environment's choice the hart parks first, to complete later in a step of its own (R217, R354)
    if barMet l e k && !(← get).ahead then barDone h.id else throw (.park (.bar e k))
  else
    modHart (fun x => { x with arrived := false })
    nextInstr
def execBar (g b : BitVec 2) (s : State) : Out := scalar (barM g b) s

/-! ## FORK and JOIN (R38 to R40, R370, R371, R374) -/

/-- The hart slots of a context slot that no hart holds. -/
def freeHartSlots (s : State) (slot : Nat) : List Nat :=
  (List.range 4).filterMap (fun i => if (s.hartOf (slot * 4 + i)).live then none else some (slot * 4 + i))
/-- FORK: which free hart slot the child occupies is left open (DESIGN CHOICE, log 5) (DESIGN CHOICE, log 42). -/
def forkM (d : BitVec 6) (o : BitVec 19) : M Unit := do
  drained
  let x ← hart
  let s ← get
  let keep := x.lanes / 2
  let t := target x.pc o
  let split := forkable x (s.core x.core).laneMask
  let r : Word := if split then { x with offset := x.offset + keep }.hartid else 0
  let lr ← logCheck x.id 9 r.toNat 0 0
  if split then
    let free := freeHartSlots s x.slotId
    match free[(Config.freeWord s.fresh).toNat % free.length]? with
    | none => hold
    | some id =>
      modify (fun s => { (s.withHart { forkParent x keep with children := id :: x.children }).setHart
        (forkChild x keep id d t) with fresh := s.fresh + 1 })
  modify (fun s => (s.setS d r).advance)
  logDone x.id 9 r.toNat 0 0 0 lr
  match free? x.children (← hart).children with
  | some id => modify (startHart id)
  | none => pure ()
where
  /-- The child just made. -/
  free? (old new : List Nat) : Option Nat := if new.length = old.length then none else new.head?
/-- FORK in a handler is a nested trap (R370). -/
def execFork (d : BitVec 6) (o : BitVec 19) (s : State) : Out :=
  if s.hart.hm then .next (illegalHere (.fork d o) s) else scalar (forkM d o) s

/-- JOIN: a hart with an unjoined child awaits its youngest, and its own queue (DESIGN CHOICE, log 86), and absorbs it; a
child with none releases and ends, and a parent parked on it absorbs it in the same step. -/
def joinM : M Unit := do
  let x ← hart
  match x.children with
  | _ :: _ => if x.queue.isEmpty && childEnded (← get) x then absorbM x.id else throw (.park .join)
  | [] =>
    match x.parent with
    | none => illegal .join
    | some p =>
      if !x.queue.isEmpty || !x.idle then throw (.park .join)
      boundary x.id 6 true false (pure ())
      modHart (fun y => { y with ended := true, run := .stopped })
      modify (fun s =>
        if (s.hartOf p).run = .parked .join && (s.hartOf p).queue.isEmpty && (s.hartOf p).children.head? = some x.id then wakeWith p (absorbM p) s else s)
/-- JOIN in a handler is a nested trap (R374). -/
def execJoin (s : State) : Out :=
  if s.hart.hm then .next (illegalHere .join s) else scalar joinM s

/-! ## RETIRE (R400) -/

def retireM : M Unit := do
  let x ← hart
  if x.parent.isSome || !x.children.isEmpty then illegal .retire
  modHart (fun y => if y.frozen then { y with queue := [], frozen := false, vstart := 0, rpos := 0 } else y)
  drained
  enginesDone
  boundary x.id 6 true false (pure ())
  modify (endHart x.id)
def execRetire (s : State) : Out := scalar retireM s

/-! ## QPUSH and QPOP (R32, R33, R394 to R396) -/

/-- Where a queue's slot lies: queue memory, whatever publish window its addresses stand in (DEDUCED, log 43). -/
def slotLoc (h va : Nat) (k : Kind) : M Loc := do
  let (c, _) ← ctxM h
  let e ← translateM h c va va k 3
  match ← stage2M h c (leafPa e.pte e.lvl va) k false va k with
  | some a => return .phys a
  | none => return .dead (lineAddr (c / 64) (leafPa e.pte e.lvl va))
def LQueue.slotVa (q : LQueue) (j : Nat) : Nat := (q.base.toNat + j % q.cap * q.rsize) % 2 ^ 64
def qpushM (a : BitVec 6) (q : BitVec 4) : M Unit := do
  let x ← hart
  let l := (← get).launch x.launch
  if (l.stage x.stage).outq ≠ some q.toNat then illegal (.qpush a q)
  let va := (x.rs a).toNat
  if va % 16 ≠ 0 then trap .align .read (x.rs a)
  let y := l.queue q.toNat
  let (ls, _) ← locateN x.id va y.rsize .read false
  scratchFree x.id ls
  let lr ← logCheckIn x.id 6 q.toNat 0xFF 0 0
  if lr.any (fun p => bitsAt p.2 200 56 != y.pushed) then stall 2
  if y.cap ≤ y.held then throw (.park (.qpush q.toNat))
  let loc ← slotLoc x.id (y.slotVa y.pushed) .write
  let s ← get
  reportM ls
  let places := (List.range y.rsize).map loc.add
  modify (dropDead (some x.id) l.ctx places)
  modify (fun s => homeStore 0 none s (plain (physPairs places (ls.map (locByte s (s.hartOf x.id) false)))))
  modify (poisonPlaces x.slotId (badGranules places (ls.map (locBad s (s.hartOf x.id) false))))
  modify (fun s =>
    let l := s.launch x.launch
    s.setLaunch x.launch (l.setQueue q.toNat { l.queue q.toNat with pushed := y.pushed + 1 }))
  logDone x.id 6 (q.toNat ||| y.pushed <<< 8) 0 0 0 lr
  nextInstr
def execQpush (a : BitVec 6) (q : BitVec 4) (s : State) : Out := scalar (qpushM a q) s

/-- The status QPOP gives now: at REPLAY the recorded one, else the one given before, a record, or the end (R395, R306). -/
def popStatus (x : Hart) (y : LQueue) (lr : Option (Nat × Nat)) : M Nat := do
  let park : M Nat := do
    let s ← get
    modHart (fun h => { h with popSince := some (h.popSince.getD s.cycle) })
    throw (.park (.qpop (((s.launch x.launch).stage x.stage).inq.getD 0)))
  match lr with
  | some p =>
    let st := bitsAt p.2 144 2
    if st = 0 then
      if bitsAt p.2 200 56 ≠ y.taken then stall 2
      else if y.taken < y.pushed then return 0 else park
    else if st = 2 then
      if y.closed && y.held = 0 then return 2 else park
    else return st
  | none =>
    match x.sticky with
    | some st => return st
    | none => if y.taken < y.pushed then return 0 else if y.closed then return 2 else park

def qpopM (d a : BitVec 6) (q : BitVec 4) : M Unit := do
  let x ← hart
  let l := (← get).launch x.launch
  if (l.stage x.stage).inq ≠ some q.toNat then illegal (.qpop d a q)
  let va := (x.rs a).toNat
  if va % 16 ≠ 0 then trap .align .write (x.rs a)
  let y := l.queue q.toNat
  let (ls, _) ← locateN x.id va y.rsize .write false
  scratchFree x.id ls
  let lr ← logCheckIn x.id 7 q.toNat 0xFF 0 0
  let st ← popStatus x y lr
  if st = 0 then
    let loc ← slotLoc x.id (y.slotVa y.taken) .read
    let s ← get
    let places := (List.range y.rsize).map loc.add
    storeAt x.id false ls (places.map (locByteHome s x))
    foldM x.id va (places.map (locByteHome s x))
    let bad := badGranules ls (places.map (locBadHome s x))
    if bad ≠ [] then modify (fun s => poisonPlaces x.slotId bad (bringHome s x.id ls))
    modify (fun s =>
      let l := s.launch x.launch
      s.setLaunch x.launch (l.setQueue q.toNat { l.queue q.toNat with taken := y.taken + 1 }))
  modHart (fun h => { h with popSince := none, sticky := if st = 0 then h.sticky else some st })
  logDone x.id 7 (q.toNat ||| (if st = 0 then y.taken <<< 8 else 0)) st 0 0 lr
  modify (fun s => s.result d (BitVec.ofNat 64 st))
def execQpop (d a : BitVec 6) (q : BitVec 4) (s : State) : Out := scalar (qpopM d a q) s

/-! ## Waking (R47) -/

/-- A hart whose wait is over comes into focus to issue its instruction again, which runs whole (R395, R445). -/
def wakeHart (h : Nat) (s : State) : State := (s.setHart { s.hartOf h with run := .running }).focusOn h

def execBarWaitComplete (h : Nat) (s : State) : Out :=
  let x := s.hartOf h
  match x.run with
  | .parked (.bar _ _) => .next (if x.live && wakeReady s x then wakeWith h (barDone h) s else s)
  | _ => .next s
/-- A parent parked in JOIN absorbs its ended child; a child parked there for its queue and counters issues again. -/
def execJoinComplete (h : Nat) (s : State) : Out :=
  let x := s.hartOf h
  match x.run with
  | .parked .join =>
    .next (if x.live && wakeReady s x then (if x.children.isEmpty then wakeHart h s else wakeWith h (absorbM h) s) else s)
  | _ => .next s
def execQpopWake (h : Nat) (s : State) : Out :=
  let x := s.hartOf h
  match x.run with
  | .parked (.qpop _) => .next (if x.live && wakeReady s x then wakeHart h s else s)
  | _ => .next s
def execQpushWake (h : Nat) (s : State) : Out :=
  let x := s.hartOf h
  match x.run with
  | .parked (.qpush _) => .next (if x.live && wakeReady s x then wakeHart h s else s)
  | _ => .next s
def execWaitvalWake (h : Nat) (s : State) : Out :=
  let x := s.hartOf h
  match x.run with
  | .parked (.waitval _ _ _) => .next (if x.live && wakeReady s x then wakeHart h s else s)
  | _ => .next s
def execWaitltWake (h : Nat) (s : State) : Out :=
  let x := s.hartOf h
  match x.run with
  | .parked (.waitlt _ _) => .next (if x.live && wakeReady s x then wakeHart h s else s)
  | _ => .next s

/-! ## The serial re-run (R300) -/

/-- The synchronising instructions. -/
def syncing : Instr → Bool
  | .bar _ _ => true
  | .phase => true
  | .yield => true
  | .publish _ _ => true
  | .qpush _ _ => true
  | .qpop _ _ _ => true
  | .waitval _ _ _ _ _ _ => true
  | .waitlt _ _ => true
  | .fork _ _ => true
  | .join => true
  | .retire => true
  | .lds _ _ _ _ _ => true
  | .sts _ _ _ _ _ => true
  | .amo _ _ _ _ _ _ _ _ => true
  | .vamo _ _ _ _ _ _ _ _ => true
  | _ => false
/-- In a re-run the hart that issues keeps the turn until its next synchronising event. -/
def holdTurn (s : State) : State :=
  let l := s.launch s.hart.launch
  if l.rerun = 0 then s else s.setLaunch s.hart.launch { l with turn := s.hart.key }
/-- After a synchronising event has taken effect or parked its hart, issue passes to the next key; a VAMO takes effect
when it leaves the vector queue, of which `n` entries were not older. -/
def passTurn (h : Hart) (i : Instr) (s : State) : State :=
  let l := s.launch h.launch
  let x := s.hartOf h.id
  let waits := match x.run with
    | .waiting => true
    | .parked (.log _ _) => true
    | _ => false
  let queued := match i with
    | .vamo _ _ _ _ _ _ _ _ => decide (h.queue.length ≤ x.queue.length) && !x.queue.isEmpty && !x.frozen
    | _ => false
  if l.rerun = 0 || !(syncing i) || waits || queued then s
  else s.setLaunch h.launch { l with turn := (h.stage, h.index, h.offset + 1) }

end Sys2Proof.Machine
end

