-- ==== Sys2Proof/Machine/VectorQueue.lean ====
section
/-! DEFINITION. What stands in a vector queue (03 R60, 15 R262, R263): the meaning of every instruction a queue entry
may hold, the run of the oldest entry, and convoys of several (03 R61 to R65). -/

namespace Sys2Proof.Machine

/-- The meaning of an instruction at the head of the queue; none for a word that is no queued instruction. -/
def queued : Instr → Option (Cap → M Unit)
  | .vld d _ b k z m => some (vldM d b k z m false false)
  | .vldRaw d _ b k z m => some (vldM d b k z m true false)
  | .vst d _ b k m => some (vstM d b k m false)
  | .vstRaw d _ b k m => some (vstM d b k m true)
  | .vldff d _ b k z m => some (vldM d b k z m false true)
  | .vldffRaw d _ b k z m => some (vldM d b k z m true true)
  | .vamo d o c b k z q r => some (vamoM d o c b k z q r)
  | .kop d a b o => some (kopM d a b o)
  | .kpop d a k => some (kpopM d a k)
  | .kfirst d a k => some (kfirstM d a k)
  | .kmov d a => some (kmovM d a)
  | .mtree d a b => some (mtreeM d a b)
  | .vmerge d a b k s => some (vmergeM d a b k s)
  | .vperm d a b k z => some (vpermM d a b k z)
  | .vslide d a _ k z r => some (vslideM d a k z r)
  | .vcompress d a k z => some (vcompressM d a k z)
  | .vexpand d a k z => some (vexpandM d a k z)
  | .viota d k z => some (viotaM d k z)
  | .vbcast d a _ k z f => some (vbcastM d a k z f)
  | .vmovx d a k z y => some (vmovxM d a k z y)
  | .vext d a _ => some (vextM d a)
  | .vins d _ _ => some (vinsM d)
  | .vredsum d a b k => some (vredsumM d a b k)
  | .vredmax d a b k u => some (vredmaxM d a b k u)
  | .vredmin d a b k u => some (vredminM d a b k u)
  | .vfredsum d a b k => some (vfredsumM d a b k)
  | .vfredmax d a b k => some (vfredmaxM d a b k)
  | .vredseq d a b k => some (vredseqM d a b k)
  | .mrd r a c s x f => some (mrdM r a c s x f)
  | .mwr r a c z x f => some (mwrM r a c z x f)
  | .mclr r n f => some (mclrM r n f)
  | .mchk r n => some (mchkM r n)
  | .mloc r d => some (mlocM r d)
  | .mfix r a => some (mfixM r a)
  | .wld w _ b c => some (wldM false w b c)
  | .wldff w _ b c => some (wldM true w b c)
  | .wsel w => some (wselM w)
  | .algld _ t => some (fun c => algldCore c.op1 t)
  | .trap c => some (fun _ => trap .trap .read (c.zeroExtend 64))
  | .rpt n _ d a b r => some (rptM n d a b r)
  | .fence t => some (fenceM t)
  | .publish p f => some (fun _ => publishCore p f)
  | i => captured i
/-- An instruction whose feature is absent (R21). -/
def queuedAbsent (s : State) : Instr → Bool
  | .mtree _ _ _ => absent s 6
  | .mchk _ _ => absent s 3
  | .mloc _ _ => absent s 3
  | .mfix _ _ => absent s 3
  | .algld _ _ => absent s 1
  | i => capturedAbsent s i

/-- The meaning of a queue's word: what decodes to no queued instruction, or to one whose feature is absent, raises
ILLEGAL_OP at its entry with VSTART and RPOS zero (R105). A TRAP that a handler put there raises TRAP and stays (R262)
(DEDUCED, log 45). -/
def queueCore (w : BitVec 32) (c : Cap) : M Unit := do
  let bad : M Unit := do
    modHart (fun h => { h with vstart := 0, rpos := 0 })
    trap .illegalOp .read (w.zeroExtend 64)
  match decode w with
  | .error _ => bad
  | .ok i =>
    if queuedAbsent (← get) i then
      modify (maskedRecord w c.pc)
      bad
    else
      match queued i with
      | some m => m c
      | none => bad

/-- A repeat frame whose words are not at hand is fetched again: its k words, and for a hart stopped inside it the RPT
itself (R67). What is no RPT any more stands in its entry as it is. -/
def captureHead (e : QEntry) : M (Except (Word × Stop) Unit) := do
  let h ← hart
  let w ← if h.rpos.getLsbD 10 then attempt (fetchM h.id e.pc) else pure (.ok e.word)
  match w with
  | .error x => return .error (e.pc, x)
  | .ok w =>
    let k := match decode w with
      | .ok (.rpt _ k _ _ _ _) => some (k.toNat + 1)
      | _ => none
    let put (ws : List (BitVec 32)) : M Unit := modHart (fun y =>
      { y with queue := { e with word := w, frame := ws } :: y.queue.tail })
    match k with
    | none =>
      put []
      return .ok ()
    | some n =>
      match ← frameWords h.id n (e.pc + 4) with
      | .error x => return .error x
      | .ok ws =>
        put ws
        return .ok ()
/-- The oldest entry is a repeat frame whose words must be fetched. -/
def uncaptured (e : QEntry) : Bool := majorOf e.word == 0x6C && e.frame.isEmpty
/-- The oldest entry of the focus hart's queue runs. -/
def runQueue (s : State) : State :=
  match s.hart.queue with
  | [] => s
  | e :: _ =>
    if uncaptured e then
      match captureHead e s with
      | .ok (.error (pc, x)) s1 => captureStop s pc s1.hart.pc x s1
      | .ok (.ok _) s1 =>
        match s1.hart.queue with
        | e1 :: _ => runHead (queueCore e1.word) s1
        | [] => s1
      | .error _ s1 => s1
    else runHead (queueCore e.word) s

/-! ## Convoys (R61 to R65, R265, R315, R316) -/

/-- An instruction under way among the convoys: its number, the registers it writes, whether another may chain onto it, its
convoy, and whether it has written every element group. -/
structure Writer where
  n : Nat
  regs : List Nat
  chain : Bool
  convoy : Nat
  done : Bool
/-- A convoy that is not complete: its number, the state in which its first instruction dispatched, and its mismatches. -/
structure Convoy where
  num : Nat
  start : State
  hits : List (Nat × Nat × Nat)
/-- The convoys that are not complete, in the order in which they began, and every instruction since the first. -/
structure Flight where
  writers : List Writer
  convoys : List Convoy
  next : Nat

/-- The instruction whose result a register holds last. -/
def Flight.writerOf (f : Flight) (r : Nat) : Option Writer := f.writers.reverse.find? (fun w => w.regs.contains r)
/-- For each source that is still being written, its writer. -/
def Flight.awaited (f : Flight) (src : List Nat) : List Writer :=
  (src.eraseDups).filterMap (fun r => (f.writerOf r).filter (fun w => !w.done))
/-- Registers written by convoys that are not complete (R63). -/
def Flight.outstanding (f : Flight) : Nat :=
  ((f.writers.filter (fun w => f.convoys.any (fun c => c.num == w.convoy))).map (fun w => w.regs.length)).foldl (· + ·) 0
/-- The convoy an instruction may join (R61, R63): exactly one of its sources is still being written, by an instruction with
a chain latency, and a spare physical register is left for each it writes. -/
def Flight.joins (f : Flight) (src dst : List Nat) : Option Nat :=
  match f.awaited src with
  | [w] => if w.chain && decide (f.outstanding + dst.length ≤ 16) then some w.convoy else none
  | _ => none
/-- Some instructions have written every element group. -/
def Flight.finish (f : Flight) (ns : List Nat) : Flight :=
  { f with writers := f.writers.map (fun w => if ns.contains w.n then { w with done := true } else w) }
/-- An instruction that joins none waits until its producers have written every element group, and where no spare register
is left until every convoy is complete. -/
def Flight.await (f : Flight) (src dst : List Nat) : Flight :=
  f.finish (if 16 < f.outstanding + dst.length then f.writers.map (·.n) else (f.awaited src).map (·.n))
/-- The convoys that are complete now. -/
def Flight.complete (f : Flight) : List Convoy := f.convoys.filter (fun c => f.writers.all (fun w => w.convoy != c.num || w.done))
/-- They leave. -/
def Flight.pass (f : Flight) : Flight :=
  let out := f.complete.map (·.num)
  { f with convoys := f.convoys.filter (fun c => !(out.contains c.num)) }
/-- An instruction of a convoy is under way. -/
def Flight.enter (f : Flight) (convoy : Nat) (dst : List Nat) (chain : Bool) : Flight :=
  { f with writers := f.writers ++ [⟨f.next, dst, chain, convoy, false⟩], next := f.next + 1 }
/-- A new convoy begins at `s`. -/
def Flight.begin (f : Flight) (s : State) : Flight := { f with convoys := f.convoys ++ [⟨f.next, s, []⟩] }
/-- Mismatches of a convoy's instruction: the first of each lane group counts. -/
def Flight.meets (f : Flight) (convoy : Nat) (hits : List (Nat × Nat × Nat)) : Flight :=
  { f with convoys := f.convoys.map (fun c =>
      if c.num = convoy then { c with hits := c.hits ++ hits.filter (fun x => !(c.hits.any (fun y => y.1 == x.1))) } else c) }
/-- The first convoy with a mismatch. -/
def Flight.struck (f : Flight) : Option Convoy := f.convoys.find? (fun c => !c.hits.isEmpty)
/-- Every convoy completes: a mismatch takes everything back to the convoy's first instruction. -/
def Flight.close (f : Flight) (s : State) : State :=
  match f.struck with
  | some c => laneSquash c.start c.hits
  | none => s
/-- A convoy has consumed poison: POISON at its first instruction, everything since then taken back (R265). -/
def poisonConvoy (c : Convoy) (k : Kind) (v : Word) : State :=
  let h := c.start.hart
  takeTrap ({ c.start with mismatch := [] }.withHart { h.unpart with vstart := 0 }) h.id .poison k v
    (match h.queue with | e :: _ => e.pc | [] => h.pc) h.pc

/-- The next instruction of a queue: the state in which it dispatches, its entry, the instruction, its run, and what its end
leaves. -/
structure Upcoming where
  at_ : State
  entry : QEntry
  instr : Instr
  run : M (List (Nat × Nat × Nat))
  after : State → State
/-- The instruction at the head of the focus hart's queue, one by one of a repeat frame (R65). -/
def upcoming (s : State) : Option Upcoming :=
  match s.hart.queue with
  | [] => none
  | e :: _ =>
    match wordInstr e.word with
    | some (.rpt m _ sd sa sb sr) =>
      let len := e.frame.length
      let p := framePos s.hart len
      if len = 0 || (m.toNat + 1) * len ≤ p then none
      else
        match frameAt e.frame sd sa sb sr p with
        | some (w, .ok j) =>
          some {
            at_ := s.withHart { s.hart with rpos := rposOf (p / len) (p % len) }
            entry := e
            instr := j
            run := capturedRun w (.ok j) e.pc
            after := fun t =>
              let h := t.hart.capturedDone
              t.withHart (if p + 1 = (m.toNat + 1) * len then h.popHead
                else { h with rpos := rposOf ((p + 1) / len) ((p + 1) % len) }) }
        | _ => none
    | some i =>
      some {
        at_ := s
        entry := e
        instr := i
        run := laneRun e.word e.op2 (headBody (queueCore e.word) e)
        after := fun t => t.withHart t.hart.popHead }
    | none => none
/-- A repeat frame at the head whose words are not at hand has them fetched, where that succeeds. -/
def captureNext (s : State) : State :=
  match s.hart.queue with
  | e :: _ =>
    if uncaptured e then
      match captureHead e s with
      | .ok (.ok _) s1 => s1
      | _ => s
    else s
  | [] => s
/-- The instructions of the focus hart's queue run by a plan: each joins the convoy it chains onto, or begins one, and the
first that waits for every convoy ends them all. -/
def runConvoys : List (Bool × List (Nat × Nat × Nat)) → Flight → State → State
  | [], f, s => f.close s
  | (join, ms) :: t, f, s0 =>
    let s := captureNext s0
    match upcoming s with
    | none => f.close s
    | some x =>
      match convoyUses s.hart x.instr with
      | none => f.close s
      | some (src, dst) =>
        let chosen := if join && (vecUses x.instr).isSome then f.joins src dst else none
        let f1 := if chosen.isSome then f else f.await src dst
        if chosen.isNone && f1.complete.any (fun c => !c.hits.isEmpty) then f1.close s
        else
          let f2 := if chosen.isSome then f else f1.pass.begin x.at_
          let num := chosen.getD f1.next
          let f3 := f2.enter num dst (chainedOnto x.instr)
          match x.run { x.at_ with mismatch := x.at_.mismatch ++ ms } with
          | .ok hits s1 => runConvoys t (f3.meets num hits) (x.after s1)
          | .error (.trap .poison k v) _ =>
            match f3.convoys.find? (fun c => c.num == num || !c.hits.isEmpty) with
            | some c => if c.num = num then poisonConvoy c k v else laneSquash c.start c.hits
            | none => s
          | r =>
            match f3.struck with
            | some c => laneSquash c.start c.hits
            | none =>
              headEnd x.at_ x.entry (match r with
                | .ok _ s1 => .ok () s1
                | .error e s1 => .error e s1)
/-- The convoys of a plan. -/
def runConvoy (plan : List (Bool × List (Nat × Nat × Nat))) (s : State) : State := runConvoys plan ⟨[], [], 0⟩ s

/-! ## An instruction caught part way (R36, R417) -/

/-- How many elements have been written where an instruction stops before element `p`: of tuples whole ones (R160). -/
def partLength (s : State) (i : Instr) (p : Nat) : Nat :=
  match i with
  | .vtmul _ _ _ _ _ t => ((dispatchTable s t.toNat).map (fun x => p - p % x.dc)).getD p
  | .vtconj _ _ _ _ t _ => ((dispatchTable s t.toNat).map (fun x => p - p % x.da)).getD p
  | _ => p
/-- The version of the algebra table it uses. -/
def partTable (s : State) : Instr → Option (List Byte)
  | .vtmul _ _ _ _ _ t => dispatchRecord s t.toNat
  | .vtconj _ _ _ _ t _ => dispatchRecord s t.toNat
  | _ => none
/-- An element-wise instruction as far as element `p`, which begins an element group; none where its checks at dispatch
fail, or where it would not come that far. -/
def partOf (i : Instr) (m : M Unit) (p : Nat) (s : State) : Option State :=
  let h := s.hart
  let passes := match m s with
    | .ok _ _ => true
    | .error (.trap c _ _) _ => !(comparesNothing c) || c == .poison
    | .error _ _ => false
  if elementWise i && s.mismatch = [] && !(laneBusy s) && decide (h.vstart < p) && decide (p < h.vl) &&
      p * h.et.bytes % 256 = 0 && passes then
    match m (s.withHart { h with vl := partLength s i p }) with
    | .ok _ t => some (t.withHart (h.holdPart { t.hart with vl := h.vl, vstart := p } (partTable s i)))
    | .error _ _ => none
  else none
/-- The oldest entry of the focus hart's queue has come as far as element `p`, of a repeat frame after `n` more of its
instructions; an entry that cannot stand there stays as it is. -/
def runPart (n p : Nat) (s : State) : State :=
  match s.hart.queue with
  | [] => s
  | e :: _ =>
    match wordInstr e.word with
    | some (.rpt m _ sd sa sb sr) =>
      let len := e.frame.length
      let q := framePos s.hart len
      if len = 0 || (m.toNat + 1) * len ≤ q + n then s
      else
        match runFrame e.frame e.pc sd sa sb sr n q s with
        | .ok _ s1 =>
          let s2 := s1.withHart { s1.hart with rpos := rposOf ((q + n) / len) ((q + n) % len) }
          match frameAt e.frame sd sa sb sr (q + n) with
          | some (_, .ok j) =>
            match captured j with
            | some k => (partOf j (capturedBody k j e.pc) p s2).getD s2
            | none => s2
          | _ => s2
        | .error _ _ => s
    | some i =>
      match queued i with
      | some k => if queuedAbsent s i then s else (partOf i (headBody k e) p s).getD s
      | none => s
    | none => s

/-- Words a saved queue may hold: major opcodes of vector, tuple, Lantern, weight, FENCE, PUBLISH and repeat instructions
(R86, R263), and a TRAP that a handler has put there (R262) (DEDUCED, log 45). -/
def queueMajor (w : BitVec 32) : Bool :=
  let m := majorOf w
  (match decode w with | .ok (.trap _) => true | _ => false) || ((decide (0x28 ≤ m) && decide (m ≤ 0x6E)) || (decide (0x70 ≤ m) && decide (m ≤ 0x77))) &&
    !(List.contains [0x2F, 0x3E, 0x3F, 0x4D, 0x4E, 0x4F, 0x57, 0x62, 0x63] m)

end Sys2Proof.Machine
end

