-- ==== Sys2Proof/Machine/System.lean ====
section
/-! DEFINITION. The system instructions (03 R68, R69; 15 R256 to R264; 22 to 25: R358, R359, R363 to R367, R383, R399,
R416): CTLRD, CTLWR, TRAP, BREAK, CLAIM, RESUME, LOGMARK. -/

namespace Sys2Proof.Machine

/-! ## Control registers (R68, R365) -/

/-- VTYPE (R54); LCHK shows checked mode. -/
def vtypeWord (s : State) (h : Hart) : Word :=
  BitVec.ofNat 64 (h.et.code ||| h.frm.code <<< 4 ||| (if ctxChecked s (ctxOf s h) then 256 else 0))
/-- MSTAT's writable fields (R183). -/
def mstatMask : Word := 0xFFFFFFFFF8FFFE46

/-- The value of a control register of the focus hart (R365); none for an unassigned number. VL and VTYPE are those of the
scalar unit's place in program order. -/
def ctlValue (s : State) (n : Nat) : Option Word :=
  let h := s.hart
  let c := s.ctx (ctxOf s h)
  match n with
  | 0x000 => some (BitVec.ofNat 64 h.prog.vl)
  | 0x001 => some (vtypeWord s h.prog)
  | 0x002 => some (BitVec.ofNat 64 (if h.frozen then h.vstart else 0))
  | 0x003 => some (if h.frozen then h.rpos else 0)
  | 0x004 => some (h.spdesc.zeroExtend 64)
  | 0x005 => some (BitVec.ofNat 64 (vlcap s h))
  | 0x010 => some (BitVec.ofNat 64 h.prog.frm.code)
  | 0x011 => some (h.fflags.zeroExtend 64)
  | 0x020 => some h.hartid
  | 0x021 => some (BitVec.ofNat 64 h.nharts)
  | 0x022 => some (h.lgown.zeroExtend 64)
  | 0x024 => some (h.grp[0].zeroExtend 64)
  | 0x025 => some (h.grp[1].zeroExtend 64)
  | 0x026 => some (h.grp[2].zeroExtend 64)
  | 0x027 => some (h.grp[3].zeroExtend 64)
  | 0x040 => some c.trapbase
  | 0x041 => some h.trapcause
  | 0x042 => some h.trappc
  | 0x043 => some h.trapval
  | 0x044 => some (saveBase c h)
  | 0x050 => some c.scrbase
  | 0x060 => some (h.mstat ||| (if cuv (s.slot h.slotId) then 0x80 else 0))
  | 0x061 => some h.mtol[0]
  | 0x062 => some h.mtol[1]
  | 0x063 => some h.mtol[2]
  | 0x064 => some h.mtol[3]
  | 0x065 => some (h.algstat.zeroExtend 64)
  | 0x070 => some (BitVec.ofNat 64 (s.launch h.launch).level.code)
  | 0x071 => some h.digest
  | 0x072 => some (h.logseq.zeroExtend 64)
  | 0x080 => some (if h.yreq then 1 else 0)
  | 0x081 => some (BitVec.ofNat 64 c.ydl)
  | 0x090 => some (BitVec.ofNat 64 s.cycle)
  | 0x091 => some (BitVec.ofNat 64 s.time)
  | 0x0A0 => some c.capbase
  | _ => none

/-- A control register of an absent feature (R366). -/
def ctlAbsent (s : State) (n : Nat) : Bool :=
  if 0x061 ≤ n && n ≤ 0x064 then absent s 3
  else if n = 0x065 then absent s 1 && absent s 6
  else if n = 0x072 then absent s 4
  else false

/-- A register whose row in R365 says that CTLRD drains. -/
def ctlDrains (n : Nat) : Bool := n == 0x011 || n == 0x060 || n == 0x065
/-- A floating instruction, or a converting load or store (R365); a repeat frame may hold one. -/
def floatUse : Instr → Bool
  | .vfadd _ _ _ _ _ _ => true
  | .vfsub _ _ _ _ _ _ => true
  | .vfmul _ _ _ _ _ _ => true
  | .vfma _ _ _ _ _ _ _ => true
  | .vfdiv _ _ _ _ _ _ => true
  | .vfsqrt _ _ _ _ => true
  | .vfmin _ _ _ _ _ _ => true
  | .vfmax _ _ _ _ _ _ => true
  | .vfrcp _ _ _ _ => true
  | .vfrsq _ _ _ _ => true
  | .vfexp2 _ _ _ _ => true
  | .vflog2 _ _ _ _ => true
  | .vfcmp _ _ _ _ _ _ _ => true
  | .vcvt _ _ _ _ _ => true
  | .vnarrow _ _ _ _ _ => true
  | .vwiden _ _ _ _ _ => true
  | .vfredsum _ _ _ _ => true
  | .vfredmax _ _ _ _ => true
  | .vredseq _ _ _ _ => true
  | .vtmul _ _ _ _ _ _ => true
  | .mtree _ _ _ => true
  | .vld _ _ _ _ _ _ => true
  | .vst _ _ _ _ _ => true
  | .vldff _ _ _ _ _ _ => true
  | .mrd _ _ _ _ _ _ => true
  | .mwr _ _ _ _ _ _ => true
  | .rpt _ _ _ _ _ _ => true
  | _ => false
/-- VTMUL, MTREE, an algebra-mode MROW (R365), or a repeat frame, which may hold one. -/
def algebraUse : Instr → Bool
  | .vtmul _ _ _ _ _ _ => true
  | .mtree _ _ _ => true
  | .mrow _ _ _ t _ _ _ => t != 0
  | .rpt _ _ _ _ _ _ => true
  | _ => false
/-- A queued instruction whose completion an access to a control register awaits (R297, R364, R365, R434). -/
def ctlWaits (n : Nat) (w : BitVec 32) : Bool :=
  let m := majorOf w
  if n = 0x011 then (wordInstr w).any floatUse
  else if 0x060 ≤ n && n ≤ 0x064 then lanternWord w || m == 0x6C
  else if n = 0x065 then (wordInstr w).any algebraUse
  else if n = 0x000 then ffWord w
  else if n = 0x071 then m == 0x2A || m == 0x2B || m == 0x2E
  else if n = 0x072 then m == 0x2E || m == 0x6E
  else false
/-- The wait of R365: never for a frozen queue. -/
def ctlAwait (n : Nat) : M Unit := do
  let h ← hart
  if !h.frozen && h.queue.any (fun e => ctlWaits n e.word) then hold
/-- A control register of an absent feature is no register (R69, R272, R366). -/
def ctlPresent (n : Nat) (i : Instr) : M Unit := do
  let s ← get
  if ctlAbsent s n then
    modify (maskedRecord (encode i) s.hart.pc)
    illegal i

def ctlrdM (d : BitVec 6) (c : BitVec 12) : M Unit := do
  ctlPresent c.toNat (.ctlrd d c)
  let s ← get
  match ctlValue s c.toNat with
  | none => illegal (.ctlrd d c)
  | some v =>
    if ctlDrains c.toNat && !s.hart.hm then drained
    if !(0x061 ≤ c.toNat && c.toNat ≤ 0x064) then ctlAwait c.toNat
    set (s.result d v)
def execCtlrd (d : BitVec 6) (c : BitVec 12) (s : State) : Out := scalar (ctlrdM d c) s

/-- What a CTLWR of a register does to the hart (R365); none for a register that is read-only or unassigned. A new VTYPE
takes its place in the vector queue (R405). -/
def ctlWrite (n : Nat) (v : Word) : Option (Hart → Hart) :=
  match n with
  | 0x001 => some (fun h => (h.setVec (.et (ET.ofCode (bitsAt v.toNat 0 3)))).setVec (.frm (Frm.ofCode (bitsAt v.toNat 4 2))))
  | 0x004 => some (fun h => { h with spdesc := v.extractLsb' 0 32 })
  | 0x010 => some (fun h => h.setVec (.frm (Frm.ofCode (bitsAt v.toNat 0 2))))
  | 0x011 => some (fun h => { h with fflags := v.extractLsb' 0 5 })
  | 0x041 => some (fun h => { h with trapcause := (v &&& 0x3FF) ||| (h.trapcause &&& 0x8000) })
  | 0x042 => some (fun h => { h with trappc := v })
  | 0x043 => some (fun h => { h with trapval := v })
  | 0x060 => some (fun h => { h with mstat := v &&& mstatMask })
  | 0x061 => some (fun h => { h with mtol := h.mtol.set 0 v })
  | 0x062 => some (fun h => { h with mtol := h.mtol.set 1 v })
  | 0x063 => some (fun h => { h with mtol := h.mtol.set 2 v })
  | 0x064 => some (fun h => { h with mtol := h.mtol.set 3 v })
  | 0x065 => some (fun h => { h with algstat := v.extractLsb' 0 2 })
  | _ => none

def ctlwrM (d : BitVec 6) (c : BitVec 12) : M Unit := do
  ctlPresent c.toNat (.ctlwr d c)
  let s ← get
  let n := c.toNat
  match ctlWrite n (s.rs d) with
  | none => illegal (.ctlwr d c)
  | some f =>
    if s.hart.frozen && (n = 0x001 || n = 0x010 || n = 0x004) then illegal (.ctlwr d c)
    if !s.hart.hm then drained
    ctlAwait n
    modHart f
    nextInstr
def execCtlwr (d : BitVec 6) (c : BitVec 12) (s : State) : Out := scalar (ctlwrM d c) s

/-! ## TRAP and BREAK (R358, R416) -/

/-- A trap that the program asks for: scalar issue continues after it. -/
def softTrap (cause : Cause) (c : BitVec 12) (s : State) : State :=
  takeTrap s s.hart.id cause .read (c.zeroExtend 64) s.hart.pc (s.hart.pc + 4)
def execTrap (c : BitVec 12) (s : State) : Out := .next (softTrap .trap c s)
def execBrk (c : BitVec 12) (s : State) : Out := .next (softTrap .brk c s)

/-! ## CLAIM and RESUME (R262, R263, R359, R399) -/

/-- A queue entry in the save area. -/
def entryBytes (e : QEntry) : List Byte :=
  leBytes 8 e.pc.toNat ++ leBytes 8 e.word.toNat ++ leBytes 8 e.op1.toNat ++ leBytes 8 e.op2.toNat
/-- The header fields from VL to QCOUNT. -/
def headerBytes (s : State) (h : Hart) : List Byte :=
  leBytes 8 h.vl ++ leBytes 8 (vtypeWord s h).toNat ++ leBytes 8 h.vstart ++ leBytes 8 h.rpos.toNat
    ++ leBytes 8 h.spdesc.toNat ++ leBytes 8 h.queue.length
/-- Storing a vector register; its poisoned bytes leave poisoned granules (DEDUCED, log 44). -/
def saveReg (h base : Nat) (r : Nat) : M Unit := do
  let x ← hartNo h
  let n := x.lanes * 256
  let va := base + 0x1000 + 0x400 * r
  storeM h va (leBytes n (x.vr r).toNat)
  if x.vpr r ≠ 0 then
    let (ls, _) ← locateN h va n .write false
    modify (poisonStored h ls (badGranules ls ((List.range n).map (fun i => (x.vpr r).getLsbD i))))
/-- Loading a vector register, poison with it. -/
def loadReg (h base : Nat) (r : Nat) : M (BitVec 8192 × BitVec 1024) := do
  let x ← hartNo h
  let (ls, _) ← locateN h (base + 0x1000 + 0x400 * r) (x.lanes * 256) .read false
  let s ← get
  return (BitVec.ofNat 8192 (leNat (ls.map (locByte s x true))),
    BitVec.ofNat 1024 (leNat ((ls.map (locBad s x true)).mapIdx (fun i b => if b then BitVec.ofNat 8 (2 ^ (i % 8)) else 0)
      |> fun bs => (List.range (bs.length / 8)).map (fun j => ((bs.drop (8 * j)).take 8).foldl (· ||| ·) 0))))

/-- CLAIM and RESUME stand among the hart's accesses as a FENCE ALL does (R262). -/
def fenceAll : M Unit := do
  let h ← hart
  modify (fun s => fenceMark 6 h.id h.stores s.nextOp s)
def claimM : M Unit := do
  let x ← hart
  if !x.hm then illegal .claim
  fenceAll
  let (_, c) ← ctxM x.id
  let base := (saveBase c x).toNat
  let fl := leNat (← loadM x.id base 8)
  if bitsAt fl 0 1 = 1 then nextInstr
  else
    let s ← get
    storeM x.id (base + 0x10) (headerBytes s x)
    if x.queue ≠ [] then storeM x.id (base + 0x400) (x.queue.flatMap entryBytes)
    storeM x.id (base + 0x800) (x.k.toList.flatMap (fun k => leBytes 128 k.toNat))
    eachOf (saveReg x.id base) (List.range 48)
    storeM x.id base (leBytes 8 (fl ||| 1))
    modHart (fun y =>
      let p := y.prog
      { p with
        kept := y.queue
        keptSets := y.sets
        keptMarks := y.fmarks
        queue := []
        sets := []
        fmarks := []
        vstart := 0
        rpos := 0
        frozen := false })
    fenceAll
    nextInstr
def execClaim (s : State) : Out := scalar claimM s

/-- A queue entry read back from its 32 bytes. -/
def entryOf (bs : List Byte) : QEntry :=
  ⟨BitVec.ofNat 64 (leNat (bs.take 8)), BitVec.ofNat 32 (leNat ((bs.drop 8).take 4)),
    BitVec.ofNat 64 (leNat ((bs.drop 16).take 8)), BitVec.ofNat 64 (leNat ((bs.drop 24).take 8)), [], [], ⟨0, 0, [], none⟩⟩
def entriesOf (bs : List Byte) (n : Nat) : List QEntry := (List.range n).map (fun i => entryOf ((bs.drop (32 * i)).take 32))
/-- Each entry's mark, of those that FENCEs have. -/
def marksOf : List QEntry → List (Nat × Nat) → List (Option (Nat × Nat))
  | [], _ => []
  | e :: t, ms =>
    match wordInstr e.word with
    | some (.fence _) => ms.head? :: marksOf t ms.tail
    | _ => none :: marksOf t ms
/-- A saved queue comes back (R262): `qs` as read from the area, in the places of the entries `kept` that were saved, which
had with them what the area does not hold (DEDUCED, log 38). An entry that is another one now was queued where the hart
stands, and one at VSTART = 0 has not begun. -/
def Hart.requeue (h : Hart) (now : Nat) (qs kept : List QEntry) (sets : List VSet) (marks : List (Nat × Nat)) : Hart :=
  let old := marksOf kept marks
  let note (i : Nat) (e : QEntry) : QNote :=
    match kept[i]? with
    | some k => if k.pc = e.pc && k.word = e.word then (if h.vstart = 0 then { k.note with part := none } else k.note) else h.note
    | none => h.note
  let q := qs.mapIdx (fun i e => { e with sets := ((kept[i]?).map (·.sets)).getD [], note := note i e })
  let ms := (qs.mapIdx (fun i e =>
    match wordInstr e.word with
    | some (.fence _) => [((old[i]?).join).getD (h.stores, now)]
    | _ => [])).flatten
  Hart.settle { h with queue := q, sets := (kept.drop qs.length).flatMap (·.sets) ++ sets, fmarks := ms }
/-- The malformed save areas of R263 that a header of VL to QCOUNT, FLAGS and the queue's bytes show (DEDUCED, log 45).
-/
def saveAmiss (h : Hart) (fl : Nat) (hd : List Byte) (qb : List Byte) : Bool :=
  let vl := numAt hd 0 8
  let vt := numAt hd 8 8
  let vs := numAt hd 16 8
  let rp := numAt hd 24 8
  let qc := numAt hd 40 8
  decide (fl / 8 ≠ 0) || decide (32 < qc) || (vt &&& 0x137) != vt || decide (2 ^ 11 ≤ rp) ||
    decide (2 ^ 32 ≤ numAt hd 32 8) || decide (vlmax (ET.ofCode (vt % 8)) h.lanes < vl) ||
    (decide (0 < qc) && decide (vl ≤ vs)) ||
    (List.range qc).any (fun i => numAt qb (32 * i + 12) 4 != 0 || !(queueMajor (BitVec.ofNat 32 (numAt qb (32 * i + 8) 4))))
/-- Nonzero reserved bits in the fields from FFLAGS to the selected tile, 104 bytes; a counter holds 0 to 511 (R263)
(DEDUCED, log 45). -/
def fieldsAmiss (fs : List Byte) : Bool :=
  decide (32 ≤ numAt fs 0 8) || (numAt fs 8 8 &&& 0x83FF) != numAt fs 8 8 ||
    (numAt fs 32 8 &&& (mstatMask.toNat ||| 0x80)) != numAt fs 32 8 || decide (4 ≤ numAt fs 40 8) ||
    decide (2 ^ 32 ≤ numAt fs 56 8) || (List.range 16).any (fun i => decide (Config.counterMax < numAt fs (64 + 2 * i) 2)) ||
    decide (32 ≤ numAt fs 96 8)
/-- The reserved parts of the save area, as offset and length (R263). -/
def saveReserved : List (Nat × Nat) := [(0xA8, 0x58), (0x300, 0x100), (0xE00, 0x200), (0xD000, 0x3000)]
/-- Whether one of some parts holds a nonzero byte. -/
def anyNonzero (h base : Nat) : List (Nat × Nat) → M Bool
  | [] => return false
  | (o, n) :: t => do
    let bs ← loadM h (base + o) n
    if bs.any (· != 0) then return true else anyNonzero h base t
/-- Registers from `r` on, `n` of them, taken from the save area. -/
def loadRegs (h base : Nat) : Nat → Nat → M (List (BitVec 8192 × BitVec 1024))
  | 0, _ => return []
  | n + 1, r => do
    let x ← loadReg h base r
    return x :: (← loadRegs h base n (r + 1))

/-- What CLAIM saved comes back; a malformed area is a nested trap that reports ILLEGAL_OP (R263, R264). -/
def restoreClaimed (h base fl : Nat) : M Unit := do
  let x ← hartNo h
  let hd ← loadM h (base + 0x10) 48
  let qc := numAt hd 40 8
  let qb ← if 0 < qc && qc ≤ 32 then loadM h (base + 0x400) (32 * qc) else pure []
  let fs ← loadM h (base + 0x40) 104
  if saveAmiss x fl hd qb || fieldsAmiss fs || (← anyNonzero h base saveReserved) then illegal .resume
  let kb ← loadM h (base + 0x800) 1536
  let vs ← loadRegs h base 48 0
  let vt := numAt hd 8 8
  storeM h base (leBytes 8 (fl - fl % 2))
  let now := (← get).nextOp
  modHartNo h (fun y => Hart.requeue { y with
    vl := numAt hd 0 8
    et := ET.ofCode (vt % 8)
    frm := Frm.ofCode (bitsAt vt 4 2)
    vstart := numAt hd 16 8
    rpos := BitVec.ofNat 64 (numAt hd 24 8)
    spdesc := BitVec.ofNat 32 (numAt hd 32 8)
    kept := []
    keptSets := []
    keptMarks := []
    k := Vector.ofFn (fun (i : Fin 12) => BitVec.ofNat 1024 (numAt kb (128 * i.val) 128))
    v := Vector.ofFn (fun (i : Fin 48) => (vs.getD i.val (0, 0)).1)
    vp := Vector.ofFn (fun (i : Fin 48) => (vs.getD i.val (0, 0)).2) } now (entriesOf qb qc) y.kept y.keptSets y.keptMarks)

def resumeM : M Unit := do
  let x ← hart
  if !x.hm then illegal .resume
  drained
  fenceAll
  let (_, c) ← ctxM x.id
  let base := (saveBase c x).toNat
  let fl := leNat (← loadM x.id base 8)
  let sb ← loadM x.id (base + 0x100 + 56 * 8) 64
  let spc := leNat (← loadM x.id (base + 8) 8)
  if bitsAt fl 0 1 = 1 then restoreClaimed x.id base fl
  modHart (fun y =>
    let z := (List.range 8).foldl (fun h i => h.setS (BitVec.ofNat 6 (56 + i)) (BitVec.ofNat 64 (numAt sb (8 * i) 8))) y
    { z with
      trapcause := z.trapcause &&& ~~~0x8000
      frozen := false
      arrived := bitsAt fl 2 1 == 1
      pc := BitVec.ofNat 64 spc })
def execResume (s : State) : Out := scalar resumeM s

/-! ## LOGMARK (R383) -/

def logmarkM (d : BitVec 6) (c : BitVec 12) : M Unit := do
  let x ← hart
  let v := x.rs d
  let r ← logCheck x.id 0xA v.toNat c.toNat 0xFFF
  logDone x.id 0xA v.toNat c.toNat 0 (vhash v).toNat r
  nextInstr
def execLogmark (d : BitVec 6) (c : BitVec 12) (s : State) : Out :=
  if absent s 4 then .next (absentHere (.logmark d c) s) else scalar (logmarkM d c) s

end Sys2Proof.Machine
end

