-- ==== Sys2Proof/Machine/Coll.lean ====
section
/-! DEFINITION. Collectives (21 R332 to R334; 22 R361, R362): COLL, the end of a collective and its timeout. What the
other ranks bring arrives with the event that ends it. -/

namespace Sys2Proof.Machine

/-! ## The record (R332) -/

def collSrc (r : List Byte) : Nat := numAt r 0 8
def collDst (r : List Byte) : Nat := numAt r 8 8
def collCount (r : List Byte) : Nat := numAt r 16 6
def collOp (r : List Byte) : Nat := byteAt r 22
def collEt (r : List Byte) : Nat := byteAt r 23
def collNrank (r : List Byte) : Nat := byteAt r 24
def collRank (r : List Byte) : Nat := byteAt r 25
def collComm (r : List Byte) : Nat := byteAt r 26
/-- Element width. -/
def collWidth (et : Nat) : Nat := if et = 3 then 8 else if et = 4 || et = 5 then 2 else 4
/-- Elements at the source and at the destination. -/
def collIn (r : List Byte) : Nat := if collOp r = 3 then collNrank r * collCount r else collCount r
def collOut (r : List Byte) : Nat := if collOp r = 2 then collNrank r * collCount r else collCount r
def collInBytes (r : List Byte) : Nat := collIn r * collWidth (collEt r)
def collOutBytes (r : List Byte) : Nat := collOut r * collWidth (collEt r)

/-- The lowest reason with which a record fails (R333). -/
def collAmiss (s : State) (r : List Byte) : Option Nat :=
  let w := collWidth (collEt r)
  let k := s.comm (collComm r)
  let overlap := decide (collSrc r < collDst r + collOutBytes r) && decide (collDst r < collSrc r + collInBytes r)
  if numAt r 27 29 != 0 then some 1
  else if collEt r < 2 || 6 < collEt r || 3 < collOp r then some 2
  else if collNrank r ≤ collRank r then some 3
  else if collCount r = 0 || 2 ^ 32 < collCount r then some 4
  else if 15 < collComm r || !k.set then some 5
  else if collSrc r % w != 0 || collDst r % w != 0 then some 6
  else if collSrc r != collDst r && overlap then some 7
  else if collSrc r == collDst r && 2 ≤ collOp r then some 8
  else if collNrank r < 2 || 64 < collNrank r then some 9
  else if collNrank r != k.peers.length then some 10
  else if collRank r != k.rank then some 11
  else none

/-! ## Issue (R333, R361) -/

/-- Pages of source or destination bytes, in their order (R333): the lowest byte that faults, or that lies in scratch or
outside device memory, decides (R361). -/
def collPages (h : Nat) (k : Kind) : List (Nat × Nat) → List (Nat × Nat) → M (List (Nat × Nat))
  | [], acc => return acc.reverse
  | (va, n) :: t, acc => do
    let far {α : Type} (v : Nat) : M α := trap .perm k (BitVec.ofNat 64 v)
    let y ← locateGpa h va va k false
    match y.loc with
    | .phys gpa =>
      if !(paDevice gpa) then far va
      let (_, x) ← ctxM h
      match scratchPart x (va, n) with
      | some (lo, _) => far (x.scrbase.toNat + lo)
      | none => collPages h k t ((va, gpa) :: acc)
    | _ => far va

def collM (a : BitVec 6) (cn : BitVec 4) : M Unit := do
  let h ← hart
  if Config.counterMax ≤ h.counter cn.toNat then hold
  let ra := h.rs a
  if ra.toNat % 64 ≠ 0 then trap .align .read ra
  let r ← loadM h.id ra.toNat 64
  match collAmiss (← get) r with
  | some n => formatRec ra.toNat n
  | none => pure ()
  let sp ← collPages h.id .read (chunks (collSrc r) (collInBytes r)) []
  let dp ← collPages h.id .write (chunks (collDst r) (collOutBytes r)) []
  let wp ← pagesOf .write [(ra.toNat + 56, 8)]
  let s ← get
  let o : CollOp :=
    { n := s.nextOp, comm := collComm r, hart := h.id, ctx := ctxOf s s.hart, counter := cn.toNat, recA := ra.toNat, record := r,
      srcPages := sp, dstPages := dp ++ wp, acq := h.lastAcq, seq := h.stores, tol := h.mtol[2], done := false, away := false,
      status := 0, home := h.id }
  set { s with nextOp := s.nextOp + 1, colls := s.colls ++ [o] }
  countUp h.id cn.toNat
  nextInstr
def execColl (a : BitVec 6) (c : BitVec 4) (s : State) : Out :=
  if absent s 7 then .next (absentHere (.coll a c) s) else scalar (collM a c) s

/-! ## Reduction (R334) -/

/-- The float format of an ET code. -/
def collFmt (et : Nat) : Fmt := if et = 4 then .f16 else if et = 5 then .bf16 else .f32
/-- One step of a sum, the running sum on the left. -/
def collAdd (et x y : Nat) : Nat :=
  if et = 2 then (x + y) % 2 ^ 32 else if et = 3 then (x + y) % 2 ^ 64 else (fAdd (collFmt et) .rne x y).1
/-- One step of a maximum. -/
def collMax (et x y : Nat) : Nat :=
  if et = 2 || et = 3 then
    let w := if et = 2 then 32 else 64
    if toSigned w x < toSigned w y then y else x
  else (fMinMax (collFmt et) true x y).1
/-- Ranks in the order of a sum: the one after the owner first, the owner last. -/
def ringOrder (n owner : Nat) : List Nat := (List.range n).map (fun i => (owner + 1 + i) % n)
/-- Values of the ranks combined in ring order. -/
def ringFold (f : Nat → Nat → Nat) (n owner : Nat) (v : Nat → Nat) : Nat :=
  match ringOrder n owner with
  | [] => 0
  | k :: t => t.foldl (fun x i => f x (v i)) (v k)
/-- Element `i` of `b` bytes. -/
def elemAt (b : Nat) (bs : List Byte) (i : Nat) : Nat := numAt bs (i * b) b

/-- Chunks of the reduced vector, as (number, owner, first element, count): 64 KiB each, none across a block boundary
of a reduce-scatter. -/
def collChunks (r : List Byte) : List (Nat × Nat × Nat × Nat) :=
  let per := 65536 / collWidth (collEt r)
  let n := collCount r
  let k := (n + per - 1) / per
  if collOp r = 3 then
    (List.range (collNrank r)).flatMap (fun b => (List.range k).map (fun c =>
      (b * k + c, b, b * n + c * per, min per (n - c * per))))
  else (List.range k).map (fun c => (c, c % collNrank r, c * per, min per (n - c * per)))

/-- An element as f32 (exact), and its magnitude. -/
def collF32 (et x : Nat) : Nat := if et = 6 then x else (fConvert (collFmt et) .f32 .rne x).1
/-- The element sum or the magnitude sum of a chunk's elements: f32 in ascending index, or exact modulo 2^64. -/
def chunkSum (et : Nat) (mag : Bool) (xs : List Nat) : Nat :=
  if et = 2 || et = 3 then
    let w := if et = 2 then 32 else 64
    ofInt 64 (xs.foldl (fun t x => t + (if mag then Int.ofNat (toSigned w x).natAbs else toSigned w x)) 0)
  else
    match xs.map (fun x => let f := collF32 et x; if mag then f % 2 ^ 31 else f) with
    | [] => 0
    | v :: t => t.foldl (fun a b => (fAdd .f32 .rne a b).1) v
/-- A sum's chunk fails its check: the owner's sums of the reduced chunk against the reduced sums (R334, R187). -/
def chunkAmiss (et : Nat) (tol : Word) (n owner : Nat) (vals : Nat → List Nat) (red : List Nat) : Bool :=
  let add (x y : Nat) : Nat := if et = 2 || et = 3 then (x + y) % 2 ^ 64 else (fAdd .f32 .rne x y).1
  let exp := ringFold add n owner (fun k => chunkSum et false (vals k))
  let mag := ringFold add n owner (fun k => chunkSum et true (vals k))
  mismatch (et = 2 || et = 3) (tolField (bitsAt tol.toNat 32 32), tolField (bitsAt tol.toNat 0 32)) (chunkSum et false red)
    exp mag

/-! ## The end of a collective -/

/-- A record's matched fields agree with those of the other ranks. -/
def collAgree (r : List Byte) (parts : List CollPart) : Bool :=
  parts.all (fun p => p.op == collOp r && p.et == collEt r && p.count == collCount r && p.nrank == collNrank r)
/-- Each other rank has brought exactly one part. -/
def collWhole (r : List Byte) (parts : List CollPart) : Bool :=
  parts.length == collNrank r - 1 &&
    (List.range (collNrank r)).all (fun k => k == collRank r || (parts.filter (fun p => p.rank == k)).length == 1)
/-- Source bytes of a rank. -/
def partBytes (own : List Byte) (r : List Byte) (parts : List CollPart) (k : Nat) : List Byte :=
  if k = collRank r then own else ((parts.find? (fun p => p.rank == k)).map (·.bytes)).getD []

/-- The reduced elements of the destination, and the chunks that failed their check (DEDUCED, log 46). -/
def collReduce (o : CollOp) (own : List Byte) (parts : List CollPart) : List Nat × List Nat :=
  let r := o.record
  let w := collWidth (collEt r)
  let n := collNrank r
  let val (k i : Nat) : Nat := elemAt w (partBytes own r parts k) i
  if collOp r = 2 then
    ((List.range n).flatMap (fun k => (List.range (collCount r)).map (val k)), [])
  else
    let f := if collOp r = 1 then collMax (collEt r) else collAdd (collEt r)
    let done := (collChunks r).map (fun c =>
      let ix := (List.range c.2.2.2).map (c.2.2.1 + ·)
      let red := ix.map (fun i => ringFold f n c.2.1 (fun k => val k i))
      (c, red, collOp r != 1 && chunkAmiss (collEt r) o.tol n c.2.1 (fun k => ix.map (val k)) red))
    let bad := (done.filter (·.2.2)).map (·.1.1)
    let mine := if collOp r = 3 then done.filter (fun d => d.1.2.1 == collRank r) else done
    (mine.flatMap (·.2.1), bad)

/-- The hart of an operation, where it stands: a hart of a core, or one of a spilled slot. -/
def collHart (s : State) (o : CollOp) : Option Hart :=
  if o.away then (s.spill o.ctx (o.hart / 8)).harts.find? (fun h => h.id == o.hart)
  else
    let x := s.hartOf o.hart
    if x.live && ctxOf s x = o.ctx then some x else none
/-- The machine as its hart's accesses find it. -/
def collView (s : State) (o : CollOp) : State := if o.away then spillView (o.ctx * 512 + o.hart / 8) s else s

/-- What bytes stored by a hart outside its own save area add to its digest, by 8-byte granules (R261, R296, R333). -/
def foldBytes (c : Ctx) (h : Hart) (va : Nat) (bs : List Byte) : Word :=
  let sb := (saveBase c h).toNat
  let ps := (withAddr va bs).filter (fun p => decide (p.1 < sb) || decide (sb + 0x10000 ≤ p.1))
  if c.level = .free then 0 else ((ps.map (fun p => p.1 / 8)).eraseDups).foldl (fun d g => d + granuleTerm g ps) 0

/-- Bytes a collective writes at places for its hart, whose earlier stores of them reach home first, its ancestors' among
them (R218, R296, R333, R454). -/
def collStoreFor (o : CollOp) (va : Nat) (ls : List Loc) (bs : List Byte) (s : State) : State :=
  let x := s.hartOf o.hart
  let ps := physPairs ls bs
  let sc := scrPairs ls bs
  let v : View := ⟨x.slotId, o.ctx, x.id, o.acq, o.seq, (o.n, o.counter)⟩
  let s1 := homeStore o.ctx none (olderHome x.id o.seq (ps.map (·.1)) s) (engineStores v x.stores ps)
  let s2 := if sc = [] || o.away then s1 else s1.setSlot x.slotId (scratchStore (s1.slot x.slotId) sc)
  let y := s2.hartOf o.hart
  s2.setHart { y with stores := y.stores + ps.length, digest := y.digest + foldBytes (s.ctx o.ctx) x va bs }
/-- Bytes a collective writes at places: stores of its hart made at completion (R296, R333), and what stage 2 declined is dropped
(R253). A STATUS in the scratch of a spilled slot waits for the restore. -/
def collStore (o : CollOp) (va : Nat) (ls : List Loc) (bs : List Byte) (s : State) : State :=
  let s0 := dropDead (some o.home) o.ctx ls s
  if (collHart s o).isNone then homeStore o.ctx none s0 (plain (physPairs ls bs))
  else if o.away then withSpilled (o.ctx * 512 + o.hart / 8) (collStoreFor o va ls bs) s0
  else collStoreFor o va ls bs s0

/-- STATUS is written, and the operation is done (R361); a spilled hart's counter waits for its restore (R269). -/
def collEnd (o : CollOp) (dp : List (Nat × Loc)) (status : Nat) (s : State) : State :=
  let ls := locsAt (s.ctx o.ctx) dp (o.recA + 56) 8
  let s1 := dropEvents (o.ctx / 64) o.n (collStore o (o.recA + 56) ls (leBytes 8 status) s)
  let left := if o.hart = 4096 then s1.colls.filter (fun x => x.n != o.n)
    else s1.colls.map (fun x => if x.n = o.n then { x with done := true, status := status } else x)
  let s2 := { s1 with colls := left }
  if o.away || o.hart = 4096 then s2 else settle o.hart o.counter (countedOps s2 o.hart o.counter).length s2

/-- The oldest collective of a communicator that has not ended. -/
def collNext (s : State) (comm : Nat) : Option CollOp := s.colls.find? (fun o => o.comm == comm && !o.done)

/-- COLL_CHECK for each chunk that failed twice (R283, R334). -/
def collReports (o : CollOp) (bad : List Nat) (s : State) : State :=
  bad.foldl (fun s c => eventSend s (o.ctx / 64) 5 (o.ctx % 64)
    ([BitVec.ofNat 8 o.comm, BitVec.ofNat 8 (collRank o.record)] ++ List.replicate 6 0 ++ leBytes 8 c)) s

/-- Destination places of elements that this rank's poisoned source bytes reach: written poisoned, as a copy's (R265). -/
def collBad (r : List Byte) (bad : List Bool) (ls : List Loc) : List Loc :=
  let w := collWidth (collEt r)
  let base := collRank r * collCount r
  let dest (i : Nat) : Option Nat :=
    if collOp r = 2 then some (base + i)
    else if collOp r = 3 then (if base ≤ i && i < base + collCount r then some (i - base) else none)
    else some i
  if bad.all (!·) then []
  else (List.range (collIn r)).flatMap (fun i =>
    if ((bad.drop (i * w)).take w).any id then
      match dest i with
      | some d => (ls.drop (d * w)).take w
      | none => []
    else [])

def collDoneM (o : CollOp) (parts : List CollPart) (bad : List Nat) : M Unit := do
  let r := o.record
  let dp ← stage2Pages o.ctx o.home o.n .write o.dstPages
  if !(collAgree r parts) then modify (collEnd o dp 3)
  else
    let sp ← stage2Pages o.ctx o.home o.n .read o.srcPages
    let s ← get
    let x := s.ctx o.ctx
    let hx := ((collHart s o).getD { Hart.initial with id := 4096 })
    -- as an engine's: of the home or the die's RDC (R198)
    let byte (l : Loc) : Byte :=
      match l with
      | .phys a => if hx.live then readByte (collView s o) { hx with lastAcq := o.acq } (!x.strict) o.seq a else s.peek a
      | _ => 0
    let srcLs := locsAt x sp (collSrc r) (collInBytes r)
    let own := srcLs.map byte
    let poisoned (l : Loc) : Bool :=
      match l with
      | .phys a => if hx.live then locBad (collView s o) { hx with lastAcq := o.acq } true l else paBad s a
      | _ => true
    let (els, amiss) := collReduce o own parts
    let fail := amiss ++ bad.filter (fun c => !(amiss.contains c) && decide (c < (collChunks r).length))
    let bs := els.flatMap (leBytes (collWidth (collEt r)))
    let dstLs := locsAt x dp (collDst r) bs.length
    modify (collStore o (collDst r) dstLs bs)
    modify (poisonPlaces hx.slotId (collBad r (srcLs.map poisoned) dstLs))
    modify (collReports o fail)
    modify (collEnd o dp (if fail = [] then 0 else 1))
/-- The oldest collective of a communicator ends, once every other rank's part is there. -/
def execCollComplete (comm : Nat) (parts : List CollPart) (bad : List Nat) (s : State) : Out :=
  match collNext s comm with
  | none => .next s
  | some o =>
    .next (if !(collAgree o.record parts) && parts ≠ [] || collWhole o.record parts then agent (collDoneM o parts bad) s
      else s)

/-- Cycles of 10 ms. -/
def linkTimeout : Nat := 10000 * Config.cyclesPerMicrosecond
/-- A link that carries a communicator's traffic has been down for 10 ms (R334). -/
def commLost (s : State) (o : CollOp) : Bool :=
  let f := o.ctx / 64
  ((s.comm o.comm).peers.mapIdx (fun i p => (i, p))).any (fun ip =>
    ip.1 != collRank o.record &&
      s.linksDown.any (fun d => bitsAt (mapGet Peer.initial (s.fn f).peers ip.2).links d.1 1 == 1 &&
        decide (d.2 + linkTimeout ≤ s.cycle)))
def collTimeoutM (o : CollOp) : M Unit := do
  let dp ← stage2Pages o.ctx o.home o.n .write o.dstPages
  modify (collEnd o dp 2)
def execCollLinkTimeout (comm : Nat) (s : State) : Out :=
  match collNext s comm with
  | none => .next s
  | some o => .next (if commLost s o then agent (collTimeoutM o) s else s)

end Sys2Proof.Machine
end

