-- ==== Sys2Proof/Machine/SelfTest.lean ====
section
/-! DEFINITION. What follows a detected error and a stalled log (08 R189; 17 R305; 19 R315 to R318): the ends of the
self-tests, CORE_RETIRED and LOG_STALL. -/

namespace Sys2Proof.Machine

/-! ## Lanes (R315) -/

/-- Cycles of 10 ms, in which four transient verdicts of a lane make a failure. -/
def transientSpan : Nat := 10000 * Config.cyclesPerMicrosecond
/-- The position of the oldest queue entry, or where scalar issue stands. -/
def headPc (h : Hart) : Word :=
  match h.queue with
  | e :: _ => e.pc
  | [] => h.pc

/-- A lane group is retired: mask bit, fault record of type 2, LANE_FAULT (R315). -/
def laneRetired (h lg lane : Nat) (s : State) : State :=
  let x := s.hartOf h
  let c := ctxOf s x
  let k := s.core x.core
  let s1 := s.setCore x.core { k with laneMask := k.laneMask ||| (1#4 <<< lg) }
  let s2 := frecAdd s1 2 0 x.core lg lane (c % 64) (c / 64) 0
  eventSend s2 0 6 0xFF (leBytes 2 x.core ++ [BitVec.ofNat 8 lg, BitVec.ofNat 8 lane])
/-- A transient verdict is the fourth of its lane within 10 ms, which makes it a failure. -/
def fourthTransient (s : State) (k : Core) (key : Nat) : Bool :=
  decide (3 ≤ (k.transients.filter (fun t => t.1 == key && decide (s.cycle < t.2 + transientSpan))).length)
/-- A verdict on a test of lanes `lane` and the next one of a lane group: what it leaves, and the lowest failing lane. -/
def laneVerdict (h lg lane : Nat) (failed : List Nat) (s : State) : State × Option Nat :=
  let x := s.hartOf h
  let c := ctxOf s x
  let k := s.core x.core
  match failed.filter (fun l => l == lane || l == (lane + 1) % 8) with
  | l :: t =>
    let low := t.foldl min l
    (laneRetired h lg low s, some low)
  | [] =>
    let key := lg * 8 + lane
    let recent := k.transients.filter (fun t => decide (s.cycle < t.2 + transientSpan))
    let s1 := s.setCore x.core { k with transients := (key, s.cycle) :: recent }
    if fourthTransient s k key then (laneRetired h lg lane s1, some lane)
    else (frecAdd s1 1 0 x.core lg lane (c % 64) (c / 64) 0, none)
/-- All tests of a hart have ended: the convoy runs again, its frame fetched again (R67), or a single LANE_CHECK names the lowest lane group that failed, at
the hart's position (R316) (DEDUCED, log 47). -/
def laneOutcome (h : Nat) (fails : List (Nat × Nat × Nat)) (s : State) : State :=
  let x := s.hartOf h
  match fails with
  | [] => s.setHart { x.refetch with run := .running }
  | f :: t =>
    let (lg, lane, el) := t.foldl (fun a b => if b.1 < a.1 then b else a) f
    takeTrap s h .laneCheck .read (BitVec.ofNat 64 (lane ||| lg <<< 4 ||| (el % 1024) <<< 32)) (headPc x) x.pc
/-- The first of a hart's self-tests ends, with the lanes that failed it. -/
def execLaneSelftestDone (h : Nat) (failed : List Nat) (s : State) : Out :=
  match (s.hartOf h).run with
  | .parked (.laneTest ((lg, lane, el) :: ts) fails) =>
    let (s1, bad) := laneVerdict h lg lane failed s
    let fails1 := match bad with | some l => fails ++ [(lg, l, el)] | none => fails
    .next (if ts = [] then laneOutcome h fails1 s1
      else s1.setHart { s1.hartOf h with run := .parked (.laneTest ts fails1) })
  | _ => .next s

/-! ## Columns (R189, R318) -/

/-- A tested column that fails: a spare takes its place, or none is left. -/
def columnFails (core c : Nat) (s : State) (col : Nat) : State :=
  let k := s.core core
  if k.spares = 0 then
    frecAdd (s.setCore core { k with badColumn := true }) 4 0 core 0 col (c % 64) (c / 64) 0
  else
    frecAdd (s.setCore core { k with spares := k.spares - 1, replaced := col :: k.replaced }) 3 0 core 0 col (c % 64) (c / 64) 0
/-- CHECKSUM is raised after the test, at the entry that followed the MCHK; with consumed rows it marks a launch at
DIGEST and above (R194). Where fewer spares are left than columns failed, the lowest columns take them (DESIGN CHOICE, log
95). -/
def execColumnSelftestDone (h : Nat) (failed : List Nat) (s : State) : Out :=
  let x := s.hartOf h
  match x.run with
  | .parked (.columnTest g cons cols) =>
    let bad := cols.filter (fun c => failed.contains c)
    let s1 := bad.foldl (columnFails x.core (ctxOf s x)) s
    let nsp := decide ((s.core x.core).spares < bad.length)
    let v : Nat := cons.toNat ||| g <<< 32 ||| (if nsp then 1 else 0) <<< 37 ||| (if bad = [] then 0 else 1) <<< 38
    let l := s1.launch x.launch
    let s2 := if cons ≠ 0 && l.level ≠ .free then s1.setLaunch x.launch { l with csmark := true } else s1
    .next (takeTrap s2 h .checksum .read (BitVec.ofNat 64 v) (headPc x) x.pc)
  | _ => .next s

/-- A core with a failed column and no spare leaves service once no hart is placed on it (R318). -/
def execCoreRetired (core : Nat) (s : State) : Out :=
  let k := s.core core
  if k.badColumn && !k.outOfService && s.allHarts.all (fun h => h.core != core) then
    .next (eventSend (s.setCore core { k with outOfService := true }) 0 7 0xFF (leBytes 2 core))
  else .next s

/-! ## LOG_STALL (R305) -/

/-- Cycles of 10 microseconds. -/
def stallSpan : Nat := 10 * Config.cyclesPerMicrosecond
/-- A hart's wait of a kind, and since when; one already reported counts from never (DEDUCED, log 48). -/
def stallOf (kind : Nat) (h : Hart) : Option Nat :=
  match h.run with
  | .parked (.log k t) => if k % 3 = kind then some t else none
  | _ => none
/-- The mark of a reported wait: a cycle that does not come. -/
def reported : Nat := 2 ^ 80
/-- The waits of a kind in a context, by the cycles in which they began. -/
def stallWaits (s : State) (c kind : Nat) : List Nat :=
  (s.liveHarts.filter (fun h => ctxOf s h == c)).filterMap (stallOf kind) ++
    (if kind = 0 then (s.ctx c).stallSince.toList else [])
/-- The stall that goes on has been reported: of the full ring once until a record is written, of a wait at REPLAY once until
none of those reported is left. -/
def stallTold (s : State) (c kind : Nat) : Bool :=
  if kind = 0 then (s.ctx c).stallSent else (stallWaits s c kind).contains reported
def stallDue (s : State) (c kind : Nat) : Bool :=
  !(stallTold s c kind) && (stallWaits s c kind).any (fun t => decide (t + stallSpan ≤ s.cycle))
def markReported (s : State) (c kind : Nat) (h : Hart) : Hart :=
  if ctxOf s h = c && (stallOf kind h).isSome then { h with run := .parked (.log kind reported) } else h
def execLogStall (c kind : Nat) (s : State) : Out :=
  if stallDue s c kind then
    let d := detBlock s c
    let s1 := eventSend s (c / 64) 4 (c % 64)
      ([BitVec.ofNat 8 kind] ++ List.replicate 7 0 ++ leBytes 8 (if kind = 0 then detLogtail d else detLoghead d))
    .next (if kind = 0 then s1.setCtx c { s1.ctx c with stallSent := true } else s1.mapHarts (markReported s1 c kind))
  else .next s

end Sys2Proof.Machine
end

