-- ==== Sys2Proof/Machine/Host.lean ====
section
/-! DEFINITION. The mailbox (02 R26, R27; 14 R249, R252, R253; 16 R273, R282; 19 R319 to R321; 21 R329, R330, R332,
R338, R339): the commands of a function to the part. -/

namespace Sys2Proof.Machine

/-- What a command answers: its return code, its output payload, and the part after it. -/
structure Reply where
  rc : MailRc
  out : List Byte
  state : State
def reply (rc : MailRc) (out : List Byte) (s : State) : Reply := ⟨rc, out, s⟩
/-- A command that has not completed yet: the mailbox of function `f` keeps what it holds. -/
def unanswered (f : Nat) (s : State) : Reply := ⟨(s.fn f).mailRc, (s.fn f).mailOut, s⟩
/-- A command in the mailbox of function `f` (R329), which takes it once the one before has ended: unsupported where the function may not give it, or where the part is
in the pilot-light state and the command is not one of those it then accepts (R337); unanswered in the freeze (R321). -/
def command (f : Nat) (virt dark : Bool) (m : State → Reply) (s : State) : State :=
  if s.frozen || decide (32 < f) || (s.fn f).inval.isSome then s
  else
    let r := if (f ≠ 0 && !virt) || (s.pilot.isSome && !dark) then reply .unsupported [] s else m s
    r.state.setFn f { r.state.fn f with mailRc := r.rc, mailOut := r.out }

/-! ## The capability chain (R19 to R21, R340) -/

/-- The body of a feature's entry. -/
def capBody : Nat → Nat
  | 1 => 8 ||| 64 <<< 8 ||| 2 <<< 16
  | 2 => 0x1FF ||| 16 <<< 16
  | 3 => 32 ||| 2 <<< 8
  | 4 => 16 ||| 30 <<< 8 ||| 32 <<< 16
  | 5 => 1
  | 6 => 1024 ||| 0xB1 <<< 16
  | 7 => 18 ||| 64 <<< 8 ||| 16 <<< 16 ||| 0xF <<< 24
  | 8 => 32
  | _ => 0
/-- The features of stepping B1 that a function's chain links: those not masked, virtualisation for the physical function
only (R21, R252). -/
def capIds (s : State) (f : Nat) : List Nat :=
  [1, 2, 3, 4, 5, 6, 7, 8].filter (fun i => bitsAt (s.fn f).mask i 1 == 0 && (i != 8 || f == 0))
/-- An entry: its feature, version 1, 16 bytes of body, and where the next one begins. -/
def capEntry (id next : Nat) : Nat := id ||| 1 <<< 16 ||| 16 <<< 32 ||| next <<< 64
/-- The chain of a function, entry by entry, each with its body; where entries stand is left open (DESIGN CHOICE, log 80). -/
def capChain (s : State) (f : Nat) : List Byte :=
  let ids := capIds s f
  (ids.mapIdx (fun i id => leBytes 16 (capEntry id (if i + 1 < ids.length then 32 * (i + 1) else 0)) ++ leBytes 16 (capBody id))).flatten
/-- The host reads bytes of a function's chain, which is readable once bring-up has ended (R336). -/
def chainRead (f off n : Nat) (s : State) : State :=
  { s with busOut := if s.pilot.isSome || s.frozen || 32 < f then none
    else some ((List.range n).map (fun i => (capChain s f).getD (off + i) 0)) }
/-- The host reads the DVSECs of a function: where its chain stands, the FROZEN bit (R321), the reason code of the pilot-light
state, and whether CXL.mem reports its memory as active (R336, R337); their places are left open (DESIGN CHOICE, log 11). -/
def dvsecRead (f : Nat) (s : State) : State :=
  { s with busOut := if 32 < f then none
    else some (leBytes 8 (Config.chainPlace f) ++
      [if s.frozen then 1 else 0, BitVec.ofNat 8 (s.pilot.getD 0), if s.pilot.isSome then 0 else 1]) }
/-- The board reads the fault records over I3C or SMBus, the oldest first (R337). -/
def frecBus (s : State) : State := { s with busOut := some (s.frec.flatMap (fun r => leBytes 32 r.toNat)) }
/-- And the rest of its configuration space, whose bytes the spec does not give (R327) (DESIGN CHOICE, log 70). -/
def configRead (f off n : Nat) (s : State) : State :=
  { s with busOut := if 32 < f then none else some ((List.range n).map (fun i => Config.configByte f (off + i))) }
/-- A CDAT object is asked for in a function's DOE mailbox (R327) (DESIGN CHOICE, log 70). -/
def cdatRead (f : Nat) (s : State) : State :=
  if s.frozen || s.pilot.isSome || 32 < f then s else s.setFn f { s.fn f with doeOut := Config.cdatBytes f }

/-! ## Caches and pending stores -/

/-- What the caches hold of a context. -/
def dropCaches (c : Nat) (s : State) : State :=
  let keep (l : CLine) : Bool := l.ctx != c
  let s1 := s.cores.foldl (fun s p => s.setCore p.1 { p.2 with l1 := p.2.l1.filter keep, icache := p.2.icache.filter keep }) s
  { s1 with rdc := s1.rdc.foldl (fun m p => mapPut [] m p.1 (p.2.filter keep)) s1.rdc }
/-- Lines of some addresses leave the L1s and the RDCs. -/
def dropAddrs (hit : Nat → Bool) (s : State) : State :=
  let keep (l : CLine) : Bool := !(hit l.a)
  let s1 := s.cores.foldl (fun s p => s.setCore p.1 { p.2 with l1 := p.2.l1.filter keep }) s
  { s1 with rdc := s1.rdc.foldl (fun m p => mapPut [] m p.1 (p.2.filter keep)) s1.rdc }
/-- Pending stores of some harts to some addresses reach home, those of spilled slots too, a parent's before its child's
(R454). -/
def flushHart (mine : Hart → Bool) (hit : Nat → Bool) (s : State) (h : Hart) : State :=
  if mine h && h.sbuf.any (fun p => hit p.a) then takeHome h.id h.stores hit (kinHome h.kin hit s) else s
def flushSpill (mine : Hart → Bool) (hit : Nat → Bool) (s : State) (p : Nat × Spill) : State :=
  let out (h : Hart) : List Pend := if mine h then h.sbuf.filter (fun q => hit q.a) else []
  if p.2.harts.all (fun h => (out h).isEmpty) then s
  else
    let s1 := (parentsFirst p.2.harts).foldl (fun s h => homeStore (p.1 / 512) none s ((out h).map (Pend.home h.id))) s
    { s1 with spills := mapPut Spill.initial s1.spills p.1 { p.2 with
      harts := p.2.harts.map (fun h => if mine h then { h with sbuf := h.sbuf.filter (fun q => !(hit q.a)) } else h) } }
def flushPending (mine : Hart → Bool) (hit : Nat → Bool) (s : State) : State :=
  s.spills.foldl (flushSpill mine hit) (s.liveHarts.foldl (flushHart mine hit) s)

/-! ## Contexts (R26, R27) -/

/-- A publish-window descriptor; one with a defect is disabled, a base above PA[51] among them (R230). -/
def windowOfBytes (d : List Byte) : Window :=
  let va := numAt d 0 8
  let n := numAt d 8 4
  let fl := numAt d 12 4
  let p0 := numAt d 16 8
  let p1 := numAt d 24 8
  let far := decide (p0 < p1 + n * 65536) && decide (p1 < p0 + n * 65536)
  let ok := decide (fl < 4) && va % 65536 == 0 && decide (0 < n) && decide (n ≤ 2 ^ 20) && p0 % 65536 == 0 &&
    p1 % 65536 == 0 && decide (p0 < 2 ^ 52) && decide (p1 < 2 ^ 52) && paDevice p0 && paDevice p1 && !far
  ⟨va, n, ok && fl % 2 == 1, bitsAt fl 1 1, p0 % 2 ^ 52, p1 % 2 ^ 52⟩
/-- The fields of a record that are read at creation and again at each admission (R27); FLAGS is read at creation only. -/
def recordFields (r : List Byte) (x : Ctx) : Ctx :=
  let ydl := numAt r 0x28 4
  let qu := numAt r 0x2C 4
  let own : List Word := (List.range 4).map (fun i => BitVec.ofNat 64 (numAt r (0x40 + 8 * i) 8))
  let tol := if x.toldef then Config.mtolDefault else own
  { x with
    trapbase := BitVec.ofNat 64 (numAt r 8 8)
    ydl := if ydl = 0 then Config.ydlDefault else ydl
    quantum := if qu = 0 then Config.quantumDefault else qu
    mtol := Vector.ofFn (fun (i : Fin 4) => tol.getD i.val 0)
    coreset := BitVec.ofNat 512 (numAt r 0x60 64)
    windows := (List.range 32).map (fun i => windowOfBytes ((r.drop (0x100 + 32 * i)).take 32)) }
/-- A record with a reserved bit set, one of the determinism block's (R295) too, or a field outside its range (R26). The
block's other defects are SETDET's (R295), and a window's defect disables it (R230) (DEDUCED, log 52). -/
def recordAmiss (r : List Byte) : Bool :=
  let root := numAt r 0 8
  let ydl := numAt r 0x28 4
  root % 2 ^ 18 != 0 || !(paDevice root) || numAt r 8 8 % 4 != 0 || numAt r 0x10 8 % 2 ^ 16 != 0 ||
    numAt r 0x18 8 % 2 ^ 19 != 0 || numAt r 0x20 8 % 16 != 0 ||
    (ydl != 0 && (decide (ydl < 64) || decide (65535 < ydl))) || decide (1000000 < numAt r 0x2C 4) ||
    decide (3 < numAt r 0x30 4) || numAt r 0x34 12 != 0 || bitsAt (numAt r 0xA0 64) 0 1 != 0 || bitsAt (numAt r 0xA0 64) 18 110 != 0 || numAt r 0xE0 8 % 2 ^ 16 != 0 || numAt r 0xE8 24 != 0 ||
    numAt r 0x500 2816 != 0
/-- Contexts a function holds. -/
def contextsOf (s : State) (f : Nat) : Nat := (s.ctxs.filter (fun p => p.2.live && p.1 / 64 == f)).length
/-- A launch of a context is admitted or in flight. -/
def contextBusy (s : State) (c : Nat) : Bool := s.launches.any (fun p => p.2.ctx == c)

/-- CTX_CREATE (R27). -/
def ctxCreate (f num recA : Nat) (s : State) : Reply :=
  let c := f * 64 + num
  let full := decide ((s.fn f).maxctx ≤ contextsOf s f) ||
    decide (Config.contextMax ≤ (s.ctxs.filter (fun p => p.2.live)).length)
  if 62 < num || (s.ctx c).live || full || recA % 4096 ≠ 0 || !(paDevice recA) then reply .invalidInput [] s
  else
    match agentRead s f recA 4096 with
    | none => reply .invalidInput [] s
    | some r =>
      if recordAmiss r then reply .invalidInput [] s
      else
        let lvl : Byte := BitVec.ofNat 8 (byteAt r 0xA2 - byteAt r 0xA2 % 4)
        match agentWrite s f (recA + 0xA2) [lvl] with
        | none => reply .invalidInput [] s
        | some s1 =>
          let x := recordFields r { Ctx.initial with
            live := true
            recA := recA % 2 ^ 52
            root := numAt r 0 8 % 2 ^ 52
            save := BitVec.ofNat 64 (numAt r 0x10 8)
            shadow := BitVec.ofNat 64 (numAt r 0xE0 8)
            scrbase := BitVec.ofNat 64 (numAt r 0x18 8)
            capbase := BitVec.ofNat 64 (numAt r 0x20 8)
            lchk := bitsAt (byteAt r 0x30) 0 1 == 1
            toldef := bitsAt (byteAt r 0x30) 1 1 == 1 }
          reply .success [] (s1.setCtx c x)
def execCtxCreate (f num recA : Nat) (s : State) : Out := .next (command f true false (ctxCreate f num recA) s)

/-- The cores forget a context's code epoch. -/
def forgetEpochs (c : Nat) (s : State) : State :=
  s.cores.foldl (fun s p => s.setCore p.1 { p.2 with epochs := mapErase c p.2.epochs }) s
/-- CTX_DESTROY (R27): slots are freed without spilling. -/
def ctxDestroy (f num : Nat) (s : State) : Reply :=
  let c := f * 64 + num
  if 62 < num || !(s.ctx c).live then reply .invalidInput [] s
  else if contextBusy s c || (s.fn f).queues.any (fun p => p.2.st != .disabled && p.2.ctx == num) then reply .busy [] s
  else
    let s1 := { s with
      slots := s.slots.filter (fun p => p.2.holder != some c)
      spills := s.spills.filter (fun p => p.1 / 512 != c)
      colls := s.colls.filter (fun o => o.ctx != c) }
    -- no answer is awaited for it any more
    let x := s1.fn f
    let s2 := if x.s2 = [] then s1 else s1.setFn f { x with s2 := x.s2.filter (fun e => e.hart < 2 ^ 40 || (e.hart - 2 ^ 40) / 2048 != c) }
    reply .success [] (dropCaches c (forgetEpochs c (s2.setCtx c Ctx.initial)))
def execCtxDestroy (f num : Nat) (s : State) : Out := .next (command f true false (ctxDestroy f num) s)

/-! ## Functions (R252) -/

/-- A function record with a defect. -/
def fnAmiss (g : Nat) (r : List Byte) : Bool :=
  let root := numAt r 0 8
  let dl := numAt r 8 4
  let mx := byteAt r 12
  let mask := numAt r 0x10 4
  let hb := numAt r 0x20 8
  let hl := byteAt r 0x28
  root % 2 ^ 18 != 0 || !(paDevice root) || dl == 0 || decide (100000 < dl) || mx == 0 || decide (63 < mx) ||
    numAt r 13 3 != 0 || mask % 2 != 0 || decide (255 < mask) || numAt r 0x14 12 != 0 || decide (hl < 12) ||
    decide (24 < hl) || hb % 2 ^ hl != 0 || numAt r 0x29 7 != 0 || numAt r 0x40 192 != 0 ||
    (g == 0 && (root != 0 || mask != 0 || hb != 0))
/-- Lines are written back: the memory behind takes what the homes hold dirty, poison with it (R215, R255). -/
def writeBack (within : Nat → Bool) (s : State) : State :=
  let out := s.l2.filter (fun p => within p.1)
  let moved (g : Nat) : Bool := fnAddr (g * 64) != 0 && within (g * 64)
  { s with
    mem := out.foldl (fun m p => mapPut unwritten m (homeOf s p.1) (p.2.getD 0)) s.mem
    l2 := s.l2.filter (fun p => !(within p.1))
    poison := (s.poison.filter moved).foldl (fun l g => poisonAdd l (homeOf s (g * 64) / 64)) (s.poison.filter (fun g => !(moved g))) }
/-- FN_SET. What the function's lines hold goes to the memory behind them first. -/
def fnSet (g recA : Nat) (s : State) : Reply :=
  if 32 < g || !(paDevice recA) then reply .invalidInput [] s
  else if contextsOf s g ≠ 0 then reply .busy [] s
  else
    match agentRead s 0 recA 256 with
    | none => reply .invalidInput [] s
    | some r =>
      if fnAmiss g r then reply .invalidInput [] s
      else
        let s1 := writeBack (fun a => fnAddr a == g && g != 0) s
        let x := s1.fn g
        reply .success [] (s1.setFn g { x with
          recA := recA % 2 ^ 52
          s2root := numAt r 0 8 % 2 ^ 52
          ctxswdl := numAt r 8 4
          maxctx := byteAt r 12
          mask := numAt r 0x10 4
          hvbase := numAt r 0x20 8 % 2 ^ 52
          hvlogsz := byteAt r 0x28
          hvhead := numAt r 0x30 8 % 2 ^ 52
          hvtail := numAt r 0x38 8 % 2 ^ 52
          s2tlb := [] })
def execFnSet (f g recA : Nat) (s : State) : Out := .next (command f false false (fnSet g recA) s)

/-- EVSET (R282): the ring goes on from the count in its tail word. -/
def evset (f base logsz headA tailA vec : Nat) (s : State) : Reply :=
  if logsz < 12 || 24 < logsz || base % 2 ^ logsz ≠ 0 || Config.vectorsOf f ≤ vec then reply .invalidInput [] s
  else
    match agentNum s f tailA 8 with
    | none => reply .invalidInput [] s
    | some n =>
      reply .success [] (s.setFn f { s.fn f with
        evBase := base
        evLogsz := logsz
        evHead := headA
        evTail := tailA
        evVec := vec
        evSet := true
        evCount := n })
def execEvset (f base logsz headA tailA vec : Nat) (s : State) : Out :=
  .next (command f true false (evset f base logsz headA tailA vec) s)

/-! ## Invalidation (R248, R249, R255) -/

/-- Changing every hart, those of spilled slots too. -/
def mapAllHarts (f : Hart → Hart) (s : State) : State :=
  let s1 := s.mapHarts f
  { s1 with spills := s1.spills.map (fun p => (p.1, { p.2 with harts := p.2.harts.map f })) }
/-- Page numbers from `b` on, `n` of them. -/
def vpnIn (b n vpn : Nat) : Bool := decide ((vpn + 2 ^ 41 - b) % 2 ^ 41 < n)
/-- A cached entry serves one of some pages. -/
def tlbHit (b n : Nat) (e : TlbEntry) : Bool :=
  let size := 2 ^ (pageBits e.lvl - 16)
  vpnIn b n (e.vpn * size % 2 ^ 41) || vpnIn (e.vpn * size % 2 ^ 41) size b
/-- A hart parked by a migrating page in a range goes on to its access again. -/
def wakeMig (s : State) (c b n : Nat) (h : Hart) : Hart :=
  match h.run with
  | .parked (.mig va) => if ctxOf s h = c && vpnIn b n (va / 65536 % 2 ^ 41) then { h with run := .running } else h
  | _ => h
/-- An operation in flight completes, where it can. -/
def opFinish (core slot : Nat) (s : State) (o : EngOp) : State :=
  match o.kind with
  | .xcopy => engineComplete core slot o.n .xcopy xcopyDone s
  | .xfill => engineComplete core slot o.n .xfill xfillDone s
  | .kvcommit => engineComplete core slot o.n .kvcommit kvcommitDone s
  | .wld => s
def finishOps (c : Nat) (s : State) : State :=
  s.slots.foldl (fun s p => if p.2.holder = some c then p.2.ops.foldl (opFinish (p.1 / 2) (p.1 % 2)) s else s) s
/-- Operations of a context numbered below `m` that still hold translations of some pages. -/
def opsHold (s : State) (c b n m : Nat) : Bool :=
  let hit (ps : List (Nat × Nat)) : Bool := ps.any (fun p => vpnIn b n (p.1 / 65536 % 2 ^ 41))
  s.slots.any (fun p => p.2.holder == some c && p.2.ops.any (fun o => !o.done && decide (o.n < m) && (hit o.srcPages || hit o.dstPages))) ||
    s.colls.any (fun o => o.ctx == c && !o.done && decide (o.n < m) && (hit o.srcPages || hit o.dstPages))
/-- INVAL_S1 (R249): cached entries of the range go, what used them is performed, and parked harts wake. It completes once
no operation in flight holds an old translation (DEDUCED, log 22); until then the function's mailbox holds it (R329). -/
def invalS1 (f num va pages : Nat) (s : State) : Reply :=
  let c := f * 64 + num
  if 62 < num || !(s.ctx c).live || va % 65536 ≠ 0 then reply .invalidInput [] s
  else
    let b := va / 65536 % 2 ^ 41
    let x := s.ctx c
    let s1 := s.setCtx c { x with tlb := x.tlb.filter (fun e => !(tlbHit b pages e)) }
    let s2 := finishOps c (flushPending (fun h => ctxOf s h == c) (fun _ => true) s1)
    if opsHold s2 c b pages s.nextOp then
      unanswered f (s2.setFn f { s2.fn f with inval := some (c, b, pages, s.nextOp) })
    else reply .success [] (mapAllHarts (wakeMig s2 c b pages) s2)
/-- An INVAL_S1 that waits completes, once it can. -/
def invalDone (f : Nat) (s : State) : Option State :=
  match (s.fn f).inval with
  | none => none
  | some (c, b, pages, m) =>
    if opsHold s c b pages m then none
    else some (mapAllHarts (wakeMig s c b pages) (s.setFn f { s.fn f with inval := none, mailRc := .success, mailOut := [] }))
def execInvalS1 (f num va pages : Nat) (s : State) : Out := .next (command f true false (invalS1 f num va pages) s)

/-- INVAL_S2 (R249, R255): lines of the range are written back under the old mapping, what the harts have not yet stored
among them, and leave the caches; then the translations go. -/
def invalS2 (vmid gpa bytes : Nat) (s : State) : Reply :=
  if vmid = 0 || 32 < vmid || gpa % 65536 ≠ 0 || bytes % 65536 ≠ 0 then reply .invalidInput [] s
  else
    let inRange (a : Nat) : Bool := fnAddr a == vmid && decide (gpa ≤ lowAddr a) && decide (lowAddr a < gpa + bytes)
    let hit (e : TlbEntry) : Bool :=
      decide (e.vpn * 2 ^ pageBits e.lvl < gpa + bytes) && decide (gpa < (e.vpn + 1) * 2 ^ pageBits e.lvl)
    let s1 := dropAddrs inRange (writeBack inRange (flushPending (fun _ => true) inRange s))
    let x := s1.fn vmid
    reply .success [] (s1.setFn vmid { x with s2tlb := x.s2tlb.filter (fun e => !(hit e)) })
def execInvalS2 (f vmid gpa bytes : Nat) (s : State) : Out := .next (command f false false (invalS2 vmid gpa bytes) s)

/-! ## Answers to stage-2 events (R253) -/

/-- The function whose event has a number. -/
def eventOwner (s : State) (evt : Nat) : Option Nat :=
  (s.fns.find? (fun p => p.2.s2.any (fun e => e.evt == evt && !e.declined))).map (·.1)
/-- A hart parked by an event makes its access again. -/
def wakeStage2 (evt : Nat) (h : Hart) : Hart :=
  match h.run with
  | .parked (.stage2 e) => if e = evt then { h with run := .running } else h
  | _ => h
/-- S2_RETRY: the access walks stage 2 again. -/
def s2Retry (evt : Nat) (s : State) : Reply :=
  match eventOwner s evt with
  | none => reply .invalidInput [] s
  | some g =>
    let x := s.fn g
    reply .success [] (mapAllHarts (wakeStage2 evt) (s.setFn g { x with s2 := x.s2.filter (fun e => e.evt != evt) }))
def execS2Retry (f evt : Nat) (s : State) : Out := .next (command f false false (s2Retry evt) s)
/-- S2_DECLINE: the access completes as one to an uncorrectable location, a walk read as WALK_ABORT. -/
def s2Decline (evt : Nat) (s : State) : Reply :=
  match eventOwner s evt with
  | none => reply .invalidInput [] s
  | some g =>
    let x := s.fn g
    reply .success [] (mapAllHarts (wakeStage2 evt)
      (s.setFn g { x with s2 := x.s2.map (fun e => if e.evt = evt then { e with declined := true } else e) }))
def execS2Decline (f evt : Nat) (s : State) : Out := .next (command f false false (s2Decline evt) s)

/-! ## Host queues (R273, R284) -/

/-- Where a queue's descriptor stands: after the 256 bytes of the function's record (DESIGN CHOICE, log 11). -/
def descriptorAt (s : State) (f q : Nat) : Nat := ((s.fn f).recA + 0x100 + 32 * q) % 2 ^ 52
/-- EN mirrors the queue's state. -/
def mirrorEn (s : State) (f q : Nat) (on : Bool) : State :=
  let a := descriptorAt s f q
  let b := s.peekN a 1
  outsideStore s a [BitVec.ofNat 8 (b - b % 2 + (if on then 1 else 0))]
/-- QENABLE. -/
def qenable (f q : Nat) (s : State) : Reply :=
  if 63 < q then reply .invalidInput [] s
  else if (s.queue f q).st ≠ .disabled then reply .busy [] s
  else
    match agentRead s 0 (descriptorAt s f q) 32 with
    | none => reply .invalidInput [] s
    | some d =>
      let x := leNat d
      let vec := bitsAt x 16 8 + 256 * bitsAt x 5 3
      let logsz := bitsAt x 11 5
      if bitsAt x 1 4 ≠ 0 || logsz < 12 || 30 < logsz || 62 < bitsAt x 24 8 || !(s.ctx (f * 64 + bitsAt x 24 8)).live ||
          Config.vectorsOf f ≤ vec then reply .invalidInput [] s
      else
        match agentNum s f (bitsAt x 192 64) 8 with
        | none => reply .invalidInput [] s
        | some head =>
          reply .success [] (mirrorEn (s.setQueue f q
            { st := .idle, headA := bitsAt x 192 64, tailA := bitsAt x 128 64, base := bitsAt x 64 64, logsz := logsz,
              ctx := bitsAt x 24 8, vec := vec, prio := bitsAt x 8 3, head := head, seq := BitVec.ofNat 32 (bitsAt x 32 32),
              fails := 0, seen := none, packet := none }) f q true)
def execQenable (f q : Nat) (s : State) : Out := .next (command f true false (qenable f q) s)

/-- A hart that a CTXSW had stopped goes on, where its slot is active. -/
def resumeStopped (ids : List Nat) (s : State) (h : Hart) : Hart :=
  if h.live && ids.contains h.id && h.run = .stopped && !h.ended && (s.core h.core).active = h.slotId % 2 then
    { h with run := .running }
  else h
/-- What a packet abandoned part way had stopped goes on (R271, R284). -/
def packetUndo (p : Option Packet) (s : State) : State :=
  match p with
  | some p => if p.ptype = 6 && p.begun then s.mapHarts (resumeStopped p.waits s) else s
  | none => s
/-- The packet's wait for the full ring is over with it, and the stall where nothing else waits (R284, R305). -/
def packetStall (c : Nat) (p : Option Packet) (s : State) : State :=
  if p.any (fun p => p.begun && (p.ptype == 1 || p.ptype == 5)) then
    let s1 := s.setCtx c { s.ctx c with stallSince := none }
    if stallWaits s1 c 0 = [] then s1.setCtx c { s1.ctx c with stallSent := false } else s1
  else s
/-- QDISABLE: the current packet is abandoned without effect, and a SETDET of it holds no launch any more. -/
def qdisable (f q : Nat) (s : State) : Reply :=
  if 63 < q then reply .invalidInput [] s
  else if (s.queue f q).st = .disabled then reply .success [] s
  else
    let x := s.queue f q
    let c := f * 64 + x.ctx
    let s1 := s.setQueue f q { x with st := .disabled, packet := none, fails := 0 }
    let y := s1.ctx c
    let s2 := s1.setCtx c { y with drains := y.drains.filter (fun d => !(d.fn == f && d.q == q)) }
    reply .success [] (mirrorEn (packetStall c x.packet (packetUndo x.packet s2)) f q false)
def execQdisable (f q : Nat) (s : State) : Out := .next (command f true false (qdisable f q) s)

/-! ## Diagnosis (R319 to R321) -/

/-- FREC_READ: the records of the ring, oldest first, of which the mailbox carries 4 KiB: the newest 128 (R319, R338) (DESIGN
CHOICE, log 97). -/
def frecRead (s : State) : Reply :=
  reply .success ((s.frec.drop (s.frec.length - 128)).flatMap (fun r => leBytes 32 r.toNat)) s
def execFrecRead (f : Nat) (s : State) : Out := .next (command f true true frecRead s)
/-- Command 0x41: the lane-disable masks, a byte for each core (DESIGN CHOICE, log 11). -/
def laneMaskRead (s : State) : Reply :=
  reply .success ((List.range Config.cores).map (fun c => (s.core c).laneMask.zeroExtend 8)) s
def execLaneMaskRead (f : Nat) (s : State) : Out := .next (command f false true laneMaskRead s)
/-- LANE_RETEST (R320). -/
def laneRetest (core lg : Nat) (pass : Bool) (s : State) : Reply :=
  if Config.cores ≤ core || 3 < lg then reply .invalidInput [] s
  else if s.allHarts.any (fun h => h.core == core) then reply .busy [] s
  else
    let k := s.core core
    reply .success [] (if pass then s.setCore core { k with laneMask := k.laneMask &&& ~~~(1#4 <<< lg) } else s)
def execLaneRetest (f core lg : Nat) (pass : Bool) (s : State) : Out :=
  .next (command f false false (laneRetest core lg pass) s)

/-- The freeze (R321): a fault record of type 9, and every clock stops. -/
def freeze (s : State) : State := { frecAdd s 9 0 0 0 0 63 255 0 with frozen := true }
/-- SNUFF. -/
def execSnuff (f : Nat) (s : State) : Out := .next (command f false false (fun s => reply .success [] (freeze s)) s)

/-- PWR_LIMIT (R339). -/
def pwrLimit (watts : Nat) (s : State) : Reply :=
  if watts < 800 || 2000 < watts then reply .invalidInput [] s else reply .success [] { s with powerLimit := watts }
def execPwrLimit (f watts : Nat) (s : State) : Out := .next (command f false false (pwrLimit watts) s)

/-! ## Peers and communicators (R330, R332) -/

/-- PEER_SET: only while no launch of the function is in flight. -/
def peerSet (g p : Nat) (v : Bool) (links peerFn : Nat) (s : State) : Reply :=
  if 32 < g || 63 < p || 2 ^ 18 ≤ links then reply .invalidInput [] s
  else if s.launches.any (fun l => l.2.fn == g) then reply .busy [] s
  else
    let x := s.fn g
    reply .success [] (s.setFn g { x with peers := mapPut Peer.initial x.peers p ⟨v, links, peerFn, false, false⟩ })
def execPeerSet (f g p : Nat) (v : Bool) (links peerFn : Nat) (s : State) : Out :=
  .next (command f false false (peerSet g p v links peerFn) s)
/-- COMM_SET. -/
def commSet (comm : Nat) (peers : List Nat) (rank : Nat) (s : State) : Reply :=
  if 15 < comm || peers.length < 2 || 64 < peers.length || peers.length ≤ rank || peers.any (fun p => decide (63 < p)) then
    reply .invalidInput [] s
  else reply .success [] { s with comms := mapPut Comm.initial s.comms comm ⟨true, peers, rank⟩ }
def execCommSet (f comm : Nat) (peers : List Nat) (rank : Nat) (s : State) : Out :=
  .next (command f false false (commSet comm peers rank) s)

/-! ## FW_UPDATE (R338) -/

/-- A step fails for a reason. -/
def fwFail (n : Nat) (s : State) : Reply := reply .invalidInput [BitVec.ofNat 8 n] s
/-- BEGIN. -/
def fwBegin (len : Nat) (s : State) : Reply :=
  if len < 2 ^ 10 || 2 ^ 26 < len then fwFail 2 s
  else reply .success [] { s with fwStaging := Bank.initial, fwOpen := some len, fwNext := false }
def execFwUpdateBegin (f len : Nat) (s : State) : Out := .next (command f false true (fwBegin len) s)
/-- DATA. -/
def fwData (off : Nat) (bytes : List Byte) (s : State) : Reply :=
  match s.fwOpen with
  | none => fwFail 1 s
  | some len =>
    if off % 8 ≠ 0 || 4080 < bytes.length || len < off + bytes.length then fwFail 2 s
    else
      let b := s.fwStaging
      reply .success [] { s with fwStaging :=
        { b with bytes := (withAddr off bytes).foldl (fun m p => mapPut 0 m p.1 p.2) b.bytes } }
def execFwUpdateData (f off : Nat) (bytes : List Byte) (s : State) : Out := .next (command f false true (fwData off bytes) s)
/-- The reason for which an image is refused, if any (R335, R338). -/
def fwAmiss (v : FwVerdict) : Option Nat :=
  if !v.sigOk then some 3 else if !v.digestOk then some 4 else if v.version < Config.fusedMinimum then some 5 else none
/-- COMMIT: the staging bank is the next to boot; a failed one leaves the update open. -/
def fwCommit (v : FwVerdict) (s : State) : Reply :=
  match s.fwOpen with
  | none => fwFail 1 s
  | some len =>
    match fwAmiss v with
    | some n => fwFail n s
    | none =>
      let b := s.fwStaging
      reply .success [] { s with fwStaging := { b with present := true, len := len, version := some v.version }, fwOpen := none, fwNext := true }
def execFwUpdateCommit (f : Nat) (v : FwVerdict) (s : State) : Out := .next (command f false true (fwCommit v) s)
/-- ABORT. -/
def fwAbort (s : State) : Reply :=
  match s.fwOpen with
  | none => fwFail 1 s
  | some _ => reply .success [] { s with fwStaging := Bank.initial, fwOpen := none }
def execFwUpdateAbort (f : Nat) (s : State) : Out := .next (command f false true fwAbort s)
/-- The security version of a bank's image. -/
def Bank.security (b : Bank) : Nat := b.version.getD Config.fusedMinimum
/-- STATUS: the versions of both banks, and whether the last staged boot was rejected (DESIGN CHOICE, log 11). -/
def fwStatus (s : State) : Reply :=
  reply .success (leBytes 8 s.fwActive.security ++ leBytes 8 s.fwStaging.security ++ [if s.fwRejected then 1 else 0]) s
def execFwUpdateStatus (f : Nat) (s : State) : Out := .next (command f false true fwStatus s)

end Sys2Proof.Machine
end

