-- ==== Sys2Proof/Machine/HostQueue.lean ====
section
/-! DEFINITION. Host queues (16 R273 to R280, R284), their packets (R278, R279), admission (02 R28, R29, R41 to R46;
05 R118; 16 R285), code epochs (R290) and changes of the determinism level (R291; 17 R295, R298, R302, R303, R309). -/

namespace Sys2Proof.Machine

/-! ## The seal (R276) -/

def crcBit (c : Nat) : Nat := if c % 2 = 1 then (c / 2) ^^^ 0x82F63B78 else c / 2
def crcByte (c : Nat) (b : Byte) : Nat :=
  crcBit (crcBit (crcBit (crcBit (crcBit (crcBit (crcBit (crcBit (c ^^^ b.toNat))))))))
/-- CRC-32C: Castagnoli polynomial, reflected. -/
def crc32c (bs : List Byte) : Nat := bs.foldl crcByte 0xFFFFFFFF ^^^ 0xFFFFFFFF

/-! ## Packets (R275, R278) -/

def packetType (p : List Byte) : Nat := byteAt p 0
def packetLen (p : List Byte) : Nat := byteAt p 1
def packetFlags (p : List Byte) : Nat := byteAt p 2
def packetTag (p : List Byte) : Nat := numAt p 4 4
def packetFresh (p : List Byte) : Bool := packetFlags p % 2 == 1
def packetConc (p : List Byte) : Bool := bitsAt (packetFlags p) 1 1 == 1
def packetIrq (p : List Byte) : Bool := bitsAt (packetFlags p) 2 1 == 1
/-- A packet verifies: its CRC matches, and its SEQ is the one expected. -/
def packetSealed (seq : BitVec 32) (p : List Byte) : Bool :=
  let n := p.length
  decide (0 < n) && numAt p (n - 4) 4 == seq.toNat && numAt p (n - 8) 4 == crc32c (p.take (n - 8) ++ leBytes 4 seq.toNat)
/-- The length a type has; a NOP has any from 1. -/
def lenOf (t : Nat) : Nat := if t = 1 then 2 else if t = 6 then 3 else 1
/-- A reserved body or header bit is set, a flag stands where it may not, or an address is misaligned (R280). -/
def packetReserved (p : List Byte) : Bool :=
  let t := packetType p
  let tail (i : Nat) : Bool := ((p.take (p.length - 8)).drop i).any (· != 0)
  decide (7 < packetFlags p) || byteAt p 3 != 0 || (t != 1 && packetFlags p != 0) ||
    (if t = 1 then tail 32 || numAt p 24 8 % 128 != 0
     else if t = 2 then tail 24 || numAt p 8 8 % 8 != 0
     else if t = 3 then tail 32 || numAt p 8 8 % 8 != 0 || decide (3 < numAt p 24 8)
     else if t = 5 then tail 24 || decide (3 < numAt p 8 8)
     else if t = 6 then decide (63 < numAt p 8 2) || decide (63 < numAt p 10 2) || numAt p 12 52 != 0 || tail 128
     else tail 8)
/-- A determinism block on which SETDET to a level is an error (R295). -/
def detAmiss (d lvl : Nat) : Bool :=
  decide (1 ≤ lvl) && (bitsAt d 0 1 != 0 || bitsAt d 18 110 != 0 || decide (detDgstr d < 12) || decide (30 < detDgstr d) ||
    decide (16 < detDgns d) || detDgbase d % 2 ^ detDgstr d != 0) ||
  decide (2 ≤ lvl) && (decide (detLogsz d < 16) || decide (30 < detLogsz d) || detVtab d % 2 ^ 22 != 0 ||
    !(paDevice (detVtab d)) || detLogbase d % 2 ^ detLogsz d != 0)
/-- A number that names a context of the function. -/
def holdsCtx (s : State) (f n : Nat) : Bool := decide (n ≤ 62) && (s.ctx (f * 64 + n)).live
/-- The lowest error of a packet that verifies (R280). -/
def packetAmiss (s : State) (f : Nat) (x : HostQueue) (p : List Byte) : Option Nat :=
  let t := packetType p
  let n := packetLen p
  let c := f * 64 + x.ctx
  let lvl := numAt p 8 8
  if 6 < t then some 2
  else if (t ≠ 0 && n ≠ lenOf t) || 2 ^ x.logsz < x.head % 2 ^ x.logsz + 64 * n then some 3
  else if packetReserved p || (t = 5 && detAmiss (detBlock s c) lvl) then some 4
  else if !(holdsCtx s f x.ctx) then some 6
  else if t = 6 && (numAt p 8 2 ≠ x.ctx || !(holdsCtx s f (numAt p 10 2))) then some 6
  else if t = 5 && 2 ≤ lvl && ctxLacks s c 4 then some 7
  else none

/-! ## An attempt (R277) and a queue error (R280) -/

/-- The queue stops at its packet. -/
def queueError (f q code : Nat) (s : State) : State :=
  let x := s.queue f q
  eventSend (s.setQueue f q { x with st := .error }) f 1 x.ctx
    ([BitVec.ofNat 8 q, BitVec.ofNat 8 code] ++ List.replicate 6 0 ++ leBytes 8 x.head)
/-- An error found when the effect of the packet is due: the head is left at the packet, the head word too (DEDUCED, log
53). -/
def packetError (f q code : Nat) (s : State) : State :=
  let x := s.queue f q
  match x.packet with
  | none => s
  | some p =>
    let head := (x.head + 2 ^ 64 - p.bytes.length) % 2 ^ 64
    let s1 := (agentWrite s f x.headA (leBytes 8 head)).getD s
    queueError f q code (s1.setQueue f q { s1.queue f q with head := head, packet := none })
/-- `n` bytes of the ring from a count on. -/
def ringRead (s : State) (f : Nat) (x : HostQueue) (n : Nat) : Option (List Byte) :=
  ((List.range (n / 64)).mapM (fun i => agentRead s f (x.base + (x.head + 64 * i) % 2 ^ x.logsz) 64)).map List.flatten
/-- The packet at the head is acted on: the head word passes it first (R274). -/
def takePacket (f q : Nat) (x : HostQueue) (p : List Byte) (s : State) : State :=
  let x1 := { x with fails := 0 }
  match packetAmiss s f x p with
  | some code => queueError f q code (s.setQueue f q x1)
  | none =>
    let head := (x.head + p.length) % 2 ^ 64
    match agentRead s f x.headA 8, agentWrite s f x.headA (leBytes 8 head) with
    | some _, some s1 =>
      s1.setQueue f q { x1 with st := .wait, head := head, seq := x.seq + 1, packet := some ⟨packetType p, p, false, [], none⟩ }
    | _, _ => queueError f q 5 (s.setQueue f q x1)
/-- What the queue processor holds under coherence: the tail sector, and with `held` the sectors of an incomplete packet
(R277). -/
def queueSight (s : State) (f : Nat) (x : HostQueue) (held : Bool) : List Byte :=
  let tail := (agentRead s f (x.tailA / 64 * 64) 64).getD []
  if held then
    let n := match ringRead s f x 64 with | some h => max 1 (packetLen h) | none => 1
    tail ++ (ringRead s f x (64 * n)).getD []
  else tail
/-- A wake-up: the queue has just been enabled, or a store has snooped a sector held, or changed it (DEDUCED, log 57). -/
def queueWoken (s : State) (f : Nat) (x : HostQueue) : Bool :=
  match x.seen with
  | none => true
  | some b => queueSight s f x (x.fails != 0) != b
/-- An attempt that finds an incomplete packet; the third is an error. -/
def failAttempt (f q : Nat) (x : HostQueue) (s : State) : State :=
  let y := { x with fails := x.fails + 1 }
  if 2 ≤ x.fails then queueError f q 1 (s.setQueue f q y)
  else s.setQueue f q { y with st := .idle, seen := some (queueSight s f y true) }
/-- One attempt on a queue: in IDLE upon a wake-up, in FETCH at once (DEDUCED, log 53). -/
def queueTry (f q : Nat) (s : State) : State :=
  let x := s.queue f q
  if x.st ≠ .fetch && !(x.st = .idle && queueWoken s f x) then s
  else
    match agentNum s f x.tailA 8 with
    | none => queueError f q 5 s
    | some tail =>
      if tail = x.head then s.setQueue f q { x with st := .idle, seen := some (queueSight s f x (x.fails != 0)) }
      else
        match ringRead s f x 64 with
        | none => queueError f q 5 s
        | some h =>
          match ringRead s f x (64 * packetLen h) with
          | none => queueError f q 5 s
          | some p => if packetSealed x.seq p then takePacket f q x p s else failAttempt f q x s
def execQueueAttempt (f q : Nat) (s : State) : Out := .next (queueTry f q s)

/-- The packet in progress of a queue, when it has the type. -/
def packetOf (s : State) (f q t : Nat) : Option Packet :=
  let x := s.queue f q
  if x.st = .wait then x.packet.filter (fun p => p.ptype == t) else none
/-- The packet has finished. -/
def packetDone (f q : Nat) (s : State) : State := s.setQueue f q { s.queue f q with st := .fetch, packet := none }
/-- The packet's effect is due. -/
def packetBegin (f q : Nat) (s : State) : State :=
  let x := s.queue f q
  s.setQueue f q { x with packet := x.packet.map (fun p => { p with begun := true }) }
/-- Every earlier LAUNCH of a queue has retired. -/
def queueDrained (s : State) (f q : Nat) : Bool := !(s.launches.any (fun p => p.2.fn == f && p.2.q == q))

def execNop (f q : Nat) (s : State) : Out :=
  match packetOf s f q 0 with
  | none => .next s
  | some _ => .next (packetDone f q s)

/-! ## SIGNAL, WAITVAL and CODEFENCE (R279, R290) -/

/-- A SIGNAL has waited for the earlier launches. -/
def execSignal (f q : Nat) (s : State) : Out :=
  match packetOf s f q 2 with
  | none => .next s
  | some p => .next (if !p.begun && queueDrained s f q then packetBegin f q s else s)
/-- Its strong store. -/
def execSignalStore (f q : Nat) (s : State) : Out :=
  match packetOf s f q 2 with
  | none => .next s
  | some p =>
    let a := numAt p.bytes 8 8
    .next (
      if !p.begun then s
      else
        match agentRead s f a 8, agentWrite s f a ((p.bytes.drop 16).take 8) with
        | some _, some s1 => packetDone f q s1
        | _, _ => packetError f q 5 s)

/-- A WAITVAL begins to watch its location. -/
def execWaitvalPacket (f q : Nat) (s : State) : Out :=
  match packetOf s f q 3 with
  | none => .next s
  | some p => .next (if !p.begun then packetBegin f q s else s)
/-- The condition codes of a WAITVAL packet. -/
def packetCond (cc x y : Nat) : Bool :=
  if cc = 0 then x == y else if cc = 1 then x != y else if cc = 2 then decide (x < y) else decide (y ≤ x)
/-- The location satisfies the condition, or cannot be read. -/
def execWaitvalPacketSatisfied (f q : Nat) (s : State) : Out :=
  match packetOf s f q 3 with
  | none => .next s
  | some p =>
    .next (
      if !p.begun then s
      else
        match agentNum s f (numAt p.bytes 8 8) 8 with
        | none => packetError f q 5 s
        | some v => if packetCond (byteAt p.bytes 24) v (numAt p.bytes 16 8) then packetDone f q s else s)

/-- A CODEFENCE has waited for the earlier launches. -/
def execCodefence (f q : Nat) (s : State) : Out :=
  match packetOf s f q 4 with
  | none => .next s
  | some p => .next (if !p.begun && queueDrained s f q then packetBegin f q s else s)
/-- The context's code epoch advances. -/
def epochAdvance (c : Nat) (s : State) : State := s.setCtx c { s.ctx c with epoch := (s.ctx c).epoch + 1 }
def execCodefenceAdvance (f q : Nat) (s : State) : Out :=
  match packetOf s f q 4 with
  | none => .next s
  | some p => .next (if p.begun then packetDone f q (epochAdvance (f * 64 + (s.queue f q).ctx) s) else s)

/-! ## SETDET (R291) -/

/-- A SETDET is taken: it holds later launches of the context, and drains those admitted. -/
def setdetTake (f q : Nat) (s : State) : State :=
  let c := f * 64 + (s.queue f q).ctx
  let x := s.ctx c
  let live := (s.launches.filter (fun p => p.2.ctx == c)).map (·.1)
  packetBegin f q (s.setCtx c { x with drains := x.drains ++ [⟨f, q, live⟩] })
def execSetdet (f q : Nat) (s : State) : Out :=
  match packetOf s f q 5 with
  | none => .next s
  | some p => .next (if !p.begun then setdetTake f q s else s)

/-- Pages of a region of device memory: offset, line address, address behind, bytes. -/
abbrev Pages := List (Nat × Nat × Nat × Nat)
def onLine (ps : Pages) (x : Nat) : Bool := ps.any (fun p => decide (p.2.1 ≤ x) && decide (x < p.2.1 + p.2.2.2))
/-- The line address of a byte of memory behind some pages. -/
def lineBehind (ps : Pages) (x : Nat) : Option Nat :=
  (ps.find? (fun p => decide (p.2.2.1 ≤ x) && decide (x < p.2.2.1 + p.2.2.2))).map (fun p => p.2.1 + (x - p.2.2.1))
/-- Memory stands behind a page. -/
def pageStands (s : State) (p : Nat × Nat × Nat × Nat) : Bool := if paDevice p.2.1 then devBacked p.2.2.1 else !(drops s p.2.1)
/-- A granule that lies whole in some pages. -/
def wholeIn (ps : Pages) (g : Nat) : Bool :=
  (onLine ps (g * 64) && onLine ps (g * 64 + 63)) || ((lineBehind ps (g * 64)).isSome && (lineBehind ps (g * 64 + 63)).isSome)
/-- Zeroing some pages, as one store, which is clean; what does not stand is dropped and recorded (R14). -/
def pagesZero (author : Option Nat) (ctx : Nat) (ps : Pages) (s : State) : State :=
  let own := ps.filter (pageStands s)
  let as := (s.l2.filter (fun p => onLine own p.1)).map (·.1) ++ s.mem.filterMap (fun p => lineBehind own p.1)
  let s1 := homeStore 0 none s (plain (as.eraseDups.map (fun x => (x, 0))))
  let s2 := { s1 with poison := s1.poison.filter (fun g => !(wholeIn own g)) }
  match ps.find? (fun p => !(pageStands s p)) with
  | some p => peerReport (dropRecord s2 author ctx p.2.1) (fnAddr p.2.1) p.2.1
  | none => s2
/-- Zeroing `n` bytes of a function's device memory. -/
def zeroRange (f a n : Nat) (s : State) : State :=
  pagesZero none 0 ((chunks a n).filterMap (fun p => (agentPa s f p.1 .write).map (fun x => (p.1 - a, x, homeOf s x, p.2))))
    (if f = 0 then s else agentCache s f ((chunks a n).map (·.1)))
/-- A wait for the full ring outside every hart begins, at RECORD (R305). -/
def outsideStall (c : Nat) (s : State) : State :=
  let x := s.ctx c
  if x.level != .record || x.stallSince.isSome then s else s.setCtx c { x with stallSince := some s.cycle }
/-- The END record of a context that leaves RECORD; none while the ring is full. -/
def endRecord (c lvl : Nat) (s : State) : Option State :=
  if (s.ctx c).level = .record && lvl ≠ 2 then
    logAppend s c (logRecord 0xD 0 ((s.ctx c).admits % 65536) 0 0 0 0 0 0 0 0)
  else some s
/-- The level and the reference area are set; RECORD and REPLAY begin with a zeroed version table and cut counter
(R302, R309). -/
def levelSet (c lvl ref : Nat) (s : State) : State :=
  let d := detBlock s c
  let s1 := ctxRecPut s c (0xA0 + 24) ref
  let b := (agentNum s1 (c / 64) ((s1.ctx c).recA + 0xA2) 1).getD 0
  let s2 := (agentWrite s1 (c / 64) ((s1.ctx c).recA + 0xA2) [BitVec.ofNat 8 (b - b % 4 + lvl)]).getD s1
  let s3 := if 2 ≤ lvl then dropCaches c (zeroRange (c / 64) (detVtab d) (2 ^ 22) s2) else s2
  let x := s3.ctx c
  s3.setCtx c { x with
    level := Level.ofCode lvl
    refbase := BitVec.ofNat 64 ref
    cut := if 2 ≤ lvl then 0 else x.cut
    admits := 0
    hist := []
    tabs := x.tabs.map (fun t => { t with hart := none, stamp := some 0 })
    consumed := []
    ghosts := []
    skips := []
    stallSince := none
    stallSent := false }
/-- The SETDET's turn has come: it is the first of its context, and what it drains has retired. -/
def setdetReady (s : State) (f q c : Nat) : Bool :=
  match (s.ctx c).drains with
  | [] => false
  | d :: _ => d.fn == f && d.q == q && d.launches.all (fun l => !(s.launches.any (fun p => p.1 == l)))
def setdetApply (f q : Nat) (p : Packet) (s : State) : State :=
  let c := f * 64 + (s.queue f q).ctx
  if p.begun && setdetReady s f q c then
    let lvl := numAt p.bytes 8 8 % 4
    match endRecord c lvl s with
    | none => outsideStall c s
    | some s1 =>
      let s2 := levelSet c lvl (numAt p.bytes 16 8) s1
      packetDone f q (s2.setCtx c { s2.ctx c with drains := (s2.ctx c).drains.tail })
  else s
def execSetdetApply (f q : Nat) (s : State) : Out :=
  match packetOf s f q 5 with
  | none => .next s
  | some p => .next (setdetApply f q p s)

/-! ## The template and the group table (R28, R29, R41, R42, R118) -/

/-- A stage or queue number, 0xFF for none. -/
def numberOf (b : Nat) : Option Nat := if b = 0xFF then none else some b
/-- The stages of a template. -/
def stagesOf (t : List Byte) : List Stage :=
  (List.range (min (byteAt t 0) 8)).map (fun i =>
    let d := (t.drop (64 + 32 * i)).take 32
    ⟨BitVec.ofNat 64 (numAt d 0 8), byteAt d 12, numAt d 8 4, numberOf (byteAt d 13), numberOf (byteAt d 14), 0, [], false⟩)
/-- The queues of a template as they stand at admission (R29, R33). -/
def queuesOf (t : List Byte) : List LQueue :=
  (List.range (min (byteAt t 1) 16)).map (fun i =>
    let d := (t.drop (320 + 32 * i)).take 32
    let prod := numberOf (byteAt d 14)
    let init := numAt d 16 4
    ⟨BitVec.ofNat 64 (numAt d 0 8), numAt d 12 2, numAt d 8 4, prod, numberOf (byteAt d 15), init,
      if prod.isNone then init else 0, 0, prod.isNone⟩)
/-- A defect of the header or of a stage descriptor (DEDUCED, log 54). -/
def stageAmiss (s : State) (c : Nat) (t : List Byte) : Bool :=
  let ns := byteAt t 0
  let nq := byteAt t 1
  numAt t 2 6 != 0 || numAt t 16 48 != 0 || ns == 0 || decide (8 < ns) || decide (16 < nq) ||
    numAt t (64 + 32 * ns) (32 * (8 - ns)) != 0 ||
    (List.range (min ns 8)).any (fun i => numAt t (64 + 32 * i + 15) 17 != 0) ||
    (stagesOf t).any (fun g =>
      !([1, 2, 4].contains g.shape) || g.n == 0 || decide (2 ^ 24 < g.n) || g.entry.toNat % 4 != 0 ||
        (match g.inq with | some q => decide (nq ≤ q) | none => false) ||
        (match g.outq with | some q => decide (nq ≤ q) | none => false) ||
        (ctxGpa s c g.entry.toNat .exec).isNone)
/-- The stages that name a queue. -/
def namers (st : List Stage) (f : Stage → Option Nat) (q : Nat) : List Nat :=
  (List.range st.length).filter (fun i => (st[i]?.bind f) == some q)
/-- A queue's range is readable and writable device memory. -/
def rangeOk (s : State) (c : Nat) (q : LQueue) : Bool :=
  (chunks q.base.toNat (q.cap * q.rsize)).all (fun p =>
    (ctxGpa s c p.1 .read).isSome && (match ctxGpa s c p.1 .write with | some g => paDevice g | none => false))
/-- A defect of a queue descriptor. -/
def queueAmiss (s : State) (c : Nat) (t : List Byte) : Bool :=
  let nq := min (byteAt t 1) 16
  let st := stagesOf t
  let qs := queuesOf t
  numAt t (320 + 32 * nq) (32 * (16 - nq)) != 0 ||
    (List.range nq).any (fun i =>
      let q := qs.getD i ⟨0, 0, 0, none, none, 0, 0, 0, true⟩
      numAt t (320 + 32 * i + 20) 12 != 0 || q.base.toNat % 256 != 0 || !([16, 32, 64, 128, 256].contains q.rsize) ||
        decide (q.cap < 2) || decide (2 ^ 24 < q.cap) || 2 ^ q.cap.log2 != q.cap || decide (q.cap < q.init) ||
        namers st (·.outq) i != q.prod.toList || namers st (·.inq) i != q.cons.toList ||
        (q.prod.isSome && q.prod == q.cons) || !(rangeOk s c q))

/-- The valid entries of a group table. -/
def groupsOf (g : List Byte) : List Group :=
  (List.range 256).filterMap (fun i =>
    let e := (g.drop (64 * i)).take 64
    let b := byteAt e 0
    if b % 2 = 0 then none
    else some ⟨i, bitsAt b 1 3, (List.range (bitsAt b 4 2 + 1)).map (fun j =>
      (numAt e (16 + 12 * j) 4, numAt e (20 + 12 * j) 4, numAt e (24 + 12 * j) 4))⟩)
/-- One of the first three defects of R42, or a range beyond NRNG that is not zero. -/
def groupAmiss (st : List Stage) (g : List Byte) : Bool :=
  (groupsOf g).any (fun x =>
    let e := (g.drop (64 * x.num)).take 64
    let n := x.ranges.length
    decide (63 < byteAt e 0) || numAt e 1 15 != 0 || numAt e (16 + 12 * n) (48 - 12 * n) != 0 ||
      (match st[x.stage]? with
       | none => true
       | some y => y.inq.isSome || x.ranges.any (fun r =>
           decide (2 ^ 24 ≤ r.1) || r.2.1 == 0 || decide (2 ^ 24 < r.2.1) || r.2.2 == 0 || decide (2 ^ 24 ≤ r.2.2) ||
             decide (y.n ≤ r.1 + (r.2.1 - 1) * r.2.2))))
/-- A hart in more than four valid entries. -/
def groupOverlap (gs : List Group) : Bool :=
  (List.range 8).any (fun i =>
    let ms := (gs.filter (fun g => g.stage == i)).flatMap (fun g => g.members)
    ms.any (fun m => decide (4 < ms.count m)))

/-! ## Capacity (R44, R45) -/

/-- The harts joined with some through groups, closed in as many rounds as there are groups. -/
def gangClose (gs : List (List Nat)) : Nat → List Nat → List Nat
  | 0, l => l
  | n + 1, l => gangClose gs n (l ++ (gs.filter (fun g => g.any l.contains)).flatten).eraseDups
/-- The gang of a hart of a stage. -/
def gangOf (groups : List Group) (stage i : Nat) : List Nat :=
  let gs := (groups.filter (fun g => g.stage == stage)).map (·.members)
  gangClose gs gs.length [i]
/-- Harts of a shape that fit in one slot of a core (R45). -/
def coreFit (k : Core) (shape : Nat) : Nat :=
  let on (i : Nat) : Bool := !(k.laneMask.getLsbD i)
  if k.outOfService || k.badColumn then 0
  else if shape = 1 then ((List.range 4).filter on).length
  else if shape = 2 then (if on 0 && on 1 then 1 else 0) + (if on 2 && on 3 then 1 else 0)
  else if on 0 && on 1 && on 2 && on 3 then 1 else 0
/-- The co-residency capacity of a shape (DEDUCED, log 56). -/
def capacity (s : State) (c shape : Nat) : Nat :=
  ((List.range Config.cores).map (fun k =>
    if (s.ctx c).coreset.getLsbD k then coreFit (s.core k) shape else 0)).foldl (· + ·) 0

/-- What a template and its group table declare: the lowest rejection code (R46), the stages, queues and groups. -/
def declared (s : State) (c tva : Nat) : Option Nat × List Stage × List LQueue × List Group :=
  match if tva % 64 = 0 then ctxRead s c tva 832 false else none with
  | none => (some 1, [], [], [])
  | some t =>
    let st := stagesOf t
    let qs := queuesOf t
    let ga := numAt t 8 8
    let gb : Option (List Byte) :=
      if ga = 0 then some [] else if ga % 256 ≠ 0 then none else ctxRead s c ga 16384 false
    let gs := groupsOf (gb.getD [])
    let code : Option Nat :=
      if stageAmiss s c t then some 1
      else if queueAmiss s c t then some 2
      else if gb.isNone || groupAmiss st (gb.getD []) then some 3
      else if groupOverlap gs then some 4
      else if gs.any (fun g => (g.members.take 1).any (fun m =>
          decide (capacity s c (st.getD g.stage ⟨0, 0, 0, none, none, 0, [], true⟩).shape < (gangOf gs g.stage m).length))) then
        some 5
      else if st.any (fun g => capacity s c g.shape == 0) then some 6
      else none
    (code, st, qs, gs)

/-! ## LAUNCH and admission (R279, R285, R290, R298, R303, R306) -/

/-- A LAUNCH is ready for admission. -/
def execLaunch (f q : Nat) (s : State) : Out :=
  match packetOf s f q 1 with
  | none => .next s
  | some p => .next (if !p.begun && (packetConc p.bytes || queueDrained s f q) then packetBegin f q s else s)

/-- The queues of a context with a LAUNCH ready for admission, ascending. -/
def readyQueues (s : State) (f n : Nat) : List (Nat × HostQueue) :=
  (s.fn f).queues.filter (fun p => p.2.ctx == n && p.2.st == .wait &&
    (match p.2.packet with | some k => k.ptype == 1 && k.begun | none => false))
/-- It is a queue's turn: highest priority, and among equals the next after the one last admitted from (R285). -/
def queueTurn (s : State) (f q : Nat) : Bool :=
  let x := s.queue f q
  let ready := readyQueues s f x.ctx
  let mine := (ready.filter (fun p => p.2.prio == x.prio)).map (·.1)
  let last := mapGet 0 (s.ctx (f * 64 + x.ctx)).turns x.prio
  ready.all (fun p => decide (p.2.prio ≤ x.prio)) &&
    (match mine.filter (fun k => decide (last ≤ k)) with
     | k :: _ => k == q
     | [] => mine.head? == some q)
/-- The next ADMIT record not consumed (R306). -/
def nextAdmit (s : State) (c : Nat) : Option (Nat × Nat) := (logPending s c).find? (fun p => bitsAt p.2 0 8 == 0xB)
/-- A launch's ADMIT is written at RECORD or consumed at REPLAY; none where it must wait. -/
def admitLog (c q : Nat) (tag : Nat) (s : State) : Option State :=
  match (s.ctx c).level with
  | .record =>
    logAppend s c (logRecord 0xB 0 (((s.ctx c).admits + 1) % 65536) 0 0 0 0 0 0 tag q)
  | .replay =>
    match nextAdmit s c with
    | none => none
    | some p => if bitsAt p.2 144 32 = tag && bitsAt p.2 192 6 = q then some (logConsume s c [p.1]) else none
  | _ => some s
/-- A launch's digest slot cannot be accessed. -/
def slotShut (num : Nat) (s : State) : State :=
  let l := s.launch num
  let s1 := ctxNote l.ctx (digestSlot s l) (digestSize s l) .write s
  s1.setLaunch num { s1.launch num with nodigest := true }
/-- The digest slot is zeroed and gets the launch's tag and level; a slot that cannot be is not compared (R298, R299). -/
def slotOpen (num : Nat) (s : State) : State :=
  let l := s.launch num
  if l.level = .free then s
  else
    let a := digestSlot s l
    match ctxWrite s l.ctx a (List.replicate (digestSize s l) 0) with
    | none => slotShut num s
    | some s1 =>
      match ctxWrite s1 l.ctx (a + 8) (leBytes 4 l.tag.toNat ++ [BitVec.ofNat 8 l.level.code]) with
      | none => slotShut num s
      | some s2 => s2
/-- The launch of a packet. -/
def launchOf (s : State) (f q : Nat) (x : HostQueue) (b : List Byte) : Launch :=
  let c := f * 64 + x.ctx
  { Launch.initial with
    num := s.nextLaunch
    ctx := c
    fn := f
    q := q
    template := BitVec.ofNat 64 (numAt b 8 8)
    arg := BitVec.ofNat 64 (numAt b 16 8)
    tag := BitVec.ofNat 32 (packetTag b)
    compl := numAt b 24 8
    irq := packetIrq b
    prio := x.prio
    level := (s.ctx c).level }
/-- The next launch of an equal priority comes from another queue (R285). -/
def turnPast (c prio q : Nat) (s : State) : State :=
  let y := s.ctx c
  s.setCtx c { y with turns := mapPut 0 y.turns prio (q + 1) }
/-- A window read again: its flips go on counting, whether or not GEN has been changed (R230, R233). -/
def Window.since (old new : Window) : Window := { new with gen := if new.gen = old.gen % 2 then old.gen else old.gen + 1 }
/-- The record fields that are read again at each admission (R27). -/
def refreshCtx (c : Nat) (s : State) : State :=
  match agentRead s (c / 64) (s.ctx c).recA 4096 with
  | none => s
  | some r =>
    let x := recordFields r (s.ctx c)
    s.setCtx c { x with windows := x.windows.mapIdx (fun i w => Window.since ((s.ctx c).windows.getD i w) w) }
/-- The launch is admitted, once the log lets it. -/
def enterLaunch (f q : Nat) (x : HostQueue) (b : List Byte) (st : List Stage) (qs : List LQueue) (gs : List Group) (s : State) :
    State :=
  let c := f * 64 + x.ctx
  match admitLog c q (packetTag b) s with
  | none => outsideStall c s
  | some s1 =>
    let s2 := if packetFresh b then epochAdvance c s1 else s1
    let y := s2.ctx c
    let s3 := turnPast c x.prio q <| s2.setCtx c { y with
      admits := y.admits + 1
      skips := y.skips.filter (· != (y.admits + 1) % 65536)
      stallSince := none
      stallSent := false }
    let num := s3.nextLaunch
    let l := { launchOf s3 f q x b with
      epoch := y.epoch
      lnch := y.admits + 1
      stages := st
      queues := qs
      groups := gs }
    let s4 := { s3.setLaunch num l with nextLaunch := num + 1 }
    packetDone f q (settleStages (slotOpen num s4) num st.length)
/-- A malformed entry on which a declaration fails with a code has its fault record written (R242). -/
def declaredNotes (c tva code : Nat) (s : State) : State :=
  match if tva % 64 = 0 then ctxRead s c tva 832 false else some [] with
  | none => ctxNote c tva 832 .read s
  | some t =>
    if code = 1 then (stagesOf t).foldl (fun s g => ctxNote c g.entry.toNat 1 .exec s) s
    else if code = 2 then (queuesOf t).foldl (fun s q => ctxNote c q.base.toNat (q.cap * q.rsize) .read s) s
    else if code = 3 then ctxNote c (numAt t 8 8) 16384 .read s
    else s
/-- One admission: held by a SETDET, by 64 launches of the context, by another queue's turn and by the log (DEDUCED,
log 55). -/
def admission (f q : Nat) (p : Packet) (s : State) : State :=
  let x := s.queue f q
  let c := f * 64 + x.ctx
  let many := decide (Config.launchMax ≤ (s.launches.filter (fun l => l.2.ctx == c)).length)
  let wait := !p.begun || (s.ctx c).drains != [] || many || ((s.ctx c).level != .replay && !(queueTurn s f q))
  if wait then s
  else
    let s1 := refreshCtx c s
    match declared s1 c (numAt p.bytes 8 8) with
    | (some code, _, _, _) =>
      let s2 := declaredNotes c (numAt p.bytes 8 8) code s1
      packetDone f q (turnPast c x.prio q (completionSend s2 (launchOf s2 f q x p.bytes) 1 code 0))
    | (none, st, qs, gs) => enterLaunch f q x p.bytes st qs gs s1
def execAdmission (f q : Nat) (s : State) : Out :=
  match packetOf s f q 1 with
  | none => .next s
  | some p => .next (admission f q p (logSweep (f * 64 + (s.queue f q).ctx) s))

end Sys2Proof.Machine
end

