-- ==== Sys2Proof/Machine/Scheduler.lean ====
section
/-! DEFINITION. The dispatchers and the slot scheduler (02 R23, R24, R31, R34, R43, R44, R48; 15 R266, R267; 16 R286
to R290; 17 R299, R306): placement, the retire choice, a launch's retirement and its serial re-run, YREQ, forced stops
and slot switches. -/

namespace Sys2Proof.Machine

/-! ## Where a hart fits (R34, R286) -/

/-- Lane groups the harts of a context slot own. -/
def lanesOwned (s : State) (slot : Nat) : BitVec 4 :=
  (s.liveHarts.filter (fun h => h.slotId == slot)).foldl (fun m h => m ||| h.lgown) 0
/-- The sets of lane groups a shape may own, in rising order. -/
def laneSets (shape : Nat) : List (BitVec 4) :=
  if shape = 1 then [1, 2, 4, 8] else if shape = 2 then [3, 12] else [15]
/-- The context slot of a core that a context holds, or could take: an empty one, unless it is spilled there. -/
def slotFor (s : State) (c core : Nat) : Option Nat :=
  match [0, 1].find? (fun i => (s.slot (core * 2 + i)).holder == some c) with
  | some i => some i
  | none =>
    if s.spill c core != Spill.initial then none else [0, 1].find? (fun i => (s.slot (core * 2 + i)).holder == none)
/-- A core on which the dispatcher may place a context's harts. -/
def coreOpen (s : State) (c core : Nat) : Bool :=
  let k := s.core core
  decide (core < Config.cores) && (s.ctx c).coreset.getLsbD core && !k.outOfService && !k.badColumn

/-- A place for a hart: core, context slot, hart slot, lane groups. -/
structure Spot where
  core : Nat
  slot : Nat
  hslot : Nat
  lg : BitVec 4
  deriving DecidableEq, Repr
def Spot.hart (p : Spot) : Nat := p.core * 8 + p.slot * 4 + p.hslot
/-- A spot is free: no hart holds its hart slot or its lane groups, none of which is disabled. -/
def spotFree (s : State) (p : Spot) : Bool :=
  !(s.hartOf p.hart).live && (p.lg &&& (lanesOwned s (p.core * 2 + p.slot) ||| (s.core p.core).laneMask)) == 0
/-- A spot at a hart slot of a core. -/
def spotAt (s : State) (c shape core hslot : Nat) : Option Spot :=
  if !(coreOpen s c core) then none
  else
    match slotFor s c core with
    | none => none
    | some i => ((laneSets shape).map (fun m => (⟨core, i, hslot, m⟩ : Spot))).find? (spotFree s)
/-- The first spot of the part. -/
def spotAny (s : State) (c shape : Nat) : Option Spot :=
  (List.range Config.cores).findSome? (fun core => (List.range 4).findSome? (spotAt s c shape core))

/-! ## Which hart waits for placement (R31, R287, R288, R306) -/

/-- The next PLACE record of a context not consumed, those of serial re-runs aside (R307). -/
def nextPlace (s : State) (c : Nat) : Option (Nat × Nat) := (logPending s c).find? (fun p => bitsAt p.2 0 9 == 8)
/-- The log places a launch's harts. -/
def logPlaces (s : State) (l : Launch) : Bool :=
  l.level == .replay && l.rerun == 0 &&
    ((nextPlace s l.ctx).isSome || !((logPending s l.ctx).any (fun p => bitsAt p.2 0 8 == 0xD)))
/-- The lowest index below a bound that is not in a list. -/
def lowestFree (used : List Nat) (n : Nat) : Option Nat :=
  (List.range (min n (used.length + 1))).find? (fun i => !(used.contains i))
/-- Harts of a stage parked in QPOP on a queue. -/
def popParked (s : State) (num stage q : Nat) : List Hart :=
  s.allHarts.filter (fun h => h.launch == num && h.stage == stage && h.run == .parked (.qpop q))
/-- The index of the hart that waits for placement in a stage, if one does. -/
def waiting (s : State) (num : Nat) (l : Launch) (i : Nat) : Option Nat :=
  let st := l.stage i
  let live := (stageHarts s num i).map (·.index)
  let full (q : Nat) : Bool := decide ((l.queue q).cap ≤ (l.queue q).held)
  if st.finished then none
  else if logPlaces s l then
    match nextPlace s l.ctx with
    | none => none
    | some p =>
      let ix := bitsAt p.2 32 24
      if bitsAt p.2 16 16 = l.lnch % 65536 && bitsAt p.2 58 3 = i && !(live.contains ix) then some ix else none
  else
    match st.inq with
    | none => lowestFree (live ++ st.retired) st.n
    | some q =>
      if (popParked s num i q).length < (l.queue q).held && live.length < st.n &&
          (match st.outq with | some o => !(full o) | none => true) then lowestFree live st.n
      else none
/-- A stage whose full input queue has a producer parked on it, and which has no hart (R287). -/
def urgent (s : State) (num : Nat) (l : Launch) (i : Nat) : Bool :=
  match (l.stage i).inq with
  | none => false
  | some q => (stageHarts s num i).isEmpty && s.allHarts.any (fun h => h.launch == num && h.run == .parked (.qpush q))
/-- Launches in the order in which free hart slots go to them: by priority, then by admission. -/
def launchOrder (s : State) : List (Nat × Launch) :=
  (List.range 8).flatMap (fun p => s.launches.filter (fun l => l.2.prio == 7 - p))
/-- Stages of a launch in the round-robin order of R288. -/
def stageOrder (l : Launch) : List Nat :=
  (List.range l.stages.length).map (fun i => (l.rr + i) % l.stages.length)
/-- The stages with a hart waiting, as (launch, stage, index), in the order of R288; an urgent stage goes ahead of every
other stage of its context. -/
def candidates (s : State) : List (Nat × Nat × Nat) :=
  let ls := launchOrder s
  let all (p : Nat × Launch) : List (Nat × Nat × Nat) :=
    (stageOrder p.2).filterMap (fun i => (waiting s p.1 p.2 i).map (fun ix => (p.1, i, ix)))
  let first (p : Nat × Launch) : List (Nat × Nat × Nat) :=
    (ls.filter (fun o => o.2.ctx == p.2.ctx)).flatMap (fun o => (all o).filter (fun x => urgent s x.1 o.2 x.2.1))
  (ls.flatMap (fun p => first p ++ all p)).eraseDups

/-! ## Placement (R37, R43, R44, R286) -/

/-- The spot of a PLACE record. -/
def recordSpot (r : Nat) : Spot :=
  ⟨bitsAt r 192 9, bitsAt r 201 1, bitsAt r 202 2, BitVec.ofNat 4 (bitsAt r 204 4)⟩
/-- A recorded place is free to be changed (R306): outside the core set, on a disabled lane group, or in a context slot
the context does not hold. -/
def placeLoose (s : State) (c : Nat) (p : Spot) : Bool :=
  !(coreOpen s c p.core) || (p.lg &&& (s.core p.core).laneMask) != 0 || slotFor s c p.core != some p.slot
/-- The place a hart must take: the recorded one, or that of the first run where it is free (R299, R306). -/
def forcedSpot (s : State) (l : Launch) (stage ix : Nat) : Option Spot :=
  if logPlaces s l then
    match nextPlace s l.ctx with
    | none => none
    | some p => if placeLoose s l.ctx (recordSpot p.2) then none else some (recordSpot p.2)
  else if l.rerun ≠ 0 && (l.stage stage).inq.isNone then
    (l.first.find? (fun p => p.stage == stage && p.index == ix)).bind (fun p =>
      let x : Spot := ⟨p.hart / 8, p.hart / 4 % 2, p.hart % 4, p.lg⟩
      if !(placeLoose s l.ctx x) && spotFree s x then some x else none)
  else none
/-- The place of a hart: the forced one, when it is free and, where one is asked for, at that hart slot of that core; else
one there, or anywhere (DESIGN CHOICE, log 58). -/
def chooseSpot (s : State) (l : Launch) (stage ix : Nat) (want : Option (Nat × Nat)) : Option Spot :=
  match forcedSpot s l stage ix with
  | some p =>
    if spotFree s p && (match want with | some w => p.core == w.1 && p.hslot == w.2 | none => true) then some p else none
  | none =>
    match want with
    | some w => spotAt s l.ctx (l.stage stage).shape w.1 w.2
    | none => spotAny s l.ctx (l.stage stage).shape
/-- The group slots of a hart (R43). -/
def groupSlots (l : Launch) (stage ix : Nat) : Vector (BitVec 16) 4 :=
  let gs := (l.groups.filter (fun g => g.stage == stage && g.members.contains ix)).map (·.num)
  Vector.ofFn (fun (i : Fin 4) => BitVec.ofNat 16 (gs.getD i.val 0xFFFF))
/-- A placed hart before its first instruction (R37); its acquire is due when it comes to issue. -/
def freshHart (s : State) (num : Nat) (l : Launch) (stage ix : Nat) (p : Spot) : Hart :=
  let st := l.stage stage
  let h := { Hart.initial with
    live := true
    id := p.hart
    launch := num
    stage := stage
    index := ix
    nharts := st.n
    lgown := p.lg
    grp := groupSlots l stage ix
    pc := st.entry
    mtol := (s.ctx l.ctx).mtol
    relStage := 3 }
  (h.setS 3 l.arg).setS 4 l.template
/-- The context takes its slot on the core, empty and with scratch zero; a core that meets a later code epoch of the context
drops what its instruction cache holds of it (R199, R290). -/
def takeSlot (s : State) (c epoch : Nat) (p : Spot) : State :=
  let i := p.core * 2 + p.slot
  let s1 := if (s.slot i).holder = some c then s else s.setSlot i { Slot.initial with holder := some c }
  let k := s1.core p.core
  if mapGet 0 k.epochs c < epoch then s1.setCore p.core { k with epochs := mapPut 0 k.epochs c epoch, icache := k.icache.filter (fun l => l.ctx != c) } else s1
/-- The PLACE record is written or consumed; none where it must wait. -/
def placeLog (s : State) (l : Launch) (stage ix : Nat) (p : Spot) : Option State :=
  if l.level = .record then
    logAppend s l.ctx (logRecord 8 (if l.rerun = 0 then 0 else 1) (l.lnch % 65536) ix 0 stage 0 0 0 0
      (p.core ||| p.slot <<< 9 ||| p.hslot <<< 10 ||| p.lg.toNat <<< 12))
  else if logPlaces s l then (nextPlace s l.ctx).map (fun r => logConsume s l.ctx [r.1])
  else some s
/-- One hart is placed. -/
def dispatchOne (num stage ix : Nat) (want : Option (Nat × Nat)) (s : State) : Option State :=
  let l := s.launch num
  match chooseSpot s l stage ix want with
  | none => none
  | some p =>
    match placeLog s l stage ix p with
    | none => none
    | some s1 =>
      let s2 := takeSlot s1 l.ctx l.epoch p
      let st := l.stage stage
      let pos := if l.rerun = 0 then ⟨stage, ix, p.hart, p.lg⟩ :: l.first else l.first
      let l1 := { l with
        stages := l.stages.set stage { st with placed := st.placed + 1 }
        first := pos
        rr := (stage + 1) % l.stages.length }
      some ((s2.setLaunch num l1).setHart (freshHart s2 num l stage ix p))
/-- The rest of a gang is placed wherever it fits, or nothing is (R44); at REPLAY in the order of its records. -/
def placeRest (num stage : Nat) (s : State) : List Nat → Option State
  | [] => some s
  | i :: t =>
    let ix := (waiting s num (s.launch num) stage).getD i
    match dispatchOne num stage (if logPlaces s (s.launch num) then ix else i) none s with
    | none => none
    | some s1 => placeRest num stage s1 t
/-- The placement of a waiting hart at a hart slot of a core, its gang with it. -/
def placeWhole (core hslot : Nat) (s : State) (x : Nat × Nat × Nat) : Option State :=
  let gang := (gangOf (s.launch x.1).groups x.2.1 x.2.2).filter (fun i => i != x.2.2)
  match dispatchOne x.1 x.2.1 x.2.2 (some (core, hslot)) s with
  | none => none
  | some s1 => placeRest x.1 x.2.1 s1 (gang.mergeSort (· ≤ ·))
/-- A full ring holds a placement of a context (R305). -/
def placeHeld (s : State) : Option Nat :=
  ((candidates s).map (fun x => (s.launch x.1).ctx)).find? (fun c =>
    (s.ctx c).level == .record && !(logRoom s c))
def execPlace (core hslot : Nat) (s : State) : Out :=
  .next (
    if 3 < hslot then s
    else
      let s := (s.ctxs.filter (fun c => c.2.ghosts != [] || c.2.skips != [])).foldl (fun s c => logSweep c.1 s) s
      match (candidates s).findSome? (placeWhole core hslot s) with
      | some s1 => s1
      | none =>
        match placeHeld s with
        | some c => outsideStall c s
        | none => s)

/-! ## The retire choice (R287) -/

/-- `a` goes before `b`: it has waited longer, or as long under a higher index (DEDUCED, log 59). -/
def waitsBefore (a b : Hart) : Bool :=
  decide (a.popSince.getD 0 < b.popSince.getD 0) || (a.popSince == b.popSince && decide (b.index < a.index))
/-- The hart of a stage that receives the retire status now. -/
def retireChoice (s : State) (num stage : Nat) : Option Hart :=
  let l := s.launch num
  match (l.stage stage).inq with
  | none => none
  | some q =>
    let parked := popParked s num stage q
    let able := parked.filter (fun h => h.parent.isNone && h.children.isEmpty)
    match able with
    | [] => none
    | h :: t =>
      let x := t.foldl (fun a b => if waitsBefore b a then b else a) h
      if !(l.queue q).closed && (l.queue q).held == 0 && 2 ≤ parked.length && (logLevel s x != some .replay) &&
          x.popSince.any (fun c => decide (c + Config.qpopRetireCycles ≤ s.cycle)) then some x
      else none
def execQpopRetireChoice (l stage : Nat) (s : State) : Out :=
  .next (
    match retireChoice s l stage with
    | none => s
    | some x =>
      if s.liveHarts.contains x then s.setHart { x with sticky := some 1, run := .running }
      else { s with spills := s.spills.map (fun p => (p.1, { p.2 with
        harts := p.2.harts.map (fun h => if h = x then { h with sticky := some 1, run := .running } else h) })) })

/-! ## A launch's retirement (R31, R234, R281, R299) -/

/-- Its deferred flips, at one instant. -/
def flipDeferred (l : Launch) (s : State) : State :=
  ((List.range 32).filter (fun i => l.deferred.getLsbD i)).foldl (fun s i => flipWindow l.ctx i s) s
/-- The reference slot. -/
def referenceSlot (s : State) (l : Launch) : Nat :=
  ((s.ctx l.ctx).refbase.toNat + digestM s l * digestSize s l) % 2 ^ 64
/-- The offsets in a slot of the entries that harts of a launch have written. -/
def entryOffsets (s : State) (l : Launch) : List Nat :=
  ((List.range l.stages.length).flatMap (fun i => (l.stage i).retired.map (fun j => 64 + 8 * (stageBase l i + j)))).filter
    (fun o => decide (o < digestSize s l))
/-- The comparison: none where a slot cannot be read, else whether any digest differs (DEDUCED, log 60). -/
def compareDigests (s : State) (l : Launch) : Option Bool :=
  if (s.ctx l.ctx).refbase = 0 then some false
  else
    let differs (o : Nat) : Option Bool :=
      match ctxRead s l.ctx (digestSlot s l + o) 8 true, ctxRead s l.ctx (referenceSlot s l + o) 8 true with
      | some a, some b => some (a != b)
      | _, _ => none
    ((0 :: entryOffsets s l).mapM differs).map (fun (ds : List Bool) => ds.any id)
/-- A malformed entry that the comparison meets has its fault record written (R242). -/
def compareNote (l : Launch) (s : State) : State :=
  ctxNote l.ctx (referenceSlot s l) (digestSize s l) .read (ctxNote l.ctx (digestSlot s l) (digestSize s l) .read s)
/-- DIGEST_MISMATCH (R283). -/
def mismatchSend (s : State) (l : Launch) (cause : Nat) (re : Word) : State :=
  eventSend s l.fn 3 (l.ctx % 64) (leBytes 4 l.tag.toNat ++ [BitVec.ofNat 8 cause] ++ leBytes 3 0
    ++ leBytes 8 (digestSlot s l) ++ leBytes 8 (referenceSlot s l) ++ leBytes 8 re.toNat)
/-- The launch leaves the machine. -/
def launchGone (num : Nat) (s : State) : State := { s with launches := mapPut Launch.initial s.launches num Launch.initial }
/-- A launch that retires: flips, completion, and its records skipped. -/
def retireNow (num b2 : Nat) (s : State) : State :=
  let l := s.launch num
  let s1 := flipDeferred l s
  launchGone num (completionSend (skipRecords s1 l) l 0 0 b2)
/-- A marked launch begins its re-run (R299, R303): none while REEXEC cannot be written. -/
def rerunStart (num cause : Nat) (s : State) : Option State :=
  let l := s.launch num
  let log :=
    if l.level = .record then logAppend s l.ctx (logRecord 0xC 0 (l.lnch % 65536) 0 0 0 0 0 0 0 0) else some s
  log.map (fun s1 =>
    let l1 := { l with
      stages := l.stages.map (fun g => { g with placed := 0, retired := [], finished := false })
      queues := l.queues.map (fun q =>
        { q with pushed := (if q.prod.isNone then q.init else 0), taken := 0, closed := q.prod.isNone })
      arrivals := []
      deferred := 0
      csmark := false
      rerun := cause
      turn := (0, 0, 0)
      redig := 0
      rr := 0 }
    settleStages (s1.setLaunch num l1) num l1.stages.length)
/-- The end of a first run at DIGEST and above. -/
def retireFirst (num : Nat) (s : State) : State :=
  let l := s.launch num
  let cmp := if l.nodigest then none else compareDigests s l
  let s1 := if cmp.isNone then compareNote l (s.setLaunch num { l with nodigest := true }) else s
  let cause := (if cmp = some true then 1 else 0) + (if l.csmark then 2 else 0)
  if cause = 0 then
    if cmp.isNone then retireNow num 2 (mismatchSend s1 l 4 0) else retireNow num 0 s1
  else
    match rerunStart num cause s1 with
    | some s2 => s2
    | none => outsideStall l.ctx s
/-- The end of a re-run: byte 13 of the slot, DIGEST_MISMATCH, and the flips without comparison. -/
def retireAgain (num : Nat) (s : State) : State :=
  let l := s.launch num
  let s1 := match ctxWrite s l.ctx (digestSlot s l + 13) [1] with
    | some t => t
    | none => ctxNote l.ctx (digestSlot s l + 13) 1 .write s
  let s2 := mismatchSend s1 l l.rerun l.redig
  let s3 := if l.nodigest then mismatchSend s2 l 4 0 else s2
  retireNow num (if l.nodigest then 3 else 1) s3
/-- All stages of a launch have finished, and no hart of it is left. -/
def launchOver (s : State) (num : Nat) : Bool :=
  s.launches.any (fun p => p.1 == num) && (s.launch num).stages.all (·.finished) && s.allHarts.all (fun h => h.launch != num)
def execLaunchRetire (num : Nat) (s : State) : Out :=
  .next (
    if launchOver s num then
      let l := s.launch num
      if l.level = .free then retireNow num 0 s
      else if l.rerun = 0 then retireFirst num s
      else retireAgain num s
    else s)

/-! ## Slots (R24, R266, R267, R289) -/

/-- A hart that would issue if its slot did. -/
def Hart.runnable (h : Hart) : Bool :=
  h.live && !h.ended &&
    (match h.run with
     | .running => true
     | .waiting => true
     | .parked (.log kind _) => kind == 0
     | _ => false)
/-- A hart has yielded: it has stopped, parked or ended. -/
def Hart.yielded (h : Hart) : Bool := !h.runnable
/-- Harts of a context slot. -/
def slotHarts (s : State) (slot : Nat) : List Hart := s.liveHarts.filter (fun h => h.slotId == slot)
/-- A slot's demand, plus one: 0 where it has no runnable hart; one that a switch stopped would run again. -/
def demand (s : State) (slot : Nat) : Nat :=
  ((slotHarts s slot).map (fun h =>
    if h.runnable || wakeReady s h || (h.run == .stopped && !h.ended) then (s.launch h.launch).prio + 1 else 0)).foldl max 0
/-- The cases of R289 in which the active slot is asked to yield, while the other slot holds a context (DEDUCED, log
61). -/
def quantumDue (s : State) (core : Nat) : Bool :=
  let k := s.core core
  let act := core * 2 + k.active
  let oth := core * 2 + (1 - k.active)
  let q := match (s.slot act).holder with
    | some c => (s.ctx c).quantum * Config.cyclesPerMicrosecond
    | none => 0
  (s.slot oth).holder.isSome &&
    (decide (demand s act < demand s oth) || (demand s act == demand s oth && decide (k.activeSince + q < s.cycle)) ||
      demand s act == 0)
/-- YREQ rises in every hart of the active slot. -/
def execQuantumExpiry (core : Nat) (s : State) : Out :=
  let act := core * 2 + (s.core core).active
  .next (
    if quantumDue s core then
      s.mapHarts (fun h =>
        if h.live && h.slotId = act && !h.yreq then { h with yreq := true, yreqAt := s.cycle, nonyielded := false } else h)
    else s)

/-- A hart stops where it stands (R267): a boundary under way will run again whole, a start's acquire stays due, and the
words of a repeat frame are fetched again, those of a parked hart too (R36, R67). -/
def stopHart (h : Hart) : Hart :=
  if h.runnable then { h.refetch with run := .stopped, relStage := if h.relStage = 3 then 3 else 0 } else h.refetch
/-- The level of the hart's context waits for safe points. -/
def stopsSafely (s : State) (h : Hart) : Bool := (s.ctx (ctxOf s h)).strict
/-- A boundary of the hart is not part way (R266, R452). -/
def Hart.atBoundary (h : Hart) : Bool := h.relStage == 0 || h.relStage == 3
/-- The hart may be stopped: at RECORD and REPLAY only at a safe point (R267). -/
def stoppable (s : State) (h : Hart) : Bool := !(stopsSafely s h) || (safePoint s h && h.atBoundary)
/-- The deadline has passed without a yield. -/
def stopDue (s : State) (h : Hart) : Bool :=
  h.runnable && h.yreq && decide (h.yreqAt + (s.ctx (ctxOf s h)).ydl ≤ s.cycle) && stoppable s h
def execForcedStop (h : Nat) (s : State) : Out :=
  .next (if stopDue s (s.hartOf h) then s.setHart (stopHart (s.hartOf h)) else s)

/-- NONYIELD (R267): no safe point by twice the deadline, at RECORD and REPLAY; in a handler it is a nested trap (R264). -/
def nonyieldDue (s : State) (h : Hart) : Bool :=
  h.runnable && h.yreq && !h.nonyielded && h.atBoundary && stopsSafely s h && !(safePoint s h) &&
    decide (h.yreqAt + 2 * (s.ctx (ctxOf s h)).ydl ≤ s.cycle)
def execNonyield (h : Nat) (s : State) : Out :=
  let x := s.hartOf h
  .next (
    if nonyieldDue s x then
      takeTrap (s.setHart { x with nonyielded := true, run := .running, relStage := x.relStage }) h
        .nonyield .read (BitVec.ofNat 64 (min (s.cycle - x.yreqAt) (2 ^ 32 - 1))) x.pc x.pc
    else s)

/-- The other slot becomes active once every hart of the outgoing one has yielded under YREQ (R24, R266): YREQ clears
there, and what was stopped there runs again. -/
def switchReady (s : State) (core : Nat) : Bool :=
  let k := s.core core
  let hs := slotHarts s (core * 2 + k.active)
  (s.slot (core * 2 + (1 - k.active))).holder.isSome && hs.all (·.yielded) && (hs.any (·.yreq) || quantumDue s core)
/-- What becoming active does to a hart of the slot, which goes on from where it stood as the slot left (R36, R67). -/
def wakeSlot (slot : Nat) (h : Hart) : Hart :=
  if h.live && h.slotId = slot then
    { h.refetch with yreq := false, run := if h.run = .stopped && !h.ended then .running else h.run }
  else h
def execSlotSwitch (core : Nat) (s : State) : Out :=
  let k := s.core core
  .next (
    if switchReady s core then
      (s.setCore core { k with active := 1 - k.active, activeSince := s.cycle }).mapHarts
        (wakeSlot (core * 2 + (1 - k.active)))
    else s)

end Sys2Proof.Machine
end

