-- ==== Sys2Proof/Machine/Spill.lean ====
section
/-! DEFINITION. Spills and restores (02 R25; 15 R263, R264, R269, R270; 16 R289) and guest context switches (15 R271). -/

namespace Sys2Proof.Machine

/-! ## An image in the context's memory -/

/-- Bytes at offsets; an offset not listed holds zero. -/
abbrev Cells := List (Nat × Byte)
/-- A field of an image. -/
def piece (off : Nat) (bs : List Byte) : Cells := (withAddr off bs).filter (fun p => p.2 != 0)
/-- A field of `n` bytes from an offset, as a number. -/
def cellsNum (cs : Cells) (off n : Nat) : Nat :=
  cs.foldl (fun x p => if off ≤ p.1 && p.1 < off + n then x ||| (p.2.toNat <<< (8 * (p.1 - off))) else x) 0
def cellsBytes (cs : Cells) (off n : Nat) : List Byte := leBytes n (cellsNum cs off n)
/-- A number under which what stage 2 refuses of a hart's save area, or a slot's spill area (as hart 0), waits for its answer: no
hart of the part has it. -/
def regionId (c core h : Nat) : Nat := 2 ^ 40 + (c * 512 + core) * 4 + h % 4
/-- A region of the context's memory that a spill or a restore goes through: the number under which it waits, the hart that is
named to the hypervisor, its address, bytes, and the kind of access. -/
structure HartArea where
  id : Nat
  who : Nat
  va : Nat
  n : Nat
  kind : Kind
/-- How a page of a region stands: at a line address with what is behind it; shut, by a cause (R264); or held by stage 2 at a
guest's address, in the walk or not, and whether the hypervisor has been told (R253). -/
inductive AreaPage where
  | open_ (a behind : Nat) | shut (c : Cause) | held (walk : Bool) (gpa : Nat) (told : Bool)
  deriving DecidableEq, Repr
/-- Why a page of a save area cannot be reached (R264): it has another permission, or it is not mapped. -/
def areaCause (s : State) (c va : Nat) : Cause := if (ctxGpa s c va .exec).isSome then .perm else .page
def areaPage (s : State) (c : Nat) (r : HartArea) (va : Nat) : AreaPage :=
  let f := c / 64
  let told (walk : Bool) (gpa : Nat) : Option S2Event :=
    (s.fn f).s2.find? (fun e => e.op == none && e.hart == r.id && e.walk == walk && e.gpa == gpa && e.kind == if walk then .read else r.kind)
  match if canonical va then ctxWalk s c va r.kind [0, 1, 2] (s.ctx c).root else .fault with
  | .refused g =>
    match told true g with
    | some e => if e.declined then .shut .walkAbort else .held true g true
    | none => .held true g false
  | .leaf g =>
    match told false g with
    | some e => if e.declined then .open_ (lineAddr f g) (2 ^ 49) else .held false g true
    | none =>
      match agentPa s f g r.kind with
      | some a => .open_ a (homeOf s a)
      | none => .held false g false
  | _ => .shut (areaCause s c va)
/-- The pages of a region; none where one is shut or held. -/
def regionPages (s : State) (c : Nat) (r : HartArea) : Option Pages :=
  (chunks r.va r.n).mapM (fun p =>
    match areaPage s c r p.1 with
    | .open_ a b => some (p.1 - r.va, a, b, p.2)
    | _ => none)
/-- The first page of a region that stage 2 holds: its address, whether in the walk, the guest's address, and whether the
hypervisor has been told. -/
def regionHeld (s : State) (c : Nat) (r : HartArea) : Option (Nat × Bool × Nat × Bool) :=
  (chunks r.va r.n).findSome? (fun p =>
    match areaPage s c r p.1 with
    | .held w g t => some (p.1, w, g, t)
    | _ => none)
/-- What a spill or a restore that cannot go through a region does: the hypervisor is told of a page that stage 2 refuses, once
its ring has room (R252 to R254), and a malformed entry has its fault record (R242); then it waits. -/
def regionWait (c : Nat) (r : HartArea) (s : State) : State :=
  let f := c / 64
  match regionHeld s c r with
  | some (va, walk, g, false) =>
    let k : Kind := if walk then .read else r.kind
    let mal := match stage2Of s f g k with
      | (.fault m, _) => m
      | _ => false
    match hvSend s f (s2Record f r.who g s.nextEvt (if walk then va else 0) walk mal k) with
    | none => s
    | some s1 => { s1.setFn f { s1.fn f with s2 := (s1.fn f).s2 ++ [⟨s.nextEvt, r.id, none, walk, va, g, k, false⟩] } with nextEvt := s.nextEvt + 1 }
  | some _ => s
  | none => ctxNoteOnce c r.va r.n r.kind s
/-- The answers of the hypervisor are forgotten once they have been used. -/
def regionsDone (c core : Nat) (s : State) : State :=
  let f := c / 64
  let mine (e : S2Event) : Bool := decide (regionId c core 0 ≤ e.hart) && decide (e.hart < regionId c core 0 + 4)
  if (s.fn f).s2.any mine then s.setFn f { s.fn f with s2 := (s.fn f).s2.filter (fun e => !(mine e)) } else s
/-- The line address of an offset. -/
def lineOf (ps : Pages) (off : Nat) : Option Nat :=
  (ps.find? (fun p => decide (p.1 ≤ off) && decide (off < p.1 + p.2.2.2))).map (fun p => p.2.1 + (off - p.1))
/-- Writing an image for a core, with its poisoned granules; none where a page of it cannot be reached now. What does not stand
is dropped and recorded (R14). -/
def imageWrite (core c : Nat) (r : HartArea) (cs : Cells) (bad : List Nat) (s : State) : Option State :=
  match regionPages s c r with
  | none => none
  | some ps =>
    let at? (off : Nat) : Option Nat := lineOf (ps.filter (pageStands s)) off
    let s0 := if c / 64 = 0 then s else agentCache s (c / 64) (ps.map (fun p => lowAddr p.2.1))
    let s1 := pagesZero (some (core * 8)) c ps s0
    let s2 := homeStore 0 none s1 (plain (cs.filterMap (fun p => (at? p.1).map (fun a => (a, p.2)))))
    some (dropAddrs (onLine ps) { s2 with
      poison := (bad.filterMap (fun g => (at? (g * 64)).map (· / 64))).foldl poisonAdd s2.poison })
/-- Reading an image: its bytes that are not zero, and its poisoned granules, all those of a page that does not stand. -/
def pageRead (s : State) (p : Nat × Nat × Nat × Nat) : Cells × List Nat :=
  let l2 := s.l2.filter (fun b => decide (p.2.1 ≤ b.1) && decide (b.1 < p.2.1 + p.2.2.2))
  let mem := s.mem.filter (fun b => decide (p.2.2.1 ≤ b.1) && decide (b.1 < p.2.2.1 + p.2.2.2))
  let behind := (mem.map (fun b => (b.1 - p.2.2.1 + p.1, b.2))).filter (fun b => (mapGet none l2 (b.1 - p.1 + p.2.1)).isNone)
  let first := (l2.map (fun b => (b.1 - p.2.1 + p.1, b.2.getD 0))).filter (fun b => b.2 != 0)
  let bad (lo : Nat) : List Nat :=
    (s.poison.filter (fun g => decide (lo ≤ g * 64) && decide (g * 64 < lo + p.2.2.2))).map (fun g => (g * 64 - lo + p.1) / 64)
  if pageStands s p then (behind ++ first, bad p.2.1 ++ bad p.2.2.1)
  else ([], (List.range (p.2.2.2 / 64)).map (p.1 / 64 + ·))
def imageRead (s : State) (c : Nat) (r : HartArea) : Option (Cells × List Nat) :=
  (regionPages s c r).map (fun ps => ((ps.map (pageRead s)).flatMap (·.1), (ps.map (pageRead s)).flatMap (·.2)))

/-! ## A hart's save area, whole (R263) -/

/-- Where a hart's area stands above a save base. -/
def saveAt (base : Nat) (h : Hart) : Nat := (base + 0x10000 * (h.core * 4 + h.id % 4)) % 2 ^ 64
/-- The parts of the area that hold what a trap saved for a hart in its handler, and with `claimed` what CLAIM saved: a
spill leaves them as they are (DEDUCED, log 12). -/
def keptParts (claimed : Bool) : List (Nat × Nat) :=
  [(8, 8), (0x2C0, 0x40)] ++ (if claimed then [(0x10, 0x30), (0x400, 0x400), (0x800, 0x600), (0x1000, 0xC000)] else [])
def inParts (ps : List (Nat × Nat)) (off : Nat) : Bool := ps.any (fun p => decide (p.1 ≤ off) && decide (off < p.1 + p.2))
/-- Every field of a hart's area, with FULL set; `fl` is what its FLAGS hold. -/
def hartCells (s : State) (h : Hart) (fl : Nat) : Cells :=
  let n := h.lanes * 256
  piece 0 (leBytes 8 fl) ++ piece 8 (leBytes 8 h.pc.toNat) ++ piece 0x10 (headerBytes s h) ++
    piece 0x40 (leBytes 8 h.fflags.toNat ++ leBytes 8 h.trapcause.toNat ++ leBytes 8 h.trappc.toNat
      ++ leBytes 8 h.trapval.toNat ++ leBytes 8 (h.mstat ||| (if cuv (s.slot h.slotId) then 0x80 else 0)).toNat
      ++ leBytes 8 h.algstat.toNat ++ leBytes 8 h.digest.toNat ++ leBytes 8 h.logseq.toNat) ++
    piece 0x80 ((List.range 16).flatMap (fun i => leBytes 2 (h.counter i))) ++
    piece 0xA0 (leBytes 8 (match h.tile with | some w => 16 + w | none => 0)) ++
    piece 0x100 ((List.range 64).flatMap (fun i => leBytes 8 (h.rs (BitVec.ofNat 6 i)).toNat)) ++
    piece 0x400 (h.queue.flatMap entryBytes) ++ piece 0x800 ((List.range 12).flatMap (fun i => leBytes 128 (h.kr i).toNat)) ++
    (List.range 48).flatMap (fun r => piece (0x1000 + 0x400 * r) (leBytes n (h.vr r).toNat))
/-- Granules of the area that hold a poisoned register, or a poisoned byte of one. -/
def hartPoison (h : Hart) : List Nat :=
  ((List.range 8).filter (fun g => (h.sp >>> (8 * g)).extractLsb' 0 8 != 0)).map (4 + ·) ++
  ((List.range 48).flatMap (fun r => (List.range (h.lanes * 4)).filterMap (fun g =>
    if (h.vpr r >>> (64 * g)) % 2 ^ 64 = 0 then none else some ((0x1000 + 0x400 * r) / 64 + g))))
/-- An area as a hart's spill leaves it: in a handler over what stands there, else whole. -/
def areaOf (s : State) (h : Hart) (old : Cells × List Nat) : Cells × List Nat :=
  if h.hm then
    let fl := cellsNum old.1 0 8
    let keep (off : Nat) : Bool := inParts (keptParts (fl % 2 == 1)) off
    let new := hartCells s h (fl % 2 + 2 + (fl / 4 % 2) * 4)
    (old.1.filter (fun p => keep p.1) ++ new.filter (fun p => !(keep p.1)),
      old.2.filter (fun g => keep (64 * g)) ++ (hartPoison h).filter (fun g => !(keep (64 * g))))
  else (hartCells s h (if h.arrived then 6 else 2), hartPoison h)
/-- What a restore reads back into a hart, the parts that its trap keeps aside; none where the area is malformed (R263). `now`
is the number of the next engine operation. -/
def hartRestore (h : Hart) (cs : Cells) (bad : List Nat) (now : Nat) : Option Hart :=
  let fl := cellsNum cs 0 8
  let hd := cellsBytes cs 0x10 48
  let qb := cellsBytes cs 0x400 1024
  if saveAmiss h fl hd qb || fieldsAmiss (cellsBytes cs 0x40 104) || saveReserved.any (fun r => cellsNum cs r.1 r.2 != 0) then none
  else
    let vt := numAt hd 8 8
    let tl := cellsNum cs 0xA0 8
    let n := h.lanes * 256
    let word (off : Nat) : Word := BitVec.ofNat 64 (cellsNum cs off 8)
    let bits (r : Nat) : Nat :=
      ((List.range (n / 64)).map (fun g =>
        if bad.contains ((0x1000 + 0x400 * r) / 64 + g) then (2 ^ 64 - 1) <<< (64 * g) else 0)).foldl (· ||| ·) 0
    let x := { h with
      fflags := BitVec.ofNat 5 (cellsNum cs 0x40 8)
      trapcause := word 0x48
      trappc := word 0x50
      trapval := word 0x58
      mstat := word 0x60 &&& mstatMask
      algstat := BitVec.ofNat 2 (cellsNum cs 0x68 8)
      digest := word 0x70
      logseq := BitVec.ofNat 32 (cellsNum cs 0x78 8)
      cnt := Vector.ofFn (fun (i : Fin 16) => cellsNum cs (0x80 + 2 * i.val) 2)
      tile := if tl < 16 then none else some (tl - 16)
      s := Vector.ofFn (fun (i : Fin 64) => if h.hm && 56 ≤ i.val then h.s[i] else word (0x100 + 8 * i.val))
      sp := if h.hm then h.sp else 0
      arrived := if h.hm then h.arrived else bitsAt fl 2 1 == 1
      pc := if h.hm then h.pc else word 8 }
    if h.hm && fl % 2 = 1 then some x
    else
      some (Hart.requeue { x with
        vl := numAt hd 0 8
        et := ET.ofCode (vt % 8)
        frm := Frm.ofCode (bitsAt vt 4 2)
        vstart := numAt hd 16 8
        rpos := BitVec.ofNat 64 (numAt hd 24 8)
        spdesc := BitVec.ofNat 32 (numAt hd 32 8)
        k := Vector.ofFn (fun (i : Fin 12) => BitVec.ofNat 1024 (cellsNum cs (0x800 + 128 * i.val) 128))
        v := Vector.ofFn (fun (i : Fin 48) => BitVec.ofNat 8192 (cellsNum cs (0x1000 + 0x400 * i.val) n))
        vp := Vector.ofFn (fun (i : Fin 48) => BitVec.ofNat 1024 (bits i.val)) } now (entriesOf qb (numAt hd 40 8)) h.queue h.sets h.fmarks)

/-! ## The slot spill area (R270) -/

/-- Where a core's area stands above a save base. -/
def spillAt (base core : Nat) : Nat := (base + 0x8000000 + 0x400000 * core) % 2 ^ 64
/-- Major opcode and fn5 of an engine operation's instruction. -/
def opMajor (o : EngOp) : Nat :=
  match o.kind with | .xcopy => 0x78 | .xfill => 0x79 | .kvcommit => 0x7C | .wld => 0x77
/-- The record of a frozen operation (R270): what it captured, which instruction, hart slot and counter it is of, and its
next element or unit. -/
def opBytes (o : EngOp) : List Byte :=
  let pad (l : List Byte) : List Byte := (l ++ List.replicate 64 0).take 64
  pad (if o.kind = .wld then leBytes 8 o.arg.toNat else o.src) ++
    pad (if o.kind = .wld then leBytes 8 o.depth else o.dst) ++
    leBytes 8 (opMajor o ||| o.fn5 <<< 8 ||| (o.hart % 4) <<< 16 ||| o.counter <<< 20 ||| (o.next % 2 ^ 40) <<< 24)
/-- A frozen operation resumed from its record and its scoreboard entry (R269). -/
def opRestore (o : EngOp) (r : List Byte) (span : Option (Nat × Nat)) : EngOp :=
  let w := numAt r 128 8
  { o with
    src := if o.kind = .wld then o.src else r.take 64
    dst := if o.kind = .wld || o.dst = [] then o.dst else (r.drop 64).take 64
    arg := if o.kind = .wld then BitVec.ofNat 64 (numAt r 0 8) else o.arg
    depth := if o.kind = .wld then numAt r 64 8 else o.depth
    fn5 := bitsAt w 8 8
    hart := if o.hart = 4096 then 4096 else o.hart / 4 * 4 + bitsAt w 16 2
    counter := bitsAt w 20 4
    next := bitsAt w 24 40
    span := span }
/-- The operations of a slot resumed: `i` counts the frozen ones, `j` those with a scoreboard entry. -/
def opsRestore (cs : Cells) : List EngOp → Nat → Nat → List EngOp
  | [], _, _ => []
  | o :: t, i, j =>
    if o.done then o :: opsRestore cs t i j
    else
      let span := if o.span.isSome then some (cellsNum cs (0x282100 + 16 * j) 8, cellsNum cs (0x282108 + 16 * j) 8) else none
      opRestore o (cellsBytes cs (0x282400 + 256 * i) 136) span :: opsRestore cs t (i + 1) (if o.span.isSome then j + 1 else j)
/-- Scratch, accumulator rows, weight slots, their states, the scoreboard and the frozen operations. -/
def slotCells (sl : Slot) : Cells :=
  let rowState (r : AccRow) : Nat :=
    r.ty ||| (if r.checked then 4 else 0) ||| (if r.consumed then 8 else 0) ||| (if r.poisoned then 16 else 0)
  let weight (w : Nat) : WSlot := mapGet .empty sl.weights w
  let frozen := sl.ops.filter (fun o => !o.done)
  sl.scratch ++ sl.acc.flatMap (fun p => piece (0x80000 + 512 * p.1) (leBytes 512 p.2.cols.toNat)) ++
    (List.range 16).flatMap (fun w => match weight w with
      | .tile t => piece (0x100000 + 0x18000 * w) (leBytes 0x18000 t.image)
      | _ => []) ++
    sl.acc.flatMap (fun p => piece (0x280000 + 8 * p.1) (leBytes 8 (rowState p.2))) ++
    (List.range 16).flatMap (fun w => piece (0x282000 + 16 * w) (leBytes 16 (match weight w with
      | .tile t => t.fmt ||| t.gs <<< 8 ||| t.depth <<< 16
      | _ => 1024))) ++
    ((frozen.filterMap (·.span)).mapIdx (fun i p => piece (0x282100 + 16 * i) (leBytes 8 p.1 ++ leBytes 8 p.2))).flatten ++
    (frozen.mapIdx (fun i o => piece (0x282400 + 256 * i) (opBytes o))).flatten
/-- Poisoned granules of scratch, and of the tiles that are poisoned. -/
def slotPoison (sl : Slot) : List Nat :=
  sl.scrPoison ++ (List.range 16).flatMap (fun w => match mapGet .empty sl.weights w with
    | .tile t => if t.poisoned then [(0x100000 + 0x18000 * w) / 64] else []
    | _ => [])
/-- The storage that a restore reloads; what the area leaves to the stepping comes back as it was, and a poisoned granule
poisons what it holds (DESIGN CHOICE, log 62). -/
def slotRestore (sl : Slot) (cs : Cells) (bad : List Nat) : Slot :=
  let badIn (lo n : Nat) : Bool := bad.any (fun g => decide (lo / 64 ≤ g) && decide (g * 64 < lo + n))
  let rows := (List.range 1024).foldl (fun m r =>
    let st := cellsNum cs (0x280000 + 8 * r) 8
    let poisoned := bitsAt st 4 1 == 1 || (bitsAt st 0 2 != 0 && (badIn (0x80000 + 512 * r) 512 || badIn (0x280000 + 8 * r) 8))
    mapPut AccRow.initial m r ⟨bitsAt st 0 2, bitsAt st 2 1 == 1, bitsAt st 3 1 == 1, poisoned,
      BitVec.ofNat 4096 (cellsNum cs (0x80000 + 512 * r) 512)⟩) []
  let tile (w : Nat) : WSlot :=
    let a := cellsNum cs (0x282000 + 16 * w) 16
    if sl.ops.any (fun o => o.kind == .wld && o.wb == w && !o.done) then .loading
    else if bitsAt a 10 1 = 1 then .empty
    else .tile ⟨bitsAt a 0 8, bitsAt a 8 2, bitsAt a 16 11, cellsNum cs (0x100000 + 0x18000 * w) 0x18000,
      badIn (0x100000 + 0x18000 * w) 0x18000 || badIn (0x282000 + 16 * w) 16⟩
  { sl with
    scratch := (cs.filter (fun p => decide (p.1 < 0x80000))).foldl (fun m p => mapPut unwritten m p.1 p.2) []
    scrPoison := (bad.filter (fun g => decide (g < 0x2000))).foldl poisonAdd []
    acc := rows
    weights := (List.range 16).foldl (fun m w => mapPut WSlot.empty m w (tile w)) []
    ops := opsRestore cs sl.ops 0 0 }

/-! ## Spilling (R269) -/

/-- The harts of a slot may be stopped: at RECORD and REPLAY only at safe points. -/
def slotStoppable (s : State) (slot : Nat) : Bool := (slotHarts s slot).all (fun h => !h.runnable || stoppable s h)
/-- Changing the harts of a slot. -/
def mapSlot (slot : Nat) (f : Hart → Hart) (s : State) : State :=
  s.mapHarts (fun h => if h.live && h.slotId = slot then f h else h)
/-- The area of a hart above a save base, and what a spill reads of it first. -/
def saveRegion (c base : Nat) (h : Hart) (k : Kind) : HartArea := ⟨regionId c h.core h.id, h.id, saveAt base h, 0x10000, k⟩
/-- The area of a slot above a save base. -/
def spillRegion (c base core slot : Nat) (k : Kind) : HartArea :=
  ⟨regionId c core 0, core * 8 + slot * 4, spillAt base core, 0x400000, k⟩
/-- What a spill goes through. -/
def spillRegions (c base core slot : Nat) (s : State) : List HartArea :=
  let hs := slotHarts s (core * 2 + slot)
  (hs.filter (·.hm)).map (fun h => saveRegion c (s.ctx c).save.toNat h .read) ++ hs.map (fun h => saveRegion c base h .write) ++
    [spillRegion c base core slot .write]
/-- A spill or a restore that cannot go through one of its regions waits at the first such. -/
def regionsWait (c : Nat) (rs : List HartArea) (s : State) : State :=
  match rs.find? (fun r => (regionPages s c r).isNone) with
  | some r => regionWait c r s
  | none => s
/-- What a hart, and those it was forked from, have stored to its own save area reaches home before the area is written out. -/
def areaHome (c : Nat) (s : State) (h : Hart) : State :=
  match regionPages s c (saveRegion c (s.ctx c).save.toNat h .write) with
  | some ps =>
    if h.sbuf.any (fun p => onLine ps p.a) then takeHome h.id h.stores (onLine ps) (kinHome h.kin (onLine ps) s) else s
  | none => s
/-- The areas of a slot's harts, above a save base. -/
def hartsWrite (c base : Nat) (s : State) : List Hart → Option State
  | [] => some s
  | h :: t =>
    let old := if h.hm then imageRead s c (saveRegion c (s.ctx c).save.toNat h .read) else some ([], [])
    match old.bind (fun o => imageWrite h.core c (saveRegion c base h .write) (areaOf s h o).1 (areaOf s h o).2 s) with
    | none => none
    | some s1 => hartsWrite c base s1 t
/-- The state of a slot is written out above a save base (DESIGN CHOICE, log 62). -/
def slotWrite (c base core slot : Nat) (s : State) : Option State :=
  let i := core * 2 + slot
  let s0 := (slotHarts s i).foldl (areaHome c) s
  match hartsWrite c base s0 (slotHarts s0 i) with
  | none => none
  | some s1 => imageWrite core c (spillRegion c base core slot .write) (slotCells (s.slot i)) (slotPoison (s.slot i)) s1
/-- A number for a spilled hart that no hart of the part has, under which its stage-2 events wait. -/
def awayId (c core h : Nat) : Nat := 8192 + (c * 512 + core) * 4 + h % 4
def renameEvents (f : Nat) (ren : Nat → Nat) (s : State) : State :=
  if (s.fn f).s2 = [] then s
  else s.setFn f { s.fn f with s2 := (s.fn f).s2.map (fun e => { e with hart := ren e.hart }) }
/-- The slot leaves the core. -/
def slotTake (c core slot : Nat) (s : State) : State :=
  let i := core * 2 + slot
  let hs := slotHarts s i
  let ids := hs.map (·.id)
  let s1 := s.setSpill c core ⟨{ s.slot i with rcache := [] }, hs⟩
  let s2 := renameEvents (c / 64) (fun h => if ids.contains h then awayId c core h else h) s1
  { s2 with
    slots := mapErase i s2.slots
    colls := s2.colls.map (fun o => if o.ctx = c && ids.contains o.hart then { o with away := true } else o)
    hart := if ids.contains s2.hart.id then { Hart.initial with id := s2.hart.id } else s2.hart
    harts := s2.harts.filter (fun p => !(ids.contains p.1)) }
/-- A spill of a slot, which waits where its save region cannot be reached. -/
def spillSlot (core slot : Nat) (s : State) : State :=
  match (s.slot (core * 2 + slot)).holder with
  | none => s
  | some c =>
    let s1 := mapSlot (core * 2 + slot) stopHart s
    let base := (s.ctx c).save.toNat
    match slotWrite c base core slot s1 with
    | none => regionsWait c (spillRegions c base core slot s) s
    | some s2 => regionsDone c core (slotTake c core slot s2)
/-- The priority, plus one, of what waits for a slot of a core whose slots are both held: launches with a hart waiting,
and contexts spilled from it. -/
def incoming (s : State) (core : Nat) : Nat :=
  let held (c : Nat) : Bool := (s.slot (core * 2)).holder == some c || (s.slot (core * 2 + 1)).holder == some c
  let new := (candidates s).filterMap (fun x =>
    let l := s.launch x.1
    if !(held l.ctx) && coreOpen s l.ctx core then some (l.prio + 1) else none)
  let old := (s.spills.filter (fun p => p.1 % 512 == core)).flatMap (fun p => p.2.harts.map (fun h => (s.launch h.launch).prio + 1))
  (new ++ old).foldl max 0
/-- The slot that a third context takes (R289): one with no runnable hart, else one of lower demand than what comes; of two,
that of lower demand, then the less recently active. -/
def spillChoice (s : State) (core : Nat) : Option Nat :=
  let d0 := demand s (core * 2)
  let d1 := demand s (core * 2 + 1)
  let pick := if d0 < d1 then 0 else if d1 < d0 then 1 else 1 - (s.core core).active
  let inc := incoming s core
  if (s.slot (core * 2)).holder.isNone || (s.slot (core * 2 + 1)).holder.isNone || inc = 0 then none
  else if min d0 d1 = 0 || min d0 d1 < inc then some pick
  else none
def execSpill (core slot : Nat) (s : State) : Out :=
  .next (if spillChoice s core = some slot && slotStoppable s (core * 2 + slot) then spillSlot core slot s else s)

/-! ## Restoring (R264, R269) -/

/-- A hart under its new number. -/
def renameHart (ren : Nat → Nat) (h : Hart) : Hart :=
  { h with
    id := ren h.id
    children := h.children.map ren
    parent := h.parent.map ren
    kin := h.kin.map (fun k => (ren k.1, k.2)) }
/-- A granule that a restore must read clean: all but those of the vector registers, whose poison is theirs (R264, R265). -/
def mustBeClean (h : Hart) (fl : Nat) (g : Nat) : Bool :=
  (g < 64 || 0xD000 / 64 ≤ g) && !(h.hm && inParts (keptParts (fl % 2 == 1)) (64 * g))
/-- A restored hart: its area read back. -/
def hartBack (s : State) (c : Nat) (h : Hart) : Except Cause Hart :=
  let r := saveRegion c (s.ctx c).save.toNat h .read
  match imageRead s c r with
  | none => .error (match areaPage s c r r.va with | .shut e => e | _ => areaCause s c r.va)
  | some (cs, bad) =>
    if bad.any (mustBeClean h (cellsNum cs 0 8)) then .error .poison
    else
      match hartRestore h cs bad s.nextOp with
      | none => .error .illegalOp
      | some x => .ok x
/-- The harts in place, with those whose area faults or is malformed. -/
def hartsBack (c : Nat) (run : Bool) : List Hart → State → List (Nat × Cause) → State × List (Nat × Cause)
  | [], s, bad => (s, bad)
  | h :: t, s, bad =>
    let go (x : Hart) : Hart := { x with yreq := false, run := if x.run = .stopped && !x.ended && run then .running else x.run }
    match hartBack s c h with
    | .ok x => hartsBack c run t (s.setHart (go x)) bad
    | .error e =>
      hartsBack c run t (ctxNote c (saveAt (s.ctx c).save.toNat h) 0x10000 .read (s.setHart (go h))) (bad ++ [(h.id, e)])
/-- Counters whose collectives ended while the hart was away. -/
def settleAll (h : Nat) (s : State) : State :=
  (List.range 16).foldl (fun s cn => settle h cn (countedOps s h cn).length s) s
/-- A restore that fails for a hart is a nested trap, which ends its launch. -/
def restoreFault (s : State) (p : Nat × Cause) : State :=
  let x := s.hartOf p.1
  if x.live then handlerFault s x (causeWord p.2 .read) x.pc else s
/-- The pages of a frozen operation under the translations of now, but for those in a publish window, which has its own; a
page that is no longer mapped is left out (R249) (DESIGN CHOICE, log 62). -/
def freshPages (s : State) (c : Nat) (k : Kind) (ps : List (Nat × Nat)) : List (Nat × Nat) :=
  ps.filterMap (fun p => if (windowOf (s.ctx c) p.1).isSome then some p else (ctxGpa s c p.1 k).map (p.1, ·))
def freshOp (s : State) (c : Nat) (o : EngOp) : EngOp :=
  if o.done then o else { o with srcPages := freshPages s c .read o.srcPages, dstPages := freshPages s c .write o.dstPages }
/-- A spilled context comes back into a free slot of the core. -/
def restoreSlot (core slot c : Nat) (s : State) : State :=
  let sp := s.spill c core
  let i := core * 2 + slot
  let base := (s.ctx c).save.toNat
  let ids := sp.harts.map (·.id)
  let ren (h : Nat) : Nat := if ids.contains h then core * 8 + slot * 4 + h % 4 else h
  let area := spillRegion c base core slot .read
  -- what stage 2 holds up waits for its answer (R253); a hart's area that is shut ends its launch (R264)
  match (area :: sp.harts.map (fun h => saveRegion c base (renameHart ren h) .read)).find? (fun r => (regionHeld s c r).isSome) with
  | some r => regionWait c r s
  | none =>
  match imageRead s c area with
  | none => regionWait c area s
  | some (cs, bad) =>
    let sl := slotRestore sp.slot cs bad
    let s1 := (s.setSlot i { sl with ops := sl.ops.map (fun o => freshOp s c { o with hart := ren o.hart }) }).setSpill c core Spill.initial
    let x := s1.ctx c
    let au (o : Option Nat) : Option Nat := o.map ren
    let s2 := s1.setCtx c { x with
      hist := x.hist.map (fun u => { u with hart := au u.hart })
      tabs := x.tabs.map (fun u => { u with hart := au u.hart }) }
    let back (o : CollOp) : Bool := o.ctx == c && o.away && ids.contains o.hart
    let s3 := { s2 with colls := s2.colls.map (fun o => if back o then { o with hart := ren o.hart, away := false } else o) }
    let s4 := renameEvents (c / 64) (fun h => if ids.any (fun k => awayId c core k == h) then core * 8 + slot * 4 + h % 4 else h) s3
    let (s5, amiss) := hartsBack c ((s4.core core).active == slot) (sp.harts.map (renameHart ren)) s4 []
    regionsDone c core (amiss.foldl restoreFault ((ids.map ren).foldl (fun s h => settleAll h s) s5))
/-- A restore may take place: the context is spilled from the core, and the slot is free. -/
def restorable (s : State) (core slot c : Nat) : Bool :=
  decide (slot < 2) && decide (core < Config.cores) && s.spill c core != Spill.initial &&
    (s.slot (core * 2 + slot)).holder.isNone
def execRestore (core slot c : Nat) (s : State) : Out :=
  .next (if restorable s core slot c then restoreSlot core slot c s else s)

/-! ## CTXSW (R271) -/

/-- The slots of a context on the cores of a mask, as core and slot. -/
def maskedSlots (s : State) (c : Nat) (mask : Nat) : List (Nat × Nat) :=
  (s.slots.filter (fun p => p.2.holder == some c && bitsAt mask (p.1 / 2) 1 == 1)).map (fun p => (p.1 / 2, p.1 % 2))
/-- Each slot written out above the shadow base; else the state in which that waits, `s0` with the hypervisor told. -/
def shadowWrite (c base : Nat) (s0 s : State) : List (Nat × Nat) → Except State State
  | [] => .ok s
  | p :: t =>
    match slotWrite c base p.1 p.2 s with
    | none => .error (regionsWait c (spillRegions c base p.1 p.2 s0) s0)
    | some s1 => shadowWrite c base s0 (regionsDone c p.1 s1) t
/-- The outgoing context's harts on those slots stop, and its state goes to the shadow. -/
def ctxswOut (c mask : Nat) (s : State) : Except State State :=
  let ps := maskedSlots s c mask
  if ps.any (fun p => !(slotStoppable s (p.1 * 2 + p.2))) then .error s
  else
    match agentNum s (c / 64) ((s.ctx c).recA + 0xE0) 8 with
    | none => .error s
    | some sh =>
      let s1 := ps.foldl (fun s p => mapSlot (p.1 * 2 + p.2) stopHart s) (s.setCtx c { s.ctx c with shadow := BitVec.ofNat 64 sh })
      shadowWrite c sh s s1 ps
/-- SAVE and SHADOW are exchanged, in the record too. -/
def ctxswExchange (c : Nat) (s : State) : State :=
  let x := s.ctx c
  let s1 := ctxRecPut (ctxRecPut s c 0x10 x.shadow.toNat) c 0xE0 x.save.toNat
  s1.setCtx c { s1.ctx c with save := x.shadow, shadow := x.save }
/-- The incoming context comes back on the cores of the mask where a slot is free. -/
def ctxswIn (c mask : Nat) (s : State) : State :=
  (((s.spills.filter (fun p => p.1 / 512 == c && bitsAt mask (p.1 % 512) 1 == 1)).map (fun p => p.1 % 512))).foldl
    (fun s core => match [0, 1].find? (fun i => restorable s core i c) with
      | some i => restoreSlot core i c s
      | none => s) s
/-- The harts that a CTXSW has stopped. -/
def stoppedBy (s s1 : State) : List Nat :=
  (s.liveHarts.filter (fun h => h.runnable && (s1.hartOf h.id).run == .stopped)).map (·.id)
/-- The packet's first step writes the shadow; its last one, the outgoing slots gone and the incoming context in, is
what makes the switch visible (DEDUCED, log 63). -/
def ctxswStep (f q : Nat) (p : Packet) (s : State) : State :=
  let out := f * 64 + numAt p.bytes 8 2
  let inc := f * 64 + numAt p.bytes 10 2
  let mask := numAt p.bytes 64 64
  match ctxswOut out mask s with
  | .error t => t
  | .ok s1 =>
    if !p.begun then
      let x := s1.queue f q
      s1.setQueue f q { x with packet := some { p with begun := true, waits := stoppedBy s s1 } }
    else
      let s2 := (maskedSlots s1 out mask).foldl (fun s k => slotTake out k.1 k.2 s) s1
      packetDone f q (ctxswIn inc mask (ctxswExchange out s2))
def execCtxsw (f q : Nat) (s : State) : Out :=
  match packetOf s f q 6 with
  | none => .next s
  | some p => .next (ctxswStep f q p s)

/-- The hypervisor pre-empts the function: from then on the CTXSW has its function's deadline to end. At the deadline the
shadow is discarded, and the packet runs again from its start. -/
def ctxswAbort (f q : Nat) (p : Packet) (s : State) : State :=
  if f = 0 || !p.begun then s
  else
    let x := s.queue f q
    match p.since with
    | none => s.setQueue f q { x with packet := some { p with since := some s.time } }
    | some t =>
      if s.time < t + (s.fn f).ctxswdl * 1000 then s
      else packetUndo (some p) (s.setQueue f q { x with packet := some { p with begun := false, waits := [], since := none } })
def execCtxswAbort (f q : Nat) (s : State) : Out :=
  match packetOf s f q 6 with
  | none => .next s
  | some p => .next (ctxswAbort f q p s)

end Sys2Proof.Machine
end

