-- ==== Sys2Proof/Machine/Life.lean ====
section
/-! DEFINITION. The outside world and the life of the part (19 R319 to R321; 21 R327, R328, R331, R334 to R339; 16
R292): host and peer accesses, links, the scrubber, power, the freeze, reset and bring-up; and the steps of a hart whose
next word cannot be fetched or decodes as nothing (04 R104, R105; 14 R244). -/

namespace Sys2Proof.Machine

/-! ## Words that are no instruction, and words that cannot be fetched -/

/-- ILLEGAL_OP of a word, at the hart's PC (R105). -/
def execIllegalOp (w : BitVec 32) (s : State) : Out :=
  .next (takeTrap s s.hart.id .illegalOp .read (w.zeroExtend 64) s.hart.pc s.hart.pc)
/-- PAGE or PERM of kind exec, with the PC as TRAPVAL (R244). -/
def execFetchFault (perm : Bool) (s : State) : Out :=
  .next (takeTrap s s.hart.id (if perm then .perm else .page) .exec s.hart.pc s.hart.pc s.hart.pc)

/-! ## Host and peer accesses (R328, R331) -/

/-- Every byte of an access lies in backed device memory. -/
def allBacked (pa n : Nat) : Bool := (List.range n).all (fun i => devBacked (pa + i))
/-- What a read from outside returns. -/
def busRead (pa n : Nat) (s : State) : State :=
  { s with busOut := if (List.range n).any (fun i => paBad s (pa + i)) then none else some (s.peekBytes pa n) }
/-- A host access: to device memory at the line's home, or to the host's own memory (DESIGN CHOICE, log 4) (DEDUCED, log 64). -/
def hostAccess (write : Bool) (pa n : Nat) (bytes : List Byte) (s : State) : State :=
  if s.frozen || s.pilot.isSome || paPeer pa then s
  else if write then outsideStore s pa bytes
  else busRead pa n s
def execHostMemAccess (write : Bool) (pa n : Nat) (bytes : List Byte) (s : State) : Out :=
  .next (hostAccess write pa n bytes s)
/-- A peer's access to this device's memory. -/
def peerAccess (write : Bool) (pa n : Nat) (bytes : List Byte) (s : State) : State :=
  if s.frozen || s.pilot.isSome || !(paDevice pa) then s
  else if write then outsideStore s pa bytes
  else busRead pa n s
def execPeerRequest (write : Bool) (pa n : Nat) (bytes : List Byte) (s : State) : Out :=
  .next (peerAccess write pa n bytes s)

/-! ## Links (R327, R334) -/

/-- The host link trains down. -/
def execLinkTrainDown (lanes rate : Nat) (s : State) : Out :=
  .next (
    if (lanes = 8 || lanes = 16) && (rate = 64 || rate = 128) && lanes ≤ s.hostLanes && rate ≤ s.hostRate then
      { s with hostLanes := lanes, hostRate := rate }
    else s)
/-- A peer link goes down, or comes back. -/
def execPeerLinkDown (link : Nat) (down : Bool) (s : State) : Out :=
  let rest := s.linksDown.filter (fun d => d.1 != link)
  .next (
    if 17 < link then s
    else if !down then { s with linksDown := rest }
    else if s.linksDown.any (fun d => d.1 == link) then s
    else { s with linksDown := (link, s.cycle) :: s.linksDown })

/-! ## The scrubber (R15, R319) -/

/-- The channel index of a device address (R15): bits [5:4] the site of its die, [3:0] the channel. -/
def channelOf (pa : Nat) : Nat :=
  let l := pa % 2 ^ 39 / 256
  bitsAt l 0 6 ^^^ bitsAt l 6 6 ^^^ bitsAt l 12 6 ^^^ bitsAt l 18 6 ^^^ bitsAt l 24 6 ^^^ bitsAt l 30 1
/-- The memory site of a device address. -/
def siteOf (pa : Nat) : Nat := 4 * (pa / 2 ^ 39) + channelOf pa / 16
/-- An error becomes uncorrectable: its granule is poisoned. -/
def poisonAt (pa : Nat) (s : State) : State := { s with poison := poisonAdd s.poison (pa / 64) }
/-- Corrected errors of a unit, counted since its last record of type 5. -/
def correctedCount (core unit : Nat) (s : State) : State :=
  { s with corrected := mapPut 0 s.corrected (core * 128 + unit) (mapGet 0 s.corrected (core * 128 + unit) + 1) }
/-- The record of type 5, with the count it ends. -/
def correctedRecord (core unit addr : Nat) (s : State) : State :=
  let n := mapGet 0 s.corrected (core * 128 + unit)
  frecAdd { s with corrected := mapPut 0 s.corrected (core * 128 + unit) 0 } 5 addr (core % 512) 0 unit 63 255 n
/-- A single-bit error is corrected: in a core, or in a channel of a memory site at an address of it, silently but for the
count; when a record of it is written is the management controller's, and a word of the SRAM has no physical address (DESIGN
CHOICE, log 87). -/
def correctedAt (core unit pa : Nat) (told : Bool) (s : State) : State :=
  let dram := decide (512 ≤ core)
  if 528 ≤ core || 128 ≤ unit || (dram && !(devBacked pa && core == 512 + siteOf pa && unit == channelOf pa % 16)) then s
  else
    let s1 := correctedCount core unit s
    if told then correctedRecord core unit (if dram then pa else 0) s1 else s1
/-- A granule of a context's line in a cache is poisoned, where the cache holds it. -/
def poisonLine (n c a : Nat) (l : CLine) : CLine :=
  if l.ctx = c && l.a = a / n * n then { l with bad := l.bad ||| (1#4 <<< ((a - l.a) / 64)) } else l
def poisonLines (level core c a : Nat) (s : State) : State :=
  let k := s.core core
  match level with
  | 0 => s.setCore core { k with l1 := k.l1.map (poisonLine 64 c a) }
  | 1 => { s with rdc := mapPut [] s.rdc (core / 128) ((mapGet [] s.rdc (core / 128)).map (poisonLine 256 c a)) }
  | _ => s.setCore core { k with icache := k.icache.map (poisonLine 64 c a) }
/-- An error becomes uncorrectable: its word is poisoned and a fault record of type 6 written; a word of the SRAM has no
physical address (DESIGN CHOICE, log 87). -/
def uncorrectableAt (x : EccSite) (s : State) : State :=
  let owner (o : Option Nat) : Nat × Nat := match o with | some c => (c % 64, c / 64) | none => (63, 255)
  let note (core : Nat) (o : Option Nat) (s : State) : State := frecAdd s 6 0 core 0 0 (owner o).1 (owner o).2 0
  match x with
  | .memory pa =>
    if paDevice pa then
      if devBacked pa then poisonAt pa (frecAdd s 6 pa (siteOf pa) 0 (channelOf pa % 16) 63 255 0) else s
    else poisonAt pa s
  | .scalar h r =>
    let y := s.hartOf h
    if !y.live || r = 0 || 63 < r then s
    else note y.core (some (ctxOf s y)) (s.setHart { y with sp := y.sp ||| (1#64 <<< r) })
  | .vector h r b =>
    let y := s.hartOf h
    if !y.live || 47 < r || y.lanes * 256 ≤ b then s
    else note y.core (some (ctxOf s y)) (s.setHart (y.setVp r (y.vpr r ||| (1#1024 <<< b))))
  | .scratch i o =>
    if (s.slot i).holder.isNone || Config.scratchSize ≤ o then s
    else note (i / 2) (s.slot i).holder (s.setSlot i { s.slot i with scrPoison := poisonAdd (s.slot i).scrPoison (o / 64) })
  | .row i r =>
    let y := mapGet AccRow.initial (s.slot i).acc r
    if y.ty = 0 then s
    else note (i / 2) (s.slot i).holder
      (s.setSlot i { s.slot i with acc := mapPut AccRow.initial (s.slot i).acc r { y with poisoned := true } })
  | .tile i w =>
    match mapGet .empty (s.slot i).weights w with
    | .tile t => note (i / 2) (s.slot i).holder (s.setSlot i ((s.slot i).setWeight w (.tile { t with poisoned := true })))
    | _ => s
  | .line level core c a =>
    let t := poisonLines level core c a s
    if Config.cores ≤ core || t = s then s else note core (some c) t
/-- The scrubber at an address (R319): a corrected error is counted and recorded, an uncorrectable one poisons. In the
pilot-light state the memory sites are held in reset (R337). -/
def execDramScrub (pa finding : Nat) (s : State) : Out :=
  let key := 512 + siteOf pa
  .next (
    if !(devBacked pa) || s.pilot.isSome || s.frozen then s
    else if finding = 1 then correctedRecord key (channelOf pa % 16) pa (correctedCount key (channelOf pa % 16) s)
    else if finding = 2 then uncorrectableAt (.memory pa) s
    else s)

/-! ## Power (R292, R339), the freeze (R321) -/

/-- The power controller sets a core's lane cap; in the pilot-light state the compute dies are held in reset (R337). -/
def execPowerControl (core cap : Nat) (s : State) : Out :=
  .next (
    if core < Config.cores && 1 ≤ cap && cap ≤ 4 && s.pilot.isNone && !s.frozen then s.setCore core { s.core core with cap := cap } else s)
/-- SNUFF_N held low. -/
def execSnuffN (s : State) : Out := .next (if s.frozen then s else freeze s)
/-- The junction has reached its shutdown point. -/
def execThermalShutdown (s : State) : Out := .next (if s.frozen then s else freeze s)

/-! ## Attestation (R335) -/

/-- What a measurement block measures: the boot ROM is the same in every run; firmware is the bank that runs. -/
def measured (s : State) (block : Nat) : List Byte :=
  if block = 2 || block = 3 then
    leBytes 8 s.fwActive.security ++ leBytes 8 s.fwActive.len ++ s.fwActive.bytes.flatMap (fun p => leBytes 4 p.1 ++ [p.2])
  else if block = 4 then
    s.cores.flatMap (fun p => leBytes 2 p.1 ++ [p.2.laneMask.zeroExtend 8, BitVec.ofNat 8 p.2.spares]
      ++ p.2.replaced.map (BitVec.ofNat 8))
  else if block = 5 then capChain s 0
  else []
/-- A measurement block is asked for, or the keys of the host link are set: what the answer says of what the block measures is
left open (DESIGN CHOICE, log 7) (DESIGN CHOICE, log 70). -/
def execSpdmRequest (f block : Nat) (setKeys : Bool) (s : State) : Out :=
  .next (
    if s.frozen || s.pilot.isSome || 32 < f then s
    else
      let s1 := if 1 ≤ block && block ≤ 5 then
        s.setFn f { s.fn f with doeOut := Config.spdmBytes f block (measured s block) s.fresh } |> fun t => { t with fresh := s.fresh + 1 }
        else s
      if setKeys then { s1 with ideKeys := true } else s1)

/-! ## Reset and bring-up (R320, R321, R336 to R338) -/

/-- The verdict on a bank's image, whose version the bank holds (R335, R338). -/
def bankVerdict (v : FwVerdict) (b : Bank) : FwVerdict := { v with version := b.security }
/-- Which bank boots: the staged one when it is due and verifies, else the active one. -/
def bootBank (r : BringUp) (s : State) : State :=
  if !s.fwNext then s
  else
    match fwAmiss (bankVerdict r.staged s.fwStaging) with
    | none => { s with fwActive := s.fwStaging, fwStaging := s.fwActive, fwRejected := false, fwNext := false }
    | some _ => { s with fwRejected := true, fwNext := false }
/-- The verdict on the image that boots. -/
def bootVerdict (r : BringUp) (s : State) : FwVerdict :=
  let v := bankVerdict r.staged s.fwStaging
  if s.fwNext && (fwAmiss v).isNone then v else bankVerdict r.active s.fwActive
/-- What survives a reset: the fault-record ring, the lane-disable masks, the firmware banks, memory that is not the
device's, and what is outside the part (DEDUCED, log 65). -/
def afterReset (s : State) : State :=
  let away (a : Nat) : Bool := decide (2 ^ 60 ≤ a) || !(paDevice a)
  let far := s.mem.filter (fun p => away p.1)
  let bad := s.poison.filter (fun g => away (g * 64))
  let masks := s.cores.foldr (fun p m => mapPut Core.initial m p.1 { Core.initial with laneMask := p.2.laneMask }) []
  { State.reset with
    cores := masks
    mem := far
    poison := bad
    frec := s.frec
    frecLost := s.frecLost
    fwActive := s.fwActive
    fwStaging := s.fwStaging
    fwNext := s.fwNext
    fwRejected := s.fwRejected
    linksDown := s.linksDown.map (fun d => (d.1, 0))
    inputs := s.inputs
    fresh := s.fresh }
/-- A lane group fails its bring-up test. -/
def laneFails (s : State) (p : Nat × Nat) : State :=
  let k := s.core p.1
  if p.1 < Config.cores && p.2 < 4 then s.setCore p.1 { k with laneMask := k.laneMask ||| (1#4 <<< p.2) } else s
/-- A Lantern column fails its bring-up test: a spare takes its place, or the core has none left. -/
def columnBringUp (s : State) (p : Nat × Nat) : State :=
  let k := s.core p.1
  if Config.cores ≤ p.1 || 127 < p.2 then s
  else if k.spares = 0 then s.setCore p.1 { k with badColumn := true }
  else s.setCore p.1 { k with spares := k.spares - 1, replaced := p.2 :: k.replaced }
/-- Bring-up: verification, self-tests, and the pilot-light state where one fails that the part needs; its reason code is
the reason of R338 for the image, 6 for a die or a site (DESIGN CHOICE, log 11). -/
def bringUp (r : BringUp) (s : State) : State :=
  let v := bootVerdict r s
  let s1 := bootBank r (afterReset s)
  match fwAmiss v with
  | some n => { s1 with pilot := some n }
  | none =>
    if !r.diesPass then { s1 with pilot := some 6 }
    else r.columnsFailed.foldl columnBringUp (r.lanesFailed.foldl laneFails s1)
def execReset (r : BringUp) (s : State) : Out := .next (bringUp r s)

end Sys2Proof.Machine
end

