-- ==== Sys2Proof/Machine/Dispatch.lean ====
section
/-! DEFINITION. The one dispatcher: an arm per constructor, each a direct call of that instruction's meaning. -/

namespace Sys2Proof.Machine

def exec (i : Instr) (s : State) : Host.Outcome State Fault Refusal :=
  match i with
  | .add d a b => Sys2Proof.Machine.execAdd d a b s
  | .sub d a b => Sys2Proof.Machine.execSub d a b s
  | .mul d a b => Sys2Proof.Machine.execMul d a b s
  | .mulh d a b u => Sys2Proof.Machine.execMulh d a b u s
  | .div d a b u => Sys2Proof.Machine.execDiv d a b u s
  | .rem d a b u => Sys2Proof.Machine.execRem d a b u s
  | .and d a b => Sys2Proof.Machine.execAnd d a b s
  | .or d a b => Sys2Proof.Machine.execOr d a b s
  | .xor d a b => Sys2Proof.Machine.execXor d a b s
  | .shl d a b => Sys2Proof.Machine.execShl d a b s
  | .shr d a b => Sys2Proof.Machine.execShr d a b s
  | .sar d a b => Sys2Proof.Machine.execSar d a b s
  | .min d a b u => Sys2Proof.Machine.execMin d a b u s
  | .max d a b u => Sys2Proof.Machine.execMax d a b u s
  | .slt d a b u => Sys2Proof.Machine.execSlt d a b u s
  | .cnt d a k => Sys2Proof.Machine.execCnt d a k s
  | .addi d a n => Sys2Proof.Machine.execAddi d a n s
  | .andi d a n => Sys2Proof.Machine.execAndi d a n s
  | .ori d a n => Sys2Proof.Machine.execOri d a n s
  | .xori d a n => Sys2Proof.Machine.execXori d a n s
  | .shli d a n => Sys2Proof.Machine.execShli d a n s
  | .shri d a n => Sys2Proof.Machine.execShri d a n s
  | .sari d a n => Sys2Proof.Machine.execSari d a n s
  | .slti d a n => Sys2Proof.Machine.execSlti d a n s
  | .lih d n => Sys2Proof.Machine.execLih d n s
  | .addpc d n => Sys2Proof.Machine.execAddpc d n s
  | .sfadd d a b p => Sys2Proof.Machine.execSfadd d a b p s
  | .sfsub d a b p => Sys2Proof.Machine.execSfsub d a b p s
  | .sfmul d a b p => Sys2Proof.Machine.execSfmul d a b p s
  | .sfma d a b p => Sys2Proof.Machine.execSfma d a b p s
  | .sfdiv d a b p => Sys2Proof.Machine.execSfdiv d a b p s
  | .sfsqrt d a p => Sys2Proof.Machine.execSfsqrt d a p s
  | .sfcvt d a y0 t => Sys2Proof.Machine.execSfcvt d a y0 t s
  | .sfmm d a b p x => Sys2Proof.Machine.execSfmm d a b p x s
  | .sfcmp d a b c p => Sys2Proof.Machine.execSfcmp d a b c p s
  | .spset a => Sys2Proof.Machine.execSpset a s
  | .beq a b o => Sys2Proof.Machine.execBeq a b o s
  | .bne a b o => Sys2Proof.Machine.execBne a b o s
  | .blt a b o => Sys2Proof.Machine.execBlt a b o s
  | .bge a b o => Sys2Proof.Machine.execBge a b o s
  | .bltu a b o => Sys2Proof.Machine.execBltu a b o s
  | .bgeu a b o => Sys2Proof.Machine.execBgeu a b o s
  | .strip a o => Sys2Proof.Machine.execStrip a o s
  | .jal d o => Sys2Proof.Machine.execJal d o s
  | .jalr d a n => Sys2Proof.Machine.execJalr d a n s
  | .ld d a o z => Sys2Proof.Machine.execLd d a o z s
  | .st d a o z => Sys2Proof.Machine.execSt d a o z s
  | .lds d a c q z => Sys2Proof.Machine.execLds d a c q z s
  | .sts d a c r z => Sys2Proof.Machine.execSts d a c r z s
  | .waitval d a y0 q w c => Sys2Proof.Machine.execWaitval d a y0 q w c s
  | .amo c d a b o w q r => Sys2Proof.Machine.execAmo c d a b o w q r s
  | .setvl d a => Sys2Proof.Machine.execSetvl d a s
  | .setvli d n => Sys2Proof.Machine.execSetvli d n s
  | .vld d a b k z m => Sys2Proof.Machine.execVld d a b k z m s
  | .vldRaw d a b k z m => Sys2Proof.Machine.execVldRaw d a b k z m s
  | .vst d a b k m => Sys2Proof.Machine.execVst d a b k m s
  | .vstRaw d a b k m => Sys2Proof.Machine.execVstRaw d a b k m s
  | .vldff d a b k z m => Sys2Proof.Machine.execVldff d a b k z m s
  | .vldffRaw d a b k z m => Sys2Proof.Machine.execVldffRaw d a b k z m s
  | .vamo d o c b k z q r => Sys2Proof.Machine.execVamo d o c b k z q r s
  | .vadd d a b k z y0 => Sys2Proof.Machine.execVadd d a b k z y0 s
  | .vsub d a b k z y0 => Sys2Proof.Machine.execVsub d a b k z y0 s
  | .vmul d a b k z y0 => Sys2Proof.Machine.execVmul d a b k z y0 s
  | .vmulh d a b k z y0 u => Sys2Proof.Machine.execVmulh d a b k z y0 u s
  | .vmin d a b k z y0 u => Sys2Proof.Machine.execVmin d a b k z y0 u s
  | .vmax d a b k z y0 u => Sys2Proof.Machine.execVmax d a b k z y0 u s
  | .vand d a b k z y0 => Sys2Proof.Machine.execVand d a b k z y0 s
  | .vor d a b k z y0 => Sys2Proof.Machine.execVor d a b k z y0 s
  | .vxor d a b k z y0 => Sys2Proof.Machine.execVxor d a b k z y0 s
  | .vshl d a b k z y0 => Sys2Proof.Machine.execVshl d a b k z y0 s
  | .vshr d a b k z y0 => Sys2Proof.Machine.execVshr d a b k z y0 s
  | .vsar d a b k z y0 => Sys2Proof.Machine.execVsar d a b k z y0 s
  | .vaddsat d a b k z y0 u => Sys2Proof.Machine.execVaddsat d a b k z y0 u s
  | .vsubsat d a b k z y0 u => Sys2Proof.Machine.execVsubsat d a b k z y0 u s
  | .vfadd d a b k z y0 => Sys2Proof.Machine.execVfadd d a b k z y0 s
  | .vfsub d a b k z y0 => Sys2Proof.Machine.execVfsub d a b k z y0 s
  | .vfmul d a b k z y0 => Sys2Proof.Machine.execVfmul d a b k z y0 s
  | .vfma d a b k z y0 n => Sys2Proof.Machine.execVfma d a b k z y0 n s
  | .vfdiv d a b k z y0 => Sys2Proof.Machine.execVfdiv d a b k z y0 s
  | .vfsqrt d a k z => Sys2Proof.Machine.execVfsqrt d a k z s
  | .vfmin d a b k z y0 => Sys2Proof.Machine.execVfmin d a b k z y0 s
  | .vfmax d a b k z y0 => Sys2Proof.Machine.execVfmax d a b k z y0 s
  | .vfrcp d a k z => Sys2Proof.Machine.execVfrcp d a k z s
  | .vfrsq d a k z => Sys2Proof.Machine.execVfrsq d a k z s
  | .vfexp2 d a k z => Sys2Proof.Machine.execVfexp2 d a k z s
  | .vflog2 d a k z => Sys2Proof.Machine.execVflog2 d a k z s
  | .vfsgn d a b k z g => Sys2Proof.Machine.execVfsgn d a b k z g s
  | .vcmp d u y0 a b k z c => Sys2Proof.Machine.execVcmp d u y0 a b k z c s
  | .vfcmp d y0 a b k z c => Sys2Proof.Machine.execVfcmp d y0 a b k z c s
  | .kop d a b o => Sys2Proof.Machine.execKop d a b o s
  | .kpop d a k => Sys2Proof.Machine.execKpop d a k s
  | .kfirst d a k => Sys2Proof.Machine.execKfirst d a k s
  | .kmov d a => Sys2Proof.Machine.execKmov d a s
  | .mtree d a b => Sys2Proof.Machine.execMtree d a b s
  | .vcvt d a y0 k z => Sys2Proof.Machine.execVcvt d a y0 k z s
  | .vnarrow d a n k z => Sys2Proof.Machine.execVnarrow d a n k z s
  | .vwiden d a u k z => Sys2Proof.Machine.execVwiden d a u k z s
  | .vmerge d a b k y0 => Sys2Proof.Machine.execVmerge d a b k y0 s
  | .vperm d a b k z => Sys2Proof.Machine.execVperm d a b k z s
  | .vslide d a b k z r => Sys2Proof.Machine.execVslide d a b k z r s
  | .vcompress d a k z => Sys2Proof.Machine.execVcompress d a k z s
  | .vexpand d a k z => Sys2Proof.Machine.execVexpand d a k z s
  | .viota d k z => Sys2Proof.Machine.execViota d k z s
  | .vbcast d a b k z f => Sys2Proof.Machine.execVbcast d a b k z f s
  | .vmovx d a k z y => Sys2Proof.Machine.execVmovx d a k z y s
  | .vext d a b => Sys2Proof.Machine.execVext d a b s
  | .vins d a b => Sys2Proof.Machine.execVins d a b s
  | .vredsum d a b k => Sys2Proof.Machine.execVredsum d a b k s
  | .vredmax d a b k u => Sys2Proof.Machine.execVredmax d a b k u s
  | .vredmin d a b k u => Sys2Proof.Machine.execVredmin d a b k u s
  | .vfredsum d a b k => Sys2Proof.Machine.execVfredsum d a b k s
  | .vfredmax d a b k => Sys2Proof.Machine.execVfredmax d a b k s
  | .vredseq d a b k => Sys2Proof.Machine.execVredseq d a b k s
  | .vtmul d a b k z t => Sys2Proof.Machine.execVtmul d a b k z t s
  | .vtconj d a k z t v => Sys2Proof.Machine.execVtconj d a k z t v s
  | .rpt n k d a b r => Sys2Proof.Machine.execRpt n k d a b r s
  | .algld a t => Sys2Proof.Machine.execAlgld a t s
  | .phase => Sys2Proof.Machine.execPhase s
  | .fence t => Sys2Proof.Machine.execFence t s
  | .yield => Sys2Proof.Machine.execYield s
  | .join => Sys2Proof.Machine.execJoin s
  | .retire => Sys2Proof.Machine.execRetire s
  | .bar g b => Sys2Proof.Machine.execBar g b s
  | .publish p f => Sys2Proof.Machine.execPublish p f s
  | .qpush a q => Sys2Proof.Machine.execQpush a q s
  | .qpop d a q => Sys2Proof.Machine.execQpop d a q s
  | .fork d o => Sys2Proof.Machine.execFork d o s
  | .mrow r a c t z x f => Sys2Proof.Machine.execMrow r a c t z x f s
  | .mrd r a c y0 x f => Sys2Proof.Machine.execMrd r a c y0 x f s
  | .mwr r a c z x f => Sys2Proof.Machine.execMwr r a c z x f s
  | .mclr r n f => Sys2Proof.Machine.execMclr r n f s
  | .mchk r n => Sys2Proof.Machine.execMchk r n s
  | .mloc r d => Sys2Proof.Machine.execMloc r d s
  | .mfix r a => Sys2Proof.Machine.execMfix r a s
  | .wld w a b c => Sys2Proof.Machine.execWld w a b c s
  | .wldff w a b c => Sys2Proof.Machine.execWldff w a b c s
  | .wsel w => Sys2Proof.Machine.execWsel w s
  | .xcopy a b c => Sys2Proof.Machine.execXcopy a b c s
  | .xfill a b c => Sys2Proof.Machine.execXfill a b c s
  | .rcfence a o => Sys2Proof.Machine.execRcfence a o s
  | .waitlt c t => Sys2Proof.Machine.execWaitlt c t s
  | .kvcommit a b c => Sys2Proof.Machine.execKvcommit a b c s
  | .coll a c => Sys2Proof.Machine.execColl a c s
  | .ctlrd d c => Sys2Proof.Machine.execCtlrd d c s
  | .ctlwr d c => Sys2Proof.Machine.execCtlwr d c s
  | .trap c => Sys2Proof.Machine.execTrap c s
  | .brk c => Sys2Proof.Machine.execBrk c s
  | .resume => Sys2Proof.Machine.execResume s
  | .claim => Sys2Proof.Machine.execClaim s
  | .logmark d c => Sys2Proof.Machine.execLogmark d c s
  | .ctxCreate f num rec => Sys2Proof.Machine.execCtxCreate f num rec s
  | .ctxDestroy f num => Sys2Proof.Machine.execCtxDestroy f num s
  | .fnSet f g rec => Sys2Proof.Machine.execFnSet f g rec s
  | .evset f base logsz headA tailA vec => Sys2Proof.Machine.execEvset f base logsz headA tailA vec s
  | .invalS1 f num va pages => Sys2Proof.Machine.execInvalS1 f num va pages s
  | .invalS2 f vmid gpa bytes => Sys2Proof.Machine.execInvalS2 f vmid gpa bytes s
  | .s2Retry f evt => Sys2Proof.Machine.execS2Retry f evt s
  | .s2Decline f evt => Sys2Proof.Machine.execS2Decline f evt s
  | .qenable f q => Sys2Proof.Machine.execQenable f q s
  | .qdisable f q => Sys2Proof.Machine.execQdisable f q s
  | .frecRead f => Sys2Proof.Machine.execFrecRead f s
  | .laneMaskRead f => Sys2Proof.Machine.execLaneMaskRead f s
  | .laneRetest f core lg pass => Sys2Proof.Machine.execLaneRetest f core lg pass s
  | .snuff f => Sys2Proof.Machine.execSnuff f s
  | .pwrLimit f watts => Sys2Proof.Machine.execPwrLimit f watts s
  | .peerSet f g p v links peerFn => Sys2Proof.Machine.execPeerSet f g p v links peerFn s
  | .commSet f comm peers rank => Sys2Proof.Machine.execCommSet f comm peers rank s
  | .fwUpdateBegin f len => Sys2Proof.Machine.execFwUpdateBegin f len s
  | .fwUpdateData f off bytes => Sys2Proof.Machine.execFwUpdateData f off bytes s
  | .fwUpdateCommit f v => Sys2Proof.Machine.execFwUpdateCommit f v s
  | .fwUpdateAbort f => Sys2Proof.Machine.execFwUpdateAbort f s
  | .fwUpdateStatus f => Sys2Proof.Machine.execFwUpdateStatus f s
  | .queueAttempt f q => Sys2Proof.Machine.execQueueAttempt f q s
  | .nop f q => Sys2Proof.Machine.execNop f q s
  | .launch f q => Sys2Proof.Machine.execLaunch f q s
  | .admission f q => Sys2Proof.Machine.execAdmission f q s
  | .signal f q => Sys2Proof.Machine.execSignal f q s
  | .signalStore f q => Sys2Proof.Machine.execSignalStore f q s
  | .waitvalPacket f q => Sys2Proof.Machine.execWaitvalPacket f q s
  | .waitvalPacketSatisfied f q => Sys2Proof.Machine.execWaitvalPacketSatisfied f q s
  | .codefence f q => Sys2Proof.Machine.execCodefence f q s
  | .codefenceAdvance f q => Sys2Proof.Machine.execCodefenceAdvance f q s
  | .setdet f q => Sys2Proof.Machine.execSetdet f q s
  | .setdetApply f q => Sys2Proof.Machine.execSetdetApply f q s
  | .ctxsw f q => Sys2Proof.Machine.execCtxsw f q s
  | .ctxswAbort f q => Sys2Proof.Machine.execCtxswAbort f q s
  | .place core hslot => Sys2Proof.Machine.execPlace core hslot s
  | .qpopRetireChoice l stage => Sys2Proof.Machine.execQpopRetireChoice l stage s
  | .launchRetire l => Sys2Proof.Machine.execLaunchRetire l s
  | .quantumExpiry core => Sys2Proof.Machine.execQuantumExpiry core s
  | .forcedStop h => Sys2Proof.Machine.execForcedStop h s
  | .nonyield h => Sys2Proof.Machine.execNonyield h s
  | .slotSwitch core => Sys2Proof.Machine.execSlotSwitch core s
  | .spill core slot => Sys2Proof.Machine.execSpill core slot s
  | .restore core slot c => Sys2Proof.Machine.execRestore core slot c s
  | .barWaitComplete h => Sys2Proof.Machine.execBarWaitComplete h s
  | .joinComplete h => Sys2Proof.Machine.execJoinComplete h s
  | .qpopWake h => Sys2Proof.Machine.execQpopWake h s
  | .qpushWake h => Sys2Proof.Machine.execQpushWake h s
  | .waitvalWake h => Sys2Proof.Machine.execWaitvalWake h s
  | .waitltWake h => Sys2Proof.Machine.execWaitltWake h s
  | .xcopyComplete core slot n => Sys2Proof.Machine.execXcopyComplete core slot n s
  | .xfillComplete core slot n => Sys2Proof.Machine.execXfillComplete core slot n s
  | .wldComplete core slot n => Sys2Proof.Machine.execWldComplete core slot n s
  | .kvcommitComplete core slot n => Sys2Proof.Machine.execKvcommitComplete core slot n s
  | .collComplete comm parts bad => Sys2Proof.Machine.execCollComplete comm parts bad s
  | .collLinkTimeout comm => Sys2Proof.Machine.execCollLinkTimeout comm s
  | .laneSelftestDone h failed => Sys2Proof.Machine.execLaneSelftestDone h failed s
  | .columnSelftestDone h failed => Sys2Proof.Machine.execColumnSelftestDone h failed s
  | .coreRetired core => Sys2Proof.Machine.execCoreRetired core s
  | .logStall c kind => Sys2Proof.Machine.execLogStall c kind s
  | .hostMemAccess write pa n bytes => Sys2Proof.Machine.execHostMemAccess write pa n bytes s
  | .snuffN => Sys2Proof.Machine.execSnuffN s
  | .reset r => Sys2Proof.Machine.execReset r s
  | .thermalShutdown => Sys2Proof.Machine.execThermalShutdown s
  | .powerControl core cap => Sys2Proof.Machine.execPowerControl core cap s
  | .illegalOp w => Sys2Proof.Machine.execIllegalOp w s
  | .fetchFault perm => Sys2Proof.Machine.execFetchFault perm s
  | .peerRequest write pa n bytes => Sys2Proof.Machine.execPeerRequest write pa n bytes s
  | .spdmRequest f block setKeys => Sys2Proof.Machine.execSpdmRequest f block setKeys s
  | .linkTrainDown lanes rate => Sys2Proof.Machine.execLinkTrainDown lanes rate s
  | .dramScrub pa finding => Sys2Proof.Machine.execDramScrub pa finding s
  | .peerLinkDown link down => Sys2Proof.Machine.execPeerLinkDown link down s

end Sys2Proof.Machine
end

