-- ==== Sys2Proof/Machine/Cycle.lean ====
section
/-! DEFINITION. One cycle of the machine (DESIGN CHOICE, log 4): which hart issues, what it issues, what the environment's inputs do,
and what happens when the hart in focus cannot issue. -/

namespace Sys2Proof.Machine

/-! ## What a hart issues -/

/-- A change of the next state. -/
def onNext (f : State → State) (o : Out) : Out :=
  match o with
  | .next s => .next (f s)
  | .fault r => .fault r
  | .refused r => .refused r
/-- An instruction of the scalar unit's stream, and the turn of a serial re-run before and after it (R300). -/
def runInstr (i : Instr) (s : State) : Out := onNext (passTurn s.hart i) (exec i (holdTurn s))
/-- A cause that comes before POISON of a source, since the instruction is none here (R258). -/
def illegalFirst (s : State) (i : Instr) : Bool :=
  (s.hart.frozen && (queued i).isSome) || queuedAbsent s i ||
    (match i with
     | .kvcommit _ _ _ => absent s 6
     | .logmark _ _ => absent s 4
     | .coll _ _ => absent s 7
     | .ctlwr _ c => ctlAbsent s c.toNat || (ctlWrite c.toNat 0).isNone ||
         (s.hart.frozen && (c.toNat == 0x001 || c.toNat == 0x010 || c.toNat == 0x004))
     | .qpush _ q => ((s.launch s.hart.launch).stage s.hart.stage).outq != some q.toNat
     | .qpop _ _ q => ((s.launch s.hart.launch).stage s.hart.stage).inq != some q.toNat
     | _ => false)
/-- An instruction reads a poisoned scalar register: POISON is raised precisely at it (R257, R265). -/
def poisonedSource (s : State) (i : Instr) : Bool := (issueReads s.hart i).any s.hart.spBad && !(illegalFirst s i)
/-- What comes before POISON of a register whose value is data, and not the access's place (R258). -/
def beforeData : Cause → Bool
  | .align => true | .page => true | .perm => true | .format => true | .walkAbort => true | _ => false
/-- The checks at dispatch, which come before it too. -/
def dispatchCause : Cause → Bool
  | .illegalOp => true | .illegalReg => true | .tupleLen => true | .algtab => true | .matrixType => true | _ => false
/-- The meaning of an instruction that takes data from a scalar register, and the register that gives its place. -/
def dataTaken : Instr → Option (BitVec 6 × M Unit)
  | .st d a o z => some (a, stM d a o z)
  | .sts d a _ r z => some (a, stsM d a r z)
  | .amo _ d a b o w q r => some (a, amoM d a b o w q r)
  | .waitval d a _ q w c => some (a, waitvalM d a q w c)
  | .xfill a b c => some (a, xfillM a b c)
  | _ => none
/-- An instruction with a poisoned source stops by a cause that comes first: in its place, or at its dispatch (R258). -/
def stopsFirst (s : State) (i : Instr) : Bool :=
  match dataTaken i with
  | some (a, m) =>
    !(s.hart.spBad a) &&
      (match m s with
       | .error (.trap c _ _) _ => beforeData c
       | .error (.park (.mig _)) _ => true
       | .error (.park (.stage2 _)) _ => true
       | .error (.park (.ring _)) _ => true
       | _ => false)
  | none =>
    match queued i with
    | none => false
    | some m =>
      let c := capOf i s.hart
      match m ⟨s.hart.pc, c.1, c.2, []⟩ (s.withHart { s.hart.prog with queue := [], sets := [] }) with
      | .error (.trap e _ _) _ => dispatchCause e
      | _ => false
/-- An instruction with a poisoned source: POISON, unless it stops by a cause that comes first, which at dispatch is found once
older entries have left the queue. -/
def runPoisoned (i : Instr) (s : State) : Out :=
  if !(stopsFirst s i) then .next (takeTrap s s.hart.id .poison .read poisonScalar s.hart.pc s.hart.pc)
  else if (queued i).isSome && !s.hart.queue.isEmpty then .next (s.withHart { s.hart with run := .waiting })
  else runInstr i s
/-- A word that has been fetched. -/
def runWord (w : BitVec 32) (s : State) : Out :=
  match decode w with
  | .ok i => if poisonedSource s i then runPoisoned i s else runInstr i s
  | .error _ => exec (.illegalOp w) s
/-- The scalar unit fetches at the PC of the focus hart and issues (R244). -/
def issueScalar (s : State) : Out :=
  match fetchM s.hart.id s.hart.pc s with
  | .ok w s1 => runWord w s1
  | .error (.trap .page _ _) s1 => exec (.fetchFault false) s1
  | .error (.trap .perm _ _) s1 => exec (.fetchFault true) s1
  | .error (.trap c k v) s1 => .next (takeTrap s1 s1.hart.id c k v s1.hart.pc s1.hart.pc)
  | .error (.park p) s1 => .next (awaits s (.parked p) s1)
  | .error .wait s1 => .next (awaits s .waiting s1)
/-- The oldest entry of the vector queue runs; a VAMO's end passes the turn of a serial re-run (R300). -/
def queueStep (s : State) : State :=
  match s.hart.queue.head?.bind (fun e => wordInstr e.word) with
  | some i => passTurn s.hart i (runQueue s)
  | none => runQueue s
/-- The focus hart issues: a trap that its save area has held up (R260), a start's acquire that is still due, then the oldest
entry of its vector queue, then the next instruction. -/
def issue (s : State) : Out :=
  match s.hart.pend with
  | some p => .next (takeTrap s s.hart.id p.cause p.kind p.val p.pos p.spc)
  | none =>
    if s.hart.relStage = 3 then .next (startHart s.hart.id s)
    else if s.hart.queue ≠ [] && !s.hart.frozen then .next (queueStep s)
    else issueScalar s

/-! ## The scalar unit ahead of the vector queue (R60) -/

/-- The instructions of a queue entry: its own, and those its frame has captured. -/
def entryInstrs (e : QEntry) : List Instr := (wordInstr e.word).toList ++ e.frame.filterMap wordInstr
/-- Scalar registers a queued entry has yet to read: of a repeat frame every one its instructions name (R64, R65). -/
def entryReads (e : QEntry) : List (BitVec 6) :=
  ((wordInstr e.word).map readsLate).getD [] ++ (e.frame.filterMap wordInstr).flatMap (fun i => readsNow i ++ readsLate i)
/-- A scalar instruction that accesses memory. -/
def accessesMemory : Instr → Bool
  | .ld _ _ _ _ => true
  | .st _ _ _ _ => true
  | .lds _ _ _ _ _ => true
  | .sts _ _ _ _ _ => true
  | .amo _ _ _ _ _ _ _ _ => true
  | .waitval _ _ _ _ _ _ => true
  | .qpush _ _ => true
  | .qpop _ _ _ => true
  | .xcopy _ _ _ => true
  | .xfill _ _ _ => true
  | .kvcommit _ _ _ => true
  | .coll _ _ => true
  | _ => false
/-- A queued entry holds instruction `j` of the scalar unit (R60): `j` reads a register the entry writes; it writes one the
entry writes or has yet to read, or a frame to be fetched again may; a FENCE of type VS, XS or ALL is queued (R226); or
the acquire of a queued VAMO comes before `j`'s access (R225) (DEDUCED, log 27). -/
def entryHolds (h : Hart) (j : Instr) (e : QEntry) : Bool :=
  let dests := (entryInstrs e).filterMap queueDest
  let writes := issueWrites h j
  dests.any (fun r => r != 0 && (issueReads h j ++ writes).contains r) || (entryReads e).any (fun r => r != 0 && writes.contains r) ||
    (uncaptured e && writes != []) ||
    (match wordInstr e.word with
     | some (.fence t) => t == 1 || t == 4 || t == 6
     | some (.vamo _ _ _ _ _ _ q _) => q == 1 && accessesMemory j
     | _ => false)
/-- In a serial re-run a hart that has reached a VAMO issues nothing before it has taken effect (R300). -/
def serialHeld (s : State) : Bool :=
  (s.launch s.hart.launch).rerun != 0 &&
    s.hart.queue.any (fun e => match wordInstr e.word with | some (.vamo _ _ _ _ _ _ _ _) => true | _ => false)
/-- The next word may issue ahead of the queue of the focus hart. -/
def aheadSafe (w : BitVec 32) (s : State) : Bool :=
  match wordInstr w with
  | some j => !(s.hart.queue.any (entryHolds s.hart j)) && !(serialHeld s)
  | none => !(serialHeld s)
/-- The focus hart's scalar unit runs ahead; where it may not, the queue goes on. -/
def issueAhead (s : State) : Out :=
  match fetchM s.hart.id s.hart.pc s with
  | .ok w s1 =>
    if s1.hart.relStage ≠ 3 && s1.hart.pend.isNone && aheadSafe w s1 then
      onNext (fun t => { t with ahead := false }) (runWord w { s1.withHart { s1.hart with run := .running } with ahead := true })
    else issue s
  | .error _ _ => issue s

/-! ## Who may issue (R24, R300) -/

/-- The harts of a launch that could issue now. -/
def mates (s : State) (l : Nat) : List Hart :=
  s.liveHarts.filter (fun h => h.launch == l && h.runnable && (s.core h.core).active == h.slotId % 2)
/-- The least key of some harts. -/
def leastKey : List Hart → Option (Nat × Nat × Nat)
  | [] => none
  | h :: t =>
    match leastKey t with
    | none => some h.key
    | some k => some (if keyLe h.key k then h.key else k)
/-- In a serial re-run one hart issues: the next in key order from the turn, wrapping to the lowest. -/
def turnOf (s : State) (l : Nat) : Option (Nat × Nat × Nat) :=
  let ms := mates s l
  match leastKey (ms.filter (fun h => keyLe (s.launch l).turn h.key)) with
  | some k => some k
  | none => leastKey ms
/-- A hart may issue: its slot is active, it has not yielded, and it has its turn. -/
def mayIssue (s : State) (h : Hart) : Bool :=
  h.runnable && (s.core h.core).active == h.slotId % 2 &&
    ((s.launch h.launch).rerun == 0 || turnOf s h.launch == some h.key)

/-- A hart waits at its instruction: for a resource, on the log, or for space in the hypervisor's ring. -/
def Hart.stuck (h : Hart) : Bool :=
  match h.run with
  | .waiting => true
  | .parked (.log _ _) => true
  | .parked (.ring _) => true
  | _ => false
/-- Such a hart may try again: where it could issue, or where it has parked (R47, R252, R306), its slot active. -/
def mayRetry (s : State) (h : Hart) : Bool :=
  h.stuck && (mayIssue s h ||
    (h.live && !h.ended && !h.runnable && (s.launch h.launch).rerun == 0 && (s.core h.core).active == h.slotId % 2))
/-- A wait on the log that goes on keeps the cycle in which it began (R305). -/
def keepSince (old new : Run) : Run :=
  match old, new with
  | .parked (.log k t), .parked (.log k2 t2) => if k = k2 then .parked (.log k t) else .parked (.log k2 t2)
  | _, r => r
/-- A waiting hart tries again: none where it has to wait as before; where it has come a part of the way, it waits there. -/
def retry (s : State) (id : Nat) : Option State :=
  let s1 := s.focusOn id
  match issue (s1.withHart { s1.hart with run := .running }) with
  | .next t =>
    if t.hart.id = id && t.hart.stuck then
      let h := { t.hart with run := keepSince s1.hart.run t.hart.run }
      if h = s1.hart then none else some (t.withHart h)
    else some t
  | _ => none
/-- The same attempt, for a hart that goes on waiting: what it leaves. -/
def waitOn (s : State) : State :=
  match issue (s.withHart { s.hart with run := .running }) with
  | .next t => if t.hart.id = s.hart.id then t.withHart { t.hart with run := keepSince s.hart.run t.hart.run } else t
  | _ => s

/-! ## The device's own steps, in a fixed order (DESIGN CHOICE, log 4) -/

/-- The step in which a parked hart wakes. -/
def wakeEvent (h : Hart) : List Instr :=
  match h.run with
  | .parked (.qpop _) => [.qpopWake h.id]
  | .parked (.qpush _) => [.qpushWake h.id]
  | .parked (.waitval _ _ _) => [.waitvalWake h.id]
  | .parked (.waitlt _ _) => [.waitltWake h.id]
  | .parked (.bar _ _) => [.barWaitComplete h.id]
  | .parked .join => [.joinComplete h.id]
  | _ => []
/-- The step in which an operation completes. -/
def opEvent (slot : Nat) (o : EngOp) : List Instr :=
  if o.done then []
  else match o.kind with
    | .xcopy => [.xcopyComplete (slot / 2) (slot % 2) o.n]
    | .xfill => [.xfillComplete (slot / 2) (slot % 2) o.n]
    | .kvcommit => [.kvcommitComplete (slot / 2) (slot % 2) o.n]
    | .wld => [.wldComplete (slot / 2) (slot % 2) o.n]
/-- The steps of a host queue (DEDUCED, log 57). -/
def queueEvent (f q : Nat) (x : HostQueue) : List Instr :=
  match x.st, x.packet with
  | .idle, _ => [.queueAttempt f q]
  | .fetch, _ => [.queueAttempt f q]
  | .wait, some p =>
    match p.ptype with
    | 0 => [.nop f q]
    | 1 => [.launch f q, .admission f q]
    | 2 => [.signal f q, .signalStore f q]
    | 3 => [.waitvalPacket f q, .waitvalPacketSatisfied f q]
    | 4 => [.codefence f q, .codefenceAdvance f q]
    | 5 => [.setdet f q, .setdetApply f q]
    | _ => [.ctxsw f q]
  | _, _ => []
/-- Placements that are possible now. -/
def placeEvents (s : State) : List Instr :=
  (candidates s).filterMap (fun x =>
    (chooseSpot s (s.launch x.1) x.2.1 x.2.2 none).map (fun p => .place p.core p.hslot))
/-- Launches whose fed stages may lose a hart, and launches that may retire. -/
def launchEvents (s : State) : List Instr :=
  s.launches.flatMap (fun p => .launchRetire p.1 :: (List.range p.2.stages.length).map (.qpopRetireChoice p.1))
/-- A slot switch and the end of a quantum, where the other slot's demand is the higher. -/
def switchEvents (s : State) (c : Nat) : List Instr :=
  let act := demand s (c * 2 + (s.core c).active)
  let oth := demand s (c * 2 + (1 - (s.core c).active))
  if 0 < oth && act ≤ oth then [.slotSwitch c, .quantumExpiry c] else []
/-- The restores of what is spilled of a core. -/
def restoreEvents (s : State) (c : Nat) : List Instr :=
  (s.spills.filter (fun p => p.1 % 512 == c)).flatMap (fun p => [.restore c 0 (p.1 / 512), .restore c 1 (p.1 / 512)])
/-- The scheduler's steps on the cores where a context is resident. -/
def coreEvents (s : State) : List Instr :=
  let cs := ((s.slots.map (fun (p : Nat × Slot) => p.1 / 2)) ++ s.spills.map (fun (p : Nat × Spill) => p.1 % 512)).eraseDups
  cs.flatMap (fun (c : Nat) => switchEvents s c ++ [Instr.spill c 0, Instr.spill c 1, Instr.coreRetired c] ++ restoreEvents s c)
/-- Every step of the device that may be due. -/
def dueEvents (s : State) : List Instr :=
  let hs := s.liveHarts
  hs.flatMap wakeEvent ++ s.slots.flatMap (fun p => p.2.ops.flatMap (opEvent p.1)) ++
    s.fns.flatMap (fun f => f.2.queues.flatMap (fun q => queueEvent f.1 q.1 q.2)) ++ placeEvents s ++ launchEvents s ++
    hs.flatMap (fun h => [.forcedStop h.id, .nonyield h.id]) ++ coreEvents s ++
    s.ctxs.flatMap (fun c => [.logStall c.1 0, .logStall c.1 1, .logStall c.1 2])
/-- The first of some steps that changes anything. -/
def firstChange (s : State) : List Instr → Option State
  | [] => none
  | e :: t =>
    match exec e s with
    | .next s1 => if s1 = s then firstChange s t else some s1
    | _ => firstChange s t
/-- Other harts, from the one after the focus round. -/
def otherHarts (s : State) : List Hart :=
  let hs := (s.harts.map (·.2)).filter (·.live)
  hs.filter (fun h => decide (s.hart.id < h.id)) ++ hs.filter (fun h => decide (h.id < s.hart.id))
/-- The vector queue of a hart can go on (R47, R60): the hart has not stopped, and no trap of it is held up. -/
def queueOpen (s : State) (h : Hart) : Bool :=
  let may := match h.run with
    | .running => true
    | .waiting => true
    | .parked (.qpop _) => true
    | .parked (.qpush _) => true
    | .parked (.waitval _ _ _) => true
    | .parked (.waitlt _ _) => true
    | .parked (.bar _ _) => true
    | .parked .join => true
    | _ => false
  h.live && may && !h.queue.isEmpty && !h.frozen && h.pend.isNone && h.relStage != 3 &&
    (s.core h.core).active == h.slotId % 2 && (!h.runnable || mayIssue s h)
/-- It goes on by `f`; nothing happens where its oldest entry has to wait. -/
def queueBy (f : State → State) (s : State) (h : Hart) : Option State :=
  if queueOpen s h then
    let t := f (s.focusOn h.id)
    if (t.hartOf h.id).run = .waiting && (t.hartOf h.id).queue.length = h.queue.length then none
    else some t
  else none
/-- The vector queue of a parked hart goes on. -/
def parkedQueue (s : State) (h : Hart) : Option State := if h.runnable then none else queueBy queueStep s h

/-! ## A cycle without an input -/

/-- PEER_DOWN that is still to be sent (R331). -/
def peerDue (s : State) : Option State :=
  s.fns.findSome? (fun f => (f.2.peers.find? (fun p => p.2.due && !p.2.reported)).map (fun p => peerTell f.1 p.1 s))
/-- An INVAL_S1 that waits can complete (R249). -/
def invalDue (s : State) : Option State := s.fns.findSome? (fun f => invalDone f.1 s)
/-- Records that no hart will come to are consumed at REPLAY (R307). -/
def sweepDue (s : State) : Option State :=
  s.ctxs.findSome? (fun c =>
    if c.2.level = .replay && (c.2.ghosts != [] || c.2.skips != []) then
      let t := logSweep c.1 s
      if t = s then none else some t
    else none)
/-- Another hart issues. -/
def otherIssue (s : State) : Option State :=
  match (otherHarts s).find? (fun h => mayIssue s h && !h.stuck) with
  | some h =>
    match issue (s.focusOn h.id) with
    | .next t => some t
    | _ => none
  | none => none
/-- In a serial re-run a hart parked for space in the hypervisor's ring, or at a LOGMARK in the log's, wakes and awaits its turn
(R252, R300, R383). -/
def ringWake (s : State) : Option State :=
  let parked (h : Hart) : Bool := match h.run with
    | .parked (.ring _) => true
    | .parked (.log 3 _) => true
    | _ => false
  (s.liveHarts.find? (fun h => (s.launch h.launch).rerun != 0 && wakeReady s h && parked h)).map
    (fun h => s.setHart { h with run := .running })
/-- A hart that waits tries again. -/
def otherRetry (s : State) : Option State :=
  ((s.liveHarts.filter (mayRetry s)).findSome? (fun h => retry s h.id)).orElse (fun _ => ringWake s)
/-- The vector queue of some parked hart goes on. -/
def otherQueue (s : State) : Option State := s.liveHarts.findSome? (parkedQueue s)
/-- The device takes a step that is due: the first of its list, begun `n` places on. -/
def deviceStep (n : Nat) (s : State) : Option State :=
  match ((peerDue s).orElse (fun _ => invalDue s)).orElse (fun _ => sweepDue s) with
  | some t => some t
  | none =>
    let es := dueEvents s
    firstChange s (es.drop (n % (es.length + 1)) ++ es)
/-- The focus hart cannot issue: another hart issues, or the device takes a step that is due; else nothing happens. -/
def otherwise (s : State) : State :=
  ((((otherIssue s).orElse (fun _ => otherRetry s)).orElse (fun _ => otherQueue s)).orElse (fun _ => deviceStep 0 s)).getD s
/-- What comes first when the focus hart has issued for 8 cycles: the device's steps, other harts, waiting harts and parked
queues in turn, so that none of them is held off for ever (R48). -/
def fairStep (s : State) : Option State :=
  match s.fair % 4 with
  | 0 => deviceStep (s.fair / 4) s
  | 1 => otherIssue s
  | 2 => otherRetry s
  | _ => otherQueue s
/-- The focus hart gives way after so many cycles (DESIGN CHOICE, log 4). -/
def beatMax : Nat := 7

/-- A cycle in which the focus hart goes first. -/
def focusCycle (s : State) : Out :=
  if mayIssue s s.hart then
    if s.hart.stuck then
      match retry s s.hart.id with
      | some t => .next t
      | none => .next (otherwise (waitOn s))
    else onNext (fun t => { t with beat := s.beat + 1 }) (issue s)
  else .next (otherwise s)
/-- In a serial re-run the harts that can be placed or unparked are, before any of its harts issues: whose turn comes does
not hang on when that happens (R299, R300). -/
def serialFirst (s : State) : Option State :=
  if s.launches.all (fun p => p.2.rerun == 0) then none
  else
    let hs := s.liveHarts.filter (fun h => (s.launch h.launch).rerun != 0)
    firstChange s ((placeEvents s) ++ hs.flatMap wakeEvent)
/-- A cycle without an input. -/
def ordinaryCycle (s : State) : Out :=
  match serialFirst s with
  | some t => .next t
  | none =>
    if s.beat < beatMax then focusCycle s
    else
      let s1 := { s with beat := 0, fair := s.fair + 1 }
      match fairStep s1 with
      | some t => .next t
      | none => focusCycle s1

/-! ## Inputs (DESIGN CHOICE, log 4) -/

/-- The pending stores of a hart to a 64-byte sector reach home early (R219); never at RECORD and REPLAY (R302), nor those to a
peer (R331) (DESIGN CHOICE, log 66). -/
def evictStore (h a : Nat) (s : State) : State :=
  let x := s.hartOf h
  let here (p : Nat) : Bool := p / 64 == a / 64
  if !x.live || paPeer a || (s.ctx (ctxOf s x)).strict || !(x.sbuf.any (fun p => here p.a)) then s
  else takeHome h x.stores here (kinHome x.kin here s)
/-- A soft error in an accumulator column (R188, R192). -/
def flipColumn (core slot row col : Nat) (bits : BitVec 32) (s : State) : State :=
  let i := core * 2 + slot
  let sl := s.slot i
  let r := mapGet AccRow.initial sl.acc row
  if r.ty = 0 || 1023 < row || 127 < col then s
  else s.setSlot i { sl with acc := mapPut AccRow.initial sl.acc row { r with cols := r.cols ^^^ (bits.zeroExtend 4096 <<< (32 * col)) } }
/-- A copy of `n` bytes at a line address as it stands at home, of a context and at its current cut. -/
def homeLine (s : State) (c a n : Nat) : CLine := ⟨c, a, s.peekBytes a n, (s.ctx c).cut, 0⟩
/-- An address of host memory. -/
def paHost (a : Nat) : Bool := !(paDevice a) && !(paPeer a)
/-- Host lines of 64 bytes that the caches and the queue processor hold (R327). -/
def hostLines (s : State) : List Nat :=
  let of (n : Nat) (l : CLine) : List Nat := if paHost l.a then (List.range (n / 64)).map (fun i => lowAddr l.a / 64 + i) else []
  (s.cores.flatMap (fun k => k.2.l1.flatMap (of 64) ++ k.2.icache.flatMap (of 64)) ++
    s.rdc.flatMap (fun r => r.2.flatMap (of 256)) ++
    s.fns.flatMap (fun f => f.2.queues.flatMap (fun q =>
      if q.2.st = .disabled then [] else (heldSectors s f.1 q.2 (q.2.seen.getD [])).filter (fun g => paHost (g * 64))))).eraseDups
/-- One more line would be too many. -/
def hostFull (s : State) (a n : Nat) : Bool :=
  paHost a && decide (Config.hostLineMax < (hostLines s ++ (List.range (n / 64)).map (fun i => lowAddr a / 64 + i)).eraseDups.length)
/-- A line is filled into an L1, which an RDC's copy may serve, an RDC, which holds only what another die is home to, or an
instruction cache (R8, R10, R16, R221, R290, R327): of the context's own function, and never from poisoned memory. -/
def fillLine (level core c a : Nat) (s : State) : State :=
  let n := if level = 1 then 256 else 64
  let b := a / n * n
  let die := core / 128
  let away := !(paDevice b) || homeDie b != die
  let bad := (List.range n).any (fun i => paBad s (b + i))
  if !(s.ctx c).live || fnAddr b != c / 64 || bad || Config.cores ≤ core || hostFull s b n then s
  else
    let old (l : CLine) : Bool := !(l.ctx == c && l.a == b)
    let k := s.core core
    match level with
    | 0 =>
      let l := match (mapGet [] s.rdc die).find? (fun e => e.ctx == c && e.a == b / 256 * 256) with
        | some e => ⟨c, b, (e.bytes.drop (b % 256)).take 64, e.cut, if e.poisoned b then 1 else 0⟩
        | none => homeLine s c b 64
      s.setCore core { k with l1 := (l :: k.l1.filter old).take 2048 }
    | 1 =>
      if away then { s with rdc := mapPut [] s.rdc die ((homeLine s c b 256 :: (mapGet [] s.rdc die).filter old).take 262144) } else s
    | _ => s.setCore core { k with icache := (homeLine s c b 64 :: k.icache.filter old).take 1024 }
/-- And leaves it. -/
def unfillLine (level core c a : Nat) (s : State) : State :=
  let keep (n : Nat) (l : CLine) : Bool := !(l.ctx == c && l.a == a / n * n)
  let k := s.core core
  match level with
  | 0 => s.setCore core { k with l1 := k.l1.filter (keep 64) }
  | 1 => { s with rdc := mapPut [] s.rdc (core / 128) ((mapGet [] s.rdc (core / 128)).filter (keep 256)) }
  | _ => s.setCore core { k with icache := k.icache.filter (keep 64) }
/-- A peer stores a byte in its own memory behind a window of function `f` (R331). -/
def peerWrites (f a : Nat) (b : Byte) (s : State) : State :=
  let l := lineAddr f (a % 2 ^ 52)
  if paPeer l then { s.poke l b with ctxs := keepUndo s none 0 none l s.ctxs } else s
/-- A step that is not a hart's own issue (R24). -/
def isEvent (e : Instr) : Bool :=
  !e.hasWord && (match e with | .illegalOp _ => false | .fetchFault _ => false | _ => true)
/-- What an input does. An event is none of the instructions that harts issue. -/
def takeInput (i : Input) (s : State) : Out :=
  match i with
  | .event e => if isEvent e then exec e s else .next s
  | .ahead =>
    if mayIssue s s.hart && (!s.hart.stuck || (s.hart.run = .waiting && !s.hart.queue.isEmpty && !s.hart.frozen)) then issueAhead s
    else ordinaryCycle s
  | .focus h => .next (s.focusOn h)
  | .queue h => .next ((parkedQueue s (s.hartOf h)).getD s)
  | .evict h a => .next (evictStore h a s)
  | .writeback line => .next (writeBack (fun a => a / 256 == line) s)
  | .mismatch lg lane el => .next { s with mismatch := s.mismatch ++ [(lg, lane, el)] }
  | .convoy h plan => .next ((queueBy (runConvoy plan) s (s.hartOf h)).getD s)
  | .part h n p => .next ((queueBy (runPart n p) s (s.hartOf h)).getD s)
  | .engineUnit core slot n => .next (engineUnit core slot n s)
  | .fill level core c a => .next (fillLine level core c a s)
  | .unfill level core c a => .next (unfillLine level core c a s)
  | .peerStore f a b => .next (peerWrites f a b s)
  | .softError core slot row col bits => .next (flipColumn core slot row col bits s)
  | .uncorrectable x => .next (uncorrectableAt x s)
  | .corrected core unit pa told => .next (correctedAt core unit pa told s)
  | .chainRead f off n => .next (chainRead f off n s)
  | .dvsecRead f => .next (dvsecRead f s)
  | .configRead f off n => .next (configRead f off n s)
  | .cdatRead f => .next (cdatRead f s)
  | .recordRead => .next (frecBus s)
  | .clock c n => .next { s with cycle := s.cycle + c, time := s.time + n }
/-- In the freeze only configuration reads are answered, and only a reset does anything else (R321). -/
def frozenInput (i : Input) (s : State) : Out :=
  match i with
  | .event (.reset r) => exec (.reset r) s
  | .dvsecRead f => .next (dvsecRead f s)
  | .configRead f off n => .next (configRead f off n s)
  | _ => .next s
/-- The events of the pilot-light state (R337): mailbox commands, which refuse themselves, a reset, and what happens outside
the compute dies and the memory sites. -/
def darkEvent : Instr → Bool
  | .ctxCreate _ _ _ => true
  | .ctxDestroy _ _ => true
  | .fnSet _ _ _ => true
  | .evset _ _ _ _ _ _ => true
  | .invalS1 _ _ _ _ => true
  | .invalS2 _ _ _ _ => true
  | .s2Retry _ _ => true
  | .s2Decline _ _ => true
  | .qenable _ _ => true
  | .qdisable _ _ => true
  | .frecRead _ => true
  | .laneMaskRead _ => true
  | .laneRetest _ _ _ _ => true
  | .snuff _ => true
  | .pwrLimit _ _ => true
  | .peerSet _ _ _ _ _ _ => true
  | .commSet _ _ _ _ => true
  | .fwUpdateBegin _ _ => true
  | .fwUpdateData _ _ _ => true
  | .fwUpdateCommit _ _ => true
  | .fwUpdateAbort _ => true
  | .fwUpdateStatus _ => true
  | .reset _ => true
  | .snuffN => true
  | .thermalShutdown => true
  | .linkTrainDown _ _ => true
  | .peerLinkDown _ _ => true
  | _ => false
/-- In the pilot-light state the management controller answers commands, configuration reads and the board, and no other unit
runs (R337). -/
def darkInput (i : Input) (s : State) : Out :=
  match i with
  | .event e => if darkEvent e then exec e s else .next s
  | .clock c n => .next { s with cycle := s.cycle + c, time := s.time + n }
  | .chainRead f off n => .next (chainRead f off n s)
  | .dvsecRead f => .next (dvsecRead f s)
  | .configRead f off n => .next (configRead f off n s)
  | .recordRead => .next (frecBus s)
  | _ => .next s

/-- One step of the machine: an input where there is one, else an ordinary cycle (DESIGN CHOICE, log 4). -/
def cycle (s : State) : Out :=
  match s.inputs with
  | i :: t =>
    let s1 := { s with inputs := t }
    if s.frozen then frozenInput i s1 else if s.pilot.isSome then darkInput i s1 else takeInput i s1
  | [] =>
    if s.frozen then .fault .frozen else if s.pilot.isSome then .next s else ordinaryCycle s

/-! ## A program placed from outside (DESIGN CHOICE, log 13) -/

/-- The hart in focus can fetch where it stands and issue there at once. -/
def fetchPlace (s : State) : Option Nat :=
  if mayIssue s s.hart && !s.hart.stuck && s.hart.relStage != 3 && (s.hart.queue == [] || s.hart.frozen) &&
      s.hart.pend.isNone && s.hart.sp == 0 && !s.frozen && s.pilot.isNone && (serialFirst s).isNone then
    match locateN s.hart.id s.hart.pc.toNat 4 .exec false s with
    | .ok (ls, _) _ =>
      match ls with
      | .phys pa :: _ => if s.hart.pc.toNat % 4 = 0 then some pa else none
      | _ => none
    | .error _ _ => none
  else none
/-- The context of a program that the model's user places itself: one 64 KiB page of code at VA 0x10000 (PA 0x100000), one
of save area at 0x20000. -/
def bootCtx : Ctx :=
  { Ctx.initial with
    live := true
    recA := 0x30000
    root := 0x40000
    save := 0x20000
    scrbase := 0x40000000
    trapbase := 0x18000
    mtol := Vector.ofFn (fun (i : Fin 4) => Config.mtolDefault.getD i.val 0)
    coreset := BitVec.allOnes 512 }
/-- Its launch of one counted stage with one hart of shape 1. -/
def bootLaunch : Launch := { Launch.initial with stages := [⟨0x10000, 1, 1, none, none, 1, [], false⟩] }
def bootHart : Hart :=
  { Hart.initial with
    live := true
    nharts := 1
    lgown := 1
    pc := 0x10000
    mtol := bootCtx.mtol }
/-- Its page tables: a root, a middle and a last table, two leaves. -/
def bootTables (s : State) : State :=
  let put (s : State) (a x : Nat) : State :=
    (withAddr a (leBytes 8 x)).foldl (fun s p => s.poke p.1 p.2) s
  put (put (put (put s 0x40000 0x50001) 0x50000 0x60001) 0x60008 0x10003F) 0x60010 0x110037
/-- The machine with that context, launch and hart, and nothing else under way. -/
def bootState (s : State) : State :=
  bootTables { s with
    hart := bootHart
    harts := []
    slots := [(0, { Slot.initial with holder := some 0 })]
    spills := []
    cores := mapErase 0 s.cores
    ctxs := [(0, bootCtx)]
    fns := []
    launches := [(0, bootLaunch)]
    poison := []
    colls := []
    frozen := false
    pilot := none }
/-- A word stored at a physical address. -/
def pokeWord (pa w : Nat) (s : State) : State := (withAddr pa (leBytes 4 w)).foldl (fun s p => s.poke p.1 p.2) s
/-- A word stored where the next step fetches: no instruction cache holds another there (DESIGN CHOICE, log 13). -/
def placeWord (w : Nat) (s : State) : State :=
  let k := s.core s.hart.core
  let s1 := { s with inputs := [], ahead := false, mismatch := [], beat := 0 }
  match fetchPlace s1 with
  | some pa => pokeWord pa w (if k.icache = [] then s1 else s1.setCore s.hart.core { k with icache := [] })
  | none => pokeWord 0x100000 w (bootState s1)

end Sys2Proof.Machine
end

