-- ==== Sys2Proof/Machine/Step.lean ====
section
/-! DEFINITION. The step, and a word placed where it fetches next. -/

namespace Sys2Proof.Machine

/-- One step of the machine. -/
def step (s : State) : Host.Outcome State Fault Refusal := cycle s

/-- `s` with an instruction word stored where `step` fetches next (DESIGN CHOICE, log 13): every instruction is one 32-bit word (R70). -/
def State.withFetchWord (s : State) (nbits w : Nat) : State := placeWord (w % 2 ^ nbits % 2 ^ 32) s

end Sys2Proof.Machine
end

