-- ==== Sys2Proof/Safety.lean ====
section
/-! DEFINITION. The terms in which statements about the machine are made: that an instruction completes, what it may
change, and when an access or the vector unit is unhindered. -/

namespace Sys2Proof.Machine

/-- The instruction completes from `s`, in a next state of which `P` holds. -/
def Completes (i : Instr) (s : State) (P : State → Prop) : Prop := ∃ t, exec i s = .next t ∧ P t

/-- The machine's byte maps are in canonical form: memory, and what the homes' L2 holds dirty (log 3). -/
def Canonical (s : State) : Prop := Memory.wf s.mem = true ∧ mapWf none s.l2 = true

/-! ## What an instruction may change -/

/-- From `s` to `t` scalar register `d` receives `x` (a write to s0 is discarded, R50) and is no longer poisoned (R257), the
hart goes on to the next instruction, and nothing else changes: no other register, no control register, no byte of
memory. -/
def WritesScalar (s t : State) (d : BitVec 6) (x : Word) : Prop :=
  t.hart.rs d = (if d = 0 then 0 else x) ∧ (∀ r, r ≠ d → t.hart.rs r = s.hart.rs r) ∧
    (∀ r, t.hart.spBad r = (r != d && s.hart.spBad r)) ∧
    t = s.withHart { s.hart with s := t.hart.s, sp := t.hart.sp, pc := s.hart.pc + 4 }

/-- The same, with the flags `fl` raised in FFLAGS (R136). -/
def WritesScalarFlags (s t : State) (d : BitVec 6) (x : Word) (fl : Flags) : Prop :=
  WritesScalar (s.withHart { s.hart with fflags := s.hart.fflags ||| fl }) t d x

/-- The hart goes on at `pc`, and nothing else changes. -/
def GoesTo (s t : State) (pc : Word) : Prop := t = s.withHart { s.hart with pc := pc }

/-! ## Who issues -/

/-- The focus hart issues its next instruction in this step: no input comes first, the part runs, the hart does not give way
in this cycle (R48), and it is running, has its turn, owes no acquire and no trap and has nothing older in its vector
queue; and no hart of a serial re-run is to be placed or unparked first (R300). -/
def IssuesNext (s : State) : Prop :=
  s.inputs = [] ∧ s.frozen = false ∧ s.pilot = none ∧ s.beat < beatMax ∧ mayIssue s s.hart = true ∧ s.hart.stuck = false ∧
    s.hart.pend = none ∧ s.hart.relStage ≠ 3 ∧ (s.hart.queue = [] ∨ s.hart.frozen = true) ∧ serialFirst s = none

/-! ## Unhindered accesses -/

/-- The cached leaf of an address, found through the cached entries of the tables above it (R249). -/
def cachedLeaf (tlb : List TlbEntry) (va : Nat) : List Nat → Option TlbEntry
  | [] => none
  | lvl :: ls =>
    match tlbFind tlb lvl va with
    | none => none
    | some e => if pteTable e.pte then cachedLeaf tlb va ls else some e

/-- The focus hart's access of a kind to `va` meets a cached translation to `pa` (R240, R243, R249): the address is
canonical, outside the scratch aperture and every publish window, the page is not migrating, grants the access and
already has its accessed (and for a write its dirty) bit, and the hart's function has no second stage. -/
def Mapped (s : State) (va : Nat) (k : Kind) (pa : Nat) : Prop :=
  let c := ctxOf s s.hart
  canonical va = true ∧ scratchOff (s.ctx c) va = none ∧ windowOf (s.ctx c) va = none ∧ c / 64 = 0 ∧
    ∃ e, cachedLeaf (s.ctx c).tlb va [0, 1, 2] = some e ∧ pteMig e.pte = false ∧
      (k = .read → pteR e.pte = true) ∧ (k = .write → pteW e.pte = true) ∧ (k = .exec → pteX e.pte = true) ∧
      e.pte ||| 16 ||| (if k = .write then 32 else 0) = e.pte ∧ pa = leafPa e.pte e.lvl va

/-- The `n` bytes of physical memory from `pa` on, as places. -/
def places (pa n : Nat) : List Loc := (List.range n).map (fun i => .phys (pa + i))

/-- The `n` bytes of scratch from offset `o` on, as places. -/
def scratchPlaces (o n : Nat) : List Loc := (List.range n).map (fun i => .scr (o + i))

/-- Physical memory from `pa` on can be read and written: it stands, its peer can be reached, and it is not
poisoned. -/
def Sound (s : State) (pa n : Nat) : Prop := ∀ i < n, paBad s (pa + i) = false

/-- A place that can be read and written unhindered: it stands, its peer can be reached, and it is not poisoned. -/
def LocSound (s : State) : Loc → Prop
  | .scr o => (s.slot s.hart.slotId).scrPoison.contains (o / 64) = false
  | .phys pa => paBad s pa = false
  | .dead _ => False

/-- A copy of the byte at `pa` that a cache would answer an ordinary read of the focus hart with is not poisoned (R319). -/
def CleanCopy (s : State) (pa : Nat) : Prop :=
  ∀ vec e, (s.ctx (ctxOf s s.hart)).strict = false → cachedLine s s.hart vec pa = some e → e.poisoned pa = false

/-- The same of a place. -/
def CopyClean (s : State) : Loc → Prop
  | .phys pa => CleanCopy s pa
  | _ => True

/-- No engine operation in flight holds the scratch an access touches (R213). -/
def SpanFree (s : State) (ls : List Loc) : Prop := scratchHeld (s.slot s.hart.slotId) ls = false

/-- The context of the focus hart runs at FREE or DIGEST, where no order log governs it (R294). -/
def Unlogged (s : State) : Prop :=
  (s.ctx (ctxOf s s.hart)).level = .free ∨ (s.ctx (ctxOf s s.hart)).level = .digest

/-- The hart of `s` after a committed store unit has been folded into its digest (R296): at DIGEST and above, outside its
own save area. -/
def foldedHart (s : State) (va : Nat) (bs : List Byte) : Hart :=
  let c := s.ctx (ctxOf s s.hart)
  let sb := (saveBase c s.hart).toNat
  if c.level = .free ∨ (sb ≤ va ∧ va < sb + 0x10000) then s.hart
  else { s.hart with digest := s.hart.digest + unitTerm va bs }

/-- The byte that stores, one after another, leave at an address. -/
def storedAt (ps : List (Nat × Byte)) (q : Nat) : Option Byte := (ps.reverse.find? (fun p => p.1 == q)).map (·.2)

/-- From `s` to `t` one of the focus hart's sides has stored bytes, none of them home yet (R217): that side's reads see
them (R219, R222), and at FREE and DIGEST both sides do, and read every other byte as before. -/
def StoresBytes (s t : State) (vec : Bool) (ps : List (Nat × Byte)) : Prop :=
  t.hart.sbuf = s.hart.sbuf ++ ps.mapIdx (fun i p => ⟨s.hart.stores + i, vec, p.1, p.2, none⟩) ∧
  t.hart.stores = s.hart.stores + ps.length ∧
  (∀ q b, storedAt ps q = some b → ordinaryByte t t.hart vec q = b) ∧
  (Unlogged s → ∀ side q, ordinaryByte t t.hart side q = (storedAt ps q).getD (ordinaryByte s s.hart side q))

/-- Byte `q` after the bytes `bs` are stored from `pa` on, where it held `old`. -/
def byteAfter (pa : Nat) (bs : List Byte) (q : Nat) (old : Byte) : Byte :=
  if pa ≤ q then bs.getD (q - pa) old else old

/-! ## Vector instructions (R53, R57 to R60, R136, R265) -/

/-- The focus hart's next vector instruction runs at once: the vector unit is not frozen and holds no older entry, the
scalar unit does not run ahead of it, none of its lane groups is under test (R315), and both pipes agree (DESIGN CHOICE,
log 4). -/
def VectorFree (s : State) : Prop :=
  s.hart.frozen = false ∧ s.hart.queue = [] ∧ s.hart.sets = [] ∧ s.ahead = false ∧ s.mismatch = [] ∧ laneBusy s = false

/-- No element of register `r` that the instruction consumes under mask `k` holds poison, at width `w`. -/
def CleanAt (s : State) (k : BitVec 4) (r : BitVec 6) (w : Nat) : Prop :=
  ∀ n, s.hart.due k n = true → s.hart.elemBad r.toNat w n = false

/-- The same at the width of ET. -/
def Clean (s : State) (k : BitVec 4) (r : BitVec 6) : Prop := CleanAt s k r s.hart.et.bytes

/-- From `s` to `t` element `n`, `w` bytes wide, of vector register `r` receives `f r n` where that is a value, and is no
longer poison; every other element of every vector register stays, and so does every mask, scalar and control register
but FFLAGS, in which the flags of `raised` are raised; the hart goes on to the next instruction. -/
def WritesElems (s t : State) (w : Nat) (f : Nat → Nat → Option Nat) (raised : Nat → Prop) : Prop :=
  (∀ r n, r < 48 → w * (n + 1) ≤ 1024 →
    t.hart.elem r w n = ((f r n).map (· % 2 ^ (8 * w))).getD (s.hart.elem r w n) ∧
    t.hart.elemBad r w n = ((f r n).isNone && s.hart.elemBad r w n)) ∧
  (∀ j, t.hart.fflags.getLsbD j = true ↔ s.hart.fflags.getLsbD j = true ∨ raised j) ∧
  t = s.withHart { s.hart with
    v := t.hart.v, vp := t.hart.vp, fflags := t.hart.fflags, pc := s.hart.pc + 4, vstart := 0, rpos := 0 }

/-- Only register `d` receives anything. -/
def only (d : Nat) (f : Nat → Option Nat) (r n : Nat) : Option Nat := if r = d then f n else none

/-- What R58 and R59 give element `n` of a destination: nothing in the tail or below VSTART, the result where active,
zero where inactive under z = 1, nothing under z = 0. -/
def elementwise {α : Type} (s : State) (k : BitVec 4) (z : BitVec 1) (zero : α) (g : Nat → α) (n : Nat) : Option α :=
  if s.hart.vl ≤ n ∨ n < s.hart.vstart then none
  else if k = 15 ∨ (s.hart.kr k.toNat).getLsbD n = true then some (g n)
  else if z = 1 then some zero else none

/-- A flag that some active element's result raises. -/
def raisedBy (s : State) (k : BitVec 4) (g : Nat → Flags) (j : Nat) : Prop :=
  ∃ n, s.hart.due k n = true ∧ (g n).getLsbD j = true

/-- An element-wise result of `w` bytes in register `d`, with its flags. -/
def Elementwise (s t : State) (d w : Nat) (k : BitVec 4) (z : BitVec 1) (g : Nat → Nat × Flags) : Prop :=
  WritesElems s t w (only d (elementwise s k z 0 (fun n => (g n).1))) (raisedBy s k (fun n => (g n).2))

/-- The second source of an instruction of V3: element `n` of `b`, or under f = 1 the scalar's low bits (R93). -/
def secondOf (s : State) (f : BitVec 1) (b : BitVec 6) (n : Nat) : Nat :=
  let w := s.hart.et.bytes
  if f = 1 then (s.rs b).toNat % 2 ^ (8 * w) else s.hart.elem b.toNat w n

/-- VLMAX at `w` bytes an element (R55). -/
def vlmaxOf (s : State) (w : Nat) : Nat := 256 * s.hart.lanes / w

/-- Every due element that takes an element of register `a` takes a clean one. -/
def Gathers (s : State) (k : BitVec 4) (a w : Nat) (src : Nat → Option Nat) : Prop :=
  ∀ n j, s.hart.due k n = true → src n = some j → s.hart.elemBad a w j = false

/-- From `s` to `t` mask `d` receives `f n` in bit `n` where that is a value, keeps its other bits below VLMAX(i8, n) and
has zeros above (R53); nothing else changes but the flags raised and the PC. -/
def WritesMask (s t : State) (d : BitVec 4) (f : Nat → Option Bool) (raised : Nat → Prop) : Prop :=
  (∀ r n, r < 12 → n < 1024 → (t.hart.kr r).getLsbD n =
    if r = d.toNat then ((f n).getD ((s.hart.kr r).getLsbD n) && decide (n < 256 * s.hart.lanes))
    else (s.hart.kr r).getLsbD n) ∧
  (∀ j, t.hart.fflags.getLsbD j = true ↔ s.hart.fflags.getLsbD j = true ∨ raised j) ∧
  t = s.withHart { s.hart with
    k := t.hart.k, fflags := t.hart.fflags, pc := s.hart.pc + 4, vstart := 0, rpos := 0 }

/-- A vector instruction's scalar result with its flags: as a scalar instruction's, with VSTART and RPOS zero. -/
def VectorScalar (s t : State) (d : BitVec 6) (x : Word) (fl : Flags) : Prop :=
  WritesScalarFlags (s.withHart { s.hart with vstart := 0, rpos := 0 }) t d x fl

/-! ## Vector accesses (R245, R431) -/

/-- An access of `n` bytes at `va` meets no hindrance: it lies in scratch, or within one page that a cached translation
maps; its places are `ls` and its page format is `f`. -/
def Reaches (s : State) (va n : Nat) (k : Kind) (ls : List Loc) (f : Nat) : Prop :=
  let c := s.ctx (ctxOf s s.hart)
  (∃ o, scratchOff c va = some o ∧ o + n ≤ Config.scratchSize ∧ k ≠ .exec ∧ ls = scratchPlaces o n ∧ f = 0) ∨
  (∃ pa, Mapped s va k pa ∧ va % 65536 + n ≤ 65536 ∧ ls = places pa n ∧
    ∀ e, cachedLeaf c.tlb va [0, 1, 2] = some e → ptePfmt e.pte = f)

/-- The address of element `n` of a vector access of mode `m` whose elements are `w` bytes wide in memory. -/
def elementVa (s : State) (m : BitVec 2) (a b : BitVec 6) (w n : Nat) : Nat :=
  (s.rs a + (match m.toNat with
    | 0 => BitVec.ofNat 64 (n * w)
    | 1 => BitVec.ofNat 64 n * s.rs b
    | _ => BitVec.ofNat 64 (s.hart.elem b.toNat s.hart.et.bytes n * w))).toNat

/-- A vector load or store that decodes page format `pf` (R151, R152). -/
def decodes (raw : Bool) (pf : Nat) : Bool := !raw && decide (1 ≤ pf)
/-- The width of its elements in memory. -/
def memWidth (s : State) (raw : Bool) (pf : Nat) : Nat := if decodes raw pf then pfmtBytes pf else s.hart.et.bytes

/-- Element `n` of a vector access is aligned and reaches its places, on a page of format `pf` unless the access is raw,
and nothing holds or poisons them, nor for a load a copy of them in a cache. -/
def ElementReaches (s : State) (m : BitVec 2) (a b : BitVec 6) (kd : Kind) (raw : Bool) (pf : Nat) (ls : Nat → List Loc)
    (n : Nat) : Prop :=
  let w := memWidth s raw pf
  let va := elementVa s m a b w n
  va % w = 0 ∧ SpanFree s (ls n) ∧ (∀ l ∈ ls n, LocSound s l ∧ (kd = .read → CopyClean s l)) ∧ ∃ f, Reaches s va w kd (ls n) f ∧ (raw = false → f = pf)

/-- The access may be decoded as its page format says: it is raw, or its reference element (the first active one, at ET
width) lies on a page of format `pf`, plain or a float format, the latter with a float ET (R150, R152, R245). -/
def Decodable (s : State) (k : BitVec 4) (m : BitVec 2) (a b : BitVec 6) (kd : Kind) (raw : Bool) (pf : Nat) : Prop :=
  m.toNat ≤ 2 ∧ (m = 2 → Clean s k b) ∧ (raw = false → pf ≤ 5 ∧ (1 ≤ pf → s.hart.et.isFloat = true) ∧
    ∀ n, s.hart.active k n = true → (∀ j < n, s.hart.active k j = false) →
      ∃ ls, Reaches s (elementVa s m a b s.hart.et.bytes n) 1 kd ls pf)

/-- What a load of element `n` delivers: the bytes there, or their value converted to ET (R152). -/
def loadedElem (s : State) (raw : Bool) (pf : Nat) (ls : Nat → List Loc) (n : Nat) : Nat × Flags :=
  let x := leNat ((ls n).map (locByte s s.hart true))
  if decodes raw pf then fConvert (pfmtFmt pf) s.hart.et.fmt .rne x else (x, 0)

/-- What a store of element `n` of `d` writes. -/
def storedElem (s : State) (raw : Bool) (pf : Nat) (d : BitVec 6) (n : Nat) : Nat × Flags :=
  let x := s.hart.elem d.toNat s.hart.et.bytes n
  if decodes raw pf then fStoreConvert s.hart.et.fmt (pfmtFmt pf) x else (x, 0)

/-- A place's byte after elements `ns` are stored one after another, each `bs n` at its places `ls n`. -/
def storedByte (ls : Nat → List Loc) (bs : Nat → List Byte) (l : Loc) (old : Byte) (ns : List Nat) : Byte :=
  ns.foldl (fun b n => match (ls n).findIdx? (· == l) with
    | some i => (bs n).getD i 0
    | none => b) old

/-- What a committed store unit adds to a hart's digest (R296): nothing at FREE or in the hart's own save area. -/
def foldTerm (s : State) (va : Nat) (bs : List Byte) : Word :=
  let c := s.ctx (ctxOf s s.hart)
  let sb := (saveBase c s.hart).toNat
  if c.level = .free ∨ (sb ≤ va ∧ va < sb + 0x10000) then 0 else unitTerm va bs

/-- The due elements of a mask, rising. -/
def dueElems (s : State) (k : BitVec 4) : List Nat := (List.range s.hart.vl).filter (s.hart.due k)

/-- Atomic steps at the places `pa n` of elements `ns`, one after another over the bytes `m` at home, with operands `x n`
(R228): each element's old value, and the bytes they leave. -/
def amoRun (w op : Nat) (pa x : Nat → Nat) : List Nat → (Nat → Byte) → List (Nat × Nat) × (Nat → Byte)
  | [], m => ([], m)
  | n :: t, m =>
    let old := leNat ((List.range w).map (fun i => m (pa n + i)))
    let r := amoRun w op pa x t (fun q => byteAfter (pa n) (leBytes w (amoCombine op w old (x n) 0)) q (m q))
    ((n, old) :: r.1, r.2)

/-! ## Tiles, engines and counters (R170, R205, R210) -/

/-- Byte `va` of a tile image stands at `l`: in scratch, whose format is plain, or on a page of format `pf` and group-size
code `gs` that a cached translation maps. -/
def ImageByte (s : State) (pf gs va : Nat) (l : Loc) : Prop :=
  let c := s.ctx (ctxOf s s.hart)
  (∃ o, scratchOff c va = some o ∧ l = .scr o ∧ pf = 0 ∧ gs = 0) ∨
  (∃ pa, Mapped s va .read pa ∧ l = .phys pa ∧
    ∀ e, cachedLeaf c.tlb va [0, 1, 2] = some e → ptePfmt e.pte = pf ∧ pteGs e.pte = gs)

/-- One more operation may be issued on counter `c`: it is below 511, and fewer than 64 engine operations of the context
slot are in flight, as many of them as the scoreboard holds where the new one claims scratch. -/
def HasRoom (s : State) (c : BitVec 4) (span : Bool) : Prop :=
  let ops := (s.slot s.hart.slotId).ops.filter (fun o => !o.done)
  s.hart.counter c.toNat < Config.counterMax ∧ ops.length < Config.engineMax ∧
    (span = true → (ops.filter (fun o => o.span.isSome)).length < Config.boardMax)

/-- The hart after an operation is issued on counter `c`. -/
def counted (h : Hart) (c : BitVec 4) : Hart := h.setCounter c.toNat (h.counter c.toNat + 1)

/-- Operation `o` of context slot `i`, held by context `c` of the physical function, is in flight; its hart stands in that
slot, and nothing else counts on its counter. No stage-2 event is open for it. -/
def InFlight (s : State) (i c : Nat) (o : EngOp) : Prop :=
  (s.slot i).ops.find? (fun p => p.n == o.n) = some o ∧ o.done = false ∧ (s.slot i).holder = some c ∧ c / 64 = 0 ∧
    o.hart / 4 = i ∧ (s.hartOf o.hart).live = true ∧ (s.hartOf o.hart).id = o.hart ∧ ctxOf s (s.hartOf o.hart) = c ∧
    countedOps s o.hart o.counter = [(o.n, false)] ∧ (∀ x ∈ s.colls, x.n ≠ o.n) ∧
    engineBlocked (s.ctx c) (s.slot i) o = false ∧ (∀ e ∈ (s.fn 0).s2, e.op ≠ some o.n) ∧
    ∀ k ∈ (s.hartOf o.hart).kin, (s.hartOf k.1).id = k.1 ∨ (s.hartOf k.1).sbuf = []

/-- From `s` to `t` operation `o` of slot `i` has left it, and its hart's counter is one less (R210); of the harts it was
forked from, stores may have reached home (R40). -/
def Counted (s t : State) (i : Nat) (o : EngOp) : Prop :=
  (t.slot i).ops = (s.slot i).ops.filter (fun p => p.n != o.n) ∧
    (t.hartOf o.hart).cnt = ((s.hartOf o.hart).setCounter o.counter ((s.hartOf o.hart).counter o.counter - 1)).cnt ∧
    (∀ j, j ≠ i → t.slot j = s.slot j) ∧ ∀ h, h ≠ o.hart → t.hartOf h = { s.hartOf h with sbuf := (t.hartOf h).sbuf }

/-- Pages as an operation of the physical function sees them. -/
def pagesAt (ps : List (Nat × Nat)) : List (Nat × Loc) := ps.map (fun p => (p.1, .phys p.2))

/-- A place that a store reaches: scratch, or device memory that stands. -/
def Stands : Loc → Prop
  | .scr _ => True
  | .phys pa => devBacked pa = true
  | .dead _ => False

/-- A place that no peer is behind, or one that answers (R330, R331). -/
def Answers (s : State) (l : Loc) : Prop := ∀ q, l = .phys q → paPeer q = true → peerUp s (fnAddr q) q = true

/-- A place that is not behind a second stage. -/
def Loc.direct (l : Loc) : Prop := ∀ q, l = .phys q → fnAddr q = 0

/-! ## The mailbox (R329) -/

/-- Function `f`'s command has its answer. -/
def answered (s : State) (f : Nat) (rc : MailRc) (out : List Byte) : State :=
  s.setFn f { s.fn f with mailRc := rc, mailOut := out }

/-! ## Taking a trap (R260, R263) -/

/-- The part of the focus hart's save area that trap entry and RESUME use stands, at physical address `pa`, and an access
of kind `k` to it meets no hindrance; none of s56 to s63 is poisoned. -/
def SaveArea (s : State) (k : Kind) (pa : Nat) : Prop :=
  let base := (saveBase (s.ctx (ctxOf s s.hart)) s.hart).toNat
  base % 65536 = 0 ∧ (∀ off < 0x300, Mapped s (base + off) k (pa + off)) ∧ Sound s pa 0x300 ∧ s.hart.sp >>> 56 = 0 ∧
    (k = .read → ∀ off < 0x300, CleanCopy s (pa + off))

/-- The whole of it stands there, as CLAIM and the RESUME after it use it (R262, R263). -/
def WholeArea (s : State) (pa : Nat) : Prop :=
  let base := (saveBase (s.ctx (ctxOf s s.hart)) s.hart).toNat
  base % 65536 = 0 ∧ Sound s pa 0x10000 ∧
    ∀ off < 0x10000, Mapped s (base + off) .read (pa + off) ∧ Mapped s (base + off) .write (pa + off) ∧ CleanCopy s (pa + off)

/-- `n` bytes of the save area at `pa` as the focus hart's ordinary loads read them. -/
def areaBytes (s : State) (pa off n : Nat) : List Byte :=
  (List.range n).map (fun i => ordinaryByte s s.hart false (pa + off + i))

/-- The registers s56 to s63 as bytes, as trap entry saves them. -/
def savedRegs (h : Hart) : List Byte := (List.range 8).flatMap (fun i => leBytes 8 (h.rs (BitVec.ofNat 6 (56 + i))).toNat)

/-- From `s` to `t` the focus hart has taken a trap (R260): the vector unit is frozen, TRAPCAUSE (HM set), TRAPPC and
TRAPVAL are written, s56 to s63, SPC and FLAGS stand in the save area at `pa` as its own loads see it, and the PC is
TRAPBASE; the words of a repeat frame stopped inside are forgotten (R67). Nothing else changes. -/
def TrapTaken (s t : State) (pa : Nat) (c : Cause) (k : Kind) (val pos spc : Word) : Prop :=
  t = s.withHart { s.hart.refetch with
    frozen := true, trapcause := causeWord c k, trappc := pos, trapval := val, popSince := none, trapOp := s.nextOp, pend := none,
    run := .running, pc := (s.ctx (ctxOf s s.hart)).trapbase, sbuf := t.hart.sbuf, stores := t.hart.stores } ∧
  StoresBytes s t false (withAddr (pa + 0x2C0) (savedRegs s.hart) ++ withAddr (pa + 8) (leBytes 8 spc.toNat) ++
    withAddr pa (leBytes 8 (if s.hart.arrived then 4 else 0)))

end Sys2Proof.Machine
end

