-- ==== Sys2Proof/Certificates/Slice0/Obligations.lean ====
section
/-! DEFINITION. The statements for the provers. -/

open Sys2Proof Sys2Proof.Machine

/-! ## Encoding (04) -/

/-- R70 to R100 (the model's own reading of the layout table): every well-formed instruction that has a word is what
the decoder reads from the encoder's word, with every operand. -/
def Obligations.DecodeInvertsEncode : Prop :=
  ∀ i : Instr, WellFormed i → i.hasWord = true → decode (encode i) = .ok i

/-- The other way: a word that decodes is the word of what it decodes to, so no bit of it is ignored, and what it
decodes to is well formed. -/
def Obligations.EncodeInvertsDecode : Prop :=
  ∀ (w : BitVec 32) (i : Instr), decode w = .ok i → encode i = w ∧ WellFormed i ∧ i.hasWord = true

/-- Words written out in the reference entries decode to the instructions printed beside them: one to each family.
R104: an unassigned major, and majors 0x00 and 0x7F, name no instruction, whatever the other bits. -/
def Obligations.PrintedWordsDecode : Prop :=
   (decode 0xFE004102 = .ok (.addi 2 2 0x1FC0) ∧ decode 0x0838C281 = .ok (.div 5 6 7 0) ∧
    decode 0xFFE80291 = .ok (.bne 5 0 0x1FFD) ∧ decode 0xFFFFC017 = .ok (.jal 0 0x7FFFE) ∧
    decode 0x2238C331 = .ok (.vsub 6 6 7 1 1 0) ∧ decode 0xDE4881BC = .ok (.vaddsat 3 4 9 15 0 1 1) ∧
    decode 0x1E1D012E = .ok (.vamo 2 8 2 3 15 0 0 0) ∧ decode 0x0220006E = .ok (.fence 4) ∧
    decode 0x0400006E = .ok .yield ∧ decode 0x0000A00D = .ok (.spset 5)) ∧
   (∀ w : BitVec 32,
      fld w 0 7 ∈ ([0x00, 0x0E, 0x0F, 0x1E, 0x1F, 0x26, 0x27, 0x2F, 0x3E, 0x3F, 0x4D, 0x4E, 0x4F, 0x57, 0x62, 0x63,
        0x7F] : List (BitVec 7)) → decode w = .error .reservedMajor)

/-! ## The scalar computational instructions (22 to 24) -/

/-- R342, R343, R415, R389: sums, differences and low products wrap. R389: MULH writes bits [127:64] of the exact
product, signed or unsigned. R368, R398: the quotient is rounded toward zero and the remainder belongs to it; division
by zero gives all ones and the dividend, and the overflowing quotient wraps. R344, R382: a 19-bit immediate times 2¹³,
alone or added to the instruction's own address. The words R368, R389, R398 and R415 print. -/
def Obligations.ScalarArithmetic : Prop :=
   (∀ (s : State) (d a b : BitVec 6) (i : BitVec 13),
      Completes (.add d a b) s (WritesScalar s · d (BitVec.ofNat 64 ((s.rs a).toNat + (s.rs b).toNat))) ∧
      Completes (.addi d a i) s (WritesScalar s · d (BitVec.ofInt 64 ((s.rs a).toInt + i.toInt))) ∧
      Completes (.sub d a b) s (WritesScalar s · d (BitVec.ofInt 64 ((s.rs a).toInt - (s.rs b).toInt))) ∧
      Completes (.mul d a b) s (WritesScalar s · d (BitVec.ofNat 64 ((s.rs a).toNat * (s.rs b).toNat)))) ∧
   (∀ (s : State) (d a b : BitVec 6),
      Completes (.mulh d a b 0) s
        (WritesScalar s · d (((s.rs a).signExtend 128 * (s.rs b).signExtend 128).extractLsb' 64 64)) ∧
      Completes (.mulh d a b 1) s
        (WritesScalar s · d (((s.rs a).zeroExtend 128 * (s.rs b).zeroExtend 128).extractLsb' 64 64))) ∧
   (∀ (s : State) (d a b : BitVec 6),
      Completes (.div d a b 0) s (WritesScalar s · d (if s.rs b = 0 then BitVec.allOnes 64
        else BitVec.ofInt 64 (Int.tdiv (s.rs a).toInt (s.rs b).toInt))) ∧
      Completes (.div d a b 1) s (WritesScalar s · d (if s.rs b = 0 then BitVec.allOnes 64
        else BitVec.ofNat 64 ((s.rs a).toNat / (s.rs b).toNat))) ∧
      Completes (.rem d a b 0) s (WritesScalar s · d (if s.rs b = 0 then s.rs a
        else BitVec.ofInt 64 (Int.tmod (s.rs a).toInt (s.rs b).toInt))) ∧
      Completes (.rem d a b 1) s (WritesScalar s · d (if s.rs b = 0 then s.rs a
        else BitVec.ofNat 64 ((s.rs a).toNat % (s.rs b).toNat)))) ∧
   (∀ (s : State) (d : BitVec 6) (i : BitVec 19),
      Completes (.lih d i) s (WritesScalar s · d (BitVec.ofInt 64 (i.toInt * 2 ^ 13))) ∧
      Completes (.addpc d i) s (WritesScalar s · d (s.hart.pc + BitVec.ofInt 64 (i.toInt * 2 ^ 13)))) ∧
   (decode 0x0838C281 = .ok (.div 5 6 7 0) ∧ decode 0x2838C281 = .ok (.div 5 6 7 1) ∧
    decode 0x048A0981 = .ok (.mul 19 16 17) ∧ decode 0x0638C281 = .ok (.mulh 5 6 7 0) ∧
    decode 0x2638C281 = .ok (.mulh 5 6 7 1) ∧ decode 0x0A38C281 = .ok (.rem 5 6 7 0) ∧
    decode 0x2A38C281 = .ok (.rem 5 6 7 1) ∧ decode 0x0238C281 = .ok (.sub 5 6 7))

/-- R351, R352, R390, R451: the bitwise instructions, whose immediates are sign-extended. R403: a shift takes the low
six bits of its amount; left and right shifts are products and floored quotients by a power of two, of the unsigned or
the signed operand. R384, R408: minima, maxima and comparisons, signed (u = 0) or unsigned (u = 1). R360: CNT's result
is the number of leading zeros, of trailing zeros, or of ones. The words R351, R352, R360, R384, R390, R403, R408 and
R451 print, and the fields R360 and R403 require to be zero. -/
def Obligations.ScalarLogic : Prop :=
   (∀ (s : State) (d a b : BitVec 6) (i : BitVec 13),
      Completes (.and d a b) s (WritesScalar s · d (s.rs a &&& s.rs b)) ∧
      Completes (.or d a b) s (WritesScalar s · d (s.rs a ||| s.rs b)) ∧
      Completes (.xor d a b) s (WritesScalar s · d (s.rs a ^^^ s.rs b)) ∧
      Completes (.andi d a i) s (WritesScalar s · d (s.rs a &&& i.signExtend 64)) ∧
      Completes (.ori d a i) s (WritesScalar s · d (s.rs a ||| i.signExtend 64)) ∧
      Completes (.xori d a i) s (WritesScalar s · d (s.rs a ^^^ i.signExtend 64))) ∧
   (∀ (s : State) (d a b i : BitVec 6),
      let x := s.rs a
      let n := (s.rs b).toNat % 64
      Completes (.shl d a b) s (WritesScalar s · d (BitVec.ofNat 64 (x.toNat * 2 ^ n))) ∧
      Completes (.shr d a b) s (WritesScalar s · d (BitVec.ofNat 64 (x.toNat / 2 ^ n))) ∧
      Completes (.sar d a b) s (WritesScalar s · d (BitVec.ofInt 64 (x.toInt / 2 ^ n))) ∧
      Completes (.shli d a i) s (WritesScalar s · d (BitVec.ofNat 64 (x.toNat * 2 ^ i.toNat))) ∧
      Completes (.shri d a i) s (WritesScalar s · d (BitVec.ofNat 64 (x.toNat / 2 ^ i.toNat))) ∧
      Completes (.sari d a i) s (WritesScalar s · d (BitVec.ofInt 64 (x.toInt / 2 ^ i.toNat)))) ∧
   (∀ (s : State) (d a b : BitVec 6) (i : BitVec 13),
      let x := s.rs a
      let y := s.rs b
      Completes (.min d a b 0) s (WritesScalar s · d (if x.toInt ≤ y.toInt then x else y)) ∧
      Completes (.min d a b 1) s (WritesScalar s · d (if x.toNat ≤ y.toNat then x else y)) ∧
      Completes (.max d a b 0) s (WritesScalar s · d (if y.toInt ≤ x.toInt then x else y)) ∧
      Completes (.max d a b 1) s (WritesScalar s · d (if y.toNat ≤ x.toNat then x else y)) ∧
      Completes (.slt d a b 0) s (WritesScalar s · d (if x.toInt < y.toInt then 1 else 0)) ∧
      Completes (.slt d a b 1) s (WritesScalar s · d (if x.toNat < y.toNat then 1 else 0)) ∧
      Completes (.slti d a i) s (WritesScalar s · d (if x.toInt < i.toInt then 1 else 0))) ∧
   (∀ (s : State) (d a : BitVec 6),
      (∃ n ≤ 64, Completes (.cnt d a 0) s (WritesScalar s · d (BitVec.ofNat 64 n)) ∧
        (∀ j < n, (s.rs a).getLsbD (63 - j) = false) ∧ (n < 64 → (s.rs a).getLsbD (63 - n) = true)) ∧
      (∃ n ≤ 64, Completes (.cnt d a 1) s (WritesScalar s · d (BitVec.ofNat 64 n)) ∧
        (∀ j < n, (s.rs a).getLsbD j = false) ∧ (n < 64 → (s.rs a).getLsbD n = true)) ∧
      Completes (.cnt d a 2) s
        (WritesScalar s · d (BitVec.ofNat 64 ((List.range 64).filter (fun j => (s.rs a).getLsbD j)).length))) ∧
   (decode 0x0C38C281 = .ok (.and 5 6 7) ∧ decode 0x00086803 = .ok (.andi 16 3 1) ∧
    decode 0x5E00A201 = .ok (.cnt 4 5 2) ∧ decode 0x1E00A201 = .ok (.cnt 4 5 0) ∧
    decode 0x1A38C281 = .ok (.max 5 6 7 0) ∧ decode 0x3A38C281 = .ok (.max 5 6 7 1) ∧
    decode 0x1838C281 = .ok (.min 5 6 7 0) ∧ decode 0x0E38C281 = .ok (.or 5 6 7) ∧
    decode 0x3FF92484 = .ok (.ori 9 9 0x7FF) ∧ decode 0x1238C281 = .ok (.shl 5 6 7) ∧
    decode 0x00196606 = .ok (.shli 12 11 3) ∧ decode 0x01006987 = .ok (.shri 19 3 32) ∧
    decode 0x01F8C288 = .ok (.sari 5 6 63) ∧ decode 0x1C38C281 = .ok (.slt 5 6 7 0) ∧
    decode 0x3C38C281 = .ok (.slt 5 6 7 1) ∧ decode 0xFFF8C289 = .ok (.slti 5 6 0x1FFF) ∧
    decode 0x1038C281 = .ok (.xor 5 6 7) ∧ decode 0xFFF8C285 = .ok (.xori 5 6 0x1FFF) ∧
    (∀ (w : BitVec 32) (d a : BitVec 6) (k : BitVec 2),
      decode w = .ok (.cnt d a k) → fld w 19 6 = 0 ∧ fld w 31 1 = 0 ∧ k ≠ 3) ∧
    (∀ (w : BitVec 32) (d a i : BitVec 6),
      decode w = .ok (.shli d a i) ∨ decode w = .ok (.shri d a i) ∨ decode w = .ok (.sari d a i) → fld w 25 7 = 0))

/-- R356: a taken branch goes to its own address + 4 × its offset, an untaken one to PC + 4. The words R356 prints.
R372, R373: a jump links its own address + 4 and goes to its target; JALR reads its base before it links, and a target
that is no multiple of 4 traps with ALIGN, kind exec, the target as TRAPVAL and nothing linked. -/
def Obligations.BranchesAndJumps : Prop :=
   (∀ (s : State) (a b : BitVec 6) (o : BitVec 13),
      let x := s.rs a
      let y := s.rs b
      let go := fun (p : Bool) =>
        if p then s.hart.pc + BitVec.ofInt 64 (4 * o.toInt) else s.hart.pc + 4
      Completes (.beq a b o) s (GoesTo s · (go (x.toNat = y.toNat))) ∧
      Completes (.bne a b o) s (GoesTo s · (go (x.toNat ≠ y.toNat))) ∧
      Completes (.blt a b o) s (GoesTo s · (go (x.toInt < y.toInt))) ∧
      Completes (.bge a b o) s (GoesTo s · (go (y.toInt ≤ x.toInt))) ∧
      Completes (.bltu a b o) s (GoesTo s · (go (x.toNat < y.toNat))) ∧
      Completes (.bgeu a b o) s (GoesTo s · (go (y.toNat ≤ x.toNat)))) ∧
   (decode 0xFFE80291 = .ok (.bne 5 0 0x1FFD) ∧ decode 0x00180810 = .ok (.beq 16 0 3) ∧
    decode 0xFFC12214 = .ok (.bltu 4 9 0x1FF8)) ∧
   (∀ (s : State) (d a : BitVec 6) (o : BitVec 19) (i : BitVec 13),
      let link := s.hart.pc + 4
      let t := s.rs a + i.signExtend 64
      Completes (.jal d o) s (fun u => ∃ v, WritesScalar s v d link ∧ GoesTo v u (s.hart.pc + BitVec.ofInt 64 (4 * o.toInt))) ∧
      (t.toNat % 4 = 0 → Completes (.jalr d a i) s (fun u => ∃ v, WritesScalar s v d link ∧ GoesTo v u t)) ∧
      (t.toNat % 4 ≠ 0 →
        exec (.jalr d a i) s = .next (takeTrap s s.hart.id .align .exec t s.hart.pc s.hart.pc)))

/-- R404, R405, R55: SETVL and SETVLI write the grant to VL, in its place behind what is queued, and to their
destination: the request, at most VLMAX, and at level FREE at most what VLCAP's element groups hold. With an empty
queue VL changes at once, else what is queued keeps the old VL. The words R404 prints, and the fields it requires to
be zero. R56, R434: STRIP advances the pointer registers of SPDESC by VL elements, takes VL off its count register,
and while elements remain grants a new VL and goes to its target; while a VLDFF that may change VL is queued it waits.
SPSET writes SPDESC. -/
def Obligations.VectorLengthGranted : Prop :=
   (∀ (s : State) (d a : BitVec 6) (i : BitVec 19),
      let w := s.hart.prog.et.bytes
      let most := s.hart.lanes * 256 / w
      let cap := if (s.ctx (ctxOf s s.hart)).level = .free then vlcap s s.hart * 256 / w else most
      let g := fun (q : Nat) => min q (min most cap)
      let is := fun (n : Instr) (q : Nat) =>
        Completes n s (fun t => (s.hart.queue ≠ [] → t.hart.prog.vl = g q) ∧ WritesScalar (s.withHart
          (if s.hart.queue = [] then { s.hart with vl := g q } else { s.hart with sets := s.hart.sets ++ [.vl (g q)] })) t d
          (BitVec.ofNat 64 (g q)))
      is (.setvl d a) (s.rs a).toNat ∧ is (.setvli d i) i.toNat) ∧
   (decode 0x00034924 = .ok (.setvl 18 26) ∧ decode 0x00008B25 = .ok (.setvli 22 4) ∧
    (∀ (w : BitVec 32) (d a : BitVec 6), decode w = .ok (.setvl d a) → fld w 19 6 = 0 ∧ fld w 25 7 = 0)) ∧
   (∀ (s : State) (a : BitVec 6) (o : BitVec 13),
      let h := s.hart
      let vl := h.prog.vl
      let left : Int := (s.rs a).toInt - vl
      let step := fun (p : Nat) (x : Hart) =>
        x.setS (h.spdesc.extractLsb' (8 * p) 6)
          (x.rs (h.spdesc.extractLsb' (8 * p) 6) + BitVec.ofNat 64 (vl * 2 ^ (h.spdesc.extractLsb' (8 * p + 6) 2).toNat))
      let h1 := (step 3 (step 2 (step 1 (step 0 h)))).setS a (BitVec.ofInt 64 left)
      let most := h.lanes * 256 / h.prog.et.bytes
      let cap := if (s.ctx (ctxOf s h)).level = .free then vlcap s h * 256 / h.prog.et.bytes else most
      let awaited := h.frozen = false ∧ ∃ e ∈ h.queue, fld e.word 0 7 = 0x2C ∨ fld e.word 0 7 = 0x2D
      (¬ awaited → Completes (.strip a o) s (fun t => t = s.withHart
        (if 0 < left then
          { h1.setVec (.vl (min left.toNat (min most cap))) with pc := h.pc + BitVec.ofInt 64 (4 * o.toInt) }
         else { h1 with pc := h.pc + 4 }))) ∧
      (awaited → Completes (.strip a o) s (fun t => t = s.withHart { h with run := .waiting })) ∧
      Completes (.spset a) s (fun t => t = s.withHart { h with spdesc := (s.rs a).extractLsb' 0 32, pc := h.pc + 4 }))

/-- R406, R407: the scalar float group works on the low bits of its operands in format p (half, bfloat16, single,
double for 0 to 3) under FRM as it stands behind what is queued, writes its result zero-extended, or sign-extended when SFCVT makes an integer, and raises
its flags in FFLAGS; SFMA's addend is the old destination. -/
def Obligations.ScalarFloatGroup : Prop :=
  sfFmt 0 = .f16 ∧ sfFmt 1 = .bf16 ∧ sfFmt 2 = .f32 ∧ sfFmt 3 = .f64 ∧
  ∀ (s : State) (d a b : BitVec 6) (c p : BitVec 2) (x : BitVec 1) (st dt : BitVec 3),
    let f := sfFmt p
    let m := s.hart.prog.frm
    let v := fun (r : BitVec 6) => (s.rs r).toNat % 2 ^ f.bits
    let is := fun (i : Instr) (r : Nat × Flags) =>
      Completes i s (WritesScalarFlags s · d (BitVec.ofNat 64 r.1) r.2)
    is (.sfadd d a b p) (fAdd f m (v a) (v b)) ∧ is (.sfsub d a b p) (fSub f m (v a) (v b)) ∧
    is (.sfmul d a b p) (fMul f m (v a) (v b)) ∧ is (.sfdiv d a b p) (fDiv f m (v a) (v b)) ∧
    is (.sfsqrt d a p) (fSqrt f m (v a)) ∧ is (.sfma d a b p) (fMa f m false (v a) (v b) (v d)) ∧
    is (.sfmm d a b p x) (fMinMax f (x = 1) (v a) (v b)) ∧
    is (.sfcmp d a b c p) ((if (fCmp f c.toNat (v a) (v b)).1 then 1 else 0), (fCmp f c.toNat (v a) (v b)).2) ∧
    (let src := ET.ofCode st.toNat
     let dst := ET.ofCode dt.toNat
     let r := convert src dst m ((s.rs a).toNat % 2 ^ (8 * src.bytes))
     Completes (.sfcvt d a st dt) s (WritesScalarFlags s · d
       (if dst.isFloat then BitVec.ofNat 64 r.1 else (BitVec.ofNat (8 * dst.bytes) r.1).signExtend 64) r.2))

/-! ## The step (04 R105, 14 R244, 19 R321; log 4) -/

/-- A step runs the decoded instruction: when the focus hart issues (log 4) and the word fetched at its PC decodes to
`i`, the step is `exec i` from the state the fetch left, with the turn of a serial re-run before and after it (R300),
which does nothing outside one; the focus hart's cycles are counted (log 4). An instruction that reads a poisoned
scalar register takes POISON with source 3 instead (R257, R265), unless it is no instruction there or stops by a cause
that comes first (R258). Where the PC's translation is cached, the word is the four bytes the instruction cache holds
of it, else the four bytes at home, little-endian (R5, R244, R290). What of it is the model's choice or reading is in
log 4. -/
def Obligations.StepRunsDecoded : Prop :=
  (∀ (s s1 t : State) (w : BitVec 32) (i : Instr), IssuesNext s → fetchM s.hart.id s.hart.pc s = .ok w s1 →
    decode w = .ok i →
      ((∀ r ∈ issueReads s1.hart i, s1.hart.spBad r = false) → exec i (holdTurn s1) = .next t →
        step s = .next { passTurn s1.hart i t with beat := s.beat + 1 }) ∧
      ((∀ r ∈ issueReads s1.hart i, s1.hart.spBad r = false) → (s1.launch s1.hart.launch).rerun = 0 →
        exec i s1 = .next t → (t.launch s1.hart.launch).rerun = 0 → step s = .next { t with beat := s.beat + 1 }) ∧
      ((∃ r ∈ issueReads s1.hart i, s1.hart.spBad r = true) → illegalFirst s1 i = false →
        stopsFirst s1 i = false →
        step s = .next { takeTrap s1 s1.hart.id .poison .read (3 <<< 62) s1.hart.pc s1.hart.pc with beat := s.beat + 1 })) ∧
  (∀ (s : State) (pa : Nat), Mapped s s.hart.pc.toNat .exec pa → s.hart.pc.toNat % 4 = 0 →
    let c := ctxOf s s.hart
    let held := (s.core s.hart.core).icache.find? (fun e => e.ctx == c && e.a == pa / 64 * 64)
    (held = none → Sound s pa 4 → fetchM s.hart.id s.hart.pc s = .ok (BitVec.ofNat 32 (s.peekN pa 4)) s) ∧
    (∀ e, held = some e → e.bad = 0 →
      fetchM s.hart.id s.hart.pc s = .ok (BitVec.ofNat 32 (leNat ((e.bytes.drop (pa % 64)).take 4))) s))

/-- R104, R105: a word that decodes to nothing is never executed as something else: the step takes ILLEGAL_OP at the
word's PC with the word, zero-extended, as TRAPVAL. R244: a fetch that no page or permission allows takes PAGE or PERM
of kind exec with the PC as TRAPVAL. The model's interface (log 4): a step that has an input consumes it, and an event
among them, which no instruction of a hart is (R24), is `exec` of its row. In the freeze only a reset changes anything
but what configuration reads return, and with no input left the step stops (R321); in the pilot-light state no hart
issues, and of the events only a reset, mailbox commands and what happens outside the compute dies and memory sites
take place (R337). What of it is the model's choice or reading is in log 4 and 18. -/
def Obligations.StepTrapsAndInputs : Prop :=
   (∀ (s s1 : State), IssuesNext s →
      let takes := fun (i : Instr) (c : Cause) (k : Kind) (v : Word) =>
        let t := takeTrap s1 s1.hart.id c k v s1.hart.pc s1.hart.pc
        step s = .next { t with beat := s.beat + 1 } ∧ exec i s1 = .next t
      (∀ (w : BitVec 32) (r : Reject), fetchM s.hart.id s.hart.pc s = .ok w s1 → decode w = .error r →
        takes (.illegalOp w) .illegalOp .read (w.zeroExtend 64)) ∧
      (∀ k v, fetchM s.hart.id s.hart.pc s = .error (.trap .page k v) s1 →
        takes (.fetchFault false) .page .exec s1.hart.pc) ∧
      (∀ k v, fetchM s.hart.id s.hart.pc s = .error (.trap .perm k v) s1 →
        takes (.fetchFault true) .perm .exec s1.hart.pc)) ∧
   (∀ (s : State) (e : Instr) (rest : List Input),
      let s1 := { s with inputs := rest }
      (s.inputs = .event e :: rest → s.frozen = false → s.pilot = none → e.hasWord = false →
        (∀ w, e ≠ .illegalOp w) → (∀ p, e ≠ .fetchFault p) → step s = exec e s1) ∧
      (s.inputs = .event e :: rest → s.frozen = false → s.pilot = none →
        (e.hasWord = true ∨ (∃ w, e = .illegalOp w) ∨ ∃ p, e = .fetchFault p) → step s = .next s1) ∧
      (∀ i, s.inputs = i :: rest → s.frozen = true → (∀ r, i ≠ .event (.reset r)) →
        ∃ out, step s = .next { s1 with busOut := out }) ∧
      (∀ r, s.inputs = .event (.reset r) :: rest → step s = exec (.reset r) s1) ∧
      (s.inputs = [] → s.frozen = true → step s = .fault .frozen) ∧
      (s.inputs = [] → s.frozen = false → s.pilot.isSome = true → step s = .next s) ∧
      (s.inputs = .event e :: rest → s.frozen = false → s.pilot.isSome = true →
        step s = if darkEvent e then exec e s1 else .next s1))

/-! ## Reset (19 R321, 21 R336, R338, R339) -/

/-- What the spec gives the part after a reset: no hart, context, launch or queue is in use, no packet is read, no
collective or operation is in flight, the power limit is its default of 2,000 W (R339) and no update is open. R321,
R320, R336: a reset that bring-up passes reinitialises every unit; the fault-record ring survives, and so does the
lane-disable mask of every core, to which bring-up may add bits. It leaves the freeze. What of it is the model's
choice or reading is in log 2 and 65. -/
def Obligations.ResetValues : Prop :=
   (let s := State.reset
    s.hart.live = false ∧ s.harts = [] ∧ (∀ c, (s.ctx c).live = false) ∧ s.launches = [] ∧ s.frozen = false ∧
      s.pilot = none ∧ (∀ f q, (s.queue f q).st = .disabled) ∧ (∀ i, (s.slot i).holder = none ∧ (s.slot i).ops = []) ∧
      s.colls = [] ∧ s.powerLimit = 2000 ∧ s.fwOpen = none) ∧
   (∀ (r : BringUp) (s : State), Completes (.reset r) s (fun t =>
      t.frec = s.frec ∧ t.frecLost = s.frecLost ∧
      (∀ c, (s.core c).laneMask &&& (t.core c).laneMask = (s.core c).laneMask) ∧
      t.frozen = false ∧ t.hart = Hart.initial ∧ t.harts = [] ∧ t.slots = [] ∧ t.spills = [] ∧ t.ctxs = [] ∧ t.fns = [] ∧
      t.launches = [] ∧ t.colls = [] ∧ t.comms = [] ∧ t.powerLimit = 2000 ∧ t.fwOpen = none ∧
      ((r.diesPass = false → t.pilot.isSome = true) ∧
       (s.fwNext = false → r.active.sigOk = false → t.pilot.isSome = true))))

/-! ## Memory's canonical form (log 3) -/

/-- Memory after reset is in canonical form. What of it is the model's choice or reading is in log 3. -/
def Obligations.ResetCanonical : Prop :=
  Canonical State.reset

/-- Every step keeps memory, and what the homes' L2 holds dirty, in canonical form: addresses strictly rising, and
none listed that holds what an unlisted address reads as. What of it is the model's choice or reading is in log 3. -/
def Obligations.StepKeepsCanonical : Prop :=
  ∀ s t : State, Canonical s → step s = .next t → Canonical t

/-! ## Loads and stores (11, 22 to 25: R378, R380, R410, R413) -/

/-- R378: LD of an aligned address reads its bytes, little-endian, as the hart's ordinary loads see them (its own
pending stores first, R219), and sign-extends them for codes 0 to 3, zero-extends them for 4 to 6. Nothing is stored.
R378, R410, R246, R265, R256: a misaligned LD or ST raises ALIGN with the address as TRAPVAL and its own kind, and a
load of poison raises POISON with the poisoned granule; the register is not written. What of it is the model's choice
or reading is in log 18, 23 and 75. -/
def Obligations.LoadsRead : Prop :=
   (∀ (s s1 : State) (d a : BitVec 6) (o : BitVec 10) (z : BitVec 3) (ls : List Loc) (fs : List (Nat × Nat)),
      let va := s.rs a + o.signExtend 64
      let n := 2 ^ (z.toNat % 4)
      z.toNat ≤ 6 → va.toNat % n = 0 → locateN s.hart.id va.toNat n .read false s = .ok (ls, fs) s1 →
      SpanFree s1 ls → (∀ l ∈ ls, LocSound s1 l ∧ CopyClean s1 l) →
        let x := leNat (ls.map (locByte s1 s1.hart false))
        Completes (.ld d a o z) s
          (WritesScalar s1 · d (if z.toNat ≤ 3 then (BitVec.ofNat (8 * n) x).signExtend 64 else BitVec.ofNat 64 x))) ∧
   (∀ (s s1 : State) (d a : BitVec 6) (o : BitVec 10) (z : BitVec 3) (bs : List Byte) (i : Nat),
      let va := s.rs a + o.signExtend 64
      let pc := s.hart.pc
      (va.toNat % 2 ^ (z.toNat % 4) ≠ 0 →
        exec (.ld d a o z) s = .next (takeTrap s s.hart.id .align .read va pc pc)) ∧
      (va.toNat % 2 ^ z.toNat ≠ 0 →
        exec (.st d a o z) s = .next (takeTrap s s.hart.id .align .write va pc pc)) ∧
      (va.toNat % 2 ^ (z.toNat % 4) = 0 →
        loadRaw s.hart.id va.toNat (2 ^ (z.toNat % 4)) s = .ok (bs, some i) s1 →
        exec (.ld d a o z) s =
          .next (takeTrap s1 s1.hart.id .poison .read (poisonVal (va.toNat + i)) s1.hart.pc s1.hart.pc)))

/-- R410, R217, R219: ST of an aligned address to physical memory: the hart's later loads of the stored bytes read
them, every other byte reads as before, no byte at home has changed yet, and nothing else of the machine changes but
the digest of R296 and the PC. R199, R410: ST to scratch takes effect in the slot's scratch at once, and nothing else
changes but the digest and the PC. What of it is the model's choice or reading is in log 14 and 23. -/
def Obligations.StoresAreSeen : Prop :=
   (∀ (s s1 : State) (d a : BitVec 6) (o : BitVec 10) (z : BitVec 3) (pa : Nat) (fs : List (Nat × Nat)),
      let va := s.rs a + o.signExtend 64
      let n := 2 ^ z.toNat
      let bs := leBytes n (s.rs d).toNat
      z.toNat ≤ 3 → va.toNat % n = 0 → locateN s.hart.id va.toNat n .write false s = .ok (places pa n, fs) s1 →
      Sound s1 pa n →
        Completes (.st d a o z) s (fun t => StoresBytes s1 t false (withAddr pa bs) ∧
          t = s1.withHart { foldedHart s1 va.toNat bs with
            sbuf := t.hart.sbuf, stores := t.hart.stores, pc := s1.hart.pc + 4 })) ∧
   (∀ (s s1 : State) (d a : BitVec 6) (o : BitVec 10) (z : BitVec 3) (off : Nat) (fs : List (Nat × Nat)),
      let va := s.rs a + o.signExtend 64
      let n := 2 ^ z.toNat
      let bs := leBytes n (s.rs d).toNat
      z.toNat ≤ 3 → va.toNat % n = 0 → locateN s.hart.id va.toNat n .write false s = .ok (scratchPlaces off n, fs) s1 →
      SpanFree s1 (scratchPlaces off n) →
        Completes (.st d a o z) s (fun t =>
          (∀ side q, locByte t t.hart side (.scr q) = byteAfter off bs q (locByte s1 s1.hart side (.scr q))) ∧
          t = (s1.setSlot s1.hart.slotId (t.slot s1.hart.slotId)).withHart
            { foldedHart s1 va.toNat bs with pc := s1.hart.pc + 4 } ∧
          t.slot s1.hart.slotId = { s1.slot s1.hart.slotId with
            scratch := (t.slot s1.hart.slotId).scratch, scrPoison := (t.slot s1.hart.slotId).scrPoison }))

/-- R223, R225, R380: LDS reads its bytes at home, writes them sign-extended (z = 2), whole (3) or zero-extended (6),
and with aq then acquires at the next cut; at FREE and DIGEST nothing else changes, whatever its scope. R218, R223,
R225, R413: STS to physical memory stores at home at once: with rl it first releases at the next cut, and then a
pending store of the hart to a byte it writes goes home before it. What of it is the model's choice or reading is in
log 8, 16 and 76. -/
def Obligations.StrongAccessesAtHome : Prop :=
   (∀ (s s1 : State) (d a : BitVec 6) (c : BitVec 2) (q : BitVec 1) (z : BitVec 3) (ls : List Loc)
      (fs : List (Nat × Nat)),
      let va := (s.rs a).toNat
      let n := if z = 3 then 8 else 4
      z = 2 ∨ z = 3 ∨ z = 6 → va % n = 0 → locateN s.hart.id va n .read true s = .ok (ls, fs) s1 →
      SpanFree s1 ls → (∀ l ∈ ls, LocSound s1 l) → Unlogged s1 →
        let x := leNat (ls.map (locByteHome s1 s1.hart))
        let v : Word := if z = 2 then (BitVec.ofNat 32 x).signExtend 64 else BitVec.ofNat 64 x
        Completes (.lds d a c q z) s (fun t => ∃ u, WritesScalar s1 u d v ∧
          t = if q = 1 then acquireAt u s1.hart.id else u)) ∧
   (∀ (s s1 : State) (d a : BitVec 6) (c : BitVec 2) (r : BitVec 1) (z : BitVec 3) (pa : Nat) (fs : List (Nat × Nat)),
      let va := (s.rs a).toNat
      let n := if z = 3 then 8 else 4
      let bs := leBytes n (s.rs d).toNat
      z = 2 ∨ z = 3 → va % n = 0 → locateN s.hart.id va n .write true s = .ok (places pa n, fs) s1 →
      Sound s1 pa n → (∀ i < n, devBacked (pa + i) = true) → Unlogged s1 → (s1.hart.queue = [] ∨ s1.hart.frozen = true) →
        let s2 := if r = 1 then releaseAt s1 s1.hart.id else s1
        let s3 := bringHome s2 s1.hart.id (places pa n)
        Completes (.sts d a c r z) s (fun t =>
          (∀ q, fnAddr q = 0 → t.peek q = byteAfter pa bs q (s3.peek q)) ∧
          t.hart = { foldedHart s3 va bs with stores := s3.hart.stores + n, pc := s3.hart.pc + 4 }))

/-- R228, R347: AMO's whole step is atomic at home: it returns the old value, sign-extended at 32 bits, and leaves the
combined one; rl releases before it and aq acquires after it. R445: WAITVAL whose condition holds of the bytes at home
completes, and with aq acquires; one whose condition does not hold parks the hart at the line, at the same
instruction. What of it is the model's choice or reading is in log 8 and 16. -/
def Obligations.AtomicsAndWaits : Prop :=
   (∀ (s s1 : State) (c : BitVec 2) (d a b : BitVec 6) (o : BitVec 4) (w q r : BitVec 1) (pa : Nat)
      (fs : List (Nat × Nat)),
      let va := (s.rs a).toNat
      let n := if w = 1 then 8 else 4
      o.toNat ≤ 10 → va % n = 0 → locateN s.hart.id va n .write true s = .ok (places pa n, fs) s1 →
      Sound s1 pa n → (∀ i < n, devBacked (pa + i) = true) → Unlogged s1 → (s1.hart.queue = [] ∨ s1.hart.frozen = true) →
      (∀ k ∈ s1.hart.kin, (s1.hartOf k.1).id = k.1 ∨ (s1.hartOf k.1).sbuf = []) →
        let s2 := if r = 1 then releaseAt s1 s1.hart.id else s1
        let s3 := bringHome s2 s1.hart.id (places pa n)
        let old := s3.peekN pa n
        let opd := (s.rs b).toNat % 2 ^ (8 * n)
        let cmp := (s.rs d).toNat % 2 ^ (8 * n)
        let new := match o.toNat with
          | 0 => (old + opd) % 2 ^ (8 * n)
          | 1 => old &&& opd
          | 2 => old ||| opd
          | 3 => old ^^^ opd
          | 4 => if toSigned (8 * n) opd < toSigned (8 * n) old then opd else old
          | 5 => if toSigned (8 * n) old < toSigned (8 * n) opd then opd else old
          | 6 => min old opd
          | 7 => max old opd
          | 8 => opd
          | 9 => if old = cmp then opd else old
          | _ => (fAdd .f32 .rne old opd).1
        Completes (.amo c d a b o w q r) s (fun t =>
          t.hart.rs d = (if d = 0 then 0 else if w = 1 then BitVec.ofNat 64 old else (BitVec.ofNat 32 old).signExtend 64) ∧
          (∀ x, x ≠ d → t.hart.rs x = s1.hart.rs x) ∧ t.hart.pc = s1.hart.pc + 4 ∧
          (∀ p, fnAddr p = 0 → t.peek p = byteAfter pa (leBytes n new) p (s3.peek p)) ∧
          (q = 1 → t.hart.lastAcq = (t.ctx (ctxOf t t.hart)).cut))) ∧
   (∀ (s s1 : State) (d a : BitVec 6) (sc : BitVec 2) (q w : BitVec 1) (cc : BitVec 3) (pa : Nat) (fs : List (Nat × Nat)),
      let va := (s.rs a).toNat
      let n := if w = 1 then 8 else 4
      cc.toNat ≤ 5 → va % n = 0 → locateN s.hart.id va n .read true s = .ok (places pa n, fs) s1 →
      Sound s1 pa n → Unlogged s1 →
        let x := s1.peekN pa n
        let y := (s.rs d).toNat % 2 ^ (8 * n)
        let holds := match cc.toNat with
          | 0 => x = y
          | 1 => x ≠ y
          | 2 => toSigned (8 * n) x < toSigned (8 * n) y
          | 3 => toSigned (8 * n) y ≤ toSigned (8 * n) x
          | 4 => x < y
          | _ => y ≤ x
        (holds → Completes (.waitval d a sc q w cc) s (fun t =>
          t = (if q = 1 then acquireAt s1 s1.hart.id else s1).advance)) ∧
        (¬ holds → Completes (.waitval d a sc q w cc) s (fun t =>
          ∃ seen, t = awaits s (.parked (.waitval false (pa / 64) seen)) s1)))

/-- R217: a release performs every pending store of its hart at home, so that each byte of device memory there holds
the hart's latest store to it, and takes the cut it is given; the hart keeps no pending store. R217: an acquire takes
its cut; the hart's later reads are ordered by it, and it reads each publish window as it stands now (R231). No byte
of memory changes. What of it is the model's choice or reading is in log 16 and 23. -/
def Obligations.ReleasesAndAcquires : Prop :=
   (∀ (s : State) (n : Nat),
      let h := s.hart
      let t := releaseCut s h.id n
      (∀ pa, devBacked pa = true → t.peek pa = (storedAt (h.sbuf.map (fun p => (p.a, p.b))) pa).getD (s.peek pa)) ∧
      t.hart.sbuf = [] ∧ (t.ctx (ctxOf s h)).cut = max (s.ctx (ctxOf s h)).cut n) ∧
   (∀ (s : State) (n : Nat),
      let h := s.hart
      let c := ctxOf s h
      let t := acquireCut s h.id n
      t.hart = { h with lastAcq := n, views := (s.ctx c).windows.map (·.gen) } ∧
      t.ctx c = { s.ctx c with cut := max (s.ctx c).cut n } ∧ t.mem = s.mem ∧ t.l2 = s.l2 ∧ t.harts = s.harts ∧ t.slots = s.slots)

/-! ## Control registers and traps (03 R68, 15 R256 to R264, 22 R364) -/

/-- R364, R365: CTLRD writes the register's value, from the hart, its context or its launch: VL and VTYPE as they
stand behind what is queued, VSTART and RPOS of a frozen vector unit, else zero. R364, R365: CTLWR replaces the
register's writable fields and nothing else: a VTYPE write clamps VL, FRM is a field of VTYPE, HM of TRAPCAUSE is
kept. R69, R364, R105: CTLRD of an unassigned number, CTLWR of one or of a read-only register, and CTLWR of VTYPE, FRM
or SPDESC while a handler runs before CLAIM raise ILLEGAL_OP with the word as TRAPVAL. R366, R272: so do both of a
register of an absent feature, MTOL_F to MTOL_A of 0x0003, ALGSTAT of 0x0001 and 0x0006, LOGSEQ of 0x0004, and the use
of it is told to the hypervisor. R303, R383, R294: LOGMARK of a context that records appends one record of type 0xA to
the log, which holds the value of s[sd], the immediate and vhash of the value under the hart's LOGSEQ, and counts it;
at FREE and DIGEST it writes nothing. Without capability 0x0004 it raises ILLEGAL_OP. What of it is the model's choice
or reading is in log 38. -/
def Obligations.ControlRegisters : Prop :=
   (∀ (s : State) (d : BitVec 6) (n : BitVec 12) (v : Word),
      let h := s.hart
      let c := s.ctx (ctxOf s h)
      (n.toNat, v) ∈ ([(0x000, BitVec.ofNat 64 h.prog.vl), (0x004, h.spdesc.zeroExtend 64), (0x005, BitVec.ofNat 64 (vlcap s h)),
        (0x010, BitVec.ofNat 64 h.prog.frm.code), (0x011, h.fflags.zeroExtend 64), (0x021, BitVec.ofNat 64 h.nharts),
        (0x022, h.lgown.zeroExtend 64), (0x024, h.grp[0].zeroExtend 64), (0x027, h.grp[3].zeroExtend 64),
        (0x040, c.trapbase), (0x041, h.trapcause), (0x042, h.trappc), (0x043, h.trapval),
        (0x044, c.save + BitVec.ofNat 64 (0x10000 * (h.core * 4 + h.id % 4))), (0x050, c.scrbase),
        (0x001, BitVec.ofNat 64 (h.prog.et.code + 16 * h.prog.frm.code + if c.lchk && !absent s 5 then 256 else 0)),
        (0x002, BitVec.ofNat 64 (if h.frozen then h.vstart else 0)), (0x003, if h.frozen then h.rpos else 0),
        (0x020, h.hartid), (0x025, h.grp[1].zeroExtend 64), (0x026, h.grp[2].zeroExtend 64),
        (0x060, h.mstat ||| (if cuv (s.slot h.slotId) then 0x80 else 0)),
        (0x070, BitVec.ofNat 64 (s.launch h.launch).level.code), (0x071, h.digest),
        (0x080, if h.yreq then 1 else 0), (0x081, BitVec.ofNat 64 c.ydl), (0x090, BitVec.ofNat 64 s.cycle),
        (0x091, BitVec.ofNat 64 s.time), (0x0A0, c.capbase)] : List (Nat × Word)) ∨
      (absent s 3 = false ∧ (n.toNat, v) ∈ ([(0x061, h.mtol[0]), (0x062, h.mtol[1]), (0x063, h.mtol[2]), (0x064, h.mtol[3])] :
        List (Nat × Word))) ∨
      ((absent s 1 = false ∨ absent s 6 = false) ∧ n.toNat = 0x065 ∧ v = h.algstat.zeroExtend 64) ∨
      (absent s 4 = false ∧ n.toNat = 0x072 ∧ v = h.logseq.zeroExtend 64) →
      h.queue = [] → Completes (.ctlrd d n) s (WritesScalar s · d v)) ∧
   (∀ (s : State) (d : BitVec 6) (n : BitVec 12) (h1 : Hart),
      let h := s.hart
      let v := s.rs d
      (n.toNat, h1) ∈ ([
        (0x001, { h with et := ET.ofCode (v.toNat % 8), frm := Frm.ofCode (v.toNat / 16 % 4),
                         vl := min h.vl (h.lanes * 256 / (ET.ofCode (v.toNat % 8)).bytes) }),
        (0x004, { h with spdesc := v.extractLsb' 0 32 }), (0x010, { h with frm := Frm.ofCode (v.toNat % 4) }),
        (0x011, { h with fflags := v.extractLsb' 0 5 }),
        (0x041, { h with trapcause := (v &&& 0x3FF) ||| (h.trapcause &&& 0x8000) }),
        (0x042, { h with trappc := v }), (0x043, { h with trapval := v }),
        (0x060, { h with mstat := v &&& mstatMask })] : List (Nat × Hart)) ∨
      (absent s 3 = false ∧ (n.toNat, h1) ∈ ([(0x061, { h with mtol := h.mtol.set 0 v }), (0x062, { h with mtol := h.mtol.set 1 v }),
        (0x063, { h with mtol := h.mtol.set 2 v }), (0x064, { h with mtol := h.mtol.set 3 v })] : List (Nat × Hart))) ∨
      ((absent s 1 = false ∨ absent s 6 = false) ∧ n.toNat = 0x065 ∧ h1 = { h with algstat := v.extractLsb' 0 2 }) →
      h.queue = [] → h.frozen = false →
        Completes (.ctlwr d n) s (fun t => t = s.withHart { h1 with pc := h.pc + 4 })) ∧
   (∀ (s : State) (d : BitVec 6) (n : BitVec 12),
      let ill := fun (i : Instr) =>
        exec i s = .next (takeTrap s s.hart.id .illegalOp .read ((encode i).zeroExtend 64) s.hart.pc s.hart.pc)
      (n ∉ ([0x000, 0x001, 0x002, 0x003, 0x004, 0x005, 0x010, 0x011, 0x020, 0x021, 0x022, 0x024, 0x025, 0x026, 0x027, 0x040,
          0x041, 0x042, 0x043, 0x044, 0x050, 0x060, 0x061, 0x062, 0x063, 0x064, 0x065, 0x070, 0x071, 0x072, 0x080, 0x081,
          0x090, 0x091, 0x0A0] : List (BitVec 12)) → ill (.ctlrd d n)) ∧
      (n ∉ ([0x001, 0x004, 0x010, 0x011, 0x041, 0x042, 0x043, 0x060, 0x061, 0x062, 0x063, 0x064, 0x065] :
          List (BitVec 12)) → ¬ (n = 0x072 ∧ absent s 4 = true) → ill (.ctlwr d n)) ∧
      (s.hart.frozen = true → n = 0x001 ∨ n = 0x004 ∨ n = 0x010 → ill (.ctlwr d n)) ∧
      ((n ∈ ([0x061, 0x062, 0x063, 0x064] : List (BitVec 12)) ∧ absent s 3 = true) ∨
          (n = 0x065 ∧ absent s 1 = true ∧ absent s 6 = true) ∨ (n = 0x072 ∧ absent s 4 = true) →
        ∀ i ∈ [Instr.ctlrd d n, Instr.ctlwr d n],
          let m := maskedRecord (encode i) s.hart.pc s
          exec i s = .next (takeTrap m m.hart.id .illegalOp .read ((encode i).zeroExtend 64) m.hart.pc m.hart.pc))) ∧
   (∀ (s s1 : State) (d : BitVec 6) (c : BitVec 12),
      let h := s.hart
      let k := ctxOf s h
      let l := s.launch h.launch
      let v := s.rs d
      let rec_ := logRecord 0xA (if l.rerun = 0 then 0 else 1) (l.lnch % 65536) h.index h.offset h.stage h.logseq.toNat 0
        (vhash v).toNat c.toNat v.toNat
      (absent s 4 = true →
        let m := maskedRecord (encode (.logmark d c)) h.pc s
        exec (.logmark d c) s =
          .next (takeTrap m m.hart.id .illegalOp .read ((encode (.logmark d c)).zeroExtend 64) m.hart.pc m.hart.pc)) ∧
      (absent s 4 = false →
        ((s.ctx k).level = .record → logAppend s k rec_ = some s1 → Completes (.logmark d c) s (fun t =>
          t = s1.withHart { s1.hart with logseq := h.logseq + 1, pc := h.pc + 4 })) ∧
        (Unlogged s → Completes (.logmark d c) s (GoesTo s · (h.pc + 4)))))

/-- R256: TRAPCAUSE holds the cause's number in its low byte, the access kind of PAGE, PERM, ALIGN and WALK_ABORT
above it, and HM. R260, R358, R416, R105, R244: TRAP, BREAK, a word that is no instruction, and a fetch that faults
each take their trap: TRAP and BREAK with their code as TRAPVAL and scalar issue to continue after them, the others at
the PC itself. R264: a trap taken while HM = 1 does not enter a handler: the launch ends with HANDLER_FAULT, and its
number holds no launch any more; so does a CLAIM or a RESUME outside a handler trap with ILLEGAL_OP (R262). What of it
is the model's choice or reading is in log 20 and 21. -/
def Obligations.TrapsEnterTheHandler : Prop :=
   (∀ (c : Cause) (k : Kind), (causeWord c k).getLsbD 15 = true ∧ (causeWord c k).extractLsb' 0 8 = BitVec.ofNat 8 c.code ∧
      (causeWord c k).extractLsb' 8 2 = (if c.hasKind then BitVec.ofNat 2 k.code else 0) ∧ causeWord c k < 0x10000#64) ∧
   (∀ (s : State) (pa : Nat) (c : BitVec 12) (w : BitVec 32),
      s.hart.hm = false → SaveArea s .write pa →
        let pc := s.hart.pc
        Completes (.trap c) s (TrapTaken s · pa .trap .read (c.zeroExtend 64) pc (pc + 4)) ∧
        Completes (.brk c) s (TrapTaken s · pa .brk .read (c.zeroExtend 64) pc (pc + 4)) ∧
        Completes (.illegalOp w) s (TrapTaken s · pa .illegalOp .read (w.zeroExtend 64) pc pc) ∧
        Completes (.fetchFault false) s (TrapTaken s · pa .page .exec pc pc pc) ∧
        Completes (.fetchFault true) s (TrapTaken s · pa .perm .exec pc pc pc)) ∧
   (∀ (s : State) (c : Cause) (k : Kind) (val pos spc : Word),
      (s.hart.hm = true →
        takeTrap s s.hart.id c k val pos spc = handlerFault s s.hart (causeWord c k) pos ∧
        (takeTrap s s.hart.id c k val pos spc).launch s.hart.launch = Launch.initial) ∧
      (s.hart.hm = false →
        exec .claim s = .next (takeTrap s s.hart.id .illegalOp .read 0x0A00007E s.hart.pc s.hart.pc) ∧
        exec .resume s = .next (takeTrap s s.hart.id .illegalOp .read 0x0800007E s.hart.pc s.hart.pc)))

/-- R262, R405: the first CLAIM of a handler leaves the vector queue empty and the vector unit running, VSTART and
RPOS 0, VL and VTYPE as they stand behind what was queued, the registers as they are, and marks the save area claimed;
a second one does nothing. R262, R263: RESUME of a handler that has not claimed restores s56 to s63 from the save
area, clears HM, lets the frozen vector queue go on, and scalar issue continues at the saved SPC. R262, R263: RESUME
of a handler that has claimed takes back what stands in a well-formed save area: VL, VTYPE, VSTART, RPOS and SPDESC,
the masks, the vector registers and the queue, whose entries keep the changes of VL and VTYPE that waited before them;
it clears CLAIMED and HM, restores s56 to s63, and scalar issue continues at the saved SPC. What of it is the model's
choice or reading is in log 44 and 45. -/
def Obligations.ClaimAndResume : Prop :=
   (∀ (s : State) (pa : Nat),
      let h := s.hart
      let base := (saveBase (s.ctx (ctxOf s h)) h).toNat
      let area := fun (q : State) (off n : Nat) => leNat ((List.range n).map (fun i => ordinaryByte q q.hart false (pa + off + i)))
      h.hm = true → base % 65536 = 0 → (∀ off < 0x10000, Mapped s (base + off) .read (pa + off)) →
      (∀ off < 0x10000, Mapped s (base + off) .write (pa + off)) → Sound s pa 0x10000 → (∀ off < 8, CleanCopy s (pa + off)) →
      (∀ r < 48, h.vpr r = 0) →
      h.queue.length ≤ 32 → h.lanes ≠ 0 → Unlogged s →
        (area s 0 8 % 2 = 1 → Completes .claim s (GoesTo s · (h.pc + 4))) ∧
        (area s 0 8 % 2 = 0 → Completes .claim s (fun t =>
          t = s.withHart { h.prog with
            kept := h.queue, keptSets := h.sets, keptMarks := h.fmarks, queue := [], sets := [], fmarks := [], vstart := 0,
            rpos := 0, frozen := false, pc := h.pc + 4, sbuf := t.hart.sbuf, stores := t.hart.stores } ∧
          area t 0 8 = area s 0 8 + 1 ∧ area t 0x10 8 = h.vl % 2 ^ 64 ∧ area t 0x20 8 = h.vstart % 2 ^ 64 ∧
          area t 0x28 8 = h.rpos.toNat ∧ area t 0x30 8 = h.spdesc.toNat ∧ area t 0x38 8 = h.queue.length))) ∧
   (∀ (s : State) (pa : Nat),
      let h := s.hart
      let area := fun (off : Nat) => leNat ((List.range 8).map (fun i => ordinaryByte s h false (pa + off + i)))
      h.hm = true → SaveArea s .read pa → (h.queue = [] ∨ h.frozen = true) → area 0 % 2 = 0 → Unlogged s →
        Completes .resume s (fun t =>
          t = s.withHart { h with
            s := t.hart.s, sp := t.hart.sp, trapcause := h.trapcause &&& ~~~0x8000, frozen := false,
            arrived := (area 0).testBit 2, pc := BitVec.ofNat 64 (area 8) } ∧
          ∀ r : BitVec 6, t.hart.spBad r = h.spBad r ∧ t.hart.rs r =
            if 56 ≤ r.toNat then BitVec.ofNat 64 (area (0x100 + 8 * r.toNat)) else h.rs r)) ∧
   (∀ (s : State) (pa : Nat),
      let h := s.hart
      let bytes := areaBytes s pa
      let num := fun (off n : Nat) => leNat (bytes off n)
      let vecNum := fun (off n : Nat) => leNat ((List.range n).map (fun i => ordinaryByte s h true (pa + off + i)))
      let qc := num 0x38 8
      h.hm = true → WholeArea s pa → h.lanes ≠ 0 → (h.queue = [] ∨ h.frozen = true) → Unlogged s → num 0 8 % 2 = 1 →
      saveAmiss h (num 0 8) (bytes 0x10 48) (bytes 0x400 (32 * qc)) = false → fieldsAmiss (bytes 0x40 104) = false →
      (∀ p ∈ saveReserved, ∀ b ∈ bytes p.1 p.2, b = 0) → (∀ e, h.kept.head? = some e → e.sets = []) →
      (qc = 0 → h.keptSets = [] ∧ ∀ e ∈ h.kept, e.sets = []) →
        Completes .resume s (fun t =>
          t = s.withHart { h with
            s := t.hart.s, sp := t.hart.sp, trapcause := h.trapcause &&& ~~~0x8000, frozen := false
            arrived := (num 0 8).testBit 2, pc := BitVec.ofNat 64 (num 8 8), vl := num 0x10 8
            et := ET.ofCode (num 0x18 8 % 8), frm := Frm.ofCode (num 0x18 8 / 16 % 4), vstart := num 0x20 8
            rpos := BitVec.ofNat 64 (num 0x28 8), spdesc := BitVec.ofNat 32 (num 0x30 8)
            k := t.hart.k, v := t.hart.v, vp := t.hart.vp
            queue := t.hart.queue, sets := (h.kept.drop qc).flatMap (·.sets) ++ h.keptSets, fmarks := t.hart.fmarks
            kept := [], keptSets := [], keptMarks := [], sbuf := t.hart.sbuf, stores := t.hart.stores } ∧
          (∀ r : BitVec 6, t.hart.spBad r = (decide (r.toNat < 56) && h.spBad r) ∧ t.hart.rs r =
            if 56 ≤ r.toNat then BitVec.ofNat 64 (num (0x100 + 8 * r.toNat) 8) else h.rs r) ∧
          (∀ r < 48, t.hart.vr r = BitVec.ofNat 8192 (vecNum (0x1000 + 0x400 * r) (256 * h.lanes)) ∧ t.hart.vpr r = 0) ∧
          (∀ r < 12, t.hart.kr r = BitVec.ofNat 1024 (num (0x800 + 128 * r) 128)) ∧
          t.hart.queue.map (fun e => (e.pc, e.word, e.op1, e.op2, e.sets)) = (List.range qc).map (fun i =>
            let at_ := 0x400 + 32 * i
            (BitVec.ofNat 64 (num at_ 8), BitVec.ofNat 32 (num (at_ + 8) 4), BitVec.ofNat 64 (num (at_ + 16) 8),
              BitVec.ofNat 64 (num (at_ + 24) 8), ((h.kept[i]?).map (·.sets)).getD [])) ∧
          leNat (areaBytes t pa 0 8) + 1 = num 0 8))

/-! ## The vector computational instructions (03, 22 to 25) -/

/-- R417, R418, R58: the vector integer group. Element n of va (x) and of vb or the sb scalar (y) are read as they
stood before, at the ET width of W bits; what each member writes is the value below modulo 2^W. It raises no flag and
does nothing else. R418, R426, R106: VAND, VOR and VXOR act on the bits of any ET; VFSGN on the sign bit of floats;
neither raises a flag. -/
def Obligations.VectorIntegersAndBits : Prop :=
   (∀ (s : State) (d a b : BitVec 6) (k : BitVec 4) (z f u : BitVec 1),
      VectorFree s → s.hart.et.isFloat = false → d.toNat < 48 → Clean s k a → (f = 0 → Clean s k b) →
        let w := s.hart.et.bytes
        let W := 8 * w
        let x := fun n => s.hart.elem a.toNat w n
        let y := fun n => secondOf s f b n
        let signed := fun (v : Nat) => (BitVec.ofNat W v).toInt
        let value := fun (v : Nat) => if u = 1 then (v : Int) else signed v
        let clamp := fun (v : Int) =>
          if u = 1 then max 0 (min v (2 ^ W - 1)) else max (-2 ^ (W - 1)) (min v (2 ^ (W - 1) - 1))
        let is := fun (i : Instr) (g : Nat → Int) =>
          Completes i s (Elementwise s · d.toNat w k z (fun n => ((g n % 2 ^ W).toNat, 0)))
        is (.vadd d a b k z f) (fun n => x n + y n) ∧ is (.vsub d a b k z f) (fun n => x n - y n) ∧
        is (.vmul d a b k z f) (fun n => x n * y n) ∧
        is (.vmulh d a b k z f u) (fun n => value (x n) * value (y n) / 2 ^ W) ∧
        is (.vmin d a b k z f u) (fun n => if value (x n) ≤ value (y n) then x n else y n) ∧
        is (.vmax d a b k z f u) (fun n => if value (y n) ≤ value (x n) then x n else y n) ∧
        is (.vshl d a b k z f) (fun n => x n * 2 ^ (y n % W)) ∧ is (.vshr d a b k z f) (fun n => x n / 2 ^ (y n % W)) ∧
        is (.vsar d a b k z f) (fun n => signed (x n) / 2 ^ (y n % W)) ∧
        is (.vaddsat d a b k z f u) (fun n => clamp (value (x n) + value (y n))) ∧
        is (.vsubsat d a b k z f u) (fun n => clamp (value (x n) - value (y n)))) ∧
   (∀ (s : State) (d a b : BitVec 6) (k : BitVec 4) (z f : BitVec 1) (g : BitVec 2),
      VectorFree s → d.toNat < 48 → Clean s k a → (f = 0 → Clean s k b) →
        let w := s.hart.et.bytes
        let top := 2 ^ (8 * w - 1)
        let x := fun n => s.hart.elem a.toNat w n
        let y := fun n => secondOf s f b n
        let is := fun (i : Instr) (g : Nat → Nat) => Completes i s (Elementwise s · d.toNat w k z (fun n => (g n, 0)))
        is (.vand d a b k z f) (fun n => x n &&& y n) ∧ is (.vor d a b k z f) (fun n => x n ||| y n) ∧
        is (.vxor d a b k z f) (fun n => x n ^^^ y n) ∧
        (s.hart.et.isFloat = true → f = 0 → g.toNat ≤ 2 → is (.vfsgn d a b k z g) (fun n =>
          x n % top + top * (match g.toNat with
            | 0 => y n / top
            | 1 => 1 - y n / top
            | _ => (x n / top + y n / top) % 2))))

/-- R417, R426: the vector float group computes each active element in the format of ET under FRM, and each active
element alone raises its flags. -/
def Obligations.VectorFloats : Prop :=
  ∀ (s : State) (d a b : BitVec 6) (k : BitVec 4) (z f n : BitVec 1),
    VectorFree s → s.hart.et.isFloat = true → d.toNat < 48 → Clean s k a →
      let w := s.hart.et.bytes
      let F := s.hart.et.fmt
      let m := s.hart.frm
      let x := fun n => s.hart.elem a.toNat w n
      let y := fun n => secondOf s f b n
      let is := fun (i : Instr) (g : Nat → Nat × Flags) => Completes i s (Elementwise s · d.toNat w k z g)
      is (.vfsqrt d a k z) (fun n => fSqrt F m (x n)) ∧ is (.vfrcp d a k z) (fun n => fRcp F m (x n)) ∧
      is (.vfrsq d a k z) (fun n => fRsq F m (x n)) ∧ is (.vfexp2 d a k z) (fun n => fExp2 F m (x n)) ∧
      is (.vflog2 d a k z) (fun n => fLog2 F m (x n)) ∧
      ((f = 0 → Clean s k b) →
        is (.vfadd d a b k z f) (fun n => fAdd F m (x n) (y n)) ∧ is (.vfsub d a b k z f) (fun n => fSub F m (x n) (y n)) ∧
        is (.vfmul d a b k z f) (fun n => fMul F m (x n) (y n)) ∧ is (.vfdiv d a b k z f) (fun n => fDiv F m (x n) (y n)) ∧
        is (.vfmin d a b k z f) (fun n => fMinMax F false (x n) (y n)) ∧
        is (.vfmax d a b k z f) (fun n => fMinMax F true (x n) (y n)) ∧
        (Clean s k d → is (.vfma d a b k z f n) (fun j => fMa F m (n = 1) (x j) (y j) (s.hart.elem d.toNat w j))))

/-- R422, R375, R53: what compares and mask instructions write to a mask or a scalar register: VCMP in integers, VFCMP
in floats, KOP's eight operations below VL, KMOV every bit below VLMAX(i8, n), KPOP the count and KFIRST the first of
the bits of ka that are active under mk. R322: MTREE's mask holds the committed tokens and the path from its token to
the root; a token beyond VL or the mask, or a parent that is not below its child, ends the walk and sets MTSTOP. -/
def Obligations.MasksWritten : Prop :=
   (∀ (s : State) (d ka kb : BitVec 4) (sd a b : BitVec 6) (k o : BitVec 4) (z f u : BitVec 1) (c : BitVec 2),
      VectorFree s → d.toNat < 12 →
        let w := s.hart.et.bytes
        let x := fun n => s.hart.elem a.toNat w n
        let y := fun n => secondOf s f b n
        let value := fun (v : Nat) => if u = 1 then (v : Int) else (BitVec.ofNat (8 * w) v).toInt
        let set := fun n => n < s.hart.vl ∧ (k = 15 ∨ (s.hart.kr k.toNat).getLsbD n = true) ∧
          (s.hart.kr ka.toNat).getLsbD n = true
        (Clean s k a → (f = 0 → Clean s k b) →
          (s.hart.et.isFloat = false → Completes (.vcmp d u f a b k z c) s (WritesMask s · d (elementwise s k z false (fun n =>
            match c.toNat with
            | 0 => decide (x n = y n)
            | 1 => decide (x n ≠ y n)
            | 2 => decide (value (x n) < value (y n))
            | _ => decide (value (x n) ≤ value (y n)))) (fun _ => False))) ∧
          (s.hart.et.isFloat = true →
            let r := fun n => fCmp s.hart.et.fmt (match c.toNat with | 0 => 0 | 1 => 4 | 2 => 1 | _ => 2) (x n) (y n)
            Completes (.vfcmp d f a b k z c) s
              (WritesMask s · d (elementwise s k z false (fun n => (r n).1)) (raisedBy s k (fun n => (r n).2))))) ∧
        Completes (.kop d ka kb o) s (WritesMask s · d (fun n =>
          if s.hart.vl ≤ n then none else
            let p := (s.hart.kr ka.toNat).getLsbD n
            let q := (s.hart.kr kb.toNat).getLsbD n
            some (match o.toNat with
              | 0 => p && q | 1 => p || q | 2 => p ^^ q | 3 => p && !q | 4 => p || !q | 5 => !(p && q) | 6 => !(p || q)
              | _ => p == q)) (fun _ => False)) ∧
        Completes (.kmov d ka) s (WritesMask s · d (fun n => some ((s.hart.kr ka.toNat).getLsbD n)) (fun _ => False)) ∧
        (∃ xs : List Nat, xs.Nodup ∧ (∀ n, n ∈ xs ↔ set n) ∧
          Completes (.kpop sd ka k) s (VectorScalar s · sd (BitVec.ofNat 64 xs.length) 0)) ∧
        (∃ v, Completes (.kfirst sd ka k) s (VectorScalar s · sd v 0) ∧
          ((∃ n, set n ∧ (∀ m < n, ¬ set m) ∧ v = BitVec.ofNat 64 n) ∨ ((∀ n, ¬ set n) ∧ v = BitVec.allOnes 64)))) ∧
   (∀ (s : State) (d : BitVec 4) (a b : BitVec 6),
      VectorFree s → absent s 6 = false → d.toNat < 12 → s.hart.vpr a.toNat = 0 →
        let tok := (s.rs b).toNat % 2 ^ 32
        let l := (s.rs b).toNat / 2 ^ 32
        let M := 256 * s.hart.lanes
        let parent := fun j => (BitVec.ofNat 16 (s.hart.elem a.toNat 2 j)).toInt
        let ok := fun j => j < s.hart.vl ∧ j < vlmaxOf s 2 ∧ l + j < M
        ∃ (path : List Nat) (stop : Bool),
          (∀ i < path.length, ok (path.getD i 0)) ∧
          (∀ i, i + 1 < path.length →
            parent (path.getD i 0) = path.getD (i + 1) 0 ∧ path.getD (i + 1) 0 < path.getD i 0) ∧
          (path = [] → ¬ ok tok ∧ stop = true) ∧ (path ≠ [] → path.head? = some tok) ∧
          (∀ x, path.getLast? = some x → (stop = false ↔ parent x = -1) ∧
            (stop = true → parent x < -1 ∨ (x : Int) ≤ parent x ∨ ¬ ok (parent x).toNat)) ∧
          Completes (.mtree d a b) s (fun t =>
            (∀ q < 1024, (t.hart.kr d.toNat).getLsbD q = true ↔ q < M ∧ (q < l ∨ ∃ j ∈ path, q = l + j)) ∧
            (∀ r, r ≠ d.toNat → t.hart.kr r = s.hart.kr r) ∧
            t = s.withHart { s.hart with
              k := t.hart.k, algstat := if stop then s.hart.algstat ||| 1 else s.hart.algstat, pc := s.hart.pc + 4,
              vstart := 0, rpos := 0 }))

/-- R424, R437, R438: the conversions, each side at its own width. A narrowing reads, and a widening writes, an even
register and the next, M = VLMAX(wide, n) elements to the first. -/
def Obligations.VectorConversions : Prop :=
  ([ET.i8, .i16, .i32, .i64, .f16, .bf16, .f32, .f64].map ET.wider =
    [some .i16, some .i32, some .i64, none, some .f32, some .f32, some .f64, none]) ∧
  ∀ (s : State) (d a : BitVec 6) (k : BitVec 4) (z u : BitVec 1) (st : BitVec 3) (m : BitVec 2) (p : BitVec 5)
    (wide : ET), VectorFree s → d.toNat < 48 → p.toNat < 24 →
      let et := s.hart.et
      let w := et.bytes
      let M := vlmaxOf s wide.bytes
      let at_ := fun n => if n < M then (2 * p.toNat, n) else (2 * p.toNat + 1, n - M)
      (let src := ET.ofCode st.toNat
       s.hart.vl ≤ vlmaxOf s src.bytes → CleanAt s k a src.bytes →
         Completes (.vcvt d a st k z) s (Elementwise s · d.toNat w k z (fun n =>
           convert src et s.hart.frm (s.hart.elem a.toNat src.bytes n)))) ∧
      (et.wider = some wide →
        (m.toNat ≤ 2 → (et.isFloat = true → m = 0) →
          (∀ n, s.hart.due k n = true → s.hart.elemBad (at_ n).1 wide.bytes (at_ n).2 = false) →
          let x := fun n => s.hart.elem (at_ n).1 wide.bytes (at_ n).2
          let signed := fun n => (BitVec.ofNat (8 * wide.bytes) (x n)).toInt
          Completes (.vnarrow d p m k z) s (Elementwise s · d.toNat w k z (fun n =>
            if et.isFloat then fConvert wide.fmt et.fmt s.hart.frm (x n)
            else match m.toNat with
              | 0 => (x n % 2 ^ (8 * w), 0)
              | 1 => ((max (-2 ^ (8 * w - 1)) (min (signed n) (2 ^ (8 * w - 1) - 1)) % 2 ^ (8 * w)).toNat, 0)
              | _ => (min (x n) (2 ^ (8 * w) - 1), 0)))) ∧
        ((et.isFloat = true → u = 0) → Clean s k a →
          let x := fun n => s.hart.elem a.toNat w n
          let g := fun n => if et.isFloat then widenElem 0 et wide (x n)
            else if u = 1 then (x n, 0)
            else (((BitVec.ofNat (8 * w) (x n)).signExtend (8 * wide.bytes)).toNat, 0)
          let e := elementwise s k z 0 (fun n => (g n).1)
          Completes (.vwiden p a u k z) s (WritesElems s · wide.bytes (fun r n =>
            if r = 2 * p.toNat ∧ n < M then e n else if r = 2 * p.toNat + 1 then e (M + n) else none)
            (raisedBy s k (fun n => (g n).2)))))

/-- R423, R429, R439, R440: permutations, whose sources may lie anywhere below VLMAX; a source beyond reads as zero. -/
def Obligations.VectorPermutes : Prop :=
  ∀ (s : State) (d a b : BitVec 6) (k : BitVec 4) (z : BitVec 1), VectorFree s → d.toNat < 48 →
    let w := s.hart.et.bytes
    let V := vlmaxOf s w
    let x := fun n => s.hart.elem a.toNat w n
    let acts := fun n => (List.range n).filter (s.hart.active k)
    let j := fun n => s.hart.elem b.toNat w n
    let amt := (s.rs b).toNat
    let is := fun (i : Instr) (f : Nat → Option Nat) =>
      Completes i s (WritesElems s · w (only d.toNat f) (fun _ => False))
    (Clean s k b → Gathers s k a.toNat w (fun n => if j n < V then some (j n) else none) →
      is (.vperm d a b k z) (elementwise s k z 0 (fun n => if j n < V then x (j n) else 0))) ∧
    (Gathers s k a.toNat w (fun n => if n + amt < V then some (n + amt) else none) →
      is (.vslide d a b k z 1) (elementwise s k z 0 (fun n => if n + amt < V then x (n + amt) else 0))) ∧
    (Gathers s k a.toNat w (fun n => if amt ≤ n then some (n - amt) else none) →
      is (.vslide d a b k z 0) (fun n =>
        if s.hart.active k n = true ∧ n < amt then none else elementwise s k z 0 (fun n => x (n - amt)) n)) ∧
    (Clean s k a → is (.vcompress d a k z) (fun n =>
      if s.hart.vl ≤ n then none
      else match (acts s.hart.vl)[n]? with
        | some i => some (x i)
        | none => if z = 1 then some 0 else none)) ∧
    (Gathers s k a.toNat w (fun n => some (acts n).length) →
      is (.vexpand d a k z) (elementwise s k z 0 (fun n => x (acts n).length))) ∧
    (s.hart.et.isFloat = false → is (.viota d k z) (elementwise s k z 0 (fun n => (acts n).length % 2 ^ (8 * w))))

/-- R421, R425, R428, R435, R436, R64: merges, broadcasts and moves between vector and scalar registers; an index that a
scalar gives is read unsigned and VL does not bound it; the number of a computed register is read when VMOVX dispatches,
and one of 48 or more raises ILLEGAL_REG. -/
def Obligations.VectorMoves : Prop :=
  ∀ (s : State) (d a b : BitVec 6) (k : BitVec 4) (z f y : BitVec 1), VectorFree s →
    let w := s.hart.et.bytes
    let V := vlmaxOf s w
    let e := (s.rs b).toNat
    let from_ := fun n => k = 15 ∨ (s.hart.kr k.toNat).getLsbD n = true
    let reg := (s.rs (if y = 1 then d else a)).toNat % 64
    let elems := fun (i : Instr) (g : Nat → Nat) =>
      Completes i s (Elementwise s · d.toNat w k z (fun n => (g n, 0)))
    (d.toNat < 48 →
      ((∀ n, s.hart.vstart ≤ n → n < s.hart.vl → (from_ n → f = 0 → s.hart.elemBad b.toNat w n = false) ∧
          (¬ from_ n → s.hart.elemBad a.toNat w n = false)) →
        Completes (.vmerge d a b k f) s (Elementwise s · d.toNat w 15 0 (fun n =>
          if k = 15 ∨ (s.hart.kr k.toNat).getLsbD n = true then (secondOf s f b n, 0)
          else (s.hart.elem a.toNat w n, 0)))) ∧
      elems (.vbcast d a b k z 0) (fun _ => e) ∧
      (Gathers s k a.toNat w (fun _ => if e < V then some e else none) →
        elems (.vbcast d a b k z 1) (fun _ => if e < V then s.hart.elem a.toNat w e else 0)) ∧
      Completes (.vins d a b) s (WritesElems s · w (only d.toNat (fun n =>
        if n = e ∧ e < V then some (s.rs a).toNat else none)) (fun _ => False))) ∧
    ((e < V → s.hart.elemBad a.toNat w e = false) →
      Completes (.vext d a b) s (VectorScalar s · d (if V ≤ e then 0
        else if s.hart.et.isFloat then BitVec.ofNat 64 (s.hart.elem a.toNat w e)
        else (BitVec.ofNat (8 * w) (s.hart.elem a.toNat w e)).signExtend 64) 0)) ∧
    (reg < 48 → (y = 0 → d.toNat < 48) → s.hart.spBad (if y = 1 then d else a) = false →
      CleanAt s k (if y = 1 then a else BitVec.ofNat 6 reg) w →
      Completes (.vmovx d a k z y) s (Elementwise s · (if y = 1 then reg else d.toNat) w k z (fun n =>
        (s.hart.elem (if y = 1 then a.toNat else reg) w n, 0)))) ∧
    (48 ≤ reg → s.hart.spBad (if y = 1 then d else a) = false → ∃ t, t = s.withHart { s.hart with
        queue := [⟨s.hart.pc, encode (.vmovx d a k z y), 0, 0, [], [], s.hart.note⟩],
        pc := s.hart.pc + 4, vstart := 0 } ∧
      exec (.vmovx d a k z y) s =
        .next (takeTrap t t.hart.id .illegalReg .read (BitVec.ofNat 64 reg) s.hart.pc (s.hart.pc + 4)))

/-- R142, R143, R427, R441, R442: reductions of the active elements onto the seed. Integer results do not depend on
the tree of R142, float results take it, and VREDSEQ goes from left to right. What of it is the model's choice or
reading is in log 9. -/
def Obligations.VectorReductions : Prop :=
  ∀ (s : State) (d a b : BitVec 6) (k : BitVec 4) (u : BitVec 1), VectorFree s → Clean s k a →
    let et := s.hart.et
    let w := et.bytes
    let W := 8 * w
    let seed := (s.rs b).toNat % 2 ^ W
    let x := fun n => s.hart.elem a.toNat w n
    let xs := ((List.range s.hart.vl).filter (s.hart.active k)).map x
    let low := ((List.range (min s.hart.vl (vlmaxOf s w))).filter (s.hart.active k)).map x
    let value := fun (v : Nat) => if u = 1 then (v : Int) else (BitVec.ofNat W v).toInt
    let sext := fun (v : Nat) => (BitVec.ofNat W v).signExtend 64
    let out := fun (v : Nat) => if u = 1 then BitVec.ofNat 64 v else sext v
    let tree := fun op => reduceTree op seed (fun n => if s.hart.active k n then some (x n) else none) (256 / w) s.hart.lanes
    let is := fun (i : Instr) (v : Word) (fl : Flags) => Completes i s (VectorScalar s · d v fl)
    (et.isFloat = false →
      is (.vredsum d a b k) (sext (low.foldl (· + ·) seed)) 0 ∧
      is (.vredmax d a b k u) (out (low.foldl (fun (l r : Nat) => if value l < value r then r else l) seed)) 0 ∧
      is (.vredmin d a b k u) (out (low.foldl (fun (l r : Nat) => if value r < value l then r else l) seed)) 0 ∧
      is (.vredseq d a b k) (sext (xs.foldl (· + ·) seed)) 0) ∧
    (et.isFloat = true →
      (let r := tree (fAdd et.fmt s.hart.frm)
       is (.vfredsum d a b k) (BitVec.ofNat 64 r.1) r.2) ∧
      (let r := tree (fMinMax et.fmt true)
       is (.vfredmax d a b k) (BitVec.ofNat 64 r.1) r.2) ∧
      (let r := xs.foldl (fun (l : Nat × Flags) v =>
         ((fAdd et.fmt s.hart.frm l.1 v).1, l.2 ||| (fAdd et.fmt s.hart.frm l.1 v).2)) (seed, 0)
       is (.vredseq d a b k) (BitVec.ofNat 64 r.1) r.2))

/-- R60, R106, R261, R264, R265: where a vector instruction does not run at once. Before CLAIM it is a nested trap; a
full queue holds it at its place; behind older entries it is queued, its scalar captured, and with it what changed VL
and VTYPE since the entry before it (R405); a wrong ET raises ILLEGAL_OP and a poisoned source POISON, both with
VSTART 0, the instruction's address as TRAPPC and that of the next as SPC. R245 to R247, R36: a vector load stops at
the first due element that does not reach its places, here a misaligned one: the elements below it are loaded and
nothing above. VLD traps there, with its index as VSTART and its address as TRAPVAL; VLDFF does so at element 0, and
elsewhere sets VL to its index and completes. What of it is the model's choice or reading is in log 4, 9, 24 and 78.
-/
def Obligations.VectorInstructionsStop : Prop :=
   (∀ (s : State) (d a b : BitVec 6) (k : BitVec 4) (z f : BitVec 1) (n : Nat),
      let i : Instr := .vadd d a b k z f
      let h := s.hart
      let x := if f = 1 then s.rs b else 0
      let e : QEntry := ⟨h.pc, encode i, 0, x, h.sets, [], h.note⟩
      let t := s.withHart { h with queue := [e], pc := h.pc + 4, vstart := 0 }
      (h.frozen = true → ∀ j ∈ ([i, .vfadd d a b k z f, .vld d a b k z 0, .vst d a b k 0,
          .vredsum d a b k, .kmov k k, .wsel k, .mclr 0 d 0, .rpt d k 0 0 0 0] : List Instr),
        exec j s = .next (takeTrap s h.id .illegalOp .read ((encode j).zeroExtend 64) h.pc h.pc)) ∧
      (h.frozen = false → Config.queueDepth ≤ h.queue.length →
        exec i s = .next (s.withHart { h with run := .waiting })) ∧
      (h.frozen = false → h.queue.length < Config.queueDepth → (h.queue ≠ [] ∨ s.ahead = true) →
        exec i s = .next (s.withHart { h.enqueue h.pc (encode i) 0 x [] with pc := h.pc + 4 })) ∧
      ((∀ p ∈ h.queue.head?, p.sets = []) → (h.queue = [] → h.sets = []) →
        h.enqueue h.pc (encode i) 0 x [] = { h with queue := h.queue ++ [e], sets := [] }) ∧
      (VectorFree s → h.et.isFloat = true →
        exec i s = .next (takeTrap t h.id .illegalOp .read ((encode i).zeroExtend 64) h.pc (h.pc + 4))) ∧
      (VectorFree s → h.et.isFloat = false → h.due k n = true → h.elemBad a.toNat h.et.bytes n = true →
        exec i s = .next (takeTrap t h.id .poison .read (BitVec.ofNat 64 (2 ^ 62)) h.pc (h.pc + 4)))) ∧
   (∀ (s : State) (d a b : BitVec 6) (k : BitVec 4) (z : BitVec 1) (m : BitVec 2) (ls : Nat → List Loc) (i : Nat),
      VectorFree s → d.toNat < 48 → m.toNat ≤ 2 → (m = 2 → Clean s k b) → ¬ (m = 0 ∧ b = 1) →
      s.hart.due k i = true → elementVa s m a b s.hart.et.bytes i % s.hart.et.bytes ≠ 0 →
      (∀ n < i, s.hart.due k n = true → ElementReaches s m a b .read true 0 ls n) →
        let w := s.hart.et.bytes
        let loaded := fun (u : State) => WritesElems s u w (only d.toNat (fun n =>
          if n < i then elementwise s k z 0 (fun n => (loadedElem s true 0 ls n).1) n else none)) (fun _ => False)
        let stops := fun (x : Instr) => ∃ u, loaded u ∧
          exec x s = .next (takeTrap (u.withHart { u.hart with
              queue := [⟨s.hart.pc, encode x, (capOf x s.hart).1, (capOf x s.hart).2, [], [], s.hart.note⟩], vstart := i, rpos := s.hart.rpos })
            s.hart.id .align .read (BitVec.ofNat 64 (elementVa s m a b w i)) s.hart.pc (s.hart.pc + 4))
        stops (.vldRaw d a b k z m) ∧ (i = 0 → stops (.vldffRaw d a b k z m)) ∧
        (i ≠ 0 → Completes (.vldffRaw d a b k z m) s (fun t =>
          ∃ u, loaded u ∧ t = u.withHart { u.hart with vl := i })))

/-! ## Vector accesses (06, 10, 11, 22, 25) -/

/-- R151, R152, R431: VLD, VLD_RAW, VLDFF and VLDFF_RAW of elements that all reach their places load them, each under
the policy of R58; nothing is stored. The discarding form, hn = 1, is VectorStores. What of it is the model's choice
or reading is in log 24 and 25. -/
def Obligations.VectorLoads : Prop :=
  ∀ (s : State) (d a b : BitVec 6) (k : BitVec 4) (z : BitVec 1) (m : BitVec 2) (raw : Bool) (pf : Nat)
    (ls : Nat → List Loc),
    VectorFree s → d.toNat < 48 → Decodable s k m a b .read raw pf →
    (∀ n, s.hart.due k n = true → ElementReaches s m a b .read raw pf ls n) → ¬ (m = 0 ∧ b = 1) →
      let is := fun (i : Instr) =>
        Completes i s (Elementwise s · d.toNat s.hart.et.bytes k z (loadedElem s raw pf ls))
      is (if raw then .vldRaw d a b k z m else .vld d a b k z m) ∧
      is (if raw then .vldffRaw d a b k z m else .vldff d a b k z m)

/-- R151, R152, R431, R432, R296: VST and VST_RAW of elements that all reach their places store the due elements in
rising order, so that of two stores to one byte the higher element's stays: the vector side's later loads read so, at
FREE and DIGEST the scalar side's too and every other byte as before; no byte of any home has changed (hn = 0), each
element is folded as one store unit, and no register changes. With hn = 1 the discard of the lines it covers, which
the stores themselves make newest, changes no value and may leave them in place (R214). R214, R215, R244: VLD with hn
= 1 loads its elements, whose pages grant the discard its write, and then discards: each byte of device memory in a
line that the accessed bytes wholly cover is, at home, the byte last written back; every other byte of memory stays.
What of it is the model's choice or reading is in log 36 and 77. -/
def Obligations.VectorStores : Prop :=
   (∀ (s : State) (d a b : BitVec 6) (k : BitVec 4) (m : BitVec 2) (raw : Bool) (pf : Nat) (ls : Nat → List Loc),
      VectorFree s → Clean s k d → Decodable s k m a b .write raw pf →
      (∀ n, s.hart.due k n = true → ElementReaches s m a b .write raw pf ls n) →
        let w := memWidth s raw pf
        let bs := fun n => leBytes w (storedElem s raw pf d n).1
        let ns := dueElems s k
        Completes (if raw then .vstRaw d a b k m else .vst d a b k m) s (fun t =>
          (∀ side l, (Unlogged s ∨ (side = true ∧ ∃ n ∈ ns, l ∈ ls n)) →
            locByte t t.hart side l = storedByte ls bs l (locByte s s.hart side l) ns) ∧
          (∃ new, t.hart.sbuf = s.hart.sbuf ++ new ∧
            ∀ p ∈ new, p.vec = true ∧ ∃ n ∈ ns, Loc.phys p.a ∈ ls n) ∧
          t.hart = { s.hart with
            sbuf := t.hart.sbuf, stores := t.hart.stores, fflags := t.hart.fflags, pc := s.hart.pc + 4, vstart := 0, rpos := 0
            digest := ns.foldl (fun g n => g + foldTerm s (elementVa s m a b w n) (bs n)) s.hart.digest } ∧
          (∀ j, t.hart.fflags.getLsbD j = true ↔
            s.hart.fflags.getLsbD j = true ∨ raisedBy s k (fun n => (storedElem s raw pf d n).2) j) ∧
          t = { s with hart := t.hart, slots := t.slots } ∧
            (∀ i, t.slot i = if i = s.hart.slotId then { s.slot i with
              scratch := (t.slot i).scratch, scrPoison := (t.slot i).scrPoison } else s.slot i))) ∧
   (∀ (s : State) (d a : BitVec 6) (k : BitVec 4) (z : BitVec 1) (raw : Bool) (pf : Nat) (ls : Nat → List Loc),
      VectorFree s → d.toNat < 48 → Decodable s k 0 a 1 .read raw pf →
      (∀ n, s.hart.due k n = true → ElementReaches s 0 a 1 .read raw pf ls n ∧ ElementReaches s 0 a 1 .write raw pf ls n ∧
        ∀ i < 8, windowOf (s.ctx (ctxOf s s.hart)) (elementVa s 0 a 1 (memWidth s raw pf) n + i) = none) →
        let whole := fun (q : Nat) => ∀ i < 256, ∃ n, s.hart.due k n = true ∧ Loc.phys (q / 256 * 256 + i) ∈ ls n
        Completes (if raw then .vldRaw d a 1 k z 0 else .vld d a 1 k z 0) s (fun t =>
          (∃ u, Elementwise s u d.toNat s.hart.et.bytes k z (loadedElem s raw pf ls) ∧ t.hart = u.hart) ∧
          ∀ q, (devBacked q = true → whole q → t.peek q = mapGet unwritten s.mem q) ∧
            (fnAddr q = 0 → ¬ whole q → t.peek q = s.peek q)))

/-- R229, R419, R58: VAMO takes the due elements below min(VL, VLMAX(i64, n)) in rising order, one of the orders R229
allows; each leaves at its address, in vb, the combination of what is at home there with vd's element, and delivers
the old value to vd. rl releases before them, and pending stores of the hart to their bytes go home before them; aq
acquires after them. What of it is the model's choice or reading is in log 26. -/
def Obligations.VectorAtomics : Prop :=
  ∀ (s : State) (d b : BitVec 6) (o k : BitVec 4) (sc : BitVec 2) (z q r : BitVec 1) (pa : Nat → Nat),
    VectorFree s → d.toNat < 48 → s.hart.relStage = 0 → Unlogged s →
    (∀ k ∈ s.hart.kin, (s.hartOf k.1).id = k.1 ∨ (s.hartOf k.1).sbuf = []) →
    (if o = 10 then s.hart.et = .f32 else o.toNat ≤ 8 ∧ (s.hart.et = .i32 ∨ s.hart.et = .i64)) →
      let w := s.hart.et.bytes
      let M := min s.hart.vl (vlmaxOf s 8)
      let ns := (List.range M).filter (s.hart.due k)
      let va := fun n => s.hart.elem b.toNat 8 n
      (∀ n ∈ ns, va n % w = 0 ∧ Mapped s (va n) .write (pa n) ∧ Sound s (pa n) w ∧ (∀ i < w, devBacked (pa n + i) = true) ∧
        s.hart.elemBad d.toNat w n = false ∧ s.hart.elemBad b.toNat 8 n = false) →
        let s1 := if r = 1 then releaseAt s s.hart.id else s
        let s2 := bringHome s1 s.hart.id (ns.flatMap (fun n => places (pa n) w))
        let run := amoRun w o.toNat pa (fun n => s.hart.elem d.toNat w n) ns s2.peek
        Completes (.vamo d o sc b k z q r) s (fun t =>
          (∀ p, fnAddr p = 0 → t.peek p = run.2 p) ∧
          (∀ x n, x < 48 → w * (n + 1) ≤ 1024 → t.hart.elem x w n =
            if x = d.toNat ∧ n < M then (elementwise s k z 0 (fun n => mapGet 0 run.1 n) n).getD (s.hart.elem x w n)
            else s.hart.elem x w n) ∧
          t.hart.pc = s.hart.pc + 4 ∧ t.hart.vstart = 0 ∧ t.hart.s = s.hart.s ∧ t.hart.k = s.hart.k ∧
          t.hart.fflags = s.hart.fflags ∧ t.hart.relStage = 0 ∧
          (q = 1 → t.hart.lastAcq = (t.ctx (ctxOf t t.hart)).cut))

/-! ## Tuples, tables and frames (07, 03) -/

/-- R158 to R161, R58: VTMUL multiplies each active tuple by the table its slot holds: entry e's product of components
I and J, rounded; then each component by table_eval. It raises the flags of every rounding, and ASKIP when an absent
pair of an active tuple hides an infinity or a NaN. Without capability 0x0001 VTMUL raises ILLEGAL_OP (R21), and its
use is told to the hypervisor (R272). R154, R158, R165: VTCONJ gives each active tuple's component m the component
SEL(m) of its source, with the sign bit flipped where NEG(m) says so, whatever the bits; it raises no flag. Without
capability 0x0001 VTCONJ raises ILLEGAL_OP (R21). R156, R157, R345, R155: ALGLD of a well-formed record at an aligned
address loads the slot, which the hart's own later instructions see; a malformed one raises ALGTAB with its code and
index, the slot as it was. Without capability 0x0001 in its chain, ALGLD raises ILLEGAL_OP. What of it is the model's
choice or reading is in log 83 and 93. -/
def Obligations.TuplesMultiply : Prop :=
   (∀ (s : State) (d a b : BitVec 6) (k : BitVec 4) (z tb : BitVec 1),
      (absent s 1 = true → exec (.vtmul d a b k z tb) s =
          let s1 := maskedRecord (encode (.vtmul d a b k z tb)) s.hart.pc s
          .next (takeTrap s1 s1.hart.id .illegalOp .read ((encode (.vtmul d a b k z tb)).zeroExtend 64) s1.hart.pc s1.hart.pc)) ∧
      ∀ T : AlgTable, VectorFree s → s.hart.et.isFloat = true → absent s 1 = false → d.toNat < 48 →
      tableSeen s s.hart tb.toNat = some T → 0 < T.dc → s.hart.vl % T.dc = 0 → s.hart.vstart % T.dc = 0 →
      s.hart.vl / T.dc * T.da ≤ vlmaxOf s s.hart.et.bytes → s.hart.vl / T.dc * T.db ≤ vlmaxOf s s.hart.et.bytes →
      s.hart.vpr a.toNat = 0 → s.hart.vpr b.toNat = 0 →
        let w := s.hart.et.bytes
        let F := s.hart.et.fmt
        let md := s.hart.frm
        let x := fun u i => s.hart.elem a.toNat w (u * T.da + i)
        let y := fun u j => s.hart.elem b.toNat w (u * T.db + j)
        let p := fun u (e : AlgEntry) => fMul F md (x u e.i) (y u e.j)
        let v := fun u q => tableEval F md q (none, 0) (T.entries.map (fun e => (e, (p u e).1)))
        let due := fun u => s.hart.due k (u * T.dc) = true ∧ u < s.hart.vl / T.dc
        let hidden := ∃ u, due u ∧ ∃ i < T.da, ∃ j < T.db,
          (∀ e ∈ T.entries, ¬ (e.i = i ∧ e.j = j)) ∧ (special F (x u i) = true ∨ special F (y u j) = true)
        Completes (.vtmul d a b k z tb) s (fun t => ∃ r,
          WritesElems s r w (only d.toNat (fun m =>
            if s.hart.vl ≤ m ∨ m < s.hart.vstart then none
            else if k = 15 ∨ (s.hart.kr k.toNat).getLsbD (m / T.dc * T.dc) = true then some (v (m / T.dc) (m % T.dc)).1
            else if z = 1 then some 0 else none))
            (fun j => ∃ u, due u ∧ ((∃ e ∈ T.entries, (p u e).2.getLsbD j = true) ∨
              ∃ q < T.dc, (v u q).2.getLsbD j = true)) ∧
          t.hart = { r.hart with algstat := t.hart.algstat } ∧ t = r.withHart t.hart ∧
          (hidden → t.hart.algstat = s.hart.algstat ||| 2) ∧ (¬ hidden → t.hart.algstat = s.hart.algstat))) ∧
   (∀ (s : State) (d a : BitVec 6) (k : BitVec 4) (z tb v : BitVec 1),
      (absent s 1 = true → exec (.vtconj d a k z tb v) s =
          let s1 := maskedRecord (encode (.vtconj d a k z tb v)) s.hart.pc s
          .next (takeTrap s1 s1.hart.id .illegalOp .read ((encode (.vtconj d a k z tb v)).zeroExtend 64) s1.hart.pc s1.hart.pc)) ∧
      ∀ T : AlgTable, VectorFree s → s.hart.et.isFloat = true → absent s 1 = false → d.toNat < 48 →
      tableSeen s s.hart tb.toNat = some T → 0 < T.da → s.hart.vl % T.da = 0 → s.hart.vpr a.toNat = 0 →
        let w := s.hart.et.bytes
        let inv := fun m => (if v = 1 then T.inv1 else T.inv0).getD m 0
        Completes (.vtconj d a k z tb v) s (WritesElems s · w (only d.toNat (fun m =>
          if s.hart.vl ≤ m ∨ m < s.hart.vstart then none
          else if k = 15 ∨ (s.hart.kr k.toNat).getLsbD (m / T.da * T.da) = true then
            let y := s.hart.elem a.toNat w (m / T.da * T.da + inv (m % T.da) % 8)
            some (if inv (m % T.da) / 128 % 2 = 1 then y ^^^ 2 ^ (8 * w - 1) else y)
          else if z = 1 then some 0 else none)) (fun _ => False))) ∧
   (∀ (s : State) (a : BitVec 6) (tb : BitVec 1),
      (absent s 1 = true → exec (.algld a tb) s =
          let s1 := maskedRecord (encode (.algld a tb)) s.hart.pc s
          .next (takeTrap s1 s1.hart.id .illegalOp .read ((encode (.algld a tb)).zeroExtend 64) s1.hart.pc s1.hart.pc)) ∧
      ∀ (s1 : State) (r : List Byte) (code n : Nat), s.hart.frozen = false → s.hart.queue = [] → absent s 1 = false → (s.rs a).toNat % 64 = 0 →
      loadM s.hart.id (s.rs a).toNat 1024 s = .ok r s1 →
        let c := ctxOf s1 s1.hart
        (tableAmiss r = none → s1.hart = s.hart → Completes (.algld a tb) s (fun t =>
          t = (s1.setCtx c { s1.ctx c with tabs := ⟨tb.toNat, r, some s.hart.id, s.hart.stores, none⟩ :: (s1.ctx c).tabs }).advance ∧
          tableSeen t t.hart tb.toNat = some (tableOf r))) ∧
        (tableAmiss r = some (code, n) → exec (.algld a tb) s = .next (takeTrap s1 s1.hart.id .algtab .read
          (BitVec.ofNat 64 (code ||| n <<< 8 ||| tb.toNat <<< 16)) s1.hart.pc s1.hart.pc)))

/-- R65 to R67: a repeat frame of one VADD captures its word when the RPT issues and runs it n + 1 times, its
registers moved by the staggers at each repetition, and the scalar unit goes on behind the frame. What of it is the
model's choice or reading is in log 37 and 81. -/
def Obligations.FramesRepeat : Prop :=
  ∀ (s : State) (n : BitVec 6) (sd sa sb sr : BitVec 3) (d a b : BitVec 6) (k : BitVec 4) (z : BitVec 1) (pa : Nat),
    VectorFree s → s.hart.et.isFloat = false → s.hart.rpos.getLsbD 10 = false → (∀ r < 48, s.hart.vpr r = 0) →
    Mapped s (s.hart.pc + 4).toNat .exec pa → (s.hart.pc + 4).toNat % 4 = 0 → Sound s pa 4 →
    codeLine s s.hart (.phys pa) = none →
    s.peekN pa 4 = (encode (.vadd d a b k z 0)).toNat → WellFormed (.vadd d a b k z 0) →
    d.toNat + n.toNat * sd.toNat < 48 → a.toNat + n.toNat * sa.toNat < 48 → b.toNat + n.toNat * sb.toNat < 48 →
      let w := s.hart.et.bytes
      let one := fun (h : Hart) (r : Nat) => { h.mapElems (d.toNat + r * sd.toNat) w k z (fun j =>
          (h.elem (a.toNat + r * sa.toNat) w j + h.elem (b.toNat + r * sb.toNat) w j) % 2 ^ (8 * w)) with
        vstart := 0 }
      Completes (.rpt n 0 sd sa sb sr) s (fun t => t = s.withHart { (List.range (n.toNat + 1)).foldl one s.hart with
        pc := s.hart.pc + 8, vstart := 0, rpos := 0 })

/-! ## The Lantern (08, 23) -/

/-- R176, R177, R182: an MROW in real mode adds to (z = 0) or replaces (z = 1) the columns of its combination in row
ar: a row sum in f32 for float pairs, a scaled row for quantised tiles, the exact sum modulo 2³² for integer pairs.
The row is unchecked then; every other column, row and check region stays, and no vector register changes. R162 to
R164, R159, R161, R176: an MROW in algebra mode multiplies the tuples of its register with those of the tile by a
loaded table: for each entry and each of N_t tuples of the tile a row sum over K_t positions, of which table_eval
makes the components, each added to (z = 0) or stored in (z = 1) its column. A pair without an entry that hides a
special value sets ASKIP. The row is unchecked then; every other column, row and check region stays, and no vector
register changes. What of it is the model's choice or reading is in log 29, 32, 93 and 98. -/
def Obligations.LanternRowsAccumulate : Prop :=
   (∀ (s : State) (r : BitVec 10) (a : BitVec 6) (co : BitVec 2) (z x : BitVec 1) (f : BitVec 3) (wb cls : Nat) (T : Tile),
      let id := s.hart.slotId
      let sl := s.slot id
      let row := sl.row r.toNat
      let af := f.toNat
      let vr := if x = 1 then (s.rs a).toNat % 64 else a.toNat
      let n := pairCols af T.fmt
      let src := pairSrc af T.fmt co.toNat
      let K := min T.depth (256 * s.hart.lanes / afBytes af)
      VectorFree s → arrayBusy s = false → (x = 1 → s.hart.spBad a = false) → s.hart.tile = some wb → sl.weight wb = .tile T → pairClass af T.fmt = some cls →
      (pairExtra af T.fmt = true → absent s 2 = false) → row.ty = (if cls = 4 then 2 else 1) →
      32 * co.toNat + n ≤ 128 → src + n ≤ tileN T.fmt → T.poisoned = false → (row.poisoned = false ∨ z = 1) →
      vr < 48 → (∀ i < K, s.hart.elemBad vr (afBytes af) i = false) →
        let A := (List.range K).map (fun i => afNum af (s.hart.elem vr (afBytes af) i))
        let old := fun c => wordAt row.cols (32 * co.toNat + c)
        let new := fun c =>
          if cls = 4 then (intDot (pairsOf A T (src + c)) + (if z = 1 then 0 else (old c : Int))) % 2 ^ 32 |>.toNat
          else
            let v := if cls = 2 then quantRow (af = 2) A T (src + c) else rowSum (pairsOf A T (src + c))
            if z = 1 then v % 2 ^ 32 else (fAdd .f32 .rne (old c) v).1 % 2 ^ 32
        Completes (.mrow r a co 0 z x f) s (fun t =>
          let row' := (t.slot id).row r.toNat
          (∀ c < 128, wordAt row'.cols c =
            if 32 * co.toNat ≤ c ∧ c < 32 * co.toNat + n then new (c - 32 * co.toNat) else wordAt row.cols c) ∧
          row'.ty = row.ty ∧ row'.checked = false ∧ row'.consumed = row.consumed ∧
          (∀ q, q ≠ r.toNat → (t.slot id).row q = sl.row q) ∧
          (∀ g, g ≠ r.toNat / 32 → (t.slot id).region g = sl.region g) ∧
          t.hart = { s.hart with mstat := t.hart.mstat, pc := s.hart.pc + 4, vstart := 0, rpos := 0 } ∧
          t = { s with hart := t.hart, slots := t.slots } ∧ ∀ i, i ≠ id → t.slot i = s.slot i)) ∧
   (∀ (s : State) (r : BitVec 10) (a : BitVec 6) (co ts : BitVec 2) (z x : BitVec 1) (f : BitVec 3) (wb : Nat) (W : Tile)
      (rc : List Byte),
      let id := s.hart.slotId
      let sl := s.slot id
      let row := sl.row r.toNat
      let af := f.toNat
      let w := afBytes af
      let vr := if x = 1 then (s.rs a).toNat % 64 else a.toNat
      let T := tableOf rc
      let kt := tupleK T (256 * s.hart.lanes / w)
      let nt := tupleN T (tileN W.fmt)
      let A := fun (i k : Nat) => afNum af (s.hart.elem vr w (k * T.da + i))
      let B := fun (n j k : Nat) => W.flatNum ((k * nt + n) * T.db + j)
      VectorFree s → arrayBusy s = false → absent s 1 = false → (x = 1 → s.hart.spBad a = false) → s.hart.tile = some wb →
      sl.weight wb = .tile W → pairAlg af W.fmt = true → (pairExtra af W.fmt = true → absent s 2 = false) → row.ty = 1 →
      ts ≠ 0 → tableRecord s s.hart (ts.toNat - 1) = some rc → (∀ e ∈ T.entries, e.i < T.da) → nt ≠ 0 →
      32 * co.toNat + nt * T.dc ≤ 128 → W.poisoned = false → (row.poisoned = false ∨ z = 1) → vr < 48 →
      (∀ i < kt * T.da, s.hart.elemBad vr w i = false) →
        let odd := fun (v : Sys2Proof.Machine.Num) => ∀ n m e, v ≠ .fin n m e
        let p := fun (n : Nat) (e : AlgEntry) => rowSum ((List.range kt).map (fun k => some (A e.i k, B n e.j k)))
        let new := fun (c : Nat) =>
          let v := (tableEval .f32 .rne (c % T.dc) (none, 0) (T.entries.map (fun e => (e, p (c / T.dc) e)))).1
          if z = 1 then v % 2 ^ 32 else (fAdd .f32 .rne (wordAt row.cols (32 * co.toNat + c)) v).1 % 2 ^ 32
        let hidden := ∃ i < T.da, ∃ j < T.db, (∀ e ∈ T.entries, ¬ (e.i = i ∧ e.j = j)) ∧
          ((∃ k < kt, odd (A i k)) ∨ ∃ n < nt, ∃ k < kt, odd (B n j k))
        Completes (.mrow r a co ts z x f) s (fun t =>
          let row' := (t.slot id).row r.toNat
          (∀ c < 128, wordAt row'.cols c =
            if 32 * co.toNat ≤ c ∧ c < 32 * co.toNat + nt * T.dc then new (c - 32 * co.toNat) else wordAt row.cols c) ∧
          row'.ty = row.ty ∧ row'.checked = false ∧ row'.consumed = row.consumed ∧
          (∀ q, q ≠ r.toNat → (t.slot id).row q = sl.row q) ∧
          (∀ g, g ≠ r.toNat / 32 → (t.slot id).region g = sl.region g) ∧
          t.hart = { s.hart with algstat := t.hart.algstat, pc := s.hart.pc + 4, vstart := 0, rpos := 0 } ∧
          (hidden → t.hart.algstat = s.hart.algstat ||| 2) ∧ (¬ hidden → t.hart.algstat = s.hart.algstat) ∧
          t = { s with hart := t.hart, slots := t.slots } ∧ ∀ i, i ≠ id → t.slot i = s.slot i))

/-- R178 to R180, R387: MCLR makes rows ar to ar + n of type f, zero, checked and clean. MWR converts elements of its
register to the row's type and adds them to (z = 0) or stores them in (z = 1) columns from 32·co on, the row being
unchecked then. MRD delivers columns, scaled in f32 where sm says so, as elements of format f to its register, and
consumes a row that is unchecked. A scale beyond the end of the register is a free value (log 85). What of it is the
model's choice or reading is in log 85. -/
def Obligations.LanternRowsMove : Prop :=
  ∀ (s : State) (r : BitVec 10) (a n : BitVec 6) (co sm : BitVec 2) (z x : BitVec 1) (f : BitVec 3),
    let id := s.hart.slotId
    let sl := s.slot id
    let row := sl.row r.toNat
    let vr := if x = 1 then (s.rs a).toNat % 64 else a.toNat
    let w := afBytes f.toNat
    let base := 32 * co.toNat
    let int := row.ty = 2
    VectorFree s → (x = 1 → s.hart.spBad a = false) →
      (r.toNat + n.toNat < 1024 → Completes (.mclr r n f) s (fun t =>
        (∀ q, (t.slot id).row q = if r.toNat ≤ q ∧ q ≤ r.toNat + n.toNat then ⟨if f = 5 then 1 else 2, true, false, false, 0⟩
          else sl.row q) ∧
        t.hart = { s.hart with pc := s.hart.pc + 4, vstart := 0, rpos := 0 } ∧ ∀ i, i ≠ id → t.slot i = s.slot i)) ∧
      (row.ty ≠ 0 → base + s.hart.vl ≤ 128 → s.hart.vl * w ≤ 256 * s.hart.lanes → vr < 48 →
        ((∀ i < s.hart.vl, s.hart.elemBad vr w i = false) → (row.poisoned = false ∨ z = 1) →
          let v := fun i => mwrConvert (row.ty == 2) f.toNat (s.hart.elem vr w i)
          Completes (.mwr r a co z x f) s (fun t =>
            (∀ c < 128, wordAt ((t.slot id).row r.toNat).cols c =
              if base ≤ c ∧ c < base + s.hart.vl then
                (if z = 1 then v (c - base)
                 else if int then wordAt row.cols c + v (c - base)
                 else (fAdd .f32 .rne (wordAt row.cols c) (v (c - base))).1) % 2 ^ 32
              else wordAt row.cols c) ∧
            ((t.slot id).row r.toNat).checked = false ∧ (∀ q, q ≠ r.toNat → (t.slot id).row q = sl.row q) ∧
            t.hart = { s.hart with mstat := t.hart.mstat, pc := s.hart.pc + 4, vstart := 0, rpos := 0 })) ∧
        (row.poisoned = false → sm.toNat ≤ 2 →
          (sm ≠ 0 → ∀ i < (if sm = 2 then 1 else min s.hart.vl (64 * s.hart.lanes)), s.hart.elemBad vr 4 i = false) →
          let scale := fun i => if i < 64 * s.hart.lanes then s.hart.elem vr 4 i
            else (Config.freeWord (s.fresh + i)).toNat % 2 ^ 32
          Completes (.mrd r a co sm x f) s (fun t =>
          WritesElems s (s.withHart t.hart) w (only vr (fun i =>
            let v := wordAt row.cols (base + i)
            let v32 := if int then (fOfInt .f32 .rne (BitVec.ofNat 32 v).toInt).1 else v
            if s.hart.vl ≤ i then none
            else if sm = 0 then some (mrdConvert (row.ty == 2) f.toNat v)
            else some (mrdConvert false f.toNat (fMul .f32 .rne v32 (scale (if sm = 1 then i else 0))).1)))
            (fun _ => False) ∧
          (t.slot id).row r.toNat = { row with consumed := row.consumed || (decide (s.hart.vl ≠ 0) && !row.checked) } ∧
          ∀ q, q ≠ r.toNat → (t.slot id).row q = sl.row q)))

/-- R187, R188, R183: MCHK of regions whose expectations all hold passes: MSTAT's failure fields are zero, and every
row of them is checked and no longer consumed; nothing else of the rows changes. The first region that fails, those
before it having passed, leaves its number and bitmaps in MSTAT and parks the hart at the self-test of R189, over the
columns that differ, or all when they are more than four. Rows of no type or of different types raise MATRIX_TYPE.
R190, R191: MLOC names the element at which one row and one column of a failed check disagree by the same amount
within tolerance, and otherwise says why not; MFIX, given that number, takes the discrepancy off that element and
passes the region. What of it is the model's choice or reading is in log 28, 30, 31, 84, 99 and 100. -/
def Obligations.LanternChecksAndRepairs : Prop :=
   (∀ (s : State) (r n : BitVec 5),
      let id := s.hart.slotId
      let sl := s.slot id
      let row := fun i j => sl.row (32 * (r.toNat + i) + j)
      let verdict := fun i => verdictOf s.hart (foldRegion sl (r.toNat + i)) (r.toNat + i)
      VectorFree s → absent s 3 = false →
        ((∀ i ≤ n.toNat, (row i 0).ty ≠ 0 ∧ ∀ j < 32, (row i j).ty = (row i 0).ty ∧ (row i j).poisoned = false) →
          ((∀ i ≤ n.toNat, verdict i = .pass) → Completes (.mchk r n) s (fun t =>
            (∀ q, (t.slot id).row q = if 32 * r.toNat ≤ q ∧ q < 32 * (r.toNat + n.toNat + 1) then
              { sl.row q with checked := true, consumed := false } else sl.row q) ∧
            t.hart = { s.hart with mstat := mstatPass s.hart.mstat, pc := s.hart.pc + 4, vstart := 0, rpos := 0 })) ∧
          (∀ f rows cols rd cd, f ≤ n.toNat → (∀ i < f, verdict i = .pass) → verdict f = .fail rows cols rd cd →
            ∃ t, exec (.mchk r n) s = .next t ∧
            (∃ cons, t.hart.run = .parked (.columnTest (r.toNat + f) cons
              (if 4 < (bitList cols).length then List.range 128 else bitList cols))) ∧
            (∃ first, t.hart.mstat = mstatFail s.hart.mstat (r.toNat + f) rows cols first ∧
              ∀ c, (bitList cols).head? = some c → first = c) ∧
            t.hart.queue = [] ∧ ∀ q, (t.slot id).row q = if 32 * r.toNat ≤ q ∧ q < 32 * (r.toNat + f) then
              { sl.row q with checked := true, consumed := false } else sl.row q)) ∧
        (∀ i ≤ n.toNat, ∀ j < 32, (row i j).ty = 0 ∨ (row i j).ty ≠ (row i 0).ty → exec (.mchk r n) s =
          .next (takeTrap (s.withHart { s.hart with
              queue := [⟨s.hart.pc, encode (.mchk r n), 0, 0, [], [], s.hart.note⟩], pc := s.hart.pc + 4, vstart := 0 })
            s.hart.id .matrixType .read (BitVec.ofNat 64 (5 ||| 32 * r.toNat <<< 8)) s.hart.pc (s.hart.pc + 4)))) ∧
   (∀ (s : State) (r : BitVec 5) (d a : BitVec 6),
      let id := s.hart.slotId
      let sl := s.slot id
      let g := r.toNat
      let x := sl.region g
      VectorFree s → absent s 3 = false →
        let locates := fun (v : Nat) => Completes (.mloc r d) s (VectorScalar s · d (BitVec.ofNat 64 v) 0)
        ((x.verdict = .none ∨ x.verdict = .pass) → locates (2 ^ 63 + 1)) ∧
        (∀ rows cols rd cd, x.verdict = .fail rows cols rd cd →
          let mag := fun i c => if numLt false (Fmt.f32.decode (wordAt x.m i)) (Fmt.f32.decode (wordAt x.dm c)) = true
            then wordAt x.dm c else wordAt x.m i
          let same := fun i c => mismatch (sl.row (32 * g)).int (regionTol s.hart x) (wordAt rd i) (wordAt cd c) (mag i c) = false
          ((∀ i, bitList rows ≠ [i]) ∨ (∀ c, bitList cols ≠ [c]) → locates (2 ^ 63 + 2)) ∧
          (∀ i c, bitList rows = [i] → bitList cols = [c] →
            (¬ same i c → locates (2 ^ 63 + 3)) ∧
            (same i c → locates (i ||| c <<< 8) ∧
              ((s.rs a).toNat = i ||| c <<< 8 → (sl.row (32 * g + i)).poisoned = false → Completes (.mfix r a) s (fun t =>
                let row := sl.row (32 * g + i)
                (∀ j < 128, wordAt ((t.slot id).row (32 * g + i)).cols j =
                  if j = c then ckSub row.int (wordAt row.cols c) (wordAt rd i) % 2 ^ 32 else wordAt row.cols j) ∧
                (∀ q, q ≠ 32 * g + i → ((t.slot id).row q).cols = (sl.row q).cols) ∧
                (∀ j < 32, ((t.slot id).row (32 * g + j)).checked = true ∧ ((t.slot id).row (32 * g + j)).consumed = false) ∧
                ((t.slot id).region g).verdict = .pass ∧
                t.hart = { s.hart with pc := s.hart.pc + 4, vstart := 0, rpos := 0 }))))))

/-! ## Weights and engines (08, 10, 20, 25) -/

/-- R170 to R173, R447: WLD of a well-formed, readable image folds and empties its weight slot, which loads from then
on, reads the image, and counts; WLDFF does the same and writes the depth granted, here all of it, to s[sb]. WSEL
selects a slot, whatever it holds. An image address that is no multiple of 256 raises ALIGN. What of it is the model's
choice or reading is in log 33. -/
def Obligations.TileLoads : Prop :=
  ∀ (s : State) (w : BitVec 4) (a b : BitVec 6) (c : BitVec 4) (pf gs : Nat) (ls : Nat → Loc),
    let id := s.hart.slotId
    let va := (s.rs a).toNat
    let d := (s.rs b).toNat
    let n := imageBytes pf gs d
    let pl := (List.range n).map ls
    let bs := pl.map (locByte s s.hart true)
    VectorFree s →
      (va % 256 = 0 → (s.ctx (ctxOf s s.hart)).scrbase.toNat % 65536 = 0 → tileFormat pf = true → d ≠ 0 →
        d % tileUnit pf gs = 0 → d ≤ tileMax pf → (∀ i < n, ImageByte s pf gs (va + i) (ls i)) →
        (∀ i < n, LocSound s (ls i) ∧ CopyClean s (ls i)) →
        SpanFree s (pl.filter (fun l => match l with | .scr _ => true | _ => false)) → HasRoom s c false →
        metaAmiss pf d bs = none →
          let sl := (foldSlot (s.slot id) w.toNat).setWeight w.toNat .loading
          let op := { EngOp.blank .wld c with
            n := s.nextOp, hart := s.hart.id, src := bs, arg := s.rs a, wb := w.toNat, fmt := pf, gs := gs, depth := d,
            acq := s.hart.lastAcq, seq := s.hart.stores, home := s.hart.id }
          let loads := fun (t : State) (h : Hart) (n : Nat) =>
            t.slot id = { sl with ops := sl.ops ++ [{ op with fn5 := n }] } ∧ (∀ i, i ≠ id → t.slot i = s.slot i) ∧
            t = { s with
              hart := { h with pc := s.hart.pc + 4, vstart := 0, rpos := 0 }, slots := t.slots, nextOp := s.nextOp + 1 }
          Completes (.wld w a b c) s (fun t => loads t (counted s.hart c) 0) ∧
          Completes (.wldff w a b c) s (fun t => loads t ((counted s.hart c).setS b (BitVec.ofNat 64 d)) 1)) ∧
      Completes (.wsel w) s (fun t => t = s.withHart { s.hart with
        tile := some w.toNat, pc := s.hart.pc + 4, vstart := 0, rpos := 0 }) ∧
      (va % 256 ≠ 0 → exec (.wld w a b c) s =
        .next (takeTrap (s.withHart { s.hart with
            queue := [⟨s.hart.pc, encode (.wld w a b c), s.rs a, s.rs b, [], [], s.hart.note⟩], pc := s.hart.pc + 4, vstart := 0 })
          s.hart.id .align .read (s.rs a) s.hart.pc (s.hart.pc + 4)))

/-- R205, R206, R210, R376, R449, R450: XCOPY and XFILL of good records, and KVCOMMIT, raise their counter and leave
an operation in flight that holds the records, the translations and the hart's acquire of now, and nothing more: the
data moves when it completes. A source with LU set needs write permission where it discards (R244). A pair of records
with a defect raises FORMAT with the record's address and the reason. What of it is the model's choice or reading is
in log 35. -/
def Obligations.EnginesIssue : Prop :=
  ∀ (s s1 s2 s3 s4 s5 : State) (a b : BitVec 6) (c : BitVec 4) (r d : List Byte) (rp lp wp : List (Nat × Nat)),
    let h := s.hart
    let parts := fun (x : List Byte) => (shapeAddrs x).map (fun v => (v, shapeWidth (shapeFmt x)))
    let issued := fun (u t : State) (op : EngOp) =>
      let o := { op with n := u.nextOp, hart := h.id, acq := h.lastAcq, seq := h.stores, home := h.id }
      t.slot h.slotId = { u.slot h.slotId with ops := (u.slot h.slotId).ops ++ [o] } ∧
      (∀ i, i ≠ h.slotId → t.slot i = u.slot i) ∧
      t = { u with hart := { counted h c with pc := h.pc + 4 }, slots := t.slots, nextOp := u.nextOp + 1 }
    h.counter c.toNat < Config.counterMax →
      (recordAt (s.rs a) s = .ok r s1 → recordAt (s.rs b) s1 = .ok d s2 →
        (copyAmiss r d = none → pagesOf .read (parts r) s2 = .ok rp s3 →
          (if shapeLu r then pagesOf .write ((wholeLines ((parts r).flatMap (fun p =>
            (List.range p.2).map (p.1 + ·)))).map (fun l => (l * 256, 256))) s3 = .ok lp s5 else s5 = s3) →
          pagesOf .write (parts d) s5 = .ok wp s4 →
          s4.hart = h →
          let span := spanOf (s4.ctx (ctxOf s4 h)) (parts d)
          HasRoom s4 c span.isSome →
            Completes (.xcopy a b c) s (fun t => issued s4 t { EngOp.blank .xcopy c with
              src := r, dst := d, srcPages := rp, dstPages := wp, span := span })) ∧
        (∀ n own, copyAmiss r d = some (n, own) → exec (.xcopy a b c) s =
          .next (takeTrap s2 s2.hart.id .format .read (BitVec.ofNat 64 ((if own then s.rs b else s.rs a).toNat ||| n))
            s2.hart.pc s2.hart.pc))) ∧
      (recordAt (s.rs a) s = .ok d s1 → shapeAmiss true d = none → shapeCount d ≤ 2 ^ 40 →
        pagesOf .write (parts d) s1 = .ok wp s4 → s4.hart = h →
          let span := spanOf (s4.ctx (ctxOf s4 h)) (parts d)
          HasRoom s4 c span.isSome →
            Completes (.xfill a b c) s (fun t => issued s4 t { EngOp.blank .xfill c with
              dst := d, arg := s.rs b, dstPages := wp, span := span })) ∧
      (absent s 6 = false → recordAt (s.rs a) s = .ok r s1 → s1.hart = h → (h.queue = [] ∨ h.frozen = true) →
        (∀ i < h.prog.vl, h.elemBad b.toNat h.prog.et.bytes i = false) →
          let idx := (List.range h.prog.vl).map (fun i => h.elem b.toNat h.prog.et.bytes i)
          let wr := kvStores r h.prog.vl ++ kvDrops r h.prog.vl
          kvAmiss r idx = none → pagesOf .read (kvReads r idx) s1 = .ok rp s3 →
          pagesOf .write (wr ++ [((s.rs a).toNat + 16, 4)]) s3 = .ok wp s4 → s4.hart = h →
          let x := s4.ctx (ctxOf s4 h)
          let span := spanOf x (kvReads r idx ++ wr)
          lowestFar (fun va pa => !(paDevice pa) || (windowOf x va).isSome) (rp ++ wp)
            (kvReads r idx ++ wr ++ [((s.rs a).toNat, 64)]) = none → HasRoom s4 c span.isSome →
            Completes (.kvcommit a b c) s (fun t => issued s4 t { EngOp.blank .kvcommit c with
              src := r, arg := s.rs a, idx := idx, srcPages := rp, dstPages := wp, span := span }))

/-- R204, R205, R207, R210, R324: an operation in flight that nothing blocks completes: a copy leaves each element of
its source, converted where the formats say so, at its destination, a fill its value, and KVCOMMIT the accepted
entries in their new places and the new length in its record, all as the issuing hart read them under its last acquire
before the issue, but for lines a discard has dropped since; no source lies in a peer that does not answer. What has
moved unit by unit before is not moved again (R269). The operation leaves, and the counter falls by one. A tile load
leaves its tile in the weight slot (R448). What of it is the model's choice or reading is in log 35. -/
def Obligations.EnginesComplete : Prop :=
  ∀ (s : State) (core slot c : Nat) (o : EngOp),
    let i := core * 2 + slot
    let x := s.ctx c
    let h := s.hartOf o.hart
    let v := o.view i c
    let rp := pagesAt o.srcPages
    let wp := pagesAt o.dstPages
    let w := shapeWidth (shapeFmt o.dst)
    let wr := shapeWidth (shapeFmt o.src)
    let dropped := fun (ls : List Loc) (l : Loc) => ∃ q p, l = .phys q ∧ .phys p ∈ ls ∧ q / 256 = p / 256
    InFlight s i c o →
      (o.kind = .xcopy → copyAmiss o.src o.dst = none →
        let dst := fun e => locsAt x wp (shapeAddr o.dst e) w
        let got := fun e => (locsAt x rp (shapeAddr o.src e) wr).map (fun l => (engineByte s v l).1)
        let put := fun e => if shapePair (shapeFmt o.src) (shapeFmt o.dst) = some true then
            leBytes w (fStoreConvert (shapeFloat (shapeFmt o.src)) (shapeFloat (shapeFmt o.dst)) (leNat (got e))).1
          else got e
        let drop := (shapeAddrs o.src).flatMap (fun va =>
          (List.range wr).map (fun j => discardLoc s h (va + j) (engineLoc x rp (va + j))))
        (∀ e < shapeCount o.src, ∀ l ∈ dst e, Stands l) →
        (∀ e < shapeCount o.src, ∀ l ∈ locsAt x rp (shapeAddr o.src e) wr, Answers s l) →
          Completes (.xcopyComplete core slot o.n) s (fun t => Counted s t i o ∧
            ∀ l, l.direct → (shapeLu o.src = true → ¬ dropped drop l) →
              locByteHome t h l = storedByte dst put l (locByteHome s h l)
                (List.range' o.next (shapeCount o.src - o.next)))) ∧
      (o.kind = .xfill → shapeAmiss true o.dst = none →
        let dst := fun e => locsAt x wp (shapeAddr o.dst e) w
        (∀ e < shapeCount o.dst, ∀ l ∈ dst e, Stands l) →
          Completes (.xfillComplete core slot o.n) s (fun t => Counted s t i o ∧
            ∀ l, l.direct → locByteHome t h l =
              storedByte dst (fun _ => leBytes w o.arg.toNat) l (locByteHome s h l)
                (List.range' o.next (shapeCount o.dst - o.next)))) ∧
      (o.kind = .kvcommit → kvAmiss o.src o.idx = none → o.arg.toNat % 64 = 0 →
        let p := kvSize o.src / 64
        let at_ := fun (ps : List (Nat × Loc)) (e k : Nat) => locsAt x ps (kvEntry o.src (kvLen o.src + e) + 64 * (k % p)) 64
        let last := o.idx.length * p
        let dst := fun k => if k = last then locsAt x wp (o.arg.toNat + 16) 4 else at_ wp (k / p) k
        let put := fun k => if k = last then leBytes 4 (kvLen o.src + o.idx.length)
          else (at_ rp (o.idx.getD (k / p) 0) k).map (fun l => (engineByte s v l).1)
        let moved := ((List.range last).filter (fun k => o.idx.getD (k / p) 0 ≠ k / p)).drop (4 * o.next) ++ [last]
        let drop := (kvDrops o.src o.idx.length).flatMap (fun a => locsAt x wp a.1 a.2)
        (∀ k ∈ moved, (∀ l ∈ dst k, Stands l) ∧ ∀ l ∈ at_ rp (o.idx.getD (k / p) 0) k, Answers s l) →
          Completes (.kvcommitComplete core slot o.n) s (fun t => Counted s t i o ∧
            ∀ l, l.direct → ¬ dropped drop l → locByteHome t h l = storedByte dst put l (locByteHome s h l) moved)) ∧
      (o.kind = .wld → (∀ p ∈ (s.slot i).ops, p.kind = .wld → p.wb = o.wb → p.n = o.n) →
        Completes (.wldComplete core slot o.n) s (fun t => Counted s t i o ∧
          (t.slot i).weight o.wb = .tile ⟨o.fmt, o.gs, o.depth, imageNat o.fmt o.gs o.src, o.bad⟩ ∧
          (∀ b, b ≠ o.wb → (t.slot i).weight b = (s.slot i).weight b) ∧
          t.slot i = { s.slot i with weights := (t.slot i).weights, ops := (t.slot i).ops } ∧
          t = { s with hart := t.hart, harts := t.harts, slots := t.slots }))

/-- R226, R369, R222: FENCE enters the vector queue, whatever its type, and completes once what it orders is done:
types 0 to 3 at once in an empty queue, types 4 and above when no operation of the hart issued before it is in flight;
until then it waits at the queue's head. In a handler's frozen queue it waits for the operations issued since the trap
alone. At RECORD and REPLAY the hart's other side then sees the pending stores that an SV, VS or ALL orders. R209,
R212, R397, R444: WAITLT goes on while its counter is below its bound, at RECORD and REPLAY with what the completed
operations wrote ordered before the hart's later reads, and parks its hart otherwise; RCFENCE drops the cached record
at s[sa], or every one. What of it is the model's choice or reading is in log 50. -/
def Obligations.FencesAndCounters : Prop :=
   (∀ (s : State) (t : BitVec 3),
      let h := s.hart
      let named := fun (p : Pend) => p.cross = none ∧
        if p.vec = true then t = 1 ∨ t = 6 else (t = 0 ∨ t = 6) ∧ p.n < h.stores
      let ends := fun (g u : State) => u = { g with
          hart := { g.hart with sbuf := u.hart.sbuf, stores := u.hart.stores }, ctxs := u.ctxs } ∧
        (Unlogged s → u = g) ∧
        ((s.ctx (ctxOf s h)).strict = true → u.hart.stores = h.stores + 1 ∧
          u.hart.sbuf = h.sbuf.map (fun p => if named p then { p with cross := some h.stores } else p))
      (VectorFree s → h.fmarks = [] →
        (t.toNat < 4 ∨ opsInFlight s h = [] → Completes (.fence t) s (ends (s.withHart { h with
          pc := h.pc + 4, vstart := 0, rpos := 0 }))) ∧
        (4 ≤ t.toNat → (∃ n ∈ opsInFlight s h, n < s.nextOp) → Completes (.fence t) s (fun u => u = s.withHart { h with
          queue := [⟨h.pc, encode (.fence t), 0, 0, [], [], h.note⟩], fmarks := [(h.stores, s.nextOp)], pc := h.pc + 4
          run := .waiting }))) ∧
      (h.frozen = true →
        (t.toNat < 4 ∨ (∀ n ∈ opsInFlight s h, n < h.trapOp) →
          Completes (.fence t) s (ends (s.withHart { h with pc := h.pc + 4 }))) ∧
        (4 ≤ t.toNat → (∃ n ∈ opsInFlight s h, h.trapOp ≤ n) →
          Completes (.fence t) s (fun u => u = s.withHart { h with run := .waiting })))) ∧
   (∀ (s : State) (c : BitVec 4) (t : BitVec 9) (a : BitVec 6) (one : BitVec 1),
      let id := s.hart.slotId
      (s.hart.queue = [] ∨ s.hart.frozen = true) →
        (s.hart.counter c.toNat < t.toNat → Completes (.waitlt c t) s (fun u =>
          (Unlogged s → GoesTo s u (s.hart.pc + 4)) ∧
          u = { s with hart := { s.hart with pc := s.hart.pc + 4, stores := u.hart.stores }, ctxs := u.ctxs })) ∧
        (t.toNat ≤ s.hart.counter c.toNat → Completes (.waitlt c t) s (fun u =>
          u = s.withHart { s.hart with run := .parked (.waitlt c.toNat t.toNat) })) ∧
        Completes (.rcfence a one) s (fun u =>
          u.slot id = { s.slot id with rcache :=
            if one = 1 then (s.slot id).rcache.filter (fun e => e.1 != (s.rs a).toNat) else [] } ∧
          (∀ i, i ≠ id → u.slot i = s.slot i) ∧
          u = { s with hart := { s.hart with pc := s.hart.pc + 4 }, slots := u.slots }))

/-! ## Synchronisation (02, 11, 22 to 25) -/

/-- R216, R227, R232 to R234, R266: a phase boundary releases and then acquires, each at the next cut; PUBLISH flips
its window between the two, or leaves the flip to the launch's end (f = 1); YIELD ends in a stop where a yield is
requested. With the window disabled PUBLISH raises ILLEGAL_OP. At FREE and DIGEST, where no log is written. What of it
is the model's choice or reading is in log 41 and 79. -/
def Obligations.PhaseBoundaries : Prop :=
  ∀ (s : State) (p : BitVec 5) (f : BitVec 1),
    let h := s.hart
    let c := ctxOf s h
    let id := h.id
    let r := releaseAt s id
    let ends := fun (between : State → State) (go : Hart → Hart) (t : State) =>
      let u := acquireAt (between r) id
      t = u.withHart (go { u.hart with relCut := nextCut s id, relStage := 0, pc := h.pc + 4 })
    Unlogged s → (h.queue = [] ∨ h.frozen = true) → h.relStage = 0 →
      Completes .phase s (ends (fun x => x) (fun x => x)) ∧
      (safePoint s h = true → Completes .yield s (ends (fun x => x) (fun x => if h.yreq then { x with run := .stopped } else x))) ∧
      (∀ w, (s.ctx c).windows[p.toNat]? = some w →
        (w.en = true → windowOwed s h w = false → Completes (.publish p f) s (ends (fun u =>
          if f = 0 then flipWindow c p.toNat u
          else u.setLaunch h.launch { u.launch h.launch with
            deferred := (u.launch h.launch).deferred ||| (1#32 <<< p.toNat) }) (fun x => x))) ∧
        (w.en = false → exec (.publish p f) s =
          .next (takeTrap s id .illegalOp .read ((encode (.publish p f)).zeroExtend 64) h.pc h.pc)))

/-- R353 to R355: BAR of a group the hart is in arrives (b bit 0) with a release, and waits (bit 1): it acquires and goes
on once every member has arrived as often or has retired, at once where the environment does not choose otherwise (log 4),
and parks until then. In an empty group slot it raises
ILLEGAL_OP. -/
def Obligations.BarriersMeet : Prop :=
  ∀ (s : State) (g : BitVec 2),
    let h := s.hart
    let id := h.id
    let e := h.groupIn g
    let l := s.launch h.launch
    let r := releaseAt s id
    let there := r.setLaunch h.launch (l.arrive e h.index)
    let k := l.arrived e h.index
    let on := fun (u : State) (arr : Bool) (cut pc : _) => u.withHart { u.hart with
      arrived := arr, relStage := 0, relCut := cut, pc := pc }
    Unlogged s → s.ahead = false → (h.queue = [] ∨ h.frozen = true) → h.relStage = 0 →
      (e = 0xFFFF → ∀ b, exec (.bar g b) s =
        .next (takeTrap s id .illegalOp .read ((encode (.bar g b)).zeroExtend 64) h.pc h.pc)) ∧
      (e ≠ 0xFFFF →
        (h.arrived = false → Completes (.bar g 1) s (fun t => t = on there false (nextCut s id) (h.pc + 4))) ∧
        (h.arrived = false →
          (barMet (l.arrive e h.index) e (k + 1) = true → Completes (.bar g 3) s (fun t =>
            t = on (acquireAt there id) false (nextCut s id) (h.pc + 4))) ∧
          (barMet (l.arrive e h.index) e (k + 1) = false → Completes (.bar g 3) s (fun t =>
            t.hart = { (on there true (nextCut s id) h.pc).hart with run := .parked (.bar e (k + 1)) } ∧
            t = there.withHart t.hart))) ∧
        (barMet l e k = true → Completes (.bar g 2) s (fun t => t = on (acquireAt s id) false h.relCut (h.pc + 4))) ∧
        (barMet l e k = false → Completes (.bar g 2) s (fun t =>
          t = s.withHart { h with run := .parked (.bar e k) })))

/-- R38 to R40, R34, R370, R371: FORK of a hart with one lane group writes 0 and makes no child; so does one with a
disabled lane group in its upper half, which is the model's choice where R34 and R38 do not decide it (log 42). Else
the upper half goes to a child, placed in a free hart slot of the same context slot, which starts at the target after
an acquire with the parent's registers, s[d] naming its parent. In a handler FORK and JOIN are nested traps. R39, R40,
R374, R400: JOIN absorbs the youngest child once it has ended, after an acquire: its lane groups and their registers,
its flags and its digest; until then the parent parks. A child that executes it releases and ends. RETIRE releases,
counts the hart's index as retired and frees its hart slot; a child's RETIRE, or one with a child unjoined, raises
ILLEGAL_OP. What of it is the model's choice or reading is in log 5, 42 and 86. -/
def Obligations.HartsForkAndEnd : Prop :=
   (∀ (s : State) (d : BitVec 6) (o : BitVec 19),
      let h := s.hart
      let keep := h.lanes / 2
      let own := ({ h with offset := h.offset + keep } : Hart).hartid
      let n := nextCut s h.id
      let upper := (laneList h.lgown).drop keep
      Unlogged s → h.queue = [] → h.live = true →
        (h.hm = false → (h.lanes ≤ 1 ∨ ∃ i ∈ upper, (s.core h.core).laneMask.getLsbD i = true) →
          Completes (.fork d o) s (WritesScalar s · d 0)) ∧
        (h.hm = false → 1 < h.lanes → (∀ i ∈ upper, (s.core h.core).laneMask.getLsbD i = false) → freeHartSlots s h.slotId ≠ [] → Completes (.fork d o) s (fun t =>
          ∃ id ∈ freeHartSlots s h.slotId,
            t.hart = ({ forkParent h keep with children := id :: h.children, pc := h.pc + 4 } : Hart).setS d own ∧
            t.hartOf id = { forkChild h keep id d (h.pc + BitVec.ofInt 64 (4 * o.toInt)) with
              relStage := 0, lastAcq := n, views := (s.ctx (ctxOf s h)).windows.map (·.gen) } ∧
            (∀ k, k ≠ id → k ≠ h.id → t.hartOf k = s.hartOf k) ∧
            t.ctx (ctxOf s h) = { s.ctx (ctxOf s h) with cut := max (s.ctx (ctxOf s h)).cut n } ∧
            t = { s with hart := t.hart, harts := t.harts, ctxs := t.ctxs, fresh := s.fresh + 1 })) ∧
        (h.hm = true →
          exec (.fork d o) s = .next (takeTrap s h.id .illegalOp .read ((encode (.fork d o)).zeroExtend 64) h.pc h.pc) ∧
          exec .join s = .next (takeTrap s h.id .illegalOp .read ((encode .join).zeroExtend 64) h.pc h.pc))) ∧
   (∀ (s : State) (kid up : Nat) (rest : List Nat),
      let h := s.hart
      let id := h.id
      let y := s.hartOf kid
      let c := ctxOf s h
      let x := s.ctx c
      let n := nextCut s id
      let known := ∀ k ∈ h.kin, (s.hartOf k.1).id = k.1 ∨ (s.hartOf k.1).sbuf = []
      Unlogged s → h.relStage = 0 → h.live = true →
        (h.hm = false → h.queue = [] → h.children = kid :: rest → kid ≠ id → y.id = kid →
          (y.ended = true → Completes .join s (fun t =>
            t.hart = { joined h y with lastAcq := n, views := x.windows.map (·.gen), pc := h.pc + 4 } ∧
            (t.hartOf kid).live = false ∧ ∀ k, k ≠ kid → k ≠ id → t.hartOf k = s.hartOf k)) ∧
          (y.ended = false → Completes .join s (fun t => t = s.withHart { h with run := .parked .join }))) ∧
        (h.hm = false → h.children = [] → h.parent = some up → h.queue = [] → h.idle = true → known →
          (s.hartOf up).run ≠ .parked .join → Completes .join s (fun t =>
            t = (releaseAt s id).withHart { (releaseAt s id).hart with relCut := n, ended := true, run := .stopped })) ∧
        (h.children = [] → h.parent = none → (h.queue = [] ∨ h.frozen = true) → h.idle = true → known →
          h.stage < (s.launch h.launch).stages.length → (s.launch h.launch).level = .free → Completes .retire s (fun t =>
            t.hart = { Hart.initial with id := id } ∧
            h.index ∈ ((t.launch h.launch).stage h.stage).retired ∧
            (∀ pa, devBacked pa = true → t.peek pa = (pendLast (fun _ => true) pa h.sbuf).getD (s.peek pa)) ∧
            ∀ k, k ≠ id → t.hartOf k = { s.hartOf k with sbuf := (t.hartOf k).sbuf })) ∧
        (h.parent.isSome = true ∨ h.children ≠ [] →
          exec .retire s = .next (takeTrap s id .illegalOp .read ((encode .retire).zeroExtend 64) h.pc h.pc)))

/-! ## The queues of a launch, and waking (02, 24, 25) -/

/-- R32, R33, R394 to R396: QPUSH copies its record to the queue's next slot at home; QPOP copies the oldest record to
its destination as a store of the hart and answers 0, and at the end of a closed, empty queue answers 2 and writes
nothing else. A full queue parks the one, an empty open queue the other; a queue that is not the stage's raises
ILLEGAL_OP. What of it is the model's choice or reading is in log 43. -/
def Obligations.LaunchQueues : Prop :=
  ∀ (s s1 s2 : State) (d a : BitVec 6) (n : BitVec 4) (ls : List Loc) (fs : List (Nat × Nat)) (slot : Nat),
    let h := s.hart
    let va := (s.rs a).toNat
    let q := n.toNat
    let l := s.launch h.launch
    let y := l.queue q
    let illegal := fun (i : Instr) =>
      exec i s = .next (takeTrap s h.id .illegalOp .read ((encode i).zeroExtend 64) h.pc h.pc)
    let slotFor := fun (j : Nat) (k : Kind) => slotLoc h.id (y.slotVa j) k s1 = .ok (.phys slot) s2
    let countIs := fun (t : State) (y' : LQueue) => t.launch h.launch = l.setQueue q y'
    Unlogged s1 → s1.hart = h → s1.launch h.launch = l → s2.hart = h → s2.launch h.launch = l → Unlogged s2 →
      ((l.stage h.stage).outq ≠ some q → illegal (.qpush a n)) ∧ ((l.stage h.stage).inq ≠ some q → illegal (.qpop d a n)) ∧
      ((l.stage h.stage).outq = some q → va % 16 = 0 → locateN h.id va y.rsize .read false s = .ok (ls, fs) s1 →
        SpanFree s1 ls → ls.length = y.rsize → q < l.queues.length →
          (y.held < y.cap → slotFor y.pushed .write → (∀ l ∈ ls, LocSound s2 l) → Sound s2 slot y.rsize →
            (∀ i < y.rsize, devBacked (slot + i) = true) → Completes (.qpush a n) s (fun t =>
              countIs t { y with pushed := y.pushed + 1 } ∧
              (∀ p, fnAddr p = 0 → t.peek p = byteAfter slot (ls.map (locByte s2 h false)) p (s2.peek p)) ∧
              t.hart = { h with pc := h.pc + 4 })) ∧
          (y.cap ≤ y.held → Completes (.qpush a n) s (fun t => t = awaits s (.parked (.qpush q)) s1))) ∧
      ((l.stage h.stage).inq = some q → va % 16 = 0 → locateN h.id va y.rsize .write false s = .ok (ls, fs) s1 →
        SpanFree s1 ls → ls.length = y.rsize → h.sticky = none → q < l.queues.length →
          let bs := s2.peekBytes slot y.rsize
          (y.taken < y.pushed → slotFor y.taken .read → (∀ l ∈ ls, LocSound s2 l) → SpanFree s2 ls → ls.Nodup →
            Sound s2 slot y.rsize → Completes (.qpop d a n) s (fun t =>
              countIs t { y with taken := y.taken + 1 } ∧
              (∀ side l, locByte t t.hart side l = storedByte (fun _ => ls) (fun _ => bs) l (locByte s2 h side l) [0]) ∧
              (∀ r, t.hart.rs r = if r = d ∧ d ≠ 0 then 0 else h.rs r) ∧ t.hart.pc = h.pc + 4 ∧
              ∀ p, t.peek p = s2.peek p)) ∧
          (y.pushed ≤ y.taken → y.closed = true → Completes (.qpop d a n) s (fun t =>
            WritesScalar (s1.withHart { h with popSince := none, sticky := some 2 }) t d 2)) ∧
          (y.pushed ≤ y.taken → y.closed = false → (l.stage h.stage).inq = some q → Completes (.qpop d a n) s (fun t =>
            t = awaits s (.parked (.qpop q)) (s1.withHart { h with popSince := some (h.popSince.getD s1.cycle) }))))

/-- R47: a parked hart goes on once what it waits for has come, and not before. A hart parked in QPOP, QPUSH, WAITVAL
or WAITLT comes into focus to run its instruction again; one in a BAR wait acquires and goes on past it, and one in
JOIN absorbs its child. R287: the retire choice takes, of the harts of a stage that have waited 2,048 cycles or more
in QPOP on an open, empty queue, where two or more do, the one that has waited longest (of equals the one of the
highest index): it is to receive status 1, in its spilled slot if it is spilled. Otherwise, and so while none has
waited so long, nothing happens. What of it is the model's choice or reading is in log 59. -/
def Obligations.ParkedHartsWake : Prop :=
   (∀ (s : State) (k : Nat),
      let x := s.hartOf k
      let q := fun (n : Nat) => (s.launch x.launch).queue n
      let again := fun (i : Instr) (ready : Prop) =>
        (ready → Completes i s (fun t => t.hart = { x with run := .running } ∧
          ∀ j, j ≠ k → (s.hartOf j).live = true → t.hartOf j = s.hartOf j)) ∧
        (¬ ready → Completes i s (fun t => t = s))
      x.live = true → x.id = k →
        (∀ n, x.run = .parked (.qpop n) →
          again (.qpopWake k) (x.sticky.isSome = true ∨ (q n).taken < (q n).pushed ∨ (q n).closed = true)) ∧
        (∀ n, x.run = .parked (.qpush n) → again (.qpushWake k) ((q n).held < (q n).cap)) ∧
        (∀ scr line seen, x.run = .parked (.waitval scr line seen) →
          again (.waitvalWake k) (lineHeld s x scr line ≠ seen)) ∧
        (∀ c n, x.run = .parked (.waitlt c n) → again (.waitltWake k) (x.counter c < n)) ∧
        (∀ e n, x.run = .parked (.bar e n) → Unlogged (s.withHart x) → x.relStage = 0 →
          (barMet (s.launch x.launch) e n = true → Completes (.barWaitComplete k) s (fun t =>
            let u := acquireAt s k
            t = u.setHart { u.hartOf k with arrived := false, pc := x.pc + 4, run := .running })) ∧
          (barMet (s.launch x.launch) e n = false → Completes (.barWaitComplete k) s (fun t => t = s))) ∧
        (∀ kid rest, x.run = .parked .join → x.children = kid :: rest → Unlogged (s.withHart x) → x.relStage = 0 →
          x.queue = [] → kid ≠ k → (s.hartOf kid).id = kid →
          ((s.hartOf kid).ended = true → Completes (.joinComplete k) s (fun t =>
            let u := acquireAt s k
            t.hartOf k = { joined (u.hartOf k) (s.hartOf kid) with pc := x.pc + 4, run := .running } ∧
            (t.hartOf kid).live = false)) ∧
          ((s.hartOf kid).ended = false → Completes (.joinComplete k) s (fun t => t = s)))) ∧
   (∀ (s : State) (l stage q : Nat) (x : Hart),
      let y := (s.launch l).queue q
      let parked := popParked s l stage q
      let able := parked.filter (fun h => h.parent.isNone && h.children.isEmpty)
      let due := fun (h : Hart) => h.popSince.any (fun c => decide (c + Config.qpopRetireCycles ≤ s.cycle)) = true
      let before := fun (a b : Hart) => a.popSince.getD 0 < b.popSince.getD 0 ∨ a.popSince = b.popSince ∧ b.index < a.index
      ((s.launch l).stage stage).inq = some q →
        (y.closed = false → y.held = 0 → 2 ≤ parked.length → x ∈ able → (∀ h ∈ able, h ≠ x → before x h) → due x →
          logLevel s x ≠ some .replay → (∀ h ∈ able, h.popSince.isSome = true) →
            (x ∈ s.liveHarts →
              Completes (.qpopRetireChoice l stage) s (fun t => t = s.setHart { x with sticky := some 1, run := .running })) ∧
            (x ∉ s.liveHarts → Completes (.qpopRetireChoice l stage) s (fun t =>
              t = { s with spills := s.spills.map (fun p => (p.1, { p.2 with
                harts := p.2.harts.map (fun h => if h = x then { h with sticky := some 1, run := .running } else h) })) }))) ∧
        (y.closed = true ∨ y.held ≠ 0 ∨ parked.length < 2 ∨ able = [] ∨ (∀ h ∈ able, ¬ due h) →
          Completes (.qpopRetireChoice l stage) s (fun t => t = s)))

/-! ## Collectives and self-tests (21, 08, 19) -/

/-- R332 to R334, R361: COLL of a good record raises its counter and leaves a collective in flight. Once every other
rank's part is there, the oldest of the communicator leaves at the destination what the record asks for and STATUS 0
in the record; where the ranks disagree STATUS is 3, and after a link has been down for 10 ms it is 2, with nothing
else written. The collective leaves, and the counter falls. Sums combine the ranks in ring order, the chunk's owner
last. What of it is the model's choice or reading is in log 46. -/
def Obligations.Collectives : Prop :=
  (∀ (n owner k : Nat) (f : Nat → Nat → Nat) (v : Nat → Nat), n = k + 1 → owner < n →
    ringFold f n owner v = ((List.range k).map (fun j => (owner + 2 + j) % n)).foldl (fun x i => f x (v i))
      (v ((owner + 1) % n))) ∧
  ∀ (s s1 s2 s3 s4 : State) (a : BitVec 6) (c : BitVec 4) (r : List Byte) (sp dp wp : List (Nat × Nat)) (o : CollOp)
    (parts : List CollPart),
    let h := s.hart
    let ra := (s.rs a).toNat
    let src := fun (r : List Byte) => chunks (collSrc r) (collInBytes r)
    let dst := fun (r : List Byte) => chunks (collDst r) (collOutBytes r)
    (absent s 7 = false → h.counter c.toNat < Config.counterMax → ra % 64 = 0 → loadM h.id ra 64 s = .ok r s1 →
      collAmiss s1 r = none → collPages h.id .read (src r) [] s1 = .ok sp s2 →
      collPages h.id .write (dst r) [] s2 = .ok dp s3 → pagesOf .write [(ra + 56, 8)] s3 = .ok wp s4 → s1.hart = h →
      s3.hart = h → s4.hart = h →
        Completes (.coll a c) s (fun t => t = { s4 with
          hart := { counted h c with pc := h.pc + 4 }
          nextOp := s4.nextOp + 1
          colls := s4.colls ++ [{
            n := s4.nextOp, comm := collComm r, hart := h.id, ctx := ctxOf s4 h, counter := c.toNat, recA := ra, record := r,
            srcPages := sp, dstPages := dp ++ wp, acq := h.lastAcq, seq := h.stores, tol := h.mtol[2], done := false,
            away := false, status := 0, home := h.id }] })) ∧
    (let x := s.hartOf o.hart
     let cx := s.ctx o.ctx
     let rp := pagesAt o.srcPages
     let wp := pagesAt o.dstPages
     let w := collWidth (collEt o.record)
     let status := locsAt cx wp (o.recA + 56) 8
     let own := (locsAt cx rp (collSrc o.record) (collInBytes o.record)).map (fun l => match l with
       | .phys pa => readByte s { x with lastAcq := o.acq } (!cx.strict) o.seq pa
       | _ => 0)
     let ends := fun (t : State) => t.colls = s.colls.filter (fun p => p.n != o.n) ∧
       (t.hartOf o.hart).cnt = (x.setCounter o.counter (x.counter o.counter - 1)).cnt ∧
       (∀ i, t.slot i = { s.slot i with scratch := (t.slot i).scratch, scrPoison := (t.slot i).scrPoison }) ∧
       ∀ k, k ≠ o.hart → t.hartOf k = { s.hartOf k with sbuf := (t.hartOf k).sbuf }
     let writes := fun (t : State) (n st : Nat) (els : List Nat) => ∀ l, l.direct → locByteHome t x l =
       storedByte (fun e => if e = n then status else locsAt cx wp (collDst o.record + e * w) w)
         (fun e => if e = n then leBytes 8 st else leBytes w (els.getD e 0)) l (locByteHome s x l) (List.range (n + 1))
     collNext s o.comm = some o → o.away = false → o.hart ≠ 4096 → x.live = true → x.id = o.hart → ctxOf s x = o.ctx →
     o.ctx / 64 = 0 → countedOps s o.hart o.counter = [(o.n, false)] → (∀ i, ∀ p ∈ (s.slot i).ops, p.n ≠ o.n) →
     (∀ e ∈ (s.fn 0).s2, e.op ≠ some o.n) → (∀ k ∈ x.kin, (s.hartOf k.1).id = k.1 ∨ (s.hartOf k.1).sbuf = []) →
     (∀ l ∈ status, Stands l) → o.recA % 64 = 0 →
       (let els := (collReduce o own parts).1
        collAgree o.record parts = true → collWhole o.record parts = true → (collReduce o own parts).2 = [] →
        collDst o.record % w = 0 → (∀ e < els.length, ∀ l ∈ locsAt cx wp (collDst o.record + e * w) w, Stands l) →
        (∀ l ∈ locsAt cx rp (collSrc o.record) (collInBytes o.record), locBad s { x with lastAcq := o.acq } true l = false) →
          Completes (.collComplete o.comm parts []) s (fun t => ends t ∧ writes t els.length 0 els)) ∧
       (collAgree o.record parts = false → parts ≠ [] →
          Completes (.collComplete o.comm parts []) s (fun t => ends t ∧ writes t 0 3 [])) ∧
       (commLost s o = true → Completes (.collLinkTimeout o.comm) s (fun t => ends t ∧ writes t 0 2 [])))

/-- R315, R316: a lane self-test that passes makes a fault record of type 1; one that finds a lane failed disables its
lane group, makes a record of type 2 and tells the host; so does the fourth transient of a lane within 10 ms. When the
hart's last test has ended, the convoy runs again if all passed, else LANE_CHECK is raised once, at the oldest queue
entry, with lane, group and element of the lowest lane group that failed as TRAPVAL. R189, R318: after a column
self-test CHECKSUM is raised with the region and its consumed rows; a failed column takes a spare. R305: a wait for
the full ring, or for the log at REPLAY, of 10 microseconds is reported once, with the count at which it stands. What
of it is the model's choice or reading is in log 47 and 95. -/
def Obligations.SelfTestsEnd : Prop :=
  ∀ (s : State) (k lg lane el g : Nat) (cons : BitVec 32) (failed tested : List Nat) (more fails : List (Nat × Nat × Nat)),
    let x := s.hartOf k
    let c := ctxOf s x
    let core := s.core x.core
    let recent := core.transients.filter (fun t => decide (s.cycle < t.2 + 10000 * Config.cyclesPerMicrosecond))
    let same := (recent.filter (fun t => t.1 == lg * 8 + lane)).length
    let noted := s.setCore x.core { core with transients := (lg * 8 + lane, s.cycle) :: recent }
    let retired := fun (u : State) (l : Nat) =>
      let u1 := u.setCore x.core { u.core x.core with laneMask := (u.core x.core).laneMask ||| (1#4 <<< lg) }
      eventSend (frecAdd u1 2 0 x.core lg l (c % 64) (c / 64) 0) 0 6 0xFF
        (leBytes 2 x.core ++ [BitVec.ofNat 8 lg, BitVec.ofNat 8 l])
    let position := match x.queue with | e :: _ => e.pc | [] => x.pc
    let ends := fun (u : State) (fs : List (Nat × Nat × Nat)) (t : State) =>
      (more ≠ [] → t = u.setHart { x with run := .parked (.laneTest more fs) }) ∧
      (more = [] → fs = [] → t = u.setHart { x.refetch with run := .running }) ∧
      (more = [] → fs ≠ [] → ∃ f ∈ fs, (∀ f' ∈ fs, f.1 ≤ f'.1) ∧
        t = takeTrap u k .laneCheck .read (BitVec.ofNat 64 (f.2.1 ||| f.1 <<< 4 ||| (f.2.2 % 1024) <<< 32)) position x.pc)
    (x.run = .parked (.laneTest ((lg, lane, el) :: more) fails) →
      ((∀ l ∈ failed, l ≠ lane ∧ l ≠ (lane + 1) % 8) →
        (same < 3 → Completes (.laneSelftestDone k failed) s
          (ends (frecAdd noted 1 0 x.core lg lane (c % 64) (c / 64) 0) fails)) ∧
        (3 ≤ same → Completes (.laneSelftestDone k failed) s (ends (retired noted lane) (fails ++ [(lg, lane, el)])))) ∧
      (∀ l ∈ failed, (l = lane ∨ l = (lane + 1) % 8) →
        (∀ l' ∈ failed, l' = lane ∨ l' = (lane + 1) % 8 → l ≤ l') →
          Completes (.laneSelftestDone k failed) s (ends (retired s l) (fails ++ [(lg, l, el)])))) ∧
    (x.run = .parked (.columnTest g cons tested) →
      let marked := fun (u : State) => if cons ≠ 0 ∧ (u.launch x.launch).level ≠ .free then
        u.setLaunch x.launch { u.launch x.launch with csmark := true } else u
      let trap := fun (u : State) (bits : Nat) => takeTrap (marked u) k .checksum .read
        (BitVec.ofNat 64 (cons.toNat + 2 ^ 32 * g + 2 ^ 37 * bits)) position x.pc
      g < 32 →
      ((∀ q ∈ tested, q ∉ failed) → Completes (.columnSelftestDone k failed) s (fun t => t = trap s 0)) ∧
      (∀ q, (tested.filter (fun q => failed.contains q)) = [q] →
        (core.spares ≠ 0 → Completes (.columnSelftestDone k failed) s (fun t => t = trap (frecAdd
          (s.setCore x.core { core with spares := core.spares - 1, replaced := q :: core.replaced }) 3 0 x.core 0 q
            (c % 64) (c / 64) 0) 2)) ∧
        (core.spares = 0 → Completes (.columnSelftestDone k failed) s (fun t => t = trap (frecAdd
          (s.setCore x.core { core with badColumn := true }) 4 0 x.core 0 q (c % 64) (c / 64) 0) 3)))) ∧
    (∀ n, (s.core n).badColumn = true → (s.core n).outOfService = false → (∀ h ∈ s.allHarts, h.core ≠ n) →
      Completes (.coreRetired n) s (fun t =>
        t = eventSend (s.setCore n { s.core n with outOfService := true }) 0 7 0xFF (leBytes 2 n))) ∧
    (∀ n, (s.ctx n).stallSent = false → (∃ t ∈ stallWaits s n 0, t + 10 * Config.cyclesPerMicrosecond ≤ s.cycle) →
      Completes (.logStall n 0) s (fun t =>
        let u := eventSend s (n / 64) 4 (n % 64) (List.replicate 8 0 ++ leBytes 8 (detLogtail (detBlock s n)))
        t = u.setCtx n { u.ctx n with stallSent := true })) ∧
    (∀ n kind, kind = 1 ∨ kind = 2 → (∀ h ∈ s.liveHarts, ctxOf s h = n → stallOf kind h ≠ some reported) →
      (∃ h ∈ s.liveHarts, ctxOf s h = n ∧ ∃ t, h.run = .parked (.log kind t) ∧
        t + 10 * Config.cyclesPerMicrosecond ≤ s.cycle) →
      Completes (.logStall n kind) s (fun t =>
        let u := eventSend s (n / 64) 4 (n % 64) ([BitVec.ofNat 8 kind] ++ List.replicate 7 0 ++
          leBytes 8 (detLoghead (detBlock s n)))
        t = { u with hart := t.hart, harts := t.harts } ∧
        ∀ j τ, (s.hartOf j).live = true → ctxOf s (s.hartOf j) = n → (s.hartOf j).run = .parked (.log kind τ) →
          (t.hartOf j).run = .parked (.log kind reported)))

/-! ## The mailbox (02, 14, 16, 19, 21) -/

/-- R26, R27, R248, R249, R321, R329, R337: CTX_CREATE of a free number from a good record makes a context with the
record's fields, CTX_DESTROY of a context without launches or queues frees it, and INVAL_S1 drops the cached
translations of a range, each answering SUCCESS; while an operation in flight that is older holds an old translation
INVAL_S1 waits, unanswered, in the function's mailbox (log 22). A context in use is BUSY. In the pilot-light state the
three answer UNSUPPORTED and do nothing else; in the freeze, and while an earlier INVAL_S1 of the function waits, they
do nothing. What of it is the model's choice or reading is in log 52. -/
def Obligations.ContextCommands : Prop :=
  ∀ (s : State) (f num recA va pages : Nat) (r : List Byte),
    let c := f * 64 + num
    let b := va / 65536 % 2 ^ 41
    let all := ([.ctxCreate f num recA, .ctxDestroy f num, .invalS1 f num va pages] : List Instr)
    ((s.frozen = true ∨ (s.fn f).inval.isSome = true) → ∀ i ∈ all, Completes i s (fun t => t = s)) ∧
    (s.frozen = false → (s.fn f).inval = none → f ≤ 32 → s.pilot.isSome = true →
      ∀ i ∈ all, Completes i s (fun t => t = answered s f .unsupported [])) ∧
    (s.frozen = false → (s.fn f).inval = none → s.pilot = none → f ≤ 32 →
      (num ≤ 62 → (s.ctx c).live = false → contextsOf s f < (s.fn f).maxctx →
        (s.ctxs.filter (fun p => p.2.live)).length < Config.contextMax → recA % 4096 = 0 → paDevice recA = true →
        agentRead s f recA 4096 = some r → recordAmiss r = false →
        (agentWrite s f (recA + 0xA2) [BitVec.ofNat 8 (byteAt r 0xA2 / 4 * 4)]).isSome = true →
          Completes (.ctxCreate f num recA) s (fun t => (t.fn f).mailRc = .success ∧
            let x := t.ctx c
            x.live = true ∧ x.recA = recA % 2 ^ 52 ∧ x.root = numAt r 0 8 % 2 ^ 52 ∧ x.trapbase.toNat = numAt r 8 8 ∧
            x.save.toNat = numAt r 0x10 8 ∧ x.scrbase.toNat = numAt r 0x18 8 ∧ x.capbase.toNat = numAt r 0x20 8 ∧
            x.shadow.toNat = numAt r 0xE0 8 ∧ x.level = .free ∧ x.tlb = [] ∧
            (∀ k, k ≠ c → (t.ctx k).live = (s.ctx k).live))) ∧
      (num ≤ 62 → (s.ctx c).live = true →
        (contextBusy s c = true → Completes (.ctxDestroy f num) s (fun t => t = answered s f .busy [])) ∧
        (contextBusy s c = false → (∀ p ∈ (s.fn f).queues, p.2.st ≠ .disabled → p.2.ctx ≠ num) →
          Completes (.ctxDestroy f num) s (fun t => (t.fn f).mailRc = .success ∧ t.ctx c = Ctx.initial ∧
            (∀ p ∈ t.slots, p.2.holder ≠ some c) ∧ (∀ k, k ≠ c → t.ctx k = s.ctx k) ∧ t.mem = s.mem ∧ t.l2 = s.l2)) ∧
        (va % 65536 = 0 →
          let done := (∀ p ∈ s.slots, p.2.holder = some c → ∀ o ∈ p.2.ops, o.done = true) ∧
            ∀ o ∈ s.colls, o.ctx = c → o.done = true
          (done → Completes (.invalS1 f num va pages) s (fun t => (t.fn f).mailRc = .success ∧
            (t.ctx c).tlb = (s.ctx c).tlb.filter (fun e => !(tlbHit b pages e)) ∧
            ((∀ h ∈ s.allHarts, h.sbuf = []) → t.mem = s.mem ∧ t.l2 = s.l2 ∧
              ∀ p v, ctxOf s (s.hartOf p) = c → (s.hartOf p).run = .parked (.mig v) →
                (v / 65536 % 2 ^ 41 + 2 ^ 41 - b) % 2 ^ 41 < pages → (s.hartOf p).live = true →
                  t.hartOf p = { s.hartOf p with run := .running }))) ∧
          ((∃ o ∈ s.colls, o.ctx = c ∧ o.done = false ∧ o.n < s.nextOp ∧
              ∃ p ∈ o.srcPages, vpnIn b pages (p.1 / 65536 % 2 ^ 41) = true) →
            (∀ p ∈ s.slots, p.2.holder = some c → ∀ o ∈ p.2.ops, o.done = true) →
            Completes (.invalS1 f num va pages) s (fun t =>
              (t.fn f).mailRc = (s.fn f).mailRc ∧ (t.fn f).mailOut = (s.fn f).mailOut ∧
              (t.fn f).inval = some (c, b, pages, s.nextOp))))))

/-- R252 to R255, R282, R329: FN_SET loads a function's record, EVSET its event ring, INVAL_S2 drops cached stage-2
translations of a range, and S2_RETRY and S2_DECLINE answer a stage-2 event, whose hart makes its access again; each
answers SUCCESS, in the mailbox of the function that gave it, but an event that is not open INVALID_INPUT. A virtual
function's command of these, EVSET apart, answers UNSUPPORTED. What of it is the model's choice or reading is in log
22, 73 and 74. -/
def Obligations.FunctionCommands : Prop :=
  ∀ (s : State) (f g recA base logsz headA tailA vec vmid gpa bytes evt n : Nat) (r : List Byte),
    let refused := fun (i : Instr) => Completes i s (fun t => t = answered s f .unsupported [])
    s.frozen = false → s.pilot = none → (s.fn 0).inval = none → (s.fn f).inval = none →
      (g ≤ 32 → paDevice recA = true → contextsOf s g = 0 → agentRead s 0 recA 256 = some r → fnAmiss g r = false →
        Completes (.fnSet 0 g recA) s (fun t => (t.fn 0).mailRc = .success ∧ (∀ k, k ≠ g → k ≠ 0 → t.fn k = s.fn k) ∧
          ((g = 0 ∨ ∀ e ∈ s.l2, fnAddr e.1 ≠ g) → t.mem = s.mem ∧ t.l2 = s.l2) ∧
          t.fn g = { s.fn g with
            recA := recA % 2 ^ 52, s2root := numAt r 0 8 % 2 ^ 52, ctxswdl := numAt r 8 4, maxctx := byteAt r 12
            mask := numAt r 0x10 4, hvbase := numAt r 0x20 8 % 2 ^ 52, hvlogsz := byteAt r 0x28
            hvhead := numAt r 0x30 8 % 2 ^ 52, hvtail := numAt r 0x38 8 % 2 ^ 52, s2tlb := []
            mailRc := (t.fn g).mailRc, mailOut := (t.fn g).mailOut })) ∧
      (f ≤ 32 → 12 ≤ logsz → logsz ≤ 24 → base % 2 ^ logsz = 0 → vec < Config.vectorsOf f →
        agentNum s f tailA 8 = some n → Completes (.evset f base logsz headA tailA vec) s (fun t =>
          t.mem = s.mem ∧ t.l2 = s.l2 ∧ t.fn f = { s.fn f with
            evBase := base, evLogsz := logsz, evHead := headA, evTail := tailA, evVec := vec, evSet := true
            evCount := n, mailRc := .success, mailOut := [] })) ∧
      (1 ≤ vmid → vmid ≤ 32 → gpa % 65536 = 0 → bytes % 65536 = 0 → Completes (.invalS2 0 vmid gpa bytes) s (fun t =>
        (t.fn 0).mailRc = .success ∧ (t.fn vmid).s2tlb = (s.fn vmid).s2tlb.filter (fun e =>
          !(decide (e.vpn * 2 ^ pageBits e.lvl < gpa + bytes) && decide (gpa < (e.vpn + 1) * 2 ^ pageBits e.lvl))) ∧
        (∀ k, k ≠ vmid → k ≠ 0 → t.fn k = { s.fn k with queues := (t.fn k).queues }) ∧
        ∀ a, fnAddr a = vmid → gpa ≤ lowAddr a → lowAddr a < gpa + bytes → mapGet none t.l2 a = none)) ∧
      (eventOwner s evt = none →
        Completes (.s2Retry 0 evt) s (fun t => t = answered s 0 .invalidInput []) ∧
        Completes (.s2Decline 0 evt) s (fun t => t = answered s 0 .invalidInput [])) ∧
      (eventOwner s evt = some g →
        let wakes := fun (t : State) => (t.fn 0).mailRc = .success ∧ t.mem = s.mem ∧ t.l2 = s.l2 ∧
          ∀ p, (s.hartOf p).live = true → (s.hartOf p).run = .parked (.stage2 evt) →
            t.hartOf p = { s.hartOf p with run := .running }
        Completes (.s2Retry 0 evt) s (fun t => wakes t ∧ (t.fn g).s2 = (s.fn g).s2.filter (fun e => e.evt != evt)) ∧
        Completes (.s2Decline 0 evt) s (fun t => wakes t ∧
          ∀ e ∈ (t.fn g).s2, e.evt = evt → e.declined = true)) ∧
      (f ≠ 0 → f ≤ 32 → refused (.fnSet f g recA) ∧ refused (.invalS2 f vmid gpa bytes) ∧ refused (.s2Retry f evt) ∧
        refused (.s2Decline f evt) ∧ refused (.laneRetest f g n true) ∧ refused (.snuff f) ∧ refused (.pwrLimit f n) ∧
        refused (.peerSet f g n true n n) ∧ refused (.commSet f g [] n) ∧ refused (.laneMaskRead f))

/-- R273, R284, R320, R321, R330, R332, R337, R339: QENABLE of a disabled queue reads its descriptor, from which its
head, SEQ and fields come, and makes it idle; QDISABLE abandons its packet. FREC_READ answers fault records, command
0x41 the lane masks, LANE_RETEST enables a lane group that passes on a core without harts, SNUFF freezes the part,
PWR_LIMIT takes 800 to 2,000 W, and PEER_SET and COMM_SET load their tables. FREC_READ answers the newest 128 records,
which fill the mailbox (log 97). R19 to R21, R252, R336, R340: what the host reads of a function's capability chain,
once bring-up has ended. Every entry holds its feature's number, version 1, a body of 16 bytes, and where the next
entry stands, the last one zero; the physical function's holds the features 0x0001 to 0x0008, a virtual function's
those not masked for it, without 0x0008. What of it is the model's choice or reading is in log 11, 80 and 97. -/
def Obligations.DeviceCommands : Prop :=
   (∀ (s : State) (f q vec core lg watts g p links peerFn comm rank head : Nat) (v : Bool) (peers : List Nat) (d : List Byte),
      let x := leNat d
      let field := fun (lo n : Nat) => x / 2 ^ lo % 2 ^ n
      let en := fun (on : Nat) (t : State) =>
        ∀ a, devBacked a = true → t.peek a =
          if a = descriptorAt s f q then BitVec.ofNat 8 ((s.peek a).toNat / 2 * 2 + on) else s.peek a
      s.frozen = false → s.pilot = none → (s.fn 0).inval = none → (s.fn f).inval = none → f ≤ 32 →
        (q ≤ 63 → (s.queue f q).st = .disabled → agentRead s 0 (descriptorAt s f q) 32 = some d → field 1 4 = 0 →
          12 ≤ field 11 5 → field 11 5 ≤ 30 → field 24 8 ≤ 62 → (s.ctx (f * 64 + field 24 8)).live = true →
          vec = field 16 8 + 256 * field 5 3 → vec < Config.vectorsOf f → agentNum s f (field 192 64) 8 = some head →
          devBacked (descriptorAt s f q) = true →
            Completes (.qenable f q) s (fun t => (t.fn f).mailRc = .success ∧ en 1 t ∧ t.queue f q =
              { st := .idle, headA := field 192 64, tailA := field 128 64, base := field 64 64, logsz := field 11 5,
                ctx := field 24 8, vec := vec, prio := field 8 3, head := head, seq := BitVec.ofNat 32 (field 32 32),
                fails := 0, seen := none, packet := none })) ∧
        (q ≤ 63 → (s.queue f q).st ≠ .disabled → devBacked (descriptorAt s f q) = true →
          Completes (.qdisable f q) s (fun t => (t.fn f).mailRc = .success ∧ en 0 t ∧
            t.queue f q = { s.queue f q with st := .disabled, packet := none, fails := 0 } ∧
            ∀ e ∈ (t.ctx (f * 64 + (s.queue f q).ctx)).drains, ¬ (e.fn = f ∧ e.q = q))) ∧
        Completes (.frecRead f) s (fun t =>
          t = answered s f .success ((s.frec.drop (s.frec.length - 128)).flatMap (fun r => leBytes 32 r.toNat))) ∧
        Completes (.laneMaskRead 0) s (fun t =>
          t = answered s 0 .success ((List.range Config.cores).map (fun c => (s.core c).laneMask.zeroExtend 8))) ∧
        (core < Config.cores → lg < 4 →
          ((∃ h ∈ s.allHarts, h.core = core) → Completes (.laneRetest 0 core lg v) s (fun t =>
            t = answered s 0 .busy [])) ∧
          ((∀ h ∈ s.allHarts, h.core ≠ core) → Completes (.laneRetest 0 core lg v) s (fun t => (t.fn 0).mailRc = .success ∧
            t.core core = { s.core core with laneMask :=
              if v then (s.core core).laneMask &&& ~~~(1#4 <<< lg) else (s.core core).laneMask } ∧
            ∀ c, c ≠ core → t.core c = s.core c))) ∧
        Completes (.snuff 0) s (fun t => t.frozen = true ∧ t.frec.length = min (s.frec.length + 1) (max s.frec.length 256) ∧
          (t.frec.getLast?.map (fun r => r.extractLsb' 0 8)) = some 9 ∧ t.mem = s.mem ∧ t.hart = s.hart) ∧
        Completes (.pwrLimit 0 watts) s (fun t => t = if 800 ≤ watts ∧ watts ≤ 2000 then
          answered { s with powerLimit := watts } 0 .success []
          else answered s 0 .invalidInput []) ∧
        (g ≤ 32 → p ≤ 63 → links < 2 ^ 18 →
          ((∃ l ∈ s.launches, l.2.fn = g) → Completes (.peerSet 0 g p v links peerFn) s (fun t =>
            t = answered s 0 .busy [])) ∧
          ((∀ l ∈ s.launches, l.2.fn ≠ g) → Completes (.peerSet 0 g p v links peerFn) s (fun t => (t.fn 0).mailRc = .success ∧
            mapGet Peer.initial (t.fn g).peers p = ⟨v, links, peerFn, false, false⟩ ∧
            ∀ k, k ≠ p → mapGet Peer.initial (t.fn g).peers k = mapGet Peer.initial (s.fn g).peers k))) ∧
        (comm ≤ 15 → 2 ≤ peers.length → peers.length ≤ 64 → rank < peers.length → (∀ k ∈ peers, k ≤ 63) →
          Completes (.commSet 0 comm peers rank) s (fun t => (t.fn 0).mailRc = .success ∧ t.comm comm = ⟨true, peers, rank⟩ ∧
            ∀ k, k ≠ comm → t.comm k = s.comm k))) ∧
   (∀ (s : State) (f off n : Nat) (rest : List Input),
      (s.inputs = .chainRead f off n :: rest → s.frozen = false → s.pilot = none → f ≤ 32 →
        step s = .next { s with
          inputs := rest, busOut := some ((List.range n).map (fun i => (capChain s f).getD (off + i) 0)) }) ∧
      (s.inputs = .chainRead f off n :: rest → s.frozen = false → s.pilot.isSome = true →
        step s = .next { s with inputs := rest, busOut := none }) ∧
      ((s.fn 0).mask = 0 → (capIds s 0) = [1, 2, 3, 4, 5, 6, 7, 8]) ∧
      (∀ i, f ≠ 0 → (i ∈ capIds s f ↔ 1 ≤ i ∧ i ≤ 7 ∧ (s.fn f).mask.testBit i = false)) ∧
      ∀ i, i < (capIds s f).length →
        let e := leNat (((capChain s f).drop (32 * i)).take 16)
        e % 2 ^ 16 = (capIds s f).getD i 0 ∧ e / 2 ^ 16 % 2 ^ 16 = 1 ∧ e / 2 ^ 32 % 2 ^ 32 = 16 ∧
          e / 2 ^ 64 = if i + 1 < (capIds s f).length then 32 * (i + 1) else 0)

/-- R329, R337, R338: FW_UPDATE. BEGIN of 1 KiB to 64 MiB opens an update with an empty staging bank, DATA stores
bytes of it, COMMIT of an image that verifies makes the bank the next to boot, ABORT closes the update, and STATUS
answers the versions. A step out of order fails with reason 1, a bad length or offset with 2, a bad signature, digest
or version with 3, 4 or 5. In the pilot-light state these still run. What of it is the model's choice or reading is in
log 7 and 11. -/
def Obligations.FirmwareUpdates : Prop :=
  ∀ (s : State) (len off open_ : Nat) (bytes : List Byte) (v : FwVerdict),
    let fails := fun (i : Instr) (n : Byte) =>
      Completes i s (fun t => t = answered s 0 .invalidInput [n])
    let is := fun (i : Instr) (t : State) => Completes i s (fun u => u = answered t 0 .success [])
    s.frozen = false → (s.fn 0).inval = none →
      (2 ^ 10 ≤ len → len ≤ 2 ^ 26 →
        is (.fwUpdateBegin 0 len) { s with fwStaging := Bank.initial, fwOpen := some len, fwNext := false }) ∧
      (len < 2 ^ 10 ∨ 2 ^ 26 < len → fails (.fwUpdateBegin 0 len) 2) ∧
      (s.fwOpen = none → fails (.fwUpdateData 0 off bytes) 1 ∧ fails (.fwUpdateCommit 0 v) 1 ∧ fails (.fwUpdateAbort 0) 1) ∧
      (s.fwOpen = some open_ →
        (off % 8 = 0 → bytes.length ≤ 4080 → off + bytes.length ≤ open_ →
          Completes (.fwUpdateData 0 off bytes) s (fun t =>
            (∀ a, mapGet 0 t.fwStaging.bytes a = byteAfter off bytes a (mapGet 0 s.fwStaging.bytes a)) ∧
            t = answered { s with fwStaging := { s.fwStaging with bytes := t.fwStaging.bytes } } 0 .success [])) ∧
        (off % 8 ≠ 0 ∨ 4080 < bytes.length ∨ open_ < off + bytes.length → fails (.fwUpdateData 0 off bytes) 2) ∧
        (v.sigOk = false → fails (.fwUpdateCommit 0 v) 3) ∧
        (v.sigOk = true → v.digestOk = false → fails (.fwUpdateCommit 0 v) 4) ∧
        (v.sigOk = true → v.digestOk = true →
          (v.version < Config.fusedMinimum → fails (.fwUpdateCommit 0 v) 5) ∧
          (Config.fusedMinimum ≤ v.version → is (.fwUpdateCommit 0 v) { s with
            fwStaging := { s.fwStaging with present := true, len := open_, version := some v.version }
            fwOpen := none
            fwNext := true })) ∧
        is (.fwUpdateAbort 0) { s with fwStaging := Bank.initial, fwOpen := none }) ∧
      Completes (.fwUpdateStatus 0) s (fun t => t = answered s 0 .success
        (leBytes 8 s.fwActive.security ++ leBytes 8 s.fwStaging.security ++ [if s.fwRejected then 1 else 0]))

/-! ## Host queues (16, 17, 02) -/

/-- R273 to R280, R284: an attempt on a queue that is idle and woken, or that has finished a packet, takes a sealed
packet without defect: the head word passes it, SEQ counts, and the packet waits for its effect; an empty queue goes
idle and watches its tail sector; a packet that does not verify counts as a failed attempt, after which the queue
watches the packet's sectors too, and the third puts the queue into ERROR with code 1 (SEAL) in an event. An idle
queue that nothing has woken makes no attempt. What of it is the model's choice or reading is in log 53 and 57. -/
def Obligations.QueueAttempts : Prop :=
  ∀ (s s1 : State) (f q tail : Nat) (hd p : List Byte),
    let x := s.queue f q
    let y := { x with fails := x.fails + 1 }
    let head := (x.head + p.length) % 2 ^ 64
    (x.st = .idle → queueWoken s f x = false → Completes (.queueAttempt f q) s (fun t => t = s)) ∧
    (x.st = .idle ∧ queueWoken s f x = true ∨ x.st = .fetch → agentNum s f x.tailA 8 = some tail →
      (tail = x.head → Completes (.queueAttempt f q) s (fun t =>
        t.queue f q = { x with st := .idle, seen := some (queueSight s f x (x.fails != 0)) } ∧
        t.mem = s.mem ∧ t.l2 = s.l2 ∧ t.hart = s.hart)) ∧
      (tail ≠ x.head → ringRead s f x 64 = some hd → ringRead s f x (64 * packetLen hd) = some p →
        (packetSealed x.seq p = true → packetAmiss s f x p = none → (agentRead s f x.headA 8).isSome = true →
          agentWrite s f x.headA (leBytes 8 head) = some s1 →
          Completes (.queueAttempt f q) s (fun t => t.mem = s1.mem ∧ t.l2 = s1.l2 ∧ t.queue f q = { x with
            st := .wait, head := head, seq := x.seq + 1, fails := 0
            packet := some ⟨packetType p, p, false, [], none⟩ })) ∧
        (packetSealed x.seq p = false →
          (x.fails < 2 → Completes (.queueAttempt f q) s (fun t =>
            t.queue f q = { y with st := .idle, seen := some (queueSight s f y true) } ∧ t.mem = s.mem ∧ t.l2 = s.l2)) ∧
          (2 ≤ x.fails → Completes (.queueAttempt f q) s (fun t =>
            t.queue f q = { y with st := .error } ∧
            t.mem = (eventSend s f 1 x.ctx ([BitVec.ofNat 8 q, 1] ++ List.replicate 6 0 ++ leBytes 8 x.head)).mem ∧
            t.l2 = (eventSend s f 1 x.ctx ([BitVec.ofNat 8 q, 1] ++ List.replicate 6 0 ++ leBytes 8 x.head)).l2)))))

/-- R279, R284, R290, R291: NOP, LAUNCH, SIGNAL, WAITVAL, CODEFENCE and SETDET packets complete. NOP has no effect.
SIGNAL and CODEFENCE, and LAUNCH unless it may run concurrently, wait for the queue's earlier launches; SIGNAL then
stores its value, WAITVAL ends once its location satisfies its condition, and CODEFENCE advances the context's code
epoch; SETDET begins to hold the context. A packet that has ended leaves its queue free to fetch the next, and one
that waits leaves the part as it is. What of it is the model's choice or reading is in log 53 and 57. -/
def Obligations.PacketsTakeEffect : Prop :=
  ∀ (s : State) (f q : Nat) (p : Packet), (s.queue f q).st = .wait → (s.queue f q).packet = some p →
    (p.ptype = 0 → ∃ t, exec (.nop f q) s = .next t ∧
      t.queue f q = { s.queue f q with st := .fetch, packet := none } ∧ t.mem = s.mem ∧ t.l2 = s.l2 ∧ t.hart = s.hart ∧
      t.harts = s.harts ∧ t.launches = s.launches ∧ t.ctxs = s.ctxs) ∧
    (p.ptype = 1 → p.begun = false → (packetConc p.bytes = true ∨ ∀ l ∈ s.launches, ¬ (l.2.fn = f ∧ l.2.q = q)) →
      ∃ t, exec (.launch f q) s = .next t ∧
        t.queue f q = { s.queue f q with packet := some { p with begun := true } } ∧ t.mem = s.mem ∧ t.l2 = s.l2 ∧
        t.launches = s.launches) ∧
    (p.ptype = 1 → p.begun = false → packetConc p.bytes = false → (∃ l ∈ s.launches, l.2.fn = f ∧ l.2.q = q) →
      ∃ t, exec (.launch f q) s = .next t ∧ t = s) ∧
    (p.ptype = 2 → p.begun = false → (∀ l ∈ s.launches, ¬ (l.2.fn = f ∧ l.2.q = q)) →
      ∃ t, exec (.signal f q) s = .next t ∧
        t.queue f q = { s.queue f q with packet := some { p with begun := true } } ∧ t.mem = s.mem ∧ t.l2 = s.l2) ∧
    (p.ptype = 2 → p.begun = false → (∃ l ∈ s.launches, l.2.fn = f ∧ l.2.q = q) →
      ∃ t, exec (.signal f q) s = .next t ∧ t = s) ∧
    (∀ s1, p.ptype = 2 → p.begun = true → (agentRead s f (numAt p.bytes 8 8) 8).isSome = true →
      agentWrite s f (numAt p.bytes 8 8) ((p.bytes.drop 16).take 8) = some s1 →
      ∃ t, exec (.signalStore f q) s = .next t ∧
        t.queue f q = { s.queue f q with st := .fetch, packet := none } ∧ t.mem = s1.mem ∧ t.l2 = s1.l2 ∧
        t.hart = s.hart) ∧
    (p.ptype = 3 → p.begun = false →
      ∃ t, exec (.waitvalPacket f q) s = .next t ∧
        t.queue f q = { s.queue f q with packet := some { p with begun := true } } ∧ t.mem = s.mem ∧ t.l2 = s.l2) ∧
    (∀ x, p.ptype = 3 → p.begun = true → agentNum s f (numAt p.bytes 8 8) 8 = some x →
      (match byteAt p.bytes 24 with
        | 0 => x = numAt p.bytes 16 8
        | 1 => x ≠ numAt p.bytes 16 8
        | 2 => x < numAt p.bytes 16 8
        | _ => numAt p.bytes 16 8 ≤ x) →
      ∃ t, exec (.waitvalPacketSatisfied f q) s = .next t ∧
        t.queue f q = { s.queue f q with st := .fetch, packet := none } ∧ t.mem = s.mem ∧ t.l2 = s.l2) ∧
    (∀ x, p.ptype = 3 → p.begun = true → agentNum s f (numAt p.bytes 8 8) 8 = some x →
      (match byteAt p.bytes 24 with
        | 0 => x ≠ numAt p.bytes 16 8
        | 1 => x = numAt p.bytes 16 8
        | 2 => numAt p.bytes 16 8 ≤ x
        | _ => x < numAt p.bytes 16 8) →
      ∃ t, exec (.waitvalPacketSatisfied f q) s = .next t ∧ t = s) ∧
    (p.ptype = 4 → p.begun = false → (∀ l ∈ s.launches, ¬ (l.2.fn = f ∧ l.2.q = q)) →
      ∃ t, exec (.codefence f q) s = .next t ∧
        t.queue f q = { s.queue f q with packet := some { p with begun := true } } ∧ t.mem = s.mem ∧ t.l2 = s.l2) ∧
    (p.ptype = 4 → p.begun = true →
      ∃ t, exec (.codefenceAdvance f q) s = .next t ∧
        t.queue f q = { s.queue f q with st := .fetch, packet := none } ∧ t.mem = s.mem ∧ t.l2 = s.l2 ∧
        t.ctx (f * 64 + (s.queue f q).ctx) = { s.ctx (f * 64 + (s.queue f q).ctx) with
          epoch := (s.ctx (f * 64 + (s.queue f q).ctx)).epoch + 1 }) ∧
    (p.ptype = 5 → p.begun = false →
      ∃ t, exec (.setdet f q) s = .next t ∧
        t.queue f q = { s.queue f q with packet := some { p with begun := true } } ∧ t.mem = s.mem ∧ t.l2 = s.l2 ∧
        (t.ctx (f * 64 + (s.queue f q).ctx)).drains = (s.ctx (f * 64 + (s.queue f q).ctx)).drains ++
          [⟨f, q, (s.launches.filter (fun l => l.2.ctx == f * 64 + (s.queue f q).ctx)).map (·.1)⟩])

/-- R28, R31, R46, R279, R281, R285, R290: admission of a LAUNCH whose template declares a valid launch makes one,
with its stages, queues and groups, TAG, ARG and record address, at the context's level and code epoch, and frees the
queue; one whose template has a defect ends with status 1 and the lowest code, and enters no launch. Either way the
next turn of an equal priority is another queue's. At FREE. What of it is the model's choice or reading is in log 54
to 56. -/
def Obligations.LaunchesAdmitted : Prop :=
  ∀ (s : State) (f q code : Nat) (p : Packet) (st : List Stage) (qs : List LQueue) (gs : List Group),
    let y := s.queue f q
    let c := f * 64 + y.ctx
    let s1 := refreshCtx c s
    let l := launchOf s1 f q y p.bytes
    y.st = .wait → y.packet = some p → p.ptype = 1 → p.begun = true → (s.ctx c).drains = [] → (s.ctx c).level = .free →
      (s.ctx c).ghosts = [] → (s.ctx c).skips = [] → (s.launches.filter (fun l => l.2.ctx == c)).length < Config.launchMax →
      queueTurn s f q = true → mapGet Launch.initial s.launches s.nextLaunch = Launch.initial →
        (declared s1 c (numAt p.bytes 8 8) = (some code, st, qs, gs) → Completes (.admission f q) s (fun t =>
          t.mem = (completionSend s1 l 1 code 0).mem ∧ t.l2 = (completionSend s1 l 1 code 0).l2 ∧
          t.launches = s.launches ∧ mapGet 0 (t.ctx c).turns y.prio = q + 1 ∧
          t.queue f q = { y with st := .fetch, packet := none })) ∧
        (declared s1 c (numAt p.bytes 8 8) = (none, st, qs, gs) → Completes (.admission f q) s (fun t =>
          let n := t.launch s.nextLaunch
          t.nextLaunch = s.nextLaunch + 1 ∧ t.queue f q = { y with st := .fetch, packet := none } ∧ t.mem = s.mem ∧
          t.l2 = s.l2 ∧ mapGet 0 (t.ctx c).turns y.prio = q + 1 ∧
          n.ctx = c ∧ n.fn = f ∧ n.q = q ∧ n.template.toNat = numAt p.bytes 8 8 ∧ n.arg.toNat = numAt p.bytes 16 8 ∧
          n.tag.toNat = numAt p.bytes 4 4 ∧ n.compl = numAt p.bytes 24 8 ∧ n.groups = gs ∧ n.level = .free ∧
          n.epoch = (t.ctx c).epoch ∧ (t.ctx c).epoch = (s.ctx c).epoch + (if packetFresh p.bytes then 1 else 0) ∧
          n.stages.map (fun g => { g with finished := false }) = st.map (fun g => { g with finished := false }) ∧
          n.queues.map (fun g => { g with closed := true }) = qs.map (fun g => { g with closed := true }) ∧
          ∀ k, k ≠ s.nextLaunch → t.launch k = s.launch k))

/-- R291, R295, R302, R309: a SETDET packet completes: one whose turn has come and whose launches have retired sets
the context's level and reference area and ends its hold, with the cut counter zero at RECORD and REPLAY; one whose
launches have not waits. R271: a CTXSW packet completes: its first step writes the outgoing context's slots to the
shadow and stops their harts; its last one exchanges SAVE and SHADOW, and the slots are the incoming context's. A
hypervisor's pre-emption starts its deadline, before which nothing is undone, and at which it runs again from its
start and the harts it had stopped go on. What of it is the model's choice or reading is in log 63. -/
def Obligations.ContextSwitches : Prop :=
  ∀ (s : State) (f q : Nat) (p : Packet), (s.queue f q).st = .wait → (s.queue f q).packet = some p →
    (∀ (c : Nat) (rest : List Drain) (ls : List Nat), p.ptype = 5 → p.begun = true → c = f * 64 + (s.queue f q).ctx →
      (s.ctx c).drains = ⟨f, q, ls⟩ :: rest →
      ((∀ l ∈ ls, ∀ k ∈ s.launches, k.1 ≠ l) → numAt p.bytes 8 8 < 4 → (s.ctx c).level ≠ .record →
        ∃ t, exec (.setdetApply f q) s = .next t ∧
          t.queue f q = { s.queue f q with st := .fetch, packet := none } ∧
          (t.ctx c).level = Level.ofCode (numAt p.bytes 8 8) ∧ (t.ctx c).drains = rest ∧
          (t.ctx c).refbase.toNat = numAt p.bytes 16 8 ∧ (t.ctx c).hist = [] ∧ (t.ctx c).admits = 0 ∧
          (2 ≤ numAt p.bytes 8 8 → (t.ctx c).cut = 0)) ∧
      ((∃ l ∈ ls, ∃ k ∈ s.launches, k.1 = l) → ∃ t, exec (.setdetApply f q) s = .next t ∧ t = s)) ∧
    (∀ (s1 : State) (out into mask : Nat), p.ptype = 6 → out = f * 64 + numAt p.bytes 8 2 → into = f * 64 + numAt p.bytes 10 2 →
      mask = numAt p.bytes 64 64 → ctxswOut out mask s = .ok s1 →
      (p.begun = false → ∃ t, exec (.ctxsw f q) s = .next t ∧
        t.queue f q = { s.queue f q with packet := some { p with begun := true, waits := stoppedBy s s1 } } ∧
        t.mem = s1.mem ∧ t.l2 = s1.l2 ∧ t.hart = s1.hart ∧ t.harts = s1.harts) ∧
      (p.begun = true → s1.spills.all (fun k => k.1 / 512 != into) = true → out ≠ into →
        ∃ t, exec (.ctxsw f q) s = .next t ∧ t.queue f q = { s.queue f q with st := .fetch, packet := none } ∧
          (t.ctx out).save = (s1.ctx out).shadow ∧ (t.ctx out).shadow = (s1.ctx out).save ∧
          ∀ core slot, slot < 2 → bitsAt mask core 1 = 1 → (t.slot (core * 2 + slot)).holder ≠ some out)) ∧
    (p.ptype = 6 → f ≠ 0 → p.begun = true →
      (p.since = none → ∃ t, exec (.ctxswAbort f q) s = .next t ∧
        t.queue f q = { s.queue f q with packet := some { p with since := some s.time } } ∧ t.mem = s.mem ∧ t.l2 = s.l2 ∧
        t.hart = s.hart ∧ t.harts = s.harts) ∧
      (∀ t0, p.since = some t0 →
        (s.time < t0 + (s.fn f).ctxswdl * 1000 → ∃ t, exec (.ctxswAbort f q) s = .next t ∧ t = s) ∧
        (t0 + (s.fn f).ctxswdl * 1000 ≤ s.time → ∃ t, exec (.ctxswAbort f q) s = .next t ∧
          t.queue f q = { s.queue f q with packet := some { p with begun := false, waits := [], since := none } } ∧
          t.mem = s.mem ∧ t.l2 = s.l2 ∧
          ∀ k ∈ p.waits, (s.hartOf k).live = true → (s.hartOf k).id = k → (s.hartOf k).run = .stopped →
            (s.hartOf k).ended = false → (s.core (k / 8)).active = k / 4 % 2 →
              t.hartOf k = { s.hartOf k with run := .running })))

/-! ## Placement, retirement and slots (02, 15, 16, 17) -/

/-- R34 to R37, R43, R217, R286, R288: placing puts the first waiting hart of the dispatchers' order that fits at the
hart slot, alone where it is in no gang: its stage's entry, the launch's argument and template address in s3 and s4,
its index and lane groups, its first acquire due; the context slot is the context's. R31, R281: a launch at FREE all
of whose stages have finished and which has no hart left leaves the machine, and its completion record is written.
What of it is the model's choice or reading is in log 58. -/
def Obligations.HartsPlaced : Prop :=
  ∀ (s : State) (core hslot n stage ix : Nat) (rest : List (Nat × Nat × Nat)) (p : Spot),
    let l := s.launch n
    (hslot ≤ 3 → (∀ c ∈ s.ctxs, c.2.ghosts = [] ∧ c.2.skips = []) → candidates s = (n, stage, ix) :: rest → l.level = .free → l.rerun = 0 → l.groups = [] →
      stage < l.stages.length → spotAt s l.ctx (l.stage stage).shape core hslot = some p →
      Completes (.place core hslot) s (fun t =>
        let h := t.hartOf p.hart
        h.live = true ∧ h.launch = n ∧ h.stage = stage ∧ h.index = ix ∧ h.lgown = p.lg ∧ h.pc = (l.stage stage).entry ∧
        h.rs 3 = l.arg ∧ h.rs 4 = l.template ∧ (∀ r, r ≠ 3 → r ≠ 4 → h.rs r = 0) ∧ h.relStage = 3 ∧
        h.nharts = (l.stage stage).n ∧ (t.slot (p.core * 2 + p.slot)).holder = some l.ctx ∧
        ((t.launch n).stage stage).placed = (l.stage stage).placed + 1 ∧
        (∀ k, k ≠ p.hart → t.hartOf k = s.hartOf k) ∧ t.mem = s.mem ∧ t.l2 = s.l2)) ∧
    ((∃ k ∈ s.launches, k.1 = n) → l.stages.all (·.finished) = true → (∀ h ∈ s.allHarts, h.launch ≠ n) →
      l.level = .free → (s.ctx l.ctx).level ≠ .replay → l.deferred = 0 → Completes (.launchRetire n) s (fun t =>
        t.mem = (completionSend s l 0 0 0).mem ∧ t.l2 = (completionSend s l 0 0 0).l2 ∧ t.launch n = Launch.initial ∧ ∀ k, k ≠ n → t.launch k = s.launch k)) ∧
    ((∃ h ∈ s.allHarts, h.launch = n) → Completes (.launchRetire n) s (fun t => t = s))

/-- R24, R266, R267, R289: when the active slot is to yield, YREQ rises in its harts, with the cycle of the request;
once the deadline has passed a hart that has not yielded is stopped, at RECORD and REPLAY only at a safe point, and at
twice the deadline raises NONYIELD instead, in a handler too; a boundary under way runs again whole at FREE and
DIGEST, and puts the stop off at RECORD and REPLAY; once all have yielded the other slot becomes active, YREQ falls
and its stopped harts run. What of it is the model's choice or reading is in log 61. -/
def Obligations.SlotsSwitch : Prop :=
  ∀ (s : State) (core k : Nat),
    let c := s.core core
    let act := core * 2 + c.active
    let oth := core * 2 + (1 - c.active)
    let x := s.hartOf k
    let ctx := s.ctx (ctxOf s x)
    x.live = true → x.id = k →
      (quantumDue s core = true → Completes (.quantumExpiry core) s (fun t =>
        t.hartOf k = (if k / 4 = act ∧ x.yreq = false then { x with yreq := true, yreqAt := s.cycle, nonyielded := false }
          else x))) ∧
      (quantumDue s core = false → Completes (.quantumExpiry core) s (fun t => t = s)) ∧
      (x.run = .running → x.ended = false → x.yreq = true →
        (x.yreqAt + ctx.ydl ≤ s.cycle →
          (ctx.strict = false ∨ safePoint s x = true ∧ (x.relStage = 0 ∨ x.relStage = 3) → Completes (.forcedStop k) s (fun t =>
            t = s.setHart { x.refetch with run := .stopped, relStage := if x.relStage = 3 then 3 else 0 })) ∧
          (ctx.strict = true → ¬ (x.relStage = 0 ∨ x.relStage = 3) →
            Completes (.forcedStop k) s (fun t => t = s) ∧ Completes (.nonyield k) s (fun t => t = s))) ∧
        (s.cycle < x.yreqAt + ctx.ydl → Completes (.forcedStop k) s (fun t => t = s)) ∧
        (x.yreqAt + 2 * ctx.ydl ≤ s.cycle → ctx.strict = true → safePoint s x = false → x.nonyielded = false →
          x.relStage = 0 ∨ x.relStage = 3 → Completes (.nonyield k) s (fun t =>
            t = takeTrap (s.setHart { x with nonyielded := true }) k .nonyield .read
              (BitVec.ofNat 64 (min (s.cycle - x.yreqAt) (2 ^ 32 - 1))) x.pc x.pc))) ∧
      (c.active < 2 → (s.slot oth).holder.isSome = true → (∀ h ∈ slotHarts s act, h.runnable = false) →
        (∃ h ∈ slotHarts s act, h.yreq = true) ∨ quantumDue s core = true → Completes (.slotSwitch core) s (fun t =>
          (t.core core).active = 1 - c.active ∧ (t.core core).activeSince = s.cycle ∧
          t.hartOf k = (if k / 4 = oth then
            { x.refetch with yreq := false, run := if x.run = .stopped ∧ x.ended = false then .running else x.run } else x)))

/-- R269, R270: a spill of the slot the scheduler has chosen takes the context off the core, whose harts and storage
wait in its save region; a restore, into a free slot, brings the context back there. Neither happens where it may not.
What of it is the model's choice or reading is in log 62 and 96. -/
def Obligations.SlotsSpill : Prop :=
  ∀ (s s1 : State) (core slot c : Nat) (cs : Cells) (bad : List Nat),
    let i := core * 2 + slot
    let sp := s.spill c core
    let moved := fun (sp : Spill) (h : Hart) => renameHart (fun k =>
      if (sp.harts.map (·.id)).contains k then i * 4 + k % 4 else k) h
    (spillChoice s core = some slot → slotStoppable s i = true → (s.slot i).holder = some c →
      slotWrite c (s.ctx c).save.toNat core slot (mapSlot i stopHart s) = some s1 → Completes (.spill core slot) s (fun t =>
        (t.slot i).holder = none ∧ (t.spill c core).harts = slotHarts s1 i ∧
        (t.spill c core).slot = { s1.slot i with rcache := [] } ∧ t.mem = s1.mem ∧ t.l2 = s1.l2 ∧
        ∀ h ∈ slotHarts s1 i, (t.hartOf h.id).live = false)) ∧
    (spillChoice s core ≠ some slot → Completes (.spill core slot) s (fun t => t = s)) ∧
    (slot < 2 → core < Config.cores → sp ≠ Spill.initial → (s.slot i).holder = none → sp.slot.holder = some c →
      imageRead s c (spillRegion c (s.ctx c).save.toNat core slot .read) = some (cs, bad) →
      (sp.harts.map (fun h => h.id % 4)).Nodup → (∀ h ∈ sp.harts, ∃ x, hartBack s c (moved sp h) = .ok x) →
        Completes (.restore core slot c) s (fun t => t.spill c core = Spill.initial ∧ (t.slot i).holder = some c ∧
          (∀ o < 0x80000, mapGet unwritten (t.slot i).scratch o = (storedAt cs o).getD unwritten) ∧
          t.mem = s.mem ∧ t.l2 = s.l2 ∧
          ∀ h ∈ sp.harts, ∀ x, hartBack s c (moved sp h) = .ok x →
            let y := t.hartOf (i * 4 + h.id % 4)
            y.s = x.s ∧ y.v = x.v ∧ y.k = x.k ∧ y.pc = x.pc ∧ y.vl = x.vl ∧ y.trapcause = x.trapcause ∧ y.yreq = false)) ∧
    (sp = Spill.initial ∨ (s.slot i).holder ≠ none → Completes (.restore core slot c) s (fun t => t = s))

/-! ## The outside world (19, 21) -/

/-- R14, R292, R319, R321, R327, R328, R331, R334, R335, R339: what the world outside does to the part. Host and peer
stores and reads act on device memory at home; a read that meets poison or memory that does not stand returns no data;
the scrubber's finding becomes a fault record, with the count of corrected errors, an uncorrectable one poison too;
SNUFF_N and the thermal shutdown freeze; the power controller sets a lane cap; links train down, go down and come
back. What of it is the model's choice or reading is in log 7, 64 and 87. -/
def Obligations.OutsideActs : Prop :=
  ∀ (s : State) (pa n core cap lanes rate link f block : Nat) (bytes : List Byte) (down keys : Bool),
    let stores := fun (t : State) => ∀ q, fnAddr q = 0 → t.peek q = byteAfter pa bytes q (s.peek q)
    let reads := fun (t : State) => t = { s with busOut := some (s.peekBytes pa n) }
    let site := (512 + siteOf pa) * 128 + channelOf pa % 16
    let frozen := fun (t : State) => t.frozen = true ∧ t.hart = s.hart ∧ t.harts = s.harts ∧ t.mem = s.mem ∧ t.l2 = s.l2 ∧
      (t.frec.getLast?.map (fun r => r.extractLsb' 0 8)) = some 9
    s.frozen = false → s.pilot = none →
      ((∀ i < bytes.length, devBacked (pa + i) = true) → paDevice pa = true →
        Completes (.hostMemAccess true pa n bytes) s stores ∧ Completes (.peerRequest true pa n bytes) s stores) ∧
      ((∀ i < n, paBad s (pa + i) = false) → paDevice pa = true →
        Completes (.hostMemAccess false pa n bytes) s reads ∧ Completes (.peerRequest false pa n bytes) s reads) ∧
      ((∃ i < n, paBad s (pa + i) = true) → paDevice pa = true →
        Completes (.hostMemAccess false pa n bytes) s (fun t => t = { s with busOut := none }) ∧
        Completes (.peerRequest false pa n bytes) s (fun t => t = { s with busOut := none })) ∧
      (devBacked pa = true →
        Completes (.dramScrub pa 2) s (fun t => t.poison.contains (pa / 64) = true ∧ t.mem = s.mem ∧ t.l2 = s.l2 ∧
          (t.frec.getLast?.map (fun r => (r.extractLsb' 0 8, r.extractLsb' 192 64))) = some (6, BitVec.ofNat 64 pa)) ∧
        Completes (.dramScrub pa 1) s (fun t => t.poison = s.poison ∧ t.mem = s.mem ∧ t.l2 = s.l2 ∧
          mapGet 0 t.corrected site = 0 ∧
          (t.frec.getLast?.map (fun r => (r.extractLsb' 0 8, r.extractLsb' 96 32, r.extractLsb' 192 64))) =
            some (5, BitVec.ofNat 32 (mapGet 0 s.corrected site + 1), BitVec.ofNat 64 pa))) ∧
      Completes .snuffN s frozen ∧ Completes .thermalShutdown s frozen ∧
      (core < Config.cores → 1 ≤ cap → cap ≤ 4 → Completes (.powerControl core cap) s (fun t =>
        t.core core = { s.core core with cap := cap } ∧ (∀ c, c ≠ core → t.core c = s.core c) ∧
        t = { s with cores := t.cores })) ∧
      Completes (.linkTrainDown lanes rate) s (fun t => t =
        if (lanes = 8 ∨ lanes = 16) ∧ (rate = 64 ∨ rate = 128) ∧ lanes ≤ s.hostLanes ∧ rate ≤ s.hostRate then
          { s with hostLanes := lanes, hostRate := rate } else s) ∧
      (link ≤ 17 → Completes (.peerLinkDown link down) s (fun t =>
        (down = true → ∃ c, (link, c) ∈ t.linksDown) ∧
        (down = false → ∀ c, (link, c) ∉ t.linksDown) ∧
        (∀ l c, l ≠ link → ((l, c) ∈ t.linksDown ↔ (l, c) ∈ s.linksDown)) ∧ t = { s with linksDown := t.linksDown })) ∧
      (f ≤ 32 → 1 ≤ block → block ≤ 5 → Completes (.spdmRequest f block keys) s (fun t => t = {
        s.setFn f { s.fn f with doeOut := Config.spdmBytes f block (measured s block) s.fresh } with
          fresh := s.fresh + 1, ideKeys := s.ideKeys || keys }))
end

