-- ==== Sys2Proof/Laws/Maps.lean ====
section
/-! SUPPORT. Sparse maps: reading after writing, and the canonical form that every operation keeps (log 3). -/

namespace Sys2Proof.Machine

variable {α : Type}

theorem mapGet_erase (d : α) (m : SMap α) (k j : Nat) :
    mapGet d (mapErase k m) j = if j = k then d else mapGet d m j := by
  induction m with
  | nil => simp [mapErase, mapGet]
  | cons p t ih =>
    obtain ⟨k', x⟩ := p
    unfold mapErase
    by_cases h : k' = k
    · rw [if_pos h, ih]
      by_cases hj : j = k
      · simp [hj]
      · rw [if_neg hj, if_neg hj, mapGet, if_neg (by omega)]
    · rw [if_neg h, mapGet]
      by_cases hk : k' = j
      · rw [if_pos hk, if_neg (by omega), mapGet, if_pos hk]
      · rw [if_neg hk, ih, mapGet, if_neg hk]

theorem mapGet_insert (d : α) (m : SMap α) (k : Nat) (x : α) (j : Nat)
    (he : ∀ p ∈ m, p.1 ≠ k) : mapGet d (mapInsert k x m) j = if j = k then x else mapGet d m j := by
  induction m with
  | nil => simp only [mapInsert, mapGet]; by_cases h : k = j <;> simp [h, eq_comm]
  | cons p t ih =>
    obtain ⟨k', y⟩ := p
    have hk : k' ≠ k := he (k', y) (by simp)
    unfold mapInsert
    by_cases h : k < k'
    · rw [if_pos h, mapGet]
      by_cases hj : k = j
      · simp [hj]
      · rw [if_neg hj, if_neg (fun e => hj e.symm)]
    · rw [if_neg h, mapGet]
      by_cases hj : k' = j
      · rw [if_pos hj, if_neg (by omega), mapGet, if_pos hj]
      · rw [if_neg hj, ih (fun p hp => he p (by simp [hp])), mapGet, if_neg hj]

theorem mem_erase {k : Nat} {m : SMap α} {p : Nat × α} (h : p ∈ mapErase k m) : p ∈ m ∧ p.1 ≠ k := by
  induction m with
  | nil => simp [mapErase] at h
  | cons q t ih =>
    obtain ⟨k', x⟩ := q
    unfold mapErase at h
    split at h
    · have := ih h; exact ⟨by simp [this.1], this.2⟩
    · rename_i hk
      rcases List.mem_cons.mp h with h | h
      · subst h; exact ⟨by simp, hk⟩
      · have := ih h; exact ⟨by simp [this.1], this.2⟩

theorem mem_insert {k : Nat} {x : α} {m : SMap α} {p : Nat × α} (h : p ∈ mapInsert k x m) : p = (k, x) ∨ p ∈ m := by
  induction m with
  | nil => simp [mapInsert] at h; exact .inl h
  | cons q t ih =>
    obtain ⟨k', y⟩ := q
    unfold mapInsert at h
    split at h
    · rcases List.mem_cons.mp h with h | h
      · exact .inl h
      · exact .inr h
    · rcases List.mem_cons.mp h with h | h
      · exact .inr (by simp [h])
      · rcases ih h with h | h
        · exact .inl h
        · exact .inr (by simp [h])

theorem mapGet_of_below {d : α} {m : SMap α} {k : Nat} (h : ∀ p ∈ m, k < p.1) : mapGet d m k = d := by
  induction m with
  | nil => rfl
  | cons p t ih =>
    obtain ⟨k', x⟩ := p
    have := h (k', x) (by simp)
    simp only [mapGet, if_neg (show ¬ k' = k by simp only at this; omega)]
    exact ih (fun p hp => h p (by simp [hp]))

variable [DecidableEq α]

/-- A read after a write: the value written at the key, the former value elsewhere. -/
theorem mapGet_put (d : α) (m : SMap α) (k : Nat) (x : α) (j : Nat) :
    mapGet d (mapPut d m k x) j = if j = k then x else mapGet d m j := by
  unfold mapPut
  split
  · rename_i h; rw [mapGet_erase, h]
  · rw [mapGet_insert d _ k x j (fun p hp => (mem_erase hp).2), mapGet_erase]
    split <;> rfl
@[simp] theorem mapGet_put_self (d : α) (m : SMap α) (k : Nat) (x : α) : mapGet d (mapPut d m k x) k = x := by
  simp [mapGet_put]
theorem mapGet_put_other (d : α) (m : SMap α) {k j : Nat} (x : α) (h : j ≠ k) :
    mapGet d (mapPut d m k x) j = mapGet d m j := by
  simp [mapGet_put, h]

theorem mapWf_cons {d : α} {k : Nat} {x : α} {t : SMap α} :
    mapWf d ((k, x) :: t) = true ↔ x ≠ d ∧ (∀ p ∈ t, k < p.1) ∧ mapWf d t = true := by
  simp [mapWf, and_assoc]

theorem mapErase_wf (d : α) (m : SMap α) (k : Nat) (h : mapWf d m = true) : mapWf d (mapErase k m) = true := by
  induction m with
  | nil => rfl
  | cons p t ih =>
    obtain ⟨k', x⟩ := p
    obtain ⟨h1, h2, h3⟩ := mapWf_cons.mp h
    unfold mapErase
    split
    · exact ih h3
    · exact mapWf_cons.mpr ⟨h1, fun p hp => h2 p (mem_erase hp).1, ih h3⟩

theorem mapInsert_wf (d : α) (m : SMap α) (k : Nat) (x : α) (hx : x ≠ d) (he : ∀ p ∈ m, p.1 ≠ k)
    (h : mapWf d m = true) : mapWf d (mapInsert k x m) = true := by
  induction m with
  | nil => simp [mapInsert, mapWf, hx]
  | cons p t ih =>
    obtain ⟨k', y⟩ := p
    obtain ⟨h1, h2, h3⟩ := mapWf_cons.mp h
    have hk : k' ≠ k := he (k', y) (by simp)
    unfold mapInsert
    split
    · rename_i hlt
      refine mapWf_cons.mpr ⟨hx, fun p hp => ?_, h⟩
      rcases List.mem_cons.mp hp with rfl | hp
      · exact hlt
      · exact Nat.lt_trans hlt (h2 p hp)
    · rename_i hlt
      refine mapWf_cons.mpr ⟨h1, fun p hp => ?_, ih (fun p hp => he p (by simp [hp])) h3⟩
      rcases mem_insert hp with rfl | hp
      · simp only; omega
      · exact h2 p hp

/-- Writing keeps the canonical form. -/
theorem mapPut_wf (d : α) (m : SMap α) (k : Nat) (x : α) (h : mapWf d m = true) : mapWf d (mapPut d m k x) = true := by
  unfold mapPut
  split
  · exact mapErase_wf d m k h
  · rename_i hx
    exact mapInsert_wf d _ k x hx (fun p hp => (mem_erase hp).2) (mapErase_wf d m k h)

/-- Two canonical maps that read alike are the same map. -/
theorem map_ext {d : α} {m n : SMap α} (hm : mapWf d m = true) (hn : mapWf d n = true)
    (h : ∀ k, mapGet d m k = mapGet d n k) : m = n := by
  induction m generalizing n with
  | nil =>
    cases n with
    | nil => rfl
    | cons q t =>
      obtain ⟨k, x⟩ := q
      have := h k
      simp [mapGet] at this
      exact absurd this.symm (mapWf_cons.mp hn).1
  | cons p t ih =>
    obtain ⟨k, x⟩ := p
    obtain ⟨h1, h2, h3⟩ := mapWf_cons.mp hm
    cases n with
    | nil => have := h k; simp [mapGet] at this; exact absurd this h1
    | cons q u =>
      obtain ⟨j, y⟩ := q
      obtain ⟨g1, g2, g3⟩ := mapWf_cons.mp hn
      have hkj : k = j := by
        rcases Nat.lt_trichotomy k j with hlt | he | hlt
        · have e := h k
          rw [mapGet, if_pos rfl, mapGet, if_neg (by omega),
            mapGet_of_below (fun p hp => Nat.lt_trans hlt (g2 p hp))] at e
          exact absurd e h1
        · exact he
        · have e := h j
          rw [mapGet, if_neg (by omega), mapGet_of_below (fun p hp => Nat.lt_trans hlt (h2 p hp)), mapGet,
            if_pos rfl] at e
          exact absurd e.symm g1
      subst hkj
      have hxy : x = y := by have e := h k; simpa [mapGet] using e
      subst hxy
      rw [ih h3 g3 (fun i => ?_)]
      by_cases hi : k = i
      · subst hi; rw [mapGet_of_below h2, mapGet_of_below g2]
      · have e := h i; simpa [mapGet, hi] using e

end Sys2Proof.Machine
end

