-- ==== Sys2Proof/Laws/State.lean ====
section
/-! SUPPORT. One lemma per field per update of State and of Hart, true by rfl, so that no proof unfolds a record
update. -/

namespace Sys2Proof.Machine

/-! ## State: the focus hart -/

@[simp] theorem State.withHart_harts (s : State) (h : Hart) : (s.withHart h).harts = s.harts := rfl
@[simp] theorem State.withHart_slots (s : State) (h : Hart) : (s.withHart h).slots = s.slots := rfl
@[simp] theorem State.withHart_spills (s : State) (h : Hart) : (s.withHart h).spills = s.spills := rfl
@[simp] theorem State.withHart_cores (s : State) (h : Hart) : (s.withHart h).cores = s.cores := rfl
@[simp] theorem State.withHart_ctxs (s : State) (h : Hart) : (s.withHart h).ctxs = s.ctxs := rfl
@[simp] theorem State.withHart_fns (s : State) (h : Hart) : (s.withHart h).fns = s.fns := rfl
@[simp] theorem State.withHart_launches (s : State) (h : Hart) : (s.withHart h).launches = s.launches := rfl
@[simp] theorem State.withHart_mem (s : State) (h : Hart) : (s.withHart h).mem = s.mem := rfl
@[simp] theorem State.withHart_l2 (s : State) (h : Hart) : (s.withHart h).l2 = s.l2 := rfl
@[simp] theorem State.withHart_rdc (s : State) (h : Hart) : (s.withHart h).rdc = s.rdc := rfl
@[simp] theorem State.withHart_poison (s : State) (h : Hart) : (s.withHart h).poison = s.poison := rfl
@[simp] theorem State.withHart_cycle (s : State) (h : Hart) : (s.withHart h).cycle = s.cycle := rfl
@[simp] theorem State.withHart_time (s : State) (h : Hart) : (s.withHart h).time = s.time := rfl
@[simp] theorem State.withHart_frec (s : State) (h : Hart) : (s.withHart h).frec = s.frec := rfl
@[simp] theorem State.withHart_frecLost (s : State) (h : Hart) : (s.withHart h).frecLost = s.frecLost := rfl
@[simp] theorem State.withHart_corrected (s : State) (h : Hart) : (s.withHart h).corrected = s.corrected := rfl
@[simp] theorem State.withHart_frozen (s : State) (h : Hart) : (s.withHart h).frozen = s.frozen := rfl
@[simp] theorem State.withHart_pilot (s : State) (h : Hart) : (s.withHart h).pilot = s.pilot := rfl
@[simp] theorem State.withHart_powerLimit (s : State) (h : Hart) : (s.withHart h).powerLimit = s.powerLimit := rfl
@[simp] theorem State.withHart_fwActive (s : State) (h : Hart) : (s.withHart h).fwActive = s.fwActive := rfl
@[simp] theorem State.withHart_fwStaging (s : State) (h : Hart) : (s.withHart h).fwStaging = s.fwStaging := rfl
@[simp] theorem State.withHart_fwOpen (s : State) (h : Hart) : (s.withHart h).fwOpen = s.fwOpen := rfl
@[simp] theorem State.withHart_fwNext (s : State) (h : Hart) : (s.withHart h).fwNext = s.fwNext := rfl
@[simp] theorem State.withHart_fwRejected (s : State) (h : Hart) : (s.withHart h).fwRejected = s.fwRejected := rfl
@[simp] theorem State.withHart_comms (s : State) (h : Hart) : (s.withHart h).comms = s.comms := rfl
@[simp] theorem State.withHart_colls (s : State) (h : Hart) : (s.withHart h).colls = s.colls := rfl
@[simp] theorem State.withHart_linksDown (s : State) (h : Hart) : (s.withHart h).linksDown = s.linksDown := rfl
@[simp] theorem State.withHart_hostLanes (s : State) (h : Hart) : (s.withHart h).hostLanes = s.hostLanes := rfl
@[simp] theorem State.withHart_hostRate (s : State) (h : Hart) : (s.withHart h).hostRate = s.hostRate := rfl
@[simp] theorem State.withHart_ideKeys (s : State) (h : Hart) : (s.withHart h).ideKeys = s.ideKeys := rfl
@[simp] theorem State.withHart_busOut (s : State) (h : Hart) : (s.withHart h).busOut = s.busOut := rfl
@[simp] theorem State.withHart_msix (s : State) (h : Hart) : (s.withHart h).msix = s.msix := rfl
@[simp] theorem State.withHart_nextLaunch (s : State) (h : Hart) : (s.withHart h).nextLaunch = s.nextLaunch := rfl
@[simp] theorem State.withHart_nextEvt (s : State) (h : Hart) : (s.withHart h).nextEvt = s.nextEvt := rfl
@[simp] theorem State.withHart_nextOp (s : State) (h : Hart) : (s.withHart h).nextOp = s.nextOp := rfl
@[simp] theorem State.withHart_ahead (s : State) (h : Hart) : (s.withHart h).ahead = s.ahead := rfl
@[simp] theorem State.withHart_mismatch (s : State) (h : Hart) : (s.withHart h).mismatch = s.mismatch := rfl
@[simp] theorem State.withHart_beat (s : State) (h : Hart) : (s.withHart h).beat = s.beat := rfl
@[simp] theorem State.withHart_fair (s : State) (h : Hart) : (s.withHart h).fair = s.fair := rfl
@[simp] theorem State.withHart_inputs (s : State) (h : Hart) : (s.withHart h).inputs = s.inputs := rfl
@[simp] theorem State.withHart_fresh (s : State) (h : Hart) : (s.withHart h).fresh = s.fresh := rfl
@[simp] theorem State.withHart_hart (s : State) (h : Hart) : (s.withHart h).hart = h := rfl
@[simp] theorem State.withHart_withHart (s : State) (h g : Hart) : (s.withHart h).withHart g = s.withHart g := rfl
@[simp] theorem State.withHart_self (s : State) : s.withHart s.hart = s := rfl
@[simp] theorem State.setS_harts (s : State) (r : BitVec 6) (x : Word) : (s.setS r x).harts = s.harts := rfl
@[simp] theorem State.setS_slots (s : State) (r : BitVec 6) (x : Word) : (s.setS r x).slots = s.slots := rfl
@[simp] theorem State.setS_spills (s : State) (r : BitVec 6) (x : Word) : (s.setS r x).spills = s.spills := rfl
@[simp] theorem State.setS_cores (s : State) (r : BitVec 6) (x : Word) : (s.setS r x).cores = s.cores := rfl
@[simp] theorem State.setS_ctxs (s : State) (r : BitVec 6) (x : Word) : (s.setS r x).ctxs = s.ctxs := rfl
@[simp] theorem State.setS_fns (s : State) (r : BitVec 6) (x : Word) : (s.setS r x).fns = s.fns := rfl
@[simp] theorem State.setS_launches (s : State) (r : BitVec 6) (x : Word) : (s.setS r x).launches = s.launches := rfl
@[simp] theorem State.setS_mem (s : State) (r : BitVec 6) (x : Word) : (s.setS r x).mem = s.mem := rfl
@[simp] theorem State.setS_l2 (s : State) (r : BitVec 6) (x : Word) : (s.setS r x).l2 = s.l2 := rfl
@[simp] theorem State.setS_rdc (s : State) (r : BitVec 6) (x : Word) : (s.setS r x).rdc = s.rdc := rfl
@[simp] theorem State.setS_poison (s : State) (r : BitVec 6) (x : Word) : (s.setS r x).poison = s.poison := rfl
@[simp] theorem State.setS_cycle (s : State) (r : BitVec 6) (x : Word) : (s.setS r x).cycle = s.cycle := rfl
@[simp] theorem State.setS_time (s : State) (r : BitVec 6) (x : Word) : (s.setS r x).time = s.time := rfl
@[simp] theorem State.setS_frec (s : State) (r : BitVec 6) (x : Word) : (s.setS r x).frec = s.frec := rfl
@[simp] theorem State.setS_frecLost (s : State) (r : BitVec 6) (x : Word) : (s.setS r x).frecLost = s.frecLost := rfl
@[simp] theorem State.setS_corrected (s : State) (r : BitVec 6) (x : Word) : (s.setS r x).corrected = s.corrected := rfl
@[simp] theorem State.setS_frozen (s : State) (r : BitVec 6) (x : Word) : (s.setS r x).frozen = s.frozen := rfl
@[simp] theorem State.setS_pilot (s : State) (r : BitVec 6) (x : Word) : (s.setS r x).pilot = s.pilot := rfl
@[simp] theorem State.setS_powerLimit (s : State) (r : BitVec 6) (x : Word) : (s.setS r x).powerLimit = s.powerLimit := rfl
@[simp] theorem State.setS_fwActive (s : State) (r : BitVec 6) (x : Word) : (s.setS r x).fwActive = s.fwActive := rfl
@[simp] theorem State.setS_fwStaging (s : State) (r : BitVec 6) (x : Word) : (s.setS r x).fwStaging = s.fwStaging := rfl
@[simp] theorem State.setS_fwOpen (s : State) (r : BitVec 6) (x : Word) : (s.setS r x).fwOpen = s.fwOpen := rfl
@[simp] theorem State.setS_fwNext (s : State) (r : BitVec 6) (x : Word) : (s.setS r x).fwNext = s.fwNext := rfl
@[simp] theorem State.setS_fwRejected (s : State) (r : BitVec 6) (x : Word) : (s.setS r x).fwRejected = s.fwRejected := rfl
@[simp] theorem State.setS_comms (s : State) (r : BitVec 6) (x : Word) : (s.setS r x).comms = s.comms := rfl
@[simp] theorem State.setS_colls (s : State) (r : BitVec 6) (x : Word) : (s.setS r x).colls = s.colls := rfl
@[simp] theorem State.setS_linksDown (s : State) (r : BitVec 6) (x : Word) : (s.setS r x).linksDown = s.linksDown := rfl
@[simp] theorem State.setS_hostLanes (s : State) (r : BitVec 6) (x : Word) : (s.setS r x).hostLanes = s.hostLanes := rfl
@[simp] theorem State.setS_hostRate (s : State) (r : BitVec 6) (x : Word) : (s.setS r x).hostRate = s.hostRate := rfl
@[simp] theorem State.setS_ideKeys (s : State) (r : BitVec 6) (x : Word) : (s.setS r x).ideKeys = s.ideKeys := rfl
@[simp] theorem State.setS_busOut (s : State) (r : BitVec 6) (x : Word) : (s.setS r x).busOut = s.busOut := rfl
@[simp] theorem State.setS_msix (s : State) (r : BitVec 6) (x : Word) : (s.setS r x).msix = s.msix := rfl
@[simp] theorem State.setS_nextLaunch (s : State) (r : BitVec 6) (x : Word) : (s.setS r x).nextLaunch = s.nextLaunch := rfl
@[simp] theorem State.setS_nextEvt (s : State) (r : BitVec 6) (x : Word) : (s.setS r x).nextEvt = s.nextEvt := rfl
@[simp] theorem State.setS_nextOp (s : State) (r : BitVec 6) (x : Word) : (s.setS r x).nextOp = s.nextOp := rfl
@[simp] theorem State.setS_ahead (s : State) (r : BitVec 6) (x : Word) : (s.setS r x).ahead = s.ahead := rfl
@[simp] theorem State.setS_mismatch (s : State) (r : BitVec 6) (x : Word) : (s.setS r x).mismatch = s.mismatch := rfl
@[simp] theorem State.setS_beat (s : State) (r : BitVec 6) (x : Word) : (s.setS r x).beat = s.beat := rfl
@[simp] theorem State.setS_fair (s : State) (r : BitVec 6) (x : Word) : (s.setS r x).fair = s.fair := rfl
@[simp] theorem State.setS_inputs (s : State) (r : BitVec 6) (x : Word) : (s.setS r x).inputs = s.inputs := rfl
@[simp] theorem State.setS_fresh (s : State) (r : BitVec 6) (x : Word) : (s.setS r x).fresh = s.fresh := rfl
@[simp] theorem State.goto_harts (s : State) (a : Word) : (s.goto a).harts = s.harts := rfl
@[simp] theorem State.goto_slots (s : State) (a : Word) : (s.goto a).slots = s.slots := rfl
@[simp] theorem State.goto_spills (s : State) (a : Word) : (s.goto a).spills = s.spills := rfl
@[simp] theorem State.goto_cores (s : State) (a : Word) : (s.goto a).cores = s.cores := rfl
@[simp] theorem State.goto_ctxs (s : State) (a : Word) : (s.goto a).ctxs = s.ctxs := rfl
@[simp] theorem State.goto_fns (s : State) (a : Word) : (s.goto a).fns = s.fns := rfl
@[simp] theorem State.goto_launches (s : State) (a : Word) : (s.goto a).launches = s.launches := rfl
@[simp] theorem State.goto_mem (s : State) (a : Word) : (s.goto a).mem = s.mem := rfl
@[simp] theorem State.goto_l2 (s : State) (a : Word) : (s.goto a).l2 = s.l2 := rfl
@[simp] theorem State.goto_rdc (s : State) (a : Word) : (s.goto a).rdc = s.rdc := rfl
@[simp] theorem State.goto_poison (s : State) (a : Word) : (s.goto a).poison = s.poison := rfl
@[simp] theorem State.goto_cycle (s : State) (a : Word) : (s.goto a).cycle = s.cycle := rfl
@[simp] theorem State.goto_time (s : State) (a : Word) : (s.goto a).time = s.time := rfl
@[simp] theorem State.goto_frec (s : State) (a : Word) : (s.goto a).frec = s.frec := rfl
@[simp] theorem State.goto_frecLost (s : State) (a : Word) : (s.goto a).frecLost = s.frecLost := rfl
@[simp] theorem State.goto_corrected (s : State) (a : Word) : (s.goto a).corrected = s.corrected := rfl
@[simp] theorem State.goto_frozen (s : State) (a : Word) : (s.goto a).frozen = s.frozen := rfl
@[simp] theorem State.goto_pilot (s : State) (a : Word) : (s.goto a).pilot = s.pilot := rfl
@[simp] theorem State.goto_powerLimit (s : State) (a : Word) : (s.goto a).powerLimit = s.powerLimit := rfl
@[simp] theorem State.goto_fwActive (s : State) (a : Word) : (s.goto a).fwActive = s.fwActive := rfl
@[simp] theorem State.goto_fwStaging (s : State) (a : Word) : (s.goto a).fwStaging = s.fwStaging := rfl
@[simp] theorem State.goto_fwOpen (s : State) (a : Word) : (s.goto a).fwOpen = s.fwOpen := rfl
@[simp] theorem State.goto_fwNext (s : State) (a : Word) : (s.goto a).fwNext = s.fwNext := rfl
@[simp] theorem State.goto_fwRejected (s : State) (a : Word) : (s.goto a).fwRejected = s.fwRejected := rfl
@[simp] theorem State.goto_comms (s : State) (a : Word) : (s.goto a).comms = s.comms := rfl
@[simp] theorem State.goto_colls (s : State) (a : Word) : (s.goto a).colls = s.colls := rfl
@[simp] theorem State.goto_linksDown (s : State) (a : Word) : (s.goto a).linksDown = s.linksDown := rfl
@[simp] theorem State.goto_hostLanes (s : State) (a : Word) : (s.goto a).hostLanes = s.hostLanes := rfl
@[simp] theorem State.goto_hostRate (s : State) (a : Word) : (s.goto a).hostRate = s.hostRate := rfl
@[simp] theorem State.goto_ideKeys (s : State) (a : Word) : (s.goto a).ideKeys = s.ideKeys := rfl
@[simp] theorem State.goto_busOut (s : State) (a : Word) : (s.goto a).busOut = s.busOut := rfl
@[simp] theorem State.goto_msix (s : State) (a : Word) : (s.goto a).msix = s.msix := rfl
@[simp] theorem State.goto_nextLaunch (s : State) (a : Word) : (s.goto a).nextLaunch = s.nextLaunch := rfl
@[simp] theorem State.goto_nextEvt (s : State) (a : Word) : (s.goto a).nextEvt = s.nextEvt := rfl
@[simp] theorem State.goto_nextOp (s : State) (a : Word) : (s.goto a).nextOp = s.nextOp := rfl
@[simp] theorem State.goto_ahead (s : State) (a : Word) : (s.goto a).ahead = s.ahead := rfl
@[simp] theorem State.goto_mismatch (s : State) (a : Word) : (s.goto a).mismatch = s.mismatch := rfl
@[simp] theorem State.goto_beat (s : State) (a : Word) : (s.goto a).beat = s.beat := rfl
@[simp] theorem State.goto_fair (s : State) (a : Word) : (s.goto a).fair = s.fair := rfl
@[simp] theorem State.goto_inputs (s : State) (a : Word) : (s.goto a).inputs = s.inputs := rfl
@[simp] theorem State.goto_fresh (s : State) (a : Word) : (s.goto a).fresh = s.fresh := rfl
@[simp] theorem State.advance_harts (s : State)  : (s.advance).harts = s.harts := rfl
@[simp] theorem State.advance_slots (s : State)  : (s.advance).slots = s.slots := rfl
@[simp] theorem State.advance_spills (s : State)  : (s.advance).spills = s.spills := rfl
@[simp] theorem State.advance_cores (s : State)  : (s.advance).cores = s.cores := rfl
@[simp] theorem State.advance_ctxs (s : State)  : (s.advance).ctxs = s.ctxs := rfl
@[simp] theorem State.advance_fns (s : State)  : (s.advance).fns = s.fns := rfl
@[simp] theorem State.advance_launches (s : State)  : (s.advance).launches = s.launches := rfl
@[simp] theorem State.advance_mem (s : State)  : (s.advance).mem = s.mem := rfl
@[simp] theorem State.advance_l2 (s : State)  : (s.advance).l2 = s.l2 := rfl
@[simp] theorem State.advance_rdc (s : State)  : (s.advance).rdc = s.rdc := rfl
@[simp] theorem State.advance_poison (s : State)  : (s.advance).poison = s.poison := rfl
@[simp] theorem State.advance_cycle (s : State)  : (s.advance).cycle = s.cycle := rfl
@[simp] theorem State.advance_time (s : State)  : (s.advance).time = s.time := rfl
@[simp] theorem State.advance_frec (s : State)  : (s.advance).frec = s.frec := rfl
@[simp] theorem State.advance_frecLost (s : State)  : (s.advance).frecLost = s.frecLost := rfl
@[simp] theorem State.advance_corrected (s : State)  : (s.advance).corrected = s.corrected := rfl
@[simp] theorem State.advance_frozen (s : State)  : (s.advance).frozen = s.frozen := rfl
@[simp] theorem State.advance_pilot (s : State)  : (s.advance).pilot = s.pilot := rfl
@[simp] theorem State.advance_powerLimit (s : State)  : (s.advance).powerLimit = s.powerLimit := rfl
@[simp] theorem State.advance_fwActive (s : State)  : (s.advance).fwActive = s.fwActive := rfl
@[simp] theorem State.advance_fwStaging (s : State)  : (s.advance).fwStaging = s.fwStaging := rfl
@[simp] theorem State.advance_fwOpen (s : State)  : (s.advance).fwOpen = s.fwOpen := rfl
@[simp] theorem State.advance_fwNext (s : State)  : (s.advance).fwNext = s.fwNext := rfl
@[simp] theorem State.advance_fwRejected (s : State)  : (s.advance).fwRejected = s.fwRejected := rfl
@[simp] theorem State.advance_comms (s : State)  : (s.advance).comms = s.comms := rfl
@[simp] theorem State.advance_colls (s : State)  : (s.advance).colls = s.colls := rfl
@[simp] theorem State.advance_linksDown (s : State)  : (s.advance).linksDown = s.linksDown := rfl
@[simp] theorem State.advance_hostLanes (s : State)  : (s.advance).hostLanes = s.hostLanes := rfl
@[simp] theorem State.advance_hostRate (s : State)  : (s.advance).hostRate = s.hostRate := rfl
@[simp] theorem State.advance_ideKeys (s : State)  : (s.advance).ideKeys = s.ideKeys := rfl
@[simp] theorem State.advance_busOut (s : State)  : (s.advance).busOut = s.busOut := rfl
@[simp] theorem State.advance_msix (s : State)  : (s.advance).msix = s.msix := rfl
@[simp] theorem State.advance_nextLaunch (s : State)  : (s.advance).nextLaunch = s.nextLaunch := rfl
@[simp] theorem State.advance_nextEvt (s : State)  : (s.advance).nextEvt = s.nextEvt := rfl
@[simp] theorem State.advance_nextOp (s : State)  : (s.advance).nextOp = s.nextOp := rfl
@[simp] theorem State.advance_ahead (s : State)  : (s.advance).ahead = s.ahead := rfl
@[simp] theorem State.advance_mismatch (s : State)  : (s.advance).mismatch = s.mismatch := rfl
@[simp] theorem State.advance_beat (s : State)  : (s.advance).beat = s.beat := rfl
@[simp] theorem State.advance_fair (s : State)  : (s.advance).fair = s.fair := rfl
@[simp] theorem State.advance_inputs (s : State)  : (s.advance).inputs = s.inputs := rfl
@[simp] theorem State.advance_fresh (s : State)  : (s.advance).fresh = s.fresh := rfl
@[simp] theorem State.result_harts (s : State) (d : BitVec 6) (x : Word) : (s.result d x).harts = s.harts := rfl
@[simp] theorem State.result_slots (s : State) (d : BitVec 6) (x : Word) : (s.result d x).slots = s.slots := rfl
@[simp] theorem State.result_spills (s : State) (d : BitVec 6) (x : Word) : (s.result d x).spills = s.spills := rfl
@[simp] theorem State.result_cores (s : State) (d : BitVec 6) (x : Word) : (s.result d x).cores = s.cores := rfl
@[simp] theorem State.result_ctxs (s : State) (d : BitVec 6) (x : Word) : (s.result d x).ctxs = s.ctxs := rfl
@[simp] theorem State.result_fns (s : State) (d : BitVec 6) (x : Word) : (s.result d x).fns = s.fns := rfl
@[simp] theorem State.result_launches (s : State) (d : BitVec 6) (x : Word) : (s.result d x).launches = s.launches := rfl
@[simp] theorem State.result_mem (s : State) (d : BitVec 6) (x : Word) : (s.result d x).mem = s.mem := rfl
@[simp] theorem State.result_l2 (s : State) (d : BitVec 6) (x : Word) : (s.result d x).l2 = s.l2 := rfl
@[simp] theorem State.result_rdc (s : State) (d : BitVec 6) (x : Word) : (s.result d x).rdc = s.rdc := rfl
@[simp] theorem State.result_poison (s : State) (d : BitVec 6) (x : Word) : (s.result d x).poison = s.poison := rfl
@[simp] theorem State.result_cycle (s : State) (d : BitVec 6) (x : Word) : (s.result d x).cycle = s.cycle := rfl
@[simp] theorem State.result_time (s : State) (d : BitVec 6) (x : Word) : (s.result d x).time = s.time := rfl
@[simp] theorem State.result_frec (s : State) (d : BitVec 6) (x : Word) : (s.result d x).frec = s.frec := rfl
@[simp] theorem State.result_frecLost (s : State) (d : BitVec 6) (x : Word) : (s.result d x).frecLost = s.frecLost := rfl
@[simp] theorem State.result_corrected (s : State) (d : BitVec 6) (x : Word) : (s.result d x).corrected = s.corrected := rfl
@[simp] theorem State.result_frozen (s : State) (d : BitVec 6) (x : Word) : (s.result d x).frozen = s.frozen := rfl
@[simp] theorem State.result_pilot (s : State) (d : BitVec 6) (x : Word) : (s.result d x).pilot = s.pilot := rfl
@[simp] theorem State.result_powerLimit (s : State) (d : BitVec 6) (x : Word) : (s.result d x).powerLimit = s.powerLimit := rfl
@[simp] theorem State.result_fwActive (s : State) (d : BitVec 6) (x : Word) : (s.result d x).fwActive = s.fwActive := rfl
@[simp] theorem State.result_fwStaging (s : State) (d : BitVec 6) (x : Word) : (s.result d x).fwStaging = s.fwStaging := rfl
@[simp] theorem State.result_fwOpen (s : State) (d : BitVec 6) (x : Word) : (s.result d x).fwOpen = s.fwOpen := rfl
@[simp] theorem State.result_fwNext (s : State) (d : BitVec 6) (x : Word) : (s.result d x).fwNext = s.fwNext := rfl
@[simp] theorem State.result_fwRejected (s : State) (d : BitVec 6) (x : Word) : (s.result d x).fwRejected = s.fwRejected := rfl
@[simp] theorem State.result_comms (s : State) (d : BitVec 6) (x : Word) : (s.result d x).comms = s.comms := rfl
@[simp] theorem State.result_colls (s : State) (d : BitVec 6) (x : Word) : (s.result d x).colls = s.colls := rfl
@[simp] theorem State.result_linksDown (s : State) (d : BitVec 6) (x : Word) : (s.result d x).linksDown = s.linksDown := rfl
@[simp] theorem State.result_hostLanes (s : State) (d : BitVec 6) (x : Word) : (s.result d x).hostLanes = s.hostLanes := rfl
@[simp] theorem State.result_hostRate (s : State) (d : BitVec 6) (x : Word) : (s.result d x).hostRate = s.hostRate := rfl
@[simp] theorem State.result_ideKeys (s : State) (d : BitVec 6) (x : Word) : (s.result d x).ideKeys = s.ideKeys := rfl
@[simp] theorem State.result_busOut (s : State) (d : BitVec 6) (x : Word) : (s.result d x).busOut = s.busOut := rfl
@[simp] theorem State.result_msix (s : State) (d : BitVec 6) (x : Word) : (s.result d x).msix = s.msix := rfl
@[simp] theorem State.result_nextLaunch (s : State) (d : BitVec 6) (x : Word) : (s.result d x).nextLaunch = s.nextLaunch := rfl
@[simp] theorem State.result_nextEvt (s : State) (d : BitVec 6) (x : Word) : (s.result d x).nextEvt = s.nextEvt := rfl
@[simp] theorem State.result_nextOp (s : State) (d : BitVec 6) (x : Word) : (s.result d x).nextOp = s.nextOp := rfl
@[simp] theorem State.result_ahead (s : State) (d : BitVec 6) (x : Word) : (s.result d x).ahead = s.ahead := rfl
@[simp] theorem State.result_mismatch (s : State) (d : BitVec 6) (x : Word) : (s.result d x).mismatch = s.mismatch := rfl
@[simp] theorem State.result_beat (s : State) (d : BitVec 6) (x : Word) : (s.result d x).beat = s.beat := rfl
@[simp] theorem State.result_fair (s : State) (d : BitVec 6) (x : Word) : (s.result d x).fair = s.fair := rfl
@[simp] theorem State.result_inputs (s : State) (d : BitVec 6) (x : Word) : (s.result d x).inputs = s.inputs := rfl
@[simp] theorem State.result_fresh (s : State) (d : BitVec 6) (x : Word) : (s.result d x).fresh = s.fresh := rfl
@[simp] theorem State.setS_hart (s : State) (r : BitVec 6) (x : Word) : (s.setS r x).hart = s.hart.setS r x := rfl
@[simp] theorem State.goto_pc (s : State) (a : Word) : (s.goto a).hart.pc = a := rfl
@[simp] theorem State.advance_pc (s : State) : s.advance.hart.pc = s.hart.pc + 4 := rfl

/-! ## State: the maps -/

@[simp] theorem State.setSlot_hart (s : State) (i : Nat) (x : Slot) : (s.setSlot i x).hart = s.hart := rfl
@[simp] theorem State.setSlot_harts (s : State) (i : Nat) (x : Slot) : (s.setSlot i x).harts = s.harts := rfl
@[simp] theorem State.setSlot_spills (s : State) (i : Nat) (x : Slot) : (s.setSlot i x).spills = s.spills := rfl
@[simp] theorem State.setSlot_cores (s : State) (i : Nat) (x : Slot) : (s.setSlot i x).cores = s.cores := rfl
@[simp] theorem State.setSlot_ctxs (s : State) (i : Nat) (x : Slot) : (s.setSlot i x).ctxs = s.ctxs := rfl
@[simp] theorem State.setSlot_fns (s : State) (i : Nat) (x : Slot) : (s.setSlot i x).fns = s.fns := rfl
@[simp] theorem State.setSlot_launches (s : State) (i : Nat) (x : Slot) : (s.setSlot i x).launches = s.launches := rfl
@[simp] theorem State.setSlot_mem (s : State) (i : Nat) (x : Slot) : (s.setSlot i x).mem = s.mem := rfl
@[simp] theorem State.setSlot_l2 (s : State) (i : Nat) (x : Slot) : (s.setSlot i x).l2 = s.l2 := rfl
@[simp] theorem State.setSlot_rdc (s : State) (i : Nat) (x : Slot) : (s.setSlot i x).rdc = s.rdc := rfl
@[simp] theorem State.setSlot_poison (s : State) (i : Nat) (x : Slot) : (s.setSlot i x).poison = s.poison := rfl
@[simp] theorem State.setSlot_cycle (s : State) (i : Nat) (x : Slot) : (s.setSlot i x).cycle = s.cycle := rfl
@[simp] theorem State.setSlot_time (s : State) (i : Nat) (x : Slot) : (s.setSlot i x).time = s.time := rfl
@[simp] theorem State.setSlot_frec (s : State) (i : Nat) (x : Slot) : (s.setSlot i x).frec = s.frec := rfl
@[simp] theorem State.setSlot_frecLost (s : State) (i : Nat) (x : Slot) : (s.setSlot i x).frecLost = s.frecLost := rfl
@[simp] theorem State.setSlot_corrected (s : State) (i : Nat) (x : Slot) : (s.setSlot i x).corrected = s.corrected := rfl
@[simp] theorem State.setSlot_frozen (s : State) (i : Nat) (x : Slot) : (s.setSlot i x).frozen = s.frozen := rfl
@[simp] theorem State.setSlot_pilot (s : State) (i : Nat) (x : Slot) : (s.setSlot i x).pilot = s.pilot := rfl
@[simp] theorem State.setSlot_powerLimit (s : State) (i : Nat) (x : Slot) : (s.setSlot i x).powerLimit = s.powerLimit := rfl
@[simp] theorem State.setSlot_fwActive (s : State) (i : Nat) (x : Slot) : (s.setSlot i x).fwActive = s.fwActive := rfl
@[simp] theorem State.setSlot_fwStaging (s : State) (i : Nat) (x : Slot) : (s.setSlot i x).fwStaging = s.fwStaging := rfl
@[simp] theorem State.setSlot_fwOpen (s : State) (i : Nat) (x : Slot) : (s.setSlot i x).fwOpen = s.fwOpen := rfl
@[simp] theorem State.setSlot_fwNext (s : State) (i : Nat) (x : Slot) : (s.setSlot i x).fwNext = s.fwNext := rfl
@[simp] theorem State.setSlot_fwRejected (s : State) (i : Nat) (x : Slot) : (s.setSlot i x).fwRejected = s.fwRejected := rfl
@[simp] theorem State.setSlot_comms (s : State) (i : Nat) (x : Slot) : (s.setSlot i x).comms = s.comms := rfl
@[simp] theorem State.setSlot_colls (s : State) (i : Nat) (x : Slot) : (s.setSlot i x).colls = s.colls := rfl
@[simp] theorem State.setSlot_linksDown (s : State) (i : Nat) (x : Slot) : (s.setSlot i x).linksDown = s.linksDown := rfl
@[simp] theorem State.setSlot_hostLanes (s : State) (i : Nat) (x : Slot) : (s.setSlot i x).hostLanes = s.hostLanes := rfl
@[simp] theorem State.setSlot_hostRate (s : State) (i : Nat) (x : Slot) : (s.setSlot i x).hostRate = s.hostRate := rfl
@[simp] theorem State.setSlot_ideKeys (s : State) (i : Nat) (x : Slot) : (s.setSlot i x).ideKeys = s.ideKeys := rfl
@[simp] theorem State.setSlot_busOut (s : State) (i : Nat) (x : Slot) : (s.setSlot i x).busOut = s.busOut := rfl
@[simp] theorem State.setSlot_msix (s : State) (i : Nat) (x : Slot) : (s.setSlot i x).msix = s.msix := rfl
@[simp] theorem State.setSlot_nextLaunch (s : State) (i : Nat) (x : Slot) : (s.setSlot i x).nextLaunch = s.nextLaunch := rfl
@[simp] theorem State.setSlot_nextEvt (s : State) (i : Nat) (x : Slot) : (s.setSlot i x).nextEvt = s.nextEvt := rfl
@[simp] theorem State.setSlot_nextOp (s : State) (i : Nat) (x : Slot) : (s.setSlot i x).nextOp = s.nextOp := rfl
@[simp] theorem State.setSlot_ahead (s : State) (i : Nat) (x : Slot) : (s.setSlot i x).ahead = s.ahead := rfl
@[simp] theorem State.setSlot_mismatch (s : State) (i : Nat) (x : Slot) : (s.setSlot i x).mismatch = s.mismatch := rfl
@[simp] theorem State.setSlot_beat (s : State) (i : Nat) (x : Slot) : (s.setSlot i x).beat = s.beat := rfl
@[simp] theorem State.setSlot_fair (s : State) (i : Nat) (x : Slot) : (s.setSlot i x).fair = s.fair := rfl
@[simp] theorem State.setSlot_inputs (s : State) (i : Nat) (x : Slot) : (s.setSlot i x).inputs = s.inputs := rfl
@[simp] theorem State.setSlot_fresh (s : State) (i : Nat) (x : Slot) : (s.setSlot i x).fresh = s.fresh := rfl
@[simp] theorem State.setCore_hart (s : State) (i : Nat) (x : Core) : (s.setCore i x).hart = s.hart := rfl
@[simp] theorem State.setCore_harts (s : State) (i : Nat) (x : Core) : (s.setCore i x).harts = s.harts := rfl
@[simp] theorem State.setCore_slots (s : State) (i : Nat) (x : Core) : (s.setCore i x).slots = s.slots := rfl
@[simp] theorem State.setCore_spills (s : State) (i : Nat) (x : Core) : (s.setCore i x).spills = s.spills := rfl
@[simp] theorem State.setCore_ctxs (s : State) (i : Nat) (x : Core) : (s.setCore i x).ctxs = s.ctxs := rfl
@[simp] theorem State.setCore_fns (s : State) (i : Nat) (x : Core) : (s.setCore i x).fns = s.fns := rfl
@[simp] theorem State.setCore_launches (s : State) (i : Nat) (x : Core) : (s.setCore i x).launches = s.launches := rfl
@[simp] theorem State.setCore_mem (s : State) (i : Nat) (x : Core) : (s.setCore i x).mem = s.mem := rfl
@[simp] theorem State.setCore_l2 (s : State) (i : Nat) (x : Core) : (s.setCore i x).l2 = s.l2 := rfl
@[simp] theorem State.setCore_rdc (s : State) (i : Nat) (x : Core) : (s.setCore i x).rdc = s.rdc := rfl
@[simp] theorem State.setCore_poison (s : State) (i : Nat) (x : Core) : (s.setCore i x).poison = s.poison := rfl
@[simp] theorem State.setCore_cycle (s : State) (i : Nat) (x : Core) : (s.setCore i x).cycle = s.cycle := rfl
@[simp] theorem State.setCore_time (s : State) (i : Nat) (x : Core) : (s.setCore i x).time = s.time := rfl
@[simp] theorem State.setCore_frec (s : State) (i : Nat) (x : Core) : (s.setCore i x).frec = s.frec := rfl
@[simp] theorem State.setCore_frecLost (s : State) (i : Nat) (x : Core) : (s.setCore i x).frecLost = s.frecLost := rfl
@[simp] theorem State.setCore_corrected (s : State) (i : Nat) (x : Core) : (s.setCore i x).corrected = s.corrected := rfl
@[simp] theorem State.setCore_frozen (s : State) (i : Nat) (x : Core) : (s.setCore i x).frozen = s.frozen := rfl
@[simp] theorem State.setCore_pilot (s : State) (i : Nat) (x : Core) : (s.setCore i x).pilot = s.pilot := rfl
@[simp] theorem State.setCore_powerLimit (s : State) (i : Nat) (x : Core) : (s.setCore i x).powerLimit = s.powerLimit := rfl
@[simp] theorem State.setCore_fwActive (s : State) (i : Nat) (x : Core) : (s.setCore i x).fwActive = s.fwActive := rfl
@[simp] theorem State.setCore_fwStaging (s : State) (i : Nat) (x : Core) : (s.setCore i x).fwStaging = s.fwStaging := rfl
@[simp] theorem State.setCore_fwOpen (s : State) (i : Nat) (x : Core) : (s.setCore i x).fwOpen = s.fwOpen := rfl
@[simp] theorem State.setCore_fwNext (s : State) (i : Nat) (x : Core) : (s.setCore i x).fwNext = s.fwNext := rfl
@[simp] theorem State.setCore_fwRejected (s : State) (i : Nat) (x : Core) : (s.setCore i x).fwRejected = s.fwRejected := rfl
@[simp] theorem State.setCore_comms (s : State) (i : Nat) (x : Core) : (s.setCore i x).comms = s.comms := rfl
@[simp] theorem State.setCore_colls (s : State) (i : Nat) (x : Core) : (s.setCore i x).colls = s.colls := rfl
@[simp] theorem State.setCore_linksDown (s : State) (i : Nat) (x : Core) : (s.setCore i x).linksDown = s.linksDown := rfl
@[simp] theorem State.setCore_hostLanes (s : State) (i : Nat) (x : Core) : (s.setCore i x).hostLanes = s.hostLanes := rfl
@[simp] theorem State.setCore_hostRate (s : State) (i : Nat) (x : Core) : (s.setCore i x).hostRate = s.hostRate := rfl
@[simp] theorem State.setCore_ideKeys (s : State) (i : Nat) (x : Core) : (s.setCore i x).ideKeys = s.ideKeys := rfl
@[simp] theorem State.setCore_busOut (s : State) (i : Nat) (x : Core) : (s.setCore i x).busOut = s.busOut := rfl
@[simp] theorem State.setCore_msix (s : State) (i : Nat) (x : Core) : (s.setCore i x).msix = s.msix := rfl
@[simp] theorem State.setCore_nextLaunch (s : State) (i : Nat) (x : Core) : (s.setCore i x).nextLaunch = s.nextLaunch := rfl
@[simp] theorem State.setCore_nextEvt (s : State) (i : Nat) (x : Core) : (s.setCore i x).nextEvt = s.nextEvt := rfl
@[simp] theorem State.setCore_nextOp (s : State) (i : Nat) (x : Core) : (s.setCore i x).nextOp = s.nextOp := rfl
@[simp] theorem State.setCore_ahead (s : State) (i : Nat) (x : Core) : (s.setCore i x).ahead = s.ahead := rfl
@[simp] theorem State.setCore_mismatch (s : State) (i : Nat) (x : Core) : (s.setCore i x).mismatch = s.mismatch := rfl
@[simp] theorem State.setCore_beat (s : State) (i : Nat) (x : Core) : (s.setCore i x).beat = s.beat := rfl
@[simp] theorem State.setCore_fair (s : State) (i : Nat) (x : Core) : (s.setCore i x).fair = s.fair := rfl
@[simp] theorem State.setCore_inputs (s : State) (i : Nat) (x : Core) : (s.setCore i x).inputs = s.inputs := rfl
@[simp] theorem State.setCore_fresh (s : State) (i : Nat) (x : Core) : (s.setCore i x).fresh = s.fresh := rfl
@[simp] theorem State.setCtx_hart (s : State) (i : Nat) (x : Ctx) : (s.setCtx i x).hart = s.hart := rfl
@[simp] theorem State.setCtx_harts (s : State) (i : Nat) (x : Ctx) : (s.setCtx i x).harts = s.harts := rfl
@[simp] theorem State.setCtx_slots (s : State) (i : Nat) (x : Ctx) : (s.setCtx i x).slots = s.slots := rfl
@[simp] theorem State.setCtx_spills (s : State) (i : Nat) (x : Ctx) : (s.setCtx i x).spills = s.spills := rfl
@[simp] theorem State.setCtx_cores (s : State) (i : Nat) (x : Ctx) : (s.setCtx i x).cores = s.cores := rfl
@[simp] theorem State.setCtx_fns (s : State) (i : Nat) (x : Ctx) : (s.setCtx i x).fns = s.fns := rfl
@[simp] theorem State.setCtx_launches (s : State) (i : Nat) (x : Ctx) : (s.setCtx i x).launches = s.launches := rfl
@[simp] theorem State.setCtx_mem (s : State) (i : Nat) (x : Ctx) : (s.setCtx i x).mem = s.mem := rfl
@[simp] theorem State.setCtx_l2 (s : State) (i : Nat) (x : Ctx) : (s.setCtx i x).l2 = s.l2 := rfl
@[simp] theorem State.setCtx_rdc (s : State) (i : Nat) (x : Ctx) : (s.setCtx i x).rdc = s.rdc := rfl
@[simp] theorem State.setCtx_poison (s : State) (i : Nat) (x : Ctx) : (s.setCtx i x).poison = s.poison := rfl
@[simp] theorem State.setCtx_cycle (s : State) (i : Nat) (x : Ctx) : (s.setCtx i x).cycle = s.cycle := rfl
@[simp] theorem State.setCtx_time (s : State) (i : Nat) (x : Ctx) : (s.setCtx i x).time = s.time := rfl
@[simp] theorem State.setCtx_frec (s : State) (i : Nat) (x : Ctx) : (s.setCtx i x).frec = s.frec := rfl
@[simp] theorem State.setCtx_frecLost (s : State) (i : Nat) (x : Ctx) : (s.setCtx i x).frecLost = s.frecLost := rfl
@[simp] theorem State.setCtx_corrected (s : State) (i : Nat) (x : Ctx) : (s.setCtx i x).corrected = s.corrected := rfl
@[simp] theorem State.setCtx_frozen (s : State) (i : Nat) (x : Ctx) : (s.setCtx i x).frozen = s.frozen := rfl
@[simp] theorem State.setCtx_pilot (s : State) (i : Nat) (x : Ctx) : (s.setCtx i x).pilot = s.pilot := rfl
@[simp] theorem State.setCtx_powerLimit (s : State) (i : Nat) (x : Ctx) : (s.setCtx i x).powerLimit = s.powerLimit := rfl
@[simp] theorem State.setCtx_fwActive (s : State) (i : Nat) (x : Ctx) : (s.setCtx i x).fwActive = s.fwActive := rfl
@[simp] theorem State.setCtx_fwStaging (s : State) (i : Nat) (x : Ctx) : (s.setCtx i x).fwStaging = s.fwStaging := rfl
@[simp] theorem State.setCtx_fwOpen (s : State) (i : Nat) (x : Ctx) : (s.setCtx i x).fwOpen = s.fwOpen := rfl
@[simp] theorem State.setCtx_fwNext (s : State) (i : Nat) (x : Ctx) : (s.setCtx i x).fwNext = s.fwNext := rfl
@[simp] theorem State.setCtx_fwRejected (s : State) (i : Nat) (x : Ctx) : (s.setCtx i x).fwRejected = s.fwRejected := rfl
@[simp] theorem State.setCtx_comms (s : State) (i : Nat) (x : Ctx) : (s.setCtx i x).comms = s.comms := rfl
@[simp] theorem State.setCtx_colls (s : State) (i : Nat) (x : Ctx) : (s.setCtx i x).colls = s.colls := rfl
@[simp] theorem State.setCtx_linksDown (s : State) (i : Nat) (x : Ctx) : (s.setCtx i x).linksDown = s.linksDown := rfl
@[simp] theorem State.setCtx_hostLanes (s : State) (i : Nat) (x : Ctx) : (s.setCtx i x).hostLanes = s.hostLanes := rfl
@[simp] theorem State.setCtx_hostRate (s : State) (i : Nat) (x : Ctx) : (s.setCtx i x).hostRate = s.hostRate := rfl
@[simp] theorem State.setCtx_ideKeys (s : State) (i : Nat) (x : Ctx) : (s.setCtx i x).ideKeys = s.ideKeys := rfl
@[simp] theorem State.setCtx_busOut (s : State) (i : Nat) (x : Ctx) : (s.setCtx i x).busOut = s.busOut := rfl
@[simp] theorem State.setCtx_msix (s : State) (i : Nat) (x : Ctx) : (s.setCtx i x).msix = s.msix := rfl
@[simp] theorem State.setCtx_nextLaunch (s : State) (i : Nat) (x : Ctx) : (s.setCtx i x).nextLaunch = s.nextLaunch := rfl
@[simp] theorem State.setCtx_nextEvt (s : State) (i : Nat) (x : Ctx) : (s.setCtx i x).nextEvt = s.nextEvt := rfl
@[simp] theorem State.setCtx_nextOp (s : State) (i : Nat) (x : Ctx) : (s.setCtx i x).nextOp = s.nextOp := rfl
@[simp] theorem State.setCtx_ahead (s : State) (i : Nat) (x : Ctx) : (s.setCtx i x).ahead = s.ahead := rfl
@[simp] theorem State.setCtx_mismatch (s : State) (i : Nat) (x : Ctx) : (s.setCtx i x).mismatch = s.mismatch := rfl
@[simp] theorem State.setCtx_beat (s : State) (i : Nat) (x : Ctx) : (s.setCtx i x).beat = s.beat := rfl
@[simp] theorem State.setCtx_fair (s : State) (i : Nat) (x : Ctx) : (s.setCtx i x).fair = s.fair := rfl
@[simp] theorem State.setCtx_inputs (s : State) (i : Nat) (x : Ctx) : (s.setCtx i x).inputs = s.inputs := rfl
@[simp] theorem State.setCtx_fresh (s : State) (i : Nat) (x : Ctx) : (s.setCtx i x).fresh = s.fresh := rfl
@[simp] theorem State.setFn_hart (s : State) (i : Nat) (x : Fn) : (s.setFn i x).hart = s.hart := rfl
@[simp] theorem State.setFn_harts (s : State) (i : Nat) (x : Fn) : (s.setFn i x).harts = s.harts := rfl
@[simp] theorem State.setFn_slots (s : State) (i : Nat) (x : Fn) : (s.setFn i x).slots = s.slots := rfl
@[simp] theorem State.setFn_spills (s : State) (i : Nat) (x : Fn) : (s.setFn i x).spills = s.spills := rfl
@[simp] theorem State.setFn_cores (s : State) (i : Nat) (x : Fn) : (s.setFn i x).cores = s.cores := rfl
@[simp] theorem State.setFn_ctxs (s : State) (i : Nat) (x : Fn) : (s.setFn i x).ctxs = s.ctxs := rfl
@[simp] theorem State.setFn_launches (s : State) (i : Nat) (x : Fn) : (s.setFn i x).launches = s.launches := rfl
@[simp] theorem State.setFn_mem (s : State) (i : Nat) (x : Fn) : (s.setFn i x).mem = s.mem := rfl
@[simp] theorem State.setFn_l2 (s : State) (i : Nat) (x : Fn) : (s.setFn i x).l2 = s.l2 := rfl
@[simp] theorem State.setFn_rdc (s : State) (i : Nat) (x : Fn) : (s.setFn i x).rdc = s.rdc := rfl
@[simp] theorem State.setFn_poison (s : State) (i : Nat) (x : Fn) : (s.setFn i x).poison = s.poison := rfl
@[simp] theorem State.setFn_cycle (s : State) (i : Nat) (x : Fn) : (s.setFn i x).cycle = s.cycle := rfl
@[simp] theorem State.setFn_time (s : State) (i : Nat) (x : Fn) : (s.setFn i x).time = s.time := rfl
@[simp] theorem State.setFn_frec (s : State) (i : Nat) (x : Fn) : (s.setFn i x).frec = s.frec := rfl
@[simp] theorem State.setFn_frecLost (s : State) (i : Nat) (x : Fn) : (s.setFn i x).frecLost = s.frecLost := rfl
@[simp] theorem State.setFn_corrected (s : State) (i : Nat) (x : Fn) : (s.setFn i x).corrected = s.corrected := rfl
@[simp] theorem State.setFn_frozen (s : State) (i : Nat) (x : Fn) : (s.setFn i x).frozen = s.frozen := rfl
@[simp] theorem State.setFn_pilot (s : State) (i : Nat) (x : Fn) : (s.setFn i x).pilot = s.pilot := rfl
@[simp] theorem State.setFn_powerLimit (s : State) (i : Nat) (x : Fn) : (s.setFn i x).powerLimit = s.powerLimit := rfl
@[simp] theorem State.setFn_fwActive (s : State) (i : Nat) (x : Fn) : (s.setFn i x).fwActive = s.fwActive := rfl
@[simp] theorem State.setFn_fwStaging (s : State) (i : Nat) (x : Fn) : (s.setFn i x).fwStaging = s.fwStaging := rfl
@[simp] theorem State.setFn_fwOpen (s : State) (i : Nat) (x : Fn) : (s.setFn i x).fwOpen = s.fwOpen := rfl
@[simp] theorem State.setFn_fwNext (s : State) (i : Nat) (x : Fn) : (s.setFn i x).fwNext = s.fwNext := rfl
@[simp] theorem State.setFn_fwRejected (s : State) (i : Nat) (x : Fn) : (s.setFn i x).fwRejected = s.fwRejected := rfl
@[simp] theorem State.setFn_comms (s : State) (i : Nat) (x : Fn) : (s.setFn i x).comms = s.comms := rfl
@[simp] theorem State.setFn_colls (s : State) (i : Nat) (x : Fn) : (s.setFn i x).colls = s.colls := rfl
@[simp] theorem State.setFn_linksDown (s : State) (i : Nat) (x : Fn) : (s.setFn i x).linksDown = s.linksDown := rfl
@[simp] theorem State.setFn_hostLanes (s : State) (i : Nat) (x : Fn) : (s.setFn i x).hostLanes = s.hostLanes := rfl
@[simp] theorem State.setFn_hostRate (s : State) (i : Nat) (x : Fn) : (s.setFn i x).hostRate = s.hostRate := rfl
@[simp] theorem State.setFn_ideKeys (s : State) (i : Nat) (x : Fn) : (s.setFn i x).ideKeys = s.ideKeys := rfl
@[simp] theorem State.setFn_busOut (s : State) (i : Nat) (x : Fn) : (s.setFn i x).busOut = s.busOut := rfl
@[simp] theorem State.setFn_msix (s : State) (i : Nat) (x : Fn) : (s.setFn i x).msix = s.msix := rfl
@[simp] theorem State.setFn_nextLaunch (s : State) (i : Nat) (x : Fn) : (s.setFn i x).nextLaunch = s.nextLaunch := rfl
@[simp] theorem State.setFn_nextEvt (s : State) (i : Nat) (x : Fn) : (s.setFn i x).nextEvt = s.nextEvt := rfl
@[simp] theorem State.setFn_nextOp (s : State) (i : Nat) (x : Fn) : (s.setFn i x).nextOp = s.nextOp := rfl
@[simp] theorem State.setFn_ahead (s : State) (i : Nat) (x : Fn) : (s.setFn i x).ahead = s.ahead := rfl
@[simp] theorem State.setFn_mismatch (s : State) (i : Nat) (x : Fn) : (s.setFn i x).mismatch = s.mismatch := rfl
@[simp] theorem State.setFn_beat (s : State) (i : Nat) (x : Fn) : (s.setFn i x).beat = s.beat := rfl
@[simp] theorem State.setFn_fair (s : State) (i : Nat) (x : Fn) : (s.setFn i x).fair = s.fair := rfl
@[simp] theorem State.setFn_inputs (s : State) (i : Nat) (x : Fn) : (s.setFn i x).inputs = s.inputs := rfl
@[simp] theorem State.setFn_fresh (s : State) (i : Nat) (x : Fn) : (s.setFn i x).fresh = s.fresh := rfl
@[simp] theorem State.setLaunch_hart (s : State) (i : Nat) (x : Launch) : (s.setLaunch i x).hart = s.hart := rfl
@[simp] theorem State.setLaunch_harts (s : State) (i : Nat) (x : Launch) : (s.setLaunch i x).harts = s.harts := rfl
@[simp] theorem State.setLaunch_slots (s : State) (i : Nat) (x : Launch) : (s.setLaunch i x).slots = s.slots := rfl
@[simp] theorem State.setLaunch_spills (s : State) (i : Nat) (x : Launch) : (s.setLaunch i x).spills = s.spills := rfl
@[simp] theorem State.setLaunch_cores (s : State) (i : Nat) (x : Launch) : (s.setLaunch i x).cores = s.cores := rfl
@[simp] theorem State.setLaunch_ctxs (s : State) (i : Nat) (x : Launch) : (s.setLaunch i x).ctxs = s.ctxs := rfl
@[simp] theorem State.setLaunch_fns (s : State) (i : Nat) (x : Launch) : (s.setLaunch i x).fns = s.fns := rfl
@[simp] theorem State.setLaunch_mem (s : State) (i : Nat) (x : Launch) : (s.setLaunch i x).mem = s.mem := rfl
@[simp] theorem State.setLaunch_l2 (s : State) (i : Nat) (x : Launch) : (s.setLaunch i x).l2 = s.l2 := rfl
@[simp] theorem State.setLaunch_rdc (s : State) (i : Nat) (x : Launch) : (s.setLaunch i x).rdc = s.rdc := rfl
@[simp] theorem State.setLaunch_poison (s : State) (i : Nat) (x : Launch) : (s.setLaunch i x).poison = s.poison := rfl
@[simp] theorem State.setLaunch_cycle (s : State) (i : Nat) (x : Launch) : (s.setLaunch i x).cycle = s.cycle := rfl
@[simp] theorem State.setLaunch_time (s : State) (i : Nat) (x : Launch) : (s.setLaunch i x).time = s.time := rfl
@[simp] theorem State.setLaunch_frec (s : State) (i : Nat) (x : Launch) : (s.setLaunch i x).frec = s.frec := rfl
@[simp] theorem State.setLaunch_frecLost (s : State) (i : Nat) (x : Launch) : (s.setLaunch i x).frecLost = s.frecLost := rfl
@[simp] theorem State.setLaunch_corrected (s : State) (i : Nat) (x : Launch) : (s.setLaunch i x).corrected = s.corrected := rfl
@[simp] theorem State.setLaunch_frozen (s : State) (i : Nat) (x : Launch) : (s.setLaunch i x).frozen = s.frozen := rfl
@[simp] theorem State.setLaunch_pilot (s : State) (i : Nat) (x : Launch) : (s.setLaunch i x).pilot = s.pilot := rfl
@[simp] theorem State.setLaunch_powerLimit (s : State) (i : Nat) (x : Launch) : (s.setLaunch i x).powerLimit = s.powerLimit := rfl
@[simp] theorem State.setLaunch_fwActive (s : State) (i : Nat) (x : Launch) : (s.setLaunch i x).fwActive = s.fwActive := rfl
@[simp] theorem State.setLaunch_fwStaging (s : State) (i : Nat) (x : Launch) : (s.setLaunch i x).fwStaging = s.fwStaging := rfl
@[simp] theorem State.setLaunch_fwOpen (s : State) (i : Nat) (x : Launch) : (s.setLaunch i x).fwOpen = s.fwOpen := rfl
@[simp] theorem State.setLaunch_fwNext (s : State) (i : Nat) (x : Launch) : (s.setLaunch i x).fwNext = s.fwNext := rfl
@[simp] theorem State.setLaunch_fwRejected (s : State) (i : Nat) (x : Launch) : (s.setLaunch i x).fwRejected = s.fwRejected := rfl
@[simp] theorem State.setLaunch_comms (s : State) (i : Nat) (x : Launch) : (s.setLaunch i x).comms = s.comms := rfl
@[simp] theorem State.setLaunch_colls (s : State) (i : Nat) (x : Launch) : (s.setLaunch i x).colls = s.colls := rfl
@[simp] theorem State.setLaunch_linksDown (s : State) (i : Nat) (x : Launch) : (s.setLaunch i x).linksDown = s.linksDown := rfl
@[simp] theorem State.setLaunch_hostLanes (s : State) (i : Nat) (x : Launch) : (s.setLaunch i x).hostLanes = s.hostLanes := rfl
@[simp] theorem State.setLaunch_hostRate (s : State) (i : Nat) (x : Launch) : (s.setLaunch i x).hostRate = s.hostRate := rfl
@[simp] theorem State.setLaunch_ideKeys (s : State) (i : Nat) (x : Launch) : (s.setLaunch i x).ideKeys = s.ideKeys := rfl
@[simp] theorem State.setLaunch_busOut (s : State) (i : Nat) (x : Launch) : (s.setLaunch i x).busOut = s.busOut := rfl
@[simp] theorem State.setLaunch_msix (s : State) (i : Nat) (x : Launch) : (s.setLaunch i x).msix = s.msix := rfl
@[simp] theorem State.setLaunch_nextLaunch (s : State) (i : Nat) (x : Launch) : (s.setLaunch i x).nextLaunch = s.nextLaunch := rfl
@[simp] theorem State.setLaunch_nextEvt (s : State) (i : Nat) (x : Launch) : (s.setLaunch i x).nextEvt = s.nextEvt := rfl
@[simp] theorem State.setLaunch_nextOp (s : State) (i : Nat) (x : Launch) : (s.setLaunch i x).nextOp = s.nextOp := rfl
@[simp] theorem State.setLaunch_ahead (s : State) (i : Nat) (x : Launch) : (s.setLaunch i x).ahead = s.ahead := rfl
@[simp] theorem State.setLaunch_mismatch (s : State) (i : Nat) (x : Launch) : (s.setLaunch i x).mismatch = s.mismatch := rfl
@[simp] theorem State.setLaunch_beat (s : State) (i : Nat) (x : Launch) : (s.setLaunch i x).beat = s.beat := rfl
@[simp] theorem State.setLaunch_fair (s : State) (i : Nat) (x : Launch) : (s.setLaunch i x).fair = s.fair := rfl
@[simp] theorem State.setLaunch_inputs (s : State) (i : Nat) (x : Launch) : (s.setLaunch i x).inputs = s.inputs := rfl
@[simp] theorem State.setLaunch_fresh (s : State) (i : Nat) (x : Launch) : (s.setLaunch i x).fresh = s.fresh := rfl
theorem State.setSlot_slot (s : State) (i : Nat) (x : Slot) (j : Nat) : (s.setSlot i x).slot j = if j = i then x else s.slot j :=
  mapGet_put _ _ _ _ _
@[simp] theorem State.setSlot_slot_self (s : State) (i : Nat) (x : Slot) : (s.setSlot i x).slot i = x := by simp [State.setSlot_slot]
theorem State.setCore_core (s : State) (i : Nat) (x : Core) (j : Nat) : (s.setCore i x).core j = if j = i then x else s.core j :=
  mapGet_put _ _ _ _ _
@[simp] theorem State.setCore_core_self (s : State) (i : Nat) (x : Core) : (s.setCore i x).core i = x := by simp [State.setCore_core]
theorem State.setCtx_ctx (s : State) (i : Nat) (x : Ctx) (j : Nat) : (s.setCtx i x).ctx j = if j = i then x else s.ctx j :=
  mapGet_put _ _ _ _ _
@[simp] theorem State.setCtx_ctx_self (s : State) (i : Nat) (x : Ctx) : (s.setCtx i x).ctx i = x := by simp [State.setCtx_ctx]
theorem State.setFn_fn (s : State) (i : Nat) (x : Fn) (j : Nat) : (s.setFn i x).fn j = if j = i then x else s.fn j :=
  mapGet_put _ _ _ _ _
@[simp] theorem State.setFn_fn_self (s : State) (i : Nat) (x : Fn) : (s.setFn i x).fn i = x := by simp [State.setFn_fn]
theorem State.setLaunch_launch (s : State) (i : Nat) (x : Launch) (j : Nat) : (s.setLaunch i x).launch j = if j = i then x else s.launch j :=
  mapGet_put _ _ _ _ _
@[simp] theorem State.setLaunch_launch_self (s : State) (i : Nat) (x : Launch) : (s.setLaunch i x).launch i = x := by simp [State.setLaunch_launch]
@[simp] theorem State.withHart_slot_same (s : State) (h : Hart) (j : Nat) : (s.withHart h).slot j = s.slot j := rfl
@[simp] theorem State.withHart_core_same (s : State) (h : Hart) (j : Nat) : (s.withHart h).core j = s.core j := rfl
@[simp] theorem State.withHart_ctx_same (s : State) (h : Hart) (j : Nat) : (s.withHart h).ctx j = s.ctx j := rfl
@[simp] theorem State.withHart_fn_same (s : State) (h : Hart) (j : Nat) : (s.withHart h).fn j = s.fn j := rfl
@[simp] theorem State.withHart_launch_same (s : State) (h : Hart) (j : Nat) : (s.withHart h).launch j = s.launch j := rfl
@[simp] theorem State.setS_slot_same (s : State) (r : BitVec 6) (x : Word) (j : Nat) : (s.setS r x).slot j = s.slot j := rfl
@[simp] theorem State.setS_core_same (s : State) (r : BitVec 6) (x : Word) (j : Nat) : (s.setS r x).core j = s.core j := rfl
@[simp] theorem State.setS_ctx_same (s : State) (r : BitVec 6) (x : Word) (j : Nat) : (s.setS r x).ctx j = s.ctx j := rfl
@[simp] theorem State.setS_fn_same (s : State) (r : BitVec 6) (x : Word) (j : Nat) : (s.setS r x).fn j = s.fn j := rfl
@[simp] theorem State.setS_launch_same (s : State) (r : BitVec 6) (x : Word) (j : Nat) : (s.setS r x).launch j = s.launch j := rfl
@[simp] theorem State.goto_slot_same (s : State) (a : Word) (j : Nat) : (s.goto a).slot j = s.slot j := rfl
@[simp] theorem State.goto_core_same (s : State) (a : Word) (j : Nat) : (s.goto a).core j = s.core j := rfl
@[simp] theorem State.goto_ctx_same (s : State) (a : Word) (j : Nat) : (s.goto a).ctx j = s.ctx j := rfl
@[simp] theorem State.goto_fn_same (s : State) (a : Word) (j : Nat) : (s.goto a).fn j = s.fn j := rfl
@[simp] theorem State.goto_launch_same (s : State) (a : Word) (j : Nat) : (s.goto a).launch j = s.launch j := rfl
@[simp] theorem State.advance_slot_same (s : State)  (j : Nat) : (s.advance).slot j = s.slot j := rfl
@[simp] theorem State.advance_core_same (s : State)  (j : Nat) : (s.advance).core j = s.core j := rfl
@[simp] theorem State.advance_ctx_same (s : State)  (j : Nat) : (s.advance).ctx j = s.ctx j := rfl
@[simp] theorem State.advance_fn_same (s : State)  (j : Nat) : (s.advance).fn j = s.fn j := rfl
@[simp] theorem State.advance_launch_same (s : State)  (j : Nat) : (s.advance).launch j = s.launch j := rfl
@[simp] theorem State.result_slot_same (s : State) (d : BitVec 6) (x : Word) (j : Nat) : (s.result d x).slot j = s.slot j := rfl
@[simp] theorem State.result_core_same (s : State) (d : BitVec 6) (x : Word) (j : Nat) : (s.result d x).core j = s.core j := rfl
@[simp] theorem State.result_ctx_same (s : State) (d : BitVec 6) (x : Word) (j : Nat) : (s.result d x).ctx j = s.ctx j := rfl
@[simp] theorem State.result_fn_same (s : State) (d : BitVec 6) (x : Word) (j : Nat) : (s.result d x).fn j = s.fn j := rfl
@[simp] theorem State.result_launch_same (s : State) (d : BitVec 6) (x : Word) (j : Nat) : (s.result d x).launch j = s.launch j := rfl
@[simp] theorem State.setSlot_core_same (s : State) (i : Nat) (x : Slot) (j : Nat) : (s.setSlot i x).core j = s.core j := rfl
@[simp] theorem State.setSlot_ctx_same (s : State) (i : Nat) (x : Slot) (j : Nat) : (s.setSlot i x).ctx j = s.ctx j := rfl
@[simp] theorem State.setSlot_fn_same (s : State) (i : Nat) (x : Slot) (j : Nat) : (s.setSlot i x).fn j = s.fn j := rfl
@[simp] theorem State.setSlot_launch_same (s : State) (i : Nat) (x : Slot) (j : Nat) : (s.setSlot i x).launch j = s.launch j := rfl
@[simp] theorem State.setCore_slot_same (s : State) (i : Nat) (x : Core) (j : Nat) : (s.setCore i x).slot j = s.slot j := rfl
@[simp] theorem State.setCore_ctx_same (s : State) (i : Nat) (x : Core) (j : Nat) : (s.setCore i x).ctx j = s.ctx j := rfl
@[simp] theorem State.setCore_fn_same (s : State) (i : Nat) (x : Core) (j : Nat) : (s.setCore i x).fn j = s.fn j := rfl
@[simp] theorem State.setCore_launch_same (s : State) (i : Nat) (x : Core) (j : Nat) : (s.setCore i x).launch j = s.launch j := rfl
@[simp] theorem State.setCtx_slot_same (s : State) (i : Nat) (x : Ctx) (j : Nat) : (s.setCtx i x).slot j = s.slot j := rfl
@[simp] theorem State.setCtx_core_same (s : State) (i : Nat) (x : Ctx) (j : Nat) : (s.setCtx i x).core j = s.core j := rfl
@[simp] theorem State.setCtx_fn_same (s : State) (i : Nat) (x : Ctx) (j : Nat) : (s.setCtx i x).fn j = s.fn j := rfl
@[simp] theorem State.setCtx_launch_same (s : State) (i : Nat) (x : Ctx) (j : Nat) : (s.setCtx i x).launch j = s.launch j := rfl
@[simp] theorem State.setFn_slot_same (s : State) (i : Nat) (x : Fn) (j : Nat) : (s.setFn i x).slot j = s.slot j := rfl
@[simp] theorem State.setFn_core_same (s : State) (i : Nat) (x : Fn) (j : Nat) : (s.setFn i x).core j = s.core j := rfl
@[simp] theorem State.setFn_ctx_same (s : State) (i : Nat) (x : Fn) (j : Nat) : (s.setFn i x).ctx j = s.ctx j := rfl
@[simp] theorem State.setFn_launch_same (s : State) (i : Nat) (x : Fn) (j : Nat) : (s.setFn i x).launch j = s.launch j := rfl
@[simp] theorem State.setLaunch_slot_same (s : State) (i : Nat) (x : Launch) (j : Nat) : (s.setLaunch i x).slot j = s.slot j := rfl
@[simp] theorem State.setLaunch_core_same (s : State) (i : Nat) (x : Launch) (j : Nat) : (s.setLaunch i x).core j = s.core j := rfl
@[simp] theorem State.setLaunch_ctx_same (s : State) (i : Nat) (x : Launch) (j : Nat) : (s.setLaunch i x).ctx j = s.ctx j := rfl
@[simp] theorem State.setLaunch_fn_same (s : State) (i : Nat) (x : Launch) (j : Nat) : (s.setLaunch i x).fn j = s.fn j := rfl

/-! ## What a byte at home depends on (R198, R250) -/

theorem stage2Walk_congr {s t : State} (hl : t.l2 = s.l2) (hm : t.mem = s.mem) (hp : t.poison = s.poison) (tlb : List TlbEntry)
    (gpa : Nat) (k : Kind) (ls : List Nat) (a : Nat) : stage2Walk t tlb gpa k ls a = stage2Walk s tlb gpa k ls a := by
  have h0 : t.peek0N = s.peek0N := by funext a n; simp only [State.peek0N, State.peek0, hl, hm]
  induction ls generalizing a with
  | nil => rfl
  | cons l ls ih => simp only [stage2Walk, h0, hp, ih]
/-- The byte at home depends on memory, on what the homes hold dirty, on the functions' tables and on poison alone. -/
theorem homeOf_congr {s t : State} (hf : t.fns = s.fns) (hl : t.l2 = s.l2) (hm : t.mem = s.mem) (hp : t.poison = s.poison)
    (a : Nat) : homeOf t a = homeOf s a := by
  have h1 : ∀ f, t.fn f = s.fn f := fun f => by simp only [State.fn, hf]
  simp only [homeOf, peerCell, stage2Of, h1, stage2Walk_congr hl hm hp]
theorem peek_congr {s t : State} (hf : t.fns = s.fns) (hl : t.l2 = s.l2) (hm : t.mem = s.mem) (hp : t.poison = s.poison)
    (a : Nat) : t.peek a = s.peek a := by
  simp only [State.peek, hl, hm, homeOf_congr hf hl hm hp]
theorem paBad_congr {s t : State} (hf : t.fns = s.fns) (hl : t.l2 = s.l2) (hm : t.mem = s.mem) (hp : t.poison = s.poison)
    (hd : t.linksDown = s.linksDown) (a : Nat) : paBad t a = paBad s a := by
  have h1 : ∀ f, t.fn f = s.fn f := fun f => by simp only [State.fn, hf]
  simp only [paBad, peerUp, h1, hd, hp, homeOf_congr hf hl hm hp]
@[simp] theorem State.withHart_peek_same (s : State) (h : Hart) (j : Nat) : (s.withHart h).peek j = s.peek j := peek_congr rfl rfl rfl rfl j
@[simp] theorem State.withHart_homeOf_same (s : State) (h : Hart) (j : Nat) : homeOf (s.withHart h) j = homeOf s j := homeOf_congr rfl rfl rfl rfl j
@[simp] theorem State.withHart_paBad_same (s : State) (h : Hart) (j : Nat) : paBad (s.withHart h) j = paBad s j := paBad_congr rfl rfl rfl rfl rfl j
@[simp] theorem State.setS_peek_same (s : State) (r : BitVec 6) (x : Word) (j : Nat) : (s.setS r x).peek j = s.peek j := peek_congr rfl rfl rfl rfl j
@[simp] theorem State.setS_homeOf_same (s : State) (r : BitVec 6) (x : Word) (j : Nat) : homeOf (s.setS r x) j = homeOf s j := homeOf_congr rfl rfl rfl rfl j
@[simp] theorem State.setS_paBad_same (s : State) (r : BitVec 6) (x : Word) (j : Nat) : paBad (s.setS r x) j = paBad s j := paBad_congr rfl rfl rfl rfl rfl j
@[simp] theorem State.goto_peek_same (s : State) (a : Word) (j : Nat) : (s.goto a).peek j = s.peek j := peek_congr rfl rfl rfl rfl j
@[simp] theorem State.goto_homeOf_same (s : State) (a : Word) (j : Nat) : homeOf (s.goto a) j = homeOf s j := homeOf_congr rfl rfl rfl rfl j
@[simp] theorem State.goto_paBad_same (s : State) (a : Word) (j : Nat) : paBad (s.goto a) j = paBad s j := paBad_congr rfl rfl rfl rfl rfl j
@[simp] theorem State.advance_peek_same (s : State)  (j : Nat) : (s.advance).peek j = s.peek j := peek_congr rfl rfl rfl rfl j
@[simp] theorem State.advance_homeOf_same (s : State)  (j : Nat) : homeOf (s.advance) j = homeOf s j := homeOf_congr rfl rfl rfl rfl j
@[simp] theorem State.advance_paBad_same (s : State)  (j : Nat) : paBad (s.advance) j = paBad s j := paBad_congr rfl rfl rfl rfl rfl j
@[simp] theorem State.result_peek_same (s : State) (d : BitVec 6) (x : Word) (j : Nat) : (s.result d x).peek j = s.peek j := peek_congr rfl rfl rfl rfl j
@[simp] theorem State.result_homeOf_same (s : State) (d : BitVec 6) (x : Word) (j : Nat) : homeOf (s.result d x) j = homeOf s j := homeOf_congr rfl rfl rfl rfl j
@[simp] theorem State.result_paBad_same (s : State) (d : BitVec 6) (x : Word) (j : Nat) : paBad (s.result d x) j = paBad s j := paBad_congr rfl rfl rfl rfl rfl j
@[simp] theorem State.setSlot_peek_same (s : State) (i : Nat) (x : Slot) (j : Nat) : (s.setSlot i x).peek j = s.peek j := peek_congr rfl rfl rfl rfl j
@[simp] theorem State.setSlot_homeOf_same (s : State) (i : Nat) (x : Slot) (j : Nat) : homeOf (s.setSlot i x) j = homeOf s j := homeOf_congr rfl rfl rfl rfl j
@[simp] theorem State.setSlot_paBad_same (s : State) (i : Nat) (x : Slot) (j : Nat) : paBad (s.setSlot i x) j = paBad s j := paBad_congr rfl rfl rfl rfl rfl j
@[simp] theorem State.setCore_peek_same (s : State) (i : Nat) (x : Core) (j : Nat) : (s.setCore i x).peek j = s.peek j := peek_congr rfl rfl rfl rfl j
@[simp] theorem State.setCore_homeOf_same (s : State) (i : Nat) (x : Core) (j : Nat) : homeOf (s.setCore i x) j = homeOf s j := homeOf_congr rfl rfl rfl rfl j
@[simp] theorem State.setCore_paBad_same (s : State) (i : Nat) (x : Core) (j : Nat) : paBad (s.setCore i x) j = paBad s j := paBad_congr rfl rfl rfl rfl rfl j
@[simp] theorem State.setCtx_peek_same (s : State) (i : Nat) (x : Ctx) (j : Nat) : (s.setCtx i x).peek j = s.peek j := peek_congr rfl rfl rfl rfl j
@[simp] theorem State.setCtx_homeOf_same (s : State) (i : Nat) (x : Ctx) (j : Nat) : homeOf (s.setCtx i x) j = homeOf s j := homeOf_congr rfl rfl rfl rfl j
@[simp] theorem State.setCtx_paBad_same (s : State) (i : Nat) (x : Ctx) (j : Nat) : paBad (s.setCtx i x) j = paBad s j := paBad_congr rfl rfl rfl rfl rfl j
@[simp] theorem State.setLaunch_peek_same (s : State) (i : Nat) (x : Launch) (j : Nat) : (s.setLaunch i x).peek j = s.peek j := peek_congr rfl rfl rfl rfl j
@[simp] theorem State.setLaunch_homeOf_same (s : State) (i : Nat) (x : Launch) (j : Nat) : homeOf (s.setLaunch i x) j = homeOf s j := homeOf_congr rfl rfl rfl rfl j
@[simp] theorem State.setLaunch_paBad_same (s : State) (i : Nat) (x : Launch) (j : Nat) : paBad (s.setLaunch i x) j = paBad s j := paBad_congr rfl rfl rfl rfl rfl j

/-- Memory that stands is the physical function's own, and stands behind its own address (R13, R250). -/
theorem backed_plain {a : Nat} (h : devBacked a = true) : a < 2 ^ 41 ∧ fnAddr a = 0 ∧ paDevice a = true ∧ paPeer a = false := by
  have h1 : a < 2 ^ 41 := by simp only [devBacked, Bool.and_eq_true, decide_eq_true_eq] at h; exact h.1
  have h2 : a >>> 50 = 0 := by rw [Nat.shiftRight_eq_div_pow]; exact Nat.div_eq_of_lt (by omega)
  refine ⟨h1, ?_, ?_, ?_⟩
  · exact Nat.div_eq_of_lt (by omega)
  · simp [paDevice, bitsAt, h2]
  · simp [paPeer, bitsAt, h2]
@[simp] theorem homeOf_backed {s : State} {a : Nat} (h : devBacked a = true) : homeOf s a = a := by
  obtain ⟨_, h2, _, h4⟩ := backed_plain h
  simp [homeOf, h2, h4]
/-- A byte stored in memory that stands is read back, and no other byte of the physical function's memory changes. -/
theorem peek_poke {s : State} {a : Nat} (h : devBacked a = true) (b : Byte) (q : Nat) (hq : fnAddr q = 0) :
    (s.poke a b).peek q = if q = a then b else s.peek q := by
  obtain ⟨_, _, h3, _⟩ := backed_plain h
  have hh : homeOf { s with l2 := mapPut none s.l2 a (some b) } q = homeOf s q := by
    simp only [homeOf, hq, if_true]; rfl
  simp only [State.poke, h3, if_true, State.peek, hh, mapGet_put]
  by_cases e : q = a
  · simp [e]
  · simp [e]

/-- Replacing a hart changes the hart alone. -/
theorem State.setHart_self (s : State) : s.setHart s.hart = s := by simp [State.setHart]
theorem State.setHart_focus (s : State) (x : Hart) (h : x.id = s.hart.id) : s.setHart x = s.withHart x := by
  simp [State.setHart, h, State.withHart]
@[simp] theorem State.hartOf_focus (s : State) : s.hartOf s.hart.id = s.hart := by simp [State.hartOf]
@[simp] theorem State.setHart_slots (s : State) (x : Hart) : (s.setHart x).slots = s.slots := by unfold State.setHart; split <;> rfl
@[simp] theorem State.setHart_spills (s : State) (x : Hart) : (s.setHart x).spills = s.spills := by unfold State.setHart; split <;> rfl
@[simp] theorem State.setHart_cores (s : State) (x : Hart) : (s.setHart x).cores = s.cores := by unfold State.setHart; split <;> rfl
@[simp] theorem State.setHart_ctxs (s : State) (x : Hart) : (s.setHart x).ctxs = s.ctxs := by unfold State.setHart; split <;> rfl
@[simp] theorem State.setHart_fns (s : State) (x : Hart) : (s.setHart x).fns = s.fns := by unfold State.setHart; split <;> rfl
@[simp] theorem State.setHart_launches (s : State) (x : Hart) : (s.setHart x).launches = s.launches := by unfold State.setHart; split <;> rfl
@[simp] theorem State.setHart_mem (s : State) (x : Hart) : (s.setHart x).mem = s.mem := by unfold State.setHart; split <;> rfl
@[simp] theorem State.setHart_l2 (s : State) (x : Hart) : (s.setHart x).l2 = s.l2 := by unfold State.setHart; split <;> rfl
@[simp] theorem State.setHart_rdc (s : State) (x : Hart) : (s.setHart x).rdc = s.rdc := by unfold State.setHart; split <;> rfl
@[simp] theorem State.setHart_poison (s : State) (x : Hart) : (s.setHart x).poison = s.poison := by unfold State.setHart; split <;> rfl
@[simp] theorem State.setHart_cycle (s : State) (x : Hart) : (s.setHart x).cycle = s.cycle := by unfold State.setHart; split <;> rfl
@[simp] theorem State.setHart_time (s : State) (x : Hart) : (s.setHart x).time = s.time := by unfold State.setHart; split <;> rfl
@[simp] theorem State.setHart_frec (s : State) (x : Hart) : (s.setHart x).frec = s.frec := by unfold State.setHart; split <;> rfl
@[simp] theorem State.setHart_frecLost (s : State) (x : Hart) : (s.setHart x).frecLost = s.frecLost := by unfold State.setHart; split <;> rfl
@[simp] theorem State.setHart_corrected (s : State) (x : Hart) : (s.setHart x).corrected = s.corrected := by unfold State.setHart; split <;> rfl
@[simp] theorem State.setHart_frozen (s : State) (x : Hart) : (s.setHart x).frozen = s.frozen := by unfold State.setHart; split <;> rfl
@[simp] theorem State.setHart_pilot (s : State) (x : Hart) : (s.setHart x).pilot = s.pilot := by unfold State.setHart; split <;> rfl
@[simp] theorem State.setHart_powerLimit (s : State) (x : Hart) : (s.setHart x).powerLimit = s.powerLimit := by unfold State.setHart; split <;> rfl
@[simp] theorem State.setHart_fwActive (s : State) (x : Hart) : (s.setHart x).fwActive = s.fwActive := by unfold State.setHart; split <;> rfl
@[simp] theorem State.setHart_fwStaging (s : State) (x : Hart) : (s.setHart x).fwStaging = s.fwStaging := by unfold State.setHart; split <;> rfl
@[simp] theorem State.setHart_fwOpen (s : State) (x : Hart) : (s.setHart x).fwOpen = s.fwOpen := by unfold State.setHart; split <;> rfl
@[simp] theorem State.setHart_fwNext (s : State) (x : Hart) : (s.setHart x).fwNext = s.fwNext := by unfold State.setHart; split <;> rfl
@[simp] theorem State.setHart_fwRejected (s : State) (x : Hart) : (s.setHart x).fwRejected = s.fwRejected := by unfold State.setHart; split <;> rfl
@[simp] theorem State.setHart_comms (s : State) (x : Hart) : (s.setHart x).comms = s.comms := by unfold State.setHart; split <;> rfl
@[simp] theorem State.setHart_colls (s : State) (x : Hart) : (s.setHart x).colls = s.colls := by unfold State.setHart; split <;> rfl
@[simp] theorem State.setHart_linksDown (s : State) (x : Hart) : (s.setHart x).linksDown = s.linksDown := by unfold State.setHart; split <;> rfl
@[simp] theorem State.setHart_hostLanes (s : State) (x : Hart) : (s.setHart x).hostLanes = s.hostLanes := by unfold State.setHart; split <;> rfl
@[simp] theorem State.setHart_hostRate (s : State) (x : Hart) : (s.setHart x).hostRate = s.hostRate := by unfold State.setHart; split <;> rfl
@[simp] theorem State.setHart_ideKeys (s : State) (x : Hart) : (s.setHart x).ideKeys = s.ideKeys := by unfold State.setHart; split <;> rfl
@[simp] theorem State.setHart_busOut (s : State) (x : Hart) : (s.setHart x).busOut = s.busOut := by unfold State.setHart; split <;> rfl
@[simp] theorem State.setHart_msix (s : State) (x : Hart) : (s.setHart x).msix = s.msix := by unfold State.setHart; split <;> rfl
@[simp] theorem State.setHart_nextLaunch (s : State) (x : Hart) : (s.setHart x).nextLaunch = s.nextLaunch := by unfold State.setHart; split <;> rfl
@[simp] theorem State.setHart_nextEvt (s : State) (x : Hart) : (s.setHart x).nextEvt = s.nextEvt := by unfold State.setHart; split <;> rfl
@[simp] theorem State.setHart_nextOp (s : State) (x : Hart) : (s.setHart x).nextOp = s.nextOp := by unfold State.setHart; split <;> rfl
@[simp] theorem State.setHart_ahead (s : State) (x : Hart) : (s.setHart x).ahead = s.ahead := by unfold State.setHart; split <;> rfl
@[simp] theorem State.setHart_mismatch (s : State) (x : Hart) : (s.setHart x).mismatch = s.mismatch := by unfold State.setHart; split <;> rfl
@[simp] theorem State.setHart_beat (s : State) (x : Hart) : (s.setHart x).beat = s.beat := by unfold State.setHart; split <;> rfl
@[simp] theorem State.setHart_fair (s : State) (x : Hart) : (s.setHart x).fair = s.fair := by unfold State.setHart; split <;> rfl
@[simp] theorem State.setHart_inputs (s : State) (x : Hart) : (s.setHart x).inputs = s.inputs := by unfold State.setHart; split <;> rfl
@[simp] theorem State.setHart_fresh (s : State) (x : Hart) : (s.setHart x).fresh = s.fresh := by unfold State.setHart; split <;> rfl

/-! ## Hart -/

@[simp] theorem Hart.setS_live (h : Hart) (r : BitVec 6) (x : Word) : (h.setS r x).live = h.live := by unfold Hart.setS; split <;> rfl
@[simp] theorem Hart.setS_id (h : Hart) (r : BitVec 6) (x : Word) : (h.setS r x).id = h.id := by unfold Hart.setS; split <;> rfl
@[simp] theorem Hart.setS_launch (h : Hart) (r : BitVec 6) (x : Word) : (h.setS r x).launch = h.launch := by unfold Hart.setS; split <;> rfl
@[simp] theorem Hart.setS_stage (h : Hart) (r : BitVec 6) (x : Word) : (h.setS r x).stage = h.stage := by unfold Hart.setS; split <;> rfl
@[simp] theorem Hart.setS_index (h : Hart) (r : BitVec 6) (x : Word) : (h.setS r x).index = h.index := by unfold Hart.setS; split <;> rfl
@[simp] theorem Hart.setS_offset (h : Hart) (r : BitVec 6) (x : Word) : (h.setS r x).offset = h.offset := by unfold Hart.setS; split <;> rfl
@[simp] theorem Hart.setS_nharts (h : Hart) (r : BitVec 6) (x : Word) : (h.setS r x).nharts = h.nharts := by unfold Hart.setS; split <;> rfl
@[simp] theorem Hart.setS_lgown (h : Hart) (r : BitVec 6) (x : Word) : (h.setS r x).lgown = h.lgown := by unfold Hart.setS; split <;> rfl
@[simp] theorem Hart.setS_grp (h : Hart) (r : BitVec 6) (x : Word) : (h.setS r x).grp = h.grp := by unfold Hart.setS; split <;> rfl
@[simp] theorem Hart.setS_v (h : Hart) (r : BitVec 6) (x : Word) : (h.setS r x).v = h.v := by unfold Hart.setS; split <;> rfl
@[simp] theorem Hart.setS_vp (h : Hart) (r : BitVec 6) (x : Word) : (h.setS r x).vp = h.vp := by unfold Hart.setS; split <;> rfl
@[simp] theorem Hart.setS_k (h : Hart) (r : BitVec 6) (x : Word) : (h.setS r x).k = h.k := by unfold Hart.setS; split <;> rfl
@[simp] theorem Hart.setS_cnt (h : Hart) (r : BitVec 6) (x : Word) : (h.setS r x).cnt = h.cnt := by unfold Hart.setS; split <;> rfl
@[simp] theorem Hart.setS_pc (h : Hart) (r : BitVec 6) (x : Word) : (h.setS r x).pc = h.pc := by unfold Hart.setS; split <;> rfl
@[simp] theorem Hart.setS_vstart (h : Hart) (r : BitVec 6) (x : Word) : (h.setS r x).vstart = h.vstart := by unfold Hart.setS; split <;> rfl
@[simp] theorem Hart.setS_rpos (h : Hart) (r : BitVec 6) (x : Word) : (h.setS r x).rpos = h.rpos := by unfold Hart.setS; split <;> rfl
@[simp] theorem Hart.setS_vl (h : Hart) (r : BitVec 6) (x : Word) : (h.setS r x).vl = h.vl := by unfold Hart.setS; split <;> rfl
@[simp] theorem Hart.setS_et (h : Hart) (r : BitVec 6) (x : Word) : (h.setS r x).et = h.et := by unfold Hart.setS; split <;> rfl
@[simp] theorem Hart.setS_frm (h : Hart) (r : BitVec 6) (x : Word) : (h.setS r x).frm = h.frm := by unfold Hart.setS; split <;> rfl
@[simp] theorem Hart.setS_fflags (h : Hart) (r : BitVec 6) (x : Word) : (h.setS r x).fflags = h.fflags := by unfold Hart.setS; split <;> rfl
@[simp] theorem Hart.setS_spdesc (h : Hart) (r : BitVec 6) (x : Word) : (h.setS r x).spdesc = h.spdesc := by unfold Hart.setS; split <;> rfl
@[simp] theorem Hart.setS_queue (h : Hart) (r : BitVec 6) (x : Word) : (h.setS r x).queue = h.queue := by unfold Hart.setS; split <;> rfl
@[simp] theorem Hart.setS_sets (h : Hart) (r : BitVec 6) (x : Word) : (h.setS r x).sets = h.sets := by unfold Hart.setS; split <;> rfl
@[simp] theorem Hart.setS_kept (h : Hart) (r : BitVec 6) (x : Word) : (h.setS r x).kept = h.kept := by unfold Hart.setS; split <;> rfl
@[simp] theorem Hart.setS_keptSets (h : Hart) (r : BitVec 6) (x : Word) : (h.setS r x).keptSets = h.keptSets := by unfold Hart.setS; split <;> rfl
@[simp] theorem Hart.setS_keptMarks (h : Hart) (r : BitVec 6) (x : Word) : (h.setS r x).keptMarks = h.keptMarks := by unfold Hart.setS; split <;> rfl
@[simp] theorem Hart.setS_frozen (h : Hart) (r : BitVec 6) (x : Word) : (h.setS r x).frozen = h.frozen := by unfold Hart.setS; split <;> rfl
@[simp] theorem Hart.setS_trapcause (h : Hart) (r : BitVec 6) (x : Word) : (h.setS r x).trapcause = h.trapcause := by unfold Hart.setS; split <;> rfl
@[simp] theorem Hart.setS_trappc (h : Hart) (r : BitVec 6) (x : Word) : (h.setS r x).trappc = h.trappc := by unfold Hart.setS; split <;> rfl
@[simp] theorem Hart.setS_trapval (h : Hart) (r : BitVec 6) (x : Word) : (h.setS r x).trapval = h.trapval := by unfold Hart.setS; split <;> rfl
@[simp] theorem Hart.setS_mstat (h : Hart) (r : BitVec 6) (x : Word) : (h.setS r x).mstat = h.mstat := by unfold Hart.setS; split <;> rfl
@[simp] theorem Hart.setS_mtol (h : Hart) (r : BitVec 6) (x : Word) : (h.setS r x).mtol = h.mtol := by unfold Hart.setS; split <;> rfl
@[simp] theorem Hart.setS_algstat (h : Hart) (r : BitVec 6) (x : Word) : (h.setS r x).algstat = h.algstat := by unfold Hart.setS; split <;> rfl
@[simp] theorem Hart.setS_digest (h : Hart) (r : BitVec 6) (x : Word) : (h.setS r x).digest = h.digest := by unfold Hart.setS; split <;> rfl
@[simp] theorem Hart.setS_logseq (h : Hart) (r : BitVec 6) (x : Word) : (h.setS r x).logseq = h.logseq := by unfold Hart.setS; split <;> rfl
@[simp] theorem Hart.setS_tile (h : Hart) (r : BitVec 6) (x : Word) : (h.setS r x).tile = h.tile := by unfold Hart.setS; split <;> rfl
@[simp] theorem Hart.setS_arrived (h : Hart) (r : BitVec 6) (x : Word) : (h.setS r x).arrived = h.arrived := by unfold Hart.setS; split <;> rfl
@[simp] theorem Hart.setS_yreq (h : Hart) (r : BitVec 6) (x : Word) : (h.setS r x).yreq = h.yreq := by unfold Hart.setS; split <;> rfl
@[simp] theorem Hart.setS_yreqAt (h : Hart) (r : BitVec 6) (x : Word) : (h.setS r x).yreqAt = h.yreqAt := by unfold Hart.setS; split <;> rfl
@[simp] theorem Hart.setS_nonyielded (h : Hart) (r : BitVec 6) (x : Word) : (h.setS r x).nonyielded = h.nonyielded := by unfold Hart.setS; split <;> rfl
@[simp] theorem Hart.setS_run (h : Hart) (r : BitVec 6) (x : Word) : (h.setS r x).run = h.run := by unfold Hart.setS; split <;> rfl
@[simp] theorem Hart.setS_children (h : Hart) (r : BitVec 6) (x : Word) : (h.setS r x).children = h.children := by unfold Hart.setS; split <;> rfl
@[simp] theorem Hart.setS_parent (h : Hart) (r : BitVec 6) (x : Word) : (h.setS r x).parent = h.parent := by unfold Hart.setS; split <;> rfl
@[simp] theorem Hart.setS_ended (h : Hart) (r : BitVec 6) (x : Word) : (h.setS r x).ended = h.ended := by unfold Hart.setS; split <;> rfl
@[simp] theorem Hart.setS_lastAcq (h : Hart) (r : BitVec 6) (x : Word) : (h.setS r x).lastAcq = h.lastAcq := by unfold Hart.setS; split <;> rfl
@[simp] theorem Hart.setS_views (h : Hart) (r : BitVec 6) (x : Word) : (h.setS r x).views = h.views := by unfold Hart.setS; split <;> rfl
@[simp] theorem Hart.setS_rels (h : Hart) (r : BitVec 6) (x : Word) : (h.setS r x).rels = h.rels := by unfold Hart.setS; split <;> rfl
@[simp] theorem Hart.setS_relStage (h : Hart) (r : BitVec 6) (x : Word) : (h.setS r x).relStage = h.relStage := by unfold Hart.setS; split <;> rfl
@[simp] theorem Hart.setS_relCut (h : Hart) (r : BitVec 6) (x : Word) : (h.setS r x).relCut = h.relCut := by unfold Hart.setS; split <;> rfl
@[simp] theorem Hart.setS_sbuf (h : Hart) (r : BitVec 6) (x : Word) : (h.setS r x).sbuf = h.sbuf := by unfold Hart.setS; split <;> rfl
@[simp] theorem Hart.setS_stores (h : Hart) (r : BitVec 6) (x : Word) : (h.setS r x).stores = h.stores := by unfold Hart.setS; split <;> rfl
@[simp] theorem Hart.setS_fmarks (h : Hart) (r : BitVec 6) (x : Word) : (h.setS r x).fmarks = h.fmarks := by unfold Hart.setS; split <;> rfl
@[simp] theorem Hart.setS_trapOp (h : Hart) (r : BitVec 6) (x : Word) : (h.setS r x).trapOp = h.trapOp := by unfold Hart.setS; split <;> rfl
@[simp] theorem Hart.setS_pend (h : Hart) (r : BitVec 6) (x : Word) : (h.setS r x).pend = h.pend := by unfold Hart.setS; split <;> rfl
@[simp] theorem Hart.setS_kin (h : Hart) (r : BitVec 6) (x : Word) : (h.setS r x).kin = h.kin := by unfold Hart.setS; split <;> rfl
@[simp] theorem Hart.setS_sticky (h : Hart) (r : BitVec 6) (x : Word) : (h.setS r x).sticky = h.sticky := by unfold Hart.setS; split <;> rfl
@[simp] theorem Hart.setS_popSince (h : Hart) (r : BitVec 6) (x : Word) : (h.setS r x).popSince = h.popSince := by unfold Hart.setS; split <;> rfl
@[simp] theorem Hart.setS_diverged (h : Hart) (r : BitVec 6) (x : Word) : (h.setS r x).diverged = h.diverged := by unfold Hart.setS; split <;> rfl
@[simp] theorem Hart.setV_live (h : Hart) (n : Nat) (x : BitVec 8192) : (h.setV n x).live = h.live := rfl
@[simp] theorem Hart.setV_id (h : Hart) (n : Nat) (x : BitVec 8192) : (h.setV n x).id = h.id := rfl
@[simp] theorem Hart.setV_launch (h : Hart) (n : Nat) (x : BitVec 8192) : (h.setV n x).launch = h.launch := rfl
@[simp] theorem Hart.setV_stage (h : Hart) (n : Nat) (x : BitVec 8192) : (h.setV n x).stage = h.stage := rfl
@[simp] theorem Hart.setV_index (h : Hart) (n : Nat) (x : BitVec 8192) : (h.setV n x).index = h.index := rfl
@[simp] theorem Hart.setV_offset (h : Hart) (n : Nat) (x : BitVec 8192) : (h.setV n x).offset = h.offset := rfl
@[simp] theorem Hart.setV_nharts (h : Hart) (n : Nat) (x : BitVec 8192) : (h.setV n x).nharts = h.nharts := rfl
@[simp] theorem Hart.setV_lgown (h : Hart) (n : Nat) (x : BitVec 8192) : (h.setV n x).lgown = h.lgown := rfl
@[simp] theorem Hart.setV_grp (h : Hart) (n : Nat) (x : BitVec 8192) : (h.setV n x).grp = h.grp := rfl
@[simp] theorem Hart.setV_s (h : Hart) (n : Nat) (x : BitVec 8192) : (h.setV n x).s = h.s := rfl
@[simp] theorem Hart.setV_sp (h : Hart) (n : Nat) (x : BitVec 8192) : (h.setV n x).sp = h.sp := rfl
@[simp] theorem Hart.setV_vp (h : Hart) (n : Nat) (x : BitVec 8192) : (h.setV n x).vp = h.vp := rfl
@[simp] theorem Hart.setV_k (h : Hart) (n : Nat) (x : BitVec 8192) : (h.setV n x).k = h.k := rfl
@[simp] theorem Hart.setV_cnt (h : Hart) (n : Nat) (x : BitVec 8192) : (h.setV n x).cnt = h.cnt := rfl
@[simp] theorem Hart.setV_pc (h : Hart) (n : Nat) (x : BitVec 8192) : (h.setV n x).pc = h.pc := rfl
@[simp] theorem Hart.setV_vstart (h : Hart) (n : Nat) (x : BitVec 8192) : (h.setV n x).vstart = h.vstart := rfl
@[simp] theorem Hart.setV_rpos (h : Hart) (n : Nat) (x : BitVec 8192) : (h.setV n x).rpos = h.rpos := rfl
@[simp] theorem Hart.setV_vl (h : Hart) (n : Nat) (x : BitVec 8192) : (h.setV n x).vl = h.vl := rfl
@[simp] theorem Hart.setV_et (h : Hart) (n : Nat) (x : BitVec 8192) : (h.setV n x).et = h.et := rfl
@[simp] theorem Hart.setV_frm (h : Hart) (n : Nat) (x : BitVec 8192) : (h.setV n x).frm = h.frm := rfl
@[simp] theorem Hart.setV_fflags (h : Hart) (n : Nat) (x : BitVec 8192) : (h.setV n x).fflags = h.fflags := rfl
@[simp] theorem Hart.setV_spdesc (h : Hart) (n : Nat) (x : BitVec 8192) : (h.setV n x).spdesc = h.spdesc := rfl
@[simp] theorem Hart.setV_queue (h : Hart) (n : Nat) (x : BitVec 8192) : (h.setV n x).queue = h.queue := rfl
@[simp] theorem Hart.setV_sets (h : Hart) (n : Nat) (x : BitVec 8192) : (h.setV n x).sets = h.sets := rfl
@[simp] theorem Hart.setV_kept (h : Hart) (n : Nat) (x : BitVec 8192) : (h.setV n x).kept = h.kept := rfl
@[simp] theorem Hart.setV_keptSets (h : Hart) (n : Nat) (x : BitVec 8192) : (h.setV n x).keptSets = h.keptSets := rfl
@[simp] theorem Hart.setV_keptMarks (h : Hart) (n : Nat) (x : BitVec 8192) : (h.setV n x).keptMarks = h.keptMarks := rfl
@[simp] theorem Hart.setV_frozen (h : Hart) (n : Nat) (x : BitVec 8192) : (h.setV n x).frozen = h.frozen := rfl
@[simp] theorem Hart.setV_trapcause (h : Hart) (n : Nat) (x : BitVec 8192) : (h.setV n x).trapcause = h.trapcause := rfl
@[simp] theorem Hart.setV_trappc (h : Hart) (n : Nat) (x : BitVec 8192) : (h.setV n x).trappc = h.trappc := rfl
@[simp] theorem Hart.setV_trapval (h : Hart) (n : Nat) (x : BitVec 8192) : (h.setV n x).trapval = h.trapval := rfl
@[simp] theorem Hart.setV_mstat (h : Hart) (n : Nat) (x : BitVec 8192) : (h.setV n x).mstat = h.mstat := rfl
@[simp] theorem Hart.setV_mtol (h : Hart) (n : Nat) (x : BitVec 8192) : (h.setV n x).mtol = h.mtol := rfl
@[simp] theorem Hart.setV_algstat (h : Hart) (n : Nat) (x : BitVec 8192) : (h.setV n x).algstat = h.algstat := rfl
@[simp] theorem Hart.setV_digest (h : Hart) (n : Nat) (x : BitVec 8192) : (h.setV n x).digest = h.digest := rfl
@[simp] theorem Hart.setV_logseq (h : Hart) (n : Nat) (x : BitVec 8192) : (h.setV n x).logseq = h.logseq := rfl
@[simp] theorem Hart.setV_tile (h : Hart) (n : Nat) (x : BitVec 8192) : (h.setV n x).tile = h.tile := rfl
@[simp] theorem Hart.setV_arrived (h : Hart) (n : Nat) (x : BitVec 8192) : (h.setV n x).arrived = h.arrived := rfl
@[simp] theorem Hart.setV_yreq (h : Hart) (n : Nat) (x : BitVec 8192) : (h.setV n x).yreq = h.yreq := rfl
@[simp] theorem Hart.setV_yreqAt (h : Hart) (n : Nat) (x : BitVec 8192) : (h.setV n x).yreqAt = h.yreqAt := rfl
@[simp] theorem Hart.setV_nonyielded (h : Hart) (n : Nat) (x : BitVec 8192) : (h.setV n x).nonyielded = h.nonyielded := rfl
@[simp] theorem Hart.setV_run (h : Hart) (n : Nat) (x : BitVec 8192) : (h.setV n x).run = h.run := rfl
@[simp] theorem Hart.setV_children (h : Hart) (n : Nat) (x : BitVec 8192) : (h.setV n x).children = h.children := rfl
@[simp] theorem Hart.setV_parent (h : Hart) (n : Nat) (x : BitVec 8192) : (h.setV n x).parent = h.parent := rfl
@[simp] theorem Hart.setV_ended (h : Hart) (n : Nat) (x : BitVec 8192) : (h.setV n x).ended = h.ended := rfl
@[simp] theorem Hart.setV_lastAcq (h : Hart) (n : Nat) (x : BitVec 8192) : (h.setV n x).lastAcq = h.lastAcq := rfl
@[simp] theorem Hart.setV_views (h : Hart) (n : Nat) (x : BitVec 8192) : (h.setV n x).views = h.views := rfl
@[simp] theorem Hart.setV_rels (h : Hart) (n : Nat) (x : BitVec 8192) : (h.setV n x).rels = h.rels := rfl
@[simp] theorem Hart.setV_relStage (h : Hart) (n : Nat) (x : BitVec 8192) : (h.setV n x).relStage = h.relStage := rfl
@[simp] theorem Hart.setV_relCut (h : Hart) (n : Nat) (x : BitVec 8192) : (h.setV n x).relCut = h.relCut := rfl
@[simp] theorem Hart.setV_sbuf (h : Hart) (n : Nat) (x : BitVec 8192) : (h.setV n x).sbuf = h.sbuf := rfl
@[simp] theorem Hart.setV_stores (h : Hart) (n : Nat) (x : BitVec 8192) : (h.setV n x).stores = h.stores := rfl
@[simp] theorem Hart.setV_fmarks (h : Hart) (n : Nat) (x : BitVec 8192) : (h.setV n x).fmarks = h.fmarks := rfl
@[simp] theorem Hart.setV_trapOp (h : Hart) (n : Nat) (x : BitVec 8192) : (h.setV n x).trapOp = h.trapOp := rfl
@[simp] theorem Hart.setV_pend (h : Hart) (n : Nat) (x : BitVec 8192) : (h.setV n x).pend = h.pend := rfl
@[simp] theorem Hart.setV_kin (h : Hart) (n : Nat) (x : BitVec 8192) : (h.setV n x).kin = h.kin := rfl
@[simp] theorem Hart.setV_sticky (h : Hart) (n : Nat) (x : BitVec 8192) : (h.setV n x).sticky = h.sticky := rfl
@[simp] theorem Hart.setV_popSince (h : Hart) (n : Nat) (x : BitVec 8192) : (h.setV n x).popSince = h.popSince := rfl
@[simp] theorem Hart.setV_diverged (h : Hart) (n : Nat) (x : BitVec 8192) : (h.setV n x).diverged = h.diverged := rfl
@[simp] theorem Hart.setVp_live (h : Hart) (n : Nat) (x : BitVec 1024) : (h.setVp n x).live = h.live := rfl
@[simp] theorem Hart.setVp_id (h : Hart) (n : Nat) (x : BitVec 1024) : (h.setVp n x).id = h.id := rfl
@[simp] theorem Hart.setVp_launch (h : Hart) (n : Nat) (x : BitVec 1024) : (h.setVp n x).launch = h.launch := rfl
@[simp] theorem Hart.setVp_stage (h : Hart) (n : Nat) (x : BitVec 1024) : (h.setVp n x).stage = h.stage := rfl
@[simp] theorem Hart.setVp_index (h : Hart) (n : Nat) (x : BitVec 1024) : (h.setVp n x).index = h.index := rfl
@[simp] theorem Hart.setVp_offset (h : Hart) (n : Nat) (x : BitVec 1024) : (h.setVp n x).offset = h.offset := rfl
@[simp] theorem Hart.setVp_nharts (h : Hart) (n : Nat) (x : BitVec 1024) : (h.setVp n x).nharts = h.nharts := rfl
@[simp] theorem Hart.setVp_lgown (h : Hart) (n : Nat) (x : BitVec 1024) : (h.setVp n x).lgown = h.lgown := rfl
@[simp] theorem Hart.setVp_grp (h : Hart) (n : Nat) (x : BitVec 1024) : (h.setVp n x).grp = h.grp := rfl
@[simp] theorem Hart.setVp_s (h : Hart) (n : Nat) (x : BitVec 1024) : (h.setVp n x).s = h.s := rfl
@[simp] theorem Hart.setVp_sp (h : Hart) (n : Nat) (x : BitVec 1024) : (h.setVp n x).sp = h.sp := rfl
@[simp] theorem Hart.setVp_v (h : Hart) (n : Nat) (x : BitVec 1024) : (h.setVp n x).v = h.v := rfl
@[simp] theorem Hart.setVp_k (h : Hart) (n : Nat) (x : BitVec 1024) : (h.setVp n x).k = h.k := rfl
@[simp] theorem Hart.setVp_cnt (h : Hart) (n : Nat) (x : BitVec 1024) : (h.setVp n x).cnt = h.cnt := rfl
@[simp] theorem Hart.setVp_pc (h : Hart) (n : Nat) (x : BitVec 1024) : (h.setVp n x).pc = h.pc := rfl
@[simp] theorem Hart.setVp_vstart (h : Hart) (n : Nat) (x : BitVec 1024) : (h.setVp n x).vstart = h.vstart := rfl
@[simp] theorem Hart.setVp_rpos (h : Hart) (n : Nat) (x : BitVec 1024) : (h.setVp n x).rpos = h.rpos := rfl
@[simp] theorem Hart.setVp_vl (h : Hart) (n : Nat) (x : BitVec 1024) : (h.setVp n x).vl = h.vl := rfl
@[simp] theorem Hart.setVp_et (h : Hart) (n : Nat) (x : BitVec 1024) : (h.setVp n x).et = h.et := rfl
@[simp] theorem Hart.setVp_frm (h : Hart) (n : Nat) (x : BitVec 1024) : (h.setVp n x).frm = h.frm := rfl
@[simp] theorem Hart.setVp_fflags (h : Hart) (n : Nat) (x : BitVec 1024) : (h.setVp n x).fflags = h.fflags := rfl
@[simp] theorem Hart.setVp_spdesc (h : Hart) (n : Nat) (x : BitVec 1024) : (h.setVp n x).spdesc = h.spdesc := rfl
@[simp] theorem Hart.setVp_queue (h : Hart) (n : Nat) (x : BitVec 1024) : (h.setVp n x).queue = h.queue := rfl
@[simp] theorem Hart.setVp_sets (h : Hart) (n : Nat) (x : BitVec 1024) : (h.setVp n x).sets = h.sets := rfl
@[simp] theorem Hart.setVp_kept (h : Hart) (n : Nat) (x : BitVec 1024) : (h.setVp n x).kept = h.kept := rfl
@[simp] theorem Hart.setVp_keptSets (h : Hart) (n : Nat) (x : BitVec 1024) : (h.setVp n x).keptSets = h.keptSets := rfl
@[simp] theorem Hart.setVp_keptMarks (h : Hart) (n : Nat) (x : BitVec 1024) : (h.setVp n x).keptMarks = h.keptMarks := rfl
@[simp] theorem Hart.setVp_frozen (h : Hart) (n : Nat) (x : BitVec 1024) : (h.setVp n x).frozen = h.frozen := rfl
@[simp] theorem Hart.setVp_trapcause (h : Hart) (n : Nat) (x : BitVec 1024) : (h.setVp n x).trapcause = h.trapcause := rfl
@[simp] theorem Hart.setVp_trappc (h : Hart) (n : Nat) (x : BitVec 1024) : (h.setVp n x).trappc = h.trappc := rfl
@[simp] theorem Hart.setVp_trapval (h : Hart) (n : Nat) (x : BitVec 1024) : (h.setVp n x).trapval = h.trapval := rfl
@[simp] theorem Hart.setVp_mstat (h : Hart) (n : Nat) (x : BitVec 1024) : (h.setVp n x).mstat = h.mstat := rfl
@[simp] theorem Hart.setVp_mtol (h : Hart) (n : Nat) (x : BitVec 1024) : (h.setVp n x).mtol = h.mtol := rfl
@[simp] theorem Hart.setVp_algstat (h : Hart) (n : Nat) (x : BitVec 1024) : (h.setVp n x).algstat = h.algstat := rfl
@[simp] theorem Hart.setVp_digest (h : Hart) (n : Nat) (x : BitVec 1024) : (h.setVp n x).digest = h.digest := rfl
@[simp] theorem Hart.setVp_logseq (h : Hart) (n : Nat) (x : BitVec 1024) : (h.setVp n x).logseq = h.logseq := rfl
@[simp] theorem Hart.setVp_tile (h : Hart) (n : Nat) (x : BitVec 1024) : (h.setVp n x).tile = h.tile := rfl
@[simp] theorem Hart.setVp_arrived (h : Hart) (n : Nat) (x : BitVec 1024) : (h.setVp n x).arrived = h.arrived := rfl
@[simp] theorem Hart.setVp_yreq (h : Hart) (n : Nat) (x : BitVec 1024) : (h.setVp n x).yreq = h.yreq := rfl
@[simp] theorem Hart.setVp_yreqAt (h : Hart) (n : Nat) (x : BitVec 1024) : (h.setVp n x).yreqAt = h.yreqAt := rfl
@[simp] theorem Hart.setVp_nonyielded (h : Hart) (n : Nat) (x : BitVec 1024) : (h.setVp n x).nonyielded = h.nonyielded := rfl
@[simp] theorem Hart.setVp_run (h : Hart) (n : Nat) (x : BitVec 1024) : (h.setVp n x).run = h.run := rfl
@[simp] theorem Hart.setVp_children (h : Hart) (n : Nat) (x : BitVec 1024) : (h.setVp n x).children = h.children := rfl
@[simp] theorem Hart.setVp_parent (h : Hart) (n : Nat) (x : BitVec 1024) : (h.setVp n x).parent = h.parent := rfl
@[simp] theorem Hart.setVp_ended (h : Hart) (n : Nat) (x : BitVec 1024) : (h.setVp n x).ended = h.ended := rfl
@[simp] theorem Hart.setVp_lastAcq (h : Hart) (n : Nat) (x : BitVec 1024) : (h.setVp n x).lastAcq = h.lastAcq := rfl
@[simp] theorem Hart.setVp_views (h : Hart) (n : Nat) (x : BitVec 1024) : (h.setVp n x).views = h.views := rfl
@[simp] theorem Hart.setVp_rels (h : Hart) (n : Nat) (x : BitVec 1024) : (h.setVp n x).rels = h.rels := rfl
@[simp] theorem Hart.setVp_relStage (h : Hart) (n : Nat) (x : BitVec 1024) : (h.setVp n x).relStage = h.relStage := rfl
@[simp] theorem Hart.setVp_relCut (h : Hart) (n : Nat) (x : BitVec 1024) : (h.setVp n x).relCut = h.relCut := rfl
@[simp] theorem Hart.setVp_sbuf (h : Hart) (n : Nat) (x : BitVec 1024) : (h.setVp n x).sbuf = h.sbuf := rfl
@[simp] theorem Hart.setVp_stores (h : Hart) (n : Nat) (x : BitVec 1024) : (h.setVp n x).stores = h.stores := rfl
@[simp] theorem Hart.setVp_fmarks (h : Hart) (n : Nat) (x : BitVec 1024) : (h.setVp n x).fmarks = h.fmarks := rfl
@[simp] theorem Hart.setVp_trapOp (h : Hart) (n : Nat) (x : BitVec 1024) : (h.setVp n x).trapOp = h.trapOp := rfl
@[simp] theorem Hart.setVp_pend (h : Hart) (n : Nat) (x : BitVec 1024) : (h.setVp n x).pend = h.pend := rfl
@[simp] theorem Hart.setVp_kin (h : Hart) (n : Nat) (x : BitVec 1024) : (h.setVp n x).kin = h.kin := rfl
@[simp] theorem Hart.setVp_sticky (h : Hart) (n : Nat) (x : BitVec 1024) : (h.setVp n x).sticky = h.sticky := rfl
@[simp] theorem Hart.setVp_popSince (h : Hart) (n : Nat) (x : BitVec 1024) : (h.setVp n x).popSince = h.popSince := rfl
@[simp] theorem Hart.setVp_diverged (h : Hart) (n : Nat) (x : BitVec 1024) : (h.setVp n x).diverged = h.diverged := rfl
@[simp] theorem Hart.setK_live (h : Hart) (n : Nat) (x : BitVec 1024) : (h.setK n x).live = h.live := rfl
@[simp] theorem Hart.setK_id (h : Hart) (n : Nat) (x : BitVec 1024) : (h.setK n x).id = h.id := rfl
@[simp] theorem Hart.setK_launch (h : Hart) (n : Nat) (x : BitVec 1024) : (h.setK n x).launch = h.launch := rfl
@[simp] theorem Hart.setK_stage (h : Hart) (n : Nat) (x : BitVec 1024) : (h.setK n x).stage = h.stage := rfl
@[simp] theorem Hart.setK_index (h : Hart) (n : Nat) (x : BitVec 1024) : (h.setK n x).index = h.index := rfl
@[simp] theorem Hart.setK_offset (h : Hart) (n : Nat) (x : BitVec 1024) : (h.setK n x).offset = h.offset := rfl
@[simp] theorem Hart.setK_nharts (h : Hart) (n : Nat) (x : BitVec 1024) : (h.setK n x).nharts = h.nharts := rfl
@[simp] theorem Hart.setK_lgown (h : Hart) (n : Nat) (x : BitVec 1024) : (h.setK n x).lgown = h.lgown := rfl
@[simp] theorem Hart.setK_grp (h : Hart) (n : Nat) (x : BitVec 1024) : (h.setK n x).grp = h.grp := rfl
@[simp] theorem Hart.setK_s (h : Hart) (n : Nat) (x : BitVec 1024) : (h.setK n x).s = h.s := rfl
@[simp] theorem Hart.setK_sp (h : Hart) (n : Nat) (x : BitVec 1024) : (h.setK n x).sp = h.sp := rfl
@[simp] theorem Hart.setK_v (h : Hart) (n : Nat) (x : BitVec 1024) : (h.setK n x).v = h.v := rfl
@[simp] theorem Hart.setK_vp (h : Hart) (n : Nat) (x : BitVec 1024) : (h.setK n x).vp = h.vp := rfl
@[simp] theorem Hart.setK_cnt (h : Hart) (n : Nat) (x : BitVec 1024) : (h.setK n x).cnt = h.cnt := rfl
@[simp] theorem Hart.setK_pc (h : Hart) (n : Nat) (x : BitVec 1024) : (h.setK n x).pc = h.pc := rfl
@[simp] theorem Hart.setK_vstart (h : Hart) (n : Nat) (x : BitVec 1024) : (h.setK n x).vstart = h.vstart := rfl
@[simp] theorem Hart.setK_rpos (h : Hart) (n : Nat) (x : BitVec 1024) : (h.setK n x).rpos = h.rpos := rfl
@[simp] theorem Hart.setK_vl (h : Hart) (n : Nat) (x : BitVec 1024) : (h.setK n x).vl = h.vl := rfl
@[simp] theorem Hart.setK_et (h : Hart) (n : Nat) (x : BitVec 1024) : (h.setK n x).et = h.et := rfl
@[simp] theorem Hart.setK_frm (h : Hart) (n : Nat) (x : BitVec 1024) : (h.setK n x).frm = h.frm := rfl
@[simp] theorem Hart.setK_fflags (h : Hart) (n : Nat) (x : BitVec 1024) : (h.setK n x).fflags = h.fflags := rfl
@[simp] theorem Hart.setK_spdesc (h : Hart) (n : Nat) (x : BitVec 1024) : (h.setK n x).spdesc = h.spdesc := rfl
@[simp] theorem Hart.setK_queue (h : Hart) (n : Nat) (x : BitVec 1024) : (h.setK n x).queue = h.queue := rfl
@[simp] theorem Hart.setK_sets (h : Hart) (n : Nat) (x : BitVec 1024) : (h.setK n x).sets = h.sets := rfl
@[simp] theorem Hart.setK_kept (h : Hart) (n : Nat) (x : BitVec 1024) : (h.setK n x).kept = h.kept := rfl
@[simp] theorem Hart.setK_keptSets (h : Hart) (n : Nat) (x : BitVec 1024) : (h.setK n x).keptSets = h.keptSets := rfl
@[simp] theorem Hart.setK_keptMarks (h : Hart) (n : Nat) (x : BitVec 1024) : (h.setK n x).keptMarks = h.keptMarks := rfl
@[simp] theorem Hart.setK_frozen (h : Hart) (n : Nat) (x : BitVec 1024) : (h.setK n x).frozen = h.frozen := rfl
@[simp] theorem Hart.setK_trapcause (h : Hart) (n : Nat) (x : BitVec 1024) : (h.setK n x).trapcause = h.trapcause := rfl
@[simp] theorem Hart.setK_trappc (h : Hart) (n : Nat) (x : BitVec 1024) : (h.setK n x).trappc = h.trappc := rfl
@[simp] theorem Hart.setK_trapval (h : Hart) (n : Nat) (x : BitVec 1024) : (h.setK n x).trapval = h.trapval := rfl
@[simp] theorem Hart.setK_mstat (h : Hart) (n : Nat) (x : BitVec 1024) : (h.setK n x).mstat = h.mstat := rfl
@[simp] theorem Hart.setK_mtol (h : Hart) (n : Nat) (x : BitVec 1024) : (h.setK n x).mtol = h.mtol := rfl
@[simp] theorem Hart.setK_algstat (h : Hart) (n : Nat) (x : BitVec 1024) : (h.setK n x).algstat = h.algstat := rfl
@[simp] theorem Hart.setK_digest (h : Hart) (n : Nat) (x : BitVec 1024) : (h.setK n x).digest = h.digest := rfl
@[simp] theorem Hart.setK_logseq (h : Hart) (n : Nat) (x : BitVec 1024) : (h.setK n x).logseq = h.logseq := rfl
@[simp] theorem Hart.setK_tile (h : Hart) (n : Nat) (x : BitVec 1024) : (h.setK n x).tile = h.tile := rfl
@[simp] theorem Hart.setK_arrived (h : Hart) (n : Nat) (x : BitVec 1024) : (h.setK n x).arrived = h.arrived := rfl
@[simp] theorem Hart.setK_yreq (h : Hart) (n : Nat) (x : BitVec 1024) : (h.setK n x).yreq = h.yreq := rfl
@[simp] theorem Hart.setK_yreqAt (h : Hart) (n : Nat) (x : BitVec 1024) : (h.setK n x).yreqAt = h.yreqAt := rfl
@[simp] theorem Hart.setK_nonyielded (h : Hart) (n : Nat) (x : BitVec 1024) : (h.setK n x).nonyielded = h.nonyielded := rfl
@[simp] theorem Hart.setK_run (h : Hart) (n : Nat) (x : BitVec 1024) : (h.setK n x).run = h.run := rfl
@[simp] theorem Hart.setK_children (h : Hart) (n : Nat) (x : BitVec 1024) : (h.setK n x).children = h.children := rfl
@[simp] theorem Hart.setK_parent (h : Hart) (n : Nat) (x : BitVec 1024) : (h.setK n x).parent = h.parent := rfl
@[simp] theorem Hart.setK_ended (h : Hart) (n : Nat) (x : BitVec 1024) : (h.setK n x).ended = h.ended := rfl
@[simp] theorem Hart.setK_lastAcq (h : Hart) (n : Nat) (x : BitVec 1024) : (h.setK n x).lastAcq = h.lastAcq := rfl
@[simp] theorem Hart.setK_views (h : Hart) (n : Nat) (x : BitVec 1024) : (h.setK n x).views = h.views := rfl
@[simp] theorem Hart.setK_rels (h : Hart) (n : Nat) (x : BitVec 1024) : (h.setK n x).rels = h.rels := rfl
@[simp] theorem Hart.setK_relStage (h : Hart) (n : Nat) (x : BitVec 1024) : (h.setK n x).relStage = h.relStage := rfl
@[simp] theorem Hart.setK_relCut (h : Hart) (n : Nat) (x : BitVec 1024) : (h.setK n x).relCut = h.relCut := rfl
@[simp] theorem Hart.setK_sbuf (h : Hart) (n : Nat) (x : BitVec 1024) : (h.setK n x).sbuf = h.sbuf := rfl
@[simp] theorem Hart.setK_stores (h : Hart) (n : Nat) (x : BitVec 1024) : (h.setK n x).stores = h.stores := rfl
@[simp] theorem Hart.setK_fmarks (h : Hart) (n : Nat) (x : BitVec 1024) : (h.setK n x).fmarks = h.fmarks := rfl
@[simp] theorem Hart.setK_trapOp (h : Hart) (n : Nat) (x : BitVec 1024) : (h.setK n x).trapOp = h.trapOp := rfl
@[simp] theorem Hart.setK_pend (h : Hart) (n : Nat) (x : BitVec 1024) : (h.setK n x).pend = h.pend := rfl
@[simp] theorem Hart.setK_kin (h : Hart) (n : Nat) (x : BitVec 1024) : (h.setK n x).kin = h.kin := rfl
@[simp] theorem Hart.setK_sticky (h : Hart) (n : Nat) (x : BitVec 1024) : (h.setK n x).sticky = h.sticky := rfl
@[simp] theorem Hart.setK_popSince (h : Hart) (n : Nat) (x : BitVec 1024) : (h.setK n x).popSince = h.popSince := rfl
@[simp] theorem Hart.setK_diverged (h : Hart) (n : Nat) (x : BitVec 1024) : (h.setK n x).diverged = h.diverged := rfl
@[simp] theorem Hart.setCounter_live (h : Hart) (n x : Nat) : (h.setCounter n x).live = h.live := rfl
@[simp] theorem Hart.setCounter_id (h : Hart) (n x : Nat) : (h.setCounter n x).id = h.id := rfl
@[simp] theorem Hart.setCounter_launch (h : Hart) (n x : Nat) : (h.setCounter n x).launch = h.launch := rfl
@[simp] theorem Hart.setCounter_stage (h : Hart) (n x : Nat) : (h.setCounter n x).stage = h.stage := rfl
@[simp] theorem Hart.setCounter_index (h : Hart) (n x : Nat) : (h.setCounter n x).index = h.index := rfl
@[simp] theorem Hart.setCounter_offset (h : Hart) (n x : Nat) : (h.setCounter n x).offset = h.offset := rfl
@[simp] theorem Hart.setCounter_nharts (h : Hart) (n x : Nat) : (h.setCounter n x).nharts = h.nharts := rfl
@[simp] theorem Hart.setCounter_lgown (h : Hart) (n x : Nat) : (h.setCounter n x).lgown = h.lgown := rfl
@[simp] theorem Hart.setCounter_grp (h : Hart) (n x : Nat) : (h.setCounter n x).grp = h.grp := rfl
@[simp] theorem Hart.setCounter_s (h : Hart) (n x : Nat) : (h.setCounter n x).s = h.s := rfl
@[simp] theorem Hart.setCounter_sp (h : Hart) (n x : Nat) : (h.setCounter n x).sp = h.sp := rfl
@[simp] theorem Hart.setCounter_v (h : Hart) (n x : Nat) : (h.setCounter n x).v = h.v := rfl
@[simp] theorem Hart.setCounter_vp (h : Hart) (n x : Nat) : (h.setCounter n x).vp = h.vp := rfl
@[simp] theorem Hart.setCounter_k (h : Hart) (n x : Nat) : (h.setCounter n x).k = h.k := rfl
@[simp] theorem Hart.setCounter_pc (h : Hart) (n x : Nat) : (h.setCounter n x).pc = h.pc := rfl
@[simp] theorem Hart.setCounter_vstart (h : Hart) (n x : Nat) : (h.setCounter n x).vstart = h.vstart := rfl
@[simp] theorem Hart.setCounter_rpos (h : Hart) (n x : Nat) : (h.setCounter n x).rpos = h.rpos := rfl
@[simp] theorem Hart.setCounter_vl (h : Hart) (n x : Nat) : (h.setCounter n x).vl = h.vl := rfl
@[simp] theorem Hart.setCounter_et (h : Hart) (n x : Nat) : (h.setCounter n x).et = h.et := rfl
@[simp] theorem Hart.setCounter_frm (h : Hart) (n x : Nat) : (h.setCounter n x).frm = h.frm := rfl
@[simp] theorem Hart.setCounter_fflags (h : Hart) (n x : Nat) : (h.setCounter n x).fflags = h.fflags := rfl
@[simp] theorem Hart.setCounter_spdesc (h : Hart) (n x : Nat) : (h.setCounter n x).spdesc = h.spdesc := rfl
@[simp] theorem Hart.setCounter_queue (h : Hart) (n x : Nat) : (h.setCounter n x).queue = h.queue := rfl
@[simp] theorem Hart.setCounter_sets (h : Hart) (n x : Nat) : (h.setCounter n x).sets = h.sets := rfl
@[simp] theorem Hart.setCounter_kept (h : Hart) (n x : Nat) : (h.setCounter n x).kept = h.kept := rfl
@[simp] theorem Hart.setCounter_keptSets (h : Hart) (n x : Nat) : (h.setCounter n x).keptSets = h.keptSets := rfl
@[simp] theorem Hart.setCounter_keptMarks (h : Hart) (n x : Nat) : (h.setCounter n x).keptMarks = h.keptMarks := rfl
@[simp] theorem Hart.setCounter_frozen (h : Hart) (n x : Nat) : (h.setCounter n x).frozen = h.frozen := rfl
@[simp] theorem Hart.setCounter_trapcause (h : Hart) (n x : Nat) : (h.setCounter n x).trapcause = h.trapcause := rfl
@[simp] theorem Hart.setCounter_trappc (h : Hart) (n x : Nat) : (h.setCounter n x).trappc = h.trappc := rfl
@[simp] theorem Hart.setCounter_trapval (h : Hart) (n x : Nat) : (h.setCounter n x).trapval = h.trapval := rfl
@[simp] theorem Hart.setCounter_mstat (h : Hart) (n x : Nat) : (h.setCounter n x).mstat = h.mstat := rfl
@[simp] theorem Hart.setCounter_mtol (h : Hart) (n x : Nat) : (h.setCounter n x).mtol = h.mtol := rfl
@[simp] theorem Hart.setCounter_algstat (h : Hart) (n x : Nat) : (h.setCounter n x).algstat = h.algstat := rfl
@[simp] theorem Hart.setCounter_digest (h : Hart) (n x : Nat) : (h.setCounter n x).digest = h.digest := rfl
@[simp] theorem Hart.setCounter_logseq (h : Hart) (n x : Nat) : (h.setCounter n x).logseq = h.logseq := rfl
@[simp] theorem Hart.setCounter_tile (h : Hart) (n x : Nat) : (h.setCounter n x).tile = h.tile := rfl
@[simp] theorem Hart.setCounter_arrived (h : Hart) (n x : Nat) : (h.setCounter n x).arrived = h.arrived := rfl
@[simp] theorem Hart.setCounter_yreq (h : Hart) (n x : Nat) : (h.setCounter n x).yreq = h.yreq := rfl
@[simp] theorem Hart.setCounter_yreqAt (h : Hart) (n x : Nat) : (h.setCounter n x).yreqAt = h.yreqAt := rfl
@[simp] theorem Hart.setCounter_nonyielded (h : Hart) (n x : Nat) : (h.setCounter n x).nonyielded = h.nonyielded := rfl
@[simp] theorem Hart.setCounter_run (h : Hart) (n x : Nat) : (h.setCounter n x).run = h.run := rfl
@[simp] theorem Hart.setCounter_children (h : Hart) (n x : Nat) : (h.setCounter n x).children = h.children := rfl
@[simp] theorem Hart.setCounter_parent (h : Hart) (n x : Nat) : (h.setCounter n x).parent = h.parent := rfl
@[simp] theorem Hart.setCounter_ended (h : Hart) (n x : Nat) : (h.setCounter n x).ended = h.ended := rfl
@[simp] theorem Hart.setCounter_lastAcq (h : Hart) (n x : Nat) : (h.setCounter n x).lastAcq = h.lastAcq := rfl
@[simp] theorem Hart.setCounter_views (h : Hart) (n x : Nat) : (h.setCounter n x).views = h.views := rfl
@[simp] theorem Hart.setCounter_rels (h : Hart) (n x : Nat) : (h.setCounter n x).rels = h.rels := rfl
@[simp] theorem Hart.setCounter_relStage (h : Hart) (n x : Nat) : (h.setCounter n x).relStage = h.relStage := rfl
@[simp] theorem Hart.setCounter_relCut (h : Hart) (n x : Nat) : (h.setCounter n x).relCut = h.relCut := rfl
@[simp] theorem Hart.setCounter_sbuf (h : Hart) (n x : Nat) : (h.setCounter n x).sbuf = h.sbuf := rfl
@[simp] theorem Hart.setCounter_stores (h : Hart) (n x : Nat) : (h.setCounter n x).stores = h.stores := rfl
@[simp] theorem Hart.setCounter_fmarks (h : Hart) (n x : Nat) : (h.setCounter n x).fmarks = h.fmarks := rfl
@[simp] theorem Hart.setCounter_trapOp (h : Hart) (n x : Nat) : (h.setCounter n x).trapOp = h.trapOp := rfl
@[simp] theorem Hart.setCounter_pend (h : Hart) (n x : Nat) : (h.setCounter n x).pend = h.pend := rfl
@[simp] theorem Hart.setCounter_kin (h : Hart) (n x : Nat) : (h.setCounter n x).kin = h.kin := rfl
@[simp] theorem Hart.setCounter_sticky (h : Hart) (n x : Nat) : (h.setCounter n x).sticky = h.sticky := rfl
@[simp] theorem Hart.setCounter_popSince (h : Hart) (n x : Nat) : (h.setCounter n x).popSince = h.popSince := rfl
@[simp] theorem Hart.setCounter_diverged (h : Hart) (n x : Nat) : (h.setCounter n x).diverged = h.diverged := rfl
@[simp] theorem Hart.orFlags_live (h : Hart) (f : Flags) : (h.orFlags f).live = h.live := rfl
@[simp] theorem Hart.orFlags_id (h : Hart) (f : Flags) : (h.orFlags f).id = h.id := rfl
@[simp] theorem Hart.orFlags_launch (h : Hart) (f : Flags) : (h.orFlags f).launch = h.launch := rfl
@[simp] theorem Hart.orFlags_stage (h : Hart) (f : Flags) : (h.orFlags f).stage = h.stage := rfl
@[simp] theorem Hart.orFlags_index (h : Hart) (f : Flags) : (h.orFlags f).index = h.index := rfl
@[simp] theorem Hart.orFlags_offset (h : Hart) (f : Flags) : (h.orFlags f).offset = h.offset := rfl
@[simp] theorem Hart.orFlags_nharts (h : Hart) (f : Flags) : (h.orFlags f).nharts = h.nharts := rfl
@[simp] theorem Hart.orFlags_lgown (h : Hart) (f : Flags) : (h.orFlags f).lgown = h.lgown := rfl
@[simp] theorem Hart.orFlags_grp (h : Hart) (f : Flags) : (h.orFlags f).grp = h.grp := rfl
@[simp] theorem Hart.orFlags_s (h : Hart) (f : Flags) : (h.orFlags f).s = h.s := rfl
@[simp] theorem Hart.orFlags_sp (h : Hart) (f : Flags) : (h.orFlags f).sp = h.sp := rfl
@[simp] theorem Hart.orFlags_v (h : Hart) (f : Flags) : (h.orFlags f).v = h.v := rfl
@[simp] theorem Hart.orFlags_vp (h : Hart) (f : Flags) : (h.orFlags f).vp = h.vp := rfl
@[simp] theorem Hart.orFlags_k (h : Hart) (f : Flags) : (h.orFlags f).k = h.k := rfl
@[simp] theorem Hart.orFlags_cnt (h : Hart) (f : Flags) : (h.orFlags f).cnt = h.cnt := rfl
@[simp] theorem Hart.orFlags_pc (h : Hart) (f : Flags) : (h.orFlags f).pc = h.pc := rfl
@[simp] theorem Hart.orFlags_vstart (h : Hart) (f : Flags) : (h.orFlags f).vstart = h.vstart := rfl
@[simp] theorem Hart.orFlags_rpos (h : Hart) (f : Flags) : (h.orFlags f).rpos = h.rpos := rfl
@[simp] theorem Hart.orFlags_vl (h : Hart) (f : Flags) : (h.orFlags f).vl = h.vl := rfl
@[simp] theorem Hart.orFlags_et (h : Hart) (f : Flags) : (h.orFlags f).et = h.et := rfl
@[simp] theorem Hart.orFlags_frm (h : Hart) (f : Flags) : (h.orFlags f).frm = h.frm := rfl
@[simp] theorem Hart.orFlags_spdesc (h : Hart) (f : Flags) : (h.orFlags f).spdesc = h.spdesc := rfl
@[simp] theorem Hart.orFlags_queue (h : Hart) (f : Flags) : (h.orFlags f).queue = h.queue := rfl
@[simp] theorem Hart.orFlags_sets (h : Hart) (f : Flags) : (h.orFlags f).sets = h.sets := rfl
@[simp] theorem Hart.orFlags_kept (h : Hart) (f : Flags) : (h.orFlags f).kept = h.kept := rfl
@[simp] theorem Hart.orFlags_keptSets (h : Hart) (f : Flags) : (h.orFlags f).keptSets = h.keptSets := rfl
@[simp] theorem Hart.orFlags_keptMarks (h : Hart) (f : Flags) : (h.orFlags f).keptMarks = h.keptMarks := rfl
@[simp] theorem Hart.orFlags_frozen (h : Hart) (f : Flags) : (h.orFlags f).frozen = h.frozen := rfl
@[simp] theorem Hart.orFlags_trapcause (h : Hart) (f : Flags) : (h.orFlags f).trapcause = h.trapcause := rfl
@[simp] theorem Hart.orFlags_trappc (h : Hart) (f : Flags) : (h.orFlags f).trappc = h.trappc := rfl
@[simp] theorem Hart.orFlags_trapval (h : Hart) (f : Flags) : (h.orFlags f).trapval = h.trapval := rfl
@[simp] theorem Hart.orFlags_mstat (h : Hart) (f : Flags) : (h.orFlags f).mstat = h.mstat := rfl
@[simp] theorem Hart.orFlags_mtol (h : Hart) (f : Flags) : (h.orFlags f).mtol = h.mtol := rfl
@[simp] theorem Hart.orFlags_algstat (h : Hart) (f : Flags) : (h.orFlags f).algstat = h.algstat := rfl
@[simp] theorem Hart.orFlags_digest (h : Hart) (f : Flags) : (h.orFlags f).digest = h.digest := rfl
@[simp] theorem Hart.orFlags_logseq (h : Hart) (f : Flags) : (h.orFlags f).logseq = h.logseq := rfl
@[simp] theorem Hart.orFlags_tile (h : Hart) (f : Flags) : (h.orFlags f).tile = h.tile := rfl
@[simp] theorem Hart.orFlags_arrived (h : Hart) (f : Flags) : (h.orFlags f).arrived = h.arrived := rfl
@[simp] theorem Hart.orFlags_yreq (h : Hart) (f : Flags) : (h.orFlags f).yreq = h.yreq := rfl
@[simp] theorem Hart.orFlags_yreqAt (h : Hart) (f : Flags) : (h.orFlags f).yreqAt = h.yreqAt := rfl
@[simp] theorem Hart.orFlags_nonyielded (h : Hart) (f : Flags) : (h.orFlags f).nonyielded = h.nonyielded := rfl
@[simp] theorem Hart.orFlags_run (h : Hart) (f : Flags) : (h.orFlags f).run = h.run := rfl
@[simp] theorem Hart.orFlags_children (h : Hart) (f : Flags) : (h.orFlags f).children = h.children := rfl
@[simp] theorem Hart.orFlags_parent (h : Hart) (f : Flags) : (h.orFlags f).parent = h.parent := rfl
@[simp] theorem Hart.orFlags_ended (h : Hart) (f : Flags) : (h.orFlags f).ended = h.ended := rfl
@[simp] theorem Hart.orFlags_lastAcq (h : Hart) (f : Flags) : (h.orFlags f).lastAcq = h.lastAcq := rfl
@[simp] theorem Hart.orFlags_views (h : Hart) (f : Flags) : (h.orFlags f).views = h.views := rfl
@[simp] theorem Hart.orFlags_rels (h : Hart) (f : Flags) : (h.orFlags f).rels = h.rels := rfl
@[simp] theorem Hart.orFlags_relStage (h : Hart) (f : Flags) : (h.orFlags f).relStage = h.relStage := rfl
@[simp] theorem Hart.orFlags_relCut (h : Hart) (f : Flags) : (h.orFlags f).relCut = h.relCut := rfl
@[simp] theorem Hart.orFlags_sbuf (h : Hart) (f : Flags) : (h.orFlags f).sbuf = h.sbuf := rfl
@[simp] theorem Hart.orFlags_stores (h : Hart) (f : Flags) : (h.orFlags f).stores = h.stores := rfl
@[simp] theorem Hart.orFlags_fmarks (h : Hart) (f : Flags) : (h.orFlags f).fmarks = h.fmarks := rfl
@[simp] theorem Hart.orFlags_trapOp (h : Hart) (f : Flags) : (h.orFlags f).trapOp = h.trapOp := rfl
@[simp] theorem Hart.orFlags_pend (h : Hart) (f : Flags) : (h.orFlags f).pend = h.pend := rfl
@[simp] theorem Hart.orFlags_kin (h : Hart) (f : Flags) : (h.orFlags f).kin = h.kin := rfl
@[simp] theorem Hart.orFlags_sticky (h : Hart) (f : Flags) : (h.orFlags f).sticky = h.sticky := rfl
@[simp] theorem Hart.orFlags_popSince (h : Hart) (f : Flags) : (h.orFlags f).popSince = h.popSince := rfl
@[simp] theorem Hart.orFlags_diverged (h : Hart) (f : Flags) : (h.orFlags f).diverged = h.diverged := rfl
@[simp] theorem Hart.orFlags_fflags (h : Hart) (f : Flags) : (h.orFlags f).fflags = h.fflags ||| f := rfl

/-- s0 reads as zero (R50). -/
@[simp] theorem Hart.rs_zero (h : Hart) : h.rs 0 = 0 := rfl
/-- Reading after writing a scalar register; what is written to s0 is discarded (R50). -/
theorem Hart.setS_rs (h : Hart) (d r : BitVec 6) (x : Word) : (h.setS d x).rs r = if r = d ∧ r ≠ 0 then x else h.rs r := by
  unfold Hart.rs Hart.setS
  by_cases hr : r = 0
  · simp [hr]
  · rw [if_neg hr]
    by_cases hd : d = 0
    · rw [if_pos hd, if_neg hr, if_neg (fun e => hr (e.1.trans hd))]
    · rw [if_neg hd, if_neg hr]
      by_cases he : r = d
      · subst he; rw [if_pos ⟨rfl, hr⟩]; simp
      · have : d.toNat ≠ r.toNat := fun e => he (BitVec.eq_of_toNat_eq e.symm)
        simp [he, this]
theorem State.result_rs (s : State) (d r : BitVec 6) (x : Word) :
    (s.result d x).rs r = if r = d ∧ r ≠ 0 then x else s.rs r := Hart.setS_rs s.hart d r x
@[simp] theorem State.result_pc (s : State) (d : BitVec 6) (x : Word) : (s.result d x).hart.pc = s.hart.pc + 4 := by
  simp [State.result, State.advance, State.goto]
/-- A written scalar register is clean, and no other changes its poison (R257). -/
theorem Hart.setS_spBad (h : Hart) (d r : BitVec 6) (x : Word) : (h.setS d x).spBad r = (r != d && h.spBad r) := by
  unfold Hart.spBad Hart.setS
  by_cases hr : r = 0
  · simp [hr]
  · by_cases hd : d = 0
    · rw [if_pos hd]
      have : r ≠ d := fun e => hr (e.trans hd)
      simp [this]
    · rw [if_neg hd]
      have e : (r.toNat = d.toNat) = (r = d) := propext ⟨fun e => BitVec.eq_of_toNat_eq e, fun e => by rw [e]⟩
      by_cases he : r = d
      · subst he
        simp [r.isLt]
      · have h1 : r.toNat ≠ d.toNat := fun x => he (e ▸ x)
        have h3 : (decide (r.toNat < d.toNat) || !decide (r.toNat - d.toNat = 0)) = true := by
          simp only [Bool.or_eq_true, Bool.not_eq_true', decide_eq_true_eq, decide_eq_false_iff_not]; omega
        have h4 : (r != d) = true := by simp [he]
        rw [h4]
        have h5 : r.toNat < 64 := r.isLt
        simp [h5, -Bool.or_eq_true]
        rw [h3, Bool.and_true]
/-- Writing a scalar register and going on changes the register file and the PC alone. -/
theorem State.result_eq (s : State) (d : BitVec 6) (x : Word) :
    s.result d x = s.withHart { s.hart with
      s := (s.result d x).hart.s, sp := (s.result d x).hart.sp, pc := s.hart.pc + 4 } := by
  unfold State.result State.setS Hart.setS
  split <;> rfl

end Sys2Proof.Machine
end

