-- ==== Sys2Proof/Laws/Run.lean ====
section
/-! SUPPORT. Running an effect on a state: each primitive once, alone and before a continuation. -/

namespace Sys2Proof.Machine

variable {α β : Type}

theorem M.bind_ok {m : M α} {f : α → M β} {s s' : State} {a : α} (h : m s = .ok a s') : (m >>= f) s = f a s' := by
  show EStateM.bind m f s = _
  simp [EStateM.bind, h]
theorem M.bind_error {m : M α} {f : α → M β} {s s' : State} {e : Stop} (h : m s = .error e s') :
    (m >>= f) s = .error e s' := by
  show EStateM.bind m f s = _
  simp [EStateM.bind, h]
@[simp] theorem M.pure_run (a : α) (s : State) : (pure a : M α) s = .ok a s := rfl
@[simp] theorem M.pure_bind_run (a : α) (f : α → M β) (s : State) : ((pure a : M α) >>= f) s = f a s := rfl
@[simp] theorem M.get_run (s : State) : (get : M State) s = .ok s s := rfl
@[simp] theorem M.get_bind (f : State → M β) (s : State) : ((get : M State) >>= f) s = f s s := rfl
@[simp] theorem M.set_run (t s : State) : (set t : M PUnit) s = .ok ⟨⟩ t := rfl
@[simp] theorem M.set_bind (t : State) (f : PUnit → M β) (s : State) : ((set t : M PUnit) >>= f) s = f ⟨⟩ t := rfl
@[simp] theorem M.modify_run (g : State → State) (s : State) : (modify g : M PUnit) s = .ok ⟨⟩ (g s) := rfl
@[simp] theorem M.modify_bind (g : State → State) (f : PUnit → M β) (s : State) :
    ((modify g : M PUnit) >>= f) s = f ⟨⟩ (g s) := rfl
@[simp] theorem M.throw_run (e : Stop) (s : State) : (throw e : M α) s = .error e s := rfl
@[simp] theorem M.throw_bind (e : Stop) (f : α → M β) (s : State) : ((throw e : M α) >>= f) s = .error e s := rfl
@[simp] theorem M.hart_run (s : State) : hart s = .ok s.hart s := rfl
@[simp] theorem M.hart_bind (f : Hart → M β) (s : State) : (hart >>= f) s = f s.hart s := rfl
@[simp] theorem M.hartNo_bind (h : Nat) (f : Hart → M β) (s : State) : (hartNo h >>= f) s = f (s.hartOf h) s := rfl
@[simp] theorem M.ctxM_bind (h : Nat) (f : Nat × Ctx → M β) (s : State) :
    (ctxM h >>= f) s = f (ctxOf s (s.hartOf h), s.ctx (ctxOf s (s.hartOf h))) s := rfl
@[simp] theorem M.setHartM_run (h : Hart) (s : State) : setHartM h s = .ok () (s.withHart h) := rfl
@[simp] theorem M.setHartM_bind (h : Hart) (f : Unit → M β) (s : State) : (setHartM h >>= f) s = f () (s.withHart h) := rfl
@[simp] theorem M.modHart_run (g : Hart → Hart) (s : State) : modHart g s = .ok () (s.withHart (g s.hart)) := rfl
@[simp] theorem M.modHart_bind (g : Hart → Hart) (f : Unit → M β) (s : State) :
    (modHart g >>= f) s = f () (s.withHart (g s.hart)) := rfl
@[simp] theorem M.trap_run (c : Cause) (k : Kind) (v : Word) (s : State) : (trap c k v : M α) s = .error (.trap c k v) s := rfl
@[simp] theorem M.trap_bind (c : Cause) (k : Kind) (v : Word) (f : α → M β) (s : State) :
    ((trap c k v : M α) >>= f) s = .error (.trap c k v) s := rfl
@[simp] theorem M.hold_run (s : State) : (hold : M α) s = .error .wait s := rfl
@[simp] theorem M.hold_bind (f : α → M β) (s : State) : ((hold : M α) >>= f) s = .error .wait s := rfl
@[simp] theorem M.nextInstr_run (s : State) : nextInstr s = .ok () s.advance := rfl
@[simp] theorem M.nextInstr_bind (f : Unit → M β) (s : State) : (nextInstr >>= f) s = f () s.advance := rfl
/-- The focus hart by its number. -/
@[simp] theorem State.hartOf_self (s : State) : s.hartOf s.hart.id = s.hart := if_pos rfl
/-- A guard that does not hold lets the rest run. -/
theorem M.guard_run {p : Prop} [Decidable p] (m : M Unit) (f : Unit → M β) (s : State) (h : ¬ p) :
    ((if p then m else pure ()) >>= f) s = f () s := by rw [if_neg h]; rfl

/-- What an instruction of the scalar unit answers, by how its effect ends. -/
theorem scalar_ok {m : M Unit} {s t : State} (h : m s = .ok () t) : scalar m s = .next t := by
  simp [scalar, runScalar, h]
theorem scalar_trap {m : M Unit} {s t : State} {c : Cause} {k : Kind} {v : Word} (h : m s = .error (.trap c k v) t) :
    scalar m s = .next (takeTrap t t.hart.id c k v t.hart.pc t.hart.pc) := by
  simp [scalar, runScalar, h]
theorem scalar_park {m : M Unit} {s t : State} {p : Park} (h : m s = .error (.park p) t) :
    scalar m s = .next (awaits s (.parked p) t) := by
  simp [scalar, runScalar, h]
theorem scalar_wait {m : M Unit} {s t : State} (h : m s = .error .wait t) : scalar m s = .next (awaits s .waiting t) := by
  simp [scalar, runScalar, h]

/-- An attempt that used no declined event leaves none to keep (R253). -/
theorem keepDeclined_same {s t : State} {h c : Nat} (e : (t.fn (c / 64)).s2 = (s.fn (c / 64)).s2) : keepDeclined h c s t = t := by
  unfold keepDeclined
  by_cases hf : c / 64 = 0
  · simp [hf]
  · rw [if_neg hf, e]
    have : ((s.fn (c / 64)).s2.filter (fun x => x.op == none && x.hart == h && x.declined &&
        !((s.fn (c / 64)).s2.any (fun y => y.evt == x.evt)))) = [] := by
      rw [List.filter_eq_nil_iff]
      intro x hx
      have : (s.fn (c / 64)).s2.any (fun y => y.evt == x.evt) = true := List.any_eq_true.2 ⟨x, hx, by simp⟩
      simp [this]
    simp only [this]
/-- So the hart alone changes. -/
theorem awaits_same {s t : State} {r : Run} (e : (t.fn (ctxOf s s.hart / 64)).s2 = (s.fn (ctxOf s s.hart / 64)).s2) :
    awaits s r t = t.withHart { t.hart with run := r } := by
  unfold awaits
  rw [keepDeclined_same e]

end Sys2Proof.Machine
end

