-- ==== Sys2Proof/Laws/Access.lean ====
section
/-! SUPPORT. What an unhindered access does: where it goes, what a load reads, what a store leaves. -/

namespace Sys2Proof.Machine

/-- A walk that meets only cached entries answers the leaf, whatever table it is sent to. -/
theorem walkM_hit {s : State} {h c va rep : Nat} {k : Kind} {e : TlbEntry} {ls : List Nat}
    (he : cachedLeaf (s.ctx c).tlb va ls = some e) (t : Nat) : walkM h c va rep k ls t s = .ok e s := by
  induction ls generalizing t with
  | nil => cases he
  | cons l ls ih =>
    unfold cachedLeaf at he
    unfold walkM
    rw [M.get_bind]
    cases hf : tlbFind (s.ctx c).tlb l va with
    | none => rw [hf] at he; cases he
    | some x =>
      rw [hf] at he
      dsimp only at he ⊢
      by_cases hp : pteTable x.pte = true
      · rw [if_pos hp] at he ⊢; exact ih he _
      · rw [if_neg hp] at he ⊢; cases he; rfl
theorem lookupM_hit {s : State} {h c va rep : Nat} {k : Kind} {e : TlbEntry}
    (he : cachedLeaf (s.ctx c).tlb va [0, 1, 2] = some e) : lookupM h c va rep k s = .ok e s := by
  unfold lookupM
  rw [M.get_bind]
  exact walkM_hit he _

theorem translateM_hit {s : State} {h c va rep n : Nat} {k : Kind} {e : TlbEntry} (hc : canonical va = true)
    (he : cachedLeaf (s.ctx c).tlb va [0, 1, 2] = some e) (hm : pteMig e.pte = false)
    (hr : k = .read → pteR e.pte = true) (hw : k = .write → pteW e.pte = true) (hx : k = .exec → pteX e.pte = true)
    (ha : e.pte ||| 16 ||| (if k = .write then 32 else 0) = e.pte) :
    translateM h c va rep k (n + 1) s = .ok e s := by
  unfold translateM
  have hp : ((decide (k = .read) && !(pteR e.pte)) || (decide (k = .write) && !(pteW e.pte)) ||
      (decide (k = .exec) && !(pteX e.pte))) = false := by
    cases k
    · simp [hr rfl]
    · simp [hw rfl]
    · simp [hx rfl]
  simp only [hc, Bool.not_true, Bool.false_eq_true, if_false]
  rw [M.bind_ok (lookupM_hit he)]
  simp only [hm, hp, ha, Bool.false_eq_true, if_false, if_true, M.pure_run]

/-- An unhindered access goes to the place its cached translation gives, and changes nothing. -/
theorem locate_mapped {s : State} {va rep pa : Nat} {k : Kind} {strong : Bool} (h : Mapped s va k pa) :
    ∃ p g, locate s.hart.id va rep k strong s = .ok ⟨.phys pa, p, g⟩ s := by
  obtain ⟨hc, hs, hw, hf, e, he, hm, h1, h2, h3, ha, rfl⟩ := h
  refine ⟨ptePfmt e.pte, pteGs e.pte, ?_⟩
  have hg : locateGpa s.hart.id va rep k strong s = .ok ⟨.phys (leafPa e.pte e.lvl va), ptePfmt e.pte, pteGs e.pte⟩ s := by
    unfold locateGpa
    simp only [M.ctxM_bind, State.hartOf_self, hs, M.get_bind, M.hartNo_bind]
    rw [M.bind_ok (translateM_hit hc he hm h1 h2 h3 ha)]
    simp only [M.ctxM_bind, M.hartNo_bind, State.hartOf_self, hw, M.pure_run]
  unfold locate
  rw [M.bind_ok hg]
  have h2 : stage2M s.hart.id (ctxOf s s.hart) (leafPa e.pte e.lvl va) k false va k s =
      .ok (some (leafPa e.pte e.lvl va)) s := by
    unfold stage2M
    simp only [M.get_bind, stage2Of, lineAddr, hf, decide_true, Bool.true_or, if_true]
    rfl
  simp only [M.ctxM_bind, State.hartOf_self]
  rw [M.bind_ok h2]
  rfl

/-- The places of an unhindered access within one page. -/
theorem locateN_mapped {s : State} {va pa n : Nat} {k : Kind} {strong : Bool} (h : Mapped s va k pa)
    (hn : n ≤ 65536 - va % 65536) :
    ∃ fs, locateN s.hart.id va n k strong s = .ok (places pa n, fs) s := by
  obtain ⟨p, g, hl⟩ := locate_mapped (rep := va) (strong := strong) h
  refine ⟨[(p, g)], ?_⟩
  unfold locateN
  rw [M.bind_ok hl]
  simp only [hn, if_true, M.pure_run]
  rfl

/-- A place that is sound reports no peer. -/
theorem peerReport_sound {s : State} {pa : Nat} (h : paBad s pa = false) : peerReport s (fnAddr pa) pa = s := by
  unfold peerReport
  by_cases hp : paPeer pa = true
  · have : peerUp s (fnAddr pa) pa = true := by
      unfold paBad at h
      rw [if_pos hp, Bool.or_eq_false_iff] at h
      simpa using h.1
    simp [this]
  · simp [hp]
theorem eachOf_id {α : Type} {f : α → M Unit} {xs : List α} {s : State} (h : ∀ x ∈ xs, f x s = .ok () s) :
    eachOf f xs s = .ok () s := by
  induction xs with
  | nil => rfl
  | cons x t ih =>
    unfold eachOf
    rw [M.bind_ok (h x (by simp))]
    exact ih (fun y hy => h y (by simp [hy]))
theorem reportM_sound {s : State} {ls : List Loc} (h : ∀ l ∈ ls, LocSound s l) : reportM ls s = .ok () s := by
  unfold reportM
  apply eachOf_id
  intro l hl
  cases l with
  | phys pa => simp [peerReport_sound (h _ hl)]
  | scr o => rfl
  | dead a => rfl
theorem locBad_sound {s : State} {l : Loc} {vec : Bool} (h : LocSound s l) (hc : CopyClean s l) :
    locBad s s.hart vec l = false := by
  cases l with
  | scr o => exact h
  | phys pa =>
    unfold locBad
    by_cases hk : (s.ctx (ctxOf s s.hart)).strict = true
    · simp [hk, show paBad s pa = false from h]
    · simp only [hk, Bool.false_eq_true, if_false, show paBad s pa = false from h, Bool.false_and, Bool.false_or]
      split
      · rename_i e he; simp [hc vec e (by simpa using hk) he]
      · rfl
  | dead a => exact absurd h id
theorem firstBad_sound {s : State} {ls : List Loc} {vec : Bool} (h : ∀ l ∈ ls, LocSound s l)
    (hc : ∀ l ∈ ls, CopyClean s l) :
    firstBad s s.hart vec ls = none := by
  rw [firstBad, List.findIdx?_eq_none_iff]
  exact fun l hl => locBad_sound (h l hl) (hc l hl)
/-- A load of the scalar side whose places are sound reads them (R219). -/
theorem loadRaw_ok {s s1 : State} {va n : Nat} {ls : List Loc} {fs : List (Nat × Nat)}
    (h : locateN s.hart.id va n .read false s = .ok (ls, fs) s1) (hid : s1.hart.id = s.hart.id)
    (hf : SpanFree s1 ls) (hs : ∀ l ∈ ls, LocSound s1 l) (hc : ∀ l ∈ ls, CopyClean s1 l) :
    loadRaw s.hart.id va n s = .ok (ls.map (locByte s1 s1.hart false), none) s1 := by
  unfold loadRaw
  rw [M.bind_ok h]
  simp only [M.get_bind]
  rw [← hid, State.hartOf_self]
  simp only [show scratchHeld (s1.slot s1.hart.slotId) ls = false from hf, Bool.false_eq_true, if_false]
  rw [M.bind_ok (reportM_sound hs), firstBad_sound hs hc]
  rfl
theorem loadM_ok {s s1 : State} {va n : Nat} {ls : List Loc} {fs : List (Nat × Nat)}
    (h : locateN s.hart.id va n .read false s = .ok (ls, fs) s1) (hid : s1.hart.id = s.hart.id)
    (hf : SpanFree s1 ls) (hs : ∀ l ∈ ls, LocSound s1 l) (hc : ∀ l ∈ ls, CopyClean s1 l) :
    loadM s.hart.id va n s = .ok (ls.map (locByte s1 s1.hart false)) s1 := by
  unfold loadM
  rw [M.bind_ok (loadRaw_ok h hid hf hs hc)]
  rfl
end Sys2Proof.Machine
end

