-- ==== Sys2Proof/Laws/Encoding.lean ====
section
/-! SUPPORT. Words as fields joined from bit 0 up, and which decoder reads a major. -/

namespace Sys2Proof

/-- Fields of a word from bit 0 up. -/
def catN : List ((n : Nat) × BitVec n) → Nat
  | [] => 0
  | ⟨n, x⟩ :: l => catN l * 2 ^ n + x.toNat

/-- How many bits such a list covers. -/
def catW : List ((n : Nat) × BitVec n) → Nat
  | [] => 0
  | ⟨n, _⟩ :: l => n + catW l

theorem cat_one {n : Nat} (x : BitVec n) : x.toNat = catN [⟨n, x⟩] := by simp [catN]

theorem cat_cons {n m : Nat} {y : BitVec m} {l : List ((n : Nat) × BitVec n)} (x : BitVec n) (h : y.toNat = catN l) :
    (y ++ x).toNat = catN (⟨n, x⟩ :: l) := by
  rw [BitVec.toNat_append, ← Nat.shiftLeft_add_eq_or_of_lt x.isLt, Nat.shiftLeft_eq, h, catN]

theorem catN_append (l r : List ((n : Nat) × BitVec n)) : catN (l ++ r) = catN r * 2 ^ catW l + catN l ∧ catN l < 2 ^ catW l := by
  induction l with
  | nil => simp [catN, catW]
  | cons p l ih =>
    obtain ⟨n, x⟩ := p
    obtain ⟨h, hl⟩ := ih
    constructor
    · simp only [List.cons_append, catN, catW, h, Nat.pow_add]; ring
    · simp only [catN, catW, Nat.pow_add]
      have := x.isLt
      calc catN l * 2 ^ n + x.toNat < (catN l + 1) * 2 ^ n := by rw [Nat.add_mul]; omega
        _ ≤ 2 ^ catW l * 2 ^ n := Nat.mul_le_mul_right _ hl
        _ = _ := Nat.mul_comm _ _

theorem fld_sub {w : BitVec 32} (l : List ((n : Nat) × BitVec n)) {n : Nat} (x : BitVec n) (r : List ((n : Nat) × BitVec n))
    (o k : Nat) (hk : o + k ≤ n) (h : w.toNat = catN (l ++ ⟨n, x⟩ :: r)) :
    fld w (catW l + o) k = x.extractLsb' o k := by
  apply BitVec.eq_of_toNat_eq
  obtain ⟨h1, h2⟩ := catN_append l (⟨n, x⟩ :: r)
  rw [fld, BitVec.extractLsb'_toNat, BitVec.extractLsb'_toNat, h, h1, Nat.shiftRight_add, Nat.shiftRight_eq_div_pow _ (catW l), Nat.mul_comm, Nat.mul_add_div (by positivity), Nat.div_eq_of_lt h2, Nat.add_zero]
  simp only [catN, Nat.shiftRight_eq_div_pow]
  have e : (2:Nat) ^ n = 2 ^ o * (2 ^ k * 2 ^ (n - o - k)) := by rw [← pow_add, ← pow_add]; congr 1; omega
  rw [e, show catN r * (2 ^ o * (2 ^ k * 2 ^ (n - o - k))) = 2 ^ o * (2 ^ k * (catN r * 2 ^ (n - o - k))) by ring,
    Nat.mul_add_div (by positivity), Nat.mul_add_mod]

theorem fld_cat {w : BitVec 32} (l : List ((n : Nat) × BitVec n)) {n : Nat} (x : BitVec n) (r : List ((n : Nat) × BitVec n))
    (h : w.toNat = catN (l ++ ⟨n, x⟩ :: r)) : fld w (catW l) n = x := by
  have := fld_sub l x r 0 n (by omega) h
  simpa using this

theorem fld_pair {w : BitVec 32} (l : List ((n : Nat) × BitVec n)) {n m : Nat} (x : BitVec n) (y : BitVec m)
    (r : List ((n : Nat) × BitVec n)) (h : w.toNat = catN (l ++ ⟨n, x⟩ :: ⟨m, y⟩ :: r)) :
    (fld w (catW l) (n + m)).toNat = y.toNat * 2 ^ n + x.toNat := by
  have e : w.toNat = catN (l ++ ⟨m + n, y ++ x⟩ :: r) := by
    rw [h, (catN_append l _).1, (catN_append l _).1]
    simp only [catN]
    rw [cat_cons x (cat_one y)]
    simp only [catN, Nat.pow_add]
    ring
  have := fld_cat l _ r e
  rw [show n + m = m + n by omega, this, cat_cons x (cat_one y)]
  simp [catN]

theorem decodeFields_scalar {w : BitVec 32} (h : fld w 0 7 = 1#7) : decodeFields w = decodeScalar w := by
  rw [decodeFields, h]; rfl

theorem decodeFields_scalarFloat {w : BitVec 32} (h : fld w 0 7 = 12#7) : decodeFields w = decodeScalarFloat w := by
  rw [decodeFields, h]; rfl

theorem decodeFields_mask {w : BitVec 32} (h : fld w 0 7 = 82#7) : decodeFields w = decodeMask w := by
  rw [decodeFields, h]; rfl

theorem decodeFields_sync {w : BitVec 32} (h : fld w 0 7 = 110#7) : decodeFields w = decodeSync w := by
  rw [decodeFields, h]; rfl

theorem decodeFields_weight {w : BitVec 32} (h : fld w 0 7 = 119#7) : decodeFields w = decodeWeight w := by
  rw [decodeFields, h]; rfl

theorem decodeFields_system {w : BitVec 32} (h : fld w 0 7 = 126#7) : decodeFields w = decodeSystem w := by
  rw [decodeFields, h]; rfl

theorem decodeFields_low {w : BitVec 32} {m : BitVec 7} (h : fld w 0 7 = m) (hm : m.toNat < 32 ∧ m.toNat ≠ 1 ∧ m.toNat ≠ 12) :
    decodeFields w = decodeLow w := by
  have key : ∀ n : Nat, n = m.toNat → decodeFields w = decodeLow w := by
    intro n hn
    simp only [decodeFields, h, ← hn] at hm ⊢
    repeat' (first | rw [if_neg (by omega)] | rw [if_pos (by omega)])
  exact key _ rfl

theorem decodeFields_vector {w : BitVec 32} {m : BitVec 7} (h : fld w 0 7 = m) (hm : 32 ≤ m.toNat ∧ m.toNat < 80) :
    decodeFields w = decodeVector w := by
  have key : ∀ n : Nat, n = m.toNat → decodeFields w = decodeVector w := by
    intro n hn
    simp only [decodeFields, h, ← hn] at hm ⊢
    repeat' (first | rw [if_neg (by omega)] | rw [if_pos (by omega)])
  exact key _ rfl

theorem decodeFields_permute {w : BitVec 32} {m : BitVec 7} (h : fld w 0 7 = m) (hm : 80 ≤ m.toNat ∧ m.toNat < 112 ∧ m.toNat ≠ 82 ∧ m.toNat ≠ 110) :
    decodeFields w = decodePermute w := by
  have key : ∀ n : Nat, n = m.toNat → decodeFields w = decodePermute w := by
    intro n hn
    simp only [decodeFields, h, ← hn] at hm ⊢
    repeat' (first | rw [if_neg (by omega)] | rw [if_pos (by omega)])
  exact key _ rfl

theorem decodeFields_engine {w : BitVec 32} {m : BitVec 7} (h : fld w 0 7 = m) (hm : 112 ≤ m.toNat ∧ m.toNat ≠ 119 ∧ m.toNat ≠ 126) :
    decodeFields w = decodeEngine w := by
  have key : ∀ n : Nat, n = m.toNat → decodeFields w = decodeEngine w := by
    intro n hn
    simp only [decodeFields, h, ← hn] at hm ⊢
    repeat rw [if_neg (by omega)]
  exact key _ rfl

end Sys2Proof
end

