-- ==== Sys2Proof/Laws/Memory.lean ====
section
/-! SUPPORT. The canonical form of memory: every operation that changes the bytes at home, or what DRAM last held of
them, keeps it; and what a byte at home reads after a store. -/

namespace Sys2Proof.Machine

theorem mapWf_filter {α : Type} [DecidableEq α] {d : α} {m : SMap α} (p : Nat × α → Bool) (h : mapWf d m = true) :
    mapWf d (m.filter p) = true := by
  induction m with
  | nil => rfl
  | cons q t ih =>
    obtain ⟨k, x⟩ := q
    obtain ⟨h1, h2, h3⟩ := mapWf_cons.mp h
    rw [List.filter_cons]
    split
    · exact mapWf_cons.mpr ⟨h1, fun p hp => h2 p (List.mem_of_mem_filter hp), ih h3⟩
    · exact ih h3
/-- Many writes keep the form. -/
theorem mapWf_foldl {α β : Type} [DecidableEq α] {d : α} (f : SMap α → β → SMap α)
    (hf : ∀ m x, mapWf d m = true → mapWf d (f m x) = true) (xs : List β) {m : SMap α} (h : mapWf d m = true) :
    mapWf d (xs.foldl f m) = true := by
  induction xs generalizing m with
  | nil => exact h
  | cons x t ih => exact ih (hf m x h)

/-- Memory after reset is in canonical form, and so is memory after a later reset. -/
theorem reset_wf : Canonical State.reset := ⟨rfl, rfl⟩
theorem afterReset_wf {s : State} (h : Canonical s) : Canonical (afterReset s) := ⟨mapWf_filter _ h.1, rfl⟩

/-- What keeps both maps keeps the form. -/
theorem Canonical.of_eq {s t : State} (h : Canonical s) (h1 : t.mem = s.mem) (h2 : t.l2 = s.l2) : Canonical t := by
  unfold Canonical
  rw [h1, h2]
  exact h

/-! ## Stores at home -/

theorem poke_wf {s : State} (a : Nat) (b : Byte) (h : Canonical s) : Canonical (s.poke a b) := by
  unfold State.poke
  split
  · refine ⟨h.1, ?_⟩
    dsimp only
    exact mapPut_wf none s.l2 a (some b) h.2
  · exact ⟨mapPut_wf _ _ _ _ h.1, h.2⟩

@[simp] theorem frecAdd_mem (s : State) (ty addr core lg unit ctx fn count : Nat) :
    (frecAdd s ty addr core lg unit ctx fn count).mem = s.mem := rfl
@[simp] theorem frecAdd_l2 (s : State) (ty addr core lg unit ctx fn count : Nat) :
    (frecAdd s ty addr core lg unit ctx fn count).l2 = s.l2 := rfl
@[simp] theorem dropRecord_mem (s : State) (author : Option Nat) (ctx a : Nat) : (dropRecord s author ctx a).mem = s.mem := by
  unfold dropRecord; split <;> rfl
@[simp] theorem dropRecord_l2 (s : State) (author : Option Nat) (ctx a : Nat) : (dropRecord s author ctx a).l2 = s.l2 := by
  unfold dropRecord; split <;> rfl
@[simp] theorem dropLines_mem (s : State) (core : Nat) (as : List Nat) : (dropLines s core as).mem = s.mem := by
  unfold dropLines; dsimp only; split <;> split <;> rfl
@[simp] theorem dropLines_l2 (s : State) (core : Nat) (as : List Nat) : (dropLines s core as).l2 = s.l2 := by
  unfold dropLines; dsimp only; split <;> split <;> rfl
@[simp] theorem dropLines_fns (s : State) (core : Nat) (as : List Nat) : (dropLines s core as).fns = s.fns := by
  unfold dropLines; dsimp only; split <;> split <;> rfl
@[simp] theorem dropLines_poison (s : State) (core : Nat) (as : List Nat) : (dropLines s core as).poison = s.poison := by
  unfold dropLines; dsimp only; split <;> split <;> rfl

variable {ctx : Nat} {author : Option Author} {stamp before : Option Nat}

theorem homeStore1_wf {s : State} (p : Nat × Byte) (h : Canonical s) : Canonical (homeStore1 author ctx stamp s p) := by
  unfold homeStore1
  split
  · exact h.of_eq (dropRecord_mem _ _ _ _) (dropRecord_l2 _ _ _ _)
  · split
    · exact h.of_eq (dropRecord_mem _ _ _ _) (dropRecord_l2 _ _ _ _)
    · exact poke_wf _ _ h
/-- A store to memory that stands is read back at home, and changes no other byte of the physical function's. -/
theorem homeStore1_peek (s : State) (p : Nat × Byte) (hb : devBacked p.1 = true) (q : Nat) (hq : fnAddr q = 0) :
    (homeStore1 author ctx stamp s p).peek q = if q = p.1 then p.2 else s.peek q := by
  obtain ⟨-, -, hd, hp⟩ := backed_plain hb
  simp only [homeStore1, hd, homeOf_backed hb, hb, hp, Bool.not_true, Bool.and_false, Bool.false_and, Bool.false_eq_true, if_false]
  exact peek_poke hb _ _ hq
theorem homeStoreAll_wf (ps : List HStore) {s : State} (h : Canonical s) : Canonical (homeStoreAll ctx stamp before s ps) := by
  induction ps generalizing s before with
  | nil => exact h
  | cons p t ih =>
    unfold homeStoreAll
    apply ih
    split
    · exact h
    · exact homeStore1_wf _ h
/-- A snoop of the sectors that host queues hold changes those queues only (R277). -/
theorem snoopQueues_fns (s : State) (as : List Nat) : snoopQueues s as = { s with fns := (snoopQueues s as).fns } := by
  unfold snoopQueues; split <;> rfl
@[simp] theorem snoopQueues_mem (s : State) (as : List Nat) : (snoopQueues s as).mem = s.mem := by rw [snoopQueues_fns]
@[simp] theorem snoopQueues_l2 (s : State) (as : List Nat) : (snoopQueues s as).l2 = s.l2 := by rw [snoopQueues_fns]
@[simp] theorem snoopQueues_poison (s : State) (as : List Nat) : (snoopQueues s as).poison = s.poison := by rw [snoopQueues_fns]
theorem homeStore_maps (ps : List HStore) (s : State) :
    (homeStore ctx stamp s ps).mem = (homeStoreAll ctx stamp none s ps).mem ∧
    (homeStore ctx stamp s ps).l2 = (homeStoreAll ctx stamp none s ps).l2 := by
  unfold homeStore
  dsimp only
  split <;> split <;> simp
theorem homeStore_wf (ps : List HStore) {s : State} (h : Canonical s) : Canonical (homeStore ctx stamp s ps) :=
  (homeStoreAll_wf ps h).of_eq (homeStore_maps ps s).1 (homeStore_maps ps s).2
theorem outsideStore_wf {s : State} (a : Nat) (bs : List Byte) (h : Canonical s) : Canonical (outsideStore s a bs) :=
  homeStore_wf _ h
theorem stage2Cache_wf {s : State} {f : Nat} (es : List TlbEntry) (h : Canonical s) : Canonical (stage2Cache s f es) := by
  unfold stage2Cache
  split
  · exact h
  · exact h
theorem agentCache_wf {s : State} {f : Nat} (as : List Nat) (h : Canonical s) : Canonical (agentCache s f as) := by
  unfold agentCache
  generalize (as.map (fun a => a / 65536)).eraseDups = l
  induction l generalizing s with
  | nil => exact h
  | cons p t ih => exact ih (stage2Cache_wf _ h)
theorem agentWrite_wf {s t : State} {f a : Nat} {bs : List Byte} (h : Canonical s) (ht : agentWrite s f a bs = some t) :
    Canonical t := by
  unfold agentWrite at ht
  split at ht
  · rw [← Option.some.inj ht]
    apply homeStore_wf
    split
    · exact h
    · exact agentCache_wf _ h
  · cases ht

theorem setFn_wf {s : State} {f : Nat} {x : Fn} (h : Canonical s) : Canonical (s.setFn f x) := h
/-- An event's record and tail word are stores of an agent (R282). -/
theorem eventSend_wf {s : State} {f ty c : Nat} {d : List Byte} (h : Canonical s) : Canonical (eventSend s f ty c d) := by
  unfold eventSend
  dsimp only
  split
  · exact setFn_wf h
  · split
    · exact setFn_wf h
    · split
      · exact setFn_wf h
      · split
        · exact setFn_wf h
        · rename_i h1
          split
          · exact setFn_wf h
          · rename_i h2
            exact Canonical.of_eq (agentWrite_wf (agentWrite_wf h h1) h2) rfl rfl
theorem peerTell_wf {s : State} {f i : Nat} (h : Canonical s) : Canonical (peerTell f i s) := by
  unfold peerTell
  dsimp only
  split
  · exact h
  · exact eventSend_wf (setFn_wf h)
theorem peerReport_wf {s : State} {f a : Nat} (h : Canonical s) : Canonical (peerReport s f a) := by
  unfold peerReport
  split
  · exact peerTell_wf h
  · exact h

/-! ## Ranges -/

theorem pagesZero_wf {s : State} {a : Option Nat} {c : Nat} {ps : Pages} (h : Canonical s) : Canonical (pagesZero a c ps s) := by
  unfold pagesZero
  dsimp only
  generalize hs : homeStore _ _ _ _ = s1
  have h1 : Canonical s1 := hs ▸ homeStore_wf _ h
  split
  · exact peerReport_wf (Canonical.of_eq h1 (dropRecord_mem _ _ _ _) (dropRecord_l2 _ _ _ _))
  · exact h1
theorem zeroRange_wf {s : State} {f a n : Nat} (h : Canonical s) : Canonical (zeroRange f a n s) := by
  unfold zeroRange
  apply pagesZero_wf
  split
  · exact h
  · exact agentCache_wf _ h
theorem writeBack_wf {s : State} {within : Nat → Bool} (h : Canonical s) : Canonical (writeBack within s) :=
  ⟨mapWf_foldl _ (fun _ _ => mapPut_wf _ _ _ _) _ h.1, mapWf_filter _ h.2⟩
theorem discardLine_wf {s : State} {line : Nat} (h : Canonical s) : Canonical (discardLine s line) := by
  unfold discardLine
  split
  · exact h
  · exact ⟨h.1, mapWf_filter _ h.2⟩
theorem dropAddrs_wf {s : State} {hit : Nat → Bool} (h : Canonical s) : Canonical (dropAddrs hit s) := by
  have key : ∀ (xs : List (Nat × Core)) (f : State → Nat × Core → State)
      (_ : ∀ s p, (f s p).mem = s.mem ∧ (f s p).l2 = s.l2) (s : State), Canonical s → Canonical (xs.foldl f s) := by
    intro xs f hf
    induction xs with
    | nil => exact fun _ h => h
    | cons x t ih => exact fun s h => ih _ (h.of_eq (hf s x).1 (hf s x).2)
  exact key s.cores (fun s p => s.setCore p.1 { p.2 with l1 := p.2.l1.filter (fun l => !(hit l.a)) })
    (fun _ _ => ⟨rfl, rfl⟩) s h
theorem imageWrite_wf {s t : State} {core c : Nat} {r : HartArea} {cs : Cells} {bad : List Nat} (h : Canonical s)
    (ht : imageWrite core c r cs bad s = some t) : Canonical t := by
  unfold imageWrite at ht
  split at ht
  · cases ht
  · rw [← Option.some.inj ht]
    apply dropAddrs_wf
    dsimp only
    refine homeStore_wf _ (pagesZero_wf ?_)
    split
    · exact h
    · exact agentCache_wf _ h

end Sys2Proof.Machine
end

