-- ==== Sys2Proof/Laws/PerInstr.lean ====
section
/-! SUPPORT. The statements made instruction by instruction: what the decoder reads from the encoder's word. -/

namespace Sys2Proof.Laws.Encoded

/-- The word of an instruction names that instruction again, before its field values are checked. -/
def Statement (i : Instr) : Prop := i.hasWord = true → decodeFields (encode i) = .ok i

theorem add (d : BitVec 6) (a : BitVec 6) (b : BitVec 6) : Statement (.add d a b) := by
  intro _
  show decodeFields (encode (.add d a b)) = .ok (.add d a b)
  have e : (encode (.add d a b)).toNat = catN [⟨7, 1#7⟩, ⟨6, d⟩, ⟨6, a⟩, ⟨6, b⟩, ⟨7, 0#7⟩] :=
    cat_cons _ (cat_cons _ (cat_cons _ (cat_cons _ (cat_one _))))
  generalize encode (.add d a b) = wd at e ⊢
  have f0 : fld wd 0 7 = 1#7 := fld_cat [] _ _ e
  have f1 : fld wd 25 4 = 0#4 := fld_sub [⟨7, 1#7⟩, ⟨6, d⟩, ⟨6, a⟩, ⟨6, b⟩] 0#7 _ 0 4 (by decide) e
  have f2 : fld wd 29 3 = 0#3 := fld_sub [⟨7, 1#7⟩, ⟨6, d⟩, ⟨6, a⟩, ⟨6, b⟩] 0#7 _ 4 3 (by decide) e
  have f3 : fld wd 7 6 = d := fld_cat [⟨7, 1#7⟩] _ _ e
  have f4 : fld wd 13 6 = a := fld_cat [⟨7, 1#7⟩, ⟨6, d⟩] _ _ e
  have f5 : fld wd 19 6 = b := fld_cat [⟨7, 1#7⟩, ⟨6, d⟩, ⟨6, a⟩] _ _ e
  rw [decodeFields_scalar f0, decodeScalar, f1]
  show mbz _ _ = _
  rw [f2, f3, f4, f5]; rfl
theorem sub (d : BitVec 6) (a : BitVec 6) (b : BitVec 6) : Statement (.sub d a b) := by
  intro _
  show decodeFields (encode (.sub d a b)) = .ok (.sub d a b)
  have e : (encode (.sub d a b)).toNat = catN [⟨7, 1#7⟩, ⟨6, d⟩, ⟨6, a⟩, ⟨6, b⟩, ⟨7, 1#7⟩] :=
    cat_cons _ (cat_cons _ (cat_cons _ (cat_cons _ (cat_one _))))
  generalize encode (.sub d a b) = wd at e ⊢
  have f0 : fld wd 0 7 = 1#7 := fld_cat [] _ _ e
  have f1 : fld wd 25 4 = 1#4 := fld_sub [⟨7, 1#7⟩, ⟨6, d⟩, ⟨6, a⟩, ⟨6, b⟩] 1#7 _ 0 4 (by decide) e
  have f2 : fld wd 29 3 = 0#3 := fld_sub [⟨7, 1#7⟩, ⟨6, d⟩, ⟨6, a⟩, ⟨6, b⟩] 1#7 _ 4 3 (by decide) e
  have f3 : fld wd 7 6 = d := fld_cat [⟨7, 1#7⟩] _ _ e
  have f4 : fld wd 13 6 = a := fld_cat [⟨7, 1#7⟩, ⟨6, d⟩] _ _ e
  have f5 : fld wd 19 6 = b := fld_cat [⟨7, 1#7⟩, ⟨6, d⟩, ⟨6, a⟩] _ _ e
  rw [decodeFields_scalar f0, decodeScalar, f1]
  show mbz _ _ = _
  rw [f2, f3, f4, f5]; rfl
theorem mul (d : BitVec 6) (a : BitVec 6) (b : BitVec 6) : Statement (.mul d a b) := by
  intro _
  show decodeFields (encode (.mul d a b)) = .ok (.mul d a b)
  have e : (encode (.mul d a b)).toNat = catN [⟨7, 1#7⟩, ⟨6, d⟩, ⟨6, a⟩, ⟨6, b⟩, ⟨7, 2#7⟩] :=
    cat_cons _ (cat_cons _ (cat_cons _ (cat_cons _ (cat_one _))))
  generalize encode (.mul d a b) = wd at e ⊢
  have f0 : fld wd 0 7 = 1#7 := fld_cat [] _ _ e
  have f1 : fld wd 25 4 = 2#4 := fld_sub [⟨7, 1#7⟩, ⟨6, d⟩, ⟨6, a⟩, ⟨6, b⟩] 2#7 _ 0 4 (by decide) e
  have f2 : fld wd 29 3 = 0#3 := fld_sub [⟨7, 1#7⟩, ⟨6, d⟩, ⟨6, a⟩, ⟨6, b⟩] 2#7 _ 4 3 (by decide) e
  have f3 : fld wd 7 6 = d := fld_cat [⟨7, 1#7⟩] _ _ e
  have f4 : fld wd 13 6 = a := fld_cat [⟨7, 1#7⟩, ⟨6, d⟩] _ _ e
  have f5 : fld wd 19 6 = b := fld_cat [⟨7, 1#7⟩, ⟨6, d⟩, ⟨6, a⟩] _ _ e
  rw [decodeFields_scalar f0, decodeScalar, f1]
  show mbz _ _ = _
  rw [f2, f3, f4, f5]; rfl
theorem mulh (d : BitVec 6) (a : BitVec 6) (b : BitVec 6) (u : BitVec 1) : Statement (.mulh d a b u) := by
  intro _
  show decodeFields (encode (.mulh d a b u)) = .ok (.mulh d a b u)
  have e : (encode (.mulh d a b u)).toNat = catN [⟨7, 1#7⟩, ⟨6, d⟩, ⟨6, a⟩, ⟨6, b⟩, ⟨4, 3#4⟩, ⟨1, u⟩, ⟨2, 0#2⟩] :=
    cat_cons _ (cat_cons _ (cat_cons _ (cat_cons _ (cat_cons _ (cat_cons _ (cat_one _))))))
  generalize encode (.mulh d a b u) = wd at e ⊢
  have f0 : fld wd 0 7 = 1#7 := fld_cat [] _ _ e
  have f1 : fld wd 25 4 = 3#4 := fld_cat [⟨7, 1#7⟩, ⟨6, d⟩, ⟨6, a⟩, ⟨6, b⟩] _ _ e
  have f2 : fld wd 30 2 = 0#2 := fld_cat [⟨7, 1#7⟩, ⟨6, d⟩, ⟨6, a⟩, ⟨6, b⟩, ⟨4, 3#4⟩, ⟨1, u⟩] _ _ e
  have f3 : fld wd 7 6 = d := fld_cat [⟨7, 1#7⟩] _ _ e
  have f4 : fld wd 13 6 = a := fld_cat [⟨7, 1#7⟩, ⟨6, d⟩] _ _ e
  have f5 : fld wd 19 6 = b := fld_cat [⟨7, 1#7⟩, ⟨6, d⟩, ⟨6, a⟩] _ _ e
  have f6 : fld wd 29 1 = u := fld_cat [⟨7, 1#7⟩, ⟨6, d⟩, ⟨6, a⟩, ⟨6, b⟩, ⟨4, 3#4⟩] _ _ e
  rw [decodeFields_scalar f0, decodeScalar, f1]
  show mbz _ _ = _
  rw [f2, f3, f4, f5, f6]; rfl
theorem div (d : BitVec 6) (a : BitVec 6) (b : BitVec 6) (u : BitVec 1) : Statement (.div d a b u) := by
  intro _
  show decodeFields (encode (.div d a b u)) = .ok (.div d a b u)
  have e : (encode (.div d a b u)).toNat = catN [⟨7, 1#7⟩, ⟨6, d⟩, ⟨6, a⟩, ⟨6, b⟩, ⟨4, 4#4⟩, ⟨1, u⟩, ⟨2, 0#2⟩] :=
    cat_cons _ (cat_cons _ (cat_cons _ (cat_cons _ (cat_cons _ (cat_cons _ (cat_one _))))))
  generalize encode (.div d a b u) = wd at e ⊢
  have f0 : fld wd 0 7 = 1#7 := fld_cat [] _ _ e
  have f1 : fld wd 25 4 = 4#4 := fld_cat [⟨7, 1#7⟩, ⟨6, d⟩, ⟨6, a⟩, ⟨6, b⟩] _ _ e
  have f2 : fld wd 30 2 = 0#2 := fld_cat [⟨7, 1#7⟩, ⟨6, d⟩, ⟨6, a⟩, ⟨6, b⟩, ⟨4, 4#4⟩, ⟨1, u⟩] _ _ e
  have f3 : fld wd 7 6 = d := fld_cat [⟨7, 1#7⟩] _ _ e
  have f4 : fld wd 13 6 = a := fld_cat [⟨7, 1#7⟩, ⟨6, d⟩] _ _ e
  have f5 : fld wd 19 6 = b := fld_cat [⟨7, 1#7⟩, ⟨6, d⟩, ⟨6, a⟩] _ _ e
  have f6 : fld wd 29 1 = u := fld_cat [⟨7, 1#7⟩, ⟨6, d⟩, ⟨6, a⟩, ⟨6, b⟩, ⟨4, 4#4⟩] _ _ e
  rw [decodeFields_scalar f0, decodeScalar, f1]
  show mbz _ _ = _
  rw [f2, f3, f4, f5, f6]; rfl
theorem rem (d : BitVec 6) (a : BitVec 6) (b : BitVec 6) (u : BitVec 1) : Statement (.rem d a b u) := by
  intro _
  show decodeFields (encode (.rem d a b u)) = .ok (.rem d a b u)
  have e : (encode (.rem d a b u)).toNat = catN [⟨7, 1#7⟩, ⟨6, d⟩, ⟨6, a⟩, ⟨6, b⟩, ⟨4, 5#4⟩, ⟨1, u⟩, ⟨2, 0#2⟩] :=
    cat_cons _ (cat_cons _ (cat_cons _ (cat_cons _ (cat_cons _ (cat_cons _ (cat_one _))))))
  generalize encode (.rem d a b u) = wd at e ⊢
  have f0 : fld wd 0 7 = 1#7 := fld_cat [] _ _ e
  have f1 : fld wd 25 4 = 5#4 := fld_cat [⟨7, 1#7⟩, ⟨6, d⟩, ⟨6, a⟩, ⟨6, b⟩] _ _ e
  have f2 : fld wd 30 2 = 0#2 := fld_cat [⟨7, 1#7⟩, ⟨6, d⟩, ⟨6, a⟩, ⟨6, b⟩, ⟨4, 5#4⟩, ⟨1, u⟩] _ _ e
  have f3 : fld wd 7 6 = d := fld_cat [⟨7, 1#7⟩] _ _ e
  have f4 : fld wd 13 6 = a := fld_cat [⟨7, 1#7⟩, ⟨6, d⟩] _ _ e
  have f5 : fld wd 19 6 = b := fld_cat [⟨7, 1#7⟩, ⟨6, d⟩, ⟨6, a⟩] _ _ e
  have f6 : fld wd 29 1 = u := fld_cat [⟨7, 1#7⟩, ⟨6, d⟩, ⟨6, a⟩, ⟨6, b⟩, ⟨4, 5#4⟩] _ _ e
  rw [decodeFields_scalar f0, decodeScalar, f1]
  show mbz _ _ = _
  rw [f2, f3, f4, f5, f6]; rfl
theorem and (d : BitVec 6) (a : BitVec 6) (b : BitVec 6) : Statement (.and d a b) := by
  intro _
  show decodeFields (encode (.and d a b)) = .ok (.and d a b)
  have e : (encode (.and d a b)).toNat = catN [⟨7, 1#7⟩, ⟨6, d⟩, ⟨6, a⟩, ⟨6, b⟩, ⟨7, 6#7⟩] :=
    cat_cons _ (cat_cons _ (cat_cons _ (cat_cons _ (cat_one _))))
  generalize encode (.and d a b) = wd at e ⊢
  have f0 : fld wd 0 7 = 1#7 := fld_cat [] _ _ e
  have f1 : fld wd 25 4 = 6#4 := fld_sub [⟨7, 1#7⟩, ⟨6, d⟩, ⟨6, a⟩, ⟨6, b⟩] 6#7 _ 0 4 (by decide) e
  have f2 : fld wd 29 3 = 0#3 := fld_sub [⟨7, 1#7⟩, ⟨6, d⟩, ⟨6, a⟩, ⟨6, b⟩] 6#7 _ 4 3 (by decide) e
  have f3 : fld wd 7 6 = d := fld_cat [⟨7, 1#7⟩] _ _ e
  have f4 : fld wd 13 6 = a := fld_cat [⟨7, 1#7⟩, ⟨6, d⟩] _ _ e
  have f5 : fld wd 19 6 = b := fld_cat [⟨7, 1#7⟩, ⟨6, d⟩, ⟨6, a⟩] _ _ e
  rw [decodeFields_scalar f0, decodeScalar, f1]
  show mbz _ _ = _
  rw [f2, f3, f4, f5]; rfl
theorem or (d : BitVec 6) (a : BitVec 6) (b : BitVec 6) : Statement (.or d a b) := by
  intro _
  show decodeFields (encode (.or d a b)) = .ok (.or d a b)
  have e : (encode (.or d a b)).toNat = catN [⟨7, 1#7⟩, ⟨6, d⟩, ⟨6, a⟩, ⟨6, b⟩, ⟨7, 7#7⟩] :=
    cat_cons _ (cat_cons _ (cat_cons _ (cat_cons _ (cat_one _))))
  generalize encode (.or d a b) = wd at e ⊢
  have f0 : fld wd 0 7 = 1#7 := fld_cat [] _ _ e
  have f1 : fld wd 25 4 = 7#4 := fld_sub [⟨7, 1#7⟩, ⟨6, d⟩, ⟨6, a⟩, ⟨6, b⟩] 7#7 _ 0 4 (by decide) e
  have f2 : fld wd 29 3 = 0#3 := fld_sub [⟨7, 1#7⟩, ⟨6, d⟩, ⟨6, a⟩, ⟨6, b⟩] 7#7 _ 4 3 (by decide) e
  have f3 : fld wd 7 6 = d := fld_cat [⟨7, 1#7⟩] _ _ e
  have f4 : fld wd 13 6 = a := fld_cat [⟨7, 1#7⟩, ⟨6, d⟩] _ _ e
  have f5 : fld wd 19 6 = b := fld_cat [⟨7, 1#7⟩, ⟨6, d⟩, ⟨6, a⟩] _ _ e
  rw [decodeFields_scalar f0, decodeScalar, f1]
  show mbz _ _ = _
  rw [f2, f3, f4, f5]; rfl
theorem xor (d : BitVec 6) (a : BitVec 6) (b : BitVec 6) : Statement (.xor d a b) := by
  intro _
  show decodeFields (encode (.xor d a b)) = .ok (.xor d a b)
  have e : (encode (.xor d a b)).toNat = catN [⟨7, 1#7⟩, ⟨6, d⟩, ⟨6, a⟩, ⟨6, b⟩, ⟨7, 8#7⟩] :=
    cat_cons _ (cat_cons _ (cat_cons _ (cat_cons _ (cat_one _))))
  generalize encode (.xor d a b) = wd at e ⊢
  have f0 : fld wd 0 7 = 1#7 := fld_cat [] _ _ e
  have f1 : fld wd 25 4 = 8#4 := fld_sub [⟨7, 1#7⟩, ⟨6, d⟩, ⟨6, a⟩, ⟨6, b⟩] 8#7 _ 0 4 (by decide) e
  have f2 : fld wd 29 3 = 0#3 := fld_sub [⟨7, 1#7⟩, ⟨6, d⟩, ⟨6, a⟩, ⟨6, b⟩] 8#7 _ 4 3 (by decide) e
  have f3 : fld wd 7 6 = d := fld_cat [⟨7, 1#7⟩] _ _ e
  have f4 : fld wd 13 6 = a := fld_cat [⟨7, 1#7⟩, ⟨6, d⟩] _ _ e
  have f5 : fld wd 19 6 = b := fld_cat [⟨7, 1#7⟩, ⟨6, d⟩, ⟨6, a⟩] _ _ e
  rw [decodeFields_scalar f0, decodeScalar, f1]
  show mbz _ _ = _
  rw [f2, f3, f4, f5]; rfl
theorem shl (d : BitVec 6) (a : BitVec 6) (b : BitVec 6) : Statement (.shl d a b) := by
  intro _
  show decodeFields (encode (.shl d a b)) = .ok (.shl d a b)
  have e : (encode (.shl d a b)).toNat = catN [⟨7, 1#7⟩, ⟨6, d⟩, ⟨6, a⟩, ⟨6, b⟩, ⟨7, 9#7⟩] :=
    cat_cons _ (cat_cons _ (cat_cons _ (cat_cons _ (cat_one _))))
  generalize encode (.shl d a b) = wd at e ⊢
  have f0 : fld wd 0 7 = 1#7 := fld_cat [] _ _ e
  have f1 : fld wd 25 4 = 9#4 := fld_sub [⟨7, 1#7⟩, ⟨6, d⟩, ⟨6, a⟩, ⟨6, b⟩] 9#7 _ 0 4 (by decide) e
  have f2 : fld wd 29 3 = 0#3 := fld_sub [⟨7, 1#7⟩, ⟨6, d⟩, ⟨6, a⟩, ⟨6, b⟩] 9#7 _ 4 3 (by decide) e
  have f3 : fld wd 7 6 = d := fld_cat [⟨7, 1#7⟩] _ _ e
  have f4 : fld wd 13 6 = a := fld_cat [⟨7, 1#7⟩, ⟨6, d⟩] _ _ e
  have f5 : fld wd 19 6 = b := fld_cat [⟨7, 1#7⟩, ⟨6, d⟩, ⟨6, a⟩] _ _ e
  rw [decodeFields_scalar f0, decodeScalar, f1]
  show mbz _ _ = _
  rw [f2, f3, f4, f5]; rfl
theorem shr (d : BitVec 6) (a : BitVec 6) (b : BitVec 6) : Statement (.shr d a b) := by
  intro _
  show decodeFields (encode (.shr d a b)) = .ok (.shr d a b)
  have e : (encode (.shr d a b)).toNat = catN [⟨7, 1#7⟩, ⟨6, d⟩, ⟨6, a⟩, ⟨6, b⟩, ⟨7, 10#7⟩] :=
    cat_cons _ (cat_cons _ (cat_cons _ (cat_cons _ (cat_one _))))
  generalize encode (.shr d a b) = wd at e ⊢
  have f0 : fld wd 0 7 = 1#7 := fld_cat [] _ _ e
  have f1 : fld wd 25 4 = 10#4 := fld_sub [⟨7, 1#7⟩, ⟨6, d⟩, ⟨6, a⟩, ⟨6, b⟩] 10#7 _ 0 4 (by decide) e
  have f2 : fld wd 29 3 = 0#3 := fld_sub [⟨7, 1#7⟩, ⟨6, d⟩, ⟨6, a⟩, ⟨6, b⟩] 10#7 _ 4 3 (by decide) e
  have f3 : fld wd 7 6 = d := fld_cat [⟨7, 1#7⟩] _ _ e
  have f4 : fld wd 13 6 = a := fld_cat [⟨7, 1#7⟩, ⟨6, d⟩] _ _ e
  have f5 : fld wd 19 6 = b := fld_cat [⟨7, 1#7⟩, ⟨6, d⟩, ⟨6, a⟩] _ _ e
  rw [decodeFields_scalar f0, decodeScalar, f1]
  show mbz _ _ = _
  rw [f2, f3, f4, f5]; rfl
theorem sar (d : BitVec 6) (a : BitVec 6) (b : BitVec 6) : Statement (.sar d a b) := by
  intro _
  show decodeFields (encode (.sar d a b)) = .ok (.sar d a b)
  have e : (encode (.sar d a b)).toNat = catN [⟨7, 1#7⟩, ⟨6, d⟩, ⟨6, a⟩, ⟨6, b⟩, ⟨7, 11#7⟩] :=
    cat_cons _ (cat_cons _ (cat_cons _ (cat_cons _ (cat_one _))))
  generalize encode (.sar d a b) = wd at e ⊢
  have f0 : fld wd 0 7 = 1#7 := fld_cat [] _ _ e
  have f1 : fld wd 25 4 = 11#4 := fld_sub [⟨7, 1#7⟩, ⟨6, d⟩, ⟨6, a⟩, ⟨6, b⟩] 11#7 _ 0 4 (by decide) e
  have f2 : fld wd 29 3 = 0#3 := fld_sub [⟨7, 1#7⟩, ⟨6, d⟩, ⟨6, a⟩, ⟨6, b⟩] 11#7 _ 4 3 (by decide) e
  have f3 : fld wd 7 6 = d := fld_cat [⟨7, 1#7⟩] _ _ e
  have f4 : fld wd 13 6 = a := fld_cat [⟨7, 1#7⟩, ⟨6, d⟩] _ _ e
  have f5 : fld wd 19 6 = b := fld_cat [⟨7, 1#7⟩, ⟨6, d⟩, ⟨6, a⟩] _ _ e
  rw [decodeFields_scalar f0, decodeScalar, f1]
  show mbz _ _ = _
  rw [f2, f3, f4, f5]; rfl
theorem min (d : BitVec 6) (a : BitVec 6) (b : BitVec 6) (u : BitVec 1) : Statement (.min d a b u) := by
  intro _
  show decodeFields (encode (.min d a b u)) = .ok (.min d a b u)
  have e : (encode (.min d a b u)).toNat = catN [⟨7, 1#7⟩, ⟨6, d⟩, ⟨6, a⟩, ⟨6, b⟩, ⟨4, 12#4⟩, ⟨1, u⟩, ⟨2, 0#2⟩] :=
    cat_cons _ (cat_cons _ (cat_cons _ (cat_cons _ (cat_cons _ (cat_cons _ (cat_one _))))))
  generalize encode (.min d a b u) = wd at e ⊢
  have f0 : fld wd 0 7 = 1#7 := fld_cat [] _ _ e
  have f1 : fld wd 25 4 = 12#4 := fld_cat [⟨7, 1#7⟩, ⟨6, d⟩, ⟨6, a⟩, ⟨6, b⟩] _ _ e
  have f2 : fld wd 30 2 = 0#2 := fld_cat [⟨7, 1#7⟩, ⟨6, d⟩, ⟨6, a⟩, ⟨6, b⟩, ⟨4, 12#4⟩, ⟨1, u⟩] _ _ e
  have f3 : fld wd 7 6 = d := fld_cat [⟨7, 1#7⟩] _ _ e
  have f4 : fld wd 13 6 = a := fld_cat [⟨7, 1#7⟩, ⟨6, d⟩] _ _ e
  have f5 : fld wd 19 6 = b := fld_cat [⟨7, 1#7⟩, ⟨6, d⟩, ⟨6, a⟩] _ _ e
  have f6 : fld wd 29 1 = u := fld_cat [⟨7, 1#7⟩, ⟨6, d⟩, ⟨6, a⟩, ⟨6, b⟩, ⟨4, 12#4⟩] _ _ e
  rw [decodeFields_scalar f0, decodeScalar, f1]
  show mbz _ _ = _
  rw [f2, f3, f4, f5, f6]; rfl
theorem max (d : BitVec 6) (a : BitVec 6) (b : BitVec 6) (u : BitVec 1) : Statement (.max d a b u) := by
  intro _
  show decodeFields (encode (.max d a b u)) = .ok (.max d a b u)
  have e : (encode (.max d a b u)).toNat = catN [⟨7, 1#7⟩, ⟨6, d⟩, ⟨6, a⟩, ⟨6, b⟩, ⟨4, 13#4⟩, ⟨1, u⟩, ⟨2, 0#2⟩] :=
    cat_cons _ (cat_cons _ (cat_cons _ (cat_cons _ (cat_cons _ (cat_cons _ (cat_one _))))))
  generalize encode (.max d a b u) = wd at e ⊢
  have f0 : fld wd 0 7 = 1#7 := fld_cat [] _ _ e
  have f1 : fld wd 25 4 = 13#4 := fld_cat [⟨7, 1#7⟩, ⟨6, d⟩, ⟨6, a⟩, ⟨6, b⟩] _ _ e
  have f2 : fld wd 30 2 = 0#2 := fld_cat [⟨7, 1#7⟩, ⟨6, d⟩, ⟨6, a⟩, ⟨6, b⟩, ⟨4, 13#4⟩, ⟨1, u⟩] _ _ e
  have f3 : fld wd 7 6 = d := fld_cat [⟨7, 1#7⟩] _ _ e
  have f4 : fld wd 13 6 = a := fld_cat [⟨7, 1#7⟩, ⟨6, d⟩] _ _ e
  have f5 : fld wd 19 6 = b := fld_cat [⟨7, 1#7⟩, ⟨6, d⟩, ⟨6, a⟩] _ _ e
  have f6 : fld wd 29 1 = u := fld_cat [⟨7, 1#7⟩, ⟨6, d⟩, ⟨6, a⟩, ⟨6, b⟩, ⟨4, 13#4⟩] _ _ e
  rw [decodeFields_scalar f0, decodeScalar, f1]
  show mbz _ _ = _
  rw [f2, f3, f4, f5, f6]; rfl
theorem slt (d : BitVec 6) (a : BitVec 6) (b : BitVec 6) (u : BitVec 1) : Statement (.slt d a b u) := by
  intro _
  show decodeFields (encode (.slt d a b u)) = .ok (.slt d a b u)
  have e : (encode (.slt d a b u)).toNat = catN [⟨7, 1#7⟩, ⟨6, d⟩, ⟨6, a⟩, ⟨6, b⟩, ⟨4, 14#4⟩, ⟨1, u⟩, ⟨2, 0#2⟩] :=
    cat_cons _ (cat_cons _ (cat_cons _ (cat_cons _ (cat_cons _ (cat_cons _ (cat_one _))))))
  generalize encode (.slt d a b u) = wd at e ⊢
  have f0 : fld wd 0 7 = 1#7 := fld_cat [] _ _ e
  have f1 : fld wd 25 4 = 14#4 := fld_cat [⟨7, 1#7⟩, ⟨6, d⟩, ⟨6, a⟩, ⟨6, b⟩] _ _ e
  have f2 : fld wd 30 2 = 0#2 := fld_cat [⟨7, 1#7⟩, ⟨6, d⟩, ⟨6, a⟩, ⟨6, b⟩, ⟨4, 14#4⟩, ⟨1, u⟩] _ _ e
  have f3 : fld wd 7 6 = d := fld_cat [⟨7, 1#7⟩] _ _ e
  have f4 : fld wd 13 6 = a := fld_cat [⟨7, 1#7⟩, ⟨6, d⟩] _ _ e
  have f5 : fld wd 19 6 = b := fld_cat [⟨7, 1#7⟩, ⟨6, d⟩, ⟨6, a⟩] _ _ e
  have f6 : fld wd 29 1 = u := fld_cat [⟨7, 1#7⟩, ⟨6, d⟩, ⟨6, a⟩, ⟨6, b⟩, ⟨4, 14#4⟩] _ _ e
  rw [decodeFields_scalar f0, decodeScalar, f1]
  show mbz _ _ = _
  rw [f2, f3, f4, f5, f6]; rfl
theorem cnt (d : BitVec 6) (a : BitVec 6) (k : BitVec 2) : Statement (.cnt d a k) := by
  intro _
  show decodeFields (encode (.cnt d a k)) = .ok (.cnt d a k)
  have e : (encode (.cnt d a k)).toNat = catN [⟨7, 1#7⟩, ⟨6, d⟩, ⟨6, a⟩, ⟨10, 960#10⟩, ⟨2, k⟩, ⟨1, 0#1⟩] :=
    cat_cons _ (cat_cons _ (cat_cons _ (cat_cons _ (cat_cons _ (cat_one _)))))
  generalize encode (.cnt d a k) = wd at e ⊢
  have f0 : fld wd 0 7 = 1#7 := fld_cat [] _ _ e
  have f1 : fld wd 25 4 = 15#4 := fld_sub [⟨7, 1#7⟩, ⟨6, d⟩, ⟨6, a⟩] 960#10 _ 6 4 (by decide) e
  have f2 : fld wd 19 6 = 0#6 := fld_sub [⟨7, 1#7⟩, ⟨6, d⟩, ⟨6, a⟩] 960#10 _ 0 6 (by decide) e
  have f3 : fld wd 31 1 = 0#1 := fld_cat [⟨7, 1#7⟩, ⟨6, d⟩, ⟨6, a⟩, ⟨10, 960#10⟩, ⟨2, k⟩] _ _ e
  have f4 : fld wd 7 6 = d := fld_cat [⟨7, 1#7⟩] _ _ e
  have f5 : fld wd 13 6 = a := fld_cat [⟨7, 1#7⟩, ⟨6, d⟩] _ _ e
  have f6 : fld wd 29 2 = k := fld_cat [⟨7, 1#7⟩, ⟨6, d⟩, ⟨6, a⟩, ⟨10, 960#10⟩] _ _ e
  rw [decodeFields_scalar f0, decodeScalar, f1]
  show mbz _ _ = _
  rw [f2, f3, f4, f5, f6]; rfl
theorem addi (d : BitVec 6) (a : BitVec 6) (i : BitVec 13) : Statement (.addi d a i) := by
  intro _
  show decodeFields (encode (.addi d a i)) = .ok (.addi d a i)
  have e : (encode (.addi d a i)).toNat = catN [⟨7, 2#7⟩, ⟨6, d⟩, ⟨6, a⟩, ⟨13, i⟩] :=
    cat_cons _ (cat_cons _ (cat_cons _ (cat_one _)))
  generalize encode (.addi d a i) = wd at e ⊢
  have f0 : fld wd 0 7 = 2#7 := fld_cat [] _ _ e
  have f1 : fld wd 7 6 = d := fld_cat [⟨7, 2#7⟩] _ _ e
  have f2 : fld wd 13 6 = a := fld_cat [⟨7, 2#7⟩, ⟨6, d⟩] _ _ e
  have f3 : fld wd 19 13 = i := fld_cat [⟨7, 2#7⟩, ⟨6, d⟩, ⟨6, a⟩] _ _ e
  rw [decodeFields_low f0 (by decide), decodeLow, f0]
  show Except.ok _ = _
  rw [f1, f2, f3]
theorem andi (d : BitVec 6) (a : BitVec 6) (i : BitVec 13) : Statement (.andi d a i) := by
  intro _
  show decodeFields (encode (.andi d a i)) = .ok (.andi d a i)
  have e : (encode (.andi d a i)).toNat = catN [⟨7, 3#7⟩, ⟨6, d⟩, ⟨6, a⟩, ⟨13, i⟩] :=
    cat_cons _ (cat_cons _ (cat_cons _ (cat_one _)))
  generalize encode (.andi d a i) = wd at e ⊢
  have f0 : fld wd 0 7 = 3#7 := fld_cat [] _ _ e
  have f1 : fld wd 7 6 = d := fld_cat [⟨7, 3#7⟩] _ _ e
  have f2 : fld wd 13 6 = a := fld_cat [⟨7, 3#7⟩, ⟨6, d⟩] _ _ e
  have f3 : fld wd 19 13 = i := fld_cat [⟨7, 3#7⟩, ⟨6, d⟩, ⟨6, a⟩] _ _ e
  rw [decodeFields_low f0 (by decide), decodeLow, f0]
  show Except.ok _ = _
  rw [f1, f2, f3]
theorem ori (d : BitVec 6) (a : BitVec 6) (i : BitVec 13) : Statement (.ori d a i) := by
  intro _
  show decodeFields (encode (.ori d a i)) = .ok (.ori d a i)
  have e : (encode (.ori d a i)).toNat = catN [⟨7, 4#7⟩, ⟨6, d⟩, ⟨6, a⟩, ⟨13, i⟩] :=
    cat_cons _ (cat_cons _ (cat_cons _ (cat_one _)))
  generalize encode (.ori d a i) = wd at e ⊢
  have f0 : fld wd 0 7 = 4#7 := fld_cat [] _ _ e
  have f1 : fld wd 7 6 = d := fld_cat [⟨7, 4#7⟩] _ _ e
  have f2 : fld wd 13 6 = a := fld_cat [⟨7, 4#7⟩, ⟨6, d⟩] _ _ e
  have f3 : fld wd 19 13 = i := fld_cat [⟨7, 4#7⟩, ⟨6, d⟩, ⟨6, a⟩] _ _ e
  rw [decodeFields_low f0 (by decide), decodeLow, f0]
  show Except.ok _ = _
  rw [f1, f2, f3]
theorem xori (d : BitVec 6) (a : BitVec 6) (i : BitVec 13) : Statement (.xori d a i) := by
  intro _
  show decodeFields (encode (.xori d a i)) = .ok (.xori d a i)
  have e : (encode (.xori d a i)).toNat = catN [⟨7, 5#7⟩, ⟨6, d⟩, ⟨6, a⟩, ⟨13, i⟩] :=
    cat_cons _ (cat_cons _ (cat_cons _ (cat_one _)))
  generalize encode (.xori d a i) = wd at e ⊢
  have f0 : fld wd 0 7 = 5#7 := fld_cat [] _ _ e
  have f1 : fld wd 7 6 = d := fld_cat [⟨7, 5#7⟩] _ _ e
  have f2 : fld wd 13 6 = a := fld_cat [⟨7, 5#7⟩, ⟨6, d⟩] _ _ e
  have f3 : fld wd 19 13 = i := fld_cat [⟨7, 5#7⟩, ⟨6, d⟩, ⟨6, a⟩] _ _ e
  rw [decodeFields_low f0 (by decide), decodeLow, f0]
  show Except.ok _ = _
  rw [f1, f2, f3]
theorem shli (d : BitVec 6) (a : BitVec 6) (i : BitVec 6) : Statement (.shli d a i) := by
  intro _
  show decodeFields (encode (.shli d a i)) = .ok (.shli d a i)
  have e : (encode (.shli d a i)).toNat = catN [⟨7, 6#7⟩, ⟨6, d⟩, ⟨6, a⟩, ⟨6, i⟩, ⟨7, 0#7⟩] :=
    cat_cons _ (cat_cons _ (cat_cons _ (cat_cons _ (cat_one _))))
  generalize encode (.shli d a i) = wd at e ⊢
  have f0 : fld wd 0 7 = 6#7 := fld_cat [] _ _ e
  have f1 : fld wd 25 7 = 0#7 := fld_cat [⟨7, 6#7⟩, ⟨6, d⟩, ⟨6, a⟩, ⟨6, i⟩] _ _ e
  have f2 : fld wd 7 6 = d := fld_cat [⟨7, 6#7⟩] _ _ e
  have f3 : fld wd 13 6 = a := fld_cat [⟨7, 6#7⟩, ⟨6, d⟩] _ _ e
  have f4 : fld wd 19 6 = i := fld_cat [⟨7, 6#7⟩, ⟨6, d⟩, ⟨6, a⟩] _ _ e
  rw [decodeFields_low f0 (by decide), decodeLow, f0]
  show mbz _ _ = _
  rw [f1, f2, f3, f4]; rfl
theorem shri (d : BitVec 6) (a : BitVec 6) (i : BitVec 6) : Statement (.shri d a i) := by
  intro _
  show decodeFields (encode (.shri d a i)) = .ok (.shri d a i)
  have e : (encode (.shri d a i)).toNat = catN [⟨7, 7#7⟩, ⟨6, d⟩, ⟨6, a⟩, ⟨6, i⟩, ⟨7, 0#7⟩] :=
    cat_cons _ (cat_cons _ (cat_cons _ (cat_cons _ (cat_one _))))
  generalize encode (.shri d a i) = wd at e ⊢
  have f0 : fld wd 0 7 = 7#7 := fld_cat [] _ _ e
  have f1 : fld wd 25 7 = 0#7 := fld_cat [⟨7, 7#7⟩, ⟨6, d⟩, ⟨6, a⟩, ⟨6, i⟩] _ _ e
  have f2 : fld wd 7 6 = d := fld_cat [⟨7, 7#7⟩] _ _ e
  have f3 : fld wd 13 6 = a := fld_cat [⟨7, 7#7⟩, ⟨6, d⟩] _ _ e
  have f4 : fld wd 19 6 = i := fld_cat [⟨7, 7#7⟩, ⟨6, d⟩, ⟨6, a⟩] _ _ e
  rw [decodeFields_low f0 (by decide), decodeLow, f0]
  show mbz _ _ = _
  rw [f1, f2, f3, f4]; rfl
theorem sari (d : BitVec 6) (a : BitVec 6) (i : BitVec 6) : Statement (.sari d a i) := by
  intro _
  show decodeFields (encode (.sari d a i)) = .ok (.sari d a i)
  have e : (encode (.sari d a i)).toNat = catN [⟨7, 8#7⟩, ⟨6, d⟩, ⟨6, a⟩, ⟨6, i⟩, ⟨7, 0#7⟩] :=
    cat_cons _ (cat_cons _ (cat_cons _ (cat_cons _ (cat_one _))))
  generalize encode (.sari d a i) = wd at e ⊢
  have f0 : fld wd 0 7 = 8#7 := fld_cat [] _ _ e
  have f1 : fld wd 25 7 = 0#7 := fld_cat [⟨7, 8#7⟩, ⟨6, d⟩, ⟨6, a⟩, ⟨6, i⟩] _ _ e
  have f2 : fld wd 7 6 = d := fld_cat [⟨7, 8#7⟩] _ _ e
  have f3 : fld wd 13 6 = a := fld_cat [⟨7, 8#7⟩, ⟨6, d⟩] _ _ e
  have f4 : fld wd 19 6 = i := fld_cat [⟨7, 8#7⟩, ⟨6, d⟩, ⟨6, a⟩] _ _ e
  rw [decodeFields_low f0 (by decide), decodeLow, f0]
  show mbz _ _ = _
  rw [f1, f2, f3, f4]; rfl
theorem slti (d : BitVec 6) (a : BitVec 6) (i : BitVec 13) : Statement (.slti d a i) := by
  intro _
  show decodeFields (encode (.slti d a i)) = .ok (.slti d a i)
  have e : (encode (.slti d a i)).toNat = catN [⟨7, 9#7⟩, ⟨6, d⟩, ⟨6, a⟩, ⟨13, i⟩] :=
    cat_cons _ (cat_cons _ (cat_cons _ (cat_one _)))
  generalize encode (.slti d a i) = wd at e ⊢
  have f0 : fld wd 0 7 = 9#7 := fld_cat [] _ _ e
  have f1 : fld wd 7 6 = d := fld_cat [⟨7, 9#7⟩] _ _ e
  have f2 : fld wd 13 6 = a := fld_cat [⟨7, 9#7⟩, ⟨6, d⟩] _ _ e
  have f3 : fld wd 19 13 = i := fld_cat [⟨7, 9#7⟩, ⟨6, d⟩, ⟨6, a⟩] _ _ e
  rw [decodeFields_low f0 (by decide), decodeLow, f0]
  show Except.ok _ = _
  rw [f1, f2, f3]
theorem lih (d : BitVec 6) (i : BitVec 19) : Statement (.lih d i) := by
  intro _
  show decodeFields (encode (.lih d i)) = .ok (.lih d i)
  have e : (encode (.lih d i)).toNat = catN [⟨7, 10#7⟩, ⟨6, d⟩, ⟨19, i⟩] :=
    cat_cons _ (cat_cons _ (cat_one _))
  generalize encode (.lih d i) = wd at e ⊢
  have f0 : fld wd 0 7 = 10#7 := fld_cat [] _ _ e
  have f1 : fld wd 7 6 = d := fld_cat [⟨7, 10#7⟩] _ _ e
  have f2 : fld wd 13 19 = i := fld_cat [⟨7, 10#7⟩, ⟨6, d⟩] _ _ e
  rw [decodeFields_low f0 (by decide), decodeLow, f0]
  show Except.ok _ = _
  rw [f1, f2]
theorem addpc (d : BitVec 6) (i : BitVec 19) : Statement (.addpc d i) := by
  intro _
  show decodeFields (encode (.addpc d i)) = .ok (.addpc d i)
  have e : (encode (.addpc d i)).toNat = catN [⟨7, 11#7⟩, ⟨6, d⟩, ⟨19, i⟩] :=
    cat_cons _ (cat_cons _ (cat_one _))
  generalize encode (.addpc d i) = wd at e ⊢
  have f0 : fld wd 0 7 = 11#7 := fld_cat [] _ _ e
  have f1 : fld wd 7 6 = d := fld_cat [⟨7, 11#7⟩] _ _ e
  have f2 : fld wd 13 19 = i := fld_cat [⟨7, 11#7⟩, ⟨6, d⟩] _ _ e
  rw [decodeFields_low f0 (by decide), decodeLow, f0]
  show Except.ok _ = _
  rw [f1, f2]
theorem sfadd (d : BitVec 6) (a : BitVec 6) (b : BitVec 6) (p : BitVec 2) : Statement (.sfadd d a b p) := by
  intro _
  show decodeFields (encode (.sfadd d a b p)) = .ok (.sfadd d a b p)
  have e : (encode (.sfadd d a b p)).toNat = catN [⟨7, 12#7⟩, ⟨6, d⟩, ⟨6, a⟩, ⟨6, b⟩, ⟨4, 0#4⟩, ⟨2, p⟩, ⟨1, 0#1⟩] :=
    cat_cons _ (cat_cons _ (cat_cons _ (cat_cons _ (cat_cons _ (cat_cons _ (cat_one _))))))
  generalize encode (.sfadd d a b p) = wd at e ⊢
  have f0 : fld wd 0 7 = 12#7 := fld_cat [] _ _ e
  have f1 : fld wd 25 4 = 0#4 := fld_cat [⟨7, 12#7⟩, ⟨6, d⟩, ⟨6, a⟩, ⟨6, b⟩] _ _ e
  have f2 : fld wd 31 1 = 0#1 := fld_cat [⟨7, 12#7⟩, ⟨6, d⟩, ⟨6, a⟩, ⟨6, b⟩, ⟨4, 0#4⟩, ⟨2, p⟩] _ _ e
  have f3 : fld wd 7 6 = d := fld_cat [⟨7, 12#7⟩] _ _ e
  have f4 : fld wd 13 6 = a := fld_cat [⟨7, 12#7⟩, ⟨6, d⟩] _ _ e
  have f5 : fld wd 19 6 = b := fld_cat [⟨7, 12#7⟩, ⟨6, d⟩, ⟨6, a⟩] _ _ e
  have f6 : fld wd 29 2 = p := fld_cat [⟨7, 12#7⟩, ⟨6, d⟩, ⟨6, a⟩, ⟨6, b⟩, ⟨4, 0#4⟩] _ _ e
  rw [decodeFields_scalarFloat f0, decodeScalarFloat, f1]
  show mbz _ _ = _
  rw [f2, f3, f4, f5, f6]; rfl
theorem sfsub (d : BitVec 6) (a : BitVec 6) (b : BitVec 6) (p : BitVec 2) : Statement (.sfsub d a b p) := by
  intro _
  show decodeFields (encode (.sfsub d a b p)) = .ok (.sfsub d a b p)
  have e : (encode (.sfsub d a b p)).toNat = catN [⟨7, 12#7⟩, ⟨6, d⟩, ⟨6, a⟩, ⟨6, b⟩, ⟨4, 1#4⟩, ⟨2, p⟩, ⟨1, 0#1⟩] :=
    cat_cons _ (cat_cons _ (cat_cons _ (cat_cons _ (cat_cons _ (cat_cons _ (cat_one _))))))
  generalize encode (.sfsub d a b p) = wd at e ⊢
  have f0 : fld wd 0 7 = 12#7 := fld_cat [] _ _ e
  have f1 : fld wd 25 4 = 1#4 := fld_cat [⟨7, 12#7⟩, ⟨6, d⟩, ⟨6, a⟩, ⟨6, b⟩] _ _ e
  have f2 : fld wd 31 1 = 0#1 := fld_cat [⟨7, 12#7⟩, ⟨6, d⟩, ⟨6, a⟩, ⟨6, b⟩, ⟨4, 1#4⟩, ⟨2, p⟩] _ _ e
  have f3 : fld wd 7 6 = d := fld_cat [⟨7, 12#7⟩] _ _ e
  have f4 : fld wd 13 6 = a := fld_cat [⟨7, 12#7⟩, ⟨6, d⟩] _ _ e
  have f5 : fld wd 19 6 = b := fld_cat [⟨7, 12#7⟩, ⟨6, d⟩, ⟨6, a⟩] _ _ e
  have f6 : fld wd 29 2 = p := fld_cat [⟨7, 12#7⟩, ⟨6, d⟩, ⟨6, a⟩, ⟨6, b⟩, ⟨4, 1#4⟩] _ _ e
  rw [decodeFields_scalarFloat f0, decodeScalarFloat, f1]
  show mbz _ _ = _
  rw [f2, f3, f4, f5, f6]; rfl
theorem sfmul (d : BitVec 6) (a : BitVec 6) (b : BitVec 6) (p : BitVec 2) : Statement (.sfmul d a b p) := by
  intro _
  show decodeFields (encode (.sfmul d a b p)) = .ok (.sfmul d a b p)
  have e : (encode (.sfmul d a b p)).toNat = catN [⟨7, 12#7⟩, ⟨6, d⟩, ⟨6, a⟩, ⟨6, b⟩, ⟨4, 2#4⟩, ⟨2, p⟩, ⟨1, 0#1⟩] :=
    cat_cons _ (cat_cons _ (cat_cons _ (cat_cons _ (cat_cons _ (cat_cons _ (cat_one _))))))
  generalize encode (.sfmul d a b p) = wd at e ⊢
  have f0 : fld wd 0 7 = 12#7 := fld_cat [] _ _ e
  have f1 : fld wd 25 4 = 2#4 := fld_cat [⟨7, 12#7⟩, ⟨6, d⟩, ⟨6, a⟩, ⟨6, b⟩] _ _ e
  have f2 : fld wd 31 1 = 0#1 := fld_cat [⟨7, 12#7⟩, ⟨6, d⟩, ⟨6, a⟩, ⟨6, b⟩, ⟨4, 2#4⟩, ⟨2, p⟩] _ _ e
  have f3 : fld wd 7 6 = d := fld_cat [⟨7, 12#7⟩] _ _ e
  have f4 : fld wd 13 6 = a := fld_cat [⟨7, 12#7⟩, ⟨6, d⟩] _ _ e
  have f5 : fld wd 19 6 = b := fld_cat [⟨7, 12#7⟩, ⟨6, d⟩, ⟨6, a⟩] _ _ e
  have f6 : fld wd 29 2 = p := fld_cat [⟨7, 12#7⟩, ⟨6, d⟩, ⟨6, a⟩, ⟨6, b⟩, ⟨4, 2#4⟩] _ _ e
  rw [decodeFields_scalarFloat f0, decodeScalarFloat, f1]
  show mbz _ _ = _
  rw [f2, f3, f4, f5, f6]; rfl
theorem sfma (d : BitVec 6) (a : BitVec 6) (b : BitVec 6) (p : BitVec 2) : Statement (.sfma d a b p) := by
  intro _
  show decodeFields (encode (.sfma d a b p)) = .ok (.sfma d a b p)
  have e : (encode (.sfma d a b p)).toNat = catN [⟨7, 12#7⟩, ⟨6, d⟩, ⟨6, a⟩, ⟨6, b⟩, ⟨4, 3#4⟩, ⟨2, p⟩, ⟨1, 0#1⟩] :=
    cat_cons _ (cat_cons _ (cat_cons _ (cat_cons _ (cat_cons _ (cat_cons _ (cat_one _))))))
  generalize encode (.sfma d a b p) = wd at e ⊢
  have f0 : fld wd 0 7 = 12#7 := fld_cat [] _ _ e
  have f1 : fld wd 25 4 = 3#4 := fld_cat [⟨7, 12#7⟩, ⟨6, d⟩, ⟨6, a⟩, ⟨6, b⟩] _ _ e
  have f2 : fld wd 31 1 = 0#1 := fld_cat [⟨7, 12#7⟩, ⟨6, d⟩, ⟨6, a⟩, ⟨6, b⟩, ⟨4, 3#4⟩, ⟨2, p⟩] _ _ e
  have f3 : fld wd 7 6 = d := fld_cat [⟨7, 12#7⟩] _ _ e
  have f4 : fld wd 13 6 = a := fld_cat [⟨7, 12#7⟩, ⟨6, d⟩] _ _ e
  have f5 : fld wd 19 6 = b := fld_cat [⟨7, 12#7⟩, ⟨6, d⟩, ⟨6, a⟩] _ _ e
  have f6 : fld wd 29 2 = p := fld_cat [⟨7, 12#7⟩, ⟨6, d⟩, ⟨6, a⟩, ⟨6, b⟩, ⟨4, 3#4⟩] _ _ e
  rw [decodeFields_scalarFloat f0, decodeScalarFloat, f1]
  show mbz _ _ = _
  rw [f2, f3, f4, f5, f6]; rfl
theorem sfdiv (d : BitVec 6) (a : BitVec 6) (b : BitVec 6) (p : BitVec 2) : Statement (.sfdiv d a b p) := by
  intro _
  show decodeFields (encode (.sfdiv d a b p)) = .ok (.sfdiv d a b p)
  have e : (encode (.sfdiv d a b p)).toNat = catN [⟨7, 12#7⟩, ⟨6, d⟩, ⟨6, a⟩, ⟨6, b⟩, ⟨4, 4#4⟩, ⟨2, p⟩, ⟨1, 0#1⟩] :=
    cat_cons _ (cat_cons _ (cat_cons _ (cat_cons _ (cat_cons _ (cat_cons _ (cat_one _))))))
  generalize encode (.sfdiv d a b p) = wd at e ⊢
  have f0 : fld wd 0 7 = 12#7 := fld_cat [] _ _ e
  have f1 : fld wd 25 4 = 4#4 := fld_cat [⟨7, 12#7⟩, ⟨6, d⟩, ⟨6, a⟩, ⟨6, b⟩] _ _ e
  have f2 : fld wd 31 1 = 0#1 := fld_cat [⟨7, 12#7⟩, ⟨6, d⟩, ⟨6, a⟩, ⟨6, b⟩, ⟨4, 4#4⟩, ⟨2, p⟩] _ _ e
  have f3 : fld wd 7 6 = d := fld_cat [⟨7, 12#7⟩] _ _ e
  have f4 : fld wd 13 6 = a := fld_cat [⟨7, 12#7⟩, ⟨6, d⟩] _ _ e
  have f5 : fld wd 19 6 = b := fld_cat [⟨7, 12#7⟩, ⟨6, d⟩, ⟨6, a⟩] _ _ e
  have f6 : fld wd 29 2 = p := fld_cat [⟨7, 12#7⟩, ⟨6, d⟩, ⟨6, a⟩, ⟨6, b⟩, ⟨4, 4#4⟩] _ _ e
  rw [decodeFields_scalarFloat f0, decodeScalarFloat, f1]
  show mbz _ _ = _
  rw [f2, f3, f4, f5, f6]; rfl
theorem sfsqrt (d : BitVec 6) (a : BitVec 6) (p : BitVec 2) : Statement (.sfsqrt d a p) := by
  intro _
  show decodeFields (encode (.sfsqrt d a p)) = .ok (.sfsqrt d a p)
  have e : (encode (.sfsqrt d a p)).toNat = catN [⟨7, 12#7⟩, ⟨6, d⟩, ⟨6, a⟩, ⟨10, 320#10⟩, ⟨2, p⟩, ⟨1, 0#1⟩] :=
    cat_cons _ (cat_cons _ (cat_cons _ (cat_cons _ (cat_cons _ (cat_one _)))))
  generalize encode (.sfsqrt d a p) = wd at e ⊢
  have f0 : fld wd 0 7 = 12#7 := fld_cat [] _ _ e
  have f1 : fld wd 25 4 = 5#4 := fld_sub [⟨7, 12#7⟩, ⟨6, d⟩, ⟨6, a⟩] 320#10 _ 6 4 (by decide) e
  have f2 : fld wd 19 6 = 0#6 := fld_sub [⟨7, 12#7⟩, ⟨6, d⟩, ⟨6, a⟩] 320#10 _ 0 6 (by decide) e
  have f3 : fld wd 31 1 = 0#1 := fld_cat [⟨7, 12#7⟩, ⟨6, d⟩, ⟨6, a⟩, ⟨10, 320#10⟩, ⟨2, p⟩] _ _ e
  have f4 : fld wd 7 6 = d := fld_cat [⟨7, 12#7⟩] _ _ e
  have f5 : fld wd 13 6 = a := fld_cat [⟨7, 12#7⟩, ⟨6, d⟩] _ _ e
  have f6 : fld wd 29 2 = p := fld_cat [⟨7, 12#7⟩, ⟨6, d⟩, ⟨6, a⟩, ⟨10, 320#10⟩] _ _ e
  rw [decodeFields_scalarFloat f0, decodeScalarFloat, f1]
  show mbz _ _ = _
  rw [f2, f3, f4, f5, f6]; rfl
theorem sfcvt (d : BitVec 6) (a : BitVec 6) (s : BitVec 3) (t : BitVec 3) : Statement (.sfcvt d a s t) := by
  intro _
  show decodeFields (encode (.sfcvt d a s t)) = .ok (.sfcvt d a s t)
  have e : (encode (.sfcvt d a s t)).toNat = catN [⟨7, 12#7⟩, ⟨6, d⟩, ⟨6, a⟩, ⟨3, s⟩, ⟨7, 48#7⟩, ⟨3, t⟩] :=
    cat_cons _ (cat_cons _ (cat_cons _ (cat_cons _ (cat_cons _ (cat_one _)))))
  generalize encode (.sfcvt d a s t) = wd at e ⊢
  have f0 : fld wd 0 7 = 12#7 := fld_cat [] _ _ e
  have f1 : fld wd 25 4 = 6#4 := fld_sub [⟨7, 12#7⟩, ⟨6, d⟩, ⟨6, a⟩, ⟨3, s⟩] 48#7 _ 3 4 (by decide) e
  have f2 : fld wd 22 3 = 0#3 := fld_sub [⟨7, 12#7⟩, ⟨6, d⟩, ⟨6, a⟩, ⟨3, s⟩] 48#7 _ 0 3 (by decide) e
  have f3 : fld wd 7 6 = d := fld_cat [⟨7, 12#7⟩] _ _ e
  have f4 : fld wd 13 6 = a := fld_cat [⟨7, 12#7⟩, ⟨6, d⟩] _ _ e
  have f5 : fld wd 19 3 = s := fld_cat [⟨7, 12#7⟩, ⟨6, d⟩, ⟨6, a⟩] _ _ e
  have f6 : fld wd 29 3 = t := fld_cat [⟨7, 12#7⟩, ⟨6, d⟩, ⟨6, a⟩, ⟨3, s⟩, ⟨7, 48#7⟩] _ _ e
  rw [decodeFields_scalarFloat f0, decodeScalarFloat, f1]
  show mbz _ _ = _
  rw [f2, f3, f4, f5, f6]; rfl
theorem sfmm (d : BitVec 6) (a : BitVec 6) (b : BitVec 6) (p : BitVec 2) (x : BitVec 1) : Statement (.sfmm d a b p x) := by
  intro _
  show decodeFields (encode (.sfmm d a b p x)) = .ok (.sfmm d a b p x)
  have e : (encode (.sfmm d a b p x)).toNat = catN [⟨7, 12#7⟩, ⟨6, d⟩, ⟨6, a⟩, ⟨6, b⟩, ⟨4, 7#4⟩, ⟨2, p⟩, ⟨1, x⟩] :=
    cat_cons _ (cat_cons _ (cat_cons _ (cat_cons _ (cat_cons _ (cat_cons _ (cat_one _))))))
  generalize encode (.sfmm d a b p x) = wd at e ⊢
  have f0 : fld wd 0 7 = 12#7 := fld_cat [] _ _ e
  have f1 : fld wd 25 4 = 7#4 := fld_cat [⟨7, 12#7⟩, ⟨6, d⟩, ⟨6, a⟩, ⟨6, b⟩] _ _ e
  have f2 : fld wd 7 6 = d := fld_cat [⟨7, 12#7⟩] _ _ e
  have f3 : fld wd 13 6 = a := fld_cat [⟨7, 12#7⟩, ⟨6, d⟩] _ _ e
  have f4 : fld wd 19 6 = b := fld_cat [⟨7, 12#7⟩, ⟨6, d⟩, ⟨6, a⟩] _ _ e
  have f5 : fld wd 29 2 = p := fld_cat [⟨7, 12#7⟩, ⟨6, d⟩, ⟨6, a⟩, ⟨6, b⟩, ⟨4, 7#4⟩] _ _ e
  have f6 : fld wd 31 1 = x := fld_cat [⟨7, 12#7⟩, ⟨6, d⟩, ⟨6, a⟩, ⟨6, b⟩, ⟨4, 7#4⟩, ⟨2, p⟩] _ _ e
  rw [decodeFields_scalarFloat f0, decodeScalarFloat, f1]
  show Except.ok _ = _
  rw [f2, f3, f4, f5, f6]
theorem sfcmp (d : BitVec 6) (a : BitVec 6) (b : BitVec 6) (c : BitVec 2) (p : BitVec 2) : Statement (.sfcmp d a b c p) := by
  intro _
  obtain rfl | rfl | rfl | rfl : c = 0#2 ∨ c = 1#2 ∨ c = 2#2 ∨ c = 3#2 :=
    (by decide : ∀ c : BitVec 2, c = 0#2 ∨ c = 1#2 ∨ c = 2#2 ∨ c = 3#2) c
  · show decodeFields (encode (.sfcmp d a b 0#2 p)) = .ok (.sfcmp d a b 0#2 p)
    have e : (encode (.sfcmp d a b 0#2 p)).toNat = catN [⟨7, 12#7⟩, ⟨6, d⟩, ⟨6, a⟩, ⟨6, b⟩, ⟨2, 0#2⟩, ⟨2, 2#2⟩, ⟨2, p⟩, ⟨1, 0#1⟩] :=
      cat_cons _ (cat_cons _ (cat_cons _ (cat_cons _ (cat_cons _ (cat_cons _ (cat_cons _ (cat_one _)))))))
    generalize encode (.sfcmp d a b 0#2 p) = wd at e ⊢
    have f0 : fld wd 0 7 = 12#7 := fld_cat [] _ _ e
    have f1 : fld wd 25 4 = 8#4 := BitVec.eq_of_toNat_eq (fld_pair [⟨7, 12#7⟩, ⟨6, d⟩, ⟨6, a⟩, ⟨6, b⟩] 0#2 2#2 _ e)
    have f2 : fld wd 31 1 = 0#1 := fld_cat [⟨7, 12#7⟩, ⟨6, d⟩, ⟨6, a⟩, ⟨6, b⟩, ⟨2, 0#2⟩, ⟨2, 2#2⟩, ⟨2, p⟩] _ _ e
    have f3 : fld wd 7 6 = d := fld_cat [⟨7, 12#7⟩] _ _ e
    have f4 : fld wd 13 6 = a := fld_cat [⟨7, 12#7⟩, ⟨6, d⟩] _ _ e
    have f5 : fld wd 19 6 = b := fld_cat [⟨7, 12#7⟩, ⟨6, d⟩, ⟨6, a⟩] _ _ e
    have f6 : fld wd 25 2 = 0#2 := fld_cat [⟨7, 12#7⟩, ⟨6, d⟩, ⟨6, a⟩, ⟨6, b⟩] _ _ e
    have f7 : fld wd 29 2 = p := fld_cat [⟨7, 12#7⟩, ⟨6, d⟩, ⟨6, a⟩, ⟨6, b⟩, ⟨2, 0#2⟩, ⟨2, 2#2⟩] _ _ e
    rw [decodeFields_scalarFloat f0, decodeScalarFloat, f1]
    show mbz _ _ = _
    rw [f2, f3, f4, f5, f6, f7]; rfl
  · show decodeFields (encode (.sfcmp d a b 1#2 p)) = .ok (.sfcmp d a b 1#2 p)
    have e : (encode (.sfcmp d a b 1#2 p)).toNat = catN [⟨7, 12#7⟩, ⟨6, d⟩, ⟨6, a⟩, ⟨6, b⟩, ⟨2, 1#2⟩, ⟨2, 2#2⟩, ⟨2, p⟩, ⟨1, 0#1⟩] :=
      cat_cons _ (cat_cons _ (cat_cons _ (cat_cons _ (cat_cons _ (cat_cons _ (cat_cons _ (cat_one _)))))))
    generalize encode (.sfcmp d a b 1#2 p) = wd at e ⊢
    have f0 : fld wd 0 7 = 12#7 := fld_cat [] _ _ e
    have f1 : fld wd 25 4 = 9#4 := BitVec.eq_of_toNat_eq (fld_pair [⟨7, 12#7⟩, ⟨6, d⟩, ⟨6, a⟩, ⟨6, b⟩] 1#2 2#2 _ e)
    have f2 : fld wd 31 1 = 0#1 := fld_cat [⟨7, 12#7⟩, ⟨6, d⟩, ⟨6, a⟩, ⟨6, b⟩, ⟨2, 1#2⟩, ⟨2, 2#2⟩, ⟨2, p⟩] _ _ e
    have f3 : fld wd 7 6 = d := fld_cat [⟨7, 12#7⟩] _ _ e
    have f4 : fld wd 13 6 = a := fld_cat [⟨7, 12#7⟩, ⟨6, d⟩] _ _ e
    have f5 : fld wd 19 6 = b := fld_cat [⟨7, 12#7⟩, ⟨6, d⟩, ⟨6, a⟩] _ _ e
    have f6 : fld wd 25 2 = 1#2 := fld_cat [⟨7, 12#7⟩, ⟨6, d⟩, ⟨6, a⟩, ⟨6, b⟩] _ _ e
    have f7 : fld wd 29 2 = p := fld_cat [⟨7, 12#7⟩, ⟨6, d⟩, ⟨6, a⟩, ⟨6, b⟩, ⟨2, 1#2⟩, ⟨2, 2#2⟩] _ _ e
    rw [decodeFields_scalarFloat f0, decodeScalarFloat, f1]
    show mbz _ _ = _
    rw [f2, f3, f4, f5, f6, f7]; rfl
  · show decodeFields (encode (.sfcmp d a b 2#2 p)) = .ok (.sfcmp d a b 2#2 p)
    have e : (encode (.sfcmp d a b 2#2 p)).toNat = catN [⟨7, 12#7⟩, ⟨6, d⟩, ⟨6, a⟩, ⟨6, b⟩, ⟨2, 2#2⟩, ⟨2, 2#2⟩, ⟨2, p⟩, ⟨1, 0#1⟩] :=
      cat_cons _ (cat_cons _ (cat_cons _ (cat_cons _ (cat_cons _ (cat_cons _ (cat_cons _ (cat_one _)))))))
    generalize encode (.sfcmp d a b 2#2 p) = wd at e ⊢
    have f0 : fld wd 0 7 = 12#7 := fld_cat [] _ _ e
    have f1 : fld wd 25 4 = 10#4 := BitVec.eq_of_toNat_eq (fld_pair [⟨7, 12#7⟩, ⟨6, d⟩, ⟨6, a⟩, ⟨6, b⟩] 2#2 2#2 _ e)
    have f2 : fld wd 31 1 = 0#1 := fld_cat [⟨7, 12#7⟩, ⟨6, d⟩, ⟨6, a⟩, ⟨6, b⟩, ⟨2, 2#2⟩, ⟨2, 2#2⟩, ⟨2, p⟩] _ _ e
    have f3 : fld wd 7 6 = d := fld_cat [⟨7, 12#7⟩] _ _ e
    have f4 : fld wd 13 6 = a := fld_cat [⟨7, 12#7⟩, ⟨6, d⟩] _ _ e
    have f5 : fld wd 19 6 = b := fld_cat [⟨7, 12#7⟩, ⟨6, d⟩, ⟨6, a⟩] _ _ e
    have f6 : fld wd 25 2 = 2#2 := fld_cat [⟨7, 12#7⟩, ⟨6, d⟩, ⟨6, a⟩, ⟨6, b⟩] _ _ e
    have f7 : fld wd 29 2 = p := fld_cat [⟨7, 12#7⟩, ⟨6, d⟩, ⟨6, a⟩, ⟨6, b⟩, ⟨2, 2#2⟩, ⟨2, 2#2⟩] _ _ e
    rw [decodeFields_scalarFloat f0, decodeScalarFloat, f1]
    show mbz _ _ = _
    rw [f2, f3, f4, f5, f6, f7]; rfl
  · show decodeFields (encode (.sfcmp d a b 3#2 p)) = .ok (.sfcmp d a b 3#2 p)
    have e : (encode (.sfcmp d a b 3#2 p)).toNat = catN [⟨7, 12#7⟩, ⟨6, d⟩, ⟨6, a⟩, ⟨6, b⟩, ⟨2, 3#2⟩, ⟨2, 2#2⟩, ⟨2, p⟩, ⟨1, 0#1⟩] :=
      cat_cons _ (cat_cons _ (cat_cons _ (cat_cons _ (cat_cons _ (cat_cons _ (cat_cons _ (cat_one _)))))))
    generalize encode (.sfcmp d a b 3#2 p) = wd at e ⊢
    have f0 : fld wd 0 7 = 12#7 := fld_cat [] _ _ e
    have f1 : fld wd 25 4 = 11#4 := BitVec.eq_of_toNat_eq (fld_pair [⟨7, 12#7⟩, ⟨6, d⟩, ⟨6, a⟩, ⟨6, b⟩] 3#2 2#2 _ e)
    have f2 : fld wd 31 1 = 0#1 := fld_cat [⟨7, 12#7⟩, ⟨6, d⟩, ⟨6, a⟩, ⟨6, b⟩, ⟨2, 3#2⟩, ⟨2, 2#2⟩, ⟨2, p⟩] _ _ e
    have f3 : fld wd 7 6 = d := fld_cat [⟨7, 12#7⟩] _ _ e
    have f4 : fld wd 13 6 = a := fld_cat [⟨7, 12#7⟩, ⟨6, d⟩] _ _ e
    have f5 : fld wd 19 6 = b := fld_cat [⟨7, 12#7⟩, ⟨6, d⟩, ⟨6, a⟩] _ _ e
    have f6 : fld wd 25 2 = 3#2 := fld_cat [⟨7, 12#7⟩, ⟨6, d⟩, ⟨6, a⟩, ⟨6, b⟩] _ _ e
    have f7 : fld wd 29 2 = p := fld_cat [⟨7, 12#7⟩, ⟨6, d⟩, ⟨6, a⟩, ⟨6, b⟩, ⟨2, 3#2⟩, ⟨2, 2#2⟩] _ _ e
    rw [decodeFields_scalarFloat f0, decodeScalarFloat, f1]
    show mbz _ _ = _
    rw [f2, f3, f4, f5, f6, f7]; rfl
theorem spset (a : BitVec 6) : Statement (.spset a) := by
  intro _
  show decodeFields (encode (.spset a)) = .ok (.spset a)
  have e : (encode (.spset a)).toNat = catN [⟨7, 13#7⟩, ⟨6, 0#6⟩, ⟨6, a⟩, ⟨13, 0#13⟩] :=
    cat_cons _ (cat_cons _ (cat_cons _ (cat_one _)))
  generalize encode (.spset a) = wd at e ⊢
  have f0 : fld wd 0 7 = 13#7 := fld_cat [] _ _ e
  have f1 : fld wd 7 6 = 0#6 := fld_cat [⟨7, 13#7⟩] _ _ e
  have f2 : fld wd 19 13 = 0#13 := fld_cat [⟨7, 13#7⟩, ⟨6, 0#6⟩, ⟨6, a⟩] _ _ e
  have f3 : fld wd 13 6 = a := fld_cat [⟨7, 13#7⟩, ⟨6, 0#6⟩] _ _ e
  rw [decodeFields_low f0 (by decide), decodeLow, f0]
  show mbz _ _ = _
  rw [f1, f2, f3]; rfl
theorem beq (a : BitVec 6) (b : BitVec 6) (o : BitVec 13) : Statement (.beq a b o) := by
  intro _
  show decodeFields (encode (.beq a b o)) = .ok (.beq a b o)
  have e : (encode (.beq a b o)).toNat = catN [⟨7, 16#7⟩, ⟨6, a⟩, ⟨6, b⟩, ⟨13, o⟩] :=
    cat_cons _ (cat_cons _ (cat_cons _ (cat_one _)))
  generalize encode (.beq a b o) = wd at e ⊢
  have f0 : fld wd 0 7 = 16#7 := fld_cat [] _ _ e
  have f1 : fld wd 7 6 = a := fld_cat [⟨7, 16#7⟩] _ _ e
  have f2 : fld wd 13 6 = b := fld_cat [⟨7, 16#7⟩, ⟨6, a⟩] _ _ e
  have f3 : fld wd 19 13 = o := fld_cat [⟨7, 16#7⟩, ⟨6, a⟩, ⟨6, b⟩] _ _ e
  rw [decodeFields_low f0 (by decide), decodeLow, f0]
  show Except.ok _ = _
  rw [f1, f2, f3]
theorem bne (a : BitVec 6) (b : BitVec 6) (o : BitVec 13) : Statement (.bne a b o) := by
  intro _
  show decodeFields (encode (.bne a b o)) = .ok (.bne a b o)
  have e : (encode (.bne a b o)).toNat = catN [⟨7, 17#7⟩, ⟨6, a⟩, ⟨6, b⟩, ⟨13, o⟩] :=
    cat_cons _ (cat_cons _ (cat_cons _ (cat_one _)))
  generalize encode (.bne a b o) = wd at e ⊢
  have f0 : fld wd 0 7 = 17#7 := fld_cat [] _ _ e
  have f1 : fld wd 7 6 = a := fld_cat [⟨7, 17#7⟩] _ _ e
  have f2 : fld wd 13 6 = b := fld_cat [⟨7, 17#7⟩, ⟨6, a⟩] _ _ e
  have f3 : fld wd 19 13 = o := fld_cat [⟨7, 17#7⟩, ⟨6, a⟩, ⟨6, b⟩] _ _ e
  rw [decodeFields_low f0 (by decide), decodeLow, f0]
  show Except.ok _ = _
  rw [f1, f2, f3]
theorem blt (a : BitVec 6) (b : BitVec 6) (o : BitVec 13) : Statement (.blt a b o) := by
  intro _
  show decodeFields (encode (.blt a b o)) = .ok (.blt a b o)
  have e : (encode (.blt a b o)).toNat = catN [⟨7, 18#7⟩, ⟨6, a⟩, ⟨6, b⟩, ⟨13, o⟩] :=
    cat_cons _ (cat_cons _ (cat_cons _ (cat_one _)))
  generalize encode (.blt a b o) = wd at e ⊢
  have f0 : fld wd 0 7 = 18#7 := fld_cat [] _ _ e
  have f1 : fld wd 7 6 = a := fld_cat [⟨7, 18#7⟩] _ _ e
  have f2 : fld wd 13 6 = b := fld_cat [⟨7, 18#7⟩, ⟨6, a⟩] _ _ e
  have f3 : fld wd 19 13 = o := fld_cat [⟨7, 18#7⟩, ⟨6, a⟩, ⟨6, b⟩] _ _ e
  rw [decodeFields_low f0 (by decide), decodeLow, f0]
  show Except.ok _ = _
  rw [f1, f2, f3]
theorem bge (a : BitVec 6) (b : BitVec 6) (o : BitVec 13) : Statement (.bge a b o) := by
  intro _
  show decodeFields (encode (.bge a b o)) = .ok (.bge a b o)
  have e : (encode (.bge a b o)).toNat = catN [⟨7, 19#7⟩, ⟨6, a⟩, ⟨6, b⟩, ⟨13, o⟩] :=
    cat_cons _ (cat_cons _ (cat_cons _ (cat_one _)))
  generalize encode (.bge a b o) = wd at e ⊢
  have f0 : fld wd 0 7 = 19#7 := fld_cat [] _ _ e
  have f1 : fld wd 7 6 = a := fld_cat [⟨7, 19#7⟩] _ _ e
  have f2 : fld wd 13 6 = b := fld_cat [⟨7, 19#7⟩, ⟨6, a⟩] _ _ e
  have f3 : fld wd 19 13 = o := fld_cat [⟨7, 19#7⟩, ⟨6, a⟩, ⟨6, b⟩] _ _ e
  rw [decodeFields_low f0 (by decide), decodeLow, f0]
  show Except.ok _ = _
  rw [f1, f2, f3]
theorem bltu (a : BitVec 6) (b : BitVec 6) (o : BitVec 13) : Statement (.bltu a b o) := by
  intro _
  show decodeFields (encode (.bltu a b o)) = .ok (.bltu a b o)
  have e : (encode (.bltu a b o)).toNat = catN [⟨7, 20#7⟩, ⟨6, a⟩, ⟨6, b⟩, ⟨13, o⟩] :=
    cat_cons _ (cat_cons _ (cat_cons _ (cat_one _)))
  generalize encode (.bltu a b o) = wd at e ⊢
  have f0 : fld wd 0 7 = 20#7 := fld_cat [] _ _ e
  have f1 : fld wd 7 6 = a := fld_cat [⟨7, 20#7⟩] _ _ e
  have f2 : fld wd 13 6 = b := fld_cat [⟨7, 20#7⟩, ⟨6, a⟩] _ _ e
  have f3 : fld wd 19 13 = o := fld_cat [⟨7, 20#7⟩, ⟨6, a⟩, ⟨6, b⟩] _ _ e
  rw [decodeFields_low f0 (by decide), decodeLow, f0]
  show Except.ok _ = _
  rw [f1, f2, f3]
theorem bgeu (a : BitVec 6) (b : BitVec 6) (o : BitVec 13) : Statement (.bgeu a b o) := by
  intro _
  show decodeFields (encode (.bgeu a b o)) = .ok (.bgeu a b o)
  have e : (encode (.bgeu a b o)).toNat = catN [⟨7, 21#7⟩, ⟨6, a⟩, ⟨6, b⟩, ⟨13, o⟩] :=
    cat_cons _ (cat_cons _ (cat_cons _ (cat_one _)))
  generalize encode (.bgeu a b o) = wd at e ⊢
  have f0 : fld wd 0 7 = 21#7 := fld_cat [] _ _ e
  have f1 : fld wd 7 6 = a := fld_cat [⟨7, 21#7⟩] _ _ e
  have f2 : fld wd 13 6 = b := fld_cat [⟨7, 21#7⟩, ⟨6, a⟩] _ _ e
  have f3 : fld wd 19 13 = o := fld_cat [⟨7, 21#7⟩, ⟨6, a⟩, ⟨6, b⟩] _ _ e
  rw [decodeFields_low f0 (by decide), decodeLow, f0]
  show Except.ok _ = _
  rw [f1, f2, f3]
theorem strip (a : BitVec 6) (o : BitVec 13) : Statement (.strip a o) := by
  intro _
  show decodeFields (encode (.strip a o)) = .ok (.strip a o)
  have e : (encode (.strip a o)).toNat = catN [⟨7, 22#7⟩, ⟨6, a⟩, ⟨6, 0#6⟩, ⟨13, o⟩] :=
    cat_cons _ (cat_cons _ (cat_cons _ (cat_one _)))
  generalize encode (.strip a o) = wd at e ⊢
  have f0 : fld wd 0 7 = 22#7 := fld_cat [] _ _ e
  have f1 : fld wd 13 6 = 0#6 := fld_cat [⟨7, 22#7⟩, ⟨6, a⟩] _ _ e
  have f2 : fld wd 7 6 = a := fld_cat [⟨7, 22#7⟩] _ _ e
  have f3 : fld wd 19 13 = o := fld_cat [⟨7, 22#7⟩, ⟨6, a⟩, ⟨6, 0#6⟩] _ _ e
  rw [decodeFields_low f0 (by decide), decodeLow, f0]
  show mbz _ _ = _
  rw [f1, f2, f3]; rfl
theorem jal (d : BitVec 6) (o : BitVec 19) : Statement (.jal d o) := by
  intro _
  show decodeFields (encode (.jal d o)) = .ok (.jal d o)
  have e : (encode (.jal d o)).toNat = catN [⟨7, 23#7⟩, ⟨6, d⟩, ⟨19, o⟩] :=
    cat_cons _ (cat_cons _ (cat_one _))
  generalize encode (.jal d o) = wd at e ⊢
  have f0 : fld wd 0 7 = 23#7 := fld_cat [] _ _ e
  have f1 : fld wd 7 6 = d := fld_cat [⟨7, 23#7⟩] _ _ e
  have f2 : fld wd 13 19 = o := fld_cat [⟨7, 23#7⟩, ⟨6, d⟩] _ _ e
  rw [decodeFields_low f0 (by decide), decodeLow, f0]
  show Except.ok _ = _
  rw [f1, f2]
theorem jalr (d : BitVec 6) (a : BitVec 6) (i : BitVec 13) : Statement (.jalr d a i) := by
  intro _
  show decodeFields (encode (.jalr d a i)) = .ok (.jalr d a i)
  have e : (encode (.jalr d a i)).toNat = catN [⟨7, 24#7⟩, ⟨6, d⟩, ⟨6, a⟩, ⟨13, i⟩] :=
    cat_cons _ (cat_cons _ (cat_cons _ (cat_one _)))
  generalize encode (.jalr d a i) = wd at e ⊢
  have f0 : fld wd 0 7 = 24#7 := fld_cat [] _ _ e
  have f1 : fld wd 7 6 = d := fld_cat [⟨7, 24#7⟩] _ _ e
  have f2 : fld wd 13 6 = a := fld_cat [⟨7, 24#7⟩, ⟨6, d⟩] _ _ e
  have f3 : fld wd 19 13 = i := fld_cat [⟨7, 24#7⟩, ⟨6, d⟩, ⟨6, a⟩] _ _ e
  rw [decodeFields_low f0 (by decide), decodeLow, f0]
  show Except.ok _ = _
  rw [f1, f2, f3]
theorem ld (d : BitVec 6) (a : BitVec 6) (o : BitVec 10) (z : BitVec 3) : Statement (.ld d a o z) := by
  intro _
  show decodeFields (encode (.ld d a o z)) = .ok (.ld d a o z)
  have e : (encode (.ld d a o z)).toNat = catN [⟨7, 25#7⟩, ⟨6, d⟩, ⟨6, a⟩, ⟨10, o⟩, ⟨3, z⟩] :=
    cat_cons _ (cat_cons _ (cat_cons _ (cat_cons _ (cat_one _))))
  generalize encode (.ld d a o z) = wd at e ⊢
  have f0 : fld wd 0 7 = 25#7 := fld_cat [] _ _ e
  have f1 : fld wd 7 6 = d := fld_cat [⟨7, 25#7⟩] _ _ e
  have f2 : fld wd 13 6 = a := fld_cat [⟨7, 25#7⟩, ⟨6, d⟩] _ _ e
  have f3 : fld wd 19 10 = o := fld_cat [⟨7, 25#7⟩, ⟨6, d⟩, ⟨6, a⟩] _ _ e
  have f4 : fld wd 29 3 = z := fld_cat [⟨7, 25#7⟩, ⟨6, d⟩, ⟨6, a⟩, ⟨10, o⟩] _ _ e
  rw [decodeFields_low f0 (by decide), decodeLow, f0]
  show Except.ok _ = _
  rw [f1, f2, f3, f4]
theorem st (d : BitVec 6) (a : BitVec 6) (o : BitVec 10) (z : BitVec 3) : Statement (.st d a o z) := by
  intro _
  show decodeFields (encode (.st d a o z)) = .ok (.st d a o z)
  have e : (encode (.st d a o z)).toNat = catN [⟨7, 26#7⟩, ⟨6, d⟩, ⟨6, a⟩, ⟨10, o⟩, ⟨3, z⟩] :=
    cat_cons _ (cat_cons _ (cat_cons _ (cat_cons _ (cat_one _))))
  generalize encode (.st d a o z) = wd at e ⊢
  have f0 : fld wd 0 7 = 26#7 := fld_cat [] _ _ e
  have f1 : fld wd 7 6 = d := fld_cat [⟨7, 26#7⟩] _ _ e
  have f2 : fld wd 13 6 = a := fld_cat [⟨7, 26#7⟩, ⟨6, d⟩] _ _ e
  have f3 : fld wd 19 10 = o := fld_cat [⟨7, 26#7⟩, ⟨6, d⟩, ⟨6, a⟩] _ _ e
  have f4 : fld wd 29 3 = z := fld_cat [⟨7, 26#7⟩, ⟨6, d⟩, ⟨6, a⟩, ⟨10, o⟩] _ _ e
  rw [decodeFields_low f0 (by decide), decodeLow, f0]
  show Except.ok _ = _
  rw [f1, f2, f3, f4]
theorem lds (d : BitVec 6) (a : BitVec 6) (c : BitVec 2) (q : BitVec 1) (z : BitVec 3) : Statement (.lds d a c q z) := by
  intro _
  show decodeFields (encode (.lds d a c q z)) = .ok (.lds d a c q z)
  have e : (encode (.lds d a c q z)).toNat = catN [⟨7, 27#7⟩, ⟨6, d⟩, ⟨6, a⟩, ⟨2, c⟩, ⟨1, q⟩, ⟨7, 0#7⟩, ⟨3, z⟩] :=
    cat_cons _ (cat_cons _ (cat_cons _ (cat_cons _ (cat_cons _ (cat_cons _ (cat_one _))))))
  generalize encode (.lds d a c q z) = wd at e ⊢
  have f0 : fld wd 0 7 = 27#7 := fld_cat [] _ _ e
  have f1 : fld wd 22 7 = 0#7 := fld_cat [⟨7, 27#7⟩, ⟨6, d⟩, ⟨6, a⟩, ⟨2, c⟩, ⟨1, q⟩] _ _ e
  have f2 : fld wd 7 6 = d := fld_cat [⟨7, 27#7⟩] _ _ e
  have f3 : fld wd 13 6 = a := fld_cat [⟨7, 27#7⟩, ⟨6, d⟩] _ _ e
  have f4 : fld wd 19 2 = c := fld_cat [⟨7, 27#7⟩, ⟨6, d⟩, ⟨6, a⟩] _ _ e
  have f5 : fld wd 21 1 = q := fld_cat [⟨7, 27#7⟩, ⟨6, d⟩, ⟨6, a⟩, ⟨2, c⟩] _ _ e
  have f6 : fld wd 29 3 = z := fld_cat [⟨7, 27#7⟩, ⟨6, d⟩, ⟨6, a⟩, ⟨2, c⟩, ⟨1, q⟩, ⟨7, 0#7⟩] _ _ e
  rw [decodeFields_low f0 (by decide), decodeLow, f0]
  show mbz _ _ = _
  rw [f1, f2, f3, f4, f5, f6]; rfl
theorem sts (d : BitVec 6) (a : BitVec 6) (c : BitVec 2) (r : BitVec 1) (z : BitVec 3) : Statement (.sts d a c r z) := by
  intro _
  show decodeFields (encode (.sts d a c r z)) = .ok (.sts d a c r z)
  have e : (encode (.sts d a c r z)).toNat = catN [⟨7, 28#7⟩, ⟨6, d⟩, ⟨6, a⟩, ⟨2, c⟩, ⟨1, 0#1⟩, ⟨1, r⟩, ⟨6, 0#6⟩, ⟨3, z⟩] :=
    cat_cons _ (cat_cons _ (cat_cons _ (cat_cons _ (cat_cons _ (cat_cons _ (cat_cons _ (cat_one _)))))))
  generalize encode (.sts d a c r z) = wd at e ⊢
  have f0 : fld wd 0 7 = 28#7 := fld_cat [] _ _ e
  have f1 : fld wd 21 1 = 0#1 := fld_cat [⟨7, 28#7⟩, ⟨6, d⟩, ⟨6, a⟩, ⟨2, c⟩] _ _ e
  have f2 : fld wd 23 6 = 0#6 := fld_cat [⟨7, 28#7⟩, ⟨6, d⟩, ⟨6, a⟩, ⟨2, c⟩, ⟨1, 0#1⟩, ⟨1, r⟩] _ _ e
  have f3 : fld wd 7 6 = d := fld_cat [⟨7, 28#7⟩] _ _ e
  have f4 : fld wd 13 6 = a := fld_cat [⟨7, 28#7⟩, ⟨6, d⟩] _ _ e
  have f5 : fld wd 19 2 = c := fld_cat [⟨7, 28#7⟩, ⟨6, d⟩, ⟨6, a⟩] _ _ e
  have f6 : fld wd 22 1 = r := fld_cat [⟨7, 28#7⟩, ⟨6, d⟩, ⟨6, a⟩, ⟨2, c⟩, ⟨1, 0#1⟩] _ _ e
  have f7 : fld wd 29 3 = z := fld_cat [⟨7, 28#7⟩, ⟨6, d⟩, ⟨6, a⟩, ⟨2, c⟩, ⟨1, 0#1⟩, ⟨1, r⟩, ⟨6, 0#6⟩] _ _ e
  rw [decodeFields_low f0 (by decide), decodeLow, f0]
  show mbz _ _ = _
  rw [f1, f2, f3, f4, f5, f6, f7]; rfl
theorem waitval (d : BitVec 6) (a : BitVec 6) (s : BitVec 2) (q : BitVec 1) (w : BitVec 1) (c : BitVec 3) : Statement (.waitval d a s q w c) := by
  intro _
  show decodeFields (encode (.waitval d a s q w c)) = .ok (.waitval d a s q w c)
  have e : (encode (.waitval d a s q w c)).toNat = catN [⟨7, 29#7⟩, ⟨6, d⟩, ⟨6, a⟩, ⟨2, s⟩, ⟨1, q⟩, ⟨1, w⟩, ⟨6, 0#6⟩, ⟨3, c⟩] :=
    cat_cons _ (cat_cons _ (cat_cons _ (cat_cons _ (cat_cons _ (cat_cons _ (cat_cons _ (cat_one _)))))))
  generalize encode (.waitval d a s q w c) = wd at e ⊢
  have f0 : fld wd 0 7 = 29#7 := fld_cat [] _ _ e
  have f1 : fld wd 23 6 = 0#6 := fld_cat [⟨7, 29#7⟩, ⟨6, d⟩, ⟨6, a⟩, ⟨2, s⟩, ⟨1, q⟩, ⟨1, w⟩] _ _ e
  have f2 : fld wd 7 6 = d := fld_cat [⟨7, 29#7⟩] _ _ e
  have f3 : fld wd 13 6 = a := fld_cat [⟨7, 29#7⟩, ⟨6, d⟩] _ _ e
  have f4 : fld wd 19 2 = s := fld_cat [⟨7, 29#7⟩, ⟨6, d⟩, ⟨6, a⟩] _ _ e
  have f5 : fld wd 21 1 = q := fld_cat [⟨7, 29#7⟩, ⟨6, d⟩, ⟨6, a⟩, ⟨2, s⟩] _ _ e
  have f6 : fld wd 22 1 = w := fld_cat [⟨7, 29#7⟩, ⟨6, d⟩, ⟨6, a⟩, ⟨2, s⟩, ⟨1, q⟩] _ _ e
  have f7 : fld wd 29 3 = c := fld_cat [⟨7, 29#7⟩, ⟨6, d⟩, ⟨6, a⟩, ⟨2, s⟩, ⟨1, q⟩, ⟨1, w⟩, ⟨6, 0#6⟩] _ _ e
  rw [decodeFields_low f0 (by decide), decodeLow, f0]
  show mbz _ _ = _
  rw [f1, f2, f3, f4, f5, f6, f7]; rfl
theorem amo (c : BitVec 2) (d : BitVec 6) (a : BitVec 6) (b : BitVec 6) (o : BitVec 4) (w : BitVec 1) (q : BitVec 1) (r : BitVec 1) : Statement (.amo c d a b o w q r) := by
  intro _
  obtain rfl | rfl | rfl | rfl : c = 0#2 ∨ c = 1#2 ∨ c = 2#2 ∨ c = 3#2 :=
    (by decide : ∀ c : BitVec 2, c = 0#2 ∨ c = 1#2 ∨ c = 2#2 ∨ c = 3#2) c
  · show decodeFields (encode (.amo 0#2 d a b o w q r)) = .ok (.amo 0#2 d a b o w q r)
    have e : (encode (.amo 0#2 d a b o w q r)).toNat = catN [⟨2, 0#2⟩, ⟨5, 8#5⟩, ⟨6, d⟩, ⟨6, a⟩, ⟨6, b⟩, ⟨4, o⟩, ⟨1, w⟩, ⟨1, q⟩, ⟨1, r⟩] :=
      cat_cons _ (cat_cons _ (cat_cons _ (cat_cons _ (cat_cons _ (cat_cons _ (cat_cons _ (cat_cons _ (cat_one _))))))))
    generalize encode (.amo 0#2 d a b o w q r) = wd at e ⊢
    have f0 : fld wd 0 7 = 32#7 := BitVec.eq_of_toNat_eq (fld_pair [] 0#2 8#5 _ e)
    have f1 : fld wd 0 2 = 0#2 := fld_cat [] _ _ e
    have f2 : fld wd 7 6 = d := fld_cat [⟨2, 0#2⟩, ⟨5, 8#5⟩] _ _ e
    have f3 : fld wd 13 6 = a := fld_cat [⟨2, 0#2⟩, ⟨5, 8#5⟩, ⟨6, d⟩] _ _ e
    have f4 : fld wd 19 6 = b := fld_cat [⟨2, 0#2⟩, ⟨5, 8#5⟩, ⟨6, d⟩, ⟨6, a⟩] _ _ e
    have f5 : fld wd 25 4 = o := fld_cat [⟨2, 0#2⟩, ⟨5, 8#5⟩, ⟨6, d⟩, ⟨6, a⟩, ⟨6, b⟩] _ _ e
    have f6 : fld wd 29 1 = w := fld_cat [⟨2, 0#2⟩, ⟨5, 8#5⟩, ⟨6, d⟩, ⟨6, a⟩, ⟨6, b⟩, ⟨4, o⟩] _ _ e
    have f7 : fld wd 30 1 = q := fld_cat [⟨2, 0#2⟩, ⟨5, 8#5⟩, ⟨6, d⟩, ⟨6, a⟩, ⟨6, b⟩, ⟨4, o⟩, ⟨1, w⟩] _ _ e
    have f8 : fld wd 31 1 = r := fld_cat [⟨2, 0#2⟩, ⟨5, 8#5⟩, ⟨6, d⟩, ⟨6, a⟩, ⟨6, b⟩, ⟨4, o⟩, ⟨1, w⟩, ⟨1, q⟩] _ _ e
    rw [decodeFields_vector f0 (by decide), decodeVector, f0]
    show Except.ok _ = _
    rw [f1, f2, f3, f4, f5, f6, f7, f8]
  · show decodeFields (encode (.amo 1#2 d a b o w q r)) = .ok (.amo 1#2 d a b o w q r)
    have e : (encode (.amo 1#2 d a b o w q r)).toNat = catN [⟨2, 1#2⟩, ⟨5, 8#5⟩, ⟨6, d⟩, ⟨6, a⟩, ⟨6, b⟩, ⟨4, o⟩, ⟨1, w⟩, ⟨1, q⟩, ⟨1, r⟩] :=
      cat_cons _ (cat_cons _ (cat_cons _ (cat_cons _ (cat_cons _ (cat_cons _ (cat_cons _ (cat_cons _ (cat_one _))))))))
    generalize encode (.amo 1#2 d a b o w q r) = wd at e ⊢
    have f0 : fld wd 0 7 = 33#7 := BitVec.eq_of_toNat_eq (fld_pair [] 1#2 8#5 _ e)
    have f1 : fld wd 0 2 = 1#2 := fld_cat [] _ _ e
    have f2 : fld wd 7 6 = d := fld_cat [⟨2, 1#2⟩, ⟨5, 8#5⟩] _ _ e
    have f3 : fld wd 13 6 = a := fld_cat [⟨2, 1#2⟩, ⟨5, 8#5⟩, ⟨6, d⟩] _ _ e
    have f4 : fld wd 19 6 = b := fld_cat [⟨2, 1#2⟩, ⟨5, 8#5⟩, ⟨6, d⟩, ⟨6, a⟩] _ _ e
    have f5 : fld wd 25 4 = o := fld_cat [⟨2, 1#2⟩, ⟨5, 8#5⟩, ⟨6, d⟩, ⟨6, a⟩, ⟨6, b⟩] _ _ e
    have f6 : fld wd 29 1 = w := fld_cat [⟨2, 1#2⟩, ⟨5, 8#5⟩, ⟨6, d⟩, ⟨6, a⟩, ⟨6, b⟩, ⟨4, o⟩] _ _ e
    have f7 : fld wd 30 1 = q := fld_cat [⟨2, 1#2⟩, ⟨5, 8#5⟩, ⟨6, d⟩, ⟨6, a⟩, ⟨6, b⟩, ⟨4, o⟩, ⟨1, w⟩] _ _ e
    have f8 : fld wd 31 1 = r := fld_cat [⟨2, 1#2⟩, ⟨5, 8#5⟩, ⟨6, d⟩, ⟨6, a⟩, ⟨6, b⟩, ⟨4, o⟩, ⟨1, w⟩, ⟨1, q⟩] _ _ e
    rw [decodeFields_vector f0 (by decide), decodeVector, f0]
    show Except.ok _ = _
    rw [f1, f2, f3, f4, f5, f6, f7, f8]
  · show decodeFields (encode (.amo 2#2 d a b o w q r)) = .ok (.amo 2#2 d a b o w q r)
    have e : (encode (.amo 2#2 d a b o w q r)).toNat = catN [⟨2, 2#2⟩, ⟨5, 8#5⟩, ⟨6, d⟩, ⟨6, a⟩, ⟨6, b⟩, ⟨4, o⟩, ⟨1, w⟩, ⟨1, q⟩, ⟨1, r⟩] :=
      cat_cons _ (cat_cons _ (cat_cons _ (cat_cons _ (cat_cons _ (cat_cons _ (cat_cons _ (cat_cons _ (cat_one _))))))))
    generalize encode (.amo 2#2 d a b o w q r) = wd at e ⊢
    have f0 : fld wd 0 7 = 34#7 := BitVec.eq_of_toNat_eq (fld_pair [] 2#2 8#5 _ e)
    have f1 : fld wd 0 2 = 2#2 := fld_cat [] _ _ e
    have f2 : fld wd 7 6 = d := fld_cat [⟨2, 2#2⟩, ⟨5, 8#5⟩] _ _ e
    have f3 : fld wd 13 6 = a := fld_cat [⟨2, 2#2⟩, ⟨5, 8#5⟩, ⟨6, d⟩] _ _ e
    have f4 : fld wd 19 6 = b := fld_cat [⟨2, 2#2⟩, ⟨5, 8#5⟩, ⟨6, d⟩, ⟨6, a⟩] _ _ e
    have f5 : fld wd 25 4 = o := fld_cat [⟨2, 2#2⟩, ⟨5, 8#5⟩, ⟨6, d⟩, ⟨6, a⟩, ⟨6, b⟩] _ _ e
    have f6 : fld wd 29 1 = w := fld_cat [⟨2, 2#2⟩, ⟨5, 8#5⟩, ⟨6, d⟩, ⟨6, a⟩, ⟨6, b⟩, ⟨4, o⟩] _ _ e
    have f7 : fld wd 30 1 = q := fld_cat [⟨2, 2#2⟩, ⟨5, 8#5⟩, ⟨6, d⟩, ⟨6, a⟩, ⟨6, b⟩, ⟨4, o⟩, ⟨1, w⟩] _ _ e
    have f8 : fld wd 31 1 = r := fld_cat [⟨2, 2#2⟩, ⟨5, 8#5⟩, ⟨6, d⟩, ⟨6, a⟩, ⟨6, b⟩, ⟨4, o⟩, ⟨1, w⟩, ⟨1, q⟩] _ _ e
    rw [decodeFields_vector f0 (by decide), decodeVector, f0]
    show Except.ok _ = _
    rw [f1, f2, f3, f4, f5, f6, f7, f8]
  · show decodeFields (encode (.amo 3#2 d a b o w q r)) = .ok (.amo 3#2 d a b o w q r)
    have e : (encode (.amo 3#2 d a b o w q r)).toNat = catN [⟨2, 3#2⟩, ⟨5, 8#5⟩, ⟨6, d⟩, ⟨6, a⟩, ⟨6, b⟩, ⟨4, o⟩, ⟨1, w⟩, ⟨1, q⟩, ⟨1, r⟩] :=
      cat_cons _ (cat_cons _ (cat_cons _ (cat_cons _ (cat_cons _ (cat_cons _ (cat_cons _ (cat_cons _ (cat_one _))))))))
    generalize encode (.amo 3#2 d a b o w q r) = wd at e ⊢
    have f0 : fld wd 0 7 = 35#7 := BitVec.eq_of_toNat_eq (fld_pair [] 3#2 8#5 _ e)
    have f1 : fld wd 0 2 = 3#2 := fld_cat [] _ _ e
    have f2 : fld wd 7 6 = d := fld_cat [⟨2, 3#2⟩, ⟨5, 8#5⟩] _ _ e
    have f3 : fld wd 13 6 = a := fld_cat [⟨2, 3#2⟩, ⟨5, 8#5⟩, ⟨6, d⟩] _ _ e
    have f4 : fld wd 19 6 = b := fld_cat [⟨2, 3#2⟩, ⟨5, 8#5⟩, ⟨6, d⟩, ⟨6, a⟩] _ _ e
    have f5 : fld wd 25 4 = o := fld_cat [⟨2, 3#2⟩, ⟨5, 8#5⟩, ⟨6, d⟩, ⟨6, a⟩, ⟨6, b⟩] _ _ e
    have f6 : fld wd 29 1 = w := fld_cat [⟨2, 3#2⟩, ⟨5, 8#5⟩, ⟨6, d⟩, ⟨6, a⟩, ⟨6, b⟩, ⟨4, o⟩] _ _ e
    have f7 : fld wd 30 1 = q := fld_cat [⟨2, 3#2⟩, ⟨5, 8#5⟩, ⟨6, d⟩, ⟨6, a⟩, ⟨6, b⟩, ⟨4, o⟩, ⟨1, w⟩] _ _ e
    have f8 : fld wd 31 1 = r := fld_cat [⟨2, 3#2⟩, ⟨5, 8#5⟩, ⟨6, d⟩, ⟨6, a⟩, ⟨6, b⟩, ⟨4, o⟩, ⟨1, w⟩, ⟨1, q⟩] _ _ e
    rw [decodeFields_vector f0 (by decide), decodeVector, f0]
    show Except.ok _ = _
    rw [f1, f2, f3, f4, f5, f6, f7, f8]
theorem setvl (d : BitVec 6) (a : BitVec 6) : Statement (.setvl d a) := by
  intro _
  show decodeFields (encode (.setvl d a)) = .ok (.setvl d a)
  have e : (encode (.setvl d a)).toNat = catN [⟨7, 36#7⟩, ⟨6, d⟩, ⟨6, a⟩, ⟨13, 0#13⟩] :=
    cat_cons _ (cat_cons _ (cat_cons _ (cat_one _)))
  generalize encode (.setvl d a) = wd at e ⊢
  have f0 : fld wd 0 7 = 36#7 := fld_cat [] _ _ e
  have f1 : fld wd 19 13 = 0#13 := fld_cat [⟨7, 36#7⟩, ⟨6, d⟩, ⟨6, a⟩] _ _ e
  have f2 : fld wd 7 6 = d := fld_cat [⟨7, 36#7⟩] _ _ e
  have f3 : fld wd 13 6 = a := fld_cat [⟨7, 36#7⟩, ⟨6, d⟩] _ _ e
  rw [decodeFields_vector f0 (by decide), decodeVector, f0]
  show mbz _ _ = _
  rw [f1, f2, f3]; rfl
theorem setvli (d : BitVec 6) (i : BitVec 19) : Statement (.setvli d i) := by
  intro _
  show decodeFields (encode (.setvli d i)) = .ok (.setvli d i)
  have e : (encode (.setvli d i)).toNat = catN [⟨7, 37#7⟩, ⟨6, d⟩, ⟨19, i⟩] :=
    cat_cons _ (cat_cons _ (cat_one _))
  generalize encode (.setvli d i) = wd at e ⊢
  have f0 : fld wd 0 7 = 37#7 := fld_cat [] _ _ e
  have f1 : fld wd 7 6 = d := fld_cat [⟨7, 37#7⟩] _ _ e
  have f2 : fld wd 13 19 = i := fld_cat [⟨7, 37#7⟩, ⟨6, d⟩] _ _ e
  rw [decodeFields_vector f0 (by decide), decodeVector, f0]
  show Except.ok _ = _
  rw [f1, f2]
theorem vld (d : BitVec 6) (a : BitVec 6) (b : BitVec 6) (k : BitVec 4) (z : BitVec 1) (m : BitVec 2) : Statement (.vld d a b k z m) := by
  intro _
  show decodeFields (encode (.vld d a b k z m)) = .ok (.vld d a b k z m)
  have e : (encode (.vld d a b k z m)).toNat = catN [⟨7, 40#7⟩, ⟨6, d⟩, ⟨6, a⟩, ⟨6, b⟩, ⟨4, k⟩, ⟨1, z⟩, ⟨2, m⟩] :=
    cat_cons _ (cat_cons _ (cat_cons _ (cat_cons _ (cat_cons _ (cat_cons _ (cat_one _))))))
  generalize encode (.vld d a b k z m) = wd at e ⊢
  have f0 : fld wd 0 7 = 40#7 := fld_cat [] _ _ e
  have f1 : fld wd 7 6 = d := fld_cat [⟨7, 40#7⟩] _ _ e
  have f2 : fld wd 13 6 = a := fld_cat [⟨7, 40#7⟩, ⟨6, d⟩] _ _ e
  have f3 : fld wd 19 6 = b := fld_cat [⟨7, 40#7⟩, ⟨6, d⟩, ⟨6, a⟩] _ _ e
  have f4 : fld wd 25 4 = k := fld_cat [⟨7, 40#7⟩, ⟨6, d⟩, ⟨6, a⟩, ⟨6, b⟩] _ _ e
  have f5 : fld wd 29 1 = z := fld_cat [⟨7, 40#7⟩, ⟨6, d⟩, ⟨6, a⟩, ⟨6, b⟩, ⟨4, k⟩] _ _ e
  have f6 : fld wd 30 2 = m := fld_cat [⟨7, 40#7⟩, ⟨6, d⟩, ⟨6, a⟩, ⟨6, b⟩, ⟨4, k⟩, ⟨1, z⟩] _ _ e
  rw [decodeFields_vector f0 (by decide), decodeVector, f0]
  show Except.ok _ = _
  rw [f1, f2, f3, f4, f5, f6]
theorem vldRaw (d : BitVec 6) (a : BitVec 6) (b : BitVec 6) (k : BitVec 4) (z : BitVec 1) (m : BitVec 2) : Statement (.vldRaw d a b k z m) := by
  intro _
  show decodeFields (encode (.vldRaw d a b k z m)) = .ok (.vldRaw d a b k z m)
  have e : (encode (.vldRaw d a b k z m)).toNat = catN [⟨7, 41#7⟩, ⟨6, d⟩, ⟨6, a⟩, ⟨6, b⟩, ⟨4, k⟩, ⟨1, z⟩, ⟨2, m⟩] :=
    cat_cons _ (cat_cons _ (cat_cons _ (cat_cons _ (cat_cons _ (cat_cons _ (cat_one _))))))
  generalize encode (.vldRaw d a b k z m) = wd at e ⊢
  have f0 : fld wd 0 7 = 41#7 := fld_cat [] _ _ e
  have f1 : fld wd 7 6 = d := fld_cat [⟨7, 41#7⟩] _ _ e
  have f2 : fld wd 13 6 = a := fld_cat [⟨7, 41#7⟩, ⟨6, d⟩] _ _ e
  have f3 : fld wd 19 6 = b := fld_cat [⟨7, 41#7⟩, ⟨6, d⟩, ⟨6, a⟩] _ _ e
  have f4 : fld wd 25 4 = k := fld_cat [⟨7, 41#7⟩, ⟨6, d⟩, ⟨6, a⟩, ⟨6, b⟩] _ _ e
  have f5 : fld wd 29 1 = z := fld_cat [⟨7, 41#7⟩, ⟨6, d⟩, ⟨6, a⟩, ⟨6, b⟩, ⟨4, k⟩] _ _ e
  have f6 : fld wd 30 2 = m := fld_cat [⟨7, 41#7⟩, ⟨6, d⟩, ⟨6, a⟩, ⟨6, b⟩, ⟨4, k⟩, ⟨1, z⟩] _ _ e
  rw [decodeFields_vector f0 (by decide), decodeVector, f0]
  show Except.ok _ = _
  rw [f1, f2, f3, f4, f5, f6]
theorem vst (d : BitVec 6) (a : BitVec 6) (b : BitVec 6) (k : BitVec 4) (m : BitVec 2) : Statement (.vst d a b k m) := by
  intro _
  show decodeFields (encode (.vst d a b k m)) = .ok (.vst d a b k m)
  have e : (encode (.vst d a b k m)).toNat = catN [⟨7, 42#7⟩, ⟨6, d⟩, ⟨6, a⟩, ⟨6, b⟩, ⟨4, k⟩, ⟨1, 0#1⟩, ⟨2, m⟩] :=
    cat_cons _ (cat_cons _ (cat_cons _ (cat_cons _ (cat_cons _ (cat_cons _ (cat_one _))))))
  generalize encode (.vst d a b k m) = wd at e ⊢
  have f0 : fld wd 0 7 = 42#7 := fld_cat [] _ _ e
  have f1 : fld wd 29 1 = 0#1 := fld_cat [⟨7, 42#7⟩, ⟨6, d⟩, ⟨6, a⟩, ⟨6, b⟩, ⟨4, k⟩] _ _ e
  have f2 : fld wd 7 6 = d := fld_cat [⟨7, 42#7⟩] _ _ e
  have f3 : fld wd 13 6 = a := fld_cat [⟨7, 42#7⟩, ⟨6, d⟩] _ _ e
  have f4 : fld wd 19 6 = b := fld_cat [⟨7, 42#7⟩, ⟨6, d⟩, ⟨6, a⟩] _ _ e
  have f5 : fld wd 25 4 = k := fld_cat [⟨7, 42#7⟩, ⟨6, d⟩, ⟨6, a⟩, ⟨6, b⟩] _ _ e
  have f6 : fld wd 30 2 = m := fld_cat [⟨7, 42#7⟩, ⟨6, d⟩, ⟨6, a⟩, ⟨6, b⟩, ⟨4, k⟩, ⟨1, 0#1⟩] _ _ e
  rw [decodeFields_vector f0 (by decide), decodeVector, f0]
  show mbz _ _ = _
  rw [f1, f2, f3, f4, f5, f6]; rfl
theorem vstRaw (d : BitVec 6) (a : BitVec 6) (b : BitVec 6) (k : BitVec 4) (m : BitVec 2) : Statement (.vstRaw d a b k m) := by
  intro _
  show decodeFields (encode (.vstRaw d a b k m)) = .ok (.vstRaw d a b k m)
  have e : (encode (.vstRaw d a b k m)).toNat = catN [⟨7, 43#7⟩, ⟨6, d⟩, ⟨6, a⟩, ⟨6, b⟩, ⟨4, k⟩, ⟨1, 0#1⟩, ⟨2, m⟩] :=
    cat_cons _ (cat_cons _ (cat_cons _ (cat_cons _ (cat_cons _ (cat_cons _ (cat_one _))))))
  generalize encode (.vstRaw d a b k m) = wd at e ⊢
  have f0 : fld wd 0 7 = 43#7 := fld_cat [] _ _ e
  have f1 : fld wd 29 1 = 0#1 := fld_cat [⟨7, 43#7⟩, ⟨6, d⟩, ⟨6, a⟩, ⟨6, b⟩, ⟨4, k⟩] _ _ e
  have f2 : fld wd 7 6 = d := fld_cat [⟨7, 43#7⟩] _ _ e
  have f3 : fld wd 13 6 = a := fld_cat [⟨7, 43#7⟩, ⟨6, d⟩] _ _ e
  have f4 : fld wd 19 6 = b := fld_cat [⟨7, 43#7⟩, ⟨6, d⟩, ⟨6, a⟩] _ _ e
  have f5 : fld wd 25 4 = k := fld_cat [⟨7, 43#7⟩, ⟨6, d⟩, ⟨6, a⟩, ⟨6, b⟩] _ _ e
  have f6 : fld wd 30 2 = m := fld_cat [⟨7, 43#7⟩, ⟨6, d⟩, ⟨6, a⟩, ⟨6, b⟩, ⟨4, k⟩, ⟨1, 0#1⟩] _ _ e
  rw [decodeFields_vector f0 (by decide), decodeVector, f0]
  show mbz _ _ = _
  rw [f1, f2, f3, f4, f5, f6]; rfl
theorem vldff (d : BitVec 6) (a : BitVec 6) (b : BitVec 6) (k : BitVec 4) (z : BitVec 1) (m : BitVec 2) : Statement (.vldff d a b k z m) := by
  intro _
  show decodeFields (encode (.vldff d a b k z m)) = .ok (.vldff d a b k z m)
  have e : (encode (.vldff d a b k z m)).toNat = catN [⟨7, 44#7⟩, ⟨6, d⟩, ⟨6, a⟩, ⟨6, b⟩, ⟨4, k⟩, ⟨1, z⟩, ⟨2, m⟩] :=
    cat_cons _ (cat_cons _ (cat_cons _ (cat_cons _ (cat_cons _ (cat_cons _ (cat_one _))))))
  generalize encode (.vldff d a b k z m) = wd at e ⊢
  have f0 : fld wd 0 7 = 44#7 := fld_cat [] _ _ e
  have f1 : fld wd 7 6 = d := fld_cat [⟨7, 44#7⟩] _ _ e
  have f2 : fld wd 13 6 = a := fld_cat [⟨7, 44#7⟩, ⟨6, d⟩] _ _ e
  have f3 : fld wd 19 6 = b := fld_cat [⟨7, 44#7⟩, ⟨6, d⟩, ⟨6, a⟩] _ _ e
  have f4 : fld wd 25 4 = k := fld_cat [⟨7, 44#7⟩, ⟨6, d⟩, ⟨6, a⟩, ⟨6, b⟩] _ _ e
  have f5 : fld wd 29 1 = z := fld_cat [⟨7, 44#7⟩, ⟨6, d⟩, ⟨6, a⟩, ⟨6, b⟩, ⟨4, k⟩] _ _ e
  have f6 : fld wd 30 2 = m := fld_cat [⟨7, 44#7⟩, ⟨6, d⟩, ⟨6, a⟩, ⟨6, b⟩, ⟨4, k⟩, ⟨1, z⟩] _ _ e
  rw [decodeFields_vector f0 (by decide), decodeVector, f0]
  show Except.ok _ = _
  rw [f1, f2, f3, f4, f5, f6]
theorem vldffRaw (d : BitVec 6) (a : BitVec 6) (b : BitVec 6) (k : BitVec 4) (z : BitVec 1) (m : BitVec 2) : Statement (.vldffRaw d a b k z m) := by
  intro _
  show decodeFields (encode (.vldffRaw d a b k z m)) = .ok (.vldffRaw d a b k z m)
  have e : (encode (.vldffRaw d a b k z m)).toNat = catN [⟨7, 45#7⟩, ⟨6, d⟩, ⟨6, a⟩, ⟨6, b⟩, ⟨4, k⟩, ⟨1, z⟩, ⟨2, m⟩] :=
    cat_cons _ (cat_cons _ (cat_cons _ (cat_cons _ (cat_cons _ (cat_cons _ (cat_one _))))))
  generalize encode (.vldffRaw d a b k z m) = wd at e ⊢
  have f0 : fld wd 0 7 = 45#7 := fld_cat [] _ _ e
  have f1 : fld wd 7 6 = d := fld_cat [⟨7, 45#7⟩] _ _ e
  have f2 : fld wd 13 6 = a := fld_cat [⟨7, 45#7⟩, ⟨6, d⟩] _ _ e
  have f3 : fld wd 19 6 = b := fld_cat [⟨7, 45#7⟩, ⟨6, d⟩, ⟨6, a⟩] _ _ e
  have f4 : fld wd 25 4 = k := fld_cat [⟨7, 45#7⟩, ⟨6, d⟩, ⟨6, a⟩, ⟨6, b⟩] _ _ e
  have f5 : fld wd 29 1 = z := fld_cat [⟨7, 45#7⟩, ⟨6, d⟩, ⟨6, a⟩, ⟨6, b⟩, ⟨4, k⟩] _ _ e
  have f6 : fld wd 30 2 = m := fld_cat [⟨7, 45#7⟩, ⟨6, d⟩, ⟨6, a⟩, ⟨6, b⟩, ⟨4, k⟩, ⟨1, z⟩] _ _ e
  rw [decodeFields_vector f0 (by decide), decodeVector, f0]
  show Except.ok _ = _
  rw [f1, f2, f3, f4, f5, f6]
theorem vamo (d : BitVec 6) (o : BitVec 4) (c : BitVec 2) (b : BitVec 6) (k : BitVec 4) (z : BitVec 1) (q : BitVec 1) (r : BitVec 1) : Statement (.vamo d o c b k z q r) := by
  intro _
  show decodeFields (encode (.vamo d o c b k z q r)) = .ok (.vamo d o c b k z q r)
  have e : (encode (.vamo d o c b k z q r)).toNat = catN [⟨7, 46#7⟩, ⟨6, d⟩, ⟨4, o⟩, ⟨2, c⟩, ⟨6, b⟩, ⟨4, k⟩, ⟨1, z⟩, ⟨1, q⟩, ⟨1, r⟩] :=
    cat_cons _ (cat_cons _ (cat_cons _ (cat_cons _ (cat_cons _ (cat_cons _ (cat_cons _ (cat_cons _ (cat_one _))))))))
  generalize encode (.vamo d o c b k z q r) = wd at e ⊢
  have f0 : fld wd 0 7 = 46#7 := fld_cat [] _ _ e
  have f1 : fld wd 7 6 = d := fld_cat [⟨7, 46#7⟩] _ _ e
  have f2 : fld wd 13 4 = o := fld_cat [⟨7, 46#7⟩, ⟨6, d⟩] _ _ e
  have f3 : fld wd 17 2 = c := fld_cat [⟨7, 46#7⟩, ⟨6, d⟩, ⟨4, o⟩] _ _ e
  have f4 : fld wd 19 6 = b := fld_cat [⟨7, 46#7⟩, ⟨6, d⟩, ⟨4, o⟩, ⟨2, c⟩] _ _ e
  have f5 : fld wd 25 4 = k := fld_cat [⟨7, 46#7⟩, ⟨6, d⟩, ⟨4, o⟩, ⟨2, c⟩, ⟨6, b⟩] _ _ e
  have f6 : fld wd 29 1 = z := fld_cat [⟨7, 46#7⟩, ⟨6, d⟩, ⟨4, o⟩, ⟨2, c⟩, ⟨6, b⟩, ⟨4, k⟩] _ _ e
  have f7 : fld wd 30 1 = q := fld_cat [⟨7, 46#7⟩, ⟨6, d⟩, ⟨4, o⟩, ⟨2, c⟩, ⟨6, b⟩, ⟨4, k⟩, ⟨1, z⟩] _ _ e
  have f8 : fld wd 31 1 = r := fld_cat [⟨7, 46#7⟩, ⟨6, d⟩, ⟨4, o⟩, ⟨2, c⟩, ⟨6, b⟩, ⟨4, k⟩, ⟨1, z⟩, ⟨1, q⟩] _ _ e
  rw [decodeFields_vector f0 (by decide), decodeVector, f0]
  show Except.ok _ = _
  rw [f1, f2, f3, f4, f5, f6, f7, f8]
theorem vadd (d : BitVec 6) (a : BitVec 6) (b : BitVec 6) (k : BitVec 4) (z : BitVec 1) (s : BitVec 1) : Statement (.vadd d a b k z s) := by
  intro _
  show decodeFields (encode (.vadd d a b k z s)) = .ok (.vadd d a b k z s)
  have e : (encode (.vadd d a b k z s)).toNat = catN [⟨7, 48#7⟩, ⟨6, d⟩, ⟨6, a⟩, ⟨6, b⟩, ⟨4, k⟩, ⟨1, z⟩, ⟨1, s⟩, ⟨1, 0#1⟩] :=
    cat_cons _ (cat_cons _ (cat_cons _ (cat_cons _ (cat_cons _ (cat_cons _ (cat_cons _ (cat_one _)))))))
  generalize encode (.vadd d a b k z s) = wd at e ⊢
  have f0 : fld wd 0 7 = 48#7 := fld_cat [] _ _ e
  have f1 : fld wd 31 1 = 0#1 := fld_cat [⟨7, 48#7⟩, ⟨6, d⟩, ⟨6, a⟩, ⟨6, b⟩, ⟨4, k⟩, ⟨1, z⟩, ⟨1, s⟩] _ _ e
  have f2 : fld wd 7 6 = d := fld_cat [⟨7, 48#7⟩] _ _ e
  have f3 : fld wd 13 6 = a := fld_cat [⟨7, 48#7⟩, ⟨6, d⟩] _ _ e
  have f4 : fld wd 19 6 = b := fld_cat [⟨7, 48#7⟩, ⟨6, d⟩, ⟨6, a⟩] _ _ e
  have f5 : fld wd 25 4 = k := fld_cat [⟨7, 48#7⟩, ⟨6, d⟩, ⟨6, a⟩, ⟨6, b⟩] _ _ e
  have f6 : fld wd 29 1 = z := fld_cat [⟨7, 48#7⟩, ⟨6, d⟩, ⟨6, a⟩, ⟨6, b⟩, ⟨4, k⟩] _ _ e
  have f7 : fld wd 30 1 = s := fld_cat [⟨7, 48#7⟩, ⟨6, d⟩, ⟨6, a⟩, ⟨6, b⟩, ⟨4, k⟩, ⟨1, z⟩] _ _ e
  rw [decodeFields_vector f0 (by decide), decodeVector, f0]
  show mbz _ _ = _
  rw [f1, f2, f3, f4, f5, f6, f7]; rfl
theorem vsub (d : BitVec 6) (a : BitVec 6) (b : BitVec 6) (k : BitVec 4) (z : BitVec 1) (s : BitVec 1) : Statement (.vsub d a b k z s) := by
  intro _
  show decodeFields (encode (.vsub d a b k z s)) = .ok (.vsub d a b k z s)
  have e : (encode (.vsub d a b k z s)).toNat = catN [⟨7, 49#7⟩, ⟨6, d⟩, ⟨6, a⟩, ⟨6, b⟩, ⟨4, k⟩, ⟨1, z⟩, ⟨1, s⟩, ⟨1, 0#1⟩] :=
    cat_cons _ (cat_cons _ (cat_cons _ (cat_cons _ (cat_cons _ (cat_cons _ (cat_cons _ (cat_one _)))))))
  generalize encode (.vsub d a b k z s) = wd at e ⊢
  have f0 : fld wd 0 7 = 49#7 := fld_cat [] _ _ e
  have f1 : fld wd 31 1 = 0#1 := fld_cat [⟨7, 49#7⟩, ⟨6, d⟩, ⟨6, a⟩, ⟨6, b⟩, ⟨4, k⟩, ⟨1, z⟩, ⟨1, s⟩] _ _ e
  have f2 : fld wd 7 6 = d := fld_cat [⟨7, 49#7⟩] _ _ e
  have f3 : fld wd 13 6 = a := fld_cat [⟨7, 49#7⟩, ⟨6, d⟩] _ _ e
  have f4 : fld wd 19 6 = b := fld_cat [⟨7, 49#7⟩, ⟨6, d⟩, ⟨6, a⟩] _ _ e
  have f5 : fld wd 25 4 = k := fld_cat [⟨7, 49#7⟩, ⟨6, d⟩, ⟨6, a⟩, ⟨6, b⟩] _ _ e
  have f6 : fld wd 29 1 = z := fld_cat [⟨7, 49#7⟩, ⟨6, d⟩, ⟨6, a⟩, ⟨6, b⟩, ⟨4, k⟩] _ _ e
  have f7 : fld wd 30 1 = s := fld_cat [⟨7, 49#7⟩, ⟨6, d⟩, ⟨6, a⟩, ⟨6, b⟩, ⟨4, k⟩, ⟨1, z⟩] _ _ e
  rw [decodeFields_vector f0 (by decide), decodeVector, f0]
  show mbz _ _ = _
  rw [f1, f2, f3, f4, f5, f6, f7]; rfl
theorem vmul (d : BitVec 6) (a : BitVec 6) (b : BitVec 6) (k : BitVec 4) (z : BitVec 1) (s : BitVec 1) : Statement (.vmul d a b k z s) := by
  intro _
  show decodeFields (encode (.vmul d a b k z s)) = .ok (.vmul d a b k z s)
  have e : (encode (.vmul d a b k z s)).toNat = catN [⟨7, 50#7⟩, ⟨6, d⟩, ⟨6, a⟩, ⟨6, b⟩, ⟨4, k⟩, ⟨1, z⟩, ⟨1, s⟩, ⟨1, 0#1⟩] :=
    cat_cons _ (cat_cons _ (cat_cons _ (cat_cons _ (cat_cons _ (cat_cons _ (cat_cons _ (cat_one _)))))))
  generalize encode (.vmul d a b k z s) = wd at e ⊢
  have f0 : fld wd 0 7 = 50#7 := fld_cat [] _ _ e
  have f1 : fld wd 31 1 = 0#1 := fld_cat [⟨7, 50#7⟩, ⟨6, d⟩, ⟨6, a⟩, ⟨6, b⟩, ⟨4, k⟩, ⟨1, z⟩, ⟨1, s⟩] _ _ e
  have f2 : fld wd 7 6 = d := fld_cat [⟨7, 50#7⟩] _ _ e
  have f3 : fld wd 13 6 = a := fld_cat [⟨7, 50#7⟩, ⟨6, d⟩] _ _ e
  have f4 : fld wd 19 6 = b := fld_cat [⟨7, 50#7⟩, ⟨6, d⟩, ⟨6, a⟩] _ _ e
  have f5 : fld wd 25 4 = k := fld_cat [⟨7, 50#7⟩, ⟨6, d⟩, ⟨6, a⟩, ⟨6, b⟩] _ _ e
  have f6 : fld wd 29 1 = z := fld_cat [⟨7, 50#7⟩, ⟨6, d⟩, ⟨6, a⟩, ⟨6, b⟩, ⟨4, k⟩] _ _ e
  have f7 : fld wd 30 1 = s := fld_cat [⟨7, 50#7⟩, ⟨6, d⟩, ⟨6, a⟩, ⟨6, b⟩, ⟨4, k⟩, ⟨1, z⟩] _ _ e
  rw [decodeFields_vector f0 (by decide), decodeVector, f0]
  show mbz _ _ = _
  rw [f1, f2, f3, f4, f5, f6, f7]; rfl
theorem vmulh (d : BitVec 6) (a : BitVec 6) (b : BitVec 6) (k : BitVec 4) (z : BitVec 1) (s : BitVec 1) (u : BitVec 1) : Statement (.vmulh d a b k z s u) := by
  intro _
  show decodeFields (encode (.vmulh d a b k z s u)) = .ok (.vmulh d a b k z s u)
  have e : (encode (.vmulh d a b k z s u)).toNat = catN [⟨7, 51#7⟩, ⟨6, d⟩, ⟨6, a⟩, ⟨6, b⟩, ⟨4, k⟩, ⟨1, z⟩, ⟨1, s⟩, ⟨1, u⟩] :=
    cat_cons _ (cat_cons _ (cat_cons _ (cat_cons _ (cat_cons _ (cat_cons _ (cat_cons _ (cat_one _)))))))
  generalize encode (.vmulh d a b k z s u) = wd at e ⊢
  have f0 : fld wd 0 7 = 51#7 := fld_cat [] _ _ e
  have f1 : fld wd 7 6 = d := fld_cat [⟨7, 51#7⟩] _ _ e
  have f2 : fld wd 13 6 = a := fld_cat [⟨7, 51#7⟩, ⟨6, d⟩] _ _ e
  have f3 : fld wd 19 6 = b := fld_cat [⟨7, 51#7⟩, ⟨6, d⟩, ⟨6, a⟩] _ _ e
  have f4 : fld wd 25 4 = k := fld_cat [⟨7, 51#7⟩, ⟨6, d⟩, ⟨6, a⟩, ⟨6, b⟩] _ _ e
  have f5 : fld wd 29 1 = z := fld_cat [⟨7, 51#7⟩, ⟨6, d⟩, ⟨6, a⟩, ⟨6, b⟩, ⟨4, k⟩] _ _ e
  have f6 : fld wd 30 1 = s := fld_cat [⟨7, 51#7⟩, ⟨6, d⟩, ⟨6, a⟩, ⟨6, b⟩, ⟨4, k⟩, ⟨1, z⟩] _ _ e
  have f7 : fld wd 31 1 = u := fld_cat [⟨7, 51#7⟩, ⟨6, d⟩, ⟨6, a⟩, ⟨6, b⟩, ⟨4, k⟩, ⟨1, z⟩, ⟨1, s⟩] _ _ e
  rw [decodeFields_vector f0 (by decide), decodeVector, f0]
  show Except.ok _ = _
  rw [f1, f2, f3, f4, f5, f6, f7]
theorem vmin (d : BitVec 6) (a : BitVec 6) (b : BitVec 6) (k : BitVec 4) (z : BitVec 1) (s : BitVec 1) (u : BitVec 1) : Statement (.vmin d a b k z s u) := by
  intro _
  show decodeFields (encode (.vmin d a b k z s u)) = .ok (.vmin d a b k z s u)
  have e : (encode (.vmin d a b k z s u)).toNat = catN [⟨7, 52#7⟩, ⟨6, d⟩, ⟨6, a⟩, ⟨6, b⟩, ⟨4, k⟩, ⟨1, z⟩, ⟨1, s⟩, ⟨1, u⟩] :=
    cat_cons _ (cat_cons _ (cat_cons _ (cat_cons _ (cat_cons _ (cat_cons _ (cat_cons _ (cat_one _)))))))
  generalize encode (.vmin d a b k z s u) = wd at e ⊢
  have f0 : fld wd 0 7 = 52#7 := fld_cat [] _ _ e
  have f1 : fld wd 7 6 = d := fld_cat [⟨7, 52#7⟩] _ _ e
  have f2 : fld wd 13 6 = a := fld_cat [⟨7, 52#7⟩, ⟨6, d⟩] _ _ e
  have f3 : fld wd 19 6 = b := fld_cat [⟨7, 52#7⟩, ⟨6, d⟩, ⟨6, a⟩] _ _ e
  have f4 : fld wd 25 4 = k := fld_cat [⟨7, 52#7⟩, ⟨6, d⟩, ⟨6, a⟩, ⟨6, b⟩] _ _ e
  have f5 : fld wd 29 1 = z := fld_cat [⟨7, 52#7⟩, ⟨6, d⟩, ⟨6, a⟩, ⟨6, b⟩, ⟨4, k⟩] _ _ e
  have f6 : fld wd 30 1 = s := fld_cat [⟨7, 52#7⟩, ⟨6, d⟩, ⟨6, a⟩, ⟨6, b⟩, ⟨4, k⟩, ⟨1, z⟩] _ _ e
  have f7 : fld wd 31 1 = u := fld_cat [⟨7, 52#7⟩, ⟨6, d⟩, ⟨6, a⟩, ⟨6, b⟩, ⟨4, k⟩, ⟨1, z⟩, ⟨1, s⟩] _ _ e
  rw [decodeFields_vector f0 (by decide), decodeVector, f0]
  show Except.ok _ = _
  rw [f1, f2, f3, f4, f5, f6, f7]
theorem vmax (d : BitVec 6) (a : BitVec 6) (b : BitVec 6) (k : BitVec 4) (z : BitVec 1) (s : BitVec 1) (u : BitVec 1) : Statement (.vmax d a b k z s u) := by
  intro _
  show decodeFields (encode (.vmax d a b k z s u)) = .ok (.vmax d a b k z s u)
  have e : (encode (.vmax d a b k z s u)).toNat = catN [⟨7, 53#7⟩, ⟨6, d⟩, ⟨6, a⟩, ⟨6, b⟩, ⟨4, k⟩, ⟨1, z⟩, ⟨1, s⟩, ⟨1, u⟩] :=
    cat_cons _ (cat_cons _ (cat_cons _ (cat_cons _ (cat_cons _ (cat_cons _ (cat_cons _ (cat_one _)))))))
  generalize encode (.vmax d a b k z s u) = wd at e ⊢
  have f0 : fld wd 0 7 = 53#7 := fld_cat [] _ _ e
  have f1 : fld wd 7 6 = d := fld_cat [⟨7, 53#7⟩] _ _ e
  have f2 : fld wd 13 6 = a := fld_cat [⟨7, 53#7⟩, ⟨6, d⟩] _ _ e
  have f3 : fld wd 19 6 = b := fld_cat [⟨7, 53#7⟩, ⟨6, d⟩, ⟨6, a⟩] _ _ e
  have f4 : fld wd 25 4 = k := fld_cat [⟨7, 53#7⟩, ⟨6, d⟩, ⟨6, a⟩, ⟨6, b⟩] _ _ e
  have f5 : fld wd 29 1 = z := fld_cat [⟨7, 53#7⟩, ⟨6, d⟩, ⟨6, a⟩, ⟨6, b⟩, ⟨4, k⟩] _ _ e
  have f6 : fld wd 30 1 = s := fld_cat [⟨7, 53#7⟩, ⟨6, d⟩, ⟨6, a⟩, ⟨6, b⟩, ⟨4, k⟩, ⟨1, z⟩] _ _ e
  have f7 : fld wd 31 1 = u := fld_cat [⟨7, 53#7⟩, ⟨6, d⟩, ⟨6, a⟩, ⟨6, b⟩, ⟨4, k⟩, ⟨1, z⟩, ⟨1, s⟩] _ _ e
  rw [decodeFields_vector f0 (by decide), decodeVector, f0]
  show Except.ok _ = _
  rw [f1, f2, f3, f4, f5, f6, f7]
theorem vand (d : BitVec 6) (a : BitVec 6) (b : BitVec 6) (k : BitVec 4) (z : BitVec 1) (s : BitVec 1) : Statement (.vand d a b k z s) := by
  intro _
  show decodeFields (encode (.vand d a b k z s)) = .ok (.vand d a b k z s)
  have e : (encode (.vand d a b k z s)).toNat = catN [⟨7, 54#7⟩, ⟨6, d⟩, ⟨6, a⟩, ⟨6, b⟩, ⟨4, k⟩, ⟨1, z⟩, ⟨1, s⟩, ⟨1, 0#1⟩] :=
    cat_cons _ (cat_cons _ (cat_cons _ (cat_cons _ (cat_cons _ (cat_cons _ (cat_cons _ (cat_one _)))))))
  generalize encode (.vand d a b k z s) = wd at e ⊢
  have f0 : fld wd 0 7 = 54#7 := fld_cat [] _ _ e
  have f1 : fld wd 31 1 = 0#1 := fld_cat [⟨7, 54#7⟩, ⟨6, d⟩, ⟨6, a⟩, ⟨6, b⟩, ⟨4, k⟩, ⟨1, z⟩, ⟨1, s⟩] _ _ e
  have f2 : fld wd 7 6 = d := fld_cat [⟨7, 54#7⟩] _ _ e
  have f3 : fld wd 13 6 = a := fld_cat [⟨7, 54#7⟩, ⟨6, d⟩] _ _ e
  have f4 : fld wd 19 6 = b := fld_cat [⟨7, 54#7⟩, ⟨6, d⟩, ⟨6, a⟩] _ _ e
  have f5 : fld wd 25 4 = k := fld_cat [⟨7, 54#7⟩, ⟨6, d⟩, ⟨6, a⟩, ⟨6, b⟩] _ _ e
  have f6 : fld wd 29 1 = z := fld_cat [⟨7, 54#7⟩, ⟨6, d⟩, ⟨6, a⟩, ⟨6, b⟩, ⟨4, k⟩] _ _ e
  have f7 : fld wd 30 1 = s := fld_cat [⟨7, 54#7⟩, ⟨6, d⟩, ⟨6, a⟩, ⟨6, b⟩, ⟨4, k⟩, ⟨1, z⟩] _ _ e
  rw [decodeFields_vector f0 (by decide), decodeVector, f0]
  show mbz _ _ = _
  rw [f1, f2, f3, f4, f5, f6, f7]; rfl
theorem vor (d : BitVec 6) (a : BitVec 6) (b : BitVec 6) (k : BitVec 4) (z : BitVec 1) (s : BitVec 1) : Statement (.vor d a b k z s) := by
  intro _
  show decodeFields (encode (.vor d a b k z s)) = .ok (.vor d a b k z s)
  have e : (encode (.vor d a b k z s)).toNat = catN [⟨7, 55#7⟩, ⟨6, d⟩, ⟨6, a⟩, ⟨6, b⟩, ⟨4, k⟩, ⟨1, z⟩, ⟨1, s⟩, ⟨1, 0#1⟩] :=
    cat_cons _ (cat_cons _ (cat_cons _ (cat_cons _ (cat_cons _ (cat_cons _ (cat_cons _ (cat_one _)))))))
  generalize encode (.vor d a b k z s) = wd at e ⊢
  have f0 : fld wd 0 7 = 55#7 := fld_cat [] _ _ e
  have f1 : fld wd 31 1 = 0#1 := fld_cat [⟨7, 55#7⟩, ⟨6, d⟩, ⟨6, a⟩, ⟨6, b⟩, ⟨4, k⟩, ⟨1, z⟩, ⟨1, s⟩] _ _ e
  have f2 : fld wd 7 6 = d := fld_cat [⟨7, 55#7⟩] _ _ e
  have f3 : fld wd 13 6 = a := fld_cat [⟨7, 55#7⟩, ⟨6, d⟩] _ _ e
  have f4 : fld wd 19 6 = b := fld_cat [⟨7, 55#7⟩, ⟨6, d⟩, ⟨6, a⟩] _ _ e
  have f5 : fld wd 25 4 = k := fld_cat [⟨7, 55#7⟩, ⟨6, d⟩, ⟨6, a⟩, ⟨6, b⟩] _ _ e
  have f6 : fld wd 29 1 = z := fld_cat [⟨7, 55#7⟩, ⟨6, d⟩, ⟨6, a⟩, ⟨6, b⟩, ⟨4, k⟩] _ _ e
  have f7 : fld wd 30 1 = s := fld_cat [⟨7, 55#7⟩, ⟨6, d⟩, ⟨6, a⟩, ⟨6, b⟩, ⟨4, k⟩, ⟨1, z⟩] _ _ e
  rw [decodeFields_vector f0 (by decide), decodeVector, f0]
  show mbz _ _ = _
  rw [f1, f2, f3, f4, f5, f6, f7]; rfl
theorem vxor (d : BitVec 6) (a : BitVec 6) (b : BitVec 6) (k : BitVec 4) (z : BitVec 1) (s : BitVec 1) : Statement (.vxor d a b k z s) := by
  intro _
  show decodeFields (encode (.vxor d a b k z s)) = .ok (.vxor d a b k z s)
  have e : (encode (.vxor d a b k z s)).toNat = catN [⟨7, 56#7⟩, ⟨6, d⟩, ⟨6, a⟩, ⟨6, b⟩, ⟨4, k⟩, ⟨1, z⟩, ⟨1, s⟩, ⟨1, 0#1⟩] :=
    cat_cons _ (cat_cons _ (cat_cons _ (cat_cons _ (cat_cons _ (cat_cons _ (cat_cons _ (cat_one _)))))))
  generalize encode (.vxor d a b k z s) = wd at e ⊢
  have f0 : fld wd 0 7 = 56#7 := fld_cat [] _ _ e
  have f1 : fld wd 31 1 = 0#1 := fld_cat [⟨7, 56#7⟩, ⟨6, d⟩, ⟨6, a⟩, ⟨6, b⟩, ⟨4, k⟩, ⟨1, z⟩, ⟨1, s⟩] _ _ e
  have f2 : fld wd 7 6 = d := fld_cat [⟨7, 56#7⟩] _ _ e
  have f3 : fld wd 13 6 = a := fld_cat [⟨7, 56#7⟩, ⟨6, d⟩] _ _ e
  have f4 : fld wd 19 6 = b := fld_cat [⟨7, 56#7⟩, ⟨6, d⟩, ⟨6, a⟩] _ _ e
  have f5 : fld wd 25 4 = k := fld_cat [⟨7, 56#7⟩, ⟨6, d⟩, ⟨6, a⟩, ⟨6, b⟩] _ _ e
  have f6 : fld wd 29 1 = z := fld_cat [⟨7, 56#7⟩, ⟨6, d⟩, ⟨6, a⟩, ⟨6, b⟩, ⟨4, k⟩] _ _ e
  have f7 : fld wd 30 1 = s := fld_cat [⟨7, 56#7⟩, ⟨6, d⟩, ⟨6, a⟩, ⟨6, b⟩, ⟨4, k⟩, ⟨1, z⟩] _ _ e
  rw [decodeFields_vector f0 (by decide), decodeVector, f0]
  show mbz _ _ = _
  rw [f1, f2, f3, f4, f5, f6, f7]; rfl
theorem vshl (d : BitVec 6) (a : BitVec 6) (b : BitVec 6) (k : BitVec 4) (z : BitVec 1) (s : BitVec 1) : Statement (.vshl d a b k z s) := by
  intro _
  show decodeFields (encode (.vshl d a b k z s)) = .ok (.vshl d a b k z s)
  have e : (encode (.vshl d a b k z s)).toNat = catN [⟨7, 57#7⟩, ⟨6, d⟩, ⟨6, a⟩, ⟨6, b⟩, ⟨4, k⟩, ⟨1, z⟩, ⟨1, s⟩, ⟨1, 0#1⟩] :=
    cat_cons _ (cat_cons _ (cat_cons _ (cat_cons _ (cat_cons _ (cat_cons _ (cat_cons _ (cat_one _)))))))
  generalize encode (.vshl d a b k z s) = wd at e ⊢
  have f0 : fld wd 0 7 = 57#7 := fld_cat [] _ _ e
  have f1 : fld wd 31 1 = 0#1 := fld_cat [⟨7, 57#7⟩, ⟨6, d⟩, ⟨6, a⟩, ⟨6, b⟩, ⟨4, k⟩, ⟨1, z⟩, ⟨1, s⟩] _ _ e
  have f2 : fld wd 7 6 = d := fld_cat [⟨7, 57#7⟩] _ _ e
  have f3 : fld wd 13 6 = a := fld_cat [⟨7, 57#7⟩, ⟨6, d⟩] _ _ e
  have f4 : fld wd 19 6 = b := fld_cat [⟨7, 57#7⟩, ⟨6, d⟩, ⟨6, a⟩] _ _ e
  have f5 : fld wd 25 4 = k := fld_cat [⟨7, 57#7⟩, ⟨6, d⟩, ⟨6, a⟩, ⟨6, b⟩] _ _ e
  have f6 : fld wd 29 1 = z := fld_cat [⟨7, 57#7⟩, ⟨6, d⟩, ⟨6, a⟩, ⟨6, b⟩, ⟨4, k⟩] _ _ e
  have f7 : fld wd 30 1 = s := fld_cat [⟨7, 57#7⟩, ⟨6, d⟩, ⟨6, a⟩, ⟨6, b⟩, ⟨4, k⟩, ⟨1, z⟩] _ _ e
  rw [decodeFields_vector f0 (by decide), decodeVector, f0]
  show mbz _ _ = _
  rw [f1, f2, f3, f4, f5, f6, f7]; rfl
theorem vshr (d : BitVec 6) (a : BitVec 6) (b : BitVec 6) (k : BitVec 4) (z : BitVec 1) (s : BitVec 1) : Statement (.vshr d a b k z s) := by
  intro _
  show decodeFields (encode (.vshr d a b k z s)) = .ok (.vshr d a b k z s)
  have e : (encode (.vshr d a b k z s)).toNat = catN [⟨7, 58#7⟩, ⟨6, d⟩, ⟨6, a⟩, ⟨6, b⟩, ⟨4, k⟩, ⟨1, z⟩, ⟨1, s⟩, ⟨1, 0#1⟩] :=
    cat_cons _ (cat_cons _ (cat_cons _ (cat_cons _ (cat_cons _ (cat_cons _ (cat_cons _ (cat_one _)))))))
  generalize encode (.vshr d a b k z s) = wd at e ⊢
  have f0 : fld wd 0 7 = 58#7 := fld_cat [] _ _ e
  have f1 : fld wd 31 1 = 0#1 := fld_cat [⟨7, 58#7⟩, ⟨6, d⟩, ⟨6, a⟩, ⟨6, b⟩, ⟨4, k⟩, ⟨1, z⟩, ⟨1, s⟩] _ _ e
  have f2 : fld wd 7 6 = d := fld_cat [⟨7, 58#7⟩] _ _ e
  have f3 : fld wd 13 6 = a := fld_cat [⟨7, 58#7⟩, ⟨6, d⟩] _ _ e
  have f4 : fld wd 19 6 = b := fld_cat [⟨7, 58#7⟩, ⟨6, d⟩, ⟨6, a⟩] _ _ e
  have f5 : fld wd 25 4 = k := fld_cat [⟨7, 58#7⟩, ⟨6, d⟩, ⟨6, a⟩, ⟨6, b⟩] _ _ e
  have f6 : fld wd 29 1 = z := fld_cat [⟨7, 58#7⟩, ⟨6, d⟩, ⟨6, a⟩, ⟨6, b⟩, ⟨4, k⟩] _ _ e
  have f7 : fld wd 30 1 = s := fld_cat [⟨7, 58#7⟩, ⟨6, d⟩, ⟨6, a⟩, ⟨6, b⟩, ⟨4, k⟩, ⟨1, z⟩] _ _ e
  rw [decodeFields_vector f0 (by decide), decodeVector, f0]
  show mbz _ _ = _
  rw [f1, f2, f3, f4, f5, f6, f7]; rfl
theorem vsar (d : BitVec 6) (a : BitVec 6) (b : BitVec 6) (k : BitVec 4) (z : BitVec 1) (s : BitVec 1) : Statement (.vsar d a b k z s) := by
  intro _
  show decodeFields (encode (.vsar d a b k z s)) = .ok (.vsar d a b k z s)
  have e : (encode (.vsar d a b k z s)).toNat = catN [⟨7, 59#7⟩, ⟨6, d⟩, ⟨6, a⟩, ⟨6, b⟩, ⟨4, k⟩, ⟨1, z⟩, ⟨1, s⟩, ⟨1, 0#1⟩] :=
    cat_cons _ (cat_cons _ (cat_cons _ (cat_cons _ (cat_cons _ (cat_cons _ (cat_cons _ (cat_one _)))))))
  generalize encode (.vsar d a b k z s) = wd at e ⊢
  have f0 : fld wd 0 7 = 59#7 := fld_cat [] _ _ e
  have f1 : fld wd 31 1 = 0#1 := fld_cat [⟨7, 59#7⟩, ⟨6, d⟩, ⟨6, a⟩, ⟨6, b⟩, ⟨4, k⟩, ⟨1, z⟩, ⟨1, s⟩] _ _ e
  have f2 : fld wd 7 6 = d := fld_cat [⟨7, 59#7⟩] _ _ e
  have f3 : fld wd 13 6 = a := fld_cat [⟨7, 59#7⟩, ⟨6, d⟩] _ _ e
  have f4 : fld wd 19 6 = b := fld_cat [⟨7, 59#7⟩, ⟨6, d⟩, ⟨6, a⟩] _ _ e
  have f5 : fld wd 25 4 = k := fld_cat [⟨7, 59#7⟩, ⟨6, d⟩, ⟨6, a⟩, ⟨6, b⟩] _ _ e
  have f6 : fld wd 29 1 = z := fld_cat [⟨7, 59#7⟩, ⟨6, d⟩, ⟨6, a⟩, ⟨6, b⟩, ⟨4, k⟩] _ _ e
  have f7 : fld wd 30 1 = s := fld_cat [⟨7, 59#7⟩, ⟨6, d⟩, ⟨6, a⟩, ⟨6, b⟩, ⟨4, k⟩, ⟨1, z⟩] _ _ e
  rw [decodeFields_vector f0 (by decide), decodeVector, f0]
  show mbz _ _ = _
  rw [f1, f2, f3, f4, f5, f6, f7]; rfl
theorem vaddsat (d : BitVec 6) (a : BitVec 6) (b : BitVec 6) (k : BitVec 4) (z : BitVec 1) (s : BitVec 1) (u : BitVec 1) : Statement (.vaddsat d a b k z s u) := by
  intro _
  show decodeFields (encode (.vaddsat d a b k z s u)) = .ok (.vaddsat d a b k z s u)
  have e : (encode (.vaddsat d a b k z s u)).toNat = catN [⟨7, 60#7⟩, ⟨6, d⟩, ⟨6, a⟩, ⟨6, b⟩, ⟨4, k⟩, ⟨1, z⟩, ⟨1, s⟩, ⟨1, u⟩] :=
    cat_cons _ (cat_cons _ (cat_cons _ (cat_cons _ (cat_cons _ (cat_cons _ (cat_cons _ (cat_one _)))))))
  generalize encode (.vaddsat d a b k z s u) = wd at e ⊢
  have f0 : fld wd 0 7 = 60#7 := fld_cat [] _ _ e
  have f1 : fld wd 7 6 = d := fld_cat [⟨7, 60#7⟩] _ _ e
  have f2 : fld wd 13 6 = a := fld_cat [⟨7, 60#7⟩, ⟨6, d⟩] _ _ e
  have f3 : fld wd 19 6 = b := fld_cat [⟨7, 60#7⟩, ⟨6, d⟩, ⟨6, a⟩] _ _ e
  have f4 : fld wd 25 4 = k := fld_cat [⟨7, 60#7⟩, ⟨6, d⟩, ⟨6, a⟩, ⟨6, b⟩] _ _ e
  have f5 : fld wd 29 1 = z := fld_cat [⟨7, 60#7⟩, ⟨6, d⟩, ⟨6, a⟩, ⟨6, b⟩, ⟨4, k⟩] _ _ e
  have f6 : fld wd 30 1 = s := fld_cat [⟨7, 60#7⟩, ⟨6, d⟩, ⟨6, a⟩, ⟨6, b⟩, ⟨4, k⟩, ⟨1, z⟩] _ _ e
  have f7 : fld wd 31 1 = u := fld_cat [⟨7, 60#7⟩, ⟨6, d⟩, ⟨6, a⟩, ⟨6, b⟩, ⟨4, k⟩, ⟨1, z⟩, ⟨1, s⟩] _ _ e
  rw [decodeFields_vector f0 (by decide), decodeVector, f0]
  show Except.ok _ = _
  rw [f1, f2, f3, f4, f5, f6, f7]
theorem vsubsat (d : BitVec 6) (a : BitVec 6) (b : BitVec 6) (k : BitVec 4) (z : BitVec 1) (s : BitVec 1) (u : BitVec 1) : Statement (.vsubsat d a b k z s u) := by
  intro _
  show decodeFields (encode (.vsubsat d a b k z s u)) = .ok (.vsubsat d a b k z s u)
  have e : (encode (.vsubsat d a b k z s u)).toNat = catN [⟨7, 61#7⟩, ⟨6, d⟩, ⟨6, a⟩, ⟨6, b⟩, ⟨4, k⟩, ⟨1, z⟩, ⟨1, s⟩, ⟨1, u⟩] :=
    cat_cons _ (cat_cons _ (cat_cons _ (cat_cons _ (cat_cons _ (cat_cons _ (cat_cons _ (cat_one _)))))))
  generalize encode (.vsubsat d a b k z s u) = wd at e ⊢
  have f0 : fld wd 0 7 = 61#7 := fld_cat [] _ _ e
  have f1 : fld wd 7 6 = d := fld_cat [⟨7, 61#7⟩] _ _ e
  have f2 : fld wd 13 6 = a := fld_cat [⟨7, 61#7⟩, ⟨6, d⟩] _ _ e
  have f3 : fld wd 19 6 = b := fld_cat [⟨7, 61#7⟩, ⟨6, d⟩, ⟨6, a⟩] _ _ e
  have f4 : fld wd 25 4 = k := fld_cat [⟨7, 61#7⟩, ⟨6, d⟩, ⟨6, a⟩, ⟨6, b⟩] _ _ e
  have f5 : fld wd 29 1 = z := fld_cat [⟨7, 61#7⟩, ⟨6, d⟩, ⟨6, a⟩, ⟨6, b⟩, ⟨4, k⟩] _ _ e
  have f6 : fld wd 30 1 = s := fld_cat [⟨7, 61#7⟩, ⟨6, d⟩, ⟨6, a⟩, ⟨6, b⟩, ⟨4, k⟩, ⟨1, z⟩] _ _ e
  have f7 : fld wd 31 1 = u := fld_cat [⟨7, 61#7⟩, ⟨6, d⟩, ⟨6, a⟩, ⟨6, b⟩, ⟨4, k⟩, ⟨1, z⟩, ⟨1, s⟩] _ _ e
  rw [decodeFields_vector f0 (by decide), decodeVector, f0]
  show Except.ok _ = _
  rw [f1, f2, f3, f4, f5, f6, f7]
theorem vfadd (d : BitVec 6) (a : BitVec 6) (b : BitVec 6) (k : BitVec 4) (z : BitVec 1) (s : BitVec 1) : Statement (.vfadd d a b k z s) := by
  intro _
  show decodeFields (encode (.vfadd d a b k z s)) = .ok (.vfadd d a b k z s)
  have e : (encode (.vfadd d a b k z s)).toNat = catN [⟨7, 64#7⟩, ⟨6, d⟩, ⟨6, a⟩, ⟨6, b⟩, ⟨4, k⟩, ⟨1, z⟩, ⟨1, s⟩, ⟨1, 0#1⟩] :=
    cat_cons _ (cat_cons _ (cat_cons _ (cat_cons _ (cat_cons _ (cat_cons _ (cat_cons _ (cat_one _)))))))
  generalize encode (.vfadd d a b k z s) = wd at e ⊢
  have f0 : fld wd 0 7 = 64#7 := fld_cat [] _ _ e
  have f1 : fld wd 31 1 = 0#1 := fld_cat [⟨7, 64#7⟩, ⟨6, d⟩, ⟨6, a⟩, ⟨6, b⟩, ⟨4, k⟩, ⟨1, z⟩, ⟨1, s⟩] _ _ e
  have f2 : fld wd 7 6 = d := fld_cat [⟨7, 64#7⟩] _ _ e
  have f3 : fld wd 13 6 = a := fld_cat [⟨7, 64#7⟩, ⟨6, d⟩] _ _ e
  have f4 : fld wd 19 6 = b := fld_cat [⟨7, 64#7⟩, ⟨6, d⟩, ⟨6, a⟩] _ _ e
  have f5 : fld wd 25 4 = k := fld_cat [⟨7, 64#7⟩, ⟨6, d⟩, ⟨6, a⟩, ⟨6, b⟩] _ _ e
  have f6 : fld wd 29 1 = z := fld_cat [⟨7, 64#7⟩, ⟨6, d⟩, ⟨6, a⟩, ⟨6, b⟩, ⟨4, k⟩] _ _ e
  have f7 : fld wd 30 1 = s := fld_cat [⟨7, 64#7⟩, ⟨6, d⟩, ⟨6, a⟩, ⟨6, b⟩, ⟨4, k⟩, ⟨1, z⟩] _ _ e
  rw [decodeFields_vector f0 (by decide), decodeVector, f0]
  show mbz _ _ = _
  rw [f1, f2, f3, f4, f5, f6, f7]; rfl
theorem vfsub (d : BitVec 6) (a : BitVec 6) (b : BitVec 6) (k : BitVec 4) (z : BitVec 1) (s : BitVec 1) : Statement (.vfsub d a b k z s) := by
  intro _
  show decodeFields (encode (.vfsub d a b k z s)) = .ok (.vfsub d a b k z s)
  have e : (encode (.vfsub d a b k z s)).toNat = catN [⟨7, 65#7⟩, ⟨6, d⟩, ⟨6, a⟩, ⟨6, b⟩, ⟨4, k⟩, ⟨1, z⟩, ⟨1, s⟩, ⟨1, 0#1⟩] :=
    cat_cons _ (cat_cons _ (cat_cons _ (cat_cons _ (cat_cons _ (cat_cons _ (cat_cons _ (cat_one _)))))))
  generalize encode (.vfsub d a b k z s) = wd at e ⊢
  have f0 : fld wd 0 7 = 65#7 := fld_cat [] _ _ e
  have f1 : fld wd 31 1 = 0#1 := fld_cat [⟨7, 65#7⟩, ⟨6, d⟩, ⟨6, a⟩, ⟨6, b⟩, ⟨4, k⟩, ⟨1, z⟩, ⟨1, s⟩] _ _ e
  have f2 : fld wd 7 6 = d := fld_cat [⟨7, 65#7⟩] _ _ e
  have f3 : fld wd 13 6 = a := fld_cat [⟨7, 65#7⟩, ⟨6, d⟩] _ _ e
  have f4 : fld wd 19 6 = b := fld_cat [⟨7, 65#7⟩, ⟨6, d⟩, ⟨6, a⟩] _ _ e
  have f5 : fld wd 25 4 = k := fld_cat [⟨7, 65#7⟩, ⟨6, d⟩, ⟨6, a⟩, ⟨6, b⟩] _ _ e
  have f6 : fld wd 29 1 = z := fld_cat [⟨7, 65#7⟩, ⟨6, d⟩, ⟨6, a⟩, ⟨6, b⟩, ⟨4, k⟩] _ _ e
  have f7 : fld wd 30 1 = s := fld_cat [⟨7, 65#7⟩, ⟨6, d⟩, ⟨6, a⟩, ⟨6, b⟩, ⟨4, k⟩, ⟨1, z⟩] _ _ e
  rw [decodeFields_vector f0 (by decide), decodeVector, f0]
  show mbz _ _ = _
  rw [f1, f2, f3, f4, f5, f6, f7]; rfl
theorem vfmul (d : BitVec 6) (a : BitVec 6) (b : BitVec 6) (k : BitVec 4) (z : BitVec 1) (s : BitVec 1) : Statement (.vfmul d a b k z s) := by
  intro _
  show decodeFields (encode (.vfmul d a b k z s)) = .ok (.vfmul d a b k z s)
  have e : (encode (.vfmul d a b k z s)).toNat = catN [⟨7, 66#7⟩, ⟨6, d⟩, ⟨6, a⟩, ⟨6, b⟩, ⟨4, k⟩, ⟨1, z⟩, ⟨1, s⟩, ⟨1, 0#1⟩] :=
    cat_cons _ (cat_cons _ (cat_cons _ (cat_cons _ (cat_cons _ (cat_cons _ (cat_cons _ (cat_one _)))))))
  generalize encode (.vfmul d a b k z s) = wd at e ⊢
  have f0 : fld wd 0 7 = 66#7 := fld_cat [] _ _ e
  have f1 : fld wd 31 1 = 0#1 := fld_cat [⟨7, 66#7⟩, ⟨6, d⟩, ⟨6, a⟩, ⟨6, b⟩, ⟨4, k⟩, ⟨1, z⟩, ⟨1, s⟩] _ _ e
  have f2 : fld wd 7 6 = d := fld_cat [⟨7, 66#7⟩] _ _ e
  have f3 : fld wd 13 6 = a := fld_cat [⟨7, 66#7⟩, ⟨6, d⟩] _ _ e
  have f4 : fld wd 19 6 = b := fld_cat [⟨7, 66#7⟩, ⟨6, d⟩, ⟨6, a⟩] _ _ e
  have f5 : fld wd 25 4 = k := fld_cat [⟨7, 66#7⟩, ⟨6, d⟩, ⟨6, a⟩, ⟨6, b⟩] _ _ e
  have f6 : fld wd 29 1 = z := fld_cat [⟨7, 66#7⟩, ⟨6, d⟩, ⟨6, a⟩, ⟨6, b⟩, ⟨4, k⟩] _ _ e
  have f7 : fld wd 30 1 = s := fld_cat [⟨7, 66#7⟩, ⟨6, d⟩, ⟨6, a⟩, ⟨6, b⟩, ⟨4, k⟩, ⟨1, z⟩] _ _ e
  rw [decodeFields_vector f0 (by decide), decodeVector, f0]
  show mbz _ _ = _
  rw [f1, f2, f3, f4, f5, f6, f7]; rfl
theorem vfma (d : BitVec 6) (a : BitVec 6) (b : BitVec 6) (k : BitVec 4) (z : BitVec 1) (s : BitVec 1) (n : BitVec 1) : Statement (.vfma d a b k z s n) := by
  intro _
  show decodeFields (encode (.vfma d a b k z s n)) = .ok (.vfma d a b k z s n)
  have e : (encode (.vfma d a b k z s n)).toNat = catN [⟨7, 67#7⟩, ⟨6, d⟩, ⟨6, a⟩, ⟨6, b⟩, ⟨4, k⟩, ⟨1, z⟩, ⟨1, s⟩, ⟨1, n⟩] :=
    cat_cons _ (cat_cons _ (cat_cons _ (cat_cons _ (cat_cons _ (cat_cons _ (cat_cons _ (cat_one _)))))))
  generalize encode (.vfma d a b k z s n) = wd at e ⊢
  have f0 : fld wd 0 7 = 67#7 := fld_cat [] _ _ e
  have f1 : fld wd 7 6 = d := fld_cat [⟨7, 67#7⟩] _ _ e
  have f2 : fld wd 13 6 = a := fld_cat [⟨7, 67#7⟩, ⟨6, d⟩] _ _ e
  have f3 : fld wd 19 6 = b := fld_cat [⟨7, 67#7⟩, ⟨6, d⟩, ⟨6, a⟩] _ _ e
  have f4 : fld wd 25 4 = k := fld_cat [⟨7, 67#7⟩, ⟨6, d⟩, ⟨6, a⟩, ⟨6, b⟩] _ _ e
  have f5 : fld wd 29 1 = z := fld_cat [⟨7, 67#7⟩, ⟨6, d⟩, ⟨6, a⟩, ⟨6, b⟩, ⟨4, k⟩] _ _ e
  have f6 : fld wd 30 1 = s := fld_cat [⟨7, 67#7⟩, ⟨6, d⟩, ⟨6, a⟩, ⟨6, b⟩, ⟨4, k⟩, ⟨1, z⟩] _ _ e
  have f7 : fld wd 31 1 = n := fld_cat [⟨7, 67#7⟩, ⟨6, d⟩, ⟨6, a⟩, ⟨6, b⟩, ⟨4, k⟩, ⟨1, z⟩, ⟨1, s⟩] _ _ e
  rw [decodeFields_vector f0 (by decide), decodeVector, f0]
  show Except.ok _ = _
  rw [f1, f2, f3, f4, f5, f6, f7]
theorem vfdiv (d : BitVec 6) (a : BitVec 6) (b : BitVec 6) (k : BitVec 4) (z : BitVec 1) (s : BitVec 1) : Statement (.vfdiv d a b k z s) := by
  intro _
  show decodeFields (encode (.vfdiv d a b k z s)) = .ok (.vfdiv d a b k z s)
  have e : (encode (.vfdiv d a b k z s)).toNat = catN [⟨7, 68#7⟩, ⟨6, d⟩, ⟨6, a⟩, ⟨6, b⟩, ⟨4, k⟩, ⟨1, z⟩, ⟨1, s⟩, ⟨1, 0#1⟩] :=
    cat_cons _ (cat_cons _ (cat_cons _ (cat_cons _ (cat_cons _ (cat_cons _ (cat_cons _ (cat_one _)))))))
  generalize encode (.vfdiv d a b k z s) = wd at e ⊢
  have f0 : fld wd 0 7 = 68#7 := fld_cat [] _ _ e
  have f1 : fld wd 31 1 = 0#1 := fld_cat [⟨7, 68#7⟩, ⟨6, d⟩, ⟨6, a⟩, ⟨6, b⟩, ⟨4, k⟩, ⟨1, z⟩, ⟨1, s⟩] _ _ e
  have f2 : fld wd 7 6 = d := fld_cat [⟨7, 68#7⟩] _ _ e
  have f3 : fld wd 13 6 = a := fld_cat [⟨7, 68#7⟩, ⟨6, d⟩] _ _ e
  have f4 : fld wd 19 6 = b := fld_cat [⟨7, 68#7⟩, ⟨6, d⟩, ⟨6, a⟩] _ _ e
  have f5 : fld wd 25 4 = k := fld_cat [⟨7, 68#7⟩, ⟨6, d⟩, ⟨6, a⟩, ⟨6, b⟩] _ _ e
  have f6 : fld wd 29 1 = z := fld_cat [⟨7, 68#7⟩, ⟨6, d⟩, ⟨6, a⟩, ⟨6, b⟩, ⟨4, k⟩] _ _ e
  have f7 : fld wd 30 1 = s := fld_cat [⟨7, 68#7⟩, ⟨6, d⟩, ⟨6, a⟩, ⟨6, b⟩, ⟨4, k⟩, ⟨1, z⟩] _ _ e
  rw [decodeFields_vector f0 (by decide), decodeVector, f0]
  show mbz _ _ = _
  rw [f1, f2, f3, f4, f5, f6, f7]; rfl
theorem vfsqrt (d : BitVec 6) (a : BitVec 6) (k : BitVec 4) (z : BitVec 1) : Statement (.vfsqrt d a k z) := by
  intro _
  show decodeFields (encode (.vfsqrt d a k z)) = .ok (.vfsqrt d a k z)
  have e : (encode (.vfsqrt d a k z)).toNat = catN [⟨7, 69#7⟩, ⟨6, d⟩, ⟨6, a⟩, ⟨6, 0#6⟩, ⟨4, k⟩, ⟨1, z⟩, ⟨2, 0#2⟩] :=
    cat_cons _ (cat_cons _ (cat_cons _ (cat_cons _ (cat_cons _ (cat_cons _ (cat_one _))))))
  generalize encode (.vfsqrt d a k z) = wd at e ⊢
  have f0 : fld wd 0 7 = 69#7 := fld_cat [] _ _ e
  have f1 : fld wd 19 6 = 0#6 := fld_cat [⟨7, 69#7⟩, ⟨6, d⟩, ⟨6, a⟩] _ _ e
  have f2 : fld wd 30 2 = 0#2 := fld_cat [⟨7, 69#7⟩, ⟨6, d⟩, ⟨6, a⟩, ⟨6, 0#6⟩, ⟨4, k⟩, ⟨1, z⟩] _ _ e
  have f3 : fld wd 7 6 = d := fld_cat [⟨7, 69#7⟩] _ _ e
  have f4 : fld wd 13 6 = a := fld_cat [⟨7, 69#7⟩, ⟨6, d⟩] _ _ e
  have f5 : fld wd 25 4 = k := fld_cat [⟨7, 69#7⟩, ⟨6, d⟩, ⟨6, a⟩, ⟨6, 0#6⟩] _ _ e
  have f6 : fld wd 29 1 = z := fld_cat [⟨7, 69#7⟩, ⟨6, d⟩, ⟨6, a⟩, ⟨6, 0#6⟩, ⟨4, k⟩] _ _ e
  rw [decodeFields_vector f0 (by decide), decodeVector, f0]
  show mbz _ _ = _
  rw [f1, f2, f3, f4, f5, f6]; rfl
theorem vfmin (d : BitVec 6) (a : BitVec 6) (b : BitVec 6) (k : BitVec 4) (z : BitVec 1) (s : BitVec 1) : Statement (.vfmin d a b k z s) := by
  intro _
  show decodeFields (encode (.vfmin d a b k z s)) = .ok (.vfmin d a b k z s)
  have e : (encode (.vfmin d a b k z s)).toNat = catN [⟨7, 70#7⟩, ⟨6, d⟩, ⟨6, a⟩, ⟨6, b⟩, ⟨4, k⟩, ⟨1, z⟩, ⟨1, s⟩, ⟨1, 0#1⟩] :=
    cat_cons _ (cat_cons _ (cat_cons _ (cat_cons _ (cat_cons _ (cat_cons _ (cat_cons _ (cat_one _)))))))
  generalize encode (.vfmin d a b k z s) = wd at e ⊢
  have f0 : fld wd 0 7 = 70#7 := fld_cat [] _ _ e
  have f1 : fld wd 31 1 = 0#1 := fld_cat [⟨7, 70#7⟩, ⟨6, d⟩, ⟨6, a⟩, ⟨6, b⟩, ⟨4, k⟩, ⟨1, z⟩, ⟨1, s⟩] _ _ e
  have f2 : fld wd 7 6 = d := fld_cat [⟨7, 70#7⟩] _ _ e
  have f3 : fld wd 13 6 = a := fld_cat [⟨7, 70#7⟩, ⟨6, d⟩] _ _ e
  have f4 : fld wd 19 6 = b := fld_cat [⟨7, 70#7⟩, ⟨6, d⟩, ⟨6, a⟩] _ _ e
  have f5 : fld wd 25 4 = k := fld_cat [⟨7, 70#7⟩, ⟨6, d⟩, ⟨6, a⟩, ⟨6, b⟩] _ _ e
  have f6 : fld wd 29 1 = z := fld_cat [⟨7, 70#7⟩, ⟨6, d⟩, ⟨6, a⟩, ⟨6, b⟩, ⟨4, k⟩] _ _ e
  have f7 : fld wd 30 1 = s := fld_cat [⟨7, 70#7⟩, ⟨6, d⟩, ⟨6, a⟩, ⟨6, b⟩, ⟨4, k⟩, ⟨1, z⟩] _ _ e
  rw [decodeFields_vector f0 (by decide), decodeVector, f0]
  show mbz _ _ = _
  rw [f1, f2, f3, f4, f5, f6, f7]; rfl
theorem vfmax (d : BitVec 6) (a : BitVec 6) (b : BitVec 6) (k : BitVec 4) (z : BitVec 1) (s : BitVec 1) : Statement (.vfmax d a b k z s) := by
  intro _
  show decodeFields (encode (.vfmax d a b k z s)) = .ok (.vfmax d a b k z s)
  have e : (encode (.vfmax d a b k z s)).toNat = catN [⟨7, 71#7⟩, ⟨6, d⟩, ⟨6, a⟩, ⟨6, b⟩, ⟨4, k⟩, ⟨1, z⟩, ⟨1, s⟩, ⟨1, 0#1⟩] :=
    cat_cons _ (cat_cons _ (cat_cons _ (cat_cons _ (cat_cons _ (cat_cons _ (cat_cons _ (cat_one _)))))))
  generalize encode (.vfmax d a b k z s) = wd at e ⊢
  have f0 : fld wd 0 7 = 71#7 := fld_cat [] _ _ e
  have f1 : fld wd 31 1 = 0#1 := fld_cat [⟨7, 71#7⟩, ⟨6, d⟩, ⟨6, a⟩, ⟨6, b⟩, ⟨4, k⟩, ⟨1, z⟩, ⟨1, s⟩] _ _ e
  have f2 : fld wd 7 6 = d := fld_cat [⟨7, 71#7⟩] _ _ e
  have f3 : fld wd 13 6 = a := fld_cat [⟨7, 71#7⟩, ⟨6, d⟩] _ _ e
  have f4 : fld wd 19 6 = b := fld_cat [⟨7, 71#7⟩, ⟨6, d⟩, ⟨6, a⟩] _ _ e
  have f5 : fld wd 25 4 = k := fld_cat [⟨7, 71#7⟩, ⟨6, d⟩, ⟨6, a⟩, ⟨6, b⟩] _ _ e
  have f6 : fld wd 29 1 = z := fld_cat [⟨7, 71#7⟩, ⟨6, d⟩, ⟨6, a⟩, ⟨6, b⟩, ⟨4, k⟩] _ _ e
  have f7 : fld wd 30 1 = s := fld_cat [⟨7, 71#7⟩, ⟨6, d⟩, ⟨6, a⟩, ⟨6, b⟩, ⟨4, k⟩, ⟨1, z⟩] _ _ e
  rw [decodeFields_vector f0 (by decide), decodeVector, f0]
  show mbz _ _ = _
  rw [f1, f2, f3, f4, f5, f6, f7]; rfl
theorem vfrcp (d : BitVec 6) (a : BitVec 6) (k : BitVec 4) (z : BitVec 1) : Statement (.vfrcp d a k z) := by
  intro _
  show decodeFields (encode (.vfrcp d a k z)) = .ok (.vfrcp d a k z)
  have e : (encode (.vfrcp d a k z)).toNat = catN [⟨7, 72#7⟩, ⟨6, d⟩, ⟨6, a⟩, ⟨6, 0#6⟩, ⟨4, k⟩, ⟨1, z⟩, ⟨2, 0#2⟩] :=
    cat_cons _ (cat_cons _ (cat_cons _ (cat_cons _ (cat_cons _ (cat_cons _ (cat_one _))))))
  generalize encode (.vfrcp d a k z) = wd at e ⊢
  have f0 : fld wd 0 7 = 72#7 := fld_cat [] _ _ e
  have f1 : fld wd 19 6 = 0#6 := fld_cat [⟨7, 72#7⟩, ⟨6, d⟩, ⟨6, a⟩] _ _ e
  have f2 : fld wd 30 2 = 0#2 := fld_cat [⟨7, 72#7⟩, ⟨6, d⟩, ⟨6, a⟩, ⟨6, 0#6⟩, ⟨4, k⟩, ⟨1, z⟩] _ _ e
  have f3 : fld wd 7 6 = d := fld_cat [⟨7, 72#7⟩] _ _ e
  have f4 : fld wd 13 6 = a := fld_cat [⟨7, 72#7⟩, ⟨6, d⟩] _ _ e
  have f5 : fld wd 25 4 = k := fld_cat [⟨7, 72#7⟩, ⟨6, d⟩, ⟨6, a⟩, ⟨6, 0#6⟩] _ _ e
  have f6 : fld wd 29 1 = z := fld_cat [⟨7, 72#7⟩, ⟨6, d⟩, ⟨6, a⟩, ⟨6, 0#6⟩, ⟨4, k⟩] _ _ e
  rw [decodeFields_vector f0 (by decide), decodeVector, f0]
  show mbz _ _ = _
  rw [f1, f2, f3, f4, f5, f6]; rfl
theorem vfrsq (d : BitVec 6) (a : BitVec 6) (k : BitVec 4) (z : BitVec 1) : Statement (.vfrsq d a k z) := by
  intro _
  show decodeFields (encode (.vfrsq d a k z)) = .ok (.vfrsq d a k z)
  have e : (encode (.vfrsq d a k z)).toNat = catN [⟨7, 73#7⟩, ⟨6, d⟩, ⟨6, a⟩, ⟨6, 0#6⟩, ⟨4, k⟩, ⟨1, z⟩, ⟨2, 0#2⟩] :=
    cat_cons _ (cat_cons _ (cat_cons _ (cat_cons _ (cat_cons _ (cat_cons _ (cat_one _))))))
  generalize encode (.vfrsq d a k z) = wd at e ⊢
  have f0 : fld wd 0 7 = 73#7 := fld_cat [] _ _ e
  have f1 : fld wd 19 6 = 0#6 := fld_cat [⟨7, 73#7⟩, ⟨6, d⟩, ⟨6, a⟩] _ _ e
  have f2 : fld wd 30 2 = 0#2 := fld_cat [⟨7, 73#7⟩, ⟨6, d⟩, ⟨6, a⟩, ⟨6, 0#6⟩, ⟨4, k⟩, ⟨1, z⟩] _ _ e
  have f3 : fld wd 7 6 = d := fld_cat [⟨7, 73#7⟩] _ _ e
  have f4 : fld wd 13 6 = a := fld_cat [⟨7, 73#7⟩, ⟨6, d⟩] _ _ e
  have f5 : fld wd 25 4 = k := fld_cat [⟨7, 73#7⟩, ⟨6, d⟩, ⟨6, a⟩, ⟨6, 0#6⟩] _ _ e
  have f6 : fld wd 29 1 = z := fld_cat [⟨7, 73#7⟩, ⟨6, d⟩, ⟨6, a⟩, ⟨6, 0#6⟩, ⟨4, k⟩] _ _ e
  rw [decodeFields_vector f0 (by decide), decodeVector, f0]
  show mbz _ _ = _
  rw [f1, f2, f3, f4, f5, f6]; rfl
theorem vfexp2 (d : BitVec 6) (a : BitVec 6) (k : BitVec 4) (z : BitVec 1) : Statement (.vfexp2 d a k z) := by
  intro _
  show decodeFields (encode (.vfexp2 d a k z)) = .ok (.vfexp2 d a k z)
  have e : (encode (.vfexp2 d a k z)).toNat = catN [⟨7, 74#7⟩, ⟨6, d⟩, ⟨6, a⟩, ⟨6, 0#6⟩, ⟨4, k⟩, ⟨1, z⟩, ⟨2, 0#2⟩] :=
    cat_cons _ (cat_cons _ (cat_cons _ (cat_cons _ (cat_cons _ (cat_cons _ (cat_one _))))))
  generalize encode (.vfexp2 d a k z) = wd at e ⊢
  have f0 : fld wd 0 7 = 74#7 := fld_cat [] _ _ e
  have f1 : fld wd 19 6 = 0#6 := fld_cat [⟨7, 74#7⟩, ⟨6, d⟩, ⟨6, a⟩] _ _ e
  have f2 : fld wd 30 2 = 0#2 := fld_cat [⟨7, 74#7⟩, ⟨6, d⟩, ⟨6, a⟩, ⟨6, 0#6⟩, ⟨4, k⟩, ⟨1, z⟩] _ _ e
  have f3 : fld wd 7 6 = d := fld_cat [⟨7, 74#7⟩] _ _ e
  have f4 : fld wd 13 6 = a := fld_cat [⟨7, 74#7⟩, ⟨6, d⟩] _ _ e
  have f5 : fld wd 25 4 = k := fld_cat [⟨7, 74#7⟩, ⟨6, d⟩, ⟨6, a⟩, ⟨6, 0#6⟩] _ _ e
  have f6 : fld wd 29 1 = z := fld_cat [⟨7, 74#7⟩, ⟨6, d⟩, ⟨6, a⟩, ⟨6, 0#6⟩, ⟨4, k⟩] _ _ e
  rw [decodeFields_vector f0 (by decide), decodeVector, f0]
  show mbz _ _ = _
  rw [f1, f2, f3, f4, f5, f6]; rfl
theorem vflog2 (d : BitVec 6) (a : BitVec 6) (k : BitVec 4) (z : BitVec 1) : Statement (.vflog2 d a k z) := by
  intro _
  show decodeFields (encode (.vflog2 d a k z)) = .ok (.vflog2 d a k z)
  have e : (encode (.vflog2 d a k z)).toNat = catN [⟨7, 75#7⟩, ⟨6, d⟩, ⟨6, a⟩, ⟨6, 0#6⟩, ⟨4, k⟩, ⟨1, z⟩, ⟨2, 0#2⟩] :=
    cat_cons _ (cat_cons _ (cat_cons _ (cat_cons _ (cat_cons _ (cat_cons _ (cat_one _))))))
  generalize encode (.vflog2 d a k z) = wd at e ⊢
  have f0 : fld wd 0 7 = 75#7 := fld_cat [] _ _ e
  have f1 : fld wd 19 6 = 0#6 := fld_cat [⟨7, 75#7⟩, ⟨6, d⟩, ⟨6, a⟩] _ _ e
  have f2 : fld wd 30 2 = 0#2 := fld_cat [⟨7, 75#7⟩, ⟨6, d⟩, ⟨6, a⟩, ⟨6, 0#6⟩, ⟨4, k⟩, ⟨1, z⟩] _ _ e
  have f3 : fld wd 7 6 = d := fld_cat [⟨7, 75#7⟩] _ _ e
  have f4 : fld wd 13 6 = a := fld_cat [⟨7, 75#7⟩, ⟨6, d⟩] _ _ e
  have f5 : fld wd 25 4 = k := fld_cat [⟨7, 75#7⟩, ⟨6, d⟩, ⟨6, a⟩, ⟨6, 0#6⟩] _ _ e
  have f6 : fld wd 29 1 = z := fld_cat [⟨7, 75#7⟩, ⟨6, d⟩, ⟨6, a⟩, ⟨6, 0#6⟩, ⟨4, k⟩] _ _ e
  rw [decodeFields_vector f0 (by decide), decodeVector, f0]
  show mbz _ _ = _
  rw [f1, f2, f3, f4, f5, f6]; rfl
theorem vfsgn (d : BitVec 6) (a : BitVec 6) (b : BitVec 6) (k : BitVec 4) (z : BitVec 1) (g : BitVec 2) : Statement (.vfsgn d a b k z g) := by
  intro _
  show decodeFields (encode (.vfsgn d a b k z g)) = .ok (.vfsgn d a b k z g)
  have e : (encode (.vfsgn d a b k z g)).toNat = catN [⟨7, 76#7⟩, ⟨6, d⟩, ⟨6, a⟩, ⟨6, b⟩, ⟨4, k⟩, ⟨1, z⟩, ⟨2, g⟩] :=
    cat_cons _ (cat_cons _ (cat_cons _ (cat_cons _ (cat_cons _ (cat_cons _ (cat_one _))))))
  generalize encode (.vfsgn d a b k z g) = wd at e ⊢
  have f0 : fld wd 0 7 = 76#7 := fld_cat [] _ _ e
  have f1 : fld wd 7 6 = d := fld_cat [⟨7, 76#7⟩] _ _ e
  have f2 : fld wd 13 6 = a := fld_cat [⟨7, 76#7⟩, ⟨6, d⟩] _ _ e
  have f3 : fld wd 19 6 = b := fld_cat [⟨7, 76#7⟩, ⟨6, d⟩, ⟨6, a⟩] _ _ e
  have f4 : fld wd 25 4 = k := fld_cat [⟨7, 76#7⟩, ⟨6, d⟩, ⟨6, a⟩, ⟨6, b⟩] _ _ e
  have f5 : fld wd 29 1 = z := fld_cat [⟨7, 76#7⟩, ⟨6, d⟩, ⟨6, a⟩, ⟨6, b⟩, ⟨4, k⟩] _ _ e
  have f6 : fld wd 30 2 = g := fld_cat [⟨7, 76#7⟩, ⟨6, d⟩, ⟨6, a⟩, ⟨6, b⟩, ⟨4, k⟩, ⟨1, z⟩] _ _ e
  rw [decodeFields_vector f0 (by decide), decodeVector, f0]
  show Except.ok _ = _
  rw [f1, f2, f3, f4, f5, f6]
theorem vcmp (d : BitVec 4) (u : BitVec 1) (s : BitVec 1) (a : BitVec 6) (b : BitVec 6) (k : BitVec 4) (z : BitVec 1) (c : BitVec 2) : Statement (.vcmp d u s a b k z c) := by
  intro _
  show decodeFields (encode (.vcmp d u s a b k z c)) = .ok (.vcmp d u s a b k z c)
  have e : (encode (.vcmp d u s a b k z c)).toNat = catN [⟨7, 80#7⟩, ⟨4, d⟩, ⟨1, u⟩, ⟨1, s⟩, ⟨6, a⟩, ⟨6, b⟩, ⟨4, k⟩, ⟨1, z⟩, ⟨2, c⟩] :=
    cat_cons _ (cat_cons _ (cat_cons _ (cat_cons _ (cat_cons _ (cat_cons _ (cat_cons _ (cat_cons _ (cat_one _))))))))
  generalize encode (.vcmp d u s a b k z c) = wd at e ⊢
  have f0 : fld wd 0 7 = 80#7 := fld_cat [] _ _ e
  have f1 : fld wd 7 4 = d := fld_cat [⟨7, 80#7⟩] _ _ e
  have f2 : fld wd 11 1 = u := fld_cat [⟨7, 80#7⟩, ⟨4, d⟩] _ _ e
  have f3 : fld wd 12 1 = s := fld_cat [⟨7, 80#7⟩, ⟨4, d⟩, ⟨1, u⟩] _ _ e
  have f4 : fld wd 13 6 = a := fld_cat [⟨7, 80#7⟩, ⟨4, d⟩, ⟨1, u⟩, ⟨1, s⟩] _ _ e
  have f5 : fld wd 19 6 = b := fld_cat [⟨7, 80#7⟩, ⟨4, d⟩, ⟨1, u⟩, ⟨1, s⟩, ⟨6, a⟩] _ _ e
  have f6 : fld wd 25 4 = k := fld_cat [⟨7, 80#7⟩, ⟨4, d⟩, ⟨1, u⟩, ⟨1, s⟩, ⟨6, a⟩, ⟨6, b⟩] _ _ e
  have f7 : fld wd 29 1 = z := fld_cat [⟨7, 80#7⟩, ⟨4, d⟩, ⟨1, u⟩, ⟨1, s⟩, ⟨6, a⟩, ⟨6, b⟩, ⟨4, k⟩] _ _ e
  have f8 : fld wd 30 2 = c := fld_cat [⟨7, 80#7⟩, ⟨4, d⟩, ⟨1, u⟩, ⟨1, s⟩, ⟨6, a⟩, ⟨6, b⟩, ⟨4, k⟩, ⟨1, z⟩] _ _ e
  rw [decodeFields_permute f0 (by decide), decodePermute, f0]
  show Except.ok _ = _
  rw [f1, f2, f3, f4, f5, f6, f7, f8]
theorem vfcmp (d : BitVec 4) (s : BitVec 1) (a : BitVec 6) (b : BitVec 6) (k : BitVec 4) (z : BitVec 1) (c : BitVec 2) : Statement (.vfcmp d s a b k z c) := by
  intro _
  show decodeFields (encode (.vfcmp d s a b k z c)) = .ok (.vfcmp d s a b k z c)
  have e : (encode (.vfcmp d s a b k z c)).toNat = catN [⟨7, 81#7⟩, ⟨4, d⟩, ⟨1, 0#1⟩, ⟨1, s⟩, ⟨6, a⟩, ⟨6, b⟩, ⟨4, k⟩, ⟨1, z⟩, ⟨2, c⟩] :=
    cat_cons _ (cat_cons _ (cat_cons _ (cat_cons _ (cat_cons _ (cat_cons _ (cat_cons _ (cat_cons _ (cat_one _))))))))
  generalize encode (.vfcmp d s a b k z c) = wd at e ⊢
  have f0 : fld wd 0 7 = 81#7 := fld_cat [] _ _ e
  have f1 : fld wd 11 1 = 0#1 := fld_cat [⟨7, 81#7⟩, ⟨4, d⟩] _ _ e
  have f2 : fld wd 7 4 = d := fld_cat [⟨7, 81#7⟩] _ _ e
  have f3 : fld wd 12 1 = s := fld_cat [⟨7, 81#7⟩, ⟨4, d⟩, ⟨1, 0#1⟩] _ _ e
  have f4 : fld wd 13 6 = a := fld_cat [⟨7, 81#7⟩, ⟨4, d⟩, ⟨1, 0#1⟩, ⟨1, s⟩] _ _ e
  have f5 : fld wd 19 6 = b := fld_cat [⟨7, 81#7⟩, ⟨4, d⟩, ⟨1, 0#1⟩, ⟨1, s⟩, ⟨6, a⟩] _ _ e
  have f6 : fld wd 25 4 = k := fld_cat [⟨7, 81#7⟩, ⟨4, d⟩, ⟨1, 0#1⟩, ⟨1, s⟩, ⟨6, a⟩, ⟨6, b⟩] _ _ e
  have f7 : fld wd 29 1 = z := fld_cat [⟨7, 81#7⟩, ⟨4, d⟩, ⟨1, 0#1⟩, ⟨1, s⟩, ⟨6, a⟩, ⟨6, b⟩, ⟨4, k⟩] _ _ e
  have f8 : fld wd 30 2 = c := fld_cat [⟨7, 81#7⟩, ⟨4, d⟩, ⟨1, 0#1⟩, ⟨1, s⟩, ⟨6, a⟩, ⟨6, b⟩, ⟨4, k⟩, ⟨1, z⟩] _ _ e
  rw [decodeFields_permute f0 (by decide), decodePermute, f0]
  show mbz _ _ = _
  rw [f1, f2, f3, f4, f5, f6, f7, f8]; rfl
theorem kop (d : BitVec 4) (a : BitVec 4) (b : BitVec 4) (o : BitVec 4) : Statement (.kop d a b o) := by
  intro _
  show decodeFields (encode (.kop d a b o)) = .ok (.kop d a b o)
  have e : (encode (.kop d a b o)).toNat = catN [⟨7, 82#7⟩, ⟨4, d⟩, ⟨2, 0#2⟩, ⟨4, a⟩, ⟨2, 0#2⟩, ⟨4, b⟩, ⟨2, 0#2⟩, ⟨4, o⟩, ⟨3, 0#3⟩] :=
    cat_cons _ (cat_cons _ (cat_cons _ (cat_cons _ (cat_cons _ (cat_cons _ (cat_cons _ (cat_cons _ (cat_one _))))))))
  generalize encode (.kop d a b o) = wd at e ⊢
  have f0 : fld wd 0 7 = 82#7 := fld_cat [] _ _ e
  have f1 : fld wd 30 2 = 0#2 := fld_sub [⟨7, 82#7⟩, ⟨4, d⟩, ⟨2, 0#2⟩, ⟨4, a⟩, ⟨2, 0#2⟩, ⟨4, b⟩, ⟨2, 0#2⟩, ⟨4, o⟩] 0#3 _ 1 2 (by decide) e
  have f2 : fld wd 11 2 = 0#2 := fld_cat [⟨7, 82#7⟩, ⟨4, d⟩] _ _ e
  have f3 : fld wd 17 2 = 0#2 := fld_cat [⟨7, 82#7⟩, ⟨4, d⟩, ⟨2, 0#2⟩, ⟨4, a⟩] _ _ e
  have f4 : fld wd 23 2 = 0#2 := fld_cat [⟨7, 82#7⟩, ⟨4, d⟩, ⟨2, 0#2⟩, ⟨4, a⟩, ⟨2, 0#2⟩, ⟨4, b⟩] _ _ e
  have f5 : fld wd 29 1 = 0#1 := fld_sub [⟨7, 82#7⟩, ⟨4, d⟩, ⟨2, 0#2⟩, ⟨4, a⟩, ⟨2, 0#2⟩, ⟨4, b⟩, ⟨2, 0#2⟩, ⟨4, o⟩] 0#3 _ 0 1 (by decide) e
  have f6 : fld wd 7 4 = d := fld_cat [⟨7, 82#7⟩] _ _ e
  have f7 : fld wd 13 4 = a := fld_cat [⟨7, 82#7⟩, ⟨4, d⟩, ⟨2, 0#2⟩] _ _ e
  have f8 : fld wd 19 4 = b := fld_cat [⟨7, 82#7⟩, ⟨4, d⟩, ⟨2, 0#2⟩, ⟨4, a⟩, ⟨2, 0#2⟩] _ _ e
  have f9 : fld wd 25 4 = o := fld_cat [⟨7, 82#7⟩, ⟨4, d⟩, ⟨2, 0#2⟩, ⟨4, a⟩, ⟨2, 0#2⟩, ⟨4, b⟩, ⟨2, 0#2⟩] _ _ e
  rw [decodeFields_mask f0, decodeMask, f1]
  show mbz _ _ = _
  rw [f2, f3, f4, f5, f6, f7, f8, f9]; rfl
theorem kpop (d : BitVec 6) (a : BitVec 4) (k : BitVec 4) : Statement (.kpop d a k) := by
  intro _
  show decodeFields (encode (.kpop d a k)) = .ok (.kpop d a k)
  have e : (encode (.kpop d a k)).toNat = catN [⟨7, 82#7⟩, ⟨6, d⟩, ⟨4, a⟩, ⟨8, 0#8⟩, ⟨4, k⟩, ⟨3, 2#3⟩] :=
    cat_cons _ (cat_cons _ (cat_cons _ (cat_cons _ (cat_cons _ (cat_one _)))))
  generalize encode (.kpop d a k) = wd at e ⊢
  have f0 : fld wd 0 7 = 82#7 := fld_cat [] _ _ e
  have f1 : fld wd 30 2 = 1#2 := fld_sub [⟨7, 82#7⟩, ⟨6, d⟩, ⟨4, a⟩, ⟨8, 0#8⟩, ⟨4, k⟩] 2#3 _ 1 2 (by decide) e
  have f2 : fld wd 17 8 = 0#8 := fld_cat [⟨7, 82#7⟩, ⟨6, d⟩, ⟨4, a⟩] _ _ e
  have f3 : fld wd 29 1 = 0#1 := fld_sub [⟨7, 82#7⟩, ⟨6, d⟩, ⟨4, a⟩, ⟨8, 0#8⟩, ⟨4, k⟩] 2#3 _ 0 1 (by decide) e
  have f4 : fld wd 7 6 = d := fld_cat [⟨7, 82#7⟩] _ _ e
  have f5 : fld wd 13 4 = a := fld_cat [⟨7, 82#7⟩, ⟨6, d⟩] _ _ e
  have f6 : fld wd 25 4 = k := fld_cat [⟨7, 82#7⟩, ⟨6, d⟩, ⟨4, a⟩, ⟨8, 0#8⟩] _ _ e
  rw [decodeFields_mask f0, decodeMask, f1]
  show mbz _ _ = _
  rw [f2, f3, f4, f5, f6]; rfl
theorem kfirst (d : BitVec 6) (a : BitVec 4) (k : BitVec 4) : Statement (.kfirst d a k) := by
  intro _
  show decodeFields (encode (.kfirst d a k)) = .ok (.kfirst d a k)
  have e : (encode (.kfirst d a k)).toNat = catN [⟨7, 82#7⟩, ⟨6, d⟩, ⟨4, a⟩, ⟨8, 0#8⟩, ⟨4, k⟩, ⟨3, 4#3⟩] :=
    cat_cons _ (cat_cons _ (cat_cons _ (cat_cons _ (cat_cons _ (cat_one _)))))
  generalize encode (.kfirst d a k) = wd at e ⊢
  have f0 : fld wd 0 7 = 82#7 := fld_cat [] _ _ e
  have f1 : fld wd 30 2 = 2#2 := fld_sub [⟨7, 82#7⟩, ⟨6, d⟩, ⟨4, a⟩, ⟨8, 0#8⟩, ⟨4, k⟩] 4#3 _ 1 2 (by decide) e
  have f2 : fld wd 17 8 = 0#8 := fld_cat [⟨7, 82#7⟩, ⟨6, d⟩, ⟨4, a⟩] _ _ e
  have f3 : fld wd 29 1 = 0#1 := fld_sub [⟨7, 82#7⟩, ⟨6, d⟩, ⟨4, a⟩, ⟨8, 0#8⟩, ⟨4, k⟩] 4#3 _ 0 1 (by decide) e
  have f4 : fld wd 7 6 = d := fld_cat [⟨7, 82#7⟩] _ _ e
  have f5 : fld wd 13 4 = a := fld_cat [⟨7, 82#7⟩, ⟨6, d⟩] _ _ e
  have f6 : fld wd 25 4 = k := fld_cat [⟨7, 82#7⟩, ⟨6, d⟩, ⟨4, a⟩, ⟨8, 0#8⟩] _ _ e
  rw [decodeFields_mask f0, decodeMask, f1]
  show mbz _ _ = _
  rw [f2, f3, f4, f5, f6]; rfl
theorem kmov (d : BitVec 4) (a : BitVec 4) : Statement (.kmov d a) := by
  intro _
  show decodeFields (encode (.kmov d a)) = .ok (.kmov d a)
  have e : (encode (.kmov d a)).toNat = catN [⟨7, 82#7⟩, ⟨4, d⟩, ⟨2, 0#2⟩, ⟨4, a⟩, ⟨15, 28416#15⟩] :=
    cat_cons _ (cat_cons _ (cat_cons _ (cat_cons _ (cat_one _))))
  generalize encode (.kmov d a) = wd at e ⊢
  have f0 : fld wd 0 7 = 82#7 := fld_cat [] _ _ e
  have f1 : fld wd 30 2 = 3#2 := fld_sub [⟨7, 82#7⟩, ⟨4, d⟩, ⟨2, 0#2⟩, ⟨4, a⟩] 28416#15 _ 13 2 (by decide) e
  have f2 : fld wd 11 2 = 0#2 := fld_cat [⟨7, 82#7⟩, ⟨4, d⟩] _ _ e
  have f3 : fld wd 17 13 = 3840#13 := fld_sub [⟨7, 82#7⟩, ⟨4, d⟩, ⟨2, 0#2⟩, ⟨4, a⟩] 28416#15 _ 0 13 (by decide) e
  have f4 : fld wd 7 4 = d := fld_cat [⟨7, 82#7⟩] _ _ e
  have f5 : fld wd 13 4 = a := fld_cat [⟨7, 82#7⟩, ⟨4, d⟩, ⟨2, 0#2⟩] _ _ e
  rw [decodeFields_mask f0, decodeMask, f1]
  show mbz _ _ = _
  rw [f2, f3, f4, f5]; rfl
theorem mtree (d : BitVec 4) (a : BitVec 6) (b : BitVec 6) : Statement (.mtree d a b) := by
  intro _
  show decodeFields (encode (.mtree d a b)) = .ok (.mtree d a b)
  have e : (encode (.mtree d a b)).toNat = catN [⟨7, 83#7⟩, ⟨4, d⟩, ⟨2, 0#2⟩, ⟨6, a⟩, ⟨6, b⟩, ⟨7, 15#7⟩] :=
    cat_cons _ (cat_cons _ (cat_cons _ (cat_cons _ (cat_cons _ (cat_one _)))))
  generalize encode (.mtree d a b) = wd at e ⊢
  have f0 : fld wd 0 7 = 83#7 := fld_cat [] _ _ e
  have f1 : fld wd 11 2 = 0#2 := fld_cat [⟨7, 83#7⟩, ⟨4, d⟩] _ _ e
  have f2 : fld wd 25 7 = 15#7 := fld_cat [⟨7, 83#7⟩, ⟨4, d⟩, ⟨2, 0#2⟩, ⟨6, a⟩, ⟨6, b⟩] _ _ e
  have f3 : fld wd 7 4 = d := fld_cat [⟨7, 83#7⟩] _ _ e
  have f4 : fld wd 13 6 = a := fld_cat [⟨7, 83#7⟩, ⟨4, d⟩, ⟨2, 0#2⟩] _ _ e
  have f5 : fld wd 19 6 = b := fld_cat [⟨7, 83#7⟩, ⟨4, d⟩, ⟨2, 0#2⟩, ⟨6, a⟩] _ _ e
  rw [decodeFields_permute f0 (by decide), decodePermute, f0]
  show mbz _ _ = _
  rw [f1, f2, f3, f4, f5]; rfl
theorem vcvt (d : BitVec 6) (a : BitVec 6) (s : BitVec 3) (k : BitVec 4) (z : BitVec 1) : Statement (.vcvt d a s k z) := by
  intro _
  show decodeFields (encode (.vcvt d a s k z)) = .ok (.vcvt d a s k z)
  have e : (encode (.vcvt d a s k z)).toNat = catN [⟨7, 84#7⟩, ⟨6, d⟩, ⟨6, a⟩, ⟨3, s⟩, ⟨3, 0#3⟩, ⟨4, k⟩, ⟨1, z⟩, ⟨2, 0#2⟩] :=
    cat_cons _ (cat_cons _ (cat_cons _ (cat_cons _ (cat_cons _ (cat_cons _ (cat_cons _ (cat_one _)))))))
  generalize encode (.vcvt d a s k z) = wd at e ⊢
  have f0 : fld wd 0 7 = 84#7 := fld_cat [] _ _ e
  have f1 : fld wd 22 3 = 0#3 := fld_cat [⟨7, 84#7⟩, ⟨6, d⟩, ⟨6, a⟩, ⟨3, s⟩] _ _ e
  have f2 : fld wd 30 2 = 0#2 := fld_cat [⟨7, 84#7⟩, ⟨6, d⟩, ⟨6, a⟩, ⟨3, s⟩, ⟨3, 0#3⟩, ⟨4, k⟩, ⟨1, z⟩] _ _ e
  have f3 : fld wd 7 6 = d := fld_cat [⟨7, 84#7⟩] _ _ e
  have f4 : fld wd 13 6 = a := fld_cat [⟨7, 84#7⟩, ⟨6, d⟩] _ _ e
  have f5 : fld wd 19 3 = s := fld_cat [⟨7, 84#7⟩, ⟨6, d⟩, ⟨6, a⟩] _ _ e
  have f6 : fld wd 25 4 = k := fld_cat [⟨7, 84#7⟩, ⟨6, d⟩, ⟨6, a⟩, ⟨3, s⟩, ⟨3, 0#3⟩] _ _ e
  have f7 : fld wd 29 1 = z := fld_cat [⟨7, 84#7⟩, ⟨6, d⟩, ⟨6, a⟩, ⟨3, s⟩, ⟨3, 0#3⟩, ⟨4, k⟩] _ _ e
  rw [decodeFields_permute f0 (by decide), decodePermute, f0]
  show mbz _ _ = _
  rw [f1, f2, f3, f4, f5, f6, f7]; rfl
theorem vnarrow (d : BitVec 6) (a : BitVec 5) (n : BitVec 2) (k : BitVec 4) (z : BitVec 1) : Statement (.vnarrow d a n k z) := by
  intro _
  show decodeFields (encode (.vnarrow d a n k z)) = .ok (.vnarrow d a n k z)
  have e : (encode (.vnarrow d a n k z)).toNat = catN [⟨7, 85#7⟩, ⟨6, d⟩, ⟨1, 0#1⟩, ⟨5, a⟩, ⟨2, n⟩, ⟨4, 0#4⟩, ⟨4, k⟩, ⟨1, z⟩, ⟨2, 0#2⟩] :=
    cat_cons _ (cat_cons _ (cat_cons _ (cat_cons _ (cat_cons _ (cat_cons _ (cat_cons _ (cat_cons _ (cat_one _))))))))
  generalize encode (.vnarrow d a n k z) = wd at e ⊢
  have f0 : fld wd 0 7 = 85#7 := fld_cat [] _ _ e
  have f1 : fld wd 13 1 = 0#1 := fld_cat [⟨7, 85#7⟩, ⟨6, d⟩] _ _ e
  have f2 : fld wd 21 4 = 0#4 := fld_cat [⟨7, 85#7⟩, ⟨6, d⟩, ⟨1, 0#1⟩, ⟨5, a⟩, ⟨2, n⟩] _ _ e
  have f3 : fld wd 30 2 = 0#2 := fld_cat [⟨7, 85#7⟩, ⟨6, d⟩, ⟨1, 0#1⟩, ⟨5, a⟩, ⟨2, n⟩, ⟨4, 0#4⟩, ⟨4, k⟩, ⟨1, z⟩] _ _ e
  have f4 : fld wd 7 6 = d := fld_cat [⟨7, 85#7⟩] _ _ e
  have f5 : fld wd 14 5 = a := fld_cat [⟨7, 85#7⟩, ⟨6, d⟩, ⟨1, 0#1⟩] _ _ e
  have f6 : fld wd 19 2 = n := fld_cat [⟨7, 85#7⟩, ⟨6, d⟩, ⟨1, 0#1⟩, ⟨5, a⟩] _ _ e
  have f7 : fld wd 25 4 = k := fld_cat [⟨7, 85#7⟩, ⟨6, d⟩, ⟨1, 0#1⟩, ⟨5, a⟩, ⟨2, n⟩, ⟨4, 0#4⟩] _ _ e
  have f8 : fld wd 29 1 = z := fld_cat [⟨7, 85#7⟩, ⟨6, d⟩, ⟨1, 0#1⟩, ⟨5, a⟩, ⟨2, n⟩, ⟨4, 0#4⟩, ⟨4, k⟩] _ _ e
  rw [decodeFields_permute f0 (by decide), decodePermute, f0]
  show ite _ _ (mbz _ _) = _
  rw [f1, f2, f3, f4, f5, f6, f7, f8]; rfl
theorem vwiden (d : BitVec 5) (a : BitVec 6) (u : BitVec 1) (k : BitVec 4) (z : BitVec 1) : Statement (.vwiden d a u k z) := by
  intro _
  show decodeFields (encode (.vwiden d a u k z)) = .ok (.vwiden d a u k z)
  have e : (encode (.vwiden d a u k z)).toNat = catN [⟨7, 86#7⟩, ⟨1, 0#1⟩, ⟨5, d⟩, ⟨6, a⟩, ⟨1, u⟩, ⟨5, 0#5⟩, ⟨4, k⟩, ⟨1, z⟩, ⟨2, 0#2⟩] :=
    cat_cons _ (cat_cons _ (cat_cons _ (cat_cons _ (cat_cons _ (cat_cons _ (cat_cons _ (cat_cons _ (cat_one _))))))))
  generalize encode (.vwiden d a u k z) = wd at e ⊢
  have f0 : fld wd 0 7 = 86#7 := fld_cat [] _ _ e
  have f1 : fld wd 7 1 = 0#1 := fld_cat [⟨7, 86#7⟩] _ _ e
  have f2 : fld wd 20 5 = 0#5 := fld_cat [⟨7, 86#7⟩, ⟨1, 0#1⟩, ⟨5, d⟩, ⟨6, a⟩, ⟨1, u⟩] _ _ e
  have f3 : fld wd 30 2 = 0#2 := fld_cat [⟨7, 86#7⟩, ⟨1, 0#1⟩, ⟨5, d⟩, ⟨6, a⟩, ⟨1, u⟩, ⟨5, 0#5⟩, ⟨4, k⟩, ⟨1, z⟩] _ _ e
  have f4 : fld wd 8 5 = d := fld_cat [⟨7, 86#7⟩, ⟨1, 0#1⟩] _ _ e
  have f5 : fld wd 13 6 = a := fld_cat [⟨7, 86#7⟩, ⟨1, 0#1⟩, ⟨5, d⟩] _ _ e
  have f6 : fld wd 19 1 = u := fld_cat [⟨7, 86#7⟩, ⟨1, 0#1⟩, ⟨5, d⟩, ⟨6, a⟩] _ _ e
  have f7 : fld wd 25 4 = k := fld_cat [⟨7, 86#7⟩, ⟨1, 0#1⟩, ⟨5, d⟩, ⟨6, a⟩, ⟨1, u⟩, ⟨5, 0#5⟩] _ _ e
  have f8 : fld wd 29 1 = z := fld_cat [⟨7, 86#7⟩, ⟨1, 0#1⟩, ⟨5, d⟩, ⟨6, a⟩, ⟨1, u⟩, ⟨5, 0#5⟩, ⟨4, k⟩] _ _ e
  rw [decodeFields_permute f0 (by decide), decodePermute, f0]
  show ite _ _ (mbz _ _) = _
  rw [f1, f2, f3, f4, f5, f6, f7, f8]; rfl
theorem vmerge (d : BitVec 6) (a : BitVec 6) (b : BitVec 6) (k : BitVec 4) (s : BitVec 1) : Statement (.vmerge d a b k s) := by
  intro _
  show decodeFields (encode (.vmerge d a b k s)) = .ok (.vmerge d a b k s)
  have e : (encode (.vmerge d a b k s)).toNat = catN [⟨7, 88#7⟩, ⟨6, d⟩, ⟨6, a⟩, ⟨6, b⟩, ⟨4, k⟩, ⟨1, 0#1⟩, ⟨1, s⟩, ⟨1, 0#1⟩] :=
    cat_cons _ (cat_cons _ (cat_cons _ (cat_cons _ (cat_cons _ (cat_cons _ (cat_cons _ (cat_one _)))))))
  generalize encode (.vmerge d a b k s) = wd at e ⊢
  have f0 : fld wd 0 7 = 88#7 := fld_cat [] _ _ e
  have f1 : fld wd 29 1 = 0#1 := fld_cat [⟨7, 88#7⟩, ⟨6, d⟩, ⟨6, a⟩, ⟨6, b⟩, ⟨4, k⟩] _ _ e
  have f2 : fld wd 31 1 = 0#1 := fld_cat [⟨7, 88#7⟩, ⟨6, d⟩, ⟨6, a⟩, ⟨6, b⟩, ⟨4, k⟩, ⟨1, 0#1⟩, ⟨1, s⟩] _ _ e
  have f3 : fld wd 7 6 = d := fld_cat [⟨7, 88#7⟩] _ _ e
  have f4 : fld wd 13 6 = a := fld_cat [⟨7, 88#7⟩, ⟨6, d⟩] _ _ e
  have f5 : fld wd 19 6 = b := fld_cat [⟨7, 88#7⟩, ⟨6, d⟩, ⟨6, a⟩] _ _ e
  have f6 : fld wd 25 4 = k := fld_cat [⟨7, 88#7⟩, ⟨6, d⟩, ⟨6, a⟩, ⟨6, b⟩] _ _ e
  have f7 : fld wd 30 1 = s := fld_cat [⟨7, 88#7⟩, ⟨6, d⟩, ⟨6, a⟩, ⟨6, b⟩, ⟨4, k⟩, ⟨1, 0#1⟩] _ _ e
  rw [decodeFields_permute f0 (by decide), decodePermute, f0]
  show mbz _ _ = _
  rw [f1, f2, f3, f4, f5, f6, f7]; rfl
theorem vperm (d : BitVec 6) (a : BitVec 6) (b : BitVec 6) (k : BitVec 4) (z : BitVec 1) : Statement (.vperm d a b k z) := by
  intro _
  show decodeFields (encode (.vperm d a b k z)) = .ok (.vperm d a b k z)
  have e : (encode (.vperm d a b k z)).toNat = catN [⟨7, 89#7⟩, ⟨6, d⟩, ⟨6, a⟩, ⟨6, b⟩, ⟨4, k⟩, ⟨1, z⟩, ⟨2, 0#2⟩] :=
    cat_cons _ (cat_cons _ (cat_cons _ (cat_cons _ (cat_cons _ (cat_cons _ (cat_one _))))))
  generalize encode (.vperm d a b k z) = wd at e ⊢
  have f0 : fld wd 0 7 = 89#7 := fld_cat [] _ _ e
  have f1 : fld wd 30 2 = 0#2 := fld_cat [⟨7, 89#7⟩, ⟨6, d⟩, ⟨6, a⟩, ⟨6, b⟩, ⟨4, k⟩, ⟨1, z⟩] _ _ e
  have f2 : fld wd 7 6 = d := fld_cat [⟨7, 89#7⟩] _ _ e
  have f3 : fld wd 13 6 = a := fld_cat [⟨7, 89#7⟩, ⟨6, d⟩] _ _ e
  have f4 : fld wd 19 6 = b := fld_cat [⟨7, 89#7⟩, ⟨6, d⟩, ⟨6, a⟩] _ _ e
  have f5 : fld wd 25 4 = k := fld_cat [⟨7, 89#7⟩, ⟨6, d⟩, ⟨6, a⟩, ⟨6, b⟩] _ _ e
  have f6 : fld wd 29 1 = z := fld_cat [⟨7, 89#7⟩, ⟨6, d⟩, ⟨6, a⟩, ⟨6, b⟩, ⟨4, k⟩] _ _ e
  rw [decodeFields_permute f0 (by decide), decodePermute, f0]
  show mbz _ _ = _
  rw [f1, f2, f3, f4, f5, f6]; rfl
theorem vslide (d : BitVec 6) (a : BitVec 6) (b : BitVec 6) (k : BitVec 4) (z : BitVec 1) (r : BitVec 1) : Statement (.vslide d a b k z r) := by
  intro _
  show decodeFields (encode (.vslide d a b k z r)) = .ok (.vslide d a b k z r)
  have e : (encode (.vslide d a b k z r)).toNat = catN [⟨7, 90#7⟩, ⟨6, d⟩, ⟨6, a⟩, ⟨6, b⟩, ⟨4, k⟩, ⟨1, z⟩, ⟨1, r⟩, ⟨1, 0#1⟩] :=
    cat_cons _ (cat_cons _ (cat_cons _ (cat_cons _ (cat_cons _ (cat_cons _ (cat_cons _ (cat_one _)))))))
  generalize encode (.vslide d a b k z r) = wd at e ⊢
  have f0 : fld wd 0 7 = 90#7 := fld_cat [] _ _ e
  have f1 : fld wd 31 1 = 0#1 := fld_cat [⟨7, 90#7⟩, ⟨6, d⟩, ⟨6, a⟩, ⟨6, b⟩, ⟨4, k⟩, ⟨1, z⟩, ⟨1, r⟩] _ _ e
  have f2 : fld wd 7 6 = d := fld_cat [⟨7, 90#7⟩] _ _ e
  have f3 : fld wd 13 6 = a := fld_cat [⟨7, 90#7⟩, ⟨6, d⟩] _ _ e
  have f4 : fld wd 19 6 = b := fld_cat [⟨7, 90#7⟩, ⟨6, d⟩, ⟨6, a⟩] _ _ e
  have f5 : fld wd 25 4 = k := fld_cat [⟨7, 90#7⟩, ⟨6, d⟩, ⟨6, a⟩, ⟨6, b⟩] _ _ e
  have f6 : fld wd 29 1 = z := fld_cat [⟨7, 90#7⟩, ⟨6, d⟩, ⟨6, a⟩, ⟨6, b⟩, ⟨4, k⟩] _ _ e
  have f7 : fld wd 30 1 = r := fld_cat [⟨7, 90#7⟩, ⟨6, d⟩, ⟨6, a⟩, ⟨6, b⟩, ⟨4, k⟩, ⟨1, z⟩] _ _ e
  rw [decodeFields_permute f0 (by decide), decodePermute, f0]
  show mbz _ _ = _
  rw [f1, f2, f3, f4, f5, f6, f7]; rfl
theorem vcompress (d : BitVec 6) (a : BitVec 6) (k : BitVec 4) (z : BitVec 1) : Statement (.vcompress d a k z) := by
  intro _
  show decodeFields (encode (.vcompress d a k z)) = .ok (.vcompress d a k z)
  have e : (encode (.vcompress d a k z)).toNat = catN [⟨7, 91#7⟩, ⟨6, d⟩, ⟨6, a⟩, ⟨6, 0#6⟩, ⟨4, k⟩, ⟨1, z⟩, ⟨2, 0#2⟩] :=
    cat_cons _ (cat_cons _ (cat_cons _ (cat_cons _ (cat_cons _ (cat_cons _ (cat_one _))))))
  generalize encode (.vcompress d a k z) = wd at e ⊢
  have f0 : fld wd 0 7 = 91#7 := fld_cat [] _ _ e
  have f1 : fld wd 19 6 = 0#6 := fld_cat [⟨7, 91#7⟩, ⟨6, d⟩, ⟨6, a⟩] _ _ e
  have f2 : fld wd 30 2 = 0#2 := fld_cat [⟨7, 91#7⟩, ⟨6, d⟩, ⟨6, a⟩, ⟨6, 0#6⟩, ⟨4, k⟩, ⟨1, z⟩] _ _ e
  have f3 : fld wd 7 6 = d := fld_cat [⟨7, 91#7⟩] _ _ e
  have f4 : fld wd 13 6 = a := fld_cat [⟨7, 91#7⟩, ⟨6, d⟩] _ _ e
  have f5 : fld wd 25 4 = k := fld_cat [⟨7, 91#7⟩, ⟨6, d⟩, ⟨6, a⟩, ⟨6, 0#6⟩] _ _ e
  have f6 : fld wd 29 1 = z := fld_cat [⟨7, 91#7⟩, ⟨6, d⟩, ⟨6, a⟩, ⟨6, 0#6⟩, ⟨4, k⟩] _ _ e
  rw [decodeFields_permute f0 (by decide), decodePermute, f0]
  show mbz _ _ = _
  rw [f1, f2, f3, f4, f5, f6]; rfl
theorem vexpand (d : BitVec 6) (a : BitVec 6) (k : BitVec 4) (z : BitVec 1) : Statement (.vexpand d a k z) := by
  intro _
  show decodeFields (encode (.vexpand d a k z)) = .ok (.vexpand d a k z)
  have e : (encode (.vexpand d a k z)).toNat = catN [⟨7, 92#7⟩, ⟨6, d⟩, ⟨6, a⟩, ⟨6, 0#6⟩, ⟨4, k⟩, ⟨1, z⟩, ⟨2, 0#2⟩] :=
    cat_cons _ (cat_cons _ (cat_cons _ (cat_cons _ (cat_cons _ (cat_cons _ (cat_one _))))))
  generalize encode (.vexpand d a k z) = wd at e ⊢
  have f0 : fld wd 0 7 = 92#7 := fld_cat [] _ _ e
  have f1 : fld wd 19 6 = 0#6 := fld_cat [⟨7, 92#7⟩, ⟨6, d⟩, ⟨6, a⟩] _ _ e
  have f2 : fld wd 30 2 = 0#2 := fld_cat [⟨7, 92#7⟩, ⟨6, d⟩, ⟨6, a⟩, ⟨6, 0#6⟩, ⟨4, k⟩, ⟨1, z⟩] _ _ e
  have f3 : fld wd 7 6 = d := fld_cat [⟨7, 92#7⟩] _ _ e
  have f4 : fld wd 13 6 = a := fld_cat [⟨7, 92#7⟩, ⟨6, d⟩] _ _ e
  have f5 : fld wd 25 4 = k := fld_cat [⟨7, 92#7⟩, ⟨6, d⟩, ⟨6, a⟩, ⟨6, 0#6⟩] _ _ e
  have f6 : fld wd 29 1 = z := fld_cat [⟨7, 92#7⟩, ⟨6, d⟩, ⟨6, a⟩, ⟨6, 0#6⟩, ⟨4, k⟩] _ _ e
  rw [decodeFields_permute f0 (by decide), decodePermute, f0]
  show mbz _ _ = _
  rw [f1, f2, f3, f4, f5, f6]; rfl
theorem viota (d : BitVec 6) (k : BitVec 4) (z : BitVec 1) : Statement (.viota d k z) := by
  intro _
  show decodeFields (encode (.viota d k z)) = .ok (.viota d k z)
  have e : (encode (.viota d k z)).toNat = catN [⟨7, 93#7⟩, ⟨6, d⟩, ⟨12, 0#12⟩, ⟨4, k⟩, ⟨1, z⟩, ⟨2, 0#2⟩] :=
    cat_cons _ (cat_cons _ (cat_cons _ (cat_cons _ (cat_cons _ (cat_one _)))))
  generalize encode (.viota d k z) = wd at e ⊢
  have f0 : fld wd 0 7 = 93#7 := fld_cat [] _ _ e
  have f1 : fld wd 13 12 = 0#12 := fld_cat [⟨7, 93#7⟩, ⟨6, d⟩] _ _ e
  have f2 : fld wd 30 2 = 0#2 := fld_cat [⟨7, 93#7⟩, ⟨6, d⟩, ⟨12, 0#12⟩, ⟨4, k⟩, ⟨1, z⟩] _ _ e
  have f3 : fld wd 7 6 = d := fld_cat [⟨7, 93#7⟩] _ _ e
  have f4 : fld wd 25 4 = k := fld_cat [⟨7, 93#7⟩, ⟨6, d⟩, ⟨12, 0#12⟩] _ _ e
  have f5 : fld wd 29 1 = z := fld_cat [⟨7, 93#7⟩, ⟨6, d⟩, ⟨12, 0#12⟩, ⟨4, k⟩] _ _ e
  rw [decodeFields_permute f0 (by decide), decodePermute, f0]
  show mbz _ _ = _
  rw [f1, f2, f3, f4, f5]; rfl
theorem vbcast (d : BitVec 6) (a : BitVec 6) (b : BitVec 6) (k : BitVec 4) (z : BitVec 1) (f : BitVec 1) : Statement (.vbcast d a b k z f) := by
  intro _
  show decodeFields (encode (.vbcast d a b k z f)) = .ok (.vbcast d a b k z f)
  have e : (encode (.vbcast d a b k z f)).toNat = catN [⟨7, 94#7⟩, ⟨6, d⟩, ⟨6, a⟩, ⟨6, b⟩, ⟨4, k⟩, ⟨1, z⟩, ⟨1, f⟩, ⟨1, 0#1⟩] :=
    cat_cons _ (cat_cons _ (cat_cons _ (cat_cons _ (cat_cons _ (cat_cons _ (cat_cons _ (cat_one _)))))))
  generalize encode (.vbcast d a b k z f) = wd at e ⊢
  have f0 : fld wd 0 7 = 94#7 := fld_cat [] _ _ e
  have f1 : fld wd 31 1 = 0#1 := fld_cat [⟨7, 94#7⟩, ⟨6, d⟩, ⟨6, a⟩, ⟨6, b⟩, ⟨4, k⟩, ⟨1, z⟩, ⟨1, f⟩] _ _ e
  have f2 : fld wd 7 6 = d := fld_cat [⟨7, 94#7⟩] _ _ e
  have f3 : fld wd 13 6 = a := fld_cat [⟨7, 94#7⟩, ⟨6, d⟩] _ _ e
  have f4 : fld wd 19 6 = b := fld_cat [⟨7, 94#7⟩, ⟨6, d⟩, ⟨6, a⟩] _ _ e
  have f5 : fld wd 25 4 = k := fld_cat [⟨7, 94#7⟩, ⟨6, d⟩, ⟨6, a⟩, ⟨6, b⟩] _ _ e
  have f6 : fld wd 29 1 = z := fld_cat [⟨7, 94#7⟩, ⟨6, d⟩, ⟨6, a⟩, ⟨6, b⟩, ⟨4, k⟩] _ _ e
  have f7 : fld wd 30 1 = f := fld_cat [⟨7, 94#7⟩, ⟨6, d⟩, ⟨6, a⟩, ⟨6, b⟩, ⟨4, k⟩, ⟨1, z⟩] _ _ e
  rw [decodeFields_permute f0 (by decide), decodePermute, f0]
  show mbz _ _ = _
  rw [f1, f2, f3, f4, f5, f6, f7]; rfl
theorem vmovx (d : BitVec 6) (a : BitVec 6) (k : BitVec 4) (z : BitVec 1) (y : BitVec 1) : Statement (.vmovx d a k z y) := by
  intro _
  show decodeFields (encode (.vmovx d a k z y)) = .ok (.vmovx d a k z y)
  have e : (encode (.vmovx d a k z y)).toNat = catN [⟨7, 95#7⟩, ⟨6, d⟩, ⟨6, a⟩, ⟨6, 0#6⟩, ⟨4, k⟩, ⟨1, z⟩, ⟨1, y⟩, ⟨1, 0#1⟩] :=
    cat_cons _ (cat_cons _ (cat_cons _ (cat_cons _ (cat_cons _ (cat_cons _ (cat_cons _ (cat_one _)))))))
  generalize encode (.vmovx d a k z y) = wd at e ⊢
  have f0 : fld wd 0 7 = 95#7 := fld_cat [] _ _ e
  have f1 : fld wd 19 6 = 0#6 := fld_cat [⟨7, 95#7⟩, ⟨6, d⟩, ⟨6, a⟩] _ _ e
  have f2 : fld wd 31 1 = 0#1 := fld_cat [⟨7, 95#7⟩, ⟨6, d⟩, ⟨6, a⟩, ⟨6, 0#6⟩, ⟨4, k⟩, ⟨1, z⟩, ⟨1, y⟩] _ _ e
  have f3 : fld wd 7 6 = d := fld_cat [⟨7, 95#7⟩] _ _ e
  have f4 : fld wd 13 6 = a := fld_cat [⟨7, 95#7⟩, ⟨6, d⟩] _ _ e
  have f5 : fld wd 25 4 = k := fld_cat [⟨7, 95#7⟩, ⟨6, d⟩, ⟨6, a⟩, ⟨6, 0#6⟩] _ _ e
  have f6 : fld wd 29 1 = z := fld_cat [⟨7, 95#7⟩, ⟨6, d⟩, ⟨6, a⟩, ⟨6, 0#6⟩, ⟨4, k⟩] _ _ e
  have f7 : fld wd 30 1 = y := fld_cat [⟨7, 95#7⟩, ⟨6, d⟩, ⟨6, a⟩, ⟨6, 0#6⟩, ⟨4, k⟩, ⟨1, z⟩] _ _ e
  rw [decodeFields_permute f0 (by decide), decodePermute, f0]
  show mbz _ _ = _
  rw [f1, f2, f3, f4, f5, f6, f7]; rfl
theorem vext (d : BitVec 6) (a : BitVec 6) (b : BitVec 6) : Statement (.vext d a b) := by
  intro _
  show decodeFields (encode (.vext d a b)) = .ok (.vext d a b)
  have e : (encode (.vext d a b)).toNat = catN [⟨7, 96#7⟩, ⟨6, d⟩, ⟨6, a⟩, ⟨6, b⟩, ⟨7, 15#7⟩] :=
    cat_cons _ (cat_cons _ (cat_cons _ (cat_cons _ (cat_one _))))
  generalize encode (.vext d a b) = wd at e ⊢
  have f0 : fld wd 0 7 = 96#7 := fld_cat [] _ _ e
  have f1 : fld wd 25 7 = 15#7 := fld_cat [⟨7, 96#7⟩, ⟨6, d⟩, ⟨6, a⟩, ⟨6, b⟩] _ _ e
  have f2 : fld wd 7 6 = d := fld_cat [⟨7, 96#7⟩] _ _ e
  have f3 : fld wd 13 6 = a := fld_cat [⟨7, 96#7⟩, ⟨6, d⟩] _ _ e
  have f4 : fld wd 19 6 = b := fld_cat [⟨7, 96#7⟩, ⟨6, d⟩, ⟨6, a⟩] _ _ e
  rw [decodeFields_permute f0 (by decide), decodePermute, f0]
  show mbz _ _ = _
  rw [f1, f2, f3, f4]; rfl
theorem vins (d : BitVec 6) (a : BitVec 6) (b : BitVec 6) : Statement (.vins d a b) := by
  intro _
  show decodeFields (encode (.vins d a b)) = .ok (.vins d a b)
  have e : (encode (.vins d a b)).toNat = catN [⟨7, 97#7⟩, ⟨6, d⟩, ⟨6, a⟩, ⟨6, b⟩, ⟨7, 15#7⟩] :=
    cat_cons _ (cat_cons _ (cat_cons _ (cat_cons _ (cat_one _))))
  generalize encode (.vins d a b) = wd at e ⊢
  have f0 : fld wd 0 7 = 97#7 := fld_cat [] _ _ e
  have f1 : fld wd 25 7 = 15#7 := fld_cat [⟨7, 97#7⟩, ⟨6, d⟩, ⟨6, a⟩, ⟨6, b⟩] _ _ e
  have f2 : fld wd 7 6 = d := fld_cat [⟨7, 97#7⟩] _ _ e
  have f3 : fld wd 13 6 = a := fld_cat [⟨7, 97#7⟩, ⟨6, d⟩] _ _ e
  have f4 : fld wd 19 6 = b := fld_cat [⟨7, 97#7⟩, ⟨6, d⟩, ⟨6, a⟩] _ _ e
  rw [decodeFields_permute f0 (by decide), decodePermute, f0]
  show mbz _ _ = _
  rw [f1, f2, f3, f4]; rfl
theorem vredsum (d : BitVec 6) (a : BitVec 6) (b : BitVec 6) (k : BitVec 4) : Statement (.vredsum d a b k) := by
  intro _
  show decodeFields (encode (.vredsum d a b k)) = .ok (.vredsum d a b k)
  have e : (encode (.vredsum d a b k)).toNat = catN [⟨7, 100#7⟩, ⟨6, d⟩, ⟨6, a⟩, ⟨6, b⟩, ⟨4, k⟩, ⟨3, 0#3⟩] :=
    cat_cons _ (cat_cons _ (cat_cons _ (cat_cons _ (cat_cons _ (cat_one _)))))
  generalize encode (.vredsum d a b k) = wd at e ⊢
  have f0 : fld wd 0 7 = 100#7 := fld_cat [] _ _ e
  have f1 : fld wd 29 3 = 0#3 := fld_cat [⟨7, 100#7⟩, ⟨6, d⟩, ⟨6, a⟩, ⟨6, b⟩, ⟨4, k⟩] _ _ e
  have f2 : fld wd 7 6 = d := fld_cat [⟨7, 100#7⟩] _ _ e
  have f3 : fld wd 13 6 = a := fld_cat [⟨7, 100#7⟩, ⟨6, d⟩] _ _ e
  have f4 : fld wd 19 6 = b := fld_cat [⟨7, 100#7⟩, ⟨6, d⟩, ⟨6, a⟩] _ _ e
  have f5 : fld wd 25 4 = k := fld_cat [⟨7, 100#7⟩, ⟨6, d⟩, ⟨6, a⟩, ⟨6, b⟩] _ _ e
  rw [decodeFields_permute f0 (by decide), decodePermute, f0]
  show mbz _ _ = _
  rw [f1, f2, f3, f4, f5]; rfl
theorem vredmax (d : BitVec 6) (a : BitVec 6) (b : BitVec 6) (k : BitVec 4) (u : BitVec 1) : Statement (.vredmax d a b k u) := by
  intro _
  show decodeFields (encode (.vredmax d a b k u)) = .ok (.vredmax d a b k u)
  have e : (encode (.vredmax d a b k u)).toNat = catN [⟨7, 101#7⟩, ⟨6, d⟩, ⟨6, a⟩, ⟨6, b⟩, ⟨4, k⟩, ⟨2, 0#2⟩, ⟨1, u⟩] :=
    cat_cons _ (cat_cons _ (cat_cons _ (cat_cons _ (cat_cons _ (cat_cons _ (cat_one _))))))
  generalize encode (.vredmax d a b k u) = wd at e ⊢
  have f0 : fld wd 0 7 = 101#7 := fld_cat [] _ _ e
  have f1 : fld wd 29 2 = 0#2 := fld_cat [⟨7, 101#7⟩, ⟨6, d⟩, ⟨6, a⟩, ⟨6, b⟩, ⟨4, k⟩] _ _ e
  have f2 : fld wd 7 6 = d := fld_cat [⟨7, 101#7⟩] _ _ e
  have f3 : fld wd 13 6 = a := fld_cat [⟨7, 101#7⟩, ⟨6, d⟩] _ _ e
  have f4 : fld wd 19 6 = b := fld_cat [⟨7, 101#7⟩, ⟨6, d⟩, ⟨6, a⟩] _ _ e
  have f5 : fld wd 25 4 = k := fld_cat [⟨7, 101#7⟩, ⟨6, d⟩, ⟨6, a⟩, ⟨6, b⟩] _ _ e
  have f6 : fld wd 31 1 = u := fld_cat [⟨7, 101#7⟩, ⟨6, d⟩, ⟨6, a⟩, ⟨6, b⟩, ⟨4, k⟩, ⟨2, 0#2⟩] _ _ e
  rw [decodeFields_permute f0 (by decide), decodePermute, f0]
  show mbz _ _ = _
  rw [f1, f2, f3, f4, f5, f6]; rfl
theorem vredmin (d : BitVec 6) (a : BitVec 6) (b : BitVec 6) (k : BitVec 4) (u : BitVec 1) : Statement (.vredmin d a b k u) := by
  intro _
  show decodeFields (encode (.vredmin d a b k u)) = .ok (.vredmin d a b k u)
  have e : (encode (.vredmin d a b k u)).toNat = catN [⟨7, 102#7⟩, ⟨6, d⟩, ⟨6, a⟩, ⟨6, b⟩, ⟨4, k⟩, ⟨2, 0#2⟩, ⟨1, u⟩] :=
    cat_cons _ (cat_cons _ (cat_cons _ (cat_cons _ (cat_cons _ (cat_cons _ (cat_one _))))))
  generalize encode (.vredmin d a b k u) = wd at e ⊢
  have f0 : fld wd 0 7 = 102#7 := fld_cat [] _ _ e
  have f1 : fld wd 29 2 = 0#2 := fld_cat [⟨7, 102#7⟩, ⟨6, d⟩, ⟨6, a⟩, ⟨6, b⟩, ⟨4, k⟩] _ _ e
  have f2 : fld wd 7 6 = d := fld_cat [⟨7, 102#7⟩] _ _ e
  have f3 : fld wd 13 6 = a := fld_cat [⟨7, 102#7⟩, ⟨6, d⟩] _ _ e
  have f4 : fld wd 19 6 = b := fld_cat [⟨7, 102#7⟩, ⟨6, d⟩, ⟨6, a⟩] _ _ e
  have f5 : fld wd 25 4 = k := fld_cat [⟨7, 102#7⟩, ⟨6, d⟩, ⟨6, a⟩, ⟨6, b⟩] _ _ e
  have f6 : fld wd 31 1 = u := fld_cat [⟨7, 102#7⟩, ⟨6, d⟩, ⟨6, a⟩, ⟨6, b⟩, ⟨4, k⟩, ⟨2, 0#2⟩] _ _ e
  rw [decodeFields_permute f0 (by decide), decodePermute, f0]
  show mbz _ _ = _
  rw [f1, f2, f3, f4, f5, f6]; rfl
theorem vfredsum (d : BitVec 6) (a : BitVec 6) (b : BitVec 6) (k : BitVec 4) : Statement (.vfredsum d a b k) := by
  intro _
  show decodeFields (encode (.vfredsum d a b k)) = .ok (.vfredsum d a b k)
  have e : (encode (.vfredsum d a b k)).toNat = catN [⟨7, 103#7⟩, ⟨6, d⟩, ⟨6, a⟩, ⟨6, b⟩, ⟨4, k⟩, ⟨3, 0#3⟩] :=
    cat_cons _ (cat_cons _ (cat_cons _ (cat_cons _ (cat_cons _ (cat_one _)))))
  generalize encode (.vfredsum d a b k) = wd at e ⊢
  have f0 : fld wd 0 7 = 103#7 := fld_cat [] _ _ e
  have f1 : fld wd 29 3 = 0#3 := fld_cat [⟨7, 103#7⟩, ⟨6, d⟩, ⟨6, a⟩, ⟨6, b⟩, ⟨4, k⟩] _ _ e
  have f2 : fld wd 7 6 = d := fld_cat [⟨7, 103#7⟩] _ _ e
  have f3 : fld wd 13 6 = a := fld_cat [⟨7, 103#7⟩, ⟨6, d⟩] _ _ e
  have f4 : fld wd 19 6 = b := fld_cat [⟨7, 103#7⟩, ⟨6, d⟩, ⟨6, a⟩] _ _ e
  have f5 : fld wd 25 4 = k := fld_cat [⟨7, 103#7⟩, ⟨6, d⟩, ⟨6, a⟩, ⟨6, b⟩] _ _ e
  rw [decodeFields_permute f0 (by decide), decodePermute, f0]
  show mbz _ _ = _
  rw [f1, f2, f3, f4, f5]; rfl
theorem vfredmax (d : BitVec 6) (a : BitVec 6) (b : BitVec 6) (k : BitVec 4) : Statement (.vfredmax d a b k) := by
  intro _
  show decodeFields (encode (.vfredmax d a b k)) = .ok (.vfredmax d a b k)
  have e : (encode (.vfredmax d a b k)).toNat = catN [⟨7, 104#7⟩, ⟨6, d⟩, ⟨6, a⟩, ⟨6, b⟩, ⟨4, k⟩, ⟨3, 0#3⟩] :=
    cat_cons _ (cat_cons _ (cat_cons _ (cat_cons _ (cat_cons _ (cat_one _)))))
  generalize encode (.vfredmax d a b k) = wd at e ⊢
  have f0 : fld wd 0 7 = 104#7 := fld_cat [] _ _ e
  have f1 : fld wd 29 3 = 0#3 := fld_cat [⟨7, 104#7⟩, ⟨6, d⟩, ⟨6, a⟩, ⟨6, b⟩, ⟨4, k⟩] _ _ e
  have f2 : fld wd 7 6 = d := fld_cat [⟨7, 104#7⟩] _ _ e
  have f3 : fld wd 13 6 = a := fld_cat [⟨7, 104#7⟩, ⟨6, d⟩] _ _ e
  have f4 : fld wd 19 6 = b := fld_cat [⟨7, 104#7⟩, ⟨6, d⟩, ⟨6, a⟩] _ _ e
  have f5 : fld wd 25 4 = k := fld_cat [⟨7, 104#7⟩, ⟨6, d⟩, ⟨6, a⟩, ⟨6, b⟩] _ _ e
  rw [decodeFields_permute f0 (by decide), decodePermute, f0]
  show mbz _ _ = _
  rw [f1, f2, f3, f4, f5]; rfl
theorem vredseq (d : BitVec 6) (a : BitVec 6) (b : BitVec 6) (k : BitVec 4) : Statement (.vredseq d a b k) := by
  intro _
  show decodeFields (encode (.vredseq d a b k)) = .ok (.vredseq d a b k)
  have e : (encode (.vredseq d a b k)).toNat = catN [⟨7, 105#7⟩, ⟨6, d⟩, ⟨6, a⟩, ⟨6, b⟩, ⟨4, k⟩, ⟨3, 0#3⟩] :=
    cat_cons _ (cat_cons _ (cat_cons _ (cat_cons _ (cat_cons _ (cat_one _)))))
  generalize encode (.vredseq d a b k) = wd at e ⊢
  have f0 : fld wd 0 7 = 105#7 := fld_cat [] _ _ e
  have f1 : fld wd 29 3 = 0#3 := fld_cat [⟨7, 105#7⟩, ⟨6, d⟩, ⟨6, a⟩, ⟨6, b⟩, ⟨4, k⟩] _ _ e
  have f2 : fld wd 7 6 = d := fld_cat [⟨7, 105#7⟩] _ _ e
  have f3 : fld wd 13 6 = a := fld_cat [⟨7, 105#7⟩, ⟨6, d⟩] _ _ e
  have f4 : fld wd 19 6 = b := fld_cat [⟨7, 105#7⟩, ⟨6, d⟩, ⟨6, a⟩] _ _ e
  have f5 : fld wd 25 4 = k := fld_cat [⟨7, 105#7⟩, ⟨6, d⟩, ⟨6, a⟩, ⟨6, b⟩] _ _ e
  rw [decodeFields_permute f0 (by decide), decodePermute, f0]
  show mbz _ _ = _
  rw [f1, f2, f3, f4, f5]; rfl
theorem vtmul (d : BitVec 6) (a : BitVec 6) (b : BitVec 6) (k : BitVec 4) (z : BitVec 1) (t : BitVec 1) : Statement (.vtmul d a b k z t) := by
  intro _
  show decodeFields (encode (.vtmul d a b k z t)) = .ok (.vtmul d a b k z t)
  have e : (encode (.vtmul d a b k z t)).toNat = catN [⟨7, 106#7⟩, ⟨6, d⟩, ⟨6, a⟩, ⟨6, b⟩, ⟨4, k⟩, ⟨1, z⟩, ⟨1, t⟩, ⟨1, 0#1⟩] :=
    cat_cons _ (cat_cons _ (cat_cons _ (cat_cons _ (cat_cons _ (cat_cons _ (cat_cons _ (cat_one _)))))))
  generalize encode (.vtmul d a b k z t) = wd at e ⊢
  have f0 : fld wd 0 7 = 106#7 := fld_cat [] _ _ e
  have f1 : fld wd 31 1 = 0#1 := fld_cat [⟨7, 106#7⟩, ⟨6, d⟩, ⟨6, a⟩, ⟨6, b⟩, ⟨4, k⟩, ⟨1, z⟩, ⟨1, t⟩] _ _ e
  have f2 : fld wd 7 6 = d := fld_cat [⟨7, 106#7⟩] _ _ e
  have f3 : fld wd 13 6 = a := fld_cat [⟨7, 106#7⟩, ⟨6, d⟩] _ _ e
  have f4 : fld wd 19 6 = b := fld_cat [⟨7, 106#7⟩, ⟨6, d⟩, ⟨6, a⟩] _ _ e
  have f5 : fld wd 25 4 = k := fld_cat [⟨7, 106#7⟩, ⟨6, d⟩, ⟨6, a⟩, ⟨6, b⟩] _ _ e
  have f6 : fld wd 29 1 = z := fld_cat [⟨7, 106#7⟩, ⟨6, d⟩, ⟨6, a⟩, ⟨6, b⟩, ⟨4, k⟩] _ _ e
  have f7 : fld wd 30 1 = t := fld_cat [⟨7, 106#7⟩, ⟨6, d⟩, ⟨6, a⟩, ⟨6, b⟩, ⟨4, k⟩, ⟨1, z⟩] _ _ e
  rw [decodeFields_permute f0 (by decide), decodePermute, f0]
  show mbz _ _ = _
  rw [f1, f2, f3, f4, f5, f6, f7]; rfl
theorem vtconj (d : BitVec 6) (a : BitVec 6) (k : BitVec 4) (z : BitVec 1) (t : BitVec 1) (v : BitVec 1) : Statement (.vtconj d a k z t v) := by
  intro _
  show decodeFields (encode (.vtconj d a k z t v)) = .ok (.vtconj d a k z t v)
  have e : (encode (.vtconj d a k z t v)).toNat = catN [⟨7, 107#7⟩, ⟨6, d⟩, ⟨6, a⟩, ⟨6, 0#6⟩, ⟨4, k⟩, ⟨1, z⟩, ⟨1, t⟩, ⟨1, v⟩] :=
    cat_cons _ (cat_cons _ (cat_cons _ (cat_cons _ (cat_cons _ (cat_cons _ (cat_cons _ (cat_one _)))))))
  generalize encode (.vtconj d a k z t v) = wd at e ⊢
  have f0 : fld wd 0 7 = 107#7 := fld_cat [] _ _ e
  have f1 : fld wd 19 6 = 0#6 := fld_cat [⟨7, 107#7⟩, ⟨6, d⟩, ⟨6, a⟩] _ _ e
  have f2 : fld wd 7 6 = d := fld_cat [⟨7, 107#7⟩] _ _ e
  have f3 : fld wd 13 6 = a := fld_cat [⟨7, 107#7⟩, ⟨6, d⟩] _ _ e
  have f4 : fld wd 25 4 = k := fld_cat [⟨7, 107#7⟩, ⟨6, d⟩, ⟨6, a⟩, ⟨6, 0#6⟩] _ _ e
  have f5 : fld wd 29 1 = z := fld_cat [⟨7, 107#7⟩, ⟨6, d⟩, ⟨6, a⟩, ⟨6, 0#6⟩, ⟨4, k⟩] _ _ e
  have f6 : fld wd 30 1 = t := fld_cat [⟨7, 107#7⟩, ⟨6, d⟩, ⟨6, a⟩, ⟨6, 0#6⟩, ⟨4, k⟩, ⟨1, z⟩] _ _ e
  have f7 : fld wd 31 1 = v := fld_cat [⟨7, 107#7⟩, ⟨6, d⟩, ⟨6, a⟩, ⟨6, 0#6⟩, ⟨4, k⟩, ⟨1, z⟩, ⟨1, t⟩] _ _ e
  rw [decodeFields_permute f0 (by decide), decodePermute, f0]
  show mbz _ _ = _
  rw [f1, f2, f3, f4, f5, f6, f7]; rfl
theorem rpt (n : BitVec 6) (k : BitVec 4) (d : BitVec 3) (a : BitVec 3) (b : BitVec 3) (r : BitVec 3) : Statement (.rpt n k d a b r) := by
  intro _
  show decodeFields (encode (.rpt n k d a b r)) = .ok (.rpt n k d a b r)
  have e : (encode (.rpt n k d a b r)).toNat = catN [⟨7, 108#7⟩, ⟨6, n⟩, ⟨4, k⟩, ⟨3, d⟩, ⟨3, a⟩, ⟨3, b⟩, ⟨3, r⟩, ⟨3, 0#3⟩] :=
    cat_cons _ (cat_cons _ (cat_cons _ (cat_cons _ (cat_cons _ (cat_cons _ (cat_cons _ (cat_one _)))))))
  generalize encode (.rpt n k d a b r) = wd at e ⊢
  have f0 : fld wd 0 7 = 108#7 := fld_cat [] _ _ e
  have f1 : fld wd 29 3 = 0#3 := fld_cat [⟨7, 108#7⟩, ⟨6, n⟩, ⟨4, k⟩, ⟨3, d⟩, ⟨3, a⟩, ⟨3, b⟩, ⟨3, r⟩] _ _ e
  have f2 : fld wd 7 6 = n := fld_cat [⟨7, 108#7⟩] _ _ e
  have f3 : fld wd 13 4 = k := fld_cat [⟨7, 108#7⟩, ⟨6, n⟩] _ _ e
  have f4 : fld wd 17 3 = d := fld_cat [⟨7, 108#7⟩, ⟨6, n⟩, ⟨4, k⟩] _ _ e
  have f5 : fld wd 20 3 = a := fld_cat [⟨7, 108#7⟩, ⟨6, n⟩, ⟨4, k⟩, ⟨3, d⟩] _ _ e
  have f6 : fld wd 23 3 = b := fld_cat [⟨7, 108#7⟩, ⟨6, n⟩, ⟨4, k⟩, ⟨3, d⟩, ⟨3, a⟩] _ _ e
  have f7 : fld wd 26 3 = r := fld_cat [⟨7, 108#7⟩, ⟨6, n⟩, ⟨4, k⟩, ⟨3, d⟩, ⟨3, a⟩, ⟨3, b⟩] _ _ e
  rw [decodeFields_permute f0 (by decide), decodePermute, f0]
  show mbz _ _ = _
  rw [f1, f2, f3, f4, f5, f6, f7]; rfl
theorem algld (a : BitVec 6) (t : BitVec 1) : Statement (.algld a t) := by
  intro _
  show decodeFields (encode (.algld a t)) = .ok (.algld a t)
  have e : (encode (.algld a t)).toNat = catN [⟨7, 109#7⟩, ⟨6, a⟩, ⟨10, 0#10⟩, ⟨1, t⟩, ⟨8, 0#8⟩] :=
    cat_cons _ (cat_cons _ (cat_cons _ (cat_cons _ (cat_one _))))
  generalize encode (.algld a t) = wd at e ⊢
  have f0 : fld wd 0 7 = 109#7 := fld_cat [] _ _ e
  have f1 : fld wd 13 10 = 0#10 := fld_cat [⟨7, 109#7⟩, ⟨6, a⟩] _ _ e
  have f2 : fld wd 24 8 = 0#8 := fld_cat [⟨7, 109#7⟩, ⟨6, a⟩, ⟨10, 0#10⟩, ⟨1, t⟩] _ _ e
  have f3 : fld wd 7 6 = a := fld_cat [⟨7, 109#7⟩] _ _ e
  have f4 : fld wd 23 1 = t := fld_cat [⟨7, 109#7⟩, ⟨6, a⟩, ⟨10, 0#10⟩] _ _ e
  rw [decodeFields_permute f0 (by decide), decodePermute, f0]
  show mbz _ _ = _
  rw [f1, f2, f3, f4]; rfl
theorem phase : Statement .phase := by
  intro _
  show decodeFields (encode (.phase)) = .ok (.phase)
  have e : (encode (.phase)).toNat = catN [⟨7, 110#7⟩, ⟨25, 0#25⟩] :=
    cat_cons _ (cat_one _)
  generalize encode (.phase) = wd at e ⊢
  have f0 : fld wd 0 7 = 110#7 := fld_cat [] _ _ e
  have f1 : fld wd 25 7 = 0#7 := fld_sub [⟨7, 110#7⟩] 0#25 _ 18 7 (by decide) e
  have f2 : fld wd 7 18 = 0#18 := fld_sub [⟨7, 110#7⟩] 0#25 _ 0 18 (by decide) e
  rw [decodeFields_sync f0, decodeSync, f1]
  show mbz _ _ = _
  rw [f2]; rfl
theorem fence (t : BitVec 3) : Statement (.fence t) := by
  intro _
  show decodeFields (encode (.fence t)) = .ok (.fence t)
  have e : (encode (.fence t)).toNat = catN [⟨7, 110#7⟩, ⟨12, 0#12⟩, ⟨3, t⟩, ⟨10, 8#10⟩] :=
    cat_cons _ (cat_cons _ (cat_cons _ (cat_one _)))
  generalize encode (.fence t) = wd at e ⊢
  have f0 : fld wd 0 7 = 110#7 := fld_cat [] _ _ e
  have f1 : fld wd 25 7 = 1#7 := fld_sub [⟨7, 110#7⟩, ⟨12, 0#12⟩, ⟨3, t⟩] 8#10 _ 3 7 (by decide) e
  have f2 : fld wd 7 12 = 0#12 := fld_cat [⟨7, 110#7⟩] _ _ e
  have f3 : fld wd 22 3 = 0#3 := fld_sub [⟨7, 110#7⟩, ⟨12, 0#12⟩, ⟨3, t⟩] 8#10 _ 0 3 (by decide) e
  have f4 : fld wd 19 3 = t := fld_cat [⟨7, 110#7⟩, ⟨12, 0#12⟩] _ _ e
  rw [decodeFields_sync f0, decodeSync, f1]
  show mbz _ _ = _
  rw [f2, f3, f4]; rfl
theorem yield : Statement .yield := by
  intro _
  show decodeFields (encode (.yield)) = .ok (.yield)
  have e : (encode (.yield)).toNat = catN [⟨7, 110#7⟩, ⟨25, 524288#25⟩] :=
    cat_cons _ (cat_one _)
  generalize encode (.yield) = wd at e ⊢
  have f0 : fld wd 0 7 = 110#7 := fld_cat [] _ _ e
  have f1 : fld wd 25 7 = 2#7 := fld_sub [⟨7, 110#7⟩] 524288#25 _ 18 7 (by decide) e
  have f2 : fld wd 7 18 = 0#18 := fld_sub [⟨7, 110#7⟩] 524288#25 _ 0 18 (by decide) e
  rw [decodeFields_sync f0, decodeSync, f1]
  show mbz _ _ = _
  rw [f2]; rfl
theorem join : Statement .join := by
  intro _
  show decodeFields (encode (.join)) = .ok (.join)
  have e : (encode (.join)).toNat = catN [⟨7, 110#7⟩, ⟨25, 786432#25⟩] :=
    cat_cons _ (cat_one _)
  generalize encode (.join) = wd at e ⊢
  have f0 : fld wd 0 7 = 110#7 := fld_cat [] _ _ e
  have f1 : fld wd 25 7 = 3#7 := fld_sub [⟨7, 110#7⟩] 786432#25 _ 18 7 (by decide) e
  have f2 : fld wd 7 18 = 0#18 := fld_sub [⟨7, 110#7⟩] 786432#25 _ 0 18 (by decide) e
  rw [decodeFields_sync f0, decodeSync, f1]
  show mbz _ _ = _
  rw [f2]; rfl
theorem retire : Statement .retire := by
  intro _
  show decodeFields (encode (.retire)) = .ok (.retire)
  have e : (encode (.retire)).toNat = catN [⟨7, 110#7⟩, ⟨25, 1048576#25⟩] :=
    cat_cons _ (cat_one _)
  generalize encode (.retire) = wd at e ⊢
  have f0 : fld wd 0 7 = 110#7 := fld_cat [] _ _ e
  have f1 : fld wd 25 7 = 4#7 := fld_sub [⟨7, 110#7⟩] 1048576#25 _ 18 7 (by decide) e
  have f2 : fld wd 7 18 = 0#18 := fld_sub [⟨7, 110#7⟩] 1048576#25 _ 0 18 (by decide) e
  rw [decodeFields_sync f0, decodeSync, f1]
  show mbz _ _ = _
  rw [f2]; rfl
theorem bar (g : BitVec 2) (b : BitVec 2) : Statement (.bar g b) := by
  intro _
  show decodeFields (encode (.bar g b)) = .ok (.bar g b)
  have e : (encode (.bar g b)).toNat = catN [⟨7, 110#7⟩, ⟨12, 0#12⟩, ⟨2, g⟩, ⟨2, b⟩, ⟨9, 20#9⟩] :=
    cat_cons _ (cat_cons _ (cat_cons _ (cat_cons _ (cat_one _))))
  generalize encode (.bar g b) = wd at e ⊢
  have f0 : fld wd 0 7 = 110#7 := fld_cat [] _ _ e
  have f1 : fld wd 25 7 = 5#7 := fld_sub [⟨7, 110#7⟩, ⟨12, 0#12⟩, ⟨2, g⟩, ⟨2, b⟩] 20#9 _ 2 7 (by decide) e
  have f2 : fld wd 7 12 = 0#12 := fld_cat [⟨7, 110#7⟩] _ _ e
  have f3 : fld wd 23 2 = 0#2 := fld_sub [⟨7, 110#7⟩, ⟨12, 0#12⟩, ⟨2, g⟩, ⟨2, b⟩] 20#9 _ 0 2 (by decide) e
  have f4 : fld wd 19 2 = g := fld_cat [⟨7, 110#7⟩, ⟨12, 0#12⟩] _ _ e
  have f5 : fld wd 21 2 = b := fld_cat [⟨7, 110#7⟩, ⟨12, 0#12⟩, ⟨2, g⟩] _ _ e
  rw [decodeFields_sync f0, decodeSync, f1]
  show mbz _ _ = _
  rw [f2, f3, f4, f5]; rfl
theorem publish (p : BitVec 5) (f : BitVec 1) : Statement (.publish p f) := by
  intro _
  show decodeFields (encode (.publish p f)) = .ok (.publish p f)
  have e : (encode (.publish p f)).toNat = catN [⟨7, 110#7⟩, ⟨12, 0#12⟩, ⟨5, p⟩, ⟨1, f⟩, ⟨7, 6#7⟩] :=
    cat_cons _ (cat_cons _ (cat_cons _ (cat_cons _ (cat_one _))))
  generalize encode (.publish p f) = wd at e ⊢
  have f0 : fld wd 0 7 = 110#7 := fld_cat [] _ _ e
  have f1 : fld wd 25 7 = 6#7 := fld_cat [⟨7, 110#7⟩, ⟨12, 0#12⟩, ⟨5, p⟩, ⟨1, f⟩] _ _ e
  have f2 : fld wd 7 12 = 0#12 := fld_cat [⟨7, 110#7⟩] _ _ e
  have f3 : fld wd 19 5 = p := fld_cat [⟨7, 110#7⟩, ⟨12, 0#12⟩] _ _ e
  have f4 : fld wd 24 1 = f := fld_cat [⟨7, 110#7⟩, ⟨12, 0#12⟩, ⟨5, p⟩] _ _ e
  rw [decodeFields_sync f0, decodeSync, f1]
  show mbz _ _ = _
  rw [f2, f3, f4]; rfl
theorem qpush (a : BitVec 6) (q : BitVec 4) : Statement (.qpush a q) := by
  intro _
  show decodeFields (encode (.qpush a q)) = .ok (.qpush a q)
  have e : (encode (.qpush a q)).toNat = catN [⟨7, 110#7⟩, ⟨6, 0#6⟩, ⟨6, a⟩, ⟨4, q⟩, ⟨9, 28#9⟩] :=
    cat_cons _ (cat_cons _ (cat_cons _ (cat_cons _ (cat_one _))))
  generalize encode (.qpush a q) = wd at e ⊢
  have f0 : fld wd 0 7 = 110#7 := fld_cat [] _ _ e
  have f1 : fld wd 25 7 = 7#7 := fld_sub [⟨7, 110#7⟩, ⟨6, 0#6⟩, ⟨6, a⟩, ⟨4, q⟩] 28#9 _ 2 7 (by decide) e
  have f2 : fld wd 7 6 = 0#6 := fld_cat [⟨7, 110#7⟩] _ _ e
  have f3 : fld wd 23 2 = 0#2 := fld_sub [⟨7, 110#7⟩, ⟨6, 0#6⟩, ⟨6, a⟩, ⟨4, q⟩] 28#9 _ 0 2 (by decide) e
  have f4 : fld wd 13 6 = a := fld_cat [⟨7, 110#7⟩, ⟨6, 0#6⟩] _ _ e
  have f5 : fld wd 19 4 = q := fld_cat [⟨7, 110#7⟩, ⟨6, 0#6⟩, ⟨6, a⟩] _ _ e
  rw [decodeFields_sync f0, decodeSync, f1]
  show mbz _ _ = _
  rw [f2, f3, f4, f5]; rfl
theorem qpop (d : BitVec 6) (a : BitVec 6) (q : BitVec 4) : Statement (.qpop d a q) := by
  intro _
  show decodeFields (encode (.qpop d a q)) = .ok (.qpop d a q)
  have e : (encode (.qpop d a q)).toNat = catN [⟨7, 110#7⟩, ⟨6, d⟩, ⟨6, a⟩, ⟨4, q⟩, ⟨9, 32#9⟩] :=
    cat_cons _ (cat_cons _ (cat_cons _ (cat_cons _ (cat_one _))))
  generalize encode (.qpop d a q) = wd at e ⊢
  have f0 : fld wd 0 7 = 110#7 := fld_cat [] _ _ e
  have f1 : fld wd 25 7 = 8#7 := fld_sub [⟨7, 110#7⟩, ⟨6, d⟩, ⟨6, a⟩, ⟨4, q⟩] 32#9 _ 2 7 (by decide) e
  have f2 : fld wd 23 2 = 0#2 := fld_sub [⟨7, 110#7⟩, ⟨6, d⟩, ⟨6, a⟩, ⟨4, q⟩] 32#9 _ 0 2 (by decide) e
  have f3 : fld wd 7 6 = d := fld_cat [⟨7, 110#7⟩] _ _ e
  have f4 : fld wd 13 6 = a := fld_cat [⟨7, 110#7⟩, ⟨6, d⟩] _ _ e
  have f5 : fld wd 19 4 = q := fld_cat [⟨7, 110#7⟩, ⟨6, d⟩, ⟨6, a⟩] _ _ e
  rw [decodeFields_sync f0, decodeSync, f1]
  show mbz _ _ = _
  rw [f2, f3, f4, f5]; rfl
theorem fork (d : BitVec 6) (o : BitVec 19) : Statement (.fork d o) := by
  intro _
  show decodeFields (encode (.fork d o)) = .ok (.fork d o)
  have e : (encode (.fork d o)).toNat = catN [⟨7, 111#7⟩, ⟨6, d⟩, ⟨19, o⟩] :=
    cat_cons _ (cat_cons _ (cat_one _))
  generalize encode (.fork d o) = wd at e ⊢
  have f0 : fld wd 0 7 = 111#7 := fld_cat [] _ _ e
  have f1 : fld wd 7 6 = d := fld_cat [⟨7, 111#7⟩] _ _ e
  have f2 : fld wd 13 19 = o := fld_cat [⟨7, 111#7⟩, ⟨6, d⟩] _ _ e
  rw [decodeFields_permute f0 (by decide), decodePermute, f0]
  show Except.ok _ = _
  rw [f1, f2]
theorem mrow (r : BitVec 10) (a : BitVec 6) (c : BitVec 2) (t : BitVec 2) (z : BitVec 1) (x : BitVec 1) (f : BitVec 3) : Statement (.mrow r a c t z x f) := by
  intro _
  show decodeFields (encode (.mrow r a c t z x f)) = .ok (.mrow r a c t z x f)
  have e : (encode (.mrow r a c t z x f)).toNat = catN [⟨7, 112#7⟩, ⟨10, r⟩, ⟨6, a⟩, ⟨2, c⟩, ⟨2, t⟩, ⟨1, z⟩, ⟨1, x⟩, ⟨3, f⟩] :=
    cat_cons _ (cat_cons _ (cat_cons _ (cat_cons _ (cat_cons _ (cat_cons _ (cat_cons _ (cat_one _)))))))
  generalize encode (.mrow r a c t z x f) = wd at e ⊢
  have f0 : fld wd 0 7 = 112#7 := fld_cat [] _ _ e
  have f1 : fld wd 7 10 = r := fld_cat [⟨7, 112#7⟩] _ _ e
  have f2 : fld wd 17 6 = a := fld_cat [⟨7, 112#7⟩, ⟨10, r⟩] _ _ e
  have f3 : fld wd 23 2 = c := fld_cat [⟨7, 112#7⟩, ⟨10, r⟩, ⟨6, a⟩] _ _ e
  have f4 : fld wd 25 2 = t := fld_cat [⟨7, 112#7⟩, ⟨10, r⟩, ⟨6, a⟩, ⟨2, c⟩] _ _ e
  have f5 : fld wd 27 1 = z := fld_cat [⟨7, 112#7⟩, ⟨10, r⟩, ⟨6, a⟩, ⟨2, c⟩, ⟨2, t⟩] _ _ e
  have f6 : fld wd 28 1 = x := fld_cat [⟨7, 112#7⟩, ⟨10, r⟩, ⟨6, a⟩, ⟨2, c⟩, ⟨2, t⟩, ⟨1, z⟩] _ _ e
  have f7 : fld wd 29 3 = f := fld_cat [⟨7, 112#7⟩, ⟨10, r⟩, ⟨6, a⟩, ⟨2, c⟩, ⟨2, t⟩, ⟨1, z⟩, ⟨1, x⟩] _ _ e
  rw [decodeFields_engine f0 (by decide), decodeEngine, f0]
  show Except.ok _ = _
  rw [f1, f2, f3, f4, f5, f6, f7]
theorem mrd (r : BitVec 10) (a : BitVec 6) (c : BitVec 2) (s : BitVec 2) (x : BitVec 1) (f : BitVec 3) : Statement (.mrd r a c s x f) := by
  intro _
  show decodeFields (encode (.mrd r a c s x f)) = .ok (.mrd r a c s x f)
  have e : (encode (.mrd r a c s x f)).toNat = catN [⟨7, 113#7⟩, ⟨10, r⟩, ⟨6, a⟩, ⟨2, c⟩, ⟨2, s⟩, ⟨1, 0#1⟩, ⟨1, x⟩, ⟨3, f⟩] :=
    cat_cons _ (cat_cons _ (cat_cons _ (cat_cons _ (cat_cons _ (cat_cons _ (cat_cons _ (cat_one _)))))))
  generalize encode (.mrd r a c s x f) = wd at e ⊢
  have f0 : fld wd 0 7 = 113#7 := fld_cat [] _ _ e
  have f1 : fld wd 27 1 = 0#1 := fld_cat [⟨7, 113#7⟩, ⟨10, r⟩, ⟨6, a⟩, ⟨2, c⟩, ⟨2, s⟩] _ _ e
  have f2 : fld wd 7 10 = r := fld_cat [⟨7, 113#7⟩] _ _ e
  have f3 : fld wd 17 6 = a := fld_cat [⟨7, 113#7⟩, ⟨10, r⟩] _ _ e
  have f4 : fld wd 23 2 = c := fld_cat [⟨7, 113#7⟩, ⟨10, r⟩, ⟨6, a⟩] _ _ e
  have f5 : fld wd 25 2 = s := fld_cat [⟨7, 113#7⟩, ⟨10, r⟩, ⟨6, a⟩, ⟨2, c⟩] _ _ e
  have f6 : fld wd 28 1 = x := fld_cat [⟨7, 113#7⟩, ⟨10, r⟩, ⟨6, a⟩, ⟨2, c⟩, ⟨2, s⟩, ⟨1, 0#1⟩] _ _ e
  have f7 : fld wd 29 3 = f := fld_cat [⟨7, 113#7⟩, ⟨10, r⟩, ⟨6, a⟩, ⟨2, c⟩, ⟨2, s⟩, ⟨1, 0#1⟩, ⟨1, x⟩] _ _ e
  rw [decodeFields_engine f0 (by decide), decodeEngine, f0]
  show mbz _ _ = _
  rw [f1, f2, f3, f4, f5, f6, f7]; rfl
theorem mwr (r : BitVec 10) (a : BitVec 6) (c : BitVec 2) (z : BitVec 1) (x : BitVec 1) (f : BitVec 3) : Statement (.mwr r a c z x f) := by
  intro _
  show decodeFields (encode (.mwr r a c z x f)) = .ok (.mwr r a c z x f)
  have e : (encode (.mwr r a c z x f)).toNat = catN [⟨7, 114#7⟩, ⟨10, r⟩, ⟨6, a⟩, ⟨2, c⟩, ⟨2, 0#2⟩, ⟨1, z⟩, ⟨1, x⟩, ⟨3, f⟩] :=
    cat_cons _ (cat_cons _ (cat_cons _ (cat_cons _ (cat_cons _ (cat_cons _ (cat_cons _ (cat_one _)))))))
  generalize encode (.mwr r a c z x f) = wd at e ⊢
  have f0 : fld wd 0 7 = 114#7 := fld_cat [] _ _ e
  have f1 : fld wd 25 2 = 0#2 := fld_cat [⟨7, 114#7⟩, ⟨10, r⟩, ⟨6, a⟩, ⟨2, c⟩] _ _ e
  have f2 : fld wd 7 10 = r := fld_cat [⟨7, 114#7⟩] _ _ e
  have f3 : fld wd 17 6 = a := fld_cat [⟨7, 114#7⟩, ⟨10, r⟩] _ _ e
  have f4 : fld wd 23 2 = c := fld_cat [⟨7, 114#7⟩, ⟨10, r⟩, ⟨6, a⟩] _ _ e
  have f5 : fld wd 27 1 = z := fld_cat [⟨7, 114#7⟩, ⟨10, r⟩, ⟨6, a⟩, ⟨2, c⟩, ⟨2, 0#2⟩] _ _ e
  have f6 : fld wd 28 1 = x := fld_cat [⟨7, 114#7⟩, ⟨10, r⟩, ⟨6, a⟩, ⟨2, c⟩, ⟨2, 0#2⟩, ⟨1, z⟩] _ _ e
  have f7 : fld wd 29 3 = f := fld_cat [⟨7, 114#7⟩, ⟨10, r⟩, ⟨6, a⟩, ⟨2, c⟩, ⟨2, 0#2⟩, ⟨1, z⟩, ⟨1, x⟩] _ _ e
  rw [decodeFields_engine f0 (by decide), decodeEngine, f0]
  show mbz _ _ = _
  rw [f1, f2, f3, f4, f5, f6, f7]; rfl
theorem mclr (r : BitVec 10) (n : BitVec 6) (f : BitVec 3) : Statement (.mclr r n f) := by
  intro _
  show decodeFields (encode (.mclr r n f)) = .ok (.mclr r n f)
  have e : (encode (.mclr r n f)).toNat = catN [⟨7, 115#7⟩, ⟨10, r⟩, ⟨6, n⟩, ⟨6, 0#6⟩, ⟨3, f⟩] :=
    cat_cons _ (cat_cons _ (cat_cons _ (cat_cons _ (cat_one _))))
  generalize encode (.mclr r n f) = wd at e ⊢
  have f0 : fld wd 0 7 = 115#7 := fld_cat [] _ _ e
  have f1 : fld wd 23 6 = 0#6 := fld_cat [⟨7, 115#7⟩, ⟨10, r⟩, ⟨6, n⟩] _ _ e
  have f2 : fld wd 7 10 = r := fld_cat [⟨7, 115#7⟩] _ _ e
  have f3 : fld wd 17 6 = n := fld_cat [⟨7, 115#7⟩, ⟨10, r⟩] _ _ e
  have f4 : fld wd 29 3 = f := fld_cat [⟨7, 115#7⟩, ⟨10, r⟩, ⟨6, n⟩, ⟨6, 0#6⟩] _ _ e
  rw [decodeFields_engine f0 (by decide), decodeEngine, f0]
  show mbz _ _ = _
  rw [f1, f2, f3, f4]; rfl
theorem mchk (r : BitVec 5) (n : BitVec 5) : Statement (.mchk r n) := by
  intro _
  show decodeFields (encode (.mchk r n)) = .ok (.mchk r n)
  have e : (encode (.mchk r n)).toNat = catN [⟨7, 116#7⟩, ⟨5, 0#5⟩, ⟨5, r⟩, ⟨5, n⟩, ⟨10, 0#10⟩] :=
    cat_cons _ (cat_cons _ (cat_cons _ (cat_cons _ (cat_one _))))
  generalize encode (.mchk r n) = wd at e ⊢
  have f0 : fld wd 0 7 = 116#7 := fld_cat [] _ _ e
  have f1 : fld wd 7 5 = 0#5 := fld_cat [⟨7, 116#7⟩] _ _ e
  have f2 : fld wd 22 10 = 0#10 := fld_cat [⟨7, 116#7⟩, ⟨5, 0#5⟩, ⟨5, r⟩, ⟨5, n⟩] _ _ e
  have f3 : fld wd 12 5 = r := fld_cat [⟨7, 116#7⟩, ⟨5, 0#5⟩] _ _ e
  have f4 : fld wd 17 5 = n := fld_cat [⟨7, 116#7⟩, ⟨5, 0#5⟩, ⟨5, r⟩] _ _ e
  rw [decodeFields_engine f0 (by decide), decodeEngine, f0]
  show mbz _ _ = _
  rw [f1, f2, f3, f4]; rfl
theorem mloc (r : BitVec 5) (d : BitVec 6) : Statement (.mloc r d) := by
  intro _
  show decodeFields (encode (.mloc r d)) = .ok (.mloc r d)
  have e : (encode (.mloc r d)).toNat = catN [⟨7, 117#7⟩, ⟨5, 0#5⟩, ⟨5, r⟩, ⟨6, d⟩, ⟨9, 0#9⟩] :=
    cat_cons _ (cat_cons _ (cat_cons _ (cat_cons _ (cat_one _))))
  generalize encode (.mloc r d) = wd at e ⊢
  have f0 : fld wd 0 7 = 117#7 := fld_cat [] _ _ e
  have f1 : fld wd 7 5 = 0#5 := fld_cat [⟨7, 117#7⟩] _ _ e
  have f2 : fld wd 23 9 = 0#9 := fld_cat [⟨7, 117#7⟩, ⟨5, 0#5⟩, ⟨5, r⟩, ⟨6, d⟩] _ _ e
  have f3 : fld wd 12 5 = r := fld_cat [⟨7, 117#7⟩, ⟨5, 0#5⟩] _ _ e
  have f4 : fld wd 17 6 = d := fld_cat [⟨7, 117#7⟩, ⟨5, 0#5⟩, ⟨5, r⟩] _ _ e
  rw [decodeFields_engine f0 (by decide), decodeEngine, f0]
  show mbz _ _ = _
  rw [f1, f2, f3, f4]; rfl
theorem mfix (r : BitVec 5) (a : BitVec 6) : Statement (.mfix r a) := by
  intro _
  show decodeFields (encode (.mfix r a)) = .ok (.mfix r a)
  have e : (encode (.mfix r a)).toNat = catN [⟨7, 118#7⟩, ⟨5, 0#5⟩, ⟨5, r⟩, ⟨6, a⟩, ⟨9, 0#9⟩] :=
    cat_cons _ (cat_cons _ (cat_cons _ (cat_cons _ (cat_one _))))
  generalize encode (.mfix r a) = wd at e ⊢
  have f0 : fld wd 0 7 = 118#7 := fld_cat [] _ _ e
  have f1 : fld wd 7 5 = 0#5 := fld_cat [⟨7, 118#7⟩] _ _ e
  have f2 : fld wd 23 9 = 0#9 := fld_cat [⟨7, 118#7⟩, ⟨5, 0#5⟩, ⟨5, r⟩, ⟨6, a⟩] _ _ e
  have f3 : fld wd 12 5 = r := fld_cat [⟨7, 118#7⟩, ⟨5, 0#5⟩] _ _ e
  have f4 : fld wd 17 6 = a := fld_cat [⟨7, 118#7⟩, ⟨5, 0#5⟩, ⟨5, r⟩] _ _ e
  rw [decodeFields_engine f0 (by decide), decodeEngine, f0]
  show mbz _ _ = _
  rw [f1, f2, f3, f4]; rfl
theorem wld (w : BitVec 4) (a : BitVec 6) (b : BitVec 6) (c : BitVec 4) : Statement (.wld w a b c) := by
  intro _
  show decodeFields (encode (.wld w a b c)) = .ok (.wld w a b c)
  have e : (encode (.wld w a b c)).toNat = catN [⟨7, 119#7⟩, ⟨4, w⟩, ⟨6, a⟩, ⟨6, b⟩, ⟨4, c⟩, ⟨5, 0#5⟩] :=
    cat_cons _ (cat_cons _ (cat_cons _ (cat_cons _ (cat_cons _ (cat_one _)))))
  generalize encode (.wld w a b c) = wd at e ⊢
  have f0 : fld wd 0 7 = 119#7 := fld_cat [] _ _ e
  have f1 : fld wd 27 5 = 0#5 := fld_cat [⟨7, 119#7⟩, ⟨4, w⟩, ⟨6, a⟩, ⟨6, b⟩, ⟨4, c⟩] _ _ e
  have f2 : fld wd 7 4 = w := fld_cat [⟨7, 119#7⟩] _ _ e
  have f3 : fld wd 11 6 = a := fld_cat [⟨7, 119#7⟩, ⟨4, w⟩] _ _ e
  have f4 : fld wd 17 6 = b := fld_cat [⟨7, 119#7⟩, ⟨4, w⟩, ⟨6, a⟩] _ _ e
  have f5 : fld wd 23 4 = c := fld_cat [⟨7, 119#7⟩, ⟨4, w⟩, ⟨6, a⟩, ⟨6, b⟩] _ _ e
  rw [decodeFields_weight f0, decodeWeight, f1]
  show Except.ok _ = _
  rw [f2, f3, f4, f5]
theorem wldff (w : BitVec 4) (a : BitVec 6) (b : BitVec 6) (c : BitVec 4) : Statement (.wldff w a b c) := by
  intro _
  show decodeFields (encode (.wldff w a b c)) = .ok (.wldff w a b c)
  have e : (encode (.wldff w a b c)).toNat = catN [⟨7, 119#7⟩, ⟨4, w⟩, ⟨6, a⟩, ⟨6, b⟩, ⟨4, c⟩, ⟨5, 1#5⟩] :=
    cat_cons _ (cat_cons _ (cat_cons _ (cat_cons _ (cat_cons _ (cat_one _)))))
  generalize encode (.wldff w a b c) = wd at e ⊢
  have f0 : fld wd 0 7 = 119#7 := fld_cat [] _ _ e
  have f1 : fld wd 27 5 = 1#5 := fld_cat [⟨7, 119#7⟩, ⟨4, w⟩, ⟨6, a⟩, ⟨6, b⟩, ⟨4, c⟩] _ _ e
  have f2 : fld wd 7 4 = w := fld_cat [⟨7, 119#7⟩] _ _ e
  have f3 : fld wd 11 6 = a := fld_cat [⟨7, 119#7⟩, ⟨4, w⟩] _ _ e
  have f4 : fld wd 17 6 = b := fld_cat [⟨7, 119#7⟩, ⟨4, w⟩, ⟨6, a⟩] _ _ e
  have f5 : fld wd 23 4 = c := fld_cat [⟨7, 119#7⟩, ⟨4, w⟩, ⟨6, a⟩, ⟨6, b⟩] _ _ e
  rw [decodeFields_weight f0, decodeWeight, f1]
  show Except.ok _ = _
  rw [f2, f3, f4, f5]
theorem wsel (w : BitVec 4) : Statement (.wsel w) := by
  intro _
  show decodeFields (encode (.wsel w)) = .ok (.wsel w)
  have e : (encode (.wsel w)).toNat = catN [⟨7, 119#7⟩, ⟨4, w⟩, ⟨21, 131072#21⟩] :=
    cat_cons _ (cat_cons _ (cat_one _))
  generalize encode (.wsel w) = wd at e ⊢
  have f0 : fld wd 0 7 = 119#7 := fld_cat [] _ _ e
  have f1 : fld wd 27 5 = 2#5 := fld_sub [⟨7, 119#7⟩, ⟨4, w⟩] 131072#21 _ 16 5 (by decide) e
  have f2 : fld wd 11 16 = 0#16 := fld_sub [⟨7, 119#7⟩, ⟨4, w⟩] 131072#21 _ 0 16 (by decide) e
  have f3 : fld wd 7 4 = w := fld_cat [⟨7, 119#7⟩] _ _ e
  rw [decodeFields_weight f0, decodeWeight, f1]
  show mbz _ _ = _
  rw [f2, f3]; rfl
theorem xcopy (a : BitVec 6) (b : BitVec 6) (c : BitVec 4) : Statement (.xcopy a b c) := by
  intro _
  show decodeFields (encode (.xcopy a b c)) = .ok (.xcopy a b c)
  have e : (encode (.xcopy a b c)).toNat = catN [⟨7, 120#7⟩, ⟨6, a⟩, ⟨6, b⟩, ⟨4, c⟩, ⟨9, 0#9⟩] :=
    cat_cons _ (cat_cons _ (cat_cons _ (cat_cons _ (cat_one _))))
  generalize encode (.xcopy a b c) = wd at e ⊢
  have f0 : fld wd 0 7 = 120#7 := fld_cat [] _ _ e
  have f1 : fld wd 23 9 = 0#9 := fld_cat [⟨7, 120#7⟩, ⟨6, a⟩, ⟨6, b⟩, ⟨4, c⟩] _ _ e
  have f2 : fld wd 7 6 = a := fld_cat [⟨7, 120#7⟩] _ _ e
  have f3 : fld wd 13 6 = b := fld_cat [⟨7, 120#7⟩, ⟨6, a⟩] _ _ e
  have f4 : fld wd 19 4 = c := fld_cat [⟨7, 120#7⟩, ⟨6, a⟩, ⟨6, b⟩] _ _ e
  rw [decodeFields_engine f0 (by decide), decodeEngine, f0]
  show mbz _ _ = _
  rw [f1, f2, f3, f4]; rfl
theorem xfill (a : BitVec 6) (b : BitVec 6) (c : BitVec 4) : Statement (.xfill a b c) := by
  intro _
  show decodeFields (encode (.xfill a b c)) = .ok (.xfill a b c)
  have e : (encode (.xfill a b c)).toNat = catN [⟨7, 121#7⟩, ⟨6, a⟩, ⟨6, b⟩, ⟨4, c⟩, ⟨9, 0#9⟩] :=
    cat_cons _ (cat_cons _ (cat_cons _ (cat_cons _ (cat_one _))))
  generalize encode (.xfill a b c) = wd at e ⊢
  have f0 : fld wd 0 7 = 121#7 := fld_cat [] _ _ e
  have f1 : fld wd 23 9 = 0#9 := fld_cat [⟨7, 121#7⟩, ⟨6, a⟩, ⟨6, b⟩, ⟨4, c⟩] _ _ e
  have f2 : fld wd 7 6 = a := fld_cat [⟨7, 121#7⟩] _ _ e
  have f3 : fld wd 13 6 = b := fld_cat [⟨7, 121#7⟩, ⟨6, a⟩] _ _ e
  have f4 : fld wd 19 4 = c := fld_cat [⟨7, 121#7⟩, ⟨6, a⟩, ⟨6, b⟩] _ _ e
  rw [decodeFields_engine f0 (by decide), decodeEngine, f0]
  show mbz _ _ = _
  rw [f1, f2, f3, f4]; rfl
theorem rcfence (a : BitVec 6) (o : BitVec 1) : Statement (.rcfence a o) := by
  intro _
  show decodeFields (encode (.rcfence a o)) = .ok (.rcfence a o)
  have e : (encode (.rcfence a o)).toNat = catN [⟨7, 122#7⟩, ⟨6, a⟩, ⟨10, 0#10⟩, ⟨1, o⟩, ⟨8, 0#8⟩] :=
    cat_cons _ (cat_cons _ (cat_cons _ (cat_cons _ (cat_one _))))
  generalize encode (.rcfence a o) = wd at e ⊢
  have f0 : fld wd 0 7 = 122#7 := fld_cat [] _ _ e
  have f1 : fld wd 13 10 = 0#10 := fld_cat [⟨7, 122#7⟩, ⟨6, a⟩] _ _ e
  have f2 : fld wd 24 8 = 0#8 := fld_cat [⟨7, 122#7⟩, ⟨6, a⟩, ⟨10, 0#10⟩, ⟨1, o⟩] _ _ e
  have f3 : fld wd 7 6 = a := fld_cat [⟨7, 122#7⟩] _ _ e
  have f4 : fld wd 23 1 = o := fld_cat [⟨7, 122#7⟩, ⟨6, a⟩, ⟨10, 0#10⟩] _ _ e
  rw [decodeFields_engine f0 (by decide), decodeEngine, f0]
  show mbz _ _ = _
  rw [f1, f2, f3, f4]; rfl
theorem waitlt (c : BitVec 4) (t : BitVec 9) : Statement (.waitlt c t) := by
  intro _
  show decodeFields (encode (.waitlt c t)) = .ok (.waitlt c t)
  have e : (encode (.waitlt c t)).toNat = catN [⟨7, 123#7⟩, ⟨12, 0#12⟩, ⟨4, c⟩, ⟨9, t⟩] :=
    cat_cons _ (cat_cons _ (cat_cons _ (cat_one _)))
  generalize encode (.waitlt c t) = wd at e ⊢
  have f0 : fld wd 0 7 = 123#7 := fld_cat [] _ _ e
  have f1 : fld wd 7 12 = 0#12 := fld_cat [⟨7, 123#7⟩] _ _ e
  have f2 : fld wd 19 4 = c := fld_cat [⟨7, 123#7⟩, ⟨12, 0#12⟩] _ _ e
  have f3 : fld wd 23 9 = t := fld_cat [⟨7, 123#7⟩, ⟨12, 0#12⟩, ⟨4, c⟩] _ _ e
  rw [decodeFields_engine f0 (by decide), decodeEngine, f0]
  show mbz _ _ = _
  rw [f1, f2, f3]; rfl
theorem kvcommit (a : BitVec 6) (b : BitVec 6) (c : BitVec 4) : Statement (.kvcommit a b c) := by
  intro _
  show decodeFields (encode (.kvcommit a b c)) = .ok (.kvcommit a b c)
  have e : (encode (.kvcommit a b c)).toNat = catN [⟨7, 124#7⟩, ⟨6, a⟩, ⟨6, b⟩, ⟨4, c⟩, ⟨9, 0#9⟩] :=
    cat_cons _ (cat_cons _ (cat_cons _ (cat_cons _ (cat_one _))))
  generalize encode (.kvcommit a b c) = wd at e ⊢
  have f0 : fld wd 0 7 = 124#7 := fld_cat [] _ _ e
  have f1 : fld wd 23 9 = 0#9 := fld_cat [⟨7, 124#7⟩, ⟨6, a⟩, ⟨6, b⟩, ⟨4, c⟩] _ _ e
  have f2 : fld wd 7 6 = a := fld_cat [⟨7, 124#7⟩] _ _ e
  have f3 : fld wd 13 6 = b := fld_cat [⟨7, 124#7⟩, ⟨6, a⟩] _ _ e
  have f4 : fld wd 19 4 = c := fld_cat [⟨7, 124#7⟩, ⟨6, a⟩, ⟨6, b⟩] _ _ e
  rw [decodeFields_engine f0 (by decide), decodeEngine, f0]
  show mbz _ _ = _
  rw [f1, f2, f3, f4]; rfl
theorem coll (a : BitVec 6) (c : BitVec 4) : Statement (.coll a c) := by
  intro _
  show decodeFields (encode (.coll a c)) = .ok (.coll a c)
  have e : (encode (.coll a c)).toNat = catN [⟨7, 125#7⟩, ⟨6, a⟩, ⟨6, 0#6⟩, ⟨4, c⟩, ⟨9, 0#9⟩] :=
    cat_cons _ (cat_cons _ (cat_cons _ (cat_cons _ (cat_one _))))
  generalize encode (.coll a c) = wd at e ⊢
  have f0 : fld wd 0 7 = 125#7 := fld_cat [] _ _ e
  have f1 : fld wd 13 6 = 0#6 := fld_cat [⟨7, 125#7⟩, ⟨6, a⟩] _ _ e
  have f2 : fld wd 23 9 = 0#9 := fld_cat [⟨7, 125#7⟩, ⟨6, a⟩, ⟨6, 0#6⟩, ⟨4, c⟩] _ _ e
  have f3 : fld wd 7 6 = a := fld_cat [⟨7, 125#7⟩] _ _ e
  have f4 : fld wd 19 4 = c := fld_cat [⟨7, 125#7⟩, ⟨6, a⟩, ⟨6, 0#6⟩] _ _ e
  rw [decodeFields_engine f0 (by decide), decodeEngine, f0]
  show mbz _ _ = _
  rw [f1, f2, f3, f4]; rfl
theorem ctlrd (d : BitVec 6) (c : BitVec 12) : Statement (.ctlrd d c) := by
  intro _
  show decodeFields (encode (.ctlrd d c)) = .ok (.ctlrd d c)
  have e : (encode (.ctlrd d c)).toNat = catN [⟨7, 126#7⟩, ⟨6, d⟩, ⟨12, c⟩, ⟨7, 0#7⟩] :=
    cat_cons _ (cat_cons _ (cat_cons _ (cat_one _)))
  generalize encode (.ctlrd d c) = wd at e ⊢
  have f0 : fld wd 0 7 = 126#7 := fld_cat [] _ _ e
  have f1 : fld wd 25 7 = 0#7 := fld_cat [⟨7, 126#7⟩, ⟨6, d⟩, ⟨12, c⟩] _ _ e
  have f2 : fld wd 7 6 = d := fld_cat [⟨7, 126#7⟩] _ _ e
  have f3 : fld wd 13 12 = c := fld_cat [⟨7, 126#7⟩, ⟨6, d⟩] _ _ e
  rw [decodeFields_system f0, decodeSystem, f1]
  show Except.ok _ = _
  rw [f2, f3]
theorem ctlwr (d : BitVec 6) (c : BitVec 12) : Statement (.ctlwr d c) := by
  intro _
  show decodeFields (encode (.ctlwr d c)) = .ok (.ctlwr d c)
  have e : (encode (.ctlwr d c)).toNat = catN [⟨7, 126#7⟩, ⟨6, d⟩, ⟨12, c⟩, ⟨7, 1#7⟩] :=
    cat_cons _ (cat_cons _ (cat_cons _ (cat_one _)))
  generalize encode (.ctlwr d c) = wd at e ⊢
  have f0 : fld wd 0 7 = 126#7 := fld_cat [] _ _ e
  have f1 : fld wd 25 7 = 1#7 := fld_cat [⟨7, 126#7⟩, ⟨6, d⟩, ⟨12, c⟩] _ _ e
  have f2 : fld wd 7 6 = d := fld_cat [⟨7, 126#7⟩] _ _ e
  have f3 : fld wd 13 12 = c := fld_cat [⟨7, 126#7⟩, ⟨6, d⟩] _ _ e
  rw [decodeFields_system f0, decodeSystem, f1]
  show Except.ok _ = _
  rw [f2, f3]
theorem trap (c : BitVec 12) : Statement (.trap c) := by
  intro _
  show decodeFields (encode (.trap c)) = .ok (.trap c)
  have e : (encode (.trap c)).toNat = catN [⟨7, 126#7⟩, ⟨6, 0#6⟩, ⟨12, c⟩, ⟨7, 2#7⟩] :=
    cat_cons _ (cat_cons _ (cat_cons _ (cat_one _)))
  generalize encode (.trap c) = wd at e ⊢
  have f0 : fld wd 0 7 = 126#7 := fld_cat [] _ _ e
  have f1 : fld wd 25 7 = 2#7 := fld_cat [⟨7, 126#7⟩, ⟨6, 0#6⟩, ⟨12, c⟩] _ _ e
  have f2 : fld wd 7 6 = 0#6 := fld_cat [⟨7, 126#7⟩] _ _ e
  have f3 : fld wd 13 12 = c := fld_cat [⟨7, 126#7⟩, ⟨6, 0#6⟩] _ _ e
  rw [decodeFields_system f0, decodeSystem, f1]
  show mbz _ _ = _
  rw [f2, f3]; rfl
theorem brk (c : BitVec 12) : Statement (.brk c) := by
  intro _
  show decodeFields (encode (.brk c)) = .ok (.brk c)
  have e : (encode (.brk c)).toNat = catN [⟨7, 126#7⟩, ⟨6, 0#6⟩, ⟨12, c⟩, ⟨7, 3#7⟩] :=
    cat_cons _ (cat_cons _ (cat_cons _ (cat_one _)))
  generalize encode (.brk c) = wd at e ⊢
  have f0 : fld wd 0 7 = 126#7 := fld_cat [] _ _ e
  have f1 : fld wd 25 7 = 3#7 := fld_cat [⟨7, 126#7⟩, ⟨6, 0#6⟩, ⟨12, c⟩] _ _ e
  have f2 : fld wd 7 6 = 0#6 := fld_cat [⟨7, 126#7⟩] _ _ e
  have f3 : fld wd 13 12 = c := fld_cat [⟨7, 126#7⟩, ⟨6, 0#6⟩] _ _ e
  rw [decodeFields_system f0, decodeSystem, f1]
  show mbz _ _ = _
  rw [f2, f3]; rfl
theorem resume : Statement .resume := by
  intro _
  show decodeFields (encode (.resume)) = .ok (.resume)
  have e : (encode (.resume)).toNat = catN [⟨7, 126#7⟩, ⟨25, 1048576#25⟩] :=
    cat_cons _ (cat_one _)
  generalize encode (.resume) = wd at e ⊢
  have f0 : fld wd 0 7 = 126#7 := fld_cat [] _ _ e
  have f1 : fld wd 25 7 = 4#7 := fld_sub [⟨7, 126#7⟩] 1048576#25 _ 18 7 (by decide) e
  have f2 : fld wd 7 18 = 0#18 := fld_sub [⟨7, 126#7⟩] 1048576#25 _ 0 18 (by decide) e
  rw [decodeFields_system f0, decodeSystem, f1]
  show mbz _ _ = _
  rw [f2]; rfl
theorem claim : Statement .claim := by
  intro _
  show decodeFields (encode (.claim)) = .ok (.claim)
  have e : (encode (.claim)).toNat = catN [⟨7, 126#7⟩, ⟨25, 1310720#25⟩] :=
    cat_cons _ (cat_one _)
  generalize encode (.claim) = wd at e ⊢
  have f0 : fld wd 0 7 = 126#7 := fld_cat [] _ _ e
  have f1 : fld wd 25 7 = 5#7 := fld_sub [⟨7, 126#7⟩] 1310720#25 _ 18 7 (by decide) e
  have f2 : fld wd 7 18 = 0#18 := fld_sub [⟨7, 126#7⟩] 1310720#25 _ 0 18 (by decide) e
  rw [decodeFields_system f0, decodeSystem, f1]
  show mbz _ _ = _
  rw [f2]; rfl
theorem logmark (d : BitVec 6) (c : BitVec 12) : Statement (.logmark d c) := by
  intro _
  show decodeFields (encode (.logmark d c)) = .ok (.logmark d c)
  have e : (encode (.logmark d c)).toNat = catN [⟨7, 126#7⟩, ⟨6, d⟩, ⟨12, c⟩, ⟨7, 6#7⟩] :=
    cat_cons _ (cat_cons _ (cat_cons _ (cat_one _)))
  generalize encode (.logmark d c) = wd at e ⊢
  have f0 : fld wd 0 7 = 126#7 := fld_cat [] _ _ e
  have f1 : fld wd 25 7 = 6#7 := fld_cat [⟨7, 126#7⟩, ⟨6, d⟩, ⟨12, c⟩] _ _ e
  have f2 : fld wd 7 6 = d := fld_cat [⟨7, 126#7⟩] _ _ e
  have f3 : fld wd 13 12 = c := fld_cat [⟨7, 126#7⟩, ⟨6, d⟩] _ _ e
  rw [decodeFields_system f0, decodeSystem, f1]
  show Except.ok _ = _
  rw [f2, f3]
theorem ctxCreate (f : Nat) (num : Nat) (rec : Nat) : Statement (.ctxCreate f num rec) := fun h => Bool.noConfusion h
theorem ctxDestroy (f : Nat) (num : Nat) : Statement (.ctxDestroy f num) := fun h => Bool.noConfusion h
theorem fnSet (f : Nat) (g : Nat) (rec : Nat) : Statement (.fnSet f g rec) := fun h => Bool.noConfusion h
theorem evset (f : Nat) (base : Nat) (logsz : Nat) (headA : Nat) (tailA : Nat) (vec : Nat) : Statement (.evset f base logsz headA tailA vec) := fun h => Bool.noConfusion h
theorem invalS1 (f : Nat) (num : Nat) (va : Nat) (pages : Nat) : Statement (.invalS1 f num va pages) := fun h => Bool.noConfusion h
theorem invalS2 (f : Nat) (vmid : Nat) (gpa : Nat) (bytes : Nat) : Statement (.invalS2 f vmid gpa bytes) := fun h => Bool.noConfusion h
theorem s2Retry (f : Nat) (evt : Nat) : Statement (.s2Retry f evt) := fun h => Bool.noConfusion h
theorem s2Decline (f : Nat) (evt : Nat) : Statement (.s2Decline f evt) := fun h => Bool.noConfusion h
theorem qenable (f : Nat) (q : Nat) : Statement (.qenable f q) := fun h => Bool.noConfusion h
theorem qdisable (f : Nat) (q : Nat) : Statement (.qdisable f q) := fun h => Bool.noConfusion h
theorem frecRead (f : Nat) : Statement (.frecRead f) := fun h => Bool.noConfusion h
theorem laneMaskRead (f : Nat) : Statement (.laneMaskRead f) := fun h => Bool.noConfusion h
theorem laneRetest (f : Nat) (core : Nat) (lg : Nat) (pass : Bool) : Statement (.laneRetest f core lg pass) := fun h => Bool.noConfusion h
theorem snuff (f : Nat) : Statement (.snuff f) := fun h => Bool.noConfusion h
theorem pwrLimit (f : Nat) (watts : Nat) : Statement (.pwrLimit f watts) := fun h => Bool.noConfusion h
theorem peerSet (f : Nat) (g : Nat) (p : Nat) (v : Bool) (links : Nat) (peerFn : Nat) : Statement (.peerSet f g p v links peerFn) := fun h => Bool.noConfusion h
theorem commSet (f : Nat) (comm : Nat) (peers : List Nat) (rank : Nat) : Statement (.commSet f comm peers rank) := fun h => Bool.noConfusion h
theorem fwUpdateBegin (f : Nat) (len : Nat) : Statement (.fwUpdateBegin f len) := fun h => Bool.noConfusion h
theorem fwUpdateData (f : Nat) (off : Nat) (bytes : List (BitVec 8)) : Statement (.fwUpdateData f off bytes) := fun h => Bool.noConfusion h
theorem fwUpdateCommit (f : Nat) (v : FwVerdict) : Statement (.fwUpdateCommit f v) := fun h => Bool.noConfusion h
theorem fwUpdateAbort (f : Nat) : Statement (.fwUpdateAbort f) := fun h => Bool.noConfusion h
theorem fwUpdateStatus (f : Nat) : Statement (.fwUpdateStatus f) := fun h => Bool.noConfusion h
theorem queueAttempt (f : Nat) (q : Nat) : Statement (.queueAttempt f q) := fun h => Bool.noConfusion h
theorem nop (f : Nat) (q : Nat) : Statement (.nop f q) := fun h => Bool.noConfusion h
theorem launch (f : Nat) (q : Nat) : Statement (.launch f q) := fun h => Bool.noConfusion h
theorem admission (f : Nat) (q : Nat) : Statement (.admission f q) := fun h => Bool.noConfusion h
theorem signal (f : Nat) (q : Nat) : Statement (.signal f q) := fun h => Bool.noConfusion h
theorem signalStore (f : Nat) (q : Nat) : Statement (.signalStore f q) := fun h => Bool.noConfusion h
theorem waitvalPacket (f : Nat) (q : Nat) : Statement (.waitvalPacket f q) := fun h => Bool.noConfusion h
theorem waitvalPacketSatisfied (f : Nat) (q : Nat) : Statement (.waitvalPacketSatisfied f q) := fun h => Bool.noConfusion h
theorem codefence (f : Nat) (q : Nat) : Statement (.codefence f q) := fun h => Bool.noConfusion h
theorem codefenceAdvance (f : Nat) (q : Nat) : Statement (.codefenceAdvance f q) := fun h => Bool.noConfusion h
theorem setdet (f : Nat) (q : Nat) : Statement (.setdet f q) := fun h => Bool.noConfusion h
theorem setdetApply (f : Nat) (q : Nat) : Statement (.setdetApply f q) := fun h => Bool.noConfusion h
theorem ctxsw (f : Nat) (q : Nat) : Statement (.ctxsw f q) := fun h => Bool.noConfusion h
theorem ctxswAbort (f : Nat) (q : Nat) : Statement (.ctxswAbort f q) := fun h => Bool.noConfusion h
theorem place (core : Nat) (hslot : Nat) : Statement (.place core hslot) := fun h => Bool.noConfusion h
theorem qpopRetireChoice (l : Nat) (stage : Nat) : Statement (.qpopRetireChoice l stage) := fun h => Bool.noConfusion h
theorem launchRetire (l : Nat) : Statement (.launchRetire l) := fun h => Bool.noConfusion h
theorem quantumExpiry (core : Nat) : Statement (.quantumExpiry core) := fun h => Bool.noConfusion h
theorem forcedStop (h : Nat) : Statement (.forcedStop h) := fun h => Bool.noConfusion h
theorem nonyield (h : Nat) : Statement (.nonyield h) := fun h => Bool.noConfusion h
theorem slotSwitch (core : Nat) : Statement (.slotSwitch core) := fun h => Bool.noConfusion h
theorem spill (core : Nat) (slot : Nat) : Statement (.spill core slot) := fun h => Bool.noConfusion h
theorem restore (core : Nat) (slot : Nat) (c : Nat) : Statement (.restore core slot c) := fun h => Bool.noConfusion h
theorem barWaitComplete (h : Nat) : Statement (.barWaitComplete h) := fun h => Bool.noConfusion h
theorem joinComplete (h : Nat) : Statement (.joinComplete h) := fun h => Bool.noConfusion h
theorem qpopWake (h : Nat) : Statement (.qpopWake h) := fun h => Bool.noConfusion h
theorem qpushWake (h : Nat) : Statement (.qpushWake h) := fun h => Bool.noConfusion h
theorem waitvalWake (h : Nat) : Statement (.waitvalWake h) := fun h => Bool.noConfusion h
theorem waitltWake (h : Nat) : Statement (.waitltWake h) := fun h => Bool.noConfusion h
theorem xcopyComplete (core : Nat) (slot : Nat) (n : Nat) : Statement (.xcopyComplete core slot n) := fun h => Bool.noConfusion h
theorem xfillComplete (core : Nat) (slot : Nat) (n : Nat) : Statement (.xfillComplete core slot n) := fun h => Bool.noConfusion h
theorem wldComplete (core : Nat) (slot : Nat) (n : Nat) : Statement (.wldComplete core slot n) := fun h => Bool.noConfusion h
theorem kvcommitComplete (core : Nat) (slot : Nat) (n : Nat) : Statement (.kvcommitComplete core slot n) := fun h => Bool.noConfusion h
theorem collComplete (comm : Nat) (parts : List CollPart) (bad : List Nat) : Statement (.collComplete comm parts bad) := fun h => Bool.noConfusion h
theorem collLinkTimeout (comm : Nat) : Statement (.collLinkTimeout comm) := fun h => Bool.noConfusion h
theorem laneSelftestDone (h : Nat) (failed : List Nat) : Statement (.laneSelftestDone h failed) := fun h => Bool.noConfusion h
theorem columnSelftestDone (h : Nat) (failed : List Nat) : Statement (.columnSelftestDone h failed) := fun h => Bool.noConfusion h
theorem coreRetired (core : Nat) : Statement (.coreRetired core) := fun h => Bool.noConfusion h
theorem logStall (c : Nat) (kind : Nat) : Statement (.logStall c kind) := fun h => Bool.noConfusion h
theorem hostMemAccess (write : Bool) (pa : Nat) (n : Nat) (bytes : List (BitVec 8)) : Statement (.hostMemAccess write pa n bytes) := fun h => Bool.noConfusion h
theorem snuffN : Statement .snuffN := fun h => Bool.noConfusion h
theorem reset (r : BringUp) : Statement (.reset r) := fun h => Bool.noConfusion h
theorem thermalShutdown : Statement .thermalShutdown := fun h => Bool.noConfusion h
theorem powerControl (core : Nat) (cap : Nat) : Statement (.powerControl core cap) := fun h => Bool.noConfusion h
theorem illegalOp (w : BitVec 32) : Statement (.illegalOp w) := fun h => Bool.noConfusion h
theorem fetchFault (perm : Bool) : Statement (.fetchFault perm) := fun h => Bool.noConfusion h
theorem peerRequest (write : Bool) (pa : Nat) (n : Nat) (bytes : List (BitVec 8)) : Statement (.peerRequest write pa n bytes) := fun h => Bool.noConfusion h
theorem spdmRequest (f : Nat) (block : Nat) (setKeys : Bool) : Statement (.spdmRequest f block setKeys) := fun h => Bool.noConfusion h
theorem linkTrainDown (lanes : Nat) (rate : Nat) : Statement (.linkTrainDown lanes rate) := fun h => Bool.noConfusion h
theorem dramScrub (pa : Nat) (finding : Nat) : Statement (.dramScrub pa finding) := fun h => Bool.noConfusion h
theorem peerLinkDown (link : Nat) (down : Bool) : Statement (.peerLinkDown link down) := fun h => Bool.noConfusion h

end Sys2Proof.Laws.Encoded
end

