-- ==== Sys2Proof/Laws/Scalar.lean ====
section
/-! SUPPORT. What a scalar result does, and the words of scalar results as integers and numbers. -/

namespace Sys2Proof.Machine

/-- Reading a scalar register after one is written: s0 discards and reads as zero (R50). -/
theorem Hart.rs_setS (h : Hart) (d r : BitVec 6) (x : Word) :
    (h.setS d x).rs r = if r = d then (if d = 0 then 0 else x) else h.rs r := by
  rw [Hart.setS_rs]
  by_cases hr : r = d
  · subst hr
    by_cases h0 : r = 0
    · subst h0; rfl
    · rw [if_pos ⟨rfl, h0⟩, if_pos rfl, if_neg h0]
  · simp [hr]

/-- What is not a scalar register stays. -/
theorem Hart.setS_eq (h : Hart) (d : BitVec 6) (x : Word) :
    h.setS d x = { h with s := (h.setS d x).s, sp := (h.setS d x).sp } := by
  unfold Hart.setS
  split <;> rfl

/-- What every scalar result is. -/
theorem State.result_writes (s : State) (d : BitVec 6) (x : Word) : WritesScalar s (s.result d x) d x := by
  refine ⟨?_, ?_, fun r => Hart.setS_spBad s.hart d r x, ?_⟩
  · exact (Hart.rs_setS s.hart d d x).trans (if_pos rfl)
  · intro r hr
    exact (Hart.rs_setS s.hart d r x).trans (if_neg hr)
  · show s.withHart { s.hart.setS d x with pc := (s.hart.setS d x).pc + 4 } = _
    rw [Hart.setS_eq]
    rfl

/-- An instruction whose next state is a scalar result completes with it. -/
theorem completes_result {i : Instr} {s : State} {d : BitVec 6} {x y : Word} (h : exec i s = .next (s.result d x))
    (e : x = y) : Completes i s (WritesScalar s · d y) := ⟨_, h, e ▸ s.result_writes d x⟩

/-- The same with flags. -/
theorem completes_flags {i : Instr} {s : State} {d : BitVec 6} {r : Nat × Flags} {y : Word}
    (h : exec i s = .next (sfResult s d r)) (e : BitVec.ofNat 64 r.1 = y) :
    Completes i s (WritesScalarFlags s · d y r.2) := ⟨_, h, e ▸ State.result_writes _ d _⟩

theorem shiftLeft_word (x : Word) (n : Nat) : x <<< n = BitVec.ofNat 64 (x.toNat * 2 ^ n) := by
  apply BitVec.eq_of_toNat_eq
  rw [BitVec.toNat_shiftLeft, Nat.shiftLeft_eq, BitVec.toNat_ofNat]
theorem shiftRight_word (x : Word) (n : Nat) : x >>> n = BitVec.ofNat 64 (x.toNat / 2 ^ n) := by
  apply BitVec.eq_of_toNat_eq
  rw [BitVec.toNat_ushiftRight, Nat.shiftRight_eq_div_pow, BitVec.toNat_ofNat, Nat.mod_eq_of_lt]
  exact Nat.lt_of_le_of_lt (Nat.div_le_self _ _) x.isLt
theorem sshiftRight_word (x : Word) (n : Nat) : x.sshiftRight n = BitVec.ofInt 64 (x.toInt / 2 ^ n) := by
  rw [BitVec.sshiftRight, Int.shiftRight_eq_div_pow]
  norm_cast

/-- A signed offset times four, added to an address. -/
theorem target_word {n : Nat} (pc : Word) (o : BitVec n) : target pc o = pc + BitVec.ofInt 64 (4 * o.toInt) := by
  rw [target, BitVec.ofInt_mul, BitVec.signExtend]
  rfl

end Sys2Proof.Machine
end

