-- ==== Sys2Proof/Laws/Vector.lean ====
section
/-! SUPPORT. Elements and mask bits read back after they are written (03 R53, R57, R58), and what a vector instruction
that may run at once does (03 R60). -/

namespace Sys2Proof.Machine

/-! ## Elements -/

theorem ones_shift_bit (n m p : Nat) :
    (BitVec.ofNat 8192 (2 ^ n - 1) <<< m).getLsbD p = (decide (p < 8192) && decide (m ≤ p) && decide (p - m < n)) := by
  rw [BitVec.getLsbD_shiftLeft, BitVec.getLsbD_ofNat, Nat.testBit_two_pow_sub_one]
  by_cases h1 : p < 8192
  · by_cases h2 : p < m
    · simp [h1, h2, show ¬ m ≤ p by omega]
    · simp [h1, h2, show m ≤ p by omega, show p - m < 8192 by omega]
  · simp [h1]

theorem putElem_bit (v : BitVec 8192) (b i x p : Nat) (hp : p < 8192) :
    (putElem v b i x).getLsbD p =
      if 8 * b * i ≤ p ∧ p < 8 * b * i + 8 * b then (x % 2 ^ (8 * b)).testBit (p - 8 * b * i) else v.getLsbD p := by
  unfold putElem
  rw [BitVec.getLsbD_or, BitVec.getLsbD_and, BitVec.getLsbD_not, ones_shift_bit, BitVec.getLsbD_shiftLeft,
    BitVec.getLsbD_ofNat]
  by_cases h1 : 8 * b * i ≤ p
  · by_cases h2 : p < 8 * b * i + 8 * b
    · have h3 : p - 8 * b * i < 8 * b := by omega
      have h4 : p - 8 * b * i < 8192 := by omega
      have h5 : ¬ p < 8 * b * i := by omega
      simp [hp, h1, h2, h3, h4, h5]
    · have h3 : ¬ p - 8 * b * i < 8 * b := by omega
      have h5 : ¬ p < 8 * b * i := by omega
      have h6 : (x % 2 ^ (8 * b)).testBit (p - 8 * b * i) = false := by
        rw [Nat.testBit_mod_two_pow]; simp [h3]
      simp [hp, h2, h3, h5, h6]
  · have h5 : p < 8 * b * i := by omega
    simp [hp, h1, h5]

/-- An element read back after one element is written. -/
theorem elemOf_putElem (v : BitVec 8192) (b i x j : Nat) (hj : 8 * b * (j + 1) ≤ 8192) :
    elemOf (putElem v b i x) b j = if j = i then x % 2 ^ (8 * b) else elemOf v b j := by
  unfold elemOf
  have key : ∀ k, k < 8 * b → (putElem v b i x).getLsbD (8 * b * j + k) =
      if j = i then (x % 2 ^ (8 * b)).testBit k else v.getLsbD (8 * b * j + k) := by
    intro k hk
    have hlt : 8 * b * j + k < 8192 := by rw [Nat.mul_add] at hj; omega
    rw [putElem_bit v b i x _ hlt]
    by_cases hji : j = i
    · subst hji
      rw [if_pos ⟨by omega, by omega⟩, if_pos rfl]
      congr 1; omega
    · rw [if_neg hji, if_neg]
      rintro ⟨h1, h2⟩
      apply hji
      rcases Nat.lt_or_ge j i with h | h
      · have : 8 * b * (j + 1) ≤ 8 * b * i := Nat.mul_le_mul_left _ h
        rw [Nat.mul_add] at this; omega
      · rcases Nat.eq_or_lt_of_le h with h | h
        · exact h.symm
        · have : 8 * b * (i + 1) ≤ 8 * b * j := Nat.mul_le_mul_left _ h
          rw [Nat.mul_add] at this; omega
  by_cases hji : j = i
  · rw [if_pos hji]
    have : (putElem v b i x).extractLsb' (8 * b * j) (8 * b) = BitVec.ofNat (8 * b) (x % 2 ^ (8 * b)) := by
      apply BitVec.eq_of_getLsbD_eq
      intro k hk
      rw [BitVec.getLsbD_extractLsb', BitVec.getLsbD_ofNat, key k hk, if_pos hji]
    rw [this, BitVec.toNat_ofNat, Nat.mod_mod]
  · rw [if_neg hji]
    congr 1
    apply BitVec.eq_of_getLsbD_eq
    intro k hk
    rw [BitVec.getLsbD_extractLsb', BitVec.getLsbD_extractLsb', key k hk, if_neg hji]

/-- An element read back after a register is written (R57, R58). -/
theorem elemOf_putElems (b : Nat) (f : Nat → Option Nat) (n : Nat) (v : BitVec 8192) (j : Nat)
    (hj : 8 * b * (j + 1) ≤ 8192) :
    elemOf (putElems b f n v) b j =
      if j < n then ((f j).map (· % 2 ^ (8 * b))).getD (elemOf v b j) else elemOf v b j := by
  induction n with
  | zero => simp [putElems]
  | succ n ih =>
    unfold putElems
    cases hf : f n with
    | none =>
      simp only [ih]
      by_cases h : j = n
      · subst h; simp [hf]
      · have : (j < n + 1) = (j < n) := by simp; omega
        simp [this]
    | some x =>
      simp only [elemOf_putElem _ _ _ _ _ hj, ih]
      by_cases h : j = n
      · subst h; simp [hf]
      · have : (j < n + 1) = (j < n) := by simp; omega
        simp [h, this]

@[simp] theorem Hart.setV_vr (h : Hart) (n : Nat) (x : BitVec 8192) (r : Nat) (hn : n < 48) :
    (h.setV n x).vr r = if r = n then x else h.vr r := by
  simp only [Hart.vr, Hart.setV, Vector.toList_setIfInBounds, List.getD_eq_getElem?_getD, List.getElem?_set]
  by_cases e : n = r
  · subst e; simp [hn]
  · rw [if_neg e, if_neg (fun h => e h.symm)]
@[simp] theorem Hart.setVp_vr (h : Hart) (n : Nat) (x : BitVec 1024) (r : Nat) : (h.setVp n x).vr r = h.vr r := rfl
@[simp] theorem Hart.setV_vpr (h : Hart) (n : Nat) (x : BitVec 8192) (r : Nat) : (h.setV n x).vpr r = h.vpr r := rfl

/-- Writing elements of a register leaves every other register, and what of the hart is no vector register. -/
theorem Hart.writeElems_eq (h : Hart) (d b n : Nat) (f : Nat → Option Nat) :
    h.writeElems d b n f = { h with v := (h.writeElems d b n f).v, vp := (h.writeElems d b n f).vp } := by
  unfold Hart.writeElems
  dsimp only
  split <;> rfl
theorem Hart.writeElems_vr (h : Hart) (d b n : Nat) (f : Nat → Option Nat) (r : Nat) (hd : d < 48) :
    (h.writeElems d b n f).vr r = if r = d then putElems b f n (h.vr d) else h.vr r := by
  unfold Hart.writeElems
  dsimp only
  split
  · exact Hart.setV_vr h d _ r hd
  · rw [Hart.setVp_vr]; exact Hart.setV_vr h d _ r hd
theorem Hart.writeElems_clean (h : Hart) (d b n : Nat) (f : Nat → Option Nat) (hc : h.vpr d = 0) :
    h.writeElems d b n f = h.setV d (putElems b f n (h.vr d)) := by
  unfold Hart.writeElems
  dsimp only
  rw [if_pos hc]

/-- An element of a register after an element-wise result (R58): the result where active, zero where inactive under
z = 1, else as before. -/
theorem Hart.mapElems_elem (h : Hart) (d b : Nat) (k : BitVec 4) (z : BitVec 1) (f : Nat → Nat) (r j : Nat)
    (hd : d < 48) (hj : 8 * b * (j + 1) ≤ 8192) :
    (h.mapElems d b k z f).elem r b j =
      if r = d ∧ j < h.vl ∧ h.vstart ≤ j then
        if h.active k j then f j % 2 ^ (8 * b) else if z = 1 then 0 else h.elem r b j
      else h.elem r b j := by
  unfold Hart.mapElems Hart.elem
  rw [Hart.writeElems_vr h d b h.vl _ r hd]
  by_cases hr : r = d
  · rw [if_pos hr, elemOf_putElems _ _ _ _ _ hj]
    subst hr
    by_cases hv : j < h.vl
    · by_cases hs : j < h.vstart
      · simp [hv, policy, hs, show ¬ h.vstart ≤ j by omega]
      · by_cases ha : h.active k j = true
        · simp [hv, policy, hs, show h.vstart ≤ j by omega, ha]
        · simp only [hv, policy, hs, show h.vstart ≤ j by omega, ha, if_true, if_false, and_self]
          by_cases hz : z = 1
          · rw [if_pos hz, if_pos hz]; simp
          · rw [if_neg hz, if_neg hz]; simp
    · simp [hv]
  · simp [hr]

/-! ## Masks -/

theorem putBits_bit (f : Nat → Option Bool) (n : Nat) (k : BitVec 1024) (j : Nat) (hj : j < 1024) :
    (putBits f n k).getLsbD j = if j < n then (f j).getD (k.getLsbD j) else k.getLsbD j := by
  have one : ∀ m : Nat, (1#1024 <<< m).getLsbD j = decide (j = m) := by
    intro m
    rw [BitVec.getLsbD_shiftLeft, BitVec.getLsbD_one]
    by_cases h : j = m
    · subst h; simp [hj]
    · by_cases h2 : j < m
      · simp [h, h2]
      · have : j - m ≠ 0 := by omega
        simp [h, this]
  induction n with
  | zero => simp [putBits]
  | succ n ih =>
    unfold putBits
    cases hf : f n with
    | none =>
      simp only [ih]
      by_cases h : j = n
      · subst h; simp [hf]
      · have : (j < n + 1) = (j < n) := by simp; omega
        simp [this]
    | some x =>
      rw [BitVec.getLsbD_or, BitVec.getLsbD_and, BitVec.getLsbD_not, one]
      by_cases h : j = n
      · subst h; cases x <;> simp [hf, hj]
      · have : (j < n + 1) = (j < n) := by simp; omega
        rw [ih]
        cases x
        · simp [h, this, hj]
        · simp only [if_true, one]
          simp [h, this, hj]

theorem Hart.setK_kr (h : Hart) (n : Nat) (x : BitVec 1024) (r : Nat) (hn : n < 12) :
    (h.setK n x).kr r = if r = n then x else h.kr r := by
  simp only [Hart.kr, Hart.setK, Vector.toList_setIfInBounds, List.getD_eq_getElem?_getD, List.getElem?_set]
  by_cases e : n = r
  · subst e; simp [hn]
  · rw [if_neg e, if_neg (fun h => e h.symm)]

theorem ones_bit (n j : Nat) (hj : j < 1024) : (BitVec.ofNat 1024 (2 ^ n - 1)).getLsbD j = decide (j < n) := by
  rw [BitVec.getLsbD_ofNat, Nat.testBit_two_pow_sub_one]; simp [hj]

/-- A bit of a mask after a mask is written (R53). -/
theorem Hart.writeMask_bit (h : Hart) (d n : Nat) (f : Nat → Option Bool) (r j : Nat) (hd : d < 12) (hj : j < 1024) :
    ((h.writeMask d n f).kr r).getLsbD j =
      if r = d then (if j < n then (f j).getD ((h.kr d).getLsbD j) else (h.kr d).getLsbD j) && decide (j < h.lanes * 256)
      else (h.kr r).getLsbD j := by
  unfold Hart.writeMask
  rw [Hart.setK_kr h d _ r hd]
  by_cases hr : r = d
  · simp only [if_pos hr, BitVec.getLsbD_and, putBits_bit f n _ j hj, Hart.maskBits, ones_bit _ j hj]
  · simp [hr]
theorem Hart.writeMask_eq (h : Hart) (d n : Nat) (f : Nat → Option Bool) :
    h.writeMask d n f = { h with k := (h.writeMask d n f).k } := rfl

/-! ## Poison of elements -/

theorem bad_iff (p : BitVec 1024) (b i : Nat) :
    (p.extractLsb' (b * i) b != 0) = true ↔ ∃ j < b, p.getLsbD (b * i + j) = true := by
  rw [bne_iff_ne]
  constructor
  · intro h
    by_contra hn
    push Not at hn
    apply h
    apply BitVec.eq_of_getLsbD_eq
    intro j hj
    have := hn j hj
    simp [hj, this]
  · rintro ⟨j, hj, h⟩ h0
    have : (p.extractLsb' (b * i) b).getLsbD j = true := by rw [BitVec.getLsbD_extractLsb']; simp [hj, h]
    rw [h0] at this
    simp at this

theorem cleanElems_bit (b : Nat) (f : Nat → Option Nat) (n : Nat) (p : BitVec 1024) (q : Nat) (hq : q < 1024) :
    (cleanElems b f n p).getLsbD q = (p.getLsbD q && !decide (∃ i < n, (f i).isSome ∧ b * i ≤ q ∧ q < b * i + b)) := by
  have ones : ∀ m, (BitVec.ofNat 1024 (2 ^ b - 1) <<< m).getLsbD q = (decide (m ≤ q) && decide (q < m + b)) := by
    intro m
    rw [BitVec.getLsbD_shiftLeft, BitVec.getLsbD_ofNat, Nat.testBit_two_pow_sub_one]
    by_cases h2 : q < m
    · simp [hq, h2, show ¬ m ≤ q by omega]
    · have e : (q - m < b) = (q < m + b) := by rw [eq_iff_iff]; omega
      simp [hq, h2, show m ≤ q by omega, show q - m < 1024 by omega, e]
  induction n with
  | zero => simp [cleanElems]
  | succ n ih =>
    unfold cleanElems
    cases hf : f n with
    | none =>
      simp only [ih]
      congr 3
      rw [eq_iff_iff]
      constructor
      · rintro ⟨i, hi, h⟩; exact ⟨i, by omega, h⟩
      · rintro ⟨i, hi, h1, h⟩
        refine ⟨i, ?_, h1, h⟩
        rcases Nat.lt_succ_iff_lt_or_eq.mp hi with h | h
        · exact h
        · subst h; simp [hf] at h1
    | some x =>
      simp only [BitVec.getLsbD_and, BitVec.getLsbD_not, ones, ih, hq, decide_true, Bool.true_and, Bool.and_assoc]
      congr 1
      rw [Bool.eq_iff_iff]
      simp only [Bool.and_eq_true, Bool.not_eq_true', decide_eq_false_iff_not, Bool.and_eq_false_iff]
      constructor
      · rintro ⟨h1, h2⟩ ⟨i, hi, h3, h4, h5⟩
        rcases Nat.lt_succ_iff_lt_or_eq.mp hi with h | h
        · exact h1 ⟨i, h, h3, h4, h5⟩
        · subst h; omega
      · intro h
        refine ⟨fun ⟨i, hi, h3⟩ => h ⟨i, by omega, h3⟩, ?_⟩
        by_contra hn
        push Not at hn
        exact h ⟨n, by omega, by simp [hf], hn.1, hn.2⟩

/-- Poison of an element after a register's elements are cleaned. -/
theorem cleanElems_bad (b : Nat) (f : Nat → Option Nat) (n : Nat) (p : BitVec 1024) (j : Nat) (hj : b * (j + 1) ≤ 1024) :
    ((cleanElems b f n p).extractLsb' (b * j) b != 0) =
      ((if j < n then f j else none).isNone && (p.extractLsb' (b * j) b != 0)) := by
  rw [Nat.mul_add, Nat.mul_one] at hj
  have same : ∀ i x, b * i ≤ b * j + x → b * j + x < b * i + b → x < b → i = j := by
    intro i x h1 h2 h3
    have e1 : b * i < b * (j + 1) := by rw [Nat.mul_add]; omega
    have e2 : b * j < b * (i + 1) := by rw [Nat.mul_add]; omega
    have := Nat.lt_of_mul_lt_mul_left e1
    have := Nat.lt_of_mul_lt_mul_left e2
    omega
  rw [Bool.eq_iff_iff, bad_iff, Bool.and_eq_true, bad_iff]
  constructor
  · rintro ⟨x, hx, h⟩
    rw [cleanElems_bit b f n p _ (by omega), Bool.and_eq_true] at h
    refine ⟨?_, x, hx, h.1⟩
    have h2 := h.2
    simp only [Bool.not_eq_true', decide_eq_false_iff_not] at h2
    split
    · rename_i hlt
      cases hf : f j with
      | none => rfl
      | some y => exact absurd ⟨j, hlt, by simp [hf], by omega, by omega⟩ h2
    · rfl
  · rintro ⟨h1, x, hx, h⟩
    refine ⟨x, hx, ?_⟩
    rw [cleanElems_bit b f n p _ (by omega), h, Bool.true_and]
    simp only [Bool.not_eq_true', decide_eq_false_iff_not]
    rintro ⟨i, hi, h3, h4, h5⟩
    have := same i x h4 h5 hx
    subst this
    rw [if_pos hi] at h1
    cases hf : f i with
    | none => simp [hf] at h3
    | some y => simp [hf] at h1

theorem Hart.setVp_vpr (h : Hart) (n : Nat) (x : BitVec 1024) (r : Nat) (hn : n < 48) :
    (h.setVp n x).vpr r = if r = n then x else h.vpr r := by
  simp only [Hart.vpr, Hart.setVp, Vector.toList_setIfInBounds, List.getD_eq_getElem?_getD, List.getElem?_set]
  by_cases e : n = r
  · subst e; simp [hn]
  · rw [if_neg e, if_neg (fun h => e h.symm)]

theorem Hart.writeElems_bad (h : Hart) (d b n : Nat) (f : Nat → Option Nat) (r j : Nat) (hd : d < 48)
    (hj : b * (j + 1) ≤ 1024) :
    (h.writeElems d b n f).elemBad r b j =
      ((if r = d then if j < n then f j else none else none).isNone && h.elemBad r b j) := by
  unfold Hart.elemBad Hart.writeElems
  dsimp only
  by_cases hp : h.vpr d = 0
  · rw [if_pos hp, Hart.setV_vpr]
    by_cases hr : r = d
    · subst hr
      rw [hp]
      simp
    · simp [hr]
  · rw [if_neg hp, Hart.setVp_vpr _ _ _ _ hd]
    by_cases hr : r = d
    · subst hr
      rw [if_pos rfl, if_pos rfl]
      exact cleanElems_bad b f n _ j hj
    · rw [if_neg hr, if_neg hr, Hart.setV_vpr]
      simp

theorem Hart.writeElems_elem (h : Hart) (d b n : Nat) (f : Nat → Option Nat) (r j : Nat) (hd : d < 48)
    (hj : b * (j + 1) ≤ 1024) :
    (h.writeElems d b n f).elem r b j =
      (((if r = d then if j < n then f j else none else none).map (· % 2 ^ (8 * b))).getD (h.elem r b j)) := by
  unfold Hart.elem
  rw [Hart.writeElems_vr h d b n f r hd]
  by_cases hr : r = d
  · subst hr
    rw [if_pos rfl, if_pos rfl, elemOf_putElems b f n _ j (by rw [Nat.mul_assoc]; omega)]
    split <;> rfl
  · simp [hr]

/-! ## What a vector instruction that runs at once does (R60) -/

/-- The hart as a queued instruction that is alone in the queue finds it. -/
def Hart.issued (h : Hart) (i : Instr) : Hart :=
  { h with queue := [⟨h.pc, encode i, (capOf i h).1, (capOf i h).2, [], [], h.note⟩], pc := h.pc + 4 }
/-- The hart once that instruction has left it as `g`. -/
def Hart.ran (g : Hart) : Hart := g.popHead
/-- What the instruction has with it. -/
def Hart.cap (h : Hart) (i : Instr) : Cap := ⟨h.pc, (capOf i h).1, (capOf i h).2, []⟩

theorem Hart.popHead_empty {g : Hart} (hq : g.queue.tail = []) (hs : g.sets = []) :
    g.popHead = { g with queue := [], vstart := 0, rpos := 0 } := by
  unfold Hart.popHead Hart.settle
  dsimp only
  rw [hq]
  exact if_pos hs
theorem Hart.enqueue_free {h : Hart} (i : Instr) (hq : h.queue = []) (hs : h.sets = []) :
    Hart.enqueue h h.pc (encode i) (capOf i h).1 (capOf i h).2 [] =
      { h with queue := [⟨h.pc, encode i, (capOf i h).1, (capOf i h).2, [], [], h.note⟩] } := by
  unfold Hart.enqueue
  rw [hq, hs]
  simp only [List.nil_append, Hart.settle, if_true]

/-- Pipes that agree, and no self-test on a lane group of the hart: a vector instruction runs as it is. -/
theorem laneM_free {w : BitVec 32} {x : Word} {m : M Unit} {s : State} (h1 : s.mismatch = []) (h2 : laneBusy s = false) :
    laneM w x m s = m s := by
  have hr : laneRun w x m s = (m >>= fun _ => pure []) s := by
    unfold laneRun
    rw [M.get_bind]
    split
    · rfl
    · simp only [h2, h1, Bool.false_eq_true, if_false, decide_true, Bool.true_or, if_true]
  unfold laneM
  rw [M.get_bind]
  cases hm : m s with
  | ok a t =>
    rw [M.bind_ok (hr.trans (M.bind_ok hm))]
    rfl
  | error e t => exact M.bind_error (hr.trans (M.bind_error hm))
/-- An entry that has not been stopped inside, and before which no acquire has followed: its instruction runs as it is. -/
theorem headBody_fresh {m : Cap → M Unit} {e : QEntry} {s : State} (ha : e.note.acq = s.hart.lastAcq)
    (hv : e.note.views = s.hart.views) (hp : s.hart.part = none) :
    headBody m e s = m ⟨e.pc, e.op1, e.op2, e.frame⟩ s := by
  have hr : resumed (m ⟨e.pc, e.op1, e.op2, e.frame⟩) s = m ⟨e.pc, e.op1, e.op2, e.frame⟩ s := by
    unfold resumed
    rw [M.hart_bind, hp]
  unfold headBody underNote
  rw [M.hart_bind, if_pos (by simp [ha, hv]), hr]

/-- Queueing an instruction changes nothing of who tests which lane groups. -/
theorem laneBusy_issued (s : State) (i : Instr) : laneBusy (s.withHart (s.hart.issued i)) = laneBusy s := by
  unfold laneBusy State.liveHarts
  simp only [State.withHart_hart, show (s.hart.issued i).live = s.hart.live from rfl, List.any_append]
  congr 1
  cases s.hart.live <;> rfl

/-- The head of the queue of a hart whose pipes agree. -/
theorem runHead_cons {m : Cap → M Unit} {s : State} {e : QEntry} {q : List QEntry} (hq : s.hart.queue = e :: q)
    (hm : s.mismatch = []) (hb : laneBusy s = false) : runHead m s = headEnd s e (headBody m e s) := by
  unfold runHead
  rw [hq]
  dsimp only
  rw [headRun, laneM_free hm hb]

/-- The entry of an instruction that meets a free vector unit. -/
def Hart.entryOf (h : Hart) (i : Instr) : QEntry := ⟨h.pc, encode i, (capOf i h).1, (capOf i h).2, [], [], h.note⟩
/-- An instruction that meets a free vector unit runs as it issues. -/
theorem vecIssue_runs {i : Instr} {m : Cap → M Unit} {s : State} (hf : VectorFree s) :
    vecIssue i m s = .next (headEnd (s.withHart (s.hart.issued i)) (s.hart.entryOf i)
      (m (s.hart.cap i) (s.withHart (s.hart.issued i)))) := by
  obtain ⟨h1, h2, h3, h4, h5, h6⟩ := hf
  unfold vecIssue
  dsimp only
  rw [if_neg (by rw [h1]; exact Bool.false_ne_true), if_neg (by rw [h2]; decide), if_pos (by rw [h2, h4]; rfl),
    Hart.enqueue_free i h2 h3]
  congr 1
  refine (runHead_cons (s := s.withHart (s.hart.issued i)) (q := []) rfl h5 ((laneBusy_issued s i).trans h6)).trans ?_
  exact congrArg (headEnd _ _) (headBody_fresh (e := s.hart.entryOf i) rfl rfl rfl)
theorem vecIssue_free {i : Instr} {m : Cap → M Unit} {s s2 : State} (hf : VectorFree s)
    (hm : m (s.hart.cap i) (s.withHart (s.hart.issued i)) = .ok () s2) :
    vecIssue i m s = .next (s2.withHart s2.hart.ran) := by
  rw [vecIssue_runs hf, hm]
  rfl

/-- No due element of these registers is poison: nothing is squashed. -/
theorem consume_clean {k : BitVec 4} {rs : List (Nat × Nat)} {s : State}
    (h : ∀ p ∈ rs, ∀ n, s.hart.due k n = true → s.hart.elemBad p.1 p.2 n = false) : consume k rs s = .ok () s := by
  unfold consume
  simp only [M.hart_bind]
  rw [if_neg]
  · rfl
  · simp only [List.any_eq_true, Bool.and_eq_true]
    rintro ⟨p, hp, -, n, -, h1, h2⟩
    rw [h p hp n h1] at h2
    exact Bool.false_ne_true h2

theorem flags_or (xs : List (Nat × Flags)) (f0 : Flags) (j : Nat) :
    (xs.foldl (fun f x => f ||| x.2) f0).getLsbD j = true ↔ f0.getLsbD j = true ∨ ∃ x ∈ xs, x.2.getLsbD j = true := by
  induction xs generalizing f0 with
  | nil => simp
  | cons x xs ih => simp [ih, BitVec.getLsbD_or, or_assoc]

/-- The flags of the due elements' results, bit by bit. -/
theorem flagsOf_due (s : State) (k : BitVec 4) (g : Nat → Nat × Flags) (j : Nat) :
    (flagsOf ((indices (s.hart.due k) s.hart.vl).map g)).getLsbD j = true ↔ raisedBy s k (fun n => (g n).2) j := by
  unfold flagsOf
  rw [flags_or]
  unfold raisedBy indices
  simp only [List.mem_map, List.mem_filter, List.mem_range]
  constructor
  · rintro (h | ⟨x, ⟨n, ⟨-, hn⟩, rfl⟩, h⟩)
    · simp at h
    · exact ⟨n, hn, h⟩
  · rintro ⟨n, hn, h⟩
    refine .inr ⟨g n, ⟨n, ⟨?_, hn⟩, rfl⟩, h⟩
    unfold Hart.due Hart.active at hn
    simp at hn
    exact hn.1.1

/-- What has written elements of one register, and raised flags, after it ran. -/
theorem writesElems_of {s t : State} {d w N : Nat} {f f' : Nat → Option Nat} {raised : Nat → Prop} {fl : Flags} {i : Instr}
    (hs : s.hart.queue = [] ∧ s.hart.sets = []) (hd : d < 48)
    (ht : t = s.withHart (((s.hart.issued i).writeElems d w N f').orFlags fl).ran)
    (hf : ∀ n, (if n < N then f' n else none) = f n)
    (hr : ∀ j, fl.getLsbD j = true ↔ raised j) : WritesElems s t w (only d f) raised := by
  have hran : (((s.hart.issued i).writeElems d w N f').orFlags fl).ran =
      { ((s.hart.issued i).writeElems d w N f').orFlags fl with queue := [], vstart := 0, rpos := 0 } := by
    refine Hart.popHead_empty ?_ ?_
    · rw [Hart.writeElems_eq]; rfl
    · rw [Hart.writeElems_eq]; exact hs.2
  rw [hran] at ht
  subst ht
  refine ⟨?_, ?_, ?_⟩
  · intro r n _ hn
    have e1 := Hart.writeElems_elem (s.hart.issued i) d w N f' r n hd hn
    have e2 := Hart.writeElems_bad (s.hart.issued i) d w N f' r n hd hn
    rw [hf n] at e1 e2
    exact ⟨e1, e2⟩
  · intro j
    show ((((s.hart.issued i).writeElems d w N f')).fflags ||| fl).getLsbD j = true ↔ _
    rw [Hart.writeElems_eq, BitVec.getLsbD_or, Bool.or_eq_true, hr]
    rfl
  · rw [State.withHart_hart]
    congr 1
    rw [Hart.writeElems_eq]
    unfold Hart.orFlags Hart.issued
    simp only [hs.1]

/-- `policy` is `elementwise` below VL. -/
theorem policy_elementwise (s : State) (k : BitVec 4) (z : BitVec 1) (g : Nat → Nat) (n : Nat) :
    (if n < s.hart.vl then policy s.hart k z g n else none) = elementwise s k z 0 g n := by
  unfold policy elementwise Hart.active
  by_cases h1 : n < s.hart.vl
  · by_cases h2 : n < s.hart.vstart
    · simp [h1, h2]
    · simp [h1, h2, show ¬ s.hart.vl ≤ n by omega]
  · simp [h1, show s.hart.vl ≤ n by omega]

theorem ET.bytes_pos (t : ET) : 0 < t.bytes := by cases t <;> decide

end Sys2Proof.Machine
end

