-- ==== Sys2Proof/Laws/VectorUnit.lean ====
section
/-! SUPPORT. What the shapes of vector instructions do once they run as they issue (R58, R60, R417), and the integer
group's results as integers (R418). -/

namespace Sys2Proof.Machine


/-- An element-wise instruction's effect, once it has run as it issued. -/
theorem elementwise_ran {i : Instr} {m : Cap → M Unit} {s : State} {d w : Nat} {k : BitVec 4} {z : BitVec 1}
    {g g' : Nat → Nat × Flags} (hf : VectorFree s) (hd : d < 48)
    (hm : m (s.hart.cap i) (s.withHart (s.hart.issued i)) =
      .ok () (s.withHart (((s.hart.issued i).mapElems d w k z (fun n => (g' n).1)).orFlags
        (flagsOf ((indices (s.hart.due k) s.hart.vl).map g')))))
    (hg : ∀ n, (g' n).1 % 2 ^ (8 * w) = (g n).1 % 2 ^ (8 * w)) (hl : ∀ n, (g' n).2 = (g n).2)
    (he : exec i s = vecIssue i m s) : Completes i s (Elementwise s · d w k z g) := by
  refine ⟨_, he.trans (vecIssue_free hf hm), ?_⟩
  have h : Elementwise s (s.withHart (((s.hart.issued i).mapElems d w k z (fun n => (g' n).1)).orFlags
        (flagsOf ((indices (s.hart.due k) s.hart.vl).map g'))).ran) d w k z g' :=
    writesElems_of ⟨hf.2.1, hf.2.2.1⟩ hd rfl (policy_elementwise s k z _) (flagsOf_due s k g')
  obtain ⟨h1, h2, h3⟩ := h
  refine ⟨?_, ?_, h3⟩
  · intro r n hr hn
    obtain ⟨e1, e2⟩ := h1 r n hr hn
    have e : (only d (elementwise s k z 0 fun n => (g' n).1) r n).map (· % 2 ^ (8 * w)) =
        (only d (elementwise s k z 0 fun n => (g n).1) r n).map (· % 2 ^ (8 * w)) ∧
        (only d (elementwise s k z 0 fun n => (g' n).1) r n).isNone =
        (only d (elementwise s k z 0 fun n => (g n).1) r n).isNone := by
      unfold only elementwise
      split
      · split
        · exact ⟨rfl, rfl⟩
        · split
          · exact ⟨congrArg some (hg n), rfl⟩
          · split <;> exact ⟨rfl, rfl⟩
      · exact ⟨rfl, rfl⟩
    rw [e.1] at e1
    rw [e.2] at e2
    exact ⟨e1, e2⟩
  · intro j
    refine (h2 j).trans ?_
    unfold raisedBy
    simp only [hl]
theorem binary_ran {i : Instr} {ok : ET → Bool} {s : State} {d a b : BitVec 6} {k : BitVec 4} {z f : BitVec 1}
    {op : ET → Frm → Nat → Nat → Nat × Flags} {g : Nat → Nat × Flags} (hf : VectorFree s) (hd : d.toNat < 48)
    (hok : ok s.hart.et = true) (ha : Clean s k a) (hb : f = 0 → Clean s k b)
    (hc : (capOf i s.hart).2 = if f = 1 then s.rs b else 0)
    (hg : ∀ n, (op s.hart.et s.hart.frm (s.hart.elem a.toNat s.hart.et.bytes n) (secondOf s f b n)).1 % 2 ^ (8 * s.hart.et.bytes)
      = (g n).1 % 2 ^ (8 * s.hart.et.bytes))
    (hl : ∀ n, (op s.hart.et s.hart.frm (s.hart.elem a.toNat s.hart.et.bytes n) (secondOf s f b n)).2 = (g n).2)
    (he : exec i s = vecIssue i (binaryM i ok d a b k z f op) s) :
    Completes i s (Elementwise s · d.toNat s.hart.et.bytes k z g) := by
  refine elementwise_ran (g' := fun n => op s.hart.et s.hart.frm (s.hart.elem a.toNat s.hart.et.bytes n) (secondOf s f b n))
    hf hd ?_ hg hl he
  have h2 : ∀ n, operand (s.hart.issued i) (s.hart.cap i) f b s.hart.et.bytes n = secondOf s f b n := by
    intro n
    unfold operand secondOf
    split
    · rename_i h
      dsimp only [Hart.cap]
      rw [hc, if_pos h]
    · rfl
  unfold binaryM
  simp only [M.hart_bind]
  rw [if_neg (by rw [show (s.withHart (s.hart.issued i)).hart.et = s.hart.et from rfl, hok]; exact Bool.false_ne_true)]
  rw [M.bind_ok (consume_clean ?_)]
  · rw [M.setHartM_run]
    simp only [State.withHart_hart, show (s.hart.issued i).et = s.hart.et from rfl, h2]
    rfl
  · intro p hp n hn
    have hf01 : f = 1 ∨ f = 0 := by clear * -; revert f; decide
    rcases hf01 with h | h
    · rw [if_pos h] at hp
      simp only [List.mem_singleton] at hp
      subst hp
      exact ha n hn
    · rw [if_neg (by rw [h]; decide)] at hp
      simp only [List.mem_cons, List.not_mem_nil, or_false] at hp
      rcases hp with rfl | rfl
      · exact ha n hn
      · exact hb h n hn
theorem isInt_of {t : ET} (h : t.isFloat = false) : t.isInt = true := by unfold ET.isInt; rw [h]; rfl
theorem elem_lt (h : Hart) (r b i : Nat) : h.elem r b i < 2 ^ (8 * b) := (BitVec.isLt _)
theorem second_lt (s : State) (f : BitVec 1) (b : BitVec 6) (n : Nat) : secondOf s f b n < 2 ^ (8 * s.hart.et.bytes) := by
  unfold secondOf; dsimp only; split
  · exact Nat.mod_lt _ (Nat.two_pow_pos _)
  · exact elem_lt _ _ _ _
theorem toSigned_eq (w x : Nat) (hw : 0 < w) : toSigned w x = (BitVec.ofNat w x).toInt := by
  unfold toSigned
  rw [BitVec.toInt_eq_toNat_cond, BitVec.toNat_ofNat]
  have : 2 ^ w = 2 * 2 ^ (w - 1) := by rw [← Nat.pow_succ']; congr 1; omega
  generalize x % 2 ^ w = y at *
  rw [this]
  split <;> split <;> omega
/-- The value of a pattern, signed or unsigned. -/
def vv (u : BitVec 1) (W v : Nat) : Int := if u = 1 then (v : Int) else (BitVec.ofNat W v).toInt
theorem valueW_eq (u : BitVec 1) (W v : Nat) (hW : 0 < W) : valueW u W v = vv u W v := by
  unfold valueW vv; rw [toSigned_eq _ _ hW]
theorem ltW_eq (u : BitVec 1) (W x y : Nat) (hW : 0 < W) : ltW u W x y = decide (vv u W x < vv u W y) := by
  unfold ltW vv; split
  · simp
  · rw [toSigned_eq _ _ hW, toSigned_eq _ _ hW]
theorem mod_self (W v : Nat) : v % 2 ^ W = ((v : Int) % 2 ^ W).toNat % 2 ^ W := by
  norm_cast
  rw [Nat.mod_mod]
theorem inj_vv (u : BitVec 1) (W x y : Nat) (hx : x < 2 ^ W) (hy : y < 2 ^ W) (h : vv u W x = vv u W y) : x = y := by
  unfold vv at h
  split at h
  · omega
  · have := BitVec.eq_of_toInt_eq h
    have := congrArg BitVec.toNat this
    simpa [Nat.mod_eq_of_lt, hx, hy] using this
theorem op_mulh (u : BitVec 1) (W x y : Nat) (hW : 0 < W) :
    mulhW u W x y % 2 ^ W = ((vv u W x * vv u W y / 2 ^ W) % 2 ^ W).toNat % 2 ^ W := by
  unfold mulhW vv
  split
  · rw [Nat.shiftRight_eq_div_pow]; norm_cast
    rw [Nat.mod_mod]
  · rw [toSigned_eq _ _ hW, toSigned_eq _ _ hW]; unfold ofInt; norm_cast
theorem op_min (u : BitVec 1) (W x y : Nat) (hW : 0 < W) :
    minW u W x y % 2 ^ W = (((if vv u W x ≤ vv u W y then x else y : Nat) : Int) % 2 ^ W).toNat % 2 ^ W := by
  rw [← mod_self]
  · unfold minW; rw [ltW_eq _ _ _ _ hW]
    by_cases h : vv u W x ≤ vv u W y
    · simp [h, show ¬ vv u W y < vv u W x by omega]
    · simp [h, show vv u W y < vv u W x by omega]
theorem op_max (u : BitVec 1) (W x y : Nat) (hW : 0 < W) :
    maxW u W x y % 2 ^ W = (((if vv u W y ≤ vv u W x then x else y : Nat) : Int) % 2 ^ W).toNat % 2 ^ W := by
  rw [← mod_self]
  · unfold maxW; rw [ltW_eq _ _ _ _ hW]
    by_cases h : vv u W y ≤ vv u W x
    · simp [h, show ¬ vv u W x < vv u W y by omega]
    · simp [h, show vv u W x < vv u W y by omega]
theorem op_clamp (u : BitVec 1) (W : Nat) (v : Int) (hW : 0 < W) :
    clampW u W v % 2 ^ W = ((if u = 1 then max 0 (min v (2 ^ W - 1)) else max (-2 ^ (W - 1)) (min v (2 ^ (W - 1) - 1))) % 2 ^ W).toNat % 2 ^ W := by
  unfold clampW ofInt
  have e : (2 : Int) ^ W = ((2 ^ W : Nat) : Int) := by norm_cast
  have e2 : (2 : Int) ^ (W - 1) = ((2 ^ (W - 1) : Nat) : Int) := by norm_cast
  rw [e, e2]
  have h2 : 2 ^ W = 2 * 2 ^ (W - 1) := by rw [← Nat.pow_succ']; congr 1; omega
  have h3 : 0 < 2 ^ (W - 1) := Nat.two_pow_pos _
  generalize 2 ^ (W - 1) = q at *
  rw [h2]
  split
  · split
    · rw [show max 0 (min v ((2 * q : Nat) - 1 : Int)) = 0 by omega]; simp
    · split
      · rw [show max 0 (min v ((2 * q : Nat) - 1 : Int)) = ((2 * q - 1 : Nat) : Int) by omega]
        rw [Int.emod_eq_of_lt (by omega) (by omega)]; simp
      · rw [show max 0 (min v ((2 * q : Nat) - 1 : Int)) = v by omega]
        rw [Int.emod_eq_of_lt (by omega) (by omega)]
  · split
    · rw [show max (-(q : Int)) (min v (q - 1 : Int)) = -(q : Int) by omega]
      rw [show (-(q : Int)) % ((2 * q : Nat) : Int) = (q : Int) by
        rw [← Int.add_emod_right, show -(q : Int) + (2 * q : Nat) = q by omega, Int.emod_eq_of_lt (by omega) (by omega)]]
      simp
    · split
      · rw [show max (-(q : Int)) (min v (q - 1 : Int)) = ((q - 1 : Nat) : Int) by omega]
        rw [Int.emod_eq_of_lt (by omega) (by omega)]; simp
      · rw [show max (-(q : Int)) (min v (q - 1 : Int)) = v by omega]
theorem op_shl (W x y : Nat) : shlW W x y % 2 ^ W = (((x : Int) * 2 ^ (y % W)) % 2 ^ W).toNat % 2 ^ W := by
  unfold shlW; rw [Nat.shiftLeft_eq]; norm_cast
theorem op_shr (W x y : Nat) : shrW W x y % 2 ^ W = (((x : Int) / 2 ^ (y % W)) % 2 ^ W).toNat % 2 ^ W := by
  unfold shrW; rw [Nat.shiftRight_eq_div_pow]; norm_cast
  rw [Nat.mod_mod]
theorem op_sar (W x y : Nat) (hW : 0 < W) : sarW W x y % 2 ^ W = (((BitVec.ofNat W x).toInt / 2 ^ (y % W)) % 2 ^ W).toNat % 2 ^ W := by
  unfold sarW ofInt; rw [toSigned_eq _ _ hW]; norm_cast
theorem unary_ran {i : Instr} {s : State} {d a : BitVec 6} {k : BitVec 4} {z : BitVec 1}
    {op : Fmt → Frm → Nat → Nat × Flags} (hf : VectorFree s) (hd : d.toNat < 48)
    (hok : s.hart.et.isFloat = true) (ha : Clean s k a) 
    (he : exec i s = vecIssue i (unaryM i d a k z op) s) :
    Completes i s (Elementwise s · d.toNat s.hart.et.bytes k z (fun n => op s.hart.et.fmt s.hart.frm (s.hart.elem a.toNat s.hart.et.bytes n))) := by
  refine elementwise_ran (g' := fun n => op s.hart.et.fmt s.hart.frm (s.hart.elem a.toNat s.hart.et.bytes n))
    hf hd ?_ (fun _ => rfl) (fun _ => rfl) he
  unfold unaryM
  simp only [M.hart_bind]
  rw [if_neg (by rw [show (s.withHart (s.hart.issued i)).hart.et = s.hart.et from rfl, hok]; exact Bool.false_ne_true)]
  rw [M.bind_ok (consume_clean ?_)]
  · rfl
  · intro p hp n hn
    simp only [List.mem_singleton] at hp
    subst hp
    exact ha n hn
/-- What has written a mask, and raised flags, after it ran. -/
theorem writesMask_of {s t : State} {d : BitVec 4} {N : Nat} {f f' : Nat → Option Bool} {raised : Nat → Prop} {fl : Flags} {i : Instr}
    (hs : s.hart.queue = [] ∧ s.hart.sets = []) (hd : d.toNat < 12) (ht : t = s.withHart (((s.hart.issued i).writeMask d.toNat N f').orFlags fl).ran)
    (hf : ∀ n, n < 1024 → (if n < N then f' n else none) = f n)
    (hr : ∀ j, fl.getLsbD j = true ↔ raised j) : WritesMask s t d f raised := by
  have hran : (((s.hart.issued i).writeMask d.toNat N f').orFlags fl).ran =
      { ((s.hart.issued i).writeMask d.toNat N f').orFlags fl with queue := [], vstart := 0, rpos := 0 } :=
    Hart.popHead_empty rfl hs.2
  rw [hran] at ht
  subst ht
  refine ⟨?_, ?_, ?_⟩
  · intro r n _ hn
    refine (Hart.writeMask_bit (s.hart.issued i) d.toNat N f' r n hd hn).trans ?_
    by_cases hrd : r = d.toNat
    · rw [if_pos hrd, if_pos hrd, ← hf n hn, Nat.mul_comm]
      subst hrd
      congr 1
      split <;> rfl
    · rw [if_neg hrd, if_neg hrd]; rfl
  · intro j
    show ((((s.hart.issued i).writeMask d.toNat N f')).fflags ||| fl).getLsbD j = true ↔ _
    rw [Hart.writeMask_eq, BitVec.getLsbD_or, Bool.or_eq_true, hr]
    rfl
  · rw [State.withHart_hart]
    congr 1
    rw [Hart.writeMask_eq]
    unfold Hart.orFlags Hart.issued
    simp only [hs.1]
theorem maskPolicy_elementwise (s : State) (k : BitVec 4) (z : BitVec 1) (g : Nat → Bool) (n : Nat) :
    (if n < s.hart.vl then maskPolicy s.hart k z g n else none) = elementwise s k z false g n := by
  unfold maskPolicy elementwise Hart.active
  by_cases h1 : n < s.hart.vl
  · by_cases h2 : n < s.hart.vstart
    · simp [h1, h2]
    · simp [h1, h2, show ¬ s.hart.vl ≤ n by omega]
  · simp [h1, show s.hart.vl ≤ n by omega]
theorem flagsOf_due' (s : State) (k : BitVec 4) (g : Nat → Bool × Flags) (j : Nat) :
    (((indices (s.hart.due k) s.hart.vl).map g).foldl (fun x r => x ||| r.2) (0 : Flags)).getLsbD j = true ↔ raisedBy s k (fun n => (g n).2) j := by
  have := flagsOf_due s k (fun n => (0, (g n).2)) j
  rw [← this]
  unfold flagsOf
  rw [List.foldl_map, List.foldl_map]
theorem compare_ran {i : Instr} {ok : ET → Bool} {s : State} {d : BitVec 4} {a b : BitVec 6} {k : BitVec 4} {z f : BitVec 1}
    {op : ET → Nat → Nat → Bool × Flags} {g : Nat → Bool} {fl : Nat → Prop} (hf : VectorFree s) (hd : d.toNat < 12)
    (hok : ok s.hart.et = true) (ha : Clean s k a) (hb : f = 0 → Clean s k b)
    (hc : (capOf i s.hart).2 = if f = 1 then s.rs b else 0)
    (hg : ∀ n, (op s.hart.et (s.hart.elem a.toNat s.hart.et.bytes n) (secondOf s f b n)).1 = g n)
    (hl : ∀ j, raisedBy s k (fun n => (op s.hart.et (s.hart.elem a.toNat s.hart.et.bytes n) (secondOf s f b n)).2) j ↔ fl j)
    (he : exec i s = vecIssue i (compareM i ok d a b k z f op) s) :
    Completes i s (WritesMask s · d (elementwise s k z false g) fl) := by
  have h2 : ∀ n, operand (s.hart.issued i) (s.hart.cap i) f b s.hart.et.bytes n = secondOf s f b n := by
    intro n
    unfold operand secondOf
    split
    · rename_i h
      dsimp only [Hart.cap]
      rw [hc, if_pos h]
    · rfl
  obtain rfl : (fun n => (op s.hart.et (s.hart.elem a.toNat s.hart.et.bytes n) (secondOf s f b n)).1) = g := funext hg
  refine ⟨_, he.trans (vecIssue_free hf (s2 := s.withHart (((s.hart.issued i).writeMask d.toNat s.hart.vl (maskPolicy s.hart k z (fun n => (op s.hart.et (s.hart.elem a.toNat s.hart.et.bytes n) (secondOf s f b n)).1))).orFlags (((indices (s.hart.due k) s.hart.vl).map (fun n => op s.hart.et (s.hart.elem a.toNat s.hart.et.bytes n) (secondOf s f b n))).foldl (fun x r => x ||| r.2) (0 : Flags)))) ?_), ?_⟩
  · unfold compareM
    simp only [M.hart_bind]
    rw [if_neg (by rw [show (s.withHart (s.hart.issued i)).hart.et = s.hart.et from rfl, hok]; exact Bool.false_ne_true)]
    rw [M.bind_ok (consume_clean ?_)]
    · rw [M.setHartM_run]
      simp only [State.withHart_hart, show (s.hart.issued i).et = s.hart.et from rfl, h2]
      rfl
    · intro p hp n hn
      have hf01 : f = 1 ∨ f = 0 := by clear * -; revert f; decide
      rcases hf01 with h | h
      · rw [if_pos h] at hp
        simp only [List.mem_singleton] at hp
        subst hp
        exact ha n hn
      · rw [if_neg (by rw [h]; decide)] at hp
        simp only [List.mem_cons, List.not_mem_nil, or_false] at hp
        rcases hp with rfl | rfl
        · exact ha n hn
        · exact hb h n hn
  · exact writesMask_of ⟨hf.2.1, hf.2.2.1⟩ hd rfl (fun n _ => maskPolicy_elementwise s k z _ n) (fun j => (flagsOf_due' s k _ j).trans (hl j))
theorem scalar_ran {i : Instr} {m : Cap → M Unit} {s : State} {d : BitVec 6} {x : Word} {fl : Flags} (hf : VectorFree s)
    (hm : m (s.hart.cap i) (s.withHart (s.hart.issued i)) =
      .ok () (s.withHart (((s.hart.issued i).setS d x).orFlags fl)))
    (he : exec i s = vecIssue i m s) : Completes i s (VectorScalar s · d x fl) := by
  refine ⟨_, he.trans (vecIssue_free hf hm), ?_⟩
  have : ((s.withHart (((s.hart.issued i).setS d x).orFlags fl)).withHart ((s.withHart (((s.hart.issued i).setS d x).orFlags fl)).hart.ran))
     = ((s.withHart { s.hart with vstart := 0, rpos := 0 }).withHart { (s.withHart { s.hart with vstart := 0, rpos := 0 }).hart with fflags := s.hart.fflags ||| fl }).result d x := by
    unfold State.result State.advance State.goto State.setS
    simp only [State.withHart_hart]
    rw [Hart.ran, Hart.popHead_empty (by unfold Hart.issued Hart.orFlags Hart.setS; split <;> rfl)
      (by unfold Hart.issued Hart.orFlags Hart.setS; split <;> exact hf.2.2.1)]
    unfold Hart.issued Hart.orFlags Hart.setS
    split <;> simp only [hf.2.1] <;> rfl
  rw [this]
  exact State.result_writes _ _ _
theorem hart_orFlags0 (h : Hart) : h.orFlags 0 = h := by
  have : h.fflags ||| (0 : Flags) = h.fflags := BitVec.or_zero
  unfold Hart.orFlags; rw [this]
/-- What writes elements of one register and raises no flag. -/
theorem writes_ran {i : Instr} {m : Cap → M Unit} {s : State} {d w N : Nat} {f f' : Nat → Option Nat}
    (hf : VectorFree s) (hd : d < 48)
    (hm : m (s.hart.cap i) (s.withHart (s.hart.issued i)) =
      .ok () (s.withHart ((s.hart.issued i).writeElems d w N f')))
    (hg : ∀ n, (if n < N then f' n else none) = f n)
    (he : exec i s = vecIssue i m s) : Completes i s (WritesElems s · w (only d f) (fun _ => False)) := by
  refine ⟨_, he.trans (vecIssue_free hf hm), ?_⟩
  refine writesElems_of (fl := 0) (i := i) (N := N) (f' := f') ⟨hf.2.1, hf.2.2.1⟩ hd ?_ hg (by intro j; simp)
  rw [hart_orFlags0]; rfl
theorem elemBad_zero (h : Hart) (r b i : Nat) (hp : h.vpr r = 0) : h.elemBad r b i = false := by
  unfold Hart.elemBad; rw [hp]; simp
theorem gatherBad_false {h : Hart} {k : BitVec 4} {r w : Nat} {src : Nat → Option Nat}
    (hh : ∀ n j, h.due k n = true → src n = some j → h.elemBad r w j = false) : gatherBad h k r w src = false := by
  unfold gatherBad
  rw [Bool.and_eq_false_iff]
  right
  rw [List.any_eq_false]
  intro n _
  rw [Bool.and_eq_true]
  rintro ⟨h1, h2⟩
  cases h3 : src n with
  | none => rw [h3] at h2; exact Bool.false_ne_true h2
  | some j => rw [h3] at h2; exact Bool.false_ne_true ((hh n j h1 h3).symm.trans h2)
theorem gatherM_ok {d : BitVec 6} {r : Nat} {k : BitVec 4} {z : BitVec 1} {src : Hart → Nat → Option Nat} {t : State}
    (hh : ∀ n j, t.hart.due k n = true → src t.hart n = some j → t.hart.elemBad r t.hart.et.bytes j = false) :
    gatherM d r k z src t = .ok () (t.withHart (t.hart.mapElems d.toNat t.hart.et.bytes k z (fun n => match src t.hart n with
      | some j => t.hart.elem r t.hart.et.bytes j
      | none => 0))) := by
  unfold gatherM
  simp only [M.hart_bind]
  rw [if_neg (by rw [gatherBad_false hh]; exact Bool.false_ne_true)]
  rfl
theorem vlmax_of (s : State) (i : Instr) (t : ET) : vlmax t (s.hart.issued i).lanes = vlmaxOf s t.bytes := by
  unfold vlmax vlmaxOf; rw [Nat.mul_comm]; rfl
theorem ew_congr {s : State} {k : BitVec 4} {z : BitVec 1} {g g' : Nat → Nat} (h : ∀ n, g n = g' n) (n : Nat) :
    (if n < s.hart.vl then policy s.hart k z g n else none) = elementwise s k z 0 g' n := by
  rw [policy_elementwise, show g = g' from funext h]
/-- A vector instruction that meets a free vector unit and traps: at its own address, the entry kept. -/
theorem vecIssue_free_trap {i : Instr} {m : Cap → M Unit} {s t : State} {c : Cause} {kd : Kind} {v : Word}
    (hf : VectorFree s)
    (hm : m (s.hart.cap i) (s.withHart (s.hart.issued i)) =
      .error (.trap c kd v) t) :
    vecIssue i m s = .next (takeTrap t t.hart.id c kd v s.hart.pc t.hart.pc) := by
  rw [vecIssue_runs hf, hm]
  rfl

end Sys2Proof.Machine
end

