-- ==== Sys2Proof/Tests/Slice0.lean ====
section
/-! SUPPORT. The model's own tests: ill-formed terms the checks refuse; a word written out from the opcode table for
every constructor; small results taken from the spec; and for every statement with hypotheses a state and operands that
meet them together (the theorems named `met_…`). -/

namespace Sys2Proof.Tests

open Sys2Proof.Machine

-- One theorem at a time: each kernel evaluation would otherwise keep a thread of its own.
set_option Elab.async false

/-! ## Ill-formed terms (04 R71, R57, R90 to R99) -/

theorem test_refused_terms :
    (Instr.cnt 1 2 3).reject = some .reservedField ∧ (Instr.vadd 48 1 2 15 0 0).reject = some .badRegister ∧
    (Instr.vadd 1 2 48 15 0 0).reject = some .badRegister ∧ (Instr.vadd 1 2 3 12 0 0).reject = some .reservedField ∧
    (Instr.kop 12 0 0 0).reject = some .badRegister ∧ (Instr.vnarrow 1 24 0 15 0).reject = some .badRegister ∧
    (Instr.vld 1 2 2 15 0 0).reject = some .reservedField ∧ (Instr.vld 1 2 0 15 0 3).reject = some .reservedField ∧
    (Instr.vbcast 1 2 3 15 0 0).reject = some .mustBeZero ∧ (Instr.mclr 1000 24 5).reject = some .staticRange ∧
    (Instr.mchk 31 1).reject = some .staticRange ∧ (Instr.waitlt 1 0).reject = some .reservedField ∧
    (Instr.bar 1 0).reject = some .reservedField ∧ (Instr.amo 0 1 2 3 10 1 0 0).reject = some .reservedField := by decide

/-- The same fields one below the edge pass. -/
theorem test_accepted_terms :
    WellFormed (.cnt 1 2 2) ∧ WellFormed (.vadd 47 1 2 15 0 0) ∧ WellFormed (.vadd 1 2 48 11 0 1) ∧
    WellFormed (.kop 11 0 0 7) ∧ WellFormed (.vnarrow 1 23 0 15 0) ∧ WellFormed (.vld 1 2 1 15 0 0) ∧
    WellFormed (.mclr 1000 23 5) ∧ WellFormed (.mchk 31 0) ∧ WellFormed (.amo 0 1 2 3 10 0 0 0) := by and_intros <;> rfl

theorem test_refused_words :
    decode 0x00000000 = .error .reservedMajor ∧ decode 0x0000007F = .error .reservedMajor ∧
    decode 0xFE00006E = .error .reservedSub ∧ decode 0x80000001 = .error .mustBeZero ∧
    decode 0x00002055 = .error .oddPair ∧ decode 0x0800207E = .error .mustBeZero := by and_intros <;> rfl

/-! ## A word for every constructor, from spec/opcode_table.json: match plus fields -/

theorem test_decode_scalar :
    decode 0x00AFA501 = .ok (.add 10 61 21) ∧ decode 0x02F75C01 = .ok (.sub 56 58 30) ∧
    decode 0x058CCA81 = .ok (.mul 21 38 49) ∧ decode 0x268F0401 = .ok (.mulh 8 56 17 1) ∧
    decode 0x29D73001 = .ok (.div 32 57 58 1) ∧ decode 0x2A7BC781 = .ok (.rem 15 30 15 1) ∧
    decode 0x0C722181 = .ok (.and 3 17 14) ∧ decode 0x0FE5EA81 = .ok (.or 21 47 60) ∧
    decode 0x10277901 = .ok (.xor 50 59 4) ∧ decode 0x13164381 = .ok (.shl 7 50 34) ∧
    decode 0x148D3681 = .ok (.shr 45 41 17) ∧ decode 0x175F2401 = .ok (.sar 8 57 43) ∧
    decode 0x38770401 = .ok (.min 8 56 14 1) ∧ decode 0x3A8B2401 = .ok (.max 8 25 17 1) ∧
    decode 0x3D930B01 = .ok (.slt 22 24 50 1) ∧ decode 0x3E030A81 = .ok (.cnt 21 24 1) := by and_intros <;> rfl

theorem test_decode_immediates :
    decode 0x3DEDC482 = .ok (.addi 9 46 1981) ∧ decode 0x7D5E2683 = .ok (.andi 13 49 4011) ∧
    decode 0x00B87B04 = .ok (.ori 54 3 23) ∧ decode 0x317DAE85 = .ok (.xori 29 45 1583) ∧
    decode 0x0085C106 = .ok (.shli 2 46 16) ∧ decode 0x00AE2E07 = .ok (.shri 28 49 21) ∧
    decode 0x01FCA088 = .ok (.sari 1 37 63) ∧ decode 0xB37ECE09 = .ok (.slti 28 54 5743) ∧
    decode 0xB4FA520A = .ok (.lih 36 370642) ∧ decode 0x2B71758B = .ok (.addpc 43 88971) := by and_intros <;> rfl

theorem test_decode_scalar_float :
    decode 0x218CF48C = .ok (.sfadd 41 39 49 1) ∧ decode 0x42D0F60C = .ok (.sfsub 44 7 26 2) ∧
    decode 0x24D83B0C = .ok (.sfmul 54 1 27 1) ∧ decode 0x6778558C = .ok (.sfma 43 2 47 3) ∧
    decode 0x48410F0C = .ok (.sfdiv 30 8 8 2) ∧ decode 0x2A058A8C = .ok (.sfsqrt 21 44 1) ∧
    decode 0x4C09BE0C = .ok (.sfcvt 60 13 1 2) ∧ decode 0xAFBABC8C = .ok (.sfmm 57 21 55 1 1) ∧
    decode 0x35A7748C = .ok (.sfcmp 41 59 52 2 1) ∧ decode 0x0007400D = .ok (.spset 58) := by and_intros <;> rfl

theorem test_decode_branches :
    decode 0x34B43090 = .ok (.beq 33 33 1686) ∧ decode 0x2B11F591 = .ok (.bne 43 15 1378) ∧
    decode 0xB1904912 = .ok (.blt 18 2 5682) ∧ decode 0xEB55AB93 = .ok (.bge 23 45 7530) ∧
    decode 0xB30C6F14 = .ok (.bltu 30 35 5729) ∧ decode 0x5F221995 = .ok (.bgeu 51 16 3044) ∧
    decode 0x81981716 = .ok (.strip 46 4147) ∧ decode 0xAF668E17 = .ok (.jal 28 359220) ∧
    decode 0x4412ED18 = .ok (.jalr 26 23 2178) := by and_intros <;> rfl

theorem test_decode_scalar_memory :
    decode 0x76BF3699 = .ok (.ld 45 57 727 3) ∧ decode 0x74843C1A = .ok (.st 56 33 656 3) ∧
    decode 0x6036381B = .ok (.lds 48 49 2 1 3) ∧ decode 0x4050681C = .ok (.sts 16 3 2 1 2) ∧
    decode 0xA06AF71D = .ok (.waitval 46 23 1 1 1 5) ∧ decode 0xE3FC5EA3 = .ok (.amo 3 61 34 63 1 1 1 1) := by and_intros <;> rfl

theorem test_decode_vector_memory :
    decode 0x0000E2A4 = .ok (.setvl 5 7) ∧ decode 0x0D6AD325 = .ok (.setvli 38 27478) ∧
    decode 0x7EC40328 = .ok (.vld 6 32 24 15 1 1) ∧ decode 0x6DC27429 = .ok (.vldRaw 40 19 56 6 1 1) ∧
    decode 0x48F7542A = .ok (.vst 40 58 30 4 1) ∧ decode 0x8907C9AB = .ok (.vstRaw 19 62 32 4 2) ∧
    decode 0x65AB64AC = .ok (.vldff 9 27 53 2 1 1) ∧ decode 0x67152FAD = .ok (.vldffRaw 31 41 34 3 1 1) ∧
    decode 0xF09AC2AE = .ok (.vamo 5 6 1 19 8 1 1 1) := by and_intros <;> rfl

theorem test_decode_vector_integer :
    decode 0x6F633430 = .ok (.vadd 40 25 44 7 1 1) ∧ decode 0x659CCEB1 = .ok (.vsub 29 38 51 2 1 1) ∧
    decode 0x65757232 = .ok (.vmul 36 43 46 2 1 1) ∧ decode 0xE8B0D4B3 = .ok (.vmulh 41 6 22 4 1 1 1) ∧
    decode 0xF5B15534 = .ok (.vmin 42 10 54 10 1 1 1) ∧ decode 0xF0D432B5 = .ok (.vmax 37 33 26 8 1 1 1) ∧
    decode 0x665A0636 = .ok (.vand 12 16 11 3 1 1) ∧ decode 0x7264F5B7 = .ok (.vor 43 39 12 9 1 1) ∧
    decode 0x6E44F3B8 = .ok (.vxor 39 39 8 7 1 1) ∧ decode 0x6B80E1B9 = .ok (.vshl 3 7 48 5 1 1) ∧
    decode 0x744C74BA = .ok (.vshr 41 35 9 10 1 1) ∧ decode 0x6391A3BB = .ok (.vsar 7 13 50 1 1 1) ∧
    decode 0xE735613C = .ok (.vaddsat 2 43 38 3 1 1 1) ∧ decode 0xE20BC53D = .ok (.vsubsat 10 30 1 1 1 1 1) := by and_intros <;> rfl

theorem test_decode_vector_float :
    decode 0x724440C0 = .ok (.vfadd 1 34 8 9 1 1) ∧ decode 0x637CC5C1 = .ok (.vfsub 11 38 47 1 1 1) ∧
    decode 0x7F4D6EC2 = .ok (.vfmul 29 43 41 15 1 1) ∧ decode 0xFE8AE5C3 = .ok (.vfma 11 23 17 15 1 1 1) ∧
    decode 0x7FE4D0C4 = .ok (.vfdiv 33 38 60 15 1 1) ∧ decode 0x260095C5 = .ok (.vfsqrt 43 4 3 1) ∧
    decode 0x69ED50C6 = .ok (.vfmin 33 42 61 4 1 1) ∧ decode 0x74C164C7 = .ok (.vfmax 9 11 24 10 1 1) ∧
    decode 0x2201EA48 = .ok (.vfrcp 20 15 1 1) ∧ decode 0x300281C9 = .ok (.vfrsq 3 20 8 1) ∧
    decode 0x3004044A = .ok (.vfexp2 8 32 8 1) ∧ decode 0x3604154B = .ok (.vflog2 42 32 11 1) ∧
    decode 0xAD61F14C = .ok (.vfsgn 34 15 44 6 1 2) := by and_intros <;> rfl

theorem test_decode_masks :
    decode 0x70C59DD0 = .ok (.vcmp 11 1 1 44 24 8 1 1) ∧ decode 0xB56C5351 = .ok (.vfcmp 6 1 34 45 10 1 2) ∧
    decode 0x08384152 = .ok (.kop 2 2 7 4) ∧ decode 0x52006A52 = .ok (.kpop 20 3 9) ∧
    decode 0x8A007952 = .ok (.kfirst 50 3 5) ∧ decode 0xDE00A152 = .ok (.kmov 2 5) ∧
    decode 0x1F1D62D3 = .ok (.mtree 5 43 35) := by and_intros <;> rfl

theorem test_decode_permutes :
    decode 0x3E31B454 = .ok (.vcvt 40 13 6 15 1) ∧ decode 0x220992D5 = .ok (.vnarrow 37 6 1 1 1) ∧
    decode 0x300B8C56 = .ok (.vwiden 12 28 1 8 1) ∧ decode 0x47383058 = .ok (.vmerge 32 1 39 3 1) ∧
    decode 0x36E957D9 = .ok (.vperm 47 10 29 11 1) ∧ decode 0x68DDA9DA = .ok (.vslide 19 45 27 4 1 1) ∧
    decode 0x36004CDB = .ok (.vcompress 25 2 11 1) ∧ decode 0x2A05E7DC = .ok (.vexpand 15 47 5 1) ∧
    decode 0x3000125D = .ok (.viota 36 8 1) ∧ decode 0x75A5865E = .ok (.vbcast 12 44 52 10 1 1) ∧
    decode 0x7003F6DF = .ok (.vmovx 45 31 8 1 1) ∧ decode 0x1F4D3560 = .ok (.vext 42 41 41) ∧
    decode 0x1E160861 = .ok (.vins 16 48 2) := by and_intros <;> rfl

theorem test_decode_reductions :
    decode 0x059B07E4 = .ok (.vredsum 15 24 51 2) ∧ decode 0x89E536E5 = .ok (.vredmax 45 41 60 4 1) ∧
    decode 0x970B2CE6 = .ok (.vredmin 25 25 33 11 1) ∧ decode 0x1493A567 = .ok (.vfredsum 10 29 18 10) ∧
    decode 0x0B0A6868 = .ok (.vfredmax 16 19 33 5) ∧ decode 0x0A852D69 = .ok (.vredseq 26 41 16 5) ∧
    decode 0x7F1D496A = .ok (.vtmul 18 42 35 15 1 1) ∧ decode 0xE6010B6B = .ok (.vtconj 22 8 3 1 1 1) ∧
    decode 0x0A78F26C = .ok (.rpt 36 7 4 7 4 2) := by and_intros <;> rfl

theorem test_decode_synchronisation :
    decode 0x00800E6D = .ok (.algld 28 1) ∧ decode 0x0000006E = .ok .phase ∧ decode 0x0208006E = .ok (.fence 1) ∧
    decode 0x0400006E = .ok .yield ∧ decode 0x0600006E = .ok .join ∧ decode 0x0800006E = .ok .retire ∧
    decode 0x0A68006E = .ok (.bar 1 3) ∧ decode 0x0D78006E = .ok (.publish 15 1) ∧
    decode 0x0E6D206E = .ok (.qpush 41 13) ∧ decode 0x103757EE = .ok (.qpop 47 58 6) ∧
    decode 0x1F1EB3EF = .ok (.fork 39 63733) := by and_intros <;> rfl

theorem test_decode_lantern :
    decode 0x5D0986F0 = .ok (.mrow 781 4 2 2 1 1 2) ∧ decode 0xB39D29F1 = .ok (.mrd 595 14 3 1 1 5) ∧
    decode 0x590C93F2 = .ok (.mwr 295 6 2 1 1 2) ∧ decode 0xC03852F3 = .ok (.mclr 165 28 6) ∧
    decode 0x00193074 = .ok (.mchk 19 12) ∧ decode 0x000BE075 = .ok (.mloc 30 5) ∧
    decode 0x006B0076 = .ok (.mfix 16 53) := by and_intros <;> rfl

theorem test_decode_engines :
    decode 0x05F22F77 = .ok (.wld 14 5 57 11) ∧ decode 0x0AC3A577 = .ok (.wldff 10 52 33 5) ∧
    decode 0x10000377 = .ok (.wsel 6) ∧ decode 0x003442F8 = .ok (.xcopy 5 34 6) ∧
    decode 0x0015DC79 = .ok (.xfill 56 46 2) ∧ decode 0x00801DFA = .ok (.rcfence 59 1) ∧
    decode 0xA960007B = .ok (.waitlt 12 338) ∧ decode 0x00638C7C = .ok (.kvcommit 24 28 12) ∧
    decode 0x0030127D = .ok (.coll 36 6) := by and_intros <;> rfl

theorem test_decode_system :
    decode 0x001A3BFE = .ok (.ctlrd 55 209) ∧ decode 0x02C1117E = .ok (.ctlwr 34 1544) ∧
    decode 0x0574007E = .ok (.trap 2976) ∧ decode 0x07C1207E = .ok (.brk 3593) ∧ decode 0x0800007E = .ok .resume ∧
    decode 0x0A00007E = .ok .claim ∧ decode 0x0C861CFE = .ok (.logmark 57 1072) := by and_intros <;> rfl

/-! ## Small states -/

/-- A cached translation of a 64 KiB page: number, physical address and low entry bits. -/
def page (vpn pa flags : Nat) : TlbEntry := ⟨vpn, 0x60000 + 8 * vpn, pa + flags, 2⟩
/-- The cached entries of the two tables above the pages' table. -/
def tables : List TlbEntry := [⟨0, 0x40000, 0x50001, 0⟩, ⟨0, 0x50000, 0x60001, 1⟩]
/-- Code at 0x10000, the save area at 0x20000, and data at 0x30000 (plain) and 0x40000 (page format 5). -/
def pages : List TlbEntry :=
  tables ++ [page 1 0x100000 0x3F, page 2 0x110000 0x37, page 3 0x120000 0x37, page 4 0x130000 0x537]
/-- One context, one launch, one hart at VL 2 with ET i32. -/
def base : State :=
  { State.reset with
    hart := { bootHart with et := .i32, vl := 2 }
    slots := [(0, { Slot.initial with holder := some 0 })]
    ctxs := [(0, { bootCtx with tlb := pages })]
    launches := [(0, bootLaunch)] }
/-- The same with a change of the hart. -/
def withH (f : Hart → Hart) : State := base.withHart (f base.hart)
/-- The same with scalar register `r` holding `x`. -/
def withS (r : BitVec 6) (x : Word) : State := withH (fun h => h.setS r x)
/-- The same with a word at the PC. -/
def withWord (w : Nat) : State := pokeWord 0x100000 w base

/-- The cached leaf of an address of one of those pages. -/
theorem leaf_of {va n : Nat} {e : TlbEntry} (hv : va % 65536 = 0) (hlt : va < 0x1000000) (hn : n < 65536)
    (he : pages.find? (fun e => e.lvl == 2 && e.vpn == va / 65536) = some e) (hq : pteTable e.pte = false) :
    cachedLeaf pages (va + n) [0, 1, 2] = some e := by
  have hb : pageBits 0 = 42 ∧ pageBits 1 = 29 ∧ pageBits 2 = 16 := by decide
  have t0 : vaTag 0 (va + n) = 0 := by simp only [vaTag, hb.1]; omega
  have t1 : vaTag 1 (va + n) = 0 := by simp only [vaTag, hb.2.1]; omega
  have t2 : vaTag 2 (va + n) = va / 65536 := by simp only [vaTag, hb.2.2]; omega
  have f0 : tlbFind pages 0 (va + n) = some ⟨0, 0x40000, 0x50001, 0⟩ := by rw [tlbFind, t0]; rfl
  have f1 : tlbFind pages 1 (va + n) = some ⟨0, 0x50000, 0x60001, 1⟩ := by rw [tlbFind, t1]; rfl
  have f2 : tlbFind pages 2 (va + n) = some e := by rw [tlbFind, t2]; exact he
  have p0 : pteTable 0x50001 = true := by decide
  have p1 : pteTable 0x60001 = true := by decide
  simp [cachedLeaf, f0, f1, f2, p0, p1, hq]

/-- A range of addresses within one page meets the page's translation. -/
theorem mapped_range {s : State} {va pa n : Nat} {k : Kind} (e : TlbEntry)
    (hs : (s.ctx (ctxOf s s.hart)).scrbase = 0x40000000) (hw : (s.ctx (ctxOf s s.hart)).windows = [])
    (hc : ctxOf s s.hart / 64 = 0) (hv : va % 65536 = 0) (hlt : va < 0x1000000) (hl : e.lvl = 2) (hn : n < 65536)
    (ht : (s.ctx (ctxOf s s.hart)).tlb = pages)
    (he : pages.find? (fun e => e.lvl == 2 && e.vpn == va / 65536) = some e) (hq : pteTable e.pte = false) (hm : pteMig e.pte = false)
    (hr : k = .read → pteR e.pte = true) (hwr : k = .write → pteW e.pte = true) (hx : k = .exec → pteX e.pte = true)
    (ha : e.pte ||| 16 ||| (if k = .write then 32 else 0) = e.pte) (hp : ptePa e.pte = pa) (ho : pa % 65536 = 0) :
    Mapped s (va + n) k (pa + n) := by
  have hleaf := leaf_of hv hlt hn he hq
  refine ⟨?_, ?_, ?_, hc, e, by rw [ht]; exact hleaf, hm, hr, hwr, hx, ha, ?_⟩
  · have h1 : bitsAt (va + n) 57 7 = 0 := by unfold bitsAt; omega
    have h2 : bitsAt (va + n) 56 1 = 0 := by unfold bitsAt; omega
    simp [canonical, h1, h2]
  · have h3 : (0x40000000 : Word).toNat = 0x40000000 := rfl
    simp only [scratchOff, hs, h3]
    have : ¬ (0x40000000 ≤ va + n) := by omega
    simp [this]
  · simp [windowOf, hw]
  · have h4 : pageBits 2 = 16 := by decide
    simp only [leafPa, hp, hl, h4]
    omega

/-- An effect ends normally, with `Q`. -/
def okIs {α : Type} (r : EStateM.Result Stop State α) (Q : α → State → Bool) : Bool :=
  match r with
  | .ok a s => Q a s
  | .error _ _ => false
/-- An effect that a kernel evaluation shows to end normally with `Q` has `P` where `Q` gives it. -/
theorem ok_of {α : Type} {r : EStateM.Result Stop State α} {P : α → State → Prop} (Q : α → State → Bool)
    (h : okIs r Q = true) (hq : ∀ a s, Q a s = true → P a s) : ∃ a s1, r = .ok a s1 ∧ P a s1 := by
  cases r with
  | ok a s => exact ⟨a, s, rfl, hq a s h⟩
  | error e s => simp [okIs] at h
/-- The vector unit is free, checked. -/
def freeOk (s : State) : Bool :=
  !s.hart.frozen && s.hart.queue.isEmpty && s.hart.sets.isEmpty && !s.ahead && s.mismatch.isEmpty && !(laneBusy s)
theorem freeOk_free {s : State} (h : freeOk s = true) : VectorFree s := by
  simp only [freeOk, Bool.and_eq_true, Bool.not_eq_true', List.isEmpty_iff] at h
  obtain ⟨⟨⟨⟨⟨h1, h2⟩, h3⟩, h4⟩, h5⟩, h6⟩ := h
  exact ⟨h1, h2, h3, h4, h5, h6⟩
/-- No cache of the hart's core or die holds anything, checked; so none holds a poisoned copy. -/
def cachesOff (s : State) : Bool := (s.core s.hart.core).l1.isEmpty && s.rdc.isEmpty
theorem cachedLine_off {s : State} (h : cachesOff s = true) (vec : Bool) (pa : Nat) : cachedLine s s.hart vec pa = none := by
  simp only [cachesOff, Bool.and_eq_true, List.isEmpty_iff] at h
  simp [cachedLine, lineFor, h.1, h.2, mapGet]
theorem cleanCopy_off {s : State} (h : cachesOff s = true) (pa : Nat) : CleanCopy s pa := by
  intro vec e _ he
  rw [cachedLine_off h] at he
  cases he
theorem copyClean_off {s : State} (h : cachesOff s = true) (l : Loc) : CopyClean s l := by
  cases l
  · trivial
  · exact cleanCopy_off h _
  · trivial
/-- The span and the places of an access, checked. -/
def accessOk (s : State) (ls : List Loc) : Bool :=
  cachesOff s && !(scratchHeld (s.slot s.hart.slotId) ls) &&
    ls.all (fun l => match l with
      | .scr o => !((s.slot s.hart.slotId).scrPoison.contains (o / 64))
      | .phys pa => !(paBad s pa)
      | .dead _ => false)
theorem accessOk_free {s : State} {ls : List Loc} (h : accessOk s ls = true) :
    SpanFree s ls ∧ ∀ l ∈ ls, LocSound s l ∧ CopyClean s l := by
  simp only [accessOk, Bool.and_eq_true, List.all_eq_true] at h
  refine ⟨by simpa [SpanFree] using h.1.2, fun l hl => ⟨?_, copyClean_off h.1.1 l⟩⟩
  have h2 := h.2 l hl
  cases l <;> simp_all [LocSound]
theorem accessOk_sound {s : State} {ls : List Loc} (h : accessOk s ls = true) : ∀ l ∈ ls, LocSound s l :=
  fun l hl => ((accessOk_free h).2 l hl).1
theorem err_of {α : Type} {r : EStateM.Result Stop State α} (e : Stop)
    (h : (match r with | .ok _ _ => false | .error x _ => x == e) = true) : ∃ s1, r = .error e s1 := by
  cases r with
  | ok a s => simp at h
  | error x s => exact ⟨s, by rw [eq_of_beq h]⟩
/-- The bytes at some physical places can be read and written, checked. -/
def soundOk (s : State) (pa n : Nat) : Bool := (List.range n).all (fun i => !(paBad s (pa + i)))
theorem soundOk_sound {s : State} {pa n : Nat} (h : soundOk s pa n = true) : Sound s pa n := by
  intro i hi
  simp only [soundOk, List.all_eq_true, List.mem_range] at h
  simpa using h i hi
theorem clean_zero {s : State} {k : BitVec 4} {r : BitVec 6} {w : Nat} (h : s.hart.vpr r.toNat = 0) : CleanAt s k r w :=
  fun _ _ => elemBad_zero _ _ _ _ h
theorem vpr_none {h : Hart} (hv : h.vp = Vector.replicate 48 0) (r : Nat) : h.vpr r = 0 := by
  simp only [Hart.vpr, hv, Vector.toList_replicate, List.getD_eq_getElem?_getD, List.getElem?_replicate]
  split <;> rfl
/-- A hart without poison consumes clean elements. -/
theorem clean_all {s : State} (hv : s.hart.vp = Vector.replicate 48 0) (k : BitVec 4) (r : BitVec 6) (w : Nat) : CleanAt s k r w :=
  clean_zero (vpr_none hv _)
theorem gathers_all {s : State} (hv : s.hart.vp = Vector.replicate 48 0) (k : BitVec 4) (a w : Nat) (src : Nat → Option Nat) :
    Gathers s k a w src := fun _ _ _ _ => elemBad_zero _ _ _ _ (vpr_none hv _)

/-! ## States that meet the statements' hypotheses: encoding, steps, loads and stores -/

theorem met_DecodeInvertsEncode : WellFormed (.vadd 1 2 3 15 0 0) ∧ (Instr.vadd 1 2 3 15 0 0).hasWord = true :=
  ⟨rfl, rfl⟩
theorem met_EncodeInvertsDecode : decode 0x0838C281 = .ok (.div 5 6 7 0) := rfl
theorem met_PrintedWordsDecode : fld 0xFFFFFF7F 0 7 = 0x7F ∧ fld 0xFFFFFF00 0 7 = 0x00 := by decide
theorem met_BranchesAndJumps :
    (((withS 1 0x100).rs 1 + (0x10 : BitVec 13).signExtend 64).toNat % 4 = 0) ∧
    (((withS 1 0x102).rs 1 + (0x10 : BitVec 13).signExtend 64).toNat % 4 ≠ 0) := by decide +kernel

/-- ADDI s0, s0, 0 stands at the PC. -/
theorem met_StepRunsDecoded :
    (IssuesNext (withWord 0x02) ∧ ∃ w s1, fetchM (withWord 0x02).hart.id (withWord 0x02).hart.pc (withWord 0x02) = .ok w s1 ∧
      w = 0x02 ∧ ∃ i t, decode w = .ok i ∧ exec i s1 = .next t ∧ (t.launch s1.hart.launch).rerun = 0) ∧
    (Mapped base base.hart.pc.toNat .exec 0x100000 ∧ base.hart.pc.toNat % 4 = 0 ∧ Sound base 0x100000 4) := by
  refine ⟨⟨⟨rfl, rfl, rfl, by decide, by decide +kernel, rfl, rfl, by decide, .inl rfl, rfl⟩,
    ok_of (fun w s1 => w == 0x02 && decide ((s1.launch s1.hart.launch).rerun = 0)) (by decide +kernel) ?_⟩,
    mapped_range (n := 0) (page 1 0x100000 0x3F) rfl rfl rfl rfl (by decide) rfl (by decide) rfl rfl (by decide) rfl (by decide)
      (by decide) (by decide) rfl rfl rfl, rfl, ?_⟩
  · intro w s1 h
    simp only [Bool.and_eq_true, beq_iff_eq, decide_eq_true_eq] at h
    obtain ⟨rfl, h⟩ := h
    exact ⟨rfl, _, _, rfl, rfl, h⟩
  · unfold Sound; decide +kernel

/-- The same with s1 poisoned, which ADDI s2, s1, 1 reads; and with the code's line in the instruction cache. -/
theorem met_StepRunsDecoded_poison :
    (∀ r ∈ issueReads (withWord 0x02).hart (.addi 0 0 0), (withWord 0x02).hart.spBad r = false) ∧
    (let s := withH (fun h => { h with sp := 2 })
     (∃ r ∈ issueReads s.hart (.addi 2 1 1), s.hart.spBad r = true) ∧ illegalFirst s (.addi 2 1 1) = false ∧
       stopsFirst s (.addi 2 1 1) = false) ∧
    codeLine base base.hart (.phys 0x100000) = none ∧
    (let s := { base with cores := [(0, { Core.initial with icache := [⟨0, 0x100000, [], 0, 0⟩] })] }
     ((s.core s.hart.core).icache.find? (fun e => e.ctx == 0 && e.a == 0x100000 / 64 * 64)).any (fun e => e.bad == 0) = true) := by
  refine ⟨by decide +kernel, ⟨⟨1, ?_, rfl⟩, ?_⟩, ?_⟩
  all_goals decide +kernel

/-- A word no row names; a hart at an unmapped PC, whose root page table is empty; one at a page without X. -/
theorem met_StepTrapsAndInputs :
    (IssuesNext (withWord 0) ∧ ∃ w s1, fetchM (withWord 0).hart.id (withWord 0).hart.pc (withWord 0) = .ok w s1 ∧
      decode w = .error .reservedMajor) ∧
    (let s := withH (fun h => { h with pc := 0x90000 })
     IssuesNext s ∧ ∃ s1, fetchM s.hart.id s.hart.pc s = .error (.trap .page .exec 0x90000) s1) ∧
    (let s := withH (fun h => { h with pc := 0x30000 })
     IssuesNext s ∧ ∃ s1, fetchM s.hart.id s.hart.pc s = .error (.trap .perm .exec 0x30000) s1) ∧
    (let s := { base with inputs := [.event .snuffN], frozen := true }
     s.inputs = .event .snuffN :: [] ∧ s.frozen = true ∧ ∀ r, Input.event .snuffN ≠ .event (.reset r)) ∧
    (Instr.snuffN.hasWord = false ∧ (∀ w, Instr.snuffN ≠ .illegalOp w) ∧ (∀ p, Instr.snuffN ≠ .fetchFault p) ∧
      Instr.phase.hasWord = true ∧ base.frozen = false ∧ base.pilot = none) := by
  refine ⟨⟨⟨rfl, rfl, rfl, by decide, by decide +kernel, rfl, rfl, by decide, .inl rfl, rfl⟩,
    ok_of (fun w _ => w == 0) (by decide +kernel) ?_⟩, ⟨⟨rfl, rfl, rfl, by decide, by decide +kernel, rfl, rfl, by decide, .inl rfl, rfl⟩,
      err_of _ (by decide +kernel)⟩,
    ⟨⟨rfl, rfl, rfl, by decide, by decide +kernel, rfl, rfl, by decide, .inl rfl, rfl⟩, err_of _ (by decide +kernel)⟩, ⟨rfl, rfl, ?_⟩,
    rfl, (by intro w h; cases h), (by intro p h; cases h), rfl, rfl, rfl⟩
  · intro w s1 h
    rw [beq_iff_eq] at h
    subst h
    rfl
  · intro r h; cases h

theorem met_ResetValues : ({ base with fwNext := false } : State).fwNext = false := rfl
theorem met_StepKeepsCanonical : Canonical base ∧ ∃ t, step base = .next t := by
  refine ⟨⟨rfl, rfl⟩, _, rfl⟩

/-! ## Loads, stores and control registers -/

/-- A double at the start of a page, and the sign-extended byte just before scratch ends. -/
theorem met_LoadsRead_1 :
    (∃ a s1, locateN 0 0x30000 8 .read false base = .ok a s1 ∧ SpanFree s1 a.1 ∧ ∀ l ∈ a.1, LocSound s1 l ∧ CopyClean s1 l) ∧
    (∃ a s1, locateN 0 0x4007FFFF 1 .read false base = .ok a s1 ∧ SpanFree s1 a.1 ∧ ∀ l ∈ a.1, LocSound s1 l ∧ CopyClean s1 l) :=
  ⟨ok_of (fun a s1 => accessOk s1 a.1) (by decide +kernel) (fun _ _ h => accessOk_free h),
   ok_of (fun a s1 => accessOk s1 a.1) (by decide +kernel) (fun _ _ h => accessOk_free h)⟩
/-- A misaligned half-word, and a poisoned granule met at its last byte. -/
theorem met_LoadsRead_2 :
    ((withS 1 0x30001).rs 1 + (0 : BitVec 10).signExtend 64).toNat % 2 ^ ((1 : BitVec 3).toNat % 4) ≠ 0 ∧
    (∃ a s1, loadRaw 0 0x3003E 2 { base with poison := [0x120000 / 64] } = .ok a s1 ∧ a.2 = some 0) :=
  ⟨by decide +kernel, ok_of (fun a _ => a.2 == some 0) (by decide +kernel) (fun _ _ h => eq_of_beq h)⟩

theorem met_StoresAreSeen :
    (∃ a s1, locateN 0 0x3FFF8 8 .write false base = .ok a s1 ∧ a.1 = places 0x12FFF8 8 ∧ Sound s1 0x12FFF8 8) ∧
    (∃ a s1, locateN 0 0x4007FFF8 8 .write false base = .ok a s1 ∧ a.1 = scratchPlaces 0x7FFF8 8 ∧
      SpanFree s1 (scratchPlaces 0x7FFF8 8)) := by
  refine ⟨ok_of (fun a s1 => a.1 == places 0x12FFF8 8 && soundOk s1 0x12FFF8 8) (by decide +kernel) ?_,
    ok_of (fun a s1 => a.1 == scratchPlaces 0x7FFF8 8 && accessOk s1 (scratchPlaces 0x7FFF8 8)) (by decide +kernel) ?_⟩
  · intro a s1 h
    rw [Bool.and_eq_true] at h
    exact ⟨eq_of_beq h.1, soundOk_sound h.2⟩
  · intro a s1 h
    rw [Bool.and_eq_true] at h
    exact ⟨eq_of_beq h.1, (accessOk_free h.2).1⟩

theorem met_StrongAccessesAtHome :
    (∃ a s1, locateN 0 0x30000 8 .read true base = .ok a s1 ∧ SpanFree s1 a.1 ∧ (∀ l ∈ a.1, LocSound s1 l) ∧
      Unlogged s1) ∧
    (∃ a s1, locateN 0 0x30004 4 .write true base = .ok a s1 ∧ a.1 = places 0x120004 4 ∧ Sound s1 0x120004 4 ∧
      Unlogged s1 ∧ s1.hart.queue = []) ∧ paDevice 0x120004 = true := by
  refine ⟨ok_of (fun a s1 => accessOk s1 a.1 && (s1.ctx (ctxOf s1 s1.hart)).level == .free) (by decide +kernel) ?_,
    ok_of (fun a s1 => a.1 == places 0x120004 4 && soundOk s1 0x120004 4 && (s1.ctx (ctxOf s1 s1.hart)).level == .free &&
      s1.hart.queue == []) (by decide +kernel) ?_, rfl⟩
  · intro a s1 h
    rw [Bool.and_eq_true] at h
    exact ⟨(accessOk_free h.1).1, accessOk_sound h.1, .inl (eq_of_beq h.2)⟩
  · intro a s1 h
    simp only [Bool.and_eq_true] at h
    exact ⟨eq_of_beq h.1.1.1, soundOk_sound h.1.1.2, .inl (eq_of_beq h.1.2), eq_of_beq h.2⟩

/-- AMO on a word; WAITVAL on a double of zeros, which equals s0 and does not exceed it. -/
theorem met_AtomicsAndWaits :
    (∃ a s1, locateN 0 0x30000 4 .write true base = .ok a s1 ∧ a.1 = places 0x120000 4 ∧ Sound s1 0x120000 4 ∧
      Unlogged s1 ∧ s1.hart.queue = [] ∧ ∀ k ∈ s1.hart.kin, (s1.hartOf k.1).id = k.1 ∨ (s1.hartOf k.1).sbuf = []) ∧
    (∃ a s1, locateN 0 0x30000 8 .read true base = .ok a s1 ∧ (a.1 = places 0x120000 8 ∧ Sound s1 0x120000 8 ∧ Unlogged s1) ∧
      s1.peekN 0x120000 8 = (base.rs 0).toNat % 2 ^ 64) := by
  refine ⟨ok_of (fun a s1 => a.1 == places 0x120000 4 && soundOk s1 0x120000 4 && (s1.ctx (ctxOf s1 s1.hart)).level == .free &&
      s1.hart.queue == [] && s1.hart.kin == []) (by decide +kernel) ?_,
    ok_of (fun a s1 => a.1 == places 0x120000 8 && soundOk s1 0x120000 8 && (s1.ctx (ctxOf s1 s1.hart)).level == .free &&
      s1.peekN 0x120000 8 == (base.rs 0).toNat % 2 ^ 64) (by decide +kernel) ?_⟩
  · intro a s1 h
    simp only [Bool.and_eq_true] at h
    refine ⟨eq_of_beq h.1.1.1.1, soundOk_sound h.1.1.1.2, .inl (eq_of_beq h.1.1.2), eq_of_beq h.1.2, ?_⟩
    rw [eq_of_beq h.2]
    intro k hk
    cases hk
  · intro a s1 h
    simp only [Bool.and_eq_true] at h
    exact ⟨⟨eq_of_beq h.1.1.1, soundOk_sound h.1.1.2, .inl (eq_of_beq h.1.2)⟩, eq_of_beq h.2⟩

theorem met_ReleasesAndAcquires : paDevice 0x120000 = true ∧ devBacked 0x120000 = true := by decide

/-- An empty vector queue outside a handler; a refused number; a handler; and LOGMARK under capability 4. -/
theorem met_ControlRegisters :
    base.hart.queue = [] ∧ base.hart.frozen = false ∧
    (0x006 : BitVec 12) ∉ ([0x000, 0x001, 0x002, 0x003, 0x004, 0x005, 0x010, 0x011, 0x020] : List (BitVec 12)) ∧
    (withH (fun h => { h with frozen := true })).hart.frozen = true ∧ absent base 4 = false ∧ Unlogged base :=
  ⟨rfl, rfl, by decide, rfl, by decide +kernel, .inl rfl⟩
/-- A context that records, its log ring of 4 KiB at 0x140000. -/
def logged : State :=
  pokeWord 0x300A0 0x6000 (pokeWord 0x300C0 0x140000
    { base with ctxs := [(0, { bootCtx with tlb := pages, level := .record })] })
theorem met_ControlRegisters_log :
    absent logged 4 = false ∧ (logged.ctx (ctxOf logged logged.hart)).level = .record ∧
    (logAppend logged 0 5).isSome = true := by decide +kernel
/-- A virtual function all of whose features are masked. -/
def masked : State :=
  { base with
    ctxs := [(64, { bootCtx with tlb := pages })]
    launches := [(0, { bootLaunch with ctx := 64, fn := 1 })]
    fns := [(1, { Fn.initial with mask := 0xFE })] }
theorem met_absent : ∀ i ∈ [1, 2, 3, 4, 5, 6, 7], absent masked i = true := by decide +kernel

/-! ## Traps -/

/-- A hart in a handler. -/
def handling : State := withH (fun h => { h with trapcause := 0x8009, frozen := true })
/-- The same, its save area marked claimed. -/
def claimed : State := pokeWord 0x110000 1 handling

theorem save_mapped {s : State} {k : Kind} {n : Nat} (hc : s.ctxs = base.ctxs) (hl : s.hart.launch = 0)
    (hs : s.launches = base.launches) (hx : k ≠ .exec) (hn : n < 65536) : Mapped s (0x20000 + n) k (0x110000 + n) := by
  have hk : ctxOf s s.hart = 0 := by simp only [ctxOf, State.launch, hl, hs]; rfl
  have hcx : s.ctx 0 = { bootCtx with tlb := pages } := by simp only [State.ctx, hc]; rfl
  cases k
  · exact mapped_range (page 2 0x110000 0x37) (by rw [hk, hcx]; rfl) (by rw [hk, hcx]; rfl) (by rw [hk]) rfl (by decide)
      rfl hn (by rw [hk, hcx]) rfl rfl rfl (by decide) (by decide) (by decide) rfl rfl rfl
  · exact mapped_range (page 2 0x110000 0x37) (by rw [hk, hcx]; rfl) (by rw [hk, hcx]; rfl) (by rw [hk]) rfl (by decide)
      rfl hn (by rw [hk, hcx]) rfl rfl rfl (by decide) (by decide) (by decide) rfl rfl rfl
  · exact absurd rfl hx

theorem met_TrapsEnterTheHandler :
    base.hart.hm = false ∧ SaveArea base .write 0x110000 ∧ handling.hart.hm = true := by
  have hb : (saveBase (base.ctx (ctxOf base base.hart)) base.hart).toNat = 0x20000 := by decide +kernel
  refine ⟨rfl, ⟨by rw [hb], ?_, soundOk_sound (by decide +kernel), rfl, fun h => nomatch h⟩, by decide +kernel⟩
  intro off ho
  rw [hb]
  exact save_mapped rfl rfl rfl (by decide) (by omega)

theorem sound_of_poison {s : State} {pa n : Nat} (hp : s.poison = []) (hn : pa + n ≤ Config.backed) : Sound s pa n := by
  intro i hi
  have hb : Config.backed = 384000000000 := rfl
  have hq : bitsAt (pa + i) 50 2 = 0 := by simp only [bitsAt, Nat.shiftRight_eq_div_pow]; omega
  have h1 : paDevice (pa + i) = true := by simp [paDevice, hq]
  have h2 : devBacked (pa + i) = true := by
    simp only [devBacked, Bool.and_eq_true, decide_eq_true_eq]; exact ⟨by omega, by omega⟩
  have h3 : paPeer (pa + i) = false := by simp [paPeer, hq]
  simp [paBad, h2, h3, hp]

/-- A key that a map does not list. -/
theorem mapGet_absent {α : Type} {d : α} {m : SMap α} {k : Nat} (h : ∀ p ∈ m, p.1 ≠ k) : mapGet d m k = d := by
  induction m with
  | nil => rfl
  | cons x m ih =>
    simp only [mapGet, h x (by simp), if_false]
    exact ih (fun p hp => h p (by simp [hp]))
/-- In a handler, its save area claimed or not. -/
theorem met_ClaimAndResume :
    (∀ s ∈ ([handling, claimed] : List State), s.hart.hm = true ∧ WholeArea s 0x110000 ∧ (∀ r < 48, s.hart.vpr r = 0) ∧
      s.hart.frozen = true ∧ s.hart.queue.length ≤ 32 ∧ s.hart.lanes ≠ 0 ∧ Unlogged s) ∧
    SaveArea handling .read 0x110000 ∧ leNat (areaBytes handling 0x110000 0 8) % 2 = 0 := by
  have hb : (saveBase (base.ctx (ctxOf base base.hart)) base.hart).toNat = 0x20000 := by decide +kernel
  have hc : cachesOff handling = true := by decide +kernel
  refine ⟨?_, ⟨hb ▸ rfl, ?_, soundOk_sound (by decide +kernel), rfl, fun _ off _ => cleanCopy_off hc _⟩, by decide +kernel⟩
  · intro s hs
    have whole : ∀ s : State, (saveBase (s.ctx (ctxOf s s.hart)) s.hart).toNat = 0x20000 → s.ctxs = base.ctxs → s.hart.launch = 0 →
        s.launches = base.launches → s.poison = [] → cachesOff s = true → WholeArea s 0x110000 := by
      intro s h1 h2 h3 h4 h5 h6
      refine ⟨by rw [h1], sound_of_poison h5 (by decide), fun off ho => ?_⟩
      rw [h1]
      exact ⟨save_mapped h2 h3 h4 (by decide) ho, save_mapped h2 h3 h4 (by decide) ho, cleanCopy_off h6 _⟩
    simp only [List.mem_cons, List.not_mem_nil, or_false] at hs
    rcases hs with rfl | rfl
    all_goals
      exact ⟨by decide +kernel, whole _ (by decide +kernel) rfl rfl rfl rfl (by decide +kernel), by decide +kernel, rfl,
        by decide +kernel, by decide +kernel, .inl rfl⟩
  · intro off ho
    show Mapped handling ((saveBase (base.ctx (ctxOf base base.hart)) base.hart).toNat + off) _ _
    rw [hb]
    exact save_mapped rfl rfl rfl (by decide) (by omega)
/-- The claimed area is well formed: but for its FLAGS every byte of it is zero. -/
theorem met_ClaimAndResume_area :
    leNat (areaBytes claimed 0x110000 0 8) % 2 = 1 ∧ leNat (areaBytes claimed 0x110000 0x38 8) = 0 ∧
    saveAmiss claimed.hart (leNat (areaBytes claimed 0x110000 0 8)) (areaBytes claimed 0x110000 0x10 48) [] = false ∧
    fieldsAmiss (areaBytes claimed 0x110000 0x40 104) = false ∧
    (∀ p ∈ saveReserved, ∀ b ∈ areaBytes claimed 0x110000 p.1 p.2, b = 0) ∧ claimed.hart.kept = [] ∧ claimed.hart.keptSets = [] := by
  have hl : ∀ p ∈ claimed.l2, p.1 < 0x110004 := by decide +kernel
  refine ⟨by decide +kernel, by decide +kernel, by decide +kernel, by decide +kernel, ?_, rfl, rfl⟩
  have zero : ∀ off, 4 ≤ off → off < 0x10000 → ordinaryByte claimed claimed.hart false (0x110000 + off) = 0 := by
    intro off h4 h16
    have hq : bitsAt (0x110000 + off) 50 2 = 0 := by simp only [bitsAt, Nat.shiftRight_eq_div_pow]; omega
    have hp : homeOf claimed (0x110000 + off) = 0x110000 + off := by simp [homeOf, paPeer, hq, fnAddr]; omega
    have hn : mapGet none claimed.l2 (0x110000 + off) = none := mapGet_absent (fun p hp => by have := hl p hp; omega)
    have hs : (claimed.ctx (ctxOf claimed claimed.hart)).strict = false := by decide +kernel
    have hm : claimed.mem = [] := by decide +kernel
    have hg : pendingGet claimed claimed.hart (0x110000 + off) = none := rfl
    simp only [ordinaryByte, readByte, hs, Bool.false_eq_true, if_false, hg, cachedGet,
      cachedLine_off (by decide +kernel : cachesOff claimed = true), Option.map_none, State.peek, hn, hp, hm]
    rfl
  intro p hp b hb
  simp only [areaBytes, List.mem_map, List.mem_range] at hb
  obtain ⟨i, hi, rfl⟩ := hb
  have hr : ∀ p ∈ saveReserved, 4 ≤ p.1 ∧ p.1 + p.2 ≤ 0x10000 := by decide
  have := hr p hp
  rw [Nat.add_assoc]
  exact zero (p.1 + i) (by omega) (by omega)

/-! ## Vector instructions -/

/-- A float hart of two lane groups at VL 3. -/
def floats : State := withH (fun h => { h with et := .f32, vl := 3, lgown := 3 })
/-- The same with the scalar registers 1 and 2 set. -/
def floatsAt (x y : Word) : State := floats.withHart ((floats.hart.setS 1 x).setS 2 y)

theorem met_VectorIntegersAndBits :
    VectorFree base ∧ base.hart.et.isFloat = false ∧ (47 : BitVec 6).toNat < 48 ∧ Clean base 15 2 ∧ Clean base 3 47 ∧
    VectorFree floats ∧ floats.hart.et.isFloat = true ∧ Clean floats 15 2 :=
  ⟨freeOk_free rfl, rfl, by decide, clean_all rfl _ _ _, clean_all rfl _ _ _, freeOk_free rfl, rfl,
    clean_all rfl _ _ _⟩
theorem met_VectorFloats : VectorFree floats ∧ floats.hart.et.isFloat = true ∧ Clean floats 15 1 ∧ Clean floats 15 47 :=
  ⟨freeOk_free rfl, rfl, clean_all rfl _ _ _, clean_all rfl _ _ _⟩
theorem met_MasksWritten :
    VectorFree base ∧ (11 : BitVec 4).toNat < 12 ∧ base.hart.et.isFloat = false ∧ Clean base 15 2 ∧ VectorFree floats ∧
    floats.hart.et.isFloat = true ∧ Clean floats 15 2 ∧ absent base 6 = false ∧ base.hart.vpr (1 : BitVec 6).toNat = 0 :=
  ⟨freeOk_free rfl, by decide, rfl, clean_all rfl _ _ _, freeOk_free rfl, rfl, clean_all rfl _ _ _,
    by decide +kernel, by decide +kernel⟩
theorem met_VectorConversions :
    VectorFree base ∧ base.hart.et.wider = some .i64 ∧ base.hart.vl ≤ vlmaxOf base (ET.ofCode 7).bytes ∧
    (∀ k r w, CleanAt base k r w) ∧ VectorFree floats ∧ floats.hart.et.wider = some .f64 ∧ (∀ k r w, CleanAt floats k r w) ∧
    (23 : BitVec 5).toNat < 24 := by
  exact ⟨freeOk_free rfl, rfl, by decide +kernel, clean_all rfl, freeOk_free rfl, rfl, clean_all rfl, by decide⟩
theorem met_VectorPermutes :
    VectorFree base ∧ Clean base 15 3 ∧ (∀ src, Gathers base 15 (2 : BitVec 6).toNat base.hart.et.bytes src) ∧
    base.hart.et.isFloat = false :=
  ⟨freeOk_free rfl, clean_all rfl _ _ _, gathers_all rfl _ _ _, rfl⟩
/-- The computed register 47, and 48. -/
theorem met_VectorMoves :
    VectorFree (withS 1 47) ∧ ((withS 1 47).rs 1).toNat % 64 < 48 ∧ CleanAt (withS 1 47) 15 47 4 ∧
    VectorFree (withS 1 48) ∧ 48 ≤ ((withS 1 48).rs 1).toNat % 64 ∧ (∀ src, Gathers base 15 2 4 src) ∧
    (∀ n, base.hart.elemBad 2 4 n = false) :=
  ⟨freeOk_free rfl, by decide +kernel, clean_all rfl _ _ _, freeOk_free rfl, by decide +kernel, gathers_all rfl _ _ _,
    fun _ => elemBad_zero _ _ _ _ (vpr_none rfl _)⟩
theorem met_VectorReductions :
    VectorFree base ∧ Clean base 15 2 ∧ base.hart.et.isFloat = false ∧ VectorFree floats ∧ Clean floats 15 2 ∧
    floats.hart.et.isFloat = true :=
  ⟨freeOk_free rfl, clean_all rfl _ _ _, rfl, freeOk_free rfl, clean_all rfl _ _ _, rfl⟩

/-- An access of the data page goes to its place. -/
theorem mapped_data {s : State} {n : Nat} {k : Kind} (hc : s.ctxs = base.ctxs) (hl : s.hart.launch = 0)
    (hs : s.launches = base.launches) (hx : k ≠ .exec) (hn : n < 65536) : Mapped s (0x30000 + n) k (0x120000 + n) := by
  have hk : ctxOf s s.hart = 0 := by simp only [ctxOf, State.launch, hl, hs]; rfl
  have hcx : s.ctx 0 = { bootCtx with tlb := pages } := by simp only [State.ctx, hc]; rfl
  cases k
  · exact mapped_range (page 3 0x120000 0x37) (by rw [hk, hcx]; rfl) (by rw [hk, hcx]; rfl) (by rw [hk]) rfl (by decide)
      rfl hn (by rw [hk, hcx]) rfl rfl rfl (by decide) (by decide) (by decide) rfl rfl rfl
  · exact mapped_range (page 3 0x120000 0x37) (by rw [hk, hcx]; rfl) (by rw [hk, hcx]; rfl) (by rw [hk]) rfl (by decide)
      rfl hn (by rw [hk, hcx]) rfl rfl rfl (by decide) (by decide) (by decide) rfl rfl rfl
  · exact absurd rfl hx
theorem reaches_data {s : State} {n w : Nat} {k : Kind} (hc : s.ctxs = base.ctxs) (hl : s.hart.launch = 0)
    (hs : s.launches = base.launches) (hx : k ≠ .exec) (hn : n + w ≤ 65536) (hw : 0 < w) :
    Reaches s (0x30000 + n) w k (places (0x120000 + n) w) 0 := by
  have hk : ctxOf s s.hart = 0 := by simp only [ctxOf, State.launch, hl, hs]; rfl
  have hcx : s.ctx 0 = { bootCtx with tlb := pages } := by simp only [State.ctx, hc]; rfl
  refine .inr ⟨0x120000 + n, mapped_data hc hl hs hx (by omega), by omega, rfl, ?_⟩
  intro e he
  have h2 : cachedLeaf pages (0x30000 + n) [0, 1, 2] = some (page 3 0x120000 0x37) :=
    leaf_of (va := 0x30000) (by decide) (by decide) (by omega) rfl rfl
  rw [hk, hcx] at he
  rw [h2] at he
  cases he
  rfl
theorem places_sound {s : State} {pa n : Nat} (hp : s.poison = []) (hn : pa + n ≤ Config.backed) :
    SpanFree s (places pa n) ∧ ∀ l ∈ places pa n, LocSound s l := by
  refine ⟨?_, ?_⟩
  · simp [SpanFree, scratchHeld, places]
  · intro l hl
    simp only [places, List.mem_map, List.mem_range] at hl
    obtain ⟨i, hi, rfl⟩ := hl
    exact sound_of_poison hp hn i hi
/-- Sound places of which no cache holds a copy can be read and written unhindered. -/
theorem places_reach {s : State} {pa n : Nat} (kd : Kind) (hp : s.poison = []) (hc : cachesOff s = true) (hn : pa + n ≤ Config.backed) :
    SpanFree s (places pa n) ∧ ∀ l ∈ places pa n, LocSound s l ∧ (kd = .read → CopyClean s l) :=
  ⟨(places_sound hp hn).1, fun l hl => ⟨(places_sound hp hn).2 l hl, fun _ => copyClean_off hc l⟩⟩
theorem due_below {s : State} {k : BitVec 4} {n : Nat} (h : s.hart.due k n = true) : n < s.hart.vl := by
  simp only [Hart.due, Hart.active, Bool.and_eq_true, decide_eq_true_eq] at h
  omega

/-- Every element of a contiguous access of words to the data page reaches its place. -/
theorem met_elements {s : State} {k : BitVec 4} {kd : Kind} {b : BitVec 6} {raw : Bool} (hk : kd ≠ .exec)
    (hs : s = withS 1 0x30000) (n : Nat) (hn : s.hart.due k n = true) :
    ElementReaches s 0 1 b kd raw 0 (fun n => places (0x120000 + 4 * n) 4) n := by
  have h2 : n < 2 := by have := due_below hn; rw [hs] at this; exact this
  have hw : memWidth s raw 0 = 4 := by rw [hs]; cases raw <;> decide +kernel
  have ha : elementVa s 0 1 b 4 n = 0x30000 + 4 * n := by
    rw [hs]
    have : (withS 1 0x30000).rs 1 = 0x30000 := by decide +kernel
    simp only [elementVa, this]
    interval_cases n <;> rfl
  simp only [ElementReaches, hw, ha]
  have hb : Config.backed = 384000000000 := rfl
  have hp := places_reach (s := s) (pa := 0x120000 + 4 * n) (n := 4) kd (by rw [hs]; rfl) (by rw [hs]; rfl) (by omega)
  exact ⟨by omega, hp.1, hp.2, 0, reaches_data (by rw [hs]; rfl) (by rw [hs]; rfl) (by rw [hs]; rfl) hk (by omega) (by omega),
    fun _ => rfl⟩
theorem met_decodable {kd : Kind} (hk : kd ≠ .exec) (k : BitVec 4) (b : BitVec 6) (raw : Bool) :
    Decodable (withS 1 0x30000) k 0 1 b kd raw 0 := by
  refine ⟨by decide, fun h => absurd h (by decide), fun _ => ⟨by decide, by decide, fun n ha _ => ?_⟩⟩
  have h2 : n < 2 := by
    simp only [Hart.active, Bool.and_eq_true, decide_eq_true_eq] at ha
    exact ha.1
  have h1 : elementVa (withS 1 0x30000) 0 1 b (withS 1 0x30000).hart.et.bytes n = 0x30000 + 4 * n := by
    have : (withS 1 0x30000).rs 1 = 0x30000 := by decide +kernel
    simp only [elementVa, this]
    interval_cases n <;> rfl
  rw [h1]
  exact ⟨_, reaches_data rfl rfl rfl hk (by omega) (by omega)⟩

/-- In a handler; with a full queue; behind an older entry; with a float ET; with poison in its first element. -/
theorem met_VectorInstructionsStop_1 :
    handling.hart.frozen = true ∧ Config.queueDepth ≤ (withH (fun h => { h with queue := List.replicate 32 ⟨0, 0, 0, 0, [], [], base.hart.note⟩ })).hart.queue.length ∧
    (withH (fun h => { h with queue := [⟨0, 0, 0, 0, [], [], base.hart.note⟩] })).hart.queue ≠ [] ∧ VectorFree floats ∧
    (let s := withH (fun h => h.setVp 2 1)
     VectorFree s ∧ s.hart.et.isFloat = false ∧ s.hart.due 15 0 = true ∧ s.hart.elemBad (2 : BitVec 6).toNat s.hart.et.bytes 0 = true) :=
  ⟨rfl, by decide, by decide, freeOk_free rfl, freeOk_free rfl, rfl, by decide +kernel, by decide +kernel⟩
/-- A stride of 2 bytes from 0x30000 leaves element 1 misaligned; element 0 reaches its place. -/
theorem met_VectorInstructionsStop_2 :
    let s := withH (fun h => (h.setS 1 0x30000).setS 2 2)
    VectorFree s ∧ s.hart.due 15 1 = true ∧ elementVa s 1 1 2 s.hart.et.bytes 1 % s.hart.et.bytes ≠ 0 ∧
    ∀ n < 1, s.hart.due 15 n = true → ElementReaches s 1 1 2 .read true 0 (fun n => places (0x120000 + 4 * n) 4) n := by
  refine ⟨freeOk_free rfl, by decide +kernel, by decide +kernel, fun n hn _ => ?_⟩
  obtain rfl : n = 0 := by omega
  have hw : memWidth (withH (fun h => (h.setS 1 0x30000).setS 2 2)) true 0 = 4 := by decide +kernel
  have ha : elementVa (withH (fun h => (h.setS 1 0x30000).setS 2 2)) 1 1 2 4 0 = 0x30000 + 0 := by decide +kernel
  simp only [ElementReaches, hw, ha]
  have hp := places_reach (s := withH (fun h => (h.setS 1 0x30000).setS 2 2)) (pa := 0x120000) (n := 4) .read rfl rfl (by decide)
  exact ⟨by decide, hp.1, fun l hl => ⟨(hp.2 l hl).1, fun _ => (hp.2 l hl).2 rfl⟩, 0, reaches_data rfl rfl rfl (by decide) (by decide) (by decide), fun _ => rfl⟩
theorem met_VectorLoads (raw : Bool) :
    VectorFree (withS 1 0x30000) ∧ Decodable (withS 1 0x30000) 15 0 1 0 .read raw 0 ∧
    (∀ n, (withS 1 0x30000).hart.due 15 n = true →
      ElementReaches (withS 1 0x30000) 0 1 0 .read raw 0 (fun n => places (0x120000 + 4 * n) 4) n) ∧
    ¬ ((0 : BitVec 2) = 0 ∧ (0 : BitVec 6) = 1) :=
  ⟨freeOk_free rfl, met_decodable (by decide) _ _ _, met_elements (by decide) rfl, by decide⟩
theorem met_VectorStores (raw : Bool) (b : BitVec 6) :
    VectorFree (withS 1 0x30000) ∧ Clean (withS 1 0x30000) 15 2 ∧ Decodable (withS 1 0x30000) 15 0 1 b .write raw 0 ∧
    (∀ n, (withS 1 0x30000).hart.due 15 n = true →
      ElementReaches (withS 1 0x30000) 0 1 b .write raw 0 (fun n => places (0x120000 + 4 * n) 4) n) ∧
    (∀ va, windowOf ((withS 1 0x30000).ctx (ctxOf (withS 1 0x30000) (withS 1 0x30000).hart)) va = none) :=
  ⟨freeOk_free rfl, clean_all rfl _ _ _, met_decodable (by decide) _ _ _, met_elements (by decide) rfl, fun _ => rfl⟩
/-- Two atomic targets in a register, at 0x30000 and 0x30008. -/
theorem met_VectorAtomics :
    let s := withH (fun h => h.setV 2 (0x30000#8192 ||| (0x30008#8192 <<< 64)))
    VectorFree s ∧ s.hart.relStage = 0 ∧ Unlogged s ∧ s.hart.kin = [] ∧ (s.hart.et = .i32 ∨ s.hart.et = .i64) ∧
    ∀ n ∈ (List.range (min s.hart.vl (vlmaxOf s 8))).filter (s.hart.due 15), s.hart.elem 2 8 n % 4 = 0 ∧
      Mapped s (s.hart.elem 2 8 n) .write (0x120000 + 8 * n) ∧ Sound s (0x120000 + 8 * n) 4 ∧
      paDevice (0x120000 + 8 * n + 4) = true ∧ s.hart.elemBad 3 4 n = false ∧ s.hart.elemBad 2 8 n = false := by
  refine ⟨freeOk_free rfl, rfl, .inl rfl, rfl, .inl rfl, fun n hn => ?_⟩
  have h2 : n < 2 := by
    rw [List.mem_filter] at hn
    exact due_below hn.2
  have hv : (withH (fun h => h.setV 2 (0x30000#8192 ||| (0x30008#8192 <<< 64)))).hart.elem 2 8 n = 0x30000 + 8 * n := by
    interval_cases n <;> decide +kernel
  rw [hv]
  refine ⟨by omega, mapped_range (page 3 0x120000 0x37) rfl rfl rfl rfl (by decide) rfl (by omega) rfl rfl rfl rfl (by decide) (by decide)
    (by decide) rfl rfl rfl, sound_of_poison rfl ?_, ?_, elemBad_zero _ _ _ _ (vpr_none rfl _), elemBad_zero _ _ _ _ (vpr_none rfl _)⟩
  · have hb : Config.backed = 384000000000 := rfl
    omega
  · have : bitsAt (0x120000 + 8 * n + 4) 50 2 = 0 := by simp only [bitsAt, Nat.shiftRight_eq_div_pow]; omega
    simp [paDevice, this]

/-- The table of complex numbers (R154 to R156): two components, four entries. -/
def complexTable : List Byte :=
  [2, 2, 2, 4, 0, 0, 0, 0, 0, 1, 0, 0, 0, 0, 0, 0, 0, 0x81, 0, 0, 0, 0, 0, 0] ++ List.replicate 40 0 ++
  [0, 0, 0, 0, 0, 0, 0x80, 0x3F, 1, 1, 0, 0, 0, 0, 0x80, 0xBF, 0, 1, 1, 0, 0, 0, 0x80, 0x3F, 1, 0, 1, 0, 0, 0, 0x80, 0x3F] ++
  List.replicate 928 0
/-- A float hart at VL 4 whose slot 0 holds that table. -/
def complex : State :=
  { withH (fun h => { h with et := .f32, vl := 4 }) with
    ctxs := [(0, { bootCtx with tlb := pages, tabs := [⟨0, complexTable, some 0, 0, none⟩] })] }
theorem met_TuplesMultiply_1 :
    VectorFree complex ∧ complex.hart.et.isFloat = true ∧ absent complex 1 = false ∧
    (∃ T, tableSeen complex complex.hart 0 = some T ∧ (T.da = 2 ∧ T.db = 2 ∧ T.dc = 2)) ∧ complex.hart.vl % 2 = 0 ∧
    complex.hart.vstart % 2 = 0 ∧ complex.hart.vl / 2 * 2 ≤ vlmaxOf complex complex.hart.et.bytes ∧
    complex.hart.vpr 1 = 0 ∧ complex.hart.vpr 2 = 0 :=
  ⟨freeOk_free rfl, rfl, by decide +kernel, ⟨_, rfl, rfl, rfl, rfl⟩, by decide, by decide, by decide +kernel, vpr_none rfl _,
    vpr_none rfl _⟩
/-- The bytes of it that are not zero, in memory at 0x30000. -/
def complexCells : List (Nat × Byte) :=
  [(0, 2), (1, 2), (2, 2), (3, 4), (9, 1), (17, 0x81), (70, 0x80), (71, 0x3F), (72, 1), (73, 1), (78, 0x80), (79, 0xBF),
    (81, 1), (82, 1), (86, 0x80), (87, 0x3F), (88, 1), (90, 1), (94, 0x80), (95, 0x3F)]
def tableState : State := { withS 1 0x30000 with mem := complexCells.map (fun p => (0x120000 + p.1, p.2)) }
theorem complexTable_good : tableAmiss complexTable = none := by
  have hlow : ∀ i < 96, reservedByte complexTable 4 i = false := by decide +kernel
  have hsplit : complexTable = complexTable.take 96 ++ List.replicate 928 0 := by decide +kernel
  have hlen : (complexTable.take 96).length = 96 := by decide +kernel
  have hhigh : ∀ i, 96 ≤ i → byteAt complexTable i = 0 := by
    intro i hi
    rw [byteAt, hsplit, List.getD_append_right _ _ _ _ (by omega), hlen]
    simp only [List.getD_eq_getElem?_getD, List.getElem?_replicate]
    split <;> rfl
  have hfind : (List.range 1024).find? (reservedByte complexTable 4) = none := by
    rw [List.find?_eq_none]
    intro i _
    by_cases h : i < 96
    · simp [hlow i h]
    · have h0 := hhigh i (by omega)
      have e1 : ¬ i < 5 := by omega
      have e2 : ¬ i < 8 := by omega
      have e3 : ¬ i < 24 := by omega
      have e4 : ¬ i < 64 := by omega
      have e5 : ¬ i < 64 + 8 * 4 := by omega
      simp [reservedByte, h0, e1, e2, e3, e4, e5]
  have hn : (tableOf complexTable).nnz = 4 := by decide +kernel
  unfold tableAmiss
  simp only [hn, hfind]
  decide +kernel
theorem met_TuplesMultiply_2 :
    (∃ r s1, loadM 0 0x30000 1024 tableState = .ok r s1 ∧ (tableAmiss r = none ∧ s1.hart = tableState.hart)) ∧
    (∃ r s1, loadM 0 0x30000 1024 (withS 1 0x30000) = .ok r s1 ∧ tableAmiss r = some (1, 0)) ∧
    tableState.hart.frozen = false ∧ tableState.hart.queue = [] ∧ absent tableState 1 = false ∧
    (tableState.rs 1).toNat % 64 = 0 := by
  have go : ∀ s : State, s.ctxs = base.ctxs → s.hart.launch = 0 → s.launches = base.launches → s.poison = [] → s.hart.id = 0 → cachesOff s = true →
      loadM 0 0x30000 1024 s = .ok ((places 0x120000 1024).map (locByte s s.hart false)) s := by
    intro s hc hl hs hp hid hcc
    obtain ⟨fs, h⟩ := locateN_mapped (strong := false) (mapped_data (n := 0) (k := .read) hc hl hs (by decide) (by decide))
      (n := 1024) (by decide)
    have hsound := places_sound (pa := 0x120000) (n := 1024) hp (by decide)
    rw [← hid]
    exact loadM_ok h rfl hsound.1 hsound.2 (fun l _ => copyClean_off hcc l)
  have read : ∀ s : State, s.hart.sbuf = [] → s.hart.kin = [] → (s.ctx (ctxOf s s.hart)).strict = false →
      cachesOff s = true → s.l2 = [] →
      (places 0x120000 1024).map (locByte s s.hart false) = (List.range 1024).map (fun i => mapGet 0 s.mem (0x120000 + i)) := by
    intro s h1 h2 h3 h5 h7
    simp only [places, List.map_map]
    apply List.map_congr_left
    intro i _
    have hq : bitsAt (0x120000 + i) 50 2 = 0 := by
      simp only [bitsAt, Nat.shiftRight_eq_div_pow]; have := List.mem_range.1 ‹_›; omega
    have hp : homeOf s (0x120000 + i) = 0x120000 + i := by
      have := List.mem_range.1 ‹_›
      simp [homeOf, paPeer, hq, fnAddr]; omega
    simp [locByte, ordinaryByte, readByte, pendingGet, cachedGet, cachedLine_off h5, pendLast, mapGet, h1, h2, h3, h7, kinGet, State.peek, unwritten, hp]
  have h1 : (List.range 1024).map (fun i => mapGet 0 tableState.mem (0x120000 + i)) = complexTable := by decide +kernel
  have h2 : (List.range 1024).map (fun i => mapGet (0 : Byte) (withS 1 0x30000).mem (0x120000 + i)) = List.replicate 1024 0 := by
    have : (withS 1 0x30000).mem = [] := rfl
    rw [this]
    simp [mapGet]
  refine ⟨⟨complexTable, tableState, ?_, complexTable_good, rfl⟩, ⟨List.replicate 1024 0, withS 1 0x30000, ?_, ?_⟩, rfl, rfl,
    by decide +kernel, by decide +kernel⟩
  · rw [go tableState rfl rfl rfl rfl rfl rfl, read tableState rfl rfl rfl rfl rfl, h1]
  · rw [go (withS 1 0x30000) rfl rfl rfl rfl rfl rfl, read (withS 1 0x30000) rfl rfl rfl rfl rfl, h2]
  · decide +kernel

/-- A frame of three additions whose registers all move by one, its word behind RPT's. -/
theorem met_FramesRepeat :
    let s := pokeWord 0x100004 (encode (.vadd 1 2 3 15 0 0)).toNat base
    VectorFree s ∧ s.hart.et.isFloat = false ∧ s.hart.rpos.getLsbD 10 = false ∧ (∀ r < 48, s.hart.vpr r = 0) ∧
    Mapped s (s.hart.pc + 4).toNat .exec 0x100004 ∧ (s.hart.pc + 4).toNat % 4 = 0 ∧ Sound s 0x100004 4 ∧
    codeLine s s.hart (.phys 0x100004) = none ∧
    s.peekN 0x100004 4 = (encode (.vadd 1 2 3 15 0 0)).toNat ∧ WellFormed (.vadd 1 2 3 15 0 0) ∧
    (1 : BitVec 6).toNat + (2 : BitVec 6).toNat * (1 : BitVec 3).toNat < 48 :=
  ⟨freeOk_free rfl, rfl, rfl, fun _ _ => vpr_none rfl _,
    mapped_range (va := 0x10000) (pa := 0x100000) (n := 4) (page 1 0x100000 0x3F) rfl rfl rfl rfl (by decide) rfl (by decide)
      rfl rfl rfl rfl (by decide) (by decide) (by decide) rfl rfl rfl, rfl, sound_of_poison rfl (by decide), by decide +kernel, by decide +kernel, rfl, by decide⟩

/-! ## The Lantern and the engines -/

/-- The machine with a change of context slot 0. -/
def withSlot (f : Slot → Slot) : State := { base with slots := [(0, f { Slot.initial with holder := some 0 })] }
/-- An i8 tile of depth 16 in weight slot 0, selected, and row 5 of type i32 (row 6: f32). -/
def lantern : State :=
  { withSlot (fun x => { x with
      weights := [(0, .tile ⟨0, 0, 16, 0x0201, false⟩), (1, .tile ⟨1, 0, 16, 0x38, false⟩)]
      acc := [(5, ⟨2, false, false, false, 7⟩), (6, ⟨1, false, false, false, 0⟩)] }) with
    hart := { base.hart with tile := some 0 } }
theorem met_LanternRowsAccumulate :
    VectorFree lantern ∧ arrayBusy lantern = false ∧ lantern.hart.spBad 1 = false ∧ lantern.hart.tile = some 0 ∧ (lantern.slot 0).weight 0 = .tile ⟨0, 0, 16, 0x0201, false⟩ ∧
    pairClass 2 0 = some 4 ∧ pairExtra 2 0 = false ∧ ((lantern.slot 0).row 5).ty = 2 ∧
    32 * (2 : BitVec 2).toNat + pairCols 2 0 ≤ 128 ∧ pairSrc 2 0 2 + pairCols 2 0 ≤ tileN 0 ∧
    ((lantern.slot 0).row 5).poisoned = false ∧ (∀ i, lantern.hart.elemBad 1 (afBytes 2) i = false) ∧
    pairClass 0 1 = some 0 ∧ ((lantern.slot 0).row 6).ty = 1 ∧ (lantern.slot 0).weight 1 = .tile ⟨1, 0, 16, 0x38, false⟩ :=
  ⟨freeOk_free rfl, rfl, rfl, rfl, rfl, rfl, rfl, rfl, by decide, by decide, rfl,
    fun _ => elemBad_zero _ _ _ _ (vpr_none rfl _), rfl, rfl, rfl⟩
/-- The same with the table of complex numbers in slot 0, for tuples of the f8 tile in row 6. -/
def tuples : State :=
  { lantern with
    hart := { lantern.hart with tile := some 1 }
    ctxs := [(0, { bootCtx with tlb := pages, tabs := [⟨0, complexTable, some 0, 0, none⟩] })] }
theorem met_LanternRowsAccumulate_algebra :
    VectorFree tuples ∧ (∀ i, tuples.hart.elemBad 1 (afBytes 0) i = false) ∧ (tuples.slot 0).weight 1 = .tile ⟨1, 0, 16, 0x38, false⟩ ∧
    tableRecord tuples tuples.hart ((1 : BitVec 2).toNat - 1) = some complexTable ∧
    (arrayBusy tuples = false ∧ absent tuples 1 = false ∧ tuples.hart.tile = some 1 ∧ pairAlg 0 1 = true ∧ pairExtra 0 1 = false ∧
      ((tuples.slot 0).row 6).ty = 1 ∧ (∀ e ∈ (tableOf complexTable).entries, e.i < (tableOf complexTable).da) ∧
      tupleN (tableOf complexTable) (tileN 1) = 32 ∧ 32 * (2 : BitVec 2).toNat + 32 * (tableOf complexTable).dc ≤ 128 ∧
      ((tuples.slot 0).row 6).poisoned = false) :=
  ⟨freeOk_free rfl, fun _ => elemBad_zero _ _ _ _ (vpr_none rfl _), rfl, rfl, by decide +kernel⟩
theorem met_LanternRowsMove :
    VectorFree lantern ∧ (1000 : BitVec 10).toNat + (23 : BitVec 6).toNat < 1024 ∧ ((lantern.slot 0).row 5).ty ≠ 0 ∧
    32 * (3 : BitVec 2).toNat + lantern.hart.vl ≤ 128 ∧ lantern.hart.vl * afBytes 5 ≤ 256 * lantern.hart.lanes ∧
    (∀ r w i, lantern.hart.elemBad r w i = false) ∧ ((lantern.slot 0).row 5).poisoned = false :=
  ⟨freeOk_free rfl, by decide, by decide, by decide, by decide +kernel,
    fun _ _ _ => elemBad_zero _ _ _ _ (vpr_none rfl _), rfl⟩
/-- Region 0: rows of zero and an expectation of zero, which hold; with a change of the expectation of row 0, which does
not; region 1 has rows of no type. -/
def region (e : BitVec 1024) (v : Verdict) : State :=
  withSlot (fun x => { x with
    acc := (List.range 32).map (fun i => (i, ⟨2, false, false, false, 0⟩)), regions := [(0, { Region.initial with e := e, verdict := v })] })
/-- Regions 0 and 1 alike, of which only region 1 fails. -/
def regions : State :=
  withSlot (fun x => { x with
    acc := (List.range 64).map (fun i => (i, ⟨2, false, false, false, 0⟩)), regions := [(1, { Region.initial with e := 9 })] })
def failed (v : Verdict) : Bool := match v with | .fail _ _ _ _ => true | _ => false
theorem met_LanternChecksAndRepairs :
    (∀ e v, VectorFree (region e v)) ∧ VectorFree regions ∧
    (absent (region 0 .none) 3 = false ∧
      (∀ j < 32, ((region 0 .none).slot 0).row j = ⟨2, false, false, false, 0⟩) ∧
      verdictOf (region 0 .none).hart (foldRegion ((region 0 .none).slot 0) 0) 0 = .pass ∧
      failed (verdictOf (region 9 .none).hart (foldRegion ((region 9 .none).slot 0) 0) 0) = true ∧
      verdictOf regions.hart (foldRegion (regions.slot 0) 0) 0 = .pass ∧
      failed (verdictOf regions.hart (foldRegion (regions.slot 0) 1) 1) = true ∧
      (((region 0 .none).slot 0).row 32).ty = 0 ∧
      (((region 0 (.fail 1 2 3 (3 <<< 32))).slot 0).region 0).verdict = .fail 1 2 3 (3 <<< 32) ∧ bitList (1 : BitVec 32) = [0] ∧
      bitList (2 : BitVec 128) = [1] ∧ bitList (3 : BitVec 32) ≠ [0]) :=
  ⟨fun _ _ => freeOk_free (by decide +kernel : freeOk base = true), freeOk_free (by decide +kernel), by decide +kernel⟩

/-- A plain image of depth 16 in scratch. -/
theorem met_TileLoads :
    let s := (withS 1 0x40000000).withHart ((withS 1 0x40000000).hart.setS 2 16)
    VectorFree s ∧ (s.rs 1).toNat % 256 = 0 ∧ (s.ctx (ctxOf s s.hart)).scrbase.toNat % 65536 = 0 ∧ tileFormat 0 = true ∧
    (s.rs 2).toNat = 16 ∧ 16 % tileUnit 0 0 = 0 ∧ 16 ≤ tileMax 0 ∧ imageBytes 0 0 16 = 1024 ∧
    (∀ i < 1024, ImageByte s 0 0 ((s.rs 1).toNat + i) (.scr i)) ∧ (∀ i < 1024, LocSound s (.scr i) ∧ CopyClean s (.scr i)) ∧
    SpanFree s ((List.range 1024).map (fun i => Loc.scr i)) ∧ HasRoom s 3 false ∧ (∀ bs, metaAmiss 0 16 bs = none) ∧
    ((withS 1 0x40000080).rs 1).toNat % 256 ≠ 0 := by
  have h1 : ((((withS 1 0x40000000).withHart ((withS 1 0x40000000).hart.setS 2 16))).rs 1).toNat = 0x40000000 := by decide +kernel
  refine ⟨freeOk_free rfl, by rw [h1], by decide +kernel, rfl, by decide +kernel, by decide, by decide, by decide, ?_,
    fun _ _ => ⟨rfl, trivial⟩, rfl, ⟨by decide +kernel, by decide +kernel, fun h => absurd h (by decide)⟩, fun _ => rfl, by decide +kernel⟩
  intro i hi
  rw [h1]
  have hs : (0x40000000 : Word).toNat = 0x40000000 := rfl
  have hc : Config.scratchSize = 0x80000 := rfl
  refine .inl ⟨i, ?_, rfl, rfl, rfl⟩
  show (if (0x40000000 : Word).toNat ≤ 0x40000000 + i && 0x40000000 + i < (0x40000000 : Word).toNat + Config.scratchSize
    then some (0x40000000 + i - (0x40000000 : Word).toNat) else none) = some i
  simp only [hs, hc]
  have h2 : 0x40000000 ≤ 0x40000000 + i := by omega
  have h3 : 0x40000000 + i < 0x40000000 + 0x80000 := by omega
  simp only [h2, h3, decide_true, Bool.and_self, if_true, Option.some.injEq]
  omega

/-- A shape record of one dimension (R203). -/
def shapeRec (b f n st : Nat) : List Byte :=
  leBytes 8 b ++ [BitVec.ofNat 8 f, 1, 0, 0] ++ leBytes 4 n ++ List.replicate 16 0 ++ leBytes 8 st ++ List.replicate 24 0
/-- A KV record (R376): entries of 256 bytes at 0x30000, none accepted yet, two drafts. -/
def kvRec : List Byte := leBytes 8 0x30000 ++ leBytes 4 256 ++ leBytes 4 0 ++ leBytes 4 0 ++ leBytes 4 2 ++ List.replicate 40 0
/-- Records in the record cache: two words at 0x30100 to scratch, a shape without elements, and the KV record; s1, s2 point
to the first two, s3 to the third, s4 to the last. Element 0 of v0 is 1, at VL 1. -/
def engines : State :=
  { withSlot (fun x => { x with rcache := [(0x31000, shapeRec 0x30100 2 2 4), (0x31040, shapeRec 0x40000000 2 2 4),
      (0x31080, shapeRec 0x30100 2 0 4), (0x310C0, kvRec)] }) with
    hart := { ((((base.hart.setS 1 0x31000).setS 2 0x31040).setS 3 0x31080).setS 4 0x310C0).setV 0 1 with vl := 1 } }
def recParts (x : List Byte) : List (Nat × Nat) := (shapeAddrs x).map (fun v => (v, shapeWidth (shapeFmt x)))
def roomOk (s : State) (c : BitVec 4) (span : Bool) : Bool :=
  let ops := (s.slot s.hart.slotId).ops.filter (fun o => !o.done)
  decide (s.hart.counter c.toNat < Config.counterMax) && decide (ops.length < Config.engineMax) &&
    (!span || decide ((ops.filter (fun o => o.span.isSome)).length < Config.boardMax))
theorem roomOk_room {s : State} {c : BitVec 4} {span : Bool} (h : roomOk s c span = true) : HasRoom s c span := by
  simp only [roomOk, Bool.and_eq_true, decide_eq_true_eq] at h
  refine ⟨h.1.1, h.1.2, fun hs => ?_⟩
  have := h.2
  rw [hs] at this
  simpa using this
/-- XCOPY of the first record to the second. -/
theorem met_EnginesIssue_xcopy :
    engines.hart.counter 3 < Config.counterMax ∧ ∃ r s1, recordAt 0x31000 engines = .ok r s1 ∧ ∃ d s2, recordAt 0x31040 s1 = .ok d s2 ∧
      (copyAmiss r d = none ∧ ∃ rp s3, pagesOf .read (recParts r) s2 = .ok rp s3 ∧ ∃ wp s4, pagesOf .write (recParts d) s3 = .ok wp s4 ∧
        (s4.hart = engines.hart ∧ HasRoom s4 3 (spanOf (s4.ctx (ctxOf s4 engines.hart)) (recParts d)).isSome)) := by
  refine ⟨by decide +kernel, ok_of (fun r s1 => okIs (recordAt 0x31040 s1) (fun d s2 =>
    copyAmiss r d == none && okIs (pagesOf .read (recParts r) s2) (fun _ s3 => okIs (pagesOf .write (recParts d) s3) (fun _ s4 =>
      s4.hart == engines.hart && roomOk s4 3 (spanOf (s4.ctx (ctxOf s4 engines.hart)) (recParts d)).isSome)))) (by decide +kernel) ?_⟩
  intro r s1 h
  refine ok_of _ h (fun d s2 h => ?_)
  rw [Bool.and_eq_true] at h
  refine ⟨eq_of_beq h.1, ok_of _ h.2 (fun rp s3 h => ok_of _ h (fun wp s4 h => ?_))⟩
  rw [Bool.and_eq_true] at h
  exact ⟨eq_of_beq h.1, roomOk_room h.2⟩
/-- XCOPY of 64 words with LU set, whose line at 0x30100 the source covers whole. -/
def dropping : State :=
  { withSlot (fun x => { x with rcache := [(0x31000, (shapeRec 0x30100 2 64 4).set 10 1), (0x31040, shapeRec 0x40000000 2 64 4)] }) with
    hart := (base.hart.setS 1 0x31000).setS 2 0x31040 }
theorem met_EnginesIssue_discard :
    ∃ r s1, recordAt 0x31000 dropping = .ok r s1 ∧ ∃ d s2, recordAt 0x31040 s1 = .ok d s2 ∧
      (copyAmiss r d = none ∧ shapeLu r = true ∧ ∃ rp s3, pagesOf .read (recParts r) s2 = .ok rp s3 ∧
        ∃ lp s5, pagesOf .write ((wholeLines ((recParts r).flatMap (fun p => (List.range p.2).map (p.1 + ·)))).map
          (fun l => (l * 256, 256))) s3 = .ok lp s5 ∧
        ∃ wp s4, pagesOf .write (recParts d) s5 = .ok wp s4 ∧
          (s4.hart = dropping.hart ∧ HasRoom s4 3 (spanOf (s4.ctx (ctxOf s4 dropping.hart)) (recParts d)).isSome)) := by
  refine ok_of (fun r s1 => okIs (recordAt 0x31040 s1) (fun d s2 =>
    copyAmiss r d == none && shapeLu r && okIs (pagesOf .read (recParts r) s2) (fun _ s3 =>
      okIs (pagesOf .write ((wholeLines ((recParts r).flatMap (fun p => (List.range p.2).map (p.1 + ·)))).map
        (fun l => (l * 256, 256))) s3) (fun _ s5 => okIs (pagesOf .write (recParts d) s5) (fun _ s4 =>
      s4.hart == dropping.hart && roomOk s4 3 (spanOf (s4.ctx (ctxOf s4 dropping.hart)) (recParts d)).isSome))))) (by decide +kernel) ?_
  intro r s1 h
  refine ok_of _ h (fun d s2 h => ?_)
  simp only [Bool.and_eq_true] at h
  refine ⟨eq_of_beq h.1.1, h.1.2, ok_of _ h.2 (fun rp s3 h => ok_of _ h (fun lp s5 h => ok_of _ h (fun wp s4 h => ?_)))⟩
  rw [Bool.and_eq_true] at h
  exact ⟨eq_of_beq h.1, roomOk_room h.2⟩
/-- A source record without elements has reason 3 (R206). -/
theorem met_EnginesIssue_amiss :
    ∃ r s1, recordAt 0x31080 engines = .ok r s1 ∧ ∃ d s2, recordAt 0x31040 s1 = .ok d s2 ∧ copyAmiss r d = some (3, false) := by
  refine ok_of (fun r s1 => okIs (recordAt 0x31040 s1) (fun d _ => copyAmiss r d == some (3, false))) (by decide +kernel) ?_
  intro r s1 h
  exact ok_of _ h (fun d s2 h => eq_of_beq h)
theorem met_EnginesIssue_xfill :
    ∃ d s1, recordAt 0x31040 engines = .ok d s1 ∧ (shapeAmiss true d = none ∧ shapeCount d ≤ 2 ^ 40 ∧
      ∃ wp s4, pagesOf .write (recParts d) s1 = .ok wp s4 ∧ (s4.hart = engines.hart ∧
        HasRoom s4 3 (spanOf (s4.ctx (ctxOf s4 engines.hart)) (recParts d)).isSome)) := by
  refine ok_of (fun d s1 => shapeAmiss true d == none && decide (shapeCount d ≤ 2 ^ 40) && okIs (pagesOf .write (recParts d) s1)
    (fun _ s4 => s4.hart == engines.hart && roomOk s4 3 (spanOf (s4.ctx (ctxOf s4 engines.hart)) (recParts d)).isSome)) (by decide +kernel) ?_
  intro d s1 h
  simp only [Bool.and_eq_true] at h
  refine ⟨eq_of_beq h.1.1, of_decide_eq_true h.1.2, ok_of _ h.2 (fun wp s4 h => ?_)⟩
  rw [Bool.and_eq_true] at h
  exact ⟨eq_of_beq h.1, roomOk_room h.2⟩
/-- KVCOMMIT of draft 1 alone. -/
theorem met_EnginesIssue_kvcommit :
    absent engines 6 = false ∧ engines.hart.queue = [] ∧ (∀ r w i, engines.hart.elemBad r w i = false) ∧
    (List.range engines.hart.vl).map (fun i => engines.hart.elem 0 engines.hart.et.bytes i) = [1] ∧
    ∃ r s1, recordAt 0x310C0 engines = .ok r s1 ∧ (s1.hart = engines.hart ∧ kvAmiss r [1] = none ∧
      ∃ rp s3, pagesOf .read (kvReads r [1]) s1 = .ok rp s3 ∧
      ∃ wp s4, pagesOf .write (kvStores r 1 ++ kvDrops r 1 ++ [(0x310C0 + 16, 4)]) s3 = .ok wp s4 ∧
        (s4.hart = engines.hart ∧
          lowestFar (fun va pa => !(paDevice pa) || (windowOf (s4.ctx (ctxOf s4 engines.hart)) va).isSome) (rp ++ wp)
            (kvReads r [1] ++ (kvStores r 1 ++ kvDrops r 1) ++ [(0x310C0, 64)]) = none ∧ HasRoom s4 3 false)) := by
  refine ⟨by decide +kernel, rfl, fun _ _ _ => elemBad_zero _ _ _ _ (vpr_none rfl _), by decide +kernel,
    ok_of (fun r s1 => s1.hart == engines.hart && kvAmiss r [1] == none && okIs (pagesOf .read (kvReads r [1]) s1) (fun rp s3 =>
      okIs (pagesOf .write (kvStores r 1 ++ kvDrops r 1 ++ [(0x310C0 + 16, 4)]) s3) (fun wp s4 =>
        s4.hart == engines.hart &&
          lowestFar (fun va pa => !(paDevice pa) || (windowOf (s4.ctx (ctxOf s4 engines.hart)) va).isSome) (rp ++ wp)
            (kvReads r [1] ++ (kvStores r 1 ++ kvDrops r 1) ++ [(0x310C0, 64)]) == none && roomOk s4 3 false))) (by decide +kernel) ?_⟩
  intro r s1 h
  simp only [Bool.and_eq_true] at h
  refine ⟨eq_of_beq h.1.1, eq_of_beq h.1.2, ok_of _ h.2 (fun rp s3 h => ok_of _ h (fun wp s4 h => ?_))⟩
  simp only [Bool.and_eq_true] at h
  exact ⟨eq_of_beq h.1.1, eq_of_beq h.1.2, roomOk_room h.2⟩

/-- One operation in flight, counted on c3. -/
def flying (o : EngOp) : State :=
  { withSlot (fun x => { x with ops := [o] }) with hart := base.hart.setCounter 3 1 }
def copyOp : EngOp := { EngOp.blank .xcopy 3 with
  src := shapeRec 0x30100 2 2 4, dst := shapeRec 0x40000000 2 2 4, srcPages := [(0x30100, 0x120100)], span := some (0, 7) }
def fillOp : EngOp := { EngOp.blank .xfill 3 with dst := shapeRec 0x30100 2 2 4, dstPages := [(0x30100, 0x120100)] }
def kvOp : EngOp := { EngOp.blank .kvcommit 3 with
  src := kvRec, arg := 0x310C0, idx := [1], srcPages := [(0x30100, 0x120100)], dstPages := [(0x30000, 0x120000), (0x310D0, 0x1210D0)] }
def tileOp : EngOp := { EngOp.blank .wld 3 with src := List.replicate 1024 1, depth := 16 }
def standsOk : Loc → Bool
  | .scr _ => true
  | .phys pa => devBacked pa
  | .dead _ => false
theorem standsOk_stands {ls : List Loc} (h : ls.all standsOk = true) : ∀ l ∈ ls, Stands l := by
  intro l hl
  have := List.all_eq_true.1 h l hl
  cases l with
  | scr o => trivial
  | phys pa => simpa [standsOk, Stands] using this
  | dead a => simp [standsOk] at this
def nearOk : Loc → Bool
  | .phys pa => !(paPeer pa)
  | _ => true
/-- A place that no peer is behind answers. -/
theorem nearOk_answers {s : State} {ls : List Loc} (h : ls.all nearOk = true) : ∀ l ∈ ls, Answers s l := by
  intro l hl q hq hp
  have := List.all_eq_true.1 h l hl
  rw [hq] at this
  simp [nearOk, hp] at this
theorem met_EnginesComplete :
    (∀ o ∈ ([copyOp, fillOp, kvOp, tileOp] : List EngOp), InFlight (flying o) 0 0 o) ∧
    (copyAmiss copyOp.src copyOp.dst = none ∧ ∀ e < 2, (∀ l ∈ locsAt ((flying copyOp).ctx 0) [] (shapeAddr copyOp.dst e) 4, Stands l) ∧
      ∀ l ∈ locsAt ((flying copyOp).ctx 0) (pagesAt copyOp.srcPages) (shapeAddr copyOp.src e) 4, Answers (flying copyOp) l) ∧
    (shapeAmiss true fillOp.dst = none ∧
      ∀ e < 2, ∀ l ∈ locsAt ((flying fillOp).ctx 0) (pagesAt fillOp.dstPages) (shapeAddr fillOp.dst e) 4, Stands l) ∧
    (kvAmiss kvOp.src kvOp.idx = none ∧ kvOp.arg.toNat % 64 = 0 ∧
      (∀ k < 4, (∀ l ∈ locsAt ((flying kvOp).ctx 0) (pagesAt kvOp.dstPages) (kvEntry kvOp.src 0 + 64 * k) 64, Stands l) ∧
        ∀ l ∈ locsAt ((flying kvOp).ctx 0) (pagesAt kvOp.srcPages) (kvEntry kvOp.src 1 + 64 * k) 64, Answers (flying kvOp) l) ∧
      ∀ l ∈ locsAt ((flying kvOp).ctx 0) (pagesAt kvOp.dstPages) (0x310C0 + 16) 4, Stands l) ∧
    (∀ p ∈ ((flying tileOp).slot 0).ops, p.kind = .wld → p.wb = tileOp.wb → p.n = tileOp.n) := by
  refine ⟨?_, ⟨by decide +kernel, ?_⟩, ⟨by decide +kernel, ?_⟩, ⟨by decide +kernel, by decide, ?_, ?_⟩, ?_⟩
  · intro o ho
    simp only [List.mem_cons, List.not_mem_nil, or_false] at ho
    rcases ho with rfl | rfl | rfl | rfl
    all_goals
      refine ⟨by decide +kernel, rfl, rfl, rfl, rfl, rfl, rfl, by decide +kernel, by decide +kernel, ?_, by decide +kernel, ?_, ?_⟩
      · intro x hx; cases hx
      · intro e he; cases he
      · intro k hk; cases hk
  · intro e he
    exact ⟨standsOk_stands (by interval_cases e <;> decide +kernel), nearOk_answers (by interval_cases e <;> decide +kernel)⟩
  · intro e he
    apply standsOk_stands
    interval_cases e <;> decide +kernel
  · intro k hk
    exact ⟨standsOk_stands (by interval_cases k <;> decide +kernel), nearOk_answers (by interval_cases k <;> decide +kernel)⟩
  · exact standsOk_stands (by decide +kernel)
  · intro p hp _ _
    have : ((flying tileOp).slot 0).ops = [tileOp] := rfl
    rw [this, List.mem_singleton] at hp
    rw [hp]
/-- The same in a handler entered before the operation was issued. -/
def flyingHandler : State := { flying fillOp with hart := { (flying fillOp).hart with frozen := true } }
theorem met_FencesAndCounters :
    VectorFree base ∧ base.hart.fmarks = [] ∧ opsInFlight base base.hart = [] ∧ VectorFree (flying fillOp) ∧
    (flying fillOp).hart.fmarks = [] ∧
    (∃ n ∈ opsInFlight { flying fillOp with nextOp := 1 } (flying fillOp).hart, n < 1) ∧
    handling.hart.frozen = true ∧ (∀ n ∈ opsInFlight handling handling.hart, n < handling.hart.trapOp) ∧
    (∃ n ∈ opsInFlight flyingHandler flyingHandler.hart, flyingHandler.hart.trapOp ≤ n) ∧
    (flying fillOp).hart.counter 3 < (2 : BitVec 9).toNat ∧ (1 : BitVec 9).toNat ≤ (flying fillOp).hart.counter 3 :=
  ⟨freeOk_free rfl, rfl, by decide +kernel, freeOk_free rfl, rfl, by decide +kernel, rfl,
    by decide +kernel, by decide +kernel, by decide +kernel, by decide +kernel⟩

/-! ## Synchronisation, queues and waking -/

/-- The machine with a change of its launch. -/
def withLaunch (f : Launch → Launch) : State := { base with launches := [(0, f bootLaunch)] }
/-- The same with a change of its hart too. -/
def withBoth (f : Launch → Launch) (g : Hart → Hart) : State := { withLaunch f with hart := g base.hart }
/-- Window 0 enabled, window 1 not. -/
def windows : State :=
  { base with ctxs := [(0, { bootCtx with tlb := pages, windows :=
      [⟨0x50000, 1, true, 0, 0x140000, 0x150000⟩, ⟨0x60000, 1, false, 0, 0, 0⟩] })] }
theorem met_PhaseBoundaries :
    Unlogged windows ∧ windows.hart.queue = [] ∧ windows.hart.relStage = 0 ∧ safePoint windows windows.hart = true ∧
    (∃ w, (windows.ctx (ctxOf windows windows.hart)).windows[(0 : BitVec 5).toNat]? = some w ∧ w.en = true ∧
      windowOwed windows windows.hart w = false) ∧
    (∃ w, (windows.ctx (ctxOf windows windows.hart)).windows[(1 : BitVec 5).toNat]? = some w ∧ w.en = false) :=
  ⟨.inl rfl, rfl, rfl, by decide +kernel, ⟨_, rfl, rfl, by decide +kernel⟩, ⟨_, rfl, rfl⟩⟩

/-- Group 7 of `n` harts in group slot 0; the hart has arrived `k` times. -/
def grouped (n k : Nat) : State :=
  withBoth (fun l => { l with groups := [⟨7, 0, [(0, n, 1)]⟩], arrivals := [(7 * 2 ^ 24, k)] })
    (fun h => { h with grp := h.grp.set 0 7 })
theorem met_BarriersMeet :
    Unlogged base ∧ (∀ n k, Unlogged (grouped n k) ∧ (grouped n k).hart.groupIn 0 = 7 ∧ (grouped n k).hart.arrived = false) ∧
    (base.ahead = false ∧ base.hart.queue = [] ∧ base.hart.relStage = 0 ∧ base.hart.groupIn 0 = 0xFFFF ∧
      barMet (((grouped 1 0).launch 0).arrive 7 0) 7 1 = true ∧ barMet (((grouped 2 0).launch 0).arrive 7 0) 7 1 = false ∧
      barMet ((grouped 1 1).launch 0) 7 1 = true ∧ barMet ((grouped 2 1).launch 0) 7 1 = false) :=
  ⟨.inl rfl, fun _ _ => ⟨.inl rfl, rfl, rfl⟩, by decide +kernel⟩

/-- A hart of two lane groups, the upper one disabled. -/
def halfDisabled : State := { floats with cores := [(0, { Core.initial with laneMask := 2 })] }
/-- A hart of two lane groups; a parent of child 1, which has ended or not; a child. -/
def parent (done : Bool) : State :=
  { withH (fun h => { h with children := [1] }) with harts := [(1, { base.hart with id := 1, parent := some 0, ended := done })] }
def child : State :=
  { withH (fun h => { h with parent := some 1 }) with harts := [(1, { base.hart with id := 1, children := [0] })] }
theorem met_HartsForkAndEnd :
    Unlogged floats ∧
    (∀ d, (parent d).hart.hm = false ∧ (parent d).hart.children = [1] ∧ (parent d).hart.relStage = 0 ∧
      ((parent d).hartOf 1).id = 1 ∧ ((parent d).hartOf 1).ended = d) ∧
    (floats.hart.queue = [] ∧ floats.hart.live = true ∧ floats.hart.hm = false ∧ 1 < floats.hart.lanes ∧
      freeHartSlots floats floats.hart.slotId ≠ [] ∧
      (∀ i ∈ (laneList floats.hart.lgown).drop 1, (floats.core floats.hart.core).laneMask.getLsbD i = false) ∧
      (∃ i ∈ (laneList halfDisabled.hart.lgown).drop 1, (halfDisabled.core halfDisabled.hart.core).laneMask.getLsbD i = true) ∧
      base.hart.lanes ≤ 1 ∧ handling.hart.hm = true ∧ handling.hart.queue = []) ∧
    (child.hart.children = [] ∧ child.hart.parent = some 1 ∧ child.hart.idle = true ∧
      (∀ k ∈ child.hart.kin, (child.hartOf k.1).id = k.1 ∨ (child.hartOf k.1).sbuf = []) ∧
      (child.hartOf 1).run ≠ .parked .join) ∧
    (base.hart.parent = none ∧ base.hart.children = [] ∧ base.hart.idle = true ∧
      base.hart.stage < (base.launch base.hart.launch).stages.length ∧ (base.launch base.hart.launch).level = .free) := by
  refine ⟨.inl rfl, ?_, by decide +kernel⟩
  intro d
  exact ⟨by cases d <;> decide +kernel, rfl, rfl, rfl, rfl⟩

/-- A stage between two queues of 16-byte records at 0x30000 and 0x31000: queue 0, which feeds it, holds `m`; queue 1 holds
`n` of 4. -/
def feeding (m n : Nat) (closed : Bool) : State :=
  withBoth (fun l => { l with
      stages := [⟨0x10000, 1, 1, some 0, some 1, 1, [], false⟩]
      queues := [⟨0x30000, 16, 4, none, some 0, 0, m, 0, closed⟩, ⟨0x31000, 16, 4, some 0, none, 0, n, 0, false⟩] })
    (fun h => h.setS 1 0x38000)
theorem met_LaunchQueues :
    ((feeding 0 0 false).launch 0).stage 0 = ⟨0x10000, 1, 1, some 0, some 1, 1, [], false⟩ ∧
    (∃ a s1, locateN 0 0x38000 16 .read false (feeding 1 3 false) = .ok a s1 ∧ (SpanFree s1 a.1 ∧ a.1.length = 16 ∧
      s1.hart = (feeding 1 3 false).hart ∧ Unlogged s1 ∧
      ∃ l s2, slotLoc 0 ((((feeding 1 3 false).launch 0).queue 1).slotVa 3) .write s1 = .ok l s2 ∧
        (l = .phys 0x121030 ∧ s2.hart = s1.hart ∧ Unlogged s2 ∧ (∀ l ∈ a.1, LocSound s2 l) ∧ Sound s2 0x121030 16))) ∧
    (∃ a s1, locateN 0 0x38000 16 .write false (feeding 1 3 false) = .ok a s1 ∧ (SpanFree s1 a.1 ∧ a.1.length = 16 ∧ a.1.Nodup ∧
      s1.hart = (feeding 1 3 false).hart ∧ Unlogged s1 ∧
      ∃ l s2, slotLoc 0 ((((feeding 1 3 false).launch 0).queue 0).slotVa 0) .read s1 = .ok l s2 ∧
        (l = .phys 0x120000 ∧ s2.hart = s1.hart ∧ Unlogged s2 ∧ (∀ l ∈ a.1, LocSound s2 l) ∧ Sound s2 0x120000 16))) ∧
    ((feeding 0 4 true).launch 0).queue 0 = ⟨0x30000, 16, 4, none, some 0, 0, 0, 0, true⟩ ∧
    (((feeding 0 4 true).launch 0).queue 1).cap ≤ (((feeding 0 4 true).launch 0).queue 1).held ∧
    ((base.launch 0).stage 0).outq ≠ some 1 ∧ (feeding 0 4 true).hart.sticky = none := by
  refine ⟨rfl, ?_, ?_, rfl, by decide, by decide, rfl⟩
  · refine ok_of (fun a s1 => accessOk s1 a.1 && a.1.length == 16 && s1.hart == (feeding 1 3 false).hart &&
      (s1.ctx (ctxOf s1 s1.hart)).level == .free &&
      okIs (slotLoc 0 ((((feeding 1 3 false).launch 0).queue 1).slotVa 3) .write s1) (fun l s2 =>
        l == .phys 0x121030 && s2.hart == s1.hart && (s2.ctx (ctxOf s2 s2.hart)).level == .free && accessOk s2 a.1 &&
        soundOk s2 0x121030 16)) (by decide +kernel) ?_
    intro a s1 h
    simp only [Bool.and_eq_true] at h
    refine ⟨(accessOk_free h.1.1.1.1).1, eq_of_beq h.1.1.1.2, eq_of_beq h.1.1.2, .inl (eq_of_beq h.1.2), ok_of _ h.2 ?_⟩
    intro l s2 h
    simp only [Bool.and_eq_true] at h
    exact ⟨eq_of_beq h.1.1.1.1, eq_of_beq h.1.1.1.2, .inl (eq_of_beq h.1.1.2), accessOk_sound h.1.2, soundOk_sound h.2⟩
  · refine ok_of (fun a s1 => accessOk s1 a.1 && a.1.length == 16 && decide (a.1.Nodup) && s1.hart == (feeding 1 3 false).hart &&
      (s1.ctx (ctxOf s1 s1.hart)).level == .free &&
      okIs (slotLoc 0 ((((feeding 1 3 false).launch 0).queue 0).slotVa 0) .read s1) (fun l s2 =>
        l == .phys 0x120000 && s2.hart == s1.hart && (s2.ctx (ctxOf s2 s2.hart)).level == .free && accessOk s2 a.1 &&
        soundOk s2 0x120000 16)) (by decide +kernel) ?_
    intro a s1 h
    simp only [Bool.and_eq_true] at h
    refine ⟨(accessOk_free h.1.1.1.1.1).1, eq_of_beq h.1.1.1.1.2, of_decide_eq_true h.1.1.1.2, eq_of_beq h.1.1.2,
      .inl (eq_of_beq h.1.2), ok_of _ h.2 ?_⟩
    intro l s2 h
    simp only [Bool.and_eq_true] at h
    exact ⟨eq_of_beq h.1.1.1.1, eq_of_beq h.1.1.1.2, .inl (eq_of_beq h.1.1.2), accessOk_sound h.1.2, soundOk_sound h.2⟩

/-- The hart parked. -/
def parkedAt (p : Park) (m n : Nat) (closed : Bool) : State := { feeding m n closed with hart := { base.hart with run := .parked p } }
theorem met_ParkedHartsWake_1 :
    (∀ d, (({ parent d with hart := { (parent d).hart with run := .parked .join } } : State).hartOf 0).run = .parked .join ∧
      (({ parent d with hart := { (parent d).hart with run := .parked .join } } : State).hartOf 1).ended = d) ∧
    ((parkedAt (.qpop 0) 1 0 false).hartOf 0).run = .parked (.qpop 0) ∧
    (((parkedAt (.qpop 0) 1 0 false).launch 0).queue 0).taken < (((parkedAt (.qpop 0) 1 0 false).launch 0).queue 0).pushed ∧
    ¬ ((((parkedAt (.qpop 0) 0 0 false).launch 0).queue 0).taken < (((parkedAt (.qpop 0) 0 0 false).launch 0).queue 0).pushed) ∧
    (((parkedAt (.qpush 1) 0 3 false).launch 0).queue 1).held < (((parkedAt (.qpush 1) 0 3 false).launch 0).queue 1).cap ∧
    lineHeld base base.hart false 0 ≠ 1 ∧ base.hart.counter 3 < 1 ∧
    barMet ((grouped 1 1).launch 0) 7 1 = true ∧ barMet ((grouped 2 1).launch 0) 7 1 = false :=
  ⟨fun _ => ⟨rfl, rfl⟩, by decide +kernel⟩
/-- Two harts parked in QPOP, at cycles 0 and 1, at cycle 2,048. -/
def poppers : State :=
  { parkedAt (.qpop 0) 0 0 false with
    hart := { base.hart with run := .parked (.qpop 0), popSince := some 0 }
    harts := [(1, { base.hart with id := 1, index := 1, run := .parked (.qpop 0), popSince := some 1 })]
    cycle := 2048 }
theorem met_ParkedHartsWake_2 :
    ((poppers.launch 0).stage 0).inq = some 0 ∧ ((poppers.launch 0).queue 0).closed = false ∧ ((poppers.launch 0).queue 0).held = 0 ∧
    popParked poppers 0 0 0 = [poppers.hart, poppers.hartOf 1] ∧
    poppers.hart ∈ (popParked poppers 0 0 0).filter (fun h => h.parent.isNone && h.children.isEmpty) ∧
    (poppers.hart.popSince.getD 0 < (poppers.hartOf 1).popSince.getD 0) ∧
    poppers.hart.popSince.any (fun c => decide (c + Config.qpopRetireCycles ≤ poppers.cycle)) = true ∧
    logLevel poppers poppers.hart ≠ some .replay ∧ popParked base 0 0 0 = [] ∧ poppers.hart ∈ poppers.liveHarts ∧
    (∀ h ∈ (popParked poppers 0 0 0).filter (fun h => h.parent.isNone && h.children.isEmpty), h.popSince.isSome = true) ∧
    (let s : State := { poppers with
        hart := Hart.initial, spills := [(0, ⟨{ Slot.initial with holder := some 0 }, [poppers.hart]⟩)] }
     2 ≤ (popParked s 0 0 0).length ∧ poppers.hart ∉ s.liveHarts ∧
       poppers.hart ∈ (popParked s 0 0 0).filter (fun h => h.parent.isNone && h.children.isEmpty)) ∧
    (∀ h ∈ (popParked { poppers with cycle := 2047 } 0 0 0).filter (fun h => h.parent.isNone && h.children.isEmpty),
      ¬ h.popSince.any (fun c => decide (c + Config.qpopRetireCycles ≤ 2047)) = true) := by
  decide +kernel

/-! ## Collectives and self-tests -/

/-- An all-reduce sum of one i32 element over two ranks, this one rank 0 of communicator 0. -/
def collRec : List Byte :=
  leBytes 8 0x30100 ++ leBytes 8 0x30100 ++ leBytes 6 1 ++ [0, 2, 2, 0, 0] ++ List.replicate 37 0
def collCells : List (Nat × Byte) :=
  (([(0, 0), (1, 1), (2, 3), (8, 0), (9, 1), (10, 3), (16, 1), (23, 2), (24, 2)] : List (Nat × Byte)).filter (fun p => p.2 != 0)).map
    (fun p => (0x120000 + p.1, p.2))
/-- Two devices, with peer 1 over link 3. -/
def paired : State := { withS 1 0x30000 with mem := collCells, comms := [(0, ⟨true, [0, 1], 0⟩)] }
theorem met_Collectives_issue :
    absent paired 7 = false ∧ paired.hart.counter 3 < Config.counterMax ∧ ∃ r s1, loadM 0 0x30000 64 paired = .ok r s1 ∧
      (collAmiss s1 r = none ∧ s1.hart = paired.hart ∧
        ∃ sp s2, collPages 0 .read (chunks (collSrc r) (collInBytes r)) [] s1 = .ok sp s2 ∧
        ∃ dp s3, collPages 0 .write (chunks (collDst r) (collOutBytes r)) [] s2 = .ok dp s3 ∧
        ∃ wp s4, pagesOf .write [(0x30000 + 56, 8)] s3 = .ok wp s4 ∧
        (s3.hart = paired.hart ∧ s4.hart = paired.hart)) := by
  refine ⟨by decide +kernel, by decide +kernel, ok_of (fun r s1 => collAmiss s1 r == none && s1.hart == paired.hart &&
    okIs (collPages 0 .read (chunks (collSrc r) (collInBytes r)) [] s1) (fun _ s2 =>
      okIs (collPages 0 .write (chunks (collDst r) (collOutBytes r)) [] s2) (fun _ s3 =>
        okIs (pagesOf .write [(0x30000 + 56, 8)] s3) (fun _ s4 => s3.hart == paired.hart && s4.hart == paired.hart))))
    (by decide +kernel) ?_⟩
  intro r s1 h
  simp only [Bool.and_eq_true] at h
  refine ⟨eq_of_beq h.1.1, eq_of_beq h.1.2, ok_of _ h.2 (fun sp s2 h => ok_of _ h (fun dp s3 h => ok_of _ h (fun wp s4 h => ?_)))⟩
  rw [Bool.and_eq_true] at h
  exact ⟨eq_of_beq h.1, eq_of_beq h.2⟩
def collFlight : CollOp where
  n := 0
  comm := 0
  hart := 0
  ctx := 0
  counter := 3
  recA := 0x30000
  record := collRec
  srcPages := [(0x30100, 0x120100)]
  dstPages := [(0x30000, 0x120000)]
  acq := 0
  seq := 0
  tol := 0
  done := false
  away := false
  status := 0
  home := 0
/-- It in flight; link 3 down for 10 ms. -/
def inRing : State :=
  { paired with
    hart := base.hart.setCounter 3 1
    colls := [collFlight]
    fns := [(0, { Fn.initial with peers := [(1, ⟨true, 8, 0, false, false⟩)] })]
    linksDown := [(3, 0)]
    cycle := 6000000 }
/-- Rank 1's part, and one of another element type. -/
def partner (et : Nat) : CollPart := ⟨1, 0, et, 1, 2, [5, 0, 0, 0]⟩
theorem met_Collectives_complete :
    (∀ i, ∀ p ∈ (inRing.slot i).ops, p.n ≠ 0) ∧
    (∀ l ∈ locsAt (inRing.ctx 0) (pagesAt collFlight.dstPages) (0x30000 + 56) 8, Stands l) ∧
    (∀ l ∈ locsAt (inRing.ctx 0) (pagesAt collFlight.dstPages) 0x30100 4, Stands l) ∧
    (collNext inRing 0 = some collFlight ∧ collFlight.away = false ∧ (inRing.hartOf 0).live = true ∧
      ctxOf inRing (inRing.hartOf 0) = 0 ∧ collFlight.hart ≠ 4096 ∧
      (∀ k ∈ (inRing.hartOf 0).kin, (inRing.hartOf k.1).id = k.1 ∨ (inRing.hartOf k.1).sbuf = []) ∧
      (∀ e ∈ (inRing.fn 0).s2, e.op ≠ some 0) ∧ countedOps inRing 0 3 = [(0, false)] ∧
      collAgree collRec [partner 2] = true ∧ collWhole collRec [partner 2] = true ∧
      (collReduce collFlight [0, 0, 0, 0] [partner 2]).2 = [] ∧ (collReduce collFlight [0, 0, 0, 0] [partner 2]).1 = [5] ∧
      collDst collRec % collWidth (collEt collRec) = 0 ∧
      (∀ l ∈ locsAt (inRing.ctx 0) (pagesAt collFlight.srcPages) 0x30100 4,
        locBad inRing { inRing.hartOf 0 with lastAcq := 0 } true l = false) ∧
      collAgree collRec [partner 3] = false ∧ commLost inRing collFlight = true) := by
  refine ⟨?_, standsOk_stands (by decide +kernel), standsOk_stands (by decide +kernel), by decide +kernel⟩
  intro i p hp
  have : (inRing.slot i).ops = [] := by
    simp only [State.slot, inRing, paired, withS, withH, State.withHart, base, mapGet]
    split <;> rfl
  rw [this] at hp
  cases hp

/-- A hart in a lane self-test (with three transients of its lane behind it, with another to follow, and after one that
failed), in a column self-test, and on the log. -/
def testing (ts : List (Nat × Nat)) (more fails : List (Nat × Nat × Nat)) : State :=
  { withH (fun h => { h with run := .parked (.laneTest ((0, 2, 5) :: more) fails) }) with cores := [(0, { Core.initial with transients := ts })] }
def columns (spares : Nat) : State :=
  { region 0 (.fail 1 2 3 (3 <<< 32)) with
    hart := { base.hart with run := .parked (.columnTest 0 1 [1]) }, cores := [(0, { Core.initial with spares := spares })] }
theorem met_SelfTestsEnd :
    (∀ ts more fails, ((testing ts more fails).hartOf 0).run = .parked (.laneTest ((0, 2, 5) :: more) fails)) ∧
    ((((testing [(2, 0), (2, 0), (2, 0)] [] []).core 0).transients.filter (fun t => decide (0 < t.2 + 10000 * Config.cyclesPerMicrosecond))).filter
      (fun t => t.1 == 2)).length = 3 ∧
    ((columns 1).hartOf 0).run = .parked (.columnTest 0 1 [1]) ∧
    ((columns 1).core 0).spares ≠ 0 ∧ ((columns 0).core 0).spares = 0 ∧
    (let s : State := { State.reset with cores := [(3, { Core.initial with badColumn := true })] }
     (s.core 3).badColumn = true ∧ (s.core 3).outOfService = false ∧ ∀ h ∈ s.allHarts, h.core ≠ 3) ∧
    (let s : State := { withH (fun h => { h with run := .parked (.log 0 0) }) with cycle := 6000 }
     (s.ctx 0).stallSent = false ∧ ∃ t ∈ stallWaits s 0 0, t + 10 * Config.cyclesPerMicrosecond ≤ s.cycle) ∧
    (let s : State := { withH (fun h => { h with run := .parked (.log 1 0) }) with cycle := 6000 }
     (∀ h ∈ s.liveHarts, ctxOf s h = 0 → stallOf 1 h ≠ some reported) ∧
     ∃ h ∈ s.liveHarts, ctxOf s h = 0 ∧ ∃ t, h.run = .parked (.log 1 t) ∧ t + 10 * Config.cyclesPerMicrosecond ≤ s.cycle) := by
  refine ⟨fun _ _ _ => rfl, by decide +kernel, rfl, by decide, by decide, ⟨rfl, rfl, by decide +kernel⟩, ⟨rfl, by decide +kernel⟩, ?_⟩
  exact ⟨by decide +kernel, { base.hart with run := .parked (.log 1 0) }, by decide +kernel, by decide +kernel, 0, rfl, by decide⟩

/-! ## Commands, packets and slots -/

/-- Memory of zeros, read by the physical function. -/
theorem agentRead_zero {s : State} {a n : Nat} (hm : s.mem = []) (h2 : s.l2 = []) (hp : s.poison = [])
    (hn : a + n ≤ Config.backed) :
    agentRead s 0 a n = some (List.replicate n 0) := by
  have hb : Config.backed = 384000000000 := rfl
  have one : ∀ i < n, (match agentPa s 0 (a + i) .read with
      | some pa => if paBad s pa then none else some (s.peek pa)
      | none => none) = some (0 : Byte) := by
    intro i hi
    have h1 : agentPa s 0 (a + i) .read = some (a + i) := by simp [agentPa, stage2Of, lineAddr]; omega
    have h4 : paBad s (a + i) = false := sound_of_poison hp hn i hi
    simp [h1, h4, State.peek, hm, h2, mapGet, unwritten]
  have two : ∀ m, m ≤ n → ∀ l : List Nat, (∀ i ∈ l, i < n) → l.length = m → l.mapM (fun i =>
      match agentPa s 0 (a + i) .read with
      | some pa => if paBad s pa then none else some (s.peek pa)
      | none => none) = some (List.replicate m (0 : Byte)) := by
    intro m _ l
    induction l generalizing m with
    | nil => intro _ h; subst h; rfl
    | cons x t ih =>
      intro hx h
      rw [List.mapM_cons, one x (hx x (by simp)), ih t.length (by simp at h; omega) (fun i hi => hx i (by simp [hi])) rfl]
      subst h
      rfl
  exact two n (Nat.le_refl n) (List.range n) (fun i hi => List.mem_range.1 hi) (by simp)

theorem numAt_zero (i n m : Nat) : numAt (List.replicate m 0) i n = 0 := by
  have h : ∀ k, leNat (List.replicate k (0 : Byte)) = 0 := by
    intro k
    induction k with
    | zero => rfl
    | succ k ih => rw [List.replicate_succ, leNat, ih]; rfl
  simp only [numAt, List.drop_replicate, List.take_replicate, h]
/-- No context but context 0, which has no launch or queue; and a parked access to a migrating page. -/
def idleCtx : State := { base with launches := [], hart := Hart.initial }
def migrating : State := withH (fun h => { h with run := .parked (.mig 0x30000) })
theorem met_ContextCommands :
    agentRead base 0 0x200000 4096 = some (List.replicate 4096 0) ∧ recordAmiss (List.replicate 4096 0) = false ∧
    (∀ p ∈ (idleCtx.fn 0).queues, p.2.st ≠ .disabled → p.2.ctx ≠ 0) ∧ (migrating.hartOf 0).run = .parked (.mig 0x30000) ∧
    (base.frozen = false ∧ base.pilot = none ∧ (base.fn 0).inval = none ∧ (base.ctx 62).live = false ∧
      contextsOf base 0 < (base.fn 0).maxctx ∧ (base.ctxs.filter (fun p => p.2.live)).length < Config.contextMax ∧
      paDevice 0x200000 = true ∧ (agentWrite base 0 (0x200000 + 0xA2) [0]).isSome = true ∧ (base.ctx 0).live = true ∧
      contextBusy base 0 = true ∧ contextBusy idleCtx 0 = false ∧ (0x30000 / 65536 % 2 ^ 41 + 2 ^ 41 - 3) % 2 ^ 41 < 1) := by
  refine ⟨agentRead_zero rfl rfl rfl (by decide), ?_, ?_, rfl, by decide +kernel⟩
  · simp only [recordAmiss, numAt_zero]
    decide
  · intro p hp
    cases hp
/-- A collective that holds page 3 while INVAL_S1 of it is given; a command held by an earlier one; the pilot-light state. -/
theorem met_ContextCommands_waits :
    let s := { inRing with nextOp := 1 }
    ((∃ o ∈ s.colls, o.ctx = 0 ∧ o.done = false ∧ o.n < s.nextOp ∧ ∃ p ∈ o.srcPages, vpnIn 3 1 (p.1 / 65536 % 2 ^ 41) = true) ∧
      (∀ p ∈ s.slots, p.2.holder = some 0 → ∀ o ∈ p.2.ops, o.done = true) ∧ (s.fn 0).inval = none) ∧
    (({ base with fns := [(0, { Fn.initial with inval := some (0, 3, 1, 1) })] } : State).fn 0).inval.isSome = true ∧
    ({ base with pilot := some 2 } : State).pilot.isSome = true := by decide +kernel
/-- An open stage-2 event 4 of virtual function 1. -/
def faulted : State :=
  { State.reset with fns := [(1, { Fn.initial with s2 := [⟨4, 0, none, false, 0x30000, 0x30000, .read, false⟩] })] }
theorem met_FunctionCommands :
    contextsOf State.reset 1 = 0 ∧ agentRead State.reset 0 0x200000 256 = some (List.replicate 256 0) ∧
    (State.reset.fn 1).inval = none ∧ (let r : List Byte := List.replicate 8 0 ++ leBytes 4 100 ++ [8] ++ List.replicate 27 0 ++ [12] ++ List.replicate 215 0
     fnAmiss 1 r = false) ∧
    paDevice 0x200000 = true ∧ (∀ e ∈ State.reset.l2, fnAddr e.1 ≠ 1) ∧
    agentNum State.reset 0 0x1000 8 = some 0 ∧ (2047 : Nat) < Config.vectorsOf 0 ∧ eventOwner State.reset 4 = none ∧
    eventOwner faulted 4 = some 1 := by
  refine ⟨rfl, agentRead_zero rfl rfl rfl (by decide), rfl, by decide +kernel, rfl, by decide +kernel, by decide +kernel, by decide, rfl,
    by decide +kernel⟩
/-- The descriptor of queue 0 of the physical function: a ring of 4 KiB at 0x300000, its head and tail at 0x1000 and 0x1008,
context 0, vector 0. -/
def described : State :=
  { base with mem := [(0x101, 0x60), (0x10A, 0x30), (0x110, 8), (0x111, 0x10), (0x119, 0x10)] }
theorem met_DeviceCommands :
    (described.queue 0 0).st = .disabled ∧ (∃ d, agentRead described 0 (descriptorAt described 0 0) 32 = some d ∧
      leNat d / 2 ^ 1 % 2 ^ 4 = 0 ∧ leNat d / 2 ^ 11 % 2 ^ 5 = 12 ∧ leNat d / 2 ^ 24 % 2 ^ 8 = 0 ∧ leNat d / 2 ^ 192 % 2 ^ 64 = 0x1000) ∧
    (described.ctx 0).live = true ∧ agentNum described 0 0x1000 8 = some 0 ∧ devBacked (descriptorAt described 0 0) = true ∧
    (∃ h ∈ base.allHarts, h.core = 0) ∧ (∀ h ∈ base.allHarts, h.core ≠ 1) ∧ (∃ l ∈ base.launches, l.2.fn = 0) ∧
    (∀ l ∈ base.launches, l.2.fn ≠ 1) := by
  refine ⟨rfl, ?_, rfl, by decide +kernel, by decide, ⟨base.hart, by decide +kernel, rfl⟩, by decide +kernel, by decide, by decide⟩
  cases h : agentRead described 0 (descriptorAt described 0 0) 32 with
  | none => exact absurd h (by decide +kernel)
  | some d =>
    have : (agentRead described 0 (descriptorAt described 0 0) 32).all (fun d => leNat d / 2 ^ 1 % 2 ^ 4 == 0 &&
        leNat d / 2 ^ 11 % 2 ^ 5 == 12 && leNat d / 2 ^ 24 % 2 ^ 8 == 0 && leNat d / 2 ^ 192 % 2 ^ 64 == 0x1000) = true := by
      decide +kernel
    rw [h] at this
    simp only [Option.all_some, Bool.and_eq_true, beq_iff_eq] at this
    exact ⟨d, rfl, this.1.1.1, this.1.1.2, this.1.2, this.2⟩
theorem met_CapabilityChain :
    (let s : State := { base with inputs := [.chainRead 1 32 16] }
     s.inputs = .chainRead 1 32 16 :: [] ∧ s.frozen = false ∧ s.pilot = none ∧ (s.fn 0).mask = 0 ∧ 1 < (capIds s 1).length) ∧
    (let s : State := { base with inputs := [.chainRead 0 0 16], pilot := some 3 }
     s.inputs = .chainRead 0 0 16 :: [] ∧ s.frozen = false ∧ s.pilot.isSome = true) := by
  refine ⟨⟨rfl, rfl, rfl, rfl, by decide +kernel⟩, rfl, rfl, rfl⟩
theorem met_FirmwareUpdates :
    State.reset.frozen = false ∧ State.reset.fwOpen = none ∧ ({ State.reset with fwOpen := some 4096 } : State).fwOpen = some 4096 ∧
    4088 % 8 = 0 ∧ [(0 : Byte)].length ≤ 4080 ∧ 4088 + [(0 : Byte)].length ≤ 4096 :=
  ⟨rfl, rfl, rfl, rfl, by decide, by decide⟩

/-- A NOP packet with SEQ 0, sealed. -/
def nopPacket : List Byte :=
  let b : List Byte := [0, 1] ++ List.replicate 54 0
  b ++ leBytes 4 (crc32c (b ++ leBytes 4 0)) ++ leBytes 4 0
/-- Queue 0, whose ring at 0x300000 holds it; head word at 0x1000, tail word at 0x1008. -/
def ringed (p : List Byte) (tail fails : Nat) : State :=
  { base with
    mem := (if tail = 0 then [] else [(0x1008, BitVec.ofNat 8 tail)]) ++ (withAddr 0x300000 p).filter (fun p => p.2 != 0)
    fns := [(0, { Fn.initial with queues := [(0, { HostQueue.initial with
      st := .idle, headA := 0x1000, tailA := 0x1008, base := 0x300000, fails := fails })] })] }
/-- The same, its attempt made and nothing changed since. -/
def asleep : State :=
  let s := ringed nopPacket 64 0
  s.setQueue 0 0 { s.queue 0 0 with seen := some (queueSight s 0 (s.queue 0 0) false) }
theorem met_QueueAttempts :
    ((ringed nopPacket 64 0).queue 0 0).st = .idle ∧ queueWoken (ringed nopPacket 64 0) 0 ((ringed nopPacket 64 0).queue 0 0) = true ∧
    (asleep.queue 0 0).st = .idle ∧ queueWoken asleep 0 (asleep.queue 0 0) = false ∧
    (agentRead (ringed nopPacket 64 0) 0 0x1000 8).isSome = true ∧
 agentNum (ringed nopPacket 64 0) 0 0x1008 8 = some 64 ∧
    agentNum (ringed [] 0 0) 0 0x1008 8 = some 0 ∧
    ringRead (ringed nopPacket 64 0) 0 ((ringed nopPacket 64 0).queue 0 0) 64 = some nopPacket ∧ 64 * packetLen nopPacket = 64 ∧
    packetSealed 0 nopPacket = true ∧ packetAmiss (ringed nopPacket 64 0) 0 ((ringed nopPacket 64 0).queue 0 0) nopPacket = none ∧
    (agentWrite (ringed nopPacket 64 0) 0 0x1000 (leBytes 8 64)).isSome = true ∧ packetSealed 1 nopPacket = false := by decide +kernel
/-- Queue 0 of context 0 with a packet in progress. -/
def inProgress (t : Nat) (begun : Bool) (body : List Byte) : State :=
  { base with fns := [(0, { Fn.initial with queues := [(0, { HostQueue.initial with
      st := .wait, packet := some ⟨t, [BitVec.ofNat 8 t, 1, 0, 0, 0, 0, 0, 0] ++ body, begun, [], none⟩ })] })] }
theorem met_PacketsTakeEffect :
    (∀ t b y, ((inProgress t b y).queue 0 0).st = .wait) ∧ (∀ t b y, ((inProgress t b y).queue 0 0).packet =
      some ⟨t, [BitVec.ofNat 8 t, 1, 0, 0, 0, 0, 0, 0] ++ y, b, [], none⟩) ∧
    (∀ l ∈ ({ inProgress 2 false [] with launches := [] } : State).launches, ¬ (l.2.fn = 0 ∧ l.2.q = 0)) ∧
    (∃ l ∈ (inProgress 2 false []).launches, l.2.fn = 0 ∧ l.2.q = 0) ∧ packetConc [1, 2, 2, 0] = true ∧
    packetConc [1, 2, 0, 0] = false ∧ (agentRead base 0 0x1000 8).isSome = true ∧
    (agentWrite base 0 0x1000 (leBytes 8 5)).isSome = true ∧ agentNum (inProgress 3 true []) 0 0x1000 8 = some 0 := by
  refine ⟨fun _ _ _ => rfl, fun _ _ _ => rfl, ?_, ⟨(0, bootLaunch), by decide, rfl, rfl⟩, rfl, rfl, by decide +kernel, by decide +kernel, by decide +kernel⟩
  intro l hl
  cases hl

/-- Page tables that map the first 512 MiB of addresses to 0x20000000 on. -/
def tableCells : List (Nat × Byte) := [(0x40000, 1), (0x40002, 5), (0x50000, 0x3F), (0x50003, 0x20)]
/-- A template of one stage: entry 0x10000, one hart of shape 1, no queues; at 0x30000. -/
def template : List (Nat × Byte) :=
  [(0x20030000, 1), (0x20030042, 1), (0x20030048, 1), (0x2003004C, 1), (0x2003004D, 0xFF), (0x2003004E, 0xFF)]
/-- A LAUNCH packet of a template, due for admission; the context's record names core 0. -/
def launching (va : Nat) : State :=
  { inProgress 1 true (leBytes 8 va ++ List.replicate 112 0) with mem := (0x30060, 1) :: tableCells ++ template, launches := [], nextLaunch := 1 }
theorem met_LaunchesAdmitted :
    ((launching 0x30000).ctx 0).drains = [] ∧ ((launching 0x30000).ctx 0).ghosts = [] ∧ ((launching 0x30000).ctx 0).skips = [] ∧ ((launching 0x30000).ctx 0).level = .free ∧
    ((launching 0x30000).launches.filter (fun l => l.2.ctx == 0)).length < Config.launchMax ∧
    queueTurn (launching 0x30000) 0 0 = true ∧ mapGet Launch.initial (launching 0x30000).launches 1 = Launch.initial ∧
    (declared (refreshCtx 0 (launching 0x30001)) 0 0x30001).1 = some 1 ∧
    (declared (refreshCtx 0 (launching 0x30000)) 0 0x30000).1 = none := by
  decide +kernel

/-- A SETDET at the head of its context's holds; a CTXSW of context 0 for context 1, of no slot. -/
def setting (lvl : Nat) : State :=
  { inProgress 5 true (leBytes 8 lvl ++ leBytes 8 0x70000) with ctxs := [(0, { bootCtx with tlb := pages, drains := [⟨0, 0, [0]⟩] })] }
/-- A CTXSW of virtual function 1 under way, pre-empted at time `t0` where it is. -/
def preempted (t0 : Option Nat) : State :=
  { base with fns := [(1, { Fn.initial with ctxswdl := 0, queues := [(0, { HostQueue.initial with
      st := .wait, packet := some ⟨6, [], true, [0], t0⟩ })] })] }
theorem met_ContextSwitches :
    ((setting 1).ctx 0).drains = [⟨0, 0, [0]⟩] ∧
    (∀ l ∈ [0], ∀ k ∈ ({ setting 1 with launches := [] } : State).launches, k.1 ≠ l) ∧
    (∃ l ∈ [0], ∃ k ∈ (setting 1).launches, k.1 = l) ∧ ((setting 1).ctx 0).level ≠ .record ∧
    (match ctxswOut 0 0 (inProgress 6 false (leBytes 2 0 ++ leBytes 2 1 ++ List.replicate 172 0)) with | .ok _ => true | .error _ => false) = true ∧
    (∀ t0, ((preempted t0).queue 1 0).st = .wait ∧ ((preempted t0).queue 1 0).packet = some ⟨6, [], true, [0], t0⟩) ∧
    (preempted (some 0)).time < 1 + ((preempted (some 1)).fn 1).ctxswdl * 1000 ∧
    0 + ((preempted (some 0)).fn 1).ctxswdl * 1000 ≤ (preempted (some 0)).time := by
  refine ⟨rfl, ?_, ⟨0, by decide, (0, bootLaunch), by decide, rfl⟩, by decide, by decide +kernel, fun _ => ⟨rfl, rfl⟩, by decide,
    by decide⟩
  intro l _ k hk
  cases hk

/-- A launch of two harts, of which one is placed; a launch that is over. -/
def unplaced : State :=
  withLaunch (fun l => { l with stages := [⟨0x10000, 1, 2, none, none, 1, [], false⟩] })
def ended : State :=
  { withLaunch (fun l => { l with stages := [⟨0x10000, 1, 1, none, none, 1, [0], true⟩] }) with hart := Hart.initial }
theorem met_HartsPlaced :
    (∀ c ∈ unplaced.ctxs, c.2.ghosts = [] ∧ c.2.skips = []) ∧ candidates unplaced = [(0, 0, 1)] ∧ (unplaced.launch 0).rerun = 0 ∧ (unplaced.launch 0).groups = [] ∧
    0 < (unplaced.launch 0).stages.length ∧ spotAt unplaced 0 1 0 1 = some ⟨0, 0, 1, 2⟩ ∧ spotAt unplaced 0 1 511 3 = some ⟨511, 0, 3, 1⟩ ∧
    (∃ k ∈ ended.launches, k.1 = 0) ∧ (ended.launch 0).stages.all (·.finished) = true ∧ (∀ h ∈ ended.allHarts, h.launch ≠ 0) ∧
    (ended.launch 0).deferred = 0 ∧ (∃ h ∈ base.allHarts, h.launch = 0) := by
  refine ⟨by decide, by decide +kernel, rfl, rfl, by decide, by decide +kernel, by decide +kernel, by decide, rfl, by decide +kernel, rfl,
    ⟨base.hart, by decide +kernel, rfl⟩⟩

/-- Two contexts on core 0; the active one's hart asked to yield at cycle 0. -/
def shared (now : Nat) (h : Hart → Hart) : State :=
  { base with
    hart := h { base.hart with yreq := true }
    harts := [(4, { base.hart with id := 4, launch := 1 })]
    slots := [(0, { Slot.initial with holder := some 0 }), (1, { Slot.initial with holder := some 1 })]
    ctxs := [(0, { bootCtx with tlb := pages }), (1, bootCtx)]
    launches := [(0, bootLaunch), (1, { bootLaunch with ctx := 1 })]
    cycle := now }
theorem met_SlotsSwitch :
    quantumDue (shared 100000 id) 0 = true ∧ quantumDue (shared 0 id) 0 = false ∧
    ((shared 470 id).hartOf 0).run = .running ∧ ((shared 470 id).hartOf 0).yreq = true ∧
    ((shared 470 id).hartOf 0).yreqAt + ((shared 470 id).ctx 0).ydl ≤ (shared 470 id).cycle ∧
    (shared 469 id).cycle < ((shared 469 id).hartOf 0).yreqAt + ((shared 469 id).ctx 0).ydl ∧
    (let s := { shared 940 (fun h => { h with queue := [⟨0, 0, 0, 0, [], [], base.hart.note⟩] }) with ctxs := [(0, { bootCtx with level := .record }), (1, bootCtx)] }
     (s.hartOf 0).yreqAt + 2 * (s.ctx (ctxOf s (s.hartOf 0))).ydl ≤ s.cycle ∧ (s.ctx (ctxOf s (s.hartOf 0))).strict = true ∧
     safePoint s (s.hartOf 0) = false ∧ (s.hartOf 0).nonyielded = false ∧ (s.hartOf 0).relStage = 0) ∧
    (let s := { shared 470 (fun h => { h with relStage := 2 }) with ctxs := [(0, { bootCtx with level := .record }), (1, bootCtx)] }
     (s.ctx (ctxOf s (s.hartOf 0))).strict = true ∧ ¬ ((s.hartOf 0).relStage = 0 ∨ (s.hartOf 0).relStage = 3)) ∧
    (let s := shared 0 (fun h => { h with run := .stopped })
     (s.slot 1).holder.isSome = true ∧ (∀ h ∈ slotHarts s 0, h.runnable = false) ∧ ∃ h ∈ slotHarts s 0, h.yreq = true) := by
  refine ⟨by decide +kernel, by decide +kernel, rfl, rfl, ?_⟩
  refine ⟨by decide +kernel, by decide +kernel, by decide +kernel, by decide +kernel, ?_⟩
  refine ⟨rfl, by decide +kernel, (shared 0 (fun h => { h with run := .stopped })).hart, by decide +kernel, rfl⟩

/-- Both slots of core 0 are held, context 1's by no hart, and a hart of context 2 waits for placement there. -/
def crowded : State :=
  { base with
    slots := [(0, { Slot.initial with holder := some 0 }), (1, { Slot.initial with holder := some 1 })]
    ctxs := [(0, { bootCtx with tlb := pages }), (1, bootCtx), (2, { bootCtx with coreset := 1 })]
    mem := tableCells
    launches := [(0, bootLaunch), (2, { bootLaunch with ctx := 2, stages := [⟨0x10000, 1, 1, none, none, 0, [], false⟩] })] }
/-- Context 0 spilled from core 0, without harts. -/
def spilt : State :=
  { base with
    hart := Hart.initial
    slots := []
    mem := tableCells
    spills := [(0, ⟨{ Slot.initial with holder := some 0 }, []⟩)] }
theorem met_SlotsSpill :
    spillChoice crowded 0 = some 1 ∧ slotStoppable crowded 1 = true ∧ (crowded.slot 1).holder = some 1 ∧
    (slotWrite 1 (crowded.ctx 1).save.toNat 0 1 (mapSlot 1 stopHart crowded)).isSome = true ∧ spillChoice base 0 ≠ some 0 ∧
    spilt.spill 0 0 ≠ Spill.initial ∧ (spilt.slot 0).holder = none ∧ (spilt.spill 0 0).slot.holder = some 0 ∧
    (imageRead spilt 0 (spillRegion 0 (spilt.ctx 0).save.toNat 0 0 .read)).isSome = true ∧
    ((spilt.spill 0 0).harts.map (fun h => h.id % 4)).Nodup ∧ base.spill 0 0 = Spill.initial := by
  decide +kernel

theorem met_OutsideActs :
    (∀ i < 3, devBacked (0x120000 + i) = true) ∧ paDevice 0x120000 = true ∧ (∀ i < 3, paBad base (0x120000 + i) = false) ∧
    (∃ i < 3, paBad { base with poison := [0x4800] } (0x120000 + i) = true) ∧
    (511 : Nat) < Config.cores ∧ base.frozen = false ∧ base.pilot = none := by
  refine ⟨by decide, rfl, by decide, ⟨0, by decide, by decide⟩, by decide, rfl, rfl⟩

/-! ## Small results, worked by hand from the spec's formulas -/

/-- `i` completes from `s` in a state of which `p` holds. -/
def after (i : Instr) (s : State) (p : State → Bool) : Bool :=
  match exec i s with
  | .next t => p t
  | _ => false
def with2 (x y : Word) : State := withH (fun h => (h.setS 1 x).setS 2 y)

/-- R342: the sum wraps; R50: s0 stays zero. -/
theorem test_add : after (.add 3 1 2) (with2 0xFFFFFFFFFFFFFFFF 2) (fun t => t.hart.rs 3 == 1) = true ∧
    after (.add 0 1 2) (with2 5 2) (fun t => t.hart.rs 0 == 0 && t.hart.pc == 0x10004) = true := by decide +kernel
/-- R368, R398: the most negative number by -1. -/
theorem test_div : after (.div 3 1 2 0) (with2 0x8000000000000000 0xFFFFFFFFFFFFFFFF) (fun t => t.hart.rs 3 == 0x8000000000000000) = true ∧
    after (.rem 3 1 2 0) (with2 (-7) 2) (fun t => t.hart.rs 3 == -1) = true := by decide +kernel
/-- R389: (2⁶⁴ - 1)² and (-1)². -/
theorem test_mulh : after (.mulh 3 1 1 1) (with2 (-1) 0) (fun t => t.hart.rs 3 == 0xFFFFFFFFFFFFFFFE) = true ∧
    after (.mulh 3 1 1 0) (with2 (-1) 0) (fun t => t.hart.rs 3 == 0) = true := by decide +kernel
/-- R403: the amount is the low six bits. -/
theorem test_sar : after (.sar 3 1 2) (with2 (-8) 65) (fun t => t.hart.rs 3 == -4) = true := by decide +kernel
/-- R382, R344: 19 bits, sign-extended, from bit 13 on. -/
theorem test_lih : after (.lih 3 0x7FFFF) base (fun t => t.hart.rs 3 == 0xFFFFFFFFFFFFE000) = true ∧
    after (.addpc 3 1) base (fun t => t.hart.rs 3 == 0x12000) = true := by decide +kernel
/-- R356: back by two words; R373: the base is read before the link is written. -/
theorem test_jumps : after (.bne 1 2 0x1FFE) (with2 1 2) (fun t => t.hart.pc == 0xFFF8) = true ∧
    after (.jalr 1 1 8) (with2 0x18000 0) (fun t => t.hart.pc == 0x18008 && t.hart.rs 1 == 0x10004) = true := by decide +kernel
/-- R406: 1 + 2 in f32; the largest f16 doubled overflows to infinity and is inexact (R136). -/
theorem test_sfadd : after (.sfadd 3 1 2 2) (with2 0x3F800000 0x40000000) (fun t => t.hart.rs 3 == 0x40400000 && t.hart.fflags == 0) = true ∧
    after (.sfadd 3 1 1 0) (with2 0x7BFF 0) (fun t => t.hart.rs 3 == 0x7C00 && t.hart.fflags.toNat != 0) = true := by decide +kernel
/-- R410, R378: a byte of a stored word, sign-extended; nothing at home yet (R217). -/
theorem test_st_ld : after (.st 2 1 0 2) (with2 0x30000 0x80FF) (fun t => t.peek 0x120000 == 0 &&
    after (.ld 3 1 1 0) t (fun u => u.hart.rs 3 == 0xFFFFFFFFFFFFFF80)) = true := by decide +kernel
/-- R418: bytes wrap, and neither the tail nor an unnamed register changes (R58). -/
theorem test_vadd : after (.vadd 3 1 2 15 0 0) (withH (fun h => { (h.setV 1 0xFF05FF).setV 2 0x010101 with et := .i8, vl := 2 }))
    (fun t => t.hart.vr 3 == 0x0600 && t.hart.vr 1 == 0xFF05FF && t.hart.pc == 0x10004) = true := by decide +kernel
/-- R427: the seed and the active elements. -/
theorem test_vredsum : after (.vredsum 3 1 2 0) (withH (fun h => (((h.setV 1 0x0000000700000005).setK 0 2).setS 2 100)))
    (fun t => t.hart.rs 3 == 107) = true := by decide +kernel
/-- R416, R256, R260: TRAP 5 enters the handler with cause 0x0C, HM set. -/
theorem test_trap : after (.trap 5) base (fun t => t.hart.pc == 0x18000 && t.hart.trapval == 5 && t.hart.trappc == 0x10000 &&
    t.hart.hm && t.hart.frozen && t.hart.trapcause == 0x800C) = true := by decide +kernel
/-- R176: 1 · 3 on top of 7 in column 0 and 2 · 3 in column 1, under an i8 tile whose first two image bytes are 1 and 2. -/
theorem test_mrow : after (.mrow 5 1 0 0 0 0 2) { lantern with hart := lantern.hart.setV 1 3 }
    (fun t => wordAt ((t.slot 0).row 5).cols 0 == 10 && wordAt ((t.slot 0).row 5).cols 1 == 6) = true := by decide +kernel
/-- The first step after a word is placed runs it (log 13). -/
theorem test_first_step : (match step (State.reset.withFetchWord 32 0x00080102) with
    | .next t => t.hart.pc == 0x10004 && t.hart.rs 2 == 1
    | _ => false) = true ∧ decodeTableWord 32 0x00080102 = some (.addi 2 0 1) := by decide +kernel

end Sys2Proof.Tests
end

section
/-! What a hart that issues next does in a step (log 4, R244, R300), and the word it fetches (R5, R244, R290). -/

namespace Sys2Proof.Machine

/-! ## From a step to the decoded instruction -/

/-- When the focus hart issues, its scalar unit does, and the beat counts the cycle (log 4). -/
theorem step_of_issuesNext {s : State} (h : IssuesNext s) :
    step s = onNext (fun t => { t with beat := s.beat + 1 }) (issueScalar s) := by
  obtain ⟨hin, hfrozen, hpilot, hbeat, hmay, hstuck, hpend, hrel, hqueue, hserial⟩ := h
  have hq : (s.hart.queue ≠ [] && !s.hart.frozen) = false := by
    rcases hqueue with hempty | hheld
    · simp [hempty]
    · simp [hheld]
  have hissue : issue s = issueScalar s := by
    simp only [issue, hpend, hrel, hq, Bool.false_eq_true, if_false]
  have hfocus : focusCycle s = onNext (fun t => { t with beat := s.beat + 1 }) (issue s) := by
    simp only [focusCycle, hmay, hstuck, Bool.false_eq_true, if_true, if_false]
  have hcycle : step s = ordinaryCycle s := by
    simp [step, cycle, hin, hfrozen, hpilot]
  rw [hcycle, ordinaryCycle, hserial, ← hissue, ← hfocus]
  exact if_pos hbeat

/-- The step of a hart whose word is fetched runs the word. -/
theorem step_of_fetched {s s1 : State} {w : BitVec 32} (h : IssuesNext s)
    (hf : fetchM s.hart.id s.hart.pc s = .ok w s1) :
    step s = onNext (fun t => { t with beat := s.beat + 1 }) (runWord w s1) := by
  rw [step_of_issuesNext h, issueScalar, hf]

theorem poisonedSource_eq_false {s : State} {i : Instr} (h : ∀ r ∈ issueReads s.hart i, s.hart.spBad r = false) :
    poisonedSource s i = false := by
  have hany : (issueReads s.hart i).any s.hart.spBad = false := by simpa using h
  simp [poisonedSource, hany]
theorem poisonedSource_eq_true {s : State} {i : Instr} (h : ∃ r ∈ issueReads s.hart i, s.hart.spBad r = true)
    (hl : illegalFirst s i = false) : poisonedSource s i = true := by
  have hany : (issueReads s.hart i).any s.hart.spBad = true := List.any_eq_true.2 h
  simp [poisonedSource, hany, hl]

/-- A word whose sources are sound runs as its instruction, within the turn of a re-run. -/
theorem runWord_sound {s : State} {w : BitVec 32} {i : Instr} (hd : decode w = .ok i)
    (h : ∀ r ∈ issueReads s.hart i, s.hart.spBad r = false) : runWord w s = runInstr i s := by
  simp [runWord, hd, poisonedSource_eq_false h]
/-- A word with a poisoned source takes POISON where nothing comes first (R257, R258). -/
theorem runWord_poisoned {s : State} {w : BitVec 32} {i : Instr} (hd : decode w = .ok i)
    (h : ∃ r ∈ issueReads s.hart i, s.hart.spBad r = true) (hl : illegalFirst s i = false)
    (hs : stopsFirst s i = false) :
    runWord w s = .next (takeTrap s s.hart.id .poison .read poisonScalar s.hart.pc s.hart.pc) := by
  simp [runWord, hd, poisonedSource_eq_true h hl, runPoisoned, hs]

/-- Outside a re-run no turn is held (R300). -/
theorem holdTurn_outside {s : State} (h : (s.launch s.hart.launch).rerun = 0) : holdTurn s = s := by
  simp [holdTurn, h]
/-- Outside a re-run no turn is passed on (R300). -/
theorem passTurn_outside {x : Hart} {i : Instr} {s : State} (h : (s.launch x.launch).rerun = 0) : passTurn x i s = s := by
  simp [passTurn, h]

/-! ## The word that is fetched -/

theorem six_le_pageBits (lvl : Nat) : 6 ≤ pageBits lvl := by
  unfold pageBits
  split_ifs <;> omega
/-- A page is a whole number of 64-byte lines, so translation keeps an address's place in its line. -/
theorem leafPa_mod_line (e lvl va : Nat) : leafPa e lvl va % 64 = va % 64 := by
  have hp : 64 ∣ 2 ^ pageBits lvl := Nat.pow_dvd_pow (m := 6) 2 (six_le_pageBits lvl)
  have hbase : 64 ∣ ptePa e - ptePa e % 2 ^ pageBits lvl := hp.trans (Nat.dvd_sub_mod _)
  calc leafPa e lvl va % 64
    _ = va % 2 ^ pageBits lvl % 64 := by rw [leafPa, Nat.add_mod, Nat.mod_eq_zero_of_dvd hbase, Nat.zero_add, Nat.mod_mod]
    _ = va % 64 := Nat.mod_mod_of_dvd va hp
theorem mapped_mod_line {s : State} {va pa : Nat} {k : Kind} (h : Mapped s va k pa) : pa % 64 = va % 64 := by
  obtain ⟨-, -, -, -, e, -, -, -, -, -, -, rfl⟩ := h
  exact leafPa_mod_line _ _ _

/-- An aligned word at a mapped PC lies within one page, at its translation. -/
theorem locateN_fetch {s : State} {pa : Nat} (h : Mapped s s.hart.pc.toNat .exec pa) (ha : s.hart.pc.toNat % 4 = 0) :
    ∃ fs, locateN s.hart.id s.hart.pc.toNat 4 .exec false s = .ok (places pa 4, fs) s :=
  locateN_mapped h (by omega)

/-- The instruction cache's line is looked up at the word's first byte. -/
theorem codeLine_places (s : State) (h : Hart) (pa : Nat) :
    (places pa 4).head?.bind (codeLine s h) = codeLine s h (.phys pa) := rfl

theorem places_sound {s : State} {pa n : Nat} (h : Sound s pa n) :
    (places pa n).findIdx? (locBadHome s s.hart) = none := by
  rw [List.findIdx?_eq_none_iff]
  simp only [places, List.mem_map, List.mem_range]
  rintro _ ⟨i, hi, rfl⟩
  exact h i hi
theorem leNat_places (s : State) (h : Hart) (pa n : Nat) : leNat ((places pa n).map (locByteHome s h)) = s.peekN pa n := by
  simp only [places, List.map_map, State.peekN]
  rfl

/-- Where no instruction cache holds the line, the fetched word stands at home (R244). -/
theorem fetchM_home {s : State} {pa : Nat} (h : Mapped s s.hart.pc.toNat .exec pa) (ha : s.hart.pc.toNat % 4 = 0)
    (hn : codeLine s s.hart (.phys pa) = none) (hs : Sound s pa 4) :
    fetchM s.hart.id s.hart.pc s = .ok (BitVec.ofNat 32 (s.peekN pa 4)) s := by
  obtain ⟨fs, hl⟩ := locateN_fetch h ha
  rw [fetchM, M.bind_ok hl]
  simp only [M.get_bind, State.hartOf_self, codeLine_places, hn, places_sound hs, leNat_places, M.pure_run]

/-- What the instruction cache holds of the line is the code (R290). -/
theorem fetchM_cached {s : State} {pa : Nat} {e : CLine} (h : Mapped s s.hart.pc.toNat .exec pa)
    (ha : s.hart.pc.toNat % 4 = 0) (he : codeLine s s.hart (.phys pa) = some e) (hb : e.bad = 0) :
    fetchM s.hart.id s.hart.pc s = .ok (BitVec.ofNat 32 (leNat ((e.bytes.drop (pa % 64)).take 4))) s := by
  obtain ⟨fs, hl⟩ := locateN_fetch h ha
  rw [fetchM, M.bind_ok hl, mapped_mod_line h]
  simp only [M.get_bind, State.hartOf_self, codeLine_places, he, hb]
  rfl

/-- Settles O9: the step of a hart that issues next runs the word it fetched, whose instruction runs within the turn of a
re-run or takes POISON for a source; and the fetch reads the line cached, or else the bytes at home. -/
theorem stepRunsDecoded : Obligations.StepRunsDecoded := by
  refine ⟨fun s s1 t w i hi hf hd => ⟨fun hsound hx => ?_, fun hsound hbefore hx hafter => ?_, fun hbad hl hs => ?_⟩,
    fun s pa hm ha => ⟨fun hn hs => fetchM_home hm ha hn hs, fun e he hb => fetchM_cached hm ha he hb⟩⟩
  · rw [step_of_fetched hi hf, runWord_sound hd hsound, runInstr, hx]
    rfl
  · rw [step_of_fetched hi hf, runWord_sound hd hsound, runInstr, holdTurn_outside hbefore, hx, onNext,
      passTurn_outside hafter]
    rfl
  · rw [step_of_fetched hi hf, runWord_poisoned hd hbad hl hs]
    rfl

end Sys2Proof.Machine
end

section
/-! Memory's canonical form along every step (log 3, O13). An action keeps the form when the state it leaves has it
wherever the state it found had it, whether it ends or stops: that passes through a `do` block rule by rule. A
change of the state keeps it, and so does an optional one or an outcome, when the state it gives has it. -/

namespace Sys2Proof.Machine

variable {α β : Type}

/-- The state an action leaves, however it ends. -/
def leftBy : EStateM.Result Stop State α → State
  | .ok _ t => t
  | .error _ t => t

/-- However it ends, the action leaves memory in canonical form where it found it so. -/
structure Keeps (m : M α) : Prop where
  left : ∀ s, Canonical s → Canonical (leftBy (m s))

/-- The state, if there is one, has memory in canonical form. -/
def Yields (o : Option State) : Prop := ∀ ⦃t⦄, o = some t → Canonical t

/-- The next state, if the outcome is one, has memory in canonical form. -/
def Leads (o : Out) : Prop := ∀ ⦃t⦄, o = .next t → Canonical t

/-! ## The rules -/

/-- An attempt ends, with the state the action leaves (R253). -/
theorem attempt_run (m : M α) (s : State) :
    attempt m s = match m s with | .ok a t => .ok (.ok a) t | .error e t => .ok (.error e) t := by
  unfold attempt
  cases h : m s <;>
    simp only [bind, EStateM.bind, tryCatch, tryCatchThe, MonadExceptOf.tryCatch, EStateM.tryCatch, h] <;> rfl

theorem attempt_bind (m : M α) (f : Except Stop α → M β) (s : State) :
    (attempt m >>= f) s = match m s with | .ok a t => f (.ok a) t | .error e t => f (.error e) t := by
  cases h : m s <;> exact M.bind_ok (by rw [attempt_run, h])

namespace Keeps

theorem ok {m : M α} (h : Keeps m) {s t : State} {a : α} (hs : Canonical s) (ht : m s = .ok a t) : Canonical t := by
  have h1 := h.left s hs
  rwa [ht] at h1
theorem error {m : M α} (h : Keeps m) {s t : State} {e : Stop} (hs : Canonical s) (ht : m s = .error e t) :
    Canonical t := by
  have h1 := h.left s hs
  rwa [ht] at h1

theorem pure {a : α} : Keeps (Pure.pure a) := ⟨fun _ h => h⟩
theorem throw {e : Stop} : Keeps (MonadExcept.throw e : M α) := ⟨fun _ h => h⟩
theorem get : Keeps (MonadState.get : M State) := ⟨fun _ h => h⟩
theorem set {t : State} (h : Canonical t) : Keeps (MonadStateOf.set t : M PUnit) := ⟨fun _ _ => h⟩
theorem modify {f : State → State} (h : ∀ s, Canonical s → Canonical (f s)) : Keeps (modify f : M PUnit) := ⟨h⟩

theorem bind {m : M α} {f : α → M β} (hm : Keeps m) (hf : ∀ a, Keeps (f a)) : Keeps (m >>= f) := by
  refine ⟨fun s hs => ?_⟩
  cases h : m s with
  | ok a t => rw [M.bind_ok h]; exact (hf a).left t (hm.ok hs h)
  | error e t => rw [M.bind_error h]; exact hm.error hs h
/-- The state that is read is the one found. -/
theorem getBind {f : State → M β} (h : ∀ s, Canonical s → Keeps (f s)) : Keeps ((MonadState.get : M State) >>= f) :=
  ⟨fun s hs => (h s hs).left s hs⟩
/-- What follows may lean on what holds of the value before it. -/
theorem bindOf {m : M α} {P : α → Prop} {f : α → M β} (hm : Keeps m)
    (hP : ∀ {s t a}, Canonical s → m s = .ok a t → P a) (hf : ∀ a, P a → Keeps (f a)) : Keeps (m >>= f) := by
  refine ⟨fun s hs => ?_⟩
  cases h : m s with
  | ok a t => rw [M.bind_ok h]; exact (hf a (hP hs h)).left t (hm.ok hs h)
  | error e t => rw [M.bind_error h]; exact hm.error hs h
theorem ite {p : Prop} [Decidable p] {m n : M α} (hm : Keeps m) (hn : Keeps n) : Keeps (if p then m else n) := by
  split
  · exact hm
  · exact hn
/-- A conditional action before what follows either way. -/
theorem guard {p : Prop} [Decidable p] {m : M PUnit} {f : PUnit → M α} (hm : Keeps m) (hf : Keeps (f ⟨⟩)) :
    Keeps (if p then m >>= f else f ⟨⟩) := .ite (.bind hm fun _ => hf) hf
/-- The same where its value is not used. -/
theorem guardAny {p : Prop} [Decidable p] {m : M β} {n : M α} (hm : Keeps m) (hn : Keeps n) :
    Keeps (if p then m >>= fun _ => n else n) := .ite (.bind hm fun _ => hn) hn
/-- The same of two actions, and of three. -/
theorem guard₂ {p : Prop} [Decidable p] {m : M β} {n : β → M PUnit} {f : PUnit → M α} (hm : Keeps m)
    (hn : ∀ b, Keeps (n b)) (hf : Keeps (f ⟨⟩)) : Keeps (if p then m >>= fun b => n b >>= f else f ⟨⟩) :=
  .ite (.bind hm fun b => .bind (hn b) fun _ => hf) hf
theorem guard₃ {γ : Type} {p : Prop} [Decidable p] {m : M β} {n : β → M γ} {o : β → γ → M PUnit} {f : PUnit → M α}
    (hm : Keeps m) (hn : ∀ b, Keeps (n b)) (ho : ∀ b c, Keeps (o b c)) (hf : Keeps (f ⟨⟩)) :
    Keeps (if p then m >>= fun b => n b >>= fun c => o b c >>= f else f ⟨⟩) :=
  .ite (.bind hm fun b => .bind (hn b) fun c => .bind (ho b c) fun _ => hf) hf
/-- One of two actions before what follows either way. -/
theorem choice {p : Prop} [Decidable p] {m n : M β} {f : β → M α} (hm : Keeps m) (hn : Keeps n) (hf : ∀ b, Keeps (f b)) :
    Keeps (if p then m >>= f else n >>= f) := .ite (.bind hm hf) (.bind hn hf)

theorem attempt {m : M α} (h : Keeps m) : Keeps (attempt m) := by
  refine ⟨fun s hs => ?_⟩
  have hm := h.left s hs
  rw [attempt_run]
  cases hr : m s with
  | ok a t => rwa [hr] at hm
  | error e t => rwa [hr] at hm
theorem eachOf {f : α → M Unit} (h : ∀ a, Keeps (f a)) {l : List α} : Keeps (eachOf f l) := by
  induction l with
  | nil => exact .pure
  | cons x t ih => exact .bind (h x) fun _ => ih

end Keeps

namespace Yields
theorem none : Yields Option.none := fun _ h => nomatch h
theorem some {s : State} (h : Canonical s) : Yields (Option.some s) := fun _ ht => Option.some.inj ht ▸ h
theorem ite {p : Prop} [Decidable p] {x y : Option State} (hx : Yields x) (hy : Yields y) : Yields (if p then x else y) := by
  split
  · exact hx
  · exact hy
theorem map {x : Option State} {f : State → State} (hx : Yields x) (hf : ∀ s, Canonical s → Canonical (f s)) :
    Yields (x.map f) := by
  cases x with
  | none => exact none
  | some s => exact some (hf s (hx rfl))
theorem mapTo {x : Option α} {f : α → State} (hf : ∀ a, Canonical (f a)) : Yields (x.map f) := by
  cases x with
  | none => exact none
  | some a => exact some (hf a)
theorem orElse {x : Option State} {y : Unit → Option State} (hx : Yields x) (hy : Yields (y ())) : Yields (x.orElse y) := by
  cases x with
  | none => exact hy
  | some s => exact hx
theorem findSome {l : List α} {f : α → Option State} (hf : ∀ a, Yields (f a)) : Yields (l.findSome? f) := by
  intro t ht
  obtain ⟨a, -, ha⟩ := List.exists_of_findSome?_eq_some ht
  exact hf a ha
end Yields

namespace Leads
theorem next {s : State} (h : Canonical s) : Leads (.next s) := fun _ ht => Host.Outcome.next.inj ht ▸ h
theorem fault {r : Fault} : Leads (.fault r) := fun _ h => nomatch h
theorem ite {p : Prop} [Decidable p] {x y : Out} (hx : Leads x) (hy : Leads y) : Leads (if p then x else y) := by
  split
  · exact hx
  · exact hy
end Leads

/-- The meaning of an instruction, if there is one, keeps the form. -/
def Means (o : Option (Cap → M Unit)) : Prop := ∀ ⦃m⦄, o = some m → ∀ c, Keeps (m c)
theorem Means.none : Means Option.none := fun _ h => nomatch h
theorem Means.some {m : Cap → M Unit} (h : ∀ c, Keeps (m c)) : Means (Option.some m) := fun _ hm => Option.some.inj hm ▸ h

theorem Canonical.ite {p : Prop} [Decidable p] {s t : State} (hs : Canonical s) (ht : Canonical t) :
    Canonical (if p then s else t) := by
  split
  · exact hs
  · exact ht
theorem getD_wf {x : Option State} {s : State} (hx : Yields x) (hs : Canonical s) : Canonical (x.getD s) := by
  cases x with
  | none => exact hs
  | some t => exact hx rfl
theorem foldl_wf {f : State → α → State} (hf : ∀ s a, Canonical s → Canonical (f s a)) {s : State} (hs : Canonical s)
    {l : List α} : Canonical (l.foldl f s) := by
  induction l generalizing s with
  | nil => exact hs
  | cons a t ih => exact ih (hf s a hs)
theorem foldr_wf {f : α → State → State} (hf : ∀ a s, Canonical s → Canonical (f a s)) {s : State} (hs : Canonical s)
    {l : List α} : Canonical (l.foldr f s) := by
  induction l with
  | nil => exact hs
  | cons a t ih => exact hf a _ ih

/-! ## Primitive effects and changes -/

theorem trap_keeps {c : Cause} {k : Kind} {v : Word} : Keeps (trap c k v : M α) := .throw
theorem hold_keeps : Keeps (hold : M α) := .throw
theorem stall_keeps {kind : Nat} : Keeps (stall kind : M α) := .bind .get fun _ => .throw
theorem illegal_keeps {i : Instr} : Keeps (illegal i : M α) := trap_keeps
theorem hart_keeps : Keeps hart := .bind .get fun _ => .pure
theorem hartNo_keeps {h : Nat} : Keeps (hartNo h) := .bind .get fun _ => .pure
theorem ctxM_keeps {h : Nat} : Keeps (ctxM h) := .bind .get fun _ => .pure
theorem setHartM_keeps {h : Hart} : Keeps (setHartM h) := .modify fun _ hs => hs.of_eq rfl rfl
theorem modHart_keeps {f : Hart → Hart} : Keeps (modHart f) := .modify fun _ hs => hs.of_eq rfl rfl
theorem modCtx_keeps {c : Nat} {f : Ctx → Ctx} : Keeps (modCtx c f) := .modify fun _ hs => hs.of_eq rfl rfl
theorem nextInstr_keeps : Keeps nextInstr := .modify fun _ hs => hs.of_eq rfl rfl
theorem withHart_wf {s : State} {h : Hart} (hs : Canonical s) : Canonical (s.withHart h) := hs
theorem setS_wf {s : State} {r : BitVec 6} {x : Word} (hs : Canonical s) : Canonical (s.setS r x) := hs
theorem goto_wf {s : State} {a : Word} (hs : Canonical s) : Canonical (s.goto a) := hs
theorem advance_wf {s : State} (hs : Canonical s) : Canonical s.advance := hs
theorem result_wf {s : State} {d : BitVec 6} {x : Word} (hs : Canonical s) : Canonical (s.result d x) := hs
theorem setSlot_wf {s : State} {i : Nat} {x : Slot} (hs : Canonical s) : Canonical (s.setSlot i x) := hs
theorem setCore_wf {s : State} {c : Nat} {x : Core} (hs : Canonical s) : Canonical (s.setCore c x) := hs
theorem setCtx_wf {s : State} {c : Nat} {x : Ctx} (hs : Canonical s) : Canonical (s.setCtx c x) := hs
theorem setLaunch_wf {s : State} {l : Nat} {x : Launch} (hs : Canonical s) : Canonical (s.setLaunch l x) := hs
theorem setQueue_wf {s : State} {f q : Nat} {x : HostQueue} (hs : Canonical s) : Canonical (s.setQueue f q x) := hs
theorem setSpill_wf {s : State} {c core : Nat} {x : Spill} (hs : Canonical s) : Canonical (s.setSpill c core x) := hs
theorem mapHarts_wf {s : State} {f : Hart → Hart} (hs : Canonical s) : Canonical (s.mapHarts f) := hs
theorem focusOn_wf {s : State} {h : Nat} (hs : Canonical s) : Canonical (s.focusOn h) := by
  unfold State.focusOn
  dsimp only
  exact .ite hs (.ite (hs.of_eq rfl rfl) hs)
theorem frecAdd_wf {s : State} {ty addr core lg unit ctx fn count : Nat} (hs : Canonical s) :
    Canonical (frecAdd s ty addr core lg unit ctx fn count) := hs
theorem setHart_wf {s : State} {h : Hart} (hs : Canonical s) : Canonical (s.setHart h) :=
  hs.of_eq (State.setHart_mem s h) (State.setHart_l2 s h)
theorem modHartNo_keeps {h : Nat} {f : Hart → Hart} : Keeps (modHartNo h f) := .modify fun _ hs => .ite (setHart_wf hs) hs
theorem dropRecord_wf {s : State} {author : Option Nat} {ctx a : Nat} (hs : Canonical s) :
    Canonical (dropRecord s author ctx a) :=
  hs.of_eq (dropRecord_mem _ _ _ _) (dropRecord_l2 _ _ _ _)
theorem agentWrite_yields {s : State} {f a : Nat} {bs : List Byte} (hs : Canonical s) : Yields (agentWrite s f a bs) :=
  fun _ ht => agentWrite_wf hs ht
theorem imageWrite_yields {s : State} {core c : Nat} {r : HartArea} {cs : Cells} {bad : List Nat} (hs : Canonical s) :
    Yields (imageWrite core c r cs bad s) :=
  fun _ ht => imageWrite_wf hs ht

/-! ## The operations of a context, translation and stores -/

theorem hvSend_yields {s : State} {f r : Nat} (hs : Canonical s) : Yields (hvSend s f r) :=
  .mapTo fun _ => outsideStore_wf _ _ (outsideStore_wf _ _ hs)
theorem stage2M_keeps {h c gpa : Nat} {k : Kind} {walk : Bool} {gva : Nat} {ka : Kind} :
    Keeps (stage2M h c gpa k walk gva ka) := by
  unfold stage2M
  refine .getBind fun s h0 => ?_
  extract_lets f asked
  clear_value asked
  split
  · exact .bind (.set (setFn_wf h0)) fun _ => .ite trap_keeps .pure
  · split
    · exact .guard (.set (stage2Cache_wf _ h0)) <| .pure
    · split
      · exact .throw
      · rename_i h1
        exact .bind (.set ((hvSend_yields (stage2Cache_wf _ h0) h1).of_eq rfl rfl)) fun _ => .throw
theorem keepDeclined_wf {h c : Nat} {s t : State} (ht : Canonical t) : Canonical (keepDeclined h c s t) := by
  unfold keepDeclined
  refine .ite ht ?_
  split
  · exact ht
  · exact ht.of_eq rfl rfl
theorem forgetDeclined_wf {h c : Nat} {vas : List Nat} {s : State} (hs : Canonical s) :
    Canonical (forgetDeclined h c vas s) := .ite hs (setFn_wf hs)
theorem walkM_keeps {h c va rep : Nat} {k : Kind} {l : List Nat} {t : Nat} : Keeps (walkM h c va rep k l t) := by
  induction l generalizing t with
  | nil => exact trap_keeps
  | cons lvl ls ih =>
    unfold walkM
    refine .bind .get fun _ => ?_
    split
    · exact .ite ih .pure
    · refine .bind stage2M_keeps fun _ => ?_
      split
      · exact trap_keeps
      · exact .getBind fun _ h1 => .guard trap_keeps <| .guard trap_keeps <|
          .guard₂ (.set (h1.of_eq rfl rfl)) (fun _ => trap_keeps) <| .bind modCtx_keeps fun _ => .ite ih .pure
theorem lookupM_keeps {h c va rep : Nat} {k : Kind} : Keeps (lookupM h c va rep k) := .bind .get fun _ => walkM_keeps
theorem dropM_keeps {c va : Nat} : Keeps (dropM c va) := modCtx_keeps
theorem translateM_keeps {h c va rep : Nat} {k : Kind} {fuel : Nat} : Keeps (translateM h c va rep k fuel) := by
  induction fuel with
  | zero => exact trap_keeps
  | succ n ih =>
    unfold translateM
    exact .guard trap_keeps <| .bind lookupM_keeps fun _ => .guard .throw <| .guard trap_keeps <| .ite .pure <|
      .getBind fun _ h0 => .ite (.bind (.set (outsideStore_wf _ _ h0)) fun _ => .bind modCtx_keeps fun _ => .pure) <|
        .bind dropM_keeps fun _ => ih
theorem locateGpa_keeps {h va rep : Nat} {k : Kind} {strong : Bool} : Keeps (locateGpa h va rep k strong) := by
  unfold locateGpa
  refine .bind ctxM_keeps fun _ => ?_
  split
  split
  · exact .ite trap_keeps .pure
  · refine .bind .get fun _ => .bind hartNo_keeps fun _ => .bind translateM_keeps fun _ => .bind ctxM_keeps fun _ =>
      ?_
    split
    refine .bind hartNo_keeps fun _ => ?_
    split
    · exact .pure
    · exact .guard trap_keeps <| .bind .get fun _ => .guard hold_keeps <| .pure
theorem locate_keeps {h va rep : Nat} {k : Kind} {strong : Bool} : Keeps (locate h va rep k strong) := by
  unfold locate
  refine .bind locateGpa_keeps fun _ => ?_
  split
  · refine .bind ctxM_keeps fun _ => ?_
    split
    refine .bind stage2M_keeps fun _ => ?_
    split
    · exact .pure
    · exact .pure
  · exact .pure
theorem locateN_keeps {h va n : Nat} {k : Kind} {strong : Bool} : Keeps (locateN h va n k strong) := by
  unfold locateN
  refine .bind locate_keeps fun _ => ?_
  split
  · exact .guard trap_keeps <| .pure
  · exact .ite .pure (.bind locate_keeps fun _ => .pure)
theorem reportM_keeps {ls : List Loc} : Keeps (reportM ls) := by
  refine .eachOf fun l => ?_
  cases l with
  | phys a => exact .modify fun _ h0 => peerReport_wf h0
  | scr _ => exact .pure
  | dead _ => exact .pure
theorem loadRaw_keeps {h va n : Nat} : Keeps (loadRaw h va n) :=
  .bind locateN_keeps fun _ => .bind .get fun _ => .guard hold_keeps <| .bind reportM_keeps fun _ => .pure
theorem loadM_keeps {h va n : Nat} : Keeps (loadM h va n) := by
  unfold loadM
  refine .bind loadRaw_keeps fun _ => ?_
  split
  split
  · exact trap_keeps
  · exact .pure
theorem foldM_keeps {h va : Nat} {bs : List Byte} : Keeps (foldM h va bs) :=
  .bind ctxM_keeps fun _ => .bind hartNo_keeps fun _ => .ite .pure modHartNo_keeps
theorem dropDead_wf {author : Option Nat} {ctx : Nat} {ls : List Loc} {s : State} (hs : Canonical s) :
    Canonical (dropDead author ctx ls s) := by
  unfold dropDead
  split
  · exact dropRecord_wf hs
  · exact hs
theorem storeAt_keeps {h : Nat} {vec : Bool} {ls : List Loc} {bs : List Byte} : Keeps (storeAt h vec ls bs) :=
  .bind .get fun _ => .guard hold_keeps <| .bind reportM_keeps fun _ => .guard (.modify fun _ h1 => setSlot_wf h1) <|
    .bind (.modify fun _ h1 => dropDead_wf h1) fun _ => .ite modHartNo_keeps .pure
theorem storeM_keeps {h va : Nat} {bs : List Byte} : Keeps (storeM h va bs) :=
  .bind locateN_keeps fun _ => .bind storeAt_keeps fun _ => foldM_keeps
theorem takeHome_wf {h n : Nat} {mine : Nat → Bool} {s : State} (hs : Canonical s) :
    Canonical (takeHome h n mine s) := .ite (setHart_wf (homeStore_wf _ hs)) hs
theorem kinHome_wf {kin : List (Nat × Nat)} {mine : Nat → Bool} {s : State} (hs : Canonical s) :
    Canonical (kinHome kin mine s) :=
  foldr_wf (fun _ _ h0 => takeHome_wf h0) hs
theorem olderHome_wf {h n : Nat} {as : List Nat} {s : State} (hs : Canonical s) : Canonical (olderHome h n as s) :=
  takeHome_wf (kinHome_wf hs)
theorem markSeen_wf {h : Nat} {p : Pend → Bool} {ps pv : Undo → Bool} {s : State} (hs : Canonical s) :
    Canonical (markSeen h p ps pv s) := .ite hs (setHart_wf (setCtx_wf hs))
theorem ctxRecPut_wf {s : State} {c off x : Nat} (hs : Canonical s) : Canonical (ctxRecPut s c off x) :=
  getD_wf (agentWrite_yields hs) hs
theorem stallAnew_wf {s : State} {c : Nat} (hs : Canonical s) : Canonical (stallAnew s c) := .ite (mapHarts_wf hs) hs
theorem logAppend_yields {s : State} {c r : Nat} (hs : Canonical s) : Yields (logAppend s c r) := by
  unfold logAppend
  dsimp only
  refine .ite .none ?_
  split
  · exact .none
  · rename_i h0
    exact .some (stallAnew_wf (setCtx_wf (ctxRecPut_wf (agentWrite_yields hs h0))))
theorem logAdvance_wf {s : State} {c fuel : Nat} (hs : Canonical s) : Canonical (logAdvance s c fuel) := by
  induction fuel generalizing s with
  | zero => exact hs
  | succ n ih => exact .ite (ih (setCtx_wf (ctxRecPut_wf hs))) hs
theorem logConsume_wf {s : State} {c : Nat} {ps : List Nat} (hs : Canonical s) : Canonical (logConsume s c ps) :=
  logAdvance_wf (setCtx_wf hs)
theorem diverge_keeps {α : Type} {h reason : Nat} {seq : BitVec 32} : Keeps (diverge h reason seq : M α) :=
  .getBind fun _ h0 => .bind (.set (logConsume_wf h0)) fun _ => .guard modCtx_keeps <| .bind modHartNo_keeps fun _ =>
    trap_keeps
theorem logSweep_wf {c : Nat} {s : State} (hs : Canonical s) : Canonical (logSweep c s) := by
  unfold logSweep
  extract_lets s0
  have h0 : Canonical s0 := by
    refine .ite hs ?_
    split
    · exact hs
    · exact logConsume_wf hs
  exact .ite h0 (setCtx_wf (.ite h0 (logConsume_wf h0)))
theorem logCheckIn_keeps {h ty addr am aux xm : Nat} : Keeps (logCheckIn h ty addr am aux xm) := by
  unfold logCheckIn
  refine .bind .get fun _ => ?_
  dsimp only
  split
  · exact .pure
  · exact .ite stall_keeps .pure
  · refine .bind (.modify fun _ h1 => logSweep_wf h1) fun _ => .bind .get fun _ => ?_
    split
    · exact .ite diverge_keeps stall_keeps
    · exact .ite diverge_keeps .pure
theorem logCheck_keeps {h ty addr aux xm : Nat} : Keeps (logCheck h ty addr aux xm) := logCheckIn_keeps
theorem logDone_keeps {h ty addr aux ver vh : Nat} {r : Option (Nat × Nat)} :
    Keeps (logDone h ty addr aux ver vh r) := by
  unfold logDone
  refine .getBind fun _ h0 => ?_
  dsimp only
  split
  · exact .pure
  · split
    · exact .bind stall_keeps fun _ => modHartNo_keeps
    · rename_i h1
      exact .bind (.set (logAppend_yields h0 h1)) fun _ => modHartNo_keeps
  · split
    · exact .bind (.set (logConsume_wf h0)) fun _ => modHartNo_keeps
    · exact modHartNo_keeps
theorem versionBump_wf {s : State} {c va : Nat} (hs : Canonical s) : Canonical (versionBump s c va) :=
  getD_wf (agentWrite_yields hs) hs
theorem releasePart_wf {s : State} {h n : Nat} {own : Pend → Bool} {mine : Undo → Bool} (hs : Canonical s) :
    Canonical (releasePart s h n own mine) := setHart_wf (setCtx_wf (homeStore_wf _ (.ite hs (kinHome_wf hs))))
theorem releaseCut_wf {s : State} {h n : Nat} (hs : Canonical s) : Canonical (releaseCut s h n) := releasePart_wf hs
theorem acquireCut_wf {s : State} {h n : Nat} (hs : Canonical s) : Canonical (acquireCut s h n) :=
  setHart_wf (setCtx_wf hs)
theorem releaseAt_wf {s : State} {h : Nat} (hs : Canonical s) : Canonical (releaseAt s h) := releaseCut_wf hs
theorem acquireAt_wf {s : State} {h : Nat} (hs : Canonical s) : Canonical (acquireAt s h) := acquireCut_wf hs
theorem takeCut_keeps {h : Nat} {want : Option Nat} : Keeps (takeCut h want) := by
  unfold takeCut
  refine .bind .get fun _ => ?_
  split
  · exact .pure
  · exact .ite stall_keeps .pure
theorem boundary_keeps {h ev : Nat} {rel acq : Bool} {between : M Unit} (hb : Keeps between) :
    Keeps (boundary h ev rel acq between) := by
  unfold boundary
  exact .bind logCheck_keeps fun _ => .guard₂ hartNo_keeps (fun _ => diverge_keeps) <| .bind hartNo_keeps fun _ =>
    .guard₃ takeCut_keeps (fun _ => .modify fun _ h0 => releaseCut_wf h0) (fun _ _ => modHartNo_keeps) <|
    .bind hartNo_keeps fun _ => .guard₂ hb (fun _ => modHartNo_keeps) <| .choice takeCut_keeps .pure fun _ =>
    .guard (.modify fun _ h0 => acquireCut_wf h0) <| .bind hartNo_keeps fun _ => .bind logDone_keeps fun _ =>
    modHartNo_keeps
theorem completionSend_wf {s : State} {l : Launch} {status code b2 : Nat} (hs : Canonical s) :
    Canonical (completionSend s l status code b2) :=
  .ite (Canonical.of_eq (.ite hs (getD_wf (agentWrite_yields hs) hs)) rfl rfl) (.ite hs (getD_wf (agentWrite_yields
    hs) hs))
theorem leaveHart_wf {s : State} {h : Hart} (hs : Canonical s) : Canonical (leaveHart s h) := by
  unfold leaveHart
  extract_lets c s0 s1 x s2 sl s3 f y s4
  have h4 : Canonical s4 := setFn_wf (setSlot_wf (setCtx_wf (homeStore_wf _ (kinHome_wf hs))))
  clear_value s4
  exact h4.of_eq rfl rfl
theorem spillView_wf {k : Nat} {s : State} (hs : Canonical s) : Canonical (spillView k s) := hs.of_eq rfl rfl
theorem withSpilled_wf {k : Nat} {f : State → State} {s : State} (hf : ∀ s, Canonical s → Canonical (f s))
    (hs : Canonical s) : Canonical (withSpilled k f s) := by
  unfold withSpilled
  exact (hf _ (spillView_wf hs)).of_eq rfl rfl
theorem dropSpilled_wf {l : Nat} {s : State} {p : Nat × Spill} (hs : Canonical s) :
    Canonical (dropSpilled l s p) := (foldl_wf (fun _ _ h0 => homeStore_wf _ h0) hs).of_eq rfl rfl
theorem dropHarts_wf {s : State} {l : Nat} (hs : Canonical s) : Canonical (dropHarts s l) :=
  foldl_wf (fun _ _ h0 => dropSpilled_wf h0) (foldl_wf (fun _ _ h0 => leaveHart_wf h0) hs)
theorem skipRecords_wf {s : State} {l : Launch} (hs : Canonical s) : Canonical (skipRecords s l) :=
  .ite (logSweep_wf (setCtx_wf hs)) hs
theorem handlerFault_wf {s : State} {h : Hart} {nested pc2 : Word} (hs : Canonical s) :
    Canonical (handlerFault s h nested pc2) :=
  (dropHarts_wf (skipRecords_wf (completionSend_wf (eventSend_wf hs)))).of_eq rfl rfl
theorem poisonPlaces_wf {slot : Nat} {ls : List Loc} {s : State} (hs : Canonical s) :
    Canonical (poisonPlaces slot ls s) := .ite hs (setSlot_wf (hs.of_eq rfl rfl))
theorem poisonStored_wf {h : Nat} {ls bad : List Loc} {s : State} (hs : Canonical s) :
    Canonical (poisonStored h ls bad s) := poisonPlaces_wf (olderHome_wf hs)
theorem saveEntry_keeps {h : Nat} {spc : Word} : Keeps (saveEntry h spc) :=
  .bind ctxM_keeps fun _ => .bind hartNo_keeps fun _ => .bind storeM_keeps fun _ => .ite (.bind locateN_keeps fun _ =>
    .bind (.modify fun _ h0 => poisonStored_wf h0) fun _ => .bind storeM_keeps fun _ =>
    storeM_keeps) (.bind storeM_keeps fun _ => storeM_keeps)
theorem takeTrap_wf {s : State} {h : Nat} {c : Cause} {k : Kind} {val pos spc : Word} (hs : Canonical s) :
    Canonical (takeTrap s h c k val pos spc) := by
  unfold takeTrap
  dsimp only
  refine .ite (handlerFault_wf hs) ?_
  split
  · rename_i h0
    exact setHart_wf (saveEntry_keeps.ok (setHart_wf hs) h0)
  · rename_i h0
    exact handlerFault_wf (saveEntry_keeps.error (setHart_wf hs) h0)
  · rename_i h0
    exact setHart_wf (keepDeclined_wf (saveEntry_keeps.error (setHart_wf hs) h0))
  · rename_i h0
    exact setHart_wf (keepDeclined_wf (saveEntry_keeps.error (setHart_wf hs) h0))
theorem awaits_wf {s : State} {r : Run} {s' : State} (hs' : Canonical s') : Canonical (awaits s r s') := by
  unfold awaits
  exact (keepDeclined_wf hs').of_eq rfl rfl
theorem runScalar_wf {m : M Unit} {s : State} (hm : Keeps m) (hs : Canonical s) : Canonical (runScalar m s) := by
  unfold runScalar
  split
  · rename_i h0
    exact hm.ok hs h0
  · rename_i h0
    exact takeTrap_wf (hm.error hs h0)
  · rename_i h0
    exact awaits_wf (hm.error hs h0)
  · rename_i h0
    exact awaits_wf (hm.error hs h0)
theorem scalar_leads {m : M Unit} {s : State} (hm : Keeps m) (hs : Canonical s) : Leads (scalar m s) :=
  .next (runScalar_wf hm hs)

/-! ## The scalar unit -/

theorem sfResult_wf {s : State} {d : BitVec 6} {r : Nat × Flags} (hs : Canonical s) : Canonical (sfResult s d r) :=
  result_wf (withHart_wf hs)
theorem sf2_wf {op : Fmt → Frm → Nat → Nat → Nat × Flags} {p : BitVec 2} {d a b : BitVec 6} {s : State}
    (hs : Canonical s) : Canonical (sf2 op p d a b s) := sfResult_wf hs
theorem branch_wf {s : State} {p : Bool} {o : BitVec 13} (hs : Canonical s) : Canonical (State.branch s p o) :=
  .ite (goto_wf hs) (advance_wf hs)
theorem setVl_wf {s : State} {g : Nat} (hs : Canonical s) : Canonical (State.setVl s g) := withHart_wf hs
theorem stripped_wf {a : BitVec 6} {o : BitVec 13} {s : State} (hs : Canonical s) : Canonical (stripped a o s) :=
  .ite (goto_wf (setVl_wf (withHart_wf hs))) (advance_wf (withHart_wf hs))
theorem ldM_keeps {d a : BitVec 6} {o : BitVec 10} {z : BitVec 3} : Keeps (ldM d a o z) :=
  .bind hart_keeps fun _ => .guard trap_keeps <| .bind loadM_keeps fun _ => .modify fun _ h0 => result_wf h0
theorem stM_keeps {d a : BitVec 6} {o : BitVec 10} {z : BitVec 3} : Keeps (stM d a o z) :=
  .bind hart_keeps fun _ => .guard trap_keeps <| .bind storeM_keeps fun _ => nextInstr_keeps
theorem scratchFree_keeps {h : Nat} {ls : List Loc} : Keeps (scratchFree h ls) :=
  .bind .get fun _ => .ite hold_keeps .pure
theorem strongRead_keeps {h : Nat} {ls : List Loc} : Keeps (strongRead h ls) :=
  .bind .get fun _ => .bind reportM_keeps fun _ => .pure
theorem bringHome_wf {s : State} {h : Nat} {ls : List Loc} (hs : Canonical s) : Canonical (bringHome s h ls) :=
  olderHome_wf hs
theorem strongWrite_keeps {h va : Nat} {vec : Bool} {ls : List Loc} {bs : List Byte} :
    Keeps (strongWrite h va vec ls bs) :=
  .getBind fun _ h0 => .ite (.bind (.set (setSlot_wf h0)) fun _ => foldM_keeps) (.bind reportM_keeps fun _ =>
    .bind (.modify fun _ h1 => dropDead_wf h1) fun _ => .bind (.modify fun _ h1 =>
    homeStore_wf _ (bringHome_wf h1)) fun _ => .bind modHartNo_keeps fun _ => foldM_keeps)
theorem objectBegin_keeps {h ty va aux mask : Nat} {scr : Bool} : Keeps (objectBegin h ty va aux mask scr) := by
  unfold objectBegin
  refine .ite .pure <| .bind logCheck_keeps fun _ => ?_
  split
  · exact .pure
  · exact .bind ctxM_keeps fun _ => .bind .get fun _ => .guard stall_keeps <| .pure
theorem objectEnd_keeps {h ty va aux : Nat} {v : Word} {scr : Bool} {r : Option (Nat × Nat)} :
    Keeps (objectEnd h ty va aux v scr r) :=
  .ite .pure (.bind ctxM_keeps fun _ => .ite (.bind .get fun _ => .bind (.modify fun _ h1 =>
    versionBump_wf h1) fun _ => logDone_keeps) .pure)
theorem divergeAfter_keeps {h : Nat} {r : Option (Nat × Nat)} {v : Word} {seq : BitVec 32} :
    Keeps (divergeAfter h r v seq) := .ite diverge_keeps .pure
theorem drained_keeps : Keeps (drained) := .bind hart_keeps fun _ => .ite hold_keeps .pure
theorem ldsM_keeps {d a : BitVec 6} {q : BitVec 1} {z : BitVec 3} : Keeps (ldsM d a q z) := by
  unfold ldsM
  refine .bind hart_keeps fun _ => ?_
  refine .guard trap_keeps ?_
  refine .bind locateN_keeps fun _ => ?_
  split
  refine .bind scratchFree_keeps fun _ => .bind objectBegin_keeps fun _ => .bind strongRead_keeps fun _ => ?_
  split
  extract_lets v after rest
  have hrest (r) : Keeps (rest r) := .bind objectEnd_keeps fun _ => .bind (.modify fun _ h0 => setS_wf h0) fun _ =>
    .guard (.modify fun _ h0 => acquireAt_wf h0) <| .bind nextInstr_keeps fun _ => divergeAfter_keeps
  split
  · exact .bind trap_keeps hrest
  · exact hrest ()
theorem stsM_keeps {d a : BitVec 6} {rl : BitVec 1} {z : BitVec 3} : Keeps (stsM d a rl z) :=
  .bind hart_keeps fun _ => .guard trap_keeps <| .bind locateN_keeps fun _ => .bind scratchFree_keeps fun _ =>
    .guard drained_keeps <| .bind objectBegin_keeps fun _ => .guard diverge_keeps <| .guard (.modify fun _ h0 =>
    releaseAt_wf h0) <| .bind strongWrite_keeps fun _ => .bind objectEnd_keeps fun _ => nextInstr_keeps
theorem amoStep_keeps {h va : Nat} {ls : List Loc} {op w opd cmp : Nat} {r : Option (Nat × Nat)} :
    Keeps (amoStep h va ls op w opd cmp r) := by
  unfold amoStep
  refine .bind (.modify fun _ h0 => bringHome_wf h0) fun _ => .bind strongRead_keeps fun _ => ?_
  split
  dsimp only
  split
  · exact .bind trap_keeps fun _ => .bind strongWrite_keeps fun _ => .bind objectEnd_keeps fun _ => .pure
  · exact .bind strongWrite_keeps fun _ => .bind objectEnd_keeps fun _ => .pure
theorem amoM_keeps {d a b : BitVec 6} {o : BitVec 4} {wd q rl : BitVec 1} : Keeps (amoM d a b o wd q rl) :=
  .bind hart_keeps fun _ => .guard trap_keeps <| .bind locateN_keeps fun _ => .bind scratchFree_keeps fun _ =>
    .guard drained_keeps <| .bind objectBegin_keeps fun _ => .guard (.modify fun _ h0 => releaseAt_wf h0) <|
    .bind amoStep_keeps fun _ => .bind (.modify fun _ h0 => setS_wf h0) fun _ => .guard (.modify fun _ h0 =>
    acquireAt_wf h0) <| .bind nextInstr_keeps fun _ => divergeAfter_keeps
theorem waitvalM_keeps {d a : BitVec 6} {q wd : BitVec 1} {cc : BitVec 3} : Keeps (waitvalM d a q wd cc) := by
  unfold waitvalM
  refine .bind hart_keeps fun _ => .guard trap_keeps <| .bind locateN_keeps fun _ => ?_
  split
  refine .bind scratchFree_keeps fun _ => .bind .get fun _ => ?_
  refine .choice .pure objectBegin_keeps fun _ => .bind strongRead_keeps fun _ => ?_
  split
  extract_lets v after rest
  have hrest (r) : Keeps (rest r) := by
    refine .ite (.choice objectBegin_keeps .pure fun _ => .bind objectEnd_keeps fun _ => .guard (.modify fun _ h1 =>
      acquireAt_wf h1) <| .bind nextInstr_keeps fun _ => divergeAfter_keeps) <| .ite diverge_keeps <|
      .bind .get fun _ => ?_
    split
    · exact .throw
    · exact .throw
    · exact hold_keeps
  split
  · exact .bind trap_keeps hrest
  · exact hrest ()

/-! ## Operands and lanes -/

theorem resumed_keeps {m : M Unit} (hm : Keeps m) : Keeps (resumed m) := by
  unfold resumed
  refine .bind hart_keeps fun _ => ?_
  split
  · exact hm
  · refine .bind setHartM_keeps fun _ => .bind (.attempt hm) fun _ => .bind modHart_keeps fun _ => ?_
    split
    · exact .pure
    · exact .throw
theorem squash_keeps {α : Type} {v : Word} : Keeps (squash v : M α) := .bind modHart_keeps fun _ => trap_keeps
theorem lateReg_keeps {r : BitVec 6} : Keeps (lateReg r) := .bind hart_keeps fun _ => .ite squash_keeps .pure
theorem consume_keeps {k : BitVec 4} {rs : List (Nat × Nat)} : Keeps (consume k rs) :=
  .bind hart_keeps fun _ => .ite squash_keeps .pure
theorem consumeAll_keeps {n : Nat} {rs : List (Nat × Nat)} : Keeps (consumeAll n rs) :=
  .bind hart_keeps fun _ => .ite squash_keeps .pure
theorem refuse_keeps {α : Type} {i : Instr} : Keeps (refuse i : M α) := .bind modHart_keeps fun _ => illegal_keeps
theorem laneRun_keeps {w : BitVec 32} {x : Word} {m : M Unit} (hm : Keeps m) : Keeps (laneRun w x m) := by
  unfold laneRun
  refine .getBind fun _ h0 => .ite (.bind hm fun _ => .pure) ?_
  dsimp only
  refine .guard hold_keeps <| .ite (.bind hm fun _ => .pure) <| .bind (.set (h0.of_eq rfl rfl)) fun _ =>
    .bind (.attempt hm) fun _ => ?_
  split
  · exact .pure
  · exact .ite .throw .pure
  · exact .bind hart_keeps fun _ => .ite .pure (.bind (.modify fun _ h1 => h1.of_eq rfl rfl) fun _ => .throw)
theorem laneSquash_wf {s0 : State} {hits : List (Nat × Nat × Nat)} (hs0 : Canonical s0) :
    Canonical (laneSquash s0 hits) := withHart_wf (hs0.of_eq rfl rfl)
theorem laneM_keeps {w : BitVec 32} {x : Word} {m : M Unit} (hm : Keeps m) : Keeps (laneM w x m) :=
  .getBind fun _ h0 => .bind (laneRun_keeps hm) fun _ => .ite (.bind (.set (laneSquash_wf h0)) fun _ => .throw) .pure
theorem underNote_keeps {e : QEntry} {m : M Unit} (hm : Keeps m) : Keeps (underNote e m) := by
  unfold underNote
  refine .bind hart_keeps fun _ => .ite hm <| .bind setHartM_keeps fun _ => .bind (.attempt hm) fun _ =>
    .bind modHart_keeps fun _ => ?_
  split
  · exact .pure
  · exact .throw
theorem headEnd_wf {s : State} {e : QEntry} {r : EStateM.Result Stop State Unit} (hr : Canonical (leftBy r)) :
    Canonical (headEnd s e r) := by
  unfold headEnd
  split
  · exact withHart_wf hr
  · exact takeTrap_wf hr
  · exact awaits_wf hr
  · exact awaits_wf hr
theorem headBody_keeps {m : Cap → M Unit} {e : QEntry} (hm : ∀ a, Keeps (m a)) : Keeps (headBody m e) :=
  underNote_keeps (resumed_keeps (hm _))
theorem headRun_keeps {m : Cap → M Unit} {e : QEntry} (hm : ∀ a, Keeps (m a)) : Keeps (headRun m e) :=
  laneM_keeps (headBody_keeps hm)
theorem runHead_wf {m : Cap → M Unit} {s : State} (hm : ∀ a, Keeps (m a)) (hs : Canonical s) : Canonical (runHead m s) := by
  unfold runHead
  split
  · exact hs
  · exact headEnd_wf ((headRun_keeps hm).left s hs)
theorem illegalHere_wf {i : Instr} {s : State} (hs : Canonical s) : Canonical (illegalHere i s) := takeTrap_wf hs
theorem maskedRecord_wf {w : BitVec 32} {pc : Word} {s : State} (hs : Canonical s) :
    Canonical (maskedRecord w pc s) := .ite hs (getD_wf (hvSend_yields hs) hs)
theorem absentHere_wf {i : Instr} {s : State} (hs : Canonical s) : Canonical (absentHere i s) :=
  illegalHere_wf (maskedRecord_wf hs)
theorem vecIssue_leads {i : Instr} {m : Cap → M Unit} {s : State} (hm : ∀ a, Keeps (m a)) (hs : Canonical s) :
    Leads (vecIssue i m s) :=
  .ite (.next (illegalHere_wf hs)) (.ite (.next (withHart_wf hs)) (.next (.ite (runHead_wf hm (withHart_wf hs))
    (withHart_wf hs))))

/-! ## Vector instructions -/

theorem binaryM_keeps {i : Instr} {ok : ET → Bool} {d a b : BitVec 6} {k : BitVec 4} {z s : BitVec 1}
    {op : ET → Frm → Nat → Nat → Nat × Flags} {c : Cap} : Keeps (binaryM i ok d a b k z s op c) :=
  .bind hart_keeps fun _ => .guard refuse_keeps <| .bind consume_keeps fun _ => setHartM_keeps
theorem unaryM_keeps {i : Instr} {d a : BitVec 6} {k : BitVec 4} {z : BitVec 1}
    {op : Fmt → Frm → Nat → Nat × Flags} {cap : Cap} : Keeps (unaryM i d a k z op cap) :=
  .bind hart_keeps fun _ => .guard refuse_keeps <| .bind consume_keeps fun _ => setHartM_keeps
theorem vfmaM_keeps {d a b : BitVec 6} {k : BitVec 4} {z s n : BitVec 1} {c : Cap} :
    Keeps (vfmaM d a b k z s n c) :=
  .bind hart_keeps fun _ => .guard refuse_keeps <| .bind consume_keeps fun _ => setHartM_keeps
theorem compareM_keeps {i : Instr} {ok : ET → Bool} {d : BitVec 4} {a b : BitVec 6} {k : BitVec 4}
    {z s : BitVec 1} {op : ET → Nat → Nat → Bool × Flags} {c : Cap} : Keeps (compareM i ok d a b k z s op c) :=
  .bind hart_keeps fun _ => .guard refuse_keeps <| .bind consume_keeps fun _ => setHartM_keeps
theorem kopM_keeps {d a b o : BitVec 4} {cap : Cap} : Keeps (kopM d a b o cap) := modHart_keeps
theorem kpopM_keeps {d : BitVec 6} {a k : BitVec 4} {cap : Cap} : Keeps (kpopM d a k cap) := modHart_keeps
theorem kfirstM_keeps {d : BitVec 6} {a k : BitVec 4} {cap : Cap} : Keeps (kfirstM d a k cap) := modHart_keeps
theorem kmovM_keeps {d a : BitVec 4} {cap : Cap} : Keeps (kmovM d a cap) := modHart_keeps
theorem vcvtM_keeps {d a : BitVec 6} {st : BitVec 3} {k : BitVec 4} {z : BitVec 1} {cap : Cap} :
    Keeps (vcvtM d a st k z cap) :=
  .bind hart_keeps fun _ => .guard refuse_keeps <| .bind consume_keeps fun _ => setHartM_keeps
theorem vnarrowM_keeps {d : BitVec 6} {a : BitVec 5} {nm : BitVec 2} {k : BitVec 4} {z : BitVec 1} {cap : Cap} :
    Keeps (vnarrowM d a nm k z cap) := by
  unfold vnarrowM
  refine .bind hart_keeps fun _ => ?_
  split
  · exact refuse_keeps
  · exact .guard refuse_keeps <| .guard squash_keeps <| setHartM_keeps
theorem vwidenM_keeps {d : BitVec 5} {a : BitVec 6} {u : BitVec 1} {k : BitVec 4} {z : BitVec 1} {cap : Cap} :
    Keeps (vwidenM d a u k z cap) := by
  unfold vwidenM
  refine .bind hart_keeps fun _ => ?_
  split
  · exact refuse_keeps
  · exact .guard refuse_keeps <| .bind consume_keeps fun _ => setHartM_keeps
theorem vmergeM_keeps {d a b : BitVec 6} {k : BitVec 4} {s : BitVec 1} {c : Cap} : Keeps (vmergeM d a b k s c) :=
  .bind hart_keeps fun _ => .guard squash_keeps <| setHartM_keeps
theorem gatherM_keeps {d : BitVec 6} {r : Nat} {k : BitVec 4} {z : BitVec 1} {src : Hart → Nat → Option Nat} :
    Keeps (gatherM d r k z src) := .bind hart_keeps fun _ => .guard squash_keeps <| setHartM_keeps
theorem vpermM_keeps {d a b : BitVec 6} {k : BitVec 4} {z : BitVec 1} {cap : Cap} : Keeps (vpermM d a b k z cap) :=
  .bind hart_keeps fun _ => .bind consume_keeps fun _ => gatherM_keeps
theorem vslideM_keeps {d a : BitVec 6} {k : BitVec 4} {z r : BitVec 1} {c : Cap} : Keeps (vslideM d a k z r c) :=
  .bind hart_keeps fun _ => .ite gatherM_keeps (.guard squash_keeps <| setHartM_keeps)
theorem vcompressM_keeps {d a : BitVec 6} {k : BitVec 4} {z : BitVec 1} {cap : Cap} :
    Keeps (vcompressM d a k z cap) := .bind hart_keeps fun _ => .bind consume_keeps fun _ => setHartM_keeps
theorem vexpandM_keeps {d a : BitVec 6} {k : BitVec 4} {z : BitVec 1} {cap : Cap} : Keeps (vexpandM d a k z cap) :=
  gatherM_keeps
theorem viotaM_keeps {d : BitVec 6} {k : BitVec 4} {z : BitVec 1} {cap : Cap} : Keeps (viotaM d k z cap) :=
  .bind hart_keeps fun _ => .guard refuse_keeps <| setHartM_keeps
theorem vbcastM_keeps {d a : BitVec 6} {k : BitVec 4} {z f : BitVec 1} {c : Cap} : Keeps (vbcastM d a k z f c) :=
  .bind hart_keeps fun _ => .ite setHartM_keeps gatherM_keeps
theorem illegalReg_keeps {α : Type} {r : Nat} : Keeps (illegalReg r : M α) := .bind modHart_keeps fun _ => trap_keeps
theorem vmovxM_keeps {d a : BitVec 6} {k : BitVec 4} {z y : BitVec 1} {cap : Cap} : Keeps (vmovxM d a k z y cap) :=
  .bind lateReg_keeps fun _ => .bind hart_keeps fun _ => .guard illegalReg_keeps <| .bind consume_keeps fun _ =>
    setHartM_keeps
theorem vextM_keeps {d a : BitVec 6} {c : Cap} : Keeps (vextM d a c) :=
  .bind hart_keeps fun _ => .ite (.guard squash_keeps <| setHartM_keeps) setHartM_keeps
theorem vinsM_keeps {d : BitVec 6} {c : Cap} : Keeps (vinsM d c) :=
  .bind hart_keeps fun _ => .ite setHartM_keeps .pure
theorem reduceM_keeps {i : Instr} {ok : ET → Bool} {d a : BitVec 6} {k : BitVec 4} {seq : Bool}
    {op : ET → Frm → Nat → Nat → Nat × Flags} {out : ET → Nat → Word} {c : Cap} :
    Keeps (reduceM i ok d a k seq op out c) :=
  .bind hart_keeps fun _ => .guard refuse_keeps <| .bind consume_keeps fun _ => setHartM_keeps

/-! ## Algebra, tiles, checksums and the Lantern unit -/

theorem algldCore_keeps {va : Word} {tb : BitVec 1} : Keeps (algldCore va tb) := by
  unfold algldCore
  refine .bind hart_keeps fun _ => ?_
  dsimp only
  refine .guard trap_keeps <| .bind loadM_keeps fun _ => ?_
  split
  · exact trap_keeps
  · exact .bind ctxM_keeps fun _ => modCtx_keeps
theorem algldM_keeps {a : BitVec 6} {tb : BitVec 1} : Keeps (algldM a tb) :=
  .bind drained_keeps fun _ => .bind hart_keeps fun _ => .bind algldCore_keeps fun _ => nextInstr_keeps
theorem tupleLen_keeps {α : Type} {vl div : Nat} : Keeps (tupleLen vl div : M α) :=
  .bind modHart_keeps fun _ => trap_keeps
theorem algtab_keeps {α : Type} {code tb : Nat} : Keeps (algtab code tb : M α) :=
  .bind modHart_keeps fun _ => trap_keeps
theorem vtmulM_keeps {d a b : BitVec 6} {k : BitVec 4} {z tb : BitVec 1} {cap : Cap} :
    Keeps (vtmulM d a b k z tb cap) := by
  unfold vtmulM
  refine .bind hart_keeps fun _ => ?_
  dsimp only
  refine .guard refuse_keeps <| .bind .get fun _ => ?_
  split
  · exact algtab_keeps
  · exact .guard tupleLen_keeps <| .guard squash_keeps <| setHartM_keeps
theorem vtconjM_keeps {d a : BitVec 6} {k : BitVec 4} {z tb v : BitVec 1} {cap : Cap} :
    Keeps (vtconjM d a k z tb v cap) := by
  unfold vtconjM
  refine .bind hart_keeps fun _ => ?_
  dsimp only
  refine .guard refuse_keeps <| .bind .get fun _ => ?_
  split
  · exact algtab_keeps
  · exact .guard tupleLen_keeps <| .guard squash_keeps <| setHartM_keeps
theorem matrixType_keeps {α : Type} {code ar : Nat} : Keeps (matrixType code ar : M α) :=
  .bind modHart_keeps fun _ => trap_keeps
theorem poisonRow_keeps {α : Type} : Keeps (poisonRow : M α) := squash_keeps
theorem slotM_keeps : Keeps (slotM) := .bind .get fun _ => .pure
theorem setSlotM_keeps {x : Slot} : Keeps (setSlotM x) := .modify fun _ h0 => setSlot_wf h0
theorem xReg_keeps {x : BitVec 1} {a : BitVec 6} : Keeps (xReg x a) :=
  .ite (.bind lateReg_keeps fun _ => .ite illegalReg_keeps .pure) .pure
theorem rowCommit_keeps {r : Nat} {z : BitVec 1} {ii bad : Bool} {o : RowOut} : Keeps (rowCommit r z ii bad o) :=
  .bind slotM_keeps fun _ => .bind setSlotM_keeps fun _ => modHart_keeps
theorem rowTile_keeps {r : Nat} : Keeps (rowTile r) := by
  unfold rowTile
  refine .bind hart_keeps fun _ => .bind slotM_keeps fun _ => ?_
  split
  · exact matrixType_keeps
  · split
    · exact matrixType_keeps
    · exact hold_keeps
    · exact .pure
theorem mrowM_keeps {r : BitVec 10} {a : BitVec 6} {co ts : BitVec 2} {z x : BitVec 1} {f : BitVec 3} {c : Cap} :
    Keeps (mrowM r a co ts z x f c) := by
  unfold mrowM
  refine .bind hart_keeps fun _ => .bind .get fun _ => ?_
  dsimp only
  refine .guard hold_keeps <| .bind xReg_keeps fun _ => .bind rowTile_keeps fun _ => ?_
  split
  · exact refuse_keeps
  · refine .guard (.modify fun _ h1 => maskedRecord_wf h1) <| .guard refuse_keeps <| .bind slotM_keeps fun _ =>
      .guard matrixType_keeps <| .ite (.guard matrixType_keeps <| .bind (.guard poisonRow_keeps <|
      .ite squash_keeps .pure) fun _ => rowCommit_keeps) ?_
    split
    · exact algtab_keeps
    · exact .guard algtab_keeps <| .guard algtab_keeps <| .bind (.guard poisonRow_keeps <|
        .ite squash_keeps .pure) fun _ => rowCommit_keeps
theorem columnsOk_keeps {r : Nat} {co : BitVec 2} {w : Nat} : Keeps (columnsOk r co w) :=
  .bind hart_keeps fun _ => .bind slotM_keeps fun _ => .guard matrixType_keeps <| .guard matrixType_keeps <| .pure
theorem mrdM_keeps {r : BitVec 10} {a : BitVec 6} {co sm : BitVec 2} {x : BitVec 1} {f : BitVec 3} {cap : Cap} :
    Keeps (mrdM r a co sm x f cap) :=
  .bind hart_keeps fun _ => .bind xReg_keeps fun _ => .bind columnsOk_keeps fun _ => .guard poisonRow_keeps <|
    .guard consumeAll_keeps <| .bind .get fun _ => .bind setHartM_keeps fun _ => .guard (.modify fun _ h1 =>
    h1.of_eq rfl rfl) <| .ite (.bind slotM_keeps fun _ => setSlotM_keeps) .pure
theorem mwrM_keeps {r : BitVec 10} {a : BitVec 6} {co : BitVec 2} {z x : BitVec 1} {f : BitVec 3} {cap : Cap} :
    Keeps (mwrM r a co z x f cap) :=
  .bind hart_keeps fun _ => .bind .get fun _ => .bind xReg_keeps fun _ => .bind columnsOk_keeps fun _ =>
    .guard poisonRow_keeps <| .bind consumeAll_keeps fun _ => .bind slotM_keeps fun _ => .bind setSlotM_keeps fun _ =>
    .ite modHart_keeps .pure
theorem mclrM_keeps {r : BitVec 10} {n : BitVec 6} {f : BitVec 3} {cap : Cap} : Keeps (mclrM r n f cap) :=
  .bind slotM_keeps fun _ => setSlotM_keeps
theorem checkRegions_keeps {n g : Nat} : Keeps (checkRegions n g) := by
  induction n generalizing g with
  | zero => exact modHart_keeps
  | succ n ih =>
    unfold checkRegions
    refine .bind hart_keeps fun _ => .bind slotM_keeps fun _ => ?_
    dsimp only
    split
    · exact .bind setSlotM_keeps fun _ => .bind .get fun _ => .bind modHart_keeps fun _ => .guard (.modify fun _ h1 =>
        h1.of_eq rfl rfl) <| .throw
    · exact .bind setSlotM_keeps fun _ => ih
theorem mchkM_keeps {r n : BitVec 5} {cap : Cap} : Keeps (mchkM r n cap) :=
  .bind slotM_keeps fun _ => .guard matrixType_keeps <| .guard poisonRow_keeps <| checkRegions_keeps
theorem mlocM_keeps {r : BitVec 5} {d : BitVec 6} {cap : Cap} : Keeps (mlocM r d cap) :=
  .bind hart_keeps fun _ => .bind slotM_keeps fun _ => setHartM_keeps
theorem mfixM_keeps {r : BitVec 5} {_a : BitVec 6} {c : Cap} : Keeps (mfixM r _a c) := by
  unfold mfixM
  refine .bind hart_keeps fun _ => .bind slotM_keeps fun _ => ?_
  dsimp only
  split
  · exact .guard matrixType_keeps <| .guard poisonRow_keeps <| setSlotM_keeps
  · exact matrixType_keeps

/-! ## Vector memory -/

theorem discardAt_wf {ls : List Loc} {s : State} (hs : Canonical s) : Canonical (discardAt ls s) :=
  foldl_wf (fun _ _ h0 => discardLine_wf h0) hs
theorem discardElems_wf {h : Nat} {ps : List (Nat × Nat × List Loc)} {s : State} (hs : Canonical s) :
    Canonical (discardElems h ps s) := discardAt_wf hs
theorem placeOne_keeps {h a w : Nat} {k : Kind} {raw : Bool} {ref : Nat} {strong drop : Bool} :
    Keeps (placeOne h a w k raw ref strong drop) := by
  unfold placeOne
  refine .guard trap_keeps <| .bind locateN_keeps fun _ => ?_
  dsimp only
  exact .guardAny locateN_keeps <| .ite (.guard trap_keeps <| .guard trap_keeps <| .pure) .pure
theorem placeAll_keeps {ff : Bool} {addr : Nat → Nat} {one : Nat → M (List Loc)} {l : List Nat}
    (hone : ∀ a, Keeps (one a)) : Keeps (placeAll ff addr one l) := by
  induction l with
  | nil => exact .pure
  | cons i t ih =>
    unfold placeAll
    refine .getBind fun _ h0 => .bind (.attempt (hone _)) fun _ => ?_
    split
    · exact .bind ih fun _ => .pure
    · exact .throw
    · exact .guard (.set h0) <| .pure
    · exact .pure
theorem vmemPlaces_keeps {c : Cap} {k : BitVec 4} {m : BitVec 2} {b : BitVec 6} {raw ff hn : Bool} {kd : Kind} :
    Keeps (vmemPlaces c k m b raw ff hn kd) := by
  unfold vmemPlaces
  refine .bind hart_keeps fun _ => ?_
  dsimp only
  split
  · exact .pure
  · refine .guard squash_keeps <| .choice .pure (.attempt (.bind locateGpa_keeps fun _ => .pure)) fun _ => ?_
    split
    · exact .throw
    · exact .ite .pure .throw
    · exact .ite (.bind (placeAll_keeps (fun _ => placeOne_keeps)) fun _ => .guard .throw <|
        .pure) (.bind (placeAll_keeps (fun _ => placeOne_keeps)) fun _ => .pure)
theorem vmemStop_keeps {ff : Bool} {p : Option (Nat × Stop)} : Keeps (vmemStop ff p) := by
  unfold vmemStop
  split
  · exact .pure
  · exact .ite modHart_keeps (.bind modHart_keeps fun _ => .throw)
theorem spansFree_keeps {h : Nat} {ps : List (Nat × Nat × List Loc)} : Keeps (spansFree h ps) :=
  .eachOf (fun _ => scratchFree_keeps)
theorem vmemPoison_keeps {ff : Bool} {stop : Option (Nat × Stop)} {v : Word} : Keeps (vmemPoison ff stop v) := by
  unfold vmemPoison
  split
  · exact .ite squash_keeps trap_keeps
  · exact squash_keeps
theorem vldM_keeps {d b : BitVec 6} {k : BitVec 4} {z : BitVec 1} {m : BitVec 2} {raw ff : Bool} {c : Cap} :
    Keeps (vldM d b k z m raw ff c) := by
  unfold vldM
  refine .bind hart_keeps fun _ => ?_
  dsimp only
  refine .bind vmemPlaces_keeps fun _ => .guard vmemPoison_keeps <| .bind spansFree_keeps fun _ =>
    .bind reportM_keeps fun _ => .bind .get fun _ => ?_
  split
  · exact .bind vmemPoison_keeps fun _ => .bind hart_keeps fun _ => .bind setHartM_keeps fun _ =>
      .guard (.modify fun _ h1 => discardElems_wf h1) <| vmemStop_keeps
  · exact .bind hart_keeps fun _ => .bind setHartM_keeps fun _ => .guard (.modify fun _ h1 => discardElems_wf h1) <|
      vmemStop_keeps
theorem vstM_keeps {d b : BitVec 6} {k : BitVec 4} {m : BitVec 2} {raw : Bool} {c : Cap} :
    Keeps (vstM d b k m raw c) :=
  .bind hart_keeps fun _ => .bind vmemPlaces_keeps fun _ => .guard vmemPoison_keeps <| .bind spansFree_keeps fun _ =>
    .guard vmemPoison_keeps <| .bind (.eachOf (fun _ => .bind storeAt_keeps fun _ => .bind foldM_keeps fun _ =>
    modHart_keeps)) fun _ => vmemStop_keeps
theorem vamoOne_keeps {d op w : Nat} {p : Nat × Nat × List Loc} : Keeps (vamoOne d op w p) := by
  unfold vamoOne
  refine .bind modHart_keeps fun _ => .bind hart_keeps fun _ => .bind objectBegin_keeps fun _ =>
    .bind (.modify fun _ h0 => bringHome_wf h0) fun _ => .bind strongRead_keeps fun _ => ?_
  split
  dsimp only
  split
  · exact .bind objectEnd_keeps fun _ => .bind modHart_keeps fun _ => .bind modHart_keeps fun _ => divergeAfter_keeps
  · exact .bind strongWrite_keeps fun _ => .bind objectEnd_keeps fun _ => .bind modHart_keeps fun _ =>
      .bind modHart_keeps fun _ => divergeAfter_keeps
theorem vamoRelease_wf {h : Nat} {s : State} (hs : Canonical s) : Canonical (vamoRelease h s) :=
  .ite (releaseAt_wf hs) (releasePart_wf hs)
theorem vamoDiverged_wf {h : Nat} {k : Kind} {v : Word} {s : State} (hs : Canonical s) :
    Canonical (vamoDiverged h k v s) := takeTrap_wf hs
theorem vamoM_keeps {d : BitVec 6} {o : BitVec 4} {sc : BitVec 2} {b : BitVec 6} {k : BitVec 4}
    {z q rl : BitVec 1} {cap : Cap} : Keeps (vamoM d o sc b k z q rl cap) := by
  unfold vamoM
  refine .bind hart_keeps fun _ => ?_
  dsimp only
  refine .guard refuse_keeps <| .bind (placeAll_keeps (fun _ => placeOne_keeps)) fun _ => .guard vmemPoison_keeps <|
    .bind spansFree_keeps fun _ => .guard (.modify fun _ h0 => vamoRelease_wf h0) <| .bind modHart_keeps fun _ =>
    .guard modHart_keeps <| .bind (.attempt (.eachOf (fun _ => vamoOne_keeps))) fun _ => ?_
  split
  · exact .bind modHart_keeps fun _ => .bind (.modify fun _ h0 => forgetDeclined_wf h0) fun _ =>
      .bind hart_keeps fun _ => .ite (.guard (.modify fun _ h0 => acquireAt_wf h0) <| .modify fun _ h0 =>
      vamoDiverged_wf h0) trap_keeps
  · exact .throw
  · exact .bind modHart_keeps fun _ => .bind (.modify fun _ h0 => forgetDeclined_wf h0) fun _ =>
      .bind vmemStop_keeps fun _ => .ite (.modify fun _ h0 => acquireAt_wf h0) .pure

/-! ## Engines -/

theorem engineRoom_keeps {cn : BitVec 4} {span : Option (Nat × Nat)} : Keeps (engineRoom cn span) :=
  .bind hart_keeps fun _ => .bind slotM_keeps fun _ => .guard hold_keeps <| .guard hold_keeps <| .ite hold_keeps .pure
theorem countUp_keeps {h cn : Nat} : Keeps (countUp h cn) := modHartNo_keeps
theorem engineIssue_keeps {o : EngOp} : Keeps (engineIssue o) :=
  .getBind fun _ h0 => .bind (.set (h0.of_eq rfl rfl)) fun _ => .bind slotM_keeps fun _ =>
    .bind setSlotM_keeps fun _ => countUp_keeps
theorem settle_wf {h cn n : Nat} {s : State} (hs : Canonical s) : Canonical (settle h cn n s) := by
  induction n generalizing s with
  | zero => exact hs
  | succ n ih =>
    unfold settle
    extract_lets ops
    split
    · exact hs
    · exact ih (.ite (setHart_wf hs) hs)
theorem engineDone_wf {slot : Nat} {o : EngOp} {s : State} (hs : Canonical s) : Canonical (engineDone slot o s) :=
  settle_wf (.ite (setSlot_wf hs) (setHart_wf (setSlot_wf hs)))
theorem pagesOf.go_keeps {k : Kind} {h : Nat} {l acc : List (Nat × Nat)} : Keeps (pagesOf.go k h l acc) := by
  induction l generalizing acc with
  | nil => exact .pure
  | cons p t ih =>
    unfold pagesOf.go
    refine .ite ih <| .bind locateGpa_keeps fun _ => ?_
    split
    · exact ih
    · exact ih
theorem pagesOf_keeps {k : Kind} {as : List (Nat × Nat)} : Keeps (pagesOf k as) := by
  unfold pagesOf
  exact .bind hart_keeps fun _ => pagesOf.go_keeps
theorem stage2Pages_keeps {c who n : Nat} {k : Kind} {l : List (Nat × Nat)} : Keeps (stage2Pages c who n k l) := by
  induction l with
  | nil => exact .pure
  | cons p t ih =>
    unfold stage2Pages
    refine .getBind fun s h0 => ?_
    extract_lets f rest
    have hrest (x) : Keeps (rest x) := .bind ih fun _ => .pure
    split
    · exact .choice .pure hold_keeps hrest
    · split
      · exact .guard (.set (stage2Cache_wf _ h0)) <| .bind .pure hrest
      · split
        · exact .bind hold_keeps hrest
        · rename_i s1 h1
          have hc : Canonical s1 := hvSend_yields (stage2Cache_wf _ h0) h1
          exact .bind (.set (hc.of_eq rfl rfl)) fun _ => .bind hold_keeps hrest
theorem dropEvents_wf {f n : Nat} {s : State} (hs : Canonical s) : Canonical (dropEvents f n s) :=
  .ite (setFn_wf hs) hs
theorem engineWrites_keeps {v : View} {ws : List EWrite} : Keeps (engineWrites v ws) := by
  unfold engineWrites
  exact .guard (.modify fun _ h0 => setSlot_wf h0) <| .bind (.modify fun _ h0 => dropDead_wf h0) fun _ =>
    .ite (.bind hartNo_keeps fun _ => .bind (.modify fun _ h0 =>
    .ite (homeStore_wf _ (olderHome_wf h0)) (homeStore_wf _ h0)) fun _ => .guard modHartNo_keeps <|
    .bind reportM_keeps fun _ => .bind (.modify fun _ h0 => poisonPlaces_wf h0) fun _ => .modify fun _ h0 =>
    .ite h0 (setSlot_wf h0)) (.bind reportM_keeps fun _ => .bind (.modify fun _ h0 => poisonPlaces_wf h0) fun _ =>
    .modify fun _ h0 => .ite h0 (setSlot_wf h0))
theorem recordRead_keeps {va : Nat} : Keeps (recordRead va) := by
  unfold recordRead
  refine .bind hart_keeps fun _ => .bind slotM_keeps fun _ => ?_
  split
  · exact .bind setSlotM_keeps fun _ => .pure
  · exact .bind loadM_keeps fun _ => .bind slotM_keeps fun _ => .bind setSlotM_keeps fun _ => .pure
theorem formatRec_keeps {α : Type} {ra reason : Nat} : Keeps (formatRec ra reason : M α) := trap_keeps
theorem recordAt_keeps {a : Word} : Keeps (recordAt a) := by
  unfold recordAt
  exact .guard trap_keeps <| recordRead_keeps
theorem xcopyM_keeps {a b : BitVec 6} {cn : BitVec 4} : Keeps (xcopyM a b cn) := by
  unfold xcopyM
  refine .bind hart_keeps fun h => .guard hold_keeps <| .bind recordAt_keeps fun r => .bind recordAt_keeps fun d => ?_
  extract_lets sa da op rest
  have hrest (u) : Keeps (rest u) := .bind pagesOf_keeps fun _ => .guardAny pagesOf_keeps <|
    .bind pagesOf_keeps fun _ => .bind ctxM_keeps fun _ => .bind engineRoom_keeps fun _ =>
    .bind engineIssue_keeps fun _ => nextInstr_keeps
  split
  · exact .bind formatRec_keeps hrest
  · exact hrest ()
theorem xfillM_keeps {a b : BitVec 6} {cn : BitVec 4} : Keeps (xfillM a b cn) := by
  unfold xfillM
  refine .bind hart_keeps fun _ => ?_
  dsimp only
  refine .guard hold_keeps <| .bind recordAt_keeps fun _ => ?_
  split
  · exact .choice formatRec_keeps formatRec_keeps fun _ => .bind pagesOf_keeps fun _ => .bind ctxM_keeps fun _ =>
      .bind engineRoom_keeps fun _ => .bind engineIssue_keeps fun _ => nextInstr_keeps
  · exact .guard formatRec_keeps <| .bind pagesOf_keeps fun _ => .bind ctxM_keeps fun _ =>
      .bind engineRoom_keeps fun _ => .bind engineIssue_keeps fun _ => nextInstr_keeps
theorem kvcommitM_keeps {a b : BitVec 6} {cn : BitVec 4} : Keeps (kvcommitM a b cn) := by
  unfold kvcommitM
  refine .bind hart_keeps fun _ => ?_
  dsimp only
  refine .guard hold_keeps <| .bind recordAt_keeps fun _ => .bind drained_keeps fun _ => .bind hart_keeps fun _ => ?_
  split
  · refine .bind formatRec_keeps fun _ => .bind pagesOf_keeps fun _ => .bind pagesOf_keeps fun _ =>
      .bind ctxM_keeps fun _ => ?_
    split
    · exact .bind trap_keeps fun _ => .guard trap_keeps <| .bind engineRoom_keeps fun _ =>
        .bind engineIssue_keeps fun _ => nextInstr_keeps
    · exact .guard trap_keeps <| .bind engineRoom_keeps fun _ => .bind engineIssue_keeps fun _ => nextInstr_keeps
  · refine .bind pagesOf_keeps fun _ => .bind pagesOf_keeps fun _ => .bind ctxM_keeps fun _ => ?_
    split
    · exact .bind trap_keeps fun _ => .guard trap_keeps <| .bind engineRoom_keeps fun _ =>
        .bind engineIssue_keeps fun _ => nextInstr_keeps
    · exact .guard trap_keeps <| .bind engineRoom_keeps fun _ => .bind engineIssue_keeps fun _ => nextInstr_keeps
theorem cacheParts_wf {c : Nat} {o : EngOp} {lo hi : Nat} {s : State} (hs : Canonical s) :
    Canonical (cacheParts c o lo hi s) := by
  unfold cacheParts
  exact .ite hs (foldl_wf (fun _ _ h0 => stage2Cache_wf _ h0) (foldl_wf (fun _ _ h0 => stage2Cache_wf _ h0) hs))
theorem engineMove_keeps {slot c : Nat} {o : EngOp} {hi : Nat} : Keeps (engineMove slot c o hi) :=
  .bind .get fun _ => .bind (.modify fun _ h1 => cacheParts_wf h1) fun _ => .bind engineWrites_keeps fun _ =>
    .bind (.modify fun _ h1 => setSlot_wf h1) fun _ => .ite (.bind stage2Pages_keeps fun _ =>
    .bind stage2Pages_keeps fun _ => hold_keeps) .pure
theorem enginePart_keeps {slot c : Nat} {o : EngOp} : Keeps (enginePart slot c o) := engineMove_keeps
theorem xcopyDone_keeps {slot c : Nat} {o : EngOp} : Keeps (xcopyDone slot c o) :=
  .bind engineMove_keeps fun _ => .guard₂ hartNo_keeps (fun _ => .modify fun _ h0 => discardAt_wf h0) <|
    .modify fun _ h0 => dropEvents_wf h0
theorem xfillDone_keeps {slot c : Nat} {o : EngOp} : Keeps (xfillDone slot c o) :=
  .bind engineMove_keeps fun _ => .modify fun _ h0 => dropEvents_wf h0
theorem kvcommitDone_keeps {slot c : Nat} {o : EngOp} : Keeps (kvcommitDone slot c o) :=
  .bind engineMove_keeps fun _ => .bind stage2Pages_keeps fun _ => .bind .get fun _ => .bind (.modify fun _ h1 =>
    discardAt_wf h1) fun _ => .bind engineWrites_keeps fun _ => .bind (.modify fun _ h1 => setSlot_wf h1) fun _ =>
    .modify fun _ h1 => dropEvents_wf h1
theorem agent_wf {m : M Unit} {s : State} (hm : Keeps m) (hs : Canonical s) : Canonical (agent m s) := by
  unfold agent
  split
  · rename_i h0
    exact hm.ok hs h0
  · rename_i h0
    exact hm.error hs h0
theorem engineComplete_wf {core slot n : Nat} {k : EngKind} {m : Nat → Nat → EngOp → M Unit} {s : State}
    (hm : ∀ i c o, Keeps (m i c o)) (hs : Canonical s) : Canonical (engineComplete core slot n k m s) := by
  unfold engineComplete
  dsimp only
  split
  · exact .ite hs (agent_wf (.bind (hm _ _ _) fun _ => .modify fun _ h0 => engineDone_wf h0) hs)
  · exact hs
theorem engineUnit_wf {core slot n : Nat} {s : State} (hs : Canonical s) : Canonical (engineUnit core slot n s) := by
  unfold engineUnit
  dsimp only
  split
  · refine .ite hs ?_
    split
    · rename_i h0
      exact enginePart_keeps.ok hs h0
    · rename_i h0
      exact enginePart_keeps.error hs h0
  · exact hs
theorem rcfenceM_keeps {a : BitVec 6} {one : BitVec 1} : Keeps (rcfenceM a one) :=
  .bind hart_keeps fun _ => .bind slotM_keeps fun _ => .bind setSlotM_keeps fun _ => nextInstr_keeps
theorem waitltM_keeps {c : BitVec 4} {t : BitVec 9} : Keeps (waitltM c t) :=
  .bind hart_keeps fun _ => .guard hold_keeps <| .ite (.bind (.modify fun _ h0 => markSeen_wf h0) fun _ =>
    nextInstr_keeps) .throw

/-! ## Weights -/

/-- What an image's read found before the place at which it stopped, to which a first-fault form goes back. -/
theorem imagePlaces_start {h pf : Nat} {l : List (Nat × Nat)} {acc : List Loc} {s t : State}
    {r : List Loc × Option (Stop × State)} (hs : Canonical s) (hr : imagePlaces h pf l acc s = .ok r t) {p : Stop × State}
    (hp : r.2 = some p) : Canonical p.2 := by
  induction l generalizing acc s with
  | nil =>
    cases hr
    nomatch hp
  | cons a l ih =>
    unfold imagePlaces at hr
    rw [M.get_bind, attempt_bind] at hr
    split at hr
    · rename_i h1
      refine ih (Keeps.ok ?_ hs h1) hr
      exact .bind locate_keeps fun _ => .guard trap_keeps .pure
    · rename_i e _ _
      cases e with
      | wait => cases hr
      | _ =>
        cases hr
        exact Option.some.inj hp ▸ hs
theorem imagePlaces_keeps {h pf : Nat} {l : List (Nat × Nat)} {acc : List Loc} : Keeps (imagePlaces h pf l acc) := by
  induction l generalizing acc with
  | nil => exact .pure
  | cons a l ih =>
    unfold imagePlaces
    refine .bind .get fun _ => .bind (.attempt (.bind locate_keeps fun _ => .guard trap_keeps .pure)) fun _ => ?_
    split
    · exact ih
    · exact .throw
    · exact .pure
theorem wldM_keeps {ff : Bool} {w : BitVec 4} {b : BitVec 6} {cn : BitVec 4} {c : Cap} : Keeps (wldM ff w b cn c) := by
  unfold wldM
  refine .bind hart_keeps fun _ => .bind modHart_keeps fun _ => .guard trap_keeps <| .bind locateGpa_keeps fun _ => ?_
  refine .guard trap_keeps <| .guard matrixType_keeps <| .bindOf imagePlaces_keeps imagePlaces_start fun r hr => ?_
  extract_lets op
  split
  extract_lets granted places load
  clear_value granted
  have hload (u) : Keeps (load u) := by
    refine .bind scratchFree_keeps fun _ => .bind engineRoom_keeps fun _ => .bind reportM_keeps fun _ => .bind .get fun _ => ?_
    dsimp only
    split
    · exact .bind slotM_keeps fun _ => .guard hold_keeps <| .bind setSlotM_keeps fun _ => trap_keeps
    · exact .bind slotM_keeps fun _ => .bind setSlotM_keeps fun _ => .bind engineIssue_keeps fun _ => .ite modHart_keeps .pure
  split
  · refine .guard .throw ?_
    split
    · exact .bind (.set (hr rfl)) hload
    · exact hload ()
  · exact hload ()
theorem wselM_keeps {w : BitVec 4} {cap : Cap} : Keeps (wselM w cap) := modHart_keeps
theorem wldDone_keeps {slot _c : Nat} {o : EngOp} : Keeps (wldDone slot _c o) := .modify fun _ h0 => setSlot_wf h0
theorem mtreeM_keeps {d : BitVec 4} {a _b : BitVec 6} {c : Cap} : Keeps (mtreeM d a _b c) :=
  .bind hart_keeps fun _ => .guard squash_keeps <| .bind setHartM_keeps fun _ => .ite modHart_keeps .pure

/-! ## Repeat frames -/

theorem fetchM_keeps {h : Nat} {pc : Word} : Keeps (fetchM h pc) := by
  unfold fetchM
  refine .bind locateN_keeps fun _ => ?_
  split
  refine .bind .get fun _ => ?_
  dsimp only
  split
  · exact .guard trap_keeps <| .pure
  · split
    · exact trap_keeps
    · exact .pure
/-- What a frame may capture keeps the form. -/
theorem captured_means {i : Instr} : Means (captured i) := by
  cases i with
  | vadd | vsub | vmul | vmulh | vmin | vmax | vand | vor | vxor | vshl | vshr | vsar | vaddsat | vsubsat | vfadd | vfsub
  | vfmul | vfdiv | vfmin | vfmax | vfsgn => exact .some fun _ => binaryM_keeps
  | vfsqrt | vfrcp | vfrsq | vfexp2 | vflog2 => exact .some fun _ => unaryM_keeps
  | vcmp | vfcmp => exact .some fun _ => compareM_keeps
  | vfma => exact .some fun _ => vfmaM_keeps
  | vcvt => exact .some fun _ => vcvtM_keeps
  | vnarrow => exact .some fun _ => vnarrowM_keeps
  | vwiden => exact .some fun _ => vwidenM_keeps
  | vtmul => exact .some fun _ => vtmulM_keeps
  | vtconj => exact .some fun _ => vtconjM_keeps
  | mrow => exact .some fun _ => mrowM_keeps
  | _ => exact .none
theorem frameWords_keeps {h n : Nat} {w : Word} : Keeps (frameWords h n w) := by
  induction n generalizing w with
  | zero => exact .pure
  | succ n ih =>
    unfold frameWords
    refine .bind (.attempt fetchM_keeps) fun _ => ?_
    split
    · exact .pure
    · dsimp only
      split
      · exact .pure
      · refine .bind .get fun _ => .guard (.modify fun _ h1 => maskedRecord_wf h1) <| .bind .get fun _ => .ite .pure ?_
        refine .bind ih fun _ => ?_
        split
        · exact .pure
        · exact .pure
theorem lateScalars_keeps {bad : Bool} {m : M Unit} (hm : Keeps m) : Keeps (lateScalars bad m) := by
  unfold lateScalars
  refine .ite hm <| .getBind fun _ h0 => ?_
  dsimp only
  refine .bind (.attempt hm) fun _ => ?_
  split
  · exact .bind (.set h0) fun _ => squash_keeps
  · exact .bind (.set h0) fun _ => squash_keeps
  · exact .throw
theorem capturedBody_keeps {m : Cap → M Unit} {j : Instr} {pc : Word} (hm : ∀ a, Keeps (m a)) :
    Keeps (capturedBody m j pc) := .bind hart_keeps fun _ => resumed_keeps (lateScalars_keeps (hm _))
theorem capturedRun_keeps {w : BitVec 32} {i : Except Nat Instr} {pc : Word} : Keeps (capturedRun w i pc) := by
  unfold capturedRun
  split
  · exact illegalReg_keeps
  · split
    · exact .pure
    · rename_i h0
      refine .bind hart_keeps fun _ => ?_
      refine .bind (.attempt (laneRun_keeps (capturedBody_keeps (captured_means h0)))) fun _ => ?_
      split
      · exact .pure
      · exact trap_keeps
      · exact .throw
theorem runCaptured_keeps {w : BitVec 32} {i : Except Nat Instr} {pc : Word} : Keeps (runCaptured w i pc) :=
  .getBind fun _ h0 => .bind capturedRun_keeps fun _ => .guard₂ (.set (laneSquash_wf h0)) (fun _ => .throw) <|
    modHart_keeps
theorem runFrame_keeps {ws : List (BitVec 32)} {pc : Word} {sd sa sb sr : BitVec 3} {n p : Nat} :
    Keeps (runFrame ws pc sd sa sb sr n p) := by
  induction n generalizing p with
  | zero => exact .pure
  | succ n ih =>
    unfold runFrame
    refine .bind modHart_keeps fun _ => ?_
    dsimp only
    split
    · exact .bind runCaptured_keeps fun _ => ih
    · exact ih
theorem rptM_keeps {n : BitVec 6} {sd sa sb sr : BitVec 3} {c : Cap} : Keeps (rptM n sd sa sb sr c) :=
  .bind hart_keeps fun _ => runFrame_keeps
theorem captureStop_wf {s0 : State} {pc spc : Word} {e : Stop} {s : State}
    (hs : Canonical s) : Canonical (captureStop s0 pc spc e s) := by
  unfold captureStop
  split
  · exact takeTrap_wf hs
  · exact awaits_wf hs
  · exact awaits_wf hs

/-! ## Harts -/

theorem ctxNote_wf {c va n : Nat} {k : Kind} {s : State} (hs : Canonical s) : Canonical (ctxNote c va n k s) := by
  unfold ctxNote
  split
  · exact frecAdd_wf hs
  · exact hs
theorem ctxNoteOnce_wf {c va n : Nat} {k : Kind} {s : State} (hs : Canonical s) :
    Canonical (ctxNoteOnce c va n k s) := .ite hs (ctxNote_wf hs)
theorem ctxWrite_yields {s : State} {c va : Nat} {bs : List Byte} (hs : Canonical s) :
    Yields (ctxWrite s c va bs) := by
  unfold ctxWrite
  split
  · exact .none
  · exact .ite .none (.some (homeStore_wf _ (.ite hs (agentCache_wf _ hs))))
theorem digestAdd_yields {s : State} {l : Launch} {off : Nat} {d : Word} (hs : Canonical s) :
    Yields (digestAdd s l off d) := by
  unfold digestAdd
  refine .ite (.some hs) ?_
  split
  · exact .none
  · exact ctxWrite_yields hs
theorem digestEnd_wf {s : State} {x : Hart} (hs : Canonical s) : Canonical (digestEnd s x) := by
  unfold digestEnd
  dsimp only
  refine .ite hs <| .ite (setLaunch_wf hs) ?_
  split
  · exact setLaunch_wf (ctxNote_wf (setLaunch_wf hs))
  · rename_i h0
    split
    · exact setLaunch_wf (ctxNote_wf (digestAdd_yields (setLaunch_wf hs) h0))
    · rename_i h1
      exact digestAdd_yields (digestAdd_yields (setLaunch_wf hs) h0) h1
theorem settleStages_wf {s : State} {num n : Nat} (hs : Canonical s) : Canonical (settleStages s num n) := by
  induction n generalizing s with
  | zero => exact hs
  | succ n ih => exact ih (setLaunch_wf hs)
theorem endHart_wf {h : Nat} {s : State} (hs : Canonical s) : Canonical (endHart h s) :=
  settleStages_wf (leaveHart_wf (setLaunch_wf (digestEnd_wf hs)))
theorem startHart_wf {h : Nat} {s : State} (hs : Canonical s) : Canonical (startHart h s) := by
  unfold startHart
  split
  · rename_i h0
    exact setHart_wf ((boundary_keeps .pure).ok hs h0)
  · rename_i h0
    exact takeTrap_wf (setHart_wf ((boundary_keeps .pure).error hs h0))
  · rename_i h0
    exact setHart_wf ((boundary_keeps .pure).error hs h0)
  · rename_i h0
    exact setHart_wf ((boundary_keeps .pure).error hs h0)
theorem absorbM_keeps {p : Nat} : Keeps (absorbM p) := by
  unfold absorbM
  refine .bind hartNo_keeps fun _ => ?_
  split
  · exact .pure
  · exact .bind (boundary_keeps .pure) fun _ => .bind hartNo_keeps fun _ => .bind modHartNo_keeps fun _ =>
      .modify fun _ h0 => leaveHart_wf h0
theorem wakeWith_wf {h : Nat} {m : M Unit} {s : State} (hm : Keeps m) (hs : Canonical s) :
    Canonical (wakeWith h m s) := by
  unfold wakeWith
  split
  · rename_i h0
    exact setHart_wf (hm.ok hs h0)
  · rename_i h0
    exact takeTrap_wf (hm.error hs h0)
  · rename_i h0
    exact setHart_wf (hm.error hs h0)
  · rename_i h0
    exact setHart_wf (hm.error hs h0)

/-! ## Synchronisation -/

theorem phaseM_keeps : Keeps (phaseM) :=
  .bind drained_keeps fun _ => .bind hart_keeps fun _ => .bind (boundary_keeps .pure) fun _ => nextInstr_keeps
theorem yieldM_keeps : Keeps (yieldM) :=
  .bind hart_keeps fun _ => .ite (.bind drained_keeps fun _ => .bind hart_keeps fun _ =>
    .bind (boundary_keeps .pure) fun _ => .bind modHart_keeps fun _ => .bind .get fun _ => .bind hart_keeps fun _ =>
    .guard hold_keeps <| .bind modHart_keeps fun _ => .bind nextInstr_keeps fun _ =>
    modHart_keeps) (.bind .get fun _ => .bind hart_keeps fun _ => .guard hold_keeps <| .bind modHart_keeps fun _ =>
    .bind nextInstr_keeps fun _ => modHart_keeps)
theorem enginesDone_keeps : Keeps (enginesDone) := .bind hart_keeps fun _ => .ite hold_keeps .pure
theorem fenceMark_wf {t : BitVec 3} {h n m : Nat} {s : State} (hs : Canonical s) :
    Canonical (fenceMark t h n m s) := markSeen_wf hs
theorem fenceM_keeps {t : BitVec 3} {cap : Cap} : Keeps (fenceM t cap) :=
  .bind hart_keeps fun _ => .bind .get fun _ => .guard hold_keeps <| .bind (.modify fun _ h1 =>
    fenceMark_wf h1) fun _ => modHart_keeps
theorem fenceHandler_keeps {t : BitVec 3} : Keeps (fenceHandler t) :=
  .bind hart_keeps fun _ => .bind .get fun _ => .guard hold_keeps <| .bind (.modify fun _ h1 =>
    fenceMark_wf h1) fun _ => nextInstr_keeps
theorem flipWindow_wf {c i : Nat} {s : State} (hs : Canonical s) : Canonical (flipWindow c i s) := by
  unfold flipWindow
  extract_lets x
  split
  · exact hs
  · extract_lets w1 s1 b s2 mine op sl s3
    have h2 : Canonical s2 := getD_wf (agentWrite_yields (setCtx_wf hs)) (setCtx_wf hs)
    exact h2.of_eq rfl rfl
theorem publishCore_keeps {p : BitVec 5} {f : BitVec 1} : Keeps (publishCore p f) := by
  unfold publishCore
  refine .bind hart_keeps fun _ => .bind ctxM_keeps fun _ => ?_
  split
  split
  · exact illegal_keeps
  · exact .guard illegal_keeps <| .bind .get fun _ => .guard hold_keeps <| boundary_keeps (.ite (.modify fun _ h1 =>
      flipWindow_wf h1) (.modify fun _ h1 => setLaunch_wf h1))
theorem publishM_keeps {p : BitVec 5} {f : BitVec 1} : Keeps (publishM p f) :=
  .bind hart_keeps fun _ => .bind ctxM_keeps fun _ => .guard illegal_keeps <| .bind drained_keeps fun _ =>
    .bind publishCore_keeps fun _ => nextInstr_keeps
theorem barDone_keeps {h : Nat} : Keeps (barDone h) := .bind (boundary_keeps .pure) fun _ => modHartNo_keeps
theorem barM_keeps {g b : BitVec 2} : Keeps (barM g b) :=
  .bind hart_keeps fun _ => .guard illegal_keeps <| .guard₃ drained_keeps (fun _ =>
    boundary_keeps (.modify fun _ h0 => setLaunch_wf h0)) (fun _ _ => modHart_keeps) <| .ite (.bind .get fun _ =>
    .bind .get fun _ => .ite barDone_keeps .throw) (.bind modHart_keeps fun _ => nextInstr_keeps)
theorem forkM_keeps {d : BitVec 6} {o : BitVec 19} : Keeps (forkM d o) := by
  unfold forkM
  refine .bind drained_keeps fun _ => .bind hart_keeps fun _ => .bind .get fun _ => ?_
  dsimp only
  refine .bind logCheck_keeps fun _ => .ite ?_ ?_
  · split
    · refine .bind hold_keeps fun _ => .bind (.modify fun _ h1 => advance_wf (setS_wf h1)) fun _ =>
        .bind logDone_keeps fun _ => .bind hart_keeps fun _ => ?_
      split
      · exact .modify fun _ h1 => startHart_wf h1
      · exact .pure
    · refine .bind (.modify fun _ h1 => (setHart_wf (withHart_wf h1)).of_eq rfl rfl) fun _ =>
        .bind (.modify fun _ h1 => advance_wf (setS_wf h1)) fun _ => .bind logDone_keeps fun _ =>
        .bind hart_keeps fun _ => ?_
      split
      · exact .modify fun _ h1 => startHart_wf h1
      · exact .pure
  · refine .bind (.modify fun _ h1 => advance_wf (setS_wf h1)) fun _ => .bind logDone_keeps fun _ =>
      .bind hart_keeps fun _ => ?_
    split
    · exact .modify fun _ h1 => startHart_wf h1
    · exact .pure
theorem joinM_keeps : Keeps (joinM) := by
  unfold joinM
  refine .bind hart_keeps fun _ => ?_
  split
  · exact .bind .get fun _ => .ite absorbM_keeps .throw
  · split
    · exact illegal_keeps
    · exact .guard .throw <| .bind (boundary_keeps .pure) fun _ => .bind modHart_keeps fun _ => .modify fun _ h0 =>
        .ite (wakeWith_wf absorbM_keeps h0) h0
theorem retireM_keeps : Keeps (retireM) :=
  .bind hart_keeps fun _ => .guard illegal_keeps <| .bind modHart_keeps fun _ => .bind drained_keeps fun _ =>
    .bind enginesDone_keeps fun _ => .bind (boundary_keeps .pure) fun _ => .modify fun _ h0 => endHart_wf h0
theorem slotLoc_keeps {h va : Nat} {k : Kind} : Keeps (slotLoc h va k) := by
  unfold slotLoc
  refine .bind ctxM_keeps fun _ => ?_
  split
  refine .bind translateM_keeps fun _ => .bind stage2M_keeps fun _ => ?_
  split
  · exact .pure
  · exact .pure
theorem qpushM_keeps {a : BitVec 6} {q : BitVec 4} : Keeps (qpushM a q) :=
  .bind hart_keeps fun _ => .bind .get fun _ => .guard illegal_keeps <| .guard trap_keeps <|
    .bind locateN_keeps fun _ => .bind scratchFree_keeps fun _ => .bind logCheckIn_keeps fun _ =>
    .guard stall_keeps <| .guard .throw <| .bind slotLoc_keeps fun _ => .bind .get fun _ =>
    .bind reportM_keeps fun _ => .bind (.modify fun _ h2 => dropDead_wf h2) fun _ => .bind (.modify fun _ h2 =>
    homeStore_wf _ h2) fun _ => .bind (.modify fun _ h2 => poisonPlaces_wf h2) fun _ => .bind (.modify fun _ h2 =>
    setLaunch_wf h2) fun _ => .bind logDone_keeps fun _ => nextInstr_keeps
theorem popStatus_keeps {x : Hart} {y : LQueue} {lr : Option (Nat × Nat)} : Keeps (popStatus x y lr) := by
  unfold popStatus
  dsimp only
  split
  · exact .ite (.ite stall_keeps (.ite .pure (.bind .get fun _ => .bind modHart_keeps fun _ =>
      .throw))) (.ite (.ite .pure (.bind .get fun _ => .bind modHart_keeps fun _ => .throw)) .pure)
  · split
    · exact .pure
    · exact .ite .pure (.ite .pure (.bind .get fun _ => .bind modHart_keeps fun _ => .throw))
theorem qpopM_keeps {d a : BitVec 6} {q : BitVec 4} : Keeps (qpopM d a q) :=
  .bind hart_keeps fun _ => .bind .get fun _ => .guard illegal_keeps <| .guard trap_keeps <|
    .bind locateN_keeps fun _ => .bind scratchFree_keeps fun _ => .bind logCheckIn_keeps fun _ =>
    .bind popStatus_keeps fun _ => .ite (.bind slotLoc_keeps fun _ => .bind .get fun _ => .bind storeAt_keeps fun _ =>
    .bind foldM_keeps fun _ => .guard (.modify fun _ h2 => poisonPlaces_wf (bringHome_wf h2)) <|
    .bind (.modify fun _ h2 => setLaunch_wf h2) fun _ => .bind modHart_keeps fun _ => .bind logDone_keeps fun _ =>
    .modify fun _ h2 => result_wf h2) (.bind modHart_keeps fun _ => .bind logDone_keeps fun _ => .modify fun _ h1 =>
    result_wf h1)
theorem wakeHart_wf {h : Nat} {s : State} (hs : Canonical s) : Canonical (wakeHart h s) := focusOn_wf (setHart_wf hs)
theorem holdTurn_wf {s : State} (hs : Canonical s) : Canonical (holdTurn s) := .ite hs (setLaunch_wf hs)
theorem passTurn_wf {h : Hart} {i : Instr} {s : State} (hs : Canonical s) : Canonical (passTurn h i s) :=
  .ite hs (setLaunch_wf hs)

/-! ## The vector queue -/

/-- What a queue's entry may hold keeps the form. -/
theorem queued_means {i : Instr} : Means (queued i) := by
  have hc := captured_means (i := i)
  cases i with
  | vld | vldRaw | vldff | vldffRaw => exact .some fun _ => vldM_keeps
  | vst | vstRaw => exact .some fun _ => vstM_keeps
  | vamo => exact .some fun _ => vamoM_keeps
  | kop => exact .some fun _ => kopM_keeps
  | kpop => exact .some fun _ => kpopM_keeps
  | kfirst => exact .some fun _ => kfirstM_keeps
  | kmov => exact .some fun _ => kmovM_keeps
  | mtree => exact .some fun _ => mtreeM_keeps
  | vmerge => exact .some fun _ => vmergeM_keeps
  | vperm => exact .some fun _ => vpermM_keeps
  | vslide => exact .some fun _ => vslideM_keeps
  | vcompress => exact .some fun _ => vcompressM_keeps
  | vexpand => exact .some fun _ => vexpandM_keeps
  | viota => exact .some fun _ => viotaM_keeps
  | vbcast => exact .some fun _ => vbcastM_keeps
  | vmovx => exact .some fun _ => vmovxM_keeps
  | vext => exact .some fun _ => vextM_keeps
  | vins => exact .some fun _ => vinsM_keeps
  | vredsum | vredmax | vredmin | vfredsum | vfredmax | vredseq => exact .some fun _ => reduceM_keeps
  | mrd => exact .some fun _ => mrdM_keeps
  | mwr => exact .some fun _ => mwrM_keeps
  | mclr => exact .some fun _ => mclrM_keeps
  | mchk => exact .some fun _ => mchkM_keeps
  | mloc => exact .some fun _ => mlocM_keeps
  | mfix => exact .some fun _ => mfixM_keeps
  | wld | wldff => exact .some fun _ => wldM_keeps
  | wsel => exact .some fun _ => wselM_keeps
  | algld => exact .some fun _ => algldCore_keeps
  | trap => exact .some fun _ => trap_keeps
  | rpt => exact .some fun _ => rptM_keeps
  | fence => exact .some fun _ => fenceM_keeps
  | publish => exact .some fun _ => publishCore_keeps
  | _ => exact hc
theorem queueCore_keeps {w : BitVec 32} {c : Cap} : Keeps (queueCore w c) := by
  unfold queueCore
  dsimp only
  split
  · exact .bind modHart_keeps fun _ => trap_keeps
  · refine .bind .get fun _ => ?_
    refine .ite (.bind (.modify fun _ h1 => maskedRecord_wf h1) fun _ => .bind modHart_keeps fun _ => trap_keeps) ?_
    split
    · exact queued_means (by assumption) c
    · exact .bind modHart_keeps fun _ => trap_keeps
theorem captureHead_keeps {e : QEntry} : Keeps (captureHead e) := by
  unfold captureHead
  refine .bind hart_keeps fun _ => ?_
  dsimp only
  refine .choice (.attempt fetchM_keeps) .pure fun _ => ?_
  split
  · exact .pure
  · split
    · exact .bind modHart_keeps fun _ => .pure
    · refine .bind frameWords_keeps fun _ => ?_
      split
      · exact .pure
      · exact .bind modHart_keeps fun _ => .pure
theorem runQueue_wf {s : State} (hs : Canonical s) : Canonical (runQueue s) := by
  unfold runQueue
  split
  · exact hs
  · refine .ite ?_ (runHead_wf (fun _ => queueCore_keeps) hs)
    split
    · rename_i h0
      exact captureStop_wf (captureHead_keeps.ok hs h0)
    · rename_i h0
      split
      · exact runHead_wf (fun _ => queueCore_keeps) (captureHead_keeps.ok hs h0)
      · exact captureHead_keeps.ok hs h0
    · rename_i h0
      exact captureHead_keeps.error hs h0
/-- Every convoy under way began in canonical form. -/
def Flight.Sound (f : Flight) : Prop := ∀ c ∈ f.convoys, Canonical c.start
theorem Flight.Sound.await {f : Flight} {src dst : List Nat} (h : f.Sound) : (f.await src dst).Sound := h
theorem Flight.Sound.enter {f : Flight} {n : Nat} {dst : List Nat} {chain : Bool} (h : f.Sound) :
    (f.enter n dst chain).Sound := h
theorem Flight.Sound.pass {f : Flight} (h : f.Sound) : f.pass.Sound := fun c hc => h c (List.mem_of_mem_filter hc)
theorem Flight.Sound.begin {f : Flight} {s : State} (h : f.Sound) (hs : Canonical s) : (f.begin s).Sound := by
  intro c hc
  rcases List.mem_append.1 hc with hc | hc
  · exact h c hc
  · exact List.mem_singleton.1 hc ▸ hs
theorem Flight.Sound.meets {f : Flight} {n : Nat} {hits : List (Nat × Nat × Nat)} (h : f.Sound) :
    (f.meets n hits).Sound := by
  intro c hc
  obtain ⟨b, hb, rfl⟩ := List.mem_map.1 hc
  split
  · exact h b hb
  · exact h b hb
theorem Flight.Sound.ite {p : Prop} [Decidable p] {f g : Flight} (hf : f.Sound) (hg : g.Sound) :
    (if p then f else g).Sound := by
  split
  · exact hf
  · exact hg
theorem Flight.Sound.start {f : Flight} (h : f.Sound) {p : Convoy → Bool} {c : Convoy} (hc : f.convoys.find? p = some c) :
    Canonical c.start := h c (List.mem_of_find?_eq_some hc)
theorem Flight.close_wf {f : Flight} {s : State} (hf : f.Sound) (hs : Canonical s) : Canonical (Flight.close f s) := by
  unfold Flight.close
  split
  · exact laneSquash_wf (hf.start (by assumption))
  · exact hs
theorem poisonConvoy_wf {c : Convoy} {k : Kind} {v : Word} (hc : Canonical c.start) : Canonical (poisonConvoy c k v) := by
  unfold poisonConvoy
  exact takeTrap_wf (withHart_wf (hc.of_eq rfl rfl))
theorem captureNext_wf {s : State} (hs : Canonical s) : Canonical (captureNext s) := by
  unfold captureNext
  split
  · refine .ite ?_ hs
    split
    · rename_i h0
      exact captureHead_keeps.ok hs h0
    · exact hs
  · exact hs
/-- The state in which an instruction dispatches is in canonical form, and its run and what its end leaves keep it. -/
structure Upcoming.Sound (x : Upcoming) : Prop where
  dispatched : Canonical x.at_
  runs : Keeps x.run
  ends : ∀ s, Canonical s → Canonical (x.after s)
theorem upcoming_sound {s : State} {x : Upcoming} (hs : Canonical s) (hx : upcoming s = some x) : x.Sound := by
  unfold upcoming at hx
  split at hx
  · cases hx
  · split at hx
    · dsimp only at hx
      split at hx
      · cases hx
      · split at hx
        · cases hx
          refine ⟨withHart_wf hs, ?_, fun _ ht => withHart_wf ht⟩
          dsimp only
          exact capturedRun_keeps
        · cases hx
    · cases hx
      exact ⟨hs, laneRun_keeps (headBody_keeps fun _ => queueCore_keeps), fun _ ht => withHart_wf ht⟩
    · cases hx
theorem runConvoys_wf {l : List (Bool × List (Nat × Nat × Nat))} {f : Flight} {s : State} (hf : f.Sound)
    (hs : Canonical s) : Canonical (runConvoys l f s) := by
  induction l generalizing f s with
  | nil => exact Flight.close_wf hf hs
  | cons p l ih =>
    obtain ⟨join, ms⟩ := p
    unfold runConvoys
    extract_lets s1
    have hc : Canonical s1 := captureNext_wf hs
    clear_value s1
    split
    · exact Flight.close_wf hf hc
    · rename_i x hx
      have hx := upcoming_sound hc hx
      split
      · exact Flight.close_wf hf hc
      · extract_lets chosen f1 f2 num f3
        have h1 : f1.Sound := .ite hf hf.await
        have h3 : f3.Sound := .enter (.ite hf (h1.pass.begin hx.dispatched))
        clear_value f1 f3
        refine .ite (Flight.close_wf h1 hc) ?_
        split
        · rename_i h0
          refine ih h3.meets (hx.ends _ (hx.runs.ok ?_ h0))
          exact hx.dispatched.of_eq rfl rfl
        · split
          · rename_i h2
            exact .ite (poisonConvoy_wf (h3.start h2)) (laneSquash_wf (h3.start h2))
          · exact hc
        · split
          · exact laneSquash_wf (h3.start (by assumption))
          · refine headEnd_wf ?_
            split
            · rename_i h0
              refine hx.runs.ok ?_ h0
              exact hx.dispatched.of_eq rfl rfl
            · rename_i h0
              refine hx.runs.error ?_ h0
              exact hx.dispatched.of_eq rfl rfl
theorem runConvoy_wf {plan : List (Bool × List (Nat × Nat × Nat))} {s : State} (hs : Canonical s) :
    Canonical (runConvoy plan s) := runConvoys_wf (fun _ hc => nomatch hc) hs
theorem partOf_yields {i : Instr} {m : M Unit} {p : Nat} {s : State} (hm : Keeps m) (hs : Canonical s) :
    Yields (partOf i m p s) := by
  unfold partOf
  dsimp only
  refine .ite ?_ .none
  split
  · rename_i h0
    exact .some (withHart_wf (hm.ok (withHart_wf hs) h0))
  · exact .none
theorem runPart_wf {n p : Nat} {s : State} (hs : Canonical s) : Canonical (runPart n p s) := by
  unfold runPart
  split
  · exact hs
  · split
    · extract_lets len q
      refine .ite hs ?_
      split
      · rename_i h0
        extract_lets h1 s2
        have h2 : Canonical s2 := withHart_wf (runFrame_keeps.ok hs h0)
        split
        · split
          · exact getD_wf (partOf_yields (capturedBody_keeps (captured_means (by assumption))) h2) h2
          · exact h2
        · exact h2
      · exact hs
    · split
      · exact .ite hs (getD_wf (partOf_yields (headBody_keeps (queued_means (by assumption))) hs) hs)
      · exact hs
    · exact hs

/-! ## The system instructions -/

theorem ctlAwait_keeps {n : Nat} : Keeps (ctlAwait n) := .bind hart_keeps fun _ => .ite hold_keeps .pure
theorem ctlPresent_keeps {n : Nat} {i : Instr} : Keeps (ctlPresent n i) :=
  .bind .get fun _ => .ite (.bind (.modify fun _ h1 => maskedRecord_wf h1) fun _ => illegal_keeps) .pure
theorem ctlrdM_keeps {d : BitVec 6} {c : BitVec 12} : Keeps (ctlrdM d c) := by
  unfold ctlrdM
  refine .bind ctlPresent_keeps fun _ => .getBind fun _ h0 => ?_
  split
  · exact illegal_keeps
  · exact .guard drained_keeps <| .guard ctlAwait_keeps <| .set (result_wf h0)
theorem ctlwrM_keeps {d : BitVec 6} {c : BitVec 12} : Keeps (ctlwrM d c) := by
  unfold ctlwrM
  refine .bind ctlPresent_keeps fun _ => .bind .get fun _ => ?_
  dsimp only
  split
  · exact illegal_keeps
  · exact .guard illegal_keeps <| .guard drained_keeps <| .bind ctlAwait_keeps fun _ => .bind modHart_keeps fun _ =>
      nextInstr_keeps
theorem softTrap_wf {cause : Cause} {c : BitVec 12} {s : State} (hs : Canonical s) :
    Canonical (softTrap cause c s) := takeTrap_wf hs
theorem saveReg_keeps {h base r : Nat} : Keeps (saveReg h base r) :=
  .bind hartNo_keeps fun _ => .bind storeM_keeps fun _ => .ite (.bind locateN_keeps fun _ => .modify fun _ h0 =>
    poisonStored_wf h0) .pure
theorem loadReg_keeps {h base r : Nat} : Keeps (loadReg h base r) :=
  .bind hartNo_keeps fun _ => .bind locateN_keeps fun _ => .bind .get fun _ => .pure
theorem fenceAll_keeps : Keeps (fenceAll) := .bind hart_keeps fun _ => .modify fun _ h0 => fenceMark_wf h0
theorem claimM_keeps : Keeps (claimM) :=
  .bind hart_keeps fun _ => .guard illegal_keeps <| .bind fenceAll_keeps fun _ => .bind ctxM_keeps fun _ =>
    .bind loadM_keeps fun _ => .ite nextInstr_keeps (.bind .get fun _ => .bind storeM_keeps fun _ =>
    .guard storeM_keeps <| .bind storeM_keeps fun _ => .bind (.eachOf (fun _ => saveReg_keeps)) fun _ =>
    .bind storeM_keeps fun _ => .bind modHart_keeps fun _ => .bind fenceAll_keeps fun _ => nextInstr_keeps)
theorem anyNonzero_keeps {h base : Nat} {l : List (Nat × Nat)} : Keeps (anyNonzero h base l) := by
  induction l with
  | nil => exact .pure
  | cons p t ih => exact .bind loadM_keeps fun _ => .ite .pure ih
theorem loadRegs_keeps {h base n r : Nat} : Keeps (loadRegs h base n r) := by
  induction n generalizing r with
  | zero => exact .pure
  | succ n ih => exact .bind loadReg_keeps fun _ => .bind ih fun _ => .pure
theorem restoreClaimed_keeps {h base fl : Nat} : Keeps (restoreClaimed h base fl) :=
  .bind hartNo_keeps fun _ => .bind loadM_keeps fun _ => .choice loadM_keeps .pure fun _ => .bind loadM_keeps fun _ =>
    .bind anyNonzero_keeps fun _ => .guard illegal_keeps <| .bind loadM_keeps fun _ => .bind loadRegs_keeps fun _ =>
    .bind storeM_keeps fun _ => .bind .get fun _ => modHartNo_keeps
theorem resumeM_keeps : Keeps (resumeM) :=
  .bind hart_keeps fun _ => .guard illegal_keeps <| .bind drained_keeps fun _ => .bind fenceAll_keeps fun _ =>
    .bind ctxM_keeps fun _ => .bind loadM_keeps fun _ => .bind loadM_keeps fun _ => .bind loadM_keeps fun _ =>
    .guard restoreClaimed_keeps <| modHart_keeps
theorem logmarkM_keeps {d : BitVec 6} {c : BitVec 12} : Keeps (logmarkM d c) :=
  .bind hart_keeps fun _ => .bind logCheck_keeps fun _ => .bind logDone_keeps fun _ => nextInstr_keeps

/-! ## Collectives -/

theorem collPages_keeps {h : Nat} {k : Kind} {l acc : List (Nat × Nat)} : Keeps (collPages h k l acc) := by
  induction l generalizing acc with
  | nil => exact .pure
  | cons p t ih =>
    unfold collPages
    dsimp only
    refine .bind locateGpa_keeps fun _ => ?_
    split
    · refine .guard trap_keeps <| .bind ctxM_keeps fun _ => ?_
      split
      · exact trap_keeps
      · exact ih
    · exact trap_keeps
theorem collM_keeps {a : BitVec 6} {cn : BitVec 4} : Keeps (collM a cn) := by
  unfold collM
  refine .bind hart_keeps fun _ => ?_
  dsimp only
  refine .guard hold_keeps <| .guard trap_keeps <| .bind loadM_keeps fun _ => .bind .get fun _ => ?_
  split
  · exact .bind formatRec_keeps fun _ => .bind collPages_keeps fun _ => .bind collPages_keeps fun _ =>
      .bind pagesOf_keeps fun _ => .getBind fun _ h1 => .bind (.set (h1.of_eq rfl rfl)) fun _ =>
      .bind countUp_keeps fun _ => nextInstr_keeps
  · exact .bind collPages_keeps fun _ => .bind collPages_keeps fun _ => .bind pagesOf_keeps fun _ =>
      .getBind fun _ h1 => .bind (.set (h1.of_eq rfl rfl)) fun _ => .bind countUp_keeps fun _ => nextInstr_keeps
theorem collStoreFor_wf {o : CollOp} {va : Nat} {ls : List Loc} {bs : List Byte} {s : State} (hs : Canonical s) :
    Canonical (collStoreFor o va ls bs s) :=
  setHart_wf (.ite (homeStore_wf _ (olderHome_wf hs)) (setSlot_wf (homeStore_wf _ (olderHome_wf hs))))
theorem collStore_wf {o : CollOp} {va : Nat} {ls : List Loc} {bs : List Byte} {s : State} (hs : Canonical s) :
    Canonical (collStore o va ls bs s) :=
  .ite (homeStore_wf _ (dropDead_wf hs)) (.ite (withSpilled_wf (fun _ h0 =>
    collStoreFor_wf h0) (dropDead_wf hs)) (collStoreFor_wf (dropDead_wf hs)))
theorem collEnd_wf {o : CollOp} {dp : List (Nat × Loc)} {status : Nat} {s : State} (hs : Canonical s) :
    Canonical (collEnd o dp status s) :=
  .ite ((dropEvents_wf (collStore_wf hs)).of_eq rfl rfl) (settle_wf ((dropEvents_wf (collStore_wf hs)).of_eq rfl rfl))
theorem collReports_wf {o : CollOp} {bad : List Nat} {s : State} (hs : Canonical s) :
    Canonical (collReports o bad s) := foldl_wf (fun _ _ h0 => eventSend_wf h0) hs
theorem collDoneM_keeps {o : CollOp} {parts : List CollPart} {bad : List Nat} : Keeps (collDoneM o parts bad) :=
  .bind stage2Pages_keeps fun _ => .ite (.modify fun _ h0 => collEnd_wf h0) (.bind stage2Pages_keeps fun _ =>
    .bind .get fun _ => .bind (.modify fun _ h1 => collStore_wf h1) fun _ => .bind (.modify fun _ h1 =>
    poisonPlaces_wf h1) fun _ => .bind (.modify fun _ h1 => collReports_wf h1) fun _ => .modify fun _ h1 =>
    collEnd_wf h1)
theorem collTimeoutM_keeps {o : CollOp} : Keeps (collTimeoutM o) :=
  .bind stage2Pages_keeps fun _ => .modify fun _ h0 => collEnd_wf h0

/-! ## Self-tests -/

theorem laneRetired_wf {h lg lane : Nat} {s : State} (hs : Canonical s) : Canonical (laneRetired h lg lane s) := by
  unfold laneRetired
  exact eventSend_wf (frecAdd_wf (setCore_wf hs))
theorem laneOutcome_wf {h : Nat} {fails : List (Nat × Nat × Nat)} {s : State} (hs : Canonical s) :
    Canonical (laneOutcome h fails s) := by
  unfold laneOutcome
  dsimp only
  split
  · exact setHart_wf hs
  · exact takeTrap_wf hs
theorem columnFails_wf {core c : Nat} {s : State} {col : Nat} (hs : Canonical s) :
    Canonical (columnFails core c s col) := .ite (frecAdd_wf (setCore_wf hs)) (frecAdd_wf (setCore_wf hs))

/-! ## Commands of the host, caches and pending stores -/

theorem command_wf {f : Nat} {virt dark : Bool} {m : State → Reply} {s : State}
    (hm : ∀ s, Canonical s → Canonical (m s).state) (hs : Canonical s) : Canonical (command f virt dark m s) := by
  unfold command
  refine .ite hs (setFn_wf ?_)
  split
  · exact hs
  · exact hm _ hs
theorem chainRead_wf {f off n : Nat} {s : State} (hs : Canonical s) : Canonical (chainRead f off n s) :=
  hs.of_eq rfl rfl
theorem dvsecRead_wf {f : Nat} {s : State} (hs : Canonical s) : Canonical (dvsecRead f s) := hs.of_eq rfl rfl
theorem frecBus_wf {s : State} (hs : Canonical s) : Canonical (frecBus s) := hs.of_eq rfl rfl
theorem configRead_wf {f off n : Nat} {s : State} (hs : Canonical s) : Canonical (configRead f off n s) :=
  hs.of_eq rfl rfl
theorem cdatRead_wf {f : Nat} {s : State} (hs : Canonical s) : Canonical (cdatRead f s) := .ite hs (setFn_wf hs)
theorem dropCaches_wf {c : Nat} {s : State} (hs : Canonical s) : Canonical (dropCaches c s) :=
  (foldl_wf (fun _ _ h0 => setCore_wf h0) hs).of_eq rfl rfl
theorem flushHart_wf {mine : Hart → Bool} {hit : Nat → Bool} {s : State} {h : Hart} (hs : Canonical s) :
    Canonical (flushHart mine hit s h) := .ite (takeHome_wf (kinHome_wf hs)) hs
theorem flushSpill_wf {mine : Hart → Bool} {hit : Nat → Bool} {s : State} {p : Nat × Spill} (hs : Canonical s) :
    Canonical (flushSpill mine hit s p) := .ite hs ((foldl_wf (fun _ _ h0 => homeStore_wf _ h0) hs).of_eq rfl rfl)
theorem flushPending_wf {mine : Hart → Bool} {hit : Nat → Bool} {s : State} (hs : Canonical s) :
    Canonical (flushPending mine hit s) :=
  foldl_wf (fun _ _ h0 => flushSpill_wf h0) (foldl_wf (fun _ _ h0 => flushHart_wf h0) hs)
theorem forgetEpochs_wf {c : Nat} {s : State} (hs : Canonical s) : Canonical (forgetEpochs c s) :=
  foldl_wf (fun _ _ h0 => setCore_wf h0) hs
theorem mapAllHarts_wf {f : Hart → Hart} {s : State} (hs : Canonical s) : Canonical (mapAllHarts f s) := hs.of_eq rfl rfl
theorem opFinish_wf {core slot : Nat} {s : State} {o : EngOp} (hs : Canonical s) : Canonical (opFinish core slot s o) := by
  unfold opFinish
  split
  · exact engineComplete_wf (fun _ _ _ => xcopyDone_keeps) hs
  · exact engineComplete_wf (fun _ _ _ => xfillDone_keeps) hs
  · exact engineComplete_wf (fun _ _ _ => kvcommitDone_keeps) hs
  · exact hs
theorem finishOps_wf {c : Nat} {s : State} (hs : Canonical s) : Canonical (finishOps c s) :=
  foldl_wf (fun _ _ h0 => .ite (foldl_wf (fun _ _ h1 => opFinish_wf h1) h0) h0) hs
theorem invalDone_yields {f : Nat} {s : State} (hs : Canonical s) : Yields (invalDone f s) := by
  unfold invalDone
  split
  · exact .none
  · exact .ite .none (.some (mapAllHarts_wf (setFn_wf hs)))
theorem mirrorEn_wf {s : State} {f q : Nat} {on : Bool} (hs : Canonical s) : Canonical (mirrorEn s f q on) :=
  outsideStore_wf _ _ hs
theorem packetUndo_wf {p : Option Packet} {s : State} (hs : Canonical s) : Canonical (packetUndo p s) := by
  unfold packetUndo
  split
  · exact .ite (mapHarts_wf hs) hs
  · exact hs
theorem packetStall_wf {c : Nat} {p : Option Packet} {s : State} (hs : Canonical s) :
    Canonical (packetStall c p s) := .ite (.ite (setCtx_wf (setCtx_wf hs)) (setCtx_wf hs)) hs
theorem freeze_wf {s : State} (hs : Canonical s) : Canonical (freeze s) := hs.of_eq rfl rfl

/-! ## Host queues and admission -/

theorem queueError_wf {f q code : Nat} {s : State} (hs : Canonical s) : Canonical (queueError f q code s) := by
  unfold queueError
  exact eventSend_wf (setQueue_wf hs)
theorem packetError_wf {f q code : Nat} {s : State} (hs : Canonical s) : Canonical (packetError f q code s) := by
  unfold packetError
  dsimp only
  split
  · exact hs
  · exact queueError_wf (setQueue_wf (getD_wf (agentWrite_yields hs) hs))
theorem takePacket_wf {f q : Nat} {x : HostQueue} {p : List Byte} {s : State} (hs : Canonical s) :
    Canonical (takePacket f q x p s) := by
  unfold takePacket
  dsimp only
  split
  · exact queueError_wf (setQueue_wf hs)
  · split
    · rename_i h0
      exact setQueue_wf (agentWrite_yields hs h0)
    · exact queueError_wf (setQueue_wf hs)
theorem failAttempt_wf {f q : Nat} {x : HostQueue} {s : State} (hs : Canonical s) :
    Canonical (failAttempt f q x s) := by
  unfold failAttempt
  exact .ite (queueError_wf (setQueue_wf hs)) (setQueue_wf hs)
theorem queueTry_wf {f q : Nat} {s : State} (hs : Canonical s) : Canonical (queueTry f q s) := by
  unfold queueTry
  dsimp only
  refine .ite hs ?_
  split
  · exact queueError_wf hs
  · refine .ite (setQueue_wf hs) ?_
    split
    · exact queueError_wf hs
    · split
      · exact queueError_wf hs
      · exact .ite (takePacket_wf hs) (failAttempt_wf hs)
theorem packetDone_wf {f q : Nat} {s : State} (hs : Canonical s) : Canonical (packetDone f q s) := setQueue_wf hs
theorem packetBegin_wf {f q : Nat} {s : State} (hs : Canonical s) : Canonical (packetBegin f q s) := setQueue_wf hs
theorem epochAdvance_wf {c : Nat} {s : State} (hs : Canonical s) : Canonical (epochAdvance c s) := setCtx_wf hs
theorem setdetTake_wf {f q : Nat} {s : State} (hs : Canonical s) : Canonical (setdetTake f q s) :=
  packetBegin_wf (setCtx_wf hs)
theorem outsideStall_wf {c : Nat} {s : State} (hs : Canonical s) : Canonical (outsideStall c s) :=
  .ite hs (setCtx_wf hs)
theorem endRecord_yields {c lvl : Nat} {s : State} (hs : Canonical s) : Yields (endRecord c lvl s) :=
  .ite (logAppend_yields hs) (.some hs)
theorem levelSet_wf {c lvl ref : Nat} {s : State} (hs : Canonical s) : Canonical (levelSet c lvl ref s) :=
  setCtx_wf (.ite (dropCaches_wf (zeroRange_wf (getD_wf (agentWrite_yields (ctxRecPut_wf hs)) (ctxRecPut_wf hs))))
    (getD_wf (agentWrite_yields (ctxRecPut_wf hs)) (ctxRecPut_wf hs)))
theorem setdetApply_wf {f q : Nat} {p : Packet} {s : State} (hs : Canonical s) : Canonical (setdetApply f q p s) := by
  unfold setdetApply
  dsimp only
  refine .ite ?_ hs
  split
  · exact outsideStall_wf hs
  · rename_i h0
    exact packetDone_wf (setCtx_wf (levelSet_wf (endRecord_yields hs h0)))
theorem admitLog_yields {c q tag : Nat} {s : State} (hs : Canonical s) : Yields (admitLog c q tag s) := by
  unfold admitLog
  cases (s.ctx c).level with
  | record => exact logAppend_yields hs
  | replay =>
    cases nextAdmit s c with
    | none => exact .none
    | some p => exact .ite (.some (logConsume_wf hs)) .none
  | free | digest => exact .some hs
theorem slotShut_wf {num : Nat} {s : State} (hs : Canonical s) : Canonical (slotShut num s) :=
  setLaunch_wf (ctxNote_wf hs)
theorem slotOpen_wf {num : Nat} {s : State} (hs : Canonical s) : Canonical (slotOpen num s) := by
  unfold slotOpen
  dsimp only
  refine .ite hs ?_
  split
  · exact slotShut_wf hs
  · rename_i h0
    split
    · exact slotShut_wf hs
    · rename_i h1
      exact ctxWrite_yields (ctxWrite_yields hs h0) h1
theorem turnPast_wf {c prio q : Nat} {s : State} (hs : Canonical s) : Canonical (turnPast c prio q s) := setCtx_wf hs
theorem refreshCtx_wf {c : Nat} {s : State} (hs : Canonical s) : Canonical (refreshCtx c s) := by
  unfold refreshCtx
  split
  · exact hs
  · exact setCtx_wf hs
theorem enterLaunch_wf {f q : Nat} {x : HostQueue} {b : List Byte} {st : List Stage} {qs : List LQueue} {gs : List Group}
    {s : State} (hs : Canonical s) : Canonical (enterLaunch f q x b st qs gs s) := by
  unfold enterLaunch
  extract_lets c
  split
  · exact outsideStall_wf hs
  · rename_i h0
    extract_lets s2 y s3 num l s4
    have h1 := admitLog_yields hs h0
    have h2 : Canonical s2 := .ite (epochAdvance_wf h1) h1
    have h3 : Canonical s3 := turnPast_wf (setCtx_wf h2)
    exact packetDone_wf (settleStages_wf (slotOpen_wf (h3.of_eq rfl rfl)))
theorem declaredNotes_wf {c tva code : Nat} {s : State} (hs : Canonical s) :
    Canonical (declaredNotes c tva code s) := by
  unfold declaredNotes
  split
  · exact ctxNote_wf hs
  · exact .ite (foldl_wf (fun _ _ h0 => ctxNote_wf h0) hs) (.ite (foldl_wf (fun _ _ h0 =>
      ctxNote_wf h0) hs) (.ite (ctxNote_wf hs) hs))
theorem admission_wf {f q : Nat} {p : Packet} {s : State} (hs : Canonical s) : Canonical (admission f q p s) := by
  unfold admission
  dsimp only
  refine .ite hs ?_
  split
  · exact packetDone_wf (turnPast_wf (completionSend_wf (declaredNotes_wf (refreshCtx_wf hs))))
  · exact enterLaunch_wf (refreshCtx_wf hs)

/-! ## The scheduler -/

theorem takeSlot_wf {s : State} {c epoch : Nat} {p : Spot} (hs : Canonical s) : Canonical (takeSlot s c epoch p) :=
  .ite (setCore_wf (.ite hs (setSlot_wf hs))) (.ite hs (setSlot_wf hs))
theorem placeLog_yields {s : State} {l : Launch} {stage ix : Nat} {p : Spot} (hs : Canonical s) :
    Yields (placeLog s l stage ix p) :=
  .ite (logAppend_yields hs) (.ite (.mapTo fun _ => logConsume_wf hs) (.some hs))
theorem dispatchOne_yields {num stage ix : Nat} {want : Option (Nat × Nat)} {s : State} (hs : Canonical s) :
    Yields (dispatchOne num stage ix want s) := by
  unfold dispatchOne
  dsimp only
  split
  · exact .none
  · split
    · exact .none
    · rename_i h0
      exact .some (setHart_wf (setLaunch_wf (takeSlot_wf (placeLog_yields hs h0))))
theorem placeRest_yields {num stage : Nat} {s : State} {l : List Nat} (hs : Canonical s) :
    Yields (placeRest num stage s l) := by
  induction l generalizing s with
  | nil => exact .some hs
  | cons i t ih =>
    unfold placeRest
    dsimp only
    split
    · exact .none
    · rename_i h0
      exact ih (dispatchOne_yields hs h0)
theorem placeWhole_yields {core hslot : Nat} {s : State} {x : Nat × Nat × Nat} (hs : Canonical s) :
    Yields (placeWhole core hslot s x) := by
  unfold placeWhole
  dsimp only
  split
  · exact .none
  · rename_i h0
    exact placeRest_yields (dispatchOne_yields hs h0)
theorem flipDeferred_wf {l : Launch} {s : State} (hs : Canonical s) : Canonical (flipDeferred l s) :=
  foldl_wf (fun _ _ h0 => flipWindow_wf h0) hs
theorem compareNote_wf {l : Launch} {s : State} (hs : Canonical s) : Canonical (compareNote l s) :=
  ctxNote_wf (ctxNote_wf hs)
theorem mismatchSend_wf {s : State} {l : Launch} {cause : Nat} {re : Word} (hs : Canonical s) :
    Canonical (mismatchSend s l cause re) := eventSend_wf hs
theorem launchGone_wf {num : Nat} {s : State} (hs : Canonical s) : Canonical (launchGone num s) := hs.of_eq rfl rfl
theorem retireNow_wf {num b2 : Nat} {s : State} (hs : Canonical s) : Canonical (retireNow num b2 s) :=
  launchGone_wf (completionSend_wf (skipRecords_wf (flipDeferred_wf hs)))
theorem rerunStart_yields {num cause : Nat} {s : State} (hs : Canonical s) : Yields (rerunStart num cause s) :=
  .map (.ite (logAppend_yields hs) (.some hs)) fun _ h0 => settleStages_wf (setLaunch_wf h0)
theorem retireFirst_wf {num : Nat} {s : State} (hs : Canonical s) : Canonical (retireFirst num s) := by
  unfold retireFirst
  dsimp only
  refine .ite (.ite (retireNow_wf (mismatchSend_wf (.ite (compareNote_wf (setLaunch_wf hs)) hs))) (retireNow_wf (.ite
    (compareNote_wf (setLaunch_wf hs)) hs))) ?_
  split
  · rename_i h0
    exact rerunStart_yields (.ite (compareNote_wf (setLaunch_wf hs)) hs) h0
  · exact outsideStall_wf hs
theorem retireAgain_wf {num : Nat} {s : State} (hs : Canonical s) : Canonical (retireAgain num s) := by
  unfold retireAgain
  extract_lets l s1 s2 s3
  have h1 : Canonical s1 := by
    unfold s1
    split
    · rename_i h0
      exact ctxWrite_yields hs h0
    · exact ctxNote_wf hs
  have h2 : Canonical s2 := mismatchSend_wf h1
  have h3 : Canonical s3 := .ite (mismatchSend_wf h2) h2
  exact retireNow_wf h3

/-! ## Spill, restore and CTXSW -/

theorem regionWait_wf {c : Nat} {r : HartArea} {s : State} (hs : Canonical s) : Canonical (regionWait c r s) := by
  unfold regionWait
  dsimp only
  split
  · split
    · exact hs
    · rename_i h0
      exact (hvSend_yields hs h0).of_eq rfl rfl
  · exact hs
  · exact ctxNoteOnce_wf hs
theorem regionsDone_wf {c core : Nat} {s : State} (hs : Canonical s) : Canonical (regionsDone c core s) :=
  .ite (setFn_wf hs) hs
theorem mapSlot_wf {slot : Nat} {f : Hart → Hart} {s : State} (hs : Canonical s) : Canonical (mapSlot slot f s) :=
  mapHarts_wf hs
theorem regionsWait_wf {c : Nat} {rs : List HartArea} {s : State} (hs : Canonical s) :
    Canonical (regionsWait c rs s) := by
  unfold regionsWait
  split
  · exact regionWait_wf hs
  · exact hs
theorem areaHome_wf {c : Nat} {s : State} {h : Hart} (hs : Canonical s) : Canonical (areaHome c s h) := by
  unfold areaHome
  cases regionPages s c (saveRegion c (s.ctx c).save.toNat h .write) with
  | some ps => exact .ite (takeHome_wf (kinHome_wf hs)) hs
  | none => exact hs
theorem hartsWrite_yields {c base : Nat} {s : State} {l : List Hart} (hs : Canonical s) :
    Yields (hartsWrite c base s l) := by
  induction l generalizing s with
  | nil => exact .some hs
  | cons h t ih =>
    unfold hartsWrite
    dsimp only
    split
    · exact .none
    · rename_i h0
      obtain ⟨o, -, h1⟩ := Option.bind_eq_some_iff.1 h0
      exact ih (imageWrite_yields hs h1)
theorem slotWrite_yields {c base core slot : Nat} {s : State} (hs : Canonical s) : Yields (slotWrite c base core slot s) := by
  unfold slotWrite
  extract_lets i s0
  have h0 : Canonical s0 := foldl_wf (fun _ _ h => areaHome_wf h) hs
  cases h1 : hartsWrite c base s0 (slotHarts s0 i) with
  | none => exact .none
  | some t => exact imageWrite_yields (hartsWrite_yields h0 h1)
theorem renameEvents_wf {f : Nat} {ren : Nat → Nat} {s : State} (hs : Canonical s) :
    Canonical (renameEvents f ren s) := .ite hs (setFn_wf hs)
theorem slotTake_wf {c core slot : Nat} {s : State} (hs : Canonical s) : Canonical (slotTake c core slot s) :=
  (renameEvents_wf (setSpill_wf hs)).of_eq rfl rfl
theorem spillSlot_wf {core slot : Nat} {s : State} (hs : Canonical s) : Canonical (spillSlot core slot s) := by
  unfold spillSlot
  split
  · exact hs
  · dsimp only
    split
    · exact regionsWait_wf hs
    · rename_i h0
      exact regionsDone_wf (slotTake_wf (slotWrite_yields (mapSlot_wf hs) h0))
theorem settleAll_wf {h : Nat} {s : State} (hs : Canonical s) : Canonical (settleAll h s) :=
  foldl_wf (fun _ _ h0 => settle_wf h0) hs
theorem restoreFault_wf {s : State} {p : Nat × Cause} (hs : Canonical s) : Canonical (restoreFault s p) :=
  .ite (handlerFault_wf hs) hs
theorem hartsBack_wf {c : Nat} {run : Bool} {l : List Hart} {s : State} {bad : List (Nat × Cause)} (hs : Canonical s) :
    Canonical (hartsBack c run l s bad).1 := by
  induction l generalizing s bad with
  | nil => exact hs
  | cons h t ih =>
    unfold hartsBack
    cases hartBack s c h with
    | ok x => exact ih (setHart_wf hs)
    | error e => exact ih (ctxNote_wf (setHart_wf hs))
theorem restoreSlot_wf {core slot c : Nat} {s : State} (hs : Canonical s) : Canonical (restoreSlot core slot c s) := by
  -- unfolded apart from its arguments: the kernel would run the searches that it branches on
  generalize hf : restoreSlot = f
  delta restoreSlot at hf
  subst hf
  beta_reduce
  extract_lets -underBinder sp i base ids ren area
  generalize List.find? _ _ = held
  cases held with
  | some r => exact regionWait_wf hs
  | none =>
    generalize imageRead s c area = image
    cases image with
    | none => exact regionWait_wf hs
    | some p =>
      obtain ⟨cs, bad⟩ := p
      dsimp -zeta only
      extract_lets -underBinder sl s1 x au s2 back s3 s4
      have h1 : Canonical s1 := setSpill_wf (setSlot_wf hs)
      have h4 : Canonical s4 := renameEvents_wf (h1.of_eq rfl rfl)
      exact regionsDone_wf (foldl_wf (fun _ _ h => restoreFault_wf h)
        (foldl_wf (fun _ _ h => settleAll_wf h) (hartsBack_wf h4)))
theorem ctxswExchange_wf {c : Nat} {s : State} (hs : Canonical s) : Canonical (ctxswExchange c s) :=
  setCtx_wf (ctxRecPut_wf (ctxRecPut_wf hs))
theorem ctxswIn_wf {c mask : Nat} {s : State} (hs : Canonical s) : Canonical (ctxswIn c mask s) := by
  unfold ctxswIn
  refine foldl_wf (fun _ _ h0 => ?_) hs
  split
  · exact restoreSlot_wf h0
  · exact h0
/-- Either way the state is in canonical form. -/
def Settled : Except State State → Prop
  | .ok t => Canonical t
  | .error t => Canonical t
/-- The shadow written, or what stands where it could not be. -/
theorem shadowWrite_wf {c base : Nat} {s0 s : State} {l : List (Nat × Nat)} (h0 : Canonical s0) (hs : Canonical s) :
    Settled (shadowWrite c base s0 s l) := by
  induction l generalizing s with
  | nil => exact hs
  | cons p t ih =>
    unfold shadowWrite
    split
    · exact regionsWait_wf h0
    · rename_i h1
      exact ih (regionsDone_wf (slotWrite_yields hs h1))
theorem ctxswOut_wf {c mask : Nat} {s : State} (hs : Canonical s) : Settled (ctxswOut c mask s) := by
  unfold ctxswOut
  extract_lets ps
  split
  · exact hs
  · split
    · exact hs
    · exact shadowWrite_wf hs (foldl_wf (fun _ _ h => mapSlot_wf h) (setCtx_wf hs))
theorem ctxswStep_wf {f q : Nat} {p : Packet} {s : State} (hs : Canonical s) : Canonical (ctxswStep f q p s) := by
  unfold ctxswStep
  extract_lets out inc mask
  have h1 : Settled (ctxswOut out mask s) := ctxswOut_wf hs
  cases hr : ctxswOut out mask s with
  | error t =>
    rw [hr] at h1
    exact h1
  | ok t =>
    rw [hr] at h1
    exact .ite (setQueue_wf h1) (packetDone_wf (ctxswIn_wf (ctxswExchange_wf
      (foldl_wf (fun _ _ h => slotTake_wf h) h1))))
theorem ctxswAbort_wf {f q : Nat} {p : Packet} {s : State} (hs : Canonical s) : Canonical (ctxswAbort f q p s) := by
  unfold ctxswAbort
  refine .ite hs ?_
  dsimp only
  split
  · exact setQueue_wf hs
  · exact .ite hs (packetUndo_wf (setQueue_wf hs))

/-! ## What the outside does, and an instruction -/

theorem busRead_wf {pa n : Nat} {s : State} (hs : Canonical s) : Canonical (busRead pa n s) := hs.of_eq rfl rfl
theorem hostAccess_wf {write : Bool} {pa n : Nat} {bytes : List Byte} {s : State} (hs : Canonical s) :
    Canonical (hostAccess write pa n bytes s) := .ite hs (.ite (outsideStore_wf _ _ hs) (busRead_wf hs))
theorem peerAccess_wf {write : Bool} {pa n : Nat} {bytes : List Byte} {s : State} (hs : Canonical s) :
    Canonical (peerAccess write pa n bytes s) := .ite hs (.ite (outsideStore_wf _ _ hs) (busRead_wf hs))
theorem poisonAt_wf {pa : Nat} {s : State} (hs : Canonical s) : Canonical (poisonAt pa s) := hs.of_eq rfl rfl
theorem correctedCount_wf {core unit : Nat} {s : State} (hs : Canonical s) :
    Canonical (correctedCount core unit s) := hs.of_eq rfl rfl
theorem correctedRecord_wf {core unit addr : Nat} {s : State} (hs : Canonical s) :
    Canonical (correctedRecord core unit addr s) := frecAdd_wf (hs.of_eq rfl rfl)
theorem correctedAt_wf {core unit pa : Nat} {told : Bool} {s : State} (hs : Canonical s) :
    Canonical (correctedAt core unit pa told s) :=
  .ite hs (.ite (correctedRecord_wf (correctedCount_wf hs)) (correctedCount_wf hs))
theorem poisonLines_wf {level core c a : Nat} {s : State} (hs : Canonical s) :
    Canonical (poisonLines level core c a s) := by
  unfold poisonLines
  dsimp only
  split
  · exact setCore_wf hs
  · exact hs.of_eq rfl rfl
  · exact setCore_wf hs
theorem uncorrectableAt_wf {x : EccSite} {s : State} (hs : Canonical s) : Canonical (uncorrectableAt x s) := by
  unfold uncorrectableAt
  dsimp only
  split
  · exact .ite (.ite (poisonAt_wf (frecAdd_wf hs)) hs) (poisonAt_wf hs)
  · exact .ite hs (frecAdd_wf (setHart_wf hs))
  · exact .ite hs (frecAdd_wf (setHart_wf hs))
  · exact .ite hs (frecAdd_wf (setSlot_wf hs))
  · exact .ite hs (frecAdd_wf (setSlot_wf hs))
  · split
    · exact frecAdd_wf (setSlot_wf hs)
    · exact hs
  · exact .ite hs (frecAdd_wf (poisonLines_wf hs))
theorem bootBank_wf {r : BringUp} {s : State} (hs : Canonical s) : Canonical (bootBank r s) := by
  unfold bootBank
  refine .ite hs ?_
  split
  · exact hs.of_eq rfl rfl
  · exact hs.of_eq rfl rfl
theorem laneFails_wf {s : State} {p : Nat × Nat} (hs : Canonical s) : Canonical (laneFails s p) :=
  .ite (setCore_wf hs) hs
theorem columnBringUp_wf {s : State} {p : Nat × Nat} (hs : Canonical s) : Canonical (columnBringUp s p) :=
  .ite hs (.ite (setCore_wf hs) (setCore_wf hs))
theorem bringUp_wf {r : BringUp} {s : State} (hs : Canonical s) : Canonical (bringUp r s) := by
  unfold bringUp
  dsimp only
  split
  · exact (bootBank_wf (afterReset_wf hs)).of_eq rfl rfl
  · exact .ite ((bootBank_wf (afterReset_wf hs)).of_eq rfl rfl) (foldl_wf (fun _ _ h0 =>
      columnBringUp_wf h0) (foldl_wf (fun _ _ h0 => laneFails_wf h0) (bootBank_wf (afterReset_wf hs))))
/-- What a command leaves is in canonical form. -/
def Reply.Sound (r : Reply) : Prop := Canonical r.state
theorem reply_sound {rc : MailRc} {out : List Byte} {s : State} (hs : Canonical s) : (reply rc out s).Sound := hs
theorem Reply.Sound.ite {p : Prop} [Decidable p] {r q : Reply} (hr : r.Sound) (hq : q.Sound) :
    (if p then r else q).Sound := by
  split
  · exact hr
  · exact hq
theorem ctxCreate_sound {f num recA : Nat} {s : State} (hs : Canonical s) : (ctxCreate f num recA s).Sound := by
  unfold ctxCreate
  refine .ite hs ?_
  cases agentRead s f recA 4096 with
  | none => exact hs
  | some r =>
    refine .ite hs ?_
    dsimp only
    split
    · exact hs
    · rename_i h1
      exact reply_sound (setCtx_wf (agentWrite_wf hs h1))
theorem ctxDestroy_sound {f num : Nat} {s : State} (hs : Canonical s) : (ctxDestroy f num s).Sound := by
  unfold ctxDestroy
  extract_lets c s1 x s2
  have h2 : Canonical s2 := .ite (hs.of_eq rfl rfl) (setFn_wf (hs.of_eq rfl rfl))
  exact .ite hs <| .ite hs <| reply_sound (dropCaches_wf (forgetEpochs_wf (setCtx_wf h2)))
theorem fnSet_sound {g recA : Nat} {s : State} (hs : Canonical s) : (fnSet g recA s).Sound := by
  unfold fnSet
  refine .ite hs <| .ite hs ?_
  cases agentRead s 0 recA 256 with
  | none => exact hs
  | some r => exact .ite hs (reply_sound (setFn_wf (writeBack_wf hs)))
theorem evset_sound {f base logsz headA tailA vec : Nat} {s : State} (hs : Canonical s) :
    (evset f base logsz headA tailA vec s).Sound := by
  unfold evset
  refine .ite hs ?_
  cases agentNum s f tailA 8 with
  | none => exact hs
  | some n => exact reply_sound (setFn_wf hs)
theorem invalS1_sound {f num va pages : Nat} {s : State} (hs : Canonical s) : (invalS1 f num va pages s).Sound := by
  unfold invalS1
  extract_lets c b x s1 s2
  have h2 : Canonical s2 := finishOps_wf (flushPending_wf (setCtx_wf hs))
  exact .ite hs (.ite (setFn_wf h2) (mapAllHarts_wf h2))
theorem invalS2_sound {vmid gpa bytes : Nat} {s : State} (hs : Canonical s) : (invalS2 vmid gpa bytes s).Sound := by
  unfold invalS2
  exact .ite hs (setFn_wf (dropAddrs_wf (writeBack_wf (flushPending_wf hs))))
theorem s2Retry_sound {evt : Nat} {s : State} (hs : Canonical s) : (s2Retry evt s).Sound := by
  unfold s2Retry
  split
  · exact hs
  · exact mapAllHarts_wf (setFn_wf hs)
theorem s2Decline_sound {evt : Nat} {s : State} (hs : Canonical s) : (s2Decline evt s).Sound := by
  unfold s2Decline
  split
  · exact hs
  · exact mapAllHarts_wf (setFn_wf hs)
theorem qenable_sound {f q : Nat} {s : State} (hs : Canonical s) : (qenable f q s).Sound := by
  unfold qenable
  refine .ite hs <| .ite hs ?_
  cases agentRead s 0 (descriptorAt s f q) 32 with
  | none => exact hs
  | some d =>
    refine .ite hs ?_
    cases agentNum s f (bitsAt (leNat d) 192 64) 8 with
    | none => exact hs
    | some head => exact reply_sound (mirrorEn_wf (setQueue_wf hs))
theorem qdisable_sound {f q : Nat} {s : State} (hs : Canonical s) : (qdisable f q s).Sound := by
  unfold qdisable
  exact .ite hs <| .ite hs <| reply_sound (mirrorEn_wf (packetStall_wf (packetUndo_wf (setCtx_wf (setQueue_wf hs)))))
theorem laneRetest_sound {core lg : Nat} {pass : Bool} {s : State} (hs : Canonical s) :
    (laneRetest core lg pass s).Sound := by
  unfold laneRetest
  exact .ite hs <| .ite hs <| reply_sound (.ite (setCore_wf hs) hs)
theorem pwrLimit_sound {watts : Nat} {s : State} (hs : Canonical s) : (pwrLimit watts s).Sound := by
  unfold pwrLimit
  exact .ite hs (hs.of_eq rfl rfl)
theorem peerSet_sound {g p : Nat} {v : Bool} {links peerFn : Nat} {s : State} (hs : Canonical s) :
    (peerSet g p v links peerFn s).Sound := by
  unfold peerSet
  exact .ite hs <| .ite hs <| reply_sound (setFn_wf hs)
theorem commSet_sound {comm : Nat} {peers : List Nat} {rank : Nat} {s : State} (hs : Canonical s) :
    (commSet comm peers rank s).Sound := by
  unfold commSet
  exact .ite hs (hs.of_eq rfl rfl)
theorem fwBegin_sound {len : Nat} {s : State} (hs : Canonical s) : (fwBegin len s).Sound := by
  unfold fwBegin
  exact .ite hs (hs.of_eq rfl rfl)
theorem fwData_sound {off : Nat} {bytes : List Byte} {s : State} (hs : Canonical s) : (fwData off bytes s).Sound := by
  unfold fwData
  split
  · exact hs
  · exact .ite hs (hs.of_eq rfl rfl)
theorem fwCommit_sound {v : FwVerdict} {s : State} (hs : Canonical s) : (fwCommit v s).Sound := by
  unfold fwCommit
  split
  · exact hs
  · split
    · exact hs
    · exact hs.of_eq rfl rfl
theorem fwAbort_sound {s : State} (hs : Canonical s) : (fwAbort s).Sound := by
  unfold fwAbort
  split
  · exact hs
  · exact hs.of_eq rfl rfl
theorem command_leads {f : Nat} {virt dark : Bool} {m : State → Reply} {s : State}
    (hm : ∀ {t}, Canonical t → (m t).Sound) (hs : Canonical s) : Leads (.next (command f virt dark m s)) :=
  .next (command_wf (fun _ ht => hm ht) hs)
theorem laneVerdict_wf {h lg lane : Nat} {failed : List Nat} {s : State} (hs : Canonical s) :
    Canonical (laneVerdict h lg lane failed s).1 := by
  unfold laneVerdict
  dsimp only
  split
  · exact laneRetired_wf hs
  · split
    · exact laneRetired_wf (setCore_wf hs)
    · exact frecAdd_wf (setCore_wf hs)
theorem execRpt_leads {n : BitVec 6} {k : BitVec 4} {d a b r : BitVec 3} {s : State} (hs : Canonical s) :
    Leads (execRpt n k d a b r s) := by
  unfold execRpt
  dsimp only
  refine .ite (.next (illegalHere_wf hs)) <| .ite (.next (withHart_wf hs)) ?_
  split
  · rename_i h1
    exact .next (captureStop_wf (frameWords_keeps.ok hs h1))
  · rename_i h1
    exact .next (frameWords_keeps.error hs h1)
  · rename_i h1
    have h2 := frameWords_keeps.ok hs h1
    exact .next (.ite (runHead_wf (fun _ => rptM_keeps) (withHart_wf h2)) (withHart_wf h2))
theorem execFence_leads {t : BitVec 3} {s : State} (hs : Canonical s) : Leads (execFence t s) := by
  unfold execFence
  exact .ite (scalar_leads fenceHandler_keeps hs) <| .ite (.next (withHart_wf hs)) <|
    vecIssue_leads (fun _ => fenceM_keeps) (withHart_wf hs)
/-- A hart's wake leaves the state as it is, or as the wake leaves it. -/
theorem wake_leads {p : Prop} [Decidable p] {s t : State} (ht : Canonical t) (hs : Canonical s) :
    Leads (.next (if p then t else s)) := .next (.ite ht hs)
theorem execBarWaitComplete_leads {h : Nat} {s : State} (hs : Canonical s) : Leads (execBarWaitComplete h s) := by
  unfold execBarWaitComplete
  dsimp only
  split
  · exact wake_leads (wakeWith_wf barDone_keeps hs) hs
  · exact .next hs
theorem execJoinComplete_leads {h : Nat} {s : State} (hs : Canonical s) : Leads (execJoinComplete h s) := by
  unfold execJoinComplete
  dsimp only
  split
  · exact wake_leads (.ite (wakeHart_wf hs) (wakeWith_wf absorbM_keeps hs)) hs
  · exact .next hs
theorem execQpopWake_leads {h : Nat} {s : State} (hs : Canonical s) : Leads (execQpopWake h s) := by
  unfold execQpopWake
  dsimp only
  split
  · exact wake_leads (wakeHart_wf hs) hs
  · exact .next hs
theorem execQpushWake_leads {h : Nat} {s : State} (hs : Canonical s) : Leads (execQpushWake h s) := by
  unfold execQpushWake
  dsimp only
  split
  · exact wake_leads (wakeHart_wf hs) hs
  · exact .next hs
theorem execWaitvalWake_leads {h : Nat} {s : State} (hs : Canonical s) : Leads (execWaitvalWake h s) := by
  unfold execWaitvalWake
  dsimp only
  split
  · exact wake_leads (wakeHart_wf hs) hs
  · exact .next hs
theorem execWaitltWake_leads {h : Nat} {s : State} (hs : Canonical s) : Leads (execWaitltWake h s) := by
  unfold execWaitltWake
  dsimp only
  split
  · exact wake_leads (wakeHart_wf hs) hs
  · exact .next hs
theorem execWldComplete_leads {core slot n : Nat} {s : State} (hs : Canonical s) : Leads (execWldComplete core slot n s) := by
  unfold execWldComplete
  dsimp only
  split
  · exact .ite (.next hs) (.next (engineComplete_wf (fun _ _ _ => wldDone_keeps) hs))
  · exact .next hs
theorem execCollComplete_leads {comm : Nat} {parts : List CollPart} {bad : List Nat} {s : State} (hs : Canonical s) :
    Leads (execCollComplete comm parts bad s) := by
  unfold execCollComplete
  split
  · exact .next hs
  · exact .next (.ite (agent_wf collDoneM_keeps hs) hs)
theorem execCollLinkTimeout_leads {comm : Nat} {s : State} (hs : Canonical s) : Leads (execCollLinkTimeout comm s) := by
  unfold execCollLinkTimeout
  split
  · exact .next hs
  · exact .next (.ite (agent_wf collTimeoutM_keeps hs) hs)
theorem execLaneSelftestDone_leads {h : Nat} {failed : List Nat} {s : State} (hs : Canonical s) :
    Leads (execLaneSelftestDone h failed s) := by
  unfold execLaneSelftestDone
  split
  · exact .next (.ite (laneOutcome_wf (laneVerdict_wf hs)) (setHart_wf (laneVerdict_wf hs)))
  · exact .next hs
theorem execColumnSelftestDone_leads {h : Nat} {failed : List Nat} {s : State} (hs : Canonical s) :
    Leads (execColumnSelftestDone h failed s) := by
  unfold execColumnSelftestDone
  extract_lets x
  split
  · extract_lets bad s1 nsp v l s2
    have h1 : Canonical s1 := foldl_wf (fun _ _ h0 => columnFails_wf h0) hs
    have h2 : Canonical s2 := .ite (setLaunch_wf h1) h1
    exact .next (takeTrap_wf h2)
  · exact .next hs
theorem execLogStall_leads {c kind : Nat} {s : State} (hs : Canonical s) : Leads (execLogStall c kind s) := by
  unfold execLogStall
  have h1 {b : List Byte} : Canonical (eventSend s (c / 64) 4 (c % 64) b) := eventSend_wf hs
  exact .ite (.next (.ite (setCtx_wf h1) (mapHarts_wf h1))) (.next hs)
/-- A packet of its type under way in a queue, or none, which changes nothing. -/
theorem packet_leads {o : Option Packet} {s : State} {g : Packet → State} (hs : Canonical s) (hg : ∀ p, Canonical (g p)) :
    Leads (match o with | none => .next s | some p => .next (g p)) := by
  cases o with
  | none => exact .next hs
  | some p => exact .next (hg p)
theorem execSignalStore_leads {f q : Nat} {s : State} (hs : Canonical s) : Leads (execSignalStore f q s) := by
  unfold execSignalStore
  split
  · exact .next hs
  · extract_lets a
    refine .next (.ite hs ?_)
    split
    · rename_i h1
      exact packetDone_wf (agentWrite_wf hs h1)
    · exact packetError_wf hs
theorem execWaitvalPacketSatisfied_leads {f q : Nat} {s : State} (hs : Canonical s) :
    Leads (execWaitvalPacketSatisfied f q s) := by
  unfold execWaitvalPacketSatisfied
  split
  · exact .next hs
  · refine .next (.ite hs ?_)
    split
    · exact packetError_wf hs
    · exact .ite (packetDone_wf hs) hs
theorem execPlace_leads {core hslot : Nat} {s : State} (hs : Canonical s) : Leads (execPlace core hslot s) := by
  unfold execPlace
  refine .next (.ite hs ?_)
  extract_lets s1
  have h1 : Canonical s1 := foldl_wf (fun _ _ h0 => logSweep_wf h0) hs
  clear_value s1
  split
  · rename_i h2
    exact Yields.findSome (fun _ => placeWhole_yields h1) h2
  · split
    · exact outsideStall_wf h1
    · exact h1
theorem execQpopRetireChoice_leads {l stage : Nat} {s : State} (hs : Canonical s) :
    Leads (execQpopRetireChoice l stage s) := by
  unfold execQpopRetireChoice
  refine .next ?_
  split
  · exact hs
  · exact .ite (setHart_wf hs) (hs.of_eq rfl rfl)
theorem execSpdmRequest_leads {f block : Nat} {setKeys : Bool} {s : State} (hs : Canonical s) :
    Leads (execSpdmRequest f block setKeys s) := by
  unfold execSpdmRequest
  refine .next (.ite hs ?_)
  extract_lets x s1
  have h1 : Canonical s1 := .ite (hs.of_eq rfl rfl) hs
  exact .ite (h1.of_eq rfl rfl) h1
theorem execDramScrub_leads {pa finding : Nat} {s : State} (hs : Canonical s) : Leads (execDramScrub pa finding s) := by
  unfold execDramScrub
  exact .next <| .ite hs <| .ite (correctedRecord_wf (correctedCount_wf hs)) <| .ite (uncorrectableAt_wf hs) hs
theorem execPeerLinkDown_leads {link : Nat} {down : Bool} {s : State} (hs : Canonical s) :
    Leads (execPeerLinkDown link down s) := by
  unfold execPeerLinkDown
  exact .next <| .ite hs <| .ite (hs.of_eq rfl rfl) <| .ite hs (hs.of_eq rfl rfl)
theorem exec_leads {i : Instr} {s : State} (hs : Canonical s) : Leads (exec i s) := by
  cases i with
  | add | sub | mul | mulh | div | rem | and | or | xor | shl | shr | sar | min | max | slt | cnt | addi | andi | ori
  | xori | shli | shri | sari | slti | lih | addpc => exact .next (result_wf hs)
  | sfadd | sfsub | sfmul | sfdiv => exact .next (sf2_wf hs)
  | sfma | sfsqrt | sfcvt | sfmm | sfcmp => exact .next (sfResult_wf hs)
  | beq | bne | blt | bge | bltu | bgeu => exact .next (branch_wf hs)
  | spset => exact .next (advance_wf (withHart_wf hs))
  | setvl | setvli => exact .next (result_wf (setVl_wf hs))
  | strip => exact .next (.ite (withHart_wf hs) (stripped_wf hs))
  | jal => exact .next (goto_wf (setS_wf hs))
  | jalr => exact .ite (.next (goto_wf (setS_wf hs))) (.next (takeTrap_wf hs))
  | ld => exact scalar_leads ldM_keeps hs
  | st => exact scalar_leads stM_keeps hs
  | lds => exact scalar_leads ldsM_keeps hs
  | sts => exact scalar_leads stsM_keeps hs
  | waitval => exact scalar_leads waitvalM_keeps hs
  | amo => exact scalar_leads amoM_keeps hs
  | xcopy => exact scalar_leads xcopyM_keeps hs
  | xfill => exact scalar_leads xfillM_keeps hs
  | rcfence => exact scalar_leads rcfenceM_keeps hs
  | waitlt => exact scalar_leads waitltM_keeps hs
  | phase => exact scalar_leads phaseM_keeps hs
  | yield => exact scalar_leads yieldM_keeps hs
  | publish => exact scalar_leads publishM_keeps hs
  | bar => exact scalar_leads barM_keeps hs
  | retire => exact scalar_leads retireM_keeps hs
  | qpush => exact scalar_leads qpushM_keeps hs
  | qpop => exact scalar_leads qpopM_keeps hs
  | ctlrd => exact scalar_leads ctlrdM_keeps hs
  | ctlwr => exact scalar_leads ctlwrM_keeps hs
  | claim => exact scalar_leads claimM_keeps hs
  | resume => exact scalar_leads resumeM_keeps hs
  | fork => exact .ite (.next (illegalHere_wf hs)) (scalar_leads forkM_keeps hs)
  | join => exact .ite (.next (illegalHere_wf hs)) (scalar_leads joinM_keeps hs)
  | kvcommit => exact .ite (.next (absentHere_wf hs)) (scalar_leads kvcommitM_keeps hs)
  | logmark => exact .ite (.next (absentHere_wf hs)) (scalar_leads logmarkM_keeps hs)
  | coll => exact .ite (.next (absentHere_wf hs)) (scalar_leads collM_keeps hs)
  | algld => exact .ite (.next (absentHere_wf hs)) (.ite (.next (illegalHere_wf hs)) (scalar_leads algldM_keeps hs))
  | vadd | vsub | vmul | vmulh | vmin | vmax | vand | vor | vxor | vshl | vshr | vsar | vaddsat | vsubsat | vfadd | vfsub
  | vfmul | vfdiv | vfmin | vfmax | vfsgn => exact vecIssue_leads (fun _ => binaryM_keeps) hs
  | vfsqrt | vfrcp | vfrsq | vfexp2 | vflog2 => exact vecIssue_leads (fun _ => unaryM_keeps) hs
  | vcmp | vfcmp => exact vecIssue_leads (fun _ => compareM_keeps) hs
  | vredsum | vredmax | vredmin | vfredsum | vfredmax | vredseq => exact vecIssue_leads (fun _ => reduceM_keeps) hs
  | vld | vldRaw | vldff | vldffRaw => exact vecIssue_leads (fun _ => vldM_keeps) hs
  | vst | vstRaw => exact vecIssue_leads (fun _ => vstM_keeps) hs
  | vamo => exact vecIssue_leads (fun _ => vamoM_keeps) hs
  | vfma => exact vecIssue_leads (fun _ => vfmaM_keeps) hs
  | kop => exact vecIssue_leads (fun _ => kopM_keeps) hs
  | kpop => exact vecIssue_leads (fun _ => kpopM_keeps) hs
  | kfirst => exact vecIssue_leads (fun _ => kfirstM_keeps) hs
  | kmov => exact vecIssue_leads (fun _ => kmovM_keeps) hs
  | vcvt => exact vecIssue_leads (fun _ => vcvtM_keeps) hs
  | vnarrow => exact vecIssue_leads (fun _ => vnarrowM_keeps) hs
  | vwiden => exact vecIssue_leads (fun _ => vwidenM_keeps) hs
  | vmerge => exact vecIssue_leads (fun _ => vmergeM_keeps) hs
  | vperm => exact vecIssue_leads (fun _ => vpermM_keeps) hs
  | vslide => exact vecIssue_leads (fun _ => vslideM_keeps) hs
  | vcompress => exact vecIssue_leads (fun _ => vcompressM_keeps) hs
  | vexpand => exact vecIssue_leads (fun _ => vexpandM_keeps) hs
  | viota => exact vecIssue_leads (fun _ => viotaM_keeps) hs
  | vbcast => exact vecIssue_leads (fun _ => vbcastM_keeps) hs
  | vmovx => exact vecIssue_leads (fun _ => vmovxM_keeps) hs
  | vext => exact vecIssue_leads (fun _ => vextM_keeps) hs
  | vins => exact vecIssue_leads (fun _ => vinsM_keeps) hs
  | mrd => exact vecIssue_leads (fun _ => mrdM_keeps) hs
  | mwr => exact vecIssue_leads (fun _ => mwrM_keeps) hs
  | mclr => exact vecIssue_leads (fun _ => mclrM_keeps) hs
  | wld | wldff => exact vecIssue_leads (fun _ => wldM_keeps) hs
  | wsel => exact vecIssue_leads (fun _ => wselM_keeps) hs
  | mtree => exact .ite (.next (absentHere_wf hs)) (vecIssue_leads (fun _ => mtreeM_keeps) hs)
  | vtmul => exact .ite (.next (absentHere_wf hs)) (vecIssue_leads (fun _ => vtmulM_keeps) hs)
  | vtconj => exact .ite (.next (absentHere_wf hs)) (vecIssue_leads (fun _ => vtconjM_keeps) hs)
  | mrow => exact .ite (.next (absentHere_wf hs)) (vecIssue_leads (fun _ => mrowM_keeps) hs)
  | mchk => exact .ite (.next (absentHere_wf hs)) (vecIssue_leads (fun _ => mchkM_keeps) hs)
  | mloc => exact .ite (.next (absentHere_wf hs)) (vecIssue_leads (fun _ => mlocM_keeps) hs)
  | mfix => exact .ite (.next (absentHere_wf hs)) (vecIssue_leads (fun _ => mfixM_keeps) hs)
  | rpt => exact execRpt_leads hs
  | fence => exact execFence_leads hs
  | trap | brk => exact .next (softTrap_wf hs)
  | illegalOp | fetchFault => exact .next (takeTrap_wf hs)
  | ctxCreate => exact command_leads ctxCreate_sound hs
  | ctxDestroy => exact command_leads ctxDestroy_sound hs
  | fnSet => exact command_leads fnSet_sound hs
  | evset => exact command_leads evset_sound hs
  | invalS1 => exact command_leads invalS1_sound hs
  | invalS2 => exact command_leads invalS2_sound hs
  | s2Retry => exact command_leads s2Retry_sound hs
  | s2Decline => exact command_leads s2Decline_sound hs
  | qenable => exact command_leads qenable_sound hs
  | qdisable => exact command_leads qdisable_sound hs
  | frecRead | laneMaskRead | fwUpdateStatus => exact command_leads reply_sound hs
  | laneRetest => exact command_leads laneRetest_sound hs
  | snuff => exact command_leads (fun h => reply_sound (freeze_wf h)) hs
  | pwrLimit => exact command_leads pwrLimit_sound hs
  | peerSet => exact command_leads peerSet_sound hs
  | commSet => exact command_leads commSet_sound hs
  | fwUpdateBegin => exact command_leads fwBegin_sound hs
  | fwUpdateData => exact command_leads fwData_sound hs
  | fwUpdateCommit => exact command_leads fwCommit_sound hs
  | fwUpdateAbort => exact command_leads fwAbort_sound hs
  | queueAttempt => exact .next (queueTry_wf hs)
  | nop => exact packet_leads hs fun _ => packetDone_wf hs
  | launch => exact packet_leads hs fun _ => .ite (packetBegin_wf hs) hs
  | admission => exact packet_leads hs fun _ => admission_wf (logSweep_wf hs)
  | signal => exact packet_leads hs fun _ => .ite (packetBegin_wf hs) hs
  | signalStore => exact execSignalStore_leads hs
  | waitvalPacket => exact packet_leads hs fun _ => .ite (packetBegin_wf hs) hs
  | waitvalPacketSatisfied => exact execWaitvalPacketSatisfied_leads hs
  | codefence => exact packet_leads hs fun _ => .ite (packetBegin_wf hs) hs
  | codefenceAdvance => exact packet_leads hs fun _ => .ite (packetDone_wf (epochAdvance_wf hs)) hs
  | setdet => exact packet_leads hs fun _ => .ite (setdetTake_wf hs) hs
  | setdetApply => exact packet_leads hs fun _ => setdetApply_wf hs
  | ctxsw => exact packet_leads hs fun _ => ctxswStep_wf hs
  | ctxswAbort => exact packet_leads hs fun _ => ctxswAbort_wf hs
  | place => exact execPlace_leads hs
  | qpopRetireChoice => exact execQpopRetireChoice_leads hs
  | launchRetire => exact .next (.ite (.ite (retireNow_wf hs) (.ite (retireFirst_wf hs) (retireAgain_wf hs))) hs)
  | quantumExpiry => exact .next (.ite (mapHarts_wf hs) hs)
  | forcedStop => exact .next (.ite (setHart_wf hs) hs)
  | nonyield => exact .next (.ite (takeTrap_wf (setHart_wf hs)) hs)
  | slotSwitch => exact .next (.ite (mapHarts_wf (setCore_wf hs)) hs)
  | spill => exact .next (.ite (spillSlot_wf hs) hs)
  | restore => exact .next (.ite (restoreSlot_wf hs) hs)
  | barWaitComplete => exact execBarWaitComplete_leads hs
  | joinComplete => exact execJoinComplete_leads hs
  | qpopWake => exact execQpopWake_leads hs
  | qpushWake => exact execQpushWake_leads hs
  | waitvalWake => exact execWaitvalWake_leads hs
  | waitltWake => exact execWaitltWake_leads hs
  | xcopyComplete => exact .next (engineComplete_wf (fun _ _ _ => xcopyDone_keeps) hs)
  | xfillComplete => exact .next (engineComplete_wf (fun _ _ _ => xfillDone_keeps) hs)
  | wldComplete => exact execWldComplete_leads hs
  | kvcommitComplete => exact .next (engineComplete_wf (fun _ _ _ => kvcommitDone_keeps) hs)
  | collComplete => exact execCollComplete_leads hs
  | collLinkTimeout => exact execCollLinkTimeout_leads hs
  | laneSelftestDone => exact execLaneSelftestDone_leads hs
  | columnSelftestDone => exact execColumnSelftestDone_leads hs
  | coreRetired => exact .ite (.next (eventSend_wf (setCore_wf hs))) (.next hs)
  | logStall => exact execLogStall_leads hs
  | hostMemAccess => exact .next (hostAccess_wf hs)
  | peerRequest => exact .next (peerAccess_wf hs)
  | snuffN | thermalShutdown => exact .next (.ite hs (freeze_wf hs))
  | reset => exact .next (bringUp_wf hs)
  | powerControl => exact .next (.ite (setCore_wf hs) hs)
  | spdmRequest => exact execSpdmRequest_leads hs
  | linkTrainDown => exact .next (.ite (hs.of_eq rfl rfl) hs)
  | dramScrub => exact execDramScrub_leads hs
  | peerLinkDown => exact execPeerLinkDown_leads hs

/-! ## A cycle -/

theorem onNext_leads {f : State → State} {o : Out} (hf : ∀ s, Canonical s → Canonical (f s)) (ho : Leads o) :
    Leads (onNext f o) := by
  cases o with
  | next s => exact .next (hf s (ho rfl))
  | _ => exact fun _ h => nomatch h
theorem runInstr_leads {i : Instr} {s : State} (hs : Canonical s) : Leads (runInstr i s) := by
  unfold runInstr
  exact onNext_leads (fun _ h0 => passTurn_wf h0) (exec_leads (holdTurn_wf hs))
theorem runPoisoned_leads {i : Instr} {s : State} (hs : Canonical s) : Leads (runPoisoned i s) :=
  .ite (.next (takeTrap_wf hs)) (.ite (.next (withHart_wf hs)) (runInstr_leads hs))
theorem runWord_leads {w : BitVec 32} {s : State} (hs : Canonical s) : Leads (runWord w s) := by
  unfold runWord
  split
  · exact .ite (runPoisoned_leads hs) (runInstr_leads hs)
  · exact exec_leads hs
theorem issueScalar_leads {s : State} (hs : Canonical s) : Leads (issueScalar s) := by
  unfold issueScalar
  split
  · rename_i h0
    exact runWord_leads (fetchM_keeps.ok hs h0)
  · rename_i h0
    exact exec_leads (fetchM_keeps.error hs h0)
  · rename_i h0
    exact exec_leads (fetchM_keeps.error hs h0)
  · rename_i h0
    exact .next (takeTrap_wf (fetchM_keeps.error hs h0))
  · rename_i h0
    exact .next (awaits_wf (fetchM_keeps.error hs h0))
  · rename_i h0
    exact .next (awaits_wf (fetchM_keeps.error hs h0))
theorem queueStep_wf {s : State} (hs : Canonical s) : Canonical (queueStep s) := by
  unfold queueStep
  split
  · exact passTurn_wf (runQueue_wf hs)
  · exact runQueue_wf hs
theorem issue_leads {s : State} (hs : Canonical s) : Leads (issue s) := by
  unfold issue
  split
  · exact .next (takeTrap_wf hs)
  · exact .ite (.next (startHart_wf hs)) (.ite (.next (queueStep_wf hs)) (issueScalar_leads hs))
theorem issueAhead_leads {s : State} (hs : Canonical s) : Leads (issueAhead s) := by
  unfold issueAhead
  split
  · rename_i t h0
    have ht : Canonical t := fetchM_keeps.ok hs h0
    exact .ite (onNext_leads (fun _ h1 => h1.of_eq rfl rfl) (runWord_leads (ht.of_eq rfl rfl))) (issue_leads hs)
  · exact issue_leads hs
theorem retry_yields {s : State} {id : Nat} (hs : Canonical s) : Yields (retry s id) := by
  unfold retry
  dsimp only
  split
  · rename_i h0
    exact .ite (.ite .none (.some (withHart_wf (issue_leads (withHart_wf (focusOn_wf hs)) h0)))) (.some (issue_leads
      (withHart_wf (focusOn_wf hs)) h0))
  · exact .none
theorem waitOn_wf {s : State} (hs : Canonical s) : Canonical (waitOn s) := by
  unfold waitOn
  split
  · rename_i h0
    exact .ite (withHart_wf (issue_leads (withHart_wf hs) h0)) (issue_leads (withHart_wf hs) h0)
  · exact hs
theorem firstChange_yields {s : State} {l : List Instr} (hs : Canonical s) : Yields (firstChange s l) := by
  induction l with
  | nil => exact .none
  | cons e t ih =>
    unfold firstChange
    split
    · rename_i h0
      exact .ite ih (.some (exec_leads hs h0))
    · exact ih
theorem queueBy_yields {f : State → State} {s : State} {h : Hart} (hf : ∀ s, Canonical s → Canonical (f s))
    (hs : Canonical s) : Yields (queueBy f s h) := .ite (.ite .none (.some (hf _ (focusOn_wf hs)))) .none
theorem parkedQueue_yields {s : State} {h : Hart} (hs : Canonical s) : Yields (parkedQueue s h) :=
  .ite .none (queueBy_yields (fun _ h0 => queueStep_wf h0) hs)
theorem peerDue_yields {s : State} (hs : Canonical s) : Yields (peerDue s) := by
  unfold peerDue
  exact .findSome fun _ => .mapTo fun _ => peerTell_wf hs
theorem invalDue_yields {s : State} (hs : Canonical s) : Yields (invalDue s) := by
  unfold invalDue
  exact .findSome fun _ => invalDone_yields hs
theorem sweepDue_yields {s : State} (hs : Canonical s) : Yields (sweepDue s) := by
  unfold sweepDue
  exact .findSome fun _ => .ite (.ite .none (.some (logSweep_wf hs))) .none
theorem otherIssue_yields {s : State} (hs : Canonical s) : Yields (otherIssue s) := by
  unfold otherIssue
  split
  · split
    · rename_i h0
      exact .some (issue_leads (focusOn_wf hs) h0)
    · exact .none
  · exact .none
theorem ringWake_yields {s : State} (hs : Canonical s) : Yields (ringWake s) := .mapTo fun _ => setHart_wf hs
theorem otherRetry_yields {s : State} (hs : Canonical s) : Yields (otherRetry s) := by
  unfold otherRetry
  exact .orElse (.findSome fun _ => retry_yields hs) (ringWake_yields hs)
theorem otherQueue_yields {s : State} (hs : Canonical s) : Yields (otherQueue s) := by
  unfold otherQueue
  exact .findSome fun _ => parkedQueue_yields hs
theorem deviceStep_yields {n : Nat} {s : State} (hs : Canonical s) : Yields (deviceStep n s) := by
  unfold deviceStep
  split
  · rename_i h0
    exact .some (Yields.orElse (.orElse (peerDue_yields hs) (invalDue_yields hs)) (sweepDue_yields hs) h0)
  · exact firstChange_yields hs
theorem otherwise_wf {s : State} (hs : Canonical s) : Canonical (otherwise s) := by
  unfold otherwise
  exact getD_wf (.orElse (.orElse (.orElse (otherIssue_yields hs) (otherRetry_yields hs)) (otherQueue_yields hs))
    (deviceStep_yields hs)) hs
theorem fairStep_yields {s : State} (hs : Canonical s) : Yields (fairStep s) := by
  unfold fairStep
  split
  · exact deviceStep_yields hs
  · exact otherIssue_yields hs
  · exact otherRetry_yields hs
  · exact otherQueue_yields hs
theorem serialFirst_yields {s : State} (hs : Canonical s) : Yields (serialFirst s) :=
  .ite .none (firstChange_yields hs)
theorem evictStore_wf {h a : Nat} {s : State} (hs : Canonical s) : Canonical (evictStore h a s) :=
  .ite hs (takeHome_wf (kinHome_wf hs))
theorem flipColumn_wf {core slot row col : Nat} {bits : BitVec 32} {s : State} (hs : Canonical s) :
    Canonical (flipColumn core slot row col bits s) := .ite hs (setSlot_wf hs)
theorem fillLine_wf {level core c a : Nat} {s : State} (hs : Canonical s) :
    Canonical (fillLine level core c a s) := by
  unfold fillLine
  dsimp only
  refine .ite hs ?_
  split
  · exact setCore_wf hs
  · exact .ite (hs.of_eq rfl rfl) hs
  · exact setCore_wf hs
theorem unfillLine_wf {level core c a : Nat} {s : State} (hs : Canonical s) :
    Canonical (unfillLine level core c a s) := by
  unfold unfillLine
  dsimp only
  split
  · exact setCore_wf hs
  · exact hs.of_eq rfl rfl
  · exact setCore_wf hs
theorem peerWrites_wf {f a : Nat} {b : Byte} {s : State} (hs : Canonical s) : Canonical (peerWrites f a b s) := by
  unfold peerWrites
  exact .ite ((poke_wf _ b hs).of_eq rfl rfl) hs
theorem focusCycle_leads {s : State} (hs : Canonical s) : Leads (focusCycle s) := by
  unfold focusCycle
  refine .ite (.ite ?_ (onNext_leads (fun _ h0 => h0.of_eq rfl rfl) (issue_leads hs))) (.next (otherwise_wf hs))
  split
  · rename_i h0
    exact .next (retry_yields hs h0)
  · exact .next (otherwise_wf (waitOn_wf hs))
theorem ordinaryCycle_leads {s : State} (hs : Canonical s) : Leads (ordinaryCycle s) := by
  unfold ordinaryCycle
  split
  · rename_i h0
    exact .next (serialFirst_yields hs h0)
  · refine .ite (focusCycle_leads hs) ?_
    extract_lets s1
    have h1 : Canonical s1 := hs.of_eq rfl rfl
    split
    · rename_i h0
      exact .next (fairStep_yields h1 h0)
    · exact focusCycle_leads h1
theorem takeInput_leads {i : Input} {s : State} (hs : Canonical s) : Leads (takeInput i s) := by
  unfold takeInput
  split
  · exact .ite (exec_leads hs) (.next hs)
  · exact .ite (issueAhead_leads hs) (ordinaryCycle_leads hs)
  · exact .next (focusOn_wf hs)
  · exact .next (getD_wf (parkedQueue_yields hs) hs)
  · exact .next (evictStore_wf hs)
  · exact .next (writeBack_wf hs)
  · exact .next (hs.of_eq rfl rfl)
  · exact .next (getD_wf (queueBy_yields (fun _ h0 => runConvoy_wf h0) hs) hs)
  · exact .next (getD_wf (queueBy_yields (fun _ h0 => runPart_wf h0) hs) hs)
  · exact .next (engineUnit_wf hs)
  · exact .next (fillLine_wf hs)
  · exact .next (unfillLine_wf hs)
  · exact .next (peerWrites_wf hs)
  · exact .next (flipColumn_wf hs)
  · exact .next (uncorrectableAt_wf hs)
  · exact .next (correctedAt_wf hs)
  · exact .next (chainRead_wf hs)
  · exact .next (dvsecRead_wf hs)
  · exact .next (configRead_wf hs)
  · exact .next (cdatRead_wf hs)
  · exact .next (frecBus_wf hs)
  · exact .next (hs.of_eq rfl rfl)
theorem frozenInput_leads {i : Input} {s : State} (hs : Canonical s) : Leads (frozenInput i s) := by
  unfold frozenInput
  split
  · exact exec_leads hs
  · exact .next (dvsecRead_wf hs)
  · exact .next (configRead_wf hs)
  · exact .next hs
theorem darkInput_leads {i : Input} {s : State} (hs : Canonical s) : Leads (darkInput i s) := by
  unfold darkInput
  split
  · exact .ite (exec_leads hs) (.next hs)
  · exact .next (hs.of_eq rfl rfl)
  · exact .next (chainRead_wf hs)
  · exact .next (dvsecRead_wf hs)
  · exact .next (configRead_wf hs)
  · exact .next (frecBus_wf hs)
  · exact .next hs
theorem cycle_leads {s : State} (hs : Canonical s) : Leads (cycle s) := by
  unfold cycle
  split
  · extract_lets s1
    have h1 : Canonical s1 := hs.of_eq rfl rfl
    exact .ite (frozenInput_leads h1) (.ite (darkInput_leads h1) (takeInput_leads h1))
  · exact .ite .fault (.ite (.next hs) (ordinaryCycle_leads hs))

/-! ## The obligations on canonical form -/

/-- Settles O12: nothing is listed after reset. -/
theorem resetCanonical : Obligations.ResetCanonical := reset_wf

/-- Settles O13: every outcome of a cycle leaves memory in canonical form. -/
theorem stepKeepsCanonical : Obligations.StepKeepsCanonical := by
  intro s t hs ht
  exact cycle_leads hs ht

end Sys2Proof.Machine
end

section
/-! What the world outside does to the part (R14, R292, R319, R321, R327, R328, R331, R334, R335, R339): stores and reads of
the physical function's memory at home, the fields of a fault record, and the acts themselves. -/

namespace Sys2Proof.Machine

/-! ## Bytes at the physical function's addresses, and stores from outside (R13, R14, R250, R277) -/

/-- Where a byte of the physical function's memory stands depends on that function's peer table alone. -/
theorem homeOf_physical {s t : State} (hp : (t.fn 0).peers = (s.fn 0).peers) {q : Nat} (hq : fnAddr q = 0) :
    homeOf t q = homeOf s q := by
  simp [homeOf, peerCell, hq, hp]
theorem peek_physical {s t : State} (hm : t.mem = s.mem) (hl : t.l2 = s.l2) (hp : (t.fn 0).peers = (s.fn 0).peers)
    {q : Nat} (hq : fnAddr q = 0) : t.peek q = s.peek q := by
  simp only [State.peek, hm, hl, homeOf_physical hp hq]

/-- What a snoop does to a function: its queues may wake. -/
def Fn.snooped (s : State) (f : Nat) (gs : List Nat) (x : Fn) : Fn :=
  { x with queues := x.queues.map (fun q => (q.1, q.2.snooped s f gs)) }

theorem mapGet_map {α : Type} {d : α} {g : Nat → α → α} {k : Nat} (hd : g k d = d) (m : SMap α) :
    mapGet d (m.map (fun p => (p.1, g p.1 p.2))) k = g k (mapGet d m k) := by
  induction m with
  | nil => exact hd.symm
  | cons p t ih =>
    simp only [List.map_cons, mapGet]
    split
    · next h => rw [h]
    · exact ih

theorem snoopQueues_fn (s : State) (as : List Nat) (f : Nat) :
    ∃ gs, (snoopQueues s as).fn f = s.fn f ∨ (snoopQueues s as).fn f = (s.fn f).snooped s f gs := by
  refine ⟨(as.map (fun a => homeOf s a / 64)).eraseDups, ?_⟩
  unfold snoopQueues
  split
  · exact .inr (mapGet_map (g := fun k x => Fn.snooped s k _ x) rfl s.fns)
  · exact .inl rfl
theorem snoopQueues_peers (s : State) (as : List Nat) (f : Nat) :
    ((snoopQueues s as).fn f).peers = (s.fn f).peers := by
  obtain ⟨gs, h | h⟩ := snoopQueues_fn s as f
  · rw [h]
  · rw [h]; rfl

theorem homeStore_peek (ctx : Nat) (stamp : Option Nat) (s : State) (ps : List HStore) {q : Nat} (hq : fnAddr q = 0) :
    (homeStore ctx stamp s ps).peek q = (homeStoreAll ctx stamp none s ps).peek q := by
  obtain ⟨hm, hl⟩ := homeStore_maps (ctx := ctx) (stamp := stamp) ps s
  refine peek_physical hm hl ?_ hq
  unfold homeStore
  extract_lets s1 gs s2 s3
  have h2 : (s2.fn 0).peers = (s1.fn 0).peers := by
    simp only [s2]; split <;> rfl
  have h3 : (s3.fn 0).peers = (s1.fn 0).peers := (snoopQueues_peers s2 _ 0).trans h2
  split
  · simp only [State.fn, dropLines_fns]; exact h3
  · exact h3

theorem withAddr_cons (a : Nat) (b : Byte) (bs : List Byte) : withAddr a (b :: bs) = (a, b) :: withAddr (a + 1) bs := by
  simp [withAddr, List.mapIdx_cons, Nat.add_assoc, Nat.add_comm 1]

theorem byteAfter_cons (a : Nat) (b : Byte) (bs : List Byte) (q : Nat) (old : Byte) :
    byteAfter a (b :: bs) q old = byteAfter (a + 1) bs q (if q = a then b else old) := by
  unfold byteAfter
  rcases Nat.lt_trichotomy q a with h | h | h
  · rw [if_neg (by omega), if_neg (by omega), if_neg (by omega)]
  · rw [if_pos (by omega), if_neg (by omega), if_pos h]; simp [h]
  · rw [if_pos (by omega), if_pos (by omega), if_neg (by omega), show q - a = (q - (a + 1)) + 1 by omega]; rfl

/-- Stores to memory that stands, one byte after another, are read back at home. -/
theorem homeStoreAll_peek (ctx : Nat) (stamp before : Option Nat) (bs : List Byte) {s : State} {a : Nat}
    (hb : ∀ i < bs.length, devBacked (a + i) = true) {q : Nat} (hq : fnAddr q = 0) :
    (homeStoreAll ctx stamp before s (plain (withAddr a bs))).peek q = byteAfter a bs q (s.peek q) := by
  induction bs generalizing s a before with
  | nil => simp [withAddr, plain, homeStoreAll, byteAfter]
  | cons b bs ih =>
    have ha : devBacked a = true := hb 0 (by simp)
    obtain ⟨-, -, hd, hp⟩ := backed_plain ha
    have hdrop : sameDrop s before a = false := by simp [sameDrop, drops, hd, hp, ha]
    have htl : ∀ i < bs.length, devBacked (a + 1 + i) = true := fun i hi => by
      rw [Nat.add_assoc, Nat.add_comm 1]; exact hb (i + 1) (by simpa using hi)
    simp only [withAddr_cons, plain, List.map_cons, homeStoreAll, hdrop, Bool.false_eq_true, if_false]
    exact (ih (a := a + 1) (before := some a) htl).trans (by rw [homeStore1_peek _ _ ha _ hq, byteAfter_cons])

theorem outsideStore_peek {s : State} {a : Nat} {bs : List Byte} (hb : ∀ i < bs.length, devBacked (a + i) = true)
    {q : Nat} (hq : fnAddr q = 0) : (outsideStore s a bs).peek q = byteAfter a bs q (s.peek q) :=
  (homeStore_peek 0 none s _ hq).trans (homeStoreAll_peek 0 none none bs hb hq)

/-! ## The fields of a fault record (R319) -/

theorem bitsAt_or (x y lo n : Nat) : bitsAt (x ||| y) lo n = bitsAt x lo n ||| bitsAt y lo n := by
  simp only [bitsAt, Nat.shiftRight_or_distrib, Nat.or_mod_two_pow]
theorem bitsAt_shiftLeft_above (x : Nat) {k lo n : Nat} (h : lo + n ≤ k) : bitsAt (x <<< k) lo n = 0 := by
  obtain ⟨j, rfl⟩ := Nat.exists_eq_add_of_le h
  rw [bitsAt, show lo + n + j = (n + j) + lo by omega, Nat.shiftLeft_add, Nat.shiftLeft_shiftRight, Nat.shiftLeft_eq,
    Nat.pow_add, ← Nat.mul_assoc, Nat.mul_right_comm]
  exact Nat.mul_mod_left _ _
theorem bitsAt_shiftLeft_below {x k m lo n : Nat} (hx : x < 2 ^ m) (h : k + m ≤ lo) : bitsAt (x <<< k) lo n = 0 := by
  have hlt : x <<< k < 2 ^ lo := by
    rw [Nat.shiftLeft_eq]
    calc x * 2 ^ k < 2 ^ m * 2 ^ k := Nat.mul_lt_mul_of_pos_right hx (Nat.two_pow_pos k)
      _ = 2 ^ (k + m) := by rw [Nat.mul_comm, ← Nat.pow_add]
      _ ≤ 2 ^ lo := Nat.pow_le_pow_right (by decide) h
  rw [bitsAt, Nat.shiftRight_eq_div_pow, Nat.div_eq_of_lt hlt, Nat.zero_mod]
theorem bitsAt_shiftLeft_same {x n : Nat} (k : Nat) (hx : x < 2 ^ n) : bitsAt (x <<< k) k n = x := by
  rw [bitsAt, Nat.shiftLeft_shiftRight, Nat.mod_eq_of_lt hx]

/-- A field of a record, as a number. -/
theorem extractLsb'_ofNat (x lo n : Nat) (h : lo + n ≤ 256) :
    (BitVec.ofNat 256 x).extractLsb' lo n = BitVec.ofNat n (bitsAt x lo n) := by
  apply BitVec.eq_of_toNat_eq
  rw [BitVec.extractLsb'_toNat, BitVec.toNat_ofNat, BitVec.toNat_ofNat, bitsAt, Nat.mod_mod]
  apply Nat.eq_of_testBit_eq
  intro i
  simp only [Nat.testBit_mod_two_pow, Nat.testBit_shiftRight]
  by_cases hi : i < n
  · simp [hi, show lo + i < 256 by omega]
  · simp [hi]

section
variable (s : State) {ty addr core lg unit ctx fn count : Nat}

/-- The number that a fault record holds. -/
def recordNumber (ty addr core lg unit ctx fn count : Nat) : Nat :=
  let lost := if Config.faultRing ≤ s.frec.length then s.frecLost + 1 else s.frecLost
  addr <<< 192 ||| (s.time % 2 ^ 64) <<< 128 ||| (count % 2 ^ 32) <<< 96 ||| (min lost 65535) <<< 80
    ||| core <<< 55 ||| lg <<< 53 ||| unit <<< 46 ||| ctx <<< 40 ||| fn <<< 32 ||| ty

theorem frecAdd_getLast :
    (frecAdd s ty addr core lg unit ctx fn count).frec.getLast? =
      some (BitVec.ofNat 256 (recordNumber s ty addr core lg unit ctx fn count)) := by
  simp only [frecAdd, List.getLast?_append, List.getLast?_singleton, Option.some_or, decide_eq_true_eq, recordNumber]

theorem recordNumber_type (hty : ty < 2 ^ 8) : bitsAt (recordNumber s ty addr core lg unit ctx fn count) 0 8 = ty := by
  have h : bitsAt ty 0 8 = ty := Nat.mod_eq_of_lt hty
  simp [recordNumber, bitsAt_or, bitsAt_shiftLeft_above, h]

section
variable (hty : ty < 2 ^ 8) (hcore : core < 2 ^ 25) (hlg : lg < 2 ^ 2) (hunit : unit < 2 ^ 7) (hctx : ctx < 2 ^ 6)
  (hfn : fn < 2 ^ 8)
include hty hcore hlg hunit hctx hfn

/-- What stands below a record's time and count reaches no field from bit 96 on. -/
theorem recordNumber_low {lo n : Nat} (h : 96 ≤ lo) :
    bitsAt (recordNumber s ty addr core lg unit ctx fn count) lo n =
      bitsAt (addr <<< 192) lo n ||| bitsAt ((s.time % 2 ^ 64) <<< 128) lo n ||| bitsAt ((count % 2 ^ 32) <<< 96) lo n := by
  have hlost : ∀ m, min m 65535 < 2 ^ 16 := fun m => by omega
  have hty' : bitsAt ty lo n = 0 := bitsAt_shiftLeft_below (k := 0) hty (by omega)
  simp only [recordNumber, bitsAt_or, bitsAt_shiftLeft_below (hlost _) (show 80 + 16 ≤ lo by omega),
    bitsAt_shiftLeft_below hcore (show 55 + 25 ≤ lo by omega), bitsAt_shiftLeft_below hlg (show 53 + 2 ≤ lo by omega),
    bitsAt_shiftLeft_below hunit (show 46 + 7 ≤ lo by omega), bitsAt_shiftLeft_below hctx (show 40 + 6 ≤ lo by omega),
    bitsAt_shiftLeft_below hfn (show 32 + 8 ≤ lo by omega), hty', Nat.or_zero]

theorem recordNumber_addr (haddr : addr < 2 ^ 64) :
    bitsAt (recordNumber s ty addr core lg unit ctx fn count) 192 64 = addr := by
  have htime : s.time % 2 ^ 64 < 2 ^ 64 := Nat.mod_lt _ (by decide)
  have hcount : count % 2 ^ 32 < 2 ^ 32 := Nat.mod_lt _ (by decide)
  rw [recordNumber_low s hty hcore hlg hunit hctx hfn (by decide), bitsAt_shiftLeft_same _ haddr,
    bitsAt_shiftLeft_below htime (by decide), bitsAt_shiftLeft_below hcount (by decide), Nat.or_zero, Nat.or_zero]

theorem recordNumber_count :
    bitsAt (recordNumber s ty addr core lg unit ctx fn count) 96 32 = count % 2 ^ 32 := by
  rw [recordNumber_low s hty hcore hlg hunit hctx hfn (by decide), bitsAt_shiftLeft_above _ (by decide),
    bitsAt_shiftLeft_above _ (by decide), bitsAt_shiftLeft_same _ (Nat.mod_lt _ (by decide)), Nat.zero_or, Nat.zero_or]
end
end

theorem channelOf_lt (pa : Nat) : channelOf pa < 64 := by
  have h : ∀ x lo n, n ≤ 6 → bitsAt x lo n < 2 ^ 6 := fun x lo n hn =>
    Nat.lt_of_lt_of_le (Nat.mod_lt _ (Nat.two_pow_pos n)) (Nat.pow_le_pow_right (by decide) hn)
  simp only [channelOf]
  exact Nat.xor_lt_two_pow (n := 6) (Nat.xor_lt_two_pow (Nat.xor_lt_two_pow (Nat.xor_lt_two_pow
    (Nat.xor_lt_two_pow (h _ _ _ (by decide)) (h _ _ _ (by decide))) (h _ _ _ (by decide))) (h _ _ _ (by decide)))
    (h _ _ _ (by decide))) (h _ _ _ (by decide))
/-- The memory sites of a part are numbered from 0 to 15. -/
theorem siteOf_lt {pa : Nat} (h : devBacked pa = true) : siteOf pa < 16 := by
  have hpa : pa < 2 ^ 41 := (backed_plain h).1
  have hc := channelOf_lt pa
  unfold siteOf
  omega

/-! ## The outside world (O60) -/

/-- An instruction completes in the state its operation computes. -/
theorem Completes.of_next {i : Instr} {s t u : State} {P : State → Prop} (he : exec i s = .next u) (hu : u = t) (h : P t) :
    Completes i s P :=
  ⟨t, he.trans (congrArg _ hu), h⟩

theorem poisonAdd_contains (l : List Nat) (g : Nat) : (poisonAdd l g).contains g = true := by
  unfold poisonAdd
  split
  · assumption
  · simp

theorem busRead_good {s : State} {pa n : Nat} (h : ∀ i < n, paBad s (pa + i) = false) :
    busRead pa n s = { s with busOut := some (s.peekBytes pa n) } := by
  have hany : (List.range n).any (fun i => paBad s (pa + i)) = false := by simpa using h
  simp [busRead, hany]
theorem busRead_bad {s : State} {pa n : Nat} (h : ∃ i < n, paBad s (pa + i) = true) :
    busRead pa n s = { s with busOut := none } := by
  have hany : (List.range n).any (fun i => paBad s (pa + i)) = true := by simpa using h
  simp [busRead, hany]

theorem not_paPeer_of_paDevice {a : Nat} (h : paDevice a = true) : paPeer a = false := by
  simp only [paDevice, paPeer, beq_iff_eq] at h ⊢
  simp [h]

section
variable {s : State} (hf : s.frozen = false) (hp : s.pilot = none)
include hf hp

/-- An access of the host's to device memory, in a part that runs. -/
theorem hostAccess_device {pa : Nat} (hd : paDevice pa = true) (write : Bool) (n : Nat) (bytes : List Byte) :
    hostAccess write pa n bytes s = if write then outsideStore s pa bytes else busRead pa n s := by
  simp [hostAccess, hf, hp, not_paPeer_of_paDevice hd]
theorem peerAccess_device {pa : Nat} (hd : paDevice pa = true) (write : Bool) (n : Nat) (bytes : List Byte) :
    peerAccess write pa n bytes s = if write then outsideStore s pa bytes else busRead pa n s := by
  simp [peerAccess, hf, hp, hd]

/-- Whatever holds after a store or a read from outside holds after a host's access and after a peer's. -/
theorem accesses_complete {pa : Nat} (hd : paDevice pa = true) (write : Bool) (n : Nat) (bytes : List Byte) {P : State → Prop}
    (h : P (if write then outsideStore s pa bytes else busRead pa n s)) :
    Completes (.hostMemAccess write pa n bytes) s P ∧ Completes (.peerRequest write pa n bytes) s P :=
  ⟨⟨hostAccess write pa n bytes s, rfl, (hostAccess_device hf hp hd write n bytes).symm ▸ h⟩,
    ⟨peerAccess write pa n bytes s, rfl, (peerAccess_device hf hp hd write n bytes).symm ▸ h⟩⟩

/-- A finding of the scrubber that cannot be corrected: poison, and a record of type 6. -/
theorem dramScrub_uncorrectable {pa : Nat} (hb : devBacked pa = true) :
    Completes (.dramScrub pa 2) s (fun t => t.poison.contains (pa / 64) = true ∧ t.mem = s.mem ∧ t.l2 = s.l2 ∧
      (t.frec.getLast?.map (fun r => (r.extractLsb' 0 8, r.extractLsb' 192 64))) = some (6, BitVec.ofNat 64 pa)) := by
  obtain ⟨hlt, -, hd, -⟩ := backed_plain hb
  have hs := siteOf_lt hb
  refine .of_next rfl (t := poisonAt pa (frecAdd s 6 pa (siteOf pa) 0 (channelOf pa % 16) 63 255 0))
    (by simp [hb, hf, hp, hd, uncorrectableAt]) ⟨poisonAdd_contains s.poison _, rfl, rfl, ?_⟩
  · show (frecAdd s 6 pa _ _ _ _ _ _).frec.getLast?.map _ = _
    rw [frecAdd_getLast, Option.map_some, extractLsb'_ofNat _ _ _ (by decide), extractLsb'_ofNat _ _ _ (by decide),
      recordNumber_type s (by decide), recordNumber_addr s (by decide) (by omega) (by decide) (by omega) (by decide)
        (by decide) (by omega)]
    rfl

/-- A corrected finding of the scrubber: its site's count ends in a record of type 5. -/
theorem dramScrub_corrected {pa : Nat} (hb : devBacked pa = true) :
    Completes (.dramScrub pa 1) s (fun t => t.poison = s.poison ∧ t.mem = s.mem ∧ t.l2 = s.l2 ∧
      mapGet 0 t.corrected ((512 + siteOf pa) * 128 + channelOf pa % 16) = 0 ∧
      (t.frec.getLast?.map (fun r => (r.extractLsb' 0 8, r.extractLsb' 96 32, r.extractLsb' 192 64))) =
        some (5, BitVec.ofNat 32 (mapGet 0 s.corrected ((512 + siteOf pa) * 128 + channelOf pa % 16) + 1),
          BitVec.ofNat 64 pa)) := by
  have hlt := (backed_plain hb).1
  refine .of_next rfl (t := correctedRecord (512 + siteOf pa) (channelOf pa % 16) pa
      (correctedCount (512 + siteOf pa) (channelOf pa % 16) s)) (by simp [hb, hf, hp])
    ⟨rfl, rfl, rfl, mapGet_put_self 0 _ _ 0, ?_⟩
  have hc : (512 + siteOf pa) % 512 < 2 ^ 25 := by omega
  simp only [correctedRecord, frecAdd_getLast, Option.map_some, correctedCount, mapGet_put_self]
  rw [extractLsb'_ofNat _ _ _ (by decide), extractLsb'_ofNat _ _ _ (by decide), extractLsb'_ofNat _ _ _ (by decide),
    recordNumber_type _ (by decide), recordNumber_addr _ (by decide) hc (by decide) (by omega) (by decide) (by decide) (by omega),
    recordNumber_count _ (by decide) hc (by decide) (by omega) (by decide) (by decide)]
  exact congrArg some (Prod.ext rfl (Prod.ext (BitVec.eq_of_toNat_eq (by simp)) rfl))

end

/-- The freeze leaves harts and memory, and writes a record of type 9. -/
theorem freeze_leaves (s : State) :
    (freeze s).frozen = true ∧ (freeze s).hart = s.hart ∧ (freeze s).harts = s.harts ∧ (freeze s).mem = s.mem ∧
      (freeze s).l2 = s.l2 ∧ ((freeze s).frec.getLast?.map (fun r => r.extractLsb' 0 8)) = some 9 := by
  refine ⟨rfl, rfl, rfl, rfl, rfl, ?_⟩
  simp only [freeze, frecAdd_getLast, Option.map_some]
  rw [extractLsb'_ofNat _ _ _ (by decide), recordNumber_type _ (by decide)]
  rfl

theorem powerControl_sets {s : State} (hf : s.frozen = false) (hp : s.pilot = none) {core cap : Nat}
    (hc : core < Config.cores) (h1 : 1 ≤ cap) (h4 : cap ≤ 4) :
    Completes (.powerControl core cap) s (fun t =>
      t.core core = { s.core core with cap := cap } ∧ (∀ c, c ≠ core → t.core c = s.core c) ∧
      t = { s with cores := t.cores }) := by
  refine .of_next rfl (t := s.setCore core { s.core core with cap := cap }) (by simp [hf, hp, hc, h1, h4]) ⟨?_, ?_, rfl⟩
  · rw [State.setCore_core, if_pos rfl]
  · intro c h
    rw [State.setCore_core, if_neg h]

theorem linkTrainDown_trains (s : State) (lanes rate : Nat) :
    Completes (.linkTrainDown lanes rate) s (fun t => t =
      if (lanes = 8 ∨ lanes = 16) ∧ (rate = 64 ∨ rate = 128) ∧ lanes ≤ s.hostLanes ∧ rate ≤ s.hostRate then
        { s with hostLanes := lanes, hostRate := rate } else s) := by
  refine ⟨_, rfl, ?_⟩
  simp only [Bool.and_eq_true, Bool.or_eq_true, decide_eq_true_eq, and_assoc]

/-- A link that comes back leaves the list of those down, and one that goes down joins it once. -/
theorem peerLinkDown_lists (s : State) {link : Nat} (down : Bool) (hl : link ≤ 17) :
    Completes (.peerLinkDown link down) s (fun t =>
      (down = true → ∃ c, (link, c) ∈ t.linksDown) ∧
      (down = false → ∀ c, (link, c) ∉ t.linksDown) ∧
      (∀ l c, l ≠ link → ((l, c) ∈ t.linksDown ↔ (l, c) ∈ s.linksDown)) ∧ t = { s with linksDown := t.linksDown }) := by
  refine ⟨_, rfl, ?_⟩
  rw [if_neg (by omega)]
  cases down with
  | false =>
    refine ⟨nofun, fun _ c => by simp, fun l c h => by simp [h], rfl⟩
  | true =>
    by_cases h : s.linksDown.any (fun d => d.1 == link) = true
    · rw [if_neg (by simp), if_pos h]
      obtain ⟨⟨l, c⟩, hm, he⟩ := List.any_eq_true.1 h
      obtain rfl : l = link := by simpa using he
      exact ⟨fun _ => ⟨c, hm⟩, nofun, fun _ _ _ => Iff.rfl, rfl⟩
    · rw [if_neg (by simp), if_neg h]
      exact ⟨fun _ => ⟨s.cycle, by simp⟩, nofun, fun l c hne => by simp [hne], rfl⟩

theorem spdmRequest_answers {s : State} (hf : s.frozen = false) (hp : s.pilot = none) {f block : Nat} (keys : Bool)
    (h : f ≤ 32) (h1 : 1 ≤ block) (h5 : block ≤ 5) :
    Completes (.spdmRequest f block keys) s (fun t => t = {
      s.setFn f { s.fn f with doeOut := Config.spdmBytes f block (measured s block) s.fresh } with
        fresh := s.fresh + 1, ideKeys := s.ideKeys || keys }) := by
  refine ⟨_, rfl, ?_⟩
  have hf32 : ¬ 32 < f := by omega
  cases keys <;> simp [hf, hp, hf32, h1, h5]

/-- Settles O60, each act by its own lemma. -/
theorem outsideActs : Obligations.OutsideActs := by
  intro s pa n core cap lanes rate link f block bytes down keys stores reads site frozen hf hp
  refine ⟨fun hb hd => ?_, fun hg hd => ?_, fun hbad hd => ?_, fun hb => ?_, ?_, ?_, ?_, ?_, ?_, ?_⟩
  · exact accesses_complete hf hp hd true n bytes (fun q hq => outsideStore_peek hb hq)
  · exact accesses_complete hf hp hd false n bytes (busRead_good hg)
  · exact accesses_complete hf hp hd false n bytes (busRead_bad hbad)
  · exact ⟨dramScrub_uncorrectable hf hp hb, dramScrub_corrected hf hp hb⟩
  · exact .of_next rfl (if_neg (by simp [hf])) (freeze_leaves s)
  · exact .of_next rfl (if_neg (by simp [hf])) (freeze_leaves s)
  · exact fun hc h1 h4 => powerControl_sets hf hp hc h1 h4
  · exact linkTrainDown_trains s lanes rate
  · exact fun hl => peerLinkDown_lists s down hl
  · exact fun h h1 h5 => spdmRequest_answers hf hp keys h h1 h5

end Sys2Proof.Machine
end

section
/-! Commands of the mailbox and the capability chain (R19 to R21, R252, R273, R284, R319 to R321, R329, R330, R332, R336,
R337, R339, R340). -/

namespace Sys2Proof.Machine

/-! ## A command's answer (R329) -/

section
variable {s : State} {f : Nat} (hf : s.frozen = false) (hp : s.pilot = none) (hi : (s.fn f).inval = none) (hle : f ≤ 32)
include hf hp hi hle

/-- In a part that runs, a free mailbox takes a command that its function may give. -/
theorem command_answered {virt dark : Bool} (hv : f = 0 ∨ virt = true) (m : State → Reply) :
    command f virt dark m s = answered (m s).state f (m s).rc (m s).out := by
  have hle' : ¬ 32 < f := by omega
  have hv' : ((f ≠ 0 && !virt) || (s.pilot.isSome && !dark)) = false := by
    rcases hv with h | h
    · simp [h, hp]
    · simp [h, hp]
  simp only [command, hv', Bool.false_eq_true, if_false]
  exact if_neg (by simp [hf, hi, hle'])

/-- Such a command completes with its reply. -/
theorem command_completes {i : Instr} {virt dark : Bool} {m : State → Reply} (hv : f = 0 ∨ virt = true)
    (he : exec i s = .next (command f virt dark m s)) {rc : MailRc} {out : List Byte} {t : State}
    (hm : m s = reply rc out t) {P : State → Prop} (h : P (answered t f rc out)) : Completes i s P :=
  .of_next he (by rw [command_answered hf hp hi hle hv, hm]; rfl) h
end

@[simp] theorem answered_mem (s : State) (f : Nat) (rc : MailRc) (out : List Byte) : (answered s f rc out).mem = s.mem := rfl
@[simp] theorem answered_l2 (s : State) (f : Nat) (rc : MailRc) (out : List Byte) : (answered s f rc out).l2 = s.l2 := rfl
@[simp] theorem answered_mailRc (s : State) (f : Nat) (rc : MailRc) (out : List Byte) :
    ((answered s f rc out).fn f).mailRc = rc := by simp [answered]
/-- An answer leaves what a function holds beside its mailbox. -/
theorem answered_fn (s : State) (f : Nat) (rc : MailRc) (out : List Byte) (g : Nat) :
    (answered s f rc out).fn g = if g = f then { s.fn f with mailRc := rc, mailOut := out } else s.fn g := by
  simp [answered, State.setFn_fn]
@[simp] theorem answered_peers (s : State) (f : Nat) (rc : MailRc) (out : List Byte) (g : Nat) :
    ((answered s f rc out).fn g).peers = (s.fn g).peers := by
  rw [answered_fn]
  split
  · next h => rw [h]
  · rfl
@[simp] theorem answered_queue (s : State) (f : Nat) (rc : MailRc) (out : List Byte) (g q : Nat) :
    (answered s f rc out).queue g q = s.queue g q := by
  simp only [State.queue, answered_fn]
  split
  · next h => rw [h]
  · rfl
theorem answered_peek (s : State) (f : Nat) (rc : MailRc) (out : List Byte) {a : Nat} (ha : fnAddr a = 0) :
    (answered s f rc out).peek a = s.peek a :=
  peek_physical (answered_mem _ _ _ _) (answered_l2 _ _ _ _) (answered_peers s f rc out 0) ha

/-! ## A host queue's descriptor (R273) -/

@[simp] theorem State.setQueue_queue_self (s : State) (f q : Nat) (x : HostQueue) : (s.setQueue f q x).queue f q = x := by
  simp [State.queue, State.setQueue]
@[simp] theorem State.setQueue_peers (s : State) (f q : Nat) (x : HostQueue) (g : Nat) :
    ((s.setQueue f q x).fn g).peers = (s.fn g).peers := by
  simp only [State.setQueue, State.setFn_fn]
  split
  · next h => rw [h]
  · rfl
@[simp] theorem descriptorAt_setQueue (s : State) (f q : Nat) (x : HostQueue) :
    descriptorAt (s.setQueue f q x) f q = descriptorAt s f q := by
  simp [descriptorAt, State.setQueue]
theorem setQueue_peek (s : State) (f q : Nat) (x : HostQueue) {a : Nat} (ha : fnAddr a = 0) :
    (s.setQueue f q x).peek a = s.peek a :=
  peek_physical (State.setFn_mem _ _ _) (State.setFn_l2 _ _ _) (State.setQueue_peers s f q x 0) ha

/-- A byte stored from outside in memory that stands: the functions' own part is what the snoop leaves. -/
theorem outsideStore_byte (s : State) {a : Nat} (b : Byte) (hb : devBacked a = true) :
    ∃ t, outsideStore s a [b] = snoopQueues t [a] ∧ t.fns = s.fns ∧ t.ctxs = keepUndo s none 0 none a s.ctxs := by
  obtain ⟨-, -, hd, hpe⟩ := backed_plain hb
  have h1 : homeStoreAll 0 none none s (plain (withAddr a [b])) =
      { s.poke a b with ctxs := keepUndo s none 0 none a s.ctxs } := by
    simp [withAddr, plain, homeStoreAll, sameDrop, drops, homeStore1, hd, hpe, hb]
  refine ⟨_, rfl, ?_, ?_⟩
  · rw [h1]; split <;> simp [State.poke, hd]
  · rw [h1]; split <;> rfl

/-- A queue that is not idle under coherence keeps what it holds through such a store (R277). -/
theorem outsideStore_queue {s : State} {a : Nat} (b : Byte) (hb : devBacked a = true) {f q : Nat}
    (h : (s.queue f q).st ≠ .idle ∨ (s.queue f q).seen = none) : (outsideStore s a [b]).queue f q = s.queue f q := by
  obtain ⟨t, ht, hfns, -⟩ := outsideStore_byte s b hb
  have hfn : t.fn f = s.fn f := by simp only [State.fn, hfns]
  rw [ht]
  obtain ⟨gs, hg | hg⟩ := snoopQueues_fn t [a] f
  · simp only [State.queue, hg, hfn]
  · simp only [State.queue, hg, hfn, Fn.snooped]
    rw [mapGet_map (g := fun _ x => HostQueue.snooped t f gs x) rfl]
    change HostQueue.snooped t f gs (s.queue f q) = s.queue f q
    unfold HostQueue.snooped
    split
    · next seen hseen =>
      rcases h with h | h
      · simp [h]
      · rw [h] at hseen; cases hseen
    · rfl

/-- What snapshot-strict contexts keep of a byte leaves every other part of a context. -/
theorem keepUndo_drains (s : State) (author : Option Author) (ctx : Nat) (stamp : Option Nat) (a : Nat) (m : SMap Ctx)
    (c : Nat) :
    (mapGet Ctx.initial (keepUndo s author ctx stamp a m) c).drains = (mapGet Ctx.initial m c).drains := by
  induction m with
  | nil => rfl
  | cons p m ih =>
    simp only [keepUndo, mapGet]
    split
    · split <;> rfl
    · exact ih
theorem outsideStore_drains {s : State} {a : Nat} (b : Byte) (hb : devBacked a = true) (c : Nat) :
    ((outsideStore s a [b]).ctx c).drains = (s.ctx c).drains := by
  obtain ⟨t, ht, -, hc⟩ := outsideStore_byte s b hb
  rw [ht, snoopQueues_fns]
  change (mapGet Ctx.initial t.ctxs c).drains = _
  rw [hc]
  exact keepUndo_drains s none 0 none a s.ctxs c

theorem byteAfter_single (a : Nat) (b : Byte) (q : Nat) (old : Byte) : byteAfter a [b] q old = if q = a then b else old := by
  rw [byteAfter_cons]
  simp [byteAfter]

section
variable (s : State) (f q : Nat) (on : Bool) (hb : devBacked (descriptorAt s f q) = true)
include hb

/-- EN goes to the lowest bit of the descriptor's first byte, and no other byte changes. -/
theorem mirrorEn_peek {a : Nat} (ha : fnAddr a = 0) :
    (mirrorEn s f q on).peek a = if a = descriptorAt s f q then
      BitVec.ofNat 8 ((s.peek a).toNat / 2 * 2 + if on then 1 else 0) else s.peek a := by
  have hone : ∀ i < [BitVec.ofNat 8 0].length, devBacked (descriptorAt s f q + i) = true := fun i hi => by
    obtain rfl : i = 0 := by simpa using hi
    exact hb
  have hn : s.peekN (descriptorAt s f q) 1 = (s.peek (descriptorAt s f q)).toNat := by
    simp [State.peekN, leNat, List.range_succ]
  have he : ∀ n : Nat, n - n % 2 = n / 2 * 2 := fun n => by omega
  rw [mirrorEn, outsideStore_peek (by simpa using hone) ha, byteAfter_single, hn, he]
  split
  · next h => rw [h]
  · rfl

theorem mirrorEn_queue (h : (s.queue f q).st ≠ .idle ∨ (s.queue f q).seen = none) :
    (mirrorEn s f q on).queue f q = s.queue f q := outsideStore_queue _ hb h
theorem mirrorEn_drains (c : Nat) : ((mirrorEn s f q on).ctx c).drains = (s.ctx c).drains :=
  outsideStore_drains _ hb c
end

/-! ## QENABLE and QDISABLE (R273, R284) -/

theorem bitsAt_eq (x lo n : Nat) : bitsAt x lo n = x / 2 ^ lo % 2 ^ n := by rw [bitsAt, Nat.shiftRight_eq_div_pow]

/-- What QENABLE makes of a queue's descriptor `x` and its head. -/
def describedQueue (x head : Nat) : HostQueue :=
  { st := .idle, headA := bitsAt x 192 64, tailA := bitsAt x 128 64, base := bitsAt x 64 64, logsz := bitsAt x 11 5,
    ctx := bitsAt x 24 8, vec := bitsAt x 16 8 + 256 * bitsAt x 5 3, prio := bitsAt x 8 3, head := head,
    seq := BitVec.ofNat 32 (bitsAt x 32 32), fails := 0, seen := none, packet := none }

/-- QENABLE takes a descriptor without a defect. -/
theorem qenable_described {s : State} {f q head : Nat} {d : List Byte} (hq : q ≤ 63) (hst : (s.queue f q).st = .disabled)
    (hd : agentRead s 0 (descriptorAt s f q) 32 = some d) (hrsv : bitsAt (leNat d) 1 4 = 0)
    (hlo : 12 ≤ bitsAt (leNat d) 11 5) (hhi : bitsAt (leNat d) 11 5 ≤ 30) (hctx : bitsAt (leNat d) 24 8 ≤ 62)
    (hlive : (s.ctx (f * 64 + bitsAt (leNat d) 24 8)).live = true)
    (hvec : bitsAt (leNat d) 16 8 + 256 * bitsAt (leNat d) 5 3 < Config.vectorsOf f)
    (hhead : agentNum s f (bitsAt (leNat d) 192 64) 8 = some head) :
    qenable f q s = reply .success [] (mirrorEn (s.setQueue f q (describedQueue (leNat d) head)) f q true) := by
  have hq' : ¬ 63 < q := by omega
  have hok : (bitsAt (leNat d) 1 4 ≠ 0 || bitsAt (leNat d) 11 5 < 12 || 30 < bitsAt (leNat d) 11 5 ||
      62 < bitsAt (leNat d) 24 8 || !(s.ctx (f * 64 + bitsAt (leNat d) 24 8)).live ||
      Config.vectorsOf f ≤ bitsAt (leNat d) 16 8 + 256 * bitsAt (leNat d) 5 3) = false := by
    simp [hrsv, hlo, hhi, hctx, hlive, hvec]
  simp only [qenable, hq', hst, hd, hok, hhead, if_false, ne_eq, not_true_eq_false, Bool.false_eq_true]
  rfl

section
variable (p : Option Packet) (s : State) (c : Nat)
/-- Undoing a packet changes harts alone. -/
theorem packetUndo_leaves : (packetUndo p s).mem = s.mem ∧ (packetUndo p s).l2 = s.l2 ∧ (packetUndo p s).fns = s.fns ∧
    (packetUndo p s).ctxs = s.ctxs := by
  unfold packetUndo
  split
  · split
    · exact ⟨rfl, rfl, rfl, rfl⟩
    · exact ⟨rfl, rfl, rfl, rfl⟩
  · exact ⟨rfl, rfl, rfl, rfl⟩
/-- The end of a packet's wait changes its context's stall alone. -/
theorem packetStall_leaves : (packetStall c p s).mem = s.mem ∧ (packetStall c p s).l2 = s.l2 ∧
    (packetStall c p s).fns = s.fns ∧ ((packetStall c p s).ctx c).drains = (s.ctx c).drains := by
  unfold packetStall
  dsimp only
  split
  · split
    · exact ⟨rfl, rfl, rfl, by simp only [State.setCtx_ctx_self]⟩
    · exact ⟨rfl, rfl, rfl, by simp only [State.setCtx_ctx_self]⟩
  · exact ⟨rfl, rfl, rfl, rfl⟩
end

/-- A queue disabled: it has no packet, and no SETDET of it drains launches. -/
def emptied (s : State) (f q : Nat) : State :=
  let c := f * 64 + (s.queue f q).ctx
  let s1 := s.setQueue f q { s.queue f q with st := .disabled, packet := none, fails := 0 }
  s1.setCtx c { s1.ctx c with drains := (s1.ctx c).drains.filter (fun d => !(d.fn == f && d.q == q)) }
/-- What QDISABLE leaves before EN is written: its packet undone, and the packet's wait over. -/
def abandoned (s : State) (f q : Nat) : State :=
  packetStall (f * 64 + (s.queue f q).ctx) (s.queue f q).packet (packetUndo (s.queue f q).packet (emptied s f q))

theorem qdisable_enabled {s : State} {f q : Nat} (hq : q ≤ 63) (hst : (s.queue f q).st ≠ .disabled) :
    qdisable f q s = reply .success [] (mirrorEn (abandoned s f q) f q false) := by
  have hq' : ¬ 63 < q := by omega
  simp only [qdisable, hq', hst, if_false]
  rfl

section
variable (s : State) (f q : Nat)
theorem abandoned_leaves : (abandoned s f q).mem = s.mem ∧ (abandoned s f q).l2 = s.l2 ∧
    (abandoned s f q).fns = (s.setQueue f q { s.queue f q with st := .disabled, packet := none, fails := 0 }).fns ∧
    ((abandoned s f q).ctx (f * 64 + (s.queue f q).ctx)).drains =
      (s.ctx (f * 64 + (s.queue f q).ctx)).drains.filter (fun d => !(d.fn == f && d.q == q)) := by
  obtain ⟨hm, hl, hf, hd⟩ := packetStall_leaves (s.queue f q).packet
    (packetUndo (s.queue f q).packet (emptied s f q)) (f * 64 + (s.queue f q).ctx)
  obtain ⟨hm', hl', hf', hc'⟩ := packetUndo_leaves (s.queue f q).packet (emptied s f q)
  refine ⟨hm.trans hm', hl.trans hl', hf.trans hf', hd.trans ?_⟩
  rw [State.ctx, hc']
  exact congrArg Ctx.drains (State.setCtx_ctx_self _ _ _)

theorem abandoned_fn (g : Nat) : (abandoned s f q).fn g =
    (s.setQueue f q { s.queue f q with st := .disabled, packet := none, fails := 0 }).fn g := by
  obtain ⟨-, -, h, -⟩ := abandoned_leaves s f q
  simp only [State.fn, h]
theorem abandoned_queue : (abandoned s f q).queue f q = { s.queue f q with st := .disabled, packet := none, fails := 0 } := by
  rw [State.queue, abandoned_fn]
  exact State.setQueue_queue_self s f q _
theorem abandoned_descriptorAt : descriptorAt (abandoned s f q) f q = descriptorAt s f q := by
  rw [descriptorAt, abandoned_fn]
  exact descriptorAt_setQueue s f q _
theorem abandoned_peek {a : Nat} (ha : fnAddr a = 0) : (abandoned s f q).peek a = s.peek a := by
  obtain ⟨hm, hl, -, -⟩ := abandoned_leaves s f q
  refine peek_physical hm hl ?_ ha
  rw [abandoned_fn]
  exact State.setQueue_peers s f q _ 0
end

/-- What a byte reads as once EN has been written for a queue. -/
def EnSet (s : State) (f q on : Nat) (t : State) : Prop :=
  ∀ a, devBacked a = true → t.peek a =
    if a = descriptorAt s f q then BitVec.ofNat 8 ((s.peek a).toNat / 2 * 2 + on) else s.peek a

/-- EN stands after the answer of a command whose state `u` keeps memory and the descriptor's place. -/
theorem enSet_of_mirror {s u : State} {f q : Nat} (on : Bool) (rc : MailRc) (out : List Byte)
    (hb : devBacked (descriptorAt s f q) = true) (hd : descriptorAt u f q = descriptorAt s f q)
    (hu : ∀ a, fnAddr a = 0 → u.peek a = s.peek a) :
    EnSet s f q (if on then 1 else 0) (answered (mirrorEn u f q on) f rc out) := by
  intro a ha
  obtain ⟨-, ha0, -, -⟩ := backed_plain ha
  rw [answered_peek _ _ _ _ ha0, mirrorEn_peek u f q on (hd ▸ hb) ha0, hd, hu a ha0]

section
variable {s : State} {f : Nat} (hf : s.frozen = false) (hp : s.pilot = none) (hi : (s.fn f).inval = none) (hle : f ≤ 32)
include hf hp hi hle

theorem qenable_completes {q head : Nat} {d : List Byte} (hq : q ≤ 63) (hst : (s.queue f q).st = .disabled)
    (hd : agentRead s 0 (descriptorAt s f q) 32 = some d) (hrsv : bitsAt (leNat d) 1 4 = 0)
    (hlo : 12 ≤ bitsAt (leNat d) 11 5) (hhi : bitsAt (leNat d) 11 5 ≤ 30) (hctx : bitsAt (leNat d) 24 8 ≤ 62)
    (hlive : (s.ctx (f * 64 + bitsAt (leNat d) 24 8)).live = true)
    (hvec : bitsAt (leNat d) 16 8 + 256 * bitsAt (leNat d) 5 3 < Config.vectorsOf f)
    (hhead : agentNum s f (bitsAt (leNat d) 192 64) 8 = some head) (hb : devBacked (descriptorAt s f q) = true) :
    Completes (.qenable f q) s (fun t => (t.fn f).mailRc = .success ∧ EnSet s f q 1 t ∧
      t.queue f q = describedQueue (leNat d) head) := by
  have hplace := descriptorAt_setQueue s f q (describedQueue (leNat d) head)
  refine command_completes hf hp hi hle (.inr rfl) rfl
    (qenable_described hq hst hd hrsv hlo hhi hctx hlive hvec hhead) ⟨answered_mailRc _ _ _ _, ?_, ?_⟩
  · exact enSet_of_mirror true _ _ hb hplace fun a ha => setQueue_peek s f q _ ha
  · rw [answered_queue, mirrorEn_queue _ _ _ _ (hplace.symm ▸ hb) (.inr (by rw [State.setQueue_queue_self]; rfl)),
      State.setQueue_queue_self]

theorem qdisable_completes {q : Nat} (hq : q ≤ 63) (hst : (s.queue f q).st ≠ .disabled)
    (hb : devBacked (descriptorAt s f q) = true) :
    Completes (.qdisable f q) s (fun t => (t.fn f).mailRc = .success ∧ EnSet s f q 0 t ∧
      t.queue f q = { s.queue f q with st := .disabled, packet := none, fails := 0 } ∧
      ∀ e ∈ (t.ctx (f * 64 + (s.queue f q).ctx)).drains, ¬ (e.fn = f ∧ e.q = q)) := by
  have hplace := abandoned_descriptorAt s f q
  have hb' : devBacked (descriptorAt (abandoned s f q) f q) = true := hplace.symm ▸ hb
  obtain ⟨-, -, -, hdrains⟩ := abandoned_leaves s f q
  refine command_completes hf hp hi hle (.inr rfl) rfl (qdisable_enabled hq hst) ⟨answered_mailRc _ _ _ _, ?_, ?_, ?_⟩
  · exact enSet_of_mirror false _ _ hb hplace fun a ha => abandoned_peek s f q ha
  · rw [answered_queue, mirrorEn_queue _ _ _ _ hb' (.inl (by simp [abandoned_queue])), abandoned_queue]
  · intro e he
    rw [answered, State.setFn_ctx_same, mirrorEn_drains _ _ _ _ hb', hdrains] at he
    simpa [imp_iff_not_or] using (List.mem_filter.1 he).2
end

/-! ## Lane groups, the freeze, power, peers and communicators (R320, R321, R330, R332, R339) -/

/-- The ring of fault records takes one more, and keeps no more than its size. -/
theorem frecAdd_length (s : State) (ty addr core lg unit ctx fn count : Nat) :
    (frecAdd s ty addr core lg unit ctx fn count).frec.length = min (s.frec.length + 1) (max s.frec.length 256) := by
  have hring : Config.faultRing = 256 := rfl
  simp only [frecAdd, hring, decide_eq_true_eq, List.length_append, List.length_singleton]
  split
  · rw [List.length_tail]; omega
  · omega

section
variable {s : State} (hf : s.frozen = false) (hp : s.pilot = none) (hi : (s.fn 0).inval = none)
include hf hp hi

theorem laneRetest_busy {core lg : Nat} (v : Bool) (hc : core < Config.cores) (hl : lg < 4)
    (h : ∃ x ∈ s.allHarts, x.core = core) :
    Completes (.laneRetest 0 core lg v) s (fun t => t = answered s 0 .busy []) := by
  have hany : s.allHarts.any (fun x => x.core == core) = true := by simpa using h
  have hm : laneRetest core lg v s = reply .busy [] s := by
    rw [laneRetest, if_neg (by simp [hc]; omega), if_pos hany]
  exact command_completes hf hp hi (Nat.zero_le _) (.inl rfl) rfl hm rfl

theorem laneRetest_completes {core lg : Nat} (v : Bool) (hc : core < Config.cores) (hl : lg < 4)
    (h : ∀ x ∈ s.allHarts, x.core ≠ core) :
    Completes (.laneRetest 0 core lg v) s (fun t => (t.fn 0).mailRc = .success ∧
      t.core core = { s.core core with laneMask :=
        if v then (s.core core).laneMask &&& ~~~(1#4 <<< lg) else (s.core core).laneMask } ∧
      ∀ c, c ≠ core → t.core c = s.core c) := by
  have hany : s.allHarts.any (fun x => x.core == core) = false := by simpa using h
  have hm : laneRetest core lg v s = reply .success []
      (if v then s.setCore core { s.core core with laneMask := (s.core core).laneMask &&& ~~~(1#4 <<< lg) } else s) := by
    rw [laneRetest, if_neg (by simp [hc]; omega), hany]
    rfl
  refine command_completes hf hp hi (Nat.zero_le _) (.inl rfl) rfl hm ⟨answered_mailRc _ _ _ _, ?_, ?_⟩
  · rw [answered, State.setFn_core_same]
    cases v with
    | false => rfl
    | true => exact State.setCore_core_self s core _
  · intro c hne
    rw [answered, State.setFn_core_same]
    cases v with
    | false => rfl
    | true => rw [if_pos rfl, State.setCore_core, if_neg hne]

theorem snuff_completes : Completes (.snuff 0) s (fun t => t.frozen = true ∧
    t.frec.length = min (s.frec.length + 1) (max s.frec.length 256) ∧
    (t.frec.getLast?.map (fun r => r.extractLsb' 0 8)) = some 9 ∧ t.mem = s.mem ∧ t.hart = s.hart) := by
  obtain ⟨-, -, -, -, -, hlast⟩ := freeze_leaves s
  exact command_completes hf hp hi (Nat.zero_le _) (.inl rfl) rfl (t := freeze s) rfl
    ⟨rfl, frecAdd_length s 9 0 0 0 0 63 255 0, hlast, rfl, rfl⟩

theorem pwrLimit_completes (watts : Nat) : Completes (.pwrLimit 0 watts) s (fun t =>
    t = if 800 ≤ watts ∧ watts ≤ 2000 then answered { s with powerLimit := watts } 0 .success []
      else answered s 0 .invalidInput []) := by
  by_cases h : 800 ≤ watts ∧ watts ≤ 2000
  · have hm : pwrLimit watts s = reply .success [] { s with powerLimit := watts } := if_neg (by simp; omega)
    exact command_completes hf hp hi (Nat.zero_le _) (.inl rfl) rfl hm (if_pos h).symm
  · have hm : pwrLimit watts s = reply .invalidInput [] s := if_pos (by simp; omega)
    exact command_completes hf hp hi (Nat.zero_le _) (.inl rfl) rfl hm (if_neg h).symm

section
variable {g p links : Nat} (peerFn : Nat) (v : Bool) (hg : g ≤ 32) (hp63 : p ≤ 63) (hlinks : links < 2 ^ 18)
include hg hp63 hlinks

theorem peerSet_busy (h : ∃ l ∈ s.launches, l.2.fn = g) :
    Completes (.peerSet 0 g p v links peerFn) s (fun t => t = answered s 0 .busy []) := by
  have hany : s.launches.any (fun l => l.2.fn == g) = true := by simpa using h
  have hm : peerSet g p v links peerFn s = reply .busy [] s := by
    rw [peerSet, if_neg (by simp; omega), if_pos hany]
  exact command_completes hf hp hi (Nat.zero_le _) (.inl rfl) rfl hm rfl

theorem peerSet_completes (h : ∀ l ∈ s.launches, l.2.fn ≠ g) :
    Completes (.peerSet 0 g p v links peerFn) s (fun t => (t.fn 0).mailRc = .success ∧
      mapGet Peer.initial (t.fn g).peers p = ⟨v, links, peerFn, false, false⟩ ∧
      ∀ k, k ≠ p → mapGet Peer.initial (t.fn g).peers k = mapGet Peer.initial (s.fn g).peers k) := by
  have hany : s.launches.any (fun l => l.2.fn == g) = false := by simpa using h
  have hm : peerSet g p v links peerFn s = reply .success [] (s.setFn g { s.fn g with
      peers := mapPut Peer.initial (s.fn g).peers p ⟨v, links, peerFn, false, false⟩ }) := by
    rw [peerSet, if_neg (by simp; omega), hany]
    rfl
  refine command_completes hf hp hi (Nat.zero_le _) (.inl rfl) rfl hm ⟨answered_mailRc _ _ _ _, ?_, fun k hk => ?_⟩
  · rw [answered_peers, State.setFn_fn_self, mapGet_put_self]
  · rw [answered_peers, State.setFn_fn_self, mapGet_put_other _ _ _ hk]
end

theorem commSet_completes {comm rank : Nat} {peers : List Nat} (hc : comm ≤ 15) (h2 : 2 ≤ peers.length)
    (h64 : peers.length ≤ 64) (hr : rank < peers.length) (hk : ∀ k ∈ peers, k ≤ 63) :
    Completes (.commSet 0 comm peers rank) s (fun t => (t.fn 0).mailRc = .success ∧ t.comm comm = ⟨true, peers, rank⟩ ∧
      ∀ k, k ≠ comm → t.comm k = s.comm k) := by
  have hany : peers.any (fun p => decide (63 < p)) = false := by simpa using hk
  have hm : commSet comm peers rank s =
      reply .success [] { s with comms := mapPut Comm.initial s.comms comm ⟨true, peers, rank⟩ } :=
    if_neg (by simp [hany]; omega)
  refine command_completes hf hp hi (Nat.zero_le _) (.inl rfl) rfl hm ⟨answered_mailRc _ _ _ _, ?_, fun k hne => ?_⟩
  · rw [State.comm, answered, State.setFn_comms, mapGet_put_self]
  · rw [State.comm, answered, State.setFn_comms, mapGet_put_other _ _ _ hne]; rfl
end

/-! ## The capability chain (R19 to R21, R252, R336, R340) -/

theorem chainRead_runs {s : State} {f off n : Nat} {rest : List Input} (hin : s.inputs = .chainRead f off n :: rest)
    (hf : s.frozen = false) (hp : s.pilot = none) (hle : f ≤ 32) : step s = .next { s with
      inputs := rest, busOut := some ((List.range n).map (fun i => (capChain s f).getD (off + i) 0)) } := by
  have hle' : ¬ 32 < f := by omega
  simp only [step, cycle, hin, hf, hp, Bool.false_eq_true, if_false, Option.isSome_none, takeInput, chainRead, hle',
    Bool.or_false, decide_false]
  rfl
/-- In the pilot-light state no chain is read (R336, R337). -/
theorem chainRead_dark {s : State} {f off n : Nat} {rest : List Input} (hin : s.inputs = .chainRead f off n :: rest)
    (hf : s.frozen = false) (hp : s.pilot.isSome = true) : step s = .next { s with inputs := rest, busOut := none } := by
  simp only [step, cycle, hin, hf, hp, Bool.false_eq_true, if_false, if_true, darkInput, chainRead, Bool.true_or]

theorem capIds_unmasked {s : State} (h : (s.fn 0).mask = 0) : capIds s 0 = [1, 2, 3, 4, 5, 6, 7, 8] := by
  simp [capIds, h, bitsAt]
theorem mem_capIds_virtual (s : State) {f : Nat} (i : Nat) (h : f ≠ 0) :
    i ∈ capIds s f ↔ 1 ≤ i ∧ i ≤ 7 ∧ (s.fn f).mask.testBit i = false := by
  have hbit : (bitsAt (s.fn f).mask i 1 == 0) = !(s.fn f).mask.testBit i := by
    rw [bitsAt, Nat.testBit_eq_decide_div_mod_eq, Nat.shiftRight_eq_div_pow]
    rcases Nat.mod_two_eq_zero_or_one ((s.fn f).mask / 2 ^ i) with h | h
    · simp [h]
    · simp [h]
  have hf0 : (f == 0) = false := by simpa using h
  simp only [capIds, List.mem_filter, hbit, hf0, Bool.or_false, Bool.and_eq_true, Bool.not_eq_true', bne_iff_ne]
  constructor
  · rintro ⟨hm, hmask, h8⟩
    simp only [List.mem_cons, List.not_mem_nil, or_false] at hm
    exact ⟨by omega, by omega, hmask⟩
  · rintro ⟨h1, h7, hmask⟩
    refine ⟨?_, hmask, by omega⟩
    simp only [List.mem_cons, List.not_mem_nil, or_false]
    omega
theorem capIds_bounds {s : State} {f i : Nat} (h : i ∈ capIds s f) : i ≤ 8 := by
  have hm := (List.mem_filter.1 h).1
  simp only [List.mem_cons, List.not_mem_nil, or_false] at hm
  omega
theorem capIds_length_le (s : State) (f : Nat) : (capIds s f).length ≤ 8 := List.length_filter_le _ _

/-- Blocks of one size, put together: what stands from block `i` on. -/
theorem drop_flatten_blocks {α : Type} {n : Nat} {L : List (List α)} (hL : ∀ l ∈ L, l.length = n) (i : Nat) :
    L.flatten.drop (n * i) = (L.drop i).flatten := by
  induction L generalizing i with
  | nil => simp
  | cons l L ih =>
    cases i with
    | zero => simp
    | succ i =>
      have hl : l.length = n := hL l (by simp)
      rw [List.flatten_cons, Nat.mul_succ, Nat.add_comm, ← List.drop_drop, List.drop_left' hl,
        ih fun l h => hL l (by simp [h])]
      rfl

theorem leNat_leBytes (n x : Nat) : leNat (leBytes n x) = x % 2 ^ (8 * n) := by
  induction n generalizing x with
  | zero => simp [leBytes, leNat, Nat.mod_one]
  | succ n ih =>
    have hshift : leBytes (n + 1) x = byteOf x 0 :: leBytes n (x / 256) := by
      simp only [leBytes, List.range_succ_eq_map, List.map_cons, List.map_map]
      refine congrArg _ (List.map_congr_left fun i _ => ?_)
      simp only [Function.comp, byteOf, Nat.shiftRight_eq_div_pow, Nat.div_div_eq_div_mul]
      rw [show 8 * (i + 1) = 8 + 8 * i by omega, Nat.pow_add]
    rw [hshift, leNat, ih, show 8 * (n + 1) = 8 + 8 * n by omega, Nat.pow_add, Nat.mod_mul]
    simp [byteOf]

/-- The `i`th entry of a chain, as a number. -/
theorem capChain_entry {s : State} {f i : Nat} (hi : i < (capIds s f).length) :
    leNat (((capChain s f).drop (32 * i)).take 16) =
      capEntry ((capIds s f).getD i 0) (if i + 1 < (capIds s f).length then 32 * (i + 1) else 0) % 2 ^ 128 := by
  have hlen : ∀ n x, (leBytes n x).length = n := fun n x => by simp [leBytes]
  rw [capChain, drop_flatten_blocks ?_, List.drop_eq_getElem_cons (by simpa using hi)]
  · rw [List.flatten_cons, List.getElem_mapIdx, List.append_assoc, List.take_append_of_le_length (by rw [hlen]),
      List.take_of_length_le (by rw [hlen]), leNat_leBytes, List.getD_eq_getElem _ _ hi]
  · intro l hl
    obtain ⟨k, hk, rfl⟩ := List.mem_mapIdx.1 hl
    simp [hlen]

/-- The fields of an entry. -/
theorem capEntry_fields {id next : Nat} (hid : id < 2 ^ 16) (hnext : next < 2 ^ 64) :
    let e := capEntry id next % 2 ^ 128
    e % 2 ^ 16 = id ∧ e / 2 ^ 16 % 2 ^ 16 = 1 ∧ e / 2 ^ 32 % 2 ^ 32 = 16 ∧ e / 2 ^ 64 = next := by
  have hsum : capEntry id next = id + 2 ^ 16 + 16 * 2 ^ 32 + next * 2 ^ 64 := by
    have h1 : id ||| 1 <<< 16 = id + 2 ^ 16 := by
      rw [Nat.or_comm, ← Nat.shiftLeft_add_eq_or_of_lt hid, Nat.shiftLeft_eq]; omega
    have h2 : id ||| 1 <<< 16 ||| 16 <<< 32 = id + 2 ^ 16 + 16 * 2 ^ 32 := by
      rw [h1, Nat.or_comm, ← Nat.shiftLeft_add_eq_or_of_lt (by omega), Nat.shiftLeft_eq]; omega
    rw [capEntry, h2, Nat.or_comm, ← Nat.shiftLeft_add_eq_or_of_lt (by omega), Nat.shiftLeft_eq]; omega
  intro e
  have he : e = id + 2 ^ 16 + 16 * 2 ^ 32 + next * 2 ^ 64 := by
    rw [← hsum]; exact Nat.mod_eq_of_lt (by omega)
  exact ⟨by omega, by omega, by omega, by omega⟩

/-- Settles O51: the commands by their own lemmas, and the chain by its entries. -/
theorem deviceCommands : Obligations.DeviceCommands := by
  refine ⟨?_, ?_⟩
  · intro s f q vec core lg watts g p links peerFn comm rank head v peers d x field en hf hp hi0 hi hle
    have hfield : ∀ lo n, field lo n = bitsAt (leNat d) lo n := fun lo n => (bitsAt_eq _ lo n).symm
    refine ⟨?_, ?_, ?_, ?_, ?_, ?_, ?_, ?_, ?_⟩
    · intro hq hst hd hrsv hlo hhi hctx hlive hvec hlt hhead hb
      simp only [hfield] at hrsv hlo hhi hctx hlive hvec hhead ⊢
      subst hvec
      exact qenable_completes hf hp hi hle hq hst hd hrsv hlo hhi hctx hlive hlt hhead hb
    · exact fun hq hst hb => qdisable_completes hf hp hi hle hq hst hb
    · exact command_completes hf hp hi hle (.inr rfl) rfl (m := frecRead) rfl rfl
    · exact command_completes hf hp hi0 (Nat.zero_le _) (.inl rfl) rfl (m := laneMaskRead) rfl rfl
    · exact fun hc hl => ⟨laneRetest_busy hf hp hi0 v hc hl, laneRetest_completes hf hp hi0 v hc hl⟩
    · exact snuff_completes hf hp hi0
    · exact pwrLimit_completes hf hp hi0 watts
    · exact fun hg hp63 hlinks =>
        ⟨peerSet_busy hf hp hi0 peerFn v hg hp63 hlinks, peerSet_completes hf hp hi0 peerFn v hg hp63 hlinks⟩
    · exact fun hc h2 h64 hr hk => commSet_completes hf hp hi0 hc h2 h64 hr hk
  · intro s f off n rest
    refine ⟨chainRead_runs, chainRead_dark, capIds_unmasked, fun i h => mem_capIds_virtual s i h, fun i hi => ?_⟩
    intro e
    have he : e = _ := capChain_entry hi
    have hid : (capIds s f).getD i 0 ≤ 8 := by
      rw [List.getD_eq_getElem _ _ hi]; exact capIds_bounds (List.getElem_mem hi)
    have hlen := capIds_length_le s f
    rw [he]
    exact capEntry_fields (by omega) (by split <;> omega)

end Sys2Proof.Machine
end

section
/-! The slot scheduler (R24, R266, R267, R289): YREQ, forced stops, NONYIELD and the slot switch. -/

namespace Sys2Proof.Machine

/-- A change of every hart that keeps their numbers, and an empty hart slot as it is, changes each by its number. -/
theorem State.mapHarts_hartOf (s : State) {f : Hart → Hart} (hid : ∀ x, (f x).id = x.id) (h0 : f Hart.initial = Hart.initial)
    (k : Nat) : (s.mapHarts f).hartOf k = f (s.hartOf k) := by
  simp only [State.hartOf, State.mapHarts, hid]
  split
  · rfl
  · exact mapGet_map (g := fun _ => f) h0 s.harts

@[simp] theorem Hart.refetch_id (h : Hart) : h.refetch.id = h.id := by
  unfold Hart.refetch
  split
  · rfl
  · split <;> rfl

/-- What the request to yield does to a hart of a context slot (R266). -/
def askYield (now act : Nat) (h : Hart) : Hart :=
  if h.live && h.slotId = act && !h.yreq then { h with yreq := true, yreqAt := now, nonyielded := false } else h
theorem askYield_id (now act : Nat) (h : Hart) : (askYield now act h).id = h.id := by
  unfold askYield
  split <;> rfl
theorem askYield_live {now act : Nat} {h : Hart} (hl : h.live = true) : askYield now act h =
    if h.slotId = act ∧ h.yreq = false then { h with yreq := true, yreqAt := now, nonyielded := false } else h :=
  if_congr (by simp [hl]) rfl rfl
theorem quantumExpiry_next {s : State} {core : Nat} (hq : quantumDue s core = true) :
    exec (.quantumExpiry core) s = .next (s.mapHarts (askYield s.cycle (core * 2 + (s.core core).active))) :=
  congrArg Host.Outcome.next (if_pos hq)

theorem wakeSlot_id (slot : Nat) (h : Hart) : (wakeSlot slot h).id = h.id := by
  unfold wakeSlot
  split
  · exact h.refetch_id
  · rfl
theorem wakeSlot_live {slot : Nat} {h : Hart} (hl : h.live = true) : wakeSlot slot h =
    if h.slotId = slot then
      { h.refetch with yreq := false, run := if h.run = .stopped ∧ h.ended = false then .running else h.run } else h := by
  have hrun : (if (decide (h.run = .stopped) && !h.ended) = true then Run.running else h.run) =
      if h.run = .stopped ∧ h.ended = false then .running else h.run := if_congr (by simp) rfl rfl
  rw [← hrun]
  exact if_congr (by simp [hl]) rfl rfl

section
variable {s : State} {k : Nat}

theorem atBoundary_iff {x : Hart} : x.atBoundary = true ↔ x.relStage = 0 ∨ x.relStage = 3 := by
  simp [Hart.atBoundary]

theorem forcedStop_next (h : stopDue s (s.hartOf k) = true) : exec (.forcedStop k) s = .next (s.setHart (stopHart (s.hartOf k))) :=
  congrArg Host.Outcome.next (if_pos h)
theorem forcedStop_none (h : ¬ stopDue s (s.hartOf k) = true) : exec (.forcedStop k) s = .next s :=
  congrArg Host.Outcome.next (if_neg h)
theorem nonyieldDue_iff {x : Hart} (hr : x.runnable = true) (hy : x.yreq = true) : nonyieldDue s x = true ↔
    x.nonyielded = false ∧ (x.relStage = 0 ∨ x.relStage = 3) ∧ (s.ctx (ctxOf s x)).strict = true ∧ safePoint s x = false ∧
      x.yreqAt + 2 * (s.ctx (ctxOf s x)).ydl ≤ s.cycle := by
  simp only [nonyieldDue, hr, hy, stopsSafely, Bool.true_and, Bool.and_eq_true, Bool.not_eq_true', decide_eq_true_eq,
    atBoundary_iff, and_assoc]
theorem nonyield_none (h : ¬ nonyieldDue s (s.hartOf k) = true) : exec (.nonyield k) s = .next s :=
  congrArg Host.Outcome.next (if_neg h)

theorem runnable_of_running {x : Hart} (hl : x.live = true) (hr : x.run = .running) (he : x.ended = false) : x.runnable = true := by
  simp [Hart.runnable, hl, hr, he]

/-- Where harts need not wait for safe points, and at a safe point outside a boundary, a hart may be stopped (R267). -/
theorem stoppable_iff {x : Hart} : stoppable s x = true ↔
    (s.ctx (ctxOf s x)).strict = false ∨ safePoint s x = true ∧ (x.relStage = 0 ∨ x.relStage = 3) := by
  simp only [stoppable, stopsSafely, Bool.or_eq_true, Bool.not_eq_true', Bool.and_eq_true, atBoundary_iff]

theorem stopDue_iff {x : Hart} (hr : x.runnable = true) (hy : x.yreq = true) : stopDue s x = true ↔
    x.yreqAt + (s.ctx (ctxOf s x)).ydl ≤ s.cycle ∧ stoppable s x = true := by
  simp [stopDue, hr, hy]

/-- A hart that takes NONYIELD is running, and otherwise as it stood. -/
theorem nonyield_next (h : nonyieldDue s (s.hartOf k) = true) (hr : (s.hartOf k).run = .running) :
    exec (.nonyield k) s = .next (takeTrap (s.setHart { s.hartOf k with nonyielded := true }) k .nonyield .read
      (BitVec.ofNat 64 (min (s.cycle - (s.hartOf k).yreqAt) (2 ^ 32 - 1))) (s.hartOf k).pc (s.hartOf k).pc) := by
  refine congrArg Host.Outcome.next ((if_pos h).trans ?_)
  rw [← hr]

theorem slotSwitch_next {core : Nat} (h : switchReady s core = true) : exec (.slotSwitch core) s =
    .next ((s.setCore core { s.core core with active := 1 - (s.core core).active, activeSince := s.cycle }).mapHarts
      (wakeSlot (core * 2 + (1 - (s.core core).active)))) :=
  congrArg Host.Outcome.next (if_pos h)
theorem switchReady_of {core : Nat} (ho : (s.slot (core * 2 + (1 - (s.core core).active))).holder.isSome = true)
    (hs : ∀ h ∈ slotHarts s (core * 2 + (s.core core).active), h.runnable = false)
    (hy : (∃ h ∈ slotHarts s (core * 2 + (s.core core).active), h.yreq = true) ∨ quantumDue s core = true) :
    switchReady s core = true := by
  simp only [switchReady, ho, Bool.true_and, Bool.and_eq_true, Bool.or_eq_true, List.all_eq_true, List.any_eq_true,
    Hart.yielded, Bool.not_eq_true']
  exact ⟨hs, hy⟩
end

/-- Settles O58: each step by what is due to the hart or the core. -/
theorem slotsSwitch : Obligations.SlotsSwitch := by
  intro s core k c act oth x ctx hl hid
  have hslot : x.slotId = k / 4 := congrArg (· / 4) hid
  refine ⟨fun hq => ?_, fun hq => ?_, fun hr he hy => ?_, fun _ ho hs hyq => ?_⟩
  · refine ⟨_, quantumExpiry_next hq, (State.mapHarts_hartOf s (askYield_id _ _) rfl k).trans ?_⟩
    rw [askYield_live hl, hslot]
  · exact ⟨s, congrArg Host.Outcome.next (if_neg (by simp [hq])), rfl⟩
  · have hrun := runnable_of_running hl hr he
    have hstop : stopDue s x = true ↔ x.yreqAt + ctx.ydl ≤ s.cycle ∧ stoppable s x = true := stopDue_iff hrun hy
    refine ⟨fun hd => ⟨fun hs => ?_, fun hst hb => ?_⟩, fun hd => ?_, fun hd hst hsafe hn hb => ?_⟩
    · refine ⟨_, forcedStop_next (hstop.2 ⟨hd, stoppable_iff.2 hs⟩), ?_⟩
      exact congrArg s.setHart (if_pos hrun)
    · have hstop' : ¬ stopDue s x = true := by
        rw [hstop, stoppable_iff]
        rintro ⟨-, h | h⟩
        · exact absurd (hst.symm.trans h) (by decide)
        · exact hb h.2
      have hny : ¬ nonyieldDue s x = true := by
        rw [nonyieldDue_iff hrun hy]
        exact fun h => hb h.2.1
      exact ⟨⟨s, forcedStop_none hstop', rfl⟩, ⟨s, nonyield_none hny, rfl⟩⟩
    · have hstop' : ¬ stopDue s x = true := by
        rw [hstop]
        omega
      exact ⟨s, forcedStop_none hstop', rfl⟩
    · exact ⟨_, nonyield_next ((nonyieldDue_iff hrun hy).2 ⟨hn, hb, hst, hsafe, hd⟩) hr, rfl⟩
  · refine ⟨_, slotSwitch_next (switchReady_of ho hs hyq), ?_⟩
    have hcore := State.setCore_core_self s core { c with active := 1 - c.active, activeSince := s.cycle }
    refine ⟨congrArg Core.active hcore, congrArg Core.activeSince hcore, ?_⟩
    refine (State.mapHarts_hartOf _ (wakeSlot_id _) rfl k).trans ((wakeSlot_live hl).trans ?_)
    rw [hslot]

end Sys2Proof.Machine
end

section
/-! Placement and retirement (R31, R34 to R37, R281, R286), and what a store at home and a completion record leave of the
machine. -/

namespace Sys2Proof.Machine

/-! ## What stores at home leave (R217, R222, R277, R281) -/

/-- From `s` to `t` bytes have reached home, and vectors may have been signalled: beside memory and its caches that touches
the fault records, the functions and the contexts, of these last the history alone, and no host queue that is not idle. -/
structure Homed (s t : State) : Prop where
  rest : t = { s with
    mem := t.mem, l2 := t.l2, fns := t.fns, ctxs := t.ctxs, poison := t.poison, frec := t.frec, frecLost := t.frecLost
    cores := t.cores, rdc := t.rdc, msix := t.msix }
  ctx : ∀ c, ∃ hist, t.ctx c = { s.ctx c with hist := hist }
  queue : ∀ f q, (s.queue f q).st ≠ .idle → t.queue f q = s.queue f q

namespace Homed

variable {s t u : State}

theorem refl (s : State) : Homed s s := ⟨rfl, fun _ => ⟨_, rfl⟩, fun _ _ _ => rfl⟩
theorem trans (h : Homed s t) (g : Homed t u) : Homed s u := by
  refine ⟨?_, fun c => ?_, fun f q hq => ?_⟩
  · rw [g.rest, h.rest]
  · obtain ⟨x, hx⟩ := h.ctx c
    obtain ⟨y, hy⟩ := g.ctx c
    exact ⟨y, by rw [hy, hx]⟩
  · have ht := h.queue f q hq
    exact (g.queue f q (ht ▸ hq)).trans ht
/-- Contexts that stay, and queues that are not idle, where nothing else changes. -/
theorem of_fns (hr : t = { s with
      mem := t.mem, l2 := t.l2, fns := t.fns, ctxs := s.ctxs, poison := t.poison, frec := t.frec, frecLost := t.frecLost
      cores := t.cores, rdc := t.rdc, msix := t.msix })
    (hq : ∀ f q, (s.queue f q).st ≠ .idle → t.queue f q = s.queue f q) : Homed s t := by
  have hc : t.ctxs = s.ctxs := by rw [hr]
  exact ⟨by rw [hc]; exact hr, fun c => ⟨(s.ctx c).hist, by simp only [State.ctx, hc]⟩, hq⟩
theorem of_eq (hr : t = { s with
      mem := t.mem, l2 := t.l2, fns := s.fns, ctxs := s.ctxs, poison := t.poison, frec := t.frec, frecLost := t.frecLost
      cores := t.cores, rdc := t.rdc, msix := t.msix }) : Homed s t := by
  have hf : t.fns = s.fns := by rw [hr]
  exact .of_fns (by rw [hf]; exact hr) fun f q _ => by simp only [State.queue, State.fn, hf]

theorem hart (h : Homed s t) : t.hart = s.hart := by rw [h.rest]
theorem harts (h : Homed s t) : t.harts = s.harts := by rw [h.rest]
theorem slots (h : Homed s t) : t.slots = s.slots := by rw [h.rest]
theorem launches (h : Homed s t) : t.launches = s.launches := by rw [h.rest]
theorem nextLaunch (h : Homed s t) : t.nextLaunch = s.nextLaunch := by rw [h.rest]
theorem launch (h : Homed s t) (l : Nat) : t.launch l = s.launch l := by simp only [State.launch, h.launches]
theorem slot (h : Homed s t) (i : Nat) : t.slot i = s.slot i := by simp only [State.slot, h.slots]
theorem level (h : Homed s t) (c : Nat) : (t.ctx c).level = (s.ctx c).level := by
  obtain ⟨x, hx⟩ := h.ctx c
  rw [hx]
theorem turns (h : Homed s t) (c : Nat) : (t.ctx c).turns = (s.ctx c).turns := by
  obtain ⟨x, hx⟩ := h.ctx c
  rw [hx]

end Homed

/-- A function whose host queues stay. -/
theorem setFn_homed {s : State} {f : Nat} {x : Fn} (h : x.queues = (s.fn f).queues) : Homed s (s.setFn f x) := by
  refine .of_fns rfl fun g q _ => ?_
  simp only [State.queue, State.setFn_fn]
  split
  · next hg => rw [h, hg]
  · rfl
theorem dropRecord_homed (s : State) (author : Option Nat) (ctx a : Nat) : Homed s (dropRecord s author ctx a) := by
  unfold dropRecord
  split <;> exact .of_eq rfl

/-- What snapshot-strict contexts keep of a byte goes to their history. -/
theorem keepUndo_ctx (s : State) (author : Option Author) (ctx : Nat) (stamp : Option Nat) (a : Nat) (m : SMap Ctx) (c : Nat) :
    ∃ hist, mapGet Ctx.initial (keepUndo s author ctx stamp a m) c = { mapGet Ctx.initial m c with hist := hist } := by
  induction m with
  | nil => exact ⟨_, rfl⟩
  | cons p m ih =>
    simp only [keepUndo, mapGet]
    split
    · split
      · exact ⟨_, rfl⟩
      · exact ⟨_, rfl⟩
    · exact ih

theorem poke_homed (s : State) (a : Nat) (b : Byte) : Homed s (s.poke a b) := by
  unfold State.poke
  split <;> exact .of_eq rfl
theorem homeStore1_homed (author : Option Author) (ctx : Nat) (stamp : Option Nat) (s : State) (p : Nat × Byte) :
    Homed s (homeStore1 author ctx stamp s p) := by
  unfold homeStore1
  split
  · exact dropRecord_homed _ _ _ _
  · split
    · refine .trans (setFn_homed ?_) (dropRecord_homed _ _ _ _)
      rfl
    · have hp := poke_homed s p.1 p.2
      refine ⟨?_, fun c => keepUndo_ctx s author ctx stamp p.1 s.ctxs c, hp.queue⟩
      rw [hp.rest]
theorem homeStoreAll_homed (ctx : Nat) (stamp before : Option Nat) (s : State) (ps : List HStore) :
    Homed s (homeStoreAll ctx stamp before s ps) := by
  induction ps generalizing s before with
  | nil => exact .refl s
  | cons p ps ih =>
    refine .trans ?_ (ih (some p.a) _)
    split
    · exact .refl s
    · exact homeStore1_homed _ _ _ _ _
theorem snoopQueues_homed (s : State) (as : List Nat) : Homed s (snoopQueues s as) := by
  refine .of_fns (by rw [snoopQueues_fns]) fun f q hq => ?_
  obtain ⟨gs, hg | hg⟩ := snoopQueues_fn s as f
  · simp only [State.queue, hg]
  · simp only [State.queue, hg, Fn.snooped]
    rw [mapGet_map (g := fun _ x => HostQueue.snooped s f gs x) rfl]
    change HostQueue.snooped s f gs (s.queue f q) = s.queue f q
    unfold HostQueue.snooped
    split
    · exact if_neg (by simp [hq])
    · rfl
theorem dropLines_homed (s : State) (core : Nat) (as : List Nat) : Homed s (dropLines s core as) := by
  unfold dropLines
  dsimp only
  split <;> split <;> exact .of_eq rfl
theorem homeStore_homed (ctx : Nat) (stamp : Option Nat) (s : State) (ps : List HStore) : Homed s (homeStore ctx stamp s ps) := by
  have h1 := homeStoreAll_homed ctx stamp none s ps
  unfold homeStore
  extract_lets s1 gs s2 s3
  have h2 : Homed s1 s2 := by
    simp only [s2]
    split <;> exact .of_eq rfl
  have h3 : Homed s s3 := (h1.trans h2).trans (snoopQueues_homed s2 _)
  split
  · exact h3.trans (dropLines_homed _ _ _)
  · exact h3

theorem stage2Cache_homed (s : State) (f : Nat) (es : List TlbEntry) : Homed s (stage2Cache s f es) := by
  unfold stage2Cache
  split
  · exact .refl s
  · exact setFn_homed rfl
theorem agentCache_homed (s : State) (f : Nat) (as : List Nat) : Homed s (agentCache s f as) := by
  unfold agentCache
  generalize (as.map (fun a => a / 65536)).eraseDups = l
  induction l generalizing s with
  | nil => exact .refl s
  | cons p l ih => exact (stage2Cache_homed _ _ _).trans (ih _)
theorem agentWrite_homed {s t : State} {f a : Nat} {bs : List Byte} (h : agentWrite s f a bs = some t) : Homed s t := by
  unfold agentWrite at h
  split at h
  · obtain rfl := Option.some.inj h
    refine .trans ?_ (homeStore_homed _ _ _ _)
    split
    · exact .refl s
    · exact agentCache_homed _ _ _
  · cases h
theorem completionSend_homed (s : State) (l : Launch) (status code b2 : Nat) : Homed s (completionSend s l status code b2) := by
  unfold completionSend
  extract_lets sinks bytes s1
  have h1 : Homed s s1 := by
    simp only [s1]
    split
    · exact .refl s
    · cases h : agentWrite s l.fn l.compl bytes with
      | none => exact .refl s
      | some t => exact agentWrite_homed h
  split
  · exact h1.trans (.of_eq rfl)
  · exact h1

/-! ## Placement (R34 to R37, R286) -/

/-- The machine with a hart of a launch outside a re-run placed at a spot. -/
def placedAt (s : State) (n stage ix : Nat) (p : Spot) : State :=
  let l := s.launch n
  let s1 := takeSlot s l.ctx l.epoch p
  (s1.setLaunch n { l with
    stages := l.stages.set stage { l.stage stage with placed := (l.stage stage).placed + 1 }
    first := ⟨stage, ix, p.hart, p.lg⟩ :: l.first
    rr := (stage + 1) % l.stages.length }).setHart (freshHart s1 n l stage ix p)

theorem takeSlot_rest (s : State) (c epoch : Nat) (p : Spot) :
    takeSlot s c epoch p = { s with slots := (takeSlot s c epoch p).slots, cores := (takeSlot s c epoch p).cores } := by
  unfold takeSlot
  dsimp only
  split <;> split <;> rfl
theorem takeSlot_holder (s : State) (c epoch : Nat) (p : Spot) :
    ((takeSlot s c epoch p).slot (p.core * 2 + p.slot)).holder = some c := by
  have hs : ∀ (t : State) (k : Core), (t.setCore p.core k).slot (p.core * 2 + p.slot) = t.slot (p.core * 2 + p.slot) :=
    fun _ _ => rfl
  unfold takeSlot
  dsimp only
  split
  · next h => split <;> simpa only [hs] using h
  · split <;> simp only [hs, State.setSlot_slot_self]

theorem freshHart_id (s : State) (n : Nat) (l : Launch) (stage ix : Nat) (p : Spot) :
    (freshHart s n l stage ix p).id = p.hart := by simp [freshHart]
/-- A hart starts with its launch's argument and template address in s3 and s4, and zero in every other register (R37). -/
theorem freshHart_rs (s : State) (n : Nat) (l : Launch) (stage ix : Nat) (p : Spot) (r : BitVec 6) :
    (freshHart s n l stage ix p).rs r = if r = 4 then l.template else if r = 3 then l.arg else 0 := by
  rw [freshHart, Hart.rs_setS, Hart.rs_setS]
  refine if_congr Iff.rfl rfl (if_congr Iff.rfl rfl ?_)
  simp [Hart.rs, Hart.initial]

/-- A hart that is replaced is read back by its number, and no other changes. -/
theorem State.setHart_hartOf (s : State) (x : Hart) (k : Nat) : (s.setHart x).hartOf k = if k = x.id then x else s.hartOf k := by
  unfold State.setHart State.hartOf
  by_cases hx : s.hart.id = x.id
  · simp only [← hx, eq_comm (a := k)]
    by_cases hk : s.hart.id = k
    · simp [hk, ← hx]
    · simp [hk, ← hx]
  · simp only [if_neg hx, mapGet_put]
    by_cases hk : k = x.id
    · simp [hk, hx]
    · simp [hk]

section
variable (s : State) (n stage ix : Nat) (p : Spot)

theorem placedAt_hartOf (k : Nat) : (placedAt s n stage ix p).hartOf k =
    if k = p.hart then freshHart (takeSlot s (s.launch n).ctx (s.launch n).epoch p) n (s.launch n) stage ix p
    else s.hartOf k := by
  have hkeep : ∀ x, ((takeSlot s (s.launch n).ctx (s.launch n).epoch p).setLaunch n x).hartOf k = s.hartOf k := fun x => by
    rw [takeSlot_rest]
    rfl
  rw [placedAt, State.setHart_hartOf, freshHart_id, hkeep]
theorem placedAt_stages : ((placedAt s n stage ix p).launch n).stages =
    (s.launch n).stages.set stage { (s.launch n).stage stage with placed := ((s.launch n).stage stage).placed + 1 } := by
  rw [placedAt, State.launch, State.setHart_launches]
  exact congrArg Launch.stages (State.setLaunch_launch_self _ n _)
theorem placedAt_holder : ((placedAt s n stage ix p).slot (p.core * 2 + p.slot)).holder = some (s.launch n).ctx := by
  rw [placedAt, State.slot, State.setHart_slots]
  exact takeSlot_holder s _ _ p
theorem placedAt_mem : (placedAt s n stage ix p).mem = s.mem := by
  rw [placedAt, State.setHart_mem, State.setLaunch_mem, takeSlot_rest]
theorem placedAt_l2 : (placedAt s n stage ix p).l2 = s.l2 := by
  rw [placedAt, State.setHart_l2, State.setLaunch_l2, takeSlot_rest]
end

/-- A launch whose placement no log governs, and which is in no re-run, has no place forced on it (R299, R306). -/
theorem forcedSpot_free {s : State} {l : Launch} (hl : l.level = .free) (hr : l.rerun = 0) (stage ix : Nat) :
    forcedSpot s l stage ix = none := by
  simp [forcedSpot, logPlaces, hl, hr]
theorem placeLog_free {s : State} {l : Launch} (hl : l.level = .free) (stage ix : Nat) (p : Spot) :
    placeLog s l stage ix p = some s := by
  simp [placeLog, logPlaces, hl]
theorem dispatchOne_free {s : State} {n stage ix core hslot : Nat} {p : Spot} (hl : (s.launch n).level = .free)
    (hr : (s.launch n).rerun = 0)
    (hp : spotAt s (s.launch n).ctx ((s.launch n).stage stage).shape core hslot = some p) :
    dispatchOne n stage ix (some (core, hslot)) s = some (placedAt s n stage ix p) := by
  have hchoose : chooseSpot s (s.launch n) stage ix (some (core, hslot)) = some p := by
    simp only [chooseSpot, forcedSpot_free hl hr, hp]
  simp only [dispatchOne, hchoose, placeLog_free hl, hr, if_true, placedAt]

/-- A hart in no group is a gang of its own (R43, R44). -/
theorem gangOf_nil (stage ix : Nat) : gangOf [] stage ix = [ix] := rfl

theorem place_next {s : State} {core hslot n stage ix : Nat} {rest : List (Nat × Nat × Nat)} {p : Spot} (hh : hslot ≤ 3)
    (hc : ∀ c ∈ s.ctxs, c.2.ghosts = [] ∧ c.2.skips = []) (hcand : candidates s = (n, stage, ix) :: rest)
    (hl : (s.launch n).level = .free) (hr : (s.launch n).rerun = 0) (hg : (s.launch n).groups = [])
    (hp : spotAt s (s.launch n).ctx ((s.launch n).stage stage).shape core hslot = some p) :
    exec (.place core hslot) s = .next (placedAt s n stage ix p) := by
  have hsweep : s.ctxs.filter (fun c => c.2.ghosts != [] || c.2.skips != []) = [] := by
    rw [List.filter_eq_nil_iff]
    intro c hm
    simp [hc c hm]
  have hwhole : placeWhole core hslot s (n, stage, ix) = some (placedAt s n stage ix p) := by
    simp [placeWhole, dispatchOne_free hl hr hp, hg, gangOf_nil, placeRest]
  refine congrArg Host.Outcome.next ((if_neg (by omega)).trans ?_)
  simp only [hsweep, List.foldl_nil, hcand, List.findSome?_cons, hwhole]

/-! ## A launch's retirement (R31, R281) -/

theorem launchOver_iff {s : State} {n : Nat} : launchOver s n = true ↔
    (∃ k ∈ s.launches, k.1 = n) ∧ (s.launch n).stages.all (·.finished) = true ∧ ∀ h ∈ s.allHarts, h.launch ≠ n := by
  simp only [launchOver, Bool.and_eq_true, and_assoc, List.any_eq_true, beq_iff_eq, List.all_eq_true (l := s.allHarts),
    bne_iff_ne]

/-- A launch at FREE that is over leaves the machine, its completion record written. -/
theorem launchRetire_next {s : State} {n : Nat} (ho : launchOver s n = true) (hl : (s.launch n).level = .free)
    (hc : (s.ctx (s.launch n).ctx).level ≠ .replay) (hd : (s.launch n).deferred = 0) :
    exec (.launchRetire n) s = .next (launchGone n (completionSend s (s.launch n) 0 0 0)) := by
  have hflip : flipDeferred (s.launch n) s = s := by simp [flipDeferred, hd]
  have hskip : skipRecords s (s.launch n) = s := by simp [skipRecords, hc]
  refine congrArg Host.Outcome.next ((if_pos ho).trans ((if_pos hl).trans ?_))
  simp only [retireNow, hflip, hskip]

theorem launchGone_launch (n : Nat) (s : State) (k : Nat) :
    (launchGone n s).launch k = if k = n then Launch.initial else s.launch k := by
  simp only [State.launch, launchGone, mapGet_put]

/-- Settles O57: the placement by what it makes of the machine, the retirement by what its completion leaves. -/
theorem hartsPlaced : Obligations.HartsPlaced := by
  intro s core hslot n stage ix rest p l
  refine ⟨fun hh hc hcand hl hr hg hst hp => ?_, fun hk hfin hno hl hc hd => ?_, fun ⟨h, hm, hn⟩ => ?_⟩
  · have hself := (placedAt_hartOf s n stage ix p p.hart).trans (if_pos rfl)
    have hrs := freshHart_rs (takeSlot s l.ctx l.epoch p) n l stage ix p
    refine ⟨_, place_next hh hc hcand hl hr hg hp, ?_⟩
    dsimp only
    rw [hself]
    refine ⟨?_, ?_, ?_, ?_, ?_, ?_, ?_, ?_, ?_, ?_, ?_, placedAt_holder s n stage ix p, ?_, ?_, placedAt_mem s n stage ix p,
      placedAt_l2 s n stage ix p⟩
    · simp [freshHart]
    · simp [freshHart]
    · simp [freshHart]
    · simp [freshHart]
    · simp [freshHart]
    · simp [freshHart, l]
    · rw [hrs]; rfl
    · rw [hrs]; rfl
    · intro r h3 h4
      rw [hrs, if_neg h4, if_neg h3]
    · simp [freshHart]
    · simp [freshHart, l]
    · rw [Launch.stage, placedAt_stages, List.getD_eq_getElem _ _ (by simpa using hst), List.getElem_set_self]
    · exact fun k hk => (placedAt_hartOf s n stage ix p k).trans (if_neg hk)
  · refine ⟨_, launchRetire_next (launchOver_iff.2 ⟨hk, hfin, hno⟩) hl hc hd, rfl, rfl, ?_, fun k hne => ?_⟩
    · rw [launchGone_launch, if_pos rfl]
    · rw [launchGone_launch, if_neg hne, (completionSend_homed _ _ _ _ _).launch]
  · have hnot : ¬ launchOver s n = true := fun ho => (launchOver_iff.1 ho).2.2 h hm hn
    exact ⟨s, congrArg Host.Outcome.next (if_neg hnot), rfl⟩

end Sys2Proof.Machine
end

section
/-! Admission of a LAUNCH (R28, R31, R46, R279, R281, R285, R290). -/

namespace Sys2Proof.Machine

/-! ## Bytes at home behind equal parts (R250, R277) -/

/-- What decides the bytes that a device's agent leaves is the same in both states: memory, the functions, poison, the links
and the time. -/
structure HomeAlike (s t : State) : Prop where
  mem : t.mem = s.mem
  l2 : t.l2 = s.l2
  fns : t.fns = s.fns
  poison : t.poison = s.poison
  links : t.linksDown = s.linksDown
  time : t.time = s.time

namespace HomeAlike

variable {s t : State} (h : HomeAlike s t)
include h

theorem fn (f : Nat) : t.fn f = s.fn f := by simp only [State.fn, h.fns]
theorem homeOf (a : Nat) : homeOf t a = homeOf s a := homeOf_congr h.fns h.l2 h.mem h.poison a
theorem stage2Of (f a : Nat) (k : Kind) : stage2Of t f a k = stage2Of s f a k := by
  simp only [Machine.stage2Of, h.fn, stage2Walk_congr h.l2 h.mem h.poison]
theorem agentPa (f a : Nat) (k : Kind) : agentPa t f a k = agentPa s f a k := by
  simp only [Machine.agentPa, h.stage2Of]
theorem drops (a : Nat) : drops t a = drops s a := by
  simp only [Machine.drops, peerUp, h.homeOf, h.fn, h.links]
theorem setFn (f : Nat) (x : Fn) : HomeAlike (s.setFn f x) (t.setFn f x) := by
  refine ⟨h.mem, h.l2, ?_, h.poison, h.links, h.time⟩
  simp only [State.setFn, h.fns]
theorem poke (a : Nat) (b : Byte) : HomeAlike (s.poke a b) (t.poke a b) := by
  have hl : mapPut none t.l2 a (some b) = mapPut none s.l2 a (some b) := by rw [h.l2]
  have hm : mapPut unwritten t.mem (Machine.homeOf s a) b = mapPut unwritten s.mem (Machine.homeOf s a) b := by rw [h.mem]
  unfold State.poke
  rw [h.homeOf]
  split
  · exact ⟨h.mem, hl, h.fns, h.poison, h.links, h.time⟩
  · exact ⟨hm, h.l2, h.fns, h.poison, h.links, h.time⟩

end HomeAlike

theorem dropRecord_alike (s : State) (author : Option Nat) (ctx a : Nat) : HomeAlike s (dropRecord s author ctx a) := by
  unfold dropRecord
  split <;> exact ⟨rfl, rfl, rfl, rfl, rfl, rfl⟩

namespace HomeAlike

theorem trans {s t u : State} (h : HomeAlike s t) (g : HomeAlike t u) : HomeAlike s u :=
  ⟨g.mem.trans h.mem, g.l2.trans h.l2, g.fns.trans h.fns, g.poison.trans h.poison, g.links.trans h.links, g.time.trans h.time⟩
theorem symm {s t : State} (h : HomeAlike s t) : HomeAlike t s :=
  ⟨h.mem.symm, h.l2.symm, h.fns.symm, h.poison.symm, h.links.symm, h.time.symm⟩

variable {s t : State} (h : HomeAlike s t)
include h

theorem dropRecord (author : Option Nat) (ctx a : Nat) : HomeAlike (dropRecord s author ctx a) (dropRecord t author ctx a) :=
  ((dropRecord_alike s author ctx a).symm.trans h).trans (dropRecord_alike t author ctx a)
theorem homeStore1 (author : Option Author) (ctx : Nat) (stamp : Option Nat) (p : Nat × Byte) :
    HomeAlike (homeStore1 author ctx stamp s p) (homeStore1 author ctx stamp t p) := by
  have hu : peerUp t (fnAddr p.1) p.1 = peerUp s (fnAddr p.1) p.1 := by simp only [peerUp, h.fn, h.links]
  unfold Machine.homeStore1
  simp only [h.homeOf, hu, h.fn]
  split
  · exact h.dropRecord _ _ _
  · split
    · exact (h.setFn _ _).dropRecord _ _ _
    · have hp := h.poke p.1 p.2
      exact ⟨hp.mem, hp.l2, hp.fns, hp.poison, hp.links, hp.time⟩
theorem homeStoreAll (ctx : Nat) (stamp before : Option Nat) (ps : List HStore) :
    HomeAlike (homeStoreAll ctx stamp before s ps) (homeStoreAll ctx stamp before t ps) := by
  induction ps generalizing s t before with
  | nil => exact h
  | cons p ps ih =>
    unfold Machine.homeStoreAll
    have hd : sameDrop t before p.a = sameDrop s before p.a := by simp only [sameDrop, h.drops]
    rw [hd]
    split
    · exact ih h _
    · exact ih (h.homeStore1 _ _ _ _) _
theorem agentCache (f : Nat) (as : List Nat) : HomeAlike (agentCache s f as) (agentCache t f as) := by
  unfold Machine.agentCache
  generalize (as.map (fun a => a / 65536)).eraseDups = l
  induction l generalizing s t with
  | nil => exact h
  | cons p l ih =>
    refine ih ?_
    dsimp only
    unfold stage2Cache
    rw [h.stage2Of, h.fn]
    split
    · exact h
    · exact h.setFn _ _

/-- An agent's write leaves the same bytes at home. -/
theorem agentWrite_maps (f a : Nat) (bs : List Byte) :
    ((agentWrite t f a bs).getD t).mem = ((agentWrite s f a bs).getD s).mem ∧
      ((agentWrite t f a bs).getD t).l2 = ((agentWrite s f a bs).getD s).l2 := by
  unfold agentWrite
  simp only [h.agentPa]
  split
  · next ps _ =>
    have hc : HomeAlike (if f = 0 then s else Machine.agentCache s f ((withAddr a bs).map (·.1)))
        (if f = 0 then t else Machine.agentCache t f ((withAddr a bs).map (·.1))) := by
      split
      · exact h
      · exact h.agentCache _ _
    have hs := hc.homeStoreAll 0 none none (plain ps)
    simp only [Option.getD_some, homeStore_maps, hs.mem, hs.l2, and_self]
  · exact ⟨h.mem, h.l2⟩
/-- A completion record leaves the same bytes at home. -/
theorem completionSend_maps (l : Launch) (status code b2 : Nat) :
    (completionSend t l status code b2).mem = (completionSend s l status code b2).mem ∧
      (completionSend t l status code b2).l2 = (completionSend s l status code b2).l2 := by
  have hif : ∀ (p : Bool) (u v : State), v.mem = u.mem → v.l2 = u.l2 →
      (if p then v else u).mem = u.mem ∧ (if p then v else u).l2 = u.l2 := by
    intro p u v hm hl
    split
    · exact ⟨hm, hl⟩
    · exact ⟨rfl, rfl⟩
  unfold completionSend
  extract_lets sinks bytes t1 bytes' s1
  obtain ⟨ht, ht'⟩ := hif (l.compl ≠ 0 && l.irq) t1 { t1 with msix := (l.fn, (t1.queue l.fn l.q).vec) :: t1.msix } rfl rfl
  obtain ⟨hs, hs'⟩ := hif (l.compl ≠ 0 && l.irq) s1 { s1 with msix := (l.fn, (s1.queue l.fn l.q).vec) :: s1.msix } rfl rfl
  rw [ht, ht', hs, hs']
  simp only [t1, s1, bytes, bytes', h.time]
  split
  · exact ⟨h.mem, h.l2⟩
  · exact h.agentWrite_maps _ _ _

end HomeAlike

end Sys2Proof.Machine
end

section
/-! Admission of a LAUNCH at FREE (R28, R31, R46, R279, R281, R285, R290): what its steps leave, and the two outcomes. -/

namespace Sys2Proof.Machine

/-! ## Fields of a packet (R278) -/

theorem leNat_lt (l : List Byte) : leNat l < 256 ^ l.length := by
  induction l with
  | nil => exact Nat.one_pos
  | cons b l ih =>
    have hb := b.isLt
    simp only [leNat, List.length_cons, Nat.pow_succ]
    omega
theorem numAt_lt (r : List Byte) (i n : Nat) : numAt r i n < 256 ^ n :=
  (leNat_lt _).trans_le (Nat.pow_le_pow_right (by decide) (List.length_take_le _ _))
theorem toNat_numAt_eight (r : List Byte) (i : Nat) : (BitVec.ofNat 64 (numAt r i 8)).toNat = numAt r i 8 :=
  (BitVec.toNat_ofNat _ _).trans (Nat.mod_eq_of_lt (numAt_lt r i 8))
theorem toNat_packetTag (r : List Byte) : (BitVec.ofNat 32 (packetTag r)).toNat = numAt r 4 4 :=
  (BitVec.toNat_ofNat _ _).trans (Nat.mod_eq_of_lt (numAt_lt r 4 4))

theorem packetOf_eq {s : State} {f q t : Nat} {p : Packet} (hw : (s.queue f q).st = .wait) (hp : (s.queue f q).packet = some p)
    (ht : p.ptype = t) : packetOf s f q t = some p := by
  simp [packetOf, hw, hp, ht, Option.filter]
@[simp] theorem packetDone_queue (f q : Nat) (s : State) :
    (packetDone f q s).queue f q = { s.queue f q with st := .fetch, packet := none } :=
  State.setQueue_queue_self _ _ _ _

/-! ## The context's record read again (R27), its turns (R285), and the log -/

theorem logSweep_idle {c : Nat} {s : State} (hg : (s.ctx c).ghosts = []) (hs : (s.ctx c).skips = []) : logSweep c s = s := by
  simp only [logSweep, hs, hg, if_true]
/-- Reading the record again changes contexts alone. -/
theorem refreshCtx_ctxs (c : Nat) (s : State) : ∃ cs, refreshCtx c s = { s with ctxs := cs } := by
  unfold refreshCtx
  split
  · exact ⟨s.ctxs, rfl⟩
  · exact ⟨_, rfl⟩
/-- Reading the record again leaves what is no field of it. -/
theorem refreshCtx_ctx (c : Nat) (s : State) :
    ((refreshCtx c s).ctx c).level = (s.ctx c).level ∧ ((refreshCtx c s).ctx c).epoch = (s.ctx c).epoch := by
  unfold refreshCtx
  split
  · exact ⟨rfl, rfl⟩
  · rw [State.setCtx_ctx_self]
    exact ⟨rfl, rfl⟩
theorem turnPast_turns (c prio q : Nat) (s : State) : mapGet 0 ((turnPast c prio q s).ctx c).turns prio = q + 1 := by
  simp [turnPast]
/-- What a rejection with a code does. -/
def reject (f q : Nat) (x : HostQueue) (b : List Byte) (code : Nat) (s : State) : State :=
  let c := f * 64 + x.ctx
  let s2 := declaredNotes c (numAt b 8 8) code s
  packetDone f q (turnPast c x.prio q (completionSend s2 (launchOf s2 f q x b) 1 code 0))

/-- A LAUNCH whose turn has come is rejected with the code its declaration fails with, or is entered. -/
theorem admission_due {f q : Nat} {p : Packet} {s : State} (hb : p.begun = true)
    (hd : (s.ctx (f * 64 + (s.queue f q).ctx)).drains = [])
    (hm : (s.launches.filter (fun l => l.2.ctx == f * 64 + (s.queue f q).ctx)).length < Config.launchMax)
    (ht : queueTurn s f q = true) {code : Option Nat} {st : List Stage} {qs : List LQueue} {gs : List Group}
    (hdec : declared (refreshCtx (f * 64 + (s.queue f q).ctx) s) (f * 64 + (s.queue f q).ctx) (numAt p.bytes 8 8) =
      (code, st, qs, gs)) :
    admission f q p s =
      code.elim (enterLaunch f q (s.queue f q) p.bytes st qs gs (refreshCtx (f * 64 + (s.queue f q).ctx) s))
        (fun code => reject f q (s.queue f q) p.bytes code (refreshCtx (f * 64 + (s.queue f q).ctx) s)) := by
  unfold admission
  extract_lets x c many wait s1
  have hw : wait = false := by
    simp only [wait, many, x, c, hb, hd, ht, decide_eq_false (Nat.not_le.2 hm), bne_self_eq_false, Bool.not_true, Bool.and_false,
      Bool.or_self]
  rw [if_neg (by rw [hw]; exact Bool.false_ne_true), hdec]
  cases code <;> simp only [Option.elim, reject, x, c, s1]

/-! ## A rejected launch (R242, R279) -/

/-- From `s` to `t` fault records have been written. -/
def Noted (s t : State) : Prop := t = { s with frec := t.frec, frecLost := t.frecLost }

theorem Noted.refl (s : State) : Noted s s := rfl
theorem Noted.trans {s t u : State} (h : Noted s t) (g : Noted t u) : Noted s u := by
  unfold Noted at *
  rw [g, h]
theorem Noted.homed {s t : State} (h : Noted s t) : Homed s t := by
  rw [h]
  exact .of_eq rfl
theorem Noted.alike {s t : State} (h : Noted s t) : HomeAlike s t := by
  rw [h]
  exact ⟨rfl, rfl, rfl, rfl, rfl, rfl⟩
theorem Noted.foldl {α : Type} {f : State → α → State} (hf : ∀ s x, Noted s (f s x)) (l : List α) (s : State) :
    Noted s (l.foldl f s) := by
  induction l generalizing s with
  | nil => exact .refl s
  | cons x l ih => exact (hf s x).trans (ih _)
theorem ctxNote_noted (c va n : Nat) (k : Kind) (s : State) : Noted s (ctxNote c va n k s) := by
  unfold ctxNote
  split
  · exact rfl
  · exact .refl s
theorem declaredNotes_noted (c tva code : Nat) (s : State) : Noted s (declaredNotes c tva code s) := by
  unfold declaredNotes
  split
  · exact ctxNote_noted _ _ _ _ _
  · split
    · exact .foldl (fun s _ => ctxNote_noted _ _ _ _ s) _ _
    · split
      · exact .foldl (fun s _ => ctxNote_noted _ _ _ _ s) _ _
      · split
        · exact ctxNote_noted _ _ _ _ _
        · exact .refl s
theorem launchOf_homed {s t : State} (h : Homed s t) (f q : Nat) (x : HostQueue) (b : List Byte) :
    launchOf t f q x b = launchOf s f q x b := by
  simp only [launchOf, h.nextLaunch, h.level]

/-! ## A launch whose stages settle (R31, R32) -/

/-- From `s` to `t` some of a launch's stages may have finished, and some of its queues closed. -/
structure StagesSettled (num : Nat) (s t : State) : Prop where
  rest : t = { s with launches := t.launches }
  others : ∀ k, k ≠ num → t.launch k = s.launch k
  fields : t.launch num = { s.launch num with stages := (t.launch num).stages, queues := (t.launch num).queues }
  stages : (t.launch num).stages.map (fun g => { g with finished := false }) =
    (s.launch num).stages.map (fun g => { g with finished := false })
  queues : (t.launch num).queues.map (fun g => { g with closed := true }) =
    (s.launch num).queues.map (fun g => { g with closed := true })

theorem StagesSettled.refl (num : Nat) (s : State) : StagesSettled num s s := ⟨rfl, fun _ _ => rfl, rfl, rfl, rfl⟩
theorem StagesSettled.trans {num : Nat} {s t u : State} (h : StagesSettled num s t) (g : StagesSettled num t u) : StagesSettled num s u := by
  refine ⟨?_, fun k hk => (g.others k hk).trans (h.others k hk), ?_, g.stages.trans h.stages, g.queues.trans h.queues⟩
  · rw [g.rest, h.rest]
  · rw [g.fields, h.fields]
theorem settleStages_settled (num fuel : Nat) (s : State) : StagesSettled num s (settleStages s num fuel) := by
  induction fuel generalizing s with
  | zero => exact .refl num s
  | succ fuel ih =>
    unfold settleStages
    extract_lets l ends l1
    refine .trans ⟨rfl, fun k hk => ?_, ?_, ?_, ?_⟩ (ih _)
    · rw [State.setLaunch_launch, if_neg hk]
    · rw [State.setLaunch_launch_self]
    · rw [State.setLaunch_launch_self]
      refine List.ext_getElem (by simp [l1, l]) fun i hi hj => ?_
      simp only [l1, l, List.getElem_map, List.getElem_mapIdx]
      split <;> rfl
    · rw [State.setLaunch_launch_self]
      simp only [l1, List.map_map]
      refine List.map_congr_left fun g _ => ?_
      simp only [Function.comp]
      split
      · split <;> rfl
      · rfl

/-! ## A launch admitted at FREE (R28, R46, R290) -/

/-- The context of an admission at FREE: its epoch if the packet says FRESH, its ADMITs, its queues' turn. -/
def admitCtx (c prio q : Nat) (b : List Byte) (s : State) : State :=
  let s2 := if packetFresh b then epochAdvance c s else s
  let y := s2.ctx c
  turnPast c prio q <| s2.setCtx c { y with
    admits := y.admits + 1
    skips := y.skips.filter (· != (y.admits + 1) % 65536)
    stallSince := none
    stallSent := false }

theorem admitCtx_ctxs (c prio q : Nat) (b : List Byte) (s : State) :
    ∃ cs, admitCtx c prio q b s = { s with ctxs := cs } := by
  unfold admitCtx
  split
  · exact ⟨_, rfl⟩
  · exact ⟨_, rfl⟩
theorem admitCtx_ctx (c prio q : Nat) (b : List Byte) (s : State) :
    ((admitCtx c prio q b s).ctx c).level = (s.ctx c).level ∧
    ((admitCtx c prio q b s).ctx c).epoch = (s.ctx c).epoch + (if packetFresh b then 1 else 0) ∧
    mapGet 0 ((admitCtx c prio q b s).ctx c).turns prio = q + 1 := by
  refine ⟨?_, ?_, turnPast_turns _ _ _ _⟩ <;>
  · simp only [admitCtx, turnPast, State.setCtx_ctx_self]
    split <;> simp [epochAdvance]

/-- The launch that an admission makes where `s` is the state with the context so changed. -/
def admitLaunch (f q : Nat) (x : HostQueue) (b : List Byte) (st : List Stage) (qs : List LQueue) (gs : List Group) (s : State) :
    Launch :=
  { launchOf s f q x b with
    epoch := (s.ctx (f * 64 + x.ctx)).epoch
    lnch := (s.ctx (f * 64 + x.ctx)).admits
    stages := st
    queues := qs
    groups := gs }
theorem slotOpen_free {num : Nat} {s : State} (h : (s.launch num).level = .free) : slotOpen num s = s := by
  unfold slotOpen
  exact if_pos h
theorem enterLaunch_free {f q : Nat} {x : HostQueue} {b : List Byte} {st : List Stage} {qs : List LQueue} {gs : List Group}
    {s u : State} (h : (s.ctx (f * 64 + x.ctx)).level = .free) (hu : admitCtx (f * 64 + x.ctx) x.prio q b s = u) :
    enterLaunch f q x b st qs gs s =
      packetDone f q (settleStages { u.setLaunch u.nextLaunch (admitLaunch f q x b st qs gs u) with
        nextLaunch := u.nextLaunch + 1 } u.nextLaunch st.length) := by
  have hlog : admitLog (f * 64 + x.ctx) q (packetTag b) s = some s := by simp only [admitLog, h]
  have hl : (admitLaunch f q x b st qs gs u).level = .free := by
    rw [← hu]
    exact (admitCtx_ctx _ _ _ _ _).1.trans h
  subst hu
  unfold enterLaunch
  simp only [hlog]
  rw [slotOpen_free]
  · simp only [admitLaunch, admitCtx, turnPast, State.setCtx_ctx_self]
  · refine Eq.trans (congrArg Launch.level (State.setLaunch_launch_self _ _ _)) (Eq.trans ?_ hl)
    simp only [admitLaunch, admitCtx]
/-- The launch is there, its stages and queues as declared but for what has nothing to do. -/
theorem enterLaunch_outcome {f q : Nat} {x : HostQueue} {b : List Byte} {st : List Stage} {qs : List LQueue} {gs : List Group}
    {s u : State} (h : (s.ctx (f * 64 + x.ctx)).level = .free) (hu : admitCtx (f * 64 + x.ctx) x.prio q b s = u) :
    ∃ ls st' qs', enterLaunch f q x b st qs gs s = packetDone f q { u with launches := ls, nextLaunch := u.nextLaunch + 1 } ∧
      mapGet Launch.initial ls u.nextLaunch = { admitLaunch f q x b st qs gs u with stages := st', queues := qs' } ∧
      st'.map (fun g => { g with finished := false }) = st.map (fun g => { g with finished := false }) ∧
      qs'.map (fun g => { g with closed := true }) = qs.map (fun g => { g with closed := true }) ∧
      ∀ k, k ≠ u.nextLaunch → mapGet Launch.initial ls k = u.launch k := by
  have hl := State.setLaunch_launch_self u u.nextLaunch (admitLaunch f q x b st qs gs u)
  rw [enterLaunch_free h hu]
  generalize hv : ({ u.setLaunch u.nextLaunch (admitLaunch f q x b st qs gs u) with nextLaunch := u.nextLaunch + 1 } : State) = v
  have hlv : v.launch u.nextLaunch = admitLaunch f q x b st qs gs u := by
    rw [← hv]
    exact hl
  obtain ⟨hrest, hothers, hfields, hstages, hqueues⟩ := settleStages_settled u.nextLaunch st.length v
  rw [hlv] at hfields hstages hqueues
  refine ⟨_, _, _, ?_, hfields, hstages, hqueues, fun k hk => (hothers k hk).trans ?_⟩
  · rw [hrest, ← hv]
    rfl
  · rw [← hv]
    exact (State.setLaunch_launch _ _ _ _).trans (if_neg hk)
theorem reject_outcome {f q code : Nat} {x : HostQueue} {b : List Byte} {s : State} (hx : s.queue f q = x) (hw : x.st = .wait) :
    let t := reject f q x b code s
    t.mem = (completionSend s (launchOf s f q x b) 1 code 0).mem ∧
      t.l2 = (completionSend s (launchOf s f q x b) 1 code 0).l2 ∧ t.launches = s.launches ∧
      mapGet 0 (t.ctx (f * 64 + x.ctx)).turns x.prio = q + 1 ∧ t.queue f q = { x with st := .fetch, packet := none } := by
  have hn := declaredNotes_noted (f * 64 + x.ctx) (numAt b 8 8) code s
  obtain ⟨hmem, hl2⟩ := hn.alike.completionSend_maps (launchOf s f q x b) 1 code 0
  have hsent := hn.homed.trans (completionSend_homed _ (launchOf s f q x b) 1 code 0)
  have hqueue := hsent.queue f q (by rw [hx, hw]; decide)
  unfold reject
  simp only [launchOf_homed hn.homed]
  refine ⟨hmem, hl2, hsent.launches, turnPast_turns _ _ _ _, ?_⟩
  rw [packetDone_queue]
  refine (congrArg (fun z : HostQueue => { z with st := .fetch, packet := none }) ?_ : _)
  exact hqueue.trans hx

/-- Settles O55: neither the notes of a rejection nor the settling of stages touches anything the outcome speaks of. -/
theorem launchesAdmitted : Obligations.LaunchesAdmitted := by
  unfold Obligations.LaunchesAdmitted
  intro s f q code p st qs gs
  extract_lets y c s1 l
  intro hw hp ht hb hd hl hg hk hm hturn _
  have hexec : exec (.admission f q) s = .next (admission f q p s) := by
    refine Eq.trans (by rfl : _ = execAdmission f q s) ?_
    unfold execAdmission
    rw [packetOf_eq hw hp ht, logSweep_idle hg hk]
  obtain ⟨hlevel, hepoch⟩ : (s1.ctx c).level = (s.ctx c).level ∧ (s1.ctx c).epoch = (s.ctx c).epoch := refreshCtx_ctx c s
  have hdue := fun code st qs gs => admission_due (code := code) (st := st) (qs := qs) (gs := gs) hb hd hm hturn
  obtain ⟨cs, hcs⟩ : ∃ cs, s1 = { s with ctxs := cs } := refreshCtx_ctxs c s
  change ∀ code st qs gs, declared s1 c (numAt p.bytes 8 8) = (code, st, qs, gs) → admission f q p s =
    code.elim (enterLaunch f q y p.bytes st qs gs s1) (fun code => reject f q y p.bytes code s1) at hdue
  clear_value s1
  have hq : s1.queue f q = y := by
    rw [hcs]
    rfl
  refine ⟨fun hdec => ⟨_, hexec.trans (congrArg _ (hdue _ _ _ _ hdec)), ?_⟩,
    fun hdec => ⟨_, hexec.trans (congrArg _ (hdue _ _ _ _ hdec)), ?_⟩⟩
  · obtain ⟨hmem, hl2, hls, hturns, hqueue⟩ := reject_outcome (b := p.bytes) (code := code) hq hw
    refine ⟨hmem, hl2, hls.trans ?_, hturns, hqueue⟩
    rw [hcs]
  · obtain ⟨hlevel', hepoch', hturns⟩ := admitCtx_ctx c y.prio q p.bytes s1
    obtain ⟨cs', hcs'⟩ := admitCtx_ctxs c y.prio q p.bytes s1
    generalize hu : admitCtx c y.prio q p.bytes s1 = u at hlevel' hepoch' hturns hcs'
    have hnum : u.nextLaunch = s.nextLaunch := by rw [hcs', hcs]
    obtain ⟨ls, st', qs', hent, hnew, hst, hqs, hothers⟩ := enterLaunch_outcome (st := st) (qs := qs) (gs := gs) (hlevel.trans hl) hu
    rw [hnum] at hnew hothers hent
    rw [Option.elim_none, hent]
    extract_lets n
    have hn : n = { admitLaunch f q y p.bytes st qs gs u with stages := st', queues := qs' } := hnew
    have hq' : u.queue f q = y := by
      rw [hcs', ← hq]
      rfl
    rw [hn]
    refine ⟨rfl, ?_, ?_, ?_, hturns, rfl, rfl, rfl, toNat_numAt_eight _ _, toNat_numAt_eight _ _, toNat_packetTag _, rfl, rfl,
      hlevel'.trans (hlevel.trans hl), rfl, ?_, hst, hqs, fun k hk => (hothers k hk).trans ?_⟩
    · exact (packetDone_queue _ _ _).trans (congrArg (fun z : HostQueue => { z with st := .fetch, packet := none }) hq')
    · exact (by rw [hcs', hcs] : u.mem = s.mem)
    · exact (by rw [hcs', hcs] : u.l2 = s.l2)
    · exact hepoch'.trans (by rw [hepoch])
    · rw [hcs', hcs]
      rfl

end Sys2Proof.Machine
end

section
/-! QPUSH and QPOP (R32, R33, R394 to R396), and what an access of an ungoverned hart leaves. -/

namespace Sys2Proof.Machine

/-! ## A hart that no order log governs (R294) -/

theorem logLevel_unlogged {s : State} (h : Unlogged s) : logLevel s s.hart = none := by
  unfold logLevel
  rcases h with h | h <;> simp only [h]
theorem logCheckIn_unlogged {s : State} (h : Unlogged s) (ty addr am aux xm : Nat) :
    logCheckIn s.hart.id ty addr am aux xm s = .ok none s := by
  unfold logCheckIn
  simp only [M.get_bind, State.hartOf_self, logLevel_unlogged h]
  rfl
theorem logDone_unlogged {s : State} (h : Unlogged s) (ty addr aux ver vh : Nat) (r : Option (Nat × Nat)) :
    logDone s.hart.id ty addr aux ver vh r s = .ok () s := by
  unfold logDone
  simp only [M.get_bind, State.hartOf_self, logLevel_unlogged h]
  rfl
theorem not_strict_of_unlogged {s : State} (h : Unlogged s) : (s.ctx (ctxOf s s.hart)).strict = false := by
  unfold Ctx.strict
  rcases h with h | h <;> simp [h]
theorem scratchFree_spanFree {s : State} {ls : List Loc} (h : SpanFree s ls) : scratchFree s.hart.id ls s = .ok () s := by
  unfold scratchFree
  unfold SpanFree at h
  simp [h]

/-! ## Places of physical memory -/

theorem physPairs_places (a : Nat) (bs : List Byte) : physPairs (places a bs.length) bs = withAddr a bs := by
  induction bs generalizing a with
  | nil => rfl
  | cons b bs ih =>
    rw [withAddr_cons, ← ih]
    simp [places, physPairs, List.range_succ_eq_map, Function.comp_def, Nat.add_assoc, Nat.add_comm 1]
theorem dropDead_places (author : Option Nat) (c a n : Nat) (s : State) : dropDead author c (places a n) s = s := by
  unfold dropDead
  split
  · next h =>
    obtain ⟨l, hl, hd⟩ := List.exists_of_findSome?_eq_some h
    obtain ⟨i, -, rfl⟩ := List.mem_map.1 hl
    cases hd
  · rfl
theorem places_eq_map (a n : Nat) : (List.range n).map (Loc.phys a).add = places a n := rfl
theorem badGranules_sound {ls : List Loc} {s : State} {a n : Nat} (h : Sound s a n) (x : Hart) :
    badGranules ls ((places a n).map (locBadHome s x)) = [] := by
  refine List.filterMap_eq_nil_iff.2 fun p hp => ?_
  have hb := (List.of_mem_zip hp).2
  simp only [places, List.map_map, List.mem_map, List.mem_range, Function.comp, locBadHome] at hb
  obtain ⟨i, hi, hbad⟩ := hb
  rw [← hbad, h i hi]
  rfl
theorem poisonPlaces_keeps (slot : Nat) (ls : List Loc) (s : State) :
    let t := poisonPlaces slot ls s
    t.hart = s.hart ∧ t.launches = s.launches ∧ t.ctxs = s.ctxs ∧ t.mem = s.mem ∧ t.l2 = s.l2 ∧ t.fns = s.fns := by
  unfold poisonPlaces
  split
  · exact ⟨rfl, rfl, rfl, rfl, rfl, rfl⟩
  · exact ⟨rfl, rfl, rfl, rfl, rfl, rfl⟩

/-! ## QPUSH (R32, R33, R396) -/

theorem qpushM_illegal {s : State} {a : BitVec 6} {n : BitVec 4}
    (h : ((s.launch s.hart.launch).stage s.hart.stage).outq ≠ some n.toNat) :
    qpushM a n s = .error (.trap .illegalOp .read ((encode (.qpush a n)).zeroExtend 64)) s := by
  simp only [qpushM, M.hart_bind, M.get_bind, if_pos h]
  rfl
/-- The focus hart's record of `n` bytes copied to a queue's slot: bytes at home, poison with them. -/
def recordPushed (s : State) (ls : List Loc) (slot n : Nat) : State :=
  poisonPlaces s.hart.slotId (badGranules (places slot n) (ls.map (locBad s s.hart false)))
    (homeStore 0 none s (plain (physPairs (places slot n) (ls.map (locByte s s.hart false)))))

theorem recordPushed_hart (s : State) (ls : List Loc) (slot n : Nat) : (recordPushed s ls slot n).hart = s.hart :=
  (poisonPlaces_keeps _ _ _).1.trans (homeStore_homed _ _ _ _).hart
theorem recordPushed_launch (s : State) (ls : List Loc) (slot n k : Nat) : (recordPushed s ls slot n).launch k = s.launch k := by
  obtain ⟨-, hls, -⟩ := poisonPlaces_keeps s.hart.slotId (badGranules (places slot n) (ls.map (locBad s s.hart false)))
    (homeStore 0 none s (plain (physPairs (places slot n) (ls.map (locByte s s.hart false)))))
  exact (congrArg (mapGet Launch.initial · k) hls).trans ((homeStore_homed _ _ _ _).launch k)
theorem recordPushed_level (s : State) (ls : List Loc) (slot n c : Nat) :
    ((recordPushed s ls slot n).ctx c).level = (s.ctx c).level := by
  obtain ⟨-, -, hcs, -⟩ := poisonPlaces_keeps s.hart.slotId (badGranules (places slot n) (ls.map (locBad s s.hart false)))
    (homeStore 0 none s (plain (physPairs (places slot n) (ls.map (locByte s s.hart false)))))
  exact (congrArg (fun m => (mapGet Ctx.initial m c).level) hcs).trans ((homeStore_homed _ _ _ _).level c)
theorem recordPushed_peek {s : State} {ls : List Loc} {slot n : Nat} (hlen : ls.length = n)
    (hb : ∀ i < n, devBacked (slot + i) = true) {p : Nat} (hp : fnAddr p = 0) :
    (recordPushed s ls slot n).peek p = byteAfter slot (ls.map (locByte s s.hart false)) p (s.peek p) := by
  have hlen' : (ls.map (locByte s s.hart false)).length = n := by rw [List.length_map, hlen]
  unfold recordPushed
  obtain ⟨-, -, -, hmem, hl2, hfns⟩ := poisonPlaces_keeps s.hart.slotId (badGranules (places slot n) (ls.map (locBad s s.hart false)))
    (homeStore 0 none s (plain (physPairs (places slot n) (ls.map (locByte s s.hart false)))))
  rw [peek_physical hmem hl2 (congrArg (fun m => (mapGet Fn.initial m 0).peers) hfns) hp]
  subst n
  rw [← hlen', physPairs_places, homeStore_peek 0 none s _ hp]
  exact homeStoreAll_peek 0 none none _ (hlen'.symm ▸ hb) hp

/-- A queue of a hart's launch has its counts changed. -/
def recount (s : State) (x : Hart) (q : Nat) (f : LQueue → LQueue) : State :=
  let l := s.launch x.launch
  s.setLaunch x.launch (l.setQueue q (f (l.queue q)))
theorem recount_launch (s : State) (x : Hart) (q : Nat) (f : LQueue → LQueue) :
    (recount s x q f).launch x.launch = (s.launch x.launch).setQueue q (f ((s.launch x.launch).queue q)) :=
  State.setLaunch_launch_self _ _ _
theorem recount_ctxOf (s : State) (x : Hart) (q : Nat) (f : LQueue → LQueue) (y : Hart) :
    ctxOf (recount s x q f) y = ctxOf s y := by
  unfold ctxOf recount
  rw [State.setLaunch_launch]
  split
  · next h => rw [h]; rfl
  · rfl
theorem Unlogged.recount {s : State} (h : Unlogged s) (x : Hart) (q : Nat) (f : LQueue → LQueue) :
    Unlogged (recount s x q f) := by
  unfold Unlogged
  rw [show (Machine.recount s x q f).hart = s.hart from rfl, recount_ctxOf]
  exact h

section
variable {s s1 s2 : State} {a : BitVec 6} {n : BitVec 4} {ls : List Loc} {fs : List (Nat × Nat)} {slot : Nat}
  (hout : ((s.launch s.hart.launch).stage s.hart.stage).outq = some n.toNat) (hal : (s.hart.rs a).toNat % 16 = 0)
  (hloc : locateN s.hart.id (s.hart.rs a).toNat ((s.launch s.hart.launch).queue n.toNat).rsize .read false s = .ok (ls, fs) s1)
  (hx : s1.hart = s.hart) (hu : Unlogged s1) (hf : SpanFree s1 ls)
include hout hal hloc hx hu hf

theorem qpushM_full (hcap : ((s.launch s.hart.launch).queue n.toNat).cap ≤ ((s.launch s.hart.launch).queue n.toNat).held) :
    qpushM a n s = .error (.park (.qpush n.toNat)) s1 := by
  have hfree := scratchFree_spanFree hf
  have hlog := logCheckIn_unlogged hu 6 n.toNat 0xFF 0 0
  rw [hx] at hfree hlog
  simp only [qpushM, M.hart_bind, M.get_bind, hout, hal, ne_eq, not_true_eq_false, if_false, M.bind_ok hloc, M.bind_ok hfree,
    M.bind_ok hlog, Option.any_none, hcap, if_true, M.throw_bind, Bool.false_eq_true]
theorem qpushM_room (hcap : ((s.launch s.hart.launch).queue n.toNat).held < ((s.launch s.hart.launch).queue n.toNat).cap)
    (hslot : slotLoc s.hart.id (((s.launch s.hart.launch).queue n.toNat).slotVa ((s.launch s.hart.launch).queue n.toNat).pushed)
      .write s1 = .ok (.phys slot) s2) (hx2 : s2.hart = s.hart)
    (hu2 : Unlogged s2) (hs : ∀ l ∈ ls, LocSound s2 l) :
    qpushM a n s = .ok () (recount (recordPushed s2 ls slot ((s.launch s.hart.launch).queue n.toNat).rsize) s.hart n.toNat fun y =>
      { y with pushed := ((s.launch s.hart.launch).queue n.toNat).pushed + 1 }).advance := by
  have hfree := scratchFree_spanFree hf
  have hlog := logCheckIn_unlogged hu 6 n.toNat 0xFF 0 0
  rw [hx] at hfree hlog
  simp only [qpushM, M.hart_bind, M.get_bind, hout, hal, ne_eq, not_true_eq_false, if_false, M.bind_ok hloc, M.bind_ok hfree,
    M.bind_ok hlog, Option.any_none, Nat.not_le.2 hcap, Bool.false_eq_true,
    M.bind_ok hslot, M.bind_ok (reportM_sound hs), M.modify_bind, places_eq_map, dropDead_places]
  generalize (s.launch s.hart.launch).queue n.toNat = y
  rw [← hx2]
  simp only [State.hartOf_self]
  have hh := recordPushed_hart s2 ls slot y.rsize
  have hv : Unlogged (recordPushed s2 ls slot y.rsize) := by
    simp only [Unlogged, hh, ctxOf, recordPushed_launch, recordPushed_level]
    exact hu2
  have hdone := logDone_unlogged (hv.recount s2.hart n.toNat fun z => { z with pushed := y.pushed + 1 }) 6
    (n.toNat ||| y.pushed <<< 8) 0 0 0 none
  rw [show (recount (recordPushed s2 ls slot y.rsize) s2.hart n.toNat _).hart = s2.hart from hh] at hdone
  exact M.bind_ok hdone
end

/-! ## What a store of the scalar side leaves to read (R199, R217, R219) -/

/-- The focus hart has stored bytes at its places: in scratch at once, and pending to other memory. -/
def stored (s : State) (vec : Bool) (ls : List Loc) (bs : List Byte) : State :=
  let s1 := if scrPairs ls bs = [] then s else s.setSlot s.hart.slotId (scratchStore (s.slot s.hart.slotId) (scrPairs ls bs))
  if physPairs ls bs = [] then s1 else
    s1.withHart { s.hart with
      sbuf := s.hart.sbuf ++ storeAt.pending vec s.hart.stores (physPairs ls bs)
      stores := s.hart.stores + (physPairs ls bs).length }

theorem dropDead_sound {s : State} {ls : List Loc} (h : ∀ l ∈ ls, LocSound s l) (author : Option Nat) (c : Nat) (t : State) :
    dropDead author c ls t = t := by
  unfold dropDead
  split
  · next hd =>
    obtain ⟨l, hl, hd⟩ := List.exists_of_findSome?_eq_some hd
    have hs := h l hl
    cases l with
    | dead a => exact hs.elim
    | phys a => cases hd
    | scr o => cases hd
  · rfl
theorem modHartNo_focus {s : State} {h : Nat} (hh : s.hart.id = h) (f : Hart → Hart) (hf : (f s.hart).id = h) :
    modHartNo h f s = .ok () (s.withHart (f s.hart)) := by
  subst hh
  unfold modHartNo
  rw [M.modify_run, if_pos (by simp), State.hartOf_self, State.setHart_focus _ _ hf]
theorem storeAt_sound {s : State} {ls : List Loc} (vec : Bool) (bs : List Byte) (hf : SpanFree s ls)
    (hs : ∀ l ∈ ls, LocSound s l) : storeAt s.hart.id vec ls bs s = .ok () (stored s vec ls bs) := by
  unfold storeAt
  unfold SpanFree at hf
  simp only [M.get_bind, State.hartOf_self, hf, Bool.false_eq_true, if_false, M.bind_ok (reportM_sound hs), dropDead_sound hs]
  unfold stored
  by_cases h1 : scrPairs ls bs = []
  · by_cases h2 : physPairs ls bs = []
    · simp only [h1, h2, ne_eq, not_true_eq_false, if_false, if_true, M.modify_bind, M.pure_run]
    · simp only [h1, h2, ne_eq, not_true_eq_false, not_false_eq_true, if_false, if_true, M.modify_bind]
      exact modHartNo_focus rfl _ (by rfl)
  · by_cases h2 : physPairs ls bs = []
    · simp only [h1, h2, ne_eq, not_true_eq_false, not_false_eq_true, if_false, if_true, M.modify_bind, M.pure_run]
    · simp only [h1, h2, ne_eq, not_false_eq_true, if_false, if_true, M.modify_bind]
      exact modHartNo_focus (s := s.setSlot s.hart.slotId _) rfl _ rfl

theorem pendLast_append (ok : Pend → Bool) (a : Nat) (ps qs : List Pend) :
    pendLast ok a (ps ++ qs) = (pendLast ok a qs).or (pendLast ok a ps) := by
  induction ps with
  | nil => simp [pendLast]
  | cons p ps ih =>
    simp only [List.cons_append, pendLast, ih]
    cases pendLast ok a qs <;> simp

/-- The byte that a store of `bs` at `ls` leaves at a place, if it is one of them. -/
def byteFor (ls : List Loc) (bs : List Byte) (l : Loc) : Option Byte := (ls.findIdx? (· == l)).map (fun i => bs.getD i 0)
theorem byteFor_cons (l l' : Loc) (ls : List Loc) (b : Byte) (bs : List Byte) :
    byteFor (l :: ls) (b :: bs) l' = if l = l' then some b else byteFor ls bs l' := by
  unfold byteFor
  rw [List.findIdx?_cons]
  by_cases h : l = l'
  · simp [h]
  · simp [h, Option.map_map, Function.comp_def]
theorem byteFor_absent {ls : List Loc} {l : Loc} (h : l ∉ ls) (bs : List Byte) : byteFor ls bs l = none := by
  have hn : ls.findIdx? (· == l) = none := List.findIdx?_eq_none_iff.2 fun x hx => by
    simp only [beq_eq_false_iff_ne]
    exact fun e => h (e ▸ hx)
  rw [byteFor, hn]
  rfl

theorem physPairs_cons (pa : Nat) (ls : List Loc) (b : Byte) (bs : List Byte) :
    physPairs (.phys pa :: ls) (b :: bs) = (pa, b) :: physPairs ls bs := rfl
/-- A store's pending bytes, read back. -/
theorem pendLast_pending (vec : Bool) (n a : Nat) {ls : List Loc} (hnd : ls.Nodup) {bs : List Byte} (hlen : bs.length = ls.length) :
    pendLast (fun _ => true) a (storeAt.pending vec n (physPairs ls bs)) = byteFor ls bs (.phys a) := by
  induction ls generalizing bs n with
  | nil => rfl
  | cons l ls ih =>
    obtain ⟨b, bs, rfl⟩ := List.exists_cons_of_length_eq_add_one (by simpa using hlen)
    obtain ⟨hl, hnd'⟩ := List.nodup_cons.1 hnd
    have hlen' : bs.length = ls.length := by simpa using hlen
    rw [byteFor_cons]
    cases l with
    | phys pa =>
      rw [physPairs_cons]
      simp only [storeAt.pending, pendLast, ih _ hnd' hlen']
      by_cases he : pa = a
      · subst he
        simp [byteFor_absent hl]
      · simp [he]
        cases byteFor ls bs (.phys a) <;> rfl
    | scr o => exact (ih n hnd' hlen').trans (if_neg nofun).symm
    | dead o => exact (ih n hnd' hlen').trans (if_neg nofun).symm
/-- Other bytes have nothing of it pending. -/
theorem pendLast_pending_other (ok : Pend → Bool) (vec : Bool) (n : Nat) {a : Nat} {ps : List (Nat × Byte)} (h : ∀ p ∈ ps, p.1 ≠ a) :
    pendLast ok a (storeAt.pending vec n ps) = none := by
  induction ps generalizing n with
  | nil => rfl
  | cons p ps ih =>
    obtain ⟨hp, hps⟩ := List.forall_mem_cons.1 h
    simp only [storeAt.pending, pendLast, ih _ hps, hp, decide_false, Bool.false_and, if_false, Bool.false_eq_true]
theorem mem_physPairs {ls : List Loc} {bs : List Byte} {p : Nat × Byte} (h : p ∈ physPairs ls bs) : .phys p.1 ∈ ls := by
  obtain ⟨⟨l, b⟩, hm, hp⟩ := List.mem_filterMap.1 h
  cases l with
  | phys pa =>
    obtain rfl := Option.some.inj hp
    exact (List.of_mem_zip hm).1
  | scr o => cases hp
  | dead o => cases hp
/-- Scratch's bytes after a store. -/
theorem mapGet_scrPairs (m : SMap Byte) (o : Nat) {ls : List Loc} (hnd : ls.Nodup) {bs : List Byte} (hlen : bs.length = ls.length) :
    mapGet unwritten ((scrPairs ls bs).foldl (fun m p => mapPut unwritten m p.1 p.2) m) o =
      (byteFor ls bs (.scr o)).getD (mapGet unwritten m o) := by
  induction ls generalizing bs m with
  | nil => rfl
  | cons l ls ih =>
    obtain ⟨b, bs, rfl⟩ := List.exists_cons_of_length_eq_add_one (by simpa using hlen)
    obtain ⟨hl, hnd'⟩ := List.nodup_cons.1 hnd
    have hlen' : bs.length = ls.length := by simpa using hlen
    rw [byteFor_cons]
    cases l with
    | scr o' =>
      refine (ih (mapPut unwritten m o' b) hnd' hlen').trans ?_
      rw [mapGet_put]
      by_cases he : o' = o
      · subst he
        simp [byteFor_absent hl]
      · simp [he, Ne.symm he]
    | phys pa => exact (ih m hnd' hlen').trans (by rw [if_neg nofun])
    | dead a => exact (ih m hnd' hlen').trans (by rw [if_neg nofun])

/-- What an ordinary read of the focus hart at FREE or DIGEST depends on, but for scratch and its own pending stores. -/
structure ReadsAlike (s t : State) : Prop where
  cores : t.cores = s.cores
  rdc : t.rdc = s.rdc
  ctxs : t.ctxs = s.ctxs
  harts : t.harts = s.harts
  mem : t.mem = s.mem
  l2 : t.l2 = s.l2
  fns : t.fns = s.fns
  poison : t.poison = s.poison
  id : t.hart.id = s.hart.id
  kin : t.hart.kin = s.hart.kin
  lastAcq : t.hart.lastAcq = s.hart.lastAcq
  ctx : ctxOf t t.hart = ctxOf s s.hart

/-- An ordinary read where no snapshot governs: the hart's own pending store, its ancestors', a cache's copy, the home's. -/
theorem locByte_phys {s : State} (hu : (s.ctx (ctxOf s s.hart)).strict = false) (side : Bool) (a : Nat) :
    locByte s s.hart side (.phys a) = ((pendLast (fun _ => true) a s.hart.sbuf).or (kinGet s a s.hart.kin)).getD
      ((cachedGet s s.hart side a).getD (s.peek a)) := by
  simp only [locByte, ordinaryByte, readByte, hu, Bool.false_eq_true, if_false, pendingGet]
  cases pendLast (fun _ => true) a s.hart.sbuf with
  | some b => rfl
  | none =>
    cases kinGet s a s.hart.kin with
    | some b => rfl
    | none => cases cachedGet s s.hart side a <;> rfl

namespace ReadsAlike

variable {s t : State} (h : ReadsAlike s t)
include h

theorem strict (hu : (s.ctx (ctxOf s s.hart)).strict = false) : (t.ctx (ctxOf t t.hart)).strict = false := by
  simp only [State.ctx, h.ctx, h.ctxs]
  exact hu
theorem cachedGet (side : Bool) (a : Nat) : cachedGet t t.hart side a = cachedGet s s.hart side a := by
  unfold Machine.cachedGet cachedLine
  simp only [h.ctx, h.lastAcq, State.core, Hart.core, h.id, h.cores, h.rdc]
  rfl
theorem kinGet {a : Nat} (hown : ∀ ok, pendLast ok a t.hart.sbuf = pendLast ok a s.hart.sbuf) (ks : List (Nat × Nat)) :
    kinGet t a ks = kinGet s a ks := by
  induction ks with
  | nil => rfl
  | cons k ks ih =>
    have hb : ∀ ok, pendLast ok a (t.hartOf k.1).sbuf = pendLast ok a (s.hartOf k.1).sbuf := fun ok => by
      simp only [State.hartOf, h.id, h.harts]
      split
      · exact hown ok
      · rfl
    simp only [Machine.kinGet, hb, ih]
theorem locByte_phys (hu : (s.ctx (ctxOf s s.hart)).strict = false) {a : Nat}
    (hown : ∀ ok, pendLast ok a t.hart.sbuf = pendLast ok a s.hart.sbuf) (side : Bool) :
    locByte t t.hart side (.phys a) = locByte s s.hart side (.phys a) := by
  rw [Machine.locByte_phys hu, Machine.locByte_phys (h.strict hu), hown, h.kin, h.kinGet hown, h.cachedGet,
    peek_congr h.fns h.l2 h.mem h.poison a]
/-- Where scratch and the pending stores stay too, every place reads alike. -/
theorem locByte (hu : (s.ctx (ctxOf s s.hart)).strict = false) (hsl : t.slots = s.slots) (hsb : t.hart.sbuf = s.hart.sbuf)
    (side : Bool) (l : Loc) : locByte t t.hart side l = locByte s s.hart side l := by
  cases l with
  | dead a => rfl
  | scr o => simp only [Machine.locByte, State.slot, Hart.slotId, hsl, h.id]
  | phys a => exact h.locByte_phys hu (fun ok => by rw [hsb]) side

end ReadsAlike

theorem stored_alike (s : State) (vec : Bool) (ls : List Loc) (bs : List Byte) : ReadsAlike s (stored s vec ls bs) := by
  unfold stored
  dsimp only
  split <;> split <;> exact ⟨rfl, rfl, rfl, rfl, rfl, rfl, rfl, rfl, rfl, rfl, rfl, rfl⟩
theorem stored_hart (s : State) (vec : Bool) (ls : List Loc) (bs : List Byte) :
    (stored s vec ls bs).hart = { s.hart with
      sbuf := s.hart.sbuf ++ storeAt.pending vec s.hart.stores (physPairs ls bs)
      stores := s.hart.stores + (physPairs ls bs).length } := by
  unfold stored
  by_cases hp : physPairs ls bs = []
  · simp only [hp, if_true, storeAt.pending, List.append_nil, List.length_nil, Nat.add_zero]
    split <;> rfl
  · simp only [hp, if_false]
    rfl
theorem stored_scratch (s : State) (vec : Bool) {ls : List Loc} (hnd : ls.Nodup) {bs : List Byte} (hlen : bs.length = ls.length)
    (o : Nat) : mapGet unwritten ((stored s vec ls bs).slot s.hart.slotId).scratch o =
      (byteFor ls bs (.scr o)).getD (mapGet unwritten (s.slot s.hart.slotId).scratch o) := by
  rw [← mapGet_scrPairs _ _ hnd hlen]
  unfold stored
  by_cases hp : scrPairs ls bs = []
  · simp only [hp, if_true, List.foldl_nil]
    split <;> rfl
  · simp only [hp, if_false]
    split <;> simp [scratchStore]
theorem stored_locByte {s : State} (hu : (s.ctx (ctxOf s s.hart)).strict = false) (vec : Bool) {ls : List Loc} (hnd : ls.Nodup)
    {bs : List Byte} (hlen : bs.length = ls.length) (hs : ∀ l ∈ ls, LocSound s l) (side : Bool) (l : Loc) :
    locByte (stored s vec ls bs) (stored s vec ls bs).hart side l = (byteFor ls bs l).getD (locByte s s.hart side l) := by
  have h := stored_alike s vec ls bs
  cases l with
  | dead a => rw [byteFor_absent (l := .dead a) fun hm => hs _ hm]; rfl
  | scr o =>
    have hid : (stored s vec ls bs).hart.slotId = s.hart.slotId := congrArg (· / 4) h.id
    simp only [locByte, hid]
    exact stored_scratch s vec hnd hlen o
  | phys a =>
    by_cases hm : .phys a ∈ ls
    · obtain ⟨b, hb⟩ : ∃ b, byteFor ls bs (.phys a) = some b := by
        cases hb : byteFor ls bs (.phys a) with
        | some b => exact ⟨b, rfl⟩
        | none =>
          rw [byteFor, Option.map_eq_none_iff, List.findIdx?_eq_none_iff] at hb
          simpa using hb _ hm
      rw [locByte_phys (h.strict hu), stored_hart, pendLast_append, pendLast_pending _ _ _ hnd hlen, hb]
      rfl
    · rw [byteFor_absent hm]
      refine h.locByte_phys hu (fun ok => ?_) side
      rw [stored_hart, pendLast_append, pendLast_pending_other ok vec _ fun p hp he => hm (by rw [← he]; exact mem_physPairs hp)]
      rfl

/-! ## QPOP (R32, R33, R394, R395) -/

theorem qpopM_illegal {s : State} {d a : BitVec 6} {n : BitVec 4}
    (h : ((s.launch s.hart.launch).stage s.hart.stage).inq ≠ some n.toNat) :
    qpopM d a n s = .error (.trap .illegalOp .read ((encode (.qpop d a n)).zeroExtend 64)) s := by
  simp only [qpopM, M.hart_bind, M.get_bind, if_pos h]
  rfl

theorem foldM_run (s : State) (va : Nat) (bs : List Byte) :
    foldM s.hart.id va bs s = .ok () (s.withHart (foldedHart s va bs)) := by
  unfold foldM foldedHart
  simp only [M.ctxM_bind, M.hartNo_bind, State.hartOf_self]
  split
  · next h =>
    rw [if_pos (by simpa using h)]
    rfl
  · next h =>
    rw [if_neg (by simpa using h)]
    exact modHartNo_focus rfl _ rfl
theorem foldedHart_eq (s : State) (va : Nat) (bs : List Byte) : ∃ dg, foldedHart s va bs = { s.hart with digest := dg } := by
  unfold foldedHart
  dsimp only
  split
  · exact ⟨s.hart.digest, rfl⟩
  · exact ⟨_, rfl⟩

section
variable {s s1 s2 : State} {d a : BitVec 6} {n : BitVec 4} {ls : List Loc} {fs : List (Nat × Nat)} {slot : Nat}
  (hin : ((s.launch s.hart.launch).stage s.hart.stage).inq = some n.toNat) (hal : (s.hart.rs a).toNat % 16 = 0)
  (hloc : locateN s.hart.id (s.hart.rs a).toNat ((s.launch s.hart.launch).queue n.toNat).rsize .write false s = .ok (ls, fs) s1)
  (hx : s1.hart = s.hart) (hu : Unlogged s1) (hf : SpanFree s1 ls) (hst : s.hart.sticky = none)
include hin hal hloc hx hu hf hst

/-- An empty open queue: the hart parks, and since when it waits is kept (R287, R395). -/
theorem qpopM_empty (hl : s1.launch s.hart.launch = s.launch s.hart.launch)
    (he : ((s.launch s.hart.launch).queue n.toNat).pushed ≤ ((s.launch s.hart.launch).queue n.toNat).taken)
    (ho : ((s.launch s.hart.launch).queue n.toNat).closed = false) :
    qpopM d a n s = .error (.park (.qpop n.toNat)) (s1.withHart { s.hart with popSince := some (s.hart.popSince.getD s1.cycle) }) := by
  have hfree := scratchFree_spanFree hf
  have hlog := logCheckIn_unlogged hu 7 n.toNat 0xFF 0 0
  rw [hx] at hfree hlog
  simp only [qpopM, M.hart_bind, M.get_bind, hin, hal, ne_eq, not_true_eq_false, if_false, M.bind_ok hloc, M.bind_ok hfree,
    M.bind_ok hlog]
  refine M.bind_error ?_
  simp only [popStatus, hst, Nat.not_lt.2 he, ho, if_false, M.get_bind, M.modHart_bind, M.throw_run, hx, hl, hin, Option.getD_some,
    Bool.false_eq_true]
/-- The end of a closed, empty queue (R395). -/
theorem qpopM_end (he : ((s.launch s.hart.launch).queue n.toNat).pushed ≤ ((s.launch s.hart.launch).queue n.toNat).taken)
    (ho : ((s.launch s.hart.launch).queue n.toNat).closed = true) :
    qpopM d a n s = .ok () ((s1.withHart { s.hart with popSince := none, sticky := some 2 }).result d 2) := by
  have hfree := scratchFree_spanFree hf
  have hlog := logCheckIn_unlogged hu 7 n.toNat 0xFF 0 0
  have hdone := logDone_unlogged (s := s1.withHart { s1.hart with popSince := none, sticky := some 2 }) hu 7 (n.toNat ||| 0) 2 0 0 none
  rw [hx] at hfree hlog hdone
  have hstat : popStatus s.hart ((s.launch s.hart.launch).queue n.toNat) none s1 = .ok 2 s1 := by
    simp only [popStatus, hst, Nat.not_lt.2 he, ho, if_false, if_true, M.pure_run]
  simp only [qpopM, M.hart_bind, M.get_bind, hin, hal, ne_eq, not_true_eq_false, if_false, M.bind_ok hloc, M.bind_ok hfree,
    M.bind_ok hlog, M.bind_ok hstat, if_neg (show ¬ (2 : Nat) = 0 by decide), M.modHart_bind, hx]
  exact M.bind_ok hdone
/-- A record: it is stored at the destination, and is no longer the queue's (R33, R394). -/
theorem qpopM_record (hr : ((s.launch s.hart.launch).queue n.toNat).taken < ((s.launch s.hart.launch).queue n.toNat).pushed)
    (hslot : slotLoc s.hart.id (((s.launch s.hart.launch).queue n.toNat).slotVa ((s.launch s.hart.launch).queue n.toNat).taken)
      .read s1 = .ok (.phys slot) s2) (hx2 : s2.hart = s.hart) (hu2 : Unlogged s2) (hs : ∀ l ∈ ls, LocSound s2 l)
    (hf2 : SpanFree s2 ls) (hsnd : Sound s2 slot ((s.launch s.hart.launch).queue n.toNat).rsize) :
    let v := stored s2 false ls (s2.peekBytes slot ((s.launch s.hart.launch).queue n.toNat).rsize)
    ∃ x dg, x = { v.hart with digest := dg } ∧ qpopM d a n s = .ok () (State.result
      ((recount (v.withHart x) s.hart n.toNat fun y => { y with taken := ((s.launch s.hart.launch).queue n.toNat).taken + 1 }).withHart
        { x with popSince := none }) d 0) := by
  intro v
  have hfree := scratchFree_spanFree hf
  have hlog := logCheckIn_unlogged hu 7 n.toNat 0xFF 0 0
  rw [hx] at hfree hlog
  have hstat : popStatus s.hart ((s.launch s.hart.launch).queue n.toNat) none s1 = .ok 0 s1 := by
    simp only [popStatus, hst, hr, if_true, M.pure_run]
  simp only [qpopM, M.hart_bind, M.get_bind, hin, hal, ne_eq, not_true_eq_false, if_false, M.bind_ok hloc, M.bind_ok hfree,
    M.bind_ok hlog, M.bind_ok hstat, if_true, M.bind_ok hslot, places_eq_map]
  generalize hy : (s.launch s.hart.launch).queue n.toNat = y at *
  have halike : ReadsAlike s2 v := stored_alike s2 false ls _
  have hfold := foldM_run v (s2.hart.rs a).toNat (s2.peekBytes slot y.rsize)
  have hstore : storeAt s2.hart.id false ls (s2.peekBytes slot y.rsize) s2 = .ok () v := hy ▸ storeAt_sound false _ hf2 hs
  obtain ⟨dg, hdg⟩ := foldedHart_eq v (s2.hart.rs a).toNat (s2.peekBytes slot y.rsize)
  have hu3 : Unlogged (v.withHart (foldedHart v (s2.hart.rs a).toNat (s2.peekBytes slot y.rsize))) := by
    rw [hdg]
    change (v.ctx (ctxOf v v.hart)).level = .free ∨ (v.ctx (ctxOf v v.hart)).level = .digest
    simp only [halike.ctx, State.ctx, halike.ctxs]
    exact hu2
  rw [halike.id] at hfold
  clear_value v
  generalize foldedHart v (s2.hart.rs a).toNat (s2.peekBytes slot y.rsize) = x at *
  refine ⟨x, dg, hdg, ?_⟩
  rw [← hx2]
  rw [show (places slot y.rsize).map (locByteHome s2 s2.hart) = s2.peekBytes slot y.rsize from by
    simp only [places, List.map_map]; rfl]
  have hu4 := hu3.recount s2.hart n.toNat fun z => { z with taken := y.taken + 1 }
  have hdone := logDone_unlogged (s := (recount (v.withHart x) s2.hart n.toNat fun z => { z with taken := y.taken + 1 }).withHart
    { x with popSince := none }) hu4 7 (n.toNat ||| y.taken <<< 8) 0 0 0 none
  rw [show (State.withHart _ { x with popSince := none }).hart.id = s2.hart.id from (by rw [hdg]; exact halike.id)] at hdone
  simp only [M.bind_ok hstore, M.bind_ok hfold, badGranules_sound hsnd, not_true_eq_false, if_false, M.modify_bind, M.modHart_bind]
  exact M.bind_ok hdone
end

theorem storedByte_once (ls : List Loc) (bs : List Byte) (l : Loc) (old : Byte) :
    storedByte (fun _ => ls) (fun _ => bs) l old [0] = (byteFor ls bs l).getD old := by
  unfold storedByte byteFor
  simp only [List.foldl_cons, List.foldl_nil]
  cases ls.findIdx? (· == l) <;> rfl
theorem stored_launches (s : State) (vec : Bool) (ls : List Loc) (bs : List Byte) : (stored s vec ls bs).launches = s.launches := by
  unfold stored
  dsimp only
  split <;> split <;> rfl

/-- What a push leaves. -/
theorem pushed_outcome {s : State} {ls : List Loc} {n : Nat} (hlen : ls.length = n) (slot q : Nat) (f : LQueue → LQueue) :
    let t := (recount (recordPushed s ls slot n) s.hart q f).advance
    t.launch s.hart.launch = (s.launch s.hart.launch).setQueue q (f ((s.launch s.hart.launch).queue q)) ∧
    ((∀ i < n, devBacked (slot + i) = true) →
      ∀ p, fnAddr p = 0 → t.peek p = byteAfter slot (ls.map (locByte s s.hart false)) p (s.peek p)) ∧
    t.hart = { s.hart with pc := s.hart.pc + 4 } := by
  refine ⟨?_, fun hb p hp => ?_, ?_⟩
  · refine (recount_launch _ _ _ _).trans ?_
    rw [recordPushed_launch]
  · rw [← recordPushed_peek hlen hb hp]
    simp only [State.advance, State.goto, recount, State.withHart_peek_same, State.setLaunch_peek_same]
  · have hh := recordPushed_hart s ls slot n
    exact congrArg (fun z : Hart => { z with pc := z.pc + 4 }) hh
theorem rs_setS_zero (h : Hart) (d r : BitVec 6) : (h.setS d 0).rs r = if r = d ∧ d ≠ 0 then 0 else h.rs r := by
  rw [Hart.rs_setS]
  by_cases hr : r = d
  · subst hr
    by_cases h0 : r = 0
    · simp [h0, Hart.rs]
    · simp only [if_true, ne_eq, not_false_eq_true, and_self, h0, if_false]
  · rw [if_neg hr, if_neg fun h => hr h.1]
/-- What a pop of a record leaves once its bytes are stored. -/
theorem popped_outcome {v : State} {x : Hart} {dg : Word} (hx : x = { v.hart with digest := dg })
    (hv : (v.ctx (ctxOf v v.hart)).strict = false) (q : Nat) (f : LQueue → LQueue) (d : BitVec 6) :
    let t := State.result ((recount (v.withHart x) v.hart q f).withHart { x with popSince := none }) d 0
    t.launch v.hart.launch = (v.launch v.hart.launch).setQueue q (f ((v.launch v.hart.launch).queue q)) ∧
    (∀ side l, locByte t t.hart side l = locByte v v.hart side l) ∧
    (∀ r, t.hart.rs r = if r = d ∧ d ≠ 0 then 0 else v.hart.rs r) ∧ t.hart.pc = v.hart.pc + 4 ∧ ∀ p, t.peek p = v.peek p := by
  subst hx
  intro t
  have hsb : t.hart.sbuf = v.hart.sbuf := Hart.setS_sbuf _ _ _
  have hl : t.hart.launch = v.hart.launch := Hart.setS_launch _ _ _
  have halike : ReadsAlike v t := by
    refine ⟨rfl, rfl, rfl, rfl, rfl, rfl, rfl, rfl, Hart.setS_id _ _ _, Hart.setS_kin _ _ _, Hart.setS_lastAcq _ _ _, ?_⟩
    refine (congrArg (fun k => (t.launch k).ctx) hl).trans ?_
    exact recount_ctxOf (v.withHart _) v.hart q f v.hart
  exact ⟨recount_launch _ _ _ _, halike.locByte hv rfl hsb, rs_setS_zero _ d, congrArg (· + 4) (Hart.setS_pc _ _ _),
    peek_congr rfl rfl rfl rfl⟩

/-- What a pop of a record leaves. -/
theorem popped_record {s : State} {ls : List Loc} {bs : List Byte} {x : Hart} {dg : Word} (hu : Unlogged s) (hnd : ls.Nodup)
    (hlen : bs.length = ls.length) (hs : ∀ l ∈ ls, LocSound s l) (hx : x = { (stored s false ls bs).hart with digest := dg })
    (q : Nat) (f : LQueue → LQueue) (d : BitVec 6) :
    let t := State.result ((recount ((stored s false ls bs).withHart x) s.hart q f).withHart { x with popSince := none }) d 0
    t.launch s.hart.launch = (s.launch s.hart.launch).setQueue q (f ((s.launch s.hart.launch).queue q)) ∧
    (∀ side l, locByte t t.hart side l = storedByte (fun _ => ls) (fun _ => bs) l (locByte s s.hart side l) [0]) ∧
    (∀ r, t.hart.rs r = if r = d ∧ d ≠ 0 then 0 else s.hart.rs r) ∧ t.hart.pc = s.hart.pc + 4 ∧ ∀ p, t.peek p = s.peek p := by
  have halike := stored_alike s false ls bs
  have hu' := not_strict_of_unlogged hu
  have hbytes := stored_locByte hu' false hnd hlen hs
  have hhart := stored_hart s false ls bs
  have hlaunch := congrArg (mapGet Launch.initial · s.hart.launch) (stored_launches s false ls bs)
  have hpeek := peek_congr halike.fns halike.l2 halike.mem halike.poison
  have hstrict := halike.strict hu'
  generalize stored s false ls bs = v at *
  have hl : v.hart.launch = s.hart.launch := by rw [hhart]
  obtain ⟨hc, hb, hr, hpc, hp⟩ := popped_outcome hx hstrict q f d
  intro t
  have ht : t = State.result ((recount (v.withHart x) v.hart q f).withHart { x with popSince := none }) d 0 := by
    simp only [t, recount, hl]
  rw [ht]
  refine ⟨?_, fun side l => ?_, fun r => ?_, ?_, fun p => (hp p).trans (hpeek p)⟩
  · rw [← hl, hc, hl]
    exact congrArg (fun l : Launch => l.setQueue q (f (l.queue q))) hlaunch
  · rw [hb, hbytes, storedByte_once]
  · rw [hr, hhart]
    rfl
  · rw [hpc, hhart]

/-- Settles O45: at FREE and DIGEST no record of a log is due, and poison that comes with a record touches no byte. -/
theorem launchQueues : Obligations.LaunchQueues := by
  unfold Obligations.LaunchQueues
  intro s s1 s2 d a n ls fs slot
  extract_lets h va q l y illegal slotFor countIs
  intro hu hx hl hx2 hl2 hu2
  refine ⟨fun hne => scalar_trap (qpushM_illegal hne), fun hne => scalar_trap (qpopM_illegal hne), ?_, ?_⟩
  · intro hout hal hloc hf hlen hq
    refine ⟨fun hcap hslot hs hsnd hb => ⟨_, scalar_ok (qpushM_room hout hal hloc hx hu hf hcap hslot hx2 hu2 hs), ?_⟩,
      fun hcap => ⟨_, scalar_park (qpushM_full hout hal hloc hx hu hf hcap), rfl⟩⟩
    obtain ⟨hcount, hpeek, hhart⟩ := pushed_outcome hlen slot q fun z => { z with pushed := y.pushed + 1 }
    rw [hx2, hl2] at hcount
    rw [hx2] at hpeek hhart
    exact ⟨hcount, hpeek hb, hhart⟩
  · intro hin hal hloc hf hlen hst hq
    refine ⟨fun hr hslot hs hf2 hnd hsnd => ?_, fun he ho => ⟨_, scalar_ok (qpopM_end hin hal hloc hx hu hf hst he ho), ?_⟩,
      fun he ho _ => ⟨_, scalar_park (qpopM_empty hin hal hloc hx hu hf hst hl he ho), rfl⟩⟩
    · obtain ⟨x, dg, hx3, hrun⟩ := qpopM_record (d := d) hin hal hloc hx hu hf hst hr hslot hx2 hu2 hs hf2 hsnd
      have hlen' : (s2.peekBytes slot y.rsize).length = ls.length := by simp [State.peekBytes, hlen]
      obtain ⟨hcount, hrest⟩ := popped_record hu2 hnd hlen' hs hx3 q (fun z => { z with taken := y.taken + 1 }) d
      rw [hx2, hl2] at hcount
      rw [hx2] at hrest
      exact ⟨_, scalar_ok hrun, hcount, hrest⟩
    · exact State.result_writes _ d 2

end Sys2Proof.Machine
end

section
/-! JOIN where parent and child both have a store to one byte that is not yet home (R40, R218). -/

namespace Sys2Proof.Machine

/-- A hart with one pending store, of `b`, to the byte at 0x120000. -/
def storing (h : Hart) (b : Byte) : Hart := { h with sbuf := [⟨0, false, 0x120000, b, none⟩], stores := 1 }
/-- A parent and its child, which has ended; the parent's store came before the FORK, and the child's own came after it. -/
def joining (r : Run) : State :=
  { State.reset with
    hart := { storing bootHart 1 with children := [1], run := r }
    harts := [(1, { storing bootHart 2 with id := 1, parent := some 0, ended := true, run := .stopped, kin := [(0, 1)] })]
    slots := [(0, { Slot.initial with holder := some 0 })]
    ctxs := [(0, bootCtx)]
    launches := [(0, bootLaunch)] }

/-- The child's store goes home as it leaves, and takes the parent's older one to the same byte with it. -/
theorem joining_join : (runScalar joinM (joining .running)).hart.sbuf.isEmpty = true := by decide +kernel
theorem joining_wake : ((wakeWith 0 (absorbM 0) (joining (.parked .join))).hartOf 0).sbuf.isEmpty = true := by decide +kernel

/-- Refutes O44: its JOIN clause keeps every pending store of the parent, but says nothing of the child's. In `joining`, which
no run reaches (a child that ends has released its stores) but the statement does not rule out, a store of the ended child is
still pending; it reaches home as the child leaves, and the parent's older store to the same byte before it (R40, R218). -/
theorem not_hartsForkAndEnd : ¬ Obligations.HartsForkAndEnd := by
  unfold Obligations.HartsForkAndEnd
  rintro ⟨-, h⟩
  obtain ⟨hjoin, -⟩ := h (joining .running) 1 0 [] (.inl rfl) rfl rfl
  obtain ⟨hended, -⟩ := hjoin rfl rfl rfl (by decide) rfl
  obtain ⟨t, ht, hhart, -⟩ := hended rfl
  obtain rfl : runScalar joinM (joining .running) = t := Host.Outcome.next.inj ht
  have hkept : (runScalar joinM (joining .running)).hart.sbuf.isEmpty = false := by
    rw [hhart]
    rfl
  exact absurd joining_join (by rw [hkept]; exact Bool.false_ne_true)

/-- Refutes O46: its JOIN clause keeps every pending store of the parent that wakes, as `not_hartsForkAndEnd` says of the JOIN
that does not park; the state is the same but for the parent, which is parked in JOIN. -/
theorem not_parkedHartsWake : ¬ Obligations.ParkedHartsWake := by
  unfold Obligations.ParkedHartsWake
  rintro ⟨h, -⟩
  obtain ⟨-, -, -, -, -, hjoin⟩ := h (joining (.parked .join)) 0 rfl rfl
  obtain ⟨hended, -⟩ := hjoin 1 [] rfl rfl (.inl rfl) rfl rfl (by decide) rfl
  obtain ⟨t, ht, hhart, -⟩ := hended rfl
  obtain rfl : wakeWith 0 (absorbM 0) (joining (.parked .join)) = t := Host.Outcome.next.inj ht
  have hkept : ((wakeWith 0 (absorbM 0) (joining (.parked .join))).hartOf 0).sbuf.isEmpty = false := by
    rw [hhart]
    rfl
  exact absurd joining_wake (by rw [hkept]; exact Bool.false_ne_true)

end Sys2Proof.Machine
end

section
/-! INVAL_S1 over a map of slots that lists one slot twice (R249). -/

namespace Sys2Proof.Machine

/-- A fill of the one byte at 0x100100, which its translation puts at 0x120100, with 1. -/
def byteFill : EngOp where
  n := 1
  kind := .xfill
  hart := 0
  counter := 0
  src := []
  dst := leBytes 8 0x100100 ++ [0, 1, 0, 0] ++ leBytes 4 1 ++ List.replicate 48 0
  arg := 1
  fn5 := 0
  wb := 0
  fmt := 0
  gs := 0
  depth := 0
  bad := false
  idx := []
  srcPages := []
  dstPages := [(0x100100, 0x120100)]
  acq := 0
  seq := 0
  span := none
  next := 0
  home := 0
  done := false
  fold := 0
/-- Slot 0 as context 1 holds it, with the fill in flight, and once more as context 0 holds it, with the fill done: the first
entry is the one that a read of the slot finds. -/
def slotTwice : State :=
  { State.reset with
    frozen := false
    pilot := none
    ctxs := [(0, bootCtx)]
    slots := [(0, { Slot.initial with holder := some 1, ops := [byteFill] }),
      (0, { Slot.initial with holder := some 0, ops := [{ byteFill with done := true }] })] }

/-- The done operation of context 0 has the fill of context 1 performed, and its byte is stored. -/
theorem slotTwice_stores : (command 0 true false (invalS1 0 0 0 1) slotTwice).l2.isEmpty = false := by decide +kernel

/-- Refutes O49: its clause on an INVAL_S1 that finds all of its context's operations done says that no byte is stored. In
`slotTwice`, a state whose map of slots is not canonical (no run makes one, but the statement does not rule it out), a done
operation of the context stands behind an entry of the same slot for another context, whose operation of the same number
is in flight and is performed instead. -/
theorem not_contextCommands : ¬ Obligations.ContextCommands := by
  unfold Obligations.ContextCommands
  intro h
  obtain ⟨-, -, hlit⟩ := h slotTwice 0 0 0 0 1 []
  obtain ⟨-, hlive⟩ := hlit rfl rfl rfl (by decide)
  obtain ⟨-, -, hinval⟩ := hlive (by decide) rfl
  obtain ⟨hdone, -⟩ := hinval rfl
  obtain ⟨t, ht, -, -, hstores⟩ := hdone (by decide +kernel)
  obtain rfl : command 0 true false (invalS1 0 0 0 1) slotTwice = t := Host.Outcome.next.inj ht
  obtain ⟨-, hl2, -⟩ := hstores (by decide +kernel)
  exact absurd slotTwice_stores (by rw [hl2]; exact Bool.noConfusion)

end Sys2Proof.Machine
end

section
/-! Where a vector instruction does not run at once (R60, R106, R245 to R247, R261, R264, R265). -/

namespace Sys2Proof.Machine

/-! ## Issue (R60, R261, R264) -/

section
variable {s : State} {i : Instr} {m : Cap → M Unit}

theorem vecIssue_frozen (hf : s.hart.frozen = true) : vecIssue i m s = .next (illegalHere i s) := if_pos hf
theorem vecIssue_full (hf : s.hart.frozen = false) (hq : Config.queueDepth ≤ s.hart.queue.length) :
    vecIssue i m s = .next (s.withHart { s.hart with run := .waiting }) := by
  unfold vecIssue
  simp only [hf, Bool.false_eq_true, if_false, if_pos hq]
theorem vecIssue_behind (hf : s.hart.frozen = false) (hq : s.hart.queue.length < Config.queueDepth)
    (hb : s.hart.queue ≠ [] ∨ s.ahead = true) :
    vecIssue i m s = .next (s.withHart { s.hart.enqueue s.hart.pc (encode i) (capOf i s.hart).1 (capOf i s.hart).2 [] with
      pc := s.hart.pc + 4 }) := by
  have hrun : (s.hart.queue.isEmpty && !s.ahead) = false := by
    rcases hb with hb | hb <;> simp [hb]
  unfold vecIssue
  simp only [hf, Bool.false_eq_true, if_false, Nat.not_le.2 hq, hrun]

end

/-- What changed VL and VTYPE goes into the queue with the entry it stands before, where nothing older is due (R405). -/
theorem Hart.enqueue_sets {h : Hart} (pc : Word) (w : BitVec 32) (op1 op2 : Word) (frame : List (BitVec 32))
    (hq : ∀ p ∈ h.queue.head?, p.sets = []) (hs : h.queue = [] → h.sets = []) :
    h.enqueue pc w op1 op2 frame = { h with queue := h.queue ++ [⟨pc, w, op1, op2, h.sets, frame, h.note⟩], sets := [] } := by
  unfold Hart.enqueue Hart.settle
  cases hh : h.queue with
  | nil => exact if_pos (hs hh)
  | cons p q =>
    rw [hh] at hq
    exact if_pos (hq p rfl)

/-! ## Checks at dispatch (R106, R265) -/

theorem refuse_run {α : Type} (i : Instr) (s : State) : (refuse i : M α) s =
    .error (.trap .illegalOp .read ((encode i).zeroExtend 64)) (s.withHart { s.hart with vstart := 0 }) := rfl
/-- An instruction not stopped inside has nothing to take back (R63). -/
theorem Hart.unpart_fresh {h : Hart} (hp : h.part = none) : h.unpart = h := by rw [Hart.unpart, hp]
theorem squash_run {α : Type} (v : Word) {s : State} (hp : s.hart.part = none) :
    (squash v : M α) s = .error (.trap .poison .read v) (s.withHart { s.hart with vstart := 0 }) := by
  unfold squash
  rw [M.modHart_bind, Hart.unpart_fresh hp]
  rfl
/-- A due element is active, and below VL but not VSTART (R57, R59). -/
theorem due_active {h : Hart} {k : BitVec 4} {n : Nat} (hn : h.due k n = true) :
    h.active k n = true ∧ n < h.vl ∧ h.vstart ≤ n := by
  simp only [Hart.due, Bool.and_eq_true, decide_eq_true_eq] at hn
  have ha := hn.1
  simp only [Hart.active, Bool.and_eq_true, decide_eq_true_eq] at ha
  exact ⟨hn.1, ha.1, hn.2⟩
/-- A due element that is poisoned squashes the instruction that consumes its register. -/
theorem consume_bad {k : BitVec 4} {rs : List (Nat × Nat)} {s : State} {p : Nat × Nat} {n : Nat} (hp : p ∈ rs)
    (hn : s.hart.due k n = true) (hb : s.hart.elemBad p.1 p.2 n = true) : consume k rs s = squash poisonReg s := by
  have hv : s.hart.vpr p.1 ≠ 0 := fun h0 => by
    rw [elemBad_zero _ _ _ _ h0] at hb
    exact Bool.false_ne_true hb
  obtain ⟨-, hl, -⟩ := due_active hn
  unfold consume
  rw [M.hart_bind, if_pos]
  refine List.any_eq_true.2 ⟨p, hp, ?_⟩
  rw [Bool.and_eq_true, bne_iff_ne]
  exact ⟨hv, List.any_eq_true.2 ⟨n, List.mem_range.2 hl, by rw [hn, hb]; rfl⟩⟩

section
variable {i : Instr} {ok : ET → Bool} {d a b : BitVec 6} {k : BitVec 4} {z f : BitVec 1}
  {op : ET → Frm → Nat → Nat → Nat × Flags} {c : Cap} {s : State}

theorem binaryM_refuses (h : ok s.hart.et = false) : binaryM i ok d a b k z f op c s = refuse i s := by
  unfold binaryM
  rw [M.hart_bind, h]
  rfl
theorem binaryM_poisoned {n : Nat} (h : ok s.hart.et = true) (hn : s.hart.due k n = true)
    (hb : s.hart.elemBad a.toNat s.hart.et.bytes n = true) (hp : s.hart.part = none) :
    binaryM i ok d a b k z f op c s = .error (.trap .poison .read poisonReg) (s.withHart { s.hart with vstart := 0 }) := by
  unfold binaryM
  rw [M.hart_bind, if_neg (by rw [h]; exact Bool.false_ne_true)]
  refine M.bind_error ?_
  rw [consume_bad (p := (a.toNat, s.hart.et.bytes)) (by split <;> simp) hn hb]
  exact squash_run _ hp

end

/-! ## The run-ahead check of raw elements (R245, R431) -/

/-- An access to scratch goes there, but for a fetch (R199). -/
theorem locate_scratch {s : State} {va o : Nat} {k : Kind} (strong : Bool)
    (ho : scratchOff (s.ctx (ctxOf s s.hart)) va = some o) (hk : k ≠ .exec) :
    locate s.hart.id va va k strong s = .ok ⟨.scr o, 0, 0⟩ s := by
  have hg : locateGpa s.hart.id va va k strong s = .ok ⟨.scr o, 0, 0⟩ s := by
    unfold locateGpa
    simp only [M.ctxM_bind, State.hartOf_self, ho]
    rw [if_neg hk]
    rfl
  unfold locate
  rw [M.bind_ok hg]
  rfl
/-- The places of an unhindered access (R199, R245). -/
theorem locateN_reaches {s : State} {va n f : Nat} {k : Kind} {ls : List Loc} (strong : Bool) (h : Reaches s va n k ls f) :
    ∃ fs, locateN s.hart.id va n k strong s = .ok (ls, fs) s := by
  rcases h with ⟨o, ho, hn, hk, rfl, -⟩ | ⟨pa, hm, hn, rfl, -⟩
  · refine ⟨[(0, 0)], ?_⟩
    unfold locateN
    rw [M.bind_ok (locate_scratch strong ho hk)]
    dsimp only
    rw [if_neg (by omega)]
    rfl
  · exact locateN_mapped hm (by omega)

section
variable {s : State} {m : BitVec 2} {a b : BitVec 6} {ls : Nat → List Loc} {c : Cap}

/-- An entry has the scalars of an access with it. -/
def Cap.Addresses (c : Cap) (s : State) (m : BitVec 2) (a b : BitVec 6) : Prop :=
  c.op1 = s.rs a ∧ c.op2 = if m = 1 then s.rs b else 0

theorem vaddr_elementVa (hc : c.Addresses s m a b) (w n : Nat) : vaddr s.hart c m b w n = elementVa s m a b w n := by
  obtain ⟨h1, h2⟩ := hc
  unfold vaddr elementVa
  rw [h1, h2]
  match m with
  | 0 => rfl
  | 1 => rfl
  | 2 => rfl
  | 3 => rfl

theorem memWidth_raw (s : State) (pf : Nat) : memWidth s true pf = s.hart.et.bytes := rfl
/-- A raw element that reaches its places passes the check. -/
theorem placeOne_reaches {kd : Kind} {pf n : Nat} (h : ElementReaches s m a b kd true pf ls n) (ref : Nat) :
    placeOne s.hart.id (elementVa s m a b s.hart.et.bytes n) s.hart.et.bytes kd true ref false false s = .ok (ls n) s := by
  obtain ⟨ha, -, -, f, hr, -⟩ := h
  rw [memWidth_raw] at ha hr
  obtain ⟨fs, hl⟩ := locateN_reaches false hr
  unfold placeOne
  rw [if_neg (not_not_intro ha)]
  exact M.bind_ok hl
theorem placeOne_misaligned {h va w ref : Nat} {kd : Kind} {raw strong drop : Bool} (ha : va % w ≠ 0) :
    placeOne h va w kd raw ref strong drop s = .error (.trap .align kd (BitVec.ofNat 64 va)) s := by
  unfold placeOne
  rw [if_pos ha]
  rfl

end

section
variable {ff : Bool} {addr : Nat → Nat} {one : Nat → M (List Loc)} {s : State}

/-- Elements that pass the check come before what the check finds of those above them. -/
theorem placeAll_append {ls : Nat → List Loc} {xs ys : List Nat} {r : List (Nat × Nat × List Loc)}
    {e : Option (Nat × Stop)} (hx : ∀ n ∈ xs, one (addr n) s = .ok (ls n) s)
    (hy : placeAll ff addr one ys s = .ok (r, e) s) :
    placeAll ff addr one (xs ++ ys) s = .ok (xs.map (fun n => (n, addr n, ls n)) ++ r, e) s := by
  induction xs with
  | nil => exact hy
  | cons n xs ih =>
    have ih := ih fun n hn => hx n (List.mem_cons_of_mem _ hn)
    show placeAll ff addr one (n :: (xs ++ ys)) s = _
    unfold placeAll
    rw [M.get_bind, attempt_bind, hx n (List.mem_cons_self ..)]
    exact M.bind_ok ih
/-- The check stops at the first element that traps. -/
theorem placeAll_trap {i : Nat} {ys : List Nat} {x : Cause} {k : Kind} {v : Word} (h : one (addr i) s = .error (.trap x k v) s) :
    placeAll ff addr one (i :: ys) s = .ok ([], some (i, .trap x k v)) s := by
  unfold placeAll
  rw [M.get_bind, attempt_bind, h]
  rfl

end

/-- The indices of which a condition holds, about one of them. -/
theorem indices_split {p : Nat → Bool} {i n : Nat} (hp : p i = true) (hi : i < n) :
    ∃ ys, indices p n = indices p i ++ i :: ys := by
  obtain ⟨r, rfl⟩ : ∃ r, n = i + (1 + r) := ⟨n - i - 1, by omega⟩
  refine ⟨((List.range r).map (fun j => i + (1 + j))).filter p, ?_⟩
  unfold indices
  rw [List.range_add, List.filter_append, List.range_add]
  simp [hp, Function.comp_def]
theorem mem_indices {p : Nat → Bool} {n j : Nat} : j ∈ indices p n ↔ j < n ∧ p j = true := by
  unfold indices
  rw [List.mem_filter, List.mem_range]

section
variable {s : State} {d a b : BitVec 6} {k : BitVec 4} {z : BitVec 1} {m : BitVec 2} {ls : Nat → List Loc} {c : Cap} {i : Nat}

/-- The due elements below `i` with their addresses and places, as the check of a raw access gives them. -/
def placedBelow (s : State) (k : BitVec 4) (m : BitVec 2) (a b : BitVec 6) (ls : Nat → List Loc) (i : Nat) :
    List (Nat × Nat × List Loc) :=
  (indices (s.hart.due k) i).map (fun n => (n, elementVa s m a b s.hart.et.bytes n, ls n))
theorem forall_placedBelow {P : Nat × Nat × List Loc → Prop} (h : ∀ n < i, s.hart.due k n = true →
    P (n, elementVa s m a b s.hart.et.bytes n, ls n)) : ∀ p ∈ placedBelow s k m a b ls i, P p := by
  intro p hp
  obtain ⟨n, hn, rfl⟩ := List.mem_map.1 hp
  exact h n (mem_indices.1 hn).1 (mem_indices.1 hn).2

/-- A raw access with an active element, and without the discard hint, checks its due elements alone. -/
theorem vmemPlaces_raw (c : Cap) (ff : Bool) (kd : Kind) (hm : m = 2 → Clean s k b)
    (hact : ∃ n < s.hart.vl, s.hart.active k n = true) :
    vmemPlaces c k m b true ff false kd s =
      (placeAll ff (vaddr s.hart c m b s.hart.et.bytes)
        (fun a => placeOne s.hart.id a s.hart.et.bytes kd true 0 false false) (indices (s.hart.due k) s.hart.vl) >>=
        fun r => pure (none, r)) s := by
  obtain ⟨n, hn, ha⟩ := hact
  obtain ⟨i0, hi0⟩ : ∃ i0, (indices (s.hart.active k) s.hart.vl).head? = some i0 :=
    Option.isSome_iff_exists.1 (List.isSome_head?.2 (List.ne_nil_of_mem (mem_indices.2 ⟨hn, ha⟩)))
  have hdue : (indices (s.hart.due k) s.hart.vl).filter (fun i => m != 2 || !(s.hart.elemBad b.toNat s.hart.et.bytes i)) =
      indices (s.hart.due k) s.hart.vl := by
    refine List.filter_eq_self.2 fun n hn => ?_
    by_cases h2 : m = 2
    · simp [hm h2 n (mem_indices.1 hn).2]
    · rw [bne_iff_ne.2 h2, Bool.true_or]
  unfold vmemPlaces
  simp only [M.hart_bind, hi0, hdue, Bool.not_true, Bool.and_false, Bool.false_and, Bool.false_eq_true, if_false, if_true,
    M.pure_bind_run, List.contains_nil, Bool.or_self]

/-- A raw access of due elements that reach their places, up to one that is misaligned. -/
theorem vmemPlaces_misaligned (ff : Bool) (kd : Kind) (hc : c.Addresses s m a b) (hm : m = 2 → Clean s k b)
    (hi : s.hart.due k i = true) (ha : elementVa s m a b s.hart.et.bytes i % s.hart.et.bytes ≠ 0)
    (hl : ∀ n < i, s.hart.due k n = true → ElementReaches s m a b kd true 0 ls n) :
    vmemPlaces c k m b true ff false kd s = .ok (none, placedBelow s k m a b ls i,
      some (i, .trap .align kd (BitVec.ofNat 64 (elementVa s m a b s.hart.et.bytes i)))) s := by
  obtain ⟨hact, hvl, -⟩ := due_active hi
  obtain ⟨ys, hys⟩ := indices_split hi hvl
  have hbelow : ∀ n ∈ indices (s.hart.due k) i, placeOne s.hart.id (elementVa s m a b s.hart.et.bytes n) s.hart.et.bytes kd
      true 0 false false s = .ok (ls n) s := fun n hn =>
    placeOne_reaches (hl n (mem_indices.1 hn).1 (mem_indices.1 hn).2) 0
  have hplaces := placeAll_append (ff := ff) (addr := elementVa s m a b s.hart.et.bytes)
    (one := fun a => placeOne s.hart.id a s.hart.et.bytes kd true 0 false false) hbelow
    (placeAll_trap (ff := ff) (ys := ys) (placeOne_misaligned ha))
  rw [List.append_nil, ← hys, ← funext (vaddr_elementVa hc s.hart.et.bytes)] at hplaces
  rw [vmemPlaces_raw c ff kd hm ⟨i, hvl, hact⟩, M.bind_ok hplaces]
  simp only [vaddr_elementVa hc]
  rfl

end

/-! ## A load up to its stopping element (R246, R247, R431) -/

theorem putElems_congr {w n : Nat} {f g : Nat → Option Nat} (h : ∀ j < n, f j = g j) (v : BitVec 8192) :
    putElems w f n v = putElems w g n v := by
  induction n with
  | zero => rfl
  | succ n ih => simp only [putElems, h n (Nat.lt_succ_self n), ih fun j hj => h j (Nat.lt_succ_of_lt hj)]
theorem cleanElems_congr {w n : Nat} {f g : Nat → Option Nat} (h : ∀ j < n, f j = g j) (p : BitVec 1024) :
    cleanElems w f n p = cleanElems w g n p := by
  induction n with
  | zero => rfl
  | succ n ih => simp only [cleanElems, h n (Nat.lt_succ_self n), ih fun j hj => h j (Nat.lt_succ_of_lt hj)]
/-- A write of the elements below `n` takes nothing of those above. -/
theorem Hart.writeElems_congr (x : Hart) (d w : Nat) {n : Nat} {f g : Nat → Option Nat} (h : ∀ j < n, f j = g j) :
    x.writeElems d w n f = x.writeElems d w n g := by
  simp only [Hart.writeElems, putElems_congr h, cleanElems_congr h]

theorem mapGet_indices {p : Nat → Bool} {n j : Nat} (f : Nat → Nat) (hj : j < n) (hp : p j = true) :
    mapGet 0 ((indices p n).map (fun i => (i, f i))) j = f j := by
  have hmem : j ∈ indices p n := mem_indices.2 ⟨hj, hp⟩
  revert hmem
  induction indices p n with
  | nil => exact fun hmem => absurd hmem List.not_mem_nil
  | cons i is ih =>
    intro hmem
    simp only [List.map_cons, mapGet]
    split
    · next h => rw [h]
    · next h => exact ih ((List.mem_cons.1 hmem).resolve_left fun e => h e.symm)
theorem flagsOf_clear (xs : List Nat) (f : Nat → Nat) : flagsOf (xs.map fun n => (f n, 0)) = 0 := by
  unfold flagsOf
  rw [List.foldl_map]
  induction xs with
  | nil => rfl
  | cons n xs ih => simpa only [List.foldl_cons, BitVec.or_self] using ih

section
variable {s : State} {d a b : BitVec 6} {k : BitVec 4} {z : BitVec 1} {m : BitVec 2} {ls : Nat → List Loc} {c : Cap} {i : Nat}

/-- Elements that reach their places are free to be read, and clean. -/
theorem ElementReaches.readable {raw : Bool} {pf n : Nat} (h : ElementReaches s m a b .read raw pf ls n) :
    SpanFree s (ls n) ∧ (∀ l ∈ ls n, LocSound s l) ∧ firstBad s s.hart true (ls n) = none := by
  obtain ⟨-, hf, hl, -⟩ := h
  exact ⟨hf, fun l hl' => (hl l hl').1, firstBad_sound (fun l hl' => (hl l hl').1) fun l hl' => (hl l hl').2 rfl⟩

/-- A raw load whose element `i` is misaligned loads the due elements below, and stops there. -/
theorem vldM_misaligned (ff : Bool) (hc : c.Addresses s m a b) (hm : m = 2 → Clean s k b) (hn : ¬ (m = 0 ∧ b = 1))
    (hi : s.hart.due k i = true) (ha : elementVa s m a b s.hart.et.bytes i % s.hart.et.bytes ≠ 0)
    (hl : ∀ n < i, s.hart.due k n = true → ElementReaches s m a b .read true 0 ls n) :
    vldM d b k z m true ff c s =
      vmemStop ff (some (i, .trap .align .read (BitVec.ofNat 64 (elementVa s m a b s.hart.et.bytes i))))
        (s.withHart (s.hart.writeElems d.toNat s.hart.et.bytes i
          (policy s.hart k z (fun n => (loadedElem s true 0 ls n).1)))) := by
  have hread : ∀ p ∈ placedBelow s k m a b ls i, SpanFree s p.2.2 ∧ (∀ l ∈ p.2.2, LocSound s l) ∧
      firstBad s s.hart true p.2.2 = none := forall_placedBelow fun n hn hd => (hl n hn hd).readable
  have hhint : (decide (m = 0) && decide (b = 1)) = false := by simpa using hn
  have hindex : (decide (m = 2) && s.hart.vpr b.toNat != 0 &&
      (indices (s.hart.due k) s.hart.vl).any (s.hart.elemBad b.toNat s.hart.et.bytes)) = false := by
    by_cases h2 : m = 2
    · rw [List.any_eq_false.2 fun n hn => by simp [hm h2 n (mem_indices.1 hn).2], Bool.and_false]
    · rw [decide_eq_false h2]
      rfl
  have hspans : spansFree s.hart.id (placedBelow s k m a b ls i) s = .ok () s :=
    eachOf_id fun p hp => scratchFree_spanFree (hread p hp).1
  have hreport : reportM ((placedBelow s k m a b ls i).flatMap (·.2.2)) s = .ok () s :=
    reportM_sound fun l hl => by
      obtain ⟨p, hp, hlp⟩ := List.mem_flatMap.1 hl
      exact (hread p hp).2.1 l hlp
  have hclean : (placedBelow s k m a b ls i).findSome? (fun p => (firstBad s s.hart true p.2.2).map (p.2.1 + ·)) = none :=
    List.findSome?_eq_none_iff.2 fun p hp => by rw [(hread p hp).2.2]; rfl
  have hload : s.hart.writeElems d.toNat s.hart.et.bytes i (policy s.hart k z
      (mapGet 0 ((indices (s.hart.due k) i).map (fun n => (n, (loadedElem s true 0 ls n).1))))) =
      s.hart.writeElems d.toNat s.hart.et.bytes i (policy s.hart k z (fun n => (loadedElem s true 0 ls n).1)) := by
    refine Hart.writeElems_congr _ _ _ fun n hn => ?_
    unfold policy
    split
    · rfl
    · next hv =>
      split
      · next hact =>
        exact congrArg some (mapGet_indices _ hn (by rw [Hart.due, hact, decide_eq_true (Nat.le_of_not_lt hv)]; rfl))
      · rfl
  unfold vldM
  rw [M.hart_bind, hhint, M.bind_ok (vmemPlaces_misaligned ff .read hc hm hi ha hl)]
  dsimp only
  rw [hindex]
  simp only [Bool.false_eq_true, if_false]
  rw [M.bind_ok hspans, M.bind_ok hreport]
  simp only [M.get_bind, State.hartOf_self, hclean, M.hart_bind, M.setHartM_bind]
  simp only [placedBelow, List.map_map]
  refine congrArg (fun x => vmemStop ff _ (s.withHart x)) ?_
  exact (congrArg (Hart.orFlags _) (flagsOf_clear _ (fun n => (loadedElem s true 0 ls n).1))).trans
    ((hart_orFlags0 _).trans hload)

end

/-! ## What an instruction that issues sees -/

section
variable {s : State} {x : Instr}

/-- The machine as an instruction that issues to a free vector unit finds it. -/
def State.issued (s : State) (x : Instr) : State := s.withHart (s.hart.issued x)

theorem kinGet_issued (a : Nat) (ks : List (Nat × Nat)) : kinGet (s.issued x) a ks = kinGet s a ks := by
  have hsb : ∀ p, ((s.issued x).hartOf p).sbuf = (s.hartOf p).sbuf := fun p => by
    show (if s.hart.id = p then s.hart.issued x else mapGet Hart.initial s.harts p).sbuf = _
    unfold State.hartOf
    split <;> rfl
  induction ks with
  | nil => rfl
  | cons k ks ih => simp only [kinGet, hsb, ih]
theorem histGet_issued (h : Hart) (vec : Bool) (w a : Nat) (v : Byte) (us : List Undo) :
    histGet (h.issued x) vec w a v us = histGet h vec w a v us := by
  induction us generalizing v with
  | nil => rfl
  | cons u us ih =>
    simp only [histGet, ih]
    rfl
/-- Its reads find what those of the instruction before it would (R219). -/
theorem locByte_issued (side : Bool) (l : Loc) :
    locByte (s.issued x) (s.hart.issued x) side l = locByte s s.hart side l := by
  cases l with
  | scr o => rfl
  | dead a => rfl
  | phys a =>
    have hpend : pendingGet (s.issued x) (s.hart.issued x) a = pendingGet s s.hart a := by
      simp only [pendingGet, show (s.hart.issued x).kin = s.hart.kin from rfl, kinGet_issued]
      rfl
    have hpeek : ∀ q, (s.issued x).peek q = s.peek q := State.withHart_peek_same s _
    have hhist : histAddr (s.issued x) a = histAddr s a := by
      unfold histAddr
      rw [show homeOf (s.issued x) a = homeOf s a from homeOf_congr rfl rfl rfl rfl a]
    simp only [locByte, ordinaryByte, readByte, hpend, kinGet_issued, histGet_issued, hpeek, hhist]
    rfl
theorem loadedElem_issued (raw : Bool) (pf : Nat) (ls : Nat → List Loc) (n : Nat) :
    loadedElem (s.issued x) raw pf ls n = loadedElem s raw pf ls n := by
  have h : (ls n).map (locByte (s.issued x) (s.issued x).hart true) = (ls n).map (locByte s s.hart true) :=
    List.map_congr_left fun l _ => locByte_issued true l
  unfold loadedElem
  rw [h]
  rfl
theorem elementReaches_issued {m : BitVec 2} {a b : BitVec 6} {kd : Kind} {raw : Bool} {pf n : Nat} {ls : Nat → List Loc}
    (h : ElementReaches s m a b kd raw pf ls n) : ElementReaches (s.issued x) m a b kd raw pf ls n := h

end

/-! ## A raw load stops at a misaligned element (R246, R247) -/

section
variable (h : Hart) (d w n : Nat) (f : Nat → Option Nat)

@[simp] theorem Hart.writeElems_queue : (h.writeElems d w n f).queue = h.queue := by rw [Hart.writeElems_eq]
@[simp] theorem Hart.writeElems_sets : (h.writeElems d w n f).sets = h.sets := by rw [Hart.writeElems_eq]
@[simp] theorem Hart.writeElems_rpos : (h.writeElems d w n f).rpos = h.rpos := by rw [Hart.writeElems_eq]
@[simp] theorem Hart.writeElems_pc : (h.writeElems d w n f).pc = h.pc := by rw [Hart.writeElems_eq]
@[simp] theorem Hart.writeElems_id : (h.writeElems d w n f).id = h.id := by rw [Hart.writeElems_eq]

end

section
variable {s : State} {d a b : BitVec 6} {k : BitVec 4} {z : BitVec 1} {m : BitVec 2} {ls : Nat → List Loc} {i : Nat}

/-- The hart of the load `x` that stops at element `i`, before the stop is told. -/
def loadingHart (s : State) (x : Instr) (d : BitVec 6) (k : BitVec 4) (z : BitVec 1) (ls : Nat → List Loc) (i : Nat) : Hart :=
  (s.hart.issued x).writeElems d.toNat s.hart.et.bytes i (policy s.hart k z (fun n => (loadedElem s true 0 ls n).1))
/-- What of it stays once its entry has left the queue. -/
def loadedBelow (s : State) (x : Instr) (d : BitVec 6) (k : BitVec 4) (z : BitVec 1) (ls : Nat → List Loc) (i : Nat) : State :=
  s.withHart { loadingHart s x d k z ls i with queue := [], vstart := 0, rpos := 0 }

theorem loadedBelow_writes (x : Instr) (hf : VectorFree s) (hd : d.toNat < 48) (hi : i < s.hart.vl) :
    WritesElems s (loadedBelow s x d k z ls i) s.hart.et.bytes
      (only d.toNat (fun n => if n < i then elementwise s k z 0 (fun n => (loadedElem s true 0 ls n).1) n else none))
      (fun _ => False) := by
  obtain ⟨-, hq, hs, -⟩ := hf
  refine writesElems_of (i := x) (fl := 0) (N := i)
    (f' := policy s.hart k z (fun n => (loadedElem s true 0 ls n).1)) ⟨hq, hs⟩ hd ?_ (fun n => ?_) (by simp)
  · rw [hart_orFlags0]
    exact congrArg s.withHart (Hart.popHead_empty (g := loadingHart s x d k z ls i) (by simp [loadingHart, Hart.issued])
      (by simp [loadingHart, Hart.issued, hs])).symm
  · split
    · next hn => rw [← policy_elementwise, if_pos (Nat.lt_trans hn hi)]
    · rfl

/-- A raw load that issues to a free vector unit comes to its misaligned element `i` with those below it loaded. -/
theorem load_misaligned {x : Instr} {ff : Bool} (hf : VectorFree s) (hx : exec x s = vecIssue x (vldM d b k z m true ff) s)
    (hc : capOf x s.hart = (s.rs a, if m = 1 then s.rs b else 0)) (hm : m = 2 → Clean s k b)
    (hn : ¬ (m = 0 ∧ b = 1)) (hi : s.hart.due k i = true)
    (ha : elementVa s m a b s.hart.et.bytes i % s.hart.et.bytes ≠ 0)
    (hl : ∀ n < i, s.hart.due k n = true → ElementReaches s m a b .read true 0 ls n) :
    exec x s = .next (headEnd (s.issued x) (s.hart.entryOf x)
      (vmemStop ff (some (i, .trap .align .read (BitVec.ofNat 64 (elementVa s m a b s.hart.et.bytes i))))
        (s.withHart (loadingHart s x d k z ls i)))) := by
  have haddr : (s.hart.cap x).Addresses (s.issued x) m a b := by
    unfold Cap.Addresses Hart.cap
    rw [hc]
    exact ⟨rfl, rfl⟩
  rw [hx, vecIssue_runs hf]
  congr 2
  refine (vldM_misaligned (s := s.issued x) ff haddr hm hn hi ha fun n hni hd => elementReaches_issued (hl n hni hd)).trans ?_
  simp only [loadedElem_issued]
  rfl

theorem vmemStop_traps {ff : Bool} {c : Cause} {kd : Kind} {v : Word} (h : ff = false ∨ i = 0) :
    vmemStop ff (some (i, .trap c kd v)) s = .error (.trap c kd v) (s.withHart { s.hart with vstart := i }) := by
  have hff : (ff && i != 0) = false := by rcases h with h | h <;> simp [h]
  simp only [vmemStop, hff, Bool.false_eq_true, if_false, M.modHart_bind, M.throw_run]
theorem vmemStop_shortens {e : Stop} (h : i ≠ 0) :
    vmemStop true (some (i, e)) s = .ok () (s.withHart { s.hart with vl := i }) := by
  have hff : (true && i != 0) = true := by simpa using h
  simp only [vmemStop, hff, if_true, M.modHart_run]

/-- VLD traps at the element, and so does VLDFF at element 0: the entry stays in the queue, with VSTART at the element. -/
theorem headEnd_stops (x : Instr) (ff : Bool) (v : Word) (hff : ff = false ∨ i = 0) :
    headEnd (s.issued x) (s.hart.entryOf x)
        (vmemStop ff (some (i, .trap .align .read v)) (s.withHart (loadingHart s x d k z ls i))) =
      takeTrap ((loadedBelow s x d k z ls i).withHart { (loadedBelow s x d k z ls i).hart with
        queue := [s.hart.entryOf x], vstart := i, rpos := s.hart.rpos }) s.hart.id .align .read v s.hart.pc (s.hart.pc + 4) := by
  have hq : (loadingHart s x d k z ls i).queue = [s.hart.entryOf x] := Hart.writeElems_queue ..
  have hr : (loadingHart s x d k z ls i).rpos = s.hart.rpos := Hart.writeElems_rpos ..
  have hid : (loadingHart s x d k z ls i).id = s.hart.id := Hart.writeElems_id ..
  have hpc : (loadingHart s x d k z ls i).pc = s.hart.pc + 4 := Hart.writeElems_pc ..
  rw [vmemStop_traps hff, ← hq, ← hr, ← hid, ← hpc]
  rfl
/-- VLDFF beyond element 0 shortens VL and completes (R247). -/
theorem headEnd_shortens (x : Instr) (e : Stop) (hi : i ≠ 0) (hs : s.hart.sets = []) :
    headEnd (s.issued x) (s.hart.entryOf x) (vmemStop true (some (i, e)) (s.withHart (loadingHart s x d k z ls i))) =
      (loadedBelow s x d k z ls i).withHart { (loadedBelow s x d k z ls i).hart with vl := i } := by
  rw [vmemStop_shortens hi]
  exact congrArg s.withHart (Hart.popHead_empty (g := { loadingHart s x d k z ls i with vl := i })
    (by simp [loadingHart, Hart.issued]) (by simp [loadingHart, Hart.issued, hs]))

end

/-! ## O29 -/

/-- From trap entry to CLAIM an instruction of any group of the vector unit is a nested trap (R261, R264). -/
theorem frozen_nested {s : State} {d a b : BitVec 6} {k : BitVec 4} {z f : BitVec 1} (hf : s.hart.frozen = true) :
    ∀ j ∈ ([.vadd d a b k z f, .vfadd d a b k z f, .vld d a b k z 0, .vst d a b k 0, .vredsum d a b k, .kmov k k, .wsel k,
        .mclr 0 d 0, .rpt d k 0 0 0 0] : List Instr),
      exec j s = .next (takeTrap s s.hart.id .illegalOp .read ((encode j).zeroExtend 64) s.hart.pc s.hart.pc) := by
  simp only [List.forall_mem_cons, List.not_mem_nil, false_implies, implies_true, and_true]
  exact ⟨vecIssue_frozen hf, vecIssue_frozen hf, vecIssue_frozen hf, vecIssue_frozen hf, vecIssue_frozen hf, vecIssue_frozen hf,
    vecIssue_frozen hf, vecIssue_frozen hf, if_pos hf⟩

/-- A VADD that a check at dispatch stops stays in the queue, VSTART zero (R106, R265). -/
theorem vadd_stopped {s : State} {d a b : BitVec 6} {k : BitVec 4} {z f : BitVec 1} {c : Cause} {kd : Kind} {v : Word}
    (hf : VectorFree s) (h : vaddM d a b k z f (s.hart.cap (.vadd d a b k z f)) (s.issued (.vadd d a b k z f)) =
      .error (.trap c kd v) ((s.issued (.vadd d a b k z f)).withHart { (s.issued (.vadd d a b k z f)).hart with vstart := 0 })) :
    exec (.vadd d a b k z f) s = .next (takeTrap (s.withHart { s.hart with
      queue := [⟨s.hart.pc, encode (.vadd d a b k z f), 0, if f = 1 then s.rs b else 0, s.hart.sets, [], s.hart.note⟩]
      pc := s.hart.pc + 4, vstart := 0 }) s.hart.id c kd v s.hart.pc (s.hart.pc + 4)) := by
  have ⟨_, _, hs, _⟩ := hf
  rw [hs]
  exact vecIssue_free_trap hf h

/-- Settles O29: the clauses on VADD from what `vecIssue` does before and behind older entries and from the checks at dispatch;
those on loads from the run-ahead check, which ends at the misaligned element with the places of those below it. -/
theorem vectorInstructionsStop : Obligations.VectorInstructionsStop := by
  refine ⟨fun s d a b k z f n => ⟨frozen_nested, vecIssue_full, vecIssue_behind, Hart.enqueue_sets _ _ _ _ _,
    fun hf het => ?_, fun hf het hn hb => ?_⟩, fun s d a b k z m ls i hf hd _ hm hn hi ha hl => ?_⟩
  · exact vadd_stopped hf (binaryM_refuses (s := s.issued _) (by rw [ET.isInt]; exact congrArg not het))
  · exact vadd_stopped hf (binaryM_poisoned (s := s.issued _) (isInt_of het) hn hb rfl)
  · have ⟨_, _, hs, _⟩ := hf
    have hload := fun x => loadedBelow_writes (k := k) (z := z) (ls := ls) x hf hd (due_active hi).2.1
    have hraw := load_misaligned (x := .vldRaw d a b k z m) hf rfl rfl hm hn hi ha hl
    have hff := load_misaligned (x := .vldffRaw d a b k z m) hf rfl rfl hm hn hi ha hl
    exact ⟨⟨_, hload _, hraw.trans (congrArg _ (headEnd_stops _ _ _ (.inl rfl)))⟩,
      fun h0 => ⟨_, hload _, hff.trans (congrArg _ (headEnd_stops _ _ _ (.inr h0)))⟩,
      fun h0 => ⟨_, hff, _, hload _, headEnd_shortens _ _ h0 hs⟩⟩

end Sys2Proof.Machine
end

section
/-! A repeat frame of one VADD (R65 to R67, R401). -/

namespace Sys2Proof.Machine

/-! ## The words a frame captures (R65, R401) -/

/-- The word of a well-formed instruction names it again, where its fields do. -/
theorem decode_encode {i : Instr} (hi : Laws.Encoded.Statement i) (hw : i.hasWord = true) (hwf : WellFormed i) :
    decode (encode i) = .ok i := by
  unfold decode
  rw [hi hw]
  dsimp only
  rw [hwf]
/-- Where no instruction cache holds the line, a word of the code is the word at home, whatever the PC (R244). -/
theorem fetchM_word {s : State} {pc : Word} {pa : Nat} (h : Mapped s pc.toNat .exec pa) (ha : pc.toNat % 4 = 0)
    (hn : codeLine s s.hart (.phys pa) = none) (hs : Sound s pa 4) :
    fetchM s.hart.id pc s = .ok (BitVec.ofNat 32 (s.peekN pa 4)) s := by
  obtain ⟨fs, hl⟩ := locateN_mapped (n := 4) (strong := false) h (by omega)
  rw [fetchM, M.bind_ok hl]
  simp only [M.get_bind, State.hartOf_self, codeLine_places, hn, places_sound hs, leNat_places, M.pure_run]
/-- A word of an instruction that a frame may capture comes before those behind it. -/
theorem frameWords_cons {h n : Nat} {pc : Word} {w : BitVec 32} {ws : List (BitVec 32)} {i : Instr} {s : State}
    (hf : fetchM h pc s = .ok w s) (hd : decode w = .ok i) (ha : capturedAbsent s i = false) (hc : (captured i).isSome = true)
    (ht : frameWords h n (pc + 4) s = .ok (.ok ws) s) : frameWords h (n + 1) pc s = .ok (.ok (w :: ws)) s := by
  have hnone : (captured i).isNone = false := by rw [Option.isNone_eq_false_iff]; exact hc
  unfold frameWords
  rw [attempt_bind, hf]
  simp only [hd, M.get_bind, ha, hnone, Bool.false_eq_true, if_false, Bool.or_self]
  exact M.bind_ok ht

/-! ## A captured instruction (R65, R67) -/

section
variable {s t : State} {j : Instr} {m : Cap → M Unit} {w : BitVec 32} {pc : Word}

theorem laneRun_free (w : BitVec 32) (x : Word) (m : M Unit) (h1 : s.mismatch = []) (h2 : laneBusy s = false) :
    laneRun w x m s = (m >>= fun _ => pure []) s := by
  unfold laneRun
  rw [M.get_bind]
  split
  · rfl
  · simp only [h2, h1, Bool.false_eq_true, if_false, decide_true, Bool.true_or, if_true]
/-- A captured instruction that takes no poisoned scalar and has not been stopped inside runs as it is. -/
theorem capturedBody_fresh (hp : s.hart.part = none) (hr : (readsNow j).any s.hart.spBad = false) :
    capturedBody m j pc s = m ⟨pc, (capOf j s.hart).1, (capOf j s.hart).2, []⟩ s := by
  unfold capturedBody resumed lateScalars
  rw [M.hart_bind, M.hart_bind, hp, hr]
  rfl
theorem Hart.capturedDone_fresh {h : Hart} (hp : h.part = none) : h.capturedDone = { h with vstart := 0 } := by
  have hp' : ({ h with vstart := 0 } : Hart).part = none := hp
  unfold Hart.capturedDone
  dsimp only
  rw [hp']
  rfl
/-- It is done, with VSTART zero, where its own effect comes to its end. -/
theorem runCaptured_ok (h1 : s.mismatch = []) (h2 : laneBusy s = false) (hj : captured j = some m) (hp : s.hart.part = none)
    (hr : (readsNow j).any s.hart.spBad = false) (hm : m ⟨pc, (capOf j s.hart).1, (capOf j s.hart).2, []⟩ s = .ok () t)
    (ht : t.hart.part = none) : runCaptured w (.ok j) pc s = .ok () (t.withHart { t.hart with vstart := 0 }) := by
  have hrun : capturedRun w (.ok j) pc s = .ok [] t := by
    unfold capturedRun
    simp only [hj]
    rw [M.hart_bind, attempt_bind, laneRun_free _ _ _ h1 h2, M.bind_ok ((capturedBody_fresh hp hr).trans hm)]
    rfl
  unfold runCaptured
  rw [M.get_bind, M.bind_ok hrun, ← Hart.capturedDone_fresh ht]
  rfl

end

/-- Nobody else's self-test concerns the hart when what it is and owns stays (R315). -/
theorem laneBusy_withHart {s : State} {h : Hart} (hlive : h.live = s.hart.live) (hid : h.id = s.hart.id)
    (hl : h.lgown = s.hart.lgown) (hr : h.run = s.hart.run) : laneBusy (s.withHart h) = laneBusy s := by
  unfold laneBusy State.liveHarts
  simp only [State.withHart_hart, State.withHart_harts, Hart.core, hlive, hid, hl, List.any_append]
  congr 1
  cases s.hart.live
  · rfl
  · simp only [if_true, List.any_cons, List.any_nil, hid, hr]

/-! ## VADD of registers, and its repetitions (R66, R418) -/

theorem vaddM_run {s : State} {d a b : BitVec 6} {k : BitVec 4} (z : BitVec 1) (c : Cap) (het : s.hart.et.isFloat = false)
    (ha : s.hart.vpr a.toNat = 0) (hb : s.hart.vpr b.toNat = 0) :
    vaddM d a b k z 0 c s = .ok () (s.withHart (s.hart.mapElems d.toNat s.hart.et.bytes k z (fun n =>
      (s.hart.elem a.toNat s.hart.et.bytes n + s.hart.elem b.toNat s.hart.et.bytes n) % 2 ^ (8 * s.hart.et.bytes)))) := by
  unfold vaddM binaryM
  rw [M.hart_bind, if_neg (by rw [isInt_of het]; exact Bool.false_ne_true)]
  dsimp only
  rw [M.bind_ok (consume_clean fun p hp n _ => ?_)]
  · refine congrArg (fun h => EStateM.Result.ok () (s.withHart h)) ?_
    exact (congrArg (Hart.orFlags _) (flagsOf_clear _ _)).trans (hart_orFlags0 _)
  · rw [if_neg (by decide)] at hp
    simp only [List.mem_cons, List.not_mem_nil, or_false] at hp
    rcases hp with rfl | rfl
    · exact elemBad_zero _ _ _ _ ha
    · exact elemBad_zero _ _ _ _ hb

/-- The registers of repetition `p` are vector registers (R66). -/
structure InRange (d a b : BitVec 6) (sd sa sb : BitVec 3) (p : Nat) : Prop where
  vd : d.toNat + p * sd.toNat < 48
  va : a.toNat + p * sa.toNat < 48
  vb : b.toNat + p * sb.toNat < 48

theorem InRange.of_le {d a b : BitVec 6} {sd sa sb : BitVec 3} {p n : Nat} (h : InRange d a b sd sa sb n) (hp : p ≤ n) :
    InRange d a b sd sa sb p := by
  have below : ∀ {x st : Nat}, x + n * st < 48 → x + p * st < 48 := fun {_ st} h =>
    Nat.lt_of_le_of_lt (Nat.add_le_add_left (Nat.mul_le_mul_right st hp) _) h
  exact ⟨below h.vd, below h.va, below h.vb⟩

section
variable {d a b : BitVec 6} {k : BitVec 4} {z : BitVec 1} {sd sa sb sr : BitVec 3} {p : Nat}

/-- VADD in a repetition: its three registers, as moved (R66). -/
def staggered (d a b : BitVec 6) (k : BitVec 4) (z : BitVec 1) (sd sa sb : BitVec 3) (p : Nat) : Instr :=
  .vadd (BitVec.ofNat 6 (d.toNat + p * sd.toNat)) (BitVec.ofNat 6 (a.toNat + p * sa.toNat))
    (BitVec.ofNat 6 (b.toNat + p * sb.toNat)) k z 0
theorem bump_ok {x : BitVec 6} {n : Nat} (h : x.toNat + n < 48) : bump x n = .ok (BitVec.ofNat 6 (x.toNat + n)) := if_pos h
theorem stagger_vadd (h : InRange d a b sd sa sb p) :
    stagger (p * sd.toNat) (p * sa.toNat) (p * sb.toNat) (p * sr.toNat) (.vadd d a b k z 0) =
      .ok (staggered d a b k z sd sa sb p) := by
  simp only [stagger, bump_ok h.vd, bump_ok h.va, bumpIf, bump_ok h.vb]
  rfl
theorem frameAt_vadd {w : BitVec 32} (hw : decode w = .ok (.vadd d a b k z 0)) (h : InRange d a b sd sa sb p) :
    frameAt [w] sd sa sb sr p = some (w, .ok (staggered d a b k z sd sa sb p)) := by
  have hi : frameInstr w = some (.vadd d a b k z 0) := by rw [frameInstr, hw]
  simp only [frameAt, List.length_singleton, Nat.mod_one, Nat.div_one, List.getElem?_cons_zero, Option.bind_some, hi,
    Option.map_some, stagger_vadd h]

/-- A repetition of VADD, at width `w`, and what it leaves of the hart. -/
def vaddOnce (w : Nat) (d a b : BitVec 6) (k : BitVec 4) (z : BitVec 1) (sd sa sb : BitVec 3) (h : Hart) (p : Nat) : Hart :=
  { h.mapElems (d.toNat + p * sd.toNat) w k z (fun n =>
      (h.elem (a.toNat + p * sa.toNat) w n + h.elem (b.toNat + p * sb.toNat) w n) % 2 ^ (8 * w)) with vstart := 0 }

/-- A hart that runs a frame: as `g`, but the frame's entry is its queue, its PC is behind the frame, and RPOS within it. -/
def Hart.inFrame (g : Hart) (e : QEntry) (pc rpos : Word) : Hart := { g with queue := [e], pc := pc, rpos := rpos }

theorem vaddOnce_inFrame (w : Nat) (g : Hart) (e : QEntry) (pc rpos : Word) (p : Nat) :
    vaddOnce w d a b k z sd sa sb (g.inFrame e pc rpos) p = (vaddOnce w d a b k z sd sa sb g p).inFrame e pc rpos := by
  have hv : ∀ r, (g.inFrame e pc rpos).vr r = g.vr r := fun _ => rfl
  have hp : ∀ r, (g.inFrame e pc rpos).vpr r = g.vpr r := fun _ => rfl
  unfold vaddOnce Hart.mapElems Hart.writeElems
  simp only [hv, hp]
  split <;> rfl
theorem Hart.part_mapElems (h : Hart) (d w : Nat) (k : BitVec 4) (z : BitVec 1) (f : Nat → Nat) :
    (h.mapElems d w k z f).part = h.part := by
  rw [Hart.part, Hart.mapElems, Hart.writeElems_queue]
  rfl

/-- What repetitions of VADD keep of a hart `h` without poison: all but the values of its vector registers, and VSTART. -/
structure RegistersOnly (h g : Hart) : Prop where
  rest : g = { h with v := g.v, vstart := g.vstart }
  clean : ∀ r < 48, g.vpr r = 0

theorem RegistersOnly.once {h g : Hart} (hg : RegistersOnly h g) (w : Nat) (hp : InRange d a b sd sa sb p) :
    RegistersOnly h (vaddOnce w d a b k z sd sa sb g p) := by
  unfold vaddOnce Hart.mapElems
  rw [Hart.writeElems_clean _ _ _ _ _ (hg.clean _ hp.vd)]
  refine ⟨?_, hg.clean⟩
  rw [hg.rest]
  rfl
theorem RegistersOnly.foldl {h g : Hart} (hg : RegistersOnly h g) (w : Nat) {ps : List Nat}
    (hp : ∀ p ∈ ps, InRange d a b sd sa sb p) : RegistersOnly h (ps.foldl (vaddOnce w d a b k z sd sa sb) g) := by
  induction ps generalizing g with
  | nil => exact hg
  | cons p ps ih => exact ih (hg.once w (hp p (List.mem_cons_self ..))) fun q hq => hp q (List.mem_cons_of_mem _ hq)
/-- The entry leaves such a hart, which goes on behind the frame. -/
theorem RegistersOnly.popHead_inFrame {h g : Hart} {e : QEntry} {pc rpos : Word} (hg : RegistersOnly h g) (hq : h.queue = [])
    (hs : h.sets = []) : (g.inFrame e pc rpos).popHead = { g with pc := pc, vstart := 0, rpos := 0 } := by
  rw [hg.rest]
  rw [Hart.popHead_empty (by rfl) (by exact hs)]
  simp only [Hart.inFrame, hq]

end

/-! ## Running the frame (R65, R67) -/

section
variable {s : State} {d a b : BitVec 6} {k : BitVec 4} {z : BitVec 1} {sd sa sb sr : BitVec 3} {e : QEntry} {w : BitVec 32}
  {pc : Word}

/-- A frame of one VADD stands at the repetition, runs it and goes on with the next. -/
theorem runFrame_step (hw : decode w = .ok (.vadd d a b k z 0)) {fuel p : Nat} (hp : InRange d a b sd sa sb p) :
    runFrame [w] pc sd sa sb sr (fuel + 1) p =
      (modHart (fun h => { h with rpos := rposOf p 0 }) >>= fun _ =>
        runCaptured w (.ok (staggered d a b k z sd sa sb p)) pc >>= fun _ => runFrame [w] pc sd sa sb sr fuel (p + 1)) := by
  simp only [runFrame, frameAt_vadd hw hp, List.length_singleton, Nat.div_one, Nat.mod_one]

section
variable (het : s.hart.et.isFloat = false) (hm : s.mismatch = []) (hlanes : laneBusy s = false) (he : e.note.part = none)
include het hm hlanes he

/-- One repetition, as the frame runs it. -/
theorem runCaptured_staggered {g : Hart} {p : Nat} (hg : RegistersOnly s.hart g) (hp : InRange d a b sd sa sb p)
    (next rpos : Word) :
    runCaptured w (.ok (staggered d a b k z sd sa sb p)) pc (s.withHart (g.inFrame e next rpos)) =
      .ok () (s.withHart ((vaddOnce s.hart.et.bytes d a b k z sd sa sb g p).inFrame e next rpos)) := by
  have hnat : ∀ {x}, x < 48 → (BitVec.ofNat 6 x).toNat = x := fun hx => by
    rw [BitVec.toNat_ofNat, Nat.mod_eq_of_lt (by omega)]
  have het' : (g.inFrame e next rpos).et = s.hart.et := by rw [Hart.inFrame, hg.rest]
  have hlanes' : laneBusy (s.withHart (g.inFrame e next rpos)) = false := by
    refine (laneBusy_withHart ?_ ?_ ?_ ?_).trans hlanes <;> rw [Hart.inFrame, hg.rest]
  have hadd := vaddM_run (s := s.withHart (g.inFrame e next rpos)) (d := BitVec.ofNat 6 (d.toNat + p * sd.toNat))
    (a := BitVec.ofNat 6 (a.toNat + p * sa.toNat)) (b := BitVec.ofNat 6 (b.toNat + p * sb.toNat)) (k := k) z
    ⟨pc, 0, 0, []⟩ ((congrArg ET.isFloat het').trans het) (by rw [hnat hp.va]; exact hg.clean _ hp.va)
    (by rw [hnat hp.vb]; exact hg.clean _ hp.vb)
  refine (runCaptured_ok (s := s.withHart (g.inFrame e next rpos)) hm hlanes' rfl he rfl hadd ?_).trans ?_
  · exact (Hart.part_mapElems ..).trans he
  · rw [← vaddOnce_inFrame]
    simp only [State.withHart_hart, State.withHart_withHart, hnat hp.vd, hnat hp.va, hnat hp.vb, het']
    rfl

/-- `fuel` repetitions from `p` on. -/
theorem runFrame_vadd {n : Nat} (hw : decode w = .ok (.vadd d a b k z 0)) (hn : InRange d a b sd sa sb n) (next : Word)
    (fuel : Nat) {p : Nat} (hp : p + fuel ≤ n + 1) {g : Hart} (hg : RegistersOnly s.hart g) (rpos : Word) :
    ∃ rpos', runFrame [w] pc sd sa sb sr fuel p (s.withHart (g.inFrame e next rpos)) =
      .ok () (s.withHart (((List.range' p fuel).foldl (vaddOnce s.hart.et.bytes d a b k z sd sa sb) g).inFrame e
        next rpos')) := by
  induction fuel generalizing p g rpos with
  | zero => exact ⟨rpos, rfl⟩
  | succ fuel ih =>
    have hr : InRange d a b sd sa sb p := hn.of_le (by omega)
    have hone := runCaptured_staggered (w := w) (pc := pc) (k := k) (z := z) het hm hlanes he hg hr next (rposOf p 0)
    obtain ⟨rpos', hrest⟩ := ih (p := p + 1) (by omega) (hg.once s.hart.et.bytes hr) (rposOf p 0)
    refine ⟨rpos', ?_⟩
    rw [List.range'_succ, List.foldl_cons, ← hrest, runFrame_step hw hr, M.modHart_bind]
    exact M.bind_ok hone

/-- The whole frame, from its beginning. -/
theorem rptM_vadd {n : BitVec 6} (hw : decode w = .ok (.vadd d a b k z 0)) (hn : InRange d a b sd sa sb n.toNat) (next : Word)
    (hv : ∀ r < 48, s.hart.vpr r = 0) (hr : s.hart.rpos.getLsbD 10 = false) :
    ∃ rpos', rptM n sd sa sb sr ⟨pc, 0, 0, [w]⟩ (s.withHart (s.hart.inFrame e next s.hart.rpos)) =
      .ok () (s.withHart (((List.range (n.toNat + 1)).foldl (vaddOnce s.hart.et.bytes d a b k z sd sa sb) s.hart).inFrame e
        next rpos')) := by
  have hpos : framePos (s.hart.inFrame e next s.hart.rpos) 1 = 0 := if_neg fun h => Bool.false_ne_true (hr.symm.trans h)
  unfold rptM
  rw [M.hart_bind, List.range_eq_range']
  simp only [State.withHart_hart, List.length_singleton, hpos, Nat.mul_one, Nat.sub_zero]
  exact runFrame_vadd het hm hlanes he hw hn next (n.toNat + 1) (by omega) ⟨rfl, hv⟩ s.hart.rpos

end

end

/-! ## RPT issues (R65, R401) -/

theorem Hart.enqueue_alone {h : Hart} {pc : Word} {w : BitVec 32} {op1 op2 : Word} {ws : List (BitVec 32)} (hq : h.queue = [])
    (hs : h.sets = []) : h.enqueue pc w op1 op2 ws = { h with queue := [⟨pc, w, op1, op2, [], ws, h.note⟩] } := by
  unfold Hart.enqueue
  rw [hq, hs]
  simp only [List.nil_append, Hart.settle, if_true]
/-- A frame that meets a free vector unit, its words captured, runs as it issues; the scalar unit goes on behind it (R65). -/
theorem execRpt_runs {s : State} {n : BitVec 6} {c : BitVec 4} {sd sa sb sr : BitVec 3} {ws : List (BitVec 32)}
    (hf : VectorFree s) (hw : frameWords s.hart.id (c.toNat + 1) (s.hart.pc + 4) s = .ok (.ok ws) s) :
    let e : QEntry := ⟨s.hart.pc, encode (.rpt n c sd sa sb sr), 0, 0, [], ws, s.hart.note⟩
    let t := s.withHart (s.hart.inFrame e (s.hart.pc + 4 * BitVec.ofNat 64 (c.toNat + 2)) s.hart.rpos)
    execRpt n c sd sa sb sr s = .next (headEnd t e (rptM n sd sa sb sr ⟨s.hart.pc, 0, 0, ws⟩ t)) := by
  intro e t
  obtain ⟨hfrozen, hq, hs, hahead, hm, hb⟩ := hf
  have ht : s.withHart { s.hart.enqueue s.hart.pc (encode (.rpt n c sd sa sb sr)) 0 0 ws with
      pc := s.hart.pc + 4 * BitVec.ofNat 64 (c.toNat + 2) } = t := by
    rw [Hart.enqueue_alone hq hs]
    rfl
  have hlanes : laneBusy t = false := (laneBusy_withHart (s := s) (h := t.hart) rfl rfl rfl rfl).trans hb
  have hrun : runHead (rptM n sd sa sb sr) t = headEnd t e (rptM n sd sa sb sr ⟨s.hart.pc, 0, 0, ws⟩ t) :=
    (runHead_cons (s := t) (q := []) rfl hm hlanes).trans (congrArg (headEnd t e) (headBody_fresh rfl rfl rfl))
  unfold execRpt
  simp only [hfrozen, Bool.false_eq_true, if_false, hw, ht]
  rw [if_neg (by rw [hq]; decide), ← hrun]
  simp only [hq, hahead]
  rfl

/-! ## O34 -/

/-- Settles O34: the capture finds the word of a VADD, so the frame runs its repetitions by the induction of `runFrame_vadd`,
and leaves its entry with everything but the vector registers, VSTART, RPOS and the PC as it was. -/
theorem framesRepeat : Obligations.FramesRepeat := by
  intro s n sd sa sb sr d a b k z pa hf het hr hv hmap hal hsound hcode hpeek hwf hd ha hb w one
  have ⟨_, hq, hs, _, hm, hlanes⟩ := hf
  have hn : InRange d a b sd sa sb n.toNat := ⟨hd, ha, hb⟩
  have hdec : decode (encode (.vadd d a b k z 0)) = .ok (.vadd d a b k z 0) :=
    decode_encode (Laws.Encoded.vadd d a b k z 0) rfl hwf
  have hfetch : fetchM s.hart.id (s.hart.pc + 4) s = .ok (encode (.vadd d a b k z 0)) s := by
    rw [fetchM_word hmap hal hcode hsound, hpeek, BitVec.ofNat_toNat, BitVec.setWidth_eq]
  have hwords := frameWords_cons hfetch hdec rfl rfl (n := 0) rfl
  obtain ⟨rpos', hrpt⟩ := rptM_vadd (sr := sr) (pc := s.hart.pc) (e := ⟨s.hart.pc, encode (.rpt n 0 sd sa sb sr), 0, 0, [],
    [encode (.vadd d a b k z 0)], s.hart.note⟩) het hm hlanes rfl hdec hn (s.hart.pc + 8) hv hr
  have hkept : RegistersOnly s.hart ((List.range (n.toNat + 1)).foldl one s.hart) :=
    RegistersOnly.foldl ⟨rfl, hv⟩ w fun p hp => hn.of_le (Nat.lt_succ_iff.1 (List.mem_range.1 hp))
  exact ⟨_, (execRpt_runs (c := 0) hf hwords).trans (congrArg (fun r => Host.Outcome.next (headEnd _ _ r)) hrpt),
    congrArg s.withHart (hkept.popHead_inFrame hq hs)⟩

end Sys2Proof.Machine
end

section
/-! The encoding (04 R70 to R104): the decoder and the encoder undo each other. -/

namespace Sys2Proof.Laws.Encoded

/-- The word of every instruction that has one names that instruction. -/
theorem statement_holds (i : Instr) : Statement i :=
  i.casesOn (motive := Statement)
    add sub mul mulh div rem and or xor shl shr sar min max slt cnt addi andi ori xori shli shri sari slti lih addpc
    sfadd sfsub sfmul sfma sfdiv sfsqrt sfcvt sfmm sfcmp spset beq bne blt bge bltu bgeu strip jal jalr ld st lds sts
    waitval amo setvl setvli vld vldRaw vst vstRaw vldff vldffRaw vamo vadd vsub vmul vmulh vmin vmax vand vor vxor
    vshl vshr vsar vaddsat vsubsat vfadd vfsub vfmul vfma vfdiv vfsqrt vfmin vfmax vfrcp vfrsq vfexp2 vflog2 vfsgn
    vcmp vfcmp kop kpop kfirst kmov mtree vcvt vnarrow vwiden vmerge vperm vslide vcompress vexpand viota vbcast vmovx
    vext vins vredsum vredmax vredmin vfredsum vfredmax vredseq vtmul vtconj rpt algld phase fence yield join retire
    bar publish qpush qpop fork mrow mrd mwr mclr mchk mloc mfix wld wldff wsel xcopy xfill rcfence waitlt kvcommit
    coll ctlrd ctlwr trap brk resume claim logmark ctxCreate ctxDestroy fnSet evset invalS1 invalS2 s2Retry s2Decline
    qenable qdisable frecRead laneMaskRead laneRetest snuff pwrLimit peerSet commSet fwUpdateBegin fwUpdateData
    fwUpdateCommit fwUpdateAbort fwUpdateStatus queueAttempt nop launch admission signal signalStore waitvalPacket
    waitvalPacketSatisfied codefence codefenceAdvance setdet setdetApply ctxsw ctxswAbort place qpopRetireChoice
    launchRetire quantumExpiry forcedStop nonyield slotSwitch spill restore barWaitComplete joinComplete qpopWake
    qpushWake waitvalWake waitltWake xcopyComplete xfillComplete wldComplete kvcommitComplete collComplete
    collLinkTimeout laneSelftestDone columnSelftestDone coreRetired logStall hostMemAccess snuffN reset
    thermalShutdown powerControl illegalOp fetchFault peerRequest spdmRequest linkTrainDown dramScrub peerLinkDown

end Sys2Proof.Laws.Encoded

namespace Sys2Proof.Machine

/-- Settles O1: the fields the encoder writes are the ones the decoder reads, and a well-formed instruction passes the checks. -/
theorem decodeInvertsEncode : Obligations.DecodeInvertsEncode :=
  fun i hwf hw => decode_encode (Laws.Encoded.statement_holds i) hw hwf

/-! ## Fields of a word -/

/-- A field as a number. -/
theorem toNat_fld (w : BitVec 32) (lo n : Nat) : (fld w lo n).toNat = w.toNat / 2 ^ lo % 2 ^ n := by
  rw [fld, BitVec.extractLsb'_toNat, Nat.shiftRight_eq_div_pow]
theorem fld_eq_iff {w : BitVec 32} {lo n : Nat} {x : BitVec n} :
    fld w lo n = x ↔ w.toNat / 2 ^ lo % 2 ^ n = x.toNat := by
  rw [← BitVec.toNat_inj, toNat_fld]
/-- A field is its upper part joined to its lower part. -/
theorem fld_add (w : BitVec 32) (lo n m : Nat) : fld w lo (n + m) = fld w (lo + m) n ++ fld w lo m := by
  unfold fld
  rw [BitVec.extractLsb'_append_extractLsb'_eq_extractLsb' rfl]
theorem append_inj {n m : Nat} {y y' : BitVec n} {x x' : BitVec m} (h : y ++ x = y' ++ x') : y = y' ∧ x = x' :=
  ⟨by rw [← BitVec.extractLsb'_append_eq_left (a := y) (b := x), h, BitVec.extractLsb'_append_eq_left],
    by rw [← BitVec.extractLsb'_append_eq_right (a := y) (b := x), h, BitVec.extractLsb'_append_eq_right]⟩

/-- The word holds `x` from bit `lo` up. -/
def Holds (w : BitVec 32) (lo : Nat) {n : Nat} (x : BitVec n) : Prop := fld w lo n = x

theorem holds_iff {w : BitVec 32} {lo n : Nat} {x : BitVec n} : Holds w lo x ↔ w.toNat / 2 ^ lo % 2 ^ n = x.toNat :=
  fld_eq_iff
theorem holds_append {w : BitVec 32} {lo n m : Nat} {y : BitVec n} {x : BitVec m} :
    Holds w lo (y ++ x) ↔ Holds w (lo + m) y ∧ Holds w lo x := by
  unfold Holds
  rw [fld_add]
  exact ⟨append_inj, fun ⟨hy, hx⟩ => by rw [hy, hx]⟩
theorem holds_zero_iff {w v : BitVec 32} : Holds w 0 v ↔ v = w := by
  unfold Holds fld
  rw [BitVec.extractLsb'_eq_self]
  exact eq_comm

/-! ## What the decoders answer -/

/-- An answer to the word `w` is a refusal, or an instruction whose word is `w`. -/
def Names (r : Except Reject Instr) (w : BitVec 32) : Prop := ∀ i, r = .ok i → encode i = w ∧ i.hasWord = true

theorem names_error (r : Reject) (w : BitVec 32) : Names (.error r) w := fun _ h => nomatch h
theorem names_ok_iff {i : Instr} {w : BitVec 32} : Names (.ok i) w ↔ Holds w 0 (encode i) ∧ i.hasWord = true := by
  rw [holds_zero_iff]
  exact ⟨fun h => h i rfl, fun h j hj => Except.ok.inj hj ▸ h⟩
theorem names_mbz_iff {p : Bool} {i : Instr} {w : BitVec 32} : Names (mbz p i) w ↔ (p = true → Names (.ok i) w) := by
  cases p
  · exact iff_of_true (names_error _ w) nofun
  · exact ⟨fun h _ => h, fun h => h rfl⟩
theorem names_unless_iff {p : Prop} [Decidable p] {r : Reject} {x : Except Reject Instr} {w : BitVec 32} :
    Names (if p then .error r else x) w ↔ (¬ p → Names x w) := by
  by_cases h : p
  · rw [if_pos h]
    exact iff_of_true (names_error r w) (absurd h ·)
  · rw [if_neg h]
    exact ⟨fun hx _ => hx, fun hx => hx h⟩

/-- The decoders that a major chooses between (R86). -/
theorem decodeFields_cases {P : Except Reject Instr → Prop} {w : BitVec 32}
    (scalar : (fld w 0 7).toNat = 0x01 → P (decodeScalar w))
    (scalarFloat : (fld w 0 7).toNat = 0x0C → P (decodeScalarFloat w))
    (mask : (fld w 0 7).toNat = 0x52 → P (decodeMask w)) (sync : (fld w 0 7).toNat = 0x6E → P (decodeSync w))
    (weight : (fld w 0 7).toNat = 0x77 → P (decodeWeight w)) (system : (fld w 0 7).toNat = 0x7E → P (decodeSystem w))
    (low : P (decodeLow w)) (vector : P (decodeVector w)) (permute : P (decodePermute w)) (engine : P (decodeEngine w)) :
    P (decodeFields w) := by
  unfold decodeFields
  dsimp only
  split_ifs
  exacts [scalar ‹_›, scalarFloat ‹_›, mask ‹_›, sync ‹_›, weight ‹_›, system ‹_›, low, vector, permute, engine]

/-- Each arm of each decoder: the encoder writes a field where the decoder has read it, and of the bits it writes itself the
decoder has checked every one. Bits that are checked together and written apart, or the other way round, are compared as
numbers. -/
theorem names_decodeFields (w : BitVec 32) : Names (decodeFields w) w := by
  apply decodeFields_cases (P := (Names · w))
  -- One goal for each arm of the decoder that the major selects.
  all_goals
    intros
    dsimp only [decodeScalar, decodeScalarFloat, decodeMask, decodeSync, decodeWeight, decodeSystem, decodeLow, decodeVector,
      decodePermute, decodeEngine]
    split
  -- The arms that refuse are done; an instruction stands under the checks its arm makes.
  all_goals simp only [names_error, names_ok_iff, names_mbz_iff, names_unless_iff, Bool.and_eq_true, decide_eq_true_eq]
  all_goals
    intros
    refine ⟨holds_append.2 ?_, rfl⟩
    simp only [holds_append, fld_eq_iff, toNat_fld] at *
    simp only [holds_iff, toNat_fld, BitVec.ofNat_eq_ofNat, BitVec.toNat_ofNat, Nat.reduceAdd, Nat.reducePow, and_true,
      true_and] at *
    omega

/-- What `decode` accepts is what the fields name, where its fields are admitted. -/
theorem decode_ok_iff {w : BitVec 32} {i : Instr} : decode w = .ok i ↔ decodeFields w = .ok i ∧ WellFormed i := by
  unfold decode WellFormed
  cases decodeFields w with
  | error r => exact ⟨nofun, fun h => nomatch h.1⟩
  | ok j =>
    dsimp only
    split
    · next r hr => exact ⟨nofun, fun h => by rw [Except.ok.inj h.1, h.2] at hr; nomatch hr⟩
    · next hj => exact ⟨fun h => ⟨h, Except.ok.inj h ▸ hj⟩, fun h => h.1⟩
theorem decode_error {w : BitVec 32} {r : Reject} (h : decodeFields w = .error r) : decode w = .error r := by
  rw [decode, h]

/-- Settles O2: no arm of a decoder ignores a bit, and `decode` checks what the arm names. -/
theorem encodeInvertsDecode : Obligations.EncodeInvertsDecode := by
  intro w i h
  obtain ⟨hfields, hwf⟩ := decode_ok_iff.1 h
  obtain ⟨hword, hhas⟩ := names_decodeFields w i hfields
  exact ⟨hword, hwf, hhas⟩

/-! ## Majors that name nothing (R104) -/

/-- A major that none of the decoders lists, with the other fields of the word left open. -/
theorem decodeFields_unassigned {w : BitVec 32}
    (h : fld w 0 7 ∈ ([0x00, 0x0E, 0x0F, 0x1E, 0x1F, 0x26, 0x27, 0x2F, 0x3E, 0x3F, 0x4D, 0x4E, 0x4F, 0x57, 0x62, 0x63,
      0x7F] : List (BitVec 7))) : decodeFields w = .error .reservedMajor := by
  rw [decodeFields, decodeLow, decodeVector, decodePermute, decodeEngine]
  generalize fld w 0 7 = major at h ⊢
  fin_cases h <;> rfl

/-- Settles O3: the printed words by evaluation, the unassigned majors by the decoder that each falls to. -/
theorem printedWordsDecode : Obligations.PrintedWordsDecode :=
  ⟨by and_intros <;> rfl, fun _ h => decode_error (decodeFields_unassigned h)⟩

end Sys2Proof.Machine
end

section
/-! Steps that take a trap at their fetch or at a word that is no instruction, and steps that consume an input (log 4, R104,
R105, R244, R321, R337). -/

namespace Sys2Proof.Machine

/-! ## Traps in place of an instruction -/

/-- A word that decodes to nothing runs as ILLEGAL_OP (R104, R105). -/
theorem runWord_error {s : State} {w : BitVec 32} {r : Reject} (h : decode w = .error r) :
    runWord w s = exec (.illegalOp w) s := by
  rw [runWord, h]
theorem issueScalar_page {s s1 : State} {k : Kind} {v : Word}
    (h : fetchM s.hart.id s.hart.pc s = .error (.trap .page k v) s1) : issueScalar s = exec (.fetchFault false) s1 := by
  rw [issueScalar, h]
theorem issueScalar_perm {s s1 : State} {k : Kind} {v : Word}
    (h : fetchM s.hart.id s.hart.pc s = .error (.trap .perm k v) s1) : issueScalar s = exec (.fetchFault true) s1 := by
  rw [issueScalar, h]

/-! ## Inputs (log 4) -/

section
variable {s : State} {i : Input} {rest : List Input}

/-- In the freeze an input is taken as a frozen part takes it (R321). -/
theorem step_frozenInput (hin : s.inputs = i :: rest) (hf : s.frozen = true) :
    step s = frozenInput i { s with inputs := rest } := by
  simp only [step, cycle, hin, hf, if_true]
/-- In the pilot-light state, as its management controller takes it (R337). -/
theorem step_darkInput (hin : s.inputs = i :: rest) (hf : s.frozen = false) (hp : s.pilot.isSome = true) :
    step s = darkInput i { s with inputs := rest } := by
  simp only [step, cycle, hin, hf, hp, Bool.false_eq_true, if_true, if_false]
theorem step_takeInput (hin : s.inputs = i :: rest) (hf : s.frozen = false) (hp : s.pilot.isSome = false) :
    step s = takeInput i { s with inputs := rest } := by
  simp only [step, cycle, hin, hf, hp, Bool.false_eq_true, if_false]
theorem step_frozen (hin : s.inputs = []) (hf : s.frozen = true) : step s = .fault .frozen := by
  simp only [step, cycle, hin, hf, if_true]
theorem step_dark (hin : s.inputs = []) (hf : s.frozen = false) (hp : s.pilot.isSome = true) : step s = .next s := by
  simp only [step, cycle, hin, hf, hp, Bool.false_eq_true, if_true, if_false]

/-- A frozen part answers configuration reads, and nothing but a reset does anything else (R321). -/
theorem frozenInput_busOut (h : ∀ r, i ≠ .event (.reset r)) (t : State) :
    ∃ out, frozenInput i t = .next { t with busOut := out } := by
  unfold frozenInput
  split
  · exact absurd rfl (h _)
  · exact ⟨_, rfl⟩
  · exact ⟨_, rfl⟩
  · exact ⟨t.busOut, rfl⟩

/-- A reset takes place whatever state the part is in. -/
theorem step_reset {r : BringUp} (hin : s.inputs = .event (.reset r) :: rest) :
    step s = exec (.reset r) { s with inputs := rest } := by
  cases hf : s.frozen with
  | true => exact step_frozenInput hin hf
  | false =>
    cases hp : s.pilot.isSome with
    | true => exact step_darkInput hin hf hp
    | false => exact step_takeInput hin hf hp
end

/-- The events are the rows that have no word, except what a hart does in place of an instruction (R24). -/
theorem isEvent_iff {e : Instr} :
    isEvent e = true ↔ e.hasWord = false ∧ (∀ w, e ≠ .illegalOp w) ∧ ∀ p, e ≠ .fetchFault p := by
  unfold isEvent
  split
  · next w => simp
  · next p => simp
  · next hw hp => exact ⟨fun h => ⟨by simpa using h, hw, hp⟩, fun h => by simp [h.1]⟩

/-- Settles O10: the traps by what the scalar unit issues, the inputs by the state of the part that takes them. -/
theorem stepTrapsAndInputs : Obligations.StepTrapsAndInputs := by
  refine ⟨fun s s1 hi => ⟨fun w r hf hd => ⟨?_, rfl⟩, fun k v hf => ⟨?_, rfl⟩, fun k v hf => ⟨?_, rfl⟩⟩,
    fun s e rest => ⟨?event, ?noEvent, ?frozen, fun r => step_reset, step_frozen, step_dark,
      step_darkInput⟩⟩
  · rw [step_of_fetched hi hf, runWord_error hd]
    rfl
  · rw [step_of_issuesNext hi, issueScalar_page hf]
    rfl
  · rw [step_of_issuesNext hi, issueScalar_perm hf]
    rfl
  case event =>
    intro hin hf hp hw hill hfault
    rw [step_takeInput hin hf (by rw [hp]; rfl)]
    exact if_pos (isEvent_iff.2 ⟨hw, hill, hfault⟩)
  case noEvent =>
    intro hin hf hp h
    rw [step_takeInput hin hf (by rw [hp]; rfl)]
    refine if_neg fun hev => ?_
    obtain ⟨hw, hill, hfault⟩ := isEvent_iff.1 hev
    rcases h with h | ⟨w, rfl⟩ | ⟨p, rfl⟩
    · rw [hw] at h
      nomatch h
    · exact hill w rfl
    · exact hfault p rfl
  case frozen =>
    intro i hin hf hr
    rw [step_frozenInput hin hf]
    exact frozenInput_busOut hr _

end Sys2Proof.Machine
end

section
/-! Reductions of vector elements onto a scalar (R142, R143, R427, R441, R442). -/

namespace Sys2Proof.Machine

/-! ## The tree over one element group (R142) -/

section
variable {f : Nat → Nat → Nat}

/-- An operation that raises no flag, as the tree takes it. -/
def unflagged (f : Nat → Nat → Nat) (x y : Nat) : Nat × Flags := (f x y, 0)

/-- One level of the tree keeps what its leaves come to from left to right. -/
theorem pairUp_foldl (hf : ∀ a b c, f (f a b) c = f a (f b c)) (acc : Nat) (xs : List (Option Nat × Flags)) :
    ((pairUp (unflagged f) xs).filterMap Prod.fst).foldl f acc = (xs.filterMap Prod.fst).foldl f acc := by
  fun_induction pairUp (unflagged f) xs generalizing acc with
  | case1 x y t ih =>
    obtain ⟨x, fx⟩ := x
    obtain ⟨y, fy⟩ := y
    cases x <;> cases y <;> simp [combine, unflagged, ih, hf]
  | case2 xs => rfl
theorem pairUp_unflagged {xs : List (Option Nat × Flags)} (h : ∀ x ∈ xs, x.2 = 0) : ∀ x ∈ pairUp (unflagged f) xs, x.2 = 0 := by
  fun_induction pairUp (unflagged f) xs with
  | case1 x y t ih =>
    simp only [List.forall_mem_cons] at h ⊢
    obtain ⟨hx, hy, ht⟩ := h
    refine ⟨?_, ih ht⟩
    obtain ⟨x, fx⟩ := x
    obtain ⟨y, fy⟩ := y
    subst hx hy
    cases x <;> cases y <;> simp [combine, unflagged]
  | case2 xs => exact h
theorem pairUp_length (op : Nat → Nat → Nat × Flags) (xs : List (Option Nat × Flags)) :
    (pairUp op xs).length = (xs.length + 1) / 2 := by
  fun_induction pairUp op xs with
  | case1 x y t ih =>
    simp only [List.length_cons, ih]
    omega
  | case2 xs h =>
    match xs with
    | [] => rfl
    | [x] => simp
    | x :: y :: t => exact absurd rfl (h x y t)

/-- A tree of as many levels as it needs comes to one node, which holds what its leaves come to from left to right. -/
theorem treeLevels_node (hf : ∀ a b c, f (f a b) c = f a (f b c)) (n : Nat) {xs : List (Option Nat × Flags)}
    (h0 : xs ≠ []) (hn : xs.length ≤ 2 ^ n) (hx : ∀ x ∈ xs, x.2 = 0) :
    ∃ y, treeLevels (unflagged f) n xs = [(y, 0)] ∧
      ∀ acc, (y.map (f acc)).getD acc = (xs.filterMap Prod.fst).foldl f acc := by
  induction n generalizing xs with
  | zero =>
    obtain ⟨⟨y, fl⟩, rfl⟩ := List.length_eq_one_iff.1 (Nat.le_antisymm hn (List.length_pos_iff.2 h0))
    obtain rfl : fl = 0 := hx _ (List.mem_singleton_self _)
    refine ⟨y, rfl, fun acc => ?_⟩
    cases y <;> rfl
  | succ n ih =>
    have hlen := pairUp_length (unflagged f) xs
    have hpos := List.length_pos_iff.2 h0
    rw [Nat.pow_succ] at hn
    obtain ⟨y, hy, hacc⟩ := ih (xs := pairUp (unflagged f) xs) (List.length_pos_iff.1 (by omega)) (by omega) (pairUp_unflagged hx)
    exact ⟨y, hy, fun acc => (hacc acc).trans (pairUp_foldl hf acc xs)⟩

/-- The tree of R142 of an associative operation without flags is the operation from left to right. -/
theorem reduceTree_foldl (hf : ∀ a b c, f (f a b) c = f a (f b c)) (seed : Nat) (x : Nat → Option Nat) {m : Nat}
    (h0 : 0 < m) (hm : m ≤ 256) (e : Nat) :
    reduceTree (unflagged f) seed x m e = (((List.range (e * m)).filterMap x).foldl f seed, 0) := by
  induction e with
  | zero => rw [Nat.zero_mul]; rfl
  | succ e ih =>
    obtain ⟨y, hy, hacc⟩ := treeLevels_node hf 8 (xs := (List.range m).map fun j => (x (e * m + j), (0 : Flags)))
      (by simpa using Nat.ne_of_gt h0) (by simpa using hm) (by simp)
    have hsplit : (List.range ((e + 1) * m)).filterMap x =
        (List.range (e * m)).filterMap x ++ ((List.range m).map fun j => (x (e * m + j), (0 : Flags))).filterMap Prod.fst := by
      rw [Nat.succ_mul, List.range_add, List.filterMap_append, List.filterMap_map, List.filterMap_map]
      rfl
    rw [hsplit, List.foldl_append, ← hacc]
    unfold reduceTree
    rw [ih, hy]
    cases y <;> simp [unflagged]

end

/-! ## The elements a reduction takes -/

/-- Elements from VL on are not active, so the groups of R142 hold those below VL alone. -/
theorem filter_range_min {p : Nat → Bool} {l : Nat} (hp : ∀ n, p n = true → n < l) (n : Nat) :
    (List.range n).filter p = (List.range (min l n)).filter p := by
  obtain ⟨r, hr⟩ := Nat.exists_eq_add_of_le (Nat.min_le_right l n)
  have hnone : ((List.range r).map (min l n + ·)).filter p = [] := by
    refine List.filter_eq_nil_iff.2 fun j hj h => ?_
    obtain ⟨i, hi, rfl⟩ := List.mem_map.1 hj
    have := hp _ h
    have := List.mem_range.1 hi
    omega
  conv_lhs => rw [hr, List.range_add, List.filter_append, hnone, List.append_nil]
theorem filterMap_guard (p : Nat → Bool) (g : Nat → Nat) (l : List Nat) :
    l.filterMap (fun n => if p n = true then some (g n) else none) = (l.filter p).map g := by
  induction l with
  | nil => rfl
  | cons n l ih => cases hn : p n <;> simp [hn, ih]
/-- The bytes of an element group hold whole elements. -/
theorem ET.bytes_mul_div (t : ET) (n : Nat) : n * (256 / t.bytes) = 256 * n / t.bytes := by
  rw [← Nat.mul_div_assoc _ (by cases t <;> decide), Nat.mul_comm]

/-! ## Integer operations -/

section
variable (u : BitVec 1) {W : Nat}

theorem addW_assoc (W a b c : Nat) : addW W (addW W a b) c = addW W a (addW W b c) := by
  simp only [addW, Nat.mod_add_mod, Nat.add_mod_mod, Nat.add_assoc]
theorem maxW_eq (hW : 0 < W) (l r : Nat) : maxW u W l r = if vv u W l < vv u W r then r else l := by
  simp only [maxW, ltW_eq _ _ _ _ hW, decide_eq_true_eq]
theorem minW_eq (hW : 0 < W) (l r : Nat) : minW u W l r = if vv u W r < vv u W l then r else l := by
  simp only [minW, ltW_eq _ _ _ _ hW, decide_eq_true_eq]
theorem maxW_assoc (hW : 0 < W) (a b c : Nat) : maxW u W (maxW u W a b) c = maxW u W a (maxW u W b c) := by
  simp only [maxW_eq u hW]
  split_ifs <;> omega
theorem minW_assoc (hW : 0 < W) (a b c : Nat) : minW u W (minW u W a b) c = minW u W a (minW u W b c) := by
  simp only [minW_eq u hW]
  split_ifs <;> omega

end

/-- Sums that wrap at every step and sums that do not have the same low bits. -/
theorem foldl_addW (W : Nat) (l : List Nat) {a b : Nat} (h : BitVec.ofNat W a = BitVec.ofNat W b) :
    BitVec.ofNat W (l.foldl (addW W) a) = BitVec.ofNat W (l.foldl (· + ·) b) := by
  induction l generalizing a b with
  | nil => exact h
  | cons x l ih =>
    refine ih ?_
    rw [BitVec.ofNat_add, ← h, ← BitVec.ofNat_add]
    exact BitVec.eq_of_toNat_eq (by simp [addW])

/-! ## What a reduction leaves (R427, R441, R442) -/

section
variable {s : State} {i : Instr} {ok : ET → Bool} {d a b : BitVec 6} {k : BitVec 4}
  {op : ET → Frm → Nat → Nat → Nat × Flags} {out : ET → Nat → Word}

/-- The active elements of a register, below `n`. -/
def activeElems (s : State) (k : BitVec 4) (a : BitVec 6) (n : Nat) : List Nat :=
  ((List.range n).filter (s.hart.active k)).map (s.hart.elem a.toNat s.hart.et.bytes)
/-- What the tree of R142 comes to over them. -/
def treeResult (s : State) (k : BitVec 4) (a b : BitVec 6) (op : Nat → Nat → Nat × Flags) : Nat × Flags :=
  reduceTree op ((s.rs b).toNat % 2 ^ (8 * s.hart.et.bytes))
    (fun n => if s.hart.active k n = true then some (s.hart.elem a.toNat s.hart.et.bytes n) else none)
    (256 / s.hart.et.bytes) s.hart.lanes
/-- What they come to from left to right. -/
def seqResult (s : State) (k : BitVec 4) (a b : BitVec 6) (op : Nat → Nat → Nat × Flags) : Nat × Flags :=
  (activeElems s k a s.hart.vl).foldl (fun acc y => ((op acc.1 y).1, acc.2 ||| (op acc.1 y).2))
    ((s.rs b).toNat % 2 ^ (8 * s.hart.et.bytes), 0)

/-- What they come to, as the instruction takes them. -/
def reduced (s : State) (k : BitVec 4) (a b : BitVec 6) (seq : Bool) (op : Nat → Nat → Nat × Flags) : Nat × Flags :=
  if seq then seqResult s k a b op else treeResult s k a b op

/-- A reduction whose ET is right and whose due elements are clean hands its result to the scalar register. -/
theorem reduceM_run (seq : Bool) {v : Nat} {fl : Flags} {c : Cap} (hok : ok s.hart.et = true) (ha : Clean s k a)
    (hc : c.op2 = s.rs b) (hr : reduced s k a b seq (op s.hart.et s.hart.frm) = (v, fl)) :
    reduceM i ok d a k seq op out c s = .ok () (s.withHart ((s.hart.setS d (out s.hart.et v)).orFlags fl)) := by
  have hclean : consume k [(a.toNat, s.hart.et.bytes)] s = .ok () s := consume_clean fun p hp n hn => by
    obtain rfl := List.mem_singleton.1 hp
    exact ha n hn
  unfold reduceM
  rw [M.hart_bind, if_neg (by simp [hok])]
  refine (M.bind_ok hclean).trans ?_
  rw [hc]
  exact congrArg (fun r : Nat × Flags => setHartM ((s.hart.setS d (out s.hart.et r.1)).orFlags r.2) s) hr
theorem reduce_ran (seq : Bool) {v : Nat} {fl : Flags} {x : Word} (hf : VectorFree s) (hok : ok s.hart.et = true)
    (ha : Clean s k a) (hc : (capOf i s.hart).2 = s.rs b) (he : exec i s = vecIssue i (reduceM i ok d a k seq op out) s)
    (hr : reduced s k a b seq (op s.hart.et s.hart.frm) = (v, fl)) (hx : out s.hart.et v = x) :
    Completes i s (VectorScalar s · d x fl) := by
  subst hx
  exact scalar_ran hf (reduceM_run (s := s.issued i) seq hok ha hc hr) he

/-- An associative integer operation is reduced from left to right, whatever the tree. -/
theorem treeResult_foldl {f : Nat → Nat → Nat} (hf : ∀ a b c, f (f a b) c = f a (f b c)) :
    treeResult s k a b (unflagged f) =
      ((activeElems s k a (min s.hart.vl (vlmaxOf s s.hart.et.bytes))).foldl f ((s.rs b).toNat % 2 ^ (8 * s.hart.et.bytes)), 0) := by
  have hactive : ∀ n, s.hart.active k n = true → n < s.hart.vl := fun n hn => by
    simp only [Hart.active, Bool.and_eq_true, decide_eq_true_eq] at hn
    exact hn.1
  have hgroup : 0 < 256 / s.hart.et.bytes := by cases s.hart.et <;> decide
  rw [treeResult, reduceTree_foldl hf _ _ hgroup (Nat.div_le_self _ _), ET.bytes_mul_div, filterMap_guard,
    filter_range_min hactive]
  rfl
/-- An operation without flags from left to right. -/
theorem seqResult_foldl (f : Nat → Nat → Nat) :
    seqResult s k a b (unflagged f) = ((activeElems s k a s.hart.vl).foldl f ((s.rs b).toNat % 2 ^ (8 * s.hart.et.bytes)), 0) := by
  unfold seqResult
  generalize (s.rs b).toNat % 2 ^ (8 * s.hart.et.bytes) = seed
  induction activeElems s k a s.hart.vl generalizing seed with
  | nil => rfl
  | cons x xs ih =>
    simp only [List.foldl_cons, unflagged, BitVec.or_self]
    exact ih (f seed x)

theorem toScalar_float {t : ET} (h : t.isFloat = true) (x : Nat) : toScalar t x = BitVec.ofNat 64 x := if_pos h
theorem toScalar_int {t : ET} (h : t.isFloat = false) (x : Nat) :
    toScalar t x = (BitVec.ofNat (8 * t.bytes) x).signExtend 64 := by
  have hb := t.bytes_pos
  rw [toScalar, if_neg (by simp [h]), toSigned_eq _ _ (by unfold ET.bits; omega)]
  rfl
/-- A wrapping sum as a scalar. -/
theorem toScalar_sum {t : ET} (h : t.isFloat = false) (l : List Nat) (seed : Nat) :
    toScalar t (l.foldl (addW t.bits) seed) = (BitVec.ofNat (8 * t.bytes) (l.foldl (· + ·) seed)).signExtend 64 := by
  rw [toScalar_int h]
  exact congrArg (BitVec.signExtend 64) (foldl_addW _ l rfl)

/-- A result of a choice between the operands as a scalar. -/
theorem outInt_foldl (u : BitVec 1) {t : ET} (h : t.isFloat = false) {f g : Nat → Nat → Nat} (hfg : ∀ x y, f x y = g x y)
    (l : List Nat) (seed : Nat) : outInt u t (l.foldl f seed) =
      if u = 1 then BitVec.ofNat 64 (l.foldl g seed) else (BitVec.ofNat (8 * t.bytes) (l.foldl g seed)).signExtend 64 := by
  obtain rfl : f = g := funext fun x => funext (hfg x)
  rw [outInt, toScalar_int h]

end

/-- Settles O28: an integer reduction by `treeResult_foldl`, since its operation is associative; a float one is the tree of R142
itself, and VREDSEQ goes from left to right as it stands. -/
theorem vectorReductions : Obligations.VectorReductions := by
  intro s d a b k u hf ha
  have hW : 0 < s.hart.et.bits := Nat.mul_pos (by decide) s.hart.et.bytes_pos
  refine ⟨fun het => ⟨?sum, ?max, ?min, ?seq⟩, fun het => ⟨?fsum, ?fmax, ?fseq⟩⟩
  case sum =>
    exact reduce_ran (op := intOp addW) false hf (isInt_of het) ha rfl rfl (treeResult_foldl (addW_assoc _))
      (toScalar_sum het _ _)
  case max =>
    exact reduce_ran (op := intOp (maxW u)) false hf (isInt_of het) ha rfl rfl (treeResult_foldl (maxW_assoc u hW))
      (outInt_foldl u het (maxW_eq u hW) _ _)
  case min =>
    exact reduce_ran (op := intOp (minW u)) false hf (isInt_of het) ha rfl rfl (treeResult_foldl (minW_assoc u hW))
      (outInt_foldl u het (minW_eq u hW) _ _)
  case seq =>
    have hop : seqOp s.hart.et s.hart.frm = unflagged (addW s.hart.et.bits) := by
      funext x y
      exact if_neg (by simp [het])
    refine reduce_ran (ok := anyET) (op := seqOp) true hf rfl ha rfl rfl ?_ (toScalar_sum het _ _)
    rw [hop]
    exact seqResult_foldl _
  case fsum => exact reduce_ran (op := floatOp fAdd) false hf het ha rfl rfl rfl (toScalar_float het _)
  case fmax => exact reduce_ran (op := floatOp fun f _ => redMax f) false hf het ha rfl rfl rfl (toScalar_float het _)
  case fseq =>
    have hop : seqOp s.hart.et s.hart.frm = fAdd s.hart.et.fmt s.hart.frm := by
      funext x y
      exact if_pos het
    refine reduce_ran (ok := anyET) (op := seqOp) true hf rfl ha rfl rfl ?_ (toScalar_float het _)
    rw [hop]
    rfl

end Sys2Proof.Machine
end

section
/-! Indexed accesses whose lowest active element lies below VSTART and has a poisoned index (R59, R152, R245, R265). -/

namespace Sys2Proof.Machine

/-- A hart at VL 2 and VSTART 1 whose index register, 2, holds zeros, that of element 0 poisoned; s1 is the base of scratch. -/
def staleIndex : State :=
  (bootState State.reset).withHart { (bootHart.setS 1 0x40000000).setVp 2 1 with et := .i32, vl := 2, vstart := 1 }

theorem staleIndex_free : VectorFree staleIndex := ⟨rfl, rfl, rfl, rfl, rfl, rfl⟩
/-- Element 1 alone is due. -/
theorem staleIndex_due {n : Nat} (h : staleIndex.hart.due 15 n = true) : n = 1 := by
  obtain ⟨-, hlt, hge⟩ := due_active h
  exact Nat.le_antisymm (Nat.le_of_lt_succ hlt) hge
theorem staleIndex_clean {r : BitVec 6} (hr : staleIndex.hart.elemBad r.toNat 4 1 = false) :
    Clean staleIndex 15 r := fun n hn => by
  obtain rfl := staleIndex_due hn
  exact hr
/-- Element 0 is the lowest active one. -/
theorem staleIndex_reference {n : Nat} (h : ∀ j < n, staleIndex.hart.active 15 j = false) : n = 0 := by
  by_contra hn
  exact absurd (h 0 (Nat.pos_of_ne_zero hn)) (by decide +kernel)
/-- Both elements lie at the base of scratch. -/
theorem staleIndex_va {n : Nat} (hn : n ≤ 1) : elementVa staleIndex 2 1 2 4 n = 0x40000000 := by
  interval_cases n <;> decide +kernel
theorem staleIndex_scratch (kd : Kind) (hk : kd ≠ .exec) {w : Nat} (hw : w ≤ 4) :
    Reaches staleIndex 0x40000000 w kd (scratchPlaces 0 w) 0 :=
  .inl ⟨0, by decide +kernel, by have : Config.scratchSize = 0x80000 := rfl; omega, hk, rfl, rfl⟩
theorem staleIndex_decodable (kd : Kind) (hk : kd ≠ .exec) : Decodable staleIndex 15 2 1 2 kd false 0 := by
  refine ⟨by decide, fun _ => staleIndex_clean (by decide +kernel),
    fun _ => ⟨by decide, fun h => absurd h (by decide), fun n _ hn => ?_⟩⟩
  obtain rfl := staleIndex_reference hn
  exact ⟨_, (staleIndex_va (Nat.zero_le 1)).symm ▸ staleIndex_scratch kd hk (by decide)⟩
theorem staleIndex_reaches (kd : Kind) (hk : kd ≠ .exec) {n : Nat} (hn : staleIndex.hart.due 15 n = true) :
    ElementReaches staleIndex 2 1 2 kd false 0 (fun _ => scratchPlaces 0 4) n := by
  obtain rfl := staleIndex_due hn
  have hw : memWidth staleIndex false 0 = 4 := rfl
  simp only [ElementReaches, hw, staleIndex_va (Nat.le_refl 1)]
  refine ⟨by decide, rfl, fun l hl => ?_, 0, staleIndex_scratch kd hk (Nat.le_refl 4), fun _ => rfl⟩
  obtain ⟨i, -, rfl⟩ := List.mem_map.1 hl
  exact ⟨rfl, fun _ => trivial⟩

/-- TRAPCAUSE of the focus hart as an instruction leaves it. -/
def causeAfter : Out → Word
  | .next t => t.hart.trapcause
  | _ => 0
/-- The page format is that of the lowest active element, whose address is unknown: the access raises POISON. -/
theorem staleIndex_poison : ∀ i ∈ ([.vld 3 1 2 15 0 2, .vst 3 1 2 15 2] : List Instr),
    causeAfter (exec i staleIndex) = causeWord .poison .read := by decide +kernel

/-- Refutes O30: its hypotheses ask that the index of every due element be clean, but R152 takes the page format from the
lowest active element, which is not due where it lies below VSTART. In `staleIndex` that element's index is poisoned: VLD
raises POISON (log 24) where the statement has it load element 1. -/
theorem not_vectorLoads : ¬ Obligations.VectorLoads := by
  unfold Obligations.VectorLoads
  intro h
  obtain ⟨⟨t, ht, -, -, hframe⟩, -⟩ := h staleIndex 3 1 2 15 0 2 false 0 (fun _ => scratchPlaces 0 4) staleIndex_free (by decide)
    (staleIndex_decodable .read nofun) (fun _ hn => staleIndex_reaches .read nofun hn) (by decide)
  have hcause : causeWord .poison .read = t.hart.trapcause :=
    (staleIndex_poison _ (.head _)).symm.trans (congrArg causeAfter ht)
  have hkept : t.hart.trapcause = 0 := by
    rw [hframe]
    rfl
  exact absurd (hcause.trans hkept) (by decide)

/-- Refutes O31: its first clause asks no more of the indices than O30 does, and the format of a VST in `staleIndex` is as little
known (`not_vectorLoads`): it raises POISON where the statement has it store element 1. -/
theorem not_vectorStores : ¬ Obligations.VectorStores := by
  unfold Obligations.VectorStores
  rintro ⟨h, -⟩
  obtain ⟨t, ht, -, -, hhart, -⟩ := h staleIndex 3 1 2 15 2 false 0 (fun _ => scratchPlaces 0 4) staleIndex_free
    (staleIndex_clean (by decide +kernel)) (staleIndex_decodable .write nofun) (fun _ hn => staleIndex_reaches .write nofun hn)
  have hcause : causeWord .poison .read = t.hart.trapcause :=
    (staleIndex_poison _ (.tail _ (.head _))).symm.trans (congrArg causeAfter ht)
  have hkept : t.hart.trapcause = 0 := by
    rw [hhart]
    rfl
  exact absurd (hcause.trans hkept) (by decide)

end Sys2Proof.Machine
end

section
/-! VTCONJ with a VSTART inside a tuple (R158, R165; log 83). -/

namespace Sys2Proof.Machine

theorem WritesElems.elem_of_none {s t : State} {w r n : Nat} {f : Nat → Nat → Option Nat} {raised : Nat → Prop}
    (h : WritesElems s t w f raised) (hr : r < 48) (hn : w * (n + 1) ≤ 1024) (hf : f r n = none) :
    t.hart.elem r w n = s.hart.elem r w n := by
  obtain ⟨helems, -⟩ := h
  rw [(helems r n hr hn).1, hf]
  rfl

/-- A table record for tuples of two components: one entry, complex conjugation as INV0 and the identity as INV1 (R153, R154). -/
def conjugateTable : List Byte :=
  [2, 2, 2, 1, 0, 0, 0, 0, 0, 0x81, 0, 0, 0, 0, 0, 0, 0, 1, 0, 0, 0, 0, 0, 0] ++ List.replicate 40 0 ++
  [0, 0, 0, 0, 0, 0, 0x80, 0x3F] ++ List.replicate 952 0

theorem conjugateTable_zero {i : Nat} (hi : 72 ≤ i) : byteAt conjugateTable i = 0 := by
  rw [byteAt, conjugateTable, List.getD_append_right _ _ _ _ hi, List.getD_eq_getElem?_getD, List.getElem?_replicate]
  split <;> rfl
theorem reservedByte_of_zero {r : List Byte} {nnz i : Nat} (h : byteAt r i = 0) : reservedByte r nnz i = false := by
  simp [reservedByte, h, bitsAt]
theorem conjugateTable_good : tableAmiss conjugateTable = none := by
  have hlow : ∀ i < 72, reservedByte conjugateTable 1 i = false := by decide +kernel
  have hfind : (List.range 1024).find? (reservedByte conjugateTable (tableOf conjugateTable).nnz) = none := by
    rw [List.find?_eq_none]
    intro i _
    rw [Bool.not_eq_true]
    rcases Nat.lt_or_ge i 72 with hi | hi
    · exact hlow i hi
    · exact reservedByte_of_zero (conjugateTable_zero hi)
  unfold tableAmiss
  simp only [hfind]
  decide +kernel

/-- A float hart at VL 2 and VSTART 1, inside the only tuple, with that table, which ALGLD would take (`conjugateTable_good`), in slot
0; component 0 of register 1 is 1.0. -/
def midTuple : State :=
  let s := bootState State.reset
  { s with
    hart := { bootHart.setV 1 0x3F800000 with et := .f32, vl := 2, vstart := 1 }
    ctxs := [(0, { bootCtx with tabs := [⟨0, conjugateTable, some 0, 0, none⟩] })] }

theorem midTuple_free : VectorFree midTuple := ⟨rfl, rfl, rfl, rfl, rfl, rfl⟩

theorem midTuple_unwritten : midTuple.hart.elem 3 4 0 = 0 := by decide +kernel

/-- Element 0 of register 3, four bytes wide, as an instruction leaves it. -/
def elementAfter : Out → Nat
  | .next t => t.hart.elem 3 4 0
  | _ => 0

/-- The tuple starts again from its first component, which lies below VSTART. -/
theorem midTuple_restarts : elementAfter (exec (.vtconj 3 1 15 0 0 0) midTuple) = 0x3F800000 := by decide +kernel

/-- Refutes O33: its clause on VTCONJ keeps every element below VSTART and, unlike that on VTMUL, does not ask VSTART to be a
multiple of the divisor. From `midTuple`, whose VSTART is 1, the tuple of two restarts at component 0 (log 83), so element 0 of
the destination receives 1.0 where the statement has it stay zero. -/
theorem not_tuplesMultiply : ¬ Obligations.TuplesMultiply := by
  unfold Obligations.TuplesMultiply
  rintro ⟨-, hconj, -⟩
  obtain ⟨-, hmoves⟩ := hconj midTuple 3 1 15 0 0 0
  obtain ⟨t, ht, hwrites⟩ := hmoves (tableOf conjugateTable) midTuple_free rfl (by decide +kernel) (by decide) rfl
    (by decide) rfl rfl
  have hbelow := hwrites.elem_of_none (r := 3) (n := 0) (by decide) (by decide) ((if_pos rfl).trans (if_pos (.inr Nat.zero_lt_one)))
  have hkept : t.hart.elem 3 4 0 = 0 := hbelow.trans midTuple_unwritten
  have hmoved : 0x3F800000 = t.hart.elem 3 4 0 := midTuple_restarts.symm.trans (congrArg elementAfter ht)
  exact absurd (hmoved.trans hkept) (by decide)

end Sys2Proof.Machine
end

section
/-! Accumulator rows and check regions read back (R178, R182, R184 to R186), and what the Lantern's instructions share when they
issue (R60, R64). -/

namespace Sys2Proof.Machine

/-! ## Words of a register, a row or a record -/

theorem wordAt_putWord {n : Nat} (x : BitVec n) (i v c : Nat) (hc : 32 * (c + 1) ≤ n) :
    wordAt (putWord x i v) c = if c = i then v % 2 ^ 32 else wordAt x c := by
  have bit : ∀ k < 32, (putWord x i v).getLsbD (32 * c + k) =
      if c = i then (v % 2 ^ 32).testBit k else x.getLsbD (32 * c + k) := fun k hk => by
    have hlt : 32 * c + k < n := by omega
    have hm : v % 2 ^ 32 < 2 ^ 32 := Nat.mod_lt _ (by decide)
    simp only [putWord, BitVec.getLsbD_or, BitVec.getLsbD_and, BitVec.getLsbD_not, BitVec.getLsbD_shiftLeft,
      BitVec.getLsbD_ofNat, Nat.testBit_two_pow_sub_one, hlt, decide_true, Bool.true_and]
    rcases Nat.lt_trichotomy c i with h | rfl | h
    · have : 32 * c + k < 32 * i := by omega
      simp [this, h.ne]
    · simp [hk, show k < n by omega]
    · have h1 : ¬ 32 * c + k < 32 * i := by omega
      have h2 : ¬ 32 * c + k - 32 * i < 32 := by omega
      have h3 : (v % 2 ^ 32).testBit (32 * c + k - 32 * i) = false :=
        Nat.testBit_lt_two_pow (hm.trans_le (Nat.pow_le_pow_right (by decide) (by omega)))
      simp only [h1, h2, h3, h.ne', decide_false, Bool.and_false, Bool.not_false, Bool.and_true, Bool.or_false, if_false]
  unfold wordAt
  by_cases h : c = i
  · rw [if_pos h]
    have : (putWord x i v).extractLsb' (32 * c) 32 = BitVec.ofNat 32 (v % 2 ^ 32) :=
      BitVec.eq_of_getLsbD_eq fun k hk => by
        rw [BitVec.getLsbD_extractLsb', bit k hk, if_pos h, BitVec.getLsbD_ofNat, decide_eq_true hk, Bool.true_and]
    rw [this, BitVec.toNat_ofNat, Nat.mod_mod]
  · rw [if_neg h]
    congr 1
    exact BitVec.eq_of_getLsbD_eq fun k hk => by
      rw [BitVec.getLsbD_extractLsb', BitVec.getLsbD_extractLsb', bit k hk, if_neg h]

/-- A word after a run of `n` words from `b` on is written. -/
theorem wordAt_putWords_range {w : Nat} (x : BitVec w) (b n : Nat) (f : Nat → Nat) {c : Nat} (hc : 32 * (c + 1) ≤ w) :
    wordAt (putWords x ((List.range n).map (fun i => (b + i, f i)))) c =
      if b ≤ c ∧ c < b + n then f (c - b) % 2 ^ 32 else wordAt x c := by
  induction n with
  | zero => rw [if_neg (by omega)]; rfl
  | succ n ih =>
    have hstep : putWords x ((List.range (n + 1)).map (fun i => (b + i, f i))) =
        putWord (putWords x ((List.range n).map (fun i => (b + i, f i)))) (b + n) (f n) := by
      simp [putWords, List.range_succ]
    rw [hstep, wordAt_putWord _ _ _ _ hc, ih]
    by_cases h : c = b + n
    · subst h
      rw [if_pos rfl, if_pos (by omega), Nat.add_sub_cancel_left]
    · rw [if_neg h]
      congr 1
      rw [eq_iff_iff]
      omega

/-! ## Rows, regions and weight slots by number -/

section
variable (sl : Slot) (r q g : Nat) (x : AccRow) (y : Region) (v : WSlot)

theorem Slot.setRow_row : (sl.setRow r x).row q = if q = r then x else sl.row q := mapGet_put ..
theorem Slot.setRegion_region : (sl.setRegion r y).region g = if g = r then y else sl.region g := mapGet_put ..
@[simp] theorem Slot.setRow_row_self : (sl.setRow r x).row r = x := mapGet_put_self ..
@[simp] theorem Slot.setRegion_region_self : (sl.setRegion r y).region r = y := mapGet_put_self ..
@[simp] theorem Slot.setRow_region : (sl.setRow r x).region g = sl.region g := rfl
@[simp] theorem Slot.setRegion_row : (sl.setRegion r y).row q = sl.row q := rfl
@[simp] theorem Slot.setRow_weight : (sl.setRow r x).weight q = sl.weight q := rfl
@[simp] theorem Slot.setRegion_weight : (sl.setRegion r y).weight q = sl.weight q := rfl

end

/-- From `sl` to `sl'` the record of region `g` alone may have changed: no row, no tile, no other region. -/
structure RegionOnly (g : Nat) (sl sl' : Slot) : Prop where
  row : ∀ q, sl'.row q = sl.row q
  weight : ∀ w, sl'.weight w = sl.weight w
  region : ∀ k, k ≠ g → sl'.region k = sl.region k

namespace RegionOnly

variable {g : Nat} {sl sl' sl'' : Slot}

theorem refl (sl : Slot) : RegionOnly g sl sl := ⟨fun _ => rfl, fun _ => rfl, fun _ _ => rfl⟩
theorem trans (h : RegionOnly g sl sl') (h' : RegionOnly g sl' sl'') : RegionOnly g sl sl'' :=
  ⟨fun q => (h'.row q).trans (h.row q), fun w => (h'.weight w).trans (h.weight w),
    fun k hk => (h'.region k hk).trans (h.region k hk)⟩
theorem setRegion (sl : Slot) (y : Region) : RegionOnly g sl (sl.setRegion g y) :=
  ⟨fun _ => rfl, fun _ => rfl, fun k hk => by rw [Slot.setRegion_region, if_neg hk]⟩
theorem foldl {α : Type} {f : Slot → α → Slot} (h : ∀ sl a, RegionOnly g sl (f sl a)) (l : List α) (sl : Slot) :
    RegionOnly g sl (l.foldl f sl) := by
  induction l generalizing sl with
  | nil => exact refl sl
  | cons a l ih => exact (h sl a).trans (ih _)

end RegionOnly

/-- Folding rewrites its region (R186). -/
theorem foldRegion_only (sl : Slot) (g : Nat) : RegionOnly g sl (foldRegion sl g) := by
  unfold foldRegion
  dsimp only
  split
  · exact .refl sl
  · split
    · exact .setRegion ..
    · exact .refl sl
/-- A region folds by its own record and the tiles (R186). -/
theorem foldRegion_region {sl sl' : Slot} {g : Nat} (hr : sl'.region g = sl.region g) (hw : ∀ w, sl'.weight w = sl.weight w) :
    (foldRegion sl' g).region g = (foldRegion sl g).region g := by
  unfold foldRegion
  simp only [hr, hw]
  split
  · exact hr
  · split
    · simp only [Slot.setRegion_region_self]
    · exact hr
/-- An MROW, an MWR and an MCLR update the record of their rows' region (R185). -/
theorem checkRow_only (sl : Slot) (r : Nat) (ii : Bool) (z : BitVec 1) (cls : Nat) (c : Comb) (terms : Nat × Nat)
    (a : List Nat) (olds : List (Nat × Nat)) : RegionOnly (r / 32) sl (checkRow sl r ii z cls c terms a olds) := by
  unfold checkRow
  dsimp only
  refine RegionOnly.trans ?_ (.setRegion ..)
  split
  · split
    · exact .setRegion ..
    · exact (RegionOnly.setRegion ..).trans (foldRegion_only ..)
  · exact .setRegion ..
theorem checkWrite_only (sl : Slot) (r : Nat) (ii : Bool) (ds : List (Nat × Nat)) :
    RegionOnly (r / 32) sl (checkWrite sl r ii ds) := by
  unfold checkWrite
  dsimp only
  split
  · exact .refl sl
  · exact .setRegion ..
theorem checkClear_only (sl : Slot) (g lo hi : Nat) : RegionOnly g sl (checkClear sl g lo hi) := by
  unfold checkClear
  split
  · exact .setRegion ..
  · exact .foldl (fun _ _ => .setRegion ..) _ _

/-- Rows rewritten one after another from `b` on, each by what it was. -/
def Slot.mapRows (sl : Slot) (b n : Nat) (f : AccRow → AccRow) : Slot :=
  (List.range n).foldl (fun y i => y.setRow (b + i) (f (y.row (b + i)))) sl

section
variable (sl : Slot) (b n : Nat) (f : AccRow → AccRow)

theorem Slot.mapRows_succ : sl.mapRows b (n + 1) f =
    (sl.mapRows b n f).setRow (b + n) (f ((sl.mapRows b n f).row (b + n))) := by
  simp only [Slot.mapRows, List.range_succ, List.foldl_append, List.foldl_cons, List.foldl_nil]
@[simp] theorem Slot.mapRows_region (g : Nat) : (sl.mapRows b n f).region g = sl.region g := by
  induction n with
  | zero => rfl
  | succ n ih => rw [Slot.mapRows_succ, Slot.setRow_region, ih]
@[simp] theorem Slot.mapRows_weight (w : Nat) : (sl.mapRows b n f).weight w = sl.weight w := by
  induction n with
  | zero => rfl
  | succ n ih => rw [Slot.mapRows_succ, Slot.setRow_weight, ih]
theorem Slot.mapRows_row (q : Nat) :
    (sl.mapRows b n f).row q = if b ≤ q ∧ q < b + n then f (sl.row q) else sl.row q := by
  induction n generalizing q with
  | zero => rw [if_neg (by omega)]; rfl
  | succ n ih =>
    rw [Slot.mapRows_succ, Slot.setRow_row]
    by_cases h : q = b + n
    · subst h
      rw [if_pos rfl, if_pos (by omega), ih, if_neg (by omega)]
    · rw [if_neg h, ih]
      congr 1
      rw [eq_iff_iff]
      omega

end

/-! ## Issue to a free vector unit (R60) -/

section
variable {s : State} {i : Instr} {m : Cap → M Unit}

@[simp] theorem M.slotM_bind {β : Type} (f : Slot → M β) (s : State) :
    (slotM >>= f) s = f (s.slot s.hart.slotId) s := rfl
@[simp] theorem M.setSlotM_run (x : Slot) (s : State) : setSlotM x s = .ok () (s.setSlot s.hart.slotId x) := rfl
@[simp] theorem M.setSlotM_bind {β : Type} (x : Slot) (f : Unit → M β) (s : State) :
    (setSlotM x >>= f) s = f () (s.setSlot s.hart.slotId x) := rfl

/-- An instruction that runs as it issues to a free vector unit: it changes the machine to `t`, whose hart would be `g` but for its
place in the program. -/
theorem vecIssue_leaves {t : State} {g : Hart} (hf : VectorFree s) (hm : m (s.hart.cap i) (s.issued i) =
      .ok () (t.withHart { g with queue := [s.hart.entryOf i], pc := s.hart.pc + 4 }))
    (hq : g.queue = []) (hs : g.sets = []) :
    vecIssue i m s = .next (t.withHart { g with pc := s.hart.pc + 4, vstart := 0, rpos := 0 }) := by
  refine (vecIssue_free hf hm).trans ?_
  refine congrArg (fun x => Host.Outcome.next (t.withHart x))
    ((Hart.popHead_empty (g := { g with queue := [s.hart.entryOf i], pc := s.hart.pc + 4 }) rfl hs).trans ?_)
  rw [← hq]

/-- From `s` to `t` the focus hart's slot has become `sl` and the hart `g`, which goes on to the next instruction; nothing else
changes. -/
structure LeavesSlot (s t : State) (sl : Slot) (g : Hart) : Prop where
  slot : t.slot s.hart.slotId = sl
  others : ∀ i, i ≠ s.hart.slotId → t.slot i = s.slot i
  hart : t.hart = { g with pc := s.hart.pc + 4, vstart := 0, rpos := 0 }
  frame : t = { s with hart := t.hart, slots := t.slots }
/-- An instruction that does so as it issues to a free vector unit. -/
theorem completes_slot {P : State → Prop} {sl : Slot} {g : Hart} (hf : VectorFree s) (he : exec i s = vecIssue i m s)
    (hm : m (s.hart.cap i) (s.issued i) = .ok () ((s.setSlot s.hart.slotId sl).withHart
      { g with queue := [s.hart.entryOf i], pc := s.hart.pc + 4 }))
    (hq : g.queue = s.hart.queue) (hs : g.sets = s.hart.sets) (hP : ∀ t, LeavesSlot s t sl g → P t) : Completes i s P := by
  have ⟨_, hq0, hs0, _⟩ := hf
  exact ⟨_, he.trans (vecIssue_leaves hf hm (hq.trans hq0) (hs.trans hs0)), hP _
    ⟨State.setSlot_slot_self .., fun i hi => (State.setSlot_slot ..).trans (if_neg hi), rfl, rfl⟩⟩

/-- No element below `n` of these registers is poison: nothing is squashed. -/
theorem consumeAll_clean {n : Nat} {rs : List (Nat × Nat)} (h : ∀ p ∈ rs, ∀ i < n, s.hart.elemBad p.1 p.2 i = false) :
    consumeAll n rs s = .ok () s := by
  unfold consumeAll
  rw [M.hart_bind, if_neg]
  · rfl
  · simp only [List.any_eq_true, Bool.and_eq_true, List.mem_range]
    rintro ⟨p, hp, -, i, hi, hbad⟩
    exact Bool.false_ne_true ((h p hp i hi).symm.trans hbad)

/-- The register that the field of an x form names (R64). -/
def xNumber (s : State) (x : BitVec 1) (a : BitVec 6) : Nat := if x = 1 then (s.rs a).toNat % 64 else a.toNat
theorem xReg_run {x : BitVec 1} {a : BitVec 6} (hb : x = 1 → s.hart.spBad a = false) (hr : xNumber s x a < 48) :
    xReg x a s = .ok (xNumber s x a) s := by
  unfold xNumber at hr ⊢
  unfold xReg
  by_cases hx : x = 1
  · have hlate : lateReg a s = .ok (s.rs a) s := by
      unfold lateReg
      rw [M.hart_bind, if_neg (by simp [hb hx])]
      rfl
    simp only [hx, if_true] at hr ⊢
    rw [M.bind_ok hlate]
    simp only [if_neg (Nat.not_le.2 hr)]
    rfl
  · simp only [hx, if_false]
    rfl

end

end Sys2Proof.Machine
end

section
/-! MROW, MCLR, MWR and MRD (R159 to R164, R175 to R180, R387). -/

namespace Sys2Proof.Machine

/-! ## Columns of a row (R177) -/

/-- From `sl` to `sl'` the `n` columns of row `r` from `b` on receive `new`, and the row is unchecked; its other columns, its type,
every other row and every region but its own stay. -/
structure WritesColumns (sl sl' : Slot) (r b n : Nat) (new : Nat → Nat) : Prop where
  cols : ∀ c < 128, wordAt (sl'.row r).cols c = if b ≤ c ∧ c < b + n then new (c - b) else wordAt (sl.row r).cols c
  ty : (sl'.row r).ty = (sl.row r).ty
  checked : (sl'.row r).checked = false
  consumed : (sl'.row r).consumed = (sl.row r).consumed
  row : ∀ q, q ≠ r → sl'.row q = sl.row q
  region : ∀ g, g ≠ r / 32 → sl'.region g = sl.region g

/-- The row is rewritten after its region's record. -/
theorem writesColumns_setRow {sl sl1 : Slot} {r b n : Nat} {f new : Nat → Nat} {p : Bool} (h1 : RegionOnly (r / 32) sl sl1)
    (hnew : ∀ c < n, f c % 2 ^ 32 = new c) :
    WritesColumns sl (sl1.setRow r { sl.row r with
      cols := putWords (sl.row r).cols ((List.range n).map (fun c => (b + c, f c))), checked := false, poisoned := p })
      r b n new where
  cols c hc := by
    rw [Slot.setRow_row_self, wordAt_putWords_range _ _ _ _ (by omega)]
    split
    · exact hnew _ (by omega)
    · rfl
  ty := by rw [Slot.setRow_row_self]
  checked := by rw [Slot.setRow_row_self]
  consumed := by rw [Slot.setRow_row_self]
  row q hq := by rw [Slot.setRow_row, if_neg hq, h1.row]
  region g hg := by rw [Slot.setRow_region, h1.region g hg]

/-! ## MROW (R176) -/

section
variable {s : State}

/-- The sticky bits of MSTAT that a row raises (R183). -/
def rowSticky (o : RowOut) : Word := BitVec.ofNat 64 ((if o.iovf then 4 else 0) + (if o.skz then 2 else 0))
/-- What a dispatched row leaves. -/
theorem rowCommit_run {r b n : Nat} {old f new : Nat → Nat} {o : RowOut} (z : BitVec 1) (ii bad : Bool)
    (hcols : o.cols = (List.range n).map (fun c => (b + c, old c))) (hvals : o.vals = (List.range n).map f)
    (hnew : ∀ c < n, f c % 2 ^ 32 = new c) :
    ∃ sl, rowCommit r z ii bad o s =
        .ok () ((s.setSlot s.hart.slotId sl).withHart ((s.hart.setMstat (rowSticky o)).askip o.askip)) ∧
      WritesColumns (s.slot s.hart.slotId) sl r b n new := by
  refine ⟨_, rfl, ?_⟩
  have hzip : List.zipWith (fun c v => (c.1, v)) o.cols o.vals = (List.range n).map (fun c => (b + c, f c)) := by
    rw [hcols, hvals, List.zipWith_map, List.zipWith_self]
  rw [hzip]
  exact writesColumns_setRow (checkRow_only ..) hnew

/-- Another hart's self-test holds the array before an instruction issues or not at all (R189). -/
theorem arrayBusy_issued (i : Instr) : arrayBusy (s.issued i) = arrayBusy s := by
  unfold arrayBusy State.liveHarts
  simp only [List.any_append]
  congr 1
  show (if s.hart.live then [s.hart.issued i] else []).any _ = _
  cases s.hart.live <;> rfl

/-- What an MROW of either mode passes before its columns are looked at (R174 to R176, R182). -/
structure RowReady (s : State) (r : BitVec 10) (a : BitVec 6) (z x : BitVec 1) (f : BitVec 3) (wb cls : Nat) (T : Tile) :
    Prop where
  free : arrayBusy s = false
  late : x = 1 → s.hart.spBad a = false
  number : xNumber s x a < 48
  selected : s.hart.tile = some wb
  loaded : (s.slot s.hart.slotId).weight wb = .tile T
  pair : pairClass f.toNat T.fmt = some cls
  feature : pairExtra f.toNat T.fmt = true → absent s 2 = false
  ty : ((s.slot s.hart.slotId).row r.toNat).ty = if cls = 4 then 2 else 1
  tile : T.poisoned = false
  row : ((s.slot s.hart.slotId).row r.toNat).poisoned = false ∨ z = 1

variable {r : BitVec 10} {a : BitVec 6} {co ts : BitVec 2} {z x : BitVec 1} {f : BitVec 3} {wb cls : Nat} {T : Tile} {c : Cap}

theorem RowReady.issued (h : RowReady s r a z x f wb cls T) (i : Instr) : RowReady (s.issued i) r a z x f wb cls T :=
  { h with free := (arrayBusy_issued i).trans h.free }

theorem rowTile_run (h : RowReady s r a z x f wb cls T) : rowTile r.toNat s = .ok (wb, T) s := by
  unfold rowTile
  simp only [M.hart_bind, M.slotM_bind, h.selected, h.loaded]
  rfl

/-- The A elements of a row. -/
def rowElems (s : State) (x : BitVec 1) (a : BitVec 6) (f : BitVec 3) (n : Nat) : List Num :=
  (List.range n).map (fun k => afNum f.toNat (s.hart.elem (xNumber s x a) (afBytes f.toNat) k))
/-- None of them is poisoned. -/
def RowClean (s : State) (x : BitVec 1) (a : BitVec 6) (f : BitVec 3) (n : Nat) : Prop :=
  ∀ i < n, s.hart.elemBad (xNumber s x a) (afBytes f.toNat) i = false

/-- The sources of a row are clean: nothing is squashed (R182). -/
theorem RowReady.sources (h : RowReady s r a z x f wb cls T) :
    (T.poisoned || ((s.slot s.hart.slotId).row r.toNat).poisoned && decide (z = 0)) = false := by
  rcases h.row with h0 | h1
  · rw [h.tile, h0]; rfl
  · rw [h.tile, h1]; simp
theorem RowClean.sources {n : Nat} (h : RowClean s x a f n) : (s.hart.vpr (xNumber s x a) != 0 &&
    (List.range n).any (fun k => s.hart.elemBad (xNumber s x a) (afBytes f.toNat) k)) = false := by
  have hany : (List.range n).any (fun k => s.hart.elemBad (xNumber s x a) (afBytes f.toNat) k) = false :=
    List.any_eq_false.2 fun k hk => by simp [h k (List.mem_range.1 hk)]
  rw [hany, Bool.and_false]
theorem RowReady.supported (h : RowReady s r a z x f wb cls T) : (pairExtra f.toNat T.fmt && absent s 2) = false := by
  cases hp : pairExtra f.toNat T.fmt with
  | false => rfl
  | true => exact h.feature hp

theorem vlmaxOf_eq (s : State) (w : Nat) : vlmaxOf s w = s.hart.lanes * 256 / w := by rw [vlmaxOf, Nat.mul_comm]

/-- MROW in real mode comes to its row (R176). -/
theorem mrowM_real (h : RowReady s r a z x f wb cls T) (hb : 32 * co.toNat + pairCols f.toNat T.fmt ≤ 128)
    (hs : pairSrc f.toNat T.fmt co.toNat + pairCols f.toNat T.fmt ≤ tileN T.fmt)
    (hc : RowClean s x a f (min T.depth (vlmaxOf s (afBytes f.toNat)))) :
    mrowM r a co 0 z x f c s = rowCommit r.toNat z (cls = 4) (rowPoison s)
      (rowReal T wb co.toNat f.toNat cls z (rowElems s x a f (min T.depth (vlmaxOf s (afBytes f.toNat))))
        (wordAt ((s.slot s.hart.slotId).row r.toNat).cols)) s := by
  unfold mrowM
  rw [vlmaxOf_eq] at hc ⊢
  simp only [M.hart_bind, M.get_bind, h.free, M.bind_ok (xReg_run h.late h.number), M.bind_ok (rowTile_run h), h.pair,
    h.supported, bne_self_eq_false, Bool.false_and, Bool.or_self, M.slotM_bind, h.ty, ne_eq, not_true_eq_false,
    Nat.not_lt.2 hb, Nat.not_lt.2 hs, decide_false, h.sources, hc.sources, M.pure_bind_run, Bool.false_eq_true, ↓reduceIte]
  rfl
/-- MROW in algebra mode comes to its row (R162 to R164). -/
theorem mrowM_alg {rc : List Byte} (h : RowReady s r a z x f wb cls T) (hts : ts ≠ 0) (hp : pairAlg f.toNat T.fmt = true)
    (ht : tableRecord s s.hart (ts.toNat - 1) = some rc) (hn : tupleN (tableOf rc) (tileN T.fmt) ≠ 0)
    (hb : 32 * co.toNat + tupleN (tableOf rc) (tileN T.fmt) * (tableOf rc).dc ≤ 128)
    (hc : RowClean s x a f (tupleK (tableOf rc) (vlmaxOf s (afBytes f.toNat)) * (tableOf rc).da)) :
    mrowM r a co ts z x f c s = rowCommit r.toNat z false (rowPoison s)
      (rowAlg T wb co.toNat ts.toNat f.toNat rc (tupleK (tableOf rc) (vlmaxOf s (afBytes f.toNat)))
        (tupleN (tableOf rc) (tileN T.fmt)) z
        (rowElems s x a f (tupleK (tableOf rc) (vlmaxOf s (afBytes f.toNat)) * (tableOf rc).da))
        (wordAt ((s.slot s.hart.slotId).row r.toNat).cols)) s := by
  unfold mrowM
  rw [vlmaxOf_eq] at hc ⊢
  simp only [M.hart_bind, M.get_bind, h.free, M.bind_ok (xReg_run h.late h.number), M.bind_ok (rowTile_run h), h.pair,
    h.supported, hts, hp, Bool.not_true, Bool.and_false, Bool.or_self, M.slotM_bind, h.ty, ne_eq, not_true_eq_false,
    ht, hn, Nat.not_lt.2 hb, h.sources, hc.sources, M.pure_bind_run, Bool.false_eq_true, ↓reduceIte]
  rfl

end

/-! ## The columns of a row in real mode (R176, R177) -/

theorem getD_map_range {α : Type} (f : Nat → α) {n c : Nat} (hc : c < n) (d : α) : ((List.range n).map f).getD c d = f c := by
  rw [List.getD_eq_getElem _ _ (by simpa using hc)]
  simp
/-- A sum wraps whether what is added counts as signed or not. -/
theorem ofInt_add_toSigned (v : Int) (y : Nat) : ofInt 32 (v + toSigned 32 y) = ((v + y) % 2 ^ 32).toNat := by
  unfold ofInt toSigned
  split <;> omega

/-- What column `c` of a row in real mode receives. -/
def realColumn (t : Tile) (co af cls : Nat) (z : BitVec 1) (a : List Num) (old : Nat → Nat) (c : Nat) : Nat :=
  let src := pairSrc af t.fmt co
  if cls = 4 then ((intDot (pairsOf a t (src + c)) + (if z = 1 then 0 else (old (32 * co + c) : Int))) % 2 ^ 32).toNat
  else
    let v := if cls = 2 then quantRow (af = 2) a t (src + c) else rowSum (pairsOf a t (src + c))
    if z = 1 then v % 2 ^ 32 else (fAdd .f32 .rne (old (32 * co + c)) v).1 % 2 ^ 32
theorem rowReal_vals (t : Tile) (wb co af cls : Nat) (z : BitVec 1) (a : List Num) (old : Nat → Nat) :
    ∃ f, (rowReal t wb co af cls z a old).vals = (List.range (pairCols af t.fmt)).map f ∧
      ∀ c < pairCols af t.fmt, f c % 2 ^ 32 = realColumn t co af cls z a old c := by
  refine ⟨_, rfl, fun c hc => ?_⟩
  unfold realColumn
  by_cases h4 : cls = 4
  · simp only [h4, ↓reduceIte, getD_map_range _ hc]
    split
    · simp only [ofInt]; omega
    · rw [ofInt_add_toSigned]; omega
  · simp only [h4, ↓reduceIte]
    split <;> rfl

/-! ## The columns of a row in algebra mode (R159, R161, R163, R164) -/

/-- The lists of `m` values for each of `n` numbers, one after another. -/
theorem getD_flatMap_range {α : Type} (f : Nat → Nat → α) {n m c : Nat} (hc : c < n * m) (d : α) :
    ((List.range n).flatMap (fun i => (List.range m).map (f i))).getD c d = f (c / m) (c % m) := by
  have hm : 0 < m := Nat.pos_of_ne_zero fun h0 => by simp [h0] at hc
  induction n with
  | zero => simp at hc
  | succ n ih =>
    have hlen : ((List.range n).flatMap (fun i => (List.range m).map (f i))).length = n * m := by
      simp [List.length_flatMap]
    rw [List.range_succ, List.flatMap_append, List.flatMap_singleton]
    rcases Nat.lt_or_ge c (n * m) with h | h
    · rw [List.getD_append _ _ _ _ (hlen ▸ h), ih h]
    · obtain ⟨q, rfl⟩ := Nat.exists_eq_add_of_le h
      have hq : q < m := by rw [Nat.succ_mul] at hc; omega
      rw [List.getD_append_right _ _ _ _ (hlen ▸ h), hlen, Nat.add_sub_cancel_left, getD_map_range _ hq,
        Nat.mul_comm, Nat.mul_add_div hm, Nat.mul_add_mod, Nat.div_eq_of_lt hq, Nat.mod_eq_of_lt hq, Nat.add_zero]

section
variable {s : State} {x : BitVec 1} {a : BitVec 6} {f : BitVec 3} {T : AlgTable} {W : Tile} {kt nt : Nat}

theorem rowElems_getD {n i : Nat} (hi : i < n) (d : Num) : (rowElems s x a f n).getD i d =
    afNum f.toNat (s.hart.elem (xNumber s x a) (afBytes f.toNat) i) := getD_map_range _ hi d

/-- Component `i` of tuple `k` of the register. -/
def leftTuple (s : State) (x : BitVec 1) (a : BitVec 6) (f : BitVec 3) (T : AlgTable) (i k : Nat) : Num :=
  afNum f.toNat (s.hart.elem (xNumber s x a) (afBytes f.toNat) (k * T.da + i))
/-- Component `j` of tuple `n` of the tile at position `k`. -/
def rightTuple (W : Tile) (T : AlgTable) (nt n j k : Nat) : Num := W.flatNum ((k * nt + n) * T.db + j)
/-- The row sum of an entry for tuple `n`. -/
def entrySum (s : State) (x : BitVec 1) (a : BitVec 6) (f : BitVec 3) (T : AlgTable) (W : Tile) (kt nt n : Nat)
    (e : AlgEntry) : Nat :=
  rowSum ((List.range kt).map (fun k => some (leftTuple s x a f T e.i k, rightTuple W T nt n e.j k)))
/-- What column `c` of a row in algebra mode receives. -/
def algColumn (s : State) (co : Nat) (z x : BitVec 1) (a : BitVec 6) (f : BitVec 3) (T : AlgTable) (W : Tile) (kt nt : Nat)
    (old : Nat → Nat) (c : Nat) : Nat :=
  let v := (tableEval .f32 .rne (c % T.dc) (none, 0) (T.entries.map (fun e => (e, entrySum s x a f T W kt nt (c / T.dc) e)))).1
  if z = 1 then v % 2 ^ 32 else (fAdd .f32 .rne (old (32 * co + c)) v).1 % 2 ^ 32

theorem leftTuple_eq {i k : Nat} (hi : i < T.da) (hk : k < kt) (d : Num) :
    (rowElems s x a f (kt * T.da)).getD (k * T.da + i) d = leftTuple s x a f T i k :=
  rowElems_getD (by
    calc k * T.da + i < k * T.da + T.da := by omega
      _ = (k + 1) * T.da := (Nat.succ_mul ..).symm
      _ ≤ kt * T.da := Nat.mul_le_mul_right _ hk) d

theorem rowAlg_vals {rc : List Byte} (wb co ts : Nat) (z : BitVec 1) (old : Nat → Nat)
    (hi : ∀ e ∈ (tableOf rc).entries, e.i < (tableOf rc).da) :
    ∃ g, (rowAlg W wb co ts f.toNat rc kt nt z (rowElems s x a f (kt * (tableOf rc).da)) old).vals =
        (List.range (nt * (tableOf rc).dc)).map g ∧
      ∀ c < nt * (tableOf rc).dc, g c % 2 ^ 32 = algColumn s co z x a f (tableOf rc) W kt nt old c := by
  refine ⟨_, rfl, fun c hc => ?_⟩
  have hsums : ∀ n, (tableOf rc).entries.map (fun e => (e, rowSum ((List.range kt).map (fun k =>
      some ((rowElems s x a f (kt * (tableOf rc).da)).getD (k * (tableOf rc).da + e.i) (.fin false 0 0),
        W.flatNum ((k * nt + n) * (tableOf rc).db + e.j)))))) =
      (tableOf rc).entries.map (fun e => (e, entrySum s x a f (tableOf rc) W kt nt n e)) := fun n =>
    List.map_congr_left fun e he => by
      unfold entrySum
      rw [List.map_congr_left fun k hk => by rw [leftTuple_eq (hi e he) (List.mem_range.1 hk)]]
      rfl
  simp only [hsums, getD_flatMap_range _ hc]
  unfold algColumn
  split <;> rfl

/-- A special value: an infinity or a NaN. -/
def Num.odd : Num → Bool
  | .fin _ _ _ => false
  | _ => true
theorem Num.odd_iff {v : Num} : v.odd = true ↔ ∀ n m e, v ≠ .fin n m e := by
  cases v <;> simp [Num.odd]
/-- A pair of components that no entry multiplies hides a special value (R161). -/
def Hidden (s : State) (x : BitVec 1) (a : BitVec 6) (f : BitVec 3) (T : AlgTable) (W : Tile) (kt nt : Nat) : Prop :=
  ∃ i < T.da, ∃ j < T.db, (∀ e ∈ T.entries, ¬ (e.i = i ∧ e.j = j)) ∧
    ((∃ k < kt, ∀ n m e, leftTuple s x a f T i k ≠ .fin n m e) ∨
      ∃ n < nt, ∃ k < kt, ∀ n' m e, rightTuple W T nt n j k ≠ .fin n' m e)

theorem rowAlg_askip {rc : List Byte} (wb co ts : Nat) (z : BitVec 1) (old : Nat → Nat) :
    (rowAlg W wb co ts f.toNat rc kt nt z (rowElems s x a f (kt * (tableOf rc).da)) old).askip = true ↔
      Hidden s x a f (tableOf rc) W kt nt := by
  show skipsSpecial (tableOf rc)
    (fun i => (List.range kt).any fun k =>
      ((rowElems s x a f (kt * (tableOf rc).da)).getD (k * (tableOf rc).da + i) (.fin false 0 0)).odd)
    (fun j => (List.range nt).any fun n => (List.range kt).any fun k => (rightTuple W (tableOf rc) nt n j k).odd) = true ↔ _
  have habsent : ∀ i j, ((tableOf rc).entries.all fun e => e.i != i || e.j != j) = true ↔
      ∀ e ∈ (tableOf rc).entries, ¬ (e.i = i ∧ e.j = j) := fun i j => by
    simp only [List.all_eq_true, Bool.or_eq_true, bne_iff_ne, ne_eq, not_and_or]
  unfold skipsSpecial Hidden
  simp only [List.any_eq_true, List.mem_range, Bool.and_eq_true, Bool.or_eq_true, habsent, Num.odd_iff]
  refine exists_congr fun i => and_congr_right fun hi => exists_congr fun j => and_congr_right fun _ =>
    and_congr_right fun _ => or_congr_left (exists_congr fun k => and_congr_right fun hk => ?_)
  rw [leftTuple_eq hi hk]

end

/-! ## O35 -/

theorem pairAlg_class {af fmt : Nat} (h : pairAlg af fmt = true) : ∃ cls, pairClass af fmt = some cls ∧ cls ≠ 4 := by
  simp only [pairAlg, Bool.or_eq_true, Bool.and_eq_true, decide_eq_true_eq, beq_iff_eq] at h
  rcases h with (⟨haf, rfl | rfl⟩ | ⟨rfl, rfl⟩) | ⟨rfl, rfl⟩
  · exact ⟨0, by simp [pairClass, haf], by decide⟩
  · exact ⟨0, by simp [pairClass, haf], by decide⟩
  · exact ⟨1, rfl, by decide⟩
  · exact ⟨1, rfl, by decide⟩

section
variable {s : State} {i : Instr} {m : Cap → M Unit} {r b n : Nat} {old new f : Nat → Nat} {o : RowOut} {z : BitVec 1} {ii bad : Bool}

theorem Hart.askip_issued (h : Hart) (w : Word) (sk : Bool) : ((h.issued i).setMstat w).askip sk =
    { (h.setMstat w).askip sk with queue := [h.entryOf i], pc := h.pc + 4 } := by cases sk <;> rfl
theorem Hart.askip_eq (h : Hart) (sk : Bool) :
    h.askip sk = { h with algstat := if sk = true then h.algstat ||| 2 else h.algstat } := by cases sk <;> rfl
theorem Hart.setMstat_zero (h : Hart) : h.setMstat 0 = h := by
  have hz : h.mstat ||| 0 = h.mstat := BitVec.or_zero
  rw [Hart.setMstat, hz]
@[simp] theorem Hart.askip_queue (h : Hart) (sk : Bool) : (h.askip sk).queue = h.queue := by cases sk <;> rfl
@[simp] theorem Hart.askip_sets (h : Hart) (sk : Bool) : (h.askip sk).sets = h.sets := by cases sk <;> rfl

/-- An MROW that issues to a free vector unit and comes to its row. -/
theorem completes_row {P : State → Prop} (hf : VectorFree s) (he : exec i s = vecIssue i m s)
    (hm : m (s.hart.cap i) (s.issued i) = rowCommit r z ii bad o (s.issued i))
    (hcols : o.cols = (List.range n).map (fun c => (b + c, old c))) (hvals : o.vals = (List.range n).map f)
    (hnew : ∀ c < n, f c % 2 ^ 32 = new c)
    (hP : ∀ t sl, LeavesSlot s t sl ((s.hart.setMstat (rowSticky o)).askip o.askip) →
      WritesColumns (s.slot s.hart.slotId) sl r b n new → P t) : Completes i s P := by
  obtain ⟨sl, hrun, hwrites⟩ := rowCommit_run (s := s.issued i) z ii bad hcols hvals hnew
  refine completes_slot (g := (s.hart.setMstat (rowSticky o)).askip o.askip) hf he (hm.trans (hrun.trans ?_))
    (Hart.askip_queue ..) (Hart.askip_sets ..) fun t ht => hP t sl ht hwrites
  exact congrArg (fun g => EStateM.Result.ok () ((s.setSlot s.hart.slotId sl).withHart g)) (Hart.askip_issued ..)

end

/-- Settles O35: in either mode the row passes its checks and rewrites its columns, each with the value of the statement. -/
theorem lanternRowsAccumulate : Obligations.LanternRowsAccumulate := by
  refine ⟨?real, ?algebra⟩
  case real =>
    intro s r a co z x f wb cls T id sl row af vr n src K hf hbusy hlate htile hw hpair hext hty hb hs hT hrow hvr hclean A old new
    have hready : RowReady s r a z x f wb cls T := ⟨hbusy, hlate, hvr, htile, hw, hpair, hext, hty, hT, hrow⟩
    obtain ⟨g, hvals, hnew⟩ := rowReal_vals T wb co.toNat f.toNat cls z A (wordAt row.cols)
    refine completes_row hf rfl (mrowM_real (hready.issued _) hb hs hclean) rfl hvals hnew ?_
    rintro t _ ⟨rfl, hothers, hhart, hframe⟩ hcol
    exact ⟨hcol.cols, hcol.ty, hcol.checked, hcol.consumed, hcol.row, hcol.region, by rw [hhart]; rfl, hframe, hothers⟩
  case algebra =>
    intro s r a co ts z x f wb W rc id sl row af w vr T kt nt A B hf hbusy halg hlate htile hw hp hext hty hts hrec hi hn hb hW hrow
      hvr hclean odd p new hidden
    obtain ⟨cls, hpair, hcls⟩ := pairAlg_class hp
    have hready : RowReady s r a z x f wb cls W :=
      ⟨hbusy, hlate, hvr, htile, hw, hpair, hext, hty.trans (if_neg hcls).symm, hW, hrow⟩
    have hexec : exec (.mrow r a co ts z x f) s = vecIssue (.mrow r a co ts z x f) (mrowM r a co ts z x f) s :=
      if_neg (by rw [halg, Bool.and_false]; exact Bool.false_ne_true)
    obtain ⟨g, hvals, hnew⟩ := rowAlg_vals (s := s) (x := x) (a := a) (f := f) (W := W) (kt := kt) (nt := nt) wb co.toNat
      ts.toNat z (wordAt row.cols) hi
    have hskip := rowAlg_askip (s := s) (x := x) (a := a) (f := f) (W := W) (kt := kt) (nt := nt) (rc := rc) wb co.toNat
      ts.toNat z (wordAt row.cols)
    refine completes_row hf hexec (mrowM_alg (hready.issued _) hts hp hrec hn hb hclean) rfl hvals hnew ?_
    rintro t _ ⟨rfl, hothers, hhart, hframe⟩ hcol
    rw [show rowSticky _ = 0 from rfl, Hart.setMstat_zero, Hart.askip_eq] at hhart
    refine ⟨hcol.cols, hcol.ty, hcol.checked, hcol.consumed, hcol.row, hcol.region, by rw [hhart], fun hid => ?_, fun hid => ?_,
      hframe, hothers⟩
    · rw [hhart]
      exact if_pos (hskip.2 hid)
    · rw [hhart]
      exact if_neg (mt hskip.1 hid)

end Sys2Proof.Machine
end

section
/-! MCLR, MWR and MRD (R178 to R180, R387). -/

namespace Sys2Proof.Machine

/-! ## MCLR (R178) -/

/-- A row that MCLR has cleared. -/
def clearedRow (ty : Nat) : AccRow := ⟨ty, true, false, false, 0⟩

theorem clearRows_row (ty : Nat) (sl : Slot) {lo hi : Nat} (h : lo ≤ hi) (q : Nat) :
    (clearRows ty sl lo hi).row q = if lo ≤ q ∧ q ≤ hi then clearedRow ty else sl.row q := by
  have hmap : clearRows ty sl lo hi = (checkClear sl (lo / 32) lo hi).mapRows lo (hi + 1 - lo) (fun _ => clearedRow ty) := rfl
  rw [hmap, Slot.mapRows_row, (checkClear_only ..).row]
  congr 1
  rw [eq_iff_iff]
  omega

/-- Rows `first` to `last` of the lowest `m` regions cleared. -/
def clearBelow (ty first last m : Nat) (sl : Slot) : Slot :=
  (List.range m).foldl (fun y g =>
    let lo := max first (32 * g)
    let hi := min last (32 * g + 31)
    if hi < lo then y else clearRows ty y lo hi) sl
theorem clearBelow_row (ty first last m : Nat) (sl : Slot) (q : Nat) : (clearBelow ty first last m sl).row q =
    if first ≤ q ∧ q ≤ last ∧ q < 32 * m then clearedRow ty else sl.row q := by
  induction m with
  | zero => rw [if_neg (by omega)]; rfl
  | succ m ih =>
    have hstep : clearBelow ty first last (m + 1) sl = if min last (32 * m + 31) < max first (32 * m) then
        clearBelow ty first last m sl
      else clearRows ty (clearBelow ty first last m sl) (max first (32 * m)) (min last (32 * m + 31)) := by
      simp only [clearBelow, List.range_succ, List.foldl_append, List.foldl_cons, List.foldl_nil]
    rw [hstep]
    split
    · rw [ih]
      congr 1
      rw [eq_iff_iff]
      omega
    · next hle =>
      rw [clearRows_row ty _ (Nat.le_of_not_lt hle), ih]
      by_cases hq : max first (32 * m) ≤ q ∧ q ≤ min last (32 * m + 31)
      · rw [if_pos hq, if_pos (by omega)]
      · rw [if_neg hq]
        congr 1
        rw [eq_iff_iff]
        omega

theorem mclrM_run (r : BitVec 10) (n : BitVec 6) (f : BitVec 3) (c : Cap) (s : State) : mclrM r n f c s =
    .ok () (s.setSlot s.hart.slotId
      (clearBelow (if f = 5 then 1 else 2) r.toNat (r.toNat + n.toNat) 32 (s.slot s.hart.slotId))) := rfl

/-! ## Checks that MWR and MRD share (R179, R180) -/

section
variable {s : State} {r : BitVec 10} {a n : BitVec 6} {co sm : BitVec 2} {z x : BitVec 1} {f : BitVec 3} {c : Cap}

/-- The row has a type, and the columns and the elements exist. -/
structure ColumnsReady (s : State) (r : BitVec 10) (a : BitVec 6) (co : BitVec 2) (x : BitVec 1) (w : Nat) : Prop where
  late : x = 1 → s.hart.spBad a = false
  number : xNumber s x a < 48
  typed : ((s.slot s.hart.slotId).row r.toNat).ty ≠ 0
  columns : 32 * co.toNat + s.hart.vl ≤ 128
  elems : s.hart.vl * w ≤ 256 * s.hart.lanes

theorem ColumnsReady.issued {w : Nat} (h : ColumnsReady s r a co x w) (i : Instr) : ColumnsReady (s.issued i) r a co x w :=
  ⟨h.late, h.number, h.typed, h.columns, h.elems⟩

theorem columnsOk_run {w : Nat} (h : ColumnsReady s r a co x w) :
    columnsOk r.toNat co w s = .ok ((s.slot s.hart.slotId).row r.toNat) s := by
  have helems := h.elems
  rw [Nat.mul_comm 256] at helems
  unfold columnsOk
  simp only [M.hart_bind, M.slotM_bind, h.typed, Nat.not_lt.2 h.columns, Nat.not_lt.2 helems, decide_false, Bool.or_self,
    Bool.false_eq_true, ↓reduceIte]
  rfl
/-- A check that passes. -/
theorem M.passes {p : Prop} [Decidable p] {m : M Unit} {β : Type} {g : Unit → M β} (h : p → m s = .ok () s) :
    (if p then m >>= g else g ()) s = g () s := by
  split
  · next hp => exact M.bind_ok (h hp)
  · rfl

/-- A sticky bit of MSTAT that is raised, or not. -/
theorem setMstat_when {p : Prop} [Decidable p] (b : Word) :
    (if p then modHart (fun h => h.setMstat b) else pure ()) s =
      .ok () (s.withHart (s.hart.setMstat (if p then b else 0))) := by
  split
  · rfl
  · rw [Hart.setMstat_zero]; rfl

/-! ## MWR (R180) -/

/-- What column `i` from the first on receives. -/
def mwrColumn (s : State) (r : BitVec 10) (a : BitVec 6) (co : BitVec 2) (z x : BitVec 1) (f : BitVec 3) (i : Nat) : Nat :=
  let row := (s.slot s.hart.slotId).row r.toNat
  let old := wordAt row.cols (32 * co.toNat + i)
  let v := mwrConvert (row.ty == 2) f.toNat (s.hart.elem (xNumber s x a) (afBytes f.toNat) i)
  (if z = 1 then v else if row.ty = 2 then old + v else (fAdd .f32 .rne old v).1) % 2 ^ 32

theorem mwrM_run (h : ColumnsReady s r a co x (afBytes f.toNat))
    (hclean : ∀ i < s.hart.vl, s.hart.elemBad (xNumber s x a) (afBytes f.toNat) i = false)
    (hrow : ((s.slot s.hart.slotId).row r.toNat).poisoned = false ∨ z = 1) :
    ∃ sl b, mwrM r a co z x f c s = .ok () ((s.setSlot s.hart.slotId sl).withHart (s.hart.setMstat b)) ∧
      WritesColumns (s.slot s.hart.slotId) sl r.toNat (32 * co.toNat) s.hart.vl (mwrColumn s r a co z x f) := by
  have hsource : (decide (s.hart.vl ≠ 0) && decide (z = 0) && ((s.slot s.hart.slotId).row r.toNat).poisoned) = false := by
    rcases hrow with h0 | h1
    · rw [h0, Bool.and_false]
    · simp [h1]
  have hconsume : consumeAll s.hart.vl [(xNumber s x a, afBytes f.toNat)] s = .ok () s := consumeAll_clean fun p hp i hi => by
    obtain rfl := List.mem_singleton.1 hp
    exact hclean i hi
  unfold mwrM
  simp only [M.hart_bind, M.get_bind, M.bind_ok (xReg_run h.late h.number), M.bind_ok (columnsOk_run h), hsource,
    M.bind_ok hconsume, M.slotM_bind, M.setSlotM_bind, List.map_map, Bool.false_eq_true, ↓reduceIte]
  refine ⟨_, _, setMstat_when _, writesColumns_setRow (checkWrite_only ..) fun i _ => ?_⟩
  unfold mwrColumn ckAdd AccRow.int
  by_cases hz : z = 1
  · simp only [hz, ↓reduceIte]
  · by_cases hty : ((s.slot s.hart.slotId).row r.toNat).ty = 2
    · simp only [hz, hty, BEq.rfl, Nat.mod_mod, ↓reduceIte]
    · simp only [hz, hty, beq_eq_false_iff_ne.2 hty, add32, Bool.false_eq_true, ↓reduceIte]

/-! ## MRD (R179) -/

/-- What element `i` of the destination receives. -/
def mrdValue (s : State) (r : BitVec 10) (a : BitVec 6) (co sm : BitVec 2) (x : BitVec 1) (f : BitVec 3) (i : Nat) : Nat :=
  let row := (s.slot s.hart.slotId).row r.toNat
  let v := wordAt row.cols (32 * co.toNat + i)
  let v32 := if row.ty = 2 then (fOfInt .f32 .rne (BitVec.ofNat 32 v).toInt).1 else v
  let scale := fun j => if j < 64 * s.hart.lanes then s.hart.elem (xNumber s x a) 4 j
    else (Config.freeWord (s.fresh + j)).toNat % 2 ^ 32
  if sm = 0 then mrdConvert (row.ty == 2) f.toNat v
  else mrdConvert false f.toNat (fMul .f32 .rne v32 (scale (if sm = 1 then i else 0))).1

theorem scaleElem_eq (s : State) (vr i : Nat) : scaleElem s vr i =
    if i < 64 * s.hart.lanes then s.hart.elem vr 4 i else (Config.freeWord (s.fresh + i)).toNat % 2 ^ 32 := by
  unfold scaleElem
  congr 1
  rw [eq_iff_iff]
  omega

/-- A row is consumed, or not (R179). -/
theorem consumeRow_when {k : Nat} (hk : s.hart.slotId = k) (b : Bool) (r : Nat) :
    ∃ t, (if b = true then do setSlotM ((← slotM).setRow r { (s.slot k).row r with consumed := true }) else pure ()) s =
        .ok () t ∧ t = { s with slots := t.slots } ∧
      (t.slot k).row r = { (s.slot k).row r with consumed := ((s.slot k).row r).consumed || b } ∧
      ∀ q, q ≠ r → (t.slot k).row q = (s.slot k).row q := by
  subst hk
  cases b with
  | false => exact ⟨s, rfl, rfl, by rw [Bool.or_false], fun _ _ => rfl⟩
  | true =>
    refine ⟨_, rfl, rfl, ?_, fun q hq => ?_⟩
    · rw [State.setSlot_slot_self, Slot.setRow_row_self, Bool.or_true]
    · rw [State.setSlot_slot_self, Slot.setRow_row, if_neg hq]

theorem mrdValue_issued (j : Instr) (i : Nat) : mrdValue (s.issued j) r a co sm x f i = mrdValue s r a co sm x f i := rfl

/-- The hart once its register has what MRD delivers. -/
def mrdHart (s : State) (r : BitVec 10) (a : BitVec 6) (co sm : BitVec 2) (x : BitVec 1) (f : BitVec 3) : Hart :=
  s.hart.writeElems (xNumber s x a) (afBytes f.toNat) s.hart.vl (fun i => some (mrdValue s r a co sm x f i))

/-- MRD writes its register and consumes an unchecked row (R179, R183). -/
theorem mrdM_run (h : ColumnsReady s r a co x (afBytes f.toNat))
    (hclean : sm ≠ 0 → ∀ i < (if sm = 2 then 1 else min s.hart.vl (64 * s.hart.lanes)), s.hart.elemBad (xNumber s x a) 4 i = false)
    (hrow : ((s.slot s.hart.slotId).row r.toNat).poisoned = false) :
    ∃ t, mrdM r a co sm x f c s = .ok () t ∧
      t = { s with hart := mrdHart s r a co sm x f, slots := t.slots, fresh := t.fresh } ∧
      (t.slot s.hart.slotId).row r.toNat = { (s.slot s.hart.slotId).row r.toNat with
        consumed := ((s.slot s.hart.slotId).row r.toNat).consumed ||
          (decide (s.hart.vl ≠ 0) && !((s.slot s.hart.slotId).row r.toNat).checked) } ∧
      ∀ q, q ≠ r.toNat → (t.slot s.hart.slotId).row q = (s.slot s.hart.slotId).row q := by
  have hsource : (decide (s.hart.vl ≠ 0) && ((s.slot s.hart.slotId).row r.toNat).poisoned) = false := by
    rw [hrow, Bool.and_false]
  have hconsume : (sm != 0 && decide (s.hart.vl ≠ 0)) = true →
      consumeAll (if sm = 2 then 1 else min s.hart.vl (s.hart.lanes * 64)) [(xNumber s x a, 4)] s = .ok () s := fun hp =>
    consumeAll_clean fun p hmem i hi => by
      obtain rfl := List.mem_singleton.1 hmem
      rw [Bool.and_eq_true, bne_iff_ne] at hp
      exact hclean hp.1 i (by rwa [Nat.mul_comm] at hi)
  have hvalue : ∀ i, mrdValue s r a co sm x f i =
      if sm = 0 then mrdConvert ((s.slot s.hart.slotId).row r.toNat).int f.toNat
        (wordAt ((s.slot s.hart.slotId).row r.toNat).cols (32 * co.toNat + i))
      else mrdConvert false f.toNat (mul32 (if ((s.slot s.hart.slotId).row r.toNat).int then
          (fOfInt .f32 .rne (toSigned 32 (wordAt ((s.slot s.hart.slotId).row r.toNat).cols (32 * co.toNat + i)))).1
        else wordAt ((s.slot s.hart.slotId).row r.toNat).cols (32 * co.toNat + i))
        (scaleElem s (xNumber s x a) (if sm = 1 then i else 0))) := fun i => by
    simp only [mrdValue, AccRow.int, mul32, scaleElem_eq, toSigned_eq 32 _ (by decide), beq_iff_eq]
  have htail := fun n => consumeRow_when (s := { s with hart := mrdHart s r a co sm x f, fresh := n })
    (congrArg (· / 4) (Hart.writeElems_id ..)) (decide (s.hart.vl ≠ 0) && !((s.slot s.hart.slotId).row r.toNat).checked) r.toNat
  unfold mrdM
  simp only [M.hart_bind, M.bind_ok (xReg_run h.late h.number), M.bind_ok (columnsOk_run h), hsource, M.passes hconsume,
    M.get_bind, M.setHartM_bind, ← hvalue, Bool.false_eq_true, ↓reduceIte]
  split
  · obtain ⟨t, hrun, hframe, hrows⟩ := htail (s.fresh + s.hart.vl)
    exact ⟨t, hrun, by rw [hframe], hrows⟩
  · obtain ⟨t, hrun, hframe, hrows⟩ := htail s.fresh
    exact ⟨t, hrun, by rw [hframe], hrows⟩

end

/-- Settles O36: each instruction by what it leaves of the slot and the hart. -/
theorem lanternRowsMove : Obligations.LanternRowsMove := by
  intro s r a n co sm z x f id sl row vr w base int hf hlate
  refine ⟨fun hlast => ?clear, fun hty hcols helems hvr => ⟨?write, ?read⟩⟩
  case clear =>
    refine completes_slot (g := s.hart) hf rfl (mclrM_run ..) rfl rfl ?_
    rintro t ⟨hslot, hothers, hhart, -⟩
    refine ⟨fun q => ?_, hhart, hothers⟩
    rw [hslot, clearBelow_row]
    refine ite_congr (propext ?_) (fun _ => rfl) (fun _ => rfl)
    constructor <;> intro h <;> omega
  case write =>
    intro hclean hrow v
    have hready : ColumnsReady s r a co x (afBytes f.toNat) := ⟨hlate, hvr, hty, hcols, helems⟩
    obtain ⟨sl', b, hrun, hwrites⟩ := mwrM_run (c := s.hart.cap (.mwr r a co z x f)) (hready.issued (.mwr r a co z x f)) hclean hrow
    refine completes_slot (g := s.hart.setMstat b) hf rfl hrun rfl rfl ?_
    rintro t ⟨rfl, hothers, hhart, -⟩
    refine ⟨fun c hc => (hwrites.cols c hc).trans (ite_congr rfl (fun hin => ?_) fun _ => rfl), hwrites.checked, hwrites.row,
      by rw [hhart]; rfl⟩
    unfold mwrColumn
    rw [Nat.add_sub_cancel' hin.1]
    rfl
  case read =>
    intro hrow _ hclean scale
    have hready : ColumnsReady s r a co x (afBytes f.toNat) := ⟨hlate, hvr, hty, hcols, helems⟩
    have ⟨_, hq, hs, _⟩ := hf
    obtain ⟨t, hrun, hframe, hrow, hrows⟩ := mrdM_run (c := s.hart.cap (.mrd r a co sm x f)) (hready.issued (.mrd r a co sm x f)) hclean hrow
    have hhart : t.hart = (s.hart.issued (.mrd r a co sm x f)).writeElems vr w s.hart.vl
        (fun i => some (mrdValue s r a co sm x f i)) := congrArg State.hart hframe
    refine ⟨_, vecIssue_free hf hrun, ?_, hrow, hrows⟩
    refine writesElems_of (i := .mrd r a co sm x f) (fl := 0) (N := s.hart.vl)
      (f' := fun i => some (mrdValue s r a co sm x f i)) ⟨hq, hs⟩ hvr ?_ (fun i => ?_) (by simp)
    · rw [hart_orFlags0]
      exact congrArg (fun g => s.withHart g.ran) hhart
    · by_cases hi : i < s.hart.vl
      · rw [if_pos hi, if_neg (Nat.not_le.2 hi)]
        exact apply_ite some _ _ _
      · rw [if_neg hi, if_pos (Nat.le_of_not_lt hi)]

end Sys2Proof.Machine
end

section
/-! MCHK, MLOC and MFIX (R183, R187 to R191). -/

namespace Sys2Proof.Machine

/-! ## Rows and regions that pass (R188) -/

/-- A row of a region that has passed. -/
def passedRow (x : AccRow) : AccRow := { x with checked := true, consumed := false }

section
variable (sl : Slot) (g q : Nat)

theorem passRows_eq : passRows sl g = sl.mapRows (32 * g) 32 passedRow := rfl
theorem passRows_row : (passRows sl g).row q = if 32 * g ≤ q ∧ q < 32 * g + 32 then passedRow (sl.row q) else sl.row q := by
  rw [passRows_eq, Slot.mapRows_row]
theorem passRows_cols : ((passRows sl g).row q).cols = (sl.row q).cols := by
  rw [passRows_row]
  split <;> rfl
@[simp] theorem passRows_region (k : Nat) : (passRows sl g).region k = sl.region k := by
  rw [passRows_eq, Slot.mapRows_region]
@[simp] theorem passRows_weight (w : Nat) : (passRows sl g).weight w = sl.weight w := by
  rw [passRows_eq, Slot.mapRows_weight]

end

/-- A verdict looks at its region's record and rows alone (R187). -/
theorem verdictOf_congr (h : Hart) {sl sl' : Slot} {g : Nat} (hr : sl'.region g = sl.region g)
    (hrow : ∀ i < 32, sl'.row (32 * g + i) = sl.row (32 * g + i)) : verdictOf h sl' g = verdictOf h sl g := by
  have hrows : (List.range 32).map (fun i => sl'.row (32 * g + i)) = (List.range 32).map (fun i => sl.row (32 * g + i)) :=
    List.map_congr_left fun i hi => hrow i (List.mem_range.1 hi)
  unfold verdictOf
  simp only [hr, hrows]

/-- From `sl` to `sl'` the `n` regions from `g` on have passed: their rows are checked, no other row, no tile and no region above
them has changed. -/
structure Passed (sl sl' : Slot) (g n : Nat) : Prop where
  row : ∀ q, sl'.row q = if 32 * g ≤ q ∧ q < 32 * (g + n) then passedRow (sl.row q) else sl.row q
  weight : ∀ w, sl'.weight w = sl.weight w
  region : ∀ k, g + n ≤ k → sl'.region k = sl.region k

namespace Passed

variable {sl sl' : Slot} {g n : Nat}

theorem refl (sl : Slot) (g : Nat) : Passed sl sl g 0 :=
  ⟨fun q => by rw [if_neg (by omega)], fun _ => rfl, fun _ _ => rfl⟩
/-- A region above them is judged as before. -/
theorem verdict (hp : Passed sl sl' g n) (h : Hart) : verdictOf h (foldRegion sl' (g + n)) (g + n) =
    verdictOf h (foldRegion sl (g + n)) (g + n) :=
  verdictOf_congr h (foldRegion_region (hp.region _ (Nat.le_refl _)) hp.weight) fun i _ => by
    rw [(foldRegion_only ..).row, (foldRegion_only ..).row, hp.row, if_neg (by omega)]
/-- The next region passes. -/
theorem next (hp : Passed sl sl' g n) {sl1 : Slot} (h1 : RegionOnly (g + n) sl' sl1) :
    Passed sl (passRows sl1 (g + n)) g (n + 1) where
  row q := by
    rw [passRows_row, h1.row, hp.row]
    by_cases hq : 32 * (g + n) ≤ q ∧ q < 32 * (g + n) + 32
    · rw [if_pos hq, if_neg (by omega), if_pos (by omega)]
    · rw [if_neg hq]
      refine ite_congr (propext ?_) (fun _ => rfl) (fun _ => rfl)
      omega
  weight w := by rw [passRows_weight, h1.weight, hp.weight]
  region k hk := by rw [passRows_region, h1.region k (by omega), hp.region k (by omega)]

end Passed

/-! ## MCHK region by region (R188, R189) -/

section
variable {s : State} {g n : Nat}

/-- The verdict of region `g` once it has folded. -/
def judged (s : State) (g : Nat) : Verdict := verdictOf s.hart (foldRegion (s.slot s.hart.slotId) g) g

theorem checkRegions_next (hv : judged s g = .pass) : checkRegions (n + 1) g s = checkRegions n (g + 1)
    (s.setSlot s.hart.slotId (passRows ((foldRegion (s.slot s.hart.slotId) g).setRegion g
      { (foldRegion (s.slot s.hart.slotId) g).region g with verdict := .pass }) g)) := by
  unfold judged at hv
  show (hart >>= _) s = _
  simp only [M.hart_bind, M.slotM_bind, hv, M.setSlotM_bind]
/-- Regions that pass are passed one after another. -/
theorem checkRegions_passed (k : Nat) (hv : ∀ i < k, judged s (g + i) = .pass) :
    ∃ t, checkRegions (k + n) g s = checkRegions n (g + k) t ∧ t = { s with slots := t.slots } ∧
      Passed (s.slot s.hart.slotId) (t.slot s.hart.slotId) g k := by
  induction k generalizing n with
  | zero => exact ⟨s, by rw [Nat.zero_add, Nat.add_zero], rfl, .refl ..⟩
  | succ k ih =>
    obtain ⟨t, hrun, hframe, hpassed⟩ := ih (n := n + 1) fun i hi => hv i (Nat.lt_succ_of_lt hi)
    have hhart : t.hart = s.hart := by rw [hframe]
    have hjudged : judged t (g + k) = .pass := by
      rw [judged, hhart, hpassed.verdict]
      exact hv k (Nat.lt_succ_self k)
    refine ⟨_, (by rw [Nat.add_right_comm, Nat.add_assoc]; exact hrun.trans (checkRegions_next hjudged)), ?_, ?_⟩
    · rw [hframe]
      rfl
    · rw [hhart, State.setSlot_slot_self]
      exact hpassed.next ((foldRegion_only ..).trans (.setRegion ..))
/-- A free value may be taken before a stop. -/
theorem freshen_throw (p : Prop) [Decidable p] (e : Stop) :
    ∃ k, (if p then modify (fun s => { s with fresh := s.fresh + 1 }) >>= fun _ => throw e else throw e : M Unit) s =
      .error e { s with fresh := k } := by
  split
  · exact ⟨_, rfl⟩
  · exact ⟨_, rfl⟩
/-- Where the next fails, its hart parks at the self-test of the columns that differ. -/
theorem checkRegions_fails {rows : BitVec 32} {cols : BitVec 128} {rd : BitVec 1024} {cd : BitVec 4096}
    (hv : judged s g = .fail rows cols rd cd) : ∃ t cons first,
      checkRegions (n + 1) g s = .error (.park (.columnTest g cons (testedColumns cols))) t ∧
      (∀ c, (bitList cols).head? = some c → first = c) ∧
      t = { s with hart := Hart.popHead { s.hart with mstat := mstatFail s.hart.mstat g rows cols first }
                   slots := t.slots, fresh := t.fresh } ∧
      ∀ q, (t.slot s.hart.slotId).row q = (s.slot s.hart.slotId).row q := by
  unfold judged at hv
  show ∃ t cons first, (hart >>= _) s = _ ∧ _
  simp only [M.hart_bind, M.slotM_bind, hv, M.setSlotM_bind, M.get_bind, M.modHart_bind]
  obtain ⟨k, hthrow⟩ := freshen_throw (cols = 0) _
  have hslot := fun y => State.setSlot_slot_self s s.hart.slotId ((foldRegion (s.slot s.hart.slotId) g).setRegion g y)
  refine ⟨_, _, _, hthrow, fun c hc => ?_, rfl, fun q => ?_⟩
  · rw [firstColumn, hc]
    rfl
  · exact (congrArg (·.row q) (hslot _)).trans ((foldRegion_only ..).row q)

/-! ## MCHK (R188) -/

variable {r m : BitVec 5} {c : Cap}

/-- Row `j` of region `r + i`. -/
def checkedRow (s : State) (r : BitVec 5) (i j : Nat) : AccRow := (s.slot s.hart.slotId).row (32 * (r.toNat + i) + j)

theorem checkedRow_eq (s : State) (r : BitVec 5) (i j : Nat) :
    (s.slot s.hart.slotId).row (32 * r.toNat + 32 * i + j) = checkedRow s r i j := by
  rw [checkedRow, Nat.mul_add]

/-- Rows of one type, none poisoned: the check begins. -/
theorem mchkM_run (h : ∀ i ≤ m.toNat, (checkedRow s r i 0).ty ≠ 0 ∧
      ∀ j < 32, (checkedRow s r i j).ty = (checkedRow s r i 0).ty ∧ (checkedRow s r i j).poisoned = false) :
    mchkM r m c s = checkRegions (m.toNat + 1) r.toNat s := by
  unfold mchkM
  simp only [M.slotM_bind]
  rw [if_neg, if_neg]
  · simp only [List.any_eq_true, List.mem_range, List.mem_map, not_exists, not_and]
    rintro i hi x ⟨j, hj, rfl⟩
    rw [checkedRow_eq]
    simp [((h i (by omega)).2 j hj).2]
  · simp only [List.any_eq_true, List.mem_range, List.mem_map, not_exists, not_and, Bool.or_eq_true, beq_iff_eq,
      bne_iff_ne, not_or, not_not]
    rintro i hi x ⟨j, hj, rfl⟩
    have hi := h i (by omega)
    rw [checkedRow_eq, ← Nat.add_zero (32 * r.toNat + 32 * i), checkedRow_eq]
    exact ⟨by rw [(hi.2 j hj).1]; exact hi.1, (hi.2 j hj).1⟩
/-- A row of no type, or of another type than its region's first. -/
theorem mchkM_type {i j : Nat} (hi : i ≤ m.toNat) (hj : j < 32)
    (h : (checkedRow s r i j).ty = 0 ∨ (checkedRow s r i j).ty ≠ (checkedRow s r i 0).ty) : mchkM r m c s =
      .error (.trap .matrixType .read (BitVec.ofNat 64 (5 ||| 32 * r.toNat <<< 8))) (s.withHart { s.hart with vstart := 0 }) := by
  have hcode : 32 * r.toNat <<< 8 = (32 * r.toNat) <<< 8 := by simp only [Nat.shiftLeft_eq, Nat.mul_assoc]
  unfold mchkM
  simp only [M.slotM_bind]
  rw [hcode, if_pos]
  · rfl
  · refine List.any_eq_true.2 ⟨i, List.mem_range.2 (Nat.lt_succ_of_le hi), List.any_eq_true.2 ⟨_,
      List.mem_map.2 ⟨j, List.mem_range.2 hj, rfl⟩, ?_⟩⟩
    rw [checkedRow_eq, ← Nat.add_zero (32 * r.toNat + 32 * i), checkedRow_eq]
    simpa only [Bool.or_eq_true, beq_iff_eq, bne_iff_ne] using h

/-- Check hardware that is not absent. -/
theorem if_checks {α : Type} {x y : α} (hc : absent s 3 = false) : (if absent s 3 = true then x else y) = y :=
  if_neg (by rw [hc]; exact Bool.false_ne_true)
/-- MCHK of regions that all pass (R188). -/
theorem mchk_passes (hf : VectorFree s) (hc : absent s 3 = false)
    (hrun : mchkM r m (s.hart.cap (.mchk r m)) (s.issued (.mchk r m)) =
      checkRegions (m.toNat + 1) r.toNat (s.issued (.mchk r m)))
    (hv : ∀ i ≤ m.toNat, judged s (r.toNat + i) = .pass) : ∃ t, exec (.mchk r m) s = .next t ∧
      Passed (s.slot s.hart.slotId) (t.slot s.hart.slotId) r.toNat (m.toNat + 1) ∧
      t.hart = { s.hart with mstat := mstatPass s.hart.mstat, pc := s.hart.pc + 4, vstart := 0, rpos := 0 } := by
  have ⟨_, hq, hs, _⟩ := hf
  obtain ⟨t, hpass, hframe, hpassed⟩ := checkRegions_passed (s := s.issued (.mchk r m)) (n := 0) (m.toNat + 1)
    fun i hi => hv i (Nat.le_of_lt_succ hi)
  have hend : checkRegions 0 (r.toNat + (m.toNat + 1)) t = .ok () (t.withHart
      { { s.hart with mstat := mstatPass s.hart.mstat } with queue := [s.hart.entryOf (.mchk r m)], pc := s.hart.pc + 4 }) := by
    rw [hframe]
    rfl
  exact ⟨_, (if_checks hc).trans (vecIssue_leaves hf (hrun.trans (hpass.trans hend)) hq hs), hpassed, rfl⟩
/-- MCHK of regions of which one fails after others have passed (R188, R189). -/
theorem mchk_fails {f : Nat} {rows : BitVec 32} {cols : BitVec 128} {rd : BitVec 1024} {cd : BitVec 4096}
    (hf : VectorFree s) (hc : absent s 3 = false) (hrun : mchkM r m (s.hart.cap (.mchk r m)) (s.issued (.mchk r m)) =
      checkRegions (m.toNat + 1) r.toNat (s.issued (.mchk r m)))
    (hle : f ≤ m.toNat) (hv : ∀ i < f, judged s (r.toNat + i) = .pass)
    (hfail : judged s (r.toNat + f) = .fail rows cols rd cd) :
    ∃ t cons first, exec (.mchk r m) s = .next t ∧
      (∀ c, (bitList cols).head? = some c → first = c) ∧
      t.hart = { s.hart with
        run := .parked (.columnTest (r.toNat + f) cons (testedColumns cols))
        mstat := mstatFail s.hart.mstat (r.toNat + f) rows cols first
        queue := [], pc := s.hart.pc + 4, vstart := 0, rpos := 0 } ∧
      ∀ q, (t.slot s.hart.slotId).row q = if 32 * r.toNat ≤ q ∧ q < 32 * (r.toNat + f) then
        passedRow ((s.slot s.hart.slotId).row q) else (s.slot s.hart.slotId).row q := by
  have ⟨_, hq, hs, _⟩ := hf
  obtain ⟨t, hpass, hframe, hpassed⟩ := checkRegions_passed (s := s.issued (.mchk r m)) (n := m.toNat - f + 1) f hv
  have hjudged : judged t (r.toNat + f) = .fail rows cols rd cd := by
    have hhart : t.hart = (s.issued (.mchk r m)).hart := by rw [hframe]
    rw [judged, hhart, hpassed.verdict]
    exact hfail
  obtain ⟨u, cons, first, hstop, hfirst, hframe', hrows⟩ := checkRegions_fails (n := m.toNat - f) hjudged
  rw [show f + (m.toNat - f + 1) = m.toNat + 1 by omega] at hpass
  have hhart : t.hart = s.hart.issued (.mchk r m) := by rw [hframe]; rfl
  have hpop : u.hart = { s.hart with
      mstat := mstatFail s.hart.mstat (r.toNat + f) rows cols first
      queue := [], pc := s.hart.pc + 4, vstart := 0, rpos := 0 } := by
    rw [hframe', hhart]
    exact Hart.popHead_empty (g := { s.hart.issued (.mchk r m) with
      mstat := mstatFail s.hart.mstat (r.toNat + f) rows cols first }) rfl hs
  have hsame : awaits (s.issued (.mchk r m)) (.parked (.columnTest (r.toNat + f) cons (testedColumns cols))) u =
      u.withHart { u.hart with run := .parked (.columnTest (r.toNat + f) cons (testedColumns cols)) } :=
    awaits_same (by rw [hframe', hframe]; rfl)
  refine ⟨_, cons, first, (if_checks hc).trans ((vecIssue_runs hf).trans
    (congrArg (fun x => Host.Outcome.next (headEnd _ _ x)) (hrun.trans (hpass.trans hstop)))), hfirst, ?_, fun q => ?_⟩
  · exact (congrArg State.hart hsame).trans (by rw [hpop]; rfl)
  · rw [hhart] at hrows
    exact (congrArg (fun x => (x.slot s.hart.slotId).row q) hsame).trans ((hrows q).trans (hpassed.row q))

/-! ## MLOC and MFIX (R190, R191) -/

section
variable {h : Hart} {sl : Slot} {i k : Nat} {rows : BitVec 32} {cols : BitVec 128} {rd : BitVec 1024} {cd : BitVec 4096}

theorem locateElem_unfailed (hv : (sl.region g).verdict = .none ∨ (sl.region g).verdict = .pass) :
    (locateElem h sl g).1 = 2 ^ 63 + 1 := by
  unfold locateElem
  rcases hv with hv | hv
  · simp only [hv]
  · simp only [hv]
theorem locateElem_several (hv : (sl.region g).verdict = .fail rows cols rd cd)
    (hm : (∀ i, bitList rows ≠ [i]) ∨ ∀ k, bitList cols ≠ [k]) : (locateElem h sl g).1 = 2 ^ 63 + 2 := by
  unfold locateElem
  simp only [hv]
  split
  · next hr hc =>
    exact hm.elim (fun hm => absurd hr (hm _)) (fun hm => absurd hc (hm _))
  · rfl
/-- The magnitude that bounds the tolerance of an element's two discrepancies (R190). -/
def pairMagnitude (x : Region) (i k : Nat) : Nat :=
  if numLt false (Fmt.f32.decode (wordAt x.m i)) (Fmt.f32.decode (wordAt x.dm k)) = true then wordAt x.dm k else wordAt x.m i
theorem locateElem_single (hv : (sl.region g).verdict = .fail rows cols rd cd) (hr : bitList rows = [i])
    (hc : bitList cols = [k]) : locateElem h sl g =
      if mismatch (sl.row (32 * g)).int (regionTol h (sl.region g)) (wordAt rd i) (wordAt cd k)
        (pairMagnitude (sl.region g) i k) = true then (2 ^ 63 + 3, none)
      else (i ||| k <<< 8, some (i, k, wordAt rd i)) := by
  unfold locateElem
  simp only [hv, hr, hc]
  rfl

end

/-- MLOC writes what it answers (R190). -/
theorem mloc_answers {d : BitVec 6} (hf : VectorFree s) (hc : absent s 3 = false) {v : Nat}
    (hv : (locateElem s.hart (s.slot s.hart.slotId) r.toNat).1 = v) :
    Completes (.mloc r d) s (VectorScalar s · d (BitVec.ofNat 64 v) 0) := by
  subst hv
  refine scalar_ran (m := mlocM r d) hf ?_ (if_checks hc)
  rw [hart_orFlags0]
  rfl

/-- The slot once element (i, k) of region `g` has been repaired by `disc`. -/
def repaired (sl : Slot) (g i k disc : Nat) : Slot :=
  let row := sl.row (32 * g + i)
  let fixed := { row with cols := putWord row.cols k (ckSub row.int (wordAt row.cols k) disc) }
  passRows ((sl.setRow (32 * g + i) fixed).setRegion g { sl.region g with verdict := .pass }) g

theorem mfixM_run {a : BitVec 6} {i k disc v : Nat}
    (hl : locateElem s.hart (s.slot s.hart.slotId) r.toNat = (v, some (i, k, disc))) (hv : c.op1.toNat = v)
    (hrow : ((s.slot s.hart.slotId).row (32 * r.toNat + i)).poisoned = false) :
    mfixM r a c s = .ok () (s.setSlot s.hart.slotId (repaired (s.slot s.hart.slotId) r.toNat i k disc)) := by
  unfold mfixM
  simp only [M.hart_bind, M.slotM_bind, hl, hv, hrow, ne_eq, not_true_eq_false, Bool.false_eq_true, ↓reduceIte,
    M.setSlotM_run, Slot.setRow_region, repaired]

section
variable {sl : Slot} {i k disc : Nat}

/-- The repair takes the discrepancy off its element alone. -/
theorem repaired_element {j : Nat} (hj : j < 128) : wordAt ((repaired sl g i k disc).row (32 * g + i)).cols j =
    if j = k then ckSub (sl.row (32 * g + i)).int (wordAt (sl.row (32 * g + i)).cols k) disc % 2 ^ 32
    else wordAt (sl.row (32 * g + i)).cols j := by
  rw [repaired, passRows_cols, Slot.setRegion_row, Slot.setRow_row_self, wordAt_putWord _ _ _ _ (by omega)]
theorem repaired_other {q : Nat} (hq : q ≠ 32 * g + i) : ((repaired sl g i k disc).row q).cols = (sl.row q).cols := by
  rw [repaired, passRows_cols, Slot.setRegion_row, Slot.setRow_row, if_neg hq]
theorem repaired_passed {j : Nat} (hj : j < 32) : ((repaired sl g i k disc).row (32 * g + j)).checked = true ∧
    ((repaired sl g i k disc).row (32 * g + j)).consumed = false := by
  rw [repaired, passRows_row, if_pos (by omega)]
  exact ⟨rfl, rfl⟩
theorem repaired_verdict : ((repaired sl g i k disc).region g).verdict = .pass := by
  rw [repaired, passRows_region, Slot.setRegion_region_self]

end

end

/-- Settles O37: MCHK by the regions in turn, MLOC and MFIX by what a failed check locates. -/
theorem lanternChecksAndRepairs : Obligations.LanternChecksAndRepairs := by
  refine ⟨?checks, ?locates⟩
  case checks =>
    intro s r m id sl row verdict hf hc
    refine ⟨fun hrows => ?_, fun i hi j hj htype => (if_checks hc).trans
      (vecIssue_free_trap hf (mchkM_type (s := s.issued (.mchk r m)) hi hj htype))⟩
    have hrun : mchkM r m (s.hart.cap (.mchk r m)) (s.issued (.mchk r m)) =
      checkRegions (m.toNat + 1) r.toNat (s.issued (.mchk r m)) := mchkM_run hrows
    refine ⟨fun hv => ?_, fun f rows cols rd cd hle hv hfail => ?_⟩
    · obtain ⟨t, hexec, hpassed, hhart⟩ := mchk_passes hf hc hrun hv
      exact ⟨t, hexec, hpassed.row, hhart⟩
    · obtain ⟨t, cons, first, hexec, hfirst, hhart, hrow⟩ := mchk_fails hf hc hrun hle hv hfail
      exact ⟨t, hexec, ⟨cons, by rw [hhart]; rfl⟩, ⟨first, by rw [hhart], hfirst⟩, by rw [hhart], hrow⟩
  case locates =>
    intro s r d a id sl g x hf hc locates
    refine ⟨fun hv => mloc_answers hf hc (locateElem_unfailed hv), ?_⟩
    intro rows cols rd cd hv mag same
    refine ⟨fun hmany => mloc_answers hf hc (locateElem_several hv hmany), fun i k hi hk => ?_⟩
    have hsingle := locateElem_single (h := s.hart) hv hi hk
    refine ⟨fun hdiffer => ?_, fun hsame => ?_⟩
    · have hlocate := hsingle.trans (if_pos ((Bool.not_eq_false _).mp hdiffer))
      exact mloc_answers hf hc (congrArg Prod.fst hlocate)
    · have hlocate := hsingle.trans (if_neg ((Bool.not_eq_true _).mpr hsame))
      refine ⟨mloc_answers hf hc (congrArg Prod.fst hlocate), fun hname hrow => ?_⟩
      refine completes_slot (g := s.hart) hf (if_checks hc)
        (mfixM_run (s := s.issued (.mfix r a)) hlocate hname hrow) rfl rfl ?_
      rintro t ⟨hslot, -, hhart, -⟩
      rw [hslot]
      exact ⟨fun j hj => repaired_element hj, fun q hq => repaired_other hq, fun j hj => repaired_passed hj,
        repaired_verdict, hhart⟩

end Sys2Proof.Machine
end

section
/-! WLD, WLDFF and WSEL (R168 to R173, R447). -/

namespace Sys2Proof.Machine

/-! ## Translation within 64 KiB (R199, R240) -/

section
variable {s : State} {a b i va pf gs : Nat} {l l' : Loc}

/-- Addresses of one smallest page meet the same cached entries. -/
theorem vaTag_within (lvl : Nat) (h : a / 65536 = b / 65536) : vaTag lvl a = vaTag lvl b := by
  unfold vaTag pageBits
  split_ifs <;> omega
theorem cachedLeaf_within (tlb : List TlbEntry) (h : a / 65536 = b / 65536) (lvls : List Nat) :
    cachedLeaf tlb a lvls = cachedLeaf tlb b lvls := by
  induction lvls with
  | nil => rfl
  | cons lvl lvls ih => simp only [cachedLeaf, tlbFind, vaTag_within lvl h, ih]
/-- A leaf takes consecutive addresses of one smallest page to consecutive places. -/
theorem leafPa_within (e lvl : Nat) (h : (a + i) / 65536 = a / 65536) : leafPa e lvl (a + i) = leafPa e lvl a + i := by
  unfold leafPa pageBits
  split_ifs <;> omega
theorem scratchOff_within {c : Ctx} (hc : c.scrbase.toNat % 65536 = 0) (h : (a + i) / 65536 = a / 65536) :
    scratchOff c (a + i) = (scratchOff c a).map (· + i) := by
  have hsize : Config.scratchSize = 0x80000 := rfl
  unfold scratchOff
  rw [hsize]
  simp only [Bool.and_eq_true, decide_eq_true_eq]
  by_cases hin : c.scrbase.toNat ≤ a ∧ a < c.scrbase.toNat + 0x80000
  · rw [if_pos hin, if_pos (by omega), Option.map_some]
    congr 1
    omega
  · rw [if_neg hin, if_neg (by omega), Option.map_none]
/-- So a byte of an image stands as far beyond another of its page. -/
theorem imageByte_within (hscr : (s.ctx (ctxOf s s.hart)).scrbase.toNat % 65536 = 0) (h : (a + i) / 65536 = a / 65536)
    (ha : ImageByte s pf gs a l) (hb : ImageByte s pf gs (a + i) l') : l' = l.add i := by
  have hoff := scratchOff_within hscr h
  rcases ha with ⟨o, ho, rfl, -⟩ | ⟨pa, hm, rfl, -⟩ <;> rcases hb with ⟨o', ho', rfl, -⟩ | ⟨pa', hm', rfl, -⟩
  · rw [ho, ho'] at hoff
    exact congrArg Loc.scr (Option.some.inj hoff)
  · obtain ⟨-, hnone, -⟩ := hm'
    rw [ho, hnone] at hoff
    exact absurd hoff nofun
  · obtain ⟨-, hnone, -⟩ := hm
    rw [ho', hnone] at hoff
    exact absurd hoff nofun
  · obtain ⟨-, -, -, -, e, he, -, -, -, -, -, rfl⟩ := hm
    obtain ⟨-, -, -, -, e', he', -, -, -, -, -, rfl⟩ := hm'
    rw [cachedLeaf_within _ h, he] at he'
    obtain rfl := Option.some.inj he'
    exact congrArg Loc.phys (leafPa_within _ _ h)

/-- Where a byte of an image is found, before and after the second stage. -/
theorem locateGpa_image (h : ImageByte s pf gs va l) : locateGpa s.hart.id va va .read false s = .ok ⟨l, pf, gs⟩ s := by
  rcases h with ⟨o, ho, rfl, rfl, rfl⟩ | ⟨pa, ⟨hc, hs, hw, -, e, he, hm, h1, h2, h3, ha, rfl⟩, rfl, hpage⟩
  · unfold locateGpa
    simp only [M.ctxM_bind, State.hartOf_self, ho]
    rfl
  · obtain ⟨rfl, rfl⟩ := hpage e he
    unfold locateGpa
    simp only [M.ctxM_bind, State.hartOf_self, hs, M.get_bind, M.hartNo_bind]
    rw [M.bind_ok (translateM_hit hc he hm h1 h2 h3 ha)]
    simp only [M.ctxM_bind, M.hartNo_bind, State.hartOf_self, hw, M.pure_run]
theorem stage2M_physical {pa : Nat} {k : Kind} (h : ctxOf s s.hart / 64 = 0) :
    stage2M s.hart.id (ctxOf s s.hart) pa k false va k s = .ok (some pa) s := by
  unfold stage2M
  simp only [M.get_bind, stage2Of, lineAddr, h, decide_true, Bool.true_or, if_true]
  rfl
theorem locate_image (h : ImageByte s pf gs va l) : locate s.hart.id va va .read false s = .ok ⟨l, pf, gs⟩ s := by
  unfold locate
  rw [M.bind_ok (locateGpa_image h)]
  rcases h with ⟨o, -, rfl, -⟩ | ⟨pa, ⟨-, -, -, hfn, -⟩, rfl, -⟩
  · rfl
  · simp only [M.ctxM_bind, State.hartOf_self]
    rw [M.bind_ok (stage2M_physical hfn)]
    rfl

end

/-! ## An image's bytes, page by page (R170) -/

section
variable {s : State} {va n pf gs : Nat}

/-- Part `k` of an access: what of it page `k` from its first on holds. -/
def pagePart (va n k : Nat) : Option (Nat × Nat) :=
  let lo := max va ((va / 65536 + k) * 65536)
  let hi := min (va + n) ((va / 65536 + k + 1) * 65536)
  if lo < hi then some (lo, hi - lo) else none

theorem chunks_eq : chunks va n = (List.range (n / 65536 + 2)).filterMap (pagePart va n) := rfl
/-- A part lies in the access, within one page. -/
theorem mem_chunks {p : Nat × Nat} (h : p ∈ chunks va n) :
    va ≤ p.1 ∧ p.1 + p.2 ≤ va + n ∧ 0 < p.2 ∧ ∀ i < p.2, (p.1 + i) / 65536 = p.1 / 65536 := by
  rw [chunks_eq] at h
  obtain ⟨k, -, hk⟩ := List.mem_filterMap.1 h
  unfold pagePart at hk
  dsimp only at hk
  split at hk
  · next hlt =>
    obtain rfl := Option.some.inj hk
    refine ⟨by dsimp only; omega, by dsimp only; omega, by dsimp only; omega, fun i hi => ?_⟩
    dsimp only at hi ⊢
    omega
  · exact absurd hk nofun
/-- The addresses of an access, from those of its parts. -/
theorem chunks_cover : (chunks va n).flatMap (fun p => (List.range p.2).map (p.1 + ·)) = (List.range n).map (va + ·) := by
  have hprefix : ∀ k, ((List.range k).filterMap (pagePart va n)).flatMap (fun p => (List.range p.2).map (p.1 + ·)) =
      (List.range (min n ((va / 65536 + k) * 65536 - va))).map (va + ·) := fun k => by
    induction k with
    | zero =>
      rw [show min n ((va / 65536 + 0) * 65536 - va) = 0 by omega]
      rfl
    | succ k ih =>
      rw [List.range_succ, List.filterMap_append, List.flatMap_append, ih]
      unfold pagePart
      by_cases hlt : max va ((va / 65536 + k) * 65536) < min (va + n) ((va / 65536 + k + 1) * 65536)
      · have hlo : max va ((va / 65536 + k) * 65536) = va + min n ((va / 65536 + k) * 65536 - va) := by omega
        have hsum : min n ((va / 65536 + (k + 1)) * 65536 - va) = min n ((va / 65536 + k) * 65536 - va) +
          (min (va + n) ((va / 65536 + k + 1) * 65536) - max va ((va / 65536 + k) * 65536)) := by omega
        rw [hsum, List.range_add, List.map_append]
        simp only [List.filterMap_cons, List.filterMap_nil, if_pos hlt, List.flatMap_cons, List.flatMap_nil, List.append_nil,
          List.map_map]
        refine congrArg _ (List.map_congr_left fun i _ => ?_)
        show _ = va + (_ + i)
        omega
      · simp only [List.filterMap_cons, List.filterMap_nil, if_neg hlt, List.flatMap_nil, List.append_nil]
        have hsame : min n ((va / 65536 + (k + 1)) * 65536 - va) = min n ((va / 65536 + k) * 65536 - va) := by omega
        rw [hsame]
  have hall : min n ((va / 65536 + (n / 65536 + 2)) * 65536 - va) = n := by omega
  rw [chunks_eq, hprefix, hall]

/-- Parts of an image whose first bytes stand at `f` are found there. -/
theorem imagePlaces_image {f : Nat → Loc} (ps : List (Nat × Nat)) (acc : List Loc)
    (h : ∀ p ∈ ps, ImageByte s pf gs p.1 (f p.1)) :
    imagePlaces s.hart.id pf ps acc s = .ok (acc ++ ps.flatMap (fun p => (List.range p.2).map (f p.1).add), none) s := by
  induction ps generalizing acc with
  | nil => rw [List.flatMap_nil, List.append_nil]; rfl
  | cons p ps ih =>
    have hfirst : (do
        let x ← locate s.hart.id p.1 p.1 .read false
        if x.pfmt ≠ pf then trap .formatSplit .read (BitVec.ofNat 64 p.1)
        return x.loc : M Loc) s = .ok (f p.1) s := by
      rw [M.bind_ok (locate_image (h p List.mem_cons_self))]
      simp only [ne_eq, not_true_eq_false, ↓reduceIte]
      rfl
    unfold imagePlaces
    simp only [M.get_bind]
    rw [attempt_bind, hfirst]
    dsimp only
    rw [ih _ fun q hq => h q (List.mem_cons_of_mem _ hq), List.flatMap_cons, List.append_assoc]
/-- All of an image is found. -/
theorem imagePlaces_all {ls : Nat → Loc} (hscr : (s.ctx (ctxOf s s.hart)).scrbase.toNat % 65536 = 0)
    (h : ∀ i < n, ImageByte s pf gs (va + i) (ls i)) :
    imagePlaces s.hart.id pf (chunks va n) [] s = .ok ((List.range n).map ls, none) s := by
  have hbyte : ∀ v, va ≤ v → v < va + n → ImageByte s pf gs v (ls (v - va)) := fun v h1 h2 => by
    have := h (v - va) (by omega)
    rwa [Nat.add_sub_cancel' h1] at this
  have hparts : (chunks va n).flatMap (fun p => (List.range p.2).map (ls (p.1 - va)).add) = (List.range n).map ls := by
    calc (chunks va n).flatMap (fun p => (List.range p.2).map (ls (p.1 - va)).add)
      _ = (chunks va n).flatMap (fun p => ((List.range p.2).map (p.1 + ·)).map (fun v => ls (v - va))) := by
        refine List.flatMap_congr fun p hp => ?_
        obtain ⟨hlo, hhi, hpos, hpage⟩ := mem_chunks hp
        rw [List.map_map]
        refine List.map_congr_left fun i hi => ?_
        have hi := List.mem_range.1 hi
        exact (imageByte_within hscr (hpage i hi) (hbyte p.1 hlo (by omega)) (hbyte (p.1 + i) (by omega) (by omega))).symm
      _ = ((chunks va n).flatMap (fun p => (List.range p.2).map (p.1 + ·))).map (fun v => ls (v - va)) := List.map_flatMap.symm
      _ = (List.range n).map ls := by
        rw [chunks_cover, List.map_map]
        exact List.map_congr_left fun i _ => congrArg ls (Nat.add_sub_cancel_left ..)
  refine (imagePlaces_image (gs := gs) (f := fun v => ls (v - va)) _ _ fun p hp => ?_).trans (by rw [List.nil_append, hparts])
  obtain ⟨hlo, hhi, hpos, -⟩ := mem_chunks hp
  exact hbyte p.1 hlo (by omega)

end

/-! ## A tile load issues (R170 to R172) -/

section
variable {s : State} {w : BitVec 4} {b : BitVec 6} {cn : BitVec 4} {c : Cap} {va pf gs d : Nat} {ls : Nat → Loc}

theorem scratchHeld_filter (sl : Slot) (l : List Loc) :
    scratchHeld sl (l.filter (fun x => match x with | .scr _ => true | _ => false)) = scratchHeld sl l := by
  unfold scratchHeld
  rw [List.any_filter]
  refine congrArg _ (congrArg (l.any ·) (funext fun x => ?_))
  cases x <;> rfl
theorem engineRoom_hasRoom (h : HasRoom s cn false) : engineRoom cn none s = .ok () s := by
  obtain ⟨hcounter, hops, -⟩ := h
  have hslot : ¬ Config.engineMax ≤ (s.slot s.hart.slotId).inFlight.length := Nat.not_le.2 hops
  unfold engineRoom
  simp only [M.hart_bind, M.slotM_bind]
  rw [if_neg (Nat.not_le.2 hcounter), if_neg hslot]
  rfl
theorem countUp_focus (s : State) (n : Nat) : countUp s.hart.id n s =
    .ok () (s.withHart (s.hart.setCounter n (s.hart.counter n + 1))) := by
  have hrun : countUp s.hart.id n s = .ok ()
      (s.setHart ((s.hartOf s.hart.id).setCounter n ((s.hartOf s.hart.id).counter n + 1))) :=
    congrArg (EStateM.Result.ok ()) (if_pos (by simp))
  rw [hrun, State.hartOf_self]
  exact congrArg (EStateM.Result.ok ()) (State.setHart_focus _ _ rfl)
/-- An operation as the focus hart issues it: a tile load keeps its place in the vector queue (R217). -/
def EngOp.issuedBy (o : EngOp) (s : State) : EngOp :=
  { o with n := s.nextOp, hart := s.hart.id, acq := s.hart.lastAcq, next := 0, home := s.hart.id, done := false, fold := 0,
           seq := if o.kind = .wld then (s.hart.queue.head?.map (·.note.seq)).getD s.hart.stores else s.hart.stores }
/-- A slot with one more operation. -/
def Slot.withOp (sl : Slot) (o : EngOp) : Slot := { sl with ops := sl.ops ++ [o] }
/-- The focus hart's operation joins its slot's, and its counter rises (R210). -/
theorem engineIssue_run (o : EngOp) : ∃ t, engineIssue o s = .ok () t ∧
    t.slot s.hart.slotId = (s.slot s.hart.slotId).withOp (o.issuedBy s) ∧ (∀ i, i ≠ s.hart.slotId → t.slot i = s.slot i) ∧
    t = { s with
      hart := s.hart.setCounter o.counter (s.hart.counter o.counter + 1), slots := t.slots, nextOp := s.nextOp + 1 } := by
  unfold engineIssue
  simp only [M.get_bind, M.set_bind, M.slotM_bind, M.setSlotM_bind]
  exact ⟨_, countUp_focus .., State.setSlot_slot_self .., fun i hi => (State.setSlot_slot ..).trans (if_neg hi), rfl⟩

/-- Where a load is at the head of its queue VSTART is zero (R60). -/
def State.rewound (s : State) : State := s.withHart { s.hart with vstart := 0 }
/-- The places of an image. -/
def imageLocs (pf gs d : Nat) (ls : Nat → Loc) : List Loc := (List.range (imageBytes pf gs d)).map ls
theorem imageBytes_pos (hd : d ≠ 0) (hu : d % tileUnit pf gs = 0) : 0 < imageBytes pf gs d := by
  have hle : tileUnit pf gs ≤ d := Nat.le_of_dvd (Nat.pos_of_ne_zero hd) (Nat.dvd_of_mod_eq_zero hu)
  unfold tileUnit at hle
  unfold imageBytes
  split
  · next hq =>
    rw [if_pos hq] at hle
    have hg : 0 < tileG gs := Nat.two_pow_pos _
    have hb : 0 < blockBytes pf gs := by unfold blockBytes; omega
    exact Nat.mul_pos (Nat.div_pos hle hg) hb
  · next hq =>
    rw [if_neg hq] at hle
    have hn : 0 < tileN pf := by unfold tileN; split_ifs <;> decide
    split
    · exact Nat.add_pos_right _ (Nat.mul_pos (by omega) hn)
    · omega

/-- An image of format `pf` and depth `d` at `va` that reads in full. -/
structure ImageReady (s : State) (pf gs va d : Nat) (ls : Nat → Loc) : Prop where
  aligned : va % 256 = 0
  scratch : (s.ctx (ctxOf s s.hart)).scrbase.toNat % 65536 = 0
  format : tileFormat pf = true
  depth : d ≠ 0
  unit : d % tileUnit pf gs = 0
  most : d ≤ tileMax pf
  bytes : ∀ i < imageBytes pf gs d, ImageByte s pf gs (va + i) (ls i)
  sound : ∀ i < imageBytes pf gs d, LocSound s (ls i) ∧ CopyClean s (ls i)
  free : SpanFree s ((imageLocs pf gs d ls).filter (fun l => match l with | .scr _ => true | _ => false))

namespace ImageReady

variable (h : ImageReady s pf gs va d ls)
include h

theorem rewound : ImageReady s.rewound pf gs va d ls :=
  ⟨h.aligned, h.scratch, h.format, h.depth, h.unit, h.most, h.bytes, h.sound, h.free⟩
theorem first_located : locateGpa s.hart.id va va .read false s = .ok ⟨ls 0, pf, gs⟩ s :=
  locateGpa_image (h.bytes 0 (imageBytes_pos h.depth h.unit))
theorem all_located : imagePlaces s.hart.id pf (chunks va (imageBytes pf gs d)) [] s = .ok (imageLocs pf gs d ls, none) s :=
  imagePlaces_all h.scratch h.bytes
theorem unclaimed : scratchFree s.hart.id (imageLocs pf gs d ls) s = .ok () s :=
  scratchFree_spanFree ((scratchHeld_filter ..).symm.trans h.free)
theorem locs : ∀ l ∈ imageLocs pf gs d ls, LocSound s l ∧ CopyClean s l := fun l hl => by
  obtain ⟨i, hi, rfl⟩ := List.mem_map.1 hl
  exact h.sound i (List.mem_range.1 hi)
theorem reports_none : reportM (imageLocs pf gs d ls) s = .ok () s := reportM_sound fun l hl => (h.locs l hl).1
theorem none_bad : firstBad s s.hart true (imageLocs pf gs d ls) = none :=
  firstBad_sound (fun l hl => (h.locs l hl).1) fun l hl => (h.locs l hl).2

end ImageReady

theorem kinGet_rewound (a : Nat) (ks : List (Nat × Nat)) : kinGet s.rewound a ks = kinGet s a ks := by
  have hsb : ∀ p, (s.rewound.hartOf p).sbuf = (s.hartOf p).sbuf := fun p => by
    show (if s.hart.id = p then { s.hart with vstart := 0 } else mapGet Hart.initial s.harts p).sbuf = _
    unfold State.hartOf
    split <;> rfl
  induction ks with
  | nil => rfl
  | cons k ks ih => simp only [kinGet, hsb, ih]
theorem histGet_rewound (vec : Bool) (n a : Nat) (v : Byte) (us : List Undo) :
    histGet s.rewound.hart vec n a v us = histGet s.hart vec n a v us := by
  induction us generalizing v with
  | nil => rfl
  | cons u us ih =>
    simp only [histGet, ih]
    rfl
/-- Its reads are those of before (R219). -/
theorem locByte_rewound (side : Bool) (l : Loc) : locByte s.rewound s.rewound.hart side l = locByte s s.hart side l := by
  cases l with
  | scr o => rfl
  | dead a => rfl
  | phys a =>
    have hpend : pendingGet s.rewound s.rewound.hart a = pendingGet s s.hart a := by
      simp only [pendingGet, show s.rewound.hart.kin = s.hart.kin from rfl, kinGet_rewound]
      rfl
    have hpeek : ∀ q, s.rewound.peek q = s.peek q := State.withHart_peek_same s _
    have hhist : histAddr s.rewound a = histAddr s a := by
      unfold histAddr
      rw [show homeOf s.rewound a = homeOf s a from homeOf_congr rfl rfl rfl rfl a]
    simp only [locByte, ordinaryByte, readByte, hpend, kinGet_rewound, histGet_rewound, hpeek, hhist]
    rfl

/-- The load of an image whose bytes are `bs`. -/
def loadOp (s : State) (ff : Bool) (w cn : BitVec 4) (c : Cap) (pf gs : Nat) (bs : List Byte) : EngOp :=
  { EngOp.blank .wld cn with
    n := s.nextOp, hart := s.hart.id, src := bs, arg := c.op1, wb := w.toNat, fmt := pf, gs := gs, depth := c.op2.toNat,
    acq := s.hart.lastAcq, seq := s.hart.stores, home := s.hart.id, fn5 := if ff then 1 else 0 }
/-- From `s` to `t` a load has been issued: its weight slot loads, and its counter has risen. -/
structure LoadIssued (s t : State) (w cn : BitVec 4) (o : EngOp) : Prop where
  slot : t.slot s.hart.slotId = ((foldSlot (s.slot s.hart.slotId) w.toNat).setWeight w.toNat .loading).withOp o
  others : ∀ i, i ≠ s.hart.slotId → t.slot i = s.slot i
  frame : t = { s with hart := counted { s.hart with vstart := 0 } cn, slots := t.slots, nextOp := s.nextOp + 1 }

/-- A load of an image that reads in full. -/
theorem wldM_run (ff : Bool) (h : ImageReady s pf gs c.op1.toNat c.op2.toNat ls) (hroom : HasRoom s cn false)
    {bs : List Byte} (hbs : bs = (imageLocs pf gs c.op2.toNat ls).map (locByte s s.hart true))
    (hmeta : metaAmiss pf c.op2.toNat bs = none) (hnote : s.hart.queue.head?.map (·.note.seq) = some s.hart.stores) :
    ∃ t, LoadIssued s t w cn (loadOp s ff w cn c pf gs bs) ∧ wldM ff w b cn c s =
      .ok () (if ff then t.withHart (t.hart.setS b (BitVec.ofNat 64 c.op2.toNat)) else t) := by
  have hgpa : locateGpa s.hart.id _ _ _ _ s.rewound = _ := h.rewound.first_located
  have hplaces : imagePlaces s.hart.id _ _ _ s.rewound = _ := h.rewound.all_located
  have hfree : scratchFree s.hart.id _ s.rewound = _ := h.rewound.unclaimed
  have hroom' : engineRoom cn none s.rewound = _ := engineRoom_hasRoom hroom
  have hfocus : s.rewound.hartOf s.hart.id = s.rewound.hart := State.hartOf_self _
  have hbytes : (imageLocs pf gs c.op2.toNat ls).map (locByte s.rewound s.rewound.hart true) = bs :=
    (List.map_congr_left fun l _ => locByte_rewound true l).trans hbs.symm
  have htake : (imageLocs pf gs c.op2.toNat ls).take (imageBytes pf gs c.op2.toNat) = imageLocs pf gs c.op2.toNat ls :=
    List.take_of_length_le (by simp [imageLocs])
  unfold wldM
  simp only [M.hart_bind, M.modHart_bind, h.aligned, ne_eq, not_true_eq_false, ↓reduceIte]
  show ∃ t, _ ∧ (locateGpa _ _ _ _ _ >>= _) s.rewound = _
  rw [M.bind_ok hgpa]
  simp only [h.format, h.depth, h.unit, Nat.not_lt.2 h.most, M.bind_ok hplaces, htake, M.bind_ok hfree, M.bind_ok hroom',
    M.bind_ok h.rewound.reports_none, M.get_bind, hfocus, hbytes, hmeta, h.rewound.none_bad, M.slotM_bind, M.setSlotM_bind,
    Option.isNone_none, Option.isSome_none, Bool.not_true, Bool.false_eq_true, not_true_eq_false, decide_false,
    Bool.or_self, ↓reduceIte]
  obtain ⟨t, hissue, hslot, hothers, hframe⟩ := engineIssue_run (s := s.rewound.setSlot s.rewound.hart.slotId
      ((foldSlot (s.rewound.slot s.rewound.hart.slotId) w.toNat).setWeight w.toNat .loading))
    { EngOp.blank .wld cn with src := bs, arg := c.op1, fn5 := if ff then 1 else 0, wb := w.toNat, fmt := pf, gs := gs,
                               depth := c.op2.toNat, bad := false }
  have hseq : (s.hart.queue.head?.map (·.note.seq)).getD s.hart.stores = s.hart.stores := congrArg (Option.getD · _) hnote
  refine ⟨t, ⟨hslot.trans (congr (congrArg Slot.withOp (State.setSlot_slot_self ..)) ?_),
    fun i hi => (hothers i hi).trans ((State.setSlot_slot ..).trans (if_neg hi)), hframe⟩, ?_⟩
  · exact congrArg (fun n => { loadOp s ff w cn c pf gs bs with seq := n }) hseq
  · rw [M.bind_ok hissue]
    split
    · rfl
    · rfl

/-- An address that is no multiple of 256 (R170). -/
theorem wldM_misaligned {ff : Bool} (h : c.op1.toNat % 256 ≠ 0) :
    wldM ff w b cn c s = .error (.trap .align .read c.op1) s.rewound := by
  unfold wldM
  simp only [M.hart_bind, M.modHart_bind]
  rw [if_pos h]
  rfl

theorem Hart.setS_placed (h : Hart) (q : List QEntry) (p : Word) (v : Nat) (x : Word) :
    Hart.setS { h with queue := q, pc := p, vstart := v } b x = { h.setS b x with queue := q, pc := p, vstart := v } := by
  unfold Hart.setS
  split <;> rfl
/-- The hart after a load of depth `d`: WLDFF has the depth granted in its register. -/
def loadHart (s : State) (ff : Bool) (cn : BitVec 4) (b : BitVec 6) (d : Nat) : Hart :=
  if ff then (counted s.hart cn).setS b (BitVec.ofNat 64 d) else counted s.hart cn
/-- A load that meets a free vector unit. -/
theorem tileLoad_completes {i : Instr} (ff : Bool) (hf : VectorFree s) (he : exec i s = vecIssue i (wldM ff w b cn) s)
    (h : ImageReady s pf gs (s.hart.cap i).op1.toNat (s.hart.cap i).op2.toNat ls) (hroom : HasRoom s cn false)
    (hmeta : metaAmiss pf (s.hart.cap i).op2.toNat
      ((imageLocs pf gs (s.hart.cap i).op2.toNat ls).map (locByte s s.hart true)) = none) :
    ∃ t, exec i s = .next t ∧
      t.slot s.hart.slotId = ((foldSlot (s.slot s.hart.slotId) w.toNat).setWeight w.toNat .loading).withOp
        (loadOp s ff w cn (s.hart.cap i) pf gs ((imageLocs pf gs (s.hart.cap i).op2.toNat ls).map (locByte s s.hart true))) ∧
      (∀ k, k ≠ s.hart.slotId → t.slot k = s.slot k) ∧
      t = { s with
        hart := { loadHart s ff cn b (s.hart.cap i).op2.toNat with pc := s.hart.pc + 4, vstart := 0, rpos := 0 }
        slots := t.slots, nextOp := s.nextOp + 1 } := by
  have ⟨_, hq, hs, _⟩ := hf
  obtain ⟨t, ⟨hslot, hothers, hframe⟩, hrun⟩ := wldM_run (s := s.issued i) (w := w) (b := b) (cn := cn) ff
    ⟨h.aligned, h.scratch, h.format, h.depth, h.unit, h.most, h.bytes, h.sound, h.free⟩ hroom
    (List.map_congr_left fun l _ => (locByte_issued true l).symm) hmeta rfl
  have hhart : t.hart = { counted s.hart cn with queue := [s.hart.entryOf i], pc := s.hart.pc + 4, vstart := 0 } := by
    rw [hframe]
    rfl
  have hleaves : (if ff then t.withHart (t.hart.setS b (BitVec.ofNat 64 (s.hart.cap i).op2.toNat)) else t) =
      t.withHart { { loadHart s ff cn b (s.hart.cap i).op2.toNat with vstart := 0 } with
        queue := [s.hart.entryOf i], pc := s.hart.pc + 4 } := by
    rw [hhart, Hart.setS_placed]
    cases ff with
    | false => exact congrArg t.withHart hhart
    | true => rfl
  have hqueue : (loadHart s ff cn b (s.hart.cap i).op2.toNat).queue = [] := by
    unfold loadHart
    split
    · exact (Hart.setS_queue ..).trans hq
    · exact hq
  have hsets : (loadHart s ff cn b (s.hart.cap i).op2.toNat).sets = [] := by
    unfold loadHart
    split
    · exact (Hart.setS_sets ..).trans hs
    · exact hs
  have hend := hrun.trans (congrArg (EStateM.Result.ok ()) hleaves)
  refine ⟨_, he.trans (vecIssue_leaves hf hend hqueue hsets), hslot, hothers, ?_⟩
  rw [hframe]
  rfl

end

/-- Settles O38: a load by its checks one after another, an image's bytes by the pages they stand on. -/
theorem tileLoads : Obligations.TileLoads := by
  intro s w a b c pf gs ls id va d n pl bs hf
  refine ⟨?loads, ?selects, fun halign => vecIssue_free_trap hf (wldM_misaligned halign)⟩
  case loads =>
    intro halign hscr hfmt hd hunit hmost hbytes hsound hfree hroom hmeta sl op loads
    have hready : ImageReady s pf gs va d ls := ⟨halign, hscr, hfmt, hd, hunit, hmost, hbytes, hsound, hfree⟩
    exact ⟨tileLoad_completes (i := .wld w a b c) false hf rfl hready hroom hmeta,
      tileLoad_completes (i := .wldff w a b c) true hf rfl hready hroom hmeta⟩
  case selects =>
    have ⟨_, hq, hs, _⟩ := hf
    exact ⟨_, vecIssue_leaves (g := { s.hart with tile := some w.toNat }) hf rfl hq hs, rfl⟩

end Sys2Proof.Machine
end

section
/-! What an engine's writes leave (R205, R207, R217, R218): the bytes at home, and beside them the progress of its own
operation and the stores of harts that have reached home. -/

namespace Sys2Proof.Machine

/-! ## A place's byte after several stores -/

section
variable {ps qs : List (Loc × Byte)} {l : Loc} {ls : List Loc} {bs : List Byte}

/-- A place's byte after bytes are stored at places one after another. -/
def byteLast (ps : List (Loc × Byte)) (l : Loc) (old : Byte) : Byte := ps.foldl (fun b p => if p.1 = l then p.2 else b) old

theorem byteLast_cons (p : Loc × Byte) (ps : List (Loc × Byte)) (l : Loc) (b : Byte) :
    byteLast (p :: ps) l b = byteLast ps l (if p.1 = l then p.2 else b) := rfl
theorem byteLast_absent (h : ∀ p ∈ ps, p.1 ≠ l) (b : Byte) : byteLast ps l b = b := by
  induction ps with
  | nil => rfl
  | cons p ps ih =>
    obtain ⟨hp, hps⟩ := List.forall_mem_cons.1 h
    rw [byteLast_cons, if_neg hp, ih hps]
/-- A place that is stored to keeps nothing of what it held. -/
theorem byteLast_present (h : ∃ p ∈ ps, p.1 = l) (b c : Byte) : byteLast ps l b = byteLast ps l c := by
  induction ps generalizing b c with
  | nil => simp at h
  | cons p ps ih =>
    simp only [byteLast_cons]
    by_cases hp : p.1 = l
    · simp only [if_pos hp]
    · obtain ⟨p', hm, hp'⟩ := h
      simp only [if_neg hp]
      rcases List.mem_cons.1 hm with rfl | hm
      · exact absurd hp' hp
      · exact ih ⟨p', hm, hp'⟩ b c
/-- One store to places that all differ. -/
theorem byteLast_zip (hnd : ls.Nodup) (hlen : bs.length = ls.length) (b : Byte) :
    byteLast (ls.zip bs) l b = (byteFor ls bs l).getD b := by
  induction ls generalizing bs b with
  | nil => rfl
  | cons l' ls ih =>
    obtain ⟨x, bs, rfl⟩ := List.exists_cons_of_length_eq_add_one (by simpa using hlen)
    obtain ⟨hl, hnd'⟩ := List.nodup_cons.1 hnd
    rw [List.zip_cons_cons, byteLast_cons, ih hnd' (by simpa using hlen), byteFor_cons]
    by_cases he : l' = l
    · subst he
      simp [byteFor_absent hl]
    · simp [he]
/-- The same as its physical addresses alone, and as its offsets in scratch alone. -/
theorem byteLast_physPairs (q : Nat) (b : Byte) :
    byteLast ((physPairs ls bs).map (fun p => (.phys p.1, p.2))) (.phys q) b = byteLast (ls.zip bs) (.phys q) b := by
  unfold physPairs
  generalize ls.zip bs = zs
  induction zs generalizing b with
  | nil => rfl
  | cons z zs ih =>
    obtain ⟨l', x⟩ := z
    cases l' with
    | phys a => exact ih _
    | scr o => exact (ih b).trans (by rw [byteLast_cons, if_neg nofun])
    | dead o => exact (ih b).trans (by rw [byteLast_cons, if_neg nofun])
theorem mapGet_scratch (m : SMap Byte) (o : Nat) :
    mapGet unwritten ((scrPairs ls bs).foldl (fun m p => mapPut unwritten m p.1 p.2) m) o =
      byteLast (ls.zip bs) (.scr o) (mapGet unwritten m o) := by
  unfold scrPairs
  generalize ls.zip bs = zs
  induction zs generalizing m with
  | nil => rfl
  | cons z zs ih =>
    obtain ⟨l', x⟩ := z
    cases l' with
    | scr o' =>
      refine (ih (mapPut unwritten m o' x)).trans ?_
      rw [byteLast_cons, mapGet_put]
      by_cases he : o' = o
      · simp [he]
      · simp [he, Ne.symm he]
    | phys a => exact (ih m).trans (by rw [byteLast_cons, if_neg nofun])
    | dead a => exact (ih m).trans (by rw [byteLast_cons, if_neg nofun])
/-- An element's bytes, where it is stored, in terms of `storedByte`. -/
theorem storedByte_eq (ls : Nat → List Loc) (bs : Nat → List Byte) (l : Loc) (old : Byte) (ns : List Nat) :
    storedByte ls bs l old ns = ns.foldl (fun b n => (byteFor (ls n) (bs n) l).getD b) old := by
  unfold storedByte byteFor
  refine congrArg (fun f => ns.foldl f old) (funext fun b => funext fun n => ?_)
  cases (ls n).findIdx? (· == l) <;> rfl

end

/-! ## What else an engine changes -/

/-- From `s` to `t` an engine has worked under view `v`: in its slot, beside memory, at most the progress of its own operation
has changed; the harts may have fewer stores that are not yet home, and the operation's hart more stores that are; of the
contexts the history alone; and no function's peers. -/
structure Worked (v : View) (s t : State) : Prop where
  others : ∀ j, j ≠ v.slot → t.slot j = s.slot j
  ops : ∃ f : EngOp → EngOp, (∀ p, f p = { p with next := (f p).next, fold := (f p).fold }) ∧ (∀ p, p.n ≠ v.op.1 → f p = p) ∧
    (t.slot v.slot).ops = (s.slot v.slot).ops.map f
  harts : ∀ j, t.hartOf j = { s.hartOf j with sbuf := (t.hartOf j).sbuf, stores := (t.hartOf j).stores }
  stores : ∀ j, j ≠ v.hart → (t.hartOf j).stores = (s.hartOf j).stores
  empty : ∀ j, (s.hartOf j).sbuf = [] → (t.hartOf j).sbuf = []
  ctx : ∀ c, ∃ hist, t.ctx c = { s.ctx c with hist := hist }
  peers : ∀ f, (t.fn f).peers = (s.fn f).peers
  launches : t.launches = s.launches
  colls : t.colls = s.colls
  linksDown : t.linksDown = s.linksDown

namespace Worked

variable {v : View} {s t u : State}

theorem refl (v : View) (s : State) : Worked v s s :=
  ⟨fun _ _ => rfl, ⟨id, fun _ => rfl, fun _ _ => rfl, (List.map_id _).symm⟩, fun _ => rfl, fun _ _ => rfl, fun _ h => h,
    fun _ => ⟨_, rfl⟩, fun _ => rfl, rfl, rfl, rfl⟩
theorem trans (h : Worked v s t) (g : Worked v t u) : Worked v s u := by
  refine ⟨fun j hj => (g.others j hj).trans (h.others j hj), ?_, fun j => ?_, fun j hj => (g.stores j hj).trans (h.stores j hj),
    fun j hj => g.empty j (h.empty j hj), fun c => ?_, fun f => (g.peers f).trans (h.peers f), g.launches.trans h.launches,
    g.colls.trans h.colls, g.linksDown.trans h.linksDown⟩
  · obtain ⟨f, hf, hfn, hfo⟩ := h.ops
    obtain ⟨k, hk, hkn, hko⟩ := g.ops
    refine ⟨k ∘ f, fun p => ?_, fun p hp => ?_, by rw [hko, hfo, List.map_map]⟩
    · rw [Function.comp, hk, hf]
    · rw [Function.comp, hfn p hp, hkn p hp]
  · rw [g.harts, h.harts]
  · obtain ⟨x, hx⟩ := h.ctx c
    obtain ⟨y, hy⟩ := g.ctx c
    exact ⟨y, by rw [hy, hx]⟩
/-- Bytes have reached home, and no function's peers have changed. -/
theorem of_homed (v : View) (h : Homed s t) (hp : ∀ f, (t.fn f).peers = (s.fn f).peers) : Worked v s t := by
  have hh : ∀ j, t.hartOf j = s.hartOf j := fun j => by simp only [State.hartOf, h.hart, h.harts]
  refine ⟨fun j _ => h.slot j, ⟨id, fun _ => rfl, fun _ _ => rfl, by rw [h.slot, List.map_id]⟩, fun j => by rw [hh],
    fun j _ => by rw [hh], fun j hj => by rw [hh, hj], h.ctx, hp, h.launches, ?_, ?_⟩
  · rw [h.rest]
  · rw [h.rest]
/-- The engine's slot alone has changed, and of its operations at most the progress of its own. -/
theorem of_setSlot {x : Slot} {f : EngOp → EngOp} (hf : ∀ p, f p = { p with next := (f p).next, fold := (f p).fold })
    (hn : ∀ p, p.n ≠ v.op.1 → f p = p) (hx : x.ops = (s.slot v.slot).ops.map f) : Worked v s (s.setSlot v.slot x) :=
  ⟨fun j hj => (State.setSlot_slot ..).trans (if_neg hj), ⟨f, hf, hn, by rw [State.setSlot_slot_self, hx]⟩, fun _ => rfl,
    fun _ _ => rfl, fun _ h => h, fun _ => ⟨_, rfl⟩, fun _ => rfl, rfl, rfl, rfl⟩
/-- One hart has fewer stores that are not yet home, or is the operation's and has more stores. -/
theorem of_setHart {j n : Nat} {b : List Pend} (hid : (s.hartOf j).id = j) (hn : j = v.hart ∨ n = (s.hartOf j).stores)
    (hb : (s.hartOf j).sbuf = [] → b = []) : Worked v s (s.setHart { s.hartOf j with sbuf := b, stores := n }) := by
  have hread : ∀ k, (s.setHart { s.hartOf j with sbuf := b, stores := n }).hartOf k =
      if k = j then { s.hartOf j with sbuf := b, stores := n } else s.hartOf k := fun k =>
    (State.setHart_hartOf ..).trans (by simp only [hid])
  refine ⟨fun k _ => by simp only [State.slot, State.setHart_slots], ⟨id, fun _ => rfl, fun _ _ => rfl, ?_⟩, fun k => ?_,
    fun k hk => ?_, fun k hk => ?_, fun c => ⟨(s.ctx c).hist, by simp only [State.ctx, State.setHart_ctxs]⟩,
    fun f => by simp only [State.fn, State.setHart_fns], State.setHart_launches .., State.setHart_colls ..,
    State.setHart_linksDown ..⟩
  · simp only [State.slot, State.setHart_slots, List.map_id]
  · rw [hread]
    split
    · next h => rw [h]
    · rfl
  · rw [hread]
    split
    · next h => exact (hn.resolve_left (h ▸ hk)).trans (by rw [h])
    · rfl
  · rw [hread]
    split
    · next h => exact hb (h ▸ hk)
    · exact hk
theorem hart_id (h : Worked v s t) (j : Nat) : (t.hartOf j).id = (s.hartOf j).id := by rw [h.harts]
theorem hart_live (h : Worked v s t) (j : Nat) : (t.hartOf j).live = (s.hartOf j).live := by rw [h.harts]
theorem hart_kin (h : Worked v s t) (j : Nat) : (t.hartOf j).kin = (s.hartOf j).kin := by rw [h.harts]
theorem hart_launch (h : Worked v s t) (j : Nat) : (t.hartOf j).launch = (s.hartOf j).launch := by rw [h.harts]
theorem launch (h : Worked v s t) (l : Nat) : t.launch l = s.launch l := by simp only [State.launch, h.launches]
theorem scrbase (h : Worked v s t) (c : Nat) : (t.ctx c).scrbase = (s.ctx c).scrbase := by
  obtain ⟨x, hx⟩ := h.ctx c
  rw [hx]
theorem windows (h : Worked v s t) (c : Nat) : (t.ctx c).windows = (s.ctx c).windows := by
  obtain ⟨x, hx⟩ := h.ctx c
  rw [hx]
theorem peerUp (h : Worked v s t) (f a : Nat) : peerUp t f a = peerUp s f a := by
  simp only [Machine.peerUp, h.peers, h.linksDown]
theorem answers (h : Worked v s t) {l : Loc} (hl : Answers s l) : Answers t l := fun q hq hp =>
  (h.peerUp _ _).trans (hl q hq hp)

end Worked

/-- The hart an engine writes for stands under its number, and so does every hart it was forked from that has stores not yet
home. -/
structure Serves (v : View) (s : State) : Prop where
  id : (s.hartOf v.hart).id = v.hart
  live : (s.hartOf v.hart).live = true
  kin : ∀ k ∈ (s.hartOf v.hart).kin, (s.hartOf k.1).id = k.1 ∨ (s.hartOf k.1).sbuf = []

theorem Serves.worked {v : View} {s t : State} (h : Serves v s) (g : Worked v s t) : Serves v t := by
  refine ⟨(g.hart_id _).trans h.id, (g.hart_live _).trans h.live, fun k hk => ?_⟩
  rw [g.hart_kin] at hk
  rw [g.hart_id]
  exact (h.kin k hk).imp_right (g.empty k.1)

/-- The bytes at home that harts of slot `i` read have changed by `f` from `s` to `t`, but for those behind a second stage. -/
def BytesBecome (i : Nat) (s t : State) (f : Loc → Byte → Byte) : Prop :=
  ∀ (h : Hart) (l : Loc), h.slotId = i → l.direct → locByteHome t h l = f l (locByteHome s h l)

theorem BytesBecome.trans {i : Nat} {s t u : State} {f g : Loc → Byte → Byte} (h : BytesBecome i s t f) (h' : BytesBecome i t u g) :
    BytesBecome i s u (fun l b => g l (f l b)) := fun x l hx hl => (h' x l hx hl).trans (congrArg (g l) (h x l hx hl))
/-- Nothing has changed where scratch and the bytes of the physical function's memory are the same. -/
theorem BytesBecome.of_same {i : Nat} {s t : State} (hs : (t.slot i).scratch = (s.slot i).scratch)
    (hp : ∀ q, fnAddr q = 0 → t.peek q = s.peek q) : BytesBecome i s t (fun _ b => b) := by
  rintro h l rfl hl
  cases l with
  | scr o => simp only [locByteHome, hs]
  | phys q => exact hp q (hl q rfl)
  | dead a => rfl
theorem BytesBecome.same_trans {i : Nat} {s t u : State} {g : Loc → Byte → Byte} (h : BytesBecome i s t (fun _ b => b))
    (h' : BytesBecome i t u g) : BytesBecome i s u g := h.trans h'
theorem BytesBecome.trans_same {i : Nat} {s t u : State} {g : Loc → Byte → Byte} (h : BytesBecome i s t g)
    (h' : BytesBecome i t u (fun _ b => b)) : BytesBecome i s u g := h.trans h'

/-! ## Stores that reach memory that stands (R13, R217, R218) -/

section
variable {v : View} {s : State} {ctx : Nat} {stamp before : Option Nat} {ps : List HStore}

theorem homeStore1_fns {author : Option Author} {p : Nat × Byte} (hb : devBacked p.1 = true) :
    (homeStore1 author ctx stamp s p).fns = s.fns := by
  obtain ⟨-, -, hd, hp⟩ := backed_plain hb
  simp only [homeStore1, hd, homeOf_backed hb, hb, hp, Bool.not_true, Bool.and_false, Bool.false_and, Bool.false_eq_true, if_false]
  show (s.poke p.1 p.2).fns = s.fns
  simp only [State.poke, hd, if_true]
theorem homeStoreAll_backed (hb : ∀ p ∈ ps, devBacked p.a = true) : (homeStoreAll ctx stamp before s ps).fns = s.fns ∧
    ∀ q, fnAddr q = 0 → (homeStoreAll ctx stamp before s ps).peek q =
      byteLast (ps.map (fun p => (.phys p.a, p.b))) (.phys q) (s.peek q) := by
  induction ps generalizing s before with
  | nil => exact ⟨rfl, fun _ _ => rfl⟩
  | cons p ps ih =>
    obtain ⟨hp, hps⟩ := List.forall_mem_cons.1 hb
    obtain ⟨-, -, hd, hpeer⟩ := backed_plain hp
    have hdrop : sameDrop s before p.a = false := by simp [sameDrop, drops, hd, hpeer, hp]
    obtain ⟨hfns, hpeek⟩ := ih (s := homeStore1 p.author ctx stamp s (p.a, p.b)) (before := some p.a) hps
    simp only [homeStoreAll, hdrop, Bool.false_eq_true, if_false]
    refine ⟨hfns.trans (homeStore1_fns hp), fun q hq => (hpeek q hq).trans ?_⟩
    rw [List.map_cons, byteLast_cons, homeStore1_peek s (p.a, p.b) hp q hq]
    simp only [Loc.phys.injEq, eq_comm]
theorem homeStore_peers (hb : ∀ p ∈ ps, devBacked p.a = true) (f : Nat) :
    ((homeStore ctx stamp s ps).fn f).peers = (s.fn f).peers := by
  have h1 : ((homeStoreAll ctx stamp none s ps).fn f).peers = (s.fn f).peers := by
    simp only [State.fn, (homeStoreAll_backed hb).1]
  unfold homeStore
  extract_lets s1 gs s2 s3
  have h2 : (s2.fn f).peers = (s1.fn f).peers := by
    simp only [s2]; split <;> rfl
  have h3 : (s3.fn f).peers = (s.fn f).peers := (snoopQueues_peers s2 _ f).trans (h2.trans h1)
  split
  · simp only [State.fn, dropLines_fns]; exact h3
  · exact h3
theorem homeStore_worked (v : View) (hb : ∀ p ∈ ps, devBacked p.a = true) : Worked v s (homeStore ctx stamp s ps) :=
  .of_homed v (homeStore_homed ..) (homeStore_peers hb)
theorem homeStore_bytes (i : Nat) (hb : ∀ p ∈ ps, devBacked p.a = true) : BytesBecome i s (homeStore ctx stamp s ps)
    (byteLast (ps.map (fun p => (.phys p.a, p.b)))) := by
  rintro h l rfl hl
  cases l with
  | scr o =>
    rw [byteLast_absent fun p hp => by obtain ⟨_, _, rfl⟩ := List.mem_map.1 hp; exact nofun]
    simp only [locByteHome, (homeStore_homed ctx stamp s ps).slot]
  | phys q => exact (homeStore_peek ctx stamp s ps (hl q rfl)).trans ((homeStoreAll_backed hb).2 q (hl q rfl))
  | dead a =>
    rw [byteLast_absent fun p hp => by obtain ⟨_, _, rfl⟩ := List.mem_map.1 hp; exact nofun]
    rfl

/-- From `s` to `t` stores to the addresses `mine` alone have reached home. -/
structure BringsHome (v : View) (mine : Nat → Bool) (s t : State) : Prop where
  worked : Worked v s t
  slots : t.slots = s.slots
  peek : ∀ q, fnAddr q = 0 → mine q = false → t.peek q = s.peek q

theorem BringsHome.refl (v : View) (mine : Nat → Bool) (s : State) : BringsHome v mine s s := ⟨.refl v s, rfl, fun _ _ _ => rfl⟩
theorem BringsHome.trans {mine : Nat → Bool} {t u : State} (h : BringsHome v mine s t) (g : BringsHome v mine t u) :
    BringsHome v mine s u :=
  ⟨h.worked.trans g.worked, g.slots.trans h.slots, fun q hq hm => (g.peek q hq hm).trans (h.peek q hq hm)⟩

theorem takeHome_brings {mine : Nat → Bool} (hm : ∀ q, mine q = true → devBacked q = true) {h : Nat} (n : Nat)
    (hid : (s.hartOf h).id = h ∨ (s.hartOf h).sbuf = []) : BringsHome v mine s (takeHome h n mine s) := by
  unfold takeHome
  extract_lets x out
  split
  · next hany =>
    have hid' : (s.hartOf h).id = h := hid.resolve_right fun he => by simp [x, he] at hany
    have hout : ∀ p ∈ (x.sbuf.filter out).map (Pend.home h), mine p.a = true := fun p hp => by
      obtain ⟨p', hp', rfl⟩ := List.mem_map.1 hp
      exact (Bool.and_eq_true_iff.1 (List.mem_filter.1 hp').2).1
    have hb : ∀ p ∈ (x.sbuf.filter out).map (Pend.home h), devBacked p.a = true := fun p hp => hm _ (hout p hp)
    have hhomed := homeStore_homed (ctxOf s x) none s ((x.sbuf.filter out).map (Pend.home h))
    have hpeek := (homeStoreAll_backed (ctx := ctxOf s x) (stamp := none) (before := none) (s := s) hb).2
    generalize hy : homeStore (ctxOf s x) none s _ = y at *
    have hyx : y.hartOf h = x := by simp only [x, State.hartOf, hhomed.hart, hhomed.harts]
    have hw : Worked v y (y.setHart { y.hartOf h with sbuf := x.sbuf.filter (fun p => !(out p)), stores := (y.hartOf h).stores }) :=
      .of_setHart (by rw [hyx]; exact hid') (.inr rfl) fun he => by rw [← hyx, he]; rfl
    rw [hyx] at hw
    refine ⟨(hy ▸ homeStore_worked v hb).trans hw, (State.setHart_slots ..).trans hhomed.slots, fun q hq hmq => ?_⟩
    rw [peek_congr (State.setHart_fns ..) (State.setHart_l2 ..) (State.setHart_mem ..) (State.setHart_poison ..), ← hy,
      homeStore_peek _ _ _ _ hq, hpeek q hq]
    refine byteLast_absent (fun p hp he => ?_) _
    obtain ⟨p', hp', rfl⟩ := List.mem_map.1 hp
    obtain rfl : p'.a = q := Loc.phys.inj he
    exact Bool.false_ne_true (hmq.symm.trans (hout p' hp'))
  · exact .refl v mine s
theorem kinHome_brings {mine : Nat → Bool} (hm : ∀ q, mine q = true → devBacked q = true) (kin : List (Nat × Nat))
    (hid : ∀ k ∈ kin, (s.hartOf k.1).id = k.1 ∨ (s.hartOf k.1).sbuf = []) : BringsHome v mine s (kinHome kin mine s) := by
  induction kin with
  | nil => exact .refl v mine s
  | cons k kin ih =>
    obtain ⟨hk, hkin⟩ := List.forall_mem_cons.1 hid
    have hrest := ih hkin
    refine hrest.trans (takeHome_brings (s := kinHome kin mine s) hm k.2 ?_)
    rw [hrest.worked.hart_id]
    exact hk.imp_right (hrest.worked.empty k.1)
/-- Older stores of an engine's hart to places it is about to write (R218). -/
theorem olderHome_brings (hv : Serves v s) {as : List Nat} (has : ∀ a ∈ as, devBacked a = true) (n : Nat) :
    BringsHome v as.contains s (olderHome v.hart n as s) := by
  have hm : ∀ q, as.contains q = true → devBacked q = true := fun q hq => has q (List.contains_iff_mem.1 hq)
  have hkin := kinHome_brings (v := v) hm (s.hartOf v.hart).kin hv.kin
  exact hkin.trans (takeHome_brings hm n (.inl ((hkin.worked.hart_id _).trans hv.id)))

end

end Sys2Proof.Machine
end

section
/-! An engine's writes run (R205, R207, R210, R217, R218, R296, R319). -/

namespace Sys2Proof.Machine

/-! ## The steps of a batch of writes -/

section
variable {v : View} {s : State} {ls : List Loc} {bs : List Byte} {ps : List (Nat × Byte)} {ws : List EWrite}

/-- The bytes of a batch that fall in scratch are there. -/
def scratchTaken (v : View) (ls : List Loc) (bs : List Byte) (s : State) : State :=
  if scrPairs ls bs = [] then s else s.setSlot v.slot (scratchStore (s.slot v.slot) (scrPairs ls bs))
theorem scratchTaken_worked (ls : List Loc) (bs : List Byte) : Worked v s (scratchTaken v ls bs s) := by
  unfold scratchTaken
  split
  · exact .refl v s
  · exact .of_setSlot (f := id) (fun _ => rfl) (fun _ _ => rfl) (List.map_id _).symm
theorem scratchTaken_bytes (ls : List Loc) (bs : List Byte) : BytesBecome v.slot s (scratchTaken v ls bs s)
    (fun l b => match l with | .scr _ => byteLast (ls.zip bs) l b | _ => b) := by
  intro h l hh hl
  have hscr : ((scratchTaken v ls bs s).slot v.slot).scratch =
      (scrPairs ls bs).foldl (fun m p => mapPut unwritten m p.1 p.2) (s.slot v.slot).scratch := by
    unfold scratchTaken
    split
    · next he => rw [he]; rfl
    · rw [State.setSlot_slot_self]; rfl
  have hpeek : ∀ q, (scratchTaken v ls bs s).peek q = s.peek q := fun q => by
    unfold scratchTaken
    split
    · rfl
    · exact State.setSlot_peek_same ..
  cases l with
  | scr o => simp only [locByteHome, hh, hscr, mapGet_scratch]
  | phys q => exact hpeek q
  | dead a => rfl

/-- A batch's stores at home, after the hart's earlier stores of the same bytes. -/
def homeStored (v : View) (ps : List (Nat × Byte)) (s : State) : State :=
  homeStore v.ctx none (olderHome v.hart v.seq (ps.map (·.1)) s) (engineStores v (s.hartOf v.hart).stores ps)
/-- The bytes of a batch that fall in memory are home, and counted among the hart's stores. -/
def memoryTaken (v : View) (ps : List (Nat × Byte)) (s : State) : State :=
  if ps = [] then s
  else
    let t := homeStored v ps s
    t.setHart { t.hartOf v.hart with stores := (t.hartOf v.hart).stores + ps.length }

theorem mem_engineStores {n : Nat} {p : HStore} (h : p ∈ engineStores v n ps) : (p.a, p.b) ∈ ps := by
  induction ps generalizing n with
  | nil => cases h
  | cons x ps ih =>
    rcases List.mem_cons.1 h with rfl | h
    · exact List.mem_cons_self
    · exact List.mem_cons_of_mem _ (ih h)
theorem map_engineStores (n : Nat) : (engineStores v n ps).map (fun p => (Loc.phys p.a, p.b)) = ps.map (fun p => (.phys p.1, p.2)) := by
  induction ps generalizing n with
  | nil => rfl
  | cons x ps ih => exact congrArg _ (ih (n + 1))
theorem homeStored_leaves (hv : Serves v s) (hb : ∀ p ∈ ps, devBacked p.1 = true) : Worked v s (homeStored v ps s) ∧
    BytesBecome v.slot s (homeStored v ps s) (byteLast (ps.map (fun p => (.phys p.1, p.2)))) := by
  have hold := olderHome_brings hv (as := ps.map (·.1))
    (fun a ha => by obtain ⟨p, hp, rfl⟩ := List.mem_map.1 ha; exact hb p hp) v.seq
  have hbs : ∀ p ∈ engineStores v (s.hartOf v.hart).stores ps, devBacked p.a = true := fun p hp => hb _ (mem_engineStores hp)
  refine ⟨hold.worked.trans (homeStore_worked v hbs), fun h l hh hl => ?_⟩
  rw [homeStored, homeStore_bytes v.slot hbs h l hh hl, map_engineStores]
  cases l with
  | scr o => simp only [locByteHome, State.slot, hold.slots]
  | dead a => rfl
  | phys q =>
    by_cases hq : q ∈ ps.map (·.1)
    · obtain ⟨p, hp, rfl⟩ := List.mem_map.1 hq
      exact byteLast_present ⟨_, List.mem_map.2 ⟨p, hp, rfl⟩, rfl⟩ _ _
    · exact congrArg _ (hold.peek q (hl q rfl) (by simpa using hq))
theorem memoryTaken_leaves (hv : Serves v s) (hb : ∀ p ∈ ps, devBacked p.1 = true) : Worked v s (memoryTaken v ps s) ∧
    BytesBecome v.slot s (memoryTaken v ps s) (byteLast (ps.map (fun p => (.phys p.1, p.2)))) := by
  unfold memoryTaken
  split
  · next he => subst he; exact ⟨.refl v s, .of_same rfl fun _ _ => rfl⟩
  · obtain ⟨hhome, hbytes⟩ := homeStored_leaves hv hb
    refine ⟨hhome.trans (.of_setHart (hv.worked hhome).id (.inl rfl) id), hbytes.trans_same (.of_same ?_ fun q _ => ?_)⟩
    · simp only [State.slot, State.setHart_slots]
    · exact peek_congr (State.setHart_fns ..) (State.setHart_l2 ..) (State.setHart_mem ..) (State.setHart_poison ..) q

/-- What a batch of writes adds to the digest term its operation holds for its completion (R296). -/
def termAdded (v : View) (ws : List EWrite) (s : State) : State :=
  let fold := ws.foldl (fun (d : Word) (w : EWrite) => d + foldWord s v.hart w.va w.bytes) 0
  let sl := s.slot v.slot
  if fold = 0 then s
  else s.setSlot v.slot { sl with ops := sl.ops.map (fun o => if o.n = v.op.1 then { o with fold := o.fold + fold } else o) }
theorem termAdded_leaves (ws : List EWrite) : Worked v s (termAdded v ws s) ∧
    BytesBecome v.slot s (termAdded v ws s) (fun _ b => b) := by
  unfold termAdded
  extract_lets fold sl
  split
  · exact ⟨.refl v s, .of_same rfl fun _ _ => rfl⟩
  · refine ⟨.of_setSlot (fun p => ?_) (fun p hp => if_neg hp) rfl, .of_same ?_ fun q _ => State.setSlot_peek_same ..⟩
    · split <;> rfl
    · rw [State.setSlot_slot_self]
theorem poisonPlaces_leaves (ls : List Loc) : Worked v s (poisonPlaces v.slot ls s) ∧
    BytesBecome v.slot s (poisonPlaces v.slot ls s) (fun _ b => b) := by
  obtain ⟨-, -, -, hm, hl, hf⟩ := poisonPlaces_keeps v.slot ls s
  refine ⟨?_, .of_same ?_ fun q hq => peek_physical hm hl (by simp only [State.fn, hf]) hq⟩
  · unfold poisonPlaces
    split
    · exact .refl v s
    · have h1 : Worked v s { s with poison := (physGranules ls).foldl poisonAdd s.poison } :=
        .of_homed v (.of_eq rfl) fun _ => rfl
      exact h1.trans (.of_setSlot (f := id) (fun _ => rfl) (fun _ _ => rfl) (List.map_id _).symm)
  · unfold poisonPlaces
    split
    · rfl
    · dsimp only
      rw [State.setSlot_slot_self]
      rfl

/-! ## A batch of writes -/

/-- A write to places that stand and all differ, of bytes read where no peer is out of reach. -/
structure EWrite.Sound (s : State) (w : EWrite) : Prop where
  length : w.bytes.length = w.locs.length
  nodup : w.locs.Nodup
  stands : ∀ l ∈ w.locs, Stands l
  answers : ∀ l ∈ w.src, Answers s l

theorem Stands.answers {l : Loc} (h : Stands l) (s : State) : Answers s l := fun q hq hp => by
  subst hq
  exact absurd hp (by rw [(backed_plain h).2.2.2]; exact Bool.false_ne_true)
theorem reportM_answers (h : ∀ l ∈ ls, Answers s l) : reportM ls s = .ok () s := by
  refine eachOf_id fun l hl => ?_
  cases l with
  | phys a =>
    have ha : (paPeer a && !(peerUp s (fnAddr a) a)) = false := by
      cases hp : paPeer a with
      | false => rfl
      | true => rw [h _ hl a rfl hp]; rfl
    simp only [M.modify_run, peerReport, ha, Bool.false_eq_true, if_false]
  | scr o => rfl
  | dead a => rfl
theorem dropDead_stands (h : ∀ l ∈ ls, Stands l) (author : Option Nat) (c : Nat) (t : State) : dropDead author c ls t = t := by
  unfold dropDead
  split
  · next hd =>
    obtain ⟨l, hl, hd⟩ := List.exists_of_findSome?_eq_some hd
    cases l with
    | dead a => exact (h _ hl).elim
    | phys a => cases hd
    | scr o => cases hd
  · rfl

/-- A batch of writes, one after another, at a place. -/
theorem byteLast_writes (hw : ∀ w ∈ ws, w.bytes.length = w.locs.length ∧ w.locs.Nodup) (l : Loc) (b : Byte) :
    byteLast ((ws.flatMap (·.locs)).zip (ws.flatMap (·.bytes))) l b =
      ws.foldl (fun b w => (byteFor w.locs w.bytes l).getD b) b := by
  induction ws generalizing b with
  | nil => rfl
  | cons w ws ih =>
    obtain ⟨⟨hlen, hnd⟩, hws⟩ := List.forall_mem_cons.1 hw
    rw [List.flatMap_cons, List.flatMap_cons, List.zip_append hlen.symm, List.foldl_cons, ← ih hws, ← byteLast_zip hnd hlen]
    exact List.foldl_append ..

/-- What a batch of writes leaves. -/
def written (v : View) (ws : List EWrite) (s : State) : State :=
  let ls := ws.flatMap (·.locs)
  let bs := ws.flatMap (·.bytes)
  termAdded v ws (poisonPlaces v.slot ((ws.filter (·.bad)).flatMap (·.locs))
    (memoryTaken v (physPairs ls bs) (scratchTaken v ls bs s)))

theorem modHartNo_live {j : Nat} (h : (s.hartOf j).live = true) (f : Hart → Hart) :
    modHartNo j f s = .ok () (s.setHart (f (s.hartOf j))) := by
  unfold modHartNo
  rw [M.modify_run, if_pos (by rw [h, Bool.or_true])]

/-- The last steps of a batch: reports of peers, poison, and the digest's term. -/
theorem engineWrites_end {t : State} (h : ∀ l ∈ ls, Answers t l) :
    (do
      reportM ls
      modify (poisonPlaces v.slot ((ws.filter (·.bad)).flatMap (·.locs)))
      modify (termAdded v ws) : M Unit) t =
      .ok () (termAdded v ws (poisonPlaces v.slot ((ws.filter (·.bad)).flatMap (·.locs)) t)) := by
  rw [M.bind_ok (reportM_answers h), M.modify_bind, M.modify_run]

/-- A batch of sound writes of a hart that lives. -/
theorem engineWrites_written (hv : Serves v s) (hw : ∀ w ∈ ws, w.Sound s) : engineWrites v ws s = .ok () (written v ws s) := by
  have hstands : ∀ l ∈ ws.flatMap (·.locs), Stands l := fun l hl => by
    obtain ⟨w, hws, hl⟩ := List.mem_flatMap.1 hl
    exact (hw w hws).stands l hl
  have hanswers : ∀ l ∈ ws.flatMap (·.src) ++ ws.flatMap (·.locs), Answers s l := fun l hl => by
    rcases List.mem_append.1 hl with hl | hl
    · obtain ⟨w, hws, hl⟩ := List.mem_flatMap.1 hl
      exact (hw w hws).answers l hl
    · exact (hstands l hl).answers s
  have hdead := dropDead_stands hstands (some v.hart) v.ctx
  have hphys : ∀ p ∈ physPairs (ws.flatMap (·.locs)) (ws.flatMap (·.bytes)), devBacked p.1 = true :=
    fun p hp => hstands _ (mem_physPairs hp)
  have hscr := scratchTaken_worked (v := v) (s := s) (ws.flatMap (·.locs)) (ws.flatMap (·.bytes))
  have hv1 := hv.worked hscr
  have hmem := (memoryTaken_leaves hv1 hphys).1
  have hend := engineWrites_end (v := v) (ws := ws) fun l hl => (hscr.trans hmem).answers (hanswers l hl)
  unfold written
  rw [← hend]
  have hlive := hv1.live
  have hlive' := ((homeStored_leaves hv1 hphys).1.hart_live v.hart).trans hlive
  unfold engineWrites
  unfold scratchTaken at hlive hlive' ⊢
  by_cases hp : physPairs (ws.flatMap (·.locs)) (ws.flatMap (·.bytes)) = []
  · by_cases hs : scrPairs (ws.flatMap (·.locs)) (ws.flatMap (·.bytes)) = [] <;>
      simp only [hs, hp, ne_eq, not_true_eq_false, not_false_eq_true, if_false, if_true, M.modify_bind, hdead, memoryTaken] <;>
      rfl
  · by_cases hs : scrPairs (ws.flatMap (·.locs)) (ws.flatMap (·.bytes)) = [] <;>
      simp only [hs, hp, ne_eq, not_true_eq_false, not_false_eq_true, if_false, if_true, M.modify_bind, M.hartNo_bind, hdead,
        memoryTaken] at hlive hlive' ⊢ <;>
      simp only [hlive, if_true] <;>
      exact M.bind_ok (modHartNo_live hlive' _)
theorem written_leaves (hv : Serves v s) (hw : ∀ w ∈ ws, w.Sound s) : Worked v s (written v ws s) ∧
    BytesBecome v.slot s (written v ws s) (fun l b => ws.foldl (fun b w => (byteFor w.locs w.bytes l).getD b) b) := by
  have hstands : ∀ l ∈ ws.flatMap (·.locs), Stands l := fun l hl => by
    obtain ⟨w, hws, hl⟩ := List.mem_flatMap.1 hl
    exact (hw w hws).stands l hl
  have hscr := scratchTaken_worked (v := v) (s := s) (ws.flatMap (·.locs)) (ws.flatMap (·.bytes))
  obtain ⟨hmem, hbytes⟩ := memoryTaken_leaves (hv.worked hscr) fun p hp => hstands _ (mem_physPairs hp)
  obtain ⟨hpoison, hpb⟩ := poisonPlaces_leaves (v := v) (s := memoryTaken v _ (scratchTaken v _ _ s))
    ((ws.filter (·.bad)).flatMap (·.locs))
  obtain ⟨hterm, htb⟩ := termAdded_leaves (v := v) (s := poisonPlaces v.slot _ (memoryTaken v _ (scratchTaken v _ _ s))) ws
  have hplaced : BytesBecome v.slot s _ _ := BytesBecome.trans (scratchTaken_bytes (ws.flatMap (·.locs)) (ws.flatMap (·.bytes))) hbytes
  refine ⟨((hscr.trans hmem).trans hpoison).trans hterm, fun h l hh hl => ?_⟩
  refine ((hplaced.trans_same (hpb.trans_same htb)) h l hh hl).trans ?_
  dsimp only
  rw [← byteLast_writes fun w h => ⟨(hw w h).length, (hw w h).nodup⟩]
  cases l with
  | scr o => exact byteLast_absent (fun p hp => by obtain ⟨_, _, rfl⟩ := List.mem_map.1 hp; exact nofun) _
  | phys q => exact byteLast_physPairs q _
  | dead a =>
    rw [byteLast_absent fun p hp => by obtain ⟨_, _, rfl⟩ := List.mem_map.1 hp; exact nofun]
    refine (byteLast_absent (fun p hp he => ?_) _).symm
    exact (he ▸ hstands p.1 (List.of_mem_zip hp).1 : Stands (.dead a))

/-- An engine's batch of sound writes: its bytes are in their places. -/
theorem engineWrites_run (hv : Serves v s) (hw : ∀ w ∈ ws, w.Sound s) : ∃ t, engineWrites v ws s = .ok () t ∧ Worked v s t ∧
    BytesBecome v.slot s t (fun l b => ws.foldl (fun b w => (byteFor w.locs w.bytes l).getD b) b) :=
  ⟨_, engineWrites_written hv hw, written_leaves hv hw⟩

end

end Sys2Proof.Machine
end

section
/-! Places of an engine's elements, and the moves of its data (R202 to R207, R210, R213, R249, R324). -/

namespace Sys2Proof.Machine

/-! ## Elements do not overlap themselves (R203, R206) -/

section
variable {x : Ctx} {ps : List (Nat × Loc)} {r d : List Byte} {va n : Nat}

theorem scratchOff_eq_some {o : Nat} : scratchOff x va = some o ↔ (x.scrbase.toNat ≤ va ∧ va < x.scrbase.toNat + Config.scratchSize) ∧
    o = va - x.scrbase.toNat := by
  unfold scratchOff
  split
  · next h =>
    rw [Bool.and_eq_true, decide_eq_true_eq, decide_eq_true_eq] at h
    simp only [Option.some.injEq, h, and_self, true_and, eq_comm]
  · next h =>
    rw [Bool.and_eq_true, decide_eq_true_eq, decide_eq_true_eq] at h
    simp only [reduceCtorEq, h, false_and]
/-- Two addresses of one page that an engine finds at one place are one. -/
theorem engineLoc_inj {a b : Nat} (hp : a / 65536 = b / 65536) (hs : Stands (engineLoc x ps a))
    (h : engineLoc x ps a = engineLoc x ps b) : a = b := by
  unfold engineLoc at hs h
  rw [← hp] at h
  cases ha : scratchOff x a with
  | some o =>
    cases hb : scratchOff x b with
    | some o' =>
      obtain ⟨⟨ha1, -⟩, rfl⟩ := scratchOff_eq_some.1 ha
      obtain ⟨⟨hb1, -⟩, rfl⟩ := scratchOff_eq_some.1 hb
      simp only [ha, hb, Loc.scr.injEq] at h
      omega
    | none =>
      simp only [ha, hb] at h
      split at h <;> cases h
  | none =>
    simp only [ha] at hs h
    cases hb : scratchOff x b with
    | some o' =>
      simp only [hb] at h
      split at h <;> cases h
    | none =>
      simp only [hb] at h
      split at h
      · have := Loc.phys.inj h
        omega
      · next hf => simp only [hf] at hs; exact hs.elim
      · next hf1 hf2 =>
        split at hs
        · next hf => exact absurd hf (hf1 _ _)
        · exact hs.elim
        · exact hs.elim
theorem locsAt_nodup (hp : va % 65536 + n ≤ 65536) (hs : ∀ l ∈ locsAt x ps va n, Stands l) : (locsAt x ps va n).Nodup := by
  refine List.Nodup.map_on (fun i hi j hj he => ?_) List.nodup_range
  rw [List.mem_range] at hi hj
  have := engineLoc_inj (a := va + i) (b := va + j) (by omega) (hs _ (List.mem_map_of_mem (List.mem_range.2 hi))) he
  omega
@[simp] theorem locsAt_length (x : Ctx) (ps : List (Nat × Loc)) (va n : Nat) : (locsAt x ps va n).length = n := by simp [locsAt]

theorem shapeWidth_dvd (f : Nat) : shapeWidth f ∣ 8 := by
  unfold shapeWidth
  split_ifs <;> decide
theorem shapeAmiss_range (dest : Bool) (r : List Byte) :
    shapeAmiss dest r = none ∨ shapeAmiss dest r = some 1 ∨ shapeAmiss dest r = some 2 ∨ shapeAmiss dest r = some 3 ∨
      shapeAmiss dest r = some 6 := by
  unfold shapeAmiss
  dsimp only
  split_ifs <;> simp
/-- What a record without a defect of its own says of its alignment. -/
theorem shapeAmiss_none {dest : Bool} (h : shapeAmiss dest r = none) : shapeBase r % shapeWidth (shapeFmt r) = 0 ∧
    ∀ d < shapeRank r, shapeStride r d % shapeWidth (shapeFmt r) = 0 := by
  unfold shapeAmiss at h
  dsimp only at h
  split_ifs at h with h1 h2 h3 h4
  simp only [Bool.or_eq_true, decide_eq_true_eq, not_or, Nat.not_lt] at h2
  simp only [Bool.or_eq_true, bne_iff_ne, ne_eq, not_or, not_not, List.any_eq_true, List.mem_range, not_exists, not_and] at h4
  exact ⟨h4.1, fun d hd => h4.2 d (by omega)⟩
theorem shapeAddr_go_dvd {w : Nat} (k d n : Nat) (h : ∀ j, d ≤ j → j < d + k → w ∣ shapeStride r j) : w ∣ shapeAddr.go r d n k := by
  induction k generalizing d n with
  | zero => exact Dvd.intro_left 0 (Nat.zero_mul w)
  | succ k ih =>
    rw [shapeAddr.go]
    exact Nat.dvd_add ((h d (Nat.le_refl d) (by omega)).mul_left _) (ih (d + 1) _ fun j hj hj' => h j (by omega) (by omega))
/-- An element of such a record lies within one page. -/
theorem shapeAddr_page {dest : Bool} (h : shapeAmiss dest r = none) (n : Nat) :
    shapeAddr r n % 65536 + shapeWidth (shapeFmt r) ≤ 65536 := by
  obtain ⟨hbase, hstride⟩ := shapeAmiss_none h
  have h8 := shapeWidth_dvd (shapeFmt r)
  generalize hw : shapeWidth (shapeFmt r) = w at *
  have h64 : w ∣ 2 ^ 64 := h8.trans (by decide)
  have h16 : w ∣ 65536 := h8.trans (by decide)
  have hadd : w ∣ shapeAddr r n := (Nat.dvd_mod_iff h64).2 (Nat.dvd_add (Nat.dvd_of_mod_eq_zero hbase)
    (shapeAddr_go_dvd _ _ _ fun j _ hj => Nat.dvd_of_mod_eq_zero (hstride j (by omega))))
  obtain ⟨k, hk⟩ := (Nat.dvd_mod_iff h16).2 hadd
  obtain ⟨m, hm⟩ := h16
  have hlt : w * k < w * m := by rw [← hk, ← hm]; exact Nat.mod_lt _ (by decide)
  rw [hk, hm, ← Nat.mul_succ]
  exact Nat.mul_le_mul_left w (Nat.lt_of_mul_lt_mul_left hlt)
/-- Two records without a defect: the destination has none of its own, and their formats pair. -/
theorem copyAmiss_none (h : copyAmiss r d = none) : shapeAmiss true d = none ∧ shapePair (shapeFmt r) (shapeFmt d) ≠ none := by
  unfold copyAmiss at h
  dsimp only at h
  rcases shapeAmiss_range true d with hy | hy | hy | hy | hy
  · refine ⟨hy, fun hp => ?_⟩
    rcases shapeAmiss_range false r with hx | hx | hx | hx | hx <;> simp [hx, hy, hp] at h <;>
      split_ifs at h
  all_goals
    rcases shapeAmiss_range false r with hx | hx | hx | hx | hx <;> simp [hx, hy] at h <;>
      split_ifs at h
theorem shapePair_same {f g : Nat} (h : shapePair f g = some false) : shapeWidth f = shapeWidth g := by
  unfold shapePair at h
  split_ifs at h with h1 h2
  · exact of_decide_eq_true (Bool.and_eq_true_iff.1 h1).1
  · cases h

end

/-! ## Pages of the physical function (R240, R250) -/

section
variable {s : State} {c who n : Nat} {k : Kind}

theorem pageNow_physical (hc : c / 64 = 0) (gpa : Nat) : pageNow s c n k gpa = some (.phys gpa) := by
  unfold pageNow askedOf
  simp [hc, stage2Of, lineAddr]
theorem pagesNow_physical (hc : c / 64 = 0) (ps : List (Nat × Nat)) : pagesNow s c n k ps = pagesAt ps := by
  unfold pagesNow pagesAt
  simp only [pageNow_physical hc, Option.map_some]
  exact congrFun List.filterMap_eq_map ps
theorem stage2Pages_physical (hc : c / 64 = 0) (ps : List (Nat × Nat)) : stage2Pages c who n k ps s = .ok (pagesAt ps) s := by
  induction ps with
  | nil => rfl
  | cons p ps ih =>
    have hasked : askedOf s c n p.2 k = none := if_pos hc
    have hs2 : stage2Of s (c / 64) p.2 k = (.ok p.2, []) := by simp [stage2Of, hc]
    unfold stage2Pages
    simp only [M.get_bind, hasked, hs2, ne_eq, not_true_eq_false, if_false]
    rw [M.pure_bind_run]
    rw [M.bind_ok ih, M.pure_run, hc]
    rfl
theorem cacheParts_physical (hc : c / 64 = 0) (o : EngOp) (lo hi : Nat) : cacheParts c o lo hi s = s := if_pos hc

end

/-! ## Data moves (R205, R210) -/

section
variable {s : State} {i c : Nat} {o : EngOp}

/-- The progress of an operation. -/
def progressed (i : Nat) (o : EngOp) (top : Nat) (s : State) : State :=
  s.setSlot i { s.slot i with ops := (s.slot i).ops.map (fun p => if p.n = o.n then { p with next := top } else p) }
theorem progressed_leaves (top : Nat) : Worked (o.view i c) s (progressed i o top s) ∧
    BytesBecome i s (progressed i o top s) (fun _ b => b) := by
  refine ⟨Worked.of_setSlot (v := o.view i c) (fun p => ?_) (fun p hp => if_neg hp) rfl,
    .of_same ?_ fun q _ => State.setSlot_peek_same ..⟩
  · split <;> rfl
  · rw [progressed, State.setSlot_slot_self]

/-- What an operation has left to write. -/
def restWrites (s : State) (i c : Nat) (o : EngOp) : List EWrite :=
  partWrites s (o.view i c) (s.ctx c) o (pagesAt o.srcPages) (pagesAt o.dstPages) o.next (o.total - o.next)

theorem engineMove_all (hc : c / 64 = 0) (hv : Serves (o.view i c) s) (hw : ∀ w ∈ restWrites s i c o, w.Sound s) :
    ∃ t, engineMove i c o o.total s = .ok () t ∧ Worked (o.view i c) s t ∧
      BytesBecome i s t (fun l b => (restWrites s i c o).foldl (fun b w => (byteFor w.locs w.bytes l).getD b) b) := by
  obtain ⟨hwork, hbytes⟩ := written_leaves hv hw
  obtain ⟨hprog, hpb⟩ := progressed_leaves (i := i) (c := c) (o := o) (s := written (o.view i c) (restWrites s i c o) s) o.total
  refine ⟨_, ?_, hwork.trans hprog, BytesBecome.trans_same hbytes hpb⟩
  unfold engineMove
  simp only [M.get_bind, hc, if_true, M.modify_bind, cacheParts_physical hc, pagesNow_physical hc]
  refine (M.bind_ok (engineWrites_written hv hw)).trans ?_
  simp only [M.modify_bind, Nat.lt_irrefl, if_false]
  rfl

end

/-! ## Lines are discarded (R214, R215) -/

section
variable {v : View} {s : State}

theorem mapGet_filter {α : Type} {x : α} {m : SMap α} {f : Nat × α → Bool} {k : Nat} (h : ∀ y, f (k, y) = true) :
    mapGet x (m.filter f) k = mapGet x m k := by
  induction m with
  | nil => rfl
  | cons p m ih =>
    obtain ⟨j, y⟩ := p
    by_cases hj : j = k
    · subst hj
      simp [h, mapGet]
    · rw [List.filter_cons]
      split
      · simp only [mapGet, if_neg hj, ih]
      · simp only [mapGet, if_neg hj, ih]
theorem discardLine_leaves (line : Nat) : Worked v s (discardLine s line) ∧ (discardLine s line).slots = s.slots ∧
    ∀ q, fnAddr q = 0 → q / 256 ≠ line → (discardLine s line).peek q = s.peek q := by
  unfold discardLine
  split
  · exact ⟨.refl v s, rfl, fun _ _ _ => rfl⟩
  · refine ⟨⟨fun _ _ => rfl, ⟨id, fun _ => rfl, fun _ _ => rfl, (List.map_id _).symm⟩, fun _ => rfl, fun _ _ => rfl, fun _ h => h,
      fun c => ⟨_, mapGet_map (g := fun _ (x : Ctx) => { x with hist := x.hist.filter (fun u => !(u.a / 256 == line)) }) rfl s.ctxs⟩,
      fun _ => rfl, rfl, rfl, rfl⟩, rfl, fun q hq hl => ?_⟩
    have hhome : ∀ t : State, t.fns = s.fns → homeOf t q = homeOf s q := fun t ht => homeOf_physical (by simp only [State.fn, ht]) hq
    have hl2 : mapGet none (s.l2.filter (fun p => !(p.1 / 256 == line))) q = mapGet none s.l2 q :=
      mapGet_filter fun y => by simp [hl]
    simp only [State.peek, hl2]
    rw [hhome]
    rfl

/-- A place that lies in a line of some places. -/
def InLines (ls : List Loc) (l : Loc) : Prop := ∃ q p, l = .phys q ∧ .phys p ∈ ls ∧ q / 256 = p / 256

theorem wholeLines_mem {as : List Nat} {line : Nat} (h : line ∈ wholeLines as) : ∃ a ∈ as, a / 256 = line := by
  have h1 := (List.mem_filter.1 h).1
  rw [List.mem_eraseDups] at h1
  exact List.mem_map.1 h1
theorem discardAt_leaves (ls : List Loc) : Worked v s (discardAt ls s) ∧ ∀ (h : Hart) (l : Loc), l.direct → ¬ InLines ls l →
    locByteHome (discardAt ls s) h l = locByteHome s h l := by
  have hlines : ∀ line ∈ wholeLines (lineAddrs ls), ∃ p, .phys p ∈ ls ∧ p / 256 = line := fun line hl => by
    obtain ⟨a, ha, he⟩ := wholeLines_mem hl
    obtain ⟨l, hl, hla⟩ := List.mem_filterMap.1 ha
    cases l with
    | phys p => obtain rfl := Option.some.inj hla; exact ⟨p, hl, he⟩
    | scr o => cases hla
    | dead o => cases hla
  unfold discardAt
  generalize wholeLines (lineAddrs ls) = lines at *
  induction lines generalizing s with
  | nil => exact ⟨.refl v s, fun _ _ _ _ => rfl⟩
  | cons line lines ih =>
    obtain ⟨⟨p, hp, hpl⟩, hrest⟩ := List.forall_mem_cons.1 hlines
    obtain ⟨h1, hslots, hpeek⟩ := discardLine_leaves (v := v) (s := s) line
    obtain ⟨h2, hb⟩ := ih (s := discardLine s line) hrest
    refine ⟨h1.trans h2, fun h l hl hn => (hb h l hl hn).trans ?_⟩
    cases l with
    | scr o => simp only [locByteHome, State.slot, hslots]
    | phys q => exact hpeek q (hl q rfl) fun he => hn ⟨q, p, rfl, hp, he.trans hpl.symm⟩
    | dead a => rfl

end

end Sys2Proof.Machine
end

section
/-! A counted operation completes (R207, R210, R213): it leaves its slot, and its counter falls. -/

namespace Sys2Proof.Machine

/-! ## An operation leaves its slot (R210) -/

@[simp] theorem State.setHart_slot (s : State) (x : Hart) (j : Nat) : (s.setHart x).slot j = s.slot j := by
  simp only [State.slot, State.setHart_slots]
/-- Among the other operations a change of one alone is not seen. -/
theorem filter_others {f : EngOp → EngOp} {n : Nat} (hn : ∀ p, (f p).n = p.n) (hf : ∀ p, p.n ≠ n → f p = p) (ops : List EngOp) :
    (ops.map f).filter (fun p => p.n != n) = ops.filter (fun p => p.n != n) := by
  induction ops with
  | nil => rfl
  | cons p ops ih =>
    rw [List.map_cons, List.filter_cons, List.filter_cons, hn, ih]
    split
    · next h => rw [hf p (bne_iff_ne.1 h)]
    · rfl

/-- From `t` to `u` operation `o` has left slot `i`, and its hart's counter is one less; of everything else at most that
hart's digest has changed. -/
structure Retired (i : Nat) (o : EngOp) (t u : State) : Prop where
  slot : u.slot i = { t.slot i with ops := (t.slot i).ops.filter (fun p => p.n != o.n) }
  others : ∀ j, j ≠ i → u.slot j = t.slot j
  cnt : (u.hartOf o.hart).cnt = ((t.hartOf o.hart).setCounter o.counter ((t.hartOf o.hart).counter o.counter - 1)).cnt
  harts : ∀ j, j ≠ o.hart → u.hartOf j = t.hartOf j
  frame : u = { t with hart := u.hart, harts := u.harts, slots := u.slots }

/-- Operation `o` of slot `i` alone counts on its counter, and its hart lives. -/
structure CountsAlone (i : Nat) (o : EngOp) (t : State) : Prop where
  slot : o.hart / 4 = i
  id : (t.hartOf o.hart).id = o.hart
  live : (t.hartOf o.hart).live = true
  ops : (t.slot i).ops.filter (fun p => p.hart == o.hart && p.counter == o.counter) ≠ []
  counted : countedOps t o.hart o.counter = [(o.n, false)]
  colls : ∀ x ∈ t.colls, x.n ≠ o.n

section
variable {i : Nat} {o : EngOp} {t : State}

/-- The operation's data is done. -/
def markDone (i : Nat) (o : EngOp) (t : State) : State :=
  t.setSlot i { t.slot i with ops := (t.slot i).ops.map (fun x => if x.n = o.n then { x with done := true } else x) }

theorem countedOps_markDone (h : CountsAlone i o t) : countedOps (markDone i o t) o.hart o.counter = [(o.n, true)] := by
  have hcounted := h.counted
  unfold countedOps at hcounted ⊢
  rw [h.slot] at hcounted ⊢
  obtain ⟨p, ps, hps⟩ := List.exists_cons_of_ne_nil h.ops
  rw [hps, List.map_cons, List.cons_append, List.cons.injEq, List.append_eq_nil_iff, List.map_eq_nil_iff] at hcounted
  obtain ⟨hp, rfl, hcolls⟩ := hcounted
  have hpn : p.n = o.n := congrArg Prod.fst hp
  have hfilter : ((markDone i o t).slot i).ops.filter (fun p => p.hart == o.hart && p.counter == o.counter) =
      [{ p with done := true }] := by
    rw [markDone, State.setSlot_slot_self, List.filter_map]
    have hsame : ((fun p : EngOp => p.hart == o.hart && p.counter == o.counter) ∘
        fun x => if x.n = o.n then { x with done := true } else x) = fun p => p.hart == o.hart && p.counter == o.counter := by
      funext x
      simp only [Function.comp]
      split <;> rfl
    rw [hsame, hps, List.map_singleton, if_pos hpn]
  rw [hfilter]
  refine (congrArg _ hcolls).trans ?_
  rw [List.append_nil, List.map_singleton, hpn]

/-- One counted operation whose data is done settles (R210). -/
theorem settle_alone {h cn n : Nat} (hops : countedOps t h cn = [(n, true)]) (hcolls : ∀ x ∈ t.colls, x.n ≠ n)
    (hlive : (t.hartOf h).live = true) : settle h cn (countedOps t h cn).length t =
      (t.setSlot (h / 4) { t.slot (h / 4) with ops := (t.slot (h / 4)).ops.filter (fun x => x.n != n) }).setHart
        ((t.hartOf h).setCounter cn ((t.hartOf h).counter cn - 1)) := by
  have hfilter : t.colls.filter (fun x => x.n != n) = t.colls := List.filter_eq_self.2 fun x hx => by simp [hcolls x hx]
  rw [hops]
  show settle h cn 1 t = _
  unfold settle
  simp only [hops, List.find?_cons, List.all_cons, List.all_nil, Bool.and_true, Bool.true_or, Nat.le_refl, decide_true,
    State.setSlot_colls, hfilter]
  exact if_pos hlive

theorem markDone_slot : (markDone i o t).slot i = { t.slot i with
    ops := (t.slot i).ops.map (fun x => if x.n = o.n then { x with done := true } else x) } := State.setSlot_slot_self ..
theorem State.setHart_frame (s : State) (x : Hart) : s.setHart x =
    { s with hart := (s.setHart x).hart, harts := (s.setHart x).harts } := by
  unfold State.setHart
  split <;> rfl
/-- The digest of an operation's hart, where its writes have a term (R296). -/
def digestFolded (o : EngOp) (d : Word) (t : State) : State :=
  if (d = 0 || !(t.hartOf o.hart).live) = true then t
  else t.setHart { t.hartOf o.hart with digest := (t.hartOf o.hart).digest + d }
theorem digestFolded_leaves (d : Word) (hid : (t.hartOf o.hart).id = o.hart) :
    (∃ g, (digestFolded o d t).hartOf o.hart = { t.hartOf o.hart with digest := g }) ∧
    (∀ j, j ≠ o.hart → (digestFolded o d t).hartOf j = t.hartOf j) ∧
    digestFolded o d t = { t with hart := (digestFolded o d t).hart, harts := (digestFolded o d t).harts } := by
  unfold digestFolded
  split
  · exact ⟨⟨_, rfl⟩, fun _ _ => rfl, rfl⟩
  · refine ⟨⟨_, (State.setHart_hartOf ..).trans (if_pos hid.symm)⟩, fun j hj => ?_, State.setHart_frame ..⟩
    exact (State.setHart_hartOf ..).trans (if_neg fun he => hj (he.trans hid))

/-- The end of an operation that alone counts on its counter. -/
theorem engineDone_retires (h : CountsAlone i o t) : Retired i o t (engineDone i o t) := by
  unfold engineDone
  simp only [h.slot, if_true]
  generalize ((List.find? (fun x => x.n == o.n) (t.slot i).ops).map (·.fold)).getD 0 = d
  change Retired i o t (settle o.hart o.counter (countedOps (digestFolded o d (markDone i o t)) o.hart o.counter).length
    (digestFolded o d (markDone i o t)))
  obtain ⟨⟨g, hown⟩, hothers, hframe⟩ := digestFolded_leaves (t := markDone i o t) d h.id
  have hslots : (digestFolded o d (markDone i o t)).slots = (markDone i o t).slots := by rw [hframe]
  have hcolls : (digestFolded o d (markDone i o t)).colls = t.colls := by rw [hframe]; rfl
  have hops : countedOps (digestFolded o d (markDone i o t)) o.hart o.counter = [(o.n, true)] := by
    rw [← countedOps_markDone h]
    simp only [countedOps, State.slot, hslots, hcolls]
    rfl
  generalize digestFolded o d (markDone i o t) = w at *
  have hlive : (w.hartOf o.hart).live = true := by rw [hown]; exact h.live
  rw [settle_alone hops (hcolls ▸ h.colls) hlive, h.slot]
  have hid : ((w.hartOf o.hart).setCounter o.counter ((w.hartOf o.hart).counter o.counter - 1)).id = o.hart := by
    rw [hown]; exact h.id
  have hslot : ∀ j, w.slot j = (markDone i o t).slot j := fun j => by simp only [State.slot, hslots]
  refine ⟨?_, fun j hj => ?_, ?_, fun j hj => ?_, ?_⟩
  · rw [State.setHart_slot, State.setSlot_slot_self, hslot, markDone_slot]
    refine congrArg (fun ops => { t.slot i with ops := ops }) (filter_others (fun p => ?_) (fun p hp => if_neg hp) _)
    split <;> rfl
  · rw [State.setHart_slot]
    refine ((State.setSlot_slot ..).trans (if_neg hj)).trans ((hslot j).trans ((State.setSlot_slot ..).trans (if_neg hj)))
  · rw [State.setHart_hartOf, if_pos hid.symm, hown]
    rfl
  · rw [State.setHart_hartOf, if_neg fun he => hj (he.trans hid)]
    exact hothers j hj
  · rw [State.setHart_frame]
    simp only [State.setSlot]
    rw [hframe]
    rfl

end

end Sys2Proof.Machine
end

section
/-! An operation in flight completes, whatever it does (R205, R207, R210, R213). -/

namespace Sys2Proof.Machine

section
variable {s t u : State} {i c core slot : Nat} {o : EngOp}

theorem InFlight.serves (h : InFlight s i c o) : Serves (o.view i c) s := by
  obtain ⟨-, -, -, -, -, hlive, hid, -, -, -, -, -, hkin⟩ := h
  exact ⟨hid, hlive, hkin⟩
theorem InFlight.mem (h : InFlight s i c o) : o ∈ (s.slot i).ops := List.mem_of_find?_eq_some h.1
theorem InFlight.physical (h : InFlight s i c o) : c / 64 = 0 := h.2.2.2.1
theorem InFlight.slotId (h : InFlight s i c o) : (s.hartOf o.hart).slotId = i := by
  obtain ⟨-, -, -, -, hslot, -, hid, -⟩ := h
  rw [Hart.slotId, hid, hslot]
theorem InFlight.ctxOf (h : InFlight s i c o) : ctxOf s (s.hartOf o.hart) = c := by
  obtain ⟨-, -, -, -, -, -, -, hctx, -⟩ := h
  exact hctx

/-- The engines' work does not change which operations count on a counter of theirs. -/
theorem Worked.filter_ops (h : Worked (o.view i c) s t) (hart cn : Nat) : ∃ f : EngOp → EngOp,
    (∀ p, f p = { p with next := (f p).next, fold := (f p).fold }) ∧
    (t.slot i).ops.filter (fun p => p.hart == hart && p.counter == cn) =
      ((s.slot i).ops.filter (fun p => p.hart == hart && p.counter == cn)).map f := by
  obtain ⟨f, hf, -, hops⟩ := h.ops
  have hsame : ((fun p : EngOp => p.hart == hart && p.counter == cn) ∘ f) = fun p => p.hart == hart && p.counter == cn := by
    funext p
    rw [Function.comp, hf]
  refine ⟨f, hf, ?_⟩
  rw [show (t.slot i).ops = _ from hops, List.filter_map, hsame]
  rfl
theorem InFlight.countsAlone (h : InFlight s i c o) (hw : Worked (o.view i c) s t) : CountsAlone i o t := by
  have hmem := h.mem
  obtain ⟨-, -, -, -, hslot, hlive, hid, -, hcounted, hcolls, -⟩ := h
  obtain ⟨f, hf, hops⟩ := hw.filter_ops o.hart o.counter
  refine ⟨hslot, (hw.hart_id _).trans hid, (hw.hart_live _).trans hlive, ?_, ?_, hw.colls ▸ hcolls⟩
  · rw [hops]
    exact fun he => List.ne_nil_of_mem (List.mem_filter.2 ⟨hmem, by simp⟩) (List.map_eq_nil_iff.1 he)
  · rw [← hcounted]
    unfold countedOps
    rw [hslot, hops, List.map_map, hw.colls]
    congr 1
    refine List.map_congr_left fun p _ => ?_
    rw [Function.comp, hf]

/-- A batch of work and then the operation's end. -/
theorem Worked.counted (hw : Worked (o.view i c) s t) (hr : Retired i o t u) : Counted s u i o := by
  obtain ⟨f, hf, hfn, hops⟩ := hw.ops
  refine ⟨?_, ?_, fun j hj => (hr.others j hj).trans (hw.others j hj), fun j hj => ?_⟩
  · rw [hr.slot]
    show (t.slot i).ops.filter _ = _
    rw [show (t.slot i).ops = _ from hops]
    exact filter_others (fun p => by rw [hf]) hfn _
  · rw [hr.cnt, hw.harts]
    rfl
  · rw [hr.harts j hj, hw.harts, hw.stores j hj]
theorem Retired.locByteHome (hr : Retired i o t u) {h : Hart} (hh : h.slotId = i) {l : Loc} (hl : l.direct) :
    locByteHome u h l = locByteHome t h l := by
  cases l with
  | scr off => simp only [Machine.locByteHome, hh, hr.slot]
  | phys q =>
    have hmem : u.mem = t.mem := by rw [hr.frame]
    have hl2 : u.l2 = t.l2 := by rw [hr.frame]
    have hfns : u.fns = t.fns := by rw [hr.frame]
    exact peek_physical hmem hl2 (by simp only [State.fn, hfns]) (hl q rfl)
  | dead a => rfl

/-- An operation in flight that nothing blocks is the one its completion finds. -/
theorem engineComplete_found (h : InFlight s (core * 2 + slot) c o) {m : Nat → Nat → EngOp → M Unit}
    (hm : m (core * 2 + slot) c o s = .ok () t) :
    engineComplete core slot o.n o.kind m s = engineDone (core * 2 + slot) o t := by
  obtain ⟨hfind, hdone, hholder, -, -, -, -, -, -, -, hfree, -⟩ := h
  obtain ⟨hn, as, bs, hsplit, has⟩ := List.find?_eq_some_iff_append.1 hfind
  have hfound : (s.slot (core * 2 + slot)).ops.find? (fun p => p.n == o.n && p.kind == o.kind && !p.done) = some o :=
    List.find?_eq_some_iff_append.2 ⟨by simp [hdone], as, bs, hsplit, fun a ha => by
      rw [Bool.not_eq_true_eq_eq_false]
      simp only [Bool.not_eq_true'] at has
      simp [has a ha]⟩
  unfold engineComplete
  simp only [hfound, hholder, hfree, Bool.false_eq_true, if_false]
  unfold agent
  rw [M.bind_ok hm, M.modify_run]

/-- An operation that moves data completes: its bytes are in place, and it is counted. -/
theorem engine_completes {m : Nat → Nat → EngOp → M Unit} {k : EngKind} {x : Instr} {P : Loc → Prop} {f : Loc → Byte → Byte}
    (h : InFlight s (core * 2 + slot) c o) (hk : o.kind = k)
    (hx : exec x s = .next (engineComplete core slot o.n k m s)) (hm : ∃ t, m (core * 2 + slot) c o s = .ok () t ∧
      Worked (o.view (core * 2 + slot) c) s t ∧
      ∀ l, l.direct → P l → locByteHome t (s.hartOf o.hart) l = f l (locByteHome s (s.hartOf o.hart) l)) :
    Completes x s (fun t => Counted s t (core * 2 + slot) o ∧
      ∀ l, l.direct → P l → locByteHome t (s.hartOf o.hart) l = f l (locByteHome s (s.hartOf o.hart) l)) := by
  subst hk
  obtain ⟨t, hrun, hw, hb⟩ := hm
  have hr := engineDone_retires (h.countsAlone hw)
  exact ⟨_, hx.trans (congrArg _ (engineComplete_found h hrun)), hw.counted hr,
    fun l hl hp => (hr.locByteHome h.slotId hl).trans (hb l hl hp)⟩

end

/-! ## What the ends of transfers share (R214, R244, R253) -/

section
variable {v : View} {s t : State}

/-- A function whose peers stay is the same to bytes at home. -/
theorem setFn_home {f : Nat} {x : Fn} (hp : x.peers = (s.fn f).peers) : (∀ g, ((s.setFn f x).fn g).peers = (s.fn g).peers) ∧
    ∀ (h : Hart) (l : Loc), l.direct → locByteHome (s.setFn f x) h l = locByteHome s h l := by
  have hpeers : ∀ g, ((s.setFn f x).fn g).peers = (s.fn g).peers := fun g => by
    rw [State.setFn_fn]
    split
    · next hg => rw [hg, hp]
    · rfl
  refine ⟨hpeers, fun h l hl => ?_⟩
  cases l with
  | scr o => rfl
  | phys q => exact peek_physical (t := s.setFn f x) (s := s) rfl rfl (hpeers 0) (hl q rfl)
  | dead a => rfl
theorem dropEvents_leaves (f n : Nat) : Worked v s (dropEvents f n s) ∧
    ∀ (h : Hart) (l : Loc), l.direct → locByteHome (dropEvents f n s) h l = locByteHome s h l := by
  unfold dropEvents
  split
  · have hset := setFn_home (s := s) (f := f) (x := { s.fn f with s2 := (s.fn f).s2.filter (fun e => e.op != some n) }) rfl
    exact ⟨.of_homed v (setFn_homed rfl) hset.1, hset.2⟩
  · exact ⟨.refl v s, fun _ _ _ => rfl⟩
theorem Worked.engineLoc (h : Worked v s t) (c : Nat) (ps : List (Nat × Loc)) (va : Nat) :
    engineLoc (t.ctx c) ps va = engineLoc (s.ctx c) ps va := by
  unfold Machine.engineLoc scratchOff
  rw [h.scrbase]
theorem Worked.locsAt (h : Worked v s t) (c : Nat) (ps : List (Nat × Loc)) (va n : Nat) :
    locsAt (t.ctx c) ps va n = locsAt (s.ctx c) ps va n :=
  List.map_congr_left fun _ _ => h.engineLoc c ps _
theorem Worked.discardLoc (h : Worked v s t) (k va : Nat) (l : Loc) :
    discardLoc t (t.hartOf k) va l = discardLoc s (s.hartOf k) va l := by
  have hctx : ctxOf t (t.hartOf k) = ctxOf s (s.hartOf k) := by
    unfold ctxOf
    rw [h.hart_launch, h.launch]
  unfold Machine.discardLoc windowOf
  simp only [hctx, h.windows]

end

end Sys2Proof.Machine
end

section
/-! XCOPY, XFILL and tile loads complete (R204, R205, R207, R210, R214, R448, R450). -/

namespace Sys2Proof.Machine

section
variable {s : State} {i c : Nat} {o : EngOp}

theorem foldl_writes (g : Nat → EWrite) (l : Loc) (old : Byte) (ns : List Nat) :
    (ns.map g).foldl (fun b w => (byteFor w.locs w.bytes l).getD b) old =
      storedByte (fun n => (g n).locs) (fun n => (g n).bytes) l old ns := by
  rw [List.foldl_map, storedByte_eq]
theorem mem_rest {a b n : Nat} (h : n ∈ List.range' a (b - a)) : n < b := by
  rw [List.mem_range'_1] at h
  omega
theorem InFlight.directBytes {t : State} {f : Loc → Byte → Byte} (h : InFlight s i c o) (hb : BytesBecome i s t f) {l : Loc}
    (hl : l.direct) : locByteHome t (s.hartOf o.hart) l = f l (locByteHome s (s.hartOf o.hart) l) := hb _ l h.slotId hl

/-! ## XCOPY (R204, R205, R449) -/

/-- Element `n` of a copy as the issuing hart reads it. -/
def copyGot (s : State) (i c : Nat) (o : EngOp) (n : Nat) : List Byte :=
  (locsAt (s.ctx c) (pagesAt o.srcPages) (shapeAddr o.src n) (shapeWidth (shapeFmt o.src))).map
    (fun l => (engineByte s (o.view i c) l).1)
/-- The same as its destination holds it, converted where the formats say so. -/
def copyPut (s : State) (i c : Nat) (o : EngOp) (n : Nat) : List Byte :=
  if shapePair (shapeFmt o.src) (shapeFmt o.dst) = some true then
    leBytes (shapeWidth (shapeFmt o.dst))
      (fStoreConvert (shapeFloat (shapeFmt o.src)) (shapeFloat (shapeFmt o.dst)) (leNat (copyGot s i c o n))).1
  else copyGot s i c o n
/-- Where it goes. -/
def elementDst (s : State) (c : Nat) (o : EngOp) (n : Nat) : List Loc :=
  locsAt (s.ctx c) (pagesAt o.dstPages) (shapeAddr o.dst n) (shapeWidth (shapeFmt o.dst))
/-- The write of element `n` of a copy. -/
def copyAt (s : State) (i c : Nat) (o : EngOp) (n : Nat) : EWrite :=
  copyWrite s (o.view i c) (s.ctx c) o (pagesAt o.srcPages) (pagesAt o.dstPages) n

theorem copyAt_bytes (n : Nat) : (copyAt s i c o n).bytes = copyPut s i c o n := by
  have hgot : (readElem s (o.view i c) (locsAt (s.ctx c) (pagesAt o.srcPages) (shapeAddr o.src n)
      (shapeWidth (shapeFmt o.src)))).1 = copyGot s i c o n := List.map_map ..
  unfold copyPut
  rw [← hgot]
  rfl
theorem copyPut_length (h : copyAmiss o.src o.dst = none) (n : Nat) :
    (copyPut s i c o n).length = shapeWidth (shapeFmt o.dst) := by
  unfold copyPut
  split
  · simp [leBytes]
  · next hp =>
    cases hb : shapePair (shapeFmt o.src) (shapeFmt o.dst) with
    | none => exact absurd hb (copyAmiss_none h).2
    | some b =>
      cases b with
      | true => exact absurd hb hp
      | false => simp [copyGot, shapePair_same hb]
theorem restWrites_xcopy (hk : o.kind = .xcopy) : restWrites s i c o =
    (List.range' o.next (shapeCount o.src - o.next)).map (copyAt s i c o) := by
  unfold restWrites partWrites EngOp.total
  simp only [hk]
  exact List.map_eq_flatMap.symm
theorem copyAt_sound (h : copyAmiss o.src o.dst = none) {n : Nat} (hs : ∀ l ∈ elementDst s c o n, Stands l)
    (ha : ∀ l ∈ locsAt (s.ctx c) (pagesAt o.srcPages) (shapeAddr o.src n) (shapeWidth (shapeFmt o.src)), Answers s l) :
    (copyAt s i c o n).Sound s where
  length := by
    rw [copyAt_bytes, copyPut_length h]
    exact (locsAt_length ..).symm
  nodup := locsAt_nodup (shapeAddr_page (copyAmiss_none h).1 n) hs
  stands := hs
  answers := ha

/-- The lines that a copy's LU names. -/
def copyDrop (s : State) (c : Nat) (o : EngOp) : List Loc :=
  (shapeAddrs o.src).flatMap (fun va => (List.range (shapeWidth (shapeFmt o.src))).map (fun j =>
    discardLoc s (s.hartOf o.hart) (va + j) (engineLoc (s.ctx c) (pagesAt o.srcPages) (va + j))))
theorem Worked.copyDrop {t : State} (h : Worked (o.view i c) s t) : copyDrop t c o = copyDrop s c o := by
  unfold Machine.copyDrop
  simp only [h.engineLoc, h.discardLoc]

theorem xcopyDone_run (h : InFlight s i c o) (hk : o.kind = .xcopy) (hamiss : copyAmiss o.src o.dst = none)
    (hs : ∀ n < shapeCount o.src, ∀ l ∈ elementDst s c o n, Stands l)
    (ha : ∀ n < shapeCount o.src, ∀ l ∈ locsAt (s.ctx c) (pagesAt o.srcPages) (shapeAddr o.src n)
      (shapeWidth (shapeFmt o.src)), Answers s l) :
    ∃ t, xcopyDone i c o s = .ok () t ∧ Worked (o.view i c) s t ∧ ∀ l, l.direct → (shapeLu o.src = true → ¬ InLines (copyDrop s c o) l) →
      locByteHome t (s.hartOf o.hart) l = storedByte (elementDst s c o) (copyPut s i c o) l
        (locByteHome s (s.hartOf o.hart) l) (List.range' o.next (shapeCount o.src - o.next)) := by
  have hsound : ∀ w ∈ restWrites s i c o, w.Sound s := fun w hw => by
    rw [restWrites_xcopy hk] at hw
    obtain ⟨n, hn, rfl⟩ := List.mem_map.1 hw
    exact copyAt_sound hamiss (hs n (mem_rest hn)) (ha n (mem_rest hn))
  obtain ⟨t, hmove, hwork, hbytes⟩ := engineMove_all h.physical h.serves hsound
  have hdata : ∀ l, l.direct → locByteHome t (s.hartOf o.hart) l = storedByte (elementDst s c o) (copyPut s i c o) l
      (locByteHome s (s.hartOf o.hart) l) (List.range' o.next (shapeCount o.src - o.next)) := fun l hl => by
    rw [h.directBytes hbytes hl, restWrites_xcopy hk, foldl_writes]
    simp only [copyAt_bytes]
    rfl
  unfold xcopyDone
  simp only [M.bind_ok hmove]
  cases hlu : shapeLu o.src with
  | false =>
    obtain ⟨hend, hsame⟩ := dropEvents_leaves (v := o.view i c) (s := t) (c / 64) o.n
    simp only [Bool.false_eq_true, if_false]
    exact ⟨_, rfl, hwork.trans hend, fun l hl _ => (hsame _ l hl).trans (hdata l hl)⟩
  | true =>
    obtain ⟨hdrop, hkept⟩ := discardAt_leaves (v := o.view i c) (s := t) (copyDrop t c o)
    obtain ⟨hend, hsame⟩ := dropEvents_leaves (v := o.view i c) (s := discardAt (copyDrop t c o) t) (c / 64) o.n
    refine ⟨_, ?_, (hwork.trans hdrop).trans hend, fun l hl hn => (hsame _ l hl).trans ((hkept _ l hl ?_).trans (hdata l hl))⟩
    · simp only [if_true, M.hartNo_bind, M.modify_bind, pagesNow_physical h.physical]
      rfl
    · rw [hwork.copyDrop]
      exact hn rfl

/-! ## XFILL (R450) -/

theorem restWrites_xfill (hk : o.kind = .xfill) : restWrites s i c o =
    (List.range' o.next (shapeCount o.dst - o.next)).map (fillWrite (s.ctx c) o (pagesAt o.dstPages)) := by
  unfold restWrites partWrites EngOp.total
  simp only [hk]
  exact List.map_eq_flatMap.symm
theorem fillWrite_sound (h : shapeAmiss true o.dst = none) {n : Nat} (hs : ∀ l ∈ elementDst s c o n, Stands l) :
    (fillWrite (s.ctx c) o (pagesAt o.dstPages) n).Sound s where
  length := by simp [fillWrite, leBytes]
  nodup := locsAt_nodup (shapeAddr_page h n) hs
  stands := hs
  answers := fun _ hl => nomatch hl
theorem xfillDone_run (h : InFlight s i c o) (hk : o.kind = .xfill) (hamiss : shapeAmiss true o.dst = none)
    (hs : ∀ n < shapeCount o.dst, ∀ l ∈ elementDst s c o n, Stands l) :
    ∃ t, xfillDone i c o s = .ok () t ∧ Worked (o.view i c) s t ∧ ∀ l, l.direct → True →
      locByteHome t (s.hartOf o.hart) l = storedByte (elementDst s c o)
        (fun _ => leBytes (shapeWidth (shapeFmt o.dst)) o.arg.toNat) l
        (locByteHome s (s.hartOf o.hart) l) (List.range' o.next (shapeCount o.dst - o.next)) := by
  have hsound : ∀ w ∈ restWrites s i c o, w.Sound s := fun w hw => by
    rw [restWrites_xfill hk] at hw
    obtain ⟨n, hn, rfl⟩ := List.mem_map.1 hw
    exact fillWrite_sound hamiss (hs n (mem_rest hn))
  obtain ⟨t, hmove, hwork, hbytes⟩ := engineMove_all h.physical h.serves hsound
  obtain ⟨hend, hsame⟩ := dropEvents_leaves (v := o.view i c) (s := t) (c / 64) o.n
  refine ⟨_, ?_, hwork.trans hend, fun l hl _ => (hsame _ l hl).trans ?_⟩
  · unfold xfillDone
    rw [M.bind_ok hmove, M.modify_run]
  · rw [h.directBytes hbytes hl, restWrites_xfill hk, foldl_writes]
    rfl

/-! ## Tile loads (R448) -/

theorem Slot.setWeight_weight_self (sl : Slot) (b : Nat) (x : WSlot) : (sl.setWeight b x).weight b = x := mapGet_put_self ..
theorem Slot.setWeight_weight_other (sl : Slot) {a b : Nat} (x : WSlot) (h : b ≠ a) : (sl.setWeight a x).weight b = sl.weight b :=
  mapGet_put_other _ _ _ h
/-- The tile a load leaves. -/
def loadedTile (o : EngOp) : WSlot := .tile ⟨o.fmt, o.gs, o.depth, imageNat o.fmt o.gs o.src, o.bad⟩
theorem wldDone_run (h : ∀ p ∈ (s.slot i).ops, p.kind = .wld → p.wb = o.wb → p.n = o.n) :
    wldDone i c o s = .ok () (s.setSlot i ((s.slot i).setWeight o.wb (loadedTile o))) := by
  have hmore : (s.slot i).ops.any (fun p => p.kind == .wld && p.wb == o.wb && !p.done && p.n != o.n) = false :=
    List.any_eq_false.2 fun p hp => by
      simp only [Bool.and_eq_true, beq_iff_eq, bne_iff_ne, not_and, not_not]
      exact fun hk => h p hp hk.1.1 hk.1.2
  unfold wldDone
  simp only [M.modify_run, hmore, Bool.false_eq_true, if_false]
  rfl
theorem wldComplete_found {core slot : Nat} (hfind : (s.slot (core * 2 + slot)).ops.find? (fun p => p.n == o.n) = some o)
    (h : ∀ p ∈ (s.slot (core * 2 + slot)).ops, p.kind = .wld → p.wb = o.wb → p.n = o.n) :
    exec (.wldComplete core slot o.n) s = .next (engineComplete core slot o.n .wld wldDone s) := by
  have hfirst : (s.slot (core * 2 + slot)).ops.any (fun p => p.kind == .wld && p.wb == o.wb && !p.done && decide (p.n < o.n)) = false :=
    List.any_eq_false.2 fun p hp => by
      simp only [Bool.and_eq_true, beq_iff_eq, decide_eq_true_eq, not_and, Nat.not_lt]
      exact fun hk => Nat.le_of_eq (h p hp hk.1.1 hk.1.2).symm
  show execWldComplete core slot o.n s = _
  unfold execWldComplete
  simp only [hfind, hfirst, Bool.false_eq_true, if_false]
theorem wld_completes {core slot : Nat} (h : InFlight s (core * 2 + slot) c o) (hk : o.kind = .wld)
    (halone : ∀ p ∈ (s.slot (core * 2 + slot)).ops, p.kind = .wld → p.wb = o.wb → p.n = o.n) :
    Completes (.wldComplete core slot o.n) s (fun t => Counted s t (core * 2 + slot) o ∧
      (t.slot (core * 2 + slot)).weight o.wb = loadedTile o ∧
      (∀ b, b ≠ o.wb → (t.slot (core * 2 + slot)).weight b = (s.slot (core * 2 + slot)).weight b) ∧
      t.slot (core * 2 + slot) = { s.slot (core * 2 + slot) with
        weights := (t.slot (core * 2 + slot)).weights, ops := (t.slot (core * 2 + slot)).ops } ∧
      t = { s with hart := t.hart, harts := t.harts, slots := t.slots }) := by
  have hrun := wldDone_run (c := c) halone
  have hw : Worked (o.view (core * 2 + slot) c) s (s.setSlot (core * 2 + slot)
      ((s.slot (core * 2 + slot)).setWeight o.wb (loadedTile o))) :=
    .of_setSlot (v := o.view (core * 2 + slot) c) (f := id) (fun _ => rfl) (fun _ _ => rfl) (List.map_id _).symm
  have hr := engineDone_retires (h.countsAlone hw)
  have hslot := hr.slot
  rw [State.setSlot_slot_self] at hslot
  have hweight := fun b => congrArg (fun sl => Slot.weight sl b) hslot
  refine ⟨_, (wldComplete_found h.1 halone).trans (congrArg _ (hk ▸ engineComplete_found h hrun)), hw.counted hr,
    (hweight o.wb).trans (Slot.setWeight_weight_self (s.slot (core * 2 + slot)) o.wb (loadedTile o)),
    fun b hb => (hweight b).trans (Slot.setWeight_weight_other (s.slot (core * 2 + slot)) (loadedTile o) hb), ?_, ?_⟩
  · rw [hslot]
    rfl
  · exact hr.frame

end

end Sys2Proof.Machine
end

section
/-! KVCOMMIT completes (R207, R210, R323, R324, R376): its copies by parts of 64 bytes, the discard, the length. -/

namespace Sys2Proof.Machine

/-! ## Lists cut in blocks -/

section
variable {α β : Type}

/-- A range of blocks, filtered block by block. -/
theorem filter_range_blocks (q : Nat → Bool) (n : Nat) {p : Nat} (hp : 0 < p) :
    (List.range (n * p)).filter (fun k => q (k / p)) =
      ((List.range n).filter q).flatMap (fun j => (List.range p).map (j * p + ·)) := by
  induction n with
  | zero => simp
  | succ n ih =>
    have hblock : ∀ r ∈ List.range p, ((fun k => q (k / p)) ∘ (n * p + ·)) r = q n := fun r hr => by
      rw [Function.comp, Nat.mul_comm n p, Nat.mul_add_div hp, Nat.div_eq_of_lt (List.mem_range.1 hr), Nat.add_zero]
    rw [Nat.succ_mul, List.range_add, List.filter_append, ih, List.range_succ, List.filter_append, List.flatMap_append,
      List.filter_map, List.filter_congr hblock]
    congr 1
    cases hq : q n <;> simp [hq]
/-- Numbers of a list's elements in blocks, and the elements themselves. -/
theorem flatMap_range_blocks (f : α → Nat → List β) (xs : List α) {p : Nat} (hp : 0 < p) :
    (List.range (xs.length * p)).flatMap (fun n => xs[n / p]?.elim [] (fun x => f x (n % p))) =
      xs.flatMap (fun x => (List.range p).flatMap (f x)) := by
  induction xs using List.reverseRecOn with
  | nil => simp
  | append_singleton xs x ih =>
    have hlast : ∀ r ∈ List.range p, (xs ++ [x])[(xs.length * p + r) / p]?.elim [] (fun y => f y ((xs.length * p + r) % p)) = f x r :=
      fun r hr => by
        have hr := List.mem_range.1 hr
        rw [Nat.mul_comm xs.length p, Nat.mul_add_div hp, Nat.div_eq_of_lt hr, Nat.add_zero, Nat.mul_add_mod, Nat.mod_eq_of_lt hr]
        simp
    have hinit : ∀ n ∈ List.range (xs.length * p), (xs ++ [x])[n / p]?.elim [] (fun y => f y (n % p)) =
        xs[n / p]?.elim [] (fun y => f y (n % p)) := fun n hn => by
      rw [List.getElem?_append_left (Nat.div_lt_of_lt_mul (by rw [Nat.mul_comm]; exact List.mem_range.1 hn))]
    rw [List.length_append, List.length_singleton, Nat.succ_mul, List.range_add, List.flatMap_append, List.flatMap_congr hinit, ih,
      List.flatMap_append, List.flatMap_singleton, List.flatMap_map, List.flatMap_congr hlast]
/-- Blocks of blocks. -/
theorem flatMap_range_map (f : Nat → β) (n b : Nat) :
    (List.range n).flatMap (fun r => (List.range b).map (fun i => f (r * b + i))) = (List.range (n * b)).map f := by
  induction n with
  | zero => simp
  | succ n ih =>
    rw [List.range_succ, List.flatMap_append, ih, List.flatMap_singleton, Nat.succ_mul, List.range_add, List.map_append,
      List.map_map]
    rfl
/-- Blocks of one size from the one numbered `lo` on. -/
theorem flatMap_range'_drop {g : Nat → List β} {b lo hi : Nat} (hg : ∀ n < hi, (g n).length = b) :
    (List.range' lo (hi - lo)).flatMap g = ((List.range hi).flatMap g).drop (b * lo) := by
  have hlen : ∀ l ∈ (List.range hi).map g, l.length = b := fun l hl => by
    obtain ⟨n, hn, rfl⟩ := List.mem_map.1 hl
    exact hg n (List.mem_range.1 hn)
  have hrest : List.range' lo (hi - lo) = (List.range hi).drop lo := by
    simp [List.range_eq_range', List.drop_range']
  rw [hrest, List.flatMap_def, List.flatMap_def, drop_flatten_blocks hlen, List.map_drop]

end

/-! ## The copies of a KVCOMMIT, part by part (R324) -/

section
variable {s : State} {i c : Nat} {o : EngOp}

theorem kvAmiss_none {r : List Byte} {idx : List Nat} (h : kvAmiss r idx = none) :
    kvBase r % 256 = 0 ∧ kvSize r % 256 = 0 ∧ 256 ≤ kvSize r := by
  unfold kvAmiss at h
  split_ifs at h with h1 h2
  simp only [Bool.or_eq_true, bne_iff_ne, ne_eq, decide_eq_true_eq, not_or, not_not, Nat.not_lt] at h2
  omega
/-- Parts of 64 bytes in an entry. -/
def kvParts (o : EngOp) : Nat := kvSize o.src / 64
theorem kvParts_eq (h : kvAmiss o.src o.idx = none) : kvParts o = kvSize o.src / 256 * 4 ∧ 0 < kvSize o.src / 256 := by
  have := kvAmiss_none h
  unfold kvParts
  omega
/-- Where part `k`, counted over the entries, of entry `e` stands. -/
def kvPartVa (o : EngOp) (e k : Nat) : Nat := kvEntry o.src (kvLen o.src + e) + 64 * (k % kvParts o)
theorem kvPartVa_page (h : kvAmiss o.src o.idx = none) (e k : Nat) : kvPartVa o e k % 65536 + 64 ≤ 65536 := by
  obtain ⟨hb, hz, -⟩ := kvAmiss_none h
  have hentry : 64 ∣ kvEntry o.src (kvLen o.src + e) :=
    (Nat.dvd_mod_iff (by decide)).2 (Nat.dvd_add (by omega) (Dvd.dvd.mul_left (by omega) _))
  have : 64 ∣ kvPartVa o e k := Nat.dvd_add hentry (Nat.dvd_mul_right ..)
  omega
/-- The entry that entry `j` takes its bytes from. -/
def kvSource (o : EngOp) (j : Nat) : Nat := o.idx.getD j 0
/-- The places that part `k` is read at. -/
def kvPartSrc (s : State) (c : Nat) (o : EngOp) (k : Nat) : List Loc :=
  locsAt (s.ctx c) (pagesAt o.srcPages) (kvPartVa o (kvSource o (k / kvParts o)) k) 64
/-- The places that part `k` goes to. -/
def kvPartDst (s : State) (c : Nat) (o : EngOp) (k : Nat) : List Loc :=
  locsAt (s.ctx c) (pagesAt o.dstPages) (kvPartVa o (k / kvParts o) k) 64
/-- The write of part `k`. -/
def kvPartWrite (s : State) (i c : Nat) (o : EngOp) (k : Nat) : EWrite :=
  ⟨kvPartVa o (k / kvParts o) k, kvPartDst s c o k, (readElem s (o.view i c) (kvPartSrc s c o k)).1,
    (readElem s (o.view i c) (kvPartSrc s c o k)).2, kvPartSrc s c o k⟩
/-- The entries that move: their index is not their place. -/
def kvMoving (o : EngOp) : List Nat := (List.range o.idx.length).filter (fun j => kvSource o j ≠ j)

theorem kvMoves_eq : kvMoves o = (kvMoving o).map (fun j =>
    (kvEntry o.src (kvLen o.src + kvSource o j), kvEntry o.src (kvLen o.src + j))) := by
  have hidx : o.idx.mapIdx (fun i e => (e, i)) = (List.range o.idx.length).map (fun j => (kvSource o j, j)) := by
    refine List.ext_getElem (by simp) fun n h1 h2 => ?_
    simp only [List.length_mapIdx] at h1
    simp [kvSource, h1]
  unfold kvMoves kvMoving
  rw [hidx, List.filter_map, List.map_map]
  exact congrArg _ (List.filter_congr fun j _ => Bool.eq_iff_iff.2 (by simp))
/-- Part `r` of the entry `j` that moves. -/
theorem kvPartWrite_at (s : State) (i c : Nat) {j r : Nat} (hr : r < kvParts o) :
    kvPartWrite s i c o (j * kvParts o + r) =
      let src := locsAt (s.ctx c) (pagesAt o.srcPages) (kvEntry o.src (kvLen o.src + kvSource o j) + 64 * r) 64
      ⟨kvEntry o.src (kvLen o.src + j) + 64 * r,
        locsAt (s.ctx c) (pagesAt o.dstPages) (kvEntry o.src (kvLen o.src + j) + 64 * r) 64,
        (readElem s (o.view i c) src).1, (readElem s (o.view i c) src).2, src⟩ := by
  have hp : 0 < kvParts o := by omega
  have hdiv : (j * kvParts o + r) / kvParts o = j := by
    rw [Nat.mul_comm, Nat.mul_add_div hp, Nat.div_eq_of_lt hr, Nat.add_zero]
  have hmod : (j * kvParts o + r) % kvParts o = r := by
    rw [Nat.mul_comm, Nat.mul_add_mod, Nat.mod_eq_of_lt hr]
  simp only [kvPartWrite, kvPartDst, kvPartSrc, kvPartVa, hdiv, hmod]
/-- The parts that move, of entries in their order. -/
def kvMoved (o : EngOp) : List Nat :=
  (List.range (o.idx.length * kvParts o)).filter (fun k => o.idx.getD (k / kvParts o) 0 ≠ k / kvParts o)

/-- Unit `n` of a KVCOMMIT is four parts of the entry it lies in. -/
theorem entryWrites_eq (h : kvAmiss o.src o.idx = none) (n : Nat) :
    entryWrites s (o.view i c) (s.ctx c) o (pagesAt o.srcPages) (pagesAt o.dstPages) n =
      (kvMoving o)[n / (kvSize o.src / 256)]?.elim [] (fun j => (List.range 4).map (fun t =>
        kvPartWrite s i c o (j * kvParts o + (n % (kvSize o.src / 256) * 4 + t)))) := by
  obtain ⟨hparts, hper⟩ := kvParts_eq h
  unfold entryWrites
  simp only [kvMoves_eq, List.getElem?_map]
  cases (kvMoving o)[n / (kvSize o.src / 256)]? with
  | none => rfl
  | some j =>
    simp only [Option.map_some, Option.elim_some]
    refine List.map_congr_left fun t ht => ?_
    have hlt : n % (kvSize o.src / 256) * 4 + t < kvParts o := by
      have := Nat.mod_lt n hper
      have := List.mem_range.1 ht
      omega
    have hoff : n % (kvSize o.src / 256) * 256 + 64 * t = 64 * (n % (kvSize o.src / 256) * 4 + t) := by omega
    rw [kvPartWrite_at s i c hlt, hoff]
theorem kvMoved_eq (h : kvAmiss o.src o.idx = none) :
    kvMoved o = (kvMoving o).flatMap (fun j => (List.range (kvParts o)).map (j * kvParts o + ·)) := by
  obtain ⟨hparts, hper⟩ := kvParts_eq h
  exact filter_range_blocks (fun j => decide (kvSource o j ≠ j)) o.idx.length (by omega)
theorem restWrites_kvcommit (hk : o.kind = .kvcommit) (h : kvAmiss o.src o.idx = none) :
    restWrites s i c o = ((kvMoved o).drop (4 * o.next)).map (kvPartWrite s i c o) := by
  obtain ⟨hparts, hper⟩ := kvParts_eq h
  have htotal : o.total = (kvMoving o).length * (kvSize o.src / 256) := by
    unfold EngOp.total
    simp only [hk, kvMoves_eq, List.length_map]
  have hunit : ∀ n < (kvMoving o).length * (kvSize o.src / 256),
      ((kvMoving o)[n / (kvSize o.src / 256)]?.elim [] (fun j => (List.range 4).map (fun t =>
        kvPartWrite s i c o (j * kvParts o + (n % (kvSize o.src / 256) * 4 + t))))).length = 4 := fun n hn => by
    rw [List.getElem?_eq_getElem (Nat.div_lt_of_lt_mul (by rwa [Nat.mul_comm]))]
    simp
  have hentry : ∀ j, (List.range (kvSize o.src / 256)).flatMap (fun r => (List.range 4).map (fun t =>
      kvPartWrite s i c o (j * kvParts o + (r * 4 + t)))) =
      ((List.range (kvParts o)).map (j * kvParts o + ·)).map (kvPartWrite s i c o) := fun j => by
    rw [flatMap_range_map (fun q => kvPartWrite s i c o (j * kvParts o + q)), ← hparts, List.map_map]
    rfl
  unfold restWrites partWrites
  simp only [hk, entryWrites_eq h]
  rw [htotal, flatMap_range'_drop hunit, flatMap_range_blocks (fun j r => (List.range 4).map (fun t =>
    kvPartWrite s i c o (j * kvParts o + (r * 4 + t)))) (kvMoving o) hper, kvMoved_eq h, List.map_drop, List.map_flatMap]
  simp only [hentry]

end

/-! ## The end of a KVCOMMIT (R324, R376) -/

section
variable {s : State} {i c : Nat} {o : EngOp}

/-- The parts in all, which is also the number under which the new length is written. -/
def kvLast (o : EngOp) : Nat := o.idx.length * kvParts o
/-- Where part `k`, or the new length, goes. -/
def kvDst (s : State) (c : Nat) (o : EngOp) (k : Nat) : List Loc :=
  if k = kvLast o then locsAt (s.ctx c) (pagesAt o.dstPages) (o.arg.toNat + 16) 4 else kvPartDst s c o k
/-- Its bytes, as the issuing hart reads them. -/
def kvPut (s : State) (i c : Nat) (o : EngOp) (k : Nat) : List Byte :=
  if k = kvLast o then leBytes 4 (kvLen o.src + o.idx.length)
  else (kvPartSrc s c o k).map (fun l => (engineByte s (o.view i c) l).1)
/-- The places of the rejected entries. -/
def kvDropped (s : State) (c : Nat) (o : EngOp) : List Loc :=
  (kvDrops o.src o.idx.length).flatMap (fun a => locsAt (s.ctx c) (pagesAt o.dstPages) a.1 a.2)
/-- The write of the new length. -/
def lengthWrite (s : State) (c : Nat) (o : EngOp) : EWrite :=
  ⟨o.arg.toNat + 16, locsAt (s.ctx c) (pagesAt o.dstPages) (o.arg.toNat + 16) 4,
    leBytes 4 ((kvLen o.src + o.idx.length) % 2 ^ 32), false, []⟩

theorem leBytes_four_mod (x : Nat) : leBytes 4 (x % 2 ^ 32) = leBytes 4 x := by
  refine List.map_congr_left fun j hj => ?_
  have hj := List.mem_range.1 hj
  refine BitVec.eq_of_getLsbD_eq fun b hb => ?_
  simp only [byteOf, BitVec.getLsbD_ofNat, Nat.testBit_shiftRight, Nat.testBit_mod_two_pow]
  have : 8 * j + b < 32 := by omega
  simp [this]
/-- The record's cached bytes take the new length. -/
def lengthCached (i : Nat) (o : EngOp) (s : State) : State :=
  s.setSlot i { s.slot i with rcache := (s.slot i).rcache.map (fun e => if e.1 = o.arg.toNat then
    (e.1, e.2.take 16 ++ leBytes 4 ((kvLen o.src + o.idx.length) % 2 ^ 32) ++ e.2.drop 20) else e) }
theorem lengthCached_leaves : Worked (o.view i c) s (lengthCached i o s) ∧
    BytesBecome i s (lengthCached i o s) (fun _ b => b) := by
  refine ⟨Worked.of_setSlot (v := o.view i c) (f := id) (fun _ => rfl) (fun _ _ => rfl) (List.map_id _).symm,
    .of_same ?_ fun q _ => State.setSlot_peek_same ..⟩
  rw [lengthCached, State.setSlot_slot_self]
theorem kvMoved_lt {k : Nat} (h : k ∈ kvMoved o) : k < kvLast o := List.mem_range.1 (List.mem_filter.1 h).1

theorem kvPartWrite_sound (hamiss : kvAmiss o.src o.idx = none) {k : Nat} (hs : ∀ l ∈ kvPartDst s c o k, Stands l)
    (ha : ∀ l ∈ kvPartSrc s c o k, Answers s l) : (kvPartWrite s i c o k).Sound s where
  length := by simp [kvPartWrite, readElem, kvPartDst, kvPartSrc]
  nodup := locsAt_nodup (kvPartVa_page hamiss _ _) hs
  stands := hs
  answers := ha
theorem lengthWrite_sound {t : State} (harg : o.arg.toNat % 64 = 0)
    (hs : ∀ l ∈ kvDst s c o (kvLast o), Stands l) : (lengthWrite s c o).Sound t where
  length := by simp [lengthWrite, leBytes]
  nodup := locsAt_nodup (by omega) fun l hl => hs l (by rwa [kvDst, if_pos rfl])
  stands := fun l hl => hs l (by rwa [kvDst, if_pos rfl])
  answers := fun _ hl => nomatch hl
/-- The parts that move, stored one after another. -/
theorem foldl_kvParts {ks : List Nat} (h : ∀ k ∈ ks, k < kvLast o) (l : Loc) (old : Byte) :
    (ks.map (kvPartWrite s i c o)).foldl (fun b w => (byteFor w.locs w.bytes l).getD b) old =
      storedByte (kvDst s c o) (kvPut s i c o) l old ks := by
  rw [List.foldl_map, storedByte_eq]
  refine List.foldl_ext _ _ _ fun b k hk => ?_
  have hne : k ≠ kvLast o := Nat.ne_of_lt (h k hk)
  rw [kvDst, kvPut, if_neg hne, if_neg hne]
  simp only [kvPartWrite, readElem, List.map_map]
  rfl

theorem kvcommitDone_run (h : InFlight s i c o) (hk : o.kind = .kvcommit) (hamiss : kvAmiss o.src o.idx = none)
    (harg : o.arg.toNat % 64 = 0)
    (hm : ∀ k ∈ (kvMoved o).drop (4 * o.next) ++ [kvLast o], (∀ l ∈ kvDst s c o k, Stands l) ∧ ∀ l ∈ kvPartSrc s c o k, Answers s l) :
    ∃ t, kvcommitDone i c o s = .ok () t ∧ Worked (o.view i c) s t ∧ ∀ l, l.direct → ¬ InLines (kvDropped s c o) l →
      locByteHome t (s.hartOf o.hart) l = storedByte (kvDst s c o) (kvPut s i c o) l
        (locByteHome s (s.hartOf o.hart) l) ((kvMoved o).drop (4 * o.next) ++ [kvLast o]) := by
  obtain ⟨hparts, hlast⟩ := List.forall_mem_append.1 hm
  have hbelow : ∀ k ∈ (kvMoved o).drop (4 * o.next), k < kvLast o := fun k hk => kvMoved_lt (List.mem_of_mem_drop hk)
  have hsound : ∀ w ∈ restWrites s i c o, w.Sound s := fun w hw => by
    rw [restWrites_kvcommit hk hamiss] at hw
    obtain ⟨k, hkm, rfl⟩ := List.mem_map.1 hw
    obtain ⟨hs, ha⟩ := hparts k hkm
    rw [kvDst, if_neg (Nat.ne_of_lt (hbelow k hkm))] at hs
    exact kvPartWrite_sound hamiss hs ha
  obtain ⟨t1, hmove, hwork, hbytes⟩ := engineMove_all h.physical h.serves hsound
  obtain ⟨hdrop, hkept⟩ := discardAt_leaves (v := o.view i c) (s := t1) (kvDropped s c o)
  have hw2 := hwork.trans hdrop
  have hlength : ∀ w ∈ [lengthWrite s c o], w.Sound (discardAt (kvDropped s c o) t1) :=
    List.forall_mem_singleton.2 (lengthWrite_sound harg (hlast _ List.mem_cons_self).1)
  obtain ⟨t2, hrun, hwrite, hwb⟩ := engineWrites_run (h.serves.worked hw2) hlength
  obtain ⟨hcache, hcb⟩ := lengthCached_leaves (i := i) (c := c) (o := o) (s := t2)
  obtain ⟨hend, hsame⟩ := dropEvents_leaves (v := o.view i c) (s := lengthCached i o t2) (c / 64) o.n
  refine ⟨_, ?run, ((hw2.trans hwrite).trans hcache).trans hend, fun l hl hn => ?bytes⟩
  case run =>
    unfold kvcommitDone
    rw [M.bind_ok hmove, M.bind_ok (stage2Pages_physical h.physical _)]
    simp only [M.get_bind, M.modify_bind, hwork.locsAt]
    refine (M.bind_ok hrun).trans ?_
    rfl
  case bytes =>
    have hparted := h.directBytes hbytes hl
    rw [restWrites_kvcommit hk hamiss, foldl_kvParts hbelow] at hparted
    have hlong := hwb (s.hartOf o.hart) l h.slotId hl
    rw [hkept _ l hl hn, hparted] at hlong
    refine (hsame _ l hl).trans ((hcb _ l h.slotId hl).trans (hlong.trans ?_))
    rw [storedByte_eq, storedByte_eq, List.foldl_append]
    simp only [List.foldl_cons, List.foldl_nil, lengthWrite, leBytes_four_mod]
    rw [kvDst, kvPut, if_pos rfl, if_pos rfl]

end

/-! ## O40 -/

/-- Settles O40: an operation's data, moved before its counter falls, is what is left of its writes, one after another. -/
theorem enginesComplete : Obligations.EnginesComplete := by
  intro s core slot c o i x h v rp wp w wr dropped hf
  refine ⟨?xcopy, ?xfill, ?kvcommit, fun hk halone => wld_completes hf hk halone⟩
  case xcopy =>
    intro hk hamiss dst got put drop hs ha
    exact engine_completes (m := xcopyDone) (P := fun l => shapeLu o.src = true → ¬ InLines (copyDrop s c o) l)
      (f := fun l b => storedByte (elementDst s c o) (copyPut s i c o) l b (List.range' o.next (shapeCount o.src - o.next)))
      hf hk rfl (xcopyDone_run hf hk hamiss hs ha)
  case xfill =>
    intro hk hamiss dst hs
    obtain ⟨t, he, hc, hb⟩ := engine_completes (m := xfillDone) (x := .xfillComplete core slot o.n) (P := fun _ => True)
      (f := fun l b => storedByte (elementDst s c o) (fun _ => leBytes (shapeWidth (shapeFmt o.dst)) o.arg.toNat) l b
        (List.range' o.next (shapeCount o.dst - o.next)))
      hf hk rfl (xfillDone_run hf hk hamiss hs)
    exact ⟨t, he, hc, fun l hl => hb l hl trivial⟩
  case kvcommit =>
    intro hk hamiss harg p at_ last dst put moved drop hm
    exact engine_completes (m := kvcommitDone) (P := fun l => ¬ InLines (kvDropped s c o) l)
      (f := fun l b => storedByte (kvDst s c o) (kvPut s i c o) l b ((kvMoved o).drop (4 * o.next) ++ [kvLast o]))
      hf hk rfl (kvcommitDone_run hf hk hamiss harg hm)

end Sys2Proof.Machine
end

section
/-! XCOPY, XFILL and KVCOMMIT issue (R205, R206, R210, R376, R449, R450). -/

namespace Sys2Proof.Machine

/-! ## An engine operation leaves its instruction (R210) -/

section
variable {s u : State} {cn : BitVec 4}

/-- Where there is room for an operation, the checks of its issue pass (R210, R213). -/
theorem engineRoom_passes {span : Option (Nat × Nat)} (h : HasRoom s cn span.isSome) : engineRoom cn span s = .ok () s := by
  obtain ⟨hcounter, hops, hboard⟩ := h
  have hslot : ¬ Config.engineMax ≤ (s.slot s.hart.slotId).inFlight.length := Nat.not_le.2 hops
  have hspan : ¬ (span.isSome && decide (Config.boardMax ≤
      ((s.slot s.hart.slotId).inFlight.filter (fun o => o.span.isSome)).length)) = true := by
    rw [Bool.and_eq_true, decide_eq_true_eq]
    exact fun hc => Nat.not_le.2 (hboard hc.1) hc.2
  unfold engineRoom
  simp only [M.hart_bind, M.slotM_bind]
  rw [if_neg (Nat.not_le.2 hcounter), if_neg hslot, if_neg hspan]
  rfl

/-- From `u` to `t` the hart `h` has issued `op` on counter `cn` and goes on: the operation is in flight with the hart's
acquire and order point of now, and the counter has risen. -/
def Issued (h : Hart) (cn : BitVec 4) (u t : State) (op : EngOp) : Prop :=
  let o := { op with n := u.nextOp, hart := h.id, acq := h.lastAcq, seq := h.stores, home := h.id }
  t.slot h.slotId = { u.slot h.slotId with ops := (u.slot h.slotId).ops ++ [o] } ∧
    (∀ i, i ≠ h.slotId → t.slot i = u.slot i) ∧
    t = { u with hart := { counted h cn with pc := h.pc + 4 }, slots := t.slots, nextOp := u.nextOp + 1 }

/-- The last steps of XCOPY, XFILL and KVCOMMIT: room, issue, the next instruction. -/
theorem issue_run {h : Hart} {op : EngOp} (hu : u.hart = h) (hroom : HasRoom u cn op.span.isSome) (hcn : op.counter = cn.toNat)
    (hkind : op.kind ≠ .wld) (hfresh : op.next = 0 ∧ op.done = false ∧ op.fold = 0) :
    ∃ t, (do engineRoom cn op.span; engineIssue op; nextInstr : M Unit) u = .ok () t ∧ Issued h cn u t op := by
  subst hu
  obtain ⟨t, hrun, hslot, hothers, hframe⟩ := engineIssue_run (s := u) op
  obtain ⟨hnext, hdone, hfold⟩ := hfresh
  have hop : op.issuedBy u =
      { op with n := u.nextOp, hart := u.hart.id, acq := u.hart.lastAcq, seq := u.hart.stores, home := u.hart.id } := by
    unfold EngOp.issuedBy
    rw [if_neg hkind, ← hnext, ← hdone, ← hfold]
  refine ⟨t.advance, ?_, ?_⟩
  · rw [M.bind_ok (engineRoom_passes hroom), M.bind_ok hrun, M.nextInstr_run]
  · refine ⟨hslot.trans ?_, hothers, ?_⟩
    · rw [hop, Slot.withOp]
    · rw [hframe, hcn]
      rfl

end

/-! ## The operations issued (R205, R376, R449, R450) -/

/-- What a shape record's elements cover, as (address, bytes). -/
def shapeParts (x : List Byte) : List (Nat × Nat) := (shapeAddrs x).map (fun v => (v, shapeWidth (shapeFmt x)))
/-- The lines that lie wholly within a shape record's elements, as (address, bytes). -/
def shapeLines (x : List Byte) : List (Nat × Nat) :=
  (wholeLines ((shapeParts x).flatMap (fun p => (List.range p.2).map (p.1 + ·)))).map (fun l => (l * 256, 256))
/-- The span of scratch that some accesses of a hart claim (R213). -/
def claimed (u : State) (h : Hart) (as : List (Nat × Nat)) : Option (Nat × Nat) := spanOf (u.ctx (ctxOf u h)) as
/-- The indices of the accepted drafts. -/
def draftIndices (h : Hart) (b : BitVec 6) : List Nat := (List.range h.prog.vl).map (fun i => h.elem b.toNat h.prog.et.bytes i)
/-- What a KVCOMMIT of `n` drafts writes or discards. -/
def commitWrites (r : List Byte) (n : Nat) : List (Nat × Nat) := kvStores r n ++ kvDrops r n

section
variable (u : State) (h : Hart) (cn : BitVec 4) (r d : List Byte) (rp wp : List (Nat × Nat))

def copyIssue : EngOp := { EngOp.blank .xcopy cn with
  src := r, dst := d, srcPages := rp, dstPages := wp, span := claimed u h (shapeParts d) }
def fillIssue (b : BitVec 6) : EngOp := { EngOp.blank .xfill cn with
  dst := d, arg := h.rs b, dstPages := wp, span := claimed u h (shapeParts d) }
def commitIssue (a b : BitVec 6) : EngOp := { EngOp.blank .kvcommit cn with
  src := r, arg := h.rs a, idx := draftIndices h b, srcPages := rp, dstPages := wp
  span := claimed u h (kvReads r (draftIndices h b) ++ commitWrites r h.prog.vl) }

end

/-! ## The instructions up to their issue (R206, R244, R258, R324) -/

section
variable {s s1 s2 s3 s4 s5 : State} {a b : BitVec 6} {cn : BitVec 4} {r d : List Byte} {rp lp wp : List (Nat × Nat)}

/-- The context that an operation's span of scratch is taken in is that of the hart in focus. -/
theorem ctxM_focus {β : Type} {h : Hart} (hu : s.hart = h) (f : Nat × Ctx → M β) :
    (ctxM h.id >>= f) s = f (ctxOf s h, s.ctx (ctxOf s h)) s := by
  rw [M.ctxM_bind, ← hu, State.hartOf_self]
theorem drained_run (h : s.hart.queue = [] ∨ s.hart.frozen = true) : drained s = .ok () s := by
  unfold drained
  rcases h with h | h <;> simp [h]

theorem xcopyM_format {n : Nat} {own : Bool} (hc : s.hart.counter cn.toNat < Config.counterMax)
    (hr : recordAt (s.rs a) s = .ok r s1) (hd : recordAt (s.rs b) s1 = .ok d s2) (h : copyAmiss r d = some (n, own)) :
    xcopyM a b cn s =
      .error (.trap .format .read (BitVec.ofNat 64 ((if own then s.rs b else s.rs a).toNat ||| n))) s2 := by
  unfold xcopyM
  simp only [M.hart_bind, if_neg (Nat.not_le.2 hc)]
  refine (M.bind_ok hr).trans ((M.bind_ok hd).trans ?_)
  simp only [h]
  rfl
theorem xcopyM_run (hc : s.hart.counter cn.toNat < Config.counterMax)
    (hr : recordAt (s.rs a) s = .ok r s1) (hd : recordAt (s.rs b) s1 = .ok d s2) (h : copyAmiss r d = none)
    (hrp : pagesOf .read (shapeParts r) s2 = .ok rp s3)
    (hlp : if shapeLu r then pagesOf .write (shapeLines r) s3 = .ok lp s5 else s5 = s3)
    (hwp : pagesOf .write (shapeParts d) s5 = .ok wp s4) (hh : s4.hart = s.hart)
    (hroom : HasRoom s4 cn (claimed s4 s.hart (shapeParts d)).isSome) :
    ∃ t, xcopyM a b cn s = .ok () t ∧ Issued s.hart cn s4 t (copyIssue s4 s.hart cn r d rp wp) := by
  obtain ⟨t, hrun, hissued⟩ := issue_run (op := copyIssue s4 s.hart cn r d rp wp) hh hroom rfl nofun ⟨rfl, rfl, rfl⟩
  refine ⟨t, ?_, hissued⟩
  unfold xcopyM
  simp only [M.hart_bind, if_neg (Nat.not_le.2 hc)]
  refine (M.bind_ok hr).trans ((M.bind_ok hd).trans ?_)
  simp only [h]
  refine (M.bind_ok hrp).trans ?_
  cases hlu : shapeLu r with
  | false =>
    rw [hlu] at hlp
    obtain rfl : s5 = s3 := hlp
    exact (M.bind_ok hwp).trans ((ctxM_focus hh _).trans hrun)
  | true =>
    rw [hlu] at hlp
    exact (M.bind_ok hlp).trans ((M.bind_ok hwp).trans ((ctxM_focus hh _).trans hrun))
theorem xfillM_run (hc : s.hart.counter cn.toNat < Config.counterMax)
    (hd : recordAt (s.rs a) s = .ok d s1) (h : shapeAmiss true d = none) (hcount : shapeCount d ≤ 2 ^ 40)
    (hwp : pagesOf .write (shapeParts d) s1 = .ok wp s4) (hh : s4.hart = s.hart)
    (hroom : HasRoom s4 cn (claimed s4 s.hart (shapeParts d)).isSome) :
    ∃ t, xfillM a b cn s = .ok () t ∧ Issued s.hart cn s4 t (fillIssue s4 s.hart cn d wp b) := by
  obtain ⟨t, hrun, hissued⟩ := issue_run (op := fillIssue s4 s.hart cn d wp b) hh hroom rfl nofun ⟨rfl, rfl, rfl⟩
  refine ⟨t, ?_, hissued⟩
  unfold xfillM
  simp only [M.hart_bind, if_neg (Nat.not_le.2 hc)]
  refine (M.bind_ok hd).trans ?_
  simp only [h, if_neg (Nat.not_lt.2 hcount)]
  exact (M.bind_ok hwp).trans ((ctxM_focus hh _).trans hrun)
theorem kvcommitM_run (hc : s.hart.counter cn.toNat < Config.counterMax) (hr : recordAt (s.rs a) s = .ok r s1)
    (h1 : s1.hart = s.hart) (hq : s.hart.queue = [] ∨ s.hart.frozen = true)
    (hclean : ∀ i < s.hart.prog.vl, s.hart.elemBad b.toNat s.hart.prog.et.bytes i = false)
    (h : kvAmiss r (draftIndices s.hart b) = none) (hrp : pagesOf .read (kvReads r (draftIndices s.hart b)) s1 = .ok rp s3)
    (hwp : pagesOf .write (commitWrites r s.hart.prog.vl ++ [((s.rs a).toNat + 16, 4)]) s3 = .ok wp s4)
    (hh : s4.hart = s.hart)
    (hfar : lowestFar (fun va pa => !(paDevice pa) || (windowOf (s4.ctx (ctxOf s4 s.hart)) va).isSome) (rp ++ wp)
      (kvReads r (draftIndices s.hart b) ++ commitWrites r s.hart.prog.vl ++ [((s.rs a).toNat, 64)]) = none)
    (hroom : HasRoom s4 cn
      (claimed s4 s.hart (kvReads r (draftIndices s.hart b) ++ commitWrites r s.hart.prog.vl)).isSome) :
    ∃ t, kvcommitM a b cn s = .ok () t ∧ Issued s.hart cn s4 t (commitIssue s4 s.hart cn r rp wp a b) := by
  obtain ⟨t, hrun, hissued⟩ := issue_run (op := commitIssue s4 s.hart cn r rp wp a b) hh hroom rfl nofun ⟨rfl, rfl, rfl⟩
  have hpoison : (List.range s.hart.prog.vl).any (fun i => s.hart.elemBad b.toNat s.hart.prog.et.bytes i) = false :=
    List.any_eq_false.2 fun i hi => by rw [hclean i (List.mem_range.1 hi)]; exact Bool.false_ne_true
  refine ⟨t, ?_, hissued⟩
  unfold kvcommitM
  simp only [M.hart_bind, if_neg (Nat.not_le.2 hc)]
  refine (M.bind_ok hr).trans ((M.bind_ok (drained_run (h1 ▸ hq))).trans ?_)
  simp only [draftIndices, commitWrites, State.rs] at h hfar
  simp only [M.hart_bind, h1, h, List.length_map, List.length_range]
  refine (M.bind_ok hrp).trans ((M.bind_ok hwp).trans ((ctxM_focus hh _).trans ?_))
  simp only [hfar, hpoison]
  exact hrun

end

/-! ## O39 -/

/-- Settles O39: each instruction's checks pass one after another up to the issue it ends in. -/
theorem enginesIssue : Obligations.EnginesIssue := by
  intro s s1 s2 s3 s4 s5 a b c r d rp lp wp h parts issued hc
  refine ⟨fun hr hd => ⟨?copies, ?refuses⟩, ?fills, ?commits⟩
  case copies =>
    intro hamiss hrp hlp hwp hh span hroom
    obtain ⟨t, hrun, hissued⟩ := xcopyM_run hc hr hd hamiss hrp hlp hwp hh hroom
    exact ⟨t, scalar_ok hrun, hissued⟩
  case refuses => exact fun n own hamiss => scalar_trap (xcopyM_format hc hr hd hamiss)
  case fills =>
    intro hd hamiss hcount hwp hh span hroom
    obtain ⟨t, hrun, hissued⟩ := xfillM_run hc hd hamiss hcount hwp hh hroom
    exact ⟨t, scalar_ok hrun, hissued⟩
  case commits =>
    intro hpresent hr h1 hq hclean idx wr hamiss hrp hwp hh x span hfar hroom
    obtain ⟨t, hrun, hissued⟩ := kvcommitM_run hc hr h1 hq hclean hamiss hrp hwp hh hfar hroom
    exact ⟨t, (if_neg (by rw [hpresent]; exact Bool.false_ne_true)).trans (scalar_ok hrun), hissued⟩

end Sys2Proof.Machine
end

section
/-! What a hart's stores leave as they reach home with a release, or ahead of a strong store to the same bytes (R217, R218), and
what an acquire takes (R217, R231). -/

namespace Sys2Proof.Machine

/-! ## A byte of memory that stands (R13, R250) -/

theorem peek_backed {s : State} {q : Nat} (hq : devBacked q = true) :
    s.peek q = (mapGet none s.l2 q).getD (mapGet unwritten s.mem q) := by
  unfold State.peek
  rw [homeOf_backed hq]
  cases mapGet none s.l2 q <;> rfl
/-- No other memory than device memory stands behind its address. -/
theorem homeOf_ne_backed (s : State) {a q : Nat} (ha : paDevice a = false) (hq : devBacked q = true) : homeOf s a ≠ q := by
  obtain ⟨hlt, -, hd, -⟩ := backed_plain hq
  unfold homeOf
  split
  · unfold peerCell
    dsimp only
    omega
  · split
    · rintro rfl
      exact Bool.false_ne_true (ha.symm.trans hd)
    · simp only [ha, Bool.not_false, if_true, lowAddr]
      rintro rfl
      have h1 : bitsAt a 50 2 = bitsAt (a % 2 ^ 52) 50 2 := by
        simp only [bitsAt, Nat.shiftRight_eq_div_pow]
        omega
      simp only [paDevice, h1] at ha
      exact Bool.false_ne_true (ha.symm.trans hd)
theorem paBad_backed {s : State} {q : Nat} (hq : devBacked q = true) : paBad s q = s.poison.contains (q / 64) := by
  obtain ⟨-, -, -, hp⟩ := backed_plain hq
  simp only [paBad, hp, homeOf_backed hq, hq, Bool.false_eq_true, if_false, Bool.not_true, Bool.and_false, Bool.false_or,
    Bool.or_self]

/-- A store, wherever it goes, changes no other byte of memory that stands. -/
theorem homeStore1_peek_backed {author : Option Author} {ctx : Nat} {stamp : Option Nat} (s : State) (p : Nat × Byte) {q : Nat}
    (hq : devBacked q = true) : (homeStore1 author ctx stamp s p).peek q = if q = p.1 then p.2 else s.peek q := by
  by_cases he : q = p.1
  · exact homeStore1_peek s p (he ▸ hq) q (backed_plain hq).2.1
  · rw [if_neg he]
    unfold homeStore1
    split
    · simp only [peek_backed hq, dropRecord_l2, dropRecord_mem]
    · split
      · simp only [peek_backed hq, dropRecord_l2, dropRecord_mem]
        rfl
      · simp only [peek_backed hq]
        unfold State.poke
        split
        · exact congrArg (Option.getD · _) (mapGet_put_other none s.l2 (some p.2) he)
        · next hd =>
          have hne := homeOf_ne_backed s (by simpa using hd) hq
          exact congrArg (Option.getD _) (mapGet_put_other unwritten s.mem p.2 hne.symm)
theorem homeStoreAll_peek_backed {ctx : Nat} {stamp before : Option Nat} {s : State} (ps : List HStore) {q : Nat}
    (hq : devBacked q = true) : (homeStoreAll ctx stamp before s ps).peek q =
      byteLast (ps.map (fun p => (.phys p.a, p.b))) (.phys q) (s.peek q) := by
  induction ps generalizing s before with
  | nil => rfl
  | cons p ps ih =>
    refine (ih (before := some p.a)).trans ?_
    rw [List.map_cons, byteLast_cons]
    congr 1
    split
    · next hd =>
      have hne : p.a ≠ q := by
        rintro rfl
        obtain ⟨-, -, -, hp⟩ := backed_plain hq
        simp [sameDrop, drops, hq, hp] at hd
      rw [if_neg fun h => hne (Loc.phys.inj h)]
    · rw [homeStore1_peek_backed s (p.a, p.b) hq]
      simp only [Loc.phys.injEq, eq_comm]

/-- The last of several stores to a byte is the one that is left. -/
theorem byteLast_storedAt (ps : List (Nat × Byte)) (q : Nat) (b : Byte) :
    byteLast (ps.map (fun p => (.phys p.1, p.2))) (.phys q) b = (storedAt ps q).getD b := by
  induction ps generalizing b with
  | nil => rfl
  | cons p ps ih =>
    rw [List.map_cons, byteLast_cons, ih]
    unfold storedAt
    rw [List.reverse_cons, List.find?_append]
    cases ps.reverse.find? (fun p => p.1 == q) with
    | some x => rfl
    | none => by_cases hp : p.1 = q <;> simp [hp]
theorem storedAt_eq_none {ps : List (Nat × Byte)} {q : Nat} : storedAt ps q = none ↔ ∀ p ∈ ps, p.1 ≠ q := by
  unfold storedAt
  simp

/-! ## Stores of harts reach home (R40, R217, R218) -/

theorem homeStore_poison {ctx : Nat} {stamp : Option Nat} {s : State} {ps : List HStore} {g : Nat}
    (hg : g ∈ (homeStore ctx stamp s ps).poison) : g ∈ s.poison := by
  have h1 : ∀ (ps : List HStore) (s : State) (before : Option Nat), (homeStoreAll ctx stamp before s ps).poison = s.poison := by
    intro ps
    induction ps with
    | nil => exact fun _ _ => rfl
    | cons p ps ih =>
      intro s before
      refine (ih _ _).trans ?_
      split
      · rfl
      · unfold homeStore1 State.poke dropRecord
        split
        · split <;> rfl
        · split
          · split <;> rfl
          · split <;> rfl
  rw [← h1 ps s none]
  unfold homeStore at hg
  extract_lets s1 gs s2 s3 at hg
  have h2 : g ∈ s2.poison → g ∈ s1.poison := by
    simp only [s2]
    split
    · exact id
    · exact List.mem_of_mem_filter
  have h3 : g ∈ s3.poison → g ∈ s1.poison := fun h => h2 (by simpa only [s3, snoopQueues_poison] using h)
  split at hg
  · rw [dropLines_poison] at hg
    exact h3 hg
  · exact h3 hg

/-- From `s` to `t` stores of harts have reached home: beside memory and its caches that touches the harts, which keep their
numbers, the fault records, the functions, the contexts' history alone, and poison, which only goes. -/
structure BroughtHome (s t : State) : Prop where
  rest : t = { s with
    hart := t.hart, harts := t.harts, mem := t.mem, l2 := t.l2, fns := t.fns, ctxs := t.ctxs, poison := t.poison, frec := t.frec
    frecLost := t.frecLost, cores := t.cores, rdc := t.rdc, msix := t.msix }
  ctx : ∀ c, ∃ hist, t.ctx c = { s.ctx c with hist := hist }
  poison : ∀ g ∈ t.poison, g ∈ s.poison
  id : t.hart.id = s.hart.id

namespace BroughtHome

variable {s t u : State}

theorem refl (s : State) : BroughtHome s s := ⟨rfl, fun _ => ⟨_, rfl⟩, fun _ hg => hg, rfl⟩
theorem trans (h : BroughtHome s t) (g : BroughtHome t u) : BroughtHome s u := by
  refine ⟨?_, fun c => ?_, fun x hx => h.poison x (g.poison x hx), g.id.trans h.id⟩
  · rw [g.rest, h.rest]
  · obtain ⟨x, hx⟩ := h.ctx c
    obtain ⟨y, hy⟩ := g.ctx c
    exact ⟨y, by rw [hy, hx]⟩
theorem of_homed (h : Homed s t) (hp : ∀ g ∈ t.poison, g ∈ s.poison) : BroughtHome s t :=
  ⟨by rw [h.rest], h.ctx, hp, by rw [h.hart]⟩
/-- A hart under its own number, the focus or not. -/
theorem of_setHart (s : State) (x : Hart) : BroughtHome s (s.setHart x) := by
  unfold State.setHart
  split
  · next h => exact ⟨rfl, fun c => ⟨_, rfl⟩, fun _ hg => hg, h.symm⟩
  · exact ⟨rfl, fun c => ⟨_, rfl⟩, fun _ hg => hg, rfl⟩
theorem launches (h : BroughtHome s t) : t.launches = s.launches := by rw [h.rest]
theorem slots (h : BroughtHome s t) : t.slots = s.slots := by rw [h.rest]
theorem level (h : BroughtHome s t) (c : Nat) : (t.ctx c).level = (s.ctx c).level := by
  obtain ⟨x, hx⟩ := h.ctx c
  rw [hx]
theorem cut (h : BroughtHome s t) (c : Nat) : (t.ctx c).cut = (s.ctx c).cut := by
  obtain ⟨x, hx⟩ := h.ctx c
  rw [hx]
theorem windows (h : BroughtHome s t) (c : Nat) : (t.ctx c).windows = (s.ctx c).windows := by
  obtain ⟨x, hx⟩ := h.ctx c
  rw [hx]
theorem sound (h : BroughtHome s t) {a n : Nat} (hb : ∀ i < n, devBacked (a + i) = true) (hs : Sound s a n) : Sound t a n := by
  intro i hi
  have hs' := hs i hi
  rw [paBad_backed (hb i hi), List.contains_eq_mem, decide_eq_false_iff_not] at hs' ⊢
  exact fun hg => hs' (h.poison _ hg)

end BroughtHome

theorem homeStore_brought (ctx : Nat) (stamp : Option Nat) (s : State) (ps : List HStore) :
    BroughtHome s (homeStore ctx stamp s ps) := .of_homed (homeStore_homed ..) fun _ => homeStore_poison
theorem takeHome_brought (h n : Nat) (mine : Nat → Bool) (s : State) : BroughtHome s (takeHome h n mine s) := by
  unfold takeHome
  extract_lets x out
  split
  · exact (homeStore_brought ..).trans (.of_setHart ..)
  · exact .refl s
theorem kinHome_brought (kin : List (Nat × Nat)) (mine : Nat → Bool) (s : State) : BroughtHome s (kinHome kin mine s) := by
  induction kin with
  | nil => exact .refl s
  | cons k kin ih => exact ih.trans (takeHome_brought k.1 k.2 mine _)
theorem olderHome_brought (h n : Nat) (as : List Nat) (s : State) : BroughtHome s (olderHome h n as s) :=
  (kinHome_brought _ _ s).trans (takeHome_brought ..)
theorem bringHome_brought (s : State) (h : Nat) (ls : List Loc) : BroughtHome s (bringHome s h ls) := olderHome_brought ..

/-- What reaches home changes, of memory that stands, its own bytes alone. -/
theorem takeHome_peek_other {h n : Nat} {mine : Nat → Bool} {s : State} {q : Nat} (hq : devBacked q = true) (hm : mine q = false) :
    (takeHome h n mine s).peek q = s.peek q := by
  unfold takeHome
  extract_lets x out
  split
  · rw [peek_congr (State.setHart_fns ..) (State.setHart_l2 ..) (State.setHart_mem ..) (State.setHart_poison ..),
      homeStore_peek _ _ _ _ (backed_plain hq).2.1, homeStoreAll_peek_backed _ hq]
    refine byteLast_absent (fun z hz he => ?_) _
    obtain ⟨y, hy, rfl⟩ := List.mem_map.1 hz
    obtain ⟨p, hp, rfl⟩ := List.mem_map.1 hy
    obtain rfl : p.a = q := Loc.phys.inj he
    have hout := (List.mem_filter.1 hp).2
    simp only [out, Bool.and_eq_true] at hout
    exact Bool.false_ne_true (hm.symm.trans hout.1)
  · rfl
theorem kinHome_peek_other {kin : List (Nat × Nat)} {mine : Nat → Bool} {s : State} {q : Nat} (hq : devBacked q = true)
    (hm : mine q = false) : (kinHome kin mine s).peek q = s.peek q := by
  induction kin with
  | nil => rfl
  | cons k kin ih => exact (takeHome_peek_other (s := kinHome kin mine s) hq hm).trans ih

/-! ## A release (R217) -/

/-- The machine before a release's own stores reach home: those of the hart's ancestors to the same bytes have (R40). -/
def kinBefore (s : State) : State :=
  if s.hart.kin = [] then s else kinHome s.hart.kin (fun a => s.hart.sbuf.any (fun p => p.a == a)) s
/-- The machine once every pending store of the focus hart is at home. -/
def allHome (s : State) (n : Nat) : State :=
  homeStore (ctxOf s s.hart) (some n) (kinBefore s) (s.hart.sbuf.map (Pend.home s.hart.id))

theorem kinBefore_brought (s : State) : BroughtHome s (kinBefore s) := by
  unfold kinBefore
  split
  · exact .refl s
  · exact kinHome_brought ..
theorem allHome_brought (s : State) (n : Nat) : BroughtHome s (allHome s n) := (kinBefore_brought s).trans (homeStore_brought ..)
theorem allHome_peek (s : State) (n : Nat) {q : Nat} (hq : devBacked q = true) :
    (allHome s n).peek q = (storedAt (s.hart.sbuf.map (fun p => (p.a, p.b))) q).getD (s.peek q) := by
  have hk : storedAt (s.hart.sbuf.map (fun p => (p.a, p.b))) q = none → (kinBefore s).peek q = s.peek q := fun h => by
    unfold kinBefore
    split
    · rfl
    · refine kinHome_peek_other hq (List.any_eq_false.2 fun p hp => ?_)
      simpa using storedAt_eq_none.1 h (p.a, p.b) (List.mem_map_of_mem hp)
  rw [allHome, homeStore_peek _ _ _ _ (backed_plain hq).2.1, homeStoreAll_peek_backed _ hq]
  have hb := byteLast_storedAt (s.hart.sbuf.map (fun p => (p.a, p.b))) q ((kinBefore s).peek q)
  rw [List.map_map] at hb ⊢
  refine Eq.trans ?_ (hb.trans ?_)
  · rfl
  · cases h : storedAt (s.hart.sbuf.map (fun p => (p.a, p.b))) q with
    | some b => rfl
    | none => exact hk h

/-- What a release leaves: its stores at home, and the hart with none pending. -/
theorem releaseCut_focus (s : State) (n : Nat) : ∃ hist tabs,
    releaseCut s s.hart.id n = ((allHome s n).setCtx (ctxOf s s.hart) { s.ctx (ctxOf s s.hart) with
      cut := max (s.ctx (ctxOf s s.hart)).cut n, hist := hist, tabs := tabs }).withHart
        { s.hart with sbuf := [], rels := (s.ctx (ctxOf s s.hart)).windows.map (·.gen) } := by
  have hb := allHome_brought s n
  obtain ⟨hist, hctx⟩ := hb.ctx (ctxOf s s.hart)
  have hfilter : s.hart.sbuf.filter (fun _ => true) = s.hart.sbuf := List.filter_true _
  have hnone : s.hart.sbuf.filter (fun _ => !true) = [] := List.filter_false _
  unfold releaseCut releasePart
  simp only [State.hartOf_focus, hfilter, hnone]
  rw [show homeStore (ctxOf s s.hart) (some n) (if s.hart.kin = [] then s else kinHome s.hart.kin
    (fun a => s.hart.sbuf.any (fun p => p.a == a)) s) (s.hart.sbuf.map (Pend.home s.hart.id)) = allHome s n from rfl, hctx]
  exact ⟨_, _, State.setHart_focus _ _ hb.id.symm⟩

end Sys2Proof.Machine
end

section
/-! Finding the places of an access changes nothing of the hart in focus (R243, R245, R251). -/

namespace Sys2Proof.Machine

variable {α β : Type}

/-- Where the action ends normally, the hart in focus is still `x`. -/
structure StaysOn (x : Hart) (m : M α) : Prop where
  ok : ∀ {s t : State} {a : α}, s.hart = x → m s = .ok a t → t.hart = x

namespace StaysOn

variable {x : Hart}

theorem pure {a : α} : StaysOn x (Pure.pure a) := ⟨fun h e => by cases e; exact h⟩
/-- An action that never ends normally. -/
theorem of_error {m : M α} (h : ∀ s, ∃ e t, m s = .error e t) : StaysOn x m := ⟨fun {s _ _} _ he => by
  obtain ⟨e, t, hm⟩ := h s
  rw [hm] at he
  cases he⟩
theorem throw {e : Stop} : StaysOn x (MonadExcept.throw e : M α) := .of_error fun _ => ⟨_, _, rfl⟩
theorem trap {c : Cause} {k : Kind} {v : Word} : StaysOn x (Machine.trap c k v : M α) := .throw
theorem hold : StaysOn x (Machine.hold : M α) := .throw
theorem set {t : State} (h : t.hart = x) : StaysOn x (MonadStateOf.set t : M PUnit) := ⟨fun _ e => by cases e; exact h⟩
theorem bind {m : M α} {f : α → M β} (hm : StaysOn x m) (hf : ∀ a, StaysOn x (f a)) : StaysOn x (m >>= f) := by
  refine ⟨fun {s t b} hs he => ?_⟩
  cases h : m s with
  | ok a u =>
    rw [M.bind_ok h] at he
    exact (hf a).ok (hm.ok hs h) he
  | error e u =>
    rw [M.bind_error h] at he
    cases he
theorem getBind {f : State → M β} (h : ∀ s, s.hart = x → StaysOn x (f s)) : StaysOn x ((MonadState.get : M State) >>= f) :=
  ⟨fun {s _ _} hs he => (h s hs).ok hs he⟩
theorem hartNo {h : Nat} : StaysOn x (Machine.hartNo h) := .getBind fun _ _ => .pure
theorem ctxM {h : Nat} : StaysOn x (Machine.ctxM h) := .getBind fun _ _ => .pure
theorem modCtx {c : Nat} {f : Ctx → Ctx} : StaysOn x (Machine.modCtx c f) := ⟨fun hs he => by cases he; exact hs⟩
theorem ite {p : Prop} [Decidable p] {m n : M α} (hm : StaysOn x m) (hn : StaysOn x n) : StaysOn x (if p then m else n) := by
  split
  · exact hm
  · exact hn
/-- A conditional action before what follows either way. -/
theorem guard {p : Prop} [Decidable p] {m : M PUnit} {f : PUnit → M α} (hm : StaysOn x m) (hf : StaysOn x (f ⟨⟩)) :
    StaysOn x (if p then m >>= f else f ⟨⟩) := .ite (.bind hm fun _ => hf) hf

end StaysOn

variable {x : Hart}

theorem stage2Cache_hart (s : State) (f : Nat) (es : List TlbEntry) : (stage2Cache s f es).hart = s.hart :=
  (stage2Cache_homed s f es).hart
theorem stage2M_stays {h c gpa : Nat} {k : Kind} {walk : Bool} {gva : Nat} {ka : Kind} :
    StaysOn x (stage2M h c gpa k walk gva ka) := by
  unfold stage2M
  refine .getBind fun s h0 => ?_
  extract_lets f asked
  clear_value asked
  split
  · exact .bind (.set h0) fun _ => .ite .trap .pure
  · split
    · exact .guard (.set ((stage2Cache_hart ..).trans h0)) .pure
    · split
      · exact .throw
      · exact .of_error fun _ => ⟨_, _, rfl⟩
theorem walkM_stays {h c va rep : Nat} {k : Kind} {l : List Nat} {t : Nat} : StaysOn x (walkM h c va rep k l t) := by
  induction l generalizing t with
  | nil => exact .trap
  | cons lvl ls ih =>
    unfold walkM
    refine .getBind fun _ _ => ?_
    split
    · exact .ite ih .pure
    · refine .bind stage2M_stays fun _ => ?_
      split
      · exact .trap
      · exact .getBind fun _ h1 => .guard .trap <| .guard .trap <|
          .ite (.of_error fun _ => ⟨_, _, rfl⟩) <| .bind .modCtx fun _ => .ite ih .pure
theorem translateM_stays {h c va rep : Nat} {k : Kind} {fuel : Nat} : StaysOn x (translateM h c va rep k fuel) := by
  induction fuel with
  | zero => exact .trap
  | succ n ih =>
    unfold translateM
    exact .guard .trap <| .bind (.getBind fun _ _ => walkM_stays) fun _ => .guard .throw <|
      .guard .trap <| .ite .pure <|
      .getBind fun _ h0 => .ite (.bind (.set ((homeStore_homed ..).hart.trans h0)) fun _ => .bind .modCtx fun _ => .pure) <|
        .bind .modCtx fun _ => ih
theorem locateGpa_stays {h va rep : Nat} {k : Kind} {strong : Bool} : StaysOn x (locateGpa h va rep k strong) := by
  unfold locateGpa
  refine .bind .ctxM fun _ => ?_
  split
  split
  · exact .ite .trap .pure
  · refine .getBind fun _ _ => .bind .hartNo fun _ => .bind translateM_stays fun _ => .bind .ctxM fun _ => ?_
    split
    refine .bind .hartNo fun _ => ?_
    split
    · exact .pure
    · exact .guard .trap <| .getBind fun _ _ => .guard .hold .pure
theorem locate_stays {h va rep : Nat} {k : Kind} {strong : Bool} : StaysOn x (locate h va rep k strong) := by
  unfold locate
  refine .bind locateGpa_stays fun _ => ?_
  split
  · refine .bind .ctxM fun _ => ?_
    split
    refine .bind stage2M_stays fun _ => ?_
    split
    · exact .pure
    · exact .pure
  · exact .pure
theorem locateN_stays {h va n : Nat} {k : Kind} {strong : Bool} : StaysOn x (locateN h va n k strong) := by
  unfold locateN
  refine .bind locate_stays fun _ => ?_
  split
  · exact .guard .trap .pure
  · exact .ite .pure (.bind locate_stays fun _ => .pure)
/-- The places of an access are found without a change to the hart. -/
theorem locateN_hart {s t : State} {h va n : Nat} {k : Kind} {strong : Bool} {r : List Loc × List (Nat × Nat)}
    (hl : locateN h va n k strong s = .ok r t) : t.hart = s.hart := locateN_stays.ok rfl hl

end Sys2Proof.Machine
end

section
/-! Stores that go home ahead of a strong store to the same bytes (R40, R218): under harts that stand under their own numbers they
go once. -/

namespace Sys2Proof.Machine

/-- What of a hart stays not yet home when its stores below `n` to the addresses `mine` go. -/
def keptBack (n : Nat) (mine : Nat → Bool) (ps : List Pend) : List Pend := ps.filter (fun p => !(mine p.a && decide (p.n < n)))
theorem keptBack_same {n : Nat} {mine : Nat → Bool} {ps : List Pend} (h : ps.any (fun p => mine p.a && decide (p.n < n)) = false) :
    keptBack n mine ps = ps :=
  List.filter_eq_self.2 fun p hp => by simpa [Decidable.imp_iff_not_or] using List.any_eq_false.1 h p hp
theorem keptBack_none_due (n : Nat) (mine : Nat → Bool) (ps : List Pend) :
    (keptBack n mine ps).any (fun p => mine p.a && decide (p.n < n)) = false :=
  List.any_eq_false.2 fun _ hp he => by simpa [he] using (List.mem_filter.1 hp).2

/-- A hart with stores not yet home stands under its number. -/
def Stood (s : State) (h : Nat) : Prop := (s.hartOf h).id = h ∨ (s.hartOf h).sbuf = []

theorem takeHome_none {h n : Nat} {mine : Nat → Bool} {s : State}
    (hd : (s.hartOf h).sbuf.any (fun p => mine p.a && decide (p.n < n)) = false) : takeHome h n mine s = s := by
  unfold takeHome
  exact if_neg (by rw [hd]; exact Bool.false_ne_true)
theorem homeStore_hartOf (ctx : Nat) (stamp : Option Nat) (s : State) (ps : List HStore) (j : Nat) :
    (homeStore ctx stamp s ps).hartOf j = s.hartOf j := by
  simp only [State.hartOf, (homeStore_homed ctx stamp s ps).hart, (homeStore_homed ctx stamp s ps).harts]
theorem takeHome_hartOf {h : Nat} (n : Nat) (mine : Nat → Bool) {s : State} (hs : Stood s h) (j : Nat) :
    (takeHome h n mine s).hartOf j =
      if j = h then { s.hartOf h with sbuf := keptBack n mine (s.hartOf h).sbuf } else s.hartOf j := by
  by_cases hd : (s.hartOf h).sbuf.any (fun p => mine p.a && decide (p.n < n)) = true
  · have hid : (s.hartOf h).id = h := hs.resolve_right fun he => by simp [he] at hd
    unfold takeHome
    rw [if_pos hd, State.setHart_hartOf, homeStore_hartOf]
    simp only [hid]
    rfl
  · rw [takeHome_none (by simpa using hd), keptBack_same (by simpa using hd)]
    split
    · next he => rw [he]
    · rfl

/-- From `s` to `t` the harts are the same but for stores that have gone home. -/
structure FewerStores (s t : State) : Prop where
  harts : ∀ j, t.hartOf j = { s.hartOf j with sbuf := (t.hartOf j).sbuf }
  stores : ∀ j, ∀ p ∈ (t.hartOf j).sbuf, p ∈ (s.hartOf j).sbuf

namespace FewerStores

variable {s t u : State}

theorem refl (s : State) : FewerStores s s := ⟨fun _ => rfl, fun _ _ hp => hp⟩
theorem trans (h : FewerStores s t) (g : FewerStores t u) : FewerStores s u :=
  ⟨fun j => by rw [g.harts, h.harts], fun j p hp => h.stores j p (g.stores j p hp)⟩
theorem stood (h : FewerStores s t) {j : Nat} (hs : Stood s j) : Stood t j := by
  refine hs.imp (fun hid => ?_) fun he => ?_
  · rw [h.harts]
    exact hid
  · refine List.eq_nil_iff_forall_not_mem.2 fun p hp => ?_
    have := h.stores j p hp
    rw [he] at this
    cases this
theorem none_due (h : FewerStores s t) {j : Nat} {due : Pend → Bool} (hd : (s.hartOf j).sbuf.any due = false) :
    (t.hartOf j).sbuf.any due = false :=
  List.any_eq_false.2 fun p hp => List.any_eq_false.1 hd p (h.stores j p hp)

end FewerStores

theorem takeHome_fewer {h : Nat} (n : Nat) (mine : Nat → Bool) {s : State} (hs : Stood s h) :
    FewerStores s (takeHome h n mine s) := by
  have hh := takeHome_hartOf n mine hs
  refine ⟨fun j => ?_, fun j p hp => ?_⟩
  · rw [hh]
    split
    · next he => rw [he]
    · rfl
  · rw [hh] at hp
    split at hp
    · next he =>
      rw [he]
      exact List.mem_of_mem_filter hp
    · exact hp
/-- After what a hart's ancestors stored has gone home none of it is due any more. -/
theorem kinHome_fewer (kin : List (Nat × Nat)) (mine : Nat → Bool) {s : State} (hs : ∀ k ∈ kin, Stood s k.1) :
    FewerStores s (kinHome kin mine s) ∧ ∀ k ∈ kin,
      ((kinHome kin mine s).hartOf k.1).sbuf.any (fun p => mine p.a && decide (p.n < k.2)) = false := by
  induction kin with
  | nil => exact ⟨.refl s, nofun⟩
  | cons k kin ih =>
    obtain ⟨hk, hkin⟩ := List.forall_mem_cons.1 hs
    obtain ⟨hf, hd⟩ := ih hkin
    have htake := takeHome_fewer k.2 mine (hf.stood hk)
    refine ⟨hf.trans htake, List.forall_mem_cons.2 ⟨?_, fun k' hk' => htake.none_due (hd k' hk')⟩⟩
    show ((takeHome k.1 k.2 mine (kinHome kin mine s)).hartOf k.1).sbuf.any _ = false
    rw [takeHome_hartOf k.2 mine (hf.stood hk), if_pos rfl]
    exact keptBack_none_due ..
theorem kinHome_none {kin : List (Nat × Nat)} {mine : Nat → Bool} {s : State}
    (hd : ∀ k ∈ kin, (s.hartOf k.1).sbuf.any (fun p => mine p.a && decide (p.n < k.2)) = false) : kinHome kin mine s = s := by
  induction kin with
  | nil => rfl
  | cons k kin ih =>
    obtain ⟨hk, hkin⟩ := List.forall_mem_cons.1 hd
    have hrest : kinHome kin mine s = s := ih hkin
    show takeHome k.1 k.2 mine (kinHome kin mine s) = s
    rw [hrest, takeHome_none hk]

/-- Every ancestor of the focus hart that has stores not yet home stands under its number. -/
def KinStood (s : State) : Prop := ∀ k ∈ s.hart.kin, Stood s k.1

theorem FewerStores.focus {s t : State} (h : FewerStores s t) (hid : t.hart.id = s.hart.id) :
    t.hart = { s.hart with sbuf := t.hart.sbuf } := by
  have hj := h.harts s.hart.id
  rwa [State.hartOf_focus, ← hid, State.hartOf_focus] at hj
theorem FewerStores.kinStood {s t : State} (h : FewerStores s t) (hid : t.hart.id = s.hart.id) (hk : KinStood s) : KinStood t := by
  intro k hm
  rw [h.focus hid] at hm
  exact h.stood (hk k hm)

/-- What a strong store sends home before it has gone, and its sending home again does nothing. -/
theorem bringHome_fewer {s : State} (hk : KinStood s) (ls : List Loc) : FewerStores s (bringHome s s.hart.id ls) ∧
    bringHome (bringHome s s.hart.id ls) s.hart.id ls = bringHome s s.hart.id ls := by
  have hid := (bringHome_brought s s.hart.id ls).id
  obtain ⟨hf, hd⟩ := kinHome_fewer s.hart.kin (lineAddrs ls).contains hk
  have hfocus : Stood (kinHome s.hart.kin (lineAddrs ls).contains s) s.hart.id := hf.stood (.inl (by rw [State.hartOf_focus]))
  have htake := takeHome_fewer s.hart.stores (lineAddrs ls).contains hfocus
  have hown := takeHome_hartOf s.hart.stores (lineAddrs ls).contains hfocus s.hart.id
  have hdef : bringHome s s.hart.id ls = takeHome s.hart.id s.hart.stores (lineAddrs ls).contains
      (kinHome s.hart.kin (lineAddrs ls).contains s) := by
    unfold bringHome olderHome
    rw [State.hartOf_focus]
  rw [← hdef] at htake hown
  generalize bringHome s s.hart.id ls = t at *
  have hall := hf.trans htake
  refine ⟨hall, ?_⟩
  have hkin := hall.focus hid
  unfold bringHome olderHome
  rw [← hid, State.hartOf_focus, show t.hart.kin = s.hart.kin by rw [hkin], show t.hart.stores = s.hart.stores by rw [hkin],
    kinHome_none fun k hm => htake.none_due (hd k hm), hid, takeHome_none]
  rw [hown, if_pos rfl]
  exact keptBack_none_due ..

/-- A release leaves every hart but the focus with no more than fewer stores. -/
theorem releaseCut_kinStood {s : State} (hk : KinStood s) (n : Nat) : KinStood (releaseCut s s.hart.id n) := by
  have hkin : FewerStores s (kinBefore s) := by
    unfold kinBefore
    split
    · exact .refl s
    · exact (kinHome_fewer _ _ hk).1
  obtain ⟨hist, tabs, he⟩ := releaseCut_focus s n
  rw [he]
  intro k hm
  have hstood : Stood (allHome s n) k.1 := by
    have := hkin.stood (hk k hm)
    unfold Stood at this ⊢
    simp only [allHome, homeStore_hartOf]
    exact this
  unfold Stood State.hartOf at hstood ⊢
  have hid := (allHome_brought s n).id
  by_cases hf : s.hart.id = k.1
  · exact .inl (by rw [if_pos (by exact hf)]; exact hf)
  · rw [if_neg (by rw [hid]; exact hf)] at hstood
    rw [if_neg (by exact hf)]
    exact hstood

end Sys2Proof.Machine
end

section
/-! AMO and WAITVAL on memory at home (R228, R347, R445), under no order log. -/

namespace Sys2Proof.Machine

variable {β : Type}

/-- A conditional step, by what it leaves. -/
theorem M.when_ok {p : Prop} [Decidable p] {m : M PUnit} {f : PUnit → M β} {s t : State} (hp : p → m s = .ok ⟨⟩ t)
    (hn : ¬ p → t = s) : (if p then m >>= f else f ⟨⟩) s = f ⟨⟩ t := by
  split
  · next h => exact M.bind_ok (hp h)
  · next h => rw [hn h]

/-! ## What strong accesses share (R218, R223 to R225, R302) -/

theorem Unlogged.of_same {s t : State} (h : Unlogged s) (hx : t.hart.launch = s.hart.launch) (hl : t.launches = s.launches)
    (hc : ∀ c, (t.ctx c).level = (s.ctx c).level) : Unlogged t := by
  have hctx : ctxOf t t.hart = ctxOf s s.hart := by simp only [ctxOf, State.launch, hx, hl]
  unfold Unlogged
  rw [hctx, hc]
  exact h
theorem objectBegin_unlogged {s : State} (h : Unlogged s) (ty va aux mask : Nat) (scr : Bool) :
    objectBegin s.hart.id ty va aux mask scr s = .ok none s := by
  unfold objectBegin
  cases scr with
  | true => rfl
  | false =>
    rw [if_neg Bool.false_ne_true]
    exact M.bind_ok (logCheckIn_unlogged h ty va _ aux mask)
theorem objectEnd_unlogged {s : State} (h : Unlogged s) (ty va aux : Nat) (v : Word) (scr : Bool) (r : Option (Nat × Nat)) :
    objectEnd s.hart.id ty va aux v scr r s = .ok () s := by
  unfold objectEnd
  cases scr with
  | true => rfl
  | false => simp only [Bool.false_eq_true, if_false, M.ctxM_bind, State.hartOf_self, not_strict_of_unlogged h, M.pure_run]
theorem strongRead_sound {s : State} {pa n : Nat} (h : Sound s pa n) : strongRead s.hart.id (places pa n) s =
    .ok ((places pa n).map (locByteHome s s.hart), none) s := by
  have hs : ∀ l ∈ places pa n, LocSound s l := fun l hl => by
    obtain ⟨i, hi, rfl⟩ := List.mem_map.1 hl
    exact h i (List.mem_range.1 hi)
  unfold strongRead
  simp only [M.get_bind, State.hartOf_self, M.bind_ok (reportM_sound hs), places_sound h, M.pure_run]
theorem drained_free {s : State} (h : s.hart.queue = [] ∨ s.hart.frozen = true) : drained s = .ok () s := by
  unfold drained
  rw [M.hart_bind, if_neg]
  · rfl
  · rcases h with h | h <;> simp [h]
theorem spanFree_places (s : State) (pa n : Nat) : SpanFree s (places pa n) := by
  unfold SpanFree scratchHeld
  rw [Bool.and_eq_false_iff]
  refine .inr (List.any_eq_false.2 fun l hl => ?_)
  obtain ⟨i, -, rfl⟩ := List.mem_map.1 hl
  exact Bool.false_ne_true
theorem inScratch_places (pa n : Nat) : inScratch (places pa n) = false := by
  unfold inScratch places
  cases n with
  | zero => rfl
  | succ n =>
    rw [List.range_succ_eq_map]
    rfl

/-- An acquire of the focus hart takes the next cut, and the windows as they stand. -/
theorem acquireCut_focus (s : State) (n : Nat) : acquireCut s s.hart.id n =
    (s.setCtx (ctxOf s s.hart) { s.ctx (ctxOf s s.hart) with cut := max (s.ctx (ctxOf s s.hart)).cut n }).withHart
      { s.hart with lastAcq := n, views := (s.ctx (ctxOf s s.hart)).windows.map (·.gen) } := by
  unfold acquireCut
  rw [State.hartOf_focus]
  exact State.setHart_focus _ _ rfl
theorem cut_le_nextCut (s : State) : (s.ctx (ctxOf s s.hart)).cut ≤ nextCut s s.hart.id := by
  unfold nextCut
  dsimp only
  rw [State.hartOf_focus]
  split
  · exact Nat.le_refl _
  · exact Nat.le_succ _
/-- The cut an acquire has taken is its context's latest. -/
theorem acquireAt_lastAcq (s : State) : (acquireAt s s.hart.id).hart.lastAcq =
    ((acquireAt s s.hart.id).ctx (ctxOf (acquireAt s s.hart.id) (acquireAt s s.hart.id).hart)).cut := by
  unfold acquireAt
  rw [acquireCut_focus]
  show nextCut s s.hart.id = ((s.setCtx (ctxOf s s.hart) _).ctx (ctxOf s s.hart)).cut
  rw [State.setCtx_ctx_self]
  exact (Nat.max_eq_right (cut_le_nextCut s)).symm

/-- A release of the focus hart leaves what else strong accesses look at. -/
theorem releaseAt_keeps (s : State) : let t := releaseAt s s.hart.id
    t.hart = { s.hart with sbuf := [], rels := t.hart.rels } ∧ t.launches = s.launches ∧
    ∀ c, (t.ctx c).level = (s.ctx c).level := by
  intro t
  have hb := allHome_brought s (nextCut s s.hart.id)
  obtain ⟨hist, tabs, he⟩ := releaseCut_focus s (nextCut s s.hart.id)
  have ht : t = _ := he
  rw [ht]
  refine ⟨rfl, hb.launches, fun c => ?_⟩
  rw [State.withHart_ctx_same, State.setCtx_ctx]
  split
  · next h => rw [h]
  · exact hb.level c
theorem releaseAt_sound {s : State} {a n : Nat} (hb : ∀ i < n, devBacked (a + i) = true) (hs : Sound s a n) :
    Sound (releaseAt s s.hart.id) a n := by
  obtain ⟨hist, tabs, he⟩ := releaseCut_focus s (nextCut s s.hart.id)
  intro i hi
  have h1 := (allHome_brought s (nextCut s s.hart.id)).sound hb hs i hi
  rw [paBad_backed (hb i hi)] at h1 ⊢
  unfold releaseAt
  rw [he]
  exact h1

/-! ## A strong store to memory that stands (R218, R223) -/

theorem storesOf_bytes (h n : Nat) (vec : Bool) (ps : List (Nat × Byte)) :
    (storesOf h n vec ps).map (fun p => (Loc.phys p.a, p.b)) = ps.map (fun p => (.phys p.1, p.2)) := by
  induction ps generalizing n with
  | nil => rfl
  | cons p ps ih => exact congrArg ((Loc.phys p.1, p.2) :: ·) (ih (n + 1))
theorem byteLast_withAddr (a : Nat) (bs : List Byte) (q : Nat) (b : Byte) :
    byteLast ((withAddr a bs).map (fun p => (.phys p.1, p.2))) (.phys q) b = byteAfter a bs q b := by
  induction bs generalizing a b with
  | nil => simp [withAddr, byteLast, byteAfter]
  | cons x bs ih =>
    rw [withAddr_cons, List.map_cons, byteLast_cons, ih, byteAfter_cons]
    simp only [Loc.phys.injEq, eq_comm]
theorem mem_storesOf {h n : Nat} {vec : Bool} {ps : List (Nat × Byte)} {x : HStore} (hx : x ∈ storesOf h n vec ps) :
    ∃ p ∈ ps, x.a = p.1 := by
  induction ps generalizing n with
  | nil => cases hx
  | cons p ps ih =>
    rcases List.mem_cons.1 hx with rfl | hx
    · exact ⟨p, List.mem_cons_self .., rfl⟩
    · obtain ⟨p', hp', he⟩ := ih hx
      exact ⟨p', List.mem_cons_of_mem _ hp', he⟩
theorem mem_withAddr {a : Nat} {bs : List Byte} {p : Nat × Byte} (hp : p ∈ withAddr a bs) : ∃ i < bs.length, p.1 = a + i := by
  unfold withAddr at hp
  obtain ⟨i, hi, rfl⟩ := List.mem_mapIdx.1 hp
  exact ⟨i, hi, rfl⟩

theorem homeStore_storesOf_peek (ctx : Nat) (stamp : Option Nat) (s : State) (h n : Nat) (vec : Bool) {pa : Nat} {bs : List Byte}
    (hb : ∀ i < bs.length, devBacked (pa + i) = true) (q : Nat) (hq : fnAddr q = 0) :
    (homeStore ctx stamp s (storesOf h n vec (withAddr pa bs))).peek q = byteAfter pa bs q (s.peek q) := by
  have hback : ∀ p ∈ storesOf h n vec (withAddr pa bs), devBacked p.a = true := fun p hp => by
    obtain ⟨x, hx, he⟩ := mem_storesOf hp
    obtain ⟨i, hi, hi'⟩ := mem_withAddr hx
    rw [he, hi']
    exact hb i hi
  rw [homeStore_peek _ _ _ _ hq, (homeStoreAll_backed hback).2 q hq, storesOf_bytes, byteLast_withAddr]

/-- The focus hart has stored bytes at home, one store unit, and none older to them is pending. -/
def strongStored (s : State) (va : Nat) (vec : Bool) (pa : Nat) (bs : List Byte) : State :=
  let c := ctxOf s s.hart
  let u := homeStore c (some (s.ctx c).cut) s (storesOf s.hart.id s.hart.stores vec (withAddr pa bs))
  let v := u.withHart { s.hart with stores := s.hart.stores + bs.length }
  v.withHart (foldedHart v va bs)

theorem strongWrite_places {s : State} {pa : Nat} {bs : List Byte} (va : Nat) (vec : Bool) (hs : Sound s pa bs.length)
    (hhome : bringHome s s.hart.id (places pa bs.length) = s) :
    strongWrite s.hart.id va vec (places pa bs.length) bs s = .ok () (strongStored s va vec pa bs) := by
  have hsound : ∀ l ∈ places pa bs.length, LocSound s l := fun l hl => by
    obtain ⟨i, hi, rfl⟩ := List.mem_map.1 hl
    exact hs i (List.mem_range.1 hi)
  unfold strongWrite
  simp only [M.get_bind, State.hartOf_self, inScratch_places, Bool.false_eq_true, if_false, M.bind_ok (reportM_sound hsound),
    M.modify_bind, dropDead_places, hhome, physPairs_places]
  have hhart := (homeStore_homed (ctxOf s s.hart) (some (s.ctx (ctxOf s s.hart)).cut) s
    (storesOf s.hart.id s.hart.stores vec (withAddr pa bs))).hart
  unfold strongStored
  dsimp only
  generalize homeStore (ctxOf s s.hart) (some (s.ctx (ctxOf s s.hart)).cut) s
    (storesOf s.hart.id s.hart.stores vec (withAddr pa bs)) = u at *
  rw [← hhart]
  rw [M.bind_ok (modHartNo_focus rfl (fun x => { x with stores := x.stores + bs.length }) rfl)]
  exact foldM_run (u.withHart { u.hart with stores := u.hart.stores + bs.length }) va bs
theorem strongStored_leaves {s : State} {pa : Nat} {bs : List Byte} (va : Nat) (vec : Bool)
    (hb : ∀ i < bs.length, devBacked (pa + i) = true) : let t := strongStored s va vec pa bs
    t.hart = { s.hart with stores := s.hart.stores + bs.length, digest := t.hart.digest } ∧
    (∀ q, fnAddr q = 0 → t.peek q = byteAfter pa bs q (s.peek q)) ∧ t.launches = s.launches ∧
    ∀ c, (t.ctx c).level = (s.ctx c).level := by
  have hhomed := homeStore_homed (ctxOf s s.hart) (some (s.ctx (ctxOf s s.hart)).cut) s
    (storesOf s.hart.id s.hart.stores vec (withAddr pa bs))
  have hpeek := homeStore_storesOf_peek (ctxOf s s.hart) (some (s.ctx (ctxOf s s.hart)).cut) s s.hart.id s.hart.stores vec hb
  unfold strongStored
  dsimp only
  generalize homeStore (ctxOf s s.hart) (some (s.ctx (ctxOf s s.hart)).cut) s
    (storesOf s.hart.id s.hart.stores vec (withAddr pa bs)) = u at *
  obtain ⟨dg, hdg⟩ := foldedHart_eq (u.withHart { s.hart with stores := s.hart.stores + bs.length }) va bs
  rw [hdg]
  exact ⟨rfl, fun q hq => (peek_congr rfl rfl rfl rfl q).trans (hpeek q hq), hhomed.launches, hhomed.level⟩

/-! ## AMO (R228, R347) -/

/-- The state in which an AMO combines: released, if it releases, with no older store of the hart to its bytes pending. -/
def amoBefore (s : State) (r : BitVec 1) (pa n : Nat) : State :=
  let s2 := if r = 1 then releaseAt s s.hart.id else s
  bringHome s2 s.hart.id (places pa n)

theorem released_keeps (s : State) (r : BitVec 1) : let t := if r = 1 then releaseAt s s.hart.id else s
    (∃ b rels, t.hart = { s.hart with sbuf := b, rels := rels }) ∧ t.launches = s.launches ∧
    ∀ c, (t.ctx c).level = (s.ctx c).level := by
  split
  · obtain ⟨hh, hl, hc⟩ := releaseAt_keeps s
    exact ⟨⟨[], _, hh⟩, hl, hc⟩
  · exact ⟨⟨_, _, rfl⟩, rfl, fun _ => rfl⟩

/-- What an atomic step finds: the hart's registers as they were, its places sound, and no older store to go home. -/
structure AtHome (s t : State) (pa n : Nat) : Prop where
  hart : ∃ b rels, t.hart = { s.hart with sbuf := b, rels := rels }
  launches : t.launches = s.launches
  level : ∀ c, (t.ctx c).level = (s.ctx c).level
  sound : Sound t pa n
  home : bringHome t t.hart.id (places pa n) = t

theorem amoBefore_atHome {s : State} {pa n : Nat} (r : BitVec 1) (hs : Sound s pa n) (hb : ∀ i < n, devBacked (pa + i) = true)
    (hk : KinStood s) : AtHome s (amoBefore s r pa n) pa n := by
  obtain ⟨⟨b, rels, hh⟩, hl, hc⟩ := released_keeps s r
  have hk2 : KinStood (if r = 1 then releaseAt s s.hart.id else s) := by
    split
    · exact releaseCut_kinStood hk _
    · exact hk
  have hs2 : Sound (if r = 1 then releaseAt s s.hart.id else s) pa n := by
    split
    · exact releaseAt_sound hb hs
    · exact hs
  unfold amoBefore
  generalize (if r = 1 then releaseAt s s.hart.id else s) = s2 at *
  have hid : s2.hart.id = s.hart.id := by rw [hh]
  dsimp only
  rw [← hid]
  have hbr := bringHome_brought s2 s2.hart.id (places pa n)
  obtain ⟨hf, hidem⟩ := bringHome_fewer hk2 (places pa n)
  refine ⟨⟨(bringHome s2 s2.hart.id (places pa n)).hart.sbuf, rels, ?_⟩, hbr.launches.trans hl,
    fun c => (hbr.level c).trans (hc c), hbr.sound hb hs2, by rw [hbr.id, hidem]⟩
  rw [hf.focus hbr.id, hh]

theorem AtHome.unlogged {s t : State} {pa n : Nat} (h : AtHome s t pa n) (hu : Unlogged s) : Unlogged t := by
  obtain ⟨b, rels, hh⟩ := h.hart
  exact hu.of_same (by rw [hh]) h.launches h.level

theorem amoStep_home {s : State} {pa : Nat} (va op w opd cmp : Nat) (hu : Unlogged s)
    (hs : Sound s pa w) (hb : ∀ i < w, devBacked (pa + i) = true) (hhome : bringHome s s.hart.id (places pa w) = s)
    (t : State) (ht : bringHome t s.hart.id (places pa w) = s) :
    amoStep s.hart.id va (places pa w) op w opd cmp none t = .ok (s.peekN pa w)
      (strongStored s va false pa (leBytes w (amoCombine op w (s.peekN pa w) opd cmp))) := by
  have hlen : (leBytes w (amoCombine op w (s.peekN pa w) opd cmp)).length = w := by simp [leBytes]
  have hwrite := strongWrite_places va false (s := s) (pa := pa)
    (bs := leBytes w (amoCombine op w (s.peekN pa w) opd cmp)) (by rw [hlen]; exact hs) (by rw [hlen]; exact hhome)
  obtain ⟨hh, -, hl, hc⟩ := strongStored_leaves (s := s) (pa := pa)
    (bs := leBytes w (amoCombine op w (s.peekN pa w) opd cmp)) va false (by rw [hlen]; exact hb)
  rw [hlen] at hwrite
  generalize strongStored s va false pa (leBytes w (amoCombine op w (s.peekN pa w) opd cmp)) = u at *
  have hend := objectEnd_unlogged (s := u) (hu.of_same (by rw [hh]) hl hc) 1 va (op ||| (w / 8) <<< 4)
    (BitVec.ofNat 64 (s.peekN pa w)) (inScratch (places pa w)) none
  rw [show u.hart.id = s.hart.id by rw [hh]] at hend
  unfold amoStep
  simp only [M.modify_bind, ht, M.bind_ok (strongRead_sound hs), leNat_places, M.bind_ok hwrite]
  exact M.bind_ok hend

/-- The value an AMO returns: the old one, sign-extended at 32 bits (R347). -/
def amoResult (wd : BitVec 1) (old : Nat) : Word :=
  if wd = 1 then BitVec.ofNat 64 old else BitVec.ofInt 64 (toSigned 32 old)

theorem ofInt_toSigned (x : Nat) : BitVec.ofInt 64 (toSigned 32 x) = (BitVec.ofNat 32 x).signExtend 64 := by
  rw [toSigned_eq 32 x (by decide)]
  rfl

section
variable {s s1 : State} {d a b : BitVec 6} {o : BitVec 4} {wd q r : BitVec 1} {pa n : Nat} {fs : List (Nat × Nat)}
  (hn : n = if wd = 1 then 8 else 4) (hal : (s.hart.rs a).toNat % n = 0)
  (hloc : locateN s.hart.id (s.hart.rs a).toNat n .write true s = .ok (places pa n, fs) s1) (hs : Sound s1 pa n)
  (hb : ∀ i < n, devBacked (pa + i) = true) (hu : Unlogged s1) (hq : s1.hart.queue = [] ∨ s1.hart.frozen = true)
  (hk : KinStood s1)
include hn hal hloc hs hb hu hq hk

/-- AMO at home: the atomic step, its result, and the acquire (R228, R347). -/
theorem amoM_home :
    let s3 := amoBefore s1 r pa n
    let old := s3.peekN pa n
    let u := (strongStored s3 (s.hart.rs a).toNat false pa (leBytes n (amoCombine o.toNat n old (atWidth n (s.hart.rs b)) (atWidth n (s.hart.rs d))))).setS
      d (amoResult wd old)
    amoM d a b o wd q r s = .ok () (if q = 1 then acquireAt u s.hart.id else u).advance := by
  intro s3 old u
  have hx := locateN_hart hloc
  have hat : AtHome s1 s3 pa n := amoBefore_atHome r hs hb hk
  obtain ⟨sb, rels, hh⟩ := hat.hart
  have hid : s3.hart.id = s.hart.id := by rw [hh, hx]
  have hfree := scratchFree_spanFree (spanFree_places s1 pa n)
  have hdr : r = 1 → drained s1 = .ok () s1 := fun _ => drained_free hq
  have hbegin := objectBegin_unlogged hu 1 (s.hart.rs a).toNat (o.toNat ||| (n / 8) <<< 4) 0x1F (inScratch (places pa n))
  have hstep := amoStep_home (s.hart.rs a).toNat o.toNat n (atWidth n (s.hart.rs b)) (atWidth n (s.hart.rs d)) (hat.unlogged hu) hat.sound hb
    hat.home (if r = 1 then releaseAt s1 s.hart.id else s1) (by rw [hid, ← hx]; rfl)
  rw [hx] at hfree hbegin
  rw [hid] at hstep
  unfold amoM
  simp only [M.hart_bind, ← hn, ne_eq, hal, not_true_eq_false, if_false]
  rw [M.bind_ok hloc]
  dsimp only
  rw [M.bind_ok hfree, M.when_ok (t := s1) hdr (fun _ => rfl), M.bind_ok hbegin,
    M.when_ok (t := if r = 1 then releaseAt s1 s.hart.id else s1) (fun h => by rw [if_pos h]; rfl) (fun h => by rw [if_neg h]),
    M.bind_ok hstep, M.modify_bind, M.when_ok (t := if q = 1 then acquireAt u s.hart.id else u) (fun h => by rw [if_pos h]; rfl)
      (fun h => by rw [if_neg h]; rfl)]
  rfl
end

end Sys2Proof.Machine
end

section
/-! WAITVAL (R445), and what AMO and WAITVAL leave (R228, R347, R445). -/

namespace Sys2Proof.Machine

/-! ## WAITVAL (R445) -/

section
variable {s s1 : State} {d a : BitVec 6} {q wd : BitVec 1} {cc : BitVec 3} {pa n : Nat} {fs : List (Nat × Nat)}
  (hn : n = if wd = 1 then 8 else 4) (hal : (s.hart.rs a).toNat % n = 0)
  (hloc : locateN s.hart.id (s.hart.rs a).toNat n .read true s = .ok (places pa n, fs) s1) (hs : Sound s1 pa n)
  (hu : Unlogged s1)
include hn hal hloc hs hu

/-- The condition holds: it completes, and may acquire. -/
theorem waitvalM_holds (hw : waitHolds cc.toNat n (s1.peekN pa n) (atWidth n (s.hart.rs d)) = true) :
    waitvalM d a q wd cc s = .ok () (if q = 1 then acquireAt s1 s.hart.id else s1).advance := by
  have hx := locateN_hart hloc
  have hfree := scratchFree_spanFree (spanFree_places s1 pa n)
  have hbegin := objectBegin_unlogged hu 4 (s.hart.rs a).toNat cc.toNat 7 (inScratch (places pa n))
  have hread := strongRead_sound hs
  have hend := objectEnd_unlogged hu 4 (s.hart.rs a).toNat cc.toNat (BitVec.ofNat 64 (s1.peekN pa n)) (inScratch (places pa n)) none
  have hlevel := logLevel_unlogged hu
  rw [hx] at hfree hbegin hread hend hlevel
  unfold waitvalM
  simp only [M.hart_bind, ← hn, ne_eq, hal, not_true_eq_false, if_false]
  rw [M.bind_ok hloc]
  dsimp only
  rw [M.bind_ok hfree, M.get_bind]
  simp only [hlevel, reduceCtorEq, decide_false, Bool.false_eq_true, if_false]
  rw [M.bind_ok hbegin, M.bind_ok hread]
  simp only [leNat_places, if_pos hw]
  rw [M.pure_bind_run, M.bind_ok hend, M.when_ok (t := if q = 1 then acquireAt s1 s.hart.id else s1) (fun h => by rw [if_pos h]; rfl)
    (fun h => by rw [if_neg h])]
  rfl
/-- It does not: the hart parks at the line. -/
theorem waitvalM_parks (hw : waitHolds cc.toNat n (s1.peekN pa n) (atWidth n (s.hart.rs d)) = false) :
    waitvalM d a q wd cc s = .error (.park (.waitval false (pa / 64) (lineHeld s1 s.hart false (pa / 64)))) s1 := by
  have hx := locateN_hart hloc
  have hfree := scratchFree_spanFree (spanFree_places s1 pa n)
  have hbegin := objectBegin_unlogged hu 4 (s.hart.rs a).toNat cc.toNat 7 (inScratch (places pa n))
  have hread := strongRead_sound hs
  have hlevel := logLevel_unlogged hu
  have hhead : (places pa n).head? = some (.phys pa) := by
    obtain ⟨m, rfl⟩ : ∃ m, n = m + 1 := by
      refine ⟨n - 1, ?_⟩
      rw [hn]
      split <;> rfl
    simp [places, List.range_succ_eq_map]
  rw [hx] at hfree hbegin hread hlevel
  unfold waitvalM
  simp only [M.hart_bind, ← hn, ne_eq, hal, not_true_eq_false, if_false]
  rw [M.bind_ok hloc]
  dsimp only
  rw [M.bind_ok hfree, M.get_bind]
  simp only [hlevel, reduceCtorEq, decide_false, Bool.false_eq_true, if_false]
  rw [M.bind_ok hbegin, M.bind_ok hread]
  simp only [leNat_places, hw, Bool.false_eq_true, if_false, Option.isSome_none, M.get_bind, hhead, M.throw_run]
end

/-- WAITVAL's conditions (R445). -/
theorem waitHolds_iff (cc n x y : Nat) : waitHolds cc n x y = true ↔ match cc with
    | 0 => x = y
    | 1 => x ≠ y
    | 2 => toSigned (8 * n) x < toSigned (8 * n) y
    | 3 => toSigned (8 * n) y ≤ toSigned (8 * n) x
    | 4 => x < y
    | _ => y ≤ x := by
  unfold waitHolds
  split <;> simp

/-! ## What an AMO leaves (R228, R347) -/

theorem acquireAt_keeps (s : State) : let t := acquireAt s s.hart.id
    t.hart = { s.hart with lastAcq := t.hart.lastAcq, views := t.hart.views } ∧ ∀ p, t.peek p = s.peek p := by
  unfold acquireAt
  rw [acquireCut_focus]
  exact ⟨rfl, fun p => (State.withHart_peek_same ..).trans (State.setCtx_peek_same ..)⟩
/-- An acquire that may follow touches no register and no byte. -/
theorem acquired_leaves (u : State) (q : BitVec 1) : let t := (if q = 1 then acquireAt u u.hart.id else u).advance
    (∀ x, t.hart.rs x = u.hart.rs x) ∧ t.hart.pc = u.hart.pc + 4 ∧ (∀ p, t.peek p = u.peek p) ∧
    (q = 1 → t.hart.lastAcq = (t.ctx (ctxOf t t.hart)).cut) := by
  by_cases h : q = 1
  · simp only [if_pos h]
    obtain ⟨hh, hpeek⟩ := acquireAt_keeps u
    refine ⟨fun x => ?_, ?_, fun p => (State.advance_peek_same ..).trans (hpeek p), fun _ => acquireAt_lastAcq u⟩
    · show (acquireAt u u.hart.id).hart.rs x = _
      rw [hh]
      rfl
    · show (acquireAt u u.hart.id).hart.pc + 4 = _
      rw [hh]
  · simp only [if_neg h]
    exact ⟨fun _ => rfl, rfl, fun p => State.advance_peek_same u p, fun h' => absurd h' h⟩

/-- What an atomic step at home, its result and an acquire leave of a hart. -/
theorem amo_outcome {s s3 : State} {pa n id : Nat} {bs : List Byte} (hat : AtHome s s3 pa n) (hid : s.hart.id = id) (va : Nat)
    (hb : ∀ i < bs.length, devBacked (pa + i) = true) (d : BitVec 6) (v : Word) (q : BitVec 1) :
    let u := (strongStored s3 va false pa bs).setS d v
    let t := (if q = 1 then acquireAt u id else u).advance
    t.hart.rs d = (if d = 0 then 0 else v) ∧ (∀ x, x ≠ d → t.hart.rs x = s.hart.rs x) ∧ t.hart.pc = s.hart.pc + 4 ∧
    (∀ p, fnAddr p = 0 → t.peek p = byteAfter pa bs p (s3.peek p)) ∧
    (q = 1 → t.hart.lastAcq = (t.ctx (ctxOf t t.hart)).cut) := by
  obtain ⟨b, rels, hh⟩ := hat.hart
  obtain ⟨hv, hpeek, -⟩ := strongStored_leaves (s := s3) va false hb
  generalize strongStored s3 va false pa bs = w at *
  have hrs : ∀ x, w.hart.rs x = s.hart.rs x := fun x => by rw [hv, hh]; rfl
  have hpc : w.hart.pc = s.hart.pc := by rw [hv, hh]
  have hid' : (w.setS d v).hart.id = id := (Hart.setS_id ..).trans (by rw [hv, hh, hid])
  intro u
  obtain ⟨hregs, hpc', hpeek', hacq⟩ := acquired_leaves u q
  rw [← hid']
  refine ⟨?_, fun x hx => ?_, ?_, fun p hp => ?_, hacq⟩
  · exact (hregs d).trans ((Hart.rs_setS ..).trans (if_pos rfl))
  · exact (hregs x).trans ((Hart.rs_setS ..).trans ((if_neg hx).trans (hrs x)))
  · exact hpc'.trans (congrArg (· + 4) ((Hart.setS_pc ..).trans hpc))
  · exact (hpeek' p).trans ((State.setS_peek_same ..).trans (hpeek p hp))

/-- Settles O17: an AMO from the state in which its bytes and its hart's older stores to them are at home, a WAITVAL by its
condition. -/
theorem atomicsAndWaits : Obligations.AtomicsAndWaits := by
  unfold Obligations.AtomicsAndWaits
  refine ⟨?_, ?_⟩
  · intro s s1 c d a b o w q r pa fs
    extract_lets va n s2 s3 old opd cmp new
    intro _ hal hloc hs hb hu hq hk
    have hnew : new = amoCombine o.toNat n old opd cmp := rfl
    have hlen : (leBytes n new).length = n := by simp [leBytes]
    have hrun := amoM_home (d := d) (a := a) (b := b) (o := o) (q := q) (r := r) rfl hal hloc hs hb hu hq hk
    have hout := amo_outcome (bs := leBytes n new) (amoBefore_atHome r hs hb hk) (congrArg Hart.id (locateN_hart hloc)) va
      (by rw [hlen]; exact hb) d (amoResult w old) q
    rw [hnew] at hout ⊢
    refine ⟨_, scalar_ok hrun, hout.imp_left fun hd => hd.trans ?_⟩
    rw [amoResult, ofInt_toSigned]
  · intro s s1 d a sc q w cc pa fs
    extract_lets va n x y holds
    intro _ hal hloc hs hu
    have hid := congrArg Hart.id (locateN_hart hloc)
    refine ⟨fun h => ⟨_, scalar_ok (waitvalM_holds rfl hal hloc hs hu ((waitHolds_iff ..).2 h)), ?_⟩, fun h =>
      ⟨_, scalar_park (waitvalM_parks rfl hal hloc hs hu (Bool.eq_false_iff.2 fun hw => h ((waitHolds_iff ..).1 hw))), _, rfl⟩⟩
    rw [hid]

/-! ## O18 -/

/-- Settles O18: a release by what it brings home, an acquire by what it takes. -/
theorem releasesAndAcquires : Obligations.ReleasesAndAcquires := by
  unfold Obligations.ReleasesAndAcquires
  refine ⟨fun s n => ?_, fun s n => ?_⟩
  · intro h t
    obtain ⟨hist, tabs, ht⟩ := releaseCut_focus s n
    have ht' : t = _ := ht
    rw [ht']
    refine ⟨fun pa hb => ?_, rfl, ?_⟩
    · rw [State.withHart_peek_same, State.setCtx_peek_same, allHome_peek s n hb]
    · rw [State.withHart_ctx_same, State.setCtx_ctx_self]
  · intro h c t
    have ht : t = _ := acquireCut_focus s n
    rw [ht]
    refine ⟨rfl, ?_, rfl, rfl, rfl, rfl⟩
    rw [State.withHart_ctx_same, State.setCtx_ctx_self]

end Sys2Proof.Machine
end

section
/-! Where a strong store or a VAMO meets a state that no run reaches, but that O16 and O32 do not rule out (R40, R218). -/

namespace Sys2Proof.Machine

open Sys2Proof.Tests

/-- A hart under number 5 that calls itself the focus, whose launch runs in a context that records; a store of it is not yet
home. -/
def misnamed : State :=
  { State.reset with
    hart := { bootHart with kin := [(5, 1)] }.setS 1 0x30000
    harts := [(5, { storing bootHart 7 with launch := 1 })]
    slots := [(0, { Slot.initial with holder := some 0 })]
    ctxs := [(0, { bootCtx with tlb := pages }), (1, { bootCtx with tlb := pages, level := .record })]
    launches := [(0, bootLaunch), (1, { bootLaunch with ctx := 1 })] }

/-- As its store goes home it takes the focus's place, and its own context has no room in the log. -/
theorem misnamed_home : (bringHome misnamed 0 (places 0x120000 4)).hart.pc = 0x10000 := by decide +kernel
theorem misnamed_sts : (runScalar (stsM 2 1 0 2) misnamed).hart.pc = 0x10000 := by decide +kernel

/-- Refutes O16: its STS clause, unlike that of O17 on AMO, does not ask that the harts of `kin` stand under their own numbers. In
`misnamed` the store of an ancestor that calls itself the focus goes home ahead of the STS (R40, R218); the hart that is then in
focus is the ancestor, whose context records, and it stalls on the full log where the statement has it go on. -/
theorem not_strongAccessesAtHome : ¬ Obligations.StrongAccessesAtHome := by
  unfold Obligations.StrongAccessesAtHome
  rintro ⟨-, h⟩
  have hmap : Mapped misnamed (0x30000 + 0) .write (0x120000 + 0) :=
    mapped_range (page 3 0x120000 0x37) rfl rfl rfl rfl (by decide) rfl (by decide) rfl rfl rfl rfl (by decide) (by decide)
      (by decide) rfl rfl rfl
  obtain ⟨fs, hloc⟩ := locateN_mapped (n := 4) (strong := true) hmap (by decide)
  have hback : ∀ i < 4, devBacked (0x120000 + i) = true := by decide
  obtain ⟨t, ht, -, hhart⟩ := h misnamed misnamed 2 1 0 0 2 0x120000 fs (.inl rfl) (by decide) hloc
    (sound_of_poison rfl (by decide)) hback (.inl rfl) (.inl rfl)
  obtain rfl : runScalar (stsM 2 1 0 2) misnamed = t := Host.Outcome.next.inj ht
  have hpc : (runScalar (stsM 2 1 0 2) misnamed).hart.pc = (bringHome misnamed 0 (places 0x120000 4)).hart.pc + 4 := by
    rw [hhart]
    rfl
  rw [misnamed_sts, misnamed_home] at hpc
  exact absurd hpc (by decide)

/-- Two atomic targets in v2, at 0x30000 and 0x30008, and a store to the second one's first byte that is not yet home, whose
number the hart has not given yet. -/
def unnumbered : State := withH (fun h =>
  { h.setV 2 (0x30000#8192 ||| (0x30008#8192 <<< 64)) with sbuf := [⟨0, false, 0x120008, 7, none⟩] })
/-- What stands at home at an address after an instruction. -/
def peekAfter (o : Out) (a : Nat) : Byte :=
  match o with
  | .next t => t.peek a
  | _ => 0

theorem unnumbered_vamo : peekAfter (exec (.vamo 3 0 0 2 15 0 0 0) unnumbered) 0x120008 = 7 := by decide +kernel
theorem unnumbered_run : (amoRun 4 0 (fun n => 0x120000 + 8 * n) (fun n => unnumbered.hart.elem 3 4 n) [0, 1]
    (bringHome unnumbered 0 ([0, 1].flatMap (fun n => places (0x120000 + 8 * n) 4))).peek).2 0x120008 = 0 := by decide +kernel
theorem unnumbered_due : (List.range (min unnumbered.hart.vl (vlmaxOf unnumbered 8))).filter (unnumbered.hart.due 15) = [0, 1] := by
  decide +kernel
theorem unnumbered_elem : ∀ n ∈ [0, 1], unnumbered.hart.elem 2 8 n = 0x30000 + 8 * n := by decide +kernel

/-- Refutes O32: it takes home beforehand the hart's pending stores to all its elements' bytes, those numbered below the stores
the hart has made; but each element's store raises that count, so that a pending store with a number not given yet goes home
before a later element. No run leaves such a store pending; the statement does not rule it out, and in `unnumbered` the second
element adds to its byte where the statement has it add to zero. -/
theorem not_vectorAtomics : ¬ Obligations.VectorAtomics := by
  unfold Obligations.VectorAtomics
  intro h
  have hback : ∀ n ∈ [0, 1], ∀ i < 4, devBacked (0x120000 + 8 * n + i) = true := by decide
  have helem : ∀ n ∈ [0, 1], unnumbered.hart.elem 2 8 n % 4 = 0 ∧
      Mapped unnumbered (unnumbered.hart.elem 2 8 n) .write (0x120000 + 8 * n) ∧ Sound unnumbered (0x120000 + 8 * n) 4 ∧
      (∀ i < 4, devBacked (0x120000 + 8 * n + i) = true) ∧ unnumbered.hart.elemBad 3 4 n = false ∧
      unnumbered.hart.elemBad 2 8 n = false := by
    intro n hn
    have h2 : n < 2 := by simp only [List.mem_cons, List.not_mem_nil, or_false] at hn; omega
    rw [unnumbered_elem n hn]
    refine ⟨by omega, mapped_range (page 3 0x120000 0x37) rfl rfl rfl rfl (by decide) rfl (by omega) rfl rfl rfl rfl (by decide)
      (by decide) (by decide) rfl rfl rfl, sound_of_poison rfl ?_, hback n hn, elemBad_zero _ _ _ _ (vpr_none rfl _),
      elemBad_zero _ _ _ _ (vpr_none rfl _)⟩
    have hb : Config.backed = 384000000000 := rfl
    omega
  obtain ⟨t, ht, hpeek, -⟩ := h unnumbered 3 2 0 15 0 0 0 0 (fun n => 0x120000 + 8 * n) (freeOk_free rfl) (by decide) rfl
    (.inl rfl) nofun ⟨by decide, .inl rfl⟩ (by
      rw [unnumbered_due]
      exact helem)
  have hrun := hpeek 0x120008 (by decide)
  rw [unnumbered_due] at hrun
  have hleft : t.peek 0x120008 = 7 := (congrArg (peekAfter · 0x120008) ht).symm.trans unnumbered_vamo
  exact absurd ((hleft.symm.trans hrun).trans unnumbered_run) (by decide)

end Sys2Proof.Machine
end

section
/-! FENCE, WAITLT and RCFENCE (R209, R212, R222, R226, R369, R397, R444). -/

namespace Sys2Proof.Machine

/-! ## What a fence orders (R219, R222) -/

/-- The hart's own stores still pending are ordered, those at home in the context's history; where no snapshot is read nothing
changes. -/
theorem markSeen_relaxed {s : State} (hs : (s.ctx (ctxOf s s.hart)).strict = false) (p : Pend → Bool) (ps pv : Undo → Bool) :
    markSeen s.hart.id p ps pv s = s := by
  unfold markSeen
  simp only [State.hartOf_self, hs, Bool.not_false, if_true]
/-- A pending store as an order point of its hart leaves it. -/
def Pend.marked (n : Nat) (p : Pend → Bool) (q : Pend) : Pend := if q.cross.isNone && p q then { q with cross := some n } else q
theorem markSeen_strict {s : State} (hs : (s.ctx (ctxOf s s.hart)).strict = true) (p : Pend → Bool) (ps pv : Undo → Bool) :
    ∃ cs, markSeen s.hart.id p ps pv s = { s with
      hart := { s.hart with sbuf := s.hart.sbuf.map (Pend.marked s.hart.stores p), stores := s.hart.stores + 1 }, ctxs := cs } := by
  unfold markSeen
  simp only [State.hartOf_self, hs, Bool.not_true, Bool.false_eq_true, if_false]
  exact ⟨_, State.setHart_focus _ _ rfl⟩

/-- From `g` to `u` the hart has passed an order point, which orders its pending stores of which `p` holds: that changes
pending stores and history alone, and nothing where no snapshot is read. -/
structure Ordered (g u : State) (p : Pend → Bool) : Prop where
  frame : u = { g with hart := { g.hart with sbuf := u.hart.sbuf, stores := u.hart.stores }, ctxs := u.ctxs }
  relaxed : (g.ctx (ctxOf g g.hart)).strict = false → u = g
  strict : (g.ctx (ctxOf g g.hart)).strict = true →
    u.hart.stores = g.hart.stores + 1 ∧ u.hart.sbuf = g.hart.sbuf.map (Pend.marked g.hart.stores p)

theorem markSeen_ordered (s : State) (p : Pend → Bool) (ps pv : Undo → Bool) : Ordered s (markSeen s.hart.id p ps pv s) p := by
  cases hs : (s.ctx (ctxOf s s.hart)).strict with
  | false =>
    rw [markSeen_relaxed hs]
    exact ⟨rfl, fun _ => rfl, fun h => absurd (hs.symm.trans h) Bool.false_ne_true⟩
  | true =>
    obtain ⟨cs, he⟩ := markSeen_strict hs p ps pv
    rw [he]
    exact ⟨rfl, fun h => absurd (h.symm.trans hs) Bool.false_ne_true, fun _ => ⟨rfl, rfl⟩⟩
/-- What an order point leaves does not depend on where the hart stands, nor on its vector queue. -/
theorem Ordered.moved {g u : State} {p : Pend → Bool} (h : Ordered g u p) (f : Hart → Hart)
    (hf : ∀ x : Hart, f x = { x with
      queue := (f x).queue, fmarks := (f x).fmarks, pc := (f x).pc, vstart := (f x).vstart, rpos := (f x).rpos })
    (hc : ∀ x b n, f { x with sbuf := b, stores := n } = { f x with sbuf := b, stores := n }) :
    Ordered (g.withHart (f g.hart)) (u.withHart (f u.hart)) p := by
  have hl : ∀ x, (f x).launch = x.launch := fun x => by rw [hf]
  have hs : ∀ x, (f x).stores = x.stores ∧ (f x).sbuf = x.sbuf := fun x => by rw [hf]; exact ⟨rfl, rfl⟩
  have hctx : ctxOf (g.withHart (f g.hart)) (f g.hart) = ctxOf g g.hart := by
    show (g.launch (f g.hart).launch).ctx = _
    rw [hl]
    rfl
  refine ⟨?_, fun hr => ?_, fun hr => ?_⟩
  · have hh : u.hart = { g.hart with sbuf := u.hart.sbuf, stores := u.hart.stores } := by
      rw [h.frame]
    have hfu : f u.hart = { f g.hart with sbuf := u.hart.sbuf, stores := u.hart.stores } := by
      rw [← hc, ← hh]
    rw [State.withHart_hart, hfu, h.frame]
    rfl
  · rw [State.withHart_hart, hctx] at hr
    rw [h.relaxed hr]
  · rw [State.withHart_hart, hctx] at hr
    obtain ⟨h1, h2⟩ := h.strict hr
    simp only [State.withHart_hart, (hs _).1, (hs _).2]
    exact ⟨h1, h2⟩

/-! ## FENCE (R226, R369) -/

/-- The pending stores that a FENCE of type `t` orders, of the scalar side those numbered below `n`. -/
def fenced (t : BitVec 3) (n : Nat) (p : Pend) : Bool :=
  if p.vec then decide (t = 1) || decide (t = 6) else (decide (t = 0) || decide (t = 6)) && decide (p.n < n)
theorem fenceMark_ordered (t : BitVec 3) (n m : Nat) (s : State) : Ordered s (fenceMark t s.hart.id n m s) (fenced t n) :=
  markSeen_ordered ..

/-- A tile load of the hart is one of its operations in flight. -/
theorem loadsTile_none {s : State} {h : Hart} (ho : opsInFlight s h = []) : loadsTile s h = false := by
  obtain ⟨hops, -⟩ := List.append_eq_nil_iff.1 ho
  refine List.any_eq_false.2 fun o hm hw => ?_
  simp only [Bool.and_eq_true] at hw
  have : o.n ∈ ((s.slot h.slotId).ops.filter (fun o => o.hart == h.id)).map (·.n) :=
    List.mem_map_of_mem (List.mem_filter.2 ⟨hm, hw.1.1⟩)
  rw [hops] at this
  cases this
theorem enginesBefore_none {s : State} {h : Hart} (ho : opsInFlight s h = []) (m : Nat) : enginesBefore s h m = true := by
  unfold enginesBefore
  rw [loadsTile_none ho, ho]
  rfl
theorem enginesBefore_some {s : State} {h : Hart} {m : Nat} (ho : ∃ n ∈ opsInFlight s h, n < m) : enginesBefore s h m = false := by
  obtain ⟨n, hn, hlt⟩ := ho
  unfold enginesBefore
  rw [Bool.and_eq_false_iff]
  exact .inl (List.all_eq_false.2 ⟨n, hn, by simpa using hlt⟩)

section
variable {s : State} {t : BitVec 3} {c : Cap} {n m : Nat} (hm : s.hart.fmarks = [(n, m)])
include hm

theorem fenceM_done (hd : t.toNat < 4 ∨ enginesBefore s s.hart m = true) : fenceM t c s =
    .ok () ((fenceMark t s.hart.id n m s).withHart { (fenceMark t s.hart.id n m s).hart with
      fmarks := (fenceMark t s.hart.id n m s).hart.fmarks.tail }) := by
  have hgo : (decide (4 ≤ t.toNat) && !enginesBefore s s.hart m) = false := by
    rcases hd with hd | hd
    · simp [Nat.not_le.2 hd]
    · simp [hd]
  simp only [fenceM, M.hart_bind, M.get_bind, hm, List.headD_cons, hgo, Bool.false_eq_true, if_false, M.modify_bind, M.modHart_run]
theorem fenceM_waits (h4 : 4 ≤ t.toNat) (hd : enginesBefore s s.hart m = false) : fenceM t c s = .error .wait s := by
  simp only [fenceM, M.hart_bind, M.get_bind, hm, List.headD_cons, h4, hd, decide_true, Bool.not_false, Bool.and_self, if_true,
    M.hold_bind]
end

/-- The machine with the mark of a FENCE that issues (R226). -/
def fenceIssued (s : State) : State := s.withHart { s.hart with fmarks := s.hart.fmarks ++ [(s.hart.stores, s.nextOp)] }
theorem fenceIssued_free {s : State} (hf : VectorFree s) : VectorFree (fenceIssued s) := by
  obtain ⟨h1, h2, h3, h4, h5, h6⟩ := hf
  refine ⟨h1, h2, h3, h4, h5, ?_⟩
  rw [← h6]
  unfold laneBusy State.liveHarts
  simp only [List.any_append]
  show (List.any (if s.hart.live then [(fenceIssued s).hart] else []) _ || _) = (List.any (if s.hart.live then [s.hart] else []) _ || _)
  cases s.hart.live <;> rfl
theorem exec_fence {s : State} (t : BitVec 3) (hf : VectorFree s) :
    exec (.fence t) s = vecIssue (.fence t) (fenceM t) (fenceIssued s) := by
  obtain ⟨h1, h2, -⟩ := hf
  show execFence t s = _
  unfold execFence
  dsimp only
  rw [if_neg (by rw [h1]; exact Bool.false_ne_true), if_neg (by rw [h2]; decide)]
  rfl

/-- The hart as an instruction that ran as it issued leaves it, a FENCE's mark with it. -/
def Hart.leftFree (h : Hart) : Hart := { h with queue := [], fmarks := [], vstart := 0, rpos := 0 }
/-- A FENCE that runs as it issues. -/
theorem fence_free {s : State} {t : BitVec 3} (hf : VectorFree s) (hm : s.hart.fmarks = [])
    (hd : t.toNat < 4 ∨ opsInFlight s s.hart = []) : Completes (.fence t) s fun u =>
      Ordered (s.withHart { s.hart with pc := s.hart.pc + 4, vstart := 0, rpos := 0 }) u (fenced t s.hart.stores) := by
  have ⟨_, hq, hs, _⟩ := hf
  let g := (fenceIssued s).withHart ((fenceIssued s).hart.issued (.fence t))
  have hmarks : g.hart.fmarks = [(s.hart.stores, s.nextOp)] := by
    show s.hart.fmarks ++ _ = _
    rw [hm]
    rfl
  have hord := fenceMark_ordered t s.hart.stores s.nextOp g
  have hrun := fenceM_done (t := t) (c := (fenceIssued s).hart.cap (.fence t)) hmarks (hd.imp_right fun ho => enginesBefore_none ho _)
  refine ⟨_, (exec_fence t hf).trans (vecIssue_free (fenceIssued_free hf) hrun), ?_⟩
  have hleft : g.hart.leftFree = { s.hart with pc := s.hart.pc + 4, vstart := 0, rpos := 0 } := by
    refine (congrArg (fun q => { s.hart with queue := q, fmarks := [], pc := s.hart.pc + 4, vstart := 0, rpos := 0 }) hq.symm).trans ?_
    exact congrArg (fun q => { s.hart with fmarks := q, pc := s.hart.pc + 4, vstart := 0, rpos := 0 }) hm.symm
  have hmoved := hord.moved Hart.leftFree (fun _ => rfl) (fun _ _ _ => rfl)
  rw [hleft, show g.withHart = s.withHart from rfl] at hmoved
  generalize fenceMark t g.hart.id s.hart.stores s.nextOp g = v at *
  have hran : Hart.ran { v.hart with fmarks := v.hart.fmarks.tail } = v.hart.leftFree := by
    have hh : v.hart = { g.hart with sbuf := v.hart.sbuf, stores := v.hart.stores } := by rw [hord.frame]
    refine (Hart.popHead_empty ?_ ?_).trans ?_
    · show v.hart.queue.tail = []
      rw [hh]
      rfl
    · show v.hart.sets = []
      rw [hh]
      exact hs
    · have htail : v.hart.fmarks.tail = [] := by rw [hh]; exact congrArg List.tail hmarks
      exact congrArg (fun q => { v.hart with queue := [], fmarks := q, vstart := 0, rpos := 0 }) htail
  refine (congrArg (Ordered _ · _) ?_).mp hmoved
  exact (congrArg v.withHart hran).symm
/-- A FENCE that waits at the queue's head. -/
theorem fence_waits {s : State} {t : BitVec 3} (hf : VectorFree s) (hm : s.hart.fmarks = []) (h4 : 4 ≤ t.toNat)
    (ho : ∃ n ∈ opsInFlight s s.hart, n < s.nextOp) : exec (.fence t) s = .next (s.withHart { s.hart with
      queue := [⟨s.hart.pc, encode (.fence t), 0, 0, [], [], s.hart.note⟩], fmarks := [(s.hart.stores, s.nextOp)]
      pc := s.hart.pc + 4, run := .waiting }) := by
  let g := (fenceIssued s).withHart ((fenceIssued s).hart.issued (.fence t))
  have hmark : (s.hart.fmarks ++ [(s.hart.stores, s.nextOp)]) = [(s.hart.stores, s.nextOp)] := by rw [hm]; rfl
  have hwait := fenceM_waits (s := g) (c := (fenceIssued s).hart.cap (.fence t)) hmark h4 (enginesBefore_some ho)
  rw [exec_fence t hf, vecIssue_runs (fenceIssued_free hf), hwait, ← hmark]
  refine (congrArg Host.Outcome.next (awaits_same (s := g) (t := g) (r := .waiting) rfl)).trans ?_
  rfl

section
variable {s : State} {t : BitVec 3} (hf : s.hart.frozen = true)
include hf

/-- A FENCE in a handler's frozen queue waits for the operations since the trap alone (R369). -/
theorem fence_handler (hd : t.toNat < 4 ∨ ∀ n ∈ opsInFlight s s.hart, n < s.hart.trapOp) : Completes (.fence t) s fun u =>
    Ordered (s.withHart { s.hart with pc := s.hart.pc + 4 }) u (fenced t s.hart.stores) := by
  have hgo : (decide (4 ≤ t.toNat) && !(opsInFlight s s.hart).all (fun n => decide (n < s.hart.trapOp))) = false := by
    rcases hd with hd | hd
    · simp [Nat.not_le.2 hd]
    · simpa using fun _ => hd
  have hrun : fenceHandler t s = .ok () (fenceMark t s.hart.id s.hart.stores s.nextOp s).advance := by
    simp only [fenceHandler, M.hart_bind, M.get_bind, hgo, Bool.false_eq_true, if_false, M.modify_bind, M.nextInstr_run]
  exact ⟨_, (if_pos hf).trans (scalar_ok hrun),
    (fenceMark_ordered t s.hart.stores s.nextOp s).moved (fun x => { x with pc := x.pc + 4 }) (fun _ => rfl) (fun _ _ _ => rfl)⟩
theorem fence_handler_waits (h4 : 4 ≤ t.toNat) (ho : ∃ n ∈ opsInFlight s s.hart, s.hart.trapOp ≤ n) :
    exec (.fence t) s = .next (s.withHart { s.hart with run := .waiting }) := by
  obtain ⟨n, hn, hle⟩ := ho
  have hall : (opsInFlight s s.hart).all (fun n => decide (n < s.hart.trapOp)) = false :=
    List.all_eq_false.2 ⟨n, hn, by simpa using hle⟩
  have hrun : fenceHandler t s = .error .wait s := by
    simp only [fenceHandler, M.hart_bind, M.get_bind, h4, hall, decide_true, Bool.not_false, Bool.and_self, if_true, M.hold_bind]
  exact (if_pos hf).trans ((scalar_wait hrun).trans (congrArg Host.Outcome.next (awaits_same rfl)))
end

/-! ## WAITLT and RCFENCE (R209, R212, R397, R444) -/

/-- A byte that a completed operation of the focus hart on counter `c` has written. -/
def wroteFor (s : State) (c : Nat) (u : Undo) : Bool := u.op.any (fun o => o.2 == c && !((opsInFlight s s.hart).contains o.1))

section
variable {s : State} {c : BitVec 4} {t : BitVec 9} (hq : s.hart.queue = [] ∨ s.hart.frozen = true)
include hq

theorem waitlt_queued : (!s.hart.frozen && s.hart.queue.any (fun e => countedWord e.word)) = false := by
  rcases hq with h | h <;> simp [h]
theorem waitlt_goes (hlt : s.hart.counter c.toNat < t.toNat) : Completes (.waitlt c t) s fun u =>
    Ordered (s.withHart { s.hart with pc := s.hart.pc + 4 }) u (fun _ => false) := by
  have hnone := waitlt_queued hq
  have hrun : waitltM c t s = .ok () (markSeen s.hart.id (fun _ => false) (wroteFor s c.toNat) (wroteFor s c.toNat) s).advance := by
    simp only [waitltM, M.hart_bind, hnone, Bool.false_eq_true, if_false, if_pos hlt, M.modify_bind]
    rfl
  exact ⟨_, scalar_ok hrun, (markSeen_ordered s ..).moved (fun x => { x with pc := x.pc + 4 }) (fun _ => rfl) (fun _ _ _ => rfl)⟩
theorem waitlt_parks (hle : t.toNat ≤ s.hart.counter c.toNat) :
    exec (.waitlt c t) s = .next (s.withHart { s.hart with run := .parked (.waitlt c.toNat t.toNat) }) := by
  have hnone := waitlt_queued hq
  have hrun : waitltM c t s = .error (.park (.waitlt c.toNat t.toNat)) s := by
    simp only [waitltM, M.hart_bind, hnone, Bool.false_eq_true, if_false, if_neg (Nat.not_lt.2 hle), M.throw_run]
  exact (scalar_park hrun).trans (congrArg Host.Outcome.next (awaits_same rfl))
end

theorem Ordered.keeps_sbuf {g u : State} (h : Ordered g u (fun _ => false)) : u.hart.sbuf = g.hart.sbuf := by
  cases hs : (g.ctx (ctxOf g g.hart)).strict with
  | false => rw [h.relaxed hs]
  | true =>
    have hid : Pend.marked g.hart.stores (fun _ => false) = id := by
      funext q
      simp [Pend.marked]
    rw [(h.strict hs).2, hid, List.map_id]

/-- The stores that a FENCE's order point marks. -/
theorem ordered_iff (t : BitVec 3) (n : Nat) (p : Pend) : (p.cross.isNone && fenced t n p) = true ↔
    p.cross = none ∧ if p.vec = true then t = 1 ∨ t = 6 else (t = 0 ∨ t = 6) ∧ p.n < n := by
  unfold fenced
  cases p.vec <;> simp

/-- Settles O41: a FENCE at its issue or in a handler, done or waiting, a WAITLT by its counter, and RCFENCE. -/
theorem fencesAndCounters : Obligations.FencesAndCounters := by
  unfold Obligations.FencesAndCounters
  refine ⟨?_, ?_⟩
  · intro s t
    extract_lets h named ends
    have hends : ∀ g u, Ordered g u (fenced t h.stores) → ctxOf g g.hart = ctxOf s h → g.ctxs = s.ctxs →
        g.hart.sbuf = h.sbuf → g.hart.stores = h.stores → ends g u := by
      intro g u ho hc hcs hb hn
      have hctx : g.ctx (ctxOf g g.hart) = s.ctx (ctxOf s h) := by simp only [State.ctx, hc, hcs]
      refine ⟨ho.frame, fun hu => ho.relaxed (by rw [hctx]; exact not_strict_of_unlogged hu), fun hs => ?_⟩
      obtain ⟨hst, hbuf⟩ := ho.strict (by rw [hctx]; exact hs)
      rw [hst, hbuf, hb, hn]
      refine ⟨rfl, List.map_congr_left fun p _ => if_congr (ordered_iff t h.stores p) rfl rfl⟩
    refine ⟨fun hf hm => ⟨fun hd => ?_, fun h4 ho => ⟨_, fence_waits hf hm h4 ho, rfl⟩⟩, fun hf => ⟨fun hd => ?_, fun h4 ho =>
      ⟨_, fence_handler_waits hf h4 ho, rfl⟩⟩⟩
    · obtain ⟨u, hu, ho⟩ := fence_free hf hm hd
      exact ⟨u, hu, hends _ u ho rfl rfl rfl rfl⟩
    · obtain ⟨u, hu, ho⟩ := fence_handler hf hd
      exact ⟨u, hu, hends _ u ho rfl rfl rfl rfl⟩
  · intro s c t a one id hq
    refine ⟨fun hlt => ?_, fun hle => ⟨_, waitlt_parks hq hle, rfl⟩, ?_⟩
    · obtain ⟨u, hu, ho⟩ := waitlt_goes (c := c) (t := t) hq hlt
      refine ⟨u, hu, fun hun => ho.relaxed (not_strict_of_unlogged hun), ho.frame.trans ?_⟩
      rw [ho.keeps_sbuf]
      rfl
    · have hrun : rcfenceM a one s = .ok () (s.setSlot id { s.slot id with
          rcache := if one = 1 then (s.slot id).rcache.filter (fun e => e.1 != (s.rs a).toNat) else [] }).advance := rfl
      refine ⟨_, scalar_ok hrun, ?_, fun i hi => ?_, rfl⟩
      · exact State.setSlot_slot_self ..
      · exact (State.setSlot_slot ..).trans (if_neg hi)

end Sys2Proof.Machine
end

section
/-! What stores of an agent leave does not depend on the hart in focus (R273, R277). -/

namespace Sys2Proof.Machine

theorem withHart_alike (s : State) (x : Hart) : HomeAlike s (s.withHart x) := ⟨rfl, rfl, rfl, rfl, rfl, rfl⟩

theorem dropRecord_withHart (s : State) (x : Hart) (author : Option Nat) (ctx a : Nat) :
    dropRecord (s.withHart x) author ctx a = (dropRecord s author ctx a).withHart x := by
  have hpa : recordPa (s.withHart x) a = recordPa s a := by simp only [recordPa, (withHart_alike s x).stage2Of]
  unfold dropRecord
  rw [hpa]
  split <;> rfl
theorem keepUndo_withHart (s : State) (x : Hart) (author : Option Author) (ctx : Nat) (stamp : Option Nat) (a : Nat) (m : SMap Ctx) :
    keepUndo (s.withHart x) author ctx stamp a m = keepUndo s author ctx stamp a m := by
  have hh : histAddr (s.withHart x) a = histAddr s a := by simp only [histAddr, State.withHart_homeOf_same]
  induction m with
  | nil => rfl
  | cons p m ih => simp only [keepUndo, ih, hh, State.withHart_peek_same]
theorem poke_withHart (s : State) (x : Hart) (a : Nat) (b : Byte) : (s.withHart x).poke a b = (s.poke a b).withHart x := by
  unfold State.poke
  rw [State.withHart_homeOf_same]
  split <;> rfl
theorem homeStore1_withHart (author : Option Author) (ctx : Nat) (stamp : Option Nat) (s : State) (x : Hart) (p : Nat × Byte) :
    homeStore1 author ctx stamp (s.withHart x) p = (homeStore1 author ctx stamp s p).withHart x := by
  unfold homeStore1
  rw [State.withHart_homeOf_same, show peerUp (s.withHart x) (fnAddr p.1) p.1 = peerUp s (fnAddr p.1) p.1 from rfl]
  split
  · exact dropRecord_withHart s x ..
  · split
    · exact dropRecord_withHart (s.setFn ..) x ..
    · simp only [poke_withHart, show (s.withHart x).ctxs = s.ctxs from rfl, keepUndo_withHart]
      rfl
theorem homeStoreAll_withHart (ctx : Nat) (stamp before : Option Nat) (s : State) (x : Hart) (ps : List HStore) :
    homeStoreAll ctx stamp before (s.withHart x) ps = (homeStoreAll ctx stamp before s ps).withHart x := by
  induction ps generalizing s before with
  | nil => rfl
  | cons p ps ih =>
    have hd : sameDrop (s.withHart x) before p.a = sameDrop s before p.a := by
      simp only [sameDrop, (withHart_alike s x).drops]
    simp only [homeStoreAll, hd, homeStore1_withHart]
    split
    · exact ih _ s
    · exact ih _ _
theorem snoopQueues_withHart (s : State) (x : Hart) (as : List Nat) :
    snoopQueues (s.withHart x) as = (snoopQueues s as).withHart x := by
  have hh : ∀ f y b, heldSectors (s.withHart x) f y b = heldSectors s f y b := fun f y b => by
    simp only [heldSectors, State.withHart_homeOf_same]
  have hs : ∀ f gs, HostQueue.snooped (s.withHart x) f gs = HostQueue.snooped s f gs := fun f gs => funext fun y => by
    unfold HostQueue.snooped
    split
    · rw [hh]
    · rfl
  unfold snoopQueues
  simp only [hs, State.withHart_homeOf_same, show (s.withHart x).fns = s.fns from rfl]
  split <;> rfl
theorem dropLines_withHart (s : State) (x : Hart) (core : Nat) (as : List Nat) :
    dropLines (s.withHart x) core as = (dropLines s core as).withHart x := by
  unfold dropLines
  simp only [show (s.withHart x).core core = s.core core from rfl, show (s.withHart x).rdc = s.rdc from rfl]
  split <;> split <;> rfl
/-- The granules a batch has covered whole are clean (R319). -/
def cleaned (s : State) (ps : List HStore) : State :=
  if s.poison = [] then s
  else
    let gs := coveredGranules (ps.map (fun p => (p.a, p.b)))
    { s with poison := s.poison.filter (fun g => !(gs.contains g) && !(gs.any (fun x => homeOf s (x * 64) / 64 == g))) }
theorem cleaned_withHart (s : State) (x : Hart) (ps : List HStore) : cleaned (s.withHart x) ps = (cleaned s ps).withHart x := by
  unfold cleaned
  simp only [State.withHart_homeOf_same, show (s.withHart x).poison = s.poison from rfl]
  split <;> rfl
theorem homeStore_eq (ctx : Nat) (stamp : Option Nat) (s : State) (ps : List HStore) : homeStore ctx stamp s ps =
    match (ps.filterMap (·.author)).head? with
    | some a => dropLines (snoopQueues (cleaned (homeStoreAll ctx stamp none s ps) ps) (ps.map (·.a))) (a.hart / 8) (ps.map (·.a))
    | none => snoopQueues (cleaned (homeStoreAll ctx stamp none s ps) ps) (ps.map (·.a)) := rfl
theorem homeStore_withHart (ctx : Nat) (stamp : Option Nat) (s : State) (x : Hart) (ps : List HStore) :
    homeStore ctx stamp (s.withHart x) ps = (homeStore ctx stamp s ps).withHart x := by
  simp only [homeStore_eq, homeStoreAll_withHart, cleaned_withHart, snoopQueues_withHart, dropLines_withHart]
  split <;> rfl
theorem agentCache_withHart (s : State) (x : Hart) (f : Nat) (as : List Nat) :
    agentCache (s.withHart x) f as = (agentCache s f as).withHart x := by
  unfold agentCache
  generalize (as.map (fun a => a / 65536)).eraseDups = l
  induction l generalizing s with
  | nil => rfl
  | cons p l ih =>
    simp only [List.foldl_cons, (withHart_alike s x).stage2Of]
    refine (congrArg (List.foldl _ · l) ?_).trans (ih _)
    unfold stage2Cache
    split <;> rfl
theorem agentWrite_withHart (s : State) (x : Hart) (f a : Nat) (bs : List Byte) :
    agentWrite (s.withHart x) f a bs = (agentWrite s f a bs).map (·.withHart x) := by
  unfold agentWrite
  simp only [(withHart_alike s x).agentPa]
  split
  · refine congrArg some (.trans (congrArg (homeStore 0 none · _) ?_) (homeStore_withHart ..))
    rw [agentCache_withHart]
    split <;> rfl
  · rfl

/-- A hart's pending stores as the flip of window `w` of context `c` leaves them (R232). -/
def flipStores (s : State) (c : Nat) (w : Window) (h : Hart) : Hart :=
  if ctxOf s h = c && !h.sbuf.isEmpty then hartMoved (c / 64) w h else h
theorem flipStores_none {h : Hart} (hb : h.sbuf = []) (s : State) (c : Nat) (w : Window) : flipStores s c w h = h := by
  unfold flipStores
  rw [hb]
  exact if_neg (by simp)
/-- The window's descriptor after the flip, in the context and in memory (R230, R231). -/
def flipRecord (c i : Nat) (w : Window) (s : State) : State :=
  let s1 := s.setCtx c { s.ctx c with windows := (s.ctx c).windows.set i w }
  (agentWrite s1 (c / 64) ((s.ctx c).recA + 0x100 + 32 * i + 12)
    [BitVec.ofNat 8 ((if w.en then 1 else 0) + (if w.gen % 2 = 1 then 2 else 0))]).getD s1
/-- Writes not yet performed land in the new back (R232). -/
def flipWrites (c : Nat) (w : Window) (s0 s : State) : State :=
  let op (o : EngOp) : EngOp := { o with dstPages := pagesMoved w o.dstPages }
  let sl (y : Slot) : Slot := if y.holder = some c && !y.ops.isEmpty then { y with ops := y.ops.map op } else y
  let s3 := s.mapHarts (flipStores s0 c w)
  { s3 with
    slots := s3.slots.map (fun p => (p.1, sl p.2))
    spills := s3.spills.map (fun p => if p.1 / 512 = c then (p.1, ⟨sl p.2.slot, p.2.harts.map (flipStores s0 c w)⟩) else p)
    colls := s3.colls.map (fun o => if o.ctx = c then { o with dstPages := pagesMoved w o.dstPages } else o) }
theorem flipWindow_some {c i : Nat} {w : Window} {s : State} (hw : (s.ctx c).windows[i]? = some w) : flipWindow c i s =
    flipWrites c { w with gen := w.gen + 1 } s (flipRecord c i { w with gen := w.gen + 1 } s) := by
  unfold flipWindow
  simp only [hw]
  rfl
theorem flipRecord_withHart (c i : Nat) (w : Window) (s : State) (x : Hart) :
    flipRecord c i w (s.withHart x) = (flipRecord c i w s).withHart x := by
  unfold flipRecord
  dsimp only
  rw [show (s.withHart x).ctx c = s.ctx c from rfl,
    show (s.withHart x).setCtx c { s.ctx c with windows := (s.ctx c).windows.set i w } =
      (s.setCtx c { s.ctx c with windows := (s.ctx c).windows.set i w }).withHart x from rfl, agentWrite_withHart]
  generalize agentWrite _ _ _ _ = o
  cases o <;> rfl

/-- The flip of a window does not depend on a hart without pending stores, nor change it (R232). -/
theorem flipWindow_withHart {s : State} {x : Hart} (hx : x.sbuf = []) (c i : Nat) :
    flipWindow c i (s.withHart x) = (flipWindow c i s).withHart x := by
  cases hw : (s.ctx c).windows[i]? with
  | none =>
    unfold flipWindow
    simp only [show (s.withHart x).ctx c = s.ctx c from rfl, hw]
  | some w =>
    rw [flipWindow_some (s := s.withHart x) hw, flipWindow_some hw, flipRecord_withHart]
    exact congrArg (flipWrites c _ s (flipRecord c i _ s)).withHart (flipStores_none hx s c _)
theorem flipRecord_keeps (c i : Nat) (w : Window) (s : State) : let t := flipRecord c i w s
    t.hart = s.hart ∧ t.launches = s.launches ∧ ∀ k, (t.ctx k).level = (s.ctx k).level := by
  unfold flipRecord
  dsimp only
  generalize hs1 : s.setCtx c { s.ctx c with windows := (s.ctx c).windows.set i w } = s1
  have hlevel : ∀ k, (s1.ctx k).level = (s.ctx k).level := fun k => by
    rw [← hs1, State.setCtx_ctx]
    split
    · next h => rw [h]
    · rfl
  have h1 : s1.hart = s.hart ∧ s1.launches = s.launches := by rw [← hs1]; exact ⟨rfl, rfl⟩
  cases ho : agentWrite s1 (c / 64) _ _ with
  | none => exact ⟨h1.1, h1.2, hlevel⟩
  | some u =>
    have hu := agentWrite_homed ho
    exact ⟨hu.hart.trans h1.1, hu.launches.trans h1.2, fun k => (hu.level k).trans (hlevel k)⟩
theorem flipWindow_keeps {s : State} (hs : s.hart.sbuf = []) (c i : Nat) : let t := flipWindow c i s
    t.hart = s.hart ∧ t.launches = s.launches ∧ ∀ k, (t.ctx k).level = (s.ctx k).level := by
  cases hw : (s.ctx c).windows[i]? with
  | none =>
    unfold flipWindow
    simp only [hw, implies_true, and_self]
  | some w =>
    rw [flipWindow_some hw]
    obtain ⟨hh, hl, hc⟩ := flipRecord_keeps c i { w with gen := w.gen + 1 } s
    refine ⟨?_, hl, hc⟩
    show flipStores s c _ (flipRecord c i _ s).hart = _
    rw [hh, flipStores_none hs]

end Sys2Proof.Machine
end

section
/-! PHASE, PUBLISH and YIELD (R216, R227, R232 to R234, R266), under no order log. -/

namespace Sys2Proof.Machine

/-! ## A phase boundary (R216) -/

/-- The hart at a stage of a phase boundary, with the cut it took. -/
def Hart.atStage (h : Hart) (n cut : Nat) : Hart := { h with relStage := n, relCut := cut }

theorem nextCut_focus (s : State) : nextCut s s.hart.id =
    if s.hart.diverged then (s.ctx (ctxOf s s.hart)).cut else (s.ctx (ctxOf s s.hart)).cut + 1 := by
  unfold nextCut
  rw [State.hartOf_focus]
theorem acquireAt_atStage (s : State) (n cut : Nat) : acquireAt (s.withHart (s.hart.atStage n cut)) s.hart.id =
    (acquireAt s s.hart.id).withHart ((acquireAt s s.hart.id).hart.atStage n cut) := by
  have hcut : nextCut (s.withHart (s.hart.atStage n cut)) s.hart.id = nextCut s s.hart.id :=
    (nextCut_focus (s.withHart (s.hart.atStage n cut))).trans (nextCut_focus s).symm
  have hleft := acquireCut_focus (s.withHart (s.hart.atStage n cut)) (nextCut s s.hart.id)
  unfold acquireAt
  rw [hcut, acquireCut_focus s]
  exact hleft

/-- What lies between a boundary's release and its acquire keeps, where it looks at no more of the hart than that. -/
structure Between (r v : State) (m : M Unit) : Prop where
  hart : v.hart = r.hart
  launches : ∀ l, (v.launch l).ctx = (r.launch l).ctx
  level : ∀ c, (v.ctx c).level = (r.ctx c).level
  runs : ∀ n cut, m (r.withHart (r.hart.atStage n cut)) = .ok () (v.withHart (r.hart.atStage n cut))

theorem Between.none (r : State) : Between r r (pure ()) := ⟨rfl, fun _ => rfl, fun _ => rfl, fun _ _ => rfl⟩

theorem modHartNo_atStage {id : Nat} (s : State) {x : Hart} (n k cut : Nat) (hid : x.id = id) :
    modHartNo id (fun x => { x with relStage := k }) (s.withHart (x.atStage n cut)) = .ok () (s.withHart (x.atStage k cut)) :=
  modHartNo_focus (s := s.withHart (x.atStage n cut)) hid _ hid

/-- What a boundary leaves of the order log's level (R294). -/
theorem Between.unlogged {s v : State} {m : M Unit} (hb : Between (releaseAt s s.hart.id) v m) (hu : Unlogged s) (n cut : Nat) :
    Unlogged ((acquireAt v s.hart.id).withHart ((acquireAt v s.hart.id).hart.atStage n cut)) := by
  obtain ⟨hrel, hlaunches, hlevel⟩ := releaseAt_keeps s
  have hid : v.hart.id = s.hart.id := by rw [hb.hart, hrel]
  have hlaunch : v.hart.launch = s.hart.launch := by rw [hb.hart, hrel]
  have hctx : ctxOf v v.hart = ctxOf s s.hart := by
    unfold ctxOf
    rw [hlaunch, hb.launches]
    unfold State.launch
    rw [hlaunches]
  have hsame : ((acquireAt v v.hart.id).ctx (ctxOf v v.hart)).level = (s.ctx (ctxOf v v.hart)).level := by
    unfold acquireAt
    rw [acquireCut_focus, State.withHart_ctx_same, State.setCtx_ctx_self, hb.level, hlevel]
  have hown : ctxOf (acquireAt v v.hart.id) (acquireAt v v.hart.id).hart = ctxOf v v.hart := by
    unfold acquireAt
    rw [acquireCut_focus]
    rfl
  rw [← hid]
  have hstays : Unlogged (acquireAt v v.hart.id) := by
    unfold Unlogged
    rw [hown, hsame, hctx]
    exact hu
  exact hstays

theorem boundary_unlogged {s v : State} {m : M Unit} (hu : Unlogged s) (hr : s.hart.relStage = 0)
    (hb : Between (releaseAt s s.hart.id) v m) (ev : Nat) : boundary s.hart.id ev true true m s =
      .ok () ((acquireAt v s.hart.id).withHart ((acquireAt v s.hart.id).hart.atStage 0 (nextCut s s.hart.id))) := by
  have hlog : logCheck s.hart.id 5 0 ev 7 s = .ok none s := logCheckIn_unlogged hu 5 0 _ ev 7
  have hcut : ∀ t, takeCut s.hart.id none t = .ok (nextCut t s.hart.id) t := fun _ => rfl
  have hrid : (releaseAt s s.hart.id).hart.id = s.hart.id := by rw [(releaseAt_keeps s).1]
  have hvid : v.hart.id = s.hart.id := by rw [hb.hart, hrid]
  have hacquire := acquireAt_atStage v 2 (nextCut s s.hart.id)
  have haid : (acquireAt v s.hart.id).hart.id = s.hart.id := by rw [← hvid, (acquireAt_keeps v).1]
  have hunlogged := hb.unlogged hu 2 (nextCut s s.hart.id)
  rw [hvid] at hacquire
  generalize hid : s.hart.id = id at *
  unfold boundary
  rw [M.bind_ok hlog]
  simp only [Option.map_none, Bool.or_self, Bool.false_eq_true, if_false, M.hartNo_bind, ← hid, State.hartOf_self, hr, Bool.true_and,
    decide_true, if_true]
  rw [hid, M.bind_ok (hcut s), M.modify_bind]
  change (modHartNo id (fun x => x.atStage 1 (nextCut s id)) >>= _) (releaseAt s id) = _
  generalize nextCut s id = n, releaseAt s id = r at *
  have hstage : (r.withHart (r.hart.atStage 1 n)).hartOf id = r.hart.atStage 1 n := by
    rw [← hrid]
    exact State.hartOf_focus (r.withHart (r.hart.atStage 1 n))
  rw [M.bind_ok (modHartNo_focus hrid _ hrid), M.hartNo_bind, hstage,
    if_pos (show (r.hart.atStage 1 n).relStage ≤ 1 from le_rfl), M.bind_ok (hb.runs 1 n), M.bind_ok (modHartNo_atStage v 1 2 n hrid), M.bind_ok (hcut _), M.modify_bind]
  change (hartNo id >>= _) (acquireAt (v.withHart (r.hart.atStage 2 n)) id) = _
  rw [← hb.hart, hacquire, M.hartNo_bind]
  have hdone := fun addr ev => logDone_unlogged hunlogged 5 addr ev 0 0 none
  rw [show ((acquireAt v id).withHart ((acquireAt v id).hart.atStage 2 n)).hart.id = id from haid] at hdone
  rw [M.bind_ok (hdone _ _)]
  exact modHartNo_atStage _ 2 0 n haid

/-- What of the hart a boundary leaves (R216). -/
theorem Between.hart_after {s v : State} {m : M Unit} (hb : Between (releaseAt s s.hart.id) v m) :
    (acquireAt v s.hart.id).hart = { s.hart with
      sbuf := [], rels := (releaseAt s s.hart.id).hart.rels, lastAcq := (acquireAt v s.hart.id).hart.lastAcq,
      views := (acquireAt v s.hart.id).hart.views } := by
  have hvid : v.hart.id = s.hart.id := by rw [hb.hart, (releaseAt_keeps s).1]
  have ha := (acquireAt_keeps v).1
  rw [hvid] at ha
  rw [ha, hb.hart, (releaseAt_keeps s).1]

/-- A hart past a boundary, at its next instruction. -/
def pastBoundary (s v : State) (go : Hart → Hart) : State :=
  let u := acquireAt v s.hart.id
  u.withHart (go { u.hart with relCut := nextCut s s.hart.id, relStage := 0, pc := s.hart.pc + 4 })
theorem Between.advance {s v : State} {m : M Unit} (hb : Between (releaseAt s s.hart.id) v m) :
    ((acquireAt v s.hart.id).withHart ((acquireAt v s.hart.id).hart.atStage 0 (nextCut s s.hart.id))).advance =
      pastBoundary s v (fun x => x) := by
  have hpc : (acquireAt v s.hart.id).hart.pc = s.hart.pc := by rw [hb.hart_after]
  unfold pastBoundary
  rw [← hpc]
  rfl

/-! ## PHASE and YIELD (R227, R266) -/

theorem phaseM_free {s : State} (hu : Unlogged s) (hq : s.hart.queue = [] ∨ s.hart.frozen = true) (hr : s.hart.relStage = 0) :
    phaseM s = .ok () (pastBoundary s (releaseAt s s.hart.id) (fun x => x)) := by
  have hb := Between.none (releaseAt s s.hart.id)
  unfold phaseM
  rw [M.bind_ok (drained_free hq), M.hart_bind, M.bind_ok (boundary_unlogged hu hr hb 0), M.nextInstr_run, hb.advance]

theorem releaseAt_slots (s : State) : (releaseAt s s.hart.id).slots = s.slots := by
  obtain ⟨hist, tabs, he⟩ := releaseCut_focus s (nextCut s s.hart.id)
  exact (congrArg State.slots he).trans (allHome_brought s _).slots
theorem acquireAt_slots (s : State) : (acquireAt s s.hart.id).slots = s.slots := by
  unfold acquireAt
  rw [acquireCut_focus]
  rfl
theorem safePoint_congr {s t : State} {h x : Hart} (hslots : t.slots = s.slots)
    (hx : x.queue = h.queue ∧ x.frozen = h.frozen ∧ x.slotId = h.slotId ∧ x.id = h.id) : safePoint t x = safePoint s h := by
  obtain ⟨hqueue, hfrozen, hslot, hid⟩ := hx
  unfold safePoint State.slot
  rw [hslots, hqueue, hfrozen, hslot, hid]
/-- A release and an acquire leave a safe point one (R266). -/
theorem safePoint_boundary {s : State} (h : safePoint s s.hart = true) (n cut : Nat) :
    safePoint ((acquireAt (releaseAt s s.hart.id) s.hart.id).withHart ((acquireAt (releaseAt s s.hart.id) s.hart.id).hart.atStage n cut))
      ((acquireAt (releaseAt s s.hart.id) s.hart.id).hart.atStage n cut) = true := by
  have hid : (releaseAt s s.hart.id).hart.id = s.hart.id := by rw [(releaseAt_keeps s).1]
  have hslots : (acquireAt (releaseAt s s.hart.id) s.hart.id).slots = s.slots := by
    have ha := acquireAt_slots (releaseAt s s.hart.id)
    rw [hid] at ha
    rw [ha, releaseAt_slots]
  have hh := (Between.none (releaseAt s s.hart.id)).hart_after
  generalize acquireAt (releaseAt s s.hart.id) s.hart.id = u at *
  refine (safePoint_congr (s := s) (h := s.hart) hslots ?_).trans h
  rw [hh]
  exact ⟨rfl, rfl, rfl, rfl⟩

/-- YIELD from its boundary on (R266, R452). -/
theorem yieldM_after {s t : State} (hq : s.hart.queue = [] ∨ s.hart.frozen = true) (hr : s.hart.relStage = 0)
    (hbound : boundary s.hart.id 1 true true (pure ()) s = .ok () t)
    (hsafe : safePoint (t.withHart { t.hart with relStage := 4 }) { t.hart with relStage := 4 } = true) :
    let x := { t.hart with relStage := 0, pc := t.hart.pc + 4 }
    yieldM s = .ok () (t.withHart (if t.hart.yreq then { x with run := .stopped } else x)) := by
  unfold yieldM
  rw [M.hart_bind, if_pos (by rw [hr]; decide), M.bind_ok (drained_free hq), M.hart_bind, M.bind_ok hbound]
  simp only [M.modHart_bind, M.get_bind, M.hart_bind, State.withHart_hart, hsafe, Bool.not_true, Bool.false_eq_true, if_false,
    M.nextInstr_bind, M.modHart_run, State.advance, State.goto]
  rfl
theorem yieldM_free {s : State} (hu : Unlogged s) (hq : s.hart.queue = [] ∨ s.hart.frozen = true) (hr : s.hart.relStage = 0)
    (hsafe : safePoint s s.hart = true) : yieldM s = .ok () (pastBoundary s (releaseAt s s.hart.id)
      (fun x => if s.hart.yreq then { x with run := .stopped } else x)) := by
  have hb := Between.none (releaseAt s s.hart.id)
  have hstays := safePoint_boundary hsafe 4 (nextCut s s.hart.id)
  have hbound := boundary_unlogged hu hr hb 1
  have hpc : (acquireAt (releaseAt s s.hart.id) s.hart.id).hart.pc = s.hart.pc := by rw [hb.hart_after]
  have hyreq : (acquireAt (releaseAt s s.hart.id) s.hart.id).hart.yreq = s.hart.yreq := by rw [hb.hart_after]
  unfold pastBoundary
  dsimp only
  rw [← hpc, ← hyreq]
  generalize acquireAt (releaseAt s s.hart.id) s.hart.id = u at *
  exact yieldM_after hq hr hbound hstays

/-! ## PUBLISH (R232 to R234) -/

/-- What PUBLISH of window `i` of context `c` does between its release and its acquire (R232, R234). -/
def published (f : BitVec 1) (c i launch : Nat) (s : State) : State :=
  if f = 0 then flipWindow c i s
  else s.setLaunch launch { s.launch launch with deferred := (s.launch launch).deferred ||| (1#32 <<< i) }
theorem published_withHart {s : State} {x : Hart} (hx : x.sbuf = []) (f : BitVec 1) (c i launch : Nat) :
    published f c i launch (s.withHart x) = (published f c i launch s).withHart x := by
  unfold published
  split
  · exact flipWindow_withHart hx c i
  · rfl
theorem published_keeps {s : State} (hs : s.hart.sbuf = []) (f : BitVec 1) (c i launch : Nat) :
    let t := published f c i launch s
    t.hart = s.hart ∧ (∀ l, (t.launch l).ctx = (s.launch l).ctx) ∧ ∀ k, (t.ctx k).level = (s.ctx k).level := by
  unfold published
  split
  · obtain ⟨hhart, hlaunches, hlevel⟩ := flipWindow_keeps hs c i
    exact ⟨hhart, fun l => by unfold State.launch; rw [hlaunches], hlevel⟩
  · refine ⟨rfl, fun l => ?_, fun _ => rfl⟩
    rw [State.setLaunch_launch]
    split
    · next h => rw [h]
    · rfl
/-- PUBLISH's flip, as it stands between its boundary's two halves. -/
def publishing (f : BitVec 1) (c i launch : Nat) : M Unit :=
  if f = 0 then modify (flipWindow c i)
  else modify (fun s => s.setLaunch launch { s.launch launch with deferred := (s.launch launch).deferred ||| (1#32 <<< i) })
theorem publishing_run (f : BitVec 1) (c i launch : Nat) (s : State) :
    publishing f c i launch s = .ok () (published f c i launch s) := by
  unfold publishing published
  split <;> rfl
theorem Between.publishing {r : State} (hr : r.hart.sbuf = []) (f : BitVec 1) (c i launch : Nat) :
    Between r (published f c i launch r) (publishing f c i launch) := by
  obtain ⟨hhart, hlaunch, hlevel⟩ := published_keeps hr f c i launch
  refine ⟨hhart, hlaunch, hlevel, fun n cut => ?_⟩
  rw [publishing_run, published_withHart (x := r.hart.atStage n cut) hr]

theorem publishCore_due {s : State} {p : BitVec 5} (f : BitVec 1) {w : Window}
    (hw : (s.ctx (ctxOf s s.hart)).windows[p.toNat]? = some w) (hen : w.en = true) (howed : windowOwed s s.hart w = false) :
    publishCore p f s = boundary s.hart.id 2 true true (publishing f (ctxOf s s.hart) p.toNat s.hart.launch) s := by
  unfold publishCore
  simp only [M.hart_bind, M.ctxM_bind, State.hartOf_self, hw, hen, Bool.not_true, Bool.false_eq_true, if_false, M.get_bind,
    howed, Bool.and_false]
  rfl
theorem publishM_free {s : State} {p : BitVec 5} {f : BitVec 1} {w : Window} (hu : Unlogged s)
    (hq : s.hart.queue = [] ∨ s.hart.frozen = true) (hr : s.hart.relStage = 0)
    (hw : (s.ctx (ctxOf s s.hart)).windows[p.toNat]? = some w) (hen : w.en = true) (howed : windowOwed s s.hart w = false) :
    publishM p f s = .ok () (pastBoundary s
      (published f (ctxOf s s.hart) p.toNat s.hart.launch (releaseAt s s.hart.id)) (fun x => x)) := by
  have hb := Between.publishing (r := releaseAt s s.hart.id) (by rw [(releaseAt_keeps s).1]) f (ctxOf s s.hart) p.toNat s.hart.launch
  have hcore := (publishCore_due f hw hen howed).trans (boundary_unlogged hu hr hb 2)
  unfold publishM
  simp only [M.hart_bind, M.ctxM_bind, State.hartOf_self, hw, Option.all_some, hen, Bool.not_true, Bool.false_eq_true, if_false]
  rw [M.bind_ok (drained_free hq), M.bind_ok hcore, M.nextInstr_run, hb.advance]
theorem publishM_disabled {s : State} {p : BitVec 5} {w : Window} (f : BitVec 1)
    (hw : (s.ctx (ctxOf s s.hart)).windows[p.toNat]? = some w) (hen : w.en = false) :
    publishM p f s = .error (.trap .illegalOp .read ((encode (.publish p f)).zeroExtend 64)) s := by
  unfold publishM illegal
  simp only [M.hart_bind, M.ctxM_bind, State.hartOf_self, hw, Option.all_some, hen, Bool.not_false, if_true, M.trap_bind]

/-- Settles O42: a boundary is a release, what lies between, which looks at no store of the hart, and an acquire. -/
theorem phaseBoundaries : Obligations.PhaseBoundaries := by
  intro s p f h c id r ends hu hq hr
  have hphase : exec .phase s = _ := scalar_ok (phaseM_free hu hq hr)
  have hyield : safePoint s s.hart = true → exec .yield s = _ := fun hsafe => scalar_ok (yieldM_free hu hq hr hsafe)
  have hpublish : ∀ w, (s.ctx c).windows[p.toNat]? = some w → w.en = true → windowOwed s s.hart w = false →
      exec (.publish p f) s = _ := fun w hw hen howed => scalar_ok (publishM_free hu hq hr hw hen howed)
  have hdisabled : ∀ w, (s.ctx c).windows[p.toNat]? = some w → w.en = false →
      exec (.publish p f) s = _ := fun w hw hen => scalar_trap (publishM_disabled f hw hen)
  refine ⟨⟨_, hphase, ?_⟩, fun hsafe => ⟨_, hyield hsafe, ?_⟩,
    fun w hw => ⟨fun hen howed => ⟨_, hpublish w hw hen howed, ?_⟩, hdisabled w hw⟩⟩
  · simp only [ends, pastBoundary, r, id, h]
  · simp only [ends, pastBoundary, r, id, h]
  · simp only [ends, pastBoundary, published, r, id, h, c]

end Sys2Proof.Machine
end
